-- ==== Sys2Proof/Word.lean ====
section
/-! DEFINITION. The word types of the device (R5, R60, R63). -/

namespace Sys2Proof

/-- One byte of memory. -/
abbrev Byte := BitVec 8
/-- The value of one v or s register (R68). -/
abbrev W32 := BitVec 32
/-- A 64-bit value: a register pair, an address, a PC (R42, R69, R158). -/
abbrev W64 := BitVec 64
/-- An instruction word (R60). -/
abbrev W96 := BitVec 96

end Sys2Proof
end

