-- ==== Sys2Proof/Machine/Bits.lean ====
section
/-! DEFINITION. Bit-field, sign-extension and byte-order helpers, and the sparse maps that memories and tables are held in. -/

namespace Sys2Proof.Machine

/-- Bits lo + len − 1 : lo of a word (R5). -/
def field {n : Nat} (x : BitVec n) (lo len : Nat) : BitVec len := x.extractLsb' lo len

/-- Bits hi:lo of a number (R5). -/
def natBits (x hi lo : Nat) : Nat := (x >>> lo) % 2 ^ (hi - lo + 1)

/-- The signed value of a bit field. -/
def sval {n : Nat} (x : BitVec n) : Int := x.toInt

/-- Two's complement pattern of an integer, modulo 2^n (R98). -/
def ofIntMod (n : Nat) (x : Int) : BitVec n := BitVec.ofInt n x

/-- The 64-bit value of a register pair, low half in the even register (R69). -/
def pairVal (lo hi : W32) : W64 := hi ++ lo

/-- The low half of a 64-bit value. -/
def loHalf (x : W64) : W32 := x.extractLsb' 0 32

/-- The high half of a 64-bit value. -/
def hiHalf (x : W64) : W32 := x.extractLsb' 32 32

/-- The n low bytes of a number, lowest first (little-endian, R60, R212). -/
def bytesOf : (n : Nat) → Nat → List Byte
  | 0, _ => []
  | n + 1, x => BitVec.ofNat 8 x :: bytesOf n (x >>> 8)

/-- The number that little-endian bytes hold. -/
def ofBytes : List Byte → Nat
  | [] => 0
  | b :: bs => b.toNat + 256 * ofBytes bs

/-- The numbers lo, lo + 1, …, lo + n − 1. -/
def rangeFrom (lo : Nat) : Nat → List Nat
  | 0 => []
  | n + 1 => lo :: rangeFrom (lo + 1) n

/-- The first n numbers. -/
def upto (n : Nat) : List Nat := rangeFrom 0 n

/-- Bit i of a mask. -/
def maskBit {n : Nat} (m : BitVec n) (i : Nat) : Bool := m.getLsbD i

/-- The mask with the listed bits set. -/
def maskOf (n : Nat) : List Nat → BitVec n
  | [] => 0
  | i :: is => (BitVec.ofNat n (2 ^ i)) ||| maskOf n is

/-- Smallest power-of-two multiple test. -/
def aligned (x a : Nat) : Bool := x % a == 0

/-- Exact quotient rounded up. -/
def ceilDiv (x y : Nat) : Nat := (x + y - 1) / y

/-! ## Sparse maps: keys strictly rising, no entry equal to the default -/

/-- A sparse map from numbers, with a value for unlisted keys given at each use. -/
abbrev SMap (α : Type) := List (Nat × α)

/-- The value at a key; `d` where the key is not listed. -/
def SMap.get {α : Type} (d : α) : SMap α → Nat → α
  | [], _ => d
  | (k, v) :: m, i => if i = k then v else SMap.get d m i

/-- The entry at a key, where one is listed. -/
def SMap.find {α : Type} : SMap α → Nat → Option α
  | [], _ => none
  | (k, v) :: m, i => if i = k then some v else SMap.find m i

/-- The map without a key. -/
def SMap.erase {α : Type} : SMap α → Nat → SMap α
  | [], _ => []
  | (k, v) :: m, i => if i = k then SMap.erase m i else (k, v) :: SMap.erase m i

/-- The map with a key listed at a value. -/
def SMap.put {α : Type} : SMap α → Nat → α → SMap α
  | [], i, x => [(i, x)]
  | (k, v) :: m, i, x =>
    if i = k then (i, x) :: m else if i < k then (i, x) :: (k, v) :: m else (k, v) :: SMap.put m i x

/-- The map with a key at a value; the default value unlists the key. -/
def SMap.set {α : Type} [DecidableEq α] (d : α) (m : SMap α) (i : Nat) (x : α) : SMap α :=
  if x = d then m.erase i else m.put i x

/-- The map with one listed entry changed. -/
def SMap.modify {α : Type} (m : SMap α) (i : Nat) (f : α → α) : SMap α :=
  match m.find i with
  | some x => m.put i (f x)
  | none => m

/-- Keys strictly rising from a bound, no entry equal to the default. -/
def SMap.wfFrom {α : Type} [DecidableEq α] (d : α) : Nat → SMap α → Bool
  | _, [] => true
  | lo, (k, v) :: m => decide (lo ≤ k) && decide (v ≠ d) && SMap.wfFrom d (k + 1) m

/-- The canonical form of a sparse map with default `d`. -/
def SMap.wf {α : Type} [DecidableEq α] (d : α) (m : SMap α) : Bool := SMap.wfFrom d 0 m

/-- The listed keys. -/
def SMap.keys {α : Type} (m : SMap α) : List Nat := m.map Prod.fst

/-- The listed values. -/
def SMap.vals {α : Type} (m : SMap α) : List α := m.map Prod.snd

/-! ## Lists -/

/-- The list with place i replaced; unchanged when there is no such place. -/
def listSet {α : Type} : List α → Nat → α → List α
  | [], _, _ => []
  | _ :: xs, 0, y => y :: xs
  | x :: xs, i + 1, y => x :: listSet xs i y

/-- The list with place i changed by a function. -/
def listModify {α : Type} (xs : List α) (i : Nat) (f : α → α) : List α :=
  match xs[i]? with
  | some x => listSet xs i (f x)
  | none => xs

/-- The list without place i. -/
def listErase {α : Type} : List α → Nat → List α
  | [], _ => []
  | _ :: xs, 0 => xs
  | x :: xs, i + 1 => x :: listErase xs i

/-- Each element changed by a function of its place. -/
def mapFrom {α β : Type} (f : Nat → α → β) : Nat → List α → List β
  | _, [] => []
  | i, x :: xs => f i x :: mapFrom f (i + 1) xs

/-- The places, counted from i, whose element satisfies a test. -/
def placesFrom {α : Type} (p : α → Bool) : Nat → List α → List Nat
  | _, [] => []
  | i, x :: xs => if p x then i :: placesFrom p (i + 1) xs else placesFrom p (i + 1) xs

/-- The places whose element satisfies a test. -/
def places {α : Type} (p : α → Bool) (xs : List α) : List Nat := placesFrom p 0 xs

/-- Insert into a rising list of numbers, once. -/
def insertNat (n : Nat) : List Nat → List Nat
  | [] => [n]
  | m :: ms => if n = m then m :: ms else if n < m then n :: m :: ms else m :: insertNat n ms

/-- The list with repeats removed, rising. -/
def sortDedup (xs : List Nat) : List Nat := xs.foldr insertNat []

/-- The least element of a list. -/
def minOf : List Nat → Option Nat
  | [] => none
  | x :: xs => match minOf xs with
    | none => some x
    | some y => some (if x ≤ y then x else y)

/-- The greatest element of a list, 0 for the empty list. -/
def maxOf (xs : List Nat) : Nat := xs.foldl Nat.max 0

/-- Cut a list into pieces of n elements, the last possibly shorter; `fuel` bounds the pieces. -/
def chunksOf {α : Type} (n : Nat) : Nat → List α → List (List α)
  | 0, _ => []
  | _ + 1, [] => []
  | fuel + 1, xs => xs.take n :: chunksOf n fuel (xs.drop n)

end Sys2Proof.Machine
end

