-- ==== Sys2Proof/Syntax.lean ====
section
/-! DEFINITION. The instructions and events of the B940: one constructor of `Instr` per row of spec/opcode_table.json. -/

namespace Sys2Proof

/-! ## Operands and field codes -/

/-- The named constants of Table 5-3 (R67). -/
inductive Konst where
  | zero | one | lane | glane | group | tx | ty | tz | tlin | ntx | nty | ntz
  | ngroup | nprod | role | coreno | ones | f1 | fhalf | f2 | fm1 | active
  deriving DecidableEq, Repr

/-- A 9-bit operand field (Table 5-2, R66). -/
inductive Opnd where
  | v (n : Fin 320)
  | s (n : Fin 64)
  | k (c : Konst)
  deriving DecidableEq, Repr

/-- The type codes of Table 5-11 (R78). -/
inductive Ty where
  | b32 | b64 | i4 | i8 | i16 | i32 | i64 | n4 | n8 | n16 | n32 | n64
  | f4 | f8a | f8b | f16 | bf16 | f32 | x2
  deriving DecidableEq, Repr

/-- The rounding modes of Table 5-12 (R79). -/
inductive Rnd where
  | rne | rtz | rup | rdn
  deriving DecidableEq, Repr

/-- The comparisons of Table 5-12 (R79). -/
inductive Cmp where
  | eq | ne | lt | le | gt | ge | num | nan
  deriving DecidableEq, Repr

/-- The scopes of Table 0-3, narrowest first (R9, R80). -/
inductive Scope where
  | g | t | c | k | d | p | s
  deriving DecidableEq, Repr

/-- The access sizes of Table 5-8 (R74). -/
inductive Size where
  | b1 | b2 | b4 | b8 | b16
  deriving DecidableEq, Repr

/-- The order codes of Table 5-8. -/
inductive Order where
  | relaxed | acquire | release | acqrel
  deriving DecidableEq, Repr

/-- The cache policies of Table 11-7 (R175). -/
inductive Policy where
  | normal | evictFirst | bypass | retain
  deriving DecidableEq, Repr

/-- The fields shared by every format (Table 5-1): guard, pace, cede and latch (R63 to R65). -/
structure Hdr where
  gneg : Bool
  gpred : Fin 8
  pace : Fin 8
  cede : Bool
  latchA : Bool
  latchB : Bool
  deriving DecidableEq, Repr

/-- The fields of formats V and I (Tables 5-6 and 5-7). `imm` is present in format I, where field opb holds
operand C and the immediate stands as operand B (R73). -/
structure VF where
  d : Opnd
  a : Opnd
  b : Opnd
  c : Opnd
  imm : Option (BitVec 32)
  sub : BitVec 6
  ty : Ty
  rc : BitVec 3
  sat : Bool
  nega : Bool
  negb : Bool
  absa : Bool
  absb : Bool
  pred : Fin 8
  mod : BitVec 19
  deriving DecidableEq, Repr

/-- The fields of format M (Table 5-8). -/
structure MF where
  d : Opnd
  a : Opnd
  b : Opnd
  off : BitVec 24
  size : Size
  scope : Scope
  policy : Policy
  order : Order
  sext : Bool
  sub : BitVec 6
  pred : Fin 8
  mod : BitVec 7
  deriving DecidableEq, Repr

/-- The fields of format E (Table 5-9). -/
structure EF where
  d : Opnd
  a : Opnd
  b : Opnd
  bar : Fin 16
  shp : Fin 16
  acc : Fin 16
  tid : BitVec 8
  spair : Fin 32
  sub : BitVec 6
  mod : BitVec 20
  deriving DecidableEq, Repr

/-- The fields of format C (Table 5-10). -/
structure CF where
  d : Opnd
  a : Opnd
  b : Opnd
  off : BitVec 32
  sub : BitVec 6
  mod : BitVec 13
  deriving DecidableEq, Repr

/-- The operations of a pair (Table 5-14, R81). -/
inductive PairOp where
  | fadd | fsub | fmul | ffma | fmin | fmax | frcp | frsq | fsqrt | fexp2 | flog2 | fsin | fcos | ftanh
  | xadd | xmul | xfma | xmin | xmax | movf
  | iadd | isub | imul | imad | imin | imax | and | or | xor | shl | shr | sar | movi
  deriving DecidableEq, Repr

/-- One operation of a pair: its operation and operands (Table 5-10a). -/
structure PairHalf where
  op : PairOp
  d : Opnd
  a : Opnd
  b : Opnd
  deriving DecidableEq, Repr

/-- The fields of format P (Table 5-10a); the main guard of the header governs operation 0 (R77). -/
structure PF where
  op0 : PairHalf
  op1 : PairHalf
  g1neg : Bool
  g1pred : Fin 8
  deriving DecidableEq, Repr

/-! ## What events name -/

/-- One direction of one module of a die link (R295): the stream that `fromHi` says the higher or lower die sends. -/
structure StreamId where
  lo : Nat
  hi : Nat
  module : Nat
  fromHi : Bool
  deriving DecidableEq, Repr

/-- A Fesel packet (Table 19-5); its len is that of the payload in 64-byte units. -/
structure Fesel where
  kind : BitVec 5
  dst : BitVec 20
  src : BitVec 20
  comm : BitVec 16
  gen : BitVec 16
  fid : BitVec 32
  vaddr : BitVec 64
  code : BitVec 8
  tctx : BitVec 16
  aux : BitVec 32
  payload : List Byte
  /-- what a receiver needs of a third-party read, collective or verdict and Table 19-6 gives no place (log 31) -/
  extra : List (BitVec 64) := []
  deriving DecidableEq, Repr

/-- A cache that CACHE_LINE_TIMEOUT names (R173). -/
inductive CacheUnit where
  | l1 (core : Nat)
  | rdc (die : Nat)
  deriving DecidableEq, Repr

/-- What an invalidation names (R195): a context and a range, a context, or everything. -/
inductive InvTarget where
  | range (ctx : Nat) (base len : Nat)
  | context (ctx : Nat)
  | everything
  deriving DecidableEq, Repr

/-- A master that Nopol root freezes or unfreezes (R371). -/
inductive EngineUnit where
  | copy (die n : Nat)
  | gather (stack : Nat)
  | join (die : Nat)
  | agent (core : Nat)
  | ingress (device : BitVec 20)
  | matrix (core : Nat)
  deriving DecidableEq, Repr

/-- Who writes a bind record: Nopol root, or the agent of a core (R278, R279). -/
inductive BindWriter where
  | root
  | agent (core : Nat)
  deriving DecidableEq, Repr

/-- One rank of a rank table (Table 19-7). -/
structure RankEntry where
  valid : Bool
  zc : Bool
  device : BitVec 20
  deriving DecidableEq, Repr

/-- A rank table (Table 19-7). -/
structure RankTable where
  gen : BitVec 16
  self : BitVec 20
  ranks : List RankEntry
  deriving DecidableEq, Repr

/-- The contents of a watch register (R351): base, length, lane mask and control word (Table 21-10). -/
structure WatchReg where
  base : BitVec 64
  len : BitVec 32
  lanes : BitVec 32
  ctl : BitVec 32
  deriving DecidableEq, Repr

/-- A virtual range of one context. -/
structure VRange where
  base : Nat
  len : Nat
  deriving DecidableEq, Repr

/-- A queue pair of a host port (R318). -/
structure QueuePair where
  port : Nat
  qp : Nat
  deriving DecidableEq, Repr

/-- What Nopol root gives a context when it creates it (R370): its root table, control registers, buffers, watch set,
response timeout in cycles, adopted rank tables, cadence, admission list, the ranges whose translation faults firmware
serves, its save area (R289) and fabric keys; and what Nopol root writes at bring-up. -/
structure ContextInit where
  root : Nat
  tagctl : BitVec 2
  tidbase : BitVec 64
  dbgctl : Bool
  timeout : Nat
  watch : List WatchReg
  eventDesc : Option Nat
  sampleDesc : Option Nat
  comms : List (Nat × RankTable)
  cadence : Bool
  admitted : List (BitVec 20)
  pager : List VRange
  saveArea : Option VRange
  keys : List (BitVec 8)
  /-- physical ranges registered for the host, and the debug mailbox (R318, R366) -/
  windows : List VRange
  mailbox : Option VRange
  /-- device identifier (R15), root table of the firmware half (R159), and each die's event buffer descriptor for Nopol root (R356) -/
  devid : BitVec 20
  fwRoot : Nat
  rootDescs : List (Nat × Nat)
  deriving DecidableEq, Repr

/-- An image offered for admission (R369): its kind (true: Nopol agent), bytes, the key offered and the signature. -/
structure Image where
  agent : Bool
  bytes : List Byte
  modulus : Nat
  exponent : Nat
  signature : Nat
  deriving DecidableEq, Repr

/-- What starts an exit to L0 (R292). -/
inductive WakeCause where
  | wridx | ingress | tolerance
  deriving DecidableEq, Repr

/-- One constructor per row of spec/opcode_table.json: the instructions, then the events of the device. -/
inductive Instr where
  -- compute (Compute Instructions)
  | iadd (h : Hdr) (f : VF) | isub (h : Hdr) (f : VF) | iaddc (h : Hdr) (f : VF) | imul (h : Hdr) (f : VF)
  | imulh (h : Hdr) (f : VF) | imad (h : Hdr) (f : VF) | idiv (h : Hdr) (f : VF) | irem (h : Hdr) (f : VF)
  | imin (h : Hdr) (f : VF) | imax (h : Hdr) (f : VF) | iabs (h : Hdr) (f : VF) | ineg (h : Hdr) (f : VF)
  | lea (h : Hdr) (f : VF) | and (h : Hdr) (f : VF) | or (h : Hdr) (f : VF) | xor (h : Hdr) (f : VF)
  | not (h : Hdr) (f : VF) | shl (h : Hdr) (f : VF) | shr (h : Hdr) (f : VF) | sar (h : Hdr) (f : VF)
  | rotl (h : Hdr) (f : VF) | bfx (h : Hdr) (f : VF) | bfi (h : Hdr) (f : VF) | popc (h : Hdr) (f : VF)
  | clz (h : Hdr) (f : VF) | brev (h : Hdr) (f : VF) | sel (h : Hdr) (f : VF) | icmp (h : Hdr) (f : VF)
  | mov (h : Hdr) (f : VF) | movi (h : Hdr) (f : VF) | movs (h : Hdr) (f : VF)
  | fadd (h : Hdr) (f : VF) | fsub (h : Hdr) (f : VF) | fmul (h : Hdr) (f : VF) | ffma (h : Hdr) (f : VF)
  | fdiv (h : Hdr) (f : VF) | fmin (h : Hdr) (f : VF) | fmax (h : Hdr) (f : VF) | fcmp (h : Hdr) (f : VF)
  | frcp (h : Hdr) (f : VF) | frsq (h : Hdr) (f : VF) | fsqrt (h : Hdr) (f : VF) | fexp2 (h : Hdr) (f : VF)
  | flog2 (h : Hdr) (f : VF) | fsin (h : Hdr) (f : VF) | fcos (h : Hdr) (f : VF) | ftanh (h : Hdr) (f : VF)
  | fscale (h : Hdr) (f : VF) | fclass (h : Hdr) (f : VF) | frnd (h : Hdr) (f : VF) | xadd (h : Hdr) (f : VF)
  | xmul (h : Hdr) (f : VF) | xfma (h : Hdr) (f : VF) | xmin (h : Hdr) (f : VF) | xmax (h : Hdr) (f : VF)
  | cvt (h : Hdr) (f : VF) | pack (h : Hdr) (f : VF) | unpack (h : Hdr) (f : VF) | dot4 (h : Hdr) (f : VF)
  | dot8 (h : Hdr) (f : VF) | dscl (h : Hdr) (f : VF)
  | shfl (h : Hdr) (f : VF) | vote (h : Hdr) (f : VF) | redl (h : Hdr) (f : VF) | scanl (h : Hdr) (f : VF)
  | match_ (h : Hdr) (f : VF) | elect (h : Hdr) (f : VF) | rng (h : Hdr) (f : VF) | rngseed (h : Hdr) (f : VF)
  | rngskip (h : Hdr) (f : VF) | pair (h : Hdr) (f : PF)
  -- control (Control, Memory and Ordering Instructions)
  | bra (h : Hdr) (f : CF) | brx (h : Hdr) (f : CF) | call (h : Hdr) (f : CF) | callx (h : Hdr) (f : CF)
  | ret (h : Hdr) (f : CF) | join (h : Hdr) (f : CF) | exit (h : Hdr) (f : CF) | trap (h : Hdr) (f : CF)
  | bkpt (h : Hdr) (f : CF) | nop (h : Hdr) (f : CF) | yield (h : Hdr) (f : CF) | syncg (h : Hdr) (f : CF)
  | synct (h : Hdr) (f : CF) | sizesel (h : Hdr) (f : CF) | ink (h : Hdr) (f : CF)
  -- memory, atomics, fences, batches
  | ld (h : Hdr) (f : MF) | st (h : Hdr) (f : MF) | ldl (h : Hdr) (f : MF) | stl (h : Hdr) (f : MF)
  | ldc (h : Hdr) (f : MF) | lds (h : Hdr) (f : MF) | pref (h : Hdr) (f : MF)
  | cctlIl1 (h : Hdr) (f : MF) | cctlIrd (h : Hdr) (f : MF) | cctlWb (h : Hdr) (f : MF)
  | cctlIl1all (h : Hdr) (f : MF) | cctlIrdall (h : Hdr) (f : MF)
  | ldtag (h : Hdr) (f : MF) | sttag (h : Hdr) (f : MF) | atom (h : Hdr) (f : MF) | atomc (h : Hdr) (f : MF)
  | red (h : Hdr) (f : MF) | atomo (h : Hdr) (f : MF) | atoml (h : Hdr) (f : MF)
  | fence (h : Hdr) (f : MF) | fenceo (h : Hdr) (f : MF) | fencex (h : Hdr) (f : MF) | fencep (h : Hdr) (f : MF)
  | cbseal (h : Hdr) (f : MF) | cbwait (h : Hdr) (f : MF)
  -- engines (Copy, Barrier, Shape and Matrix Instructions)
  | cpyLd (h : Hdr) (f : EF) | cpySt (h : Hdr) (f : EF) | cpym (h : Hdr) (f : EF) | cpys (h : Hdr) (f : EF)
  | cpyg (h : Hdr) (f : EF) | cpyx (h : Hdr) (f : EF) | pft (h : Hdr) (f : EF)
  | binit (h : Hdr) (f : EF) | bexpect (h : Hdr) (f : EF) | barrive (h : Hdr) (f : EF) | bwait (h : Hdr) (f : EF)
  | btest (h : Hdr) (f : EF) | barm (h : Hdr) (f : EF) | binv (h : Hdr) (f : EF)
  | pclr (h : Hdr) (f : EF) | ptest (h : Hdr) (f : EF)
  | gld (h : Hdr) (f : EF) | gst (h : Hdr) (f : EF) | gset (h : Hdr) (f : EF) | gget (h : Hdr) (f : EF)
  | tidld (h : Hdr) (f : EF) | tidset (h : Hdr) (f : EF) | thnd (h : Hdr) (f : EF)
  | mldw (h : Hdr) (f : EF) | mswap (h : Hdr) (f : EF) | mma (h : Hdr) (f : EF) | mmat (h : Hdr) (f : EF)
  | mclr (h : Hdr) (f : EF) | mguide (h : Hdr) (f : EF) | msta (h : Hdr) (f : EF) | mldt (h : Hdr) (f : EF)
  | mprog (h : Hdr) (f : EF) | mlease (h : Hdr) (f : EF) | mrel (h : Hdr) (f : EF) | mwait (h : Hdr) (f : EF)
  | mstatArith (h : Hdr) (f : EF) | mstatEng (h : Hdr) (f : EF)
  -- remote, collective and system (Remote, Collective and System Instructions)
  | rld (h : Hdr) (f : MF) | rst (h : Hdr) (f : MF) | ratom (h : Hdr) (f : MF)
  | rrd3 (h : Hdr) (f : EF) | rwin (h : Hdr) (f : EF) | rwclose (h : Hdr) (f : EF) | coll (h : Hdr) (f : EF)
  | cwait (h : Hdr) (f : EF) | genrd (h : Hdr) (f : EF) | ranksw (h : Hdr) (f : EF) | tview (h : Hdr) (f : EF)
  | tvclose (h : Hdr) (f : EF)
  | gets (h : Hdr) (f : VF) | sets (h : Hdr) (f : VF) | trapret (h : Hdr) (f : VF) | halt (h : Hdr) (f : VF)
  | watch (h : Hdr) (f : VF) | unwatch (h : Hdr) (f : VF) | sampleMark (h : Hdr) (f : VF)
  | sampleOn (h : Hdr) (f : VF) | sampleOff (h : Hdr) (f : VF) | logm (h : Hdr) (f : VF) | freeze (h : Hdr) (f : VF)
  | cycloRead (h : Hdr) (f : VF)
  -- events of launch and scheduling
  | teamMaterialise (core : Nat)
  | wridxWrite (q : Nat) (value : BitVec 32)
  | noopPacket (q : Nat) | launchPacket (q : Nat) | markerPacket (q : Nat)
  | preemptPacket (q : Nat) | resumePacket (q : Nat)
  | launchStart (q : Nat)
  | chunkClaim (core ctx launch : Nat)
  | bindRecordWrite (core entry : Nat) (rec : List (BitVec 32)) (by_ : BindWriter)
  | groupLeavesDraining (core slot : Nat)
  | gridEnd (ctx launch : Nat)
  | completionReport (q : Nat) | coalescingTimerExpiry (q : Nat) | interrupt (q : Nat)
  | leaseGrant (core : Nat) | leaseExpiry (core : Nat)
  | matrixOperationStart (core team : Nat) | matrixKStep (core team : Nat)
  | engineCommandComplete (core seq : Nat) | engineCommandFault (core seq : Nat)
  | faultDelivery (core slot : Nat)
  | terminate (ctx launch : Nat) (code : BitVec 8)
  | transferLanding (core seq : Nat)
  | barmVectoring (core slot : Nat)
  | translationFaultServed (ctx : Nat) (va : BitVec 64) (entries : List (Nat × BitVec 64)) (served : Bool)
  | pageWalk (die : Nat)
  | loadDataReturn (core slot idx : Nat) | storePerform (core slot idx : Nat)
  | chunkCopyEnd (view chunk : Nat)
  | cacheLineTimeout (unit : CacheUnit) (line : Nat)
  | invalidation (target : InvTarget) | invalidationComplete (id : Nat)
  | preemption (ctx : Nat) | restore (ctx : Nat)
  -- events of the die links
  | dataFlit (st : StreamId) | idleFlit (st : StreamId) | controlFlit (st : StreamId)
  | nakLapse (st : StreamId) | ackTimerExpiry (st : StreamId) | replayTimeout (st : StreamId)
  | replayLimit (st : StreamId) | laneLockLoss (lo hi module : Nat) | retrainCommand (lo hi module : Nat)
  | retrainAttemptEnd (lo hi module : Nat) (ok : Bool)
  | dieLinkRead (st : StreamId) | dieLinkReadReply (st : StreamId) | dieLinkWrite (st : StreamId)
  | dieLinkWriteAck (st : StreamId) | dieLinkAtomic (st : StreamId) | dieLinkAtomicReply (st : StreamId)
  | dieLinkInvalidation (st : StreamId) | dieLinkInvalidationAck (st : StreamId) | dieLinkControl (st : StreamId)
  | dieLinkWriteback (st : StreamId) | dieLinkWritebackAck (st : StreamId) | dieLinkTagRead (st : StreamId)
  | dieLinkTagReadReply (st : StreamId) | dieLinkTagWrite (st : StreamId) | dieLinkTagWriteAck (st : StreamId)
  | dieLinkUnknownOp (st : StreamId)
  -- events of the fabric
  | remoteRead (die : Nat) (p : Fesel) | readReply (die : Nat) (p : Fesel)
  | remoteWrite (die : Nat) (p : Fesel) | writeAck (die : Nat) (p : Fesel)
  | remoteAtomic (die : Nat) (p : Fesel) | atomicReply (die : Nat) (p : Fesel)
  | responseTimeout (die : Nat) (fid : BitVec 32)
  | refusal (die : Nat) (p : Fesel) | refusalResend (die : Nat) (fid : BitVec 32)
  | xrq (die : Nat) (p : Fesel) | xdt (die : Nat) (p : Fesel) | xcn (die : Nat) (p : Fesel) | xer (die : Nat) (p : Fesel)
  | gnt (die : Nat) (p : Fesel)
  | stripeIssue (die : Nat)
  | collectiveData (die : Nat) (p : Fesel)
  | heartbeat (die : Nat) (p : Fesel) | heartbeatTimer (ctx : Nat) | suspicion (ctx rank : Nat)
  | probeRequest (die : Nat) (p : Fesel) | probeReply (die : Nat) (p : Fesel) | probeTimeout (ctx rank : Nat)
  | verdict (die : Nat) (p : Fesel)
  | badFeselPacket (die : Nat)
  -- events of the host and of debug
  | hostRdmaWrite (pair : QueuePair) (addr : Nat) (bytes : List Byte)
  | hostRdmaRead (pair : QueuePair) (addr len : Nat)
  | hostUnsupportedOperation (port : Nat)
  | debugDump (slot : Nat) | debugResume (slot : Nat) | debugTerminate (slot : Nat)
  | samplePoint (core : Nat) | sampleRecordDeferred (core : Nat)
  -- events of memory devices, power and trust
  | scrub (stack granule : Nat)
  | thermalThresholdCrossing (stack : Nat) (temp : Int)
  | th3Timeout (stack : Nat)
  | powerStateEntry | powerStateExit (cause : WakeCause)
  | imageAdmission (die : Nat) (img : Image)
  | attestationReport (nonce : List Byte)
  | masterFreeze (unit : EngineUnit) (frozen : Bool)
  | badFlit (st : StreamId)
  | feselPortDown (die port : Nat) | feselPortUp (die port : Nat)
  | powerRemoval | powerStateExitComplete
  | rankTableStage (ctx comm : Nat) (table : RankTable)
  | joinEngineArm (die : Nat) (armed : Bool)
  | queueCreate (q desc : Nat) (words : Option (List (BitVec 32)))
  | contextCreate (ctx : Nat) (init : ContextInit)
  | blockListRemoval (die : Nat) (device : BitVec 20)
  | cpyxRequest (core seq : Nat)
  deriving DecidableEq, Repr

end Sys2Proof
end

