-- ==== Sys2Proof/Machine/Encoding.lean ====
section
/-! DEFINITION. What each instruction's entry accepts: the operand columns and field columns of Tables 9-1 to 9-10, 13-1,
13-3, 15-1, 21-5 to 21-7 and of the entries of Remote, Collective and System Instructions (R119, R198, R212, R234, R331, R346). -/

namespace Sys2Proof

open Machine

/-- Which named constants an operand may be (R67, R198, R212). -/
inductive KonstUse where
  | any | zeroOnly | none
  deriving DecidableEq, Repr

/-- Which register file an operand may name. -/
inductive FileUse where
  | any | vOnly | sOnly
  deriving DecidableEq, Repr

/-- How an operand is used: the number of its registers (0: unused), and what it may name. -/
structure OpUse where
  n : Nat := 0
  konst : KonstUse := .none
  file : FileUse := .any
  deriving DecidableEq, Repr

/-- An unused operand field holds 0 (R66); a used one is aligned to its registers (R69) and names what it may. -/
def OpUse.ok (u : OpUse) : Opnd → Bool
  | .v r => if u.n = 0 then r.val == 0 else r.val % u.n == 0 && u.file != .sOnly
  | .s r => u.n != 0 && r.val % u.n == 0 && u.file != .vOnly
  | .k c => u.n != 0 && (u.konst == .any || (u.konst == .zeroOnly && c == .zero))

/-- The 64-bit type codes. -/
def Ty.is64 : Ty → Bool
  | .b64 | .i64 | .n64 => true
  | _ => false

/-- The width of a type's values in bits; a packed pair counts 32. -/
def Ty.width : Ty → Nat
  | .i4 | .n4 | .f4 => 4
  | .i8 | .n8 | .f8a | .f8b => 8
  | .i16 | .n16 | .f16 | .bf16 => 16
  | .b32 | .i32 | .n32 | .f32 | .x2 => 32
  | .b64 | .i64 | .n64 => 64

/-- The floating-point types. -/
def Ty.isFloat : Ty → Bool
  | .f4 | .f8a | .f8b | .f16 | .bf16 | .f32 => true
  | _ => false

/-- The signed integer types. -/
def Ty.isSigned : Ty → Bool
  | .i4 | .i8 | .i16 | .i32 | .i64 => true
  | _ => false

/-- The integer types. -/
def Ty.isInt : Ty → Bool
  | .i4 | .i8 | .i16 | .i32 | .i64 | .n4 | .n8 | .n16 | .n32 | .n64 => true
  | _ => false

/-- The type codes of Table 5-11. -/
def Ty.code : Ty → BitVec 5
  | .b32 => 0x00 | .b64 => 0x01 | .i4 => 0x02 | .i8 => 0x03 | .i16 => 0x04 | .i32 => 0x05 | .i64 => 0x06
  | .n4 => 0x0A | .n8 => 0x0B | .n16 => 0x0C | .n32 => 0x0D | .n64 => 0x0E
  | .f4 => 0x10 | .f8a => 0x11 | .f8b => 0x12 | .f16 => 0x13 | .bf16 => 0x14 | .f32 => 0x15 | .x2 => 0x18

/-- The type that a code names; an unlisted code names none (R78). -/
def Ty.ofCode (c : Nat) : Option Ty :=
  match c with
  | 0x00 => some .b32 | 0x01 => some .b64 | 0x02 => some .i4 | 0x03 => some .i8 | 0x04 => some .i16
  | 0x05 => some .i32 | 0x06 => some .i64 | 0x0A => some .n4 | 0x0B => some .n8 | 0x0C => some .n16
  | 0x0D => some .n32 | 0x0E => some .n64 | 0x10 => some .f4 | 0x11 => some .f8a | 0x12 => some .f8b
  | 0x13 => some .f16 | 0x14 => some .bf16 | 0x15 => some .f32 | 0x18 => some .x2
  | _ => none

/-- Bytes of an access size (Table 5-8). -/
def Size.bytes : Size → Nat
  | .b1 => 1 | .b2 => 2 | .b4 => 4 | .b8 => 8 | .b16 => 16

/-- Registers that an access size fixes (R212). -/
def Size.regs : Size → Nat
  | .b1 | .b2 | .b4 => 1 | .b8 => 2 | .b16 => 4

/-- The entry of a V or I format instruction. -/
structure VEntry where
  fmtV : Bool := true
  fmtI : Bool := true
  types : List Ty := [.b32]
  d : OpUse := {}
  a : OpUse := {}
  b : OpUse := {}
  c : OpUse := {}
  sat : Bool := false
  sgnA : Bool := false
  sgnB : Bool := false
  pred : Bool := false
  rcs : List (BitVec 3) := [0]
  subs : List (BitVec 6) := [0]
  extra : Bool := true

/-- The entry of an M format instruction. -/
structure MEntry where
  d : OpUse := {}
  a : OpUse := {}
  b : OpUse := {}
  sizes : List Size := [.b1]
  scopes : List Scope := [.g]
  policies : List Policy := [.normal]
  orders : List Order := [.relaxed]
  sext : Bool := false
  subs : List (BitVec 6) := [0]
  pred : Bool := false
  off : Bool := true
  extra : Bool := true

/-- The entry of an E format instruction. -/
structure EEntry where
  d : OpUse := {}
  a : OpUse := {}
  b : OpUse := {}
  bar : Bool := false
  shp : Bool := false
  acc : Bool := false
  tid : Bool := false
  spair : Bool := false
  subs : List (BitVec 6) := [0]
  extra : Bool := true

/-- The entry of a C format instruction. -/
structure CEntry where
  d : OpUse := {}
  a : OpUse := {}
  off : Bool := false
  extra : Bool := true

/-! ### Operand column marks -/

/-- Registers of a value of the type's width (mark w, R120). -/
def wRegs (t : Ty) : Nat := if t.is64 then 2 else 1

/-- A source of the type's width; a named constant may stand there (R67). -/
def srcW (f : VF) : OpUse := ⟨wRegs f.ty, .any, .any⟩
/-- A destination of the type's width. -/
def dstW (f : VF) : OpUse := ⟨wRegs f.ty, .none, .any⟩
/-- A 32-bit source. -/
def src32 : OpUse := ⟨1, .any, .any⟩
/-- A 32-bit destination. -/
def dst32 : OpUse := ⟨1, .none, .any⟩
/-- A register pair. DESIGN CHOICE: no named constant stands for a pair, since R67 gives the 64-bit reading to operands of the type's
width alone (log 75). -/
def pairU : OpUse := ⟨2, .none, .any⟩
/-- A register pair or %zero: a base or target pair (R74, R198). -/
def pairZ : OpUse := ⟨2, .zeroOnly, .any⟩
/-- Four registers. -/
def quadU : OpUse := ⟨4, .none, .any⟩
/-- A 32-bit address register or %zero (R214). -/
def addr32 : OpUse := ⟨1, .zeroOnly, .any⟩

/-- The rounding mode codes. -/
def rcRound : List (BitVec 3) := [0, 1, 2, 3]
/-- The comparisons of ICMP (R124). -/
def rcCmp6 : List (BitVec 3) := [0, 1, 2, 3, 4, 5]
/-- All eight comparisons. -/
def rcCmp8 : List (BitVec 3) := [0, 1, 2, 3, 4, 5, 6, 7]

/-- .I32 .N32 .I64 .N64 -/
def tyInt : List Ty := [.i32, .n32, .i64, .n64]
/-- .B32 .B64 -/
def tyBits : List Ty := [.b32, .b64]
/-- The element types of PACK and UNPACK (Table 9-4). -/
def tyPack : List Ty := [.f16, .bf16, .f8a, .f8b, .f4, .i16, .n16, .i8, .n8, .i4, .n4]
/-- The types of CVT: any code but .B32, .B64 and .X2 (Table 9-4). -/
def tyCvt : List Ty :=
  [.i4, .i8, .i16, .i32, .i64, .n4, .n8, .n16, .n32, .n64, .f4, .f8a, .f8b, .f16, .bf16, .f32]
/-- The formats of matrix operands (Table 15-7). -/
def tyMat : List Ty := [.f4, .f8a, .f8b, .f16, .bf16, .i8, .n8, .i4, .n4]

/-- A bit field of mod as a number. -/
def modBits {n : Nat} (m : BitVec n) (hi lo : Nat) : Nat := natBits m.toNat hi lo

/-- An element index within its limit (R140). -/
def elemOk (i : Nat) (t : Ty) : Bool := if t.width ≤ 16 then i < 32 / t.width else i == 0

/-- The special register numbers of Table 21-8 and Table 17-4 (R347). -/
def sregOk (n : Nat) : Bool :=
  n ≤ 5 || (8 ≤ n && n ≤ 0x0B) || n == 0x10 || (0x20 ≤ n && n < 0x40 && n % 8 ≤ 4) || (0x100 ≤ n && n ≤ 0x107)

/-- The register number of GETS and SETS. -/
def sregNo (f : VF) : Nat := modBits f.mod 18 7

/-- The types an atomic sub-function accepts (R225). -/
def atomTypes (sub : BitVec 6) : List Ty :=
  match sub.toNat with
  | 0 => [.i32, .n32, .i64, .n64, .f32, .x2]
  | 1 | 2 => [.i32, .n32, .i64, .n64, .f32]
  | 3 | 4 | 5 | 6 => [.b32, .b64]
  | 7 => [.n32]
  | 8 => [.b32, .b64]
  | _ => []

/-- The type code of an atomic (mod 4:0). -/
def atomTy (f : MF) : Option Ty := Ty.ofCode (modBits f.mod 4 0)

/-- The type of an atomic is accepted, agrees with the size, and .EBF stands only with .X2 (R212, R225). -/
def atomOk (f : MF) (types : List Ty) (ebf : Bool) : Bool :=
  match atomTy f with
  | none => false
  | some t => types.contains t && (if t.is64 then f.size == .b8 else f.size == .b4)
      && (!f.mod.getLsbD 5 || (ebf && t == .x2)) && !f.mod.getLsbD 6

/-- V and I format entries. -/
def vEntry : Instr → Option VEntry
  | .iadd _ f | .isub _ f | .imul _ f | .idiv _ f | .imad _ f =>
    some { types := tyInt, d := dstW f, a := srcW f, b := srcW f, sat := true }
  | .iaddc _ f => some { types := tyInt, d := dstW f, a := srcW f, b := srcW f, pred := true }
  | .imulh _ f | .irem _ f | .imin _ f | .imax _ f =>
    some { types := tyInt, d := dstW f, a := srcW f, b := srcW f }
  | .iabs _ f | .ineg _ f => some { fmtI := false, types := [.i32, .i64], d := dstW f, a := srcW f, sat := true }
  | .lea _ f => some { types := [.i32, .n32], d := pairU, a := pairU, b := src32, extra := modBits f.mod 18 5 == 0 }
  | .and _ f | .or _ f | .xor _ f => some { types := tyBits, d := dstW f, a := srcW f, b := srcW f }
  | .not _ f | .brev _ f | .mov _ f => some { fmtI := false, types := tyBits, d := dstW f, a := srcW f }
  | .shl _ f | .shr _ f | .rotl _ f => some { types := tyBits, d := dstW f, a := srcW f, b := src32 }
  | .sar _ f => some { types := [.i32, .i64], d := dstW f, a := srcW f, b := src32 }
  | .bfx _ f => some { types := tyInt, d := dstW f, a := srcW f, b := src32 }
  | .bfi _ f => some { types := tyBits, d := dstW f, a := srcW f, b := src32, c := srcW f }
  | .popc _ f | .clz _ f => some { fmtI := false, types := tyBits, d := dst32, a := srcW f }
  | .sel _ f => some { types := tyBits, d := dstW f, a := srcW f, b := srcW f, pred := true }
  | .icmp _ f => some { types := tyInt, a := srcW f, b := srcW f, pred := true, rcs := rcCmp6 }
  | .movi _ f => some { fmtV := false, types := [.b32, .i64, .n64], d := dstW f }
  | .movs _ f => some { fmtI := false, types := tyBits, d := dstW f, a := dstW f }
  | .fadd .. | .fsub .. | .fmul .. | .ffma .. | .fdiv .. =>
    some { types := [.f32], d := dst32, a := src32, b := src32, sgnA := true, sgnB := true, rcs := rcRound }
  | .fmin .. | .fmax .. => some { types := [.f32], d := dst32, a := src32, b := src32, sgnA := true, sgnB := true }
  | .fcmp .. => some { types := [.f32], a := src32, b := src32, sgnA := true, sgnB := true, pred := true, rcs := rcCmp8 }
  | .frcp .. | .frsq .. | .fsqrt .. | .fexp2 .. | .flog2 .. | .fsin .. | .fcos .. | .ftanh .. | .frnd .. =>
    some { fmtI := false, types := [.f32], d := dst32, a := src32, sgnA := true, rcs := rcRound }
  | .fscale .. => some { types := [.f32], d := dst32, a := src32, b := src32, sgnA := true, rcs := rcRound }
  | .fclass .. => some { fmtI := false, types := [.f32], d := dst32, a := src32 }
  | .xadd .. | .xmul .. | .xfma .. =>
    some { types := [.x2], d := dst32, a := src32, b := src32, sgnA := true, sgnB := true, rcs := rcRound, subs := [0, 1] }
  | .xmin .. | .xmax .. =>
    some { types := [.x2], d := dst32, a := src32, b := src32, sgnA := true, sgnB := true, subs := [0, 1] }
  | .cvt _ f =>
    match Ty.ofCode (modBits f.mod 4 0) with
    | none => some { types := [] }
    | some st => some {
        fmtI := false, types := tyCvt, d := dstW f, a := ⟨wRegs st, .any, .any⟩, rcs := rcRound,
        sat := f.ty.isInt && st.isInt,
        extra := tyCvt.contains st && modBits f.mod 18 13 == 0
          && (!f.mod.getLsbD 5 || [Ty.f8a, Ty.f8b, Ty.f4].contains f.ty)
          && elemOk (modBits f.mod 8 6) st
          && (if f.mod.getLsbD 12 then f.ty.width ≤ 16 && elemOk (modBits f.mod 11 9) f.ty
          else modBits f.mod 11 9 == 0) }
  | .pack _ f => some {
      fmtI := false, types := tyPack, d := dst32, a := src32, b := src32, rcs := rcRound,
      sat := f.ty.isInt,
      extra := modBits f.mod 18 3 == 0 && modBits f.mod 1 0 < 16 / f.ty.width }
  | .unpack _ f => some {
      fmtI := false, types := tyPack, d := dst32, a := src32,
      extra := modBits f.mod 18 3 == 0 && elemOk (modBits f.mod 2 0) f.ty }
  | .dot4 _ f => some {
      types := [.f8a, .f8b, .i8, .n8], d := dst32, a := src32, b := src32, c := src32, rcs := rcRound,
      extra := f.imm.isSome || (modBits f.mod 18 5 == 0 && match Ty.ofCode (modBits f.mod 4 0) with
        | none => false
        | some t => [Ty.f8a, Ty.f8b, Ty.i8, Ty.n8].contains t && t.isFloat == f.ty.isFloat) }
  | .dot8 _ f => some {
      types := [.f4, .i4, .n4], d := dst32, a := src32, b := src32, c := src32, rcs := rcRound,
      extra := f.imm.isSome || (modBits f.mod 18 5 == 0 && match Ty.ofCode (modBits f.mod 4 0) with
        | none => false
        | some t => [Ty.f4, Ty.i4, Ty.n4].contains t && t.isFloat == f.ty.isFloat) }
  | .dscl _ f => some { fmtI := false, types := [.n8], d := dst32, a := src32, b := src32, extra := modBits f.mod 18 4 == 0 }
  | .shfl _ f => some {
      types := tyBits, d := dstW f, a := srcW f, b := src32, pred := true, subs := [0, 1, 2, 3],
      extra := f.mod.toNat ≤ 5 }
  | .vote _ f => some {
      fmtI := false, d := dst32, pred := true, subs := [0, 1, 2, 3, 4],
      extra := f.mod.toNat ≤ 7 && (f.sub.toNat < 3 || f.mod.toNat == 7) }
  | .redl _ f => some {
      fmtI := false, d := dst32, a := src32, subs := [0, 1, 2, 3, 4, 5],
      types := if f.sub.toNat < 3 then [.i32, .n32, .f32] else [.b32],
      rcs := if f.sub == 0 && f.ty == .f32 then rcRound else [0],
      sat := f.sub == 0 && f.ty != .f32, extra := f.mod == 0 }
  | .scanl _ f => some {
      fmtI := false, d := dst32, a := src32, subs := [0, 1, 2, 3, 4, 5],
      types := if f.sub.toNat < 3 then [.i32, .n32, .f32] else [.b32],
      rcs := if f.sub == 0 && f.ty == .f32 then rcRound else [0],
      sat := f.sub == 0 && f.ty != .f32, extra := f.mod.toNat ≤ 1 }
  | .match_ _ f => some { fmtI := false, types := tyBits, d := dst32, a := srcW f }
  | .elect .. => some { fmtI := false, d := dst32, pred := true }
  | .rng .. => some { fmtI := false, types := [.b32, .f32], d := dst32 }
  | .rngseed .. => some { fmtI := false, types := [.b64], a := pairU, b := pairU }
  | .rngskip .. => some { types := [.n32], b := src32 }
  | .gets _ f => some { fmtI := false, d := dst32, extra := modBits f.mod 6 0 == 0 && sregOk (sregNo f) && sregNo f != 3 }
  | .cycloRead _ f => some { fmtI := false, d := dst32, extra := modBits f.mod 6 0 == 0 && sregNo f == 3 }
  | .sets _ f => some { fmtI := false, a := src32, extra := modBits f.mod 6 0 == 0 && sregOk (sregNo f) }
  | .trapret .. | .halt .. => some { fmtI := false }
  | .watch _ f => some {
      fmtI := false, d := dst32, a := pairU, b := src32,
      extra := modBits f.mod 18 9 == 0 && modBits f.mod 7 4 != 0
        && !(modBits f.mod 3 2 == 3 && f.mod.getLsbD 8) }
  | .unwatch _ f => some { fmtI := false, extra := f.mod.toNat ≤ 3 }
  | .sampleMark .. => some { fmtI := false, a := src32 }
  | .sampleOn .. => some { fmtI := false, subs := [1] }
  | .sampleOff .. => some { fmtI := false, subs := [2] }
  | .logm .. => some { fmtI := false, a := quadU }
  | .freeze _ f => some { fmtI := false, extra := modBits f.mod 18 13 == 0 }
  | _ => none

/-- Entries whose mod field must be zero: every entry of V format that assigns no mod bits. -/
def vModZero : Instr → Bool
  | .lea .. | .cvt .. | .pack .. | .unpack .. | .dot4 .. | .dot8 .. | .dscl .. | .shfl .. | .vote .. | .redl .. | .scanl ..
  | .gets .. | .cycloRead .. | .sets .. | .watch .. | .unwatch .. | .freeze .. => false
  | _ => true

/-- All scopes. -/
def scAll : List Scope := [.g, .t, .c, .k, .d, .p, .s]
/-- All policies. -/
def poAll : List Policy := [.normal, .evictFirst, .bypass, .retain]
/-- Sizes 000 to 100. -/
def szAll : List Size := [.b1, .b2, .b4, .b8, .b16]
/-- All orders. -/
def orAll : List Order := [.relaxed, .acquire, .release, .acqrel]

/-- A data operand of the size's registers. -/
def dataU (f : MF) : OpUse := ⟨f.size.regs, .any, .any⟩
/-- A data destination of the size's registers. -/
def dataD (f : MF) : OpUse := ⟨f.size.regs, .none, .any⟩
/-- A stored operand without a type. DESIGN CHOICE: a named constant may stand for one 32-bit register only, since the 64-bit reading that
R67 gives one needs a type; at 8 or 16 bytes it is ILLEGAL, where R212 gives it neither a reading nor a fault (log 75). -/
def dataS (f : MF) : OpUse := ⟨f.size.regs, if f.size.regs = 1 then .any else .none, .any⟩

/-- M format entries (Tables 13-3 and 21-5). -/
def mEntry : Instr → Option MEntry
  | .ld _ f => some {
      d := dataD f, a := pairZ, sizes := szAll, scopes := scAll, policies := poAll,
      orders := [.relaxed, .acquire], sext := true, extra := f.mod == 0 }
  | .st _ f => some {
      a := pairZ, b := dataS f, sizes := szAll, scopes := scAll, policies := poAll,
      orders := [.relaxed, .release], extra := f.mod == 0 }
  | .ldl _ f => some {
      d := dataD f, a := addr32, sizes := szAll, scopes := [.g, .t], orders := [.relaxed, .acquire],
      sext := true, extra := f.mod == 0 }
  | .stl _ f => some {
      a := addr32, b := dataS f, sizes := szAll, scopes := [.g, .t], orders := [.relaxed, .release],
      extra := f.mod == 0 }
  | .ldc _ f => some {
      d := dataD f, a := pairZ, sizes := szAll, policies := [.normal, .bypass], sext := true,
      extra := f.mod == 0 }
  | .lds _ f => some {
      d := ⟨f.size.regs, .none, .sOnly⟩, a := ⟨2, .zeroOnly, .sOnly⟩, sizes := [.b4, .b8, .b16],
      scopes := scAll, policies := poAll, orders := [.relaxed, .acquire], extra := f.mod == 0 }
  | .pref _ f => some { a := pairZ, scopes := scAll, policies := poAll, extra := f.mod == 0 }
  | .cctlIl1 _ f => some { a := pairZ, subs := [0], extra := f.mod == 0 }
  | .cctlIrd _ f => some { a := pairZ, subs := [1], extra := f.mod == 0 }
  | .cctlWb _ f => some { a := pairZ, subs := [2], extra := f.mod == 0 }
  | .cctlIl1all _ f => some { a := pairZ, subs := [3], off := false, extra := f.mod == 0 && f.a == .k .zero }
  | .cctlIrdall _ f => some { a := pairZ, subs := [4], off := false, extra := f.mod == 0 && f.a == .k .zero }
  | .ldtag _ f => some { d := dst32, a := pairZ, scopes := scAll, orders := [.relaxed, .acquire], extra := f.mod == 0 }
  | .sttag _ f => some { a := pairZ, b := src32, scopes := scAll, orders := [.relaxed, .release], extra := f.mod.toNat ≤ 1 }
  | .atom _ f => some {
      d := dataD f, a := pairZ, b := dataU f, sizes := [.b4, .b8], scopes := scAll, policies := poAll,
      orders := orAll, subs := [0, 1, 2, 3, 4, 5, 6, 7], extra := atomOk f (atomTypes f.sub) true }
  | .atomc _ f => some {
      d := dataD f, a := pairZ, b := dataU f, sizes := [.b4, .b8], scopes := scAll, policies := poAll,
      orders := orAll, pred := true, extra := atomOk f [.b32, .b64] false }
  | .red _ f => some {
      a := pairZ, b := dataU f, sizes := [.b4, .b8], scopes := scAll, policies := poAll,
      orders := [.relaxed, .release], subs := [0, 1, 2, 3, 4, 5, 6, 7], extra := atomOk f (atomTypes f.sub) true }
  | .atomo _ f => some { a := pairZ, b := src32, sizes := [.b4], scopes := [.p], policies := poAll, extra := f.mod == 0x15 }
  | .atoml _ f => some {
      d := dataD f, a := addr32, b := dataU f, sizes := [.b4, .b8], scopes := [.g, .t], orders := orAll,
      subs := [0, 1, 2, 3, 4, 5, 6, 7, 8], pred := f.sub == 8, extra := atomOk f (atomTypes f.sub) true }
  | .fence _ f => some { scopes := scAll, orders := [.acquire, .release, .acqrel], off := false, extra := f.mod == 0 }
  | .fenceo _ f => some { off := false, extra := f.mod == 0 }
  | .fencex _ f => some { scopes := [.c, .k, .d, .p], off := false, extra := f.mod == 0 }
  | .fencep _ f => some { d := dst32, b := src32, scopes := [.s], off := false, extra := f.mod.toNat ≤ 1 }
  | .cbseal _ f | .cbwait _ f => some { off := false, extra := f.mod.toNat ≤ 15 }
  | .rld _ f => some {
      d := dataD f, a := quadU, sizes := szAll, scopes := [.s], orders := [.relaxed, .acquire], sext := true,
      extra := f.mod == 0 }
  | .rst _ f => some {
      a := quadU, b := dataS f, sizes := szAll, scopes := [.s], orders := [.relaxed, .release],
      extra := f.mod == 0 }
  | .ratom _ f => some {
      d := dataD f, a := quadU, b := dataU f, sizes := [.b4, .b8], scopes := [.s], orders := orAll,
      subs := [0, 1, 2, 3, 4, 5, 6, 7, 8], pred := f.sub == 8, extra := atomOk f (atomTypes f.sub) true }
  | _ => none

/-- Shape and tensor fields wider than 32 bits (R239, R246). -/
def shapeFieldWide (n : Nat) : Bool := n == 0 || (8 ≤ n && n ≤ 11)
/-- Tensor fields wider than 32 bits (Table 15-5). -/
def tensorFieldWide (n : Nat) : Bool := n == 0 || (12 ≤ n && n ≤ 15)

/-- A value operand of a shape or tensor field: 32 or pair. -/
def fieldSrc (wide : Bool) : OpUse := if wide then pairU else src32

/-- A scope code in mod 2:0 (R248). -/
def scopeBitsOk (n : Nat) : Bool := n < 7

/-- E format entries (Table 15-1 and the entries of Remote, Collective and System Instructions). -/
def eEntry : Instr → Option EEntry
  | .cpyLd _ f => some { a := quadU, b := src32, bar := true, shp := true, subs := [0], extra := f.mod == 0 }
  | .cpySt _ f => some { a := quadU, b := src32, bar := true, shp := true, subs := [1], extra := f.mod.toNat < 7 }
  | .cpym _ f => some { a := quadU, b := src32, bar := true, shp := true, extra := modBits f.mod 19 16 == 0 }
  | .cpys _ f => some { a := src32, b := src32, bar := true, shp := true, spair := true, extra := f.mod.toNat < 7 }
  | .cpyg _ f => some { a := src32, b := src32, bar := true, shp := true, spair := true, extra := f.mod == 0 }
  | .cpyx _ f => some {
      d := quadU, a := quadU, bar := true, shp := true,
      extra := f.mod.toNat < 7 && f.shp.val ≤ 14 }
  | .pft _ f => some { a := quadU, b := src32, bar := true, shp := true, extra := f.mod == 0 }
  | .binit _ f => some { bar := true, extra := f.mod.toNat < 128 && modBits f.mod 5 0 != 0 }
  | .bexpect _ f => some { b := src32, bar := true, extra := f.mod == 0 }
  | .barrive _ f => some { bar := true, extra := f.mod.toNat < 64 && f.mod != 0 }
  | .bwait _ f => some { bar := true, extra := f.mod.toNat ≤ 1 }
  | .btest _ f => some { d := dst32, bar := true, extra := f.mod.toNat ≤ 1 }
  | .barm _ f => some { d := ⟨2, .none, .vOnly⟩, a := pairU, bar := true, extra := f.mod.toNat ≤ 1 }
  | .binv _ f => some { bar := true, extra := f.mod == 0 }
  | .pclr _ f => some { a := src32, b := src32, extra := f.mod == 0 }
  | .ptest _ f => some { d := dst32, a := src32, b := src32, extra := f.mod == 0 }
  | .gld _ f | .gst _ f => some { a := pairU, shp := true, extra := f.mod == 0 }
  | .gset _ f => some { b := fieldSrc (shapeFieldWide f.mod.toNat), shp := true, extra := f.mod.toNat ≤ 16 }
  | .gget _ f => some { d := if shapeFieldWide f.mod.toNat then pairU else dst32, shp := true, extra := f.mod.toNat ≤ 16 }
  | .tidld _ f => some { a := pairU, tid := true, extra := f.mod == 0 }
  | .tidset _ f => some { b := fieldSrc (tensorFieldWide f.mod.toNat), tid := true, extra := f.mod.toNat ≤ 15 }
  | .thnd _ f => some { d := pairU, a := src32, b := src32, tid := true, extra := f.mod == 0 }
  | .mldw _ f => some {
      a := if f.sub == 0 then src32 else pairU, b := if f.sub == 0 then src32 else {}, subs := [0, 1],
      extra := match Ty.ofCode f.mod.toNat with
        | none => false
        | some t => tyMat.contains t }
  | .mswap _ f | .mlease _ f | .mrel _ f => some { extra := f.mod == 0 }
  | .mma _ f => some { a := src32, acc := true, extra := f.mod == 0 }
  | .mmat _ f => some { a := src32, acc := true, extra := f.mod == 0 && f.acc.val % 2 == 0 }
  | .mclr _ f => some { acc := true, extra := f.mod.toNat < 256 }
  | .mguide _ f => some { b := src32, acc := true, extra := f.mod == 0 && f.acc.val % 2 == 0 }
  | .msta _ f => some {
      a := if f.sub == 0 then src32 else pairU, b := if f.sub == 0 then src32 else {}, acc := true,
      subs := [0, 1],
      extra := modBits f.mod 19 19 == 0 && modBits f.mod 7 5 ≤ 3
        && (if f.sub == 0 then modBits f.mod 16 14 == 0 else modBits f.mod 16 14 != 7 && modBits f.mod 13 8 == 0) }
  | .mldt _ f => some { d := ⟨1, .none, .vOnly⟩, a := src32, shp := true, extra := f.mod == 0 }
  | .mprog _ f => some { d := dst32, acc := true, extra := f.mod == 0 }
  | .mwait _ f => some { acc := f.mod == 0, extra := f.mod.toNat ≤ 1 }
  | .mstatArith _ f => some { d := dst32, acc := true, subs := [0], extra := f.mod == 0 }
  | .mstatEng _ f => some { d := dst32, acc := true, subs := [1], extra := f.mod == 0 }
  | .rrd3 _ f => some { d := ⟨1, .none, .any⟩, a := pairU, b := src32, spair := true, extra := f.mod == 0 }
  | .rwin _ f => some { a := quadU, bar := true, spair := true, extra := modBits f.mod 19 18 == 0 }
  | .rwclose _ f => some { d := dst32, extra := f.mod.toNat < 256 }
  | .coll _ f => some { d := dst32, a := pairU, extra := f.mod == 0 }
  | .cwait _ f => some { d := dst32, b := src32, extra := f.mod == 0 }
  | .genrd _ f => some { d := dst32, subs := [0, 1, 2, 3], extra := f.mod.toNat < 64 }
  | .ranksw _ f => some { d := dst32, extra := f.mod.toNat < 64 }
  | .tview _ f => some { d := pairU, a := quadU, spair := true, extra := modBits f.mod 19 14 == 0 }
  | .tvclose _ f => some { d := dst32, extra := f.mod.toNat < 16 }
  | _ => none

/-- C format entries (Table 13-1). -/
def cEntry : Instr → Option CEntry
  | .bra _ f => some { off := true, extra := f.mod == 0 }
  | .brx _ f => some { a := pairZ, extra := f.mod == 0 }
  | .call _ f => some { d := pairU, off := true, extra := f.mod == 0 }
  | .callx _ f => some { d := pairU, a := pairZ, extra := f.mod == 0 }
  | .ret _ f => some { a := pairU, extra := f.mod == 0 }
  | .join _ f | .exit _ f | .nop _ f | .yield _ f | .syncg _ f | .ink _ f => some { extra := f.mod == 0 }
  | .trap .. | .bkpt .. => some {}
  | .synct _ f => some { extra := f.mod.toNat ≤ 1 }
  | .sizesel _ f => some { d := dst32, a := src32, extra := f.mod.toNat ≤ 15 }
  | _ => none

/-! ### Pairs -/

/-- The transcendental operations of a pair (Table 5-14). -/
def PairOp.isTrans : PairOp → Bool
  | .frcp | .frsq | .fsqrt | .fexp2 | .flog2 | .fsin | .fcos | .ftanh => true
  | _ => false

/-- Operations that read one source. -/
def PairOp.unary : PairOp → Bool
  | .movf | .movi => true
  | o => o.isTrans

/-- Operations that read D as a source (R81). -/
def PairOp.readsD : PairOp → Bool
  | .ffma | .imad | .xfma => true
  | _ => false

/-- The integer class (R77). -/
def PairOp.isInt : PairOp → Bool
  | .iadd | .isub | .imul | .imad | .imin | .imax | .and | .or | .xor | .shl | .shr | .sar | .movi => true
  | _ => false

/-- The minor opcodes of Table 5-14. -/
def PairOp.minor : PairOp → BitVec 6
  | .fadd | .iadd => 0x00 | .fsub | .isub => 0x01 | .fmul | .imul => 0x02 | .ffma | .imad => 0x03
  | .fmin | .imin => 0x04 | .fmax | .imax => 0x05 | .frcp | .and => 0x06 | .frsq | .or => 0x07
  | .fsqrt | .xor => 0x08 | .fexp2 | .shl => 0x09 | .flog2 | .shr => 0x0A | .fsin | .sar => 0x0B
  | .fcos | .movi => 0x0C | .ftanh => 0x0D | .xadd => 0x0E | .xmul => 0x0F | .xfma => 0x10 | .xmin => 0x11
  | .xmax => 0x12 | .movf => 0x13

/-- The operation that a class and minor opcode name; a reserved one names none (R81). -/
def PairOp.ofMinor (isInt : Bool) (m : Nat) : Option PairOp :=
  if isInt then
    match m with
    | 0x00 => some .iadd | 0x01 => some .isub | 0x02 => some .imul | 0x03 => some .imad | 0x04 => some .imin
    | 0x05 => some .imax | 0x06 => some .and | 0x07 => some .or | 0x08 => some .xor | 0x09 => some .shl
    | 0x0A => some .shr | 0x0B => some .sar | 0x0C => some .movi
    | _ => none
  else
    match m with
    | 0x00 => some .fadd | 0x01 => some .fsub | 0x02 => some .fmul | 0x03 => some .ffma | 0x04 => some .fmin
    | 0x05 => some .fmax | 0x06 => some .frcp | 0x07 => some .frsq | 0x08 => some .fsqrt | 0x09 => some .fexp2
    | 0x0A => some .flog2 | 0x0B => some .fsin | 0x0C => some .fcos | 0x0D => some .ftanh | 0x0E => some .xadd
    | 0x0F => some .xmul | 0x10 => some .xfma | 0x11 => some .xmin | 0x12 => some .xmax | 0x13 => some .movf
    | _ => none

/-- The number of a v register operand. -/
def Opnd.vNo : Opnd → Option Nat
  | .v r => some r.val
  | _ => none

/-- Sources of one operation of a pair. -/
def PairHalf.sources (p : PairHalf) : List Opnd :=
  (if p.op.readsD then [p.d] else []) ++ (if p.op.unary then [p.a] else [p.a, p.b])

/-- The fields of one operation are what its entry accepts (R66, R67). -/
def PairHalf.ok (p : PairHalf) : Bool :=
  dst32.ok p.d && src32.ok p.a && (if p.op.unary then ({} : OpUse).ok p.b else src32.ok p.b)

/-- The bank of a v register (R69). -/
def bankOf (n : Nat) : Nat := n % 4

/-- A pair is legal (R82): v destinations in different banks, at most three source banks, at most one transcendental. -/
def pairOk (f : PF) : Bool :=
  f.op0.ok && f.op1.ok && !(f.g1neg && f.g1pred.val == 7) &&
  (match f.op0.d.vNo, f.op1.d.vNo with
   | some x, some y => bankOf x != bankOf y
   | _, _ => false) &&
  ((sortDedup (((f.op0.sources ++ f.op1.sources).filterMap Opnd.vNo).map bankOf)).length ≤ 3) &&
  !(f.op0.op.isTrans && f.op1.op.isTrans)

/-! ### The checks of R85 on one instruction's fields -/

/-- Guard 0b1111 is illegal (R64). -/
def hdrOk (h : Hdr) : Bool := !(h.gneg && h.gpred.val == 7)

/-- The fields of a V or I format instruction are what its entry accepts. -/
def vFieldsOk (e : VEntry) (modZero : Bool) (f : VF) : Bool :=
  (match f.imm with
   | some _ => e.fmtI && ({} : OpUse).ok f.b && f.mod == 0 && !f.nega && !f.negb && !f.absa && !f.absb
   | none => e.fmtV && e.b.ok f.b && (!modZero || f.mod == 0)
       && ((!f.nega && !f.absa) || e.sgnA) && ((!f.negb && !f.absb) || e.sgnB)) &&
  e.types.contains f.ty && e.d.ok f.d && e.a.ok f.a && e.c.ok f.c && (!f.sat || e.sat) &&
  (f.pred.val == 0 || e.pred) && e.rcs.contains f.rc && e.subs.contains f.sub && e.extra

/-- The fields of an M format instruction are what its entry accepts. -/
def mFieldsOk (e : MEntry) (f : MF) : Bool :=
  e.d.ok f.d && e.a.ok f.a && e.b.ok f.b && e.sizes.contains f.size && e.scopes.contains f.scope &&
  e.policies.contains f.policy && e.orders.contains f.order &&
  (!f.sext || (e.sext && (f.size == .b1 || f.size == .b2))) && e.subs.contains f.sub &&
  (f.pred.val == 0 || e.pred) && (f.off == 0 || e.off) && e.extra

/-- The fields of an E format instruction are what its entry accepts. -/
def eFieldsOk (e : EEntry) (f : EF) : Bool :=
  e.d.ok f.d && e.a.ok f.a && e.b.ok f.b && (f.bar.val == 0 || e.bar) && (f.shp.val == 0 || e.shp) &&
  (f.acc.val == 0 || e.acc) && (f.tid == 0 || e.tid) && (f.spair.val == 0 || e.spair) && e.subs.contains f.sub && e.extra

/-- The fields of a C format instruction are what its entry accepts. -/
def cFieldsOk (e : CEntry) (f : CF) : Bool :=
  e.d.ok f.d && e.a.ok f.a && ({} : OpUse).ok f.b && (f.off == 0 || e.off) && f.sub == 0 && e.extra

/-- The fields of an instruction, by its format (R71); events have none. -/
inductive Fields where
  | v (h : Hdr) (f : VF) | m (h : Hdr) (f : MF) | e (h : Hdr) (f : EF) | c (h : Hdr) (f : CF) | p (h : Hdr) (f : PF)
  | event
  deriving DecidableEq, Repr

/-- The fields of an instruction, by its format (R71). -/
def Instr.fields : Instr → Fields
  | .iadd h f | .isub h f | .iaddc h f | .imul h f | .imulh h f | .imad h f | .idiv h f | .irem h f | .imin h f
  | .imax h f | .iabs h f | .ineg h f | .lea h f | .and h f | .or h f | .xor h f | .not h f | .shl h f | .shr h f
  | .sar h f | .rotl h f | .bfx h f | .bfi h f | .popc h f | .clz h f | .brev h f | .sel h f | .icmp h f | .mov h f
  | .movi h f | .movs h f | .fadd h f | .fsub h f | .fmul h f | .ffma h f | .fdiv h f | .fmin h f | .fmax h f
  | .fcmp h f | .frcp h f | .frsq h f | .fsqrt h f | .fexp2 h f | .flog2 h f | .fsin h f | .fcos h f | .ftanh h f
  | .fscale h f | .fclass h f | .frnd h f | .xadd h f | .xmul h f | .xfma h f | .xmin h f | .xmax h f | .cvt h f
  | .pack h f | .unpack h f | .dot4 h f | .dot8 h f | .dscl h f | .shfl h f | .vote h f | .redl h f | .scanl h f
  | .match_ h f | .elect h f | .rng h f | .rngseed h f | .rngskip h f | .gets h f | .cycloRead h f | .sets h f
  | .trapret h f | .halt h f | .watch h f | .unwatch h f | .sampleMark h f | .sampleOn h f | .sampleOff h f
  | .logm h f | .freeze h f => .v h f
  | .ld h f | .st h f | .ldl h f | .stl h f | .ldc h f | .lds h f | .pref h f | .cctlIl1 h f | .cctlIrd h f
  | .cctlWb h f | .cctlIl1all h f | .cctlIrdall h f | .ldtag h f | .sttag h f | .atom h f | .atomc h f | .red h f
  | .atomo h f | .atoml h f | .fence h f | .fenceo h f | .fencex h f | .fencep h f | .cbseal h f | .cbwait h f
  | .rld h f | .rst h f | .ratom h f => .m h f
  | .cpyLd h f | .cpySt h f | .cpym h f | .cpys h f | .cpyg h f | .cpyx h f | .pft h f | .binit h f | .bexpect h f
  | .barrive h f | .bwait h f | .btest h f | .barm h f | .binv h f | .pclr h f | .ptest h f | .gld h f | .gst h f
  | .gset h f | .gget h f | .tidld h f | .tidset h f | .thnd h f | .mldw h f | .mswap h f | .mma h f | .mmat h f
  | .mclr h f | .mguide h f | .msta h f | .mldt h f | .mprog h f | .mlease h f | .mrel h f | .mwait h f
  | .mstatArith h f | .mstatEng h f | .rrd3 h f | .rwin h f | .rwclose h f | .coll h f | .cwait h f | .genrd h f
  | .ranksw h f | .tview h f | .tvclose h f => .e h f
  | .bra h f | .brx h f | .call h f | .callx h f | .ret h f | .join h f | .exit h f | .trap h f | .bkpt h f
  | .nop h f | .yield h f | .syncg h f | .synct h f | .sizesel h f | .ink h f => .c h f
  | .pair h f => .p h f
  | _ => .event

/-- The major opcode of Table 5-15 (R84); a pair's carries the classes of its operations (R77). -/
def Instr.major : Instr → Nat
  | .iadd .. => 0x00 | .isub .. => 0x01 | .iaddc .. => 0x02 | .imul .. => 0x03 | .imulh .. => 0x04
  | .imad .. => 0x05 | .idiv .. => 0x06 | .irem .. => 0x07 | .imin .. => 0x08 | .imax .. => 0x09 | .iabs .. => 0x0A
  | .ineg .. => 0x0B | .lea .. => 0x0C | .and .. => 0x0D | .or .. => 0x0E | .xor .. => 0x0F | .not .. => 0x10
  | .shl .. => 0x11 | .shr .. => 0x12 | .sar .. => 0x13 | .rotl .. => 0x14 | .bfx .. => 0x15 | .bfi .. => 0x16
  | .popc .. => 0x17 | .clz .. => 0x18 | .brev .. => 0x19 | .sel .. => 0x1A | .icmp .. => 0x1B | .mov .. => 0x1C
  | .movi .. => 0x1D | .movs .. => 0x1E | .fadd .. => 0x20 | .fsub .. => 0x21 | .fmul .. => 0x22 | .ffma .. => 0x23
  | .fdiv .. => 0x24 | .fmin .. => 0x25 | .fmax .. => 0x26 | .fcmp .. => 0x27 | .frcp .. => 0x28 | .frsq .. => 0x29
  | .fsqrt .. => 0x2A | .fexp2 .. => 0x2B | .flog2 .. => 0x2C | .fsin .. => 0x2D | .fcos .. => 0x2E
  | .ftanh .. => 0x2F | .fscale .. => 0x30 | .fclass .. => 0x31 | .frnd .. => 0x32 | .xadd .. => 0x33
  | .xmul .. => 0x34 | .xfma .. => 0x35 | .xmin .. => 0x36 | .xmax .. => 0x37 | .cvt .. => 0x38 | .pack .. => 0x39
  | .unpack .. => 0x3A | .dot4 .. => 0x3B | .dot8 .. => 0x3C | .dscl .. => 0x3D | .shfl .. => 0x40
  | .vote .. => 0x41 | .redl .. => 0x42 | .scanl .. => 0x43 | .match_ .. => 0x44 | .elect .. => 0x45
  | .rng .. => 0x46 | .rngseed .. => 0x47 | .rngskip .. => 0x48 | .bra .. => 0x50 | .brx .. => 0x51
  | .call .. => 0x52 | .callx .. => 0x53 | .ret .. => 0x54 | .join .. => 0x55 | .exit .. => 0x56 | .trap .. => 0x57
  | .bkpt .. => 0x58 | .nop .. => 0x59 | .yield .. => 0x5A | .syncg .. => 0x5B | .synct .. => 0x5C
  | .sizesel .. => 0x5D | .ink .. => 0x5E | .ld .. => 0x60 | .st .. => 0x61 | .ldl .. => 0x62 | .stl .. => 0x63
  | .ldc .. => 0x64 | .lds .. => 0x65 | .pref .. => 0x66
  | .cctlIl1 .. | .cctlIrd .. | .cctlWb .. | .cctlIl1all .. | .cctlIrdall .. => 0x67 | .ldtag .. => 0x68
  | .sttag .. => 0x69 | .atom .. => 0x6A | .atomc .. => 0x6B | .red .. => 0x6C | .atomo .. => 0x6D
  | .atoml .. => 0x6E | .fence .. => 0x6F | .fenceo .. => 0x70 | .fencex .. => 0x71 | .fencep .. => 0x72
  | .cbseal .. => 0x73 | .cbwait .. => 0x74 | .cpyLd .. | .cpySt .. => 0x80 | .cpym .. => 0x81 | .cpys .. => 0x82
  | .cpyg .. => 0x83 | .cpyx .. => 0x84 | .pft .. => 0x85 | .binit .. => 0x86 | .bexpect .. => 0x87
  | .barrive .. => 0x88 | .bwait .. => 0x89 | .btest .. => 0x8A | .barm .. => 0x8B | .binv .. => 0x8C
  | .pclr .. => 0x8D | .ptest .. => 0x8E | .gld .. => 0x8F | .gst .. => 0x90 | .gset .. => 0x91 | .gget .. => 0x92
  | .tidld .. => 0x93 | .tidset .. => 0x94 | .thnd .. => 0x95 | .mldw .. => 0xA0 | .mswap .. => 0xA1
  | .mma .. => 0xA2 | .mmat .. => 0xA3 | .mclr .. => 0xA4 | .mguide .. => 0xA5 | .msta .. => 0xA6
  | .mldt .. => 0xA7 | .mprog .. => 0xA8 | .mlease .. => 0xA9 | .mrel .. => 0xAA | .mwait .. => 0xAB
  | .mstatArith .. | .mstatEng .. => 0xAC | .rld .. => 0xB0 | .rst .. => 0xB1 | .ratom .. => 0xB2
  | .rrd3 .. => 0xB3 | .rwin .. => 0xB4 | .rwclose .. => 0xB5 | .coll .. => 0xB6 | .cwait .. => 0xB7
  | .genrd .. => 0xB8 | .ranksw .. => 0xB9 | .tview .. => 0xBA | .tvclose .. => 0xBB
  | .gets .. | .cycloRead .. => 0xC0 | .sets .. => 0xC1 | .trapret .. => 0xC2 | .halt .. => 0xC3
  | .watch .. => 0xC4 | .unwatch .. => 0xC5 | .sampleMark .. | .sampleOn .. | .sampleOff .. => 0xC6
  | .logm .. => 0xC7 | .freeze .. => 0xC8
  | .pair _ f => 0xE0 + (if f.op0.op.isInt then 1 else 0) + (if f.op1.op.isInt then 2 else 0)
  | _ => 0xFF

/-- The instruction's fields are what its entry accepts (R85); an event has no word. -/
def Instr.fieldsOk (i : Instr) : Bool :=
  match i.fields with
  | .v h f => hdrOk h && (match vEntry i with | some e => vFieldsOk e (vModZero i) f | none => false)
  | .m h f => hdrOk h && (match mEntry i with | some e => mFieldsOk e f | none => false)
  | .e h f => hdrOk h && (match eEntry i with | some e => eFieldsOk e f | none => false)
  | .c h f => hdrOk h && (match cEntry i with | some e => cFieldsOk e f | none => false)
  | .p h f => hdrOk h && pairOk f
  | .event => false

/-! ### The registers an instruction names -/

/-- An operand with the number of its registers. -/
abbrev Named := Opnd × Nat

/-- The operands that an instruction names, each with its register count (R69). -/
def Instr.named (i : Instr) : List Named :=
  match i.fields with
  | .v _ f => (match vEntry i with
    | some e => [(f.d, e.d.n), (f.a, e.a.n), (f.b, if f.imm.isSome then 0 else e.b.n), (f.c, e.c.n)]
    | none => [])
  | .m _ f => (match mEntry i with
    | some e => [(f.d, e.d.n), (f.a, e.a.n), (f.b, e.b.n)]
    | none => [])
  | .e _ f => (match eEntry i with
    | some e => [(f.d, e.d.n), (f.a, e.a.n), (f.b, e.b.n)]
        ++ (if e.spair then [(.s ⟨f.spair.val * 2, by omega⟩, 2)] else [])
    | none => [])
  | .c _ f => (match cEntry i with
    | some e => [(f.d, e.d.n), (f.a, e.a.n)]
    | none => [])
  | .p _ f => [(f.op0.d, 1), (f.op0.a, 1), (f.op0.b, if f.op0.op.unary then 0 else 1),
      (f.op1.d, 1), (f.op1.a, 1), (f.op1.b, if f.op1.op.unary then 0 else 1)]
  | .event => []

/-- The header of an instruction's word. -/
def Instr.hdr (i : Instr) : Option Hdr :=
  match i.fields with
  | .v h _ | .m h _ | .e h _ | .c h _ | .p h _ => some h
  | .event => none

/-- The predicates an instruction names: its guards, and its pred field where its entry uses one (R69, R74). -/
def Instr.preds (i : Instr) : List Nat :=
  match i.fields with
  | .v h f => h.gpred.val :: (if (vEntry i).any (fun e => e.pred) then [f.pred.val] else [])
      ++ (match i with | .vote _ _ => [modBits f.mod 2 0] | _ => [])
  | .m h f => h.gpred.val :: (if (mEntry i).any (fun e => e.pred) then [f.pred.val] else [])
  | .e h _ | .c h _ => [h.gpred.val]
  | .p h f => [h.gpred.val, f.g1pred.val]
  | .event => []

/-- No named v register lies at or above an allotment of vector registers (R27, R69). -/
def Instr.within (i : Instr) (allot : Nat) : Bool :=
  i.named.all fun (o, n) => match o with
    | .v r => n == 0 || r.val + n ≤ allot
    | _ => true

/-- The single-issue unit that an instruction uses (Table 3-6, R373). -/
inductive IssueUnit where
  | mem | engine | trans | branch
  deriving DecidableEq, Repr

/-- Table 3-6. -/
def Instr.issueUnit (i : Instr) : Option IssueUnit :=
  match i.fields with
  | .m .. => some .mem
  | .e .. => some .engine
  | .c .. => some .branch
  | .v .. => if 0x28 ≤ i.major ∧ i.major ≤ 0x2F then some .trans else none
  | .p _ f => if f.op0.op.isTrans || f.op1.op.isTrans then some .trans else none
  | .event => none

end Sys2Proof
end

