-- ==== Sys2Proof/Machine/Flags.lean ====
section
/-! DEFINITION. Integer results, carries and comparisons (R125 to R129); the machine has no flag register: a carry or a
comparison goes to a predicate. -/

namespace Sys2Proof.Machine

/-- Width of a type that fills one register or a pair. -/
def wBits (t : Ty) : Nat := if t.is64 then 64 else 32

/-- The value of an operand in a type: signed for .I types, unsigned otherwise (R125). -/
def valIn (t : Ty) (x : W64) : Int :=
  if t.is64 then (if t.isSigned then x.toInt else x.toNat)
  else if t.isSigned then (x.truncate 32).toInt else (x.truncate 32).toNat

/-- The least and greatest value of an n-bit type (R98). -/
def typeRange (signed : Bool) (n : Nat) : Int × Int :=
  if signed then (-(2 ^ (n - 1)), 2 ^ (n - 1) - 1) else (0, 2 ^ n - 1)

def clampInt (lo hi x : Int) : Int := if x < lo then lo else if hi < x then hi else x

/-- An exact result narrowed to a type: clamped when `sat`, else modulo 2^W (R98, R125). -/
def narrow (t : Ty) (sat : Bool) (e : Int) : W64 :=
  let w := wBits t
  let r := typeRange t.isSigned w
  BitVec.ofNat 64 ((if sat then clampInt r.1 r.2 e else e) % 2 ^ w).toNat

/-- IDIV of R127, in integers. -/
def idivVal (t : Ty) (sat : Bool) (x y : Int) : Int :=
  let w := wBits t
  if y = 0 then 2 ^ w - 1
  else if t.isSigned && x = -(2 ^ (w - 1)) && y = -1 then (if sat then 2 ^ (w - 1) - 1 else -(2 ^ (w - 1)))
  else Int.tdiv x y

/-- IREM of R127, in integers. -/
def iremVal (t : Ty) (x y : Int) : Int :=
  let w := wBits t
  if y = 0 then x
  else if t.isSigned && x = -(2 ^ (w - 1)) && y = -1 then 0
  else x - y * Int.tdiv x y

/-- IADDC of R126: the sum modulo 2^W and the carry out, operands unsigned whatever the type. -/
def addCarry (t : Ty) (x y : W64) (cin : Bool) : W64 × Bool :=
  let s := x.toNat + y.toNat + (if cin then 1 else 0)
  (BitVec.ofNat 64 (s % 2 ^ wBits t), decide (2 ^ wBits t ≤ s))

/-- The comparisons of ICMP (R129). -/
def icmpVal (c : Cmp) (x y : Int) : Bool :=
  match c with
  | .eq => x == y | .ne => x != y | .lt => x < y | .le => x ≤ y | .gt => y < x | .ge => y ≤ x | .num => true | .nan => false

/-- SHL of R128. -/
def shlVal (t : Ty) (x : W64) (n : Nat) : W64 :=
  if wBits t ≤ n then 0 else BitVec.ofNat 64 (x.toNat * 2 ^ n % 2 ^ wBits t)

/-- SHR of R128. -/
def shrVal (t : Ty) (x : W64) (n : Nat) : W64 := if wBits t ≤ n then 0 else BitVec.ofNat 64 (x.toNat / 2 ^ n)

/-- SAR of R128: a full shift leaves copies of the sign bit. -/
def sarVal (t : Ty) (x : W64) (n : Nat) : W64 :=
  narrow t false (valIn t x / 2 ^ (if wBits t ≤ n then wBits t else n))

/-- ROTL of R128. -/
def rotlVal (t : Ty) (x : W64) (n : Nat) : W64 :=
  let w := wBits t
  let k := n % w
  BitVec.ofNat 64 ((x.toNat * 2 ^ k % 2 ^ w) + x.toNat / 2 ^ (w - k))

/-- BFX of R128: bits at and above W read as 0 for .N and as the sign bit for .I. -/
def bfxVal (t : Ty) (x : W64) (ctl : W32) : W64 :=
  let w := wBits t
  let pos := natBits ctl.toNat 7 0
  let len := Nat.min (natBits ctl.toNat 15 8) w
  let v := valIn t x
  let f := (v / 2 ^ pos) % 2 ^ len
  if len = 0 then 0
  else narrow t false (if t.isSigned && 2 ^ (len - 1) ≤ f then f - 2 ^ len else f)

/-- The field mask of BFI (R128). -/
def bfiMask (w pos len : Nat) : Nat := (2 ^ Nat.min w (pos + len) - 1) / 2 ^ pos * 2 ^ pos

/-- BFI of R128. -/
def bfiVal (t : Ty) (x : W64) (ctl : W32) (c : W64) : W64 :=
  let w := wBits t
  let pos := natBits ctl.toNat 7 0
  let len := natBits ctl.toNat 15 8
  let m : W64 := BitVec.ofNat 64 (bfiMask w pos len)
  (x &&& ~~~m) ||| (BitVec.ofNat 64 (c.toNat * 2 ^ pos % 2 ^ w) &&& m)

/-- Number of one bits among the n low bits. -/
def popBits : Nat → Nat → Nat
  | 0, _ => 0
  | n + 1, x => x % 2 + popBits n (x / 2)

/-- Number of zero bits above the highest one bit of a W-bit value; W for 0 (R128). -/
def clzBits (w x : Nat) : Nat := if x = 0 then w else w - 1 - Nat.log2 x

/-- Bit i goes to bit n − 1 − i (R128). -/
def revBits : Nat → Nat → Nat
  | 0, _ => 0
  | n + 1, x => (x % 2) * 2 ^ n + revBits n (x / 2)

end Sys2Proof.Machine
end

