-- ==== Sys2Proof/Machine/Float.lean ====
section
/-! DEFINITION. Floating-point formats, rounding, exact arithmetic and conversions (07_arithmetic.md, R132 to R136). -/

namespace Sys2Proof.Machine

/-- A floating-point format (Table 7-1): exponent and fraction widths, bias, and whether it has infinities and NaNs as F32
has them (`ieee`), one NaN encoding (`narrow8`), or neither. -/
structure Fmt where
  eb : Nat
  fb : Nat
  bias : Nat
  ieee : Bool
  nan8 : Bool

def fF32 : Fmt := ⟨8, 23, 127, true, false⟩
def fF16 : Fmt := ⟨5, 10, 15, true, false⟩
def fBF16 : Fmt := ⟨8, 7, 127, true, false⟩
def fF8A : Fmt := ⟨4, 3, 8, false, true⟩
def fF8B : Fmt := ⟨5, 2, 16, false, true⟩
def fF4 : Fmt := ⟨2, 1, 1, false, false⟩

/-- The format of a floating-point type. -/
def fmtOf : Ty → Fmt
  | .f16 => fF16 | .bf16 => fBF16 | .f8a => fF8A | .f8b => fF8B | .f4 => fF4 | _ => fF32

/-- A value: NaN, an infinity, or ± m · 2^e; a zero keeps its sign. -/
inductive FVal where
  | nan
  | inf (neg : Bool)
  | fin (neg : Bool) (m : Nat) (e : Int)
  deriving DecidableEq, Repr

/-- The value of an encoding (R94, R95, R96). -/
def Fmt.decode (f : Fmt) (x : Nat) : FVal :=
  let neg := x / 2 ^ (f.eb + f.fb) % 2 == 1
  let e := x / 2 ^ f.fb % 2 ^ f.eb
  let m := x % 2 ^ f.fb
  if f.ieee && e == 2 ^ f.eb - 1 then (if m = 0 then .inf neg else .nan)
  else if f.nan8 && neg && e == 0 && m == 0 then .nan
  else if e = 0 then .fin (neg && f.ieee || neg && m != 0) m (1 - (f.bias : Int) - f.fb)
  else .fin neg (m + 2 ^ f.fb) ((e : Int) - f.bias - f.fb)

/-- The canonical NaN (Table 7-2); F4 has none and takes 0x0 (R104). -/
def Fmt.canonNan (f : Fmt) : Nat :=
  if f.ieee then (2 ^ f.eb - 1) * 2 ^ f.fb + 2 ^ (f.fb - 1) else if f.nan8 then 2 ^ (f.eb + f.fb) else 0

def Fmt.infBits (f : Fmt) (neg : Bool) : Nat :=
  (if neg then 2 ^ (f.eb + f.fb) else 0) + (2 ^ f.eb - 1) * 2 ^ f.fb

/-- The largest finite value with a sign. -/
def Fmt.maxBits (f : Fmt) (neg : Bool) : Nat :=
  (if neg then 2 ^ (f.eb + f.fb) else 0) + (if f.ieee then (2 ^ f.eb - 1) * 2 ^ f.fb - 1 else 2 ^ (f.eb + f.fb) - 1)

/-- A zero with a sign; the narrow formats have +0 alone (R96). -/
def Fmt.zeroBits (f : Fmt) (neg : Bool) : Nat := if neg && f.ieee then 2 ^ (f.eb + f.fb) else 0

/-- A magnitude m · 2^e cut at a quantum 2^q in a rounding mode: the multiple of the quantum (R99). -/
def roundAt (r : Rnd) (neg : Bool) (m : Nat) (e q : Int) : Nat :=
  if q ≤ e then m * 2 ^ (e - q).toNat
  else
    let sh := (q - e).toNat
    let t := m / 2 ^ sh
    let rem := m % 2 ^ sh
    let up := match r with
      | .rne => 2 ^ sh < 2 * rem || (2 * rem == 2 ^ sh && t % 2 == 1)
      | .rtz => false
      | .rup => !neg && rem != 0
      | .rdn => neg && rem != 0
    if up then t + 1 else t

/-- The quantum of the representable values near m · 2^e (R99). -/
def Fmt.quantum (f : Fmt) (m : Nat) (e : Int) : Int :=
  max (e + (Nat.log2 m + 1 : Nat) - (f.fb + 1 : Nat)) (1 - (f.bias : Int) - f.fb)

/-- Round a nonzero magnitude to a format: the encoding without sign, or none on overflow (R99). -/
def Fmt.roundMag (f : Fmt) (r : Rnd) (neg : Bool) (m : Nat) (e : Int) : Option Nat :=
  let q := f.quantum m e
  let t := roundAt r neg m e q
  -- fraction and exponent of t · 2^q
  let (t, q) := if 2 ^ (f.fb + 1) ≤ t then (t / 2, q + 1) else (t, q)
  if t < 2 ^ f.fb then some t
  else
    let ex := (q + f.fb + f.bias).toNat
    let top := if f.ieee then 2 ^ f.eb - 1 else 2 ^ f.eb
    if top ≤ ex then none else some (ex * 2 ^ f.fb + (t - 2 ^ f.fb))

/-- Overflow of R101, R103 and R104. -/
def Fmt.overflow (f : Fmt) (r : Rnd) (nof neg : Bool) : Nat :=
  if f.ieee then
    match r, neg with
    | .rne, _ => f.infBits neg
    | .rtz, _ => f.maxBits neg
    | .rup, false => f.infBits false
    | .rup, true => f.maxBits true
    | .rdn, false => f.maxBits false
    | .rdn, true => f.infBits true
  else if f.nan8 && nof then f.canonNan
  else f.maxBits neg

/-- A value rounded once to a format, with its overflow rule (R99 to R104). -/
def Fmt.encode (f : Fmt) (r : Rnd) (nof : Bool) : FVal → Nat
  | .nan => f.canonNan
  | .inf neg => if f.ieee then f.infBits neg else f.overflow r nof neg
  | .fin neg m e =>
    if m = 0 then f.zeroBits neg
    else match f.roundMag r neg m e with
      | none => f.overflow r nof neg
      | some t => if t = 0 then f.zeroBits neg else (if neg then 2 ^ (f.eb + f.fb) else 0) + t

/-! ### Exact arithmetic -/

/-- The signed integer of a value at a common exponent. -/
def scaled (neg : Bool) (m : Nat) (e c : Int) : Int :=
  let x : Int := m * 2 ^ (e - c).toNat
  if neg then -x else x

/-- A signed integer times 2^c as a value; `zneg` signs a zero. -/
def ofScaled (x : Int) (c : Int) (zneg : Bool) : FVal :=
  if x = 0 then .fin zneg 0 0 else .fin (x < 0) x.natAbs c

/-- Exact sum; a zero from operands of opposite signs is −0 in RDN alone (R101). -/
def FVal.add (r : Rnd) : FVal → FVal → FVal
  | .nan, _ | _, .nan => .nan
  | .inf a, .inf b => if a = b then .inf a else .nan
  | .inf a, _ => .inf a
  | _, .inf b => .inf b
  | .fin na ma ea, .fin nb mb eb =>
    let c := min ea eb
    ofScaled (scaled na ma ea c + scaled nb mb eb c) c (if na = nb then na else r == .rdn)

def FVal.neg : FVal → FVal
  | .nan => .nan
  | .inf a => .inf !a
  | .fin n m e => .fin (!n) m e

/-- Exact product; 0 × ∞ is NaN. -/
def FVal.mul : FVal → FVal → FVal
  | .nan, _ | _, .nan => .nan
  | .inf a, .inf b => .inf (a != b)
  | .inf a, .fin b m _ => if m = 0 then .nan else .inf (a != b)
  | .fin a m _, .inf b => if m = 0 then .nan else .inf (a != b)
  | .fin a m e, .fin b n g => .fin (a != b) (m * n) (e + g)

/-- A magnitude t · 2^e known to lie strictly between t and t + 1 when `more`: one bit below carries the excess. -/
def sticky (t : Nat) (more : Bool) (e : Int) : Nat × Int := (2 * t + (if more then 1 else 0), e - 1)

/-- Quotient, exact but for one bit below 64 bits of precision that carries the remainder (R132). -/
def FVal.div : FVal → FVal → FVal
  | .nan, _ | _, .nan => .nan
  | .inf _, .inf _ => .nan
  | .inf a, .fin b _ _ => .inf (a != b)
  | .fin a _ _, .inf b => .fin (a != b) 0 0
  | .fin a m e, .fin b n g =>
    if n = 0 then (if m = 0 then .nan else .inf (a != b))
    else if m = 0 then .fin (a != b) 0 0
    else
      let k := 64 + Nat.log2 n
      let x := m * 2 ^ k
      let (t, c) := sticky (x / n) (x % n != 0) (e - g - k)
      .fin (a != b) t c

/-- Integer square root by bits, from bit n down. -/
def isqrtFrom (x : Nat) : Nat → Nat → Nat
  | 0, acc => acc
  | n + 1, acc => isqrtFrom x n (if (acc + 2 ^ n) * (acc + 2 ^ n) ≤ x then acc + 2 ^ n else acc)

/-- Integer square root. -/
def isqrt (x : Nat) : Nat := isqrtFrom x (Nat.log2 x / 2 + 1) 0

/-- Square root of a nonnegative magnitude, one bit carrying the remainder. -/
def sqrtMag (m : Nat) (e : Int) : Nat × Int :=
  let (m, e) := if e % 2 = 0 then (m, e) else (2 * m, e - 1)
  let x := m * 2 ^ 128
  let t := isqrt x
  sticky t (t * t != x) (e / 2 - 64)

/-- Reciprocal square root of a magnitude, one bit carrying the remainder. -/
def rsqrtMag (m : Nat) (e : Int) : Nat × Int :=
  let (m, e) := if e % 2 = 0 then (m, e) else (2 * m, e - 1)
  let k := 64 + Nat.log2 m
  let n := 2 ^ (2 * k)
  let t := isqrt (n / m)
  sticky t (t * t * m != n) (-(e / 2) - k)

/-- Comparison of two values that are no NaN: their difference as an integer. -/
def FVal.diff : FVal → FVal → Int
  | .inf a, .inf b => (if a then -1 else 1) - (if b then -1 else 1)
  | .inf a, _ => if a then -1 else 1
  | _, .inf b => if b then 1 else -1
  | .fin a m e, .fin b n g => scaled a m e (min e g) - scaled b n g (min e g)
  | _, _ => 0

def FVal.isNan : FVal → Bool
  | .nan => true
  | _ => false

/-- FCMP (R134). -/
def fcmpVal (c : Cmp) (x y : FVal) : Bool :=
  if x.isNan || y.isNan then (c == .ne || c == .nan)
  else icmpVal c (x.diff y) 0 || c == .num

/-- The sign of a value. -/
def FVal.isNeg : FVal → Bool
  | .nan => false
  | .inf a => a
  | .fin a _ _ => a

/-- FMIN and FMAX (R133) on encodings: the operand returned, or the canonical NaN. -/
def fminmax (f : Fmt) (isMax : Bool) (a b : Nat) : Nat :=
  let x := f.decode a
  let y := f.decode b
  if x.isNan then (if y.isNan then f.canonNan else b)
  else if y.isNan then a
  else
    let d := x.diff y
    if d = 0 then (if x.isNeg != isMax then a else b)
    else if (d < 0) != isMax then a else b

/-! ### Integers and floating point (R105) -/

/-- A value rounded to an integer in a mode. -/
def FVal.toIntegral (r : Rnd) (neg : Bool) (m : Nat) (e : Int) : Int :=
  let t := roundAt r neg m e 0
  if neg then -(t : Int) else t

/-- Floating point to integer: clamped; NaN gives 0 (R105). -/
def floatToInt (r : Rnd) (lo hi : Int) : FVal → Int
  | .nan => 0
  | .inf neg => if neg then lo else hi
  | .fin neg m e => clampInt lo hi (FVal.toIntegral r neg m e)

/-- An integer as a value; 0 is +0. -/
def intVal (x : Int) : FVal := .fin (x < 0) x.natAbs 0

/-- FRND (R136): an integral F32; a zero result takes the sign of a. -/
def frndVal (r : Rnd) : FVal → FVal
  | .fin neg m e => .fin neg (roundAt r neg m e 0) 0
  | x => x

/-- The value of an element code in a type. -/
inductive Elem where
  | int (x : Int)
  | flt (v : FVal)

/-- An element of a type from its bit pattern: integers by sign, floating point by format (R140, R142). -/
def elemVal (t : Ty) (x : Nat) : Elem :=
  if t.isFloat then .flt ((fmtOf t).decode (x % 2 ^ t.width))
  else
    let y := x % 2 ^ t.width
    .int (if t.isSigned && 2 ^ (t.width - 1) ≤ y then (y : Int) - 2 ^ t.width else y)

/-- Conversion of R102 to R105 to a type's bit pattern. -/
def convert (src dst : Ty) (r : Rnd) (sat nof : Bool) (x : Nat) : Nat :=
  match elemVal src x with
  | .flt v =>
    if dst.isFloat then (fmtOf dst).encode r nof v
    else
      let g := typeRange dst.isSigned dst.width
      (floatToInt r g.1 g.2 v % 2 ^ dst.width).toNat
  | .int v =>
    if dst.isFloat then (fmtOf dst).encode r nof (intVal v)
    else
      let g := typeRange dst.isSigned dst.width
      ((if sat then clampInt g.1 g.2 v else v) % 2 ^ dst.width).toNat

/-! ### F32 operations on encodings (R132) -/

/-- Sign bits of an operand (R121): absolute value, then negation, of the sign bit alone. -/
def signOp (f : Fmt) (neg abs : Bool) (x : Nat) : Nat :=
  let sb := 2 ^ (f.eb + f.fb)
  let mag := x % sb
  let s := if abs then false else x / sb % 2 == 1
  mag + (if s != neg then sb else 0)

def faddBits (f : Fmt) (r : Rnd) (a b : Nat) : Nat := f.encode r false ((f.decode a).add r (f.decode b))
def fsubBits (f : Fmt) (r : Rnd) (a b : Nat) : Nat := f.encode r false ((f.decode a).add r (f.decode b).neg)
def fmulBits (f : Fmt) (r : Rnd) (a b : Nat) : Nat := f.encode r false ((f.decode a).mul (f.decode b))
def fdivBits (f : Fmt) (r : Rnd) (a b : Nat) : Nat := f.encode r false ((f.decode a).div (f.decode b))
def ffmaBits (f : Fmt) (r : Rnd) (a b d : Nat) : Nat :=
  f.encode r false (((f.decode a).mul (f.decode b)).add r (f.decode d))

/-- An exponent bounded to where the result no longer changes: beyond it every product overflows, or lies below every
representable value. -/
def boundExp (k : Int) : Int := clampInt (-4096) 4096 k

/-- FSCALE (R136). -/
def fscaleBits (r : Rnd) (a : Nat) (k : Int) : Nat :=
  match fF32.decode a with
  | .nan => fF32.canonNan
  | .inf _ => a
  | .fin neg m e => if m = 0 then a else fF32.encode r false (.fin neg m (e + boundExp k))

/-- FCLASS (R136): the number of the class. -/
def fclassNo (a : Nat) : Nat :=
  match fF32.decode a with
  | .nan => 8
  | .inf neg => if neg then 0 else 7
  | .fin neg m _ =>
    if m = 0 then (if neg then 3 else 4)
    else if m < 2 ^ 23 then (if neg then 2 else 5)
    else if neg then 1 else 6

/-! ### Functions of Table 9-3 (R135) -/

/-- Sum of z^(2k+1)/(2k+1) with signs, fixed point of p bits: `zz` is z², `t` the running power; alternating when `alt`. -/
def oddSeries (p : Nat) (alt : Bool) (zz : Nat) : Nat → Nat → Nat → Int
  | 0, _, _ => 0
  | fuel + 1, k, t =>
    let x : Int := (t / (2 * k + 1) : Nat)
    (if alt && k % 2 == 1 then -x else x) + oddSeries p alt zz fuel (k + 1) (t * zz / 2 ^ p)

/-- atanh of n/d and atan of n/d, fixed point of p bits. -/
def atanhFix (p n d : Nat) : Int :=
  let z := n * 2 ^ p / d
  oddSeries p false (z * z / 2 ^ p) (p / 3 + 8) 0 z
def atanFix (p n d : Nat) : Int :=
  let z := n * 2 ^ p / d
  oddSeries p true (z * z / 2 ^ p) (p / 4 + 8) 0 z

/-- ln 2 and π, fixed point of p bits. -/
def ln2Fix (p : Nat) : Int := 2 * atanhFix p 1 3
def piFix (p : Nat) : Int := 16 * atanFix p 1 5 - 4 * atanFix p 1 239

/-- The exponential of x ≥ 0, x < 1, fixed point of p bits. -/
def expSeries (p x : Nat) : Nat → Nat → Nat → Nat
  | 0, _, _ => 0
  | fuel + 1, k, t => t + expSeries p x fuel (k + 1) (t * x / 2 ^ p / (k + 1))
def expFix (p x : Nat) : Nat := expSeries p x (p / 4 + 24) 0 (2 ^ p)

/-- The sine of x ≥ 0, x < 1, and the cosine, fixed point of p bits: the terms of one parity. -/
def trigSeries (p xx : Nat) : Nat → Nat → Nat → Int
  | 0, _, _ => 0
  | fuel + 1, k, t => (t : Int) - trigSeries p xx fuel (k + 2) (t * xx / 2 ^ p / ((k + 1) * (k + 2)))
def sinFix (p x : Nat) : Int := trigSeries p (x * x / 2 ^ p) (p / 8 + 16) 1 x
def cosFix (p x : Nat) : Int := trigSeries p (x * x / 2 ^ p) (p / 8 + 16) 0 (2 ^ p)

/-- The precisions tried in turn, in bits. -/
def precisions : List Nat := [96, 192, 384, 768]

/-- Round a magnitude that an approximation of p bits brackets within 2^-(p − 24): the first precision at which both ends
round alike decides; the last one stands if none does (log 19). -/
def zivFrom (r : Rnd) (neg : Bool) (approx : Nat → Int) : List Nat → Nat
  | [] => 0
  | p :: ps =>
    let v := approx p
    let lo := (v - 2 ^ 24).toNat
    let hi := (v + 2 ^ 24).toNat
    let x := fF32.encode r false (.fin neg lo (-(p : Int)))
    let y := fF32.encode r false (.fin neg hi (-(p : Int)))
    if x = y && lo != 0 then x
    else match ps with
      | [] => fF32.encode r false (.fin neg v.toNat (-(p : Int)))
      | _ => zivFrom r neg approx ps

def ziv (r : Rnd) (neg : Bool) (approx : Nat → Int) : Nat := zivFrom r neg approx precisions

/-- A magnitude times 2^e as a fixed-point number of p bits, cut below. -/
def fixOf (p m : Nat) (e : Int) : Nat :=
  if 0 ≤ e + p then m * 2 ^ (e + p).toNat else m / 2 ^ (-(e + p)).toNat

/-- 2^a for a finite a that is no integer (R135). -/
def exp2Bits (r : Rnd) (neg : Bool) (m : Nat) (e : Int) : Nat :=
  -- integer part and fraction of a, the fraction exact
  let a := scaled neg m e e
  let d : Int := 2 ^ (-e).toNat
  let n := a / d
  let frac := (a % d).toNat
  if 200 < n then fF32.overflow r false false
  else if n < -200 then fF32.encode r false (.fin false 1 (-300))
  else ziv r false fun p =>
    let x := (fixOf p frac e * (ln2Fix p).toNat) / 2 ^ p
    let v : Int := expFix p x
    if 0 ≤ n then v * 2 ^ n.toNat else v / 2 ^ (-n).toNat

/-- log2 of a positive value that is no power of two (R135). -/
def log2Bits (r : Rnd) (m : Nat) (e : Int) : Nat :=
  let k := Nat.log2 m
  -- a = x · 2^(e + k), 1 < x < 2; the logarithm of x · 2^j is taken about 1
  let big := 3 * 2 ^ k < 2 * m
  let ex : Int := e + k + (if big then 1 else 0)
  let den := if big then 2 ^ (k + 1) else 2 ^ k
  let lg := fun (p : Nat) =>
    let num := if big then den - m else m - den
    let t := 2 * atanhFix p num (m + den) * 2 ^ p / ln2Fix p
    ex * 2 ^ p + (if big then -t else t)
  let neg := ex < 0 || (ex == 0 && big)
  ziv r neg fun p => if neg then -(lg p) else lg p

/-- sin(π r) for 0 < r ≤ 1/4 and cos(π r), r = n/d. -/
def sinPi (p n d : Nat) : Int := sinFix p ((piFix p).toNat * n / d)
def cosPi (p n d : Nat) : Int := cosFix p ((piFix p).toNat * n / d)

/-- sin(π · n/d) for 0 < n/d < 1/2 at p bits. -/
def sinHalf (p n d : Nat) : Int := if 4 * n ≤ d then sinPi p n d else cosPi p (d - 2 * n) (2 * d)

/-- sin(π a) for a value that is neither zero nor an integer: a reduced exactly modulo 2 (R135). -/
def sinBits (r : Rnd) (neg : Bool) (num den : Nat) : Nat :=
  let t := num % (2 * den)
  let (neg, t) := if den < t then (!neg, t - den) else (neg, t)
  let t := if den < 2 * t then den - t else t
  if 2 * t = den then fF32.encode r false (.fin neg 1 0)
  else ziv r neg fun p => sinHalf p t den

/-- tanh of a nonzero finite value (R135): just below a when a is small, just below 1 when it is large. -/
def tanhBits (r : Rnd) (neg : Bool) (m : Nat) (e : Int) : Nat :=
  let top := e + Nat.log2 m
  if top < -40 then fF32.encode r false (.fin neg (m * 2 ^ 64 - 1) (e - 64))
  else if 6 ≤ top then fF32.encode r false (.fin neg (2 ^ 64 - 1) (-64))
  else ziv r neg fun p =>
    -- q = exp(2a) as 2^n · exp(f), then (q − 1)/(q + 1)
    let x := 2 * fixOf p m e
    let l := (ln2Fix p).toNat
    let q := expFix p (x % l) * 2 ^ (x / l)
    ((q - 2 ^ p) * 2 ^ p / (q + 2 ^ p) : Nat)

/-- The transcendental instructions. -/
inductive Trans where
  | rcp | rsq | sqrt | exp2 | log2 | sin | cos | tanh
  deriving DecidableEq, Repr

/-- The result of a transcendental instruction on an F32 encoding (Table 9-3). -/
def transBits (t : Trans) (r : Rnd) (a : Nat) : Nat :=
  let nan := fF32.canonNan
  match t, fF32.decode a with
  | _, .nan => nan
  | .rcp, .inf neg => fF32.zeroBits neg
  | .rcp, .fin neg m e =>
    if m = 0 then fF32.infBits neg else fF32.encode r false ((FVal.fin false 1 0).div (.fin neg m e))
  | .rsq, .inf neg => if neg then nan else 0
  | .rsq, .fin neg m e =>
    if m = 0 then fF32.infBits neg else if neg then nan
    else let x := rsqrtMag m e; fF32.encode r false (.fin false x.1 x.2)
  | .sqrt, .inf neg => if neg then nan else fF32.infBits false
  | .sqrt, .fin neg m e =>
    if m = 0 then a else if neg then nan
    else let x := sqrtMag m e; fF32.encode r false (.fin false x.1 x.2)
  | .exp2, .inf neg => if neg then 0 else fF32.infBits false
  | .exp2, .fin neg m e =>
    if m = 0 then 0x3F800000
    else if 0 ≤ e || m % 2 ^ (-e).toNat = 0 then
      let n := if 0 ≤ e then m * 2 ^ e.toNat else m / 2 ^ (-e).toNat
      let n := Nat.min n 4096
      fF32.encode r false (.fin false 1 (if neg then -(n : Int) else n))
    else exp2Bits r neg m e
  | .log2, .inf neg => if neg then nan else fF32.infBits false
  | .log2, .fin neg m e =>
    if m = 0 then fF32.infBits true else if neg then nan
    else if m = 2 ^ Nat.log2 m then fF32.encode r false (intVal (e + Nat.log2 m))
    else log2Bits r m e
  | .sin, .inf _ => nan
  | .sin, .fin neg m e =>
    if m = 0 then a
    else if 0 ≤ e || m % 2 ^ (-e).toNat = 0 then fF32.zeroBits neg
    else sinBits r neg m (2 ^ (-e).toNat)
  | .cos, .inf _ => nan
  | .cos, .fin _ m e =>
    if m = 0 then 0x3F800000
    else if 0 ≤ e then (if (m * 2 ^ e.toNat) % 2 = 0 then 0x3F800000 else 0xBF800000)
    else
      -- cos(π a) = sin(π (a + 1/2))
      let den := 2 * 2 ^ (-e).toNat
      let num := 2 * m + 2 ^ (-e).toNat
      if num % den = 0 then 0 else sinBits r false num den
  | .tanh, .inf neg => if neg then 0xBF800000 else 0x3F800000
  | .tanh, .fin neg m e => if m = 0 then a else tanhBits r neg m e

/-! ### Dot products (R113, R144) -/

/-- An element as a value. -/
def Elem.val : Elem → FVal
  | .int x => intVal x
  | .flt v => v

/-- The elements of a register in a type, from element 0 (R97). -/
def elemsOf (t : Ty) (n x : Nat) : List FVal := (upto n).map fun i => (elemVal t (x / 2 ^ (t.width * i))).val

/-- The exact sum of products; none where an element is NaN. -/
def dotSum (xs ys : List FVal) : FVal :=
  (xs.zip ys).foldl (fun s (x, y) => s.add .rne (x.mul y)) (.fin false 0 0)

/-- The result of R113 for the scale operand C of R144. -/
def dotBits (ta tb : Ty) (n : Nat) (r : Rnd) (a b : Nat) (c : W32) (d : Nat) : Nat :=
  let xs := elemsOf ta n a
  let ys := elemsOf tb n b
  let dv := fF32.decode d
  if c = 0x80000000 then fF32.canonNan
  else if xs.any FVal.isNan || ys.any FVal.isNan || dv.isNan then fF32.canonNan
  else match dv, dotSum xs ys with
    | .inf _, _ => d
    | _, .fin neg m e =>
      let sum := if m = 0 then FVal.fin false 0 0 else .fin neg m (e + boundExp c.toInt)
      fF32.encode r false (sum.add r dv)
    | _, _ => fF32.canonNan

end Sys2Proof.Machine
end

