-- ==== Sys2Proof/WellFormed.lean ====
section
/-! DEFINITION. When a term of `Instr` is an instruction that the spec's encoding admits: the checks of R85. -/

namespace Sys2Proof

/-- Every check of R85 that stands on the instruction alone holds: guard (R64), operands (R66, R67, R69), field codes
(R78 to R80), the entry's columns (R119, R198, R212, R234, R331, R346) and the rules of pairs (R82). The bound of the
role's allotment (R27, R69) is no part of it: it is checked when the instruction issues. Events have no word, so none
is well formed here. -/
def Instr.wf (i : Instr) : Bool := i.fieldsOk

end Sys2Proof
end

