-- ==== Sys2Proof/Decode.lean ====
section
/-! DEFINITION. The decoder, total on any 96-bit word and any bytes, and the encoder (05_encoding.md). -/

namespace Sys2Proof

open Machine

/-- Why a word is no instruction (R85); each raises ILLEGAL. -/
inductive DecodeError where
  /-- a reserved major opcode, or a sub-function that its entry does not assign -/
  | opcode
  /-- a reserved operand value (Table 5-2, Table 5-3) -/
  | operand
  /-- a reserved type code (Table 5-11) -/
  | type
  /-- a reserved size or scope code (Tables 5-8 and 5-13) -/
  | code
  /-- a field that the entry does not accept: a format, a nonzero unused field, a register number, a guard, a pair -/
  | entry
  /-- fewer than twelve bytes -/
  | short
  deriving DecidableEq, Repr

/-! ### Field codes -/

/-- The named constant of a code, counted from 384 (Table 5-3). -/
def Konst.ofCode (n : Nat) : Option Konst :=
  match n with
  | 0 => some .zero | 1 => some .one | 2 => some .lane | 3 => some .glane | 4 => some .group | 5 => some .tx
  | 6 => some .ty | 7 => some .tz | 8 => some .tlin | 9 => some .ntx | 10 => some .nty | 11 => some .ntz
  | 12 => some .ngroup | 13 => some .nprod | 14 => some .role | 15 => some .coreno | 16 => some .ones | 17 => some .f1
  | 18 => some .fhalf | 19 => some .f2 | 20 => some .fm1 | 21 => some .active
  | _ => none

/-- The code of a named constant, counted from 384. -/
def Konst.code : Konst → Nat
  | .zero => 0 | .one => 1 | .lane => 2 | .glane => 3 | .group => 4 | .tx => 5 | .ty => 6 | .tz => 7 | .tlin => 8
  | .ntx => 9 | .nty => 10 | .ntz => 11 | .ngroup => 12 | .nprod => 13 | .role => 14 | .coreno => 15 | .ones => 16
  | .f1 => 17 | .fhalf => 18 | .f2 => 19 | .fm1 => 20 | .active => 21

/-- The operand of a 9-bit field (Table 5-2). -/
def Opnd.ofField (x : BitVec 9) : Option Opnd :=
  if h : x.toNat < 320 then some (.v ⟨x.toNat, h⟩)
  else if h : x.toNat - 320 < 64 then some (.s ⟨x.toNat - 320, h⟩)
  else (Konst.ofCode (x.toNat - 384)).map .k

/-- The 9-bit field of an operand. -/
def Opnd.field : Opnd → BitVec 9
  | .v r => BitVec.ofNat 9 r.val
  | .s r => BitVec.ofNat 9 (320 + r.val)
  | .k c => BitVec.ofNat 9 (384 + c.code)

/-- The comparison of an rc code (Table 5-12). -/
def Cmp.ofCode (c : BitVec 3) : Cmp :=
  match c.toNat with
  | 0 => .eq | 1 => .ne | 2 => .lt | 3 => .le | 4 => .gt | 5 => .ge | 6 => .num | _ => .nan

/-- The rounding mode of an rc code (Table 5-12). -/
def Rnd.ofCode (c : BitVec 3) : Rnd :=
  match c.toNat with
  | 1 => .rtz | 2 => .rup | 3 => .rdn | _ => .rne

/-- The scope of a code (Table 5-13). -/
def Scope.ofCode (n : Nat) : Option Scope :=
  match n with
  | 0 => some .g | 1 => some .t | 2 => some .c | 3 => some .k | 4 => some .d | 5 => some .p | 6 => some .s | _ => none

/-- The code of a scope. -/
def Scope.code : Scope → BitVec 3
  | .g => 0 | .t => 1 | .c => 2 | .k => 3 | .d => 4 | .p => 5 | .s => 6

/-- The size of a code (Table 5-8). -/
def Size.ofCode (n : Nat) : Option Size :=
  match n with
  | 0 => some .b1 | 1 => some .b2 | 2 => some .b4 | 3 => some .b8 | 4 => some .b16 | _ => none

/-- The code of a size. -/
def Size.code : Size → BitVec 3
  | .b1 => 0 | .b2 => 1 | .b4 => 2 | .b8 => 3 | .b16 => 4

/-- The cache policy of a code (Table 5-8). -/
def Policy.ofCode (c : BitVec 2) : Policy :=
  match c.toNat with
  | 0 => .normal | 1 => .evictFirst | 2 => .bypass | _ => .retain

/-- The code of a cache policy. -/
def Policy.code : Policy → BitVec 2
  | .normal => 0 | .evictFirst => 1 | .bypass => 2 | .retain => 3

/-- The order of a code (Table 5-8). -/
def Order.ofCode (c : BitVec 2) : Order :=
  match c.toNat with
  | 0 => .relaxed | 1 => .acquire | 2 => .release | _ => .acqrel

/-- The code of an order. -/
def Order.code : Order → BitVec 2
  | .relaxed => 0 | .acquire => 1 | .release => 2 | .acqrel => 3

/-! ### Parsing a word -/

/-- A register or predicate number of 3 bits. -/
def fin8 (x : BitVec 3) : Fin 8 := x.toFin

/-- The fields common to every format (Table 5-1). -/
def parseHdr (w : W96) : Hdr where
  gneg := w.getLsbD 87
  gpred := fin8 (field w 84 3)
  pace := fin8 (field w 81 3)
  cede := w.getLsbD 80
  latchA := w.getLsbD 79
  latchB := w.getLsbD 78

/-- The fields of format V (Table 5-6) or, where bit 50 is 1, of format I (Table 5-7). -/
def parseV (w : W96) : Except DecodeError VF :=
  match Opnd.ofField (field w 69 9), Opnd.ofField (field w 60 9), Opnd.ofField (field w 51 9) with
  | some d, some a, some b =>
    if w.getLsbD 50 then
      match Ty.ofCode (field w 7 5).toNat with
      | some ty => .ok { d, a, b := .v 0, c := b, imm := some (field w 18 32), sub := field w 12 6, ty, rc := field w 4 3,
                         sat := w.getLsbD 0, nega := false, negb := false, absa := false, absb := false,
                         pred := fin8 (field w 1 3), mod := 0 }
      | none => .error .type
    else
      match Opnd.ofField (field w 41 9), Ty.ofCode (field w 30 5).toNat with
      | some c, some ty => .ok { d, a, b, c, imm := none, sub := field w 35 6, ty, rc := field w 27 3,
                                 sat := w.getLsbD 26, nega := w.getLsbD 25, negb := w.getLsbD 24, absa := w.getLsbD 23,
                                 absb := w.getLsbD 22, pred := fin8 (field w 19 3), mod := field w 0 19 }
      | none, _ => .error .operand
      | _, none => .error .type
  | _, _, _ => .error .operand

/-- The fields of format M (Table 5-8). -/
def parseM (w : W96) : Except DecodeError MF :=
  match Opnd.ofField (field w 69 9), Opnd.ofField (field w 60 9), Opnd.ofField (field w 51 9) with
  | some d, some a, some b =>
    match Size.ofCode (field w 24 3).toNat, Scope.ofCode (field w 21 3).toNat with
    | some size, some scope => .ok { d, a, b, off := field w 27 24, size, scope, policy := Policy.ofCode (field w 19 2),
                                     order := Order.ofCode (field w 17 2), sext := w.getLsbD 16, sub := field w 10 6,
                                     pred := fin8 (field w 7 3), mod := field w 0 7 }
    | _, _ => .error .code
  | _, _, _ => .error .operand

/-- The fields of format E (Table 5-9). -/
def parseE (w : W96) : Except DecodeError EF :=
  match Opnd.ofField (field w 69 9), Opnd.ofField (field w 60 9), Opnd.ofField (field w 51 9) with
  | some d, some a, some b =>
    .ok { d, a, b, bar := (field w 47 4).toFin, shp := (field w 43 4).toFin, acc := (field w 39 4).toFin,
          tid := field w 31 8, spair := (field w 26 5).toFin, sub := field w 20 6, mod := field w 0 20 }
  | _, _, _ => .error .operand

/-- The fields of format C (Table 5-10). -/
def parseC (w : W96) : Except DecodeError CF :=
  match Opnd.ofField (field w 69 9), Opnd.ofField (field w 60 9), Opnd.ofField (field w 51 9) with
  | some d, some a, some b => .ok { d, a, b, off := field w 19 32, sub := field w 13 6, mod := field w 0 13 }
  | _, _, _ => .error .operand

/-- One operation of a pair. -/
def parseHalf (isInt : Bool) (minor : BitVec 6) (d a b : BitVec 9) : Except DecodeError PairHalf :=
  match PairOp.ofMinor isInt minor.toNat, Opnd.ofField d, Opnd.ofField a, Opnd.ofField b with
  | some op, some d, some a, some b => .ok { op, d, a, b }
  | none, _, _, _ => .error .opcode
  | _, _, _, _ => .error .operand

/-- The fields of format P (Table 5-10a); bits 0 and 1 of the major opcode give the classes, and bits 7:0 are zero (R77). -/
def parseP (w : W96) : Except DecodeError PF :=
  match parseHalf (w.getLsbD 88) (field w 72 6) (field w 63 9) (field w 54 9) (field w 45 9),
      parseHalf (w.getLsbD 89) (field w 39 6) (field w 30 9) (field w 21 9) (field w 12 9) with
  | .ok op0, .ok op1 =>
    if field w 0 8 = 0 then .ok { op0, op1, g1neg := w.getLsbD 11, g1pred := fin8 (field w 8 3) } else .error .entry
  | .error e, _ => .error e
  | _, .error e => .error e

/-- The instruction of a V and I format major opcode (Table 5-15); GETS of register 3 is the row CYCLO_READ (R347), SAMPLE has a row per sub-function. -/
def vCtor (major : Nat) (f : VF) : Option (Hdr → VF → Instr) :=
  match major with
  | 0x00 => some .iadd | 0x01 => some .isub | 0x02 => some .iaddc | 0x03 => some .imul | 0x04 => some .imulh
  | 0x05 => some .imad | 0x06 => some .idiv | 0x07 => some .irem | 0x08 => some .imin | 0x09 => some .imax
  | 0x0A => some .iabs | 0x0B => some .ineg | 0x0C => some .lea | 0x0D => some .and | 0x0E => some .or
  | 0x0F => some .xor | 0x10 => some .not | 0x11 => some .shl | 0x12 => some .shr | 0x13 => some .sar
  | 0x14 => some .rotl | 0x15 => some .bfx | 0x16 => some .bfi | 0x17 => some .popc | 0x18 => some .clz
  | 0x19 => some .brev | 0x1A => some .sel | 0x1B => some .icmp | 0x1C => some .mov | 0x1D => some .movi
  | 0x1E => some .movs | 0x20 => some .fadd | 0x21 => some .fsub | 0x22 => some .fmul | 0x23 => some .ffma
  | 0x24 => some .fdiv | 0x25 => some .fmin | 0x26 => some .fmax | 0x27 => some .fcmp | 0x28 => some .frcp
  | 0x29 => some .frsq | 0x2A => some .fsqrt | 0x2B => some .fexp2 | 0x2C => some .flog2 | 0x2D => some .fsin
  | 0x2E => some .fcos | 0x2F => some .ftanh | 0x30 => some .fscale | 0x31 => some .fclass | 0x32 => some .frnd
  | 0x33 => some .xadd | 0x34 => some .xmul | 0x35 => some .xfma | 0x36 => some .xmin | 0x37 => some .xmax
  | 0x38 => some .cvt | 0x39 => some .pack | 0x3A => some .unpack | 0x3B => some .dot4 | 0x3C => some .dot8
  | 0x3D => some .dscl | 0x40 => some .shfl | 0x41 => some .vote | 0x42 => some .redl | 0x43 => some .scanl
  | 0x44 => some .match_ | 0x45 => some .elect | 0x46 => some .rng | 0x47 => some .rngseed | 0x48 => some .rngskip
  | 0xC1 => some .sets | 0xC2 => some .trapret | 0xC3 => some .halt | 0xC4 => some .watch | 0xC5 => some .unwatch
  | 0xC7 => some .logm | 0xC8 => some .freeze
  | 0xC0 => some (if sregNo f = 3 then .cycloRead else .gets)
  | 0xC6 => (match f.sub.toNat with
    | 0 => some .sampleMark | 1 => some .sampleOn | 2 => some .sampleOff | _ => none)
  | _ => none

/-- The instruction of a M format major opcode (Table 5-15); CCTL has a row per sub-function. -/
def mCtor (major : Nat) (f : MF) : Option (Hdr → MF → Instr) :=
  match major with
  | 0x60 => some .ld | 0x61 => some .st | 0x62 => some .ldl | 0x63 => some .stl | 0x64 => some .ldc
  | 0x65 => some .lds | 0x66 => some .pref | 0x68 => some .ldtag | 0x69 => some .sttag | 0x6A => some .atom
  | 0x6B => some .atomc | 0x6C => some .red | 0x6D => some .atomo | 0x6E => some .atoml | 0x6F => some .fence
  | 0x70 => some .fenceo | 0x71 => some .fencex | 0x72 => some .fencep | 0x73 => some .cbseal
  | 0x74 => some .cbwait | 0xB0 => some .rld | 0xB1 => some .rst | 0xB2 => some .ratom
  | 0x67 => (match f.sub.toNat with
    | 0 => some .cctlIl1 | 1 => some .cctlIrd | 2 => some .cctlWb | 3 => some .cctlIl1all | 4 => some .cctlIrdall | _ => none)
  | _ => none

/-- The instruction of a E format major opcode (Table 5-15); CPY and MSTAT have a row per sub-function. -/
def eCtor (major : Nat) (f : EF) : Option (Hdr → EF → Instr) :=
  match major with
  | 0x81 => some .cpym | 0x82 => some .cpys | 0x83 => some .cpyg | 0x84 => some .cpyx | 0x85 => some .pft
  | 0x86 => some .binit | 0x87 => some .bexpect | 0x88 => some .barrive | 0x89 => some .bwait | 0x8A => some .btest
  | 0x8B => some .barm | 0x8C => some .binv | 0x8D => some .pclr | 0x8E => some .ptest | 0x8F => some .gld
  | 0x90 => some .gst | 0x91 => some .gset | 0x92 => some .gget | 0x93 => some .tidld | 0x94 => some .tidset
  | 0x95 => some .thnd | 0xA0 => some .mldw | 0xA1 => some .mswap | 0xA2 => some .mma | 0xA3 => some .mmat
  | 0xA4 => some .mclr | 0xA5 => some .mguide | 0xA6 => some .msta | 0xA7 => some .mldt | 0xA8 => some .mprog
  | 0xA9 => some .mlease | 0xAA => some .mrel | 0xAB => some .mwait | 0xB3 => some .rrd3 | 0xB4 => some .rwin
  | 0xB5 => some .rwclose | 0xB6 => some .coll | 0xB7 => some .cwait | 0xB8 => some .genrd | 0xB9 => some .ranksw
  | 0xBA => some .tview | 0xBB => some .tvclose
  | 0x80 => (match f.sub.toNat with
    | 0 => some .cpyLd | 1 => some .cpySt | _ => none)
  | 0xAC => (match f.sub.toNat with
    | 0 => some .mstatArith | 1 => some .mstatEng | _ => none)
  | _ => none

/-- The instruction of a C format major opcode (Table 5-15). -/
def cCtor (major : Nat) : Option (Hdr → CF → Instr) :=
  match major with
  | 0x50 => some .bra | 0x51 => some .brx | 0x52 => some .call | 0x53 => some .callx | 0x54 => some .ret
  | 0x55 => some .join | 0x56 => some .exit | 0x57 => some .trap | 0x58 => some .bkpt | 0x59 => some .nop
  | 0x5A => some .yield | 0x5B => some .syncg | 0x5C => some .synct | 0x5D => some .sizesel | 0x5E => some .ink
  | _ => none

/-! ### The decoder -/

/-- An instruction that its entry accepts. -/
def accept (i : Instr) : Except DecodeError Instr := if i.wf then .ok i else .error .entry

/-- The constructor of a major opcode applied to the parsed fields, and accepted. -/
def build {F : Type} (h : Hdr) (f : Except DecodeError F) (mk : F → Option (Hdr → F → Instr)) :
    Except DecodeError Instr :=
  match f with
  | .error e => .error e
  | .ok f => match mk f with
    | none => .error .opcode
    | some k => accept (k h f)

/-- The instruction of a word, by the format of its major opcode (Table 5-5), or the reason it is ILLEGAL (R85). -/
def decode (w : W96) : Except DecodeError Instr :=
  let m := (field w 88 8).toNat
  let h := parseHdr w
  if m < 0x50 then build h (parseV w) (vCtor m)
  else if m < 0x60 then build h (parseC w) (fun _ => cCtor m)
  else if m < 0x80 then build h (parseM w) (mCtor m)
  else if m < 0xB0 then build h (parseE w) (eCtor m)
  else if m < 0xB3 then build h (parseM w) (mCtor m)
  else if m < 0xC0 then build h (parseE w) (eCtor m)
  else if m < 0xD0 then build h (parseV w) (vCtor m)
  else if 0xE0 ≤ m ∧ m < 0xE4 then build h (parseP w) (fun _ => some .pair)
  else .error .opcode

/-- The word of three little-endian 32-bit words (R60). -/
def wordOfBytes (bs : List Byte) : W96 := BitVec.ofNat 96 (ofBytes bs)

/-- The instruction at the head of a list of bytes, and the bytes after it (R60). -/
def decodeBytes (bs : List Byte) : Except DecodeError (Instr × List Byte) :=
  if bs.length < 12 then .error .short
  else match decode (wordOfBytes (bs.take 12)) with
    | .ok i => .ok (i, bs.drop 12)
    | .error e => .error e

/-! ### The encoder -/

/-- One bit. -/
def bit1 (b : Bool) : BitVec 1 := BitVec.ofBool b

/-- Bits 95:78 (Table 5-1). -/
def encHdr (major : Nat) (h : Hdr) : BitVec 18 :=
  BitVec.ofNat 8 major ++ bit1 h.gneg ++ (BitVec.ofFin h.gpred : BitVec 3) ++ (BitVec.ofFin h.pace : BitVec 3) ++ bit1 h.cede ++ bit1 h.latchA
    ++ bit1 h.latchB

/-- Bits 77:51: operands D, A and B. -/
def encOps (d a b : Opnd) : BitVec 27 := d.field ++ a.field ++ b.field

/-- Bits 50:0 of formats V and I (Tables 5-6 and 5-7). -/
def encVFn (f : VF) : BitVec 51 :=
  match f.imm with
  | none => bit1 false ++ f.c.field ++ f.sub ++ f.ty.code ++ f.rc ++ bit1 f.sat ++ bit1 f.nega ++ bit1 f.negb ++ bit1 f.absa
      ++ bit1 f.absb ++ (BitVec.ofFin f.pred : BitVec 3) ++ f.mod
  | some imm => bit1 true ++ imm ++ f.sub ++ f.ty.code ++ f.rc ++ (BitVec.ofFin f.pred : BitVec 3) ++ bit1 f.sat

/-- A word of format V or I; in format I field opb holds operand C (R73). -/
def encV (major : Nat) (h : Hdr) (f : VF) : W96 :=
  encHdr major h ++ encOps f.d f.a (if f.imm.isSome then f.c else f.b) ++ encVFn f

/-- A word of format M (Table 5-8). -/
def encM (major : Nat) (h : Hdr) (f : MF) : W96 :=
  encHdr major h ++ encOps f.d f.a f.b ++ f.off ++ f.size.code ++ f.scope.code ++ f.policy.code ++ f.order.code
    ++ bit1 f.sext ++ f.sub ++ (BitVec.ofFin f.pred : BitVec 3) ++ f.mod

/-- A word of format E (Table 5-9). -/
def encE (major : Nat) (h : Hdr) (f : EF) : W96 :=
  encHdr major h ++ encOps f.d f.a f.b ++ (BitVec.ofFin f.bar : BitVec 4) ++ (BitVec.ofFin f.shp : BitVec 4)
    ++ (BitVec.ofFin f.acc : BitVec 4) ++ f.tid ++ (BitVec.ofFin f.spair : BitVec 5) ++ f.sub ++ f.mod

/-- A word of format C (Table 5-10). -/
def encC (major : Nat) (h : Hdr) (f : CF) : W96 :=
  encHdr major h ++ encOps f.d f.a f.b ++ f.off ++ f.sub ++ f.mod

/-- One operation of a pair. -/
def encHalf (p : PairHalf) : BitVec 33 := p.op.minor ++ p.d.field ++ p.a.field ++ p.b.field

/-- A word of format P (Table 5-10a). -/
def encP (major : Nat) (h : Hdr) (f : PF) : W96 :=
  encHdr major h ++ encHalf f.op0 ++ encHalf f.op1 ++ bit1 f.g1neg ++ (BitVec.ofFin f.g1pred : BitVec 3) ++ (0 : BitVec 8)

/-- The word of an instruction; an event has none. -/
def encode (i : Instr) : Option W96 :=
  match i.fields with
  | .v h f => some (encV i.major h f)
  | .m h f => some (encM i.major h f)
  | .e h f => some (encE i.major h f)
  | .c h f => some (encC i.major h f)
  | .p h f => some (encP i.major h f)
  | .event => none

/-- The twelve bytes of an instruction (R60); an event has none. -/
def encodeBytes (i : Instr) : List Byte :=
  match encode i with
  | some w => bytesOf 12 w.toNat
  | none => []

/-- The decoder's answer for a word whose bits are numbered as the opcode table numbers them: the word at A is the
lowest 32 bits (R60), and bits above `nbits` are zero. -/
def decodeTableWord (nbits w : Nat) : Option Instr :=
  match decodeBytes (bytesOf 12 (w % 2 ^ nbits)) with
  | .ok (i, _) => some i
  | .error _ => none

end Sys2Proof
end

