-- ==== Sys2Proof/Config.lean ====
section
/-! DEFINITION. Figures fixed for the device (Tables 0-1, 1-1, 1-3) and the free values of what the spec leaves open. -/

namespace Sys2Proof.Config

/-- Cores of a die: 32 clusters of 16 (R13). -/
def coresPerDie : Nat := 512
/-- Cores of a cluster (R13). -/
def coresPerCluster : Nat := 16
/-- Bytes of a die's physical window, 128 GiB (R18). -/
def dieWindow : Nat := 2 ^ 37
/-- Backed bytes of a die's window, 96 GiB (R18). -/
def dieBacked : Nat := 96 * 2 ^ 30
/-- Lines of a core's local memory (Table 1-3). -/
def localLines : Nat := 4096
/-- Allotment units of a core's register file (Table 1-3). -/
def allotUnits : Nat := 640
/-- Cycles of the arithmetic clock in one microsecond (1.25 GHz, Table 0-1). -/
def cyclesPerUs : Nat := 1250
/-- Cycles after which a cached line is removed (R173). -/
def lineLife : Nat := 65536
/-- Lines of a core's L1 read cache, 64 KiB (Table 1-3). -/
def l1Lines : Nat := 512
/-- Lines of a die's remote-data cache, 32 MiB (R20, Table 1-6). -/
def rdcLines : Nat := 262144
/-- Walks that a die's walker holds at once (R25, R163). -/
def walkerEntries : Nat := 256
/-- Leaves that the two levels of a core's translation cache hold (log 11: the spec gives no figures). -/
def tlbEntries : Nat × Nat := (64, 1024)
/-- Slots of a stream receiver's packet buffer (R296). -/
def linkCredits : Nat := 1024

/-- The SHA-256 digest of the key that admits images, fused into the package (R369). -/
opaque fusedDigest : List Byte
/-- The package's identity key, modulus and private exponent (R369). -/
opaque identityKey : Nat × Nat

/-- A value that the spec leaves undefined, as a function of a counter that each use advances: nothing is known of it. -/
opaque freeWord : Nat → W32
/-- An undefined byte, as a function of the same counter. -/
opaque freeByte : Nat → Byte

end Sys2Proof.Config
end

