-- ==== Sys2Proof/Machine/State.lean ====
section
/-! DEFINITION. The state of a B940 package: everything the spec gives the machine, as plain data, and its value at reset. -/

namespace Sys2Proof.Machine

/-! ## Lanes and groups -/

/-- A condition on which a PC set waits at an instruction, which then issues again. -/
inductive Cond where
  /-- the listed local lines are present (R170) -/
  | lines (ls : List Nat)
  /-- the group's accesses older than an identifier are performed at a scope (R182, R185); `sync`: the release of a SYNCG or SYNCT, whose
  wait a vectored wake cancels (R205, R206, R253) -/
  | drain (scope : Scope) (before : Nat) (sync : Bool := false)
  /-- the listed stores of other groups, by core, slot and identifier bound, are performed (R186) -/
  | cores (marks : List (Nat × Nat × Nat))
  /-- the lane's loads have returned (R182, R185) -/
  | loads
  /-- the lane's earlier remote requests and third-party reads have completed or failed (R230) -/
  | remote (before : Nat)
  /-- the lane's batch is empty (R231) -/
  | batch (n : Nat)
  /-- a collective has completed or failed (R341) -/
  | coll (comm seq : Nat)
  /-- a communicator holds fewer than 8 collectives (R339) -/
  | collRoom (comm : Nat)
  /-- the team's operations on an accumulator, or all of them, have completed or ended; `susp`: or been suspended (R266) -/
  | acc (n : Nat) (all susp : Bool)
  /-- fewer than 8 operations are queued (R255) -/
  | engineRoom
  /-- the team holds the lease (R256) -/
  | lease
  /-- fewer than 8 third-party reads are queued (R335) -/
  | joinRoom
  /-- no read of the view is in flight (R317) -/
  | view (n : Nat)
  /-- every XDT that the window has accepted has landed (R338) -/
  | landed (win : Nat)
  /-- some port of the die's gateway is up (R336) -/
  | ports
  /-- an address can be reached: the die's walker has a free entry (R163) and the stacks give the tables (R325); and `n` bytes there can
  be read: the group's atomics to them are performed (R180), and their stack gives them -/
  | reach (va : W64) (n : Nat)
  deriving DecidableEq, Repr

/-- What a lane waits for (Table 3-5 and the waits of the instructions' entries). -/
inductive Wait where
  | none | join | syncg | synct | synctRole | trapret
  /-- BWAIT on a barrier: the group is released when the phase completes (R252) -/
  | bwait (bar : Nat)
  | cond (c : Cond)
  deriving DecidableEq, Repr

/-- What a fault is (R215, R237): its code, address, instruction and sequence number, and the fields of tcause. -/
structure FaultRec where
  code : BitVec 8
  addr : W64 := 0
  pc : W64 := 0
  seq : W32 := 0
  num : BitVec 16 := 0
  eng : Bool := false
  rem : Bool := false
  /-- communicator and rank of a remote failure (Table 23-3) -/
  peer : Nat × Nat := (0, 0)
  deriving DecidableEq, Repr

/-- A fault waiting to be delivered to a lane at its next instruction boundary (R237); `resume` replaces the lane's PC as
the resume address (R252, R253). -/
structure Deliv where
  lane : Nat
  f : FaultRec
  resume : Option W64 := .none
  deriving DecidableEq, Repr

/-- A lane. -/
structure Lane where
  /-- PC and trap-mode PC (R42, R58) -/
  pc : W64 := 0
  tpc : W64 := 0
  v : SMap W32 := []
  p : BitVec 7 := 0
  exited : Bool := false
  trap : Bool := false
  /-- parked with the fault that waits to be served (R48) -/
  parked : Option FaultRec := .none
  /-- late: the identifier of its remote request (R49) -/
  late : Option Nat := .none
  wait : Wait := .none
  age : Nat := 0
  /-- cycle of the die from which the lane is eligible again (R65, R204) -/
  until_ : Nat := 0
  /-- trap registers (Table 17-4) -/
  tcause : W32 := 0
  taddr : W64 := 0
  tpcr : W64 := 0
  tseq : W32 := 0
  tret : W64 := 0
  cychi : W32 := 0
  /-- the next execution at this address skips its watch checks (R348) -/
  wskip : Option W64 := .none
  /-- copies in each batch, and copies not yet sealed, by sequence number (R190) -/
  batches : SMap (List Nat) := []
  unsealed : List Nat := []
  deriving DecidableEq, Repr

/-- Where a value that arrives later goes: `n` registers from the first, of the lane or (`scalar`) of the group. -/
structure Dest where
  scalar : Bool := false
  reg : Nat := 0
  n : Nat := 1
  /-- size in bytes and sign extension of a loaded value (R217) -/
  bytes : Nat := 4
  sext : Bool := false
  /-- predicate that receives the success of a compare (R226) -/
  pred : Option Nat := .none
  deriving DecidableEq, Repr

/-- An atomic operation (R225, R226): sub-function, type, BF16 elements, operand and compare value; `cas` for ATOMC and
sub-function 8. -/
structure AtomOp where
  sub : Nat
  ty : Ty
  ebf : Bool := false
  cas : Bool := false
  operand : W64
  compare : W64 := 0
  deriving DecidableEq, Repr

/-- What an entry of a store queue does when it is performed. -/
inductive StoreKind where
  | store (bytes : List Byte)
  | tag (t : BitVec 4) (zero : Bool)
  /-- an atomic; the destination is absent for RED -/
  | atom (op : AtomOp) (dst : Option Dest)
  /-- one contribution to an ordered slot (R228) -/
  | ordered (x : W32)
  /-- CCTL.WB (R222) -/
  | writeback
  /-- TIDSET (R246): the field's bits of a 64-byte record replaced -/
  | setBits (lo len : Nat) (x : W64)
  deriving DecidableEq, Repr

/-- Where an access stands: queued in the core, or sent over a die link under a request identifier, with the identifier bound of
that moment. -/
inductive Stage where
  | queued
  | sent (rid at_ : Nat)
  deriving DecidableEq, Repr

/-- A global access of one lane that is not yet performed. -/
structure Access where
  id : Nat
  lane : Nat
  ctx : Nat
  va : W64
  pa : Nat
  pc : W64
  seq : W32 := 0
  scope : Scope
  order : Order
  policy : Policy
  tagck : Bool := false
  rdc : Bool := false
  stage : Stage := .queued
  /-- the block that its instruction's accesses to the line cover together: first address and bytes (R176) -/
  blk : Nat × Nat := (0, 0)
  /-- the sectors of the line that its instruction's stores cover whole between them (R174, R176) -/
  full : BitVec 4 := 0
  /-- THERM has been delivered for this held store (R326) -/
  therm : Bool := false
  deriving DecidableEq, Repr

/-- An entry of a group's store queue. -/
structure StoreReq where
  acc : Access
  kind : StoreKind
  /-- the accumulator store that made it (R264) -/
  team : Bool := false
  deriving DecidableEq, Repr

/-- An outstanding load: its bytes, its destination, and whether it reads a tag (LDTAG). -/
structure LoadReq where
  acc : Access
  bytes : Nat
  dst : Dest
  tag : Bool := false
  deriving DecidableEq, Repr

/-- The generator of a group (R153): key, stream identifier and the draw counter of each lane. -/
structure Gen where
  k : W64 := 0
  sid : W64 := 0
  n : SMap W32 := []
  deriving DecidableEq, Repr

/-- What a sampled memory instruction still waits for (R364): its group and address, its accesses outstanding, the lanes that are to
replay it, the lane whose data returned last, and the sectors that it touches. -/
structure MemIssue where
  slot : Nat
  pc : W64
  ids : List Nat
  again : List Nat
  last : Option Nat := .none
  sect : Nat := 0
  /-- issues of the instruction for lanes that replay it (Table 23-4) -/
  repl : Nat := 0
  deriving DecidableEq, Repr

/-- A sample that is written when its instruction completes (R364): its context, the body so far, and what it waits for. -/
structure Deferred where
  ctx : Nat
  launch : Nat
  body : List Byte
  acc : MemIssue
  /-- its group's state is saved (R289) -/
  out : Bool := false
  deriving DecidableEq, Repr

/-- A vectored wake that a completed phase has due (R253): the handler and link as the barrier recorded them, and whether the
phase was poisoned. -/
structure Wake where
  handler : W64
  link : BitVec 9
  poison : Bool
  deriving DecidableEq, Repr

/-- A group in a slot of a core. -/
structure Group where
  ctx : Nat := 0
  launch : Nat := 0
  /-- the team's place in the core; none for the agent of slot 63 -/
  place : Option Nat := .none
  /-- group in team, and whether its role is consumer -/
  grp : Nat := 0
  consumer : Bool := true
  unit : Nat := 0
  nunit : Nat := 0
  lanes : List Lane := []
  s : SMap W32 := []
  gen : Gen := {}
  watch : List WatchReg := []
  sampleOn : Bool := true
  sq : List StoreReq := []
  loads : List LoadReq := []
  /-- the last lane has exited and acknowledgements are awaited (R54) -/
  draining : Bool := false
  frozen : Option (BitVec 8) := .none
  halted : Bool := false
  deliv : List Deliv := []
  /-- identifier bound of the group's latest FENCEO (R186) -/
  fenceo : Nat := 0
  /-- completed phases that vector this group at its next issue cycle (R253) -/
  vector : List Wake := []
  deriving DecidableEq, Repr

/-! ## Strokes -/

/-- A form (R30): base and coefficients of tx, ty, tz and lane; uniform when every coefficient is zero. -/
structure Form where
  base : W32 := 0
  cx : W32 := 0
  cy : W32 := 0
  cz : W32 := 0
  cl : W32 := 0
  deriving DecidableEq, Repr

/-- A predicate of a stroke (R31): uniform, or a compare form, signed for .I32. -/
inductive PForm where
  | uni (b : Bool)
  | cmp (c : Cmp) (signed : Bool) (a b : Form)
  deriving DecidableEq, Repr

/-- A box of teams, bounds included (R29). -/
structure Box where
  x0 : Nat
  x1 : Nat
  y0 : Nat
  y1 : Nat
  z0 : Nat
  z1 : Nat
  deriving DecidableEq, Repr

/-- What a stroke holds for every team of its box and one role (R29). -/
structure Stroke where
  ctx : Nat
  launch : Nat
  /-- first linear team index of the chunk it was formed from (R38) -/
  chunk : Nat
  consumer : Bool
  box : Box
  pc : W64
  v : SMap Form := []
  s : SMap Form := []
  p : SMap PForm := []
  joining : Bool := false
  deriving DecidableEq, Repr

/-! ## Teams -/

/-- A valid leaf held by a translation cache (R163). -/
structure TlbEntry where
  ctx : Nat
  firmware : Bool
  /-- first virtual address of the page within its half, and log2 of the page size -/
  base : Nat
  lg : Nat
  pte : W64
  deriving DecidableEq, Repr

/-- A barrier's record (Table 15-6). -/
structure Barrier where
  handler : W64 := 0
  xbytes : W32 := 0
  got : W32 := 0
  waiters : BitVec 16 := 0
  armed : BitVec 16 := 0
  epoch : BitVec 16 := 0
  link : BitVec 9 := 0
  members : BitVec 6 := 0
  arr : BitVec 6 := 0
  tu : Bool := false
  tuarr : Bool := false
  poison : Bool := false
  plast : Bool := false
  keep : Bool := false
  deriving DecidableEq, Repr

/-- The class of an accumulator cell (R106). -/
inductive CellClass where
  | fin | pinf | ninf | nan
  deriving DecidableEq, Repr

/-- An accumulator cell (R106): its 128-bit value and its class. -/
structure Cell where
  c : BitVec 128 := 0
  cls : CellClass := .fin
  deriving DecidableEq, Repr

/-- An accumulator: 1,024 cells, cell (i, j) at 32 i + j, and its arithmetic status word (Table 7-3). -/
structure Acc where
  cells : SMap Cell := []
  status : W32 := 0
  deriving DecidableEq, Repr

/-- A weight plane (R255, R257): element codes at 32 k + j, recorded format, Ks and weight exponent. While its contents are
undefined (R260), `open_` numbers the free values that its elements are. -/
structure Plane where
  elems : SMap W32 := []
  open_ : Option Nat := .none
  fmt : Option Ty := .none
  ks : Nat := 0
  exp : Int := 0
  deriving DecidableEq, Repr

/-- What an operand of a matrix operation is read from, as snapshot at issue (Table 15-8, R235). -/
inductive Operand where
  | absent
  | lmem (off pitch : Nat) (sbe : Int) (swz : Nat)
  | handle (h : W64) (rec : BitVec 512)
  deriving DecidableEq, Repr

/-- The kinds of operation in a team's engine queue (R255). -/
inductive MKind where
  | mldw (src : Operand) (fmt : Ty)
  | mswap
  | mma (tandem : Bool) (blk : BitVec 512) (a0 a1 w : Operand)
  | mclr (mod : BitVec 8)
  | mguide (w : W32) (grp : Nat)
  | msta (dst : Operand) (mod : BitVec 20)
  deriving DecidableEq, Repr

/-- A queued matrix operation: name, issuer, accumulator, and how far it has come. -/
structure MOp where
  kind : MKind
  acc : Nat
  seq : W32 := 0
  slot : Nat
  lane : Nat
  ctx : Nat
  pc : W64
  /-- identifier bound of the group's accesses that precede it (R188) -/
  after : Nat := 0
  started : Bool := false
  /-- the next cell of an MSTA -/
  step : Nat := 0
  /-- the issuer's group in its team, which it still names once that group has left its slot (R54) -/
  grp : Nat := 0
  /-- streams parked on a served fault, and streams that have stopped -/
  parked : List (Nat × W64) := []
  stopped : List Nat := []
  /-- THERM has been delivered for a held write (R326) -/
  therm : Bool := false
  /-- leaves that an invalidation has covered since its issue, under which it completes (R196) -/
  old : List TlbEntry := []
  deriving DecidableEq, Repr

/-- Progress, complete flag and last fault of an accumulator (R255, R266). -/
structure Prog where
  k0 : Nat := 0
  k1 : Nat := 0
  complete : Bool := true
  fault : BitVec 8 := 0
  deriving DecidableEq, Repr

/-- A team resident in a place of a core (R28, R54). -/
structure Team where
  ctx : Nat := 0
  launch : Nat := 0
  /-- linear team index -/
  lin : Nat := 0
  np : Nat := 0
  nc : Nat := 1
  tmask : BitVec 8 := 0
  /-- slots and allotment units reserved for its groups: group, slot, first unit, units (R28) -/
  resv : List (Nat × Nat × Nat × Nat) := []
  nacc : Nat := 0
  leaseLen : Nat := 64
  lbase : Nat := 0
  lines : Nat := 0
  /-- groups released, and groups that have left draining or will never be released because their stroke exited -/
  released : BitVec 16 := 0
  gone : BitVec 16 := 0
  bars : SMap Barrier := []
  shapes : SMap (BitVec 512) := []
  accs : SMap Acc := []
  active : Plane := {}
  shadow : Plane := {}
  prog : SMap Prog := []
  queue : List MOp := []
  leaseCount : Nat := 0
  /-- MREL has given the lease up, and it is released once the queue is empty (R256) -/
  releasing : Bool := false
  deriving DecidableEq, Repr

/-! ## Cores -/

/-- A line held by an L1 or remote-data cache: line number, bytes, the metadata symbols of its granules, fill time, and whether it is
the first candidate for eviction (Table 11-7). `held` marks the sectors of the line that it holds: a fill brings in the block that its
load covers (R176). -/
structure CLine where
  line : Nat
  data : List Byte
  meta0 : BitVec 5
  meta1 : BitVec 5
  filled : Nat
  first : Bool := false
  held : BitVec 4 := 15
  deriving DecidableEq, Repr

/-- The kinds of engine command served outside the matrix engine (R248, R335). -/
inductive CmdKind where
  | cpyLd | cpySt | cpym | cpyx | cpyg | cpys | pft | rrd3
  deriving DecidableEq, Repr

/-- An engine command in flight, with its snapshot (R235). -/
structure Cmd where
  kind : CmdKind
  seq : W32
  slot : Nat
  place : Nat
  lane : Nat
  ctx : Nat
  launch : Nat
  pc : W64
  bar : Nat := 0
  epoch : BitVec 16 := 0
  shape : BitVec 512 := 0
  shape2 : BitVec 512 := 0
  org : List Nat := []
  org2 : List Nat := []
  tb : Nat := 0
  scope : Scope := .g
  /-- cores of the cluster that a CPYM names, and those of them that receive a copy -/
  mask : BitVec 16 := 0
  recv : BitVec 16 := 0
  /-- index list address and count (CPYG, CPYS), or status area address and stripe count (RRD3) -/
  list : W64 := 0
  count : Nat := 0
  /-- bytes counted at the barrier, and the local lines written -/
  bytes : Nat := 0
  lines : List Nat := []
  /-- identifiers of accesses of the group that precede it (R188) -/
  after : Nat := 0
  /-- landed or ended: waits for its completion (R231) -/
  done : Bool := false
  /-- the element to go on from, and the address of a served translation fault that suspends it (R237) -/
  start : Nat := 0
  susp : Option W64 := .none
  /-- passed to the copy engine of another die (R22) -/
  passed : Option Nat := .none
  /-- THERM has been delivered for a held write (R326) -/
  therm : Bool := false
  /-- leaves that an invalidation has covered since its issue, under which it completes (R196) -/
  old : List TlbEntry := []
  deriving DecidableEq, Repr

/-- Lanes of teams committed by inking and not yet materialised (R41). -/
structure Ink where
  ctx : Nat
  launch : Nat
  chunk : Nat
  consumer : Bool
  teams : List Nat
  pc : W64
  v : SMap Form
  s : SMap Form
  p : SMap PForm
  deriving DecidableEq, Repr

/-- An issue cycle: its cycle, group slot and primary set, and what the primary waits for where it is a memory instruction of
Table 13-3, an RLD or an RATOM. -/
structure Issued where
  at_ : Nat
  slot : Nat
  pc : W64
  lanes : List Nat
  acc : Option MemIssue
  deriving DecidableEq, Repr

/-- A core. -/
structure Core where
  groups : SMap Group := []
  /-- the slot table: bind records of group entries (Table 17-3) -/
  table : SMap (List W32) := []
  strokes : SMap Stroke := []
  teams : SMap Team := []
  inked : List Ink := []
  /-- ranges whose role has exited in a stroke: context, launch, role, box (R206) -/
  exitedRoles : List (Nat × Nat × Bool × Box) := []
  /-- chunks claimed: context, launch, first, last (R277) -/
  chunks : List (Nat × Nat × Nat × Nat) := []
  lmem : SMap Byte := []
  absent : List Nat := []
  l1 : List CLine := []
  /-- identifier bound of the last acquire that emptied the L1 (R173, R183) -/
  acq : Nat := 0
  /-- the two levels of translation cache (R163) -/
  tlb : List TlbEntry := []
  tlb2 : List TlbEntry := []
  cmdCtr : W32 := 0
  cmds : List Cmd := []
  /-- place of the team that holds the lease, and the requests in order (R280) -/
  holder : Option Nat := .none
  fifo : List Nat := []
  period : BitVec 20 := 0
  /-- candidate last sampled, cycle of the last sample point, deferred samples (R362, R364) -/
  sampled : Nat := 63
  sampleAt : Nat := 0
  deferred : List Deferred := []
  agentFrozen : Bool := false
  /-- Nopol root has frozen the matrix engine's operand fetcher (R177, R371) -/
  mtxFrozen : Bool := false
  /-- who takes the core's next issue cycle first: 0 a ready group, 1 a ready stroke, 2 the agent (R46, log 16) -/
  turn : Nat := 0
  /-- slot last selected, slot that ceded with the cycle of its issue, and the cycle each slot was last selected -/
  lastSlot : Nat := 0
  ceded : Option (Nat × Nat) := .none
  selected : SMap Nat := []
  /-- stroke entry last executed (R33) -/
  lastStroke : Nat := 0
  /-- the issue cycle last taken by one of the core's groups, and the cycle in which the stroke unit last executed (R363) -/
  issued : Option Issued := .none
  stroked : Option Nat := .none
  deriving DecidableEq, Repr

/-! ## Dies -/

/-- A home cache line (R174, R175): valid and dirty sectors, retained, first candidate for eviction, age stamp. -/
structure HLine where
  valid : BitVec 4 := 0
  dirty : BitVec 4 := 0
  retained : Bool := false
  first : Bool := false
  stamp : Nat := 0
  deriving DecidableEq, Repr

/-- An entry of the package watch table (R351): physical range, owner and kinds. -/
structure WatchEnt where
  base : Nat
  len : Nat
  core : Nat
  slot : Nat
  index : Nat
  ctx : Nat
  ctl : W32
  deriving DecidableEq, Repr

/-- A walk that the walker holds (R163): context, address, requesting core, and the context of a prefetch. -/
structure Walk where
  ctx : Nat
  va : W64
  core : Nat
  /-- the line is brought in when the walk ends (R221) -/
  pref : Bool := false
  scope : Scope := .g
  policy : Policy := .normal
  deriving DecidableEq, Repr

/-- What a die-link request was sent for. -/
inductive DlFor where
  | load (core slot id : Nat)
  | store (core slot id : Nat)
  | inval (id : Nat)
  /-- a prefetch (R221): core, whether the core's L1 and the die's remote-data cache are to hold the line, its policy, and the
  identifier bound of the moment at which it was sent -/
  | fill (core : Nat) (l1 rdc : Bool) (policy : Policy) (at_ : Nat)
  /-- a piece of what an ingress stream performs (R304): the request's identifier, and the place, address and bytes of the piece -/
  | ingress (id off pa n : Nat)
  deriving DecidableEq, Repr

/-- A die-link request outstanding at its source (R301). -/
structure DlReq where
  dst : Nat
  rid : Nat
  for_ : DlFor
  /-- the line, and whether the die has read it at its home since, so that the reply fills no cache (R172, R179) -/
  line : Nat := 0
  stale : Bool := false
  deriving DecidableEq, Repr

/-- What a Fesel request was sent for (R332, R335, R340). -/
inductive RKind where
  | rld (dst : Dest)
  | rst
  | ratom (dst : Dest)
  deriving DecidableEq, Repr

/-- A remote request of a lane that has no reply yet (R304, R332). -/
structure RReq where
  id : Nat
  fid : BitVec 32
  kind : RKind
  /-- target device -/
  dev : BitVec 20
  core : Nat
  slot : Nat
  lane : Nat
  ctx : Nat
  launch : Nat
  pc : W64
  addr : W64
  comm : Nat
  rank : Nat
  order : Order
  /-- the bytes that it writes, or its operand -/
  data : List Byte := []
  /-- cycle in which it was sent -/
  sent : Nat
  deriving DecidableEq, Repr

/-- A packet that a gateway may have to resend (R307): its context, first port, the cycle of its sending, whether it has been
refused, the cycle from which the next resend counts, and whether a resend has answered the last refusal. -/
structure Sent where
  ctx : Nat
  port : Nat
  at_ : Nat
  pkt : Fesel
  refused : Bool := false
  due : Option Nat := .none
  resent : Bool := false
  deriving DecidableEq, Repr

/-- A window grant that a donor keeps (R313). -/
structure Grant where
  ctx : Nat
  spare : BitVec 20
  window : Nat
  lead : BitVec 20
  gen : BitVec 16
  comm : Nat
  deriving DecidableEq, Repr

/-- A request or landing of an ingress stream with pieces outstanding at other dies (R304, R313): its packet, the pieces that have not
answered, what has been read, and the first fault code. -/
structure Ingress where
  id : Nat
  pkt : Fesel
  left : Nat
  got : List (Nat × List Byte) := []
  code : BitVec 8 := 0
  deriving DecidableEq, Repr

/-- A third-party read queued at the join engine (R335): the command's name, its plan, its next stripe and the stripes ended. -/
structure JCmd where
  core : Nat
  seq : W32
  slot : Nat
  lane : Nat
  ctx : Nat
  pc : W64
  plan : List W32
  first : Nat
  count : Nat
  next : Nat
  status : W64
  ended : Nat := 0
  deriving DecidableEq, Repr

/-- A stripe in flight at the lead (R312, R313); `result` is its code while its status byte waits to be written. -/
structure Stripe where
  fid : BitVec 32
  core : Nat
  seq : W32
  stripe : Nat
  donor : BitVec 20
  sent : Nat
  result : Option (BitVec 8) := .none
  /-- THERM has been delivered for its held status byte (R326) -/
  therm : Bool := false
  deriving DecidableEq, Repr

/-- The completions of a queue that die 0 holds (R282): their number, the cycle of the first report, and whether an interrupt is
triggered. -/
structure Held where
  count : Nat := 0
  since : Nat := 0
  due : Bool := false
  deriving DecidableEq, Repr

/-- A die. -/
structure Die where
  cycle : Nat := 0
  rdc : List CLine := []
  /-- identifier bound of the last acquire that emptied the remote-data cache (R173, R183) -/
  acq : Nat := 0
  home : SMap HLine := []
  watches : List WatchEnt := []
  evseq : Nat := 0
  walks : List Walk := []
  /-- address of the descriptor of Nopol root's event buffer (R356) -/
  rootDesc : Option Nat := .none
  copyFrozen : List Nat := []
  rids : SMap Nat := []
  dlReqs : List DlReq := []
  ingress : List Ingress := []
  portsDown : List Nat := []
  fid : BitVec 32 := 0
  reqs : List RReq := []
  sent : List Sent := []
  /-- packets held for a newer generation, each with the context whose communicator it names (R306) -/
  hold : List (Nat × Fesel) := []
  blockList : List (BitVec 20) := []
  badPackets : Nat := 0
  /-- sources whose ingress stream is frozen, with the packets dropped since (R371) -/
  frozenSrc : List (BitVec 20 × Nat) := []
  grants : List Grant := []
  joinArmed : Bool := false
  joinFrozen : Bool := false
  joinQ : List JCmd := []
  stripes : List Stripe := []
  /-- completions held, per queue (die 0, R282) -/
  held : SMap Held := []
  /-- images: admission of the die's Nopol root and agent, and their digests (R369) -/
  rootImage : Option (List Byte) := .none
  agentImage : Option (List Byte) := .none
  /-- the last image offered failed its check: the die stays in its boot ROM, or runs no agent (R369) -/
  rootRefused : Bool := false
  /-- no die's Nopol root has reported yet that this die's image was rejected (R369) -/
  rootPending : Bool := false
  agentRefused : Bool := false
  deriving DecidableEq, Repr

/-! ## Die links -/

/-- A flit (Table 19-1). -/
structure Flit where
  kind : BitVec 4
  seq : Nat
  ack : Nat
  nak : Bool
  cred : Nat
  slots : List (BitVec 128)
  deriving DecidableEq, Repr

/-- A flit in the replay buffer (R297): its sequence number and slots, its replays and the cycle it was last sent. -/
structure HeldFlit where
  seq : Nat
  slots : List (BitVec 128)
  replays : Nat
  at_ : Nat
  deriving DecidableEq, Repr

/-- One stream: a direction of a module (R295). -/
structure Stream where
  /-- sender: next sequence number, slots waiting, credits, replay buffer -/
  seq : Nat := 0
  waiting : List (BitVec 128) := []
  credits : Nat := 1024
  replay : List HeldFlit := []
  /-- flits on the wire, oldest first -/
  wire : List Flit := []
  /-- receiver: next expected number, outstanding nak and owed ack with their cycles, freed slots not yet reported -/
  exp : Nat := 0
  nakAt : Option Nat := .none
  ackAt : Option Nat := .none
  freed : Nat := 0
  /-- data flits accepted so far, and the completed-request window: flit, request identifier, recorded reply (R302) -/
  flits : Nat := 0
  window : List (Nat × Nat × List (BitVec 128)) := []
  /-- slots received and not yet made into a packet, the flit of the first of them, and packets received with the flit of
  their header and not yet acted on -/
  part : List (BitVec 128) := []
  partNo : Nat := 0
  /-- what stood in `part` and `partNo` before each of the last 64 data flits accepted, newest first (log 30) -/
  before : List (Nat × List (BitVec 128)) := []
  packets : List (Nat × List (BitVec 128)) := []
  deriving DecidableEq, Repr

/-- The lane set of a module (Table 19-2). -/
inductive Width where
  | full | low | high | down
  deriving DecidableEq, Repr

/-- A module of a die link (R298): its lanes, the attempts left with the cause of the retrain, replays since the last event. -/
structure Module where
  width : Width := .full
  retrain : Option (List Width × Nat) := .none
  nrep : Nat := 0
  deriving DecidableEq, Repr

/-! ## Contexts, queues, launches -/

/-- A communicator of a context (R305). -/
structure Comm where
  adopted : Option RankTable := .none
  staged : Option RankTable := .none
  droppedOld : W32 := 0
  blocked : W32 := 0
  refused : W32 := 0
  seq : Nat := 0
  deriving DecidableEq, Repr

/-- A collective issued by this package (R340). -/
structure Coll where
  comm : Nat
  seq : Nat
  die : Nat
  core : Nat
  slot : Nat
  lane : Nat
  launch : Nat
  pc : W64
  desc : BitVec 512
  gen : BitVec 16
  /-- participating ranks with the zero-contribution mark, and this package's rank -/
  ranks : List (Nat × Bool)
  self : Nat
  /-- what has been received: rank, offset and bytes -/
  got : List (Nat × Nat × List Byte) := []
  last : Nat
  /-- cycle by which a pre-emption fails it (R57) -/
  limit : Option Nat := .none
  /-- its source has still to be read, after the accesses of its group up to an identifier (R188) -/
  unread : Bool := false
  after : Nat := 0
  result : Option (BitVec 8) := .none
  /-- fid of its first packet, and its destination stores that are posted (R54) -/
  fid : Option (BitVec 32) := .none
  stores : List Nat := []
  deriving DecidableEq, Repr

/-- A stripe at the spare (R337): its lead, fid, recorded epoch, number, length, bytes landed, and whether its XCN and an XER
have been sent. -/
structure Landing where
  lead : BitVec 20
  fid : BitVec 32
  epoch : BitVec 16
  stripe : Nat := 0
  len : Nat := 0
  got : Nat := 0
  xcn : Bool := false
  xer : Bool := false
  deriving DecidableEq, Repr

/-- A landing window (R336 to R338): the core, launch and linear index of the team whose barrier it names, its range, lead and
grant generation. -/
structure Window where
  core : Nat := 0
  launch : Nat := 0
  lin : Nat := 0
  bar : Nat := 0
  base : W64 := 0
  len : Nat := 0
  lead : BitVec 20 := 0
  comm : Nat := 0
  gen : BitVec 16 := 0
  /-- closed by adoption of a newer generation (R314); an unlisted window was never opened -/
  isOpen : Bool := false
  byGen : Bool := false
  /-- RWCLOSE has stopped new landings and waits for those begun (R338) -/
  closing : Bool := false
  discarded : W32 := 0
  stripes : List Landing := []
  deriving DecidableEq, Repr

/-- What cadence keeps for a subject, by its device (R309): cycle of the last heartbeat, suspicion with its cycle, the probes still running, by
device, whether one has succeeded, and whether the vote to expel stands. -/
structure Watched where
  last : Nat := 0
  suspected : Option Nat := .none
  probes : List (BitVec 20) := []
  alive : Bool := false
  voted : Bool := false
  deriving DecidableEq, Repr

/-- The resources that a pre-empted context left on a core (R58, R289). -/
structure SavedCore where
  core : Nat
  groups : SMap Group
  strokes : SMap Stroke
  teams : SMap Team
  inked : List Ink
  exitedRoles : List (Nat × Nat × Bool × Box)
  chunks : List (Nat × Nat × Nat × Nat)
  lmem : SMap Byte
  absent : List Nat
  leases : List Nat
  deriving DecidableEq, Repr

/-- A context. -/
structure Context where
  root : Nat := 0
  tagEn : Bool := false
  tagAny0 : Bool := false
  tidbase : W64 := 0
  /-- tensor entries that nothing has written since the context's creation: they are invalid (Table 5-4, log 78) -/
  blank : List Nat := []
  dbgctl : Bool := false
  /-- response timeout in cycles; 1 ms by default (R304) -/
  timeout : Nat := 1250000
  remMode : Bool := false
  fcomm : Nat := 0
  remrank : W32 := 0
  remcode : W32 := 0
  /-- ranks whose sticky error bit is set (R329) -/
  sticky : List Nat := []
  comms : SMap Comm := []
  colls : List Coll := []
  /-- collective packets that arrived before their collective was issued, with their die -/
  early : List (Nat × Fesel) := []
  launches : Nat := 0
  watch : List WatchReg := []
  eventDesc : Option Nat := .none
  sampleDesc : Option Nat := .none
  windows : SMap Window := []
  cadence : Bool := false
  beats : Nat := 0
  lastBeat : Nat := 0
  watched : SMap Watched := []
  /-- probes made for another monitor, by subject and requester; votes standing at this package as lead, by subject; and the
  generation in which it last sent a verdict (R309, R310) -/
  relays : List (BitVec 20 × BitVec 20) := []
  votes : SMap (List Nat) := []
  verdict : Option (BitVec 16) := .none
  /-- sources that may send requests to the context (R371) -/
  admitted : List (BitVec 20) := []
  /-- virtual ranges whose translation faults firmware serves -/
  pager : List VRange := []
  /-- issue has stopped for a pre-emption; the state is saved and the resources freed; what is saved (R289) -/
  preempted : Bool := false
  out : Bool := false
  saved : List SavedCore := []
  /-- pages whose faults could not be served while lanes or operations parked on them were saved (R48) -/
  unserved : List W64 := []
  /-- the save area, as physical addresses, and its bytes as the save left them (R289) -/
  saveArea : Option VRange := .none
  image : List Byte := []
  /-- keys of the fabric (R370, log 74) -/
  keys : List Byte := []
  deriving DecidableEq, Repr

/-- A packet of a queue that has been read and has not completed. -/
structure Packet where
  index : Nat
  words : List W32
  /-- LAUNCH_PACKET has accepted it (R272); it has started (R270) -/
  checked : Bool := false
  started : Bool := false
  deriving DecidableEq, Repr

/-- A queue: its descriptor lies in memory (R268). -/
structure Queue where
  desc : Nat
  halted : Bool := false
  packets : List Packet := []
  /-- phase of the previous launch; none before the first (R274) -/
  phase : Option Nat := .none
  /-- completions posted whose report has not reached die 0 -/
  reports : Nat := 0
  deriving DecidableEq, Repr

/-- One ordered slot of a launch (R194, R115): its address, x0, and the keyed contributions. -/
structure Slot where
  pa : Nat
  x0 : W32
  contrib : List (Nat × W32)
  deriving DecidableEq, Repr

/-- A launch that has started and not completed. -/
structure Launch where
  ctx : Nat
  num : Nat
  queue : Nat
  index : Nat
  words : List W32
  params : List W32
  shapes : SMap (BitVec 512)
  buffers : List (Nat × Nat × Nat) := []
  /-- ticket word of each die (R277) -/
  tickets : SMap Nat := []
  slots : List Slot := []
  /-- software has accessed its ordered-sum area, and its ordered sums are not defined (R273) -/
  spoiled : Bool := false
  term : Option (BitVec 8) := .none
  deriving DecidableEq, Repr

/-! ## Memory devices, views, power, the rest of the package -/

/-- An HBM4E stack (R321, R324, R325). -/
structure Stack where
  failed : Option Nat := .none
  corrections : Nat := 0
  run : Option (Nat × Nat) := .none
  temp : Int := 0
  th1 : Bool := false
  th2 : Bool := false
  /-- in forced self-refresh since this cycle -/
  th3 : Option Nat := .none
  deriving DecidableEq, Repr

/-- The state of a chunk of a tracing view (Table 19-11), with its pool slot. -/
inductive Chunk where
  | copying (slot : Nat)
  | preserved (slot : Nat)
  deriving DecidableEq, Repr

/-- A stripe that a donor is sending (R313): the die of its arrival, its request, and its next XDT. -/
structure ViewRead where
  die : Nat
  pkt : Fesel
  next : Nat := 0
  deriving DecidableEq, Repr

/-- A tracing view (R315 to R317). -/
structure View where
  /-- owner: die and context -/
  die : Nat
  ctx : Nat
  base : W64
  chunks : Nat
  pool : W64
  slots : Nat
  grants : List (BitVec 20)
  comm : Nat
  state : SMap Chunk := []
  used : Nat := 0
  most : Nat := 0
  lost : Bool := false
  reads : List ViewRead := []
  /-- where each chunk's page stood at the opening point, with its rights r, w, x and priv (R315) -/
  leaves : List (Option (Nat × BitVec 4)) := []
  /-- software has accessed the pool, and the view's contents are undefined (R344) -/
  spoiled : Bool := false
  deriving DecidableEq, Repr

/-- An invalidation in progress (R195, R196): what it names and the requests that it waits for. -/
structure Inval where
  id : Nat
  target : InvTarget
  /-- the die on which it acts, and the identifiers of its accesses that complete first -/
  die : Nat
  waits : List Nat
  /-- engine commands, by core and sequence number, and matrix operations, by core, place and sequence number, that complete first -/
  cmds : List (Nat × W32) := []
  mops : List (Nat × Nat × W32) := []
  /-- dies that have not yet acknowledged -/
  dies : List Nat := []
  /-- the die, module and request identifier that a die-link invalidation is acknowledged to -/
  reply : Option (Nat × Nat × Nat) := .none
  deriving DecidableEq, Repr

/-- Where a record is written: the descriptor's physical address and the address space of the ring (R356). -/
structure Ring where
  desc : Nat
  ctx : Nat
  firmware : Bool
  deriving DecidableEq, Repr

/-- A record whose writing waits for a stack (R325, R357): its ring, event number, type, die, core, slot and body. -/
structure HeldRec where
  ring : Ring
  evseq : Nat
  type : BitVec 8
  die : Nat
  core : Option Nat
  slot : Option Nat
  body : List Byte
  deriving DecidableEq, Repr

/-- The form of the part (R1). -/
inductive PartForm where
  | b940 | b940p | b940d
  deriving DecidableEq, Repr

/-- The power states of Table 17-7. -/
inductive Power where
  | l0 | l1 | l2 | l3 | l4
  deriving DecidableEq, Repr

/-- A message that the device sends to the host. -/
inductive HostMsg where
  | rdmaWrite (addr : W64) (bytes : List Byte)
  | rdmaData (port : Nat) (bytes : List Byte)
  | nak (port : Nat)
  | report (bytes : List Byte) (signature : Nat)
  deriving DecidableEq, Repr

/-- A host's RDMA WRITE of bytes, or READ of a range, on a queue pair of a port (R318, R319). -/
structure HostReq where
  port : Nat
  qp : Nat
  addr : Nat
  len : Nat
  bytes : Option (List Byte)
  deriving DecidableEq, Repr

/-- What the primary set of an issue cycle found shared (R44, R118): scalars, generator, watch registers, sample enable. -/
structure Snap where
  s : SMap W32
  gen : Gen
  watch : List WatchReg
  /-- remerr of the context and the core's sampling period -/
  remMode : Bool := false
  fcomm : Nat := 0
  period : BitVec 20 := 0
  /-- the primary is an RNGSEED that takes effect: its generator state remains (R157) -/
  seeded : Bool := false
  deriving DecidableEq, Repr

/-- The issue of one instruction: core, slot, lanes of the PC set in rising order, their PC; `second` for the secondary set
of an issue cycle, which reads `snap`; `stroke` when the stroke unit executes for a stroke entry. -/
structure Issue where
  core : Nat := 0
  slot : Nat := 0
  lanes : List Nat := []
  pc : W64 := 0
  snap : Option Snap := .none
  stroke : Option Nat := .none
  deriving DecidableEq, Repr

/-- A coming move of the package: an event, the issue of a group or of the stroke unit, or time passing on a die. -/
inductive Move where
  | event (e : Instr)
  | issue (core slot : Nat)
  | stroke (core : Nat)
  | elapse (die n : Nat)
  deriving DecidableEq, Repr

/-- A B940 package. -/
structure State where
  form : PartForm
  devid : BitVec 20
  mem : List Host.Cell
  gmeta : SMap (BitVec 5)
  gerr : SMap (List (Nat × Byte))
  hbm : SMap Stack
  fwRoot : Nat
  cores : SMap Core
  dies : SMap Die
  streams : SMap Stream
  modules : SMap Module
  contexts : SMap Context
  queues : SMap Queue
  launches : List Launch
  views : SMap View
  invals : List Inval
  nextInval : Nat
  power : Power
  waking : Bool
  /-- the debug mailbox, a window of device memory (R366) -/
  mailbox : Option VRange
  /-- debug requests written and not yet performed, in order (R366) -/
  debugQ : List Nat
  hostWins : List VRange
  /-- host requests that wait for a stack, or behind one of their queue pair, in the order in which they were posted (R319, R325) -/
  hostHeld : List HostReq
  fabricOut : List (Nat × Fesel)
  /-- packets at a die's gateway that are not yet acted on: those that the package sends to itself, and those that wait for an exit
  to L0, a stack or a chunk copy (R304, R311, R325, R316) -/
  gateQ : List (Nat × Fesel)
  hostOut : List HostMsg
  /-- records that wait for a stack, in order of their events (R325) -/
  recQ : List HeldRec
  agenda : List Move
  iss : Issue
  second : Option Issue
  nextId : Nat
  free : Nat
  rrCore : Nat
  deriving DecidableEq, Repr

/-- Why a run of the model ends without a next state. -/
inductive Fault where
  /-- raised by an event that names a unit the package's form does not have, or that never was created: safe, since it names
  nothing that the spec gives the machine -/
  | noSuchUnit
  deriving DecidableEq, Repr

/-- Why the model gives no meaning. -/
inductive Refusal where
  /-- raised by Dispatch alone for a row without a meaning: safe -/
  | notModelled (mnemonic : String)
  deriving DecidableEq, Repr

/-- The answer of a meaning. -/
abbrev Res := Host.Outcome State Fault Refusal

/-- The package right after reset: no context, queue or launch exists, every cache, queue and link buffer is empty, and
every register, counter and memory byte without a reset value in the spec holds the value that the assumption log names. -/
def State.reset : State where
  form := .b940
  devid := 0
  mem := []
  gmeta := []
  gerr := []
  hbm := []
  fwRoot := 0
  cores := []
  dies := []
  streams := []
  modules := []
  contexts := []
  queues := []
  launches := []
  views := []
  invals := []
  nextInval := 0
  power := .l0
  waking := false
  mailbox := .none
  debugQ := []
  hostWins := []
  hostHeld := []
  fabricOut := []
  gateQ := []
  hostOut := []
  recQ := []
  agenda := []
  iss := {}
  second := .none
  nextId := 0
  free := 0
  rrCore := 0

end Sys2Proof.Machine
end

