-- ==== Sys2Proof/Machine/Ops.lean ====
section
/-! DEFINITION. The named operations over the parts of the state, memory, translation, records, and the taking of an
exception and the return from one. -/

namespace Sys2Proof.Machine

/-! ## Fault codes (Table 0-4) -/

/-- Fault codes of Table 0-4 (R10). -/
abbrev Code := BitVec 8

def cILLEGAL : Code := 0x01
def cPRIV : Code := 0x02
def cALIGN : Code := 0x03
def cXLATE : Code := 0x04
def cPERM : Code := 0x05
def cTAG : Code := 0x06
def cWATCH : Code := 0x07
def cSHAPE : Code := 0x08
def cTIDBAD : Code := 0x09
def cBARRIER : Code := 0x0A
def cLEASE : Code := 0x0B
def cTANDEM : Code := 0x0C
def cREMOTE : Code := 0x0D
def cGEN : Code := 0x0E
def cECC : Code := 0x0F
def cTHERM : Code := 0x10
def cDOUBLE : Code := 0x11
def cBKPT : Code := 0x12
def cTRAP : Code := 0x13
def cVIEWLOST : Code := 0x14

/-! ## Parts of the state -/

/-- Dies that the form has (R1, R13). -/
def State.dieCount (s : State) : Nat := if s.form = .b940d then 1 else 8

/-- Cores that the form has. -/
def State.coreCount (s : State) : Nat := s.dieCount * Config.coresPerDie

/-- The die of a core (R6). -/
def dieOf (core : Nat) : Nat := core / Config.coresPerDie

/-- The cluster of a core, counted over the package (R13). -/
def clusterOf (core : Nat) : Nat := core / Config.coresPerCluster

def State.core (s : State) (c : Nat) : Core := s.cores.get {} c
def State.setCore (s : State) (c : Nat) (x : Core) : State := { s with cores := s.cores.put c x }
def State.modCore (s : State) (c : Nat) (f : Core → Core) : State := s.setCore c (f (s.core c))

def State.die (s : State) (d : Nat) : Die := s.dies.get {} d
def State.setDie (s : State) (d : Nat) (x : Die) : State := { s with dies := s.dies.put d x }
def State.modDie (s : State) (d : Nat) (f : Die → Die) : State := s.setDie d (f (s.die d))

def State.stack (s : State) (n : Nat) : Stack := s.hbm.get {} n
def State.modStack (s : State) (n : Nat) (f : Stack → Stack) : State :=
  { s with hbm := s.hbm.set {} n (f (s.stack n)) }

def State.context (s : State) (n : Nat) : Option Context := s.contexts.find n
def State.modContext (s : State) (n : Nat) (f : Context → Context) : State :=
  { s with contexts := s.contexts.modify n f }

/-- A context's issue has not been stopped for a pre-emption (R289). -/
def State.runs (s : State) (ctx : Nat) : Bool :=
  match s.context ctx with
  | some x => !x.preempted
  | none => true

def State.modQueue (s : State) (n : Nat) (f : Queue → Queue) : State := { s with queues := s.queues.modify n f }

/-- The live launch of a context with a launch number. -/
def State.launch (s : State) (ctx num : Nat) : Option Launch :=
  s.launches.find? fun l => l.ctx == ctx && l.num == num

def State.modLaunch (s : State) (ctx num : Nat) (f : Launch → Launch) : State :=
  { s with launches := s.launches.map fun l => if l.ctx == ctx && l.num == num then f l else l }

/-- A group slot's group; an empty slot reads as a group without lanes. -/
def State.group (s : State) (c slot : Nat) : Group := ((s.core c).groups.find slot).getD {}

def State.modGroup (s : State) (c slot : Nat) (f : Group → Group) : State :=
  s.modCore c fun k => { k with groups := k.groups.modify slot f }

def State.setGroup (s : State) (c slot : Nat) (g : Group) : State :=
  s.modCore c fun k => { k with groups := k.groups.put slot g }

def Group.lane (g : Group) (l : Nat) : Lane := g.lanes[l]?.getD {}

def State.modLane (s : State) (c slot l : Nat) (f : Lane → Lane) : State :=
  s.modGroup c slot fun g => { g with lanes := listModify g.lanes l f }

/-- A team place's team; an empty place reads as a team of no context. -/
def State.team (s : State) (c place : Nat) : Team := ((s.core c).teams.find place).getD {}

def State.modTeam (s : State) (c place : Nat) (f : Team → Team) : State :=
  s.modCore c fun k => { k with teams := k.teams.modify place f }

/-- The number that names no group slot. -/
def noSlot : Nat := 64

/-- The team of a group; a group without a place reads as a team of no context. -/
def State.teamOf (s : State) (c slot : Nat) : Team :=
  match (s.group c slot).place with
  | some p => s.team c p
  | none => {}

/-- The next identifier, ascending over the package. -/
def State.fresh (s : State) : Nat × State := (s.nextId, { s with nextId := s.nextId + 1 })

/-- The PC by which a lane issues: its trap-mode PC in trap mode (R58). -/
def Lane.cur (l : Lane) : W64 := if l.trap then l.tpc else l.pc

def Lane.setCur (l : Lane) (x : W64) : Lane := if l.trap then { l with tpc := x } else { l with pc := x }

/-- Predicate p0 to p7 of a lane; p7 is constant true (R68). -/
def Lane.pred (l : Lane) (n : Nat) : Bool := if n = 7 then true else l.p.getLsbD n

/-- A write to p7 is discarded (R70). -/
def Lane.setPred (l : Lane) (n : Nat) (b : Bool) : Lane :=
  if n = 7 then l
  else { l with p := if b then l.p ||| BitVec.ofNat 7 (2 ^ n) else l.p &&& ~~~(BitVec.ofNat 7 (2 ^ n)) }

def Lane.rv (l : Lane) (n : Nat) : W32 := l.v.get 0 n
def Lane.wv (l : Lane) (n : Nat) (x : W32) : Lane := { l with v := l.v.set 0 n x }
def Group.rs (g : Group) (n : Nat) : W32 := g.s.get 0 n
def Group.ws (g : Group) (n : Nat) (x : W32) : Group := { g with s := g.s.set 0 n x }

/-- n registers from the first, lowest half first (R69, R212). -/
def Lane.wvs (l : Lane) (n : Nat) : List W32 → Lane
  | [] => l
  | x :: xs => (l.wv n x).wvs (n + 1) xs

def Group.wss (g : Group) (n : Nat) : List W32 → Group
  | [] => g
  | x :: xs => (g.ws n x).wss (n + 1) xs

/-- Cut a number into 32-bit words, lowest first. -/
def wordsOf : Nat → Nat → List W32
  | 0, _ => []
  | n + 1, x => BitVec.ofNat 32 x :: wordsOf n (x >>> 32)

/-- The value of 32-bit words, lowest first. -/
def ofWords : List W32 → Nat
  | [] => 0
  | x :: xs => x.toNat + 2 ^ 32 * ofWords xs

/-- A free value of the model: the counter advances at each use. -/
def State.freeWord (s : State) : W32 × State := (Config.freeWord s.free, { s with free := s.free + 1 })

/-- A fault code of Table 0-4 where the spec names none: a free one of 0x00 to 0x14 (R11). -/
def State.freeCode (s : State) : Code × State :=
  let (x, s) := s.freeWord
  (BitVec.ofNat 8 (x.toNat % 21), s)

/-! ## Reaching another die (R23, R299) -/

/-- The key of a module. -/
def moduleKey (lo hi m : Nat) : Nat := (lo * 8 + hi) * 2 + m

/-- The same stream of the link's other module. -/
def StreamId.other (t : StreamId) : StreamId := { t with module := 1 - t.module }

/-- The stream from one die to another on a module. -/
def streamTo (src dst m : Nat) : StreamId :=
  if src < dst then ⟨src, dst, m, false⟩ else ⟨dst, src, m, true⟩

def State.module (s : State) (t : StreamId) : Module := s.modules.get {} (moduleKey t.lo t.hi t.module)

/-- The module that carries a packet: the one asked for, or the other while it is down (R299). None with both down, or where the form
lacks a die and with it the link (R1). -/
def State.linkModule (s : State) (src dst m : Nat) : Option StreamId :=
  let t := streamTo src dst m
  if s.dieCount ≤ src || s.dieCount ≤ dst then none
  else if (s.module t).width != .down then some t
  else if (s.module (StreamId.other t)).width != .down then some (StreamId.other t)
  else none

/-- A die reaches another: they are one, or the form has the link between them (R1) and it is not down (R298). -/
def State.linked (s : State) (a b : Nat) : Bool := a == b || (s.linkModule a b 0).isSome

/-! ## Physical memory -/

/-- The die on which a physical address is homed (R18). -/
def homeDie (pa : Nat) : Nat := pa / Config.dieWindow

/-- The stack of a physical address: address bit 9 selects between the die's two (R18). -/
def stackOf (pa : Nat) : Nat := 2 * homeDie pa + (pa / 512) % 2

/-- A physical address lies in the backed part of its die's window (R18), whether the form has that die or not (R1). -/
def backed (pa : Nat) : Bool := pa < 2 ^ 40 && pa % Config.dieWindow < Config.dieBacked

/-- A physical address is backed by a stack of the package: its die is one that the form has (R1, R18). -/
def State.backed (s : State) (pa : Nat) : Bool := Machine.backed pa && homeDie pa < s.dieCount

/-- The canonical form of memory: addresses strictly rising, and no entry equal to what an unlisted address reads as. -/
def Memory.wf (m : List Host.Cell) : Bool := SMap.wf (0 : Byte) m

/-- One byte; an unlisted address reads 0 (log 1). -/
def State.byte (s : State) (pa : Nat) : Byte := SMap.get 0 s.mem pa

/-- n bytes from an address. -/
def State.bytes (s : State) (pa n : Nat) : List Byte := (rangeFrom pa n).map s.byte

def State.read32 (s : State) (pa : Nat) : W32 := BitVec.ofNat 32 (ofBytes (s.bytes pa 4))
def State.read64 (s : State) (pa : Nat) : W64 := BitVec.ofNat 64 (ofBytes (s.bytes pa 8))

/-- Bytes put into a sparse memory. -/
def putBytes (m : SMap Byte) : Nat → List Byte → SMap Byte
  | _, [] => m
  | a, b :: bs => putBytes (SMap.set 0 m a b) (a + 1) bs

/-- n zero bytes put into a sparse memory: the range is unlisted. -/
def zeroBytes (m : SMap Byte) (a n : Nat) : SMap Byte := m.filter fun (k, _) => !(a ≤ k && k < a + n)

/-- A range of a sparse memory moved over another range, equal lengths. -/
def copyRange (m : SMap Byte) (src dst n : Nat) : SMap Byte :=
  (m.filter fun (k, _) => src ≤ k && k < src + n).foldl (fun m (k, b) => SMap.set 0 m (k - src + dst) b) (zeroBytes m dst n)

/-- The metadata symbol of a byte's granule: tag and poison (R165, R167). -/
def State.metaAt (s : State) (pa : Nat) : BitVec 5 := s.gmeta.get 0 (pa / 64)

def poisonOf (m : BitVec 5) : Bool := m.getLsbD 4
def tagOf (m : BitVec 5) : BitVec 4 := m.extractLsb' 0 4

/-- The granules, 128-byte lines or other blocks of k bytes that a range touches. -/
def blocks (k a n : Nat) : List Nat := if n = 0 then [] else rangeFrom (a / k) ((a + n - 1) / k - a / k + 1)

/-- Some granule of the range is poisoned. -/
def State.poisoned (s : State) (pa n : Nat) : Bool := (blocks 64 pa n).any fun g => poisonOf (s.gmeta.get 0 g)

/-- The bytes of an address lie in an ordered slot of a live launch (R194). -/
def State.inSlot (s : State) (pa : Nat) : Bool :=
  s.launches.any fun l => l.slots.any fun o => o.pa ≤ pa && pa < o.pa + 4

/-- Bytes written at their home: bytes of ordered slots are discarded (R194); a granule wholly overwritten loses its poison
and any symbol errors that its codeword held (R167, R320). -/
def State.putRaw (s : State) (pa : Nat) (bs : List Byte) : State :=
  let put := fun (m : SMap Byte) (x : Nat × Byte) => if s.inSlot x.1 then m else SMap.set 0 m x.1 x.2
  let m := ((rangeFrom pa bs.length).zip bs).foldl put s.mem
  let whole := (blocks 64 pa bs.length).filter fun g => pa ≤ 64 * g && 64 * g + 64 ≤ pa + bs.length
  { s with
    mem := m,
    gmeta := whole.foldl (fun t g => SMap.set 0 t g (t.get 0 g &&& 0xF)) s.gmeta,
    gerr := whole.foldl (fun t g => t.erase g) s.gerr }

/-! ### The home cache (R174, R175) -/

/-- The sector mask of a range within one line. -/
def sectorsOf (line pa n : Nat) : BitVec 4 :=
  maskOf 4 ((upto 4).filter fun k => pa < 128 * line + 32 * k + 32 && 128 * line + 32 * k < pa + n)

/-- The set of a home cache line (R174; the mapping is the model's, log 14). -/
def homeSet (line : Nat) : Nat := line % 196608

/-- The line that leaves a line's set: with 16 ways in use, the one least recently allocated, first candidates first and retained lines
only when every way is retained (R175). -/
def homeVictim (h : SMap HLine) (line : Nat) : Option (Nat × HLine) :=
  let ways := h.filter fun (k, _) => homeSet k == homeSet line
  if ways.length < 16 then none
  else
    let plain := ways.filter fun (_, l) => !l.retained
    let firsts := plain.filter fun (_, l) => l.first
    let pool := if !firsts.isEmpty then firsts else if !plain.isEmpty then plain else ways
    match minOf (pool.map fun (_, l) => l.stamp) with
    | none => none
    | some st => pool.find? fun (_, l) => l.stamp == st

/-- Make room in a line's set. -/
def evictHome (h : SMap HLine) (line : Nat) : SMap HLine :=
  match homeVictim h line with
  | some (k, _) => h.erase k
  | none => h

/-- The home cache holds the sectors of a line that an access names, under its policy: `write` marks them dirty. A load
that misses a sector under evict first is served without allocation (Table 11-7). -/
def State.homeTouch (s : State) (line : Nat) (sec : BitVec 4) (write : Bool) (po : Policy) : State :=
  let d := homeDie (128 * line)
  if po == .evictFirst && !write then s else
  s.modDie d fun k =>
    let kept := fun (t : SMap HLine) => (t.filter fun (j, l) => homeSet j == homeSet line && l.retained).length
    match k.home.find line with
    | some h =>
      let h' : HLine := { h with
        valid := h.valid ||| sec, dirty := if write then h.dirty ||| sec else h.dirty,
        retained := h.retained || (po == .retain && kept k.home < 8) }
      { k with home := k.home.put line h' }
    | none =>
      let home := evictHome k.home line
      let h' : HLine := { valid := sec, dirty := if write then sec else 0, retained := po == .retain && kept home < 8,
                          first := po == .evictFirst, stamp := s.nextId }
      { k with home := home.put line h' }

/-- The home cache holds every sector of a range. -/
def State.homeHit (s : State) (pa n : Nat) : Bool :=
  (blocks 128 pa n).all fun line =>
    let sec := sectorsOf line pa n
    match (s.die (homeDie (128 * line))).home.find line with
    | some h => h.valid &&& sec == sec
    | none => false

/-- The sectors of a range that a store fills before it merges: those it writes in part and that are not valid (R174). -/
def State.storeFills (s : State) (pa n : Nat) : Bool :=
  (blocks 32 pa n).any fun k => !(pa ≤ 32 * k && 32 * k + 32 ≤ pa + n) && !s.homeHit (32 * k) 32

/-- The smallest naturally aligned block of 16, 32, 64 or 128 bytes that covers the bytes from a up to b of one line: its first
address and its size (R176). -/
def coverBlock (a b : Nat) : Nat × Nat :=
  match [16, 32, 64].find? fun k => a / k == (b - 1) / k with
  | some k => (a / k * k, k)
  | none => (a / 128 * 128, 128)

/-- The block that a writeback of a line uses: the smallest that covers its dirty sectors (R176). -/
def HLine.block (h : HLine) (line : Nat) : Nat × Nat :=
  let ks := (upto 4).filter fun k => h.dirty.getLsbD k
  coverBlock (128 * line + 32 * (minOf ks).getD 0) (128 * line + 32 * maxOf ks + 32)

/-- Dirty sectors of a line are written to HBM4E in one block; the line stays valid and clean (R176, R222). -/
def State.writeback (s : State) (line : Nat) : State :=
  s.modDie (homeDie (128 * line)) fun k => { k with home := k.home.modify line fun h =>
    { h with dirty := h.dirty &&& ~~~sectorsOf line (h.block line).1 (h.block line).2 } }

/-! ### HBM4E arrays (R321) -/

/-- Post an event at a die's event arbiter: its number, and the state after (R293). -/
def State.event (s : State) (d : Nat) : Nat × State :=
  ((s.die d).evseq, s.modDie d fun k => { k with evseq := (k.evseq + 1) % 2 ^ 64 })

/-- The TSV group that carries a symbol (R320). -/
def tsvOf (sym : Nat) : Nat := sym / 5

/-- The symbol errors of a codeword that its stack must find: those outside the TSV group marked failed. -/
def State.unknownErrors (s : State) (g : Nat) : List (Nat × Byte) :=
  (s.gerr.get [] g).filter fun (sym, _) => some (tsvOf sym) != (s.stack (stackOf (64 * g))).failed

/-- The codeword is uncorrectable: more than 7 symbol errors, or more than 4 beside the erasures of a failed group. -/
def State.uncorrectable (s : State) (g : Nat) : Bool :=
  (if (s.stack (stackOf (64 * g))).failed.isSome then 4 else 7) < (s.unknownErrors g).length

/-- The sectors of a granule that the home cache does not hold become zero: those it holds are newer than the array. -/
def State.zeroArray (s : State) (g : Nat) : State :=
  let ks := [2 * g, 2 * g + 1].filter fun k => !s.homeHit (32 * k) 32
  { s with mem := ks.foldl (fun m k => zeroBytes m (32 * k) 32) s.mem }

/-- What the base die does with a codeword as it reads it (R321): the granule's symbol errors are corrected and counted, or
the codeword is rewritten with zero data, tag 0 and poison. The second result says that a TSV group is newly marked. -/
def State.correct (s : State) (g : Nat) : State × Bool :=
  let n := stackOf (64 * g)
  let st := s.stack n
  let groups := sortDedup ((s.unknownErrors g).map fun (sym, _) => tsvOf sym)
  let clean := { s with gerr := s.gerr.erase g }
  if (s.gerr.get [] g).isEmpty then (s, false)
  else if s.uncorrectable g then
    let s := (clean.modStack n fun k => { k with run := none }).zeroArray g
    ({ s with gmeta := SMap.set 0 s.gmeta g 0x10 }, false)
  else
    let run := match groups, st.run with
      | [x], some (y, k) => if x = y then some (x, k + 1) else some (x, 1)
      | [x], none => some (x, 1)
      | _, _ => none
    let mark := match run, st.failed with
      | some (x, k), none => if 64 ≤ k then some x else none
      | _, _ => none
    (clean.modStack n fun k => { k with
        corrections := k.corrections + 1, run := run, failed := if mark.isSome then mark else k.failed }, mark.isSome)

/-! ### Stacks that hold (R325, R326) -/

/-- The stack of an address holds every request that needs it (R325). -/
def State.held (s : State) (pa : Nat) : Bool := (s.stack (stackOf pa)).th3.isSome

/-- A stack has been in forced self-refresh for 10 ms, so that what waits for it fails (R326). -/
def State.overdue (s : State) (n : Nat) : Bool :=
  match (s.stack n).th3 with
  | some t => t + 10000 * Config.cyclesPerUs ≤ (s.die (n / 2)).cycle
  | none => false

/-- Bytes at their home wait for a stack that holds them, and have not waited so long that they fail (R325, R326). -/
def State.stackWaits (s : State) (pa n : Nat) : Bool := s.held pa && !s.homeHit pa n && !s.overdue (stackOf pa)

/-- A line that the home cache does not hold finds no room there but by a writeback to a stack that holds it (R325): the lines of a set
share their stack. -/
def State.noRoom (s : State) (line : Nat) : Bool :=
  let home := (s.die (homeDie (128 * line))).home
  s.held (128 * line) && (home.find line).isNone && (homeVictim home line).any fun x => x.2.dirty != 0

/-- Bytes that a write brings to its home need their stack: for a fill, or for room. -/
def State.writeWaits (s : State) (pa n : Nat) : Bool :=
  s.held pa && (s.storeFills pa n || (blocks 128 pa n).any s.noRoom)

/-- A granule of the range holds poison, or would as it is read from its array (R167, R321). -/
def State.bad (s : State) (pa n : Nat) : Bool :=
  (blocks 64 pa n).any fun g => poisonOf (s.gmeta.get 0 g) || (!s.held (64 * g) && s.uncorrectable g
    && (blocks 32 pa n).any fun k => k / 2 == g && !s.homeHit (32 * k) 32)

/-- An event that a die posts to Nopol root's buffer: the die, the event code and what bytes 20 to 23 of its record hold (R359). -/
abbrev DevEvent := Nat × Nat × Nat

/-- Codewords are read from their arrays; a TSV group newly marked is an event (R321). -/
def State.correctAll (gs : List Nat) (s : State) : State × List DevEvent :=
  gs.foldl (fun (x : State × List DevEvent) g =>
    let r := x.1.correct g
    (r.1, if r.2 then x.2 ++ [(homeDie (64 * g), 2, stackOf (64 * g))] else x.2)) (s, [])

/-- The codewords of the sectors of a range that the home cache does not hold (R176). -/
def State.arrayOf (s : State) (pa n : Nat) : List Nat :=
  sortDedup (((blocks 32 pa n).filter fun k => !s.homeHit (32 * k) 32).map (· / 2))

/-- What an allocating fill brings in for a block: whole sectors (R176). -/
def fillBlock (b : Nat × Nat) : Nat × Nat := if b.2 < 32 then (b.1 / 32 * 32, 32) else b

/-- A load of n bytes at its home, for an instruction that covers a block of the line: where the sectors are not held, the block is
read from the array, whole sectors of it unless the load is served without allocation (R172, R175, R176). The second result lists the
events of what it reads. -/
def State.fetchIn (s : State) (pa n : Nat) (b : Nat × Nat) (po : Policy) : State × List DevEvent :=
  if s.homeHit pa n then
    ((blocks 128 pa n).foldl (fun s line => s.homeTouch line (sectorsOf line pa n) false po) s, [])
  else
    let b := if po == .evictFirst then b else fillBlock b
    let r := State.correctAll (s.arrayOf b.1 b.2) s
    ((blocks 128 b.1 b.2).foldl (fun s line => s.homeTouch line (sectorsOf line b.1 b.2) false po) r.1, r.2)

/-! ## Translation (R158 to R163) -/

/-- The level, lowest index bit and index width of each step of a walk (Table 11-2). -/
def walkLevels : List (Nat × Nat × Nat) := [(4, 44, 12), (3, 32, 12), (2, 29, 3), (1, 21, 8), (0, 16, 5)]

/-- The bytes of the table that a level's entry points to. -/
def tableBytes : List (Nat × Nat × Nat) → Nat
  | [] => 1
  | (_, _, n) :: _ => 8 * 2 ^ n

/-- A valid bit, no reserved bit, and a backed frame (R161): the window of a die that the form lacks is backed as any other, and an
access that goes there faults at its die link (R1). -/
def pteUsable (e : W64) : Bool :=
  e.getLsbD 0 && (e >>> 52 == 0) && (field e 40 6 == 0) && (field e 2 4 == 0) && backed ((field e 6 34).toNat * 64)

/-- The physical address bits 39:6 of an entry. -/
def pteAddr (e : W64) : Nat := (field e 6 34).toNat * 64

/-- The address of the entry that a level of a walk reads. -/
def entryAt (va lo n table : Nat) : Nat := table + 8 * natBits va (lo + n - 1) lo

/-- An entry that leads a walk on: a table entry that R161 lets stand above the levels given. -/
def leadsOn (e : W64) (lvl : Nat) (rest : List (Nat × Nat × Nat)) : Bool :=
  pteUsable e && !e.getLsbD 1 && lvl != 0 && field e 46 6 == 0 && pteAddr e % tableBytes rest == 0

/-- The walk of R160 and R161 from a table: the leaf and log2 of its page, or the fault. -/
def walkFrom (s : State) (va : Nat) : List (Nat × Nat × Nat) → Nat → Except Code (Nat × W64)
  | [], _ => .error cXLATE
  | (lvl, lo, n) :: rest, table =>
    let e := s.read64 (entryAt va lo n table)
    if leadsOn e lvl rest then walkFrom s va rest (pteAddr e)
    else if pteUsable e && e.getLsbD 1 && lvl != 4 && pteAddr e % 2 ^ lo == 0 then .ok (lo, e)
    else .error cXLATE

/-- The entries that the walk reads, in order (R163). -/
def walkEntries (s : State) (va : Nat) : List (Nat × Nat × Nat) → Nat → List Nat
  | [], _ => []
  | (lvl, lo, n) :: rest, table =>
    let e := s.read64 (entryAt va lo n table)
    entryAt va lo n table :: if leadsOn e lvl rest then walkEntries s va rest (pteAddr e) else []

/-- Bits 62:60 equal bit 63 (R158). -/
def canonical (va : W64) : Bool := field va 60 3 == (if va.getLsbD 63 then 7 else 0)

/-- The pointer tag of an address (Table 11-1). -/
def ptrTag (va : W64) : BitVec 4 := field va 56 4

/-- The address without its tag. -/
def untag (va : W64) : W64 := va &&& 0xF0FF_FFFF_FFFF_FFFF

/-- The root table of an address's half (R159). -/
def State.rootFor (s : State) (ctx : Nat) (va : W64) : Option Nat :=
  if va.getLsbD 63 then some s.fwRoot else (s.context ctx).map (·.root)

/-- Translate by a walk: physical address and leaf with log2 of its page. -/
def State.walk (s : State) (ctx : Nat) (va : W64) : Except Code (Nat × W64 × Nat) :=
  if !canonical va then .error cXLATE else
  match s.rootFor ctx va with
  | none => .error cXLATE
  | some root => match walkFrom s (field va 0 56).toNat walkLevels root with
    | .error c => .error c
    | .ok (lg, e) => .ok (pteAddr e + (field va 0 56).toNat % 2 ^ lg, e, lg)

/-- The entries that a walk for an address reads. -/
def State.walkReads (s : State) (ctx : Nat) (va : W64) : List Nat :=
  match (if canonical va then s.rootFor ctx va else none) with
  | some root => walkEntries s (field va 0 56).toNat walkLevels root
  | none => []

/-- What a die's walker meets as it reads table entries in order, as loads of scope .P (R163): a link that is down or absent, a stack
that has held one too long (R326), or poison (R167). -/
def State.walkFault (s : State) (d : Nat) (as : List Nat) : Option Code :=
  as.findSome? fun a =>
    if !s.linked d (homeDie a) then some cREMOTE
    else if s.held a && !s.homeHit a 8 && s.overdue (stackOf a) then some cTHERM
    else if s.bad a 8 then some cECC
    else none

/-- Translate by a walk of a die's walker, which reads the tables at their homes (R163). -/
def State.walkAs (s : State) (d ctx : Nat) (va : W64) : Except Code (Nat × W64 × Nat) :=
  match s.walkFault d (s.walkReads ctx va) with
  | some c => .error c
  | none => s.walk ctx va

/-- A walk of a die's walker has to wait for a stack that holds a table (R325). -/
def State.tablesWait (s : State) (d ctx : Nat) (va : W64) : Bool :=
  (s.walkReads ctx va).any fun a => s.linked d (homeDie a) && s.stackWaits a 8

/-- A walk cannot go on now: it waits for a table, or for a free entry of the walker (R163). -/
def State.walkerWaits (s : State) (d ctx : Nat) (va : W64) : Bool :=
  Config.walkerEntries ≤ (s.die d).walks.length || s.tablesWait d ctx va

/-- The walker of a die reads table entries in order, up to the first that fails: their codewords and home cache lines, and the events
of what it reads. -/
def State.walkReading (d : Nat) : List Nat → State → State × List DevEvent
  | [], s => (s, [])
  | a :: as, s => match s.walkFault d [a] with
    | some c => if c = cECC then State.correctAll (s.arrayOf a 8) s else (s, [])
    | none =>
      let (s, x) := s.fetchIn a 8 (coverBlock a (a + 8)) .normal
      let (s, y) := State.walkReading d as s
      (s, x ++ y)

/-- A leaf that a list of leaves holds for an address (R163). -/
def tlbFind (t : List TlbEntry) (ctx : Nat) (va : W64) : Option TlbEntry :=
  t.find? fun e => e.firmware == va.getLsbD 63 && (e.firmware || e.ctx == ctx)
    && (field va 0 56).toNat / 2 ^ e.lg == e.base / 2 ^ e.lg

/-- The leaf that a core's two levels of translation cache hold for an address. -/
def Core.leaf (k : Core) (ctx : Nat) (va : W64) : Option TlbEntry :=
  match tlbFind k.tlb ctx va with
  | some e => some e
  | none => tlbFind k.tlb2 ctx va

/-- A leaf enters the first level; the oldest of a full level moves to the second, and from there out (log 11). -/
def Core.holdLeaf (k : Core) (e : TlbEntry) : Core :=
  { k with
    tlb := (e :: k.tlb).take Config.tlbEntries.1
    tlb2 := ((e :: k.tlb).drop Config.tlbEntries.1 ++ k.tlb2).take Config.tlbEntries.2 }

/-- The leaf of a walk as a translation cache keeps it. -/
def leafOf (ctx : Nat) (va : W64) (lg : Nat) (pte : W64) : TlbEntry :=
  { ctx := ctx, firmware := va.getLsbD 63, base := (field va 0 56).toNat / 2 ^ lg * 2 ^ lg, lg := lg, pte := pte }

/-- The physical address that a leaf gives an address. -/
def TlbEntry.pa (e : TlbEntry) (va : W64) : Nat := pteAddr e.pte + (field va 0 56).toNat % 2 ^ e.lg

/-- What a core's translation gives: the leaf its caches hold, or the one that a walk finds. -/
def State.mapped (s : State) (core ctx : Nat) (va : W64) : Except Code (Nat × W64) :=
  if !canonical va then .error cXLATE else
  match (s.core core).leaf ctx va with
  | some e => .ok (e.pa va, e.pte)
  | none => (s.walkAs (dieOf core) ctx va).map fun (pa, e, _) => (pa, e)

/-- The rights of Table 11-4 that an access needs. -/
structure Need where
  r : Bool := false
  w : Bool := false
  x : Bool := false
  deriving DecidableEq, Repr

/-- The leaf gives the rights; only an agent or firmware may use the firmware half or a page with priv = 1 (R159, R162). -/
def rightsOk (va e : W64) (need : Need) (agent : Bool) : Bool :=
  (agent || !(va.getLsbD 63 || e.getLsbD 49)) && (!need.r || e.getLsbD 46) && (!need.w || e.getLsbD 47)
    && (!need.x || e.getLsbD 48)

/-- Firmware serves a translation fault of the context at an address: the address lies in a range of its pager (log 12). -/
def State.served (s : State) (ctx : Nat) (va : W64) : Bool :=
  match s.context ctx with
  | some c => c.pager.any fun r => r.base ≤ (untag va).toNat && (untag va).toNat < r.base + r.len
  | none => false

/-- The tables that a walk may read from a table on: their first bytes and sizes. -/
def tablesFrom (s : State) : List (Nat × Nat × Nat) → Nat → List (Nat × Nat)
  | [], _ => []
  | (lvl, _, n) :: rest, table =>
    let size := 8 * 2 ^ n
    let held := sortDedup ((s.mem.filter fun (a, _) => table ≤ a && a < table + size).map fun (a, _) => a / 8 * 8)
    (table, size) :: held.flatMap fun a =>
      let e := s.read64 a
      if leadsOn e lvl rest then tablesFrom s rest (pteAddr e) else []

/-- Two ranges, each a first byte and a number of bytes, have a byte in common. -/
def meetRange (a n : Nat) (r : Nat × Nat) : Bool := r.1 < a + n && a < r.1 + r.2

/-- Some of n bytes are memory that only Nopol root writes (R370): page tables, record buffer descriptors but for rd, which the ring's
consumer advances (R356), and save areas. -/
def State.rootOnly (s : State) (pa n : Nat) : Bool :=
  let roots := s.fwRoot :: s.contexts.map fun (_, x) => x.root
  let descs := (s.contexts.flatMap fun (_, x) => x.eventDesc.toList ++ x.sampleDesc.toList)
    ++ s.dies.filterMap fun (_, d) => d.rootDesc
  (roots.flatMap (tablesFrom s walkLevels)).any (meetRange pa n)
    || descs.any (fun a => meetRange pa n (a, 16) || meetRange pa n (a + 20, 4))
    || s.contexts.any fun (_, x) => x.saveArea.any fun r => meetRange pa n (r.base, r.len)

/-! ## Views (R315 to R317) -/

/-- The pages of a range of virtual addresses under a translation: for each its first address in the range, where that stands, its
bytes and its leaf; or the first that does not translate. `fuel` bounds the pieces: a piece ends at a multiple of 64 KiB. -/
def pagesOf (map : W64 → Except Code (Nat × W64)) : Nat → W64 → Nat → Except (Code × W64) (List (W64 × Nat × Nat × W64))
  | 0, _, _ => .ok []
  | fuel + 1, va, n =>
    if n = 0 then .ok []
    else match map va with
      | .error c => .error (c, va)
      | .ok (pa, e) =>
        let k := Nat.min n (65536 - va.toNat % 65536)
        match pagesOf map fuel (va + BitVec.ofNat 64 k) (n - k) with
        | .error x => .error x
        | .ok ps => .ok ((va, pa, k, e) :: ps)

/-- Physical bytes of a range of virtual addresses: the pieces in order, or the first page that does not translate, then the first that
does not give the rights (R12). -/
def piecesOf (map : W64 → Except Code (Nat × W64)) (need : Need) (agent : Bool) (fuel : Nat) (va : W64) (n : Nat) :
    Except (Code × W64) (List (Nat × Nat)) :=
  match pagesOf map fuel va n with
  | .error x => .error x
  | .ok ps => match ps.find? fun p => !rightsOk p.1 p.2.2.2 need agent with
    | some p => .error (cPERM, p.1)
    | none => .ok (ps.map fun p => (p.2.1, p.2.2.1))

/-- The physical pieces of a range, by the walks of a die's walker. -/
def State.range (s : State) (d ctx : Nat) (need : Need) (agent : Bool) (va : W64) (n : Nat) :
    Except (Code × W64) (List (Nat × Nat)) :=
  piecesOf (fun a => (s.walkAs d ctx a).map fun (pa, e, _) => (pa, e)) need agent (n / 65536 + 2) va n

/-- The first address in each 64 KiB block of a range. `fuel` bounds them. -/
def pageStarts : Nat → W64 → Nat → List W64
  | 0, _, _ => []
  | fuel + 1, va, n =>
    let k := 65536 - va.toNat % 65536
    if n = 0 then [] else va :: pageStarts fuel (va + BitVec.ofNat 64 k) (n - k)

/-- A translation of a range by a die's walker has to wait (R163, R325). -/
def State.rangeWaits (s : State) (d ctx : Nat) (va : W64) (n : Nat) : Bool :=
  (pageStarts (n / 65536 + 2) va n).any fun a => s.walkerWaits d ctx a

/-- The physical pieces of a range, as a core translates it for a group or (`agent`) its agent, which writes nothing that only Nopol
root writes (R370). -/
def State.coreRange (s : State) (core ctx : Nat) (need : Need) (agent : Bool) (va : W64) (n : Nat) :
    Except (Code × W64) (List (Nat × Nat)) :=
  match piecesOf (s.mapped core ctx) need agent (n / 65536 + 2) va n with
  | .error x => .error x
  | .ok ps => if agent && need.w && ps.any (fun p => s.rootOnly p.1 p.2) then .error (cPERM, va) else .ok ps

/-- The chunk of a view that holds a physical address, where the view's page is mapped. -/
def viewChunk (s : State) (v : View) (pa : Nat) : Option Nat :=
  (upto v.chunks).find? fun k => match s.walk v.ctx (v.base + BitVec.ofNat 64 (65536 * k)) with
    | .ok (p, _, _) => p / 65536 == pa / 65536
    | .error _ => false

/-- Where the pages of a view's chunks stand, with their rights. -/
def State.viewLeaves (s : State) (ctx : Nat) (base : W64) (chunks : Nat) : List (Option (Nat × BitVec 4)) :=
  (upto chunks).map fun k => match s.walk ctx (base + BitVec.ofNat 64 (65536 * k)) with
    | .ok (p, e, _) => some (p, field e 46 4)
    | .error _ => none

/-- A page of an open view has been remapped, or its rights changed: reads of the view return undefined data (R315). -/
def State.viewRemapped (s : State) (v : View) : Bool :=
  (v.leaves.zip (s.viewLeaves v.ctx v.base v.chunks)).any fun (a, b) => a.isSome && a != b

/-- A pool slot that no chunk uses. -/
def View.freeSlot (v : View) : Option Nat :=
  (upto v.slots).find? fun k => !(v.state.any fun (_, c) => c == .copying k || c == .preserved k)

/-- The physical address of a pool slot. -/
def State.poolAddr (s : State) (v : View) (slot : Nat) : Option Nat :=
  match s.walk v.ctx (v.pool + BitVec.ofNat 64 (65536 * slot)) with
  | .ok (p, _, _) => some p
  | .error _ => none

/-- Bytes of a launch's ordered-sum area (R273): their place in physical memory meets a range. -/
def State.osumMeets (s : State) (l : Launch) (pa n : Nat) : Bool :=
  let base := BitVec.ofNat 64 (ofWords ((l.words.drop 22).take 2))
  let len := 32 * (l.words[24]?.getD 0).toNat
  match pagesOf (fun a => (s.walk l.ctx a).map fun (p, e, _) => (p, e)) (len / 65536 + 2) base len with
  | .ok ps => ps.any fun x => meetRange pa n (x.2.1, x.2.2.1)
  | .error _ => false

/-- A load of bytes of a live launch's ordered-sum area is not defined (R273). -/
def State.inOsum (s : State) (pa n : Nat) : Bool := s.launches.any fun l => s.osumMeets l pa n

/-- Software accesses bytes at a physical address: a launch whose ordered-sum area they lie in loses its sums (R273), and an open view
whose pool they lie in its contents (R344). -/
def State.softAccess (s : State) (pa n : Nat) : State :=
  if n = 0 then s else
  { s with
    launches := s.launches.map fun l => if s.osumMeets l pa n then { l with spoiled := true } else l
    views := s.views.map fun x =>
      if (upto x.2.slots).any fun k => (s.poolAddr x.2 k).any fun p => meetRange pa n (p, 65536)
        then (x.1, { x.2 with spoiled := true }) else x }

/-- The same for pieces of a range. -/
def State.softAccesses (s : State) (ps : List (Nat × Nat)) : State := ps.foldl (fun s p => s.softAccess p.1 p.2) s

/-- The chunks of open views, not lost, whose data a write to a 64 KiB block would change: view, chunk and view data. -/
def State.viewsAt (s : State) (pa : Nat) : List (Nat × Nat × View) :=
  s.views.filterMap fun (n, v) => if v.lost then none else (viewChunk s v pa).map fun k => (n, k, v)

/-- A write to a chunk of a view (Table 19-11, R316): a Clean chunk takes a pool slot and starts its copy, or with no
slot free the view is lost. The second result lists the views newly lost, each as its event (R317). -/
def State.chunkWrite (s : State) (x : Nat × Nat × View) : State × List DevEvent :=
  let (n, k, v) := x
  match v.state.find k with
  | some _ => (s, [])
  | none => match v.freeSlot with
    | some slot =>
      let v' := { v with state := v.state.put k (.copying slot), used := v.used + 1, most := Nat.max v.most (v.used + 1) }
      ({ s with views := s.views.put n v' }, [])
    | none => ({ s with views := s.views.put n { v with lost := true } }, [(v.die, 1, n)])

/-- The metadata symbols of a range of granules moved over another range of n bytes. -/
def copyGranules {β : Type} [DecidableEq β] (d : β) (m : SMap β) (src dst n : Nat) : SMap β :=
  let kept := m.filter fun (g, _) => !(dst / 64 ≤ g && g < (dst + n) / 64)
  (m.filter fun (g, _) => src / 64 ≤ g && g < (src + n) / 64).foldl
    (fun t (g, x) => SMap.set d t (g - src / 64 + dst / 64) x) kept

/-- The codewords of a range that hold symbol errors. -/
def State.erring (s : State) (pa n : Nat) : List Nat := (s.gerr.keys).filter fun g => pa / 64 ≤ g && g < (pa + n) / 64

/-- A chunk's copy ends: the chunk's codewords have been read (R321), and its 64 KiB stand in the pool slot as they stood at the opening
point, with the tags and the poison of its granules (R316). The second result lists the events of what was read. -/
def State.chunkCopied (s : State) (n k : Nat) : State × List DevEvent :=
  match s.views.find n with
  | none => (s, [])
  | some v => match v.state.find k with
    | some (.copying slot) =>
      let s' := { s with views := s.views.put n { v with state := v.state.put k (.preserved slot) } }
      match s.walk v.ctx (v.base + BitVec.ofNat 64 (65536 * k)), s.poolAddr v slot with
      | .ok (p, _, _), some q =>
        let r := State.correctAll ((s.erring p 65536).filter fun g => !s.homeHit (64 * g) 64) s'
        ({ r.1 with
          mem := copyRange r.1.mem p q 65536
          gmeta := copyGranules 0 r.1.gmeta p q 65536
          gerr := r.1.gerr.filter fun x => !(q / 64 ≤ x.1 && x.1 < (q + 65536) / 64) }, r.2)
      | _, _ => (s', [])
    | _ => (s, [])

/-- A write that must wait for a chunk copy of some view (Table 19-11). -/
def State.viewWaits (s : State) (pa : Nat) : Bool :=
  (s.viewsAt pa).any fun (_, k, v) => match v.state.find k with
    | some (.copying _) => true
    | _ => false

/-- What a write to a block does to the views, in one step: chunks of open views are copied to the pool before the write, or
the view is lost (R316, R317). The second result lists the events: views newly lost, and those of the codewords read. -/
def State.preserve (s : State) (pa : Nat) : State × List DevEvent :=
  (s.viewsAt pa).foldl (fun (s, ev) x =>
    let (s, l) := s.chunkWrite x
    let (s, m) := s.chunkCopied x.1 x.2.1
    (s, ev ++ l ++ m)) (s, [])

/-! ## Records (R355 to R359) -/

/-- The header of Table 23-2. -/
def recordHeader (evseq : Nat) (type : BitVec 8) (die : Nat) (core slot : Option Nat) (drop : W32) : List Byte :=
  let w : Nat := type.toNat * 2 ^ 56 + die % 8 * 2 ^ 53
    + (match core with | some c => c / 16 % 32 * 2 ^ 48 + c % 16 * 2 ^ 44 | none => 2 ^ 37)
    + (match slot with | some k => k % 64 * 2 ^ 38 | none => 2 ^ 36) + drop.toNat
  bytesOf 8 w ++ bytesOf 8 evseq

/-- Pad bytes with zeros, or cut them, to n. -/
def padTo (n : Nat) (bs : List Byte) : List Byte := (bs ++ List.replicate (n - bs.length) 0).take n

/-- Writes of a die to lines homed on other dies leave its remote-data cache without them (R20). -/
def State.dropFar (s : State) (d : Nat) (ps : List (Nat × Nat)) : State :=
  (ps.flatMap fun (pa, n) => (blocks 128 pa n).filter fun l => homeDie (128 * l) != d).foldl (fun s l =>
    s.modDie d fun k => { k with rdc := k.rdc.filter fun x => x.line != l }) s

/-- Bytes that a die's control core writes at their home, traced chunks preserved first; the second result lists the events. -/
def State.putOver (s : State) (d : Nat) (x : List DevEvent) (pa : Nat) (bs : List Byte) : State × List DevEvent :=
  let (s, ev) := s.preserve pa
  ((s.putRaw pa bs).dropFar d [(pa, bs.length)], x ++ ev)

/-- The address of the record that a ring takes next. -/
def State.ringNext (s : State) (r : Ring) : W64 :=
  s.read64 r.desc + BitVec.ofNat 64 (64 * ((s.read32 (r.desc + 12)).toNat % 2 ^ (field (s.read32 (r.desc + 8)) 0 5).toNat))

/-- The device writes its error records to the host too, by RDMA (R318). The spec says neither which they are nor where they go: they
are the records of Nopol root's buffers, at a free address (log 80). -/
def State.hostError (s : State) (r : Ring) (bs : List Byte) : State :=
  if !r.firmware then s
  else
    let (hi, s) := s.freeWord
    let (lo, s) := s.freeWord
    { s with hostOut := s.hostOut ++ [.rdmaWrite (hi ++ lo) bs] }

/-- Write a record into a ring (R357): dropped and counted when the ring is full or its address fails translation or rights (R356), or
cannot be reached. `type` 0x01 to 0x12, with the die of the event, whose control core writes, and its number. Nothing is written where
that die cannot reach the descriptor (log 80). The second result lists the events of what it reads and writes. -/
def State.writeRecord (s : State) (r : Ring) (evseq : Nat) (type : BitVec 8) (die : Nat) (core slot : Option Nat)
    (body : List Byte) : State × List DevEvent :=
  let lg := (field (s.read32 (r.desc + 8)) 0 5).toNat
  let wr := s.read32 (r.desc + 12)
  let rd := s.read32 (r.desc + 16)
  let drop := s.read32 (r.desc + 20)
  let va := s.ringNext r
  let drops := if drop = 0xFFFF_FFFF then drop.toNat else drop.toNat + 1
  if !s.linked die (homeDie r.desc) then (s, [])
  else if wr - rd = BitVec.ofNat 32 (2 ^ lg) then s.putOver die [] (r.desc + 20) (bytesOf 4 drops)
  else
    let found := s.walkAs die r.ctx va
    let (s, x) := State.walkReading die (s.walkReads r.ctx va) s
    match found with
    | .error _ => s.putOver die x (r.desc + 20) (bytesOf 4 drops)
    | .ok (pa, e, _) =>
      if !rightsOk va e { w := true } r.firmware || !s.linked die (homeDie pa) then
        s.putOver die x (r.desc + 20) (bytesOf 4 drops)
      else
        let bs := padTo 64 (recordHeader evseq type die core slot drop ++ body)
        let (s, x) := s.putOver die x pa bs
        let (s, x) := s.putOver die x (r.desc + 12) (bytesOf 4 (wr + 1).toNat)
        (s.hostError r bs).putOver die x (r.desc + 20) (bytesOf 4 0)

/-- Writing a ring's next record waits: its descriptor, a table on the way to the record, or the record's place needs a stack that holds
it (R325). -/
def State.ringWaits (s : State) (r : Ring) (die : Nat) : Bool :=
  s.linked die (homeDie r.desc) && (s.writeWaits (r.desc + 12) 12 || s.tablesWait die r.ctx (s.ringNext r)
    || match s.walkAs die r.ctx (s.ringNext r) with
      | .ok (pa, _, _) => s.linked die (homeDie pa) && s.writeWaits pa 64
      | .error _ => false)

/-- A record is written, or kept while its ring waits for a stack or behind an earlier record of the ring (R325). -/
def State.tryRecord (s : State) (h : HeldRec) : State × List DevEvent :=
  if s.recQ.any (fun x => x.ring == h.ring) || s.ringWaits h.ring h.die then ({ s with recQ := s.recQ ++ [h] }, [])
  else s.writeRecord h.ring h.evseq h.type h.die h.core h.slot h.body

/-- An event of a die with its record, where the ring exists; the second result lists the events of what it reads and writes. -/
def State.recordOnly (s : State) (r : Option Ring) (type : BitVec 8) (die : Nat) (core slot : Option Nat)
    (body : List Byte) : State × List DevEvent :=
  let (n, s) := s.event die
  match r with
  | some r => s.tryRecord { ring := r, evseq := n, type := type, die := die, core := core, slot := slot, body := body }
  | none => (s, [])

/-- A die's event buffer for Nopol root. -/
def State.rootRing (s : State) (d : Nat) : Option Ring := (s.die d).rootDesc.map fun a => ⟨a, 0, true⟩

/-- Device events with their records (R359), whose own writes may lose a view (R317) or read an array in turn. `fuel` bounds the
events: views and symbol errors give no more. -/
def State.postEventsN : Nat → List DevEvent → State → State
  | 0, _, s => s
  | _, [], s => s
  | fuel + 1, (d, code, what) :: rest, s =>
    let (s, more) := s.recordOnly (s.rootRing d) 0x06 d none none (bytesOf 4 code ++ bytesOf 4 what)
    State.postEventsN fuel (rest ++ more) s

def State.postEvents (s : State) (ev : List DevEvent) : State :=
  State.postEventsN (ev.length + s.views.length + s.gerr.length) ev s

/-- An event of a die with its record, where the ring exists, and the events of what its writing does (R317, R321, R357). -/
def State.record (s : State) (r : Option Ring) (type : BitVec 8) (die : Nat) (core slot : Option Nat)
    (body : List Byte) : State :=
  let (s, ev) := s.recordOnly r type die core slot body
  s.postEvents ev

/-- The records that waited for a stack are written, in order, as far as they can be (R325). -/
def State.recordsGo (s : State) : State :=
  s.recQ.foldl (fun s h => let (s, ev) := s.tryRecord h; s.postEvents ev) { s with recQ := [] }

/-- A context's event buffer. -/
def State.eventRing (s : State) (ctx : Nat) : Option Ring :=
  match s.context ctx with
  | some c => c.eventDesc.map fun d => ⟨d, ctx, false⟩
  | none => none

/-- A context's sample buffer. -/
def State.sampleRing (s : State) (ctx : Nat) : Option Ring :=
  match s.context ctx with
  | some c => c.sampleDesc.map fun d => ⟨d, ctx, false⟩
  | none => none

/-- A type 0x06 device event at a die (R359): event code, and what bytes 20 to 23 hold. -/
def State.deviceEvent (s : State) (die : Nat) (code what : Nat) : State :=
  s.record (s.rootRing die) 0x06 die none none (bytesOf 4 code ++ bytesOf 4 what)

/-- Codewords are read from their arrays; a TSV group newly marked posts an event (R321). -/
def State.readGranules (s : State) (gs : List Nat) : State :=
  let (s, ev) := State.correctAll gs s
  s.postEvents ev

/-- The sectors of a range that the home cache does not hold are read from their array, each in its codeword (R176, R321). -/
def State.readArray (s : State) (pa n : Nat) : State := s.readGranules (s.arrayOf pa n)

/-- The walks of a die's walker for a range read their tables (R163). -/
def State.rangeWalked (s : State) (d ctx : Nat) (va : W64) (n : Nat) : State :=
  (pageStarts (n / 65536 + 2) va n).foldl (fun s a =>
    let (s, ev) := State.walkReading d (s.walkReads ctx a) s
    s.postEvents ev) s

/-- Bytes written at their home within one 64 KiB block: traced chunks are preserved first (R316). -/
def State.putMem (s : State) (pa : Nat) (bs : List Byte) : State :=
  let (s, ev) := s.preserve pa
  (s.putRaw pa bs).postEvents ev

/-- The body of Table 23-3. -/
def faultBody (f : FaultRec) (code : Code) (lane grp team launch ctx : Nat) (drain : Bool) : List Byte :=
  bytesOf 8 f.pc.toNat ++ bytesOf 8 f.addr.toNat ++ bytesOf 4 f.seq.toNat
  ++ bytesOf 4 (code.toNat * 2 ^ 24 + lane % 32 * 2 ^ 19 + (if f.eng then 2 ^ 18 else 0) + (if f.rem then 2 ^ 17 else 0)
      + (if drain then 2 ^ 16 else 0) + grp % 16 * 2 ^ 12)
  ++ bytesOf 4 team ++ bytesOf 4 launch ++ bytesOf 4 (f.peer.1 % 64 * 2 ^ 20 + f.peer.2 % 2 ^ 20)
  ++ bytesOf 4 (f.num.toNat * 2 ^ 16 + ctx % 2 ^ 16) ++ bytesOf 8 0

/-- A record of type 0x01 to 0x03 that concerns a group goes to its context's event buffer (R359). -/
def State.groupRecord (s : State) (type : BitVec 8) (c slot lane : Nat) (f : FaultRec) (code : Code) : State :=
  let g := s.group c slot
  s.record (s.eventRing g.ctx) type (dieOf c) (some c) (some slot)
    (faultBody f code lane g.grp (s.teamOf c slot).lin g.launch g.ctx g.draining)

/-! ## Taking an exception, and the return from one (R283 to R287) -/

/-- The word tcause of Table 17-6; a WATCH entry sets wsup. -/
def tcauseOf (f : FaultRec) (lane : Nat) : W32 :=
  BitVec.ofNat 32 (f.num.toNat * 2 ^ 16 + (if f.code = cWATCH then 2 ^ 15 else 0) + (if f.eng then 2 ^ 14 else 0)
    + (if f.rem then 2 ^ 13 else 0) + lane % 32 * 2 ^ 8 + f.code.toNat)

/-- The trap handler's address of a group's launch; 0 means none (Table 17-2). -/
def State.trapAddr (s : State) (g : Group) : W64 :=
  match s.launch g.ctx g.launch with
  | some l => BitVec.ofNat 64 (ofWords ((l.words.drop 26).take 2))
  | none => 0

/-- An agent is frozen (R279, R371): its scalar path stops, and a freeze record with slot 63 goes to Nopol root's buffer. -/
def State.stopAgent (s : State) (c lane : Nat) (f : FaultRec) (code : Code) : State :=
  if (s.core c).agentFrozen then s
  else
    let ctx := (s.group c 63).ctx
    let s := s.modCore c fun k => { k with
      agentFrozen := true, groups := k.groups.modify 63 fun g => { g with frozen := some code } }
    s.record (s.rootRing (dieOf c)) 0x02 (dieOf c) (some c) (some 63) (faultBody f code lane 0 0 0 ctx false)

/-- Freeze a group with a code (R287): it issues nothing further, and a freeze record names the lane and instruction. A
group already frozen keeps its code and record. In slot 63 it is the core's agent that freezes (R371). -/
def State.freezeGroup (s : State) (c slot lane : Nat) (f : FaultRec) (code : Code) : State :=
  if slot = 63 then s.stopAgent c lane f code
  else if (s.group c slot).frozen.isSome then s
  else (s.modGroup c slot fun g => { g with frozen := some code }).groupRecord 0x02 c slot lane f code

/-- A lane takes a fault (R283): its fault record is written; it enters its handler with the trap registers of Table 17-4
and the resume address given, or its group is frozen, with code DOUBLE when it was in trap mode. An agent has no handler: it is frozen
(R371). -/
def State.takeFault (s : State) (c slot lane : Nat) (f : FaultRec) (resume : W64) : State :=
  let g := s.group c slot
  let l := g.lane lane
  let s := s.groupRecord 0x01 c slot lane f f.code
  if l.trap then s.freezeGroup c slot lane f cDOUBLE
  else if slot = 63 || s.trapAddr g = 0 then s.freezeGroup c slot lane f f.code
  else s.modLane c slot lane fun l => { l with
    trap := true, tpc := s.trapAddr g, wait := .none, parked := none,
    tcause := tcauseOf f lane, taddr := f.addr, tpcr := f.pc, tseq := f.seq, tret := resume }

/-- The return of R285 and R348: the lane leaves trap mode and continues at its tret; with wsup set, its first execution
there skips its watch checks, and wsup is cleared. -/
def Lane.leaveTrap (l : Lane) : Lane :=
  { l with
    trap := false, pc := l.tret, wait := .none,
    wskip := if l.tcause.getLsbD 15 then some l.tret else l.wskip,
    tcause := l.tcause &&& 0xFFFF_7FFF }

/-- A precise fault of a lane's own instruction: the lane stands at the instruction, which it re-executes (Table 17-5). -/
def State.precise (s : State) (c slot lane : Nat) (pc : W64) (f : FaultRec) : State :=
  (s.modLane c slot lane fun l => l.setCur pc).takeFault c slot lane { f with pc := pc } pc

/-- A fault that firmware serves parks the lane at the instruction (R48). -/
def State.park (s : State) (c slot lane : Nat) (pc : W64) (f : FaultRec) : State :=
  s.modLane c slot lane fun l =>
    let l := l.setCur pc
    { l with parked := some { f with pc := pc } }

/-- A fault delivered to a group by an engine or a remote peer: to the lane, or where it has exited to the lowest lane that
has not; a draining group only has it recorded against its context (R237, R56). -/
def State.deliver (s : State) (c slot : Nat) (d : Deliv) : State :=
  let g := s.group c slot
  if g.draining then s.groupRecord 0x01 c slot d.lane d.f d.f.code
  else
    let lane := if (g.lane d.lane).exited then (places (fun (l : Lane) => !l.exited) g.lanes).headD d.lane else d.lane
    s.modGroup c slot fun g => { g with deliv := g.deliv ++ [{ d with lane := lane }] }

/-- The place in a group's list of the first fault that can be delivered now: its lane is at an instruction boundary, which a late
lane reaches with its reply and a lane in BWAIT with the phase (R237, R49, R252). DESIGN CHOICE: R237 does not say when a lane that waits
in BWAIT is at a boundary; the model holds its fault until the phase ends, and gives it to any other waiting lane at once (log 81). -/
def Group.nextDeliv (g : Group) : Option Nat :=
  (places (fun (d : Deliv) => g.draining || ((g.lane d.lane).late.isNone && match (g.lane d.lane).wait with
    | .bwait _ => false
    | _ => true)) g.deliv).head?

/-! ## Local memory (R168 to R171) -/

/-- Bytes of a core's local memory from an absolute offset. -/
def Core.lbytes (k : Core) (a n : Nat) : List Byte := (rangeFrom a n).map fun i => k.lmem.get 0 i

def State.lwrite (s : State) (c a : Nat) (bs : List Byte) : State :=
  s.modCore c fun k => { k with lmem := putBytes k.lmem a bs }

/-- The absolute local lines that a range of a team's region touches. -/
def teamLines (t : Team) (off n : Nat) : List Nat := blocks 128 (128 * t.lbase + off) n

/-- A range lies inside the team's region. -/
def inRegion (t : Team) (off n : Nat) : Bool := off + n ≤ 128 * t.lines

/-- Every listed line is present (R169). -/
def Core.present (k : Core) (lines : List Nat) : Bool := lines.all fun l => !k.absent.contains l

/-- The lines become absent. -/
def Core.clearPresence (k : Core) (lines : List Nat) : Core :=
  { k with absent := lines.foldr insertNat k.absent }

/-! ## Caches of a core and die (R172, R173, R20) -/

def dropLine (cs : List CLine) (line : Nat) : List CLine := cs.filter fun c => c.line != line

/-- Read replies on their way to a die for a line that it has since read at its home fill no cache (R172, R179). -/
def State.staleReads (s : State) (d line : Nat) : State :=
  s.modDie d fun k => { k with dlReqs := k.dlReqs.map fun r => if r.line == line then { r with stale := true } else r }

/-- A store or atomic that passes the core port removes the line from the core's L1; one that leaves its die also removes
it from the die's remote-data cache (R173, R20). -/
def State.dropNear (s : State) (c line : Nat) : State :=
  let s := s.modCore c fun k => { k with l1 := dropLine k.l1 line }
  if homeDie (128 * line) = dieOf c then s
  else s.modDie (dieOf c) fun k => { k with rdc := dropLine k.rdc line }

/-- Scope order of Table 0-3. -/
def Scope.rank : Scope → Nat
  | .g => 0 | .t => 1 | .c => 2 | .k => 3 | .d => 4 | .p => 5 | .s => 6

/-- A core's L1 loses every line; what was read before for it is held there no more (R173, R183). -/
def State.emptyL1 (s : State) (c : Nat) : State := s.modCore c fun k => { k with l1 := [], acq := s.nextId }

/-- A die's remote-data cache loses every line; what was read before for it is held there no more (R173, R183). -/
def State.emptyRdc (s : State) (d : Nat) : State := s.modDie d fun k => { k with rdc := [], acq := s.nextId }

/-- The removals of an acquire of a scope by a lane of a core (R173). -/
def State.acquire (s : State) (c : Nat) (sc : Scope) : State :=
  let s := if 3 ≤ Scope.rank sc then s.emptyL1 c else s
  if 4 ≤ Scope.rank sc then s.emptyRdc (dieOf c) else s

end Sys2Proof.Machine
end

