-- ==== Sys2Proof/Machine/Operands.lean ====
section
/-! DEFINITION. The issue of an instruction to the lanes of a PC set: guard, operands, named constants, immediates,
destinations and hints (05_encoding.md). -/

namespace Sys2Proof.Machine

/-- What an issue reads before anything of its instruction takes effect (R44, R118). -/
structure Env where
  core : Nat
  slot : Nat
  /-- the group, with the shared registers of the snapshot for a secondary set -/
  g : Group
  team : Team
  words : List W32
  /-- lanes of the PC set, and those of them that are guard-true (R64) -/
  lanes : List Nat
  active : List Nat
  pc : W64

/-- The guard of a header is true for a lane (R64). -/
def Hdr.holds (h : Hdr) (l : Lane) : Bool := l.pred h.gpred.val != h.gneg

/-- The group as an issue reads it: a secondary set reads the shared registers as they stood before the primary (R44). -/
def State.issuing (s : State) : Group :=
  let g := s.group s.iss.core s.iss.slot
  match s.iss.snap with
  | some x => { g with s := x.s, gen := x.gen, watch := x.watch }
  | none => g

/-- What the present issue reads, for a guard. -/
def State.env (s : State) (h : Hdr) : Env :=
  let g := s.issuing
  { core := s.iss.core, slot := s.iss.slot, g := g, team := s.teamOf s.iss.core s.iss.slot,
    words := match s.launch g.ctx g.launch with | some l => l.words | none => [],
    lanes := s.iss.lanes, active := s.iss.lanes.filter fun l => Hdr.holds h (g.lane l), pc := s.iss.pc }

/-- Word n of the launch packet (Table 17-2). -/
def Env.word (e : Env) (n : Nat) : Nat := (e.words[n]?.getD 0).toNat

/-- Grid extents Tx, Ty, Tz. -/
def Env.tx (e : Env) : Nat := e.word 4
def Env.ty (e : Env) : Nat := e.word 5
def Env.tz (e : Env) : Nat := e.word 6

/-- The lane-in-team index (Table 3-1). -/
def Env.laneInTeam (e : Env) (l : Nat) : Nat := 32 * e.g.grp + l

/-- The value of a named constant for a lane (Table 5-3). -/
def Env.konst (e : Env) (l : Nat) : Konst → W32
  | .zero => 0
  | .one => 1
  | .lane => BitVec.ofNat 32 (e.laneInTeam l)
  | .glane => BitVec.ofNat 32 l
  | .group => BitVec.ofNat 32 e.g.grp
  | .tx => BitVec.ofNat 32 (e.team.lin % e.tx)
  | .ty => BitVec.ofNat 32 (e.team.lin / e.tx % e.ty)
  | .tz => BitVec.ofNat 32 (e.team.lin / (e.tx * e.ty))
  | .tlin => BitVec.ofNat 32 e.team.lin
  | .ntx => BitVec.ofNat 32 e.tx
  | .nty => BitVec.ofNat 32 e.ty
  | .ntz => BitVec.ofNat 32 e.tz
  | .ngroup => BitVec.ofNat 32 (e.team.np + e.team.nc)
  | .nprod => BitVec.ofNat 32 e.team.np
  | .role => if e.g.consumer then 1 else 0
  | .coreno => BitVec.ofNat 32 e.core
  | .ones => 0xFFFFFFFF
  | .f1 => 0x3F800000
  | .fhalf => 0x3F000000
  | .f2 => 0x40000000
  | .fm1 => 0xBF800000
  | .active => maskOf 32 e.active

/-- One 32-bit register or named constant of a lane. -/
def Env.src32 (e : Env) (l : Nat) : Opnd → W32
  | .v r => (e.g.lane l).rv r.val
  | .s r => e.g.rs r.val
  | .k c => e.konst l c

/-- Register k of the registers that an operand names. -/
def Env.srcAt (e : Env) (l : Nat) (o : Opnd) (k : Nat) : W32 :=
  match o with
  | .v r => (e.g.lane l).rv (r.val + k)
  | .s r => e.g.rs (r.val + k)
  | .k c => e.konst l c

/-- n registers of an operand, lowest first. -/
def Env.srcN (e : Env) (l : Nat) (o : Opnd) (n : Nat) : List W32 := (upto n).map (e.srcAt l o)

/-- A 64-bit operand: a register pair, or a named constant extended as an immediate is (R67). -/
def Env.src64 (e : Env) (l : Nat) (signed : Bool) : Opnd → W64
  | .k c => if signed then (e.konst l c).signExtend 64 else (e.konst l c).zeroExtend 64
  | o => pairVal (e.srcAt l o 0) (e.srcAt l o 1)

/-- A source of the type's width; a 32-bit one fills the low half. -/
def Env.src (e : Env) (l : Nat) (ty : Ty) (o : Opnd) : W64 :=
  if ty.is64 then e.src64 l (ty == .i64) o else (e.src32 l o).zeroExtend 64

/-- An immediate as an operand's bit pattern (R73). -/
def immVal (ty : Ty) (x : W32) : W64 :=
  match ty with
  | .i64 => x.signExtend 64
  | .b64 | .n64 => x.zeroExtend 64
  | _ => if ty.width < 32 then BitVec.ofNat 64 (x.toNat % 2 ^ ty.width) else x.zeroExtend 64

/-- Operand B of the type's width: a register, a named constant or the immediate. -/
def Env.srcB (e : Env) (l : Nat) (f : VF) : W64 :=
  match f.imm with
  | some x => immVal f.ty x
  | none => e.src l f.ty f.b

/-- Operand B where the entry takes 32 bits whatever the type: an immediate as it stands. -/
def Env.srcB32 (e : Env) (l : Nat) (f : VF) : W32 :=
  match f.imm with
  | some x => x
  | none => e.src32 l f.b

/-! ## Writing results -/

/-- The registers of a value: one, or a pair with the low half first (R69). -/
def valRegs (is64 : Bool) (x : W64) : List W32 := if is64 then [loHalf x, hiHalf x] else [loHalf x]

/-- A result for every active lane: into v registers per lane, or into s registers the value of the lowest active lane
(R70). -/
def State.writeD (s : State) (e : Env) (d : Opnd) (val : Nat → List W32) : State :=
  match d with
  | .v r => e.active.foldl (fun s l => s.modLane e.core e.slot l fun x => x.wvs r.val (val l)) s
  | .s r => match e.active with
    | [] => s
    | l :: _ => s.modGroup e.core e.slot fun g => g.wss r.val (val l)
  | .k _ => s

/-- A predicate written for every active lane; p7 is discarded (R70). -/
def State.writeP (s : State) (e : Env) (p : Nat) (val : Nat → Bool) : State :=
  e.active.foldl (fun s l => s.modLane e.core e.slot l fun x => x.setPred p (val l)) s

/-! ## The issue -/

/-- The interval of a pace code (R65). -/
def paceCycles (p : Nat) : Nat := [0, 1, 2, 3, 4, 6, 8, 12][p]?.getD 0

/-- Every lane of the set advances to PC + 12, leaves the wait at which it stood, and takes the hints of R65; the mark of
R348 is spent. -/
def State.beginIssue (s : State) (h : Hdr) : State :=
  let now := (s.die (dieOf s.iss.core)).cycle
  let s := s.iss.lanes.foldl (fun s l => s.modLane s.iss.core s.iss.slot l fun x =>
    let x := x.setCur (s.iss.pc + 12)
    { x with
      wait := .none, until_ := now + paceCycles h.pace.val,
      wskip := if x.wskip = some s.iss.pc then none else x.wskip }) s
  if h.cede then s.modCore s.iss.core fun k => { k with ceded := some (s.iss.slot, now) } else s

/-- The role's allotment of vector registers (R27); the agent's slot has no allotment of its own (R279). -/
def Group.allot (g : Group) (slot : Nat) : Nat := if slot = 63 then 320 else 8 * g.nunit

/-- A fault raised for every lane of the issuing set, whatever its guard (R86). -/
def State.faultSet (s : State) (c : Code) : State :=
  s.iss.lanes.foldl (fun s l => s.precise s.iss.core s.iss.slot l s.iss.pc { code := c }) s

/-- A precise fault for one lane of the issue. -/
def State.faultLane (s : State) (l : Nat) (f : FaultRec) : State := s.precise s.iss.core s.iss.slot l s.iss.pc f

/-- Lanes of the set stand at the instruction again and wait (the PC set waits). -/
def State.waitLanes (s : State) (ls : List Nat) (w : Wait) : State :=
  ls.foldl (fun s l => s.modLane s.iss.core s.iss.slot l fun x =>
    let x := x.setCur s.iss.pc
    { x with wait := w }) s

end Sys2Proof.Machine
end

