-- ==== Sys2Proof/Machine/Stroke.lean ====
section
/-! DEFINITION. Strokes: forms, the closure table's helpers, split, merge and inking (R29 to R41). -/

namespace Sys2Proof.Machine

/-! ## Forms (R30) -/

/-- A uniform form. -/
def Form.uni (x : W32) : Form := { base := x }

/-- Every coefficient is zero. -/
def Form.isUni (f : Form) : Bool := f.cx == 0 && f.cy == 0 && f.cz == 0 && f.cl == 0

/-- Partwise (Table 3-2). -/
def Form.zip (op : W32 → W32 → W32) (f g : Form) : Form :=
  { base := op f.base g.base, cx := op f.cx g.cx, cy := op f.cy g.cy, cz := op f.cz g.cz, cl := op f.cl g.cl }

/-- Every part changed. -/
def Form.map (op : W32 → W32) (f : Form) : Form :=
  { base := op f.base, cx := op f.cx, cy := op f.cy, cz := op f.cz, cl := op f.cl }

/-- The value at a team and lane, modulo 2^32. -/
def Form.eval (f : Form) (tx ty tz lane : Nat) : W32 :=
  f.base + f.cx * BitVec.ofNat 32 tx + f.cy * BitVec.ofNat 32 ty + f.cz * BitVec.ofNat 32 tz + f.cl * BitVec.ofNat 32 lane

/-- The comparison of an exact difference with zero (R36). -/
def Cmp.ofDiff (c : Cmp) (h : Int) : Bool :=
  match c with
  | .eq => h == 0 | .ne => h != 0 | .lt => h < 0 | .le => h ≤ 0 | .gt => 0 < h | .ge => 0 ≤ h | .num => true | .nan => false

/-- The signed or unsigned value of a 32-bit pattern. -/
def typed (signed : Bool) (x : W32) : Int := if signed then x.toInt else x.toNat

/-- A predicate's value for a lane (R31): the typed comparison of the lane's 32-bit values. -/
def PForm.eval (p : PForm) (tx ty tz lane : Nat) : Bool :=
  match p with
  | .uni b => b
  | .cmp c sg a b => Cmp.ofDiff c (typed sg (a.eval tx ty tz lane) - typed sg (b.eval tx ty tz lane))

/-! ## Boxes -/

/-- The linear team indices of a box, ascending (Table 3-1). -/
def Box.teams (b : Box) (tx ty : Nat) : List Nat :=
  (rangeFrom b.z0 (b.z1 + 1 - b.z0)).flatMap fun z => (rangeFrom b.y0 (b.y1 + 1 - b.y0)).flatMap fun y =>
    (rangeFrom b.x0 (b.x1 + 1 - b.x0)).map fun x => x + tx * (y + ty * z)

/-- First linear team index of a box. -/
def Box.first (b : Box) (tx ty : Nat) : Nat := b.x0 + tx * (b.y0 + ty * b.z0)

/-- A team lies in a box. -/
def Box.has (b : Box) (tx ty lin : Nat) : Bool :=
  let x := lin % tx
  let y := lin / tx % ty
  let z := lin / (tx * ty)
  b.x0 ≤ x && x ≤ b.x1 && b.y0 ≤ y && y ≤ b.y1 && b.z0 ≤ z && z ≤ b.z1

/-- The union of two boxes adjacent along one dimension, where it is a box (R38). -/
def Box.join (a b : Box) : Option Box :=
  let adj := fun (p q r t : Nat) => q + 1 == r || t + 1 == p
  let sx := a.x0 == b.x0 && a.x1 == b.x1
  let sy := a.y0 == b.y0 && a.y1 == b.y1
  let sz := a.z0 == b.z0 && a.z1 == b.z1
  if (sy && sz && adj a.x0 a.x1 b.x0 b.x1) || (sx && sz && adj a.y0 a.y1 b.y0 b.y1)
      || (sx && sy && adj a.z0 a.z1 b.z0 b.z1) then
    some { x0 := Nat.min a.x0 b.x0, x1 := Nat.max a.x1 b.x1, y0 := Nat.min a.y0 b.y0, y1 := Nat.max a.y1 b.y1,
           z0 := Nat.min a.z0 b.z0, z1 := Nat.max a.z1 b.z1 }
  else none

/-! ## Operands of a stroke -/

/-- Word n of the packet of a launch. -/
def State.launchWord (s : State) (ctx num n : Nat) : Nat :=
  match s.launch ctx num with
  | some l => (l.words[n]?.getD 0).toNat
  | none => 0

/-- The form of an operand; none where it has no form in a stroke (R29, R33, Table 5-3). -/
def Stroke.form (st : Stroke) (tx ty : Nat) : Opnd → Option Form
  | .v r => if r.val < 64 then some (st.v.get {} r.val) else none
  | .s r => some (st.s.get {} r.val)
  | .k .zero => some (.uni 0)
  | .k .one => some (.uni 1)
  | .k .lane => some { cl := 1 }
  | .k .tx => some { cx := 1 }
  | .k .ty => some { cy := 1 }
  | .k .tz => some { cz := 1 }
  | .k .tlin => some { cx := 1, cy := BitVec.ofNat 32 tx, cz := BitVec.ofNat 32 (tx * ty) }
  | .k _ => none

/-- Write a form: v64 and above, and an s register with cl ≠ 0, are outside (R30, R33). -/
def Stroke.setForm (st : Stroke) (d : Opnd) (f : Form) : Option Stroke :=
  match d with
  | .v r => if r.val < 64 then some { st with v := SMap.set {} st.v r.val f } else none
  | .s r => if f.cl = 0 then some { st with s := SMap.set {} st.s r.val f } else none
  | .k _ => none

/-- The operand after an operand: the odd register of a pair. -/
def Opnd.next : Opnd → Opnd
  | .v r => .v ⟨(r.val + 1) % 320, Nat.mod_lt _ (by decide)⟩
  | .s r => .s ⟨(r.val + 1) % 64, Nat.mod_lt _ (by decide)⟩
  | .k c => .k c

def Stroke.pform (st : Stroke) (n : Nat) : PForm := if n = 7 then .uni true else st.p.get (.uni false) n

def Stroke.setP (st : Stroke) (n : Nat) (p : PForm) : Stroke :=
  if n = 7 then st else { st with p := SMap.set (.uni false) st.p n p }

/-- A uniform guard's value; none for a compare form. -/
def Stroke.guard (st : Stroke) (h : Hdr) : Option Bool :=
  match st.pform h.gpred.val with
  | .uni b => some (b != h.gneg)
  | .cmp .. => none

/-! ## Ending, inking and merging -/

def State.strokeAt (s : State) (c e : Nat) : Option Stroke := (s.core c).strokes.find e

/-- Two strokes qualify to merge (R38). -/
def mergeable (a b : Stroke) : Option Box :=
  if a.joining && b.joining && a.pc == b.pc && a.v == b.v && a.s == b.s && a.p == b.p then a.box.join b.box else none

/-- Strokes of one chunk and role (R38). -/
def sameKin (a b : Stroke) : Bool :=
  a.ctx == b.ctx && a.launch == b.launch && a.chunk == b.chunk && a.consumer == b.consumer

/-- Entries in ascending order of first linear team index. -/
def kinOrder (tx ty : Nat) (xs : List (Nat × Stroke)) : List (Nat × Stroke) :=
  (sortDedup (xs.map fun x => x.2.box.first tx ty)).filterMap fun k => xs.find? fun x => x.2.box.first tx ty == k

/-- The first pair, in ascending order of the lower first linear index, that merges: the two entries and the union. -/
def firstMerge : List (Nat × Stroke) → Option (Nat × Nat × Box)
  | [] => none
  | (i, a) :: xs =>
    match xs.findSome? fun (j, b) => (mergeable a b).map fun u => (i, j, u) with
    | some r => some r
    | none => firstMerge xs

/-- Merge until no pair qualifies; a merge leaves one stroke fewer, so `fuel` is their number. -/
def mergeAll (tx ty : Nat) (kin : Stroke → Bool) : Nat → SMap Stroke → SMap Stroke
  | 0, m => m
  | fuel + 1, m =>
    match firstMerge (kinOrder tx ty (m.filter fun (_, st) => kin st)) with
    | none => m
    | some (i, j, u) =>
      let lo := Nat.min i j
      mergeAll tx ty kin fuel ((m.erase (Nat.max i j)).modify lo fun st => { st with box := u })

/-- After an arrival, an exit or an inking: merge the waiting strokes of a chunk and role, and where every one of them waits,
those at the lowest JOIN leave it (R38). -/
def State.joinSettle (s : State) (c : Nat) (k : Stroke) : State :=
  let tx := s.launchWord k.ctx k.launch 4
  let ty := s.launchWord k.ctx k.launch 5
  s.modCore c fun core =>
    let m := mergeAll tx ty (sameKin k) 16 core.strokes
    let kin := m.filter fun (_, st) => sameKin k st
    if kin.all fun (_, st) => st.joining then
      match minOf (kin.map fun (_, st) => st.pc.toNat) with
      | none => { core with strokes := m }
      | some pc =>
        { core with strokes := m.map fun (e, st) =>
                      if sameKin k st && st.pc.toNat == pc then (e, { st with joining := false, pc := st.pc + 12 })
                      else (e, st) }
    else { core with strokes := m }

/-- Commit the teams of a range at a PC (R41). -/
def Stroke.ink (st : Stroke) (box : Box) (tx ty : Nat) (pc : W64) : Ink :=
  { ctx := st.ctx, launch := st.launch, chunk := st.chunk, consumer := st.consumer, teams := box.teams tx ty, pc := pc,
    v := st.v, s := st.s, p := st.p }

/-- Ink a whole stroke at a PC (R40, R41). -/
def State.inkStroke (s : State) (c e : Nat) (pc : W64) : State :=
  match s.strokeAt c e with
  | none => s
  | some st =>
    let i := st.ink st.box (s.launchWord st.ctx st.launch 4) (s.launchWord st.ctx st.launch 5) pc
    (s.modCore c fun k => { k with strokes := k.strokes.erase e, inked := k.inked ++ [i] }).joinSettle c st

/-- The bind record of a stroke (Table 17-3). -/
def bindStroke (st : Stroke) : List W32 :=
  [BitVec.ofNat 32 (2 ^ 31 + 2 ^ 30 + (if st.consumer then 2 ^ 29 else 0) + st.ctx % 2 ^ 16)]
    ++ [st.box.x0, st.box.x1, st.box.y0, st.box.y1, st.box.z0, st.box.z1, st.launch].map (BitVec.ofNat 32)

/-- Place a new stroke in the lowest free entry, or ink it at its PC as the seventeenth (R32). Which free entry it takes is the
model's choice (log 67): the lowest, and a sub-stroke's may be the one that its parent left. -/
def State.formStroke (s : State) (c : Nat) (st : Stroke) : State :=
  let free := (upto 16).filter fun e => ((s.core c).strokes.find e).isNone
  match free with
  | e :: _ => s.modCore c fun k => { k with strokes := k.strokes.put e st, table := k.table.put (64 + e) (bindStroke st) }
  | [] =>
    let i := st.ink st.box (s.launchWord st.ctx st.launch 4) (s.launchWord st.ctx st.launch 5) st.pc
    s.modCore c fun k => { k with inked := k.inked ++ [i] }

/-- Groups of a role, as a mask over the groups of the team. -/
def roleMask (np nc : Nat) (consumer : Bool) : BitVec 16 :=
  maskOf 16 ((upto (np + nc)).filter fun g => if consumer then np ≤ g else g < np)

/-- Every group of a team has left draining or will never be released (R54). -/
def Team.finished (t : Team) : Bool := (upto (t.np + t.nc)).all fun g => t.gone.getLsbD g

/-- Teams whose last group has left draining are freed, with their lease or request (R54). -/
def Core.freeTeams (k : Core) : Core :=
  let gone := (k.teams.filter fun (_, t) => t.finished).map Prod.fst
  { k with
    teams := k.teams.filter fun (_, t) => !t.finished
    holder := if k.holder.any gone.contains then none else k.holder
    fifo := k.fifo.filter fun p => !gone.contains p }

/-- A stroke's EXIT retires its whole range (R55): its groups count as exited (R206), and it frees its entry. -/
def State.exitStroke (s : State) (c e : Nat) : State :=
  match s.strokeAt c e with
  | none => s
  | some st =>
    let tx := s.launchWord st.ctx st.launch 4
    let ty := s.launchWord st.ctx st.launch 5
    (s.modCore c fun k => Core.freeTeams { k with
        strokes := k.strokes.erase e,
        exitedRoles := k.exitedRoles ++ [(st.ctx, st.launch, st.consumer, st.box)],
        teams := k.teams.map fun (p, t) =>
          if t.ctx == st.ctx && t.launch == st.launch && st.box.has tx ty t.lin then
            (p, { t with gone := t.gone ||| roleMask t.np t.nc st.consumer })
          else (p, t) }).joinSettle c st

/-! ## Executing an instruction for a stroke (R33) -/

/-- Issue for the stroke unit: `cond` says that the operands meet the closure table, and `body` gives what the instruction does to
the state and the stroke, which stands at PC + 12, or none where it raises a fault. A uniform false guard only advances a stroke whose
operands meet the table; a compare-form guard, operands outside the table, and a fault under a true guard ink the stroke at the
instruction (R33, R34). -/
def State.strokeIssueIf (s : State) (h : Hdr) (cond : State → Stroke → Bool)
    (body : State → Stroke → Option (State × Stroke)) : State :=
  match s.iss.stroke with
  | none => s
  | some e => match s.strokeAt s.iss.core e with
    | none => s
    | some st =>
      let next := { st with pc := s.iss.pc + 12 }
      let ink := s.inkStroke s.iss.core e s.iss.pc
      if cond s next = false then ink
      else match st.guard h with
        | none => ink
        | some false => s.modCore s.iss.core fun k => { k with strokes := k.strokes.put e next }
        | some true => match body s next with
          | none => ink
          | some (s', st') => s'.modCore s.iss.core fun k => { k with strokes := k.strokes.put e st' }

/-- Issue for the stroke unit of an instruction that raises no fault: `body` is none exactly outside the closure table. -/
def State.strokeIssue (s : State) (h : Hdr) (body : State → Stroke → Option (State × Stroke)) : State :=
  s.strokeIssueIf h (fun s st => (body s st).isSome) body

/-- Issue for the stroke unit of an instruction outside the closure table: the whole stroke inks (R40). -/
def State.strokeInk (s : State) : State :=
  match s.iss.stroke with
  | none => s
  | some e => s.inkStroke s.iss.core e s.iss.pc

/-! ## Split (R36, R37) -/

/-- The exact value of a form's part: the base in the compare's type, coefficients signed (R36). -/
structure Exact where
  base : Int
  cx : Int
  cy : Int
  cz : Int
  cl : Int

def Form.exact (f : Form) (signed : Bool) : Exact :=
  ⟨typed signed f.base, f.cx.toInt, f.cy.toInt, f.cz.toInt, f.cl.toInt⟩

def Exact.at (x : Exact) (tx ty tz lane : Nat) : Int := x.base + x.cx * tx + x.cy * ty + x.cz * tz + x.cl * lane

def Exact.sub (x y : Exact) : Exact := ⟨x.base - y.base, x.cx - y.cx, x.cy - y.cy, x.cz - y.cz, x.cl - y.cl⟩

/-- First lane-in-team index and number of lanes of a role. -/
def roleLanes (np nc : Nat) (consumer : Bool) : Nat × Nat := if consumer then (32 * np, 32 * nc) else (0, 32 * np)

/-- The least and greatest value of c·i for i between two bounds. -/
def span (c : Int) (lo hi : Nat) : Int × Int := if 0 ≤ c then (c * lo, c * hi) else (c * hi, c * lo)

/-- A form's exact value stays in the range of the compare's type over a box and the role's lanes (R36). -/
def inTypeRange (x : Exact) (signed : Bool) (b : Box) (l0 l1 : Nat) : Bool :=
  let a := span x.cx b.x0 b.x1
  let c := span x.cy b.y0 b.y1
  let d := span x.cz b.z0 b.z1
  let e := span x.cl l0 l1
  let lo := x.base + a.1 + c.1 + d.1 + e.1
  let hi := x.base + a.2 + c.2 + d.2 + e.2
  if signed then -(2 ^ 31) ≤ lo && hi ≤ 2 ^ 31 - 1 else 0 ≤ lo && hi ≤ 2 ^ 32 - 1

/-- The class of a team (R36): some true when every lane branches, some false when none does, none when mixed. -/
def classOf (holds : Nat → Bool) (lanes : List Nat) : Option Bool :=
  if lanes.all holds then some true else if lanes.all fun l => !holds l then some false else none

/-- The coordinates listed rise without a gap. -/
def contiguous : List Nat → Bool
  | a :: b :: xs => a + 1 == b && contiguous (b :: xs)
  | _ => true

/-- What a BRA with a compare-form guard does to a stroke (R37). -/
inductive Split where
  | ink
  | whole (branch : Bool)
  | parts (yes no mixed : Option Box)

/-- A box with one dimension cut to an interval; d = 0, 1, 2 for x, y, z. -/
def Box.cut (b : Box) (d : Nat) (xs : List Nat) : Option Box :=
  match xs.head?, xs.getLast? with
  | some lo, some hi => some (match d with
    | 0 => { b with x0 := lo, x1 := hi }
    | 1 => { b with y0 := lo, y1 := hi }
    | _ => { b with z0 := lo, z1 := hi })
  | _, _ => none

/-- Classify the teams of a stroke under a compare-form guard (R36, R37). -/
def splitOf (b : Box) (c : Cmp) (signed neg : Bool) (fa fb : Form) (l0 nl : Nat) : Split :=
  let xa := fa.exact signed
  let xb := fb.exact signed
  let h := xa.sub xb
  let lanes := rangeFrom l0 nl
  if !inTypeRange xa signed b l0 (l0 + nl - 1) || !inTypeRange xb signed b l0 (l0 + nl - 1) then .ink
  else
    let nz := [h.cx != 0, h.cy != 0, h.cz != 0]
    let holds := fun (x y z l : Nat) => Cmp.ofDiff c (h.at x y z l) != neg
    match places (fun (x : Bool) => x) nz with
    | [] => match classOf (holds b.x0 b.y0 b.z0) lanes with
      | some t => .whole t
      | none => .ink
    | [d] =>
      let (lo, hi) := match d with | 0 => (b.x0, b.x1) | 1 => (b.y0, b.y1) | _ => (b.z0, b.z1)
      let cls := fun (k : Nat) => match d with
        | 0 => classOf (holds k b.y0 b.z0) lanes
        | 1 => classOf (holds b.x0 k b.z0) lanes
        | _ => classOf (holds b.x0 b.y0 k) lanes
      let ks := rangeFrom lo (hi + 1 - lo)
      let yes := ks.filter fun k => cls k == some true
      let no := ks.filter fun k => cls k == some false
      let mixed := ks.filter fun k => cls k == none
      if contiguous yes && contiguous no && contiguous mixed then .parts (b.cut d yes) (b.cut d no) (b.cut d mixed)
      else .ink
    | _ => .ink

/-- A BRA with a compare-form guard in a stroke (R36, R37). -/
def State.strokeSplit (s : State) (e : Nat) (st : Stroke) (h : Hdr) (target : W64) : State :=
  let c := s.iss.core
  let tx := s.launchWord st.ctx st.launch 4
  let ty := s.launchWord st.ctx st.launch 5
  let w2 := s.launchWord st.ctx st.launch 2
  let (l0, nl) := roleLanes (natBits w2 5 2) (natBits w2 10 6) st.consumer
  match st.pform h.gpred.val with
  | .uni _ => s
  | .cmp cmp sg fa fb => match splitOf st.box cmp sg h.gneg fa fb l0 nl with
    | .ink => s.inkStroke c e s.iss.pc
    | .whole t =>
      s.modCore c fun k => { k with strokes := k.strokes.put e { st with pc := if t then target else s.iss.pc + 12 } }
    | .parts yes no mixed =>
      let s1 := s.modCore c fun k => { k with strokes := k.strokes.erase e }
      let subs := (match yes with | some b => [{ st with box := b, pc := target }] | none => [])
        ++ (match no with | some b => [{ st with box := b, pc := s.iss.pc + 12 }] | none => [])
      let ordered := (sortDedup (subs.map fun x => x.box.first tx ty)).filterMap fun k =>
        subs.find? fun x => x.box.first tx ty == k
      let s2 := match mixed with
        | some b => s1.modCore c fun k => { k with inked := k.inked ++ [st.ink b tx ty s.iss.pc] }
        | none => s1
      (ordered.foldl (fun s x => s.formStroke c x) s2).joinSettle c st

end Sys2Proof.Machine
end

