-- ==== Sys2Proof/Machine/Issue.lean ====
section
/-! DEFINITION. How the meaning of a word is put together: for a stroke the closure table or inking, for a PC set the check of
the allotment, the advance and hints, and the body. -/

namespace Sys2Proof.Machine

/-- What an instruction does to a stroke: the state and the stroke after, or none where it inks. -/
abbrev Closed := State → Stroke → Option (State × Stroke)

/-- Issue to the lanes of the present PC set: a register at or above the role's allotment is ILLEGAL for every lane (R27,
R86); else `body`, on the state in which every lane has advanced. -/
def State.groupIssue (s : State) (i : Instr) (h : Hdr) (body : Env → State → State) : State :=
  if i.within ((s.group s.iss.core s.iss.slot).allot s.iss.slot) then body (s.env h) (s.beginIssue h)
  else s.faultSet cILLEGAL

/-- The allotment of a stroke's role (Table 17-2). -/
def State.strokeAllot (s : State) : Nat :=
  match s.iss.stroke with
  | none => 0
  | some e => match s.strokeAt s.iss.core e with
    | none => 0
    | some st =>
      let w := s.launchWord st.ctx st.launch 3
      8 * (if st.consumer then natBits w 18 13 else natBits w 12 7)

/-- The meaning of a word that may raise a fault in a stroke: `cond` is what Table 3-2 asks of its operands, `closed` what it does. -/
def State.issueIf (s : State) (i : Instr) (h : Hdr) (cond : State → Stroke → Bool) (closed : Closed)
    (body : Env → State → State) : Res :=
  .next (match s.iss.stroke with
    | some _ => if i.within s.strokeAllot then s.strokeIssueIf h cond closed else s.strokeInk
    | none => s.groupIssue i h body)

/-- The meaning of a word: `closed` is what it does in a stroke, none exactly outside Table 3-2. -/
def State.issue (s : State) (i : Instr) (h : Hdr) (closed : Closed) (body : Env → State → State) : Res :=
  s.issueIf i h (fun s st => (closed s st).isSome) closed body

/-- The closure of an instruction outside Table 3-2. -/
def inks : Closed := fun _ _ => none

/-- The meaning of a word outside Table 3-2. -/
def State.issueInk (s : State) (i : Instr) (h : Hdr) (body : Env → State → State) : Res := s.issue i h inks body

/-- The meaning of an instruction that the nib lane executes once per issue (R52, R64, R233, R327): `body` with the nib lane,
when its guard is true. -/
def State.nibIssue (s : State) (i : Instr) (h : Hdr) (body : Env → Nat → State → State) : Res :=
  s.issueInk i h fun e s =>
    match e.lanes with
    | [] => s
    | n :: _ => if e.active.head? = some n then body e n s else s

/-- A result of the nib lane: to every participating lane of the set for v registers, once for s registers (R233, R327). -/
def State.nibD (s : State) (e : Env) (d : Opnd) (val : List W32) : State := s.writeD e d fun _ => val

/-- The extents Tx and Ty of a stroke's launch. -/
def Stroke.tx (st : Stroke) (s : State) : Nat := s.launchWord st.ctx st.launch 4
def Stroke.ty (st : Stroke) (s : State) : Nat := s.launchWord st.ctx st.launch 5

/-- The type, sat and mod conditions of R123 for a 32-bit type. -/
def closable (f : VF) : Bool := (f.ty == .i32 || f.ty == .n32 || f.ty == .b32) && !f.sat && f.mod == 0

/-- The form of operand B: an immediate is uniform (R123). -/
def Stroke.formB (st : Stroke) (s : State) (f : VF) : Option Form :=
  match f.imm with
  | some x => some (.uni x)
  | none => st.form (st.tx s) (st.ty s) f.b

/-- A two-operand instruction of Table 3-2 on forms. -/
def closedBin (f : VF) (op : Form → Form → Option Form) : Closed := fun s st =>
  if !closable f then none
  else match st.form (st.tx s) (st.ty s) f.a, st.formB s f with
    | some a, some b => match op a b with
      | some r => (st.setForm f.d r).map fun st => (s, st)
      | none => none
    | _, _ => none

end Sys2Proof.Machine
end

