-- ==== Sys2Proof/Machine/Links.lean ====
section
/-! DEFINITION. Die-link streams: flits, credits, replay, and the packets they carry (R295 to R301). -/

namespace Sys2Proof.Machine

/-! ## Streams -/

/-- The key of a stream in the state. -/
def StreamId.key (t : StreamId) : Nat := ((t.lo * 8 + t.hi) * 2 + t.module) * 2 + (if t.fromHi then 1 else 0)

/-- The die that sends on a stream, and the one that receives. -/
def StreamId.src (t : StreamId) : Nat := if t.fromHi then t.hi else t.lo
def StreamId.dst (t : StreamId) : Nat := if t.fromHi then t.lo else t.hi

/-- The stream of the same module in the other direction. -/
def StreamId.back (t : StreamId) : StreamId := { t with fromHi := !t.fromHi }

def State.stream (s : State) (t : StreamId) : Stream := s.streams.get {} (StreamId.key t)
def State.modStream (s : State) (t : StreamId) (f : Stream → Stream) : State :=
  { s with streams := s.streams.put (StreamId.key t) (f (s.stream t)) }
def State.modModule (s : State) (t : StreamId) (f : Module → Module) : State :=
  { s with modules := s.modules.put (moduleKey t.lo t.hi t.module) (f (s.module t)) }

/-- The form has the link (R1): both dies exist and differ. -/
def State.hasLink (s : State) (t : StreamId) : Bool := t.lo < t.hi && t.hi < s.dieCount && t.module < 2

/-- The seq of the last data flit received in order, by the receiver of a stream (Table 19-1). -/
def Stream.ackNo (x : Stream) : Nat := (x.exp + 4095) % 4096

/-- Put a flit on a stream's wire with the sender's current ack and freed slots, which it reports (R296). -/
def State.sendFlit (s : State) (t : StreamId) (kind : BitVec 4) (seq : Nat) (nak : Bool) (slots : List (BitVec 128)) :
    State :=
  let b := s.stream (StreamId.back t)
  let fl : Flit := { kind := kind, seq := seq, ack := b.ackNo, nak := nak, cred := Nat.min b.freed 255, slots := slots }
  (s.modStream t fun x => { x with wire := x.wire ++ [fl] }).modStream (StreamId.back t)
    fun x => { x with freed := x.freed - Nat.min x.freed 255, ackAt := none }

/-- Send what waits on a stream: data flits of up to 15 slots, never a slot without a credit, and none while the replay buffer
is full (R296, R297) or the module retrains or is down (R298). `fuel` bounds the flits. -/
def State.pumpN (t : StreamId) : Nat → State → State
  | 0, s => s
  | fuel + 1, s =>
    let x := s.stream t
    let m := s.module t
    let k := Nat.min 15 (Nat.min x.waiting.length x.credits)
    if k = 0 || 64 ≤ x.replay.length || m.retrain.isSome || m.width == .down then s
    else
      let slots := x.waiting.take k
      let now := (s.die (StreamId.src t)).cycle
      let s := s.modStream t fun x => { x with
        seq := (x.seq + 1) % 4096, waiting := x.waiting.drop k, credits := x.credits - k,
        replay := x.replay ++ [{ seq := x.seq, slots := slots, replays := 0, at_ := now }] }
      State.pumpN t fuel (s.sendFlit t 1 x.seq false slots)

def State.pump (s : State) (t : StreamId) : State := State.pumpN t 64 s

/-! ## Flits on the wire (R295, Table 19-1) -/

/-- One bit of the reflected CRC-32C division. -/
def crcBit (c : W32) : W32 := (c >>> 1) ^^^ (if c.getLsbD 0 then 0x82F6_3B78 else 0)

/-- One byte of it. -/
def crcByte (c : W32) (b : Byte) : W32 := (upto 8).foldl (fun c _ => crcBit c) (c ^^^ b.zeroExtend 32)

/-- CRC-32C: polynomial 0x1EDC_6F41, reflected, initial value and final XOR 0xFFFF_FFFF. -/
def crc32c (bs : List Byte) : W32 := ~~~(bs.foldl crcByte 0xFFFF_FFFF)

/-- The 64-bit header of a flit. -/
def Flit.header (f : Flit) : BitVec 64 :=
  f.kind ++ BitVec.ofNat 12 f.seq ++ BitVec.ofNat 12 f.ack ++ BitVec.ofBool f.nak ++ BitVec.ofNat 8 f.cred ++ (0 : BitVec 27)

/-- Bytes 0 to 251 of a flit: its header, 15 slots of payload, those that it does not use zero (log 77), and four
zero bytes. -/
def Flit.body (f : Flit) : List Byte :=
  bytesOf 8 f.header.toNat ++ padTo 240 (f.slots.flatMap fun x => bytesOf 16 x.toNat) ++ bytesOf 4 0

/-- The 256 bytes of a flit. -/
def Flit.wire (f : Flit) : List Byte := f.body ++ bytesOf 4 (crc32c f.body).toNat

/-- A flit of 256 bytes as it is received, with all 15 slots of a data flit: none where it is damaged or of a reserved kind, or a byte or
bit that Table 19-1 has zero is not (R296). -/
def Flit.ofWire (bs : List Byte) : Option Flit :=
  let h := BitVec.ofNat 64 (ofBytes (bs.take 8))
  let n := fun (lo len : Nat) => (field h lo len).toNat
  if bs.length != 256 || bs.drop 252 != bytesOf 4 (crc32c (bs.take 252)).toNat || 2 < n 60 4 || n 0 27 != 0
      || (bs.drop 248).take 4 != bytesOf 4 0 || (n 60 4 != 1 && (n 48 12 != 0 || (bs.drop 8).take 240 != padTo 240 [])) then none
  else
    some { kind := field h 60 4, seq := n 48 12, ack := n 36 12, nak := h.getLsbD 35, cred := n 27 8,
           slots := if n 60 4 = 1 then (chunksOf 16 15 ((bs.drop 8).take 240)).map fun c => BitVec.ofNat 128 (ofBytes c) else [] }

/-! ## Packets (R299, Table 19-3) -/

/-- A die-link packet header. -/
structure Pkt where
  op : Nat
  rid : Nat := 0
  src : Nat
  dst : Nat
  len : Nat := 0
  atype : Nat := 0
  aop : Nat := 0
  scope : Scope := .g
  order : Order := .relaxed
  tag : BitVec 4 := 0
  ebf : Bool := false
  policy : Policy := .normal
  code : BitVec 8 := 0
  ctx : Nat := 0
  addr : Nat := 0

/-- The header slot. -/
def Pkt.slot (p : Pkt) : BitVec 128 :=
  BitVec.ofNat 8 p.op ++ BitVec.ofNat 16 p.rid ++ BitVec.ofNat 3 p.src ++ BitVec.ofNat 3 p.dst ++ BitVec.ofNat 5 p.len
    ++ BitVec.ofNat 5 p.atype ++ BitVec.ofNat 4 p.aop ++ p.scope.code ++ p.order.code ++ p.tag ++ BitVec.ofBool p.ebf
    ++ p.policy.code ++ p.code ++ BitVec.ofNat 16 p.ctx ++ (0 : BitVec 8) ++ BitVec.ofNat 40 p.addr

/-- The header of a slot. -/
def Pkt.ofSlot (x : BitVec 128) : Pkt :=
  let n := fun (lo len : Nat) => (field x lo len).toNat
  { op := n 120 8, rid := n 104 16, src := n 101 3, dst := n 98 3, len := n 93 5, atype := n 88 5, aop := n 84 4,
    scope := (Scope.ofCode (n 81 3)).getD .g, order := Order.ofCode (field x 79 2), tag := field x 75 4,
    ebf := x.getLsbD 74, policy := Policy.ofCode (field x 72 2), code := field x 64 8, ctx := n 48 16, addr := n 0 40 }

/-- Bytes in 16-byte slots, the last padded with zeros. -/
def slotsOf (bs : List Byte) : List (BitVec 128) :=
  (chunksOf 16 (bs.length / 16 + 1) bs).map fun c => BitVec.ofNat 128 (ofBytes c)

/-- The bytes of slots. -/
def slotBytes (xs : List (BitVec 128)) : List Byte := xs.flatMap fun x => bytesOf 16 x.toNat

/-- A die sends a packet on a module of the link to its destination, or none when the link is down. -/
def State.sendPacket (s : State) (sender m : Nat) (p : Pkt) (data : List (BitVec 128)) : Option State :=
  (s.linkModule sender p.dst m).map fun t =>
    (s.modStream t fun x => { x with waiting := x.waiting ++ ({ p with len := data.length }.slot :: data) }).pump t

/-- The next request identifier from a die to another (R301). -/
def State.nextRid (s : State) (src dst : Nat) : Nat × State :=
  let r := (s.die src).rids.get 0 dst
  (r, s.modDie src fun d => { d with rids := d.rids.put dst ((r + 1) % 65536) })

/-- Send a request to the home die of an address, on the module of address bit 7, with what it is for (R299, R301); none when
the link is down. -/
def State.request (s : State) (src : Nat) (for_ : DlFor) (p : Pkt) (data : List (BitVec 128)) : Option (Nat × State) :=
  let dst := homeDie p.addr
  let (rid, s) := s.nextRid src dst
  match s.sendPacket src (p.addr / 128 % 2) { p with rid := rid, src := src, dst := dst } data with
  | none => none
  | some s => some (rid, s.modDie src fun d => { d with
      dlReqs := d.dlReqs ++ [{ dst := dst, rid := rid, for_ := for_, line := p.addr / 128 }] })

end Sys2Proof.Machine
end

