-- ==== Sys2Proof/Machine/Mem.lean ====
section
/-! DEFINITION. Checks of an access, watch matching, the home cache's part in an access, store queues, outstanding loads and
the waits of the ordering rules (R158 to R197, R360, R361). -/

namespace Sys2Proof.Machine

/-! ## Watch matching (R351, R360, R361) -/

/-- The kinds of Table 21-10. -/
inductive AKind where
  | read | write | atomic
  deriving DecidableEq, Repr

def AKind.bit : AKind → Nat
  | .read => 4
  | .write => 5
  | .atomic => 6

/-- The first byte of a watch register's range. -/
def watchBase (w : WatchReg) (loc : Bool) : Nat := if loc then (loHalf w.base).toNat else (untag w.base).toNat

/-- A register that is valid and enabled for the kind touches a range of untagged addresses or local offsets. -/
def watchHits (w : WatchReg) (k : AKind) (eng loc : Bool) (a n : Nat) : Bool :=
  w.ctl.getLsbD 31 && w.ctl.getLsbD k.bit && (!eng || w.ctl.getLsbD 7) && w.ctl.getLsbD 10 == loc
    && w.len != 0 && a < watchBase w loc + w.len.toNat && watchBase w loc < a + n

/-- Of matches, each a register number and the offset of the first byte matched, the one that is reported (R361). -/
def lowestHit (xs : List (Nat × Nat)) : Option (Nat × Nat) :=
  match minOf (xs.map Prod.fst) with
  | some n => xs.find? fun x => x.1 == n
  | none => none

/-- The registers of a list that match under a scope test. -/
def watchIn (regs : List WatchReg) (k : AKind) (eng loc : Bool) (a n : Nat) (scope : WatchReg → Bool) : List (Nat × Nat) :=
  (places (fun w => watchHits w k eng loc a n && scope w) regs).map fun i =>
    (i, watchBase (regs[i]?.getD ⟨0, 0, 0, 0⟩) loc - a)

/-- The watch registers that an access by a lane of a group matches: the group's own, as `own`, and those of team scope of the
other groups of the team at a place. -/
def State.watchTeam (s : State) (c slot : Nat) (place : Option Nat) (own : List WatchReg) (lane : Nat) (k : AKind) (eng loc : Bool)
    (a n : Nat) : List (Nat × Nat) :=
  let scopeOf := fun (w : WatchReg) => (field w.ctl 8 2).toNat
  watchIn own k eng loc a n (fun w => (scopeOf w == 0 && w.lanes.getLsbD lane) || scopeOf w == 1 || scopeOf w == 2)
    ++ ((s.core c).groups.filter fun (j, g) => j != slot && place.isSome && g.place == place).flatMap fun (_, g) =>
      watchIn g.watch k eng loc a n fun w => scopeOf w == 2

/-- The same for a group in its slot. -/
def State.watchGroup (s : State) (c slot : Nat) (own : List WatchReg) (lane : Nat) (k : AKind) (eng loc : Bool)
    (a n : Nat) : List (Nat × Nat) := s.watchTeam c slot (s.group c slot).place own lane k eng loc a n

/-- The package watch table's entries of the homing die that an access of a context matches (R361). -/
def State.watchTable (s : State) (ctx : Nat) (k : AKind) (eng : Bool) (pa n : Nat) : List WatchEnt :=
  (s.die (homeDie pa)).watches.filter fun w => w.ctx == ctx && w.ctl.getLsbD k.bit && (!eng || w.ctl.getLsbD 7)
    && w.len != 0 && pa < w.base + w.len && w.base < pa + n

/-! ## Loads at the home cache (R172, R175, R176) -/

/-- A load of n bytes at its home, for an instruction that covers a block of the line (R172, R175, R176). -/
def State.homeLoadIn (s : State) (pa n : Nat) (b : Nat × Nat) (po : Policy) : State :=
  let (s, ev) := s.fetchIn pa n b po
  s.postEvents ev

/-- A load that a farther level serves removes the line from the nearer caches of the core and die (R172). -/
def State.serveFarther (s : State) (c line : Nat) : State :=
  let s := s.modCore c fun k => { k with l1 := dropLine k.l1 line }
  s.modDie (dieOf c) fun k => { k with rdc := dropLine k.rdc line }

/-- A load that reads a home at once, for a core and the die of its engine: the line leaves their nearer caches, and no older reply on
its way brings it back (R172, R179). -/
def State.readAtHome (s : State) (c d line : Nat) : State :=
  (((s.serveFarther c line).modDie d fun k => { k with rdc := dropLine k.rdc line }).staleReads (dieOf c) line).staleReads d line

/-- A load at its home that no other access of its instruction extends. -/
def State.homeLoad (s : State) (pa n : Nat) (po : Policy) : State :=
  let lo := pa / 32 * 32
  s.homeLoadIn pa n (if n ≤ 128 - pa % 128 then coverBlock pa (pa + Nat.max n 1) else (lo, (pa + n + 31) / 32 * 32 - lo)) po

/-! ## Translation through a core's caches (R163) -/

/-- A core's walk for an address reads its tables: with them the lines leave the nearer caches of the core and die (R163, R172). -/
def State.walked (s : State) (core ctx : Nat) (va : W64) : State :=
  let as := s.walkReads ctx va
  let (s, ev) := State.walkReading (dieOf core) as s
  (as.foldl (fun s a => s.readAtHome core (dieOf core) (a / 128)) s).postEvents ev

/-- Translate through a core's translation caches, filling them from a walk (R163). -/
def State.coreXlate (s : State) (core ctx : Nat) (va : W64) : Except Code (Nat × W64) × State :=
  if !canonical va then (.error cXLATE, s) else
  match (s.core core).leaf ctx va with
  | some e => (.ok (e.pa va, e.pte), s)
  | none => match s.walkAs (dieOf core) ctx va with
    | .error c => (.error c, s.walked core ctx va)
    | .ok (pa, e, lg) => (.ok (pa, e), (s.walked core ctx va).modCore core fun k => k.holdLeaf (leafOf ctx va lg e))

/-- Translate for an engine: leaves that its command still stands under come before the core's caches (R196). -/
def State.heldXlate (s : State) (core ctx : Nat) (old : List TlbEntry) (va : W64) : Except Code (Nat × W64) × State :=
  match (if canonical va then tlbFind old ctx va else none) with
  | some e => (.ok (e.pa va, e.pte), s)
  | none => s.coreXlate core ctx va

/-- A walk for an address waits: for an entry of the die's walker (R163), or for a stack that holds a table (R325). -/
def State.walkWaits (s : State) (core ctx : Nat) (va : W64) : Bool :=
  canonical va && ((s.core core).leaf ctx va).isNone && s.walkerWaits (dieOf core) ctx va

/-! ## Checks of a global access (R12) -/

/-- What an access asks of its address. -/
structure Ask where
  va : W64
  bytes : Nat
  align : Nat := 1
  need : Need
  /-- kind for the watch registers; none for an access that Table 13-4 gives no WATCH -/
  kind : Option AKind := none
  tagck : Bool := false
  ecc : Bool := false
  /-- scope of a load, which names the caches that may serve it -/
  near : Option Scope := none
  /-- entries of the group's store queue, which precede the access in coherence order -/
  own : List StoreReq := []
  /-- the die whose engine makes the access, where it is not the core's -/
  die : Option Nat := none
  /-- leaves under which the engine's command was accepted -/
  old : List TlbEntry := []
  /-- the access is queued, and meets its home later -/
  later : Bool := false

/-- A cached line is held for at most 65,536 cycles (R173). -/
def CLine.live (x : CLine) (now : Nat) : Bool := now < x.filled + Config.lineLife

/-- The nearer cache that serves a load of n bytes and a scope (Table 11-6): the L1, or the remote-data cache for a line homed elsewhere,
where it holds their sectors. -/
def State.nearLine (s : State) (c : Nat) (sc : Scope) (pa n : Nat) (pte : W64) : Option CLine :=
  let d := dieOf c
  let sec := sectorsOf (pa / 128) pa (Nat.max n 1)
  let holds := fun (x : CLine) => x.line == pa / 128 && x.live (s.die d).cycle && x.held &&& sec == sec
  match (if Scope.rank sc ≤ 2 then (s.core c).l1.find? holds else none) with
  | some x => some x
  | none => if Scope.rank sc ≤ 4 && homeDie pa != d && pte.getLsbD 51 then (s.die d).rdc.find? holds else none

/-- The symbol of a byte's granule as a cached line holds it. -/
def CLine.metaAt (x : CLine) (pa : Nat) : BitVec 5 := if pa / 64 % 2 = 0 then x.meta0 else x.meta1

/-- Tag checking is on for the context and the page (R166). -/
def State.tagOn (s : State) (ctx : Nat) (pte : W64) : Bool :=
  pte.getLsbD 50 && match s.context ctx with
    | some c => c.tagEn
    | none => false

/-- A pointer tag matches a memory tag (R166, Table 11-5). -/
def State.tagMatch (s : State) (ctx : Nat) (ptr mem : BitVec 4) : Bool :=
  ptr == mem || (ptr == 0 && match s.context ctx with
    | some c => c.tagAny0
    | none => false)

/-- The tag of a granule after the tag writes that stand in a store queue. -/
def ownTag (own : List StoreReq) (g : Nat) (t : BitVec 4) : BitVec 4 :=
  own.foldl (fun t q => match q.kind with
    | .tag x _ => if q.acc.pa / 64 = g then x else t
    | _ => t) t

/-- An entry rewrites a granule whole, and with it its poison (R167). -/
def StoreReq.renews (q : StoreReq) (g : Nat) : Bool :=
  match q.kind with
  | .tag _ zero => zero && q.acc.pa / 64 == g
  | .store bs => q.acc.pa ≤ 64 * g && 64 * g + 64 ≤ q.acc.pa + bs.length
  | _ => false

/-- Some other access on its way to its home may still change the tag or the poison of a granule: an STTAG, or a store that renews the
granule whole. -/
def State.renewing (s : State) (g : Nat) : Bool :=
  s.cores.any fun (_, k) => k.groups.any fun (_, x) => x.sq.any fun q => q.renews g || match q.kind with
    | .tag _ _ => q.acc.pa / 64 == g
    | _ => false

/-- The checks of R12 on an access whose translation is known, a nearer cache holding its line or not: rights (an agent writes nothing
that only Nopol root writes, R370), tag, watch and data, `watch` giving the match. Tag and data are judged as they stand at the access's
place in its group's order, where its home can be reached and, for a queued access, no tag write or renewal of the granule is on its way;
what it meets later at its home is judged there (R224, log 10). -/
def State.checkAt (s : State) (core ctx : Nat) (agent : Bool) (watch : Option (Nat × Nat)) (q : Ask) (pa : Nat) (pte : W64)
    (near : Option CLine) : Except FaultRec (Nat × W64) × State :=
  let symbol := match near with
    | some x => x.metaAt pa
    | none => s.metaAt pa
  let known := (near.isSome || s.linked (q.die.getD (dieOf core)) (homeDie pa)) && !(q.later && s.renewing (pa / 64))
  if !rightsOk q.va pte q.need agent || (agent && q.need.w && s.rootOnly pa q.bytes) then (.error { code := cPERM, addr := q.va }, s)
  else if q.tagck && s.tagOn ctx pte && known && !s.tagMatch ctx (ptrTag q.va) (ownTag q.own (pa / 64) (tagOf symbol)) then
    (.error { code := cTAG, addr := q.va }, s)
  else match watch with
    | some (n, off) =>
      (.error { code := cWATCH, addr := q.va + BitVec.ofNat 64 off, num := BitVec.ofNat 16 n }, s)
    | none =>
      let poisoned := match near with
        | some _ => poisonOf symbol
        | none => s.bad pa q.bytes
      if q.ecc && known && !(q.own.any fun r => r.renews (pa / 64)) && poisoned then
        (.error { code := cECC, addr := q.va }, if near.isSome then s else s.readArray pa q.bytes)
      else (.ok (pa, pte), s)

/-- The checks of R12 on an access: alignment and translation, then those at the physical address. -/
def State.checkAs (s : State) (core ctx : Nat) (agent : Bool) (watch : Nat → Option (Nat × Nat)) (q : Ask) :
    Except FaultRec (Nat × W64) × State :=
  if q.va.toNat % q.align != 0 then (.error { code := cALIGN, addr := q.va }, s) else
  match s.heldXlate core ctx q.old q.va with
  | (.error c, s) => (.error { code := c, addr := q.va }, s)
  | (.ok (pa, pte), s) => s.checkAt core ctx agent (watch pa) q pa pte (q.near.bind fun sc => s.nearLine core sc pa q.bytes pte)

/-- The step of R12 at which a fault of an access stands. -/
def checkStep (c : Code) : Nat :=
  if c = cALIGN then 0 else if c = cXLATE then 1 else if c = cPERM then 2 else if c = cTAG then 3 else if c = cWATCH then 4
  else if c = cECC || c = cREMOTE || c = cTHERM then 5 else 6

/-- The first of several faults by the order of R12; among those of one step, the first in the order given. -/
def firstFault {α : Type} (code : α → Code) (xs : List α) : Option α :=
  match minOf (xs.map fun x => checkStep (code x)) with
  | some n => xs.find? fun x => checkStep (code x) == n
  | none => none

/-- The watch match of a lane's global access; an execution marked by R348 skips it. -/
def State.laneWatch (s : State) (e : Env) (l : Nat) (q : Ask) (pa : Nat) : Option (Nat × Nat) :=
  match q.kind with
  | none => none
  | some k =>
    if (e.g.lane l).wskip = some e.pc then none
    else lowestHit (s.watchGroup e.core e.slot e.g.watch l k false false (untag q.va).toNat q.bytes
      ++ (s.watchTable e.g.ctx k false pa q.bytes).map fun w => (w.index, w.base - pa))

/-- The checks of a lane's global access, after the entries that stand in its group's store queue. -/
def State.check (s : State) (e : Env) (l : Nat) (q : Ask) : Except FaultRec (Nat × W64) × State :=
  s.checkAs e.core e.g.ctx (e.slot == 63) (s.laneWatch e l q) { q with own := (s.group e.core e.slot).sq }

/-- A lane's access waits for a walk, its address being aligned. -/
def State.checkWaits (s : State) (e : Env) (q : Ask) : Bool :=
  q.va.toNat % q.align == 0 && s.walkWaits e.core e.g.ctx q.va

/-! ## Waiting and faulting lanes -/

/-- Lanes stand at the instruction and wait; what they had not yet spent of R348 remains. -/
def State.waitAt (s : State) (e : Env) (ls : List Nat) (c : Cond) : State :=
  ls.foldl (fun s l => s.modLane e.core e.slot l fun x =>
    let x := x.setCur e.pc
    { x with wait := .cond c, wskip := (e.g.lane l).wskip }) s

/-- Lanes have executed the instruction and wait before their next one. -/
def State.waitNext (s : State) (e : Env) (ls : List Nat) (c : Cond) : State :=
  ls.foldl (fun s l => s.modLane e.core e.slot l fun x => { x with wait := .cond c }) s

/-- A fault of a lane of the issue: an XLATE that firmware serves parks the lane (R48), any other is precise (R215). -/
def State.raise (s : State) (e : Env) (l : Nat) (f : FaultRec) : State :=
  if f.code = cXLATE && s.served e.g.ctx f.addr then
    (s.park e.core e.slot l e.pc f).modLane e.core e.slot l fun x => { x with wskip := (e.g.lane l).wskip }
  else s.precise e.core e.slot l e.pc f

/-! ## At the home cache -/

/-- The sectors that a store of n bytes fills are read from their array (R174): those that it writes in part, but for those that its
instruction's stores cover between them. -/
def State.fillStore (s : State) (pa n : Nat) (full : BitVec 4) : State :=
  (blocks 32 pa n).foldl (fun s k =>
    if (pa ≤ 32 * k && 32 * k + 32 ≤ pa + n) || full.getLsbD (k % 4) then s else s.readArray (32 * k) 32) s

/-- Bytes accepted at their home, for an instruction whose stores cover some sectors of the line between them: other sectors written in
part are filled, and the sectors become dirty (R174, R176, R178). -/
def State.homeStoreIn (s : State) (pa : Nat) (bs : List Byte) (po : Policy) (full : BitVec 4) : State :=
  let s := s.fillStore pa bs.length full
  let s := s.putMem pa bs
  (blocks 128 pa bs.length).foldl (fun s line => s.homeTouch line (sectorsOf line pa bs.length) true po) s

/-- A store at its home that no other access of its instruction extends. -/
def State.homeStore (s : State) (pa : Nat) (bs : List Byte) (po : Policy) : State := s.homeStoreIn pa bs po 0

/-- STTAG at the home: the granule's tag, and with .ZERO its data and poison (R223). -/
def State.homeTag (s : State) (pa : Nat) (t : BitVec 4) (zero : Bool) : State :=
  let g := pa / 64
  let s := if zero then s.homeStore (64 * g) (List.replicate 64 0) .normal else (s.preserve pa).1.postEvents (s.preserve pa).2
  { s with gmeta := SMap.set 0 s.gmeta g ((s.gmeta.get 0 g &&& 0x10) ||| t.zeroExtend 5) }

/-- The new memory value of an atomic operation (R225). -/
def AtomOp.apply (o : AtomOp) (m : W64) : W64 :=
  let b := o.operand
  let t := o.ty
  let int := fun (g : Int → Int → Int) => narrow t false (g (valIn t m) (valIn t b))
  let flt := fun (g : Nat → Nat → Nat) => BitVec.ofNat 64 (g (loHalf m).toNat (loHalf b).toNat)
  let elem := if o.ebf then fBF16 else fF16
  let pk := fun (x y : Nat) =>
    faddBits elem .rne (x % 65536) (y % 65536) + 65536 * faddBits elem .rne (x / 65536) (y / 65536)
  match o.sub, t with
  | 0, .f32 => flt (faddBits fF32 .rne)
  | 0, .x2 => flt pk
  | 0, _ => int (· + ·)
  | 1, .f32 => flt (fminmax fF32 false)
  | 1, _ => int fun x y => if x ≤ y then x else y
  | 2, .f32 => flt (fminmax fF32 true)
  | 2, _ => int fun x y => if x ≤ y then y else x
  | 3, _ => m &&& b
  | 4, _ => m ||| b
  | 5, _ => m ^^^ b
  | 6, _ => b
  | 7, _ => if (loHalf b).toNat ≤ (loHalf m).toNat then 0 else (loHalf m + 1).zeroExtend 64
  | _, _ => if m = o.compare then b else m

/-- Bytes of an atomic's operand. -/
def AtomOp.bytes (o : AtomOp) : Nat := if o.ty.is64 then 8 else 4

/-- An atomic at its home, one indivisible step, for an instruction that covers a block of the line: the old value, and the state after
(R176, R193). A write to an ordered slot is discarded (R194). -/
def State.homeAtomic (s : State) (pa : Nat) (o : AtomOp) (b : Nat × Nat) (po : Policy) : W64 × State :=
  let n := o.bytes
  let s := s.homeLoadIn pa n b po
  let m := BitVec.ofNat 64 (ofBytes (s.bytes pa n))
  (m, s.homeStore pa (bytesOf n (o.apply m).toNat) po)

/-- The order of a contribution to an ordered slot (R115): linear team index, lane in team, and the lane's own issue order,
which the access's identifier gives. -/
def orderKey (team laneInTeam id : Nat) : Nat := (team * 1024 + laneInTeam) * 2 ^ 64 + id

/-- One contribution to an ordered slot, which the launch's first makes of the location (R194, R228). -/
def State.homeOrdered (s : State) (ctx launch pa key : Nat) (x : W32) : State :=
  let x0 := s.read32 pa
  s.modLaunch ctx launch fun l =>
    if l.slots.any fun o => o.pa == pa then
      { l with slots := l.slots.map fun o => if o.pa == pa then { o with contrib := o.contrib ++ [(key, x)] } else o }
    else { l with slots := l.slots ++ [{ pa := pa, x0 := x0, contrib := [(key, x)] }] }

/-- CCTL.WB at the home (R222). -/
def State.homeWriteback (s : State) (pa : Nat) : State := s.writeback (pa / 128)

/-! ## Caches near the core -/

/-- Some core of a die has a store outstanding across a die link to a line (R20). -/
def State.outstanding (s : State) (d line : Nat) : Bool :=
  s.cores.any fun (c, k) => dieOf c == d && k.groups.any fun (_, g) => g.sq.any fun q =>
    q.acc.pa / 128 == line && q.acc.stage != .queued

/-- A block of a line as memory holds it: the sectors that a fill for it brings in (R176). -/
def State.lineOf (s : State) (d line : Nat) (b : Nat × Nat) : CLine :=
  let b := fillBlock b
  { line := line, data := s.bytes (128 * line) 128, meta0 := s.metaAt (128 * line), meta1 := s.metaAt (128 * line + 64),
    filled := (s.die d).cycle, held := sectorsOf line b.1 b.2 }

/-- Room for one more line in a cache of so many: with none left, the line filled longest ago leaves, first candidates first (R175,
log 13). -/
def makeRoom (cap : Nat) (cs : List CLine) : List CLine :=
  if cs.length < cap then cs
  else match cs.reverse.find? fun x => x.first with
    | some x => dropLine cs x.line
    | none => cs.dropLast

/-- A cache takes a line, the newest first. -/
def holdLine (cap : Nat) (x : CLine) (cs : List CLine) : List CLine := x :: makeRoom cap (dropLine cs x.line)

/-- Fill the nearer caches of a core with a line (R172, R173, R175): none while a store to it is outstanding, and none that an acquire
has emptied since the data were asked for, at the identifier given (R183). -/
def State.fillNear (s : State) (c : Nat) (x : CLine) (l1 rdc : Bool) (po : Policy) (at_ : Nat) : State :=
  let x := { x with first := po == .evictFirst }
  if s.outstanding (dieOf c) x.line then s
  else
    let s := if l1 && (s.core c).acq ≤ at_ then s.modCore c fun k => { k with l1 := holdLine Config.l1Lines x k.l1 } else s
    if rdc && (s.die (dieOf c)).acq ≤ at_ then
      s.modDie (dieOf c) fun k => { k with rdc := holdLine Config.rdcLines x k.rdc }
    else s

/-- Which nearer caches a load allocates in: the L1 for scopes up to .C but for the bypass policy, and the remote-data cache for
scopes up to .D on a page with rdc = 1. The B940-D's never allocates (R21). -/
def State.fills (s : State) (c : Nat) (sc : Scope) (po : Policy) (pa : Nat) (pte : W64) : Bool × Bool :=
  (Scope.rank sc ≤ 2 && po != .bypass,
   Scope.rank sc ≤ 4 && homeDie pa != dieOf c && pte.getLsbD 51 && s.form != .b940d)

/-- A load that a nearer cache serves: where that is the remote-data cache, the L1 loses the line, and takes it as the scope and the
policy lay down (R172, R175). -/
def State.servedNear (s : State) (c : Nat) (sc : Scope) (po : Policy) (x : CLine) (l1 : Bool) : State :=
  if Scope.rank sc ≤ 2 && (s.core c).l1.any fun y => y.line == x.line && y.live (s.die (dieOf c)).cycle then s
  else
    (s.modCore c fun k => { k with l1 := dropLine k.l1 x.line }).fillNear c
      { x with filled := (s.die (dieOf c)).cycle } l1 false po s.nextId

/-! ## Registers of a loaded value -/

/-- The registers of a value that arrives (R212, R217). -/
def Dest.regs (d : Dest) (x : Nat) : List W32 :=
  if d.n = 0 then []
  else if d.sext && d.bytes < 4 then [(BitVec.ofNat (8 * d.bytes) x).signExtend 32] else wordsOf d.n x

/-- A value arrives for a lane: written unless the lane has exited (R202). -/
def State.arrive (s : State) (c slot lane : Nat) (d : Dest) (x : Nat) (ok : Bool) : State :=
  s.modGroup c slot fun g =>
    if (g.lane lane).exited then g
    else
      let g := if d.scalar then g.wss d.reg (d.regs x)
        else { g with lanes := listModify g.lanes lane fun l => l.wvs d.reg (d.regs x) }
      match d.pred with
      | some p => { g with lanes := listModify g.lanes lane fun l => l.setPred p ok }
      | none => g

/-- A destination operand. -/
def destOf (d : Opnd) (n bytes : Nat) (sext : Bool) : Dest :=
  match d with
  | .s r => { scalar := true, reg := r.val, n := n, bytes := bytes, sext := sext }
  | .v r => { reg := r.val, n := n, bytes := bytes, sext := sext }
  | .k _ => { n := 0, bytes := bytes }

def isAcq (o : Order) : Bool := o == .acquire || o == .acqrel
def isRel (o : Order) : Bool := o == .release || o == .acqrel

/-- The address of a global access (R214). -/
def Env.va (e : Env) (l : Nat) (f : MF) : W64 := e.src64 l false f.a + f.off.signExtend 64

/-- The address of a local access (R214). -/
def Env.la (e : Env) (l : Nat) (f : MF) : Nat := (e.src32 l f.a + f.off.signExtend 32).toNat

/-! ## The ordering conditions (R178, R182 to R186) -/

/-- A store older than a mark is performed at a scope, as far as its queue shows. -/
def StoreReq.done (q : StoreReq) (sc : Scope) (before : Nat) : Bool :=
  before ≤ q.acc.id || (Scope.rank sc ≤ 2 && q.acc.stage != .queued)

/-- Every access of a group older than a mark is performed at a scope: its loads have returned, its stores have passed the port
for .G to .C, been accepted at home for .K to .P, and at .S been acknowledged by other devices. -/
def State.drained (s : State) (c slot : Nat) (sc : Scope) (before : Nat) : Bool :=
  let g := s.group c slot
  g.loads.all (fun r => before ≤ r.acc.id) && g.sq.all (fun q => q.done sc before)
    && (sc != .s || (s.die (dieOf c)).reqs.all fun r =>
      !(r.core == c && r.slot == slot && r.kind == .rst) || before ≤ r.id)

/-- An entry that is ordered as a load too: an atomic with a result, and TIDSET (R180, R193, R246). -/
def StoreKind.reads : StoreKind → Bool
  | .atom _ (some _) => true
  | .setBits _ _ _ => true
  | _ => false

/-- The loads of a lane have returned, atomics with a result included. -/
def Group.loadsDone (g : Group) (lane : Nat) : Bool :=
  g.loads.all (fun r => r.acc.lane != lane) && g.sq.all fun q => q.acc.lane != lane || !q.kind.reads

/-- The mark at which lanes already wait to drain at a scope, where they all do. -/
def drainMark (e : Env) (sc : Scope) (ls : List Nat) : Option Nat :=
  let ms := ls.map fun l => match (e.g.lane l).wait with
    | .cond (.drain sc' m _) => if sc' = sc then some m else none
    | _ => none
  if ms.all Option.isSome then some (maxOf (ms.filterMap id)) else none

/-- Do what follows a release: at once when the group's earlier accesses are performed at the scope, else the lanes wait (R182,
R185); `sync` marks the wait of a SYNCG or SYNCT. -/
def State.releasedFor (s : State) (e : Env) (sc : Scope) (sync : Bool) (ls : List Nat) (k : State → State) : State :=
  let m := (drainMark e sc ls).getD s.nextId
  if ls.isEmpty || s.drained e.core e.slot sc m then k s else s.waitAt e ls (.drain sc m sync)

/-- The same for the other instructions. -/
def State.released (s : State) (e : Env) (sc : Scope) (ls : List Nat) (k : State → State) : State := s.releasedFor e sc false ls k

/-- The same for an order code. -/
def State.ordered (s : State) (e : Env) (o : Order) (sc : Scope) (ls : List Nat) (k : State → State) : State :=
  if isRel o then s.released e sc ls k else k s

/-! ## Putting accesses into the queues -/

/-- The bytes that an entry writes. -/
def StoreReq.length (q : StoreReq) : Nat :=
  match q.kind with
  | .store bs => bs.length
  | .tag _ z => if z then 64 else 0
  | .atom o _ => o.bytes
  | .ordered _ => 4
  | .writeback => 0
  | .setBits _ _ _ => 64

/-- An access of a lane, under the next identifier. -/
def State.access (s : State) (e : Env) (l : Nat) (f : MF) (va : W64) (pa : Nat) (pte : W64) : Access × State :=
  let (id, s) := s.fresh
  ({ id := id, lane := l, ctx := e.g.ctx, va := va, pa := pa, pc := e.pc, scope := f.scope, order := f.order,
     policy := f.policy, tagck := pte.getLsbD 50, rdc := pte.getLsbD 51 }, s)

def State.pushStore (s : State) (c slot : Nat) (q : StoreReq) : State :=
  s.modGroup c slot fun g => { g with sq := g.sq ++ [q] }

def State.pushLoad (s : State) (c slot : Nat) (r : LoadReq) : State :=
  s.modGroup c slot fun g => { g with loads := g.loads ++ [r] }

/-- The lowest and the highest end of a group's accesses under identifiers from a mark that lie in a line. -/
def Group.cover (g : Group) (mark line : Nat) : Nat × Nat :=
  let xs := (g.loads.map fun r => (r.acc, r.bytes)) ++ g.sq.map fun q => (q.acc, q.length)
  let mine := xs.filter fun x => mark ≤ x.1.id && x.1.pa / 128 == line
  coverBlock ((minOf (mine.map fun x => x.1.pa)).getD (128 * line)) (maxOf (mine.map fun x => x.1.pa + Nat.max x.2 1))

/-- The sectors of a line that a group's stores under identifiers from a mark cover between them. -/
def Group.covered (g : Group) (mark line : Nat) : BitVec 4 :=
  let ranges := (g.sq.filter fun q => mark ≤ q.acc.id && q.acc.pa / 128 == line).filterMap fun q => match q.kind with
    | .store bs => some (q.acc.pa, bs.length)
    | _ => none
  maskOf 4 ((upto 4).filter fun k => (rangeFrom (128 * line + 32 * k) 32).all fun a => ranges.any (meetRange a 1))

/-- The accesses of one instruction to one line are merged: each takes the block, and the whole sectors, that they cover together
(R174, R176). -/
def Group.merge (g : Group) (mark : Nat) : Group :=
  let put := fun (a : Access) => if mark ≤ a.id then
    { a with blk := g.cover mark (a.pa / 128), full := g.covered mark (a.pa / 128) } else a
  { g with
    loads := g.loads.map fun r => { r with acc := put r.acc }
    sq := g.sq.map fun q => { q with acc := put q.acc } }

/-- One lane makes a checked access: it waits where its walk does, and faults alone where a check fails (R163, R215). The second result
lists the lanes that have made theirs. -/
def State.oneLane (s : State) (e : Env) (ok : List Nat) (l : Nat) (q : Ask) (go : Nat → W64 → State → State) : State × List Nat :=
  if s.checkWaits e q then (s.waitAt e [l] (.reach q.va 0), ok)
  else match s.check e l { q with later := true } with
    | (.error f, s) => (s.raise e l f, ok)
    | (.ok (pa, pte), s) => (go pa pte s, ok ++ [l])

/-- Each listed lane makes one checked access; then those to one line are merged. The second result lists the lanes that made it. -/
def State.eachLane (s : State) (e : Env) (ls : List Nat) (ask : Nat → Ask)
    (go : Nat → Nat → W64 → State → State) : State × List Nat :=
  let r := ls.foldl (fun (x : State × List Nat) l => x.1.oneLane e x.2 l (ask l) (go l)) (s, [])
  (r.1.modGroup e.core e.slot fun g => g.merge s.nextId, r.2)

/-- After an acquire the lanes' later accesses wait for it (R182). -/
def State.acquired (s : State) (e : Env) (o : Order) (ls : List Nat) : State :=
  if isAcq o then s.waitNext e ls .loads else s

/-! ## A load's data returns (R178) -/

/-- The overlap of a load with its group's earlier stores: none, the byte that a plain store gives, or an entry that must be performed
first; `slot`: one that makes the byte an ordered slot's, where no later store acts (R194). -/
inductive Fwd where
  | memory | value (b : Byte) | blocked | slot
  deriving DecidableEq, Repr

/-- The load waits for an entry. -/
def Fwd.waits : Fwd → Bool
  | .blocked => true
  | .slot => true
  | _ => false

/-- Where a byte of a load comes from: the group's latest earlier store to it (R180). -/
def fwdByte (sq : List StoreReq) (id pa : Nat) (line : Bool) : Fwd :=
  sq.foldl (fun r q =>
    if id ≤ q.acc.id || r == .slot then r
    else match q.kind with
      | .store bs => if q.acc.pa ≤ pa && pa < q.acc.pa + bs.length
          then (if line then .blocked else .value (bs[pa - q.acc.pa]?.getD 0)) else r
      | .tag _ _ => if q.acc.pa / 64 == pa / 64 then .blocked else r
      | .atom o _ => if q.acc.pa ≤ pa && pa < q.acc.pa + o.bytes then .blocked else r
      | .ordered _ => if q.acc.pa ≤ pa && pa < q.acc.pa + 4 then .slot else r
      | .writeback => r
      | .setBits _ _ _ => if q.acc.pa ≤ pa && pa < q.acc.pa + 64 then .blocked else r) .memory

/-- Where the bytes of an access come from; a byte of an ordered slot comes from memory, since no store acts on it (R194). -/
def State.fwds (s : State) (sq : List StoreReq) (id pa n : Nat) (line : Bool) : List Fwd :=
  (rangeFrom pa n).map fun p => if s.inSlot p then .memory else fwdByte sq id p line

/-- An access of a sampled instruction has completed for its lane, which returned data or not (R364). -/
def MemIssue.ended (m : MemIssue) (slot id lane : Nat) (pc : W64) (data : Bool) : MemIssue :=
  let mine := m.slot == slot && (m.ids.contains id || (m.again.contains lane && m.pc == pc))
  if mine then { m with ids := m.ids.filter (· != id), last := if data then some lane else m.last } else m

/-- What a core samples takes note of the end of an access. -/
def State.accessEnded (s : State) (c slot id lane : Nat) (pc : W64) (data : Bool) : State :=
  s.modCore c fun k => { k with
    issued := k.issued.map fun i => { i with acc := i.acc.map fun m => m.ended slot id lane pc data },
    deferred := k.deferred.map fun d => { d with acc := d.acc.ended slot id lane pc data } }

/-- What software reads at a physical address: the bytes there, or of a live launch's ordered-sum area free values, since the spec
defines none (R273). The access is noted. -/
def State.softRead (s : State) (pa : Nat) (bs : List Byte) : List Byte × State :=
  let t := s.softAccess pa bs.length
  if s.inOsum pa bs.length then
    ((upto bs.length).map fun i => Config.freeByte (s.free + i), { t with free := s.free + bs.length })
  else (bs, t)

/-- A load is complete: its value arrives, and an acquire makes its removals (R173). -/
def State.loadDone (s : State) (c slot : Nat) (r : LoadReq) (x : Nat) : State :=
  let (bs, s) := s.softRead r.acc.pa (bytesOf r.bytes x)
  let x := ofBytes bs
  let s := s.accessEnded c slot r.acc.id r.acc.lane r.acc.pc true
  let s := s.modGroup c slot fun g => { g with loads := g.loads.filter fun q => q.acc.id != r.acc.id }
  let s := s.arrive c slot r.acc.lane r.dst x true
  if isAcq r.acc.order then s.acquire c r.acc.scope else s

/-- Where a lane goes on after a fault that its access met at its home: TAG and ECC are of the instruction, which it executes again
(R215, log 10); others are delivered at the boundary that the lane has reached. -/
def Access.resume (a : Access) (code : Code) : Option W64 := if code = cTAG || code = cECC then some a.pc else none

/-- A load fails: its fault is delivered to its lane (R215, R237, R298). -/
def State.loadFail (s : State) (c slot : Nat) (r : LoadReq) (code : Code) : State :=
  let s := s.accessEnded c slot r.acc.id r.acc.lane r.acc.pc false
  let s := s.modGroup c slot fun g => { g with loads := g.loads.filter fun q => q.acc.id != r.acc.id }
  s.deliver c slot { lane := r.acc.lane, f := { code := code, addr := r.acc.va, pc := r.acc.pc, seq := r.acc.seq },
                     resume := r.acc.resume code }

/-- The loads, and the atomics with a result, that precede a load in its group have been performed (R180). -/
def Group.loadTurn (g : Group) (id : Nat) : Bool :=
  g.loads.all (fun q => id ≤ q.acc.id) && g.sq.all fun q => id ≤ q.acc.id || !q.kind.reads

/-- The value of a load whose bytes come from a line's data, with the group's own stores over them. -/
def valueOf (fw : List Fwd) (bs : List Byte) : Nat :=
  ofBytes ((fw.zip bs).map fun (w, b) => match w with
    | .value x => x
    | _ => b)

/-- The block of an access: the one that its instruction covers in the line, or its own (R176). -/
def Access.block (a : Access) (n : Nat) : Nat × Nat := if a.blk.2 = 0 then coverBlock a.pa (a.pa + Nat.max n 1) else a.blk

/-- The sectors of a read packet (Table 19-4): those of the access's block (R176). -/
def readSectors (b : Nat × Nat) : Nat := (sectorsOf (b.1 / 128) b.1 b.2).toNat

/-- A checked access finds another tag at its home than its pointer's (R224). -/
def State.tagFails (s : State) (a : Access) (m : BitVec 5) : Bool :=
  a.tagck && (match s.context a.ctx with
    | some x => x.tagEn
    | none => false) && !s.tagMatch a.ctx (ptrTag a.va) (tagOf m)

/-- What a load meets where it is served: the tag and the poison of its granule (R166, R167, R224). LDTAG meets neither (R223). -/
def State.loadFault (s : State) (r : LoadReq) (m : BitVec 5) (bad : Bool) : Option Code :=
  if r.tag then none
  else if s.tagFails r.acc m then some cTAG
  else if bad then some cECC
  else none

/-- A load is served at its home on the core's own die (R172, R175, R325, R326). LDTAG reads the symbol of its granule with the granule's
codeword, as a load of a byte there does. -/
def State.serveHome (s : State) (c slot : Nat) (r : LoadReq) (fw : List Fwd) (l1 : Bool) : State :=
  let a := r.acc
  let n := if r.tag then 1 else r.bytes
  if s.held a.pa && !s.homeHit a.pa n then
    if s.overdue (stackOf a.pa) then s.loadFail c slot r cTHERM else s
  else if r.tag then
    let s := s.homeLoad a.pa 1 a.policy
    s.loadDone c slot r (s.metaAt a.pa).toNat
  else match s.loadFault r (s.metaAt a.pa) (s.bad a.pa r.bytes) with
    | some code => (if code = cECC then s.readArray a.pa r.bytes else s).loadFail c slot r code
    | none =>
      let s := (s.homeLoadIn a.pa r.bytes (a.block r.bytes) a.policy).serveFarther c (a.pa / 128)
      (s.fillNear c (s.lineOf (dieOf c) (a.pa / 128) (a.block r.bytes)) l1 false a.policy s.nextId).loadDone c slot r
        (valueOf fw (s.bytes a.pa r.bytes))

/-- Serve an outstanding load (R172, R178, R180): from the store queue, a nearer cache, its home, or by a die-link read. -/
def State.serveLoad (s : State) (c slot : Nat) (r : LoadReq) : State :=
  let g := s.group c slot
  let a := r.acc
  let fw := s.fwds g.sq a.id a.pa r.bytes r.tag
  let pte : W64 := if a.rdc then 0x0008_0000_0000_0000 else 0
  let l1 := (s.fills c a.scope a.policy a.pa pte).1
  if !g.loadTurn a.id || a.stage != .queued || fw.any Fwd.waits then s
  else if !r.tag && fw.all fun w => match w with | .value _ => true | _ => false then
    s.loadDone c slot r (valueOf fw (List.replicate r.bytes 0))
  else match (if r.tag then none else s.nearLine c a.scope a.pa r.bytes pte) with
    | some x => match s.loadFault r (x.metaAt a.pa) (poisonOf (x.metaAt a.pa)) with
      | some code => s.loadFail c slot r code
      | none => (s.servedNear c a.scope a.policy x l1).loadDone c slot r
          (valueOf fw ((x.data.drop (a.pa % 128)).take r.bytes))
    | none =>
      if homeDie a.pa = dieOf c then s.serveHome c slot r fw l1
      else
        let p : Pkt := { op := if r.tag then 0x0C else 0x01, src := 0, dst := 0, scope := a.scope, order := a.order,
                         tag := ptrTag a.va, policy := a.policy, ctx := a.ctx,
                         aop := if r.tag then 0 else readSectors (a.block r.bytes),
                         addr := if r.tag then a.pa / 64 * 64 else a.pa / 128 * 128 }
        match s.request (dieOf c) (.load c slot a.id) p [] with
        | none => s.loadFail c slot r cREMOTE
        | some (rid, s) =>
          let (at_, s) := s.fresh
          s.modGroup c slot fun g => { g with loads := g.loads.map fun q =>
            if q.acc.id == a.id then { q with acc := { q.acc with stage := .sent rid at_ } } else q }

/-! ## A store is performed (R178) -/

/-- The entry returns data to its lane. -/
def StoreKind.returns : StoreKind → Bool
  | .atom _ (some _) => true
  | _ => false

/-- An entry leaves its queue. -/
def State.dropStore (s : State) (c slot id : Nat) : State :=
  let s := match (s.group c slot).sq.find? fun q => q.acc.id == id with
    | some q => s.accessEnded c slot id q.acc.lane q.acc.pc q.kind.returns
    | none => s
  s.modGroup c slot fun g => { g with sq := g.sq.filter fun q => q.acc.id != id }

/-- An entry's request fails: its fault is delivered to its lane (R215, R237, R298). -/
def State.storeFail (s : State) (c slot : Nat) (q : StoreReq) (code : Code) : State :=
  (s.dropStore c slot q.acc.id).deliver c slot
    { lane := q.acc.lane, f := { code := code, addr := q.acc.va, pc := q.acc.pc, seq := q.acc.seq }, resume := q.acc.resume code }

/-- Replace bits of a 64-byte record, read at its home (R246). -/
def setBitsOf (bs : List Byte) (lo len : Nat) (x : W64) : List Byte :=
  let m := ofBytes bs
  bytesOf 64 (m - m / 2 ^ lo % 2 ^ len * 2 ^ lo + x.toNat % 2 ^ len * 2 ^ lo)

/-- What an entry meets at its home: the tag that precedes it in coherence order, and for all but a store of whole granules the poison of
what it touches (R167, R224). STTAG and CCTL.WB meet neither. -/
def State.storeFault (s : State) (q : StoreReq) : Option Code :=
  let a := q.acc
  let fault := fun (n : Nat) (whole : Bool) =>
    if s.tagFails a (s.metaAt a.pa) then some cTAG else if !whole && s.bad a.pa n then some cECC else none
  match q.kind with
  | .store bs => fault bs.length (a.pa % 64 == 0 && bs.length % 64 == 0)
  | .atom o _ => fault o.bytes false
  | .ordered _ => fault 4 false
  | .setBits _ _ _ => fault 64 false
  | .tag _ _ => none
  | .writeback => none

/-- An entry acts at its home: the state after, and for an atomic its old value. -/
def State.performHome (s : State) (c slot : Nat) (q : StoreReq) : State × W64 :=
  let g := s.group c slot
  match q.kind with
  | .store bs => (s.homeStoreIn q.acc.pa bs q.acc.policy q.acc.full, 0)
  | .tag t z => (s.homeTag q.acc.pa t z, 0)
  | .atom o _ => let (m, s) := s.homeAtomic q.acc.pa o (q.acc.block o.bytes) q.acc.policy; (s, m)
  | .ordered x =>
    (s.homeOrdered g.ctx g.launch q.acc.pa (orderKey (s.teamOf c slot).lin (32 * g.grp + q.acc.lane) q.acc.id) x, 0)
  | .writeback => (s.homeWriteback q.acc.pa, 0)
  | .setBits lo len x => (s.homeStore q.acc.pa (setBitsOf (s.bytes q.acc.pa 64) lo len x) q.acc.policy, 0)

/-- An entry has been performed: it leaves the queue, and the old value of an atomic arrives with the outcome of its compare. -/
def State.storeDone (s : State) (c slot : Nat) (q : StoreReq) (m : W64) : State :=
  let s := (s.softAccess q.acc.pa q.length).dropStore c slot q.acc.id
  match q.kind with
  | .atom o (some d) =>
    let s := s.arrive c slot q.acc.lane d m.toNat (m == o.compare)
    if isAcq q.acc.order then s.acquire c q.acc.scope else s
  | _ => s

/-- The data slots of a die-link write of bytes within a line: the byte enables, and the line (Table 19-4). -/
def writeSlots (pa : Nat) (bs : List Byte) : List (BitVec 128) :=
  BitVec.ofNat 128 ((2 ^ bs.length - 1) * 2 ^ (pa % 128)) :: slotsOf (List.replicate (pa % 128) 0 ++ padTo (128 - pa % 128) bs)

/-- The header of a die-link atomic, and its data slot (Tables 19-3 and 19-4). -/
def atomPkt (p : Pkt) (pa : Nat) (o : AtomOp) : Pkt × List (BitVec 128) :=
  ({ p with op := 0x05, addr := pa, atype := o.ty.code.toNat, aop := if o.cas then 8 else o.sub, ebf := o.ebf },
    [o.compare ++ o.operand])

/-- The request packet of an entry whose home lies on another die (Table 19-4). Only a store, tag, atomic or writeback has one. -/
def StoreReq.packet (q : StoreReq) : Option (Pkt × List (BitVec 128)) :=
  let a := q.acc
  let p : Pkt := { op := 0x03, src := 0, dst := 0, scope := a.scope, order := a.order, tag := ptrTag a.va,
                   policy := a.policy, ctx := a.ctx, addr := a.pa / 128 * 128 }
  match q.kind with
  | .store bs => some (p, writeSlots a.pa bs)
  | .tag t z => some ({ p with op := 0x0E, addr := a.pa / 64 * 64, aop := if z then 1 else 0 }, [t.zeroExtend 128])
  | .atom o _ => some (atomPkt p a.pa o)
  | .writeback => some ({ p with op := 0x0A }, [])
  | _ => none

/-- The entry is an atomic, which fails where a store stays held (R326). -/
def StoreKind.isAtom : StoreKind → Bool
  | .atom _ _ => true
  | .ordered _ => true
  | .setBits _ _ _ => true
  | _ => false

/-- The home cache holds dirty sectors of a line. -/
def State.dirtyLine (s : State) (line : Nat) : Bool :=
  ((s.die (homeDie (128 * line))).home.find line).any fun h => h.dirty != 0

/-- A store needs its stack: for a fill that its instruction's stores do not make needless (R174), or for room. -/
def State.storeNeeds (s : State) (pa n : Nat) (full : BitVec 4) : Bool :=
  ((blocks 32 pa n).any fun k => !(pa ≤ 32 * k && 32 * k + 32 ≤ pa + n) && !full.getLsbD (k % 4) && !s.homeHit (32 * k) 32)
    || (blocks 128 pa n).any s.noRoom

/-- The entry needs its stack (R325): a store a fill or room, an atomic its line, a writeback the sectors that it writes. -/
def State.needsStack (s : State) (q : StoreReq) : Bool :=
  match q.kind with
  | .store bs => s.storeNeeds q.acc.pa bs.length q.acc.full
  | .atom o _ => !s.homeHit q.acc.pa o.bytes
  | .ordered _ => !s.homeHit q.acc.pa 4
  | .setBits _ _ _ => !s.homeHit q.acc.pa 64
  | .writeback => s.dirtyLine (q.acc.pa / 128)
  | .tag _ z => z && (blocks 128 q.acc.pa 64).any s.noRoom

/-- A write that finds its chunk Clean starts the chunk's copy and waits, in every view that has a slot free (R316). -/
def State.startCopies (s : State) (pa : Nat) : State :=
  (s.viewsAt pa).foldl (fun s x =>
    let (s, ev) := s.chunkWrite x
    s.postEvents ev) s

/-- The chunks of views that a write would have to wait for: Clean ones of views with a slot free. -/
def State.viewFirst (s : State) (pa : Nat) : Bool :=
  (s.viewsAt pa).any fun (_, k, v) => (v.state.find k).isNone

/-- Perform the oldest queued entry of a group's store queue (R178, R180): at its home, or over the die link, where the entry
stays until it is acknowledged. The line leaves the nearer caches (R173, R20, R224). An ATOMO or TIDSET, which no packet carries, waits
for its group's earlier entries on the way to the line (R180). -/
def State.performStore (s : State) (c slot : Nat) (q : StoreReq) : State :=
  let g := s.group c slot
  let a := q.acc
  let turn := g.sq.all (fun r => a.id ≤ r.acc.id || (r.acc.stage != .queued && (q.packet.isSome || r.acc.pa / 128 != a.pa / 128)))
    && g.loads.all fun r => a.id ≤ r.acc.id
  if !turn || a.stage != .queued then s
  else
    let near := fun (s : State) => if q.kind = .writeback then s else s.dropNear c (a.pa / 128)
    match (if homeDie a.pa = dieOf c then none else q.packet) with
    | some (p, data) =>
      match (near s).request (dieOf c) (.store c slot a.id) p data with
      | none => s.storeFail c slot q cREMOTE
      | some (rid, s) =>
        let (at_, s) := s.fresh
        s.modGroup c slot fun g => { g with sq := g.sq.map fun r =>
          if r.acc.id == a.id then { r with acc := { r.acc with stage := .sent rid at_ } } else r }
    | none =>
      if !s.linked (dieOf c) (homeDie a.pa) then s.storeFail c slot q cREMOTE
      else if s.held a.pa && s.needsStack q then
        if q.kind.isAtom && s.overdue (stackOf a.pa) then s.storeFail c slot q cTHERM else s
      else if (s.storeFault q).isSome then
        (if s.storeFault q = some cECC then s.readArray a.pa q.length else s).storeFail c slot q ((s.storeFault q).getD 0)
      else if q.kind != .writeback && s.viewWaits a.pa then s
      else if q.kind != .writeback && s.viewFirst a.pa && (s.startCopies a.pa).viewWaits a.pa then s.startCopies a.pa
      else
        let s := if q.kind = .writeback then s else s.startCopies a.pa
        let (s, m) := (near s).performHome c slot q
        s.storeDone c slot q m

end Sys2Proof.Machine
end

