-- ==== Sys2Proof/Machine/Control.lean ====
section
/-! DEFINITION. Control transfer, JOIN and the synchronisation of lanes, EXIT, TRAP, SIZESEL and INK (R198 to R211, R50, R51,
R285). -/

namespace Sys2Proof.Machine

/-! ## Lanes that wait for one another -/

/-- Lanes of a group that a wait concerns: in trap mode those in trap mode, else every lane not exited (R50, R51, R205, R285). -/
def Group.concerned (g : Group) (trap : Bool) : List Nat := places (fun l => !l.exited && (!trap || l.trap)) g.lanes

/-- Every concerned lane waits with a kind, in the mode. -/
def Group.allWait (g : Group) (trap : Bool) (w : Wait) : Bool :=
  let ls := g.concerned trap
  !ls.isEmpty && ls.all fun l => (g.lane l).wait == w && (g.lane l).trap == trap && (g.lane l).parked.isNone
    && (g.lane l).late.isNone

/-- Lanes continue at the instruction after the one at which they wait. -/
def Group.goOn (g : Group) (ls : List Nat) : Group :=
  { g with lanes := mapFrom (fun i (l : Lane) =>
      if ls.contains i then let l := l.setCur (l.cur + 12); { l with wait := .none } else l) 0 g.lanes }

/-- The lanes at the lowest JOIN address leave, when every concerned lane waits at a JOIN (R50). -/
def Group.leaveJoin (g : Group) (trap : Bool) : Group :=
  if g.allWait trap .join then
    let ls := g.concerned trap
    match minOf (ls.map fun l => (g.lane l).cur.toNat) with
    | some pc => g.goOn (ls.filter fun l => (g.lane l).cur.toNat == pc)
    | none => g
  else g

/-- The lanes that wait at SYNCG leave together (R205). -/
def Group.leaveSync (g : Group) (trap : Bool) : Group :=
  if g.allWait trap .syncg then g.goOn (g.concerned trap) else g

/-- The trap-mode lanes that wait at TRAPRET leave trap mode together (R285). -/
def Group.leaveTrap (g : Group) : Group :=
  if g.allWait true .trapret then
    { g with lanes := g.lanes.map fun l => if !l.exited && l.trap then l.leaveTrap else l }
  else g

/-- What a change of a group's lanes releases within it. -/
def Group.settle (g : Group) : Group :=
  ((((g.leaveJoin false).leaveJoin true).leaveSync false).leaveSync true).leaveTrap

/-- A group of a team counts as arrived at a SYNCT of a kind (R206): it has left draining or its stroke has exited, it drains, or
every lane not exited waits there. -/
def State.arrivedAt (s : State) (c place grp : Nat) (w : Wait) : Bool :=
  (s.team c place).gone.getLsbD grp
    || (s.core c).groups.any fun (_, g) => g.place == some place && g.grp == grp
        && (g.draining || (g.concerned false).all fun l => (g.lane l).wait == w)

/-- The groups of a team that a SYNCT covers: all, or those of one role (R206). -/
def Team.covered (t : Team) (role : Option Bool) : List Nat :=
  (upto (t.np + t.nc)).filter fun g => match role with
    | none => true
    | some consumer => decide (t.np ≤ g) == consumer

/-- The lanes of a team's groups that wait at a SYNCT of a kind leave once every covered group has arrived (R206). -/
def State.settleSynct (s : State) (c place : Nat) (w : Wait) (role : Option Bool) : State :=
  let gs := (s.team c place).covered role
  let go := fun (x : Nat × Group) =>
    if x.2.place == some place && gs.contains x.2.grp then
      (x.1, x.2.goOn (places (fun (l : Lane) => !l.exited && l.wait == w) x.2.lanes))
    else x
  if gs.all fun n => s.arrivedAt c place n w then s.modCore c fun k => { k with groups := k.groups.map go } else s

/-- What a change of a team's groups releases at SYNCT, of either kind. -/
def State.settleTeam (s : State) (c place : Nat) : State :=
  ((s.settleSynct c place .synct none).settleSynct c place .synctRole (some false)).settleSynct c place .synctRole (some true)

/-- What a change of a group's lanes releases: within the group, and in its team. -/
def State.settle (s : State) (c slot : Nat) : State :=
  let s := s.modGroup c slot Group.settle
  match (s.group c slot).place with
  | some p => s.settleTeam c p
  | none => s

/-- The same for every team of a core, after a stroke has exited. -/
def State.settleCore (s : State) (c : Nat) : State := (s.core c).teams.keys.foldl (fun s p => s.settleTeam c p) s

/-! ## Records read at issue -/

/-- Bytes as a lane of a group reads them: its group's queued stores stand over memory (R180). -/
def State.ownBytes (s : State) (c slot pa n : Nat) : List Byte :=
  ((s.fwds (s.group c slot).sq s.nextId pa n false).zip (s.bytes pa n)).map fun (w, b) => match w with
    | .value x => x
    | _ => b

/-- What a read of bytes at their home meets there: a link that is down (R298), a stack that has held them too long (R326), or a
poisoned granule that the group's queued stores leave (R167), with the place of its first byte. -/
def State.pieceFault (s : State) (c slot pa n : Nat) : Option (Code × Nat) :=
  if !s.linked (dieOf c) (homeDie pa) then some (cREMOTE, 0)
  else if s.held pa && !s.homeHit pa n && s.overdue (stackOf pa) then some (cTHERM, 0)
  else
    let bad := fun g => s.bad (Nat.max pa (64 * g)) (Nat.min (pa + n) (64 * g + 64) - Nat.max pa (64 * g))
      && !((s.group c slot).sq.any fun q => q.renews g)
    ((blocks 64 pa n).find? bad).map fun g => (cECC, Nat.max pa (64 * g) - pa)

/-- The first of the pieces of a range, from a virtual address, that cannot be read. -/
def State.piecesFault (s : State) (c slot : Nat) : W64 → List (Nat × Nat) → Option (Code × W64)
  | _, [] => none
  | va, (pa, n) :: ps => match s.pieceFault c slot pa n with
    | some (code, off) => some (code, va + BitVec.ofNat 64 off)
    | none => s.piecesFault c slot (va + BitVec.ofNat 64 n) ps

/-- A record read at issue with read right and without a tag check: its bytes, or the first fault with its address, in the order of
R12. -/
def State.readRecord (s : State) (c slot ctx : Nat) (va : W64) (n : Nat) : Except (Code × W64) (List Byte) :=
  match s.coreRange c ctx { r := true } (slot == 63) va n with
  | .error x => .error x
  | .ok ps => match s.piecesFault c slot va ps with
    | some x => .error x
    | none => .ok (ps.flatMap fun (pa, k) => s.ownBytes c slot pa k)

/-- The fault of a read or range that failed. -/
def faultOf {α β : Type} : Except α β → Option α
  | .error x => some x
  | .ok _ => none

/-- Of the faults of several records and ranges that an instruction checks together, the one that R12 reports. -/
def firstOf (xs : List (Option (Code × W64))) : Option (Code × W64) := firstFault Prod.fst (xs.filterMap id)

/-- An address cannot yet be reached, or n bytes there not yet be read: a walk waits, a queued atomic of the group acts on them first
(R180), or their stack holds them (R325). -/
def State.reachWaits (s : State) (c slot ctx : Nat) (va : W64) (n : Nat) : Bool :=
  s.walkWaits c ctx va || (n != 0 && (s.walkWaits c ctx (va + BitVec.ofNat 64 (n - 1))
    || match s.coreRange c ctx {} true va n with
      | .error _ => false
      | .ok ps => ps.any fun (pa, k) => (s.linked (dieOf c) (homeDie pa) && s.stackWaits pa k)
          || (s.fwds (s.group c slot).sq s.nextId pa k false).any Fwd.waits))

/-- What the read of a record at issue does to translation caches, tables and homes (R163, R172): its pages are translated, and the
bytes of its pieces that can be read are read at their homes, poison being found as the array is (R321). -/
def State.recordRead (s : State) (c slot ctx : Nat) (va : W64) (n : Nat) : State :=
  let s := (pageStarts (n / 65536 + 2) va n).foldl (fun s a => (s.coreXlate c ctx a).2) s
  match s.coreRange c ctx { r := true } (slot == 63) va n with
  | .error _ => s
  | .ok ps => ps.foldl (fun s (pa, k) =>
    match s.pieceFault c slot pa k with
    | some (code, _) => if code = cECC then s.readArray pa k else s
    | none => (blocks 128 pa k).foldl (fun s l => s.readAtHome c (dieOf c) l) ((s.homeLoad pa k .normal).softAccess pa k)) s

/-- Do what follows a read of records at issue, each an address and a size: at once when they can be read, else the PC set waits. -/
def State.afterRecords (s : State) (e : Env) (rs : List (W64 × Nat)) (k : State → State) : State :=
  match rs.find? fun r => s.reachWaits e.core e.slot e.g.ctx r.1 r.2 with
  | some r => s.waitAt e e.lanes (.reach r.1 r.2)
  | none => k (rs.foldl (fun s r => s.recordRead e.core e.slot e.g.ctx r.1 r.2) s)

/-! ## Branches -/

/-- Lanes whose target is not a multiple of 4 take ALIGN; the others write the link, where there is one, and continue at the
target (R199). -/
def State.jump (s : State) (e : Env) (next : Nat → W64) (link : Option Opnd) : State :=
  let ok := e.active.filter fun l => (next l).toNat % 4 == 0
  let s := match link with
    | some d => s.writeD { e with active := ok } d fun _ => valRegs true (e.pc + 12)
    | none => s
  let s := ok.foldl (fun s l => s.modLane e.core e.slot l fun x => x.setCur (next l)) s
  (e.active.filter fun l => (next l).toNat % 4 != 0).foldl
    (fun s l => s.precise e.core e.slot l e.pc { code := cALIGN, addr := next l }) s

/-- The target of a direct branch (R76, R199). -/
def branchTo (pc : W64) (f : CF) : W64 := pc + 12 * f.off.signExtend 64

/-- The 64-bit value of a pair of uniform forms; %zero as a target pair reads 0 (R198, R200). -/
def Stroke.uniPair (st : Stroke) (s : State) (o : Opnd) : Option W64 :=
  match st.form (st.tx s) (st.ty s) o, st.form (st.tx s) (st.ty s) (Opnd.next o) with
  | some a, some b => if a.isUni && b.isUni then some (pairVal a.base b.base) else none
  | _, _ => none

/-- Operand A of a stroke is a uniform pair: what Table 3-2 asks of an indirect branch. -/
def pairTarget (f : CF) : State → Stroke → Bool := fun s st => (st.uniPair s f.a).isSome

/-- A stroke continues at a target; ALIGN inks it. -/
def strokeGo (st : Stroke) (s : State) (next : W64) : Option (State × Stroke) :=
  if next.toNat % 4 = 0 then some (s, { st with pc := next }) else none

/-- Write a link pair of uniform forms. -/
def Stroke.link (st : Stroke) (d : Opnd) (x : W64) : Option Stroke :=
  match st.setForm d (.uni (loHalf x)) with
  | some st => st.setForm (Opnd.next d) (.uni (hiHalf x))
  | none => none

/-- BRA (R199, R200): in a stroke a compare-form guard splits or inks it. -/
def execBra (h : Hdr) (f : CF) (s : State) : Res :=
  match s.iss.stroke with
  | none => .next (s.groupIssue (.bra h f) h fun e s => s.jump e (fun _ => branchTo e.pc f) none)
  | some k => match s.strokeAt s.iss.core k with
    | none => .next s
    | some st => match st.pform h.gpred.val with
      | .cmp .. => .next (s.strokeSplit k st h (branchTo s.iss.pc f))
      | .uni _ => .next (s.strokeIssue h fun s st => some (s, { st with pc := branchTo s.iss.pc f }))

/-- BRX (R199, R200). -/
def execBrx (h : Hdr) (f : CF) (s : State) : Res :=
  s.issueIf (.brx h f) h (pairTarget f) (fun s st => (st.uniPair s f.a).bind (strokeGo st s))
    fun e s => s.jump e (fun l => e.src64 l false f.a) none

/-- CALL (R199, R200). -/
def execCall (h : Hdr) (f : CF) (s : State) : Res :=
  s.issue (.call h f) h
    (fun s st => (st.link f.d (s.iss.pc + 12)).map fun st => (s, { st with pc := branchTo s.iss.pc f }))
    fun e s => s.jump e (fun _ => branchTo e.pc f) (some f.d)

/-- CALLX (R199, R200): the target is read before the link is written. -/
def execCallx (h : Hdr) (f : CF) (s : State) : Res :=
  s.issueIf (.callx h f) h (fun s st => pairTarget f s st && (st.link f.d 0).isSome)
    (fun s st => match st.uniPair s f.a with
      | some t => (st.link f.d (s.iss.pc + 12)).bind fun st => strokeGo st s t
      | none => none)
    fun e s => s.jump e (fun l => e.src64 l false f.a) (some f.d)

/-- RET (R199, R200). -/
def execRet (h : Hdr) (f : CF) (s : State) : Res :=
  s.issueIf (.ret h f) h (pairTarget f) (fun s st => (st.uniPair s f.a).bind (strokeGo st s))
    fun e s => s.jump e (fun l => e.src64 l false f.a) none

/-! ## JOIN, EXIT and the synchronisations -/

/-- Participating lanes stand at the instruction and wait with a kind; what that releases follows. -/
def State.arriveAt (s : State) (e : Env) (ls : List Nat) (w : Wait) : State :=
  (ls.foldl (fun s l => s.modLane e.core e.slot l fun x =>
    let x := x.setCur e.pc
    { x with wait := w }) s).settle e.core e.slot

/-- JOIN (R50, R51, R201); a stroke waits and merges (R38). -/
def execJoin (h : Hdr) (f : CF) (s : State) : Res :=
  match s.iss.stroke with
  | none => .next (s.groupIssue (.join h f) h fun e s => s.arriveAt e e.active .join)
  | some k => match s.strokeAt s.iss.core k with
    | none => .next s
    | some st => match st.guard h with
      | some true => .next ((s.modCore s.iss.core fun x => { x with
          strokes := x.strokes.put k { st with pc := s.iss.pc, joining := true } }).joinSettle s.iss.core st)
      | _ => .next (s.strokeIssue h fun s st => some (s, st))

/-- The last lane of a group has exited: the group drains (R54). -/
def Group.drainIfDone (g : Group) : Group :=
  if g.lanes.all (fun l => l.exited) then { g with draining := true, unit := 0, nunit := 0 } else g

/-- Lanes exit; a lane in trap mode leaves it (R202). -/
def State.exitLanes (s : State) (c slot : Nat) (ls : List Nat) : State :=
  let s := ls.foldl (fun s l => s.modLane c slot l fun x =>
    { x with exited := true, trap := false, wait := .none, parked := none, late := none }) s
  (s.modGroup c slot Group.drainIfDone).settle c slot

/-- EXIT (R202); a stroke retires its whole range under a uniform guard (R55). -/
def execExit (h : Hdr) (f : CF) (s : State) : Res :=
  match s.iss.stroke with
  | none => .next (s.groupIssue (.exit h f) h fun e s => s.exitLanes e.core e.slot e.active)
  | some k => match s.strokeAt s.iss.core k with
    | none => .next s
    | some st => match st.guard h with
      | some true => .next ((s.exitStroke s.iss.core k).settleCore s.iss.core)
      | _ => .next (s.strokeIssue h fun s st => some (s, st))

/-- TRAP and BKPT (R203): each participating lane takes the fault, with the resume address after the instruction. -/
def State.trapWith (s : State) (e : Env) (c : Code) (f : CF) : State :=
  e.active.foldl (fun s l => s.takeFault e.core e.slot l { code := c, pc := e.pc, num := f.mod.zeroExtend 16 } (e.pc + 12)) s

/-- TRAP (R203). -/
def execTrap (h : Hdr) (f : CF) (s : State) : Res := s.issueInk (.trap h f) h fun e s => s.trapWith e cTRAP f

/-- BKPT (R203). -/
def execBkpt (h : Hdr) (f : CF) (s : State) : Res := s.issueInk (.bkpt h f) h fun e s => s.trapWith e cBKPT f

/-- NOP (R204). -/
def execNop (h : Hdr) (f : CF) (s : State) : Res :=
  s.issue (.nop h f) h (fun s st => some (s, st)) fun _ s => s

/-- YIELD (R204): as cede, and the participating lanes rest for 16 cycles. -/
def execYield (h : Hdr) (f : CF) (s : State) : Res :=
  s.issue (.yield h f) h (fun s st => some (s, st)) fun e s =>
    let now := (s.die (dieOf e.core)).cycle
    let s := s.modCore e.core fun k => { k with ceded := some (e.slot, now) }
    e.active.foldl (fun s l => s.modLane e.core e.slot l fun x => { x with until_ := Nat.max x.until_ (now + 17) }) s

/-- SYNCG (R205): a release of scope .G at arrival; the lanes leave together. -/
def execSyncg (h : Hdr) (f : CF) (s : State) : Res :=
  s.issueInk (.syncg h f) h fun e s => s.releasedFor e .g true e.active fun s => s.arriveAt e e.active .syncg

/-- SYNCT (R206): BARRIER in trap mode; else a release of scope .T at arrival. -/
def execSynct (h : Hdr) (f : CF) (s : State) : Res :=
  s.issueInk (.synct h f) h fun e s =>
    let bad := e.active.filter fun l => (e.g.lane l).trap
    let good := e.active.filter fun l => !(e.g.lane l).trap
    let s := bad.foldl (fun s l => s.precise e.core e.slot l e.pc { code := cBARRIER }) s
    s.releasedFor e .t true good fun s => s.arriveAt e good (if f.mod.getLsbD 0 then .synctRole else .synct)

/-! ## SIZESEL and INK -/

/-- The first fit of R209 over the entries of a record, from entry i: the result and the target. -/
def sizeFit (rec : List Byte) (x next : W64) : (i fuel : Nat) → W32 × W64
  | _, 0 => (0xFFFFFFFF, next)
  | i, fuel + 1 =>
    let e := ofBytes ((rec.drop (16 * i)).take 16)
    if natBits e 32 32 = 0 then (0xFFFFFFFF, next)
    else if x.toNat ≤ natBits e 31 0 then (BitVec.ofNat 32 i, BitVec.ofNat 64 (e / 2 ^ 64))
    else sizeFit rec x next (i + 1) fuel

/-- The address of schedule record t of a launch (R208). -/
def schedAddr (words : List W32) (f : CF) : W64 :=
  BitVec.ofNat 64 (ofWords ((words.drop 20).take 2)) + BitVec.ofNat 64 (128 * (f.mod.toNat % 16))

/-- The entries of a schedule record from entry i, up to the first with valid = 0, beyond which none is read (R209): their bytes, or the
code of the first fault. -/
def State.schedEntries (s : State) (c slot ctx : Nat) (va : W64) : (i fuel : Nat) → Except Code (List Byte)
  | _, 0 => .ok []
  | i, fuel + 1 => match s.readRecord c slot ctx (va + BitVec.ofNat 64 (16 * i)) 16 with
    | .error x => .error x.1
    | .ok bs =>
      if natBits (ofBytes bs) 32 32 = 0 then .ok bs
      else match s.schedEntries c slot ctx va (i + 1) fuel with
        | .error x => .error x
        | .ok more => .ok (bs ++ more)

/-- The entries that a SIZESEL reads, each an address and a size: as many as can be read, and the first that cannot. -/
def State.schedParts (s : State) (c slot ctx : Nat) (va : W64) : (i fuel : Nat) → List (W64 × Nat)
  | _, 0 => []
  | i, fuel + 1 =>
    let a := va + BitVec.ofNat 64 (16 * i)
    (a, 16) :: match s.readRecord c slot ctx a 16 with
      | .error _ => []
      | .ok bs => if natBits (ofBytes bs) 32 32 = 0 then [] else s.schedParts c slot ctx va (i + 1) fuel

/-- SIZESEL (R208 to R210): a fault of the read is reported with the record's address. -/
def execSizesel (h : Hdr) (f : CF) (s : State) : Res :=
  s.issueIf (.sizesel h f) h
    (fun s st => (st.form (st.tx s) (st.ty s) f.a).any Form.isUni && (st.setForm f.d (.uni 0)).isSome)
    (fun s st =>
      let words := match s.launch st.ctx st.launch with | some l => l.words | none => []
      let a := (st.form (st.tx s) (st.ty s) f.a).getD {}
      let va := schedAddr words f
      let parts := s.schedParts s.iss.core 64 st.ctx va 0 8
      if parts.any fun p => s.reachWaits s.iss.core 64 st.ctx p.1 p.2 then some (s, { st with pc := s.iss.pc })
      else match s.schedEntries s.iss.core 64 st.ctx va 0 8 with
        | .ok rec =>
          let s := parts.foldl (fun s p => s.recordRead s.iss.core 64 st.ctx p.1 p.2) s
          let r := sizeFit rec (a.base.zeroExtend 64) (s.iss.pc + 12) 0 8
          (st.setForm f.d (.uni r.1)).bind fun st => strokeGo st s r.2
        | .error _ => none)
    fun e s => if e.active.isEmpty then s else
      s.afterRecords e (s.schedParts e.core e.slot e.g.ctx (schedAddr e.words f) 0 8) fun s =>
      match s.schedEntries e.core e.slot e.g.ctx (schedAddr e.words f) 0 8 with
      | .error c => e.active.foldl (fun s l => s.raise e l { code := c, addr := schedAddr e.words f }) s
      | .ok rec =>
        let r := fun l => sizeFit rec ((e.src32 l f.a).zeroExtend 64) (e.pc + 12) 0 8
        let ok := e.active.filter fun l => (r l).2.toNat % 4 == 0
        (s.writeD { e with active := ok } f.d fun l => [(r l).1]).jump e (fun l => (r l).2) none

/-- INK (R211): the whole stroke inks and begins at the next instruction; NOP in a group. -/
def execInk (h : Hdr) (f : CF) (s : State) : Res :=
  match s.iss.stroke with
  | some k => .next (s.inkStroke s.iss.core k (s.iss.pc + 12))
  | none => .next (s.groupIssue (.ink h f) h fun _ s => s)

end Sys2Proof.Machine
end

