-- ==== Sys2Proof/Machine/Barrier.lean ====
section
/-! DEFINITION. Barriers, vectored wakes and presence (R249 to R254). -/

namespace Sys2Proof.Machine

/-! ## The barrier unit (R250) -/

/-- A barrier of a team. -/
def Team.bar (t : Team) (b : Nat) : Barrier := t.bars.get {} b

def State.setBar (s : State) (c place b : Nat) (x : Barrier) : State :=
  s.modTeam c place fun t => { t with bars := SMap.set {} t.bars b x }

/-- A member's arrivals (R250). -/
def Barrier.arrive (x : Barrier) (k : Nat) : Barrier := { x with arr := BitVec.ofNat 6 (Nat.min (x.arr.toNat + k) 63) }

/-- Bytes expected of the transfer unit (R250). -/
def Barrier.expect (x : Barrier) (n : W32) : Barrier := { x with xbytes := x.xbytes + n, tu := true }

/-- A landing of n bytes with its recorded epoch (R250). -/
def Barrier.land (x : Barrier) (n : Nat) (epoch : BitVec 16) : Barrier :=
  if epoch != x.epoch then x
  else
    let got := x.got + BitVec.ofNat 32 n
    { x with got := got, tuarr := x.tuarr || (x.tu && got == x.xbytes),
             poison := x.poison || (x.tu && x.xbytes.toNat < got.toNat) }

/-- A poisoned arrival (R250). -/
def Barrier.poisoned (x : Barrier) : Barrier := { x with poison := true }

/-- The phase is complete (R250). -/
def Barrier.complete (x : Barrier) : Bool := x.poison || (x.members.toNat ≤ x.arr.toNat && (!x.tu || x.tuarr))

/-- The record after a completion (R250). -/
def Barrier.next (x : Barrier) : Barrier :=
  { x with plast := x.poison, epoch := x.epoch + 1, waiters := 0, armed := 0, arr := 0, got := 0, tuarr := false,
           poison := false, xbytes := if x.keep then x.xbytes else 0, tu := x.keep && x.tu }

/-- The lanes that wait in BWAIT on a barrier go on after it; in a poisoned phase each takes BARRIER, to resume there (R252). -/
def State.wakeGroup (s : State) (c slot b : Nat) (poison : Bool) : State :=
  (places (fun (l : Lane) => l.wait == .bwait b) (s.group c slot).lanes).foldl (fun s l =>
    let pc := ((s.group c slot).lane l).cur
    let s := s.modLane c slot l fun x => { x.setCur (pc + 12) with wait := .none }
    if poison then s.takeFault c slot l { code := cBARRIER, pc := pc } (pc + 12) else s) s

/-- One event on a barrier, and the completion that it brings (R250); a barrier without members discards it. -/
def State.barEvent (s : State) (c place b : Nat) (f : Barrier → Barrier) : State :=
  let x := (s.team c place).bar b
  if x.members = 0 then s
  else
    let x := f x
    if !x.complete then s.setBar c place b x
    else
      let s := s.setBar c place b x.next
      (s.core c).groups.foldl (fun s (slot, g) =>
        if g.place != some place then s
        else
          let s := if maskBit x.armed g.grp then
            s.modGroup c slot fun g => { g with
              vector := g.vector ++ [{ handler := x.handler, link := x.link, poison := x.poison }] } else s
          if maskBit x.waiters g.grp then s.wakeGroup c slot b x.poison else s) s

/-! ## The instructions -/

/-- A precise fault of the nib lane alone (R236). -/
def State.nibFault (s : State) (e : Env) (n : Nat) (c : Code) (addr : W64 := 0) : State :=
  s.raise e n { code := c, addr := addr }

/-- A transfer that names the barrier has not landed (R251). -/
def State.barBusy (s : State) (c place b : Nat) : Bool :=
  (s.core c).cmds.any fun k => k.place == place && k.bar == b && !k.done && k.kind != .rrd3

/-- An instruction on a barrier: BARRIER where `bad`, else its effect. DESIGN CHOICE: the agent's group belongs to no team and has no
barriers; the spec says nothing of these instructions there, and the model raises BARRIER (log 81). -/
def State.barrierOp (s : State) (i : Instr) (h : Hdr) (f : EF) (bad : State → Env → Nat → Barrier → Bool)
    (go : Env → Nat → Nat → Barrier → State → State) : Res :=
  s.nibIssue i h fun e n s => match e.g.place with
    | none => s.nibFault e n cBARRIER
    | some p =>
      let x := e.team.bar f.bar.val
      if bad s e p x then s.nibFault e n cBARRIER else go e n p x s

/-- Waiters, armed groups or a transfer outstanding hold the barrier (R251). -/
def inUse (f : EF) (s : State) (e : Env) (p : Nat) (x : Barrier) : Bool :=
  x.waiters != 0 || x.armed != 0 || s.barBusy e.core p f.bar.val

/-- The barrier is not initialised (R251). -/
def noMembers (_ : State) (_ : Env) (_ : Nat) (x : Barrier) : Bool := x.members == 0

/-- BINIT (R251). -/
def execBinit (h : Hdr) (f : EF) (s : State) : Res :=
  s.barrierOp (.binit h f) h f (inUse f) fun e _ p x s =>
    s.setBar e.core p f.bar.val { members := field f.mod 0 6, keep := f.mod.getLsbD 6, epoch := x.epoch }

/-- BEXPECT (R251). -/
def execBexpect (h : Hdr) (f : EF) (s : State) : Res :=
  s.barrierOp (.bexpect h f) h f noMembers fun e n p _ s =>
    s.barEvent e.core p f.bar.val fun x => x.expect (e.src32 n f.b)

/-- BARRIVE (R250, R251): a release of scope .T. -/
def execBarrive (h : Hdr) (f : EF) (s : State) : Res :=
  s.barrierOp (.barrive h f) h f noMembers fun e _ p _ s =>
    s.released e .t e.lanes fun s => s.barEvent e.core p f.bar.val fun x => x.arrive (f.mod.toNat % 64)

/-- The phase that an instruction names has passed. -/
def Barrier.passed (x : Barrier) (ph : Bool) : Bool := x.epoch.getLsbD 0 != ph

/-- A passed phase: an acquire of scope .T; in a poisoned one each participating lane takes BARRIER, to resume after the
instruction (R252). -/
def State.phasePassed (s : State) (e : Env) (x : Barrier) : State :=
  if x.plast then e.active.foldl (fun s l => s.takeFault e.core e.slot l { code := cBARRIER, pc := e.pc } (e.pc + 12)) s
  else s.acquire e.core .t

/-- BWAIT (R252). DESIGN CHOICE: trap mode is a lane's (R58), and R252 speaks of a group in trap mode; the model raises BARRIER where some
participating lane is in trap mode (log 81). -/
def execBwait (h : Hdr) (f : EF) (s : State) : Res :=
  s.barrierOp (.bwait h f) h f (fun _ e _ x => x.members == 0 || e.active.any fun l => (e.g.lane l).trap)
    fun e _ p x s =>
      if x.passed (f.mod.getLsbD 0) then s.phasePassed e x
      else (s.setBar e.core p f.bar.val { x with waiters := x.waiters ||| BitVec.ofNat 16 (2 ^ e.g.grp) }).waitLanes
        e.active (.bwait f.bar.val)

/-- BTEST (R251): an acquire of scope .T when it returns 1. -/
def execBtest (h : Hdr) (f : EF) (s : State) : Res :=
  s.barrierOp (.btest h f) h f noMembers fun e _ _ x s =>
    if x.passed (f.mod.getLsbD 0) then (s.nibD e f.d [if x.plast then 3 else 1]).acquire e.core .t
    else s.nibD e f.d [0]

/-- The number of an operand field. -/
def linkOf (d : Opnd) : BitVec 9 := d.field

/-- BARM (R253). DESIGN CHOICE: where the phase has passed and another handler or link is armed, both the Arming and the Mismatch sentence
apply; the model lets the BARM pass as Arming says, without BARRIER (log 81). The agent's group takes BARRIER (log 81). -/
def execBarm (h : Hdr) (f : EF) (s : State) : Res :=
  s.nibIssue (.barm h f) h fun e n s => match e.g.place with
    | none => s.nibFault e n cBARRIER
    | some p =>
      let x := e.team.bar f.bar.val
      let handler := e.src64 n false f.a
      if x.members == 0 then s.nibFault e n cBARRIER
      else if x.passed (f.mod.getLsbD 0) then s.phasePassed e x
      else if x.armed != 0 && (x.handler != handler || x.link != linkOf f.d) then s.nibFault e n cBARRIER
      else s.setBar e.core p f.bar.val { x with
        handler := handler, link := linkOf f.d, armed := x.armed ||| BitVec.ofNat 16 (2 ^ e.g.grp) }

/-- BINV (R251). -/
def execBinv (h : Hdr) (f : EF) (s : State) : Res :=
  s.barrierOp (.binv h f) h f (inUse f) fun e _ p _ s => s.setBar e.core p f.bar.val {}

/-- A lane that a vectored wake takes (R253): in no wait, or in that of a JOIN, SYNCG or SYNCT, the release at its arrival included. -/
def Lane.vectored (l : Lane) : Bool :=
  !l.exited && l.parked.isNone && l.late.isNone && !l.trap
    && ([Wait.none, .join, .syncg, .synct, .synctRole].contains l.wait || match l.wait with
      | .cond (.drain _ _ true) => true
      | _ => false)

/-- BARM_VECTORING (R253): the link pair receives each vectored lane's PC and the handler its control; after a poisoned phase the
lane takes BARRIER, with the handler as resume PC. -/
def execBarmVectoring (core slot : Nat) (s : State) : Res :=
  let g := s.group core slot
  match g.vector with
  | [] => .next s
  | w :: rest =>
    let s := s.modGroup core slot fun g => { g with vector := rest }
    .next ((places Lane.vectored g.lanes).foldl (fun s l =>
      let s := s.modLane core slot l fun x =>
        { (x.wvs (w.link.toNat % 512) (valRegs true x.pc)) with pc := w.handler, wait := .none }
      if w.poison then s.takeFault core slot l { code := cBARRIER, pc := w.handler } w.handler else s) s)

/-! ## Presence (R254) -/

/-- The offset and length that PCLR and PTEST name lie in the team's region; an empty range always does. -/
def rangeOk (t : Team) (a n : Nat) : Bool := n == 0 || inRegion t a n

/-- PCLR (R254, R351): its local-memory access is matched as a write. -/
def execPclr (h : Hdr) (f : EF) (s : State) : Res :=
  s.nibIssue (.pclr h f) h fun e n s =>
    let a := (e.src32 n f.a).toNat
    let k := (e.src32 n f.b).toNat
    let hit := if (e.g.lane n).wskip = some e.pc || k = 0 then none
      else lowestHit (s.watchGroup e.core e.slot e.g.watch n .write false true a k)
    if !rangeOk e.team a k then s.nibFault e n cPERM (BitVec.ofNat 64 a)
    else match hit with
      | some (i, off) =>
        s.raise e n { code := cWATCH, addr := BitVec.ofNat 64 (a + off), num := BitVec.ofNat 16 i }
      | none => s.modCore e.core fun c => c.clearPresence (teamLines e.team a k)

/-- PTEST (R254). -/
def execPtest (h : Hdr) (f : EF) (s : State) : Res :=
  s.nibIssue (.ptest h f) h fun e n s =>
    let a := (e.src32 n f.a).toNat
    let k := (e.src32 n f.b).toNat
    if !rangeOk e.team a k then s.nibFault e n cPERM (BitVec.ofNat 64 a)
    else s.nibD e f.d [if (s.core e.core).present (teamLines e.team a k) then 1 else 0]

end Sys2Proof.Machine
end

