-- ==== Sys2Proof/Machine/Integer.lean ====
section
/-! DEFINITION. Integer, address, selection and move instructions (R124 to R130). -/

namespace Sys2Proof.Machine

/-- A result of the type's width from operands A, B and the old D, as bit patterns (R120). -/
def wideOp (i : Instr) (h : Hdr) (f : VF) (closed : Closed) (op : W64 → W64 → W64 → W64) (s : State) : Res :=
  s.issue i h closed fun e s => s.writeD e f.d fun l =>
    valRegs f.ty.is64 (op (e.src l f.ty f.a) (e.srcB l f) (e.src l f.ty f.d))

/-- A result from A and the 32-bit operand B. -/
def shiftOp (i : Instr) (h : Hdr) (f : VF) (closed : Closed) (op : W64 → W32 → W64) (s : State) : Res :=
  s.issue i h closed fun e s => s.writeD e f.d fun l => valRegs f.ty.is64 (op (e.src l f.ty f.a) (e.srcB32 l f))

/-- An arithmetic instruction of R125: exact in the type's values, then clamped or wrapped. -/
def arithOp (i : Instr) (h : Hdr) (f : VF) (closed : Closed) (op : Int → Int → Int → Int) (s : State) : Res :=
  wideOp i h f closed (fun x y d => narrow f.ty f.sat (op (valIn f.ty x) (valIn f.ty y) (valIn f.ty d))) s

/-- IADD (R125). -/
def execIadd (h : Hdr) (f : VF) (s : State) : Res :=
  arithOp (.iadd h f) h f (closedBin f fun a b => some (a.zip (· + ·) b)) (fun x y _ => x + y) s

/-- ISUB (R125). -/
def execIsub (h : Hdr) (f : VF) (s : State) : Res :=
  arithOp (.isub h f) h f (closedBin f fun a b => some (a.zip (· - ·) b)) (fun x y _ => x - y) s

/-- IADDC (R126). -/
def execIaddc (h : Hdr) (f : VF) (s : State) : Res :=
  s.issueInk (.iaddc h f) h fun e s =>
    let r := fun l => addCarry f.ty (e.src l f.ty f.a) (e.srcB l f) ((e.g.lane l).pred f.pred.val)
    (s.writeD e f.d fun l => valRegs f.ty.is64 (r l).1).writeP e f.pred.val fun l => (r l).2

/-- IMUL (R125); closed with one uniform operand (Table 3-2). -/
def execImul (h : Hdr) (f : VF) (s : State) : Res :=
  arithOp (.imul h f) h f (closedBin f fun a b =>
    if a.isUni then some (b.map (· * a.base)) else if b.isUni then some (a.map (· * b.base)) else none) (fun x y _ => x * y) s

/-- IMULH (R125). -/
def execImulh (h : Hdr) (f : VF) (s : State) : Res :=
  wideOp (.imulh h f) h f inks (fun x y _ => narrow f.ty false (valIn f.ty x * valIn f.ty y / 2 ^ wBits f.ty)) s

/-- IMAD (R125). -/
def execImad (h : Hdr) (f : VF) (s : State) : Res := arithOp (.imad h f) h f inks (fun x y d => x * y + d) s

/-- IDIV (R127): the quotient is narrowed without clamping, its corners being given. -/
def execIdiv (h : Hdr) (f : VF) (s : State) : Res :=
  wideOp (.idiv h f) h f inks (fun x y _ => narrow f.ty false (idivVal f.ty f.sat (valIn f.ty x) (valIn f.ty y))) s

/-- IREM (R127). -/
def execIrem (h : Hdr) (f : VF) (s : State) : Res :=
  wideOp (.irem h f) h f inks (fun x y _ => narrow f.ty false (iremVal f.ty (valIn f.ty x) (valIn f.ty y))) s

/-- IMIN (R125). -/
def execImin (h : Hdr) (f : VF) (s : State) : Res := arithOp (.imin h f) h f inks (fun x y _ => if x ≤ y then x else y) s

/-- IMAX (R125). -/
def execImax (h : Hdr) (f : VF) (s : State) : Res := arithOp (.imax h f) h f inks (fun x y _ => if x ≤ y then y else x) s

/-- IABS (R125). -/
def execIabs (h : Hdr) (f : VF) (s : State) : Res := arithOp (.iabs h f) h f inks (fun x _ _ => (x.natAbs : Int)) s

/-- INEG (R125). -/
def execIneg (h : Hdr) (f : VF) (s : State) : Res := arithOp (.ineg h f) h f inks (fun x _ _ => -x) s

/-- LEA (R127). -/
def execLea (h : Hdr) (f : VF) (s : State) : Res :=
  s.issueInk (.lea h f) h fun e s => s.writeD e f.d fun l =>
    let sh := if f.imm.isSome then 0 else modBits f.mod 4 0
    let b := e.srcB32 l f
    let b : W64 := if f.ty = .i32 then b.signExtend 64 else b.zeroExtend 64
    valRegs true (e.src64 l false f.a + b * BitVec.ofNat 64 (2 ^ sh))

/-- AND (R128). -/
def execAnd (h : Hdr) (f : VF) (s : State) : Res := wideOp (.and h f) h f inks (fun x y _ => x &&& y) s

/-- OR (R128). -/
def execOr (h : Hdr) (f : VF) (s : State) : Res := wideOp (.or h f) h f inks (fun x y _ => x ||| y) s

/-- XOR (R128). -/
def execXor (h : Hdr) (f : VF) (s : State) : Res := wideOp (.xor h f) h f inks (fun x y _ => x ^^^ y) s

/-- NOT (R128). -/
def execNot (h : Hdr) (f : VF) (s : State) : Res := wideOp (.not h f) h f inks (fun x _ _ => ~~~x) s

/-- SHL (R128); closed for a uniform amount of 0 to 31. -/
def execShl (h : Hdr) (f : VF) (s : State) : Res :=
  shiftOp (.shl h f) h f (closedBin f fun a b =>
    if b.isUni && b.base.toNat < 32 then some (a.map (· <<< b.base.toNat)) else none) (fun x n => shlVal f.ty x n.toNat) s

/-- SHR (R128). -/
def execShr (h : Hdr) (f : VF) (s : State) : Res := shiftOp (.shr h f) h f inks (fun x n => shrVal f.ty x n.toNat) s

/-- SAR (R128). -/
def execSar (h : Hdr) (f : VF) (s : State) : Res := shiftOp (.sar h f) h f inks (fun x n => sarVal f.ty x n.toNat) s

/-- ROTL (R128). -/
def execRotl (h : Hdr) (f : VF) (s : State) : Res := shiftOp (.rotl h f) h f inks (fun x n => rotlVal f.ty x n.toNat) s

/-- BFX (R128). -/
def execBfx (h : Hdr) (f : VF) (s : State) : Res := shiftOp (.bfx h f) h f inks (bfxVal f.ty) s

/-- BFI (R128). -/
def execBfi (h : Hdr) (f : VF) (s : State) : Res :=
  s.issueInk (.bfi h f) h fun e s => s.writeD e f.d fun l =>
    valRegs f.ty.is64 (bfiVal f.ty (e.src l f.ty f.a) (e.srcB32 l f) (e.src l f.ty f.c))

/-- A 32-bit result from A. -/
def countOp (i : Instr) (h : Hdr) (f : VF) (op : Nat → Nat) (s : State) : Res :=
  s.issueInk i h fun e s => s.writeD e f.d fun l => [BitVec.ofNat 32 (op (e.src l f.ty f.a).toNat)]

/-- POPC (R128). -/
def execPopc (h : Hdr) (f : VF) (s : State) : Res := countOp (.popc h f) h f (popBits 64) s

/-- CLZ (R128). -/
def execClz (h : Hdr) (f : VF) (s : State) : Res := countOp (.clz h f) h f (clzBits (wBits f.ty)) s

/-- BREV (R128). -/
def execBrev (h : Hdr) (f : VF) (s : State) : Res :=
  wideOp (.brev h f) h f inks (fun x _ _ => BitVec.ofNat 64 (revBits (wBits f.ty) x.toNat)) s

/-- SEL (R129); closed when the two source forms are identical. -/
def execSel (h : Hdr) (f : VF) (s : State) : Res :=
  s.issue (.sel h f) h (closedBin f fun a b => if a = b then some a else none) fun e s => s.writeD e f.d fun l =>
    valRegs f.ty.is64 (if (e.g.lane l).pred f.pred.val then e.src l f.ty f.a else e.srcB l f)

/-- The predicate that ICMP writes in a stroke (Table 3-2): uniform when the exact difference is and neither operand leaves
the type's range over the stroke. -/
def icmpForm (s : State) (st : Stroke) (c : Cmp) (signed : Bool) (a b : Form) : PForm :=
  let x := a.exact signed
  let y := b.exact signed
  let d := x.sub y
  let w2 := s.launchWord st.ctx st.launch 2
  let (l0, nl) := roleLanes (natBits w2 5 2) (natBits w2 10 6) st.consumer
  let stays := fun z => inTypeRange z signed st.box l0 (l0 + nl - 1)
  if d.cx = 0 && d.cy = 0 && d.cz = 0 && d.cl = 0 && stays x && stays y then .uni (Cmp.ofDiff c d.base)
  else .cmp c signed a b

/-- ICMP (R129); in a stroke a compare form (R31). -/
def execIcmp (h : Hdr) (f : VF) (s : State) : Res :=
  s.issue (.icmp h f) h
    (fun s st =>
      if !closable f then none
      else match st.form (st.tx s) (st.ty s) f.a, st.formB s f with
        | some a, some b => some (s, st.setP f.pred.val (icmpForm s st (Cmp.ofCode f.rc) (f.ty == .i32) a b))
        | _, _ => none)
    fun e s => s.writeP e f.pred.val fun l =>
      icmpVal (Cmp.ofCode f.rc) (valIn f.ty (e.src l f.ty f.a)) (valIn f.ty (e.srcB l f))

/-- The forms of a register or pair operand; a named constant as a 64-bit source has none (R67). -/
def Stroke.formsOf (st : Stroke) (s : State) (is64 : Bool) (o : Opnd) : Option (List Form) :=
  if is64 then
    match o with
    | .k _ => none
    | _ => match st.form (st.tx s) (st.ty s) o, st.form (st.tx s) (st.ty s) (Opnd.next o) with
      | some a, some b => some [a, b]
      | _, _ => none
  else (st.form (st.tx s) (st.ty s) o).map fun a => [a]

/-- Forms written to consecutive registers. -/
def Stroke.setForms (st : Stroke) (d : Opnd) : List Form → Option Stroke
  | [] => some st
  | a :: as => match st.setForm d a with
    | some st => st.setForms (Opnd.next d) as
    | none => none

/-- MOV (R129). -/
def execMov (h : Hdr) (f : VF) (s : State) : Res :=
  s.issue (.mov h f) h
    (fun s st => match st.formsOf s f.ty.is64 f.a with
      | some as => (st.setForms f.d as).map fun st => (s, st)
      | none => none)
    fun e s => s.writeD e f.d fun l => valRegs f.ty.is64 (e.src l f.ty f.a)

/-- MOVI (R129). -/
def execMovi (h : Hdr) (f : VF) (s : State) : Res :=
  s.issue (.movi h f) h
    (fun s st =>
      (st.setForms f.d ((valRegs f.ty.is64 (immVal f.ty (f.imm.getD 0))).map Form.uni)).map fun st => (s, st))
    fun e s => s.writeD e f.d fun _ => valRegs f.ty.is64 (immVal f.ty (f.imm.getD 0))

/-- MOVS (R129): an exchange; nothing changes where both name one register. -/
def execMovs (h : Hdr) (f : VF) (s : State) : Res :=
  s.issue (.movs h f) h
    (fun s st => match st.formsOf s f.ty.is64 f.a, st.formsOf s f.ty.is64 f.d with
      | some as, some ds => match st.setForms f.d as with
        | some st => (st.setForms f.a ds).map fun st => (s, st)
        | none => none
      | _, _ => none)
    fun e s =>
      if f.a = f.d then s
      else (s.writeD e f.d fun l => valRegs f.ty.is64 (e.src l f.ty f.a)).writeD e f.a fun l =>
        valRegs f.ty.is64 (e.src l f.ty f.d)

end Sys2Proof.Machine
end

