-- ==== Sys2Proof/Machine/Memory.lean ====
section
/-! DEFINITION. Memory access, atomics, fences and copy batches (R212 to R232). -/

namespace Sys2Proof.Machine

/-! ## Loads -/

/-- The destination of a lane: an s register receives the value of the lowest participating lane only (R70, R220). -/
def Env.dest (e : Env) (l : Nat) (d : Opnd) (n bytes : Nat) (sext : Bool) : Dest :=
  let x := destOf d n bytes sext
  if x.scalar && e.active.head? != some l then { x with n := 0 } else x

/-- What a load asks (Table 13-4). -/
def loadAsk (va : W64) (n : Nat) (sc : Scope) : Ask :=
  { va := va, bytes := n, align := n, need := { r := true }, kind := some .read, tagck := true, ecc := true, near := some sc }

/-- The listed lanes load, at a scope and with an order (R217). -/
def State.loadLanes (s : State) (e : Env) (ls : List Nat) (f : MF) (sc : Scope) (o : Order) : State :=
  let n := f.size.bytes
  let (s, ok) := s.eachLane e ls (fun l => loadAsk (e.va l f) n sc) fun l pa pte s =>
    let (a, s) := s.access e l f (e.va l f) pa pte
    s.pushLoad e.core e.slot
      { acc := { a with scope := sc, order := o }, bytes := n, dst := e.dest l f.d f.size.regs n f.sext }
  s.acquired e o ok

/-- The address of a load in a stroke: a uniform base pair and the offset (R34, R216). -/
def strokeVa (f : MF) (s : State) (st : Stroke) : Option W64 :=
  (match f.a with
    | .k _ => some 0
    | a => st.uniPair s a).map fun b => b + f.off.signExtend 64

/-- What Table 3-2 asks of a load: a uniform address, and a destination that holds forms. -/
def loadCloses (f : MF) (s : State) (st : Stroke) : Bool :=
  (strokeVa f s st).isSome && (st.setForms f.d (List.replicate f.size.regs (.uni 0))).isSome

/-- A load in a stroke (R34, R216): one checked access for the whole range, its value written as uniform forms. The reply of
another die comes within the step (log 68), and an older one on its way then fills no cache (R179); while a walk or a stack holds the
access, the stroke stays at the instruction. -/
def strokeLoad (f : MF) (sc : Scope) (o : Order) : Closed := fun s st =>
  match strokeVa f s st with
  | none => none
  | some va =>
    let n := f.size.bytes
    let c := s.iss.core
    if va.toNat % n == 0 && s.walkWaits c st.ctx va then some (s, { st with pc := s.iss.pc }) else
    let regs := match s.context st.ctx with | some x => x.watch | none => []
    let watch := fun pa => lowestHit (watchIn regs .read false false (untag va).toNat n (fun _ => true)
      ++ (s.watchTable st.ctx .read false pa n).map fun w => (w.index, w.base - pa))
    match s.checkAs c st.ctx false watch (loadAsk va n sc) with
    | (.error _, _) => none
    | (.ok (pa, pte), s) =>
      let (l1, rdc) := s.fills c sc f.policy pa pte
      let fin := fun (s : State) (bs : List Byte) =>
        let (bs, s) := s.softRead pa bs
        (st.setForms f.d (((destOf f.d f.size.regs n f.sext).regs (ofBytes bs)).map Form.uni)).map fun st =>
          (if isAcq o then s.acquire c sc else s, st)
      match s.nearLine c sc pa n pte with
      | some x => fin (s.servedNear c sc f.policy x l1) ((x.data.drop (pa % 128)).take n)
      | none =>
        if !s.linked (dieOf c) (homeDie pa) then none
        else if s.held pa && !s.homeHit pa n then
          if s.overdue (stackOf pa) then none else some (s, { st with pc := s.iss.pc })
        else
          let s := (s.homeLoad pa n f.policy).readAtHome c (dieOf c) (pa / 128)
          fin (s.fillNear c (s.lineOf (dieOf c) (pa / 128) (coverBlock pa (pa + n))) l1 rdc f.policy s.nextId) (s.bytes pa n)

/-- LD (R217). -/
def execLd (h : Hdr) (f : MF) (s : State) : Res :=
  s.issueIf (.ld h f) h (loadCloses f) (strokeLoad f f.scope f.order) fun e s => s.loadLanes e e.active f f.scope f.order

/-- LDC (R219): as a relaxed load of scope .C. -/
def execLdc (h : Hdr) (f : MF) (s : State) : Res :=
  s.issueIf (.ldc h f) h (loadCloses f) (strokeLoad f .c .relaxed) fun e s => s.loadLanes e e.active f .c .relaxed

/-- LDS (R220): by the lowest participating lane. -/
def execLds (h : Hdr) (f : MF) (s : State) : Res :=
  s.issueInk (.lds h f) h fun e s => s.loadLanes e (e.active.take 1) f f.scope f.order

/-- Bring a line into the caches of a scope (R221): a line homed elsewhere by a die-link read. -/
def State.bringLine (s : State) (c : Nat) (sc : Scope) (po : Policy) (ctx pa : Nat) (pte : W64) : State :=
  let (l1, rdc) := s.fills c sc po pa pte
  if homeDie pa = dieOf c then
    if s.held pa && !s.homeHit (pa / 128 * 128) 128 then s
    else
      let s := s.homeLoad (pa / 128 * 128) 128 po
      s.fillNear c (s.lineOf (dieOf c) (pa / 128) (pa / 128 * 128, 128)) l1 false po s.nextId
  else
    let p : Pkt := { op := 0x01, src := 0, dst := 0, scope := sc, policy := po, ctx := ctx, aop := 15,
                     addr := pa / 128 * 128 }
    let (at_, s) := s.fresh
    match s.request (dieOf c) (.fill c l1 rdc po at_) p [] with
    | some (_, s) => s
    | none => s

/-- The prefetch of a lane (R221): dropped when a check fails; an address that the translation caches do not hold goes to the walker,
and waits while that has no free entry (R163). -/
def State.prefetchLane (s : State) (e : Env) (f : MF) (l : Nat) : State :=
  let va := e.va l f
  let d := s.die (dieOf e.core)
  match (s.core e.core).leaf e.g.ctx va with
  | none =>
    if Config.walkerEntries ≤ d.walks.length then s.waitAt e [l] (.reach va 0)
    else s.setDie (dieOf e.core) { d with
      walks := d.walks ++ [{ ctx := e.g.ctx, va := va, core := e.core, pref := true, scope := f.scope, policy := f.policy }] }
  | some _ =>
    match s.check e l { va := va, bytes := 1, need := { r := true }, tagck := true } with
    | (.error _, _) => s
    | (.ok (pa, pte), s) => if s.bad pa 1 then s else s.bringLine e.core f.scope f.policy e.g.ctx pa pte

/-- PREF (R221). -/
def execPref (h : Hdr) (f : MF) (s : State) : Res :=
  s.issueInk (.pref h f) h fun e s => e.active.foldl (fun s l => s.prefetchLane e f l) s

/-! ## Stores -/

/-- The stored bytes of a lane: the low bytes of B (R217). -/
def Env.stored (e : Env) (l : Nat) (f : MF) : List Byte := bytesOf f.size.bytes (ofWords (e.srcN l f.b f.size.regs))

/-- Checked entries of the store queue, one for each active lane, after what a release orders before them. -/
def State.storeLanes (s : State) (e : Env) (f : MF) (ask : Nat → Ask) (kind : Nat → StoreKind) : State :=
  s.ordered e f.order f.scope e.active fun s =>
    let (s, ok) := s.eachLane e e.active ask fun l pa pte s =>
      let (a, s) := s.access e l f (ask l).va pa pte
      s.pushStore e.core e.slot { acc := a, kind := kind l }
    s.acquired e f.order ok

/-- ST (R217). -/
def execSt (h : Hdr) (f : MF) (s : State) : Res :=
  s.issueInk (.st h f) h fun e s => s.storeLanes e f
    (fun l => { va := e.va l f, bytes := f.size.bytes, align := f.size.bytes, need := { w := true }, kind := some .write,
                tagck := true, ecc := true })
    fun l => .store (e.stored l f)

/-! ## Local memory -/

/-- The fault of a lane's local access (R168, R215). -/
def State.localFault (s : State) (e : Env) (l a n align : Nat) (k : AKind) : Option FaultRec :=
  if a % align != 0 then some { code := cALIGN, addr := BitVec.ofNat 64 a }
  else if !inRegion e.team a n then some { code := cPERM, addr := BitVec.ofNat 64 a }
  else if (e.g.lane l).wskip = some e.pc then none
  else (lowestHit (s.watchGroup e.core e.slot e.g.watch l k false true a n)).map fun (i, off) =>
    { code := cWATCH, addr := BitVec.ofNat 64 (a + off), num := BitVec.ofNat 16 i }

/-- A local access of each active lane: the set waits while a line that it touches is absent; a lane whose checks fail faults
alone (R170, R218). -/
def State.localLanes (s : State) (e : Env) (f : MF) (k : AKind) (go : Nat → Nat → State → State) : State :=
  s.ordered e f.order f.scope e.active fun s =>
    let n := f.size.bytes
    let fault := fun l => s.localFault e l (e.la l f) n n k
    let good := e.active.filter fun l => (fault l).isNone
    let lines := sortDedup (good.flatMap fun l => teamLines e.team (e.la l f) n)
    if !(s.core e.core).present lines then s.waitAt e e.lanes (.lines lines)
    else
      let s := good.foldl (fun s l => go l (128 * e.team.lbase + e.la l f) s) s
      e.active.foldl (fun s l => match fault l with
        | some x => s.raise e l x
        | none => s) s

/-- LDL (R218). -/
def execLdl (h : Hdr) (f : MF) (s : State) : Res :=
  s.issueInk (.ldl h f) h fun e s => s.localLanes e f .read fun l a s =>
    s.arrive e.core e.slot l (e.dest l f.d f.size.regs f.size.bytes f.sext)
      (ofBytes ((s.core e.core).lbytes a f.size.bytes)) true

/-- STL (R218). -/
def execStl (h : Hdr) (f : MF) (s : State) : Res :=
  s.issueInk (.stl h f) h fun e s => s.localLanes e f .write fun l a s => s.lwrite e.core a (e.stored l f)

/-! ## Cache control -/

/-- Do what follows the loads of the listed lanes: at once when they have returned, else the lanes wait. -/
def State.afterLoads (s : State) (e : Env) (ls : List Nat) (k : State → State) : State :=
  if ls.all fun l => (s.group e.core e.slot).loadsDone l then k s else s.waitAt e ls .loads

/-- A CCTL of one line (R222): read right, then the effect on the line. -/
def State.lineControl (s : State) (e : Env) (f : MF) (go : Nat → Nat → W64 → State → State) : State :=
  s.afterLoads e e.active fun s =>
    (s.eachLane e e.active (fun l => { va := e.va l f, bytes := 1, need := { r := true } }) go).1

/-- CCTL.IL1 (R222). -/
def execCctlIl1 (h : Hdr) (f : MF) (s : State) : Res :=
  s.issueInk (.cctlIl1 h f) h fun e s => s.lineControl e f fun _ pa _ s =>
    s.modCore e.core fun k => { k with l1 := dropLine k.l1 (pa / 128) }

/-- CCTL.IRD (R222). -/
def execCctlIrd (h : Hdr) (f : MF) (s : State) : Res :=
  s.issueInk (.cctlIrd h f) h fun e s => s.lineControl e f fun _ pa _ s =>
    s.modDie (dieOf e.core) fun d => { d with rdc := dropLine d.rdc (pa / 128) }

/-- CCTL.WB (R222): performed at the line's home. -/
def execCctlWb (h : Hdr) (f : MF) (s : State) : Res :=
  s.issueInk (.cctlWb h f) h fun e s => s.lineControl e f fun l pa pte s =>
    let (a, s) := s.access e l f (e.va l f) (pa / 128 * 128) pte
    s.pushStore e.core e.slot { acc := a, kind := .writeback }

/-- CCTL.IL1ALL (R222). -/
def execCctlIl1all (h : Hdr) (f : MF) (s : State) : Res :=
  s.issueInk (.cctlIl1all h f) h fun e s =>
    if e.active.isEmpty then s else s.afterLoads e e.active fun s => s.emptyL1 e.core

/-- CCTL.IRDALL (R222). -/
def execCctlIrdall (h : Hdr) (f : MF) (s : State) : Res :=
  s.issueInk (.cctlIrdall h f) h fun e s =>
    if e.active.isEmpty then s
    else s.afterLoads e e.active fun s => s.emptyRdc (dieOf e.core)

/-! ## Memory tags -/

/-- LDTAG (R223). -/
def execLdtag (h : Hdr) (f : MF) (s : State) : Res :=
  s.issueInk (.ldtag h f) h fun e s =>
    let (s, ok) := s.eachLane e e.active (fun l => { va := e.va l f, bytes := 1, need := { r := true } }) fun l pa pte s =>
      let (a, s) := s.access e l f (e.va l f) pa pte
      s.pushLoad e.core e.slot { acc := a, bytes := 1, dst := e.dest l f.d 1 4 false, tag := true }
    s.acquired e f.order ok

/-- STTAG (R223). -/
def execSttag (h : Hdr) (f : MF) (s : State) : Res :=
  s.issueInk (.sttag h f) h fun e s => s.storeLanes e f
    (fun l => { va := e.va l f, bytes := 64, align := 64, need := { w := true }, kind := some .write })
    fun l => .tag (field (e.src32 l f.b) 0 4) (f.mod.getLsbD 0)

/-! ## Atomics -/

/-- What a global atomic asks (Table 13-4). -/
def atomAsk (e : Env) (f : MF) (l : Nat) : Ask :=
  { va := e.va l f, bytes := f.size.bytes, align := f.size.bytes, need := { r := true, w := true }, kind := some .atomic,
    tagck := true, ecc := true }

/-- The operation of an atomic for a lane (R225, R226). -/
def Env.atomOp (e : Env) (l : Nat) (f : MF) (cas : Bool) : AtomOp :=
  { sub := if cas then 8 else f.sub.toNat, ty := (atomTy f).getD .b32, ebf := f.mod.getLsbD 5, cas := cas,
    operand := e.src l ((atomTy f).getD .b32) f.b,
    compare := if cas then BitVec.ofNat 64 (ofWords (e.srcN l f.d f.size.regs)) else 0 }

/-- ATOM (R225, R227). -/
def execAtom (h : Hdr) (f : MF) (s : State) : Res :=
  s.issueInk (.atom h f) h fun e s => s.storeLanes e f (atomAsk e f) fun l =>
    .atom (e.atomOp l f false) (some (e.dest l f.d f.size.regs f.size.bytes false))

/-- ATOMC (R226). -/
def execAtomc (h : Hdr) (f : MF) (s : State) : Res :=
  s.issueInk (.atomc h f) h fun e s => s.storeLanes e f (atomAsk e f) fun l =>
    let d := e.dest l f.d f.size.regs f.size.bytes false
    .atom (e.atomOp l f true) (some { d with pred := some f.pred.val })

/-- RED (R225, R227). -/
def execRed (h : Hdr) (f : MF) (s : State) : Res :=
  s.issueInk (.red h f) h fun e s => s.storeLanes e f (atomAsk e f) fun l => .atom (e.atomOp l f false) none

/-- Contributions that a launch's ordered-sum area holds or will hold for entries still queued (R194). -/
def State.contributions (s : State) (ctx launch : Nat) : Nat :=
  let held := match s.launch ctx launch with
    | some l => (l.slots.map fun o => o.contrib.length).foldl (· + ·) 0
    | none => 0
  let queued := fun (g : Group) => if g.ctx == ctx && g.launch == launch then (g.sq.filter fun q => match q.kind with
    | .ordered _ => true
    | _ => false).length else 0
  held + ((s.cores.flatMap fun (_, k) => k.groups.map fun (_, g) => queued g).foldl (· + ·) 0)

/-- The ATOMO of a lane (R194, R228): PERM where the ordered-sum area is full, in its place among the rights of R12. -/
def State.orderedLane (s : State) (e : Env) (f : MF) (l : Nat) : State :=
  let full := e.word 24 ≤ s.contributions e.g.ctx e.g.launch
  if s.checkWaits e (atomAsk e f l) then s.waitAt e [l] (.reach (e.va l f) 0)
  else match s.check e l { atomAsk e f l with later := true } with
    | (.error x, s) =>
      s.raise e l (if full && (x.code == cTAG || x.code == cWATCH || x.code == cECC) then
        { code := cPERM, addr := e.va l f } else x)
    | (.ok (pa, pte), s) =>
      if full then s.raise e l { code := cPERM, addr := e.va l f }
      else
        let (a, s) := s.access e l f (e.va l f) pa pte
        s.pushStore e.core e.slot { acc := a, kind := .ordered (e.src32 l f.b) }

/-- ATOMO (R228). -/
def execAtomo (h : Hdr) (f : MF) (s : State) : Res :=
  s.issueInk (.atomo h f) h fun e s => e.active.foldl (fun s l => s.orderedLane e f l) s

/-- ATOML (R225, R226): the local-memory atomic; sub-function 8 writes its success to a predicate. -/
def execAtoml (h : Hdr) (f : MF) (s : State) : Res :=
  s.issueInk (.atoml h f) h fun e s => s.localLanes e f .atomic fun l a s =>
    let n := f.size.bytes
    let cas := f.sub == 8
    let o := e.atomOp l f cas
    let m := BitVec.ofNat 64 (ofBytes ((s.core e.core).lbytes a n))
    let d := e.dest l f.d f.size.regs n false
    (s.lwrite e.core a (bytesOf n (o.apply m).toNat)).arrive e.core e.slot l
      { d with pred := if cas then some f.pred.val else none } m.toNat (m == o.compare)

/-! ## Fences -/

/-- FENCE (R185, R229). -/
def execFence (h : Hdr) (f : MF) (s : State) : Res :=
  s.issueInk (.fence h f) h fun e s =>
    if e.active.isEmpty then s
    else if isRel f.order then
      s.released e f.scope e.active fun s => if isAcq f.order then s.acquire e.core f.scope else s
    else s.afterLoads e e.active fun s => s.acquire e.core f.scope

/-- FENCEO (R186): it marks the group's stores so far. -/
def execFenceo (h : Hdr) (f : MF) (s : State) : Res :=
  s.issueInk (.fenceo h f) h fun e s =>
    if e.active.isEmpty then s else s.modGroup e.core e.slot fun g => { g with fenceo := s.nextId }

/-- A core lies within a scope of another (R177). -/
def coreWithin (sc : Scope) (c k : Nat) : Bool :=
  match sc with
  | .g | .t | .c => c == k
  | .k => clusterOf c == clusterOf k
  | .d => dieOf c == dieOf k
  | .p | .s => true

/-- The groups within a scope whose stores before their latest FENCEO are not all performed there: core, slot and bound. -/
def State.fenceoMarks (s : State) (c : Nat) (sc : Scope) : List (Nat × Nat × Nat) :=
  s.cores.flatMap fun (k, x) => if coreWithin sc c k then
    x.groups.filterMap fun (n, g) => if g.sq.all fun q => q.done sc g.fenceo then none else some (k, n, g.fenceo) else []

/-- The marked stores are performed at the scope. -/
def State.coresDone (s : State) (marks : List (Nat × Nat × Nat)) (sc : Scope) : Bool :=
  marks.all fun (k, n, m) => (s.group k n).sq.all fun q => q.done sc m

/-- The lanes of the set stand at a FENCEX that has started, and hold its marks. -/
def Env.begun (e : Env) : Bool :=
  e.active.all fun l => match (e.g.lane l).wait with
    | .cond (.cores _) => true
    | _ => false

/-- Every L1, and for a scope of .D or .P every remote-data cache, within a scope of a core loses its lines. -/
def State.emptyWithin (s : State) (c : Nat) (sc : Scope) : State :=
  let s := (s.cores.keys.filter fun k => coreWithin sc c k).foldl State.emptyL1 s
  (s.dies.keys.filter fun d => 4 ≤ Scope.rank sc && (d == dieOf c || 5 ≤ Scope.rank sc)).foldl State.emptyRdc s

/-- FENCEX (R186, R229), an acquire-release fence for its lanes. It starts once the group's own earlier accesses are performed at its
scope: a FENCEO issued before that moment has its earlier stores performed there before the FENCEX completes, and after one issued
later no cache within the scope holds what the FENCEX's own lanes have overwritten (log 70). -/
def execFencex (h : Hdr) (f : MF) (s : State) : Res :=
  s.issueInk (.fencex h f) h fun e s =>
    if e.active.isEmpty then s
    else if e.begun then s.acquire e.core f.scope
    else s.released e f.scope e.active fun s =>
      let marks := s.fenceoMarks e.core f.scope
      let s := s.emptyWithin e.core f.scope
      if marks.isEmpty then s.acquire e.core f.scope else s.waitAt e e.active (.cores marks)

/-- The remote requests and third-party reads of a lane have completed or failed (R230). -/
def State.remoteDone (s : State) (c slot lane before : Nat) : Bool :=
  (s.die (dieOf c)).reqs.all (fun r => !(r.core == c && r.slot == slot && r.lane == lane) || before ≤ r.id)
    && (s.core c).cmds.all fun k => !(k.kind == .rrd3 && k.slot == slot && k.lane == lane) || before ≤ k.after

/-- The sticky bits of ranks base to base + 31 of a context (R230, R329). -/
def Context.stickyWord (x : Context) (base : Nat) : W32 :=
  let n := match (x.comms.get {} x.fcomm).adopted with
    | some t => t.ranks.length
    | none => 0
  maskOf 32 ((upto 32).filter fun i => x.sticky.contains (base + i) && base + i < n)

/-- FENCEP (R230). -/
def execFencep (h : Hdr) (f : MF) (s : State) : Res :=
  s.issueInk (.fencep h f) h fun e s =>
    if e.active.isEmpty then s
    else if !e.active.all fun l => s.remoteDone e.core e.slot l s.nextId then s.waitAt e e.active (.remote s.nextId)
    else s.released e .s e.active fun s =>
      let s := s.acquire e.core .s
      let x := (s.context e.g.ctx).getD {}
      let base := fun l => (e.src32 l f.b).toNat / 32 * 32
      let s := s.writeD e f.d fun l => [x.stickyWord (base l)]
      if f.mod.getLsbD 0 then
        s.modContext e.g.ctx fun x => { x with sticky := x.sticky.filter fun r => !(e.active.any fun l =>
          base l ≤ r && r < base l + 32 && (x.stickyWord (base l)).getLsbD (r - base l)) }
      else s

/-! ## Copy batches -/

/-- CBSEAL (R231). -/
def execCbseal (h : Hdr) (f : MF) (s : State) : Res :=
  s.issueInk (.cbseal h f) h fun e s => e.active.foldl (fun s l => s.modLane e.core e.slot l fun x =>
    let n := f.mod.toNat % 16
    { x with batches := SMap.set [] x.batches n (x.batches.get [] n ++ x.unsealed), unsealed := [] }) s

/-- CBWAIT (R231): the lanes whose batch is not empty wait. -/
def execCbwait (h : Hdr) (f : MF) (s : State) : Res :=
  s.issueInk (.cbwait h f) h fun e s =>
    let n := f.mod.toNat % 16
    s.waitAt e (e.active.filter fun l => !((e.g.lane l).batches.get [] n).isEmpty) (.batch n)

end Sys2Proof.Machine
end

