-- ==== Sys2Proof/Machine/Shape.lean ====
section
/-! DEFINITION. Shape registers, tensor identifier records, the walk of a tile, and the global and local accesses of engines
(R235 to R248, R323, R360). -/

namespace Sys2Proof.Machine

/-! ## Fields of records -/

/-- A field of a 64-byte record as a number. -/
def recField (r : BitVec 512) (lo len : Nat) : Nat := (r.extractLsb' lo len).toNat

/-- A 64-byte record from its bytes, little-endian (R238). -/
def recOf (bs : List Byte) : BitVec 512 := BitVec.ofNat 512 (ofBytes bs)

/-- The bytes of a record. -/
def recBytes (r : BitVec 512) : List Byte := bytesOf 64 r.toNat

/-- A shape field's lowest bit and width, by its number (Tables 15-2 and 15-3). -/
def shapeField (n : Nat) : Nat × Nat :=
  match n with
  | 0 => (0, 64)
  | 1 => (64, 8)
  | 2 => (72, 3)
  | 3 => (80, 8)
  | 16 => (440, 32)
  | n => if n < 8 then (88 + 24 * (n - 4), 24) else if n < 12 then (184 + 48 * (n - 8), 48) else (376 + 16 * (n - 12), 16)

/-- A tensor field's lowest bit and width, by its number (Tables 15-4 and 15-5). -/
def tensorField (n : Nat) : Nat × Nat :=
  match n with
  | 0 => (0, 64)
  | 1 => (64, 8)
  | 2 => (72, 3)
  | 3 => (75, 1)
  | 4 => (76, 2)
  | 5 => (80, 6)
  | 6 => (88, 7)
  | 7 => (96, 4)
  | n => if n < 12 then (104 + 24 * (n - 8), 24) else (200 + 48 * (n - 12), 48)

/-- A record with a field replaced. -/
def recSet (r : BitVec 512) (lo len x : Nat) : BitVec 512 :=
  BitVec.ofNat 512 (r.toNat - recField r lo len * 2 ^ lo + x % 2 ^ len * 2 ^ lo)

/-- The format of a record: none for a code that Table 5-11 does not list or bits 7:5 set. -/
def recFormat (r : BitVec 512) : Option Ty := if recField r 69 3 = 0 then Ty.ofCode (recField r 64 5) else none

def recRank (r : BitVec 512) : Nat := recField r 72 3

/-- A signed field. -/
def recSigned (r : BitVec 512) (lo len : Nat) : Int := (r.extractLsb' lo len).toInt

/-! ## Layouts -/

/-- Where the elements of a global array lie: base, the tag of its accesses, rank, element width, extents and strides of the
four dimensions, and the swizzle of the in-memory layout. -/
structure Layout where
  base : W64
  tag : BitVec 4
  rank : Nat
  e : Nat
  ext : List Nat
  stride : List Nat
  swz : Nat

/-- The layout of a shape register (R241). -/
def shapeLayout (r : BitVec 512) : Layout :=
  { base := r.extractLsb' 0 64, tag := r.extractLsb' 56 4, rank := recRank r, e := ((recFormat r).getD .b32).width,
    ext := (upto 4).map fun d => recField r (88 + 24 * d) 24, stride := (upto 4).map fun d => recField r (184 + 48 * d) 48,
    swz := 0 }

/-- The layout of a tensor record (R244, R245). -/
def tensorLayout (r : BitVec 512) : Layout :=
  { base := r.extractLsb' 0 64, tag := r.extractLsb' 96 4, rank := recRank r, e := ((recFormat r).getD .b32).width,
    ext := (upto 4).map fun d => recField r (104 + 24 * d) 24, stride := (upto 4).map fun d => recField r (200 + 48 * d) 48,
    swz := recField r 76 2 }

/-- The extent of a dimension: 1 at or above the rank (R241). -/
def Layout.extent (t : Layout) (d : Nat) : Nat := if d < t.rank then t.ext[d]?.getD 0 else 1

/-- The swizzle of an offset y into the tile (R241). -/
def swzOff (m y : Nat) : Nat :=
  if m = 0 then y else 128 * (y / 128) + 16 * (Nat.xor (y / 16 % 8) (y / 128 % 2 ^ m)) + y % 16

/-- The address of an element and whether it is a high nibble; none out of bounds (R241, R245). -/
def Layout.addr (t : Layout) (g : List Nat) : Option (W64 × Bool) :=
  let at_ := fun d => g[d]?.getD 0
  let st := fun d => t.stride[d]?.getD 0
  if (upto 4).all fun d => at_ d < t.extent d then
    let bits := at_ 0 * st 0 * t.e
    let off := swzOff t.swz (bits / 8 + at_ 1 * st 1 + at_ 2 * st 2 + at_ 3 * st 3)
    some ((untag (t.base + BitVec.ofNat 64 off)) ||| (t.tag.zeroExtend 64 <<< 56), t.e == 4 && bits / 4 % 2 == 1)
  else none

/-! ## The check of a shape register (R240) -/

/-- The box of a shape register. -/
def shapeBox (r : BitVec 512) : List Nat := (upto 4).map fun d => recField r (376 + 16 * d) 16

def shapeSwz (r : BitVec 512) : Nat := recField r 81 2

/-- The span of each dimension below the rank (R240), exact. -/
def Layout.spanFrom (t : Layout) (prev : Int) : Nat → Nat → Bool
  | _, 0 => false
  | d, n + 1 =>
    let st : Int := (t.stride[d]?.getD 0 : Nat)
    st < prev || t.spanFrom (((t.ext[d]?.getD 0 : Nat) - 1) * st + prev) (d + 1) n

/-- The rows overlap (R240). -/
def Layout.overlaps (t : Layout) : Bool :=
  let bits : Int := (((t.ext[0]?.getD 0 : Nat) : Int) - 1) * (t.stride[0]?.getD 0 : Nat) + 1
  t.spanFrom (-((-(bits * t.e)) / 8)) 1 (t.rank - 1)

/-- The conditions of R240 that raise SHAPE: `tile` is the tile's local offset, where the transfer has one. -/
def shapeBad (r : BitVec 512) (tile : Option Nat) (globalDst : Bool) : Bool :=
  let t := shapeLayout r
  let box := shapeBox r
  t.rank == 0 || 4 < t.rank || recField r 75 5 != 0 || recField r 83 5 != 0 || recField r 472 40 != 0
    || (match recFormat r with
      | none => true
      | some f => f == .x2 || (f.width == 4 && (box[0]?.getD 0) % 2 == 1))
    || recField r 0 4 != 0
    || (rangeFrom 1 (t.rank - 1)).any (fun d => (t.stride[d]?.getD 0) % 16 != 0)
    || t.stride[0]?.getD 0 == 0
    || (rangeFrom t.rank (4 - t.rank)).any (fun d => box[d]?.getD 0 != 1)
    || (match tile with
      | some x => x % (if shapeSwz r = 0 then 16 else 128) != 0
      | none => false)
    || (t.overlaps && (recField r 80 1 == 0 || globalDst))

/-- A shape makes its transfer empty (R242). -/
def shapeEmpty (r : BitVec 512) : Bool :=
  let t := shapeLayout r
  (shapeBox r).any (· == 0) || (upto t.rank).any fun d => t.ext[d]?.getD 0 == 0

/-- Elements and bytes of a tile (R241). -/
def boxCount (box : List Nat) : Nat := box.foldl (· * ·) 1

/-- The four coordinates of element i of a box, x0 fastest (R241). -/
def boxCoords (box : List Nat) (i : Nat) : List Nat :=
  let b := fun d => box[d]?.getD 1
  [i % b 0, i / b 0 % b 1, i / (b 0 * b 1) % b 2, i / (b 0 * b 1 * b 2)]

/-- Coordinates with an origin added in the dimensions below a rank (R241). -/
def addOrigin (rank : Nat) (org xs : List Nat) : List Nat :=
  mapFrom (fun d x => if d < rank then org[d]?.getD 0 + x else x) 0 xs

/-! ## Tensor identifier records (R244, R245) -/

/-- The formats of Table 15-4 that R245 accepts. -/
def tensorTypes : List Ty := [.f4, .f8a, .f8b, .f16, .bf16, .f32, .i8, .n8, .i4, .n4, .i32]

/-- The conditions of R245. -/
def tensorBad (r : BitVec 512) : Bool :=
  let t := tensorLayout r
  recField r 75 1 == 0 || t.rank == 0 || 4 < t.rank || recField r 78 2 != 0 || recField r 86 2 != 0 || recField r 95 1 != 0
    || recField r 100 4 != 0 || recField r 392 120 != 0
    || !((recFormat r).map tensorTypes.contains).getD false
    || recField r 0 4 != 0 || (rangeFrom 1 3).any (fun d => (t.stride[d]?.getD 0) % 16 != 0) || t.stride[0]?.getD 0 == 0
    || (t.swz != 0 && recField r 0 7 != 0)

/-- The address of a tensor identifier's entry (R244). -/
def State.tidAddr (s : State) (ctx n : Nat) : W64 :=
  (match s.context ctx with
    | some x => x.tidbase
    | none => 0) + BitVec.ofNat 64 (64 * n)

/-- The entry that a tile handle names, as an instruction reads it at issue: the record, or its fault (R245). -/
def State.entryOf (s : State) (c slot ctx : Nat) (handle : W64) : Except FaultRec (BitVec 512) :=
  match s.readRecord c slot ctx (s.tidAddr ctx (field handle 56 8).toNat) 64 with
  | .error (code, va) => .error { code := code, addr := va }
  | .ok bs => if tensorBad (recOf bs) then .error { code := cTIDBAD } else .ok (recOf bs)

/-- Where the entry of a tile handle stands, with its size. -/
def State.tidRange (s : State) (ctx : Nat) (handle : W64) : W64 × Nat := (s.tidAddr ctx (field handle 56 8).toNat, 64)

/-- Do what follows with the entry of a tile handle that an instruction reads at issue: the PC set waits until it can be read, and the nib
lane takes the fault of the read or of the record. -/
def State.withEntry (s : State) (e : Env) (n : Nat) (handle : W64) (k : BitVec 512 → State → State) : State :=
  s.afterRecords e [s.tidRange e.g.ctx handle] fun s => match s.entryOf e.core e.slot e.g.ctx handle with
    | .error x => s.raise e n x
    | .ok rec => k rec s

/-- Coordinates 0 and 1 of a tile handle (R246). -/
def handleCoords (h : W64) : Nat × Nat := ((field h 0 28).toNat, (field h 28 28).toNat)

/-! ## Accesses of engines -/

/-- Who an engine's access is made for: the issuing core, group and lane, and the context. -/
structure Master where
  core : Nat
  slot : Nat
  lane : Nat
  ctx : Nat
  /-- cache policy of its reads -/
  policy : Policy := .normal
  /-- the gather/scatter engines of the stacks serve it -/
  gather : Bool := false
  /-- the die of the engine, where it is not the core's, and the leaves under which its command was accepted -/
  die : Option Nat := none
  old : List TlbEntry := []
  /-- the team's place, where its group may have left it -/
  place : Option Nat := none

/-- The die whose engine makes an access. -/
def Master.home (m : Master) : Nat := m.die.getD (dieOf m.core)

/-- Why an engine's access does not happen: a fault, the stack of an address holds it (R325) or its engine is frozen, its walk waits
(R163), or a local line is absent (R170). -/
inductive Stop where
  | fault (f : FaultRec)
  | hold (stack : Nat) (va : W64)
  | walk (va : W64)
  | absent

/-- The gather/scatter engine of an address's stack is frozen (R323, R371). -/
def State.gatherFrozen (s : State) (pa : Nat) : Bool :=
  (s.die (homeDie pa)).copyFrozen.contains (8 + stackOf pa % 2)

/-- The watch registers of its issuing group and team that an engine's access matches (R360): once the group has left, those of team scope
of the team's other groups. -/
def State.watchMaster (s : State) (m : Master) (k : AKind) (loc : Bool) (a n : Nat) : List (Nat × Nat) :=
  s.watchTeam m.core m.slot (m.place <|> (s.group m.core m.slot).place) (s.group m.core m.slot).watch m.lane k true loc a n

/-- The watch match of an engine's global access (R360). -/
def State.engWatch (s : State) (m : Master) (va : W64) (n : Nat) (k : AKind) (pa : Nat) : Option (Nat × Nat) :=
  lowestHit (s.watchMaster m k false (untag va).toNat n
    ++ (s.watchTable m.ctx k true pa n).map fun w => (w.index, w.base - pa))

/-- The checks of an engine's global access (R166, R237, R360); REMOTE where the link to its home is down (R298). -/
def State.engCheck (s : State) (m : Master) (va : W64) (n : Nat) (k : AKind) (ecc : Bool) :
    Except Stop Nat × State :=
  let need : Need := if k = .write then { w := true } else { r := true }
  if (tlbFind m.old m.ctx va).isNone && s.walkWaits m.core m.ctx va then (.error (.walk va), s)
  else match s.checkAs m.core m.ctx (m.slot == 63) (s.engWatch m va n k)
    { va := va, bytes := n, need := need, tagck := true, ecc := ecc, die := m.die, old := m.old } with
  | (.error f, s) => (.error (.fault f), s)
  | (.ok (pa, _), s) =>
    if s.linked m.home (homeDie pa) then (.ok pa, s) else (.error (.fault { code := cREMOTE, addr := va }), s)

/-- An engine reads n bytes of global memory at their home, as a load of scope .P: the line leaves the nearer caches of its core and die
(R172, R179). -/
def State.engRead (s : State) (m : Master) (va : W64) (n : Nat) : Except Stop (List Byte) × State :=
  match s.engCheck m va n .read true with
  | (.error f, s) => (.error f, s)
  | (.ok pa, s) =>
    if m.gather && s.gatherFrozen pa then (.error (.hold (stackOf pa) va), s)
    else if s.held pa && !s.homeHit pa n then
      (.error (if s.overdue (stackOf pa) then .fault { code := cTHERM, addr := va } else .hold (stackOf pa) va), s)
    else
      let s := (s.homeLoad pa n m.policy).readAtHome m.core m.home (pa / 128)
      let (bs, s) := s.softRead pa (s.bytes pa n)
      (.ok bs, s)

/-- A granule that is about to be wholly rewritten loses its poison and symbol errors (R167, R320). -/
def State.freshGranule (s : State) (pa : Nat) : State :=
  { s with gmeta := SMap.set 0 s.gmeta (pa / 64) (s.gmeta.get 0 (pa / 64) &&& 0xF), gerr := s.gerr.erase (pa / 64) }

/-- An engine writes an element to global memory at its home: `val` makes the bytes from those there. `whole` says that its
command rewrites the whole granule. As a store that passes the core port, it takes the line from the L1 of its core and from the
remote-data caches of its core's die and its engine's (R20, R173). -/
def State.engWrite (s : State) (m : Master) (va : W64) (n : Nat) (whole : Bool) (val : List Byte → List Byte) :
    Except Stop Unit × State :=
  match s.engCheck m va n .write (!whole) with
  | (.error f, s) => (.error f, s)
  | (.ok pa, s) =>
    if s.writeWaits pa n || (m.gather && s.gatherFrozen pa) then (.error (.hold (stackOf pa) va), s)
    else
      let s := if whole && s.bad pa 1 then s.freshGranule pa else s
      let s := (s.readAtHome m.core m.home (pa / 128)).softAccess pa n
      (.ok (), s.homeStore pa (val (s.bytes pa n)) .normal)

/-- The watch check of an engine's local access (R351). -/
def State.engLocal (s : State) (m : Master) (off n : Nat) (k : AKind) : Option FaultRec :=
  (lowestHit (s.watchMaster m k true off n)).map fun (i, d) =>
    { code := cWATCH, addr := BitVec.ofNat 64 (off + d), num := BitVec.ofNat 16 i }

/-- Bytes of an element of a width in bits. -/
def elemBytes (e : Nat) : Nat := (e + 7) / 8

/-- The element that bytes hold: a nibble of one byte where it is 4 bits wide. -/
def elemOf (e : Nat) (hi : Bool) (bs : List Byte) : Nat :=
  let x := ofBytes bs
  if e = 4 then (if hi then x / 16 else x % 16) else x

/-- The bytes with an element put into them. -/
def elemPut (e : Nat) (hi : Bool) (x : Nat) (bs : List Byte) : List Byte :=
  if e = 4 then
    let y := ofBytes bs
    bytesOf 1 (if hi then y % 16 + 16 * (x % 16) else y / 16 * 16 + x % 16)
  else bytesOf (elemBytes e) x

end Sys2Proof.Machine
end

