-- ==== Sys2Proof/Machine/Sched.lean ====
section
/-! DEFINITION. Eligibility, PC sets and the vote, instruction fetch, and the choice of the next group and stroke (R42 to R49,
R60, R61, R33, R373). -/

namespace Sys2Proof.Machine

/-! ## Conditions that lanes wait for -/

/-- A queued operation uses an accumulator: the one it names, and for MMAT and MGUIDE the next. -/
def MOp.uses (o : MOp) (n : Nat) : Bool :=
  o.acc == n || (o.acc + 1 == n && match o.kind with
    | .mma tandem _ _ _ _ => tandem
    | .mguide _ _ => true
    | _ => false)

def Team.progress (t : Team) (n : Nat) : Prog := t.prog.get {} n

/-- A bit and a field of word 0 or 1 of a parameter block (Table 15-7). -/
def blkBit (b : BitVec 512) (i : Nat) : Bool := b.getLsbD i
def blkSteps (b : BitVec 512) : Nat := recField b 16 6

/-- The accumulators of an operation's streams. -/
def MOp.accs (o : MOp) : List Nat :=
  match o.kind with
  | .mma true _ _ _ _ => [o.acc, o.acc + 1]
  | _ => [o.acc]

/-- The k-steps that stream t of an operation has completed. -/
def Team.stepsDone (t : Team) (acc stream : Nat) : Nat := if stream = 0 then (t.progress acc).k0 else (t.progress acc).k1

/-- The streams of the running operation that have steps left and neither wait for a fault nor have stopped. -/
def MOp.live (o : MOp) (t : Team) (steps : Nat) : List Nat :=
  (upto o.accs.length).filter fun n =>
    !o.stopped.contains n && !o.parked.any (fun x => x.1 == n || x.1 == 2) && t.stepsDone o.acc n < steps

/-- An operation is suspended on a served fault, as far as some of its streams go: those take no further k-step for the present. DESIGN
CHOICE: an MMAT is suspended for an accumulator while some stream of it is parked and that accumulator's own stream does not run on, and
suspended as a whole while no stream of it runs on; R237 and R266 speak of the command alone (log 81). -/
def MOp.suspended (o : MOp) (t : Team) (mine : Nat → Bool) : Bool :=
  !o.parked.isEmpty && match o.kind with
    | .mma _ blk _ _ _ => (o.live t (blkSteps blk)).all fun n => !mine n
    | _ => true

/-- The operations of a team on an accumulator, or all, have completed or ended; with `susp`, or been suspended (R266). -/
def Team.accDone (t : Team) (n : Nat) (all susp : Bool) : Bool :=
  t.queue.all fun o => !(all || o.uses n) || (susp && o.suspended t fun k => all || o.acc + k == n)

/-- A team holds the lease and its count is not spent (R256). -/
def State.mayQueue (s : State) (c : Nat) (place : Option Nat) : Bool :=
  (s.core c).holder == place && match place with
    | some p => (s.team c p).leaseCount != 0 && !(s.team c p).releasing
    | none => false

/-- An XDT is for a window of a context. -/
def Fesel.landsIn (p : Fesel) (ctx win : Nat) : Bool := p.kind == 0x08 && p.tctx.toNat == ctx && natBits p.aux.toNat 31 24 == win

/-- Some XDT that a gateway has taken for a window has not landed yet: it waits there, or pieces of it are on their way to their homes. -/
def State.landingHere (s : State) (ctx win : Nat) : Bool :=
  s.gateQ.any (fun x => Fesel.landsIn x.2 ctx win) || s.dies.any fun (_, d) => d.ingress.any fun x => Fesel.landsIn x.pkt ctx win

/-- A condition holds for a lane (the waits of `Cond`). -/
def State.condMet (s : State) (c slot lane : Nat) : Cond → Bool
  | .lines ls => (s.core c).present ls
  | .drain sc m _ => s.drained c slot sc m
  | .cores ms => s.coresDone ms .k
  | .loads => (s.group c slot).loadsDone lane
  | .remote m => s.remoteDone c slot lane m
  | .batch n => (((s.group c slot).lane lane).batches.get [] n).isEmpty
  | .coll comm seq => match s.context (s.group c slot).ctx with
    | some x => x.colls.all fun k => !(k.comm == comm && k.seq == seq)
        || (k.result.isSome && k.stores.all fun i => (s.group k.core k.slot).sq.all fun q => q.acc.id != i)
    | none => true
  | .collRoom comm => match s.context (s.group c slot).ctx with
    | some x => (x.colls.filter fun k => k.comm == comm && k.result.isNone).length < 8
    | none => true
  | .acc n all susp => (s.teamOf c slot).accDone n all susp
  | .engineRoom => (s.teamOf c slot).queue.length < 8
  | .lease => s.mayQueue c (s.group c slot).place
  | .joinRoom => (s.die (dieOf c)).joinQ.length < 8
  | .view n => match s.views.find n with
    | some v => v.reads.isEmpty
    | none => true
  | .ports => (s.die (dieOf c)).portsDown.length < 8
  | .landed n => !s.landingHere (s.group c slot).ctx n
  | .reach va n => !s.reachWaits c slot (s.group c slot).ctx va n

/-- A condition holds for an issue. -/
def State.meets (s : State) (e : Env) (c : Cond) : Bool := s.condMet e.core e.slot (e.lanes.headD 0) c

/-- A lane's wait lets it issue. -/
def State.waitMet (s : State) (c slot lane : Nat) : Wait → Bool
  | .none => true
  | .cond k => s.condMet c slot lane k
  | _ => false

/-! ## Fetch (R60, R61) -/

/-- Translate one word's address for a fetch. -/
def State.fetchWord (s : State) (core ctx : Nat) (agent : Bool) (va : W64) : Except FaultRec Nat × State :=
  match s.coreXlate core ctx va with
  | (.error c, s) => (.error { code := c, addr := va }, s)
  | (.ok (pa, e), s) =>
    if !rightsOk va e { x := true } agent then (.error { code := cPERM, addr := va }, s)
    else if !s.linked (dieOf core) (homeDie pa) then (.error { code := cREMOTE, addr := va }, s)
    else if s.held pa && !s.homeHit pa 4 && s.overdue (stackOf pa) then (.error { code := cTHERM, addr := va }, s)
    else if s.bad pa 4 then (.error { code := cECC, addr := va }, s.readArray pa 4)
    else (.ok pa, s)

/-- A fetch waits: for a walk (R163), or for a stack that holds a word (R325). -/
def State.fetchWaits (s : State) (core ctx : Nat) (pc : W64) : Bool :=
  [pc, pc + 4, pc + 8].any fun va => s.walkWaits core ctx va || match s.mapped core ctx va with
    | .ok (pa, _) => s.linked (dieOf core) (homeDie pa) && s.stackWaits pa 4
    | .error _ => false

/-- The 12 bytes of an instruction, each of its three words translated separately, as memory has them at the fetch: of a word that a
running launch has stored to, which of its two values a fetch returns is the model's choice, and a PC that no branch set is fetched as
it stands though no multiple of 4 (log 69). -/
def State.fetch (s : State) (core ctx : Nat) (agent : Bool) (pc : W64) : Except FaultRec (List Byte) × State :=
  match s.fetchWord core ctx agent pc with
  | (.error f, s) => (.error f, s)
  | (.ok p0, s) => match s.fetchWord core ctx agent (pc + 4) with
    | (.error f, s) => (.error f, s)
    | (.ok p1, s) => match s.fetchWord core ctx agent (pc + 8) with
      | (.error f, s) => (.error f, s)
      | (.ok p2, s) => (.ok (s.bytes p0 4 ++ s.bytes p1 4 ++ s.bytes p2 4), s)

/-- The instruction that a fetch gives, where it gives one and need not wait. -/
def State.peek (s : State) (core ctx : Nat) (agent : Bool) (pc : W64) : Option Instr :=
  if s.fetchWaits core ctx pc then none else
  match s.fetch core ctx agent pc with
  | (.ok bs, _) => match decodeBytes bs with
    | .ok (i, _) => some i
    | .error _ => none
  | _ => none

/-! ## Operands that have not arrived (R42) -/

/-- What the outstanding loads and atomics of a group will still write, for a lane. -/
def Group.pending (g : Group) (lane : Nat) : List Dest :=
  let mine := fun (a : Access) (d : Dest) => if d.scalar || a.lane == lane then [d] else []
  (g.loads.flatMap fun r => mine r.acc r.dst) ++ g.sq.flatMap fun q => match q.kind with
    | .atom _ (some d) => mine q.acc d
    | _ => []

/-- The same with what remote loads and atomics will still write to registers of the whole group (R327). -/
def State.pending (s : State) (c slot : Nat) (g : Group) (lane : Nat) : List Dest :=
  g.pending lane ++ (s.die (dieOf c)).reqs.flatMap fun r =>
    if r.core == c && r.slot == slot then match r.kind with
      | .rld d => if d.scalar then [d] else []
      | .ratom d => if d.scalar then [d] else []
      | .rst => []
    else []

/-- A value that has not arrived is of a register or predicate that an instruction names. -/
def clashes (i : Instr) (ds : List Dest) : Bool :=
  ds.any fun d =>
    (i.named.any fun (o, n) => match o with
      | .v r => !d.scalar && r.val < d.reg + d.n && d.reg < r.val + n
      | .s r => d.scalar && r.val < d.reg + d.n && d.reg < r.val + n
      | .k _ => false)
    || match d.pred with
      | some p => i.preds.contains p
      | none => false

/-! ## Eligibility and the vote -/

/-- The group itself may issue: running, not frozen or halted, not among the waiters of a barrier of its team (R252), its
context not pre-empted, and the cores clocked (R291). -/
def State.mayIssue (s : State) (c : Nat) (g : Group) : Bool :=
  !g.draining && g.frozen.isNone && !g.halted
    && (match g.place with
      | some p => (s.team c p).bars.all fun (_, b) => !maskBit b.waiters g.grp
      | none => true)
    && s.runs g.ctx && s.power == .l0

/-- A lane is eligible (R42). -/
def State.eligible (s : State) (c slot : Nat) (g : Group) (lane : Nat) : Bool :=
  let l := g.lane lane
  !l.exited && l.parked.isNone && l.late.isNone && l.until_ ≤ (s.die (dieOf c)).cycle && s.waitMet c slot lane l.wait
    && ((s.pending c slot g lane).isEmpty || match s.peek c g.ctx (slot == 63) l.cur with
      | some i => !clashes i (s.pending c slot g lane)
      | none => true)

/-- A PC set: its PC, its lanes in rising order and its age (R42, R45). -/
structure PCSet where
  pc : Nat
  lanes : List Nat
  age : Nat
  deriving DecidableEq, Repr

/-- The PC sets of the eligible lanes, in ascending order of PC. -/
def Group.pcSets (g : Group) (ls : List Nat) : List PCSet :=
  (sortDedup (ls.map fun l => (g.lane l).cur.toNat)).map fun pc =>
    let mine := ls.filter fun l => (g.lane l).cur.toNat == pc
    { pc := pc, lanes := mine, age := maxOf (mine.map fun l => (g.lane l).age) }

/-- The forced secondary of R43: of the sets with age 32 or more, the one with the highest age and then the lowest PC. -/
def forcedSet (xs : List PCSet) : Option PCSet :=
  let top := maxOf (xs.map PCSet.age)
  if 32 ≤ top then xs.find? fun x => x.age == top else none

/-- The primary and secondary sets of a vote, whether the secondary is forced (R43). -/
def voteSets (xs : List PCSet) : Option (PCSet × Option (PCSet × Bool)) :=
  match xs with
  | [] => none
  | [x] => some (x, none)
  | x :: y :: _ => match forcedSet xs with
    | some f => if f = x then some (y, some (f, true)) else some (x, some (f, true))
    | none => some (x, some (y, false))

/-- The sets that issue in one cycle: both, or one where both need one single-issue unit (R43, R373). -/
def jointIssue (v : PCSet × Option (PCSet × Bool)) (unit : PCSet → Option IssueUnit) : PCSet × Option PCSet :=
  match v with
  | (p, none) => (p, none)
  | (p, some (q, forced)) =>
    if (unit p).isSome && unit p == unit q then (if forced then q else p, none) else (p, some q)

/-- Ages after an issue cycle of a group: zero for a lane that issued, one more, to 63, for one that was eligible (R45). -/
def Group.aged (g : Group) (issued eligible : List Nat) : Group :=
  { g with lanes := mapFrom (fun i (l : Lane) =>
      if issued.contains i then { l with age := 0 }
      else if eligible.contains i then { l with age := Nat.min 63 (l.age + 1) } else l) 0 g.lanes }

/-- One cycle of a die's counter passes. -/
def State.tick (s : State) (d n : Nat) : State := s.modDie d fun k => { k with cycle := k.cycle + n }

/-- A slot may issue: its group may, and in slot 63 the die has not refused its agent's image (R369). -/
def State.slotMay (s : State) (c slot : Nat) : Bool :=
  s.mayIssue c (s.group c slot) && (slot != 63 || !(s.die (dieOf c)).agentRefused)

/-- The lanes of a group that are eligible. -/
def State.eligibleLanes (s : State) (c slot : Nat) : List Nat :=
  let g := s.group c slot
  if s.slotMay c slot then (upto g.lanes.length).filter fun l => s.eligible c slot g l else []

/-- What a group's vote gives at the present cycle. -/
def State.vote (s : State) (c slot : Nat) : Option (PCSet × Option PCSet) :=
  let g := s.group c slot
  (voteSets (g.pcSets (s.eligibleLanes c slot))).map fun v => jointIssue v fun x =>
    (s.peek c g.ctx (slot == 63) (BitVec.ofNat 64 x.pc)).bind Instr.issueUnit

/-! ## Choosing a group and a stroke (R33, R46) -/

/-- A slot of the group scheduler has an eligible lane in the core's next cycle; slot 63 takes no part (R46). -/
def State.readySlot (s : State) (c slot : Nat) : Bool :=
  slot != 63 && !((s.tick (dieOf c) 1).eligibleLanes c slot).isEmpty

/-- The group that ceded in the previous cycle is passed over where another group of the core may issue (R65). DESIGN CHOICE: R65 speaks
of the group scheduler, in which slot 63 takes no part (R46): the agent's group is no such other group, and a cede by it passes over its
own issue by the scalar path for that cycle (log 81). -/
def State.cedes (s : State) (c slot : Nat) : Bool :=
  match (s.core c).ceded with
  | some (k, at_) => k == slot && (s.die (dieOf c)).cycle == at_
      && (s.core c).groups.keys.any fun j => j != slot && s.readySlot c j
  | none => false

/-- The agent of a core issues next, on the scalar path (R46). -/
def State.nextAgent (s : State) (c : Nat) : Bool := !((s.tick (dieOf c) 1).eligibleLanes c 63).isEmpty

/-- The group of a core that the scheduler selects next: of those with an eligible lane, the one least recently selected, which is the
model's choice among what R46 allows (log 16). -/
def State.nextGroup (s : State) (c : Nat) : Option Nat :=
  let k := s.core c
  let ready := k.groups.keys.filter fun n => s.readySlot c n && !s.cedes c n
  match minOf (ready.map fun n => k.selected.get 0 n) with
  | none => none
  | some t => ready.find? fun n => k.selected.get 0 n == t

/-- A stroke may execute: it does not wait at a JOIN, its context is not pre-empted, and the cores are clocked (R291). -/
def State.strokeReady (s : State) (st : Stroke) : Bool :=
  !st.joining && s.runs st.ctx && s.power == .l0

/-- The next ready stroke of a core, round-robin in ascending order of entry (R33). Where the round begins after reset is the model's
choice (log 7): after entry 0, which `lastStroke` then names. -/
def State.nextStroke (s : State) (c : Nat) : Option Nat :=
  let k := s.core c
  let ready := (k.strokes.filter fun (_, st) => s.strokeReady st).map Prod.fst
  match ready.find? fun e => k.lastStroke < e with
  | some e => some e
  | none => ready.head?

end Sys2Proof.Machine
end

