-- ==== Sys2Proof/Machine/Transfer.lean ====
section
/-! DEFINITION. Transfers, shape registers, tensor identifiers and tile handles (R233 to R248, R22, R323). -/

namespace Sys2Proof.Machine

/-! ## The elements of a transfer -/

/-- Where an element lies; `hi` names the high nibble of a 4-bit element's byte. -/
inductive Spot where
  | glob (va : W64) (hi : Bool)
  | loc (off : Nat) (hi : Bool)

/-- Rows that a command walks: one per index, or its tile as one row. -/
def Cmd.rows (k : Cmd) : Nat := if k.kind == .cpyg || k.kind == .cpys then k.count else 1

/-- Elements of a row. -/
def Cmd.rowLen (k : Cmd) : Nat :=
  if k.kind == .cpyg || k.kind == .cpys then (shapeBox k.shape)[0]?.getD 0 else boxCount (shapeBox k.shape)

/-- The element width of a shape register. -/
def shapeWidth (r : BitVec 512) : Nat := (shapeLayout r).e

/-- Bytes of a transfer (R247). -/
def Cmd.size (k : Cmd) : Nat := k.rows * k.rowLen * shapeWidth k.shape / 8

/-- The local spot of a linear index (R241). -/
def Cmd.localSpot (k : Cmd) (lidx : Nat) : Spot :=
  let e := shapeWidth k.shape
  .loc (k.tb + swzOff (shapeSwz k.shape) (lidx * e / 8)) (e == 4 && lidx % 2 == 1)

/-- The global spot of coordinates, where they lie in bounds. -/
def globSpot (t : Layout) (org xs : List Nat) : Option Spot := (t.addr (addOrigin t.rank org xs)).map fun (va, hi) => .glob va hi

/-- Source and destination of element i of a row (R241, R248): none where the destination ignores it; a source that is absent
reads as zero. `index` is the row's index. -/
def Cmd.spots (k : Cmd) (row index i : Nat) : Option (Option Spot × Spot) :=
  let t := shapeLayout k.shape
  let xs := boxCoords (shapeBox k.shape) i
  match k.kind with
  | .cpySt => (globSpot t k.org xs).map fun d => (some (k.localSpot i), d)
  | .cpyx => (globSpot (shapeLayout k.shape2) k.org2 xs).map fun d => (globSpot t k.org xs, d)
  | .cpyg => some (globSpot t [] [i, index, 0, 0], k.localSpot (row * k.rowLen + i))
  | .cpys => (globSpot t [] [i, index, 0, 0]).map fun d => (some (k.localSpot (row * k.rowLen + i)), d)
  | _ => some (globSpot t k.org xs, k.localSpot i)

/-- A row rewrites the whole granule of an address (R167). -/
def Cmd.coversGranule (k : Cmd) (row index : Nat) (va : W64) : Bool :=
  let e := shapeWidth (if k.kind == .cpyx then k.shape2 else k.shape)
  let hit := (upto k.rowLen).filterMap fun i => match k.spots row index i with
    | some (_, .glob v hi) => if v.toNat / 64 = va.toNat / 64 then some (2 * v.toNat + (if hi then 1 else 0)) else none
    | _ => none
  (sortDedup hit).length * e == 512

/-- The core's absolute local offset of a team-relative one. -/
def State.absLocal (s : State) (c place off : Nat) : Nat := 128 * (s.team c place).lbase + off

/-- The cores that a command's local destination lies in. -/
def Cmd.targets (k : Cmd) (c : Nat) : List Nat :=
  if k.kind == .cpym then
    (upto Config.coresPerCluster).filterMap fun i =>
      if maskBit k.recv i then some (clusterOf c * Config.coresPerCluster + i) else none
  else [c]

/-- The value of an element's source. -/
def State.readSpot (s : State) (m : Master) (place e : Nat) : Option Spot → Except Stop Nat × State
  | none => (.ok 0, s)
  | some (.glob va hi) => match s.engRead m va (elemBytes e) with
    | (.error x, s) => (.error x, s)
    | (.ok bs, s) => (.ok (elemOf e hi bs), s)
  | some (.loc off hi) => match s.engLocal m off (elemBytes e) .read with
    | some f => (.error (.fault f), s)
    | none => (.ok (elemOf e hi ((s.core m.core).lbytes (s.absLocal m.core place off) (elemBytes e))), s)

/-- Write an element's destination. -/
def State.writeSpot (s : State) (m : Master) (k : Cmd) (e : Nat) (whole : Bool) (x : Nat) : Spot → Except Stop Unit × State
  | .glob va hi => s.engWrite m va (elemBytes e) whole (elemPut e hi x)
  | .loc off hi => match s.engLocal m off (elemBytes e) .write with
    | some f => (.error (.fault f), s)
    | none =>
      let a := s.absLocal m.core k.place off
      (.ok (), (k.targets m.core).foldl (fun s c =>
        s.lwrite c a (elemPut e hi x ((s.core c).lbytes a (elemBytes e)))) s)

/-- Move one element: a source out of bounds reads as zero (R241, R248). Where the two shapes of a CPYX differ in element width the spec
gives an element that is read no value: it is free (log 8). -/
def State.moveElem (s : State) (m : Master) (k : Cmd) (row index i : Nat) : Except Stop Unit × State :=
  match k.spots row index i with
  | none => (.ok (), s)
  | some (src, dst) =>
    let e := shapeWidth k.shape
    let e2 := if k.kind == .cpyx then shapeWidth k.shape2 else e
    match s.readSpot m k.place e src with
    | (.error x, s) => (.error x, s)
    | (.ok v, s) =>
      let (a, s1) := s.freeWord
      let (b, s2) := s1.freeWord
      let (v, s) := if e = e2 || src.isNone then (v, s) else ((pairVal a b).toNat, s2)
      let whole := match dst with
        | .glob va _ => match s.mapped m.core m.ctx va with
          | .ok (pa, _) => s.bad pa 1 && k.coversGranule row index va
          | .error _ => false
        | .loc _ _ => false
      s.writeSpot m k e2 whole v dst

/-- Move the elements of a row from element i; where it stops, the element. -/
def State.moveRow (m : Master) (k : Cmd) (row index : Nat) : Nat → Nat → State → State × Option (Nat × Stop)
  | 0, _, s => (s, none)
  | n + 1, i, s => match s.moveElem m k row index i with
    | (.error x, s) => (s, some (row * k.rowLen + i, x))
    | (.ok (), s) => State.moveRow m k row index n (i + 1) s

/-- The index of a row (R248): a relaxed load of scope .P. -/
def State.rowIndex (s : State) (m : Master) (k : Cmd) (row : Nat) : Except Stop Nat × State :=
  if k.kind == .cpyg || k.kind == .cpys then
    match s.engRead m (k.list + BitVec.ofNat 64 (4 * row)) 4 with
    | (.error x, s) => (.error x, s)
    | (.ok bs, s) => (.ok (ofBytes bs), s)
  else (.ok 0, s)

/-- Move rows; the first starts at element i. -/
def State.moveRows (m : Master) (k : Cmd) : Nat → Nat → Nat → State → State × Option (Nat × Stop)
  | 0, _, _, s => (s, none)
  | n + 1, row, i, s => match s.rowIndex m k row with
    | (.error x, s) => (s, some (row * k.rowLen + i, x))
    | (.ok index, s) => match State.moveRow m k row index (k.rowLen - i) i s with
      | (s, some x) => (s, some x)
      | (s, none) => State.moveRows m k n (row + 1) 0 s

/-- The die whose copy engine performs a command (R22). -/
def Cmd.engineDie (k : Cmd) (c : Nat) : Nat := k.passed.getD (dieOf c)

/-- For whom a command's accesses are made. -/
def Cmd.master (k : Cmd) (c : Nat) : Master :=
  let gather := k.kind == .cpyg || k.kind == .cpys
  { core := c, slot := k.slot, lane := k.lane, ctx := k.ctx, gather := gather, die := some (k.engineDie c), old := k.old,
    policy := if k.kind == .pft then .retain else if gather then .evictFirst else .normal }

/-- Everything that a command moves, from where it stands. A CPYM whose named cores all receive nothing ends with PERM (R248). -/
def State.runTransfer (s : State) (c : Nat) (k : Cmd) : State × Option (Nat × Stop) :=
  if k.kind == .cpym && k.recv == 0 then
    (s, some (0, .fault { code := cPERM, addr := BitVec.ofNat 64 k.tb, num := k.mask }))
  else
    let row := if k.rowLen = 0 then 0 else k.start / k.rowLen
    State.moveRows (k.master c) k (k.rows - row) row (if k.rowLen = 0 then 0 else k.start % k.rowLen) s

/-! ## When a transfer may run -/

/-- The command reads a local source. -/
def Cmd.fromLocal (k : Cmd) : Bool := k.kind == .cpySt || k.kind == .cpys

/-- The first destination of a CPYX that lies in bounds. -/
def Cmd.firstDst (k : Cmd) : Option W64 :=
  match (upto k.rowLen).findSome? fun i => k.spots 0 0 i with
  | some (_, .glob va _) => some va
  | _ => none

/-- The home die of a CPYX's destination: that of its first element in bounds. DESIGN CHOICE: R22 speaks of a destination homed on another
die; where its tile spans lines homed on several, the spec does not say whose copy engine performs it (log 45). -/
def State.cpyxDie (s : State) (c : Nat) (k : Cmd) : Nat :=
  match k.firstDst.map (s.mapped c k.ctx) with
  | some (.ok (pa, _)) => homeDie pa
  | _ => dieOf c

/-- A command has been handed to the engine that performs it, and that engine is not frozen: copy engine n of a die takes the
commands whose sequence number is n modulo 8. -/
def State.engineOpen (s : State) (c : Nat) (k : Cmd) : Bool :=
  (k.kind != .cpyx || k.passed.isSome || s.cpyxDie c k == dieOf c)
    && (k.kind == .cpyg || k.kind == .cpys || !(s.die (k.engineDie c)).copyFrozen.contains (k.seq.toNat % 8))

/-- A command may run: it has not ended and is not suspended, its group's earlier stores have been performed (R188), and the
lines of its local source are present (R247). -/
def State.cmdReady (s : State) (c : Nat) (k : Cmd) : Bool :=
  !k.done && k.susp.isNone && k.kind != .rrd3 && s.engineOpen c k
    && (s.group c k.slot).sq.all (fun q => k.after ≤ q.acc.id)
    && (!k.fromLocal || (s.core c).present (teamLines (s.team c k.place) k.tb k.size))

/-- A prefetch runs after the demand copies of its die that may run (R248). -/
def State.prefetchTurn (s : State) (c : Nat) (k : Cmd) : Bool :=
  k.kind != .pft || s.cores.all fun (j, x) => dieOf j != dieOf c || x.cmds.all fun q => q.kind == .pft || !s.cmdReady j q

/-- The commands of a core changed. -/
def State.modCmd (s : State) (c : Nat) (seq : W32) (f : Cmd → Cmd) : State :=
  s.modCore c fun k => { k with cmds := k.cmds.map fun q => if q.seq == seq then f q else q }

/-! ## How a transfer ends -/

/-- Some transfer that has not landed writes a local line of a core (R169). -/
def State.lineTargeted (s : State) (c line : Nat) : Bool :=
  s.cores.any fun (j, x) => x.cmds.any fun k => !k.done && (k.targets j).contains c && k.lines.contains line

/-- Lines become present where no other transfer is still to land in them (R169). -/
def State.linesPresent (s : State) (c : Nat) (lines : List Nat) : State :=
  s.modCore c fun k => { k with absent := k.absent.filter fun l => !lines.contains l || s.lineTargeted c l }

/-- A fault of an engine command is delivered to its lane under its two-level name (R237). -/
def State.engFault (s : State) (c : Nat) (k : Cmd) (f : FaultRec) : State :=
  s.deliver c k.slot { lane := k.lane, f := { f with eng := true, pc := k.pc, seq := k.seq } }

/-- A transfer ends (R237, R247, R250): its lines are present, its barrier receives its bytes or a poisoned arrival, and its fault
is delivered; a CPYM that some named cores did not receive reports one PERM (R248). -/
def State.endTransfer (s : State) (c : Nat) (k : Cmd) (fault : Option FaultRec) : State :=
  let s := s.modCmd c k.seq fun q => { q with done := true }
  let s := (k.targets c).foldl (fun s j => s.linesPresent j k.lines) s
  match fault with
  | some f => (s.engFault c k f).barEvent c k.place k.bar Barrier.poisoned
  | none =>
    let s := s.barEvent c k.place k.bar fun x => x.land k.bytes k.epoch
    if k.kind == .cpym && k.recv != k.mask then
      s.engFault c k { code := cPERM, addr := BitVec.ofNat 64 k.tb, num := k.mask &&& ~~~k.recv }
    else s

/-- A command of a core by its sequence number. -/
def State.cmd (s : State) (c seq : Nat) : Option Cmd := (s.core c).cmds.find? fun k => k.seq.toNat == seq

/-- TRANSFER_LANDING (R247, R250): a transfer that meets no fault has moved every element. -/
def execTransferLanding (core seq : Nat) (s : State) : Res :=
  .next (match s.cmd core seq with
    | none => s
    | some k =>
      if !s.cmdReady core k || !s.prefetchTurn core k then s
      else match s.runTransfer core k with
        | (s', none) => s'.endTransfer core k none
        | (_, some _) => s)

/-- ENGINE_COMMAND_FAULT (R237): a transfer stops at its first failing element; a served translation fault suspends it there, and
any other ends it. -/
def execEngineCommandFault (core seq : Nat) (s : State) : Res :=
  .next (match s.cmd core seq with
    | none => s
    | some k =>
      if !s.cmdReady core k || !s.prefetchTurn core k then s
      else match s.runTransfer core k with
        | (s', some (i, .fault f)) =>
          if f.code = cXLATE && s.served k.ctx f.addr then
            s'.modCmd core k.seq fun q => { q with start := i, susp := some f.addr, old := [] }
          else s'.endTransfer core k (some f)
        | _ => s)

/-- ENGINE_COMMAND_COMPLETE (R231, R54): a command that has ended leaves its batch and its group's count. -/
def execEngineCommandComplete (core seq : Nat) (s : State) : Res :=
  .next (match s.cmd core seq with
    | none => s
    | some k =>
      if !k.done then s
      else
        let s := s.modCore core fun x => { x with cmds := x.cmds.filter fun q => q.seq != k.seq }
        s.modLane core k.slot k.lane fun l => { l with
          unsealed := l.unsealed.filter (· != seq),
          batches := l.batches.filterMap fun (n, xs) =>
            let ys := xs.filter (· != seq)
            if ys.isEmpty then none else some (n, ys) })

/-- CPYX_REQUEST (R22): a CPYX whose destination is homed on another die reaches a copy engine of that die; with the link down it
fails with REMOTE (R298). -/
def execCpyxRequest (core seq : Nat) (s : State) : Res :=
  .next (match s.cmd core seq with
    | none => s
    | some k =>
      let d := s.cpyxDie core k
      if k.kind != .cpyx || k.done || k.passed.isSome || d == dieOf core then s
      else if !s.linked (dieOf core) d then s.endTransfer core k (some { code := cREMOTE, addr := k.firstDst.getD 0 })
      else s.modCmd core k.seq fun q => { q with passed := some d })

/-! ## Issue -/

/-- The next name of an engine command of a core (R235); the first is 1, since 0 names no command (R355). -/
def State.nextSeq (s : State) (c : Nat) : W32 × State :=
  let n := (s.core c).cmdCtr + 1
  (n, s.modCore c fun k => { k with cmdCtr := n })

/-- The cores that a CPYM names and in which the destination lies wholly in one team of the context (R248). -/
def State.receivers (s : State) (c ctx a n : Nat) (mask : BitVec 16) : BitVec 16 :=
  maskOf 16 ((upto Config.coresPerCluster).filter fun i => maskBit mask i
    && (s.core (clusterOf c * Config.coresPerCluster + i)).teams.any fun (_, t) =>
      t.ctx == ctx && 128 * t.lbase ≤ a && a + n ≤ 128 * (t.lbase + t.lines))

/-- The first issue check of a transfer that fails, in the order of R12 (R236, R240, R247, R248). -/
def Cmd.issueFault (k : Cmd) (t : Team) : Option (Code × W64) :=
  let gather := k.kind == .cpyg || k.kind == .cpys
  let tile := if k.kind == .cpyx then none else some k.tb
  if gather && k.list.toNat % 4 != 0 then some (cALIGN, k.list)
  else if shapeBad k.shape tile (k.kind == .cpySt || k.kind == .cpys)
      || (k.kind == .cpyx && shapeBad k.shape2 none true)
      || (k.kind == .cpym && k.mask == 0) || (gather && 65535 < k.count) then some (cSHAPE, 0)
  else if k.kind != .cpyx && !inRegion t k.tb k.size then some (cPERM, BitVec.ofNat 64 k.tb)
  else if (t.bar k.bar).members == 0 then some (cBARRIER, 0)
  else none

/-- A transfer passes its checks: it takes its name, enters its group's store queue, clears the presence of its destination
lines, and, but for a prefetch, counts as a copy of the nib lane; an empty one completes at issue (R169, R190, R235, R242). R242 speaks of
one register: that a CPYX is empty where either of its registers has a zero box or extent is the model's choice (log 72). -/
def State.startTransfer (s : State) (e : Env) (n : Nat) (k : Cmd) : State :=
  let (seq, s) := s.nextSeq e.core
  if shapeEmpty k.shape || (k.kind == .cpyx && shapeEmpty k.shape2) then
    s.barEvent e.core k.place k.bar fun x => x.land 0 x.epoch
  else
    let lines := if k.fromLocal || k.kind == .cpyx then [] else teamLines e.team k.tb k.size
    let recv := if k.kind == .cpym then
      s.receivers e.core k.ctx (s.absLocal e.core k.place k.tb) k.size k.mask else 0
    let k := { k with seq := seq, lines := lines, recv := recv, bytes := k.size, after := s.nextId,
                      epoch := (e.team.bar k.bar).epoch }
    let s := s.modCore e.core fun x => { x with cmds := x.cmds ++ [k] }
    let s := (k.targets e.core).foldl (fun s j => s.modCore j fun x => x.clearPresence lines) s
    if k.kind == .pft then s
    else s.modLane e.core e.slot n fun l => { l with unsealed := l.unsealed ++ [seq.toNat] }

/-- The issue of a transfer. -/
def State.transfer (s : State) (i : Instr) (h : Hdr) (f : EF) (make : Env → Nat → Cmd → Cmd) : Res :=
  s.nibIssue i h fun e n s =>
    let shape := e.team.shapes.get 0 f.shp.val
    let k : Cmd := { kind := .cpyLd, seq := 0, slot := e.slot, place := e.g.place.getD 0, lane := n, ctx := e.g.ctx,
                     launch := e.g.launch, pc := e.pc, bar := f.bar.val, shape := shape }
    let k := make e n k
    match k.issueFault e.team with
    | some (c, a) => s.nibFault e n c a
    | none => s.startTransfer e n k

/-- The tile base of a local side (R248): ldst + the addend, modulo 2^32. -/
def Env.tileBase (e : Env) (n : Nat) (shape : BitVec 512) (addend : Opnd) : Nat :=
  (recField shape 440 32 + (e.src32 n addend).toNat) % 2 ^ 32

/-- An origin of four registers (R241). -/
def Env.origin (e : Env) (n : Nat) (o : Opnd) : List Nat := (e.srcN n o 4).map BitVec.toNat

/-- A transfer between a global tile and local memory. -/
def copyOf (kind : CmdKind) (f : EF) (e : Env) (n : Nat) (k : Cmd) : Cmd :=
  { k with kind := kind, org := e.origin n f.a, tb := e.tileBase n k.shape f.b }

/-- CPY.LD (R248). -/
def execCpyLd (h : Hdr) (f : EF) (s : State) : Res := s.transfer (.cpyLd h f) h f (copyOf .cpyLd f)

/-- CPY.ST (R248). -/
def execCpySt (h : Hdr) (f : EF) (s : State) : Res :=
  s.transfer (.cpySt h f) h f fun e n k =>
    let k := copyOf .cpySt f e n k
    { k with scope := (Scope.ofCode (f.mod.toNat % 8)).getD .g }

/-- CPYM (R248). -/
def execCpym (h : Hdr) (f : EF) (s : State) : Res :=
  s.transfer (.cpym h f) h f fun e n k =>
    let k := copyOf .cpym f e n k
    { k with mask := field f.mod 0 16 }

/-- PFT (R248). -/
def execPft (h : Hdr) (f : EF) (s : State) : Res := s.transfer (.pft h f) h f (copyOf .pft f)

/-- CPYX (R248). -/
def execCpyx (h : Hdr) (f : EF) (s : State) : Res :=
  s.transfer (.cpyx h f) h f fun e n k =>
    { k with kind := .cpyx, org := e.origin n f.a, org2 := e.origin n f.d,
             shape2 := e.team.shapes.get 0 (f.shp.val + 1), scope := (Scope.ofCode (f.mod.toNat % 8)).getD .g }

/-- A gather or scatter (R248). -/
def gatherOf (kind : CmdKind) (f : EF) (a b : Opnd) (e : Env) (n : Nat) (k : Cmd) : Cmd :=
  let p := 2 * f.spair.val
  { k with kind := kind, tb := e.tileBase n k.shape a, count := (e.src32 n b).toNat,
           list := pairVal (e.g.rs p) (e.g.rs (p + 1)) }

/-- CPYG (R248). -/
def execCpyg (h : Hdr) (f : EF) (s : State) : Res := s.transfer (.cpyg h f) h f (gatherOf .cpyg f f.a f.b)

/-- CPYS (R248). -/
def execCpys (h : Hdr) (f : EF) (s : State) : Res :=
  s.transfer (.cpys h f) h f fun e n k =>
    let k := gatherOf .cpys f f.a f.b e n k
    { k with scope := (Scope.ofCode (f.mod.toNat % 8)).getD .g }

/-! ## Shape registers -/

/-- Write a shape register of the issuing group's team. -/
def State.setShape (s : State) (e : Env) (n : Nat) (r : BitVec 512) : State :=
  match e.g.place with
  | some p => s.modTeam e.core p fun t => { t with shapes := SMap.set 0 t.shapes n r }
  | none => s

/-- An address in operand A. -/
def Env.addrA (e : Env) (n : Nat) (f : EF) : W64 := e.src64 n false f.a

/-- What a 64-byte load asks. -/
def load64Ask (va : W64) : Ask :=
  { va := va, bytes := 64, align := 64, need := { r := true }, kind := some .read, tagck := true, ecc := true }

/-- A checked access of the nib lane: the PC set waits where its walk does (R163), and the lane faults where a check fails. -/
def State.nibAccess (s : State) (e : Env) (n : Nat) (q : Ask) (k : Nat → W64 → State → State) : State :=
  if s.checkWaits e q then s.waitAt e e.lanes (.reach q.va 0)
  else match s.check e n q with
    | (.error f, s) => s.raise e n f
    | (.ok (pa, pte), s) => k pa pte s

/-- The 64 bytes of a checked load of scope .P, at their home (R172): REMOTE with the link down (R298), and while their stack holds them
the PC set waits (R325, R326). The line leaves the nearer caches. -/
def State.take64 (s : State) (e : Env) (n : Nat) (va : W64) (pa : Nat) (k : List Byte → State → State) : State :=
  if !s.linked (dieOf e.core) (homeDie pa) then s.raise e n { code := cREMOTE, addr := va }
  else if s.stackWaits pa 64 then s.waitAt e e.lanes (.reach va 64)
  else if s.held pa && !s.homeHit pa 64 then s.raise e n { code := cTHERM, addr := va }
  else
    let s := (s.homeLoad pa 64 .normal).readAtHome e.core (dieOf e.core) (pa / 128)
    let (bs, s) := s.softRead pa (s.bytes pa 64)
    k bs s

/-- A 64-byte load of scope .P whose data the PC set waits for (R243): once the group's earlier accesses are performed. -/
def State.load64 (s : State) (e : Env) (n : Nat) (va : W64) (k : List Byte → State → State) : State :=
  s.released e .p e.lanes fun s => s.nibAccess e n (load64Ask va) fun pa _ s => s.take64 e n va pa k

/-- A relaxed store entry of scope .P of the nib lane. -/
def State.nibStore (s : State) (e : Env) (n : Nat) (va : W64) (pa : Nat) (pte : W64) (kind : StoreKind) : State :=
  let (id, s) := s.fresh
  s.pushStore e.core e.slot
    { acc := { id := id, lane := n, ctx := e.g.ctx, va := va, pa := pa, pc := e.pc, scope := .p, order := .relaxed,
               policy := .normal, tagck := pte.getLsbD 50, rdc := pte.getLsbD 51 },
      kind := kind }

/-- What a 64-byte store asks. -/
def ask64 (va : W64) : Ask :=
  { va := va, bytes := 64, align := 64, need := { w := true }, kind := some .write, tagck := true, later := true }

/-- GLD (R243). -/
def execGld (h : Hdr) (f : EF) (s : State) : Res :=
  s.nibIssue (.gld h f) h fun e n s => s.load64 e n (e.addrA n f) fun bs s => s.setShape e f.shp.val (recOf bs)

/-- GST (R243). -/
def execGst (h : Hdr) (f : EF) (s : State) : Res :=
  s.nibIssue (.gst h f) h fun e n s => s.nibAccess e n (ask64 (e.addrA n f)) fun pa pte s =>
    s.nibStore e n (e.addrA n f) pa pte (.store (recBytes (e.team.shapes.get 0 f.shp.val)))

/-- The operand of a field: a pair where it is wider than 32 bits (R239). -/
def Env.fieldVal (e : Env) (n : Nat) (f : EF) (len : Nat) : Nat :=
  if 32 < len then (e.src64 n false f.b).toNat else (e.src32 n f.b).toNat

/-- GSET (R239, R243). -/
def execGset (h : Hdr) (f : EF) (s : State) : Res :=
  s.nibIssue (.gset h f) h fun e n s =>
    let (lo, len) := shapeField (f.mod.toNat % 32)
    s.setShape e f.shp.val (recSet (e.team.shapes.get 0 f.shp.val) lo len (e.fieldVal n f len))

/-- GGET (R239, R243). -/
def execGget (h : Hdr) (f : EF) (s : State) : Res :=
  s.nibIssue (.gget h f) h fun e _ s =>
    let (lo, len) := shapeField (f.mod.toNat % 32)
    s.nibD e f.d (wordsOf (if 32 < len then 2 else 1) (recField (e.team.shapes.get 0 f.shp.val) lo len))

/-! ## Tensor identifiers and tile handles -/

/-- Both accesses of TIDLD are checked before either is made: their faults come in the order of R12. -/
def State.check2 (s : State) (e : Env) (n : Nat) (q r : Ask) (k : Nat → Nat → W64 → State → State) : State :=
  if s.checkWaits e q || s.checkWaits e r then
    s.waitAt e e.lanes (.reach (if s.checkWaits e q then q.va else r.va) 0)
  else
    let (a, s) := s.check e n q
    let (b, s) := s.check e n r
    match a, b with
    | .ok (pa, _), .ok (pb, pte) => k pa pb pte s
    | .error x, .ok _ => s.raise e n x
    | .ok _, .error y => s.raise e n y
    | .error x, .error y => s.raise e n ((firstFault FaultRec.code [x, y]).getD x)

/-- TIDLD (R246): a load of scope .P, then four 16-byte stores of scope .P into the entry. -/
def execTidld (h : Hdr) (f : EF) (s : State) : Res :=
  s.nibIssue (.tidld h f) h fun e n s => s.released e .p e.lanes fun s =>
    let src := e.addrA n f
    let dst := s.tidAddr e.g.ctx f.tid.toNat
    s.check2 e n (load64Ask src) { ask64 dst with ecc := true } fun pa pb pte s => s.take64 e n src pa fun bs s =>
      (upto 4).foldl (fun s i =>
        s.nibStore e n (dst + BitVec.ofNat 64 (16 * i)) (pb + 16 * i) pte (.store ((bs.drop (16 * i)).take 16))) s

/-- TIDSET (R246): one indivisible read-modify-write of the entry at its home. -/
def execTidset (h : Hdr) (f : EF) (s : State) : Res :=
  s.nibIssue (.tidset h f) h fun e n s =>
    let (lo, len) := tensorField (f.mod.toNat % 32)
    let dst := s.tidAddr e.g.ctx f.tid.toNat
    s.nibAccess e n { va := dst, bytes := 64, align := 64, need := { r := true, w := true }, kind := some .atomic,
                      tagck := true, ecc := true, later := true } fun pa pte s =>
      s.nibStore e n dst pa pte (.setBits lo len (BitVec.ofNat 64 (e.fieldVal n f len)))

/-- THND (R246). -/
def execThnd (h : Hdr) (f : EF) (s : State) : Res :=
  s.nibIssue (.thnd h f) h fun e n s =>
    let c0 := e.src32 n f.a
    let c1 := e.src32 n f.b
    if 2 ^ 28 ≤ c0.toNat || 2 ^ 28 ≤ c1.toNat then s.nibFault e n cSHAPE
    else s.nibD e f.d (wordsOf 2 (f.tid.toNat * 2 ^ 56 + c1.toNat * 2 ^ 28 + c0.toNat))

end Sys2Proof.Machine
end

