-- ==== Sys2Proof/Machine/Matrix.lean ====
section
/-! DEFINITION. The matrix engine: accumulators, weight planes, the team's queue and the lease (R106 to R114, R255 to R266,
R280). -/

namespace Sys2Proof.Machine

/-! ## Accumulators (R106 to R112) -/

def Team.acc (t : Team) (n : Nat) : Acc := t.accs.get {} n
def Team.setAcc (t : Team) (n : Nat) (a : Acc) : Team := { t with accs := SMap.set {} t.accs n a }
def Team.modProg (t : Team) (n : Nat) (f : Prog → Prog) : Team := { t with prog := SMap.set {} t.prog n (f (t.progress n)) }

/-- The anchor and the mode of an accumulator (Table 7-3). -/
def Acc.anchor (a : Acc) : Int := (field a.status 9 7).toInt
def Acc.intMode (a : Acc) : Bool := a.status.getLsbD 8
def Acc.cell (a : Acc) (i : Nat) : Cell := a.cells.get {} i

/-- An accumulator cleared with an anchor and a mode (R260, R262). -/
def clearAcc (anchor : BitVec 7) (int : Bool) : Acc :=
  { status := BitVec.ofNat 32 (anchor.toNat * 512 + (if int then 256 else 0)) }

/-- Bits of the status word set by an operation: inexact, overflow, special. -/
def stInexact : W32 := 1
def stOverflow : W32 := 2
def stSpecial : W32 := 4

/-- The value of a cell clamped to its range, and whether it was (R108). -/
def clampCell (x : Int) : BitVec 128 × W32 :=
  if x < -(2 ^ 127) then (BitVec.ofInt 128 (-(2 ^ 127)), stOverflow)
  else if 2 ^ 127 ≤ x then (BitVec.ofInt 128 (2 ^ 127 - 1), stOverflow) else (BitVec.ofInt 128 x, 0)

/-- The class of a cell after an infinite or NaN term (R109). -/
def classAdd (t c : CellClass) : CellClass :=
  match t, c with
  | .nan, _ | _, .nan => .nan
  | .fin, c => c
  | .pinf, .ninf | .ninf, .pinf => .nan
  | t, _ => t

def termClass : FVal → CellClass
  | .nan => .nan
  | .inf true => .ninf
  | .inf false => .pinf
  | .fin _ _ _ => .fin

/-- A term's part of a cell in wide mode, truncated toward zero at the anchor, and whether bits were discarded (R107). -/
def termBits (anchor : Int) : FVal → Int × Bool
  | .fin neg m e =>
    let q := anchor - 56
    let t : Int := roundAt .rtz neg m e q
    (if neg then -t else t, decide (e < q) && m % 2 ^ (q - e).toNat != 0)
  | _ => (0, false)

/-- One term added to a cell, with the status bits that the addition sets (R107 to R110). -/
def addTerm (anchor : Int) (sat : Bool) (x : Cell × W32) : Elem → Cell × W32
  | .flt v =>
    let cls := classAdd (termClass v) x.1.cls
    let (t, lost) := termBits anchor v
    let (c, clip) := clampCell (x.1.c.toInt + t)
    ({ c := c, cls := cls },
      x.2 ||| clip ||| (if lost then stInexact else 0) ||| (if cls == .fin then 0 else stSpecial))
  | .int t =>
    let sum := x.1.c.toInt + t
    let out := sum < -(2 ^ 31) || 2 ^ 31 ≤ sum
    let y := if sat then clampInt (-(2 ^ 31)) (2 ^ 31 - 1) sum else (BitVec.ofInt 32 sum).toInt
    ({ x.1 with c := BitVec.ofInt 128 y }, x.2 ||| (if out then stOverflow else 0))

/-- The term of two elements, with the scale-base exponents (R107, R110). -/
def termOf (sh : Int) (neg : Bool) : Elem → Elem → Elem
  | .int x, .int y => .int (if neg then -(x * y) else x * y)
  | x, y =>
    let p := match (x.val).mul y.val with
      | .fin n m e => FVal.fin n m (e + sh)
      | v => v
    .flt (if neg then p.neg else p)

/-- One row of activations times the weights, added to the row's cells in ascending k (R108). `w` holds the rows W(k). -/
def Acc.addRow (a : Acc) (sh : Int) (neg sat : Bool) (i : Nat) (row : List Elem) (w : List (List Elem)) : Acc :=
  (upto 32).foldl (fun a j =>
    let x := (row.zip w).foldl (fun x (r, ws) => match ws[j]? with
      | some y => addTerm a.anchor sat x (termOf sh neg r y)
      | none => x) (a.cell (32 * i + j), a.status)
    { cells := SMap.set {} a.cells (32 * i + j) x.1, status := x.2 }) a

/-- The formats that MSTA accepts, and those that wide mode accepts (R264). -/
def mstaTypes : List Ty := [.f32, .f16, .bf16, .f8a, .f8b, .f4, .i32, .i16, .n16, .i8, .n8, .i4, .n4]

/-- The destination element of a cell (R112). -/
def Acc.out (a : Acc) (i : Nat) (fmt : Ty) (rnd : Rnd) (sat nof : Bool) (eo : Int) : Nat :=
  let x := a.cell i
  let v : FVal := match x.cls with
    | .nan => .nan
    | .pinf => .inf false
    | .ninf => .inf true
    | .fin => .fin (x.c.toInt < 0) x.c.toInt.natAbs (a.anchor - 56 - eo)
  if a.intMode then convert .i32 fmt rnd sat nof (x.c.toNat % 2 ^ 32) else (fmtOf fmt).encode rnd nof v

/-- MGUIDE on one cell: c and u give the cell, with the status bits set (R114). -/
def guideCell (w : FVal) (c u : Cell) : Cell × W32 :=
  if c.cls != .fin || u.cls != .fin then ({ c with cls := .nan }, stSpecial)
  else
    let d := c.c.toInt - u.c.toInt
    match w with
    | .nan => ({ c with cls := .nan }, stSpecial)
    | .inf neg =>
      ({ c with cls := if d = 0 then .nan else if (d < 0) != neg then .ninf else .pinf }, stSpecial)
    | .fin neg m e =>
      let q := d.natAbs * m
      let t0 : Int := roundAt .rtz false q e 0
      let lost := decide (e < 0) && q % 2 ^ (-e).toNat != 0
      let t := if (d < 0) != neg then -t0 else t0
      let (r, clip) := clampCell (u.c.toInt + t)
      ({ c := r, cls := .fin }, clip ||| (clampCell t).2 ||| (if lost then stInexact else 0))

/-! ## Operands -/

/-- One element of an operand: row and column as in R259. -/
def State.operandElem (s : State) (m : Master) (place e : Nat) (o : Operand) (row col : Nat) : Except Stop Nat × State :=
  match o with
  | .absent => (.ok 0, s)
  | .lmem off pitch _ swz =>
    let a := off + swzOff swz (row * pitch + col * e / 8)
    let n := elemBytes e
    let abs := s.absLocal m.core place a
    if !(s.core m.core).present (blocks 128 abs n) then (.error .absent, s)
    else match s.engLocal m a n .read with
      | some f => (.error (.fault f), s)
      | none => (.ok (elemOf e (e == 4 && col % 2 == 1) ((s.core m.core).lbytes abs n)), s)
  | .handle h rec =>
    let (c0, c1) := handleCoords h
    match (tensorLayout rec).addr [c0 + col, c1 + row, 0, 0] with
    | none => (.ok 0, s)
    | some (va, hi) => match s.engRead m va (elemBytes e) with
      | (.error x, s) => (.error x, s)
      | (.ok bs, s) => (.ok (elemOf e hi bs), s)

/-- Elements read in order. -/
def State.readAll (get : Nat × Nat → State → Except Stop Nat × State) : List (Nat × Nat) → State → Except Stop (List Nat) × State
  | [], s => (.ok [], s)
  | x :: xs, s => match get x s with
    | (.error e, s) => (.error e, s)
    | (.ok v, s) => match State.readAll get xs s with
      | (.error e, s) => (.error e, s)
      | (.ok vs, s) => (.ok (v :: vs), s)

/-- The scale-base exponent of an operand (R259). -/
def Operand.exp : Operand → Int
  | .absent => 0
  | .lmem _ _ sbe _ => sbe
  | .handle _ rec => recSigned rec 80 6

/-- Ks of a pair of formats (R257, R259). -/
def ksOf (a w : Ty) : Nat := if a.width = 4 && w.width = 4 then 64 else 32

/-- For whom an operation's accesses are made, at its team's place. -/
def MOp.master (o : MOp) (c place : Nat) : Master :=
  { core := c, slot := o.slot, lane := o.lane, ctx := o.ctx, old := o.old, place := some place }

/-- The weights of a k-step read into a plane (R257, R259). -/
def State.readPlane (s : State) (m : Master) (place : Nat) (src : Operand) (fmt : Ty) (ks step : Nat) :
    Except Stop Plane × State :=
  let at_ := (upto (32 * ks)).map fun i => (ks * step + i / 32, i % 32)
  match State.readAll (fun x s => s.operandElem m place fmt.width src x.1 x.2) at_ s with
  | (.error x, s) => (.error x, s)
  | (.ok vs, s) =>
    let elems := ((upto (32 * ks)).zip vs).filterMap fun (i, v) => if v = 0 then none else some (i, BitVec.ofNat 32 v)
    (.ok { elems := elems, fmt := some fmt, ks := ks, exp := src.exp }, s)

/-- The weights W(k, j) of a plane; those of an undefined one are free values (R260, log 24). -/
def Plane.rows (p : Plane) (fmt : Ty) : List (List Elem) :=
  (upto p.ks).map fun k => (upto 32).map fun j =>
    let x := match p.open_ with
      | some n => Config.freeWord (n + 32 * k + j)
      | none => p.elems.get 0 (32 * k + j)
    elemVal fmt (x.toNat % 2 ^ fmt.width)

/-- A plane whose contents are undefined: its elements and all that it records are free values (R260). -/
def State.openPlane (s : State) : Plane × State :=
  let n := s.free
  let f := fun i => Config.freeWord (n + 2048 + i)
  ({ open_ := some n, fmt := Ty.ofCode ((f 0).toNat % 32), ks := if (f 1).getLsbD 0 then 64 else 32,
     exp := (field (f 2) 0 6).toInt },
   { s with free := s.free + 2051 })

/-! ## The queue -/

/-- The operation at the head of a team's queue changed, or removed. -/
def State.modHead (s : State) (c place : Nat) (f : MOp → MOp) : State :=
  s.modTeam c place fun t => match t.queue with
    | [] => t
    | o :: os => { t with queue := f o :: os }

/-- The head operation has completed or ended; with the queue empty, a lease that MREL gave up is released (R256). -/
def State.popHead (s : State) (c place : Nat) : State :=
  let s := s.modTeam c place fun t => { t with queue := t.queue.drop 1 }
  let t := s.team c place
  if t.releasing && t.queue.isEmpty then
    (s.modTeam c place fun t => { t with releasing := false, leaseCount := 0 }).modCore c fun k => { k with holder := none }
  else s

/-- The command has a name of its own (R235). -/
def MKind.named : MKind → Bool
  | .mldw _ _ | .mma _ _ _ _ _ | .msta _ _ => true
  | _ => false

/-- The issuer of an operation has left its slot. -/
def MOp.orphan (o : MOp) : Bool := o.slot == noSlot

/-- The fault of an operation: recorded as the last of its accumulators, and delivered (R237, Table 15-10); where its group has left
draining it is recorded against the context (R56). -/
def State.opFault (s : State) (c place : Nat) (o : MOp) (accs : List Nat) (f : FaultRec) : State :=
  let s := s.modTeam c place fun t => accs.foldl (fun t n => t.modProg n fun p => { p with fault := f.code }) t
  let f := { f with eng := o.kind.named, pc := o.pc, seq := o.seq }
  let t := s.team c place
  if o.orphan then s.record (s.eventRing o.ctx) 0x01 (dieOf c) (some c) none (faultBody f f.code o.lane o.grp t.lin t.launch o.ctx true)
  else s.deliver c o.slot { lane := o.lane, f := f }

/-- What follows when the head operation, not yet begun, cannot read or write: it is suspended on a fault that firmware serves, ends
with any other, or waits (R237). DESIGN CHOICE: an MLDW that ends so leaves the shadow plane as it was; R257 does not say what a load that
faults leaves there (log 24). -/
def State.headStop (s old : State) (c place : Nat) (o : MOp) (accs : List Nat) (step : Nat) : Stop → State
  | .fault f =>
    if f.code = cXLATE && s.served o.ctx f.addr then
      s.modHead c place fun q => { q with step := step, parked := [(0, f.addr)], old := [] }
    else (s.opFault c place o accs f).popHead c place
  | _ => old

/-- MSTA writes its cells from cell i on (R264): to local memory, where presence is ignored and the watch registers match it as a
local store (R351), or to a tensor. -/
def State.mstaCells (m : Master) (place : Nat) (a : Acc) (dst : Operand) (fmt : Ty) (rnd : Rnd) (sat nof : Bool) (eo : Int) :
    Nat → Nat → State → State × Option (Nat × Stop)
  | 0, _, s => (s, none)
  | n + 1, i, s =>
    let e := fmt.width
    let x := a.out i fmt rnd sat nof eo
    let go := State.mstaCells m place a dst fmt rnd sat nof eo n (i + 1)
    match dst with
    | .absent => (s, none)
    | .lmem off pitch _ _ =>
      let p := off + i / 32 * pitch + i % 32 * e / 8
      match lowestHit (s.watchTeam m.core m.slot (m.place <|> (s.group m.core m.slot).place) (s.group m.core m.slot).watch m.lane .write
          false true p (elemBytes e)) with
      | some (k, d) =>
        (s, some (i, .fault { code := cWATCH, addr := BitVec.ofNat 64 (p + d), num := BitVec.ofNat 16 k }))
      | none =>
        let q := s.absLocal m.core place p
        go (s.lwrite m.core q (elemPut e (e == 4 && i % 2 == 1) x ((s.core m.core).lbytes q (elemBytes e))))
    | .handle h rec =>
      let (c0, c1) := handleCoords h
      let at_ := fun (k : Nat) => (tensorLayout rec).addr [c0 + k % 32, c1 + k / 32, 0, 0]
      match at_ i with
      | none => go s
      | some (va, hi) =>
        let mates := (upto 1024).filterMap fun k => match at_ k with
          | some (v, b) => if v.toNat / 64 = va.toNat / 64 then some (2 * v.toNat + (if b then 1 else 0)) else none
          | none => none
        let whole := match s.mapped m.core m.ctx va with
          | .ok (pa, _) => s.bad pa 1 && (sortDedup mates).length * e == 512
          | .error _ => false
        match s.engWrite m va (elemBytes e) whole (elemPut e hi x) with
        | (.error y, s) => (s, some (i, y))
        | (.ok (), s) => go s

/-- The head operation is of the engine class, which needs the lease (R255, R256). -/
def MKind.leased : MKind → Bool
  | .mldw _ _ | .mswap | .mma _ _ _ _ _ => true
  | _ => false

/-- The operation posts stores of its group: an accumulator store to a tensor. One to local memory writes as the team (R54, R264). -/
def MKind.posts : MKind → Bool
  | .msta (.handle _ _) _ => true
  | _ => false

/-- The operation fetches operands (R177). -/
def MKind.fetches : MKind → Bool
  | .mldw _ _ | .mma _ _ _ _ _ => true
  | _ => false

/-- A draining group's accumulator store is queued: a pre-emption completes it, and what stands before it (R57). -/
def State.drainsQueue (s : State) (c place : Nat) : Bool :=
  (s.team c place).queue.any fun o => o.kind.posts && (s.group c o.slot).draining

/-- The head operation of a team may go on: its group's earlier stores are performed (R188), nothing suspends it, its context runs or
has a draining group to complete, the team holds the lease where it needs one, and an operand fetcher that it needs is not frozen
(R371). -/
def State.headReady (s : State) (c place : Nat) (o : MOp) : Bool :=
  o.parked.isEmpty && !(o.kind.fetches && (s.core c).mtxFrozen) && (s.runs o.ctx || s.drainsQueue c place) && (s.group c o.slot).sq.all (fun q => o.after ≤ q.acc.id)
    && (!o.kind.leased || (s.core c).holder == some place)

/-- Fields of word 0 or 1 of a parameter block (Table 15-7). -/
def blkAfmt (b : BitVec 512) : Ty := (Ty.ofCode (recField b 0 5)).getD .f4
def blkWfmt (b : BitVec 512) : Ty := (Ty.ofCode (recField b 5 5)).getD .f4
def blkRows (b : BitVec 512) (t : Nat) : Nat := if t = 0 then recField b 10 6 else recField b 40 6
def blkMask (b : BitVec 512) (t : Nat) : BitVec 32 := b.extractLsb' (64 + 32 * t) 32

/-- The anchor that an operation with accumulate disabled fixes (R260). -/
def blkAnchor (b : BitVec 512) (a0 : Operand) : BitVec 7 :=
  if blkBit b 27 then match a0 with
    | .handle _ rec => rec.extractLsb' 88 7
    | _ => 0
  else b.extractLsb' 32 7

def Prog.setSteps (p : Prog) (stream n : Nat) : Prog := if stream = 0 then { p with k0 := n } else { p with k1 := n }

/-- MMA and MMAT start (R255, R259 to R261). DESIGN CHOICE: an operation that ends here with SHAPE leaves the complete flag as it was: R260's
pseudocode ends before it clears the flag, while its bullet has other faults end with it 0 (log 24). -/
def State.mmaStart (s : State) (c place : Nat) (o : MOp) (blk : BitVec 512) (a0 : Operand) : State :=
  let t := s.team c place
  let int := !(blkAfmt blk).isFloat
  let clear := blkBit blk 24 && !blkBit blk 26
  let planeBad := !blkBit blk 22 && (t.active.fmt != some (blkWfmt blk) || t.active.ks != ksOf (blkAfmt blk) (blkWfmt blk))
  let modeBad := !clear && o.accs.any fun n => (t.acc n).intMode != int
  if planeBad || modeBad then (s.opFault c place o o.accs { code := cSHAPE }).popHead c place
  else
    let s := s.modTeam c place fun t => o.accs.foldl (fun t n =>
      let t := if clear then t.setAcc n (clearAcc (blkAnchor blk a0) int) else t
      t.modProg n fun p => { p with complete := false, fault := 0 }) t
    let s := if blkBit blk 26 then s
      else s.modTeam c place fun t => t.modProg o.acc fun p =>
        { p with k0 := 0, k1 := if o.accs.length = 2 then 0 else p.k1 }
    s.modHead c place fun q => { q with started := true }

/-- MATRIX_OPERATION_START (R255, R257, R260 to R264): the operation at the head of a team's queue begins; one that has no k-steps
takes effect. -/
def execMatrixOperationStart (core team : Nat) (s : State) : Res :=
  .next (match (s.team core team).queue with
    | [] => s
    | o :: _ =>
      if o.started || !s.headReady core team o then s
      else
        let t := s.team core team
        let m := o.master core team
        match o.kind with
        | .mldw src fmt => match s.readPlane m team src fmt (ksOf fmt fmt) 0 with
          | (.error x, s') => s'.headStop s core team o [] 0 x
          | (.ok p, s') => (s'.modTeam core team fun t => { t with shadow := p }).popHead core team
        | .mswap => (s.modTeam core team fun t => { t with active := t.shadow, shadow := t.active }).popHead core team
        | .mma _ blk a0 _ _ => s.mmaStart core team o blk a0
        | .mclr mod =>
          (s.modTeam core team fun t =>
            (t.setAcc o.acc (clearAcc (field mod 0 7) (mod.getLsbD 7))).modProg o.acc fun p =>
              { p with complete := true, fault := 0 }).popHead core team
        | .mguide w grp =>
          let c := t.acc o.acc
          let u := t.acc (o.acc + 1)
          let bad := grp != o.acc || !maskBit t.tmask (o.acc / 2) || t.nacc ≤ o.acc + 1
            || !(t.progress o.acc).complete || !(t.progress (o.acc + 1)).complete || c.intMode || u.intMode
            || c.anchor != u.anchor
          if bad then (s.opFault core team o [o.acc] { code := cTANDEM }).popHead core team
          else
            let v := fF32.decode w.toNat
            let a := (upto 1024).foldl (fun (a : Acc) i =>
              let (x, st) := guideCell v (c.cell i) (u.cell i)
              { cells := SMap.set {} a.cells i x, status := a.status ||| st }) c
            (s.modTeam core team fun t => (t.setAcc o.acc a).modProg o.acc fun p =>
              { p with complete := true, fault := 0 }).popHead core team
        | .msta dst mod =>
          let a := t.acc o.acc
          let fmt := (Ty.ofCode (mod.toNat % 32)).getD .f32
          if !a.intMode && !fmt.isFloat then (s.opFault core team o [o.acc] { code := cSHAPE }).popHead core team
          else
            let eo := match dst with
              | .handle _ rec => recSigned rec 80 6
              | _ => (field mod 8 6).toInt
            let rnd := Rnd.ofCode (field mod 5 3)
            match State.mstaCells m team a dst fmt rnd (mod.getLsbD 17) (mod.getLsbD 18) eo (1024 - o.step) o.step s with
            | (s', some (i, x)) => s'.headStop s core team o [o.acc] i x
            | (s', none) =>
              (s'.modTeam core team fun t => t.modProg o.acc fun p => { p with fault := 0 }).popHead core team)

/-- The rows of a stream that take part, read for a k-step (R260). -/
def State.readRows (s : State) (m : Master) (place : Nat) (src : Operand) (fmt : Ty) (ks step : Nat) (rows : List Nat) :
    Except Stop (List (Nat × List Elem)) × State :=
  let at_ := rows.flatMap fun i => (upto ks).map fun k => (i, ks * step + k)
  match State.readAll (fun x s => s.operandElem m place fmt.width src x.1 x.2) at_ s with
  | (.error x, s) => (.error x, s)
  | (.ok vs, s) => (.ok (rows.zip (chunksOf ks rows.length (vs.map (elemVal fmt)))), s)

/-- A stream of the running operation stops or parks on what its fetch met (R260, R261). -/
def State.streamStop (s : State) (c place : Nat) (o : MOp) (streams : List Nat) (as : Nat) (f : FaultRec) : State :=
  if f.code = cXLATE && s.served o.ctx f.addr then s.modHead c place fun q => { q with parked := q.parked ++ [(as, f.addr)] }
  else
    (s.opFault c place o (streams.map fun t => o.acc + t) f).modHead c place fun q =>
      { q with stopped := q.stopped ++ streams }

/-- One stream's part of a k-step with the weights given: its rows are fetched and accumulated, or it parks or stops; none where it
must wait. -/
def State.streamStep (s : State) (c place : Nat) (o : MOp) (blk : BitVec 512) (src : Operand) (w : Plane) (step t : Nat) :
    Option State :=
  let fa := blkAfmt blk
  let ks := ksOf fa (blkWfmt blk)
  let rows := (upto (Nat.min 32 (blkRows blk t))).filter fun i => maskBit (blkMask blk t) i
  match s.readRows (o.master c place) place src fa ks step rows with
  | (.error (.fault f), s) => some (s.streamStop c place o [t] t f)
  | (.error _, _) => none
  | (.ok xs, s) =>
    let sh := src.exp + w.exp
    some (s.modTeam c place fun tm =>
      let a := xs.foldl (fun (a : Acc) (i, row) =>
        a.addRow sh (blkBit blk 23) (blkBit blk 25) i row (w.rows (blkWfmt blk))) (tm.acc (o.acc + t))
      (tm.setAcc (o.acc + t) a).modProg o.acc fun p => p.setSteps t (step + 1))

/-- The streams that take part in a k-step, one after the other; none where one must wait. -/
def State.streamsStep (c place : Nat) (o : MOp) (blk : BitVec 512) (a0 a1 : Operand) (w : Plane) (step : Nat) :
    List Nat → State → Option State
  | [], s => some s
  | t :: ts, s => match s.streamStep c place o blk (if t = 0 then a0 else a1) w step t with
    | none => none
    | some s => State.streamsStep c place o blk a0 a1 w step ts s

/-- A stream whose operation has no step left completes its accumulator: that of an MMA where it has not stopped (R260), that of an MMAT
where its counter stands at ksteps (R261). -/
def MOp.completes (o : MOp) (t : Team) (steps n : Nat) : Bool :=
  if o.accs.length = 2 then t.stepsDone o.acc n == steps else !o.stopped.contains n

/-- The running operation has no step left: its accumulators are complete as R260 and R261 say, and it leaves the queue. -/
def State.mmaEnd (s : State) (c place : Nat) (o : MOp) (steps : Nat) : State :=
  (s.modTeam c place fun t => (upto o.accs.length).foldl (fun u n =>
    if o.completes t steps n then u.modProg (o.acc + n) fun p => { p with complete := true } else u) t).popHead c place

/-- MATRIX_K_STEP (R260, R261): the least step that a live stream has yet to do; its weights, shared by the streams, are fetched
once. An operation without a live stream ends, or is suspended while one is parked. DESIGN CHOICE: a streamed weight load that faults leaves
both planes as they were before that k-step (log 24). -/
def execMatrixKStep (core team : Nat) (s : State) : Res :=
  .next (match (s.team core team).queue with
    | [] => s
    | o :: _ => match o.kind with
      | .mma _ blk a0 a1 wgt =>
        let t := s.team core team
        let steps := blkSteps blk
        let live := o.live t steps
        let q := { o with parked := [] }
        if !o.started || !s.headReady core team q then s
        else match minOf (live.map fun n => t.stepsDone o.acc n) with
          | none => if o.parked.isEmpty then s.mmaEnd core team o steps else s
          | some step =>
            let ts := live.filter fun n => t.stepsDone o.acc n == step
            let ks := ksOf (blkAfmt blk) (blkWfmt blk)
            if blkBit blk 22 then
              match s.readPlane (o.master core team) team wgt (blkWfmt blk) ks step with
              | (.error (.fault f), s') => s'.streamStop core team o live 2 f
              | (.error _, _) => s
              | (.ok p, s') =>
                let (u, s') := s'.openPlane
                let s' := s'.modTeam core team fun t => { t with active := p, shadow := u }
                (State.streamsStep core team o blk a0 a1 p step ts s').getD s
            else (State.streamsStep core team o blk a0 a1 t.active step ts s).getD s
      | _ => s)

/-! ## The lease (R256, R280) -/

/-- LEASE_GRANT (R280, R290): with no holder, the request at the head of the core's queue is granted; a count that a pre-emption
saved continues. -/
def execLeaseGrant (core : Nat) (s : State) : Res :=
  .next (let k := s.core core
    match k.holder, k.fifo with
    | none, p :: rest =>
      (s.modCore core fun k => { k with holder := some p, fifo := rest }).modTeam core p fun t =>
        { t with leaseCount := if t.leaseCount = 0 then t.leaseLen else t.leaseCount }
    | _, _ => s)

/-- The operations of a team that the lease must wait for have completed, ended or been suspended, those behind a suspended one
with it. -/
def Team.atRest (t : Team) : Bool :=
  match t.queue with
  | [] => true
  | o :: _ => o.suspended t fun _ => true

/-- LEASE_EXPIRY (R256): the count has reached zero; the lease passes on, the team's request entered again, or the count is
reloaded when no other team waits. -/
def execLeaseExpiry (core : Nat) (s : State) : Res :=
  .next (match (s.core core).holder with
    | none => s
    | some p =>
      let t := s.team core p
      if t.leaseCount != 0 || t.releasing then s
      else if (s.core core).fifo.isEmpty then s.modTeam core p fun t => { t with leaseCount := t.leaseLen }
      else if !t.atRest then s
      else s.modCore core fun k => { k with holder := none, fifo := k.fifo ++ [p] })

/-- MLEASE (R256): a request is entered where the team neither holds the lease nor has one pending, and the PC set waits for the
grant. DESIGN CHOICE: for the agent's group, which is of no team, it raises LEASE (log 81). -/
def execMlease (h : Hdr) (f : EF) (s : State) : Res :=
  s.nibIssue (.mlease h f) h fun e n s => match e.g.place with
    | none => s.nibFault e n cLEASE
    | some p =>
      if s.mayQueue e.core (some p) then s
      else
        let ask := (s.core e.core).fifo.contains p || ((s.core e.core).holder == some p && !e.team.releasing)
        let s := if ask then s else s.modCore e.core fun k => { k with fifo := k.fifo ++ [p] }
        s.waitAt e e.lanes .lease

/-- MREL (R256). DESIGN CHOICE: for the agent's group, which is of no team, it has no effect (log 81). -/
def execMrel (h : Hdr) (f : EF) (s : State) : Res :=
  s.nibIssue (.mrel h f) h fun e _ s => match e.g.place with
    | none => s
    | some p =>
      let s := s.modCore e.core fun k => { k with fifo := k.fifo.filter (· != p) }
      if (s.core e.core).holder != some p then s
      else if e.team.queue.isEmpty then
        (s.modTeam e.core p fun t => { t with leaseCount := 0, releasing := false }).modCore e.core fun k =>
          { k with holder := none }
      else s.modTeam e.core p fun t => { t with releasing := true }

/-! ## Issue -/

/-- Where an instruction of the team's queue is issued from: its place and the operation without its kind. -/
def Env.mop (e : Env) (s : State) (n acc : Nat) (kind : MKind) : MOp :=
  { kind := kind, acc := acc, slot := e.slot, grp := e.g.grp, lane := n, ctx := e.g.ctx, pc := e.pc, after := s.nextId }

/-- An operation enters the team's queue, under a name of its own where it is an engine command; a full queue makes the PC set wait
(R235, R255). -/
def State.enqueue (s : State) (e : Env) (p : Nat) (o : MOp) : State :=
  if 8 ≤ e.team.queue.length then s.waitAt e e.lanes .engineRoom
  else
    let (seq, s) := if o.kind.named then s.nextSeq e.core else (0, s)
    s.modTeam e.core p fun t => { t with queue := t.queue ++ [{ o with seq := seq }] }

/-- The same for the engine class: LEASE without a lease or request (R256); the PC set waits for the lease, whose count MLDW, MMA
and MMAT spend. -/
def State.enqueueLeased (s : State) (e : Env) (n p : Nat) (o : MOp) : State :=
  let k := s.core e.core
  let held := k.holder == some p && !e.team.releasing
  if !held && !k.fifo.contains p then s.nibFault e n cLEASE
  else if !s.mayQueue e.core (some p) then s.waitAt e e.lanes .lease
  else if 8 ≤ e.team.queue.length then s.waitAt e e.lanes .engineRoom
  else
    let s := s.enqueue e p o
    if o.kind.named then s.modTeam e.core p fun t => { t with leaseCount := t.leaseCount - 1 } else s

/-- An instruction of the nib lane on its team: `acc` is the accumulator that it names, SHAPE at or above the launch's nacc (R255). DESIGN
CHOICE: the agent's group, which is of no team, takes SHAPE, as if its launch had no accumulators (log 81). -/
def State.teamOp (s : State) (i : Instr) (h : Hdr) (acc : Option Nat) (body : Env → Nat → Nat → State → State) : Res :=
  s.nibIssue i h fun e n s => match e.g.place, acc with
    | none, _ => s.nibFault e n cSHAPE
    | some p, none => body e n p s
    | some p, some a => if e.team.nacc ≤ a then s.nibFault e n cSHAPE else body e n p s

/-- The bytes of a local operand's row and column ranges lie in the team's region (R236). -/
def localOk (t : Team) (off pitch swz e : Nat) (rows : List Nat) (cols : Nat) : Bool :=
  rows.all fun i => (upto cols).all fun k =>
    let a := off + swzOff swz (i * pitch + k * e / 8)
    inRegion t a (elemBytes e)

/-- MLDW (R257). -/
def execMldw (h : Hdr) (f : EF) (s : State) : Res :=
  s.teamOp (.mldw h f) h none fun e n p s =>
    let fmt := (Ty.ofCode f.mod.toNat).getD .f4
    if f.sub == 0 then
      let off := (e.src32 n f.a).toNat
      let pitch := (e.src32 n f.b).toNat
      if !localOk e.team off pitch 0 fmt.width (upto (ksOf fmt fmt)) 32 then
        s.nibFault e n cPERM (BitVec.ofNat 64 off)
      else s.enqueueLeased e n p (e.mop s n 16 (.mldw (.lmem off pitch 0 0) fmt))
    else
      let hd := e.addrA n f
      s.withEntry e n hd fun rec s =>
        if recFormat rec != some fmt then s.nibFault e n cSHAPE
        else s.enqueueLeased e n p (e.mop s n 16 (.mldw (.handle hd rec) fmt))

/-- MSWAP (R257). -/
def execMswap (h : Hdr) (f : EF) (s : State) : Res :=
  s.teamOp (.mswap h f) h none fun e n p s => s.enqueueLeased e n p (e.mop s n 16 .mswap)

/-- The activation and weight formats that an operation accepts (Table 15-7). -/
def blkTypes : List Ty := [.f4, .f8a, .f8b, .f16, .bf16, .i8, .n8, .i4, .n4]

/-- The bit at which a descriptor of a parameter block begins. -/
def descAt (d : Nat) : Nat := 128 * (d + 1)

/-- The handle of a descriptor (Table 15-8). -/
def descHandle (b : BitVec 512) (d : Nat) : W64 := b.extractLsb' (descAt d + 32) 64

/-- The descriptors that an operation reads: act0, act1 of MMAT, and the weights where they are streamed (R258, R259). -/
def blkDescs (b : BitVec 512) (tandem : Bool) : List Nat :=
  [0] ++ (if tandem then [1] else []) ++ (if blkBit b 22 then [2] else [])

/-- A descriptor's reserved kind or nonzero reserved bits (Table 15-8). -/
def descBad (b : BitVec 512) (d : Nat) : Bool :=
  let o := descAt d
  2 ≤ recField b o 2 || recField b (o + 10) 6 != 0 || recField b (o + 96) 32 != 0
    || (recField b o 2 == 0 && recField b (o + 64) 32 != 0)

/-- The formats and ksteps of a block are such that its operands can be located. -/
def blkFormed (b : BitVec 512) : Bool :=
  ((Ty.ofCode (recField b 0 5)).map blkTypes.contains).getD false && ((Ty.ofCode (recField b 5 5)).map blkTypes.contains).getD false

/-- The conditions of R258 that raise SHAPE on the block's own contents. -/
def blkBad (b : BitVec 512) (tandem : Bool) : Bool :=
  recField b 28 4 != 0 || recField b 46 18 != 0 || recField b 39 1 != 0 || (blkDescs b tandem).any (descBad b)
    || !blkFormed b || (blkAfmt b).isFloat != (blkWfmt b).isFloat || blkSteps b == 0
    || 32 < blkRows b 0 || 32 < blkRows b 1 || (!blkBit b 22 && blkSteps b != 1)
    || (!tandem && (blkRows b 1 != 0 || recField b (descAt 1) 128 != 0))
    || (blkBit b 27 && recField b (descAt 0) 2 == 0)

/-- An operand of a block, with the record that a handle names. -/
def blkOperand (b : BitVec 512) (d : Nat) (rec : BitVec 512) : Operand :=
  let o := descAt d
  if recField b o 2 = 0 then
    .lmem (recField b (o + 32) 32) (recField b (o + 16) 16) (recSigned b (o + 4) 6) (recField b (o + 2) 2)
  else .handle (descHandle b d) rec

/-- The local ranges of a block's operands lie in the region (R236). -/
def blkLocalOk (t : Team) (b : BitVec 512) (tandem : Bool) : Bool :=
  let ks := ksOf (blkAfmt b) (blkWfmt b) * blkSteps b
  (blkDescs b tandem).all fun d => match blkOperand b d 0 with
    | .lmem off pitch _ swz =>
      if d = 2 then localOk t off pitch swz (blkWfmt b).width (upto ks) 32
      else localOk t off pitch swz (blkAfmt b).width
        ((upto (Nat.min 32 (blkRows b d))).filter fun i => maskBit (blkMask b d) i) ks
    | _ => true

/-- The descriptors of a block that name handles. -/
def blkHandles (b : BitVec 512) (tandem : Bool) : List Nat := (blkDescs b tandem).filter fun d => recField b (descAt d) 2 == 1

/-- The records of the handles that a block names, by descriptor, as their reads at issue give them. -/
def State.blkEntries (s : State) (e : Env) (b : BitVec 512) (tandem : Bool) : List (Nat × Except FaultRec (BitVec 512)) :=
  (blkHandles b tandem).map fun d => (d, s.entryOf e.core e.slot e.g.ctx (descHandle b d))

/-- The records of a block, or the fault that comes first by R12 among those of their reads, those that they hold (R245), and PERM for a
local range beyond the region (R236). DESIGN CHOICE: the spec gives that PERM no faulting address, and the model records 0 (log 81). -/
def State.blkRecords (s : State) (e : Env) (b : BitVec 512) (tandem : Bool) : Except FaultRec (List (Nat × BitVec 512)) :=
  let rs := s.blkEntries e b tandem
  let errs := rs.filterMap fun (_, r) => match r with
    | .error x => some x
    | .ok _ => none
  let loc := if blkFormed b && !blkLocalOk e.team b tandem then [{ code := cPERM }] else []
  match firstFault FaultRec.code (errs ++ loc) with
  | some x => .error x
  | none => .ok (rs.filterMap fun (d, r) => match r with
    | .ok x => some (d, x)
    | .error _ => none)

/-- MMA and MMAT (R258 to R261): the parameter block and the records are read at issue; an absent line of the block makes the PC
set wait, and so does a record that cannot be read yet. The agent's group takes SHAPE (log 81). -/
def State.mmaIssue (s : State) (i : Instr) (h : Hdr) (f : EF) (tandem : Bool) : Res :=
  s.nibIssue i h fun e n s => match e.g.place with
    | none => s.nibFault e n cSHAPE
    | some p =>
      let a := (e.src32 n f.a).toNat
      if a % 64 != 0 then s.nibFault e n cALIGN (BitVec.ofNat 64 a)
      else if e.team.nacc ≤ f.acc.val then s.nibFault e n cSHAPE
      else if !inRegion e.team a 64 then s.nibFault e n cPERM (BitVec.ofNat 64 a)
      else if !(s.core e.core).present (teamLines e.team a 64) then s.waitAt e e.lanes (.lines (teamLines e.team a 64))
      else
        let blk := recOf ((s.core e.core).lbytes (s.absLocal e.core p a) 64)
        let get := fun (rs : List (Nat × BitVec 512)) d => match rs.find? fun x => x.1 == d with
          | some x => x.2
          | none => 0
        s.afterRecords e ((blkHandles blk tandem).map fun d => s.tidRange e.g.ctx (descHandle blk d)) fun s =>
        match s.blkRecords e blk tandem with
        | .error x => s.raise e n x
        | .ok rs =>
          let fmts := rs.any fun (d, r) => recFormat r != some (if d = 2 then blkWfmt blk else blkAfmt blk)
          if blkBad blk tandem || fmts then s.nibFault e n cSHAPE
          else
            let op := fun d => blkOperand blk d (get rs d)
            let o := e.mop s n f.acc.val (.mma tandem blk (op 0) (if tandem then op 1 else .absent)
              (if blkBit blk 22 then op 2 else .absent))
            let k := s.core e.core
            let noLease := !(k.holder == some p && !e.team.releasing) && !k.fifo.contains p
            let wrongPair := tandem && (e.g.grp != f.acc.val || !maskBit e.team.tmask (f.acc.val / 2)
              || e.team.nacc ≤ f.acc.val + 1)
            if wrongPair && !noLease then s.nibFault e n cTANDEM else s.enqueueLeased e n p o

/-- MMA (R260). -/
def execMma (h : Hdr) (f : EF) (s : State) : Res := s.mmaIssue (.mma h f) h f false

/-- MMAT (R261). -/
def execMmat (h : Hdr) (f : EF) (s : State) : Res := s.mmaIssue (.mmat h f) h f true

/-- MCLR (R262). -/
def execMclr (h : Hdr) (f : EF) (s : State) : Res :=
  s.teamOp (.mclr h f) h (some f.acc.val) fun e n p s =>
    s.enqueue e p (e.mop s n f.acc.val (.mclr (field f.mod 0 8)))

/-- MGUIDE (R263). -/
def execMguide (h : Hdr) (f : EF) (s : State) : Res :=
  s.teamOp (.mguide h f) h (some f.acc.val) fun e n p s =>
    s.enqueue e p (e.mop s n f.acc.val (.mguide (e.src32 n f.b) e.g.grp))

/-- MSTA (R264). -/
def execMsta (h : Hdr) (f : EF) (s : State) : Res :=
  s.teamOp (.msta h f) h (some f.acc.val) fun e n p s =>
    let go := fun fmt => (Ty.ofCode fmt).bind fun t => if mstaTypes.contains t then some t else none
    match go (f.mod.toNat % 32) with
    | none => s.nibFault e n cSHAPE
    | some fmt =>
      if f.sub == 0 then
        let off := (e.src32 n f.a).toNat
        let pitch := (e.src32 n f.b).toNat
        if !localOk e.team off pitch 0 fmt.width (upto 32) 32 then s.nibFault e n cPERM (BitVec.ofNat 64 off)
        else s.enqueue e p (e.mop s n f.acc.val (.msta (.lmem off pitch 0 0) f.mod))
      else
        let hd := e.addrA n f
        s.withEntry e n hd fun rec s =>
          if recFormat rec != some fmt then s.nibFault e n cSHAPE
          else s.enqueue e p (e.mop s n f.acc.val (.msta (.handle hd rec) f.mod))

/-! ## MLDT, MPROG, MSTAT, MWAIT -/

/-- The register k of column l of a transposed tile (R265): elements 32k ÷ e and after, lowest first. -/
def mldtReg (e rows k : Nat) (elem : Nat → Nat) : W32 :=
  let per := 32 / e
  BitVec.ofNat 32 (((upto per).map fun j =>
    let i := k * per + j
    if i < rows then elem i % 2 ^ e * 2 ^ (j * e) else 0).foldl (· + ·) 0)

/-- A format of MLDT: a listed code 8, 16 or 32 bits wide. That .X2, whose width is 32, is one is the model's reading (log 73). -/
def mldtWidth (r : BitVec 512) : Option Nat :=
  match (recFormat r).map Ty.width with
  | some w => if w == 8 || w == 16 || w == 32 then some w else none
  | none => none

/-- The registers that MLDT writes (R265). -/
def mldtRegs (r : BitVec 512) (w : Nat) : Nat := (recField r 392 16 * w + 31) / 32

/-- A register that MLDT writes lies at or above the allotment (R69, R265). -/
def mldtBeyond (e : Env) (f : EF) : Bool :=
  let r := e.team.shapes.get 0 f.shp.val
  match mldtWidth r, f.d with
  | some w, .v x => e.g.allot e.slot < x.val + mldtRegs r w
  | _, _ => false

/-- MLDT (R265): ILLEGAL, for the whole PC set, comes before every other fault (R12, R86). -/
def execMldt (h : Hdr) (f : EF) (s : State) : Res :=
  if s.iss.stroke.isNone && mldtBeyond (s.env h) f then .next (s.faultSet cILLEGAL)
  else s.nibIssue (.mldt h f) h fun e n s =>
    let r := e.team.shapes.get 0 f.shp.val
    let a := (e.src32 n f.a).toNat
    let cols := recField r 376 16
    let rows := recField r 392 16
    let e' := (mldtWidth r).getD 32
    let swz := shapeSwz r
    let regs := mldtRegs r e'
    let bytes := cols * rows * e' / 8
    let bad := (mldtWidth r).isNone || cols == 0 || 32 < cols || rows == 0 || 32 < rows
      || recField r 75 5 != 0 || recField r 83 5 != 0 || recField r 472 40 != 0 || a % (if swz = 0 then 16 else 128) != 0
    let spot := fun (i l : Nat) => a + swzOff swz ((l + cols * i) * e' / 8)
    let hits := if (e.g.lane n).wskip = some e.pc then []
      else s.watchGroup e.core e.slot e.g.watch n .read false true a bytes
    let lines := teamLines e.team a bytes
    if bad then s.nibFault e n cSHAPE
    else if !inRegion e.team a bytes then s.nibFault e n cPERM (BitVec.ofNat 64 a)
    else match lowestHit hits with
      | some (k, off) =>
        s.raise e n { code := cWATCH, addr := BitVec.ofNat 64 (a + off), num := BitVec.ofNat 16 k }
      | none =>
        if !(s.core e.core).present lines then s.waitAt e e.lanes (.lines lines)
        else s.writeD e f.d fun l => (upto regs).map fun k =>
          if cols ≤ l then 0
          else mldtReg e' rows k fun i =>
            ofBytes ((s.core e.core).lbytes (128 * e.team.lbase + spot i l) (e' / 8))

/-- An instruction that reads an accumulator's state once the earlier operations on it have completed, ended or been suspended
(R266). -/
def State.accRead (s : State) (i : Instr) (h : Hdr) (f : EF) (val : State → Env → Nat → W32) : Res :=
  s.teamOp i h (some f.acc.val) fun e _ p s =>
    if e.team.accDone f.acc.val false true then s.nibD e f.d [val s e p]
    else s.waitAt e e.lanes (.acc f.acc.val false true)

/-- MPROG (R266). -/
def execMprog (h : Hdr) (f : EF) (s : State) : Res :=
  s.accRead (.mprog h f) h f fun _ e _ =>
    let p := e.team.progress f.acc.val
    BitVec.ofNat 32 (p.k0 % 2 ^ 16 + p.k1 % 2 ^ 16 * 2 ^ 16)

/-- MSTAT.ARITH (R266). -/
def execMstatArith (h : Hdr) (f : EF) (s : State) : Res :=
  s.accRead (.mstatArith h f) h f fun _ e _ => (e.team.acc f.acc.val).status

/-- MSTAT.ENG (R266, Table 15-10). A lease that MREL is to give up is held until the team's queue is done (R256). -/
def execMstatEng (h : Hdr) (f : EF) (s : State) : Res :=
  s.accRead (.mstatEng h f) h f fun s e p =>
    let t := e.team
    let held := (s.core e.core).holder == some p
    let bit := fun (b : Bool) (n : Nat) => if b then 2 ^ n else 0
    let a := t.progress f.acc.val
    BitVec.ofNat 32 ((if held then t.leaseCount % 256 * 2 ^ 24 else 0) + bit held 23
      + bit ((s.core e.core).fifo.contains p) 22 + bit a.complete 21
      + bit (t.queue.any fun o => o.uses f.acc.val && o.suspended t fun k => o.acc + k == f.acc.val) 20 + t.queue.length % 16 * 2 ^ 16
      + a.fault.toNat * 2 ^ 8)

/-- MWAIT (R266). -/
def execMwait (h : Hdr) (f : EF) (s : State) : Res :=
  let all := f.mod.getLsbD 0
  s.teamOp (.mwait h f) h (if all then none else some f.acc.val) fun e _ _ s =>
    if e.team.accDone f.acc.val all false then s else s.waitAt e e.lanes (.acc f.acc.val all false)

end Sys2Proof.Machine
end

