-- ==== Sys2Proof/Machine/System.lean ====
section
/-! DEFINITION. The system instructions: special registers, traps, halts, freezes, watches, samples and logs (R346 to R352). -/

namespace Sys2Proof.Machine

/-! ## Special registers (R347) -/

/-- What an issue reads of the special registers that instructions write: those of the snapshot for a secondary set (R44). -/
def State.special (s : State) (e : Env) : Bool × Nat × BitVec 20 :=
  match s.iss.snap with
  | some x => (x.remMode, x.fcomm, x.period)
  | none =>
    let x := (s.context e.g.ctx).getD {}
    (x.remMode, x.fcomm, (s.core e.core).period)

/-- A register of the watch set (Table 21-8). -/
def watchWord (w : WatchReg) (k : Nat) : W32 :=
  match k with
  | 0 => loHalf w.base
  | 1 => hiHalf w.base
  | 2 => w.len
  | 3 => w.ctl
  | _ => w.lanes

/-- A trap register of a lane (Table 17-4). -/
def Lane.trapReg (l : Lane) (k : Nat) : W32 :=
  match k with
  | 0 => l.tcause
  | 1 => loHalf l.taddr
  | 2 => hiHalf l.taddr
  | 3 => loHalf l.tpcr
  | 4 => hiHalf l.tpcr
  | 5 => l.tseq
  | 6 => loHalf l.tret
  | _ => hiHalf l.tret

/-- The number is that of a trap register. -/
def isTrapReg (n : Nat) : Bool := 0x100 ≤ n && n < 0x108

/-- The value of a special register for a lane (Table 21-8). -/
def State.sreg (s : State) (e : Env) (l n : Nat) : W32 :=
  let x := (s.context e.g.ctx).getD {}
  let (mode, fcomm, period) := s.special e
  if isTrapReg n then (e.g.lane l).trapReg (n - 0x100)
  else if 0x20 ≤ n && n < 0x40 then watchWord (e.g.watch[(n - 0x20) / 8]?.getD ⟨0, 0, 0, 0⟩) (n % 8)
  else match n with
    | 0x000 => BitVec.ofNat 32 e.core
    | 0x001 => s.devid.zeroExtend 32
    | 0x002 => (if x.tagEn then 1 else 0) ||| (if x.tagAny0 then 2 else 0)
    | 0x003 => loHalf (BitVec.ofNat 64 (s.die (dieOf e.core)).cycle)
    | 0x004 => (e.g.lane l).cychi
    | 0x005 => BitVec.ofNat 32 e.g.launch
    | 0x008 => BitVec.ofNat 32 (fcomm % 64 * 256 + (if mode then 1 else 0))
    | 0x009 => x.remrank
    | 0x00A => x.remcode
    | 0x00B => if x.dbgctl then 1 else 0
    | 0x010 => period.zeroExtend 32
    | _ => 0

/-- Every lane of the issuing set is in trap mode. -/
def State.allTrap (s : State) : Bool := s.iss.lanes.all fun l => ((s.group s.iss.core s.iss.slot).lane l).trap

/-- The meaning of an instruction privileged outside `ok`: PRIV is a decode fault, after ILLEGAL, for every lane of the issuing
set, whatever its guard, and the instruction has no effect for any of them (R12, R64, R86). A stroke inks (R86). -/
def State.privIssue (s : State) (i : Instr) (h : Hdr) (ok : Bool) (body : Env → State → State) : Res :=
  if s.iss.stroke.isNone && i.within ((s.group s.iss.core s.iss.slot).allot s.iss.slot) && !ok then .next (s.faultSet cPRIV)
  else s.issueInk i h body

/-- GETS (R347, R284): PRIV for a trap register outside trap mode. -/
def execGets (h : Hdr) (f : VF) (s : State) : Res :=
  s.privIssue (.gets h f) h (!isTrapReg (sregNo f) || s.allTrap) fun e s =>
    s.writeD e f.d fun l => [s.sreg e l (sregNo f)]

/-- CYCLO_READ (R347): the low half of the die's cycle counter; the high half is latched for each lane. -/
def execCycloRead (h : Hdr) (f : VF) (s : State) : Res :=
  s.issueInk (.cycloRead h f) h fun e s =>
    let now := BitVec.ofNat 64 (s.die (dieOf e.core)).cycle
    let s := s.writeD e f.d fun _ => [loHalf now]
    e.active.foldl (fun s l => s.modLane e.core e.slot l fun x => { x with cychi := hiHalf now }) s

/-- A lane's SETS of a trap register in trap mode: tret, and bit 15 of tcause (R284); none for the others. -/
def Lane.setTrapReg (l : Lane) (k : Nat) (x : W32) : Option Lane :=
  match k with
  | 0 => some { l with tcause := (l.tcause &&& 0xFFFF_7FFF) ||| (x &&& 0x8000) }
  | 6 => some { l with tret := pairVal x (hiHalf l.tret) }
  | 7 => some { l with tret := pairVal (loHalf l.tret) x }
  | _ => none

/-- The writer is one that Table 21-8 and Table 17-4 name: a trap-mode lane for tcause and tret, an agent (slot 63) for remerr
and sampctl. -/
def State.setsAllowed (s : State) (n : Nat) : Bool :=
  if isTrapReg n then (n == 0x100 || n == 0x106 || n == 0x107) && s.allTrap
  else s.iss.slot == 63 && (n == 0x008 || n == 0x010)

/-- SETS (R347, R284): PRIV for a writer that Table 21-8 does not name. -/
def execSets (h : Hdr) (f : VF) (s : State) : Res :=
  s.privIssue (.sets h f) h (s.setsAllowed (sregNo f)) fun e s =>
    let n := sregNo f
    if isTrapReg n then
      e.active.foldl (fun s l =>
        s.modLane e.core e.slot l fun y => (y.setTrapReg (n - 0x100) (e.src32 l f.a)).getD y) s
    else match e.active with
      | [] => s
      | l :: _ =>
        let v := e.src32 l f.a
        if n == 0x008 then
          s.modContext e.g.ctx fun x => { x with remMode := v.getLsbD 0, fcomm := (field v 8 6).toNat }
        else
          s.modCore e.core fun k => { k with period := field v 0 20, sampleAt := (s.die (dieOf e.core)).cycle }

/-! ## TRAPRET, HALT, FREEZE -/

/-- TRAPRET (R285, R348): PRIV outside trap mode; else the lane waits for the group's other trap-mode lanes. -/
def execTrapret (h : Hdr) (f : VF) (s : State) : Res :=
  s.privIssue (.trapret h f) h s.allTrap fun e s => s.arriveAt e e.active .trapret

/-- HALT (R349): NOP unless a debugger is attached; else the group stops issuing, with a halt event and record. -/
def execHalt (h : Hdr) (f : VF) (s : State) : Res :=
  s.issueInk (.halt h f) h fun e s =>
    match e.active with
    | [] => s
    | l :: _ =>
      if ((s.context e.g.ctx).getD {}).dbgctl then
        (s.modGroup e.core e.slot fun g => { g with halted := true }).groupRecord 0x03 e.core e.slot l
          { code := 0, pc := e.pc } 0
      else s

/-- FREEZE (R287, R350): the lanes stand at the FREEZE, and the group issues nothing further. -/
def execFreeze (h : Hdr) (f : VF) (s : State) : Res :=
  s.nibIssue (.freeze h f) h fun e n s =>
    let s := e.lanes.foldl (fun s l => s.modLane e.core e.slot l fun x => x.setCur e.pc) s
    s.freezeGroup e.core e.slot n { code := 0, pc := e.pc, num := f.mod.truncate 16 &&& 0x1FFF } 0

/-! ## WATCH and UNWATCH (R351) -/

/-- The control word of a WATCH's mod field, without a table entry (Table 21-10). -/
def wctlOf (mod : BitVec 19) : W32 :=
  BitVec.ofNat 32 (2 ^ 31 + (if mod.getLsbD 8 then 2 ^ 10 else 0)
    + (field mod 2 2).toNat * 2 ^ 8 + (field mod 4 4).toNat * 2 ^ 4 + (field mod 0 2).toNat)

/-- The watch table entry of a group's register is removed from every die. -/
def State.dropWatch (s : State) (c slot n : Nat) : State :=
  { s with dies := s.dies.map fun (d, k) =>
      (d, { k with watches := k.watches.filter fun w => !(w.core == c && w.slot == slot && w.index == n) }) }

/-- A watch register of a group replaced. -/
def State.setWatch (s : State) (c slot n : Nat) (w : WatchReg) : State :=
  (s.dropWatch c slot n).modGroup c slot fun g => { g with watch := listSet g.watch n w }

/-- The physical range of a package-scope watch, where it can be installed: within one aligned 64 KiB block, translated, on a
die whose table of 64 entries has room. -/
def State.watchRoom (s : State) (c ctx : Nat) (base : W64) (len : Nat) : Option Nat × State :=
  let a := (untag base).toNat
  if 65536 < a % 65536 + len then (none, s)
  else match s.coreXlate c ctx base with
    | (.error _, s) => (none, s)
    | (.ok (pa, _), s) => if 64 ≤ (s.die (homeDie pa)).watches.length then (none, s) else (some pa, s)

/-- A register of a group takes a package-scope watch, with its table entry; it is left invalid where that cannot be installed. -/
def State.tableWatch (s : State) (c slot n : Nat) (w : WatchReg) : Bool × State :=
  let ctx := (s.group c slot).ctx
  let s := s.setWatch c slot n ⟨0, 0, 0, 0⟩
  match s.watchRoom c ctx w.base w.len.toNat with
  | (none, s) => (false, s)
  | (some pa, s) =>
    let w := { w with ctl := w.ctl ||| 0x4000_0000 }
    (true, (s.setWatch c slot n w).modDie (homeDie pa) fun d => { d with watches := d.watches ++
      [{ base := pa, len := w.len.toNat, core := c, slot := slot, index := n, ctx := ctx, ctl := w.ctl }] })

/-- A valid register of package scope (Table 21-10). -/
def WatchReg.package (w : WatchReg) : Bool := w.ctl.getLsbD 31 && field w.ctl 8 2 == 3

/-- The package-scope registers of a group that is released or restored take their table entries (R351, R360). -/
def State.armWatches (s : State) (c slot : Nat) : State :=
  (upto 4).foldl (fun s n => match (s.group c slot).watch[n]? with
    | some w => if WatchReg.package w then (s.tableWatch c slot n w).2 else s
    | none => s) s

/-- WATCH (R351): of package scope, after a walk that its address may need. -/
def execWatch (h : Hdr) (f : VF) (s : State) : Res :=
  s.nibIssue (.watch h f) h fun e n s =>
    let w : WatchReg := ⟨e.src64 n false f.a, e.src32 n f.b, maskOf 32 e.active, wctlOf f.mod⟩
    let i := (field f.mod 0 2).toNat
    if f.mod.getLsbD 8 && hiHalf w.base != 0 then (s.setWatch e.core e.slot i ⟨0, 0, 0, 0⟩).nibD e f.d [0]
    else if field f.mod 2 2 != 3 then (s.setWatch e.core e.slot i w).nibD e f.d [1]
    else s.afterRecords e [(w.base, 0)] fun s =>
      let (ok, s) := s.tableWatch e.core e.slot i w
      s.nibD e f.d [if ok then 1 else 0]

/-- UNWATCH (R351): no effect on an invalid register. -/
def execUnwatch (h : Hdr) (f : VF) (s : State) : Res :=
  s.nibIssue (.unwatch h f) h fun e _ s =>
    let n := (field f.mod 0 2).toNat
    if (s.group e.core e.slot).watch[n]?.any fun w => w.ctl.getLsbD 31 then s.setWatch e.core e.slot n ⟨0, 0, 0, 0⟩ else s

/-! ## SAMPLE and LOGM (R352, R365) -/

/-- A record of an issue in its context's sample buffer. -/
def State.sampleRecord (s : State) (e : Env) (type : BitVec 8) (body : List Byte) : State :=
  s.record (s.sampleRing e.g.ctx) type (dieOf e.core) (some e.core) (some e.slot) body

/-- SAMPLE.MARK (R352, R365). -/
def execSampleMark (h : Hdr) (f : VF) (s : State) : Res :=
  s.nibIssue (.sampleMark h f) h fun e n s =>
    s.sampleRecord e 0x11 (bytesOf 4 (e.src32 n f.a).toNat ++ bytesOf 4 0 ++ bytesOf 8 e.pc.toNat)

/-- SAMPLE.ON (R352). -/
def execSampleOn (h : Hdr) (f : VF) (s : State) : Res :=
  s.nibIssue (.sampleOn h f) h fun e _ s => s.modGroup e.core e.slot fun g => { g with sampleOn := true }

/-- SAMPLE.OFF (R352). -/
def execSampleOff (h : Hdr) (f : VF) (s : State) : Res :=
  s.nibIssue (.sampleOff h f) h fun e _ s => s.modGroup e.core e.slot fun g => { g with sampleOn := false }

/-- LOGM (R352, R365): a log record for each participating lane, in ascending lane order. -/
def execLogm (h : Hdr) (f : VF) (s : State) : Res :=
  s.issueInk (.logm h f) h fun e s => e.active.foldl (fun s l =>
    s.sampleRecord e 0x12 (bytesOf 8 e.pc.toNat ++ bytesOf 4 l ++ bytesOf 4 0
      ++ (e.srcN l f.a 4).flatMap fun x => bytesOf 4 x.toNat)) s

end Sys2Proof.Machine
end

