-- ==== Sys2Proof/Machine/Launch.lean ====
section
/-! DEFINITION. Queues, command packets, launch start, chunks, materialisation, bind records, draining and grid end (R28, R32,
R41, R54, R192, R268 to R282, R287). -/

namespace Sys2Proof.Machine

/-! ## Queue descriptors (Table 17-1) -/

/-- The descriptor's words, as they stand in memory. -/
def State.qword (s : State) (q : Queue) (n : Nat) : Nat := (s.read32 (q.desc + 4 * n)).toNat

def State.qpair (s : State) (q : Queue) (n : Nat) : Nat := s.qword q n + 2 ^ 32 * s.qword q (n + 1)

def State.qctx (s : State) (q : Queue) : Nat := natBits (s.qword q 2) 15 0
def State.qpriv (s : State) (q : Queue) : Bool := natBits (s.qword q 2) 26 26 == 1

/-- A field of the descriptor is out of range, or a ring is misaligned (R269). -/
def State.descBad (s : State) (q : Queue) : Bool :=
  let w := s.qword q
  let lg := natBits (w 2) 31 27
  let lc := natBits (w 9) 31 27
  let ctime := natBits (w 6) 14 8
  lg < 4 || 16 < lg || lc < 4 || 16 < lc || ctime < 1 || 100 < ctime || natBits (w 2) 25 16 != 0 || natBits (w 6) 31 15 != 0
    || natBits (w 9) 26 0 != 0 || w 13 != 0 || w 14 != 0 || w 15 != 0
    || s.qpair q 0 % 4096 != 0 || s.qpair q 7 % 4096 != 0

/-- Bytes of a ring, in the context half of the queue's context with the rights of the control core of a die, which must reach them
(R268, R298). -/
def State.ringRange (s : State) (q : Queue) (d : Nat) (need : Need) (va n : Nat) : Except (Code × W64) (List (Nat × Nat)) :=
  let a := BitVec.ofNat 64 va
  if a.getLsbD 63 then .error (cXLATE, a)
  else match s.range d (s.qctx q) need true a n with
    | .error x => .error x
    | .ok ps => if ps.all fun p => s.linked d (homeDie p.1) then .ok ps else .error (cREMOTE, a)

/-- Bytes of pieces. -/
def State.pieceBytes (s : State) (ps : List (Nat × Nat)) : List Byte := ps.flatMap fun (pa, k) => s.bytes pa k

/-- Bytes written over pieces, at their homes, by a die, whose remote-data cache loses their lines (R20). -/
def State.writePieces (s : State) (d : Nat) : List (Nat × Nat) → List Byte → State
  | [], _ => s
  | (pa, k) :: ps, bs => ((s.homeStore pa (bs.take k) .normal).dropFar d [(pa, k)]).writePieces d ps (bs.drop k)

/-- Bytes that the control core of a die writes for the firmware, at their home (R20). -/
def State.putBy (s : State) (d pa : Nat) (bs : List Byte) : State := (s.putMem pa bs).dropFar d [(pa, bs.length)]

/-- A word of a descriptor written by the control core of a die. -/
def State.setQword (s : State) (d : Nat) (q : Queue) (n : Nat) (x : Nat) : State := s.putBy d (q.desc + 4 * n) (bytesOf 4 x)

/-! ## Completion records (R281, R282) -/

/-- The address of the completion record that a queue takes next. -/
def State.postAddr (s : State) (q : Queue) : Nat := s.qpair q 7 + 16 * (s.qword q 10 % 2 ^ natBits (s.qword q 9) 31 27)

/-- The control core of a die reaches a queue's descriptor. -/
def State.descLinked (s : State) (d : Nat) (q : Queue) : Bool := s.linked d (homeDie q.desc)

/-- Post a completion: a record in the completion ring, cwr advanced, and a report on its way to die 0. A record that the ring
cannot take is not posted (R269), nor one whose die does not reach the ring or its descriptor (log 80). -/
def State.post (s : State) (qn : Nat) (ctag : Nat) (code : Code) (die index : Nat) : State :=
  match s.queues.find qn with
  | none => s
  | some q =>
    let lc := natBits (s.qword q 9) 31 27
    if lc < 4 || 16 < lc || s.qpair q 7 % 4096 != 0 || !s.descLinked die q then s
    else match s.ringRange q die { w := true } (s.postAddr q) 16 with
      | .error _ => s
      | .ok ps =>
        let bs := bytesOf 4 ctag ++ bytesOf 4 (code.toNat + 256 * (die % 8)) ++ bytesOf 4 index ++ bytesOf 4 0
        let n := (s.qword q 10 + 1) % 2 ^ 32
        let s := ((s.rangeWalked die (s.qctx q) (BitVec.ofNat 64 (s.postAddr q)) 16).writePieces die ps bs).setQword die q 10 n
        (s.event die).2.modQueue qn fun q => { q with reports := q.reports + 1 }

/-- Posting a completion waits: the descriptor, a table on the way to the record, or the record's place needs a stack that holds it
(R325). -/
def State.postWaits (s : State) (qn die : Nat) : Bool :=
  match s.queues.find qn with
  | none => false
  | some q => s.descLinked die q && (s.stackWaits q.desc 64 || s.writeWaits (q.desc + 40) 4
    || s.rangeWaits die (s.qctx q) (BitVec.ofNat 64 (s.postAddr q)) 16
    || match s.ringRange q die { w := true } (s.postAddr q) 16 with
      | .ok ps => ps.any fun (pa, k) => s.writeWaits pa k
      | .error _ => false)

/-- COMPLETION_REPORT (R282): a report reaches die 0, which counts it as held; the count may trigger an interrupt. -/
def execCompletionReport (q : Nat) (s : State) : Res :=
  .next (match s.queues.find q with
    | none => s
    | some x =>
      if x.reports = 0 then s
      else
        let s := s.modQueue q fun x => { x with reports := x.reports - 1 }
        s.modDie 0 fun d =>
          let h := d.held.get {} q
          let n := h.count + 1
          { d with held := d.held.put q { count := n, since := if h.count = 0 then d.cycle else h.since,
                                          due := h.due || natBits (s.qword x 6) 7 0 + 1 ≤ n } })

/-- COALESCING_TIMER_EXPIRY (R282): ctime has passed since the first held completion. -/
def execCoalescingTimerExpiry (q : Nat) (s : State) : Res :=
  .next (match s.queues.find q with
    | none => s
    | some x =>
      let d := s.die 0
      let h := d.held.get {} q
      if h.count = 0 || h.due || d.cycle < h.since + Config.cyclesPerUs * natBits (s.qword x 6) 14 8 then s
      else s.modDie 0 fun d => { d with held := d.held.put q { h with due := true } })

/-- INTERRUPT (R282): an RDMA write of cwr and of the completions that it covers. -/
def execInterrupt (q : Nat) (s : State) : Res :=
  .next (match s.queues.find q with
    | none => s
    | some x =>
      let h := (s.die 0).held.get {} q
      if !h.due then s
      else
        let m : HostMsg := .rdmaWrite (BitVec.ofNat 64 (s.qpair x 11)) (bytesOf 4 (s.qword x 10) ++ bytesOf 4 h.count)
        let s := (s.event 0).2.modDie 0 fun d => { d with held := d.held.erase q }
        { s with hostOut := s.hostOut ++ [m] })

/-! ## Reading a queue (R268, R269) -/

/-- A queue halts (R269): no further packet is read; die 0 posts a completion record and an event. -/
def State.haltQueue (s : State) (qn : Nat) (q : Queue) (code : Code) : State :=
  let s := s.modQueue qn fun q => { q with halted := true }
  (s.post qn 0 code 0 (s.qword q 4)).deviceEvent 0 5 (code.toNat * 2 ^ 16 + s.qctx q)

/-- Read the packets from rdidx to wridx, in ring order, until one cannot be read, or waits for its stack (R325). -/
def State.readPackets (qn : Nat) (q : Queue) : Nat → State → State
  | 0, s => s
  | n + 1, s =>
    let rd := s.qword q 4
    let lg := natBits (s.qword q 2) 31 27
    let va := s.qpair q 0 + 128 * (rd % 2 ^ lg)
    if s.rangeWaits 0 (s.qctx q) (BitVec.ofNat 64 va) 128 || s.postWaits qn 0 || s.writeWaits (q.desc + 16) 4 then s
    else
      let r := s.ringRange q 0 { r := true } va 128
      let s := s.rangeWalked 0 (s.qctx q) (BitVec.ofNat 64 va) 128
      match r with
      | .error (c, _) => s.haltQueue qn q c
      | .ok ps =>
        if ps.any fun (pa, k) => s.stackWaits pa k then s
        else if ps.any fun (pa, k) => s.held pa && !s.homeHit pa k then s.haltQueue qn q cTHERM
        else
          let s := if ps.any fun (pa, k) => s.bad pa k then ps.foldl (fun s (pa, k) => s.readArray pa k) s
            else ps.foldl (fun s (pa, k) => s.homeLoad pa k .normal) s
          if ps.any fun (pa, k) => s.bad pa k then s.haltQueue qn q cECC
          else
            let ws := (upto 32).map fun i => BitVec.ofNat 32 (ofBytes (((s.pieceBytes ps).drop (4 * i)).take 4))
            let s := s.modQueue qn fun q => { q with packets := q.packets ++ [{ index := rd, words := ws }] }
            State.readPackets qn q n (s.setQword 0 q 4 ((rd + 1) % 2 ^ 32))

/-- The control cores read a queue up to wridx: that of die 0 stands for all (R269, log 80). -/
def State.readQueue (s : State) (qn : Nat) : State :=
  match s.queues.find qn with
  | none => s
  | some q =>
    let n := (s.qword q 3 + 2 ^ 32 - s.qword q 4) % 2 ^ 32
    if q.halted || !s.descLinked 0 q || s.stackWaits q.desc 64 then s
    else if s.descBad q || 2 ^ natBits (s.qword q 2) 31 27 < n then s.haltQueue qn q cILLEGAL
    else State.readPackets qn q n s

/-- An exit to L0 starts (R292). -/
def State.wake (s : State) : State := if s.power = .l0 then s else { s with waking := true }

/-! ## Command packets (Table 17-2) -/

/-- Word n of a packet, and the pair of words from n. -/
def pw (ws : List W32) (n : Nat) : Nat := (ws[n]?.getD 0).toNat
def pw64 (ws : List W32) (n : Nat) : Nat := pw ws n + 2 ^ 32 * pw ws (n + 1)

def pkType (ws : List W32) : Nat := natBits (pw ws 0) 31 24
def pkMask (ws : List W32) : Nat := natBits (pw ws 0) 23 16
def pkPhase (ws : List W32) : Nat := natBits (pw ws 1) 31 16
def pkNc (ws : List W32) : Nat := natBits (pw ws 2) 10 6
def pkNp (ws : List W32) : Nat := natBits (pw ws 2) 5 2
def pkLines (ws : List W32) : Nat := natBits (pw ws 3) 31 19
/-- Allotment units of a group of a role. -/
def pkUnits (ws : List W32) (consumer : Bool) : Nat := if consumer then natBits (pw ws 3) 18 13 else natBits (pw ws 3) 12 7
/-- Teams of the grid. -/
def pkTeams (ws : List W32) : Nat := pw ws 4 * pw ws 5 * pw ws 6
/-- Teams per chunk (R277). -/
def pkChunk (ws : List W32) : Nat := if natBits (pw ws 1) 15 0 = 0 then 64 else natBits (pw ws 1) 15 0

/-- The dies named in a die mask that the form has, ascending. -/
def State.pkDies (s : State) (ws : List W32) : List Nat := (upto s.dieCount).filter fun d => pkMask ws / 2 ^ d % 2 == 1

/-- The die whose control core posts a packet's completion (R281). -/
def State.postDie (s : State) (ws : List W32) : Nat := (s.pkDies ws).headD 0

/-- The ILLEGAL conditions of R272 on a launch packet, priv telling the queue's kind. -/
def State.launchIllegal (s : State) (ws : List W32) (priv : Bool) : Bool :=
  let np := pkNp ws
  let nc := pkNc ws
  let ap := pkUnits ws false
  let ac := pkUnits ws true
  let nacc := natBits (pw ws 2) 15 11
  let pairs := (upto 8).filter fun m => natBits (pw ws 2) (16 + m) (16 + m) == 1
  natBits (pw ws 0) 14 8 != 0 || natBits (pw ws 2) 1 0 != 0 || natBits (pw ws 3) 6 0 != 0 || pw ws 30 != 0 || pw ws 31 != 0
    || (priv && pkPhase ws != 0) || pkMask ws == 0 || 2 ^ s.dieCount ≤ pkMask ws
    || pkTeams ws == 0 || 2 ^ 32 - 1 < pkTeams ws || nc < 1 || 16 < np + nc || 16 < nacc || 4096 < pkLines ws
    || ac < 1 || 40 < ac || (if np = 0 then ap != 0 else ap < 1 || 40 < ap)
    || 64 < natBits (pw ws 7) 22 16 || 256 < natBits (pw ws 7) 31 23
    || pairs.any (fun m => 2 * m < np || np + nc ≤ 2 * m + 1)
    || (!pairs.isEmpty && nacc < 2 * (maxOf pairs + 1))
    || 63 < np + nc || Config.allotUnits < np * ap + nc * ac

/-- The ALIGN conditions of R272. -/
def launchAlign (ws : List W32) : Bool :=
  (pkNp ws != 0 && pw64 ws 8 % 4 != 0) || pw64 ws 10 % 4 != 0 || pw64 ws 22 % 4096 != 0 || pw64 ws 28 % 16 != 0

/-- What a launch reads at its start (R273, R275): parameters, shape records, tensor records with the pieces that they are
installed in, and buffer list entries. -/
structure LaunchData where
  params : List W32
  shapes : SMap (BitVec 512)
  tensors : List (List (Nat × Nat) × List Byte)
  buffers : List (Nat × Nat × Nat)

/-- Where the control cores of some dies read or write a range for a launch, with the context's rights: each must translate it and reach
it (R273, R298). -/
def State.launchRange (s : State) (ds : List Nat) (ctx : Nat) (need : Need) (agent : Bool) (va n : Nat) :
    Except Code (List (Nat × Nat)) :=
  ds.foldl (fun r d => match r with
    | .error c => .error c
    | .ok _ => match s.range d ctx need agent (BitVec.ofNat 64 va) n with
      | .error (c, _) => .error c
      | .ok ps => if ps.all fun p => s.linked d (homeDie p.1) then .ok ps else .error cREMOTE) (.ok [])

/-- Bytes that the control cores of some dies read for a launch. A stack that has held them too long fails the read (R326), as poison does
(R167). -/
def State.launchRead (s : State) (ds : List Nat) (ctx va n : Nat) : Except Code (List Byte) :=
  match s.launchRange ds ctx { r := true } false va n with
  | .error c => .error c
  | .ok ps => if ps.any fun (pa, k) => s.held pa && !s.homeHit pa k && s.overdue (stackOf pa) then .error cTHERM
    else if ps.any fun (pa, k) => s.bad pa k then .error cECC
    else .ok (s.pieceBytes ps)

/-- The ranges that a launch reads at its start (Table 17-2): address and size. -/
def launchRanges (ws : List W32) : List (Nat × Nat) :=
  let nt := natBits (pw ws 7) 31 23
  [(pw64 ws 14, 4 * natBits (pw ws 7) 22 16), (pw64 ws 16, 1024), (pw64 ws 18, 65 * nt), (pw64 ws 28, 16 * natBits (pw ws 0) 7 0)]

/-- Something that a launch reads at its start waits for its stack, or for a table on the way there (R163, R325). -/
def State.launchWaits (s : State) (ctx : Nat) (ws : List W32) : Bool :=
  let ds := s.pkDies ws
  (launchRanges ws).any fun (va, n) => ds.any (fun d => s.rangeWaits d ctx (BitVec.ofNat 64 va) n)
    || match s.launchRange ds ctx { r := true } false va n with
      | .error _ => false
      | .ok ps => ps.any fun (pa, k) => s.stackWaits pa k

/-- What a launch reads at its start is read: its tables and its lines (R163, R172). -/
def State.launchReading (s : State) (ctx : Nat) (ws : List W32) : State :=
  let ds := s.pkDies ws
  (launchRanges ws).foldl (fun s (va, n) =>
    let r := s.launchRange ds ctx { r := true } false va n
    let s := ds.foldl (fun s d => s.rangeWalked d ctx (BitVec.ofNat 64 va) n) s
    match r with
    | .error _ => s
    | .ok ps => ps.foldl (fun s (pa, k) => if s.bad pa k then s.readArray pa k else s.homeLoad pa k .normal) s) s

/-- A list of readings, or the first failure. -/
def allOk {α β : Type} (f : α → Except Code β) : List α → Except Code (List β)
  | [] => .ok []
  | x :: xs => match f x with
    | .error c => .error c
    | .ok y => match allOk f xs with
      | .error c => .error c
      | .ok ys => .ok (y :: ys)

/-- A tensor record of a launch with the pieces of its entry (Table 17-2, R244). -/
def State.launchTensor (s : State) (ctx : Nat) (ws : List W32) (i : Nat) : Except Code (List (Nat × Nat) × List Byte) :=
  let ds := s.pkDies ws
  match s.launchRead ds ctx (pw64 ws 18 + 64 * i) 64, s.launchRead ds ctx (pw64 ws 18 + 64 * natBits (pw ws 7) 31 23 + i) 1 with
  | .ok bs, .ok n => match s.launchRange (ds.take 1) ctx { w := true } false (s.tidAddr ctx (ofBytes n)).toNat 64 with
    | .ok ps => .ok (ps, bs)
    | .error c => .error c
  | .error c, _ => .error c
  | _, .error c => .error c

/-- Everything that a launch reads at its start, or the code that refuses it. DESIGN CHOICE: R272 refuses a launch for a record that is
read or installed; the model refuses it also where the range of a buffer-list entry of mode 1 to 3 does not translate, with that code
(log 81). -/
def State.launchData (s : State) (ctx : Nat) (ws : List W32) : Except Code LaunchData :=
  let npar := natBits (pw ws 7) 22 16
  let ds := s.pkDies ws
  match s.launchRead ds ctx (pw64 ws 14) (4 * npar),
    allOk (fun n => s.launchRead ds ctx (pw64 ws 16 + 64 * n) 64) ((upto 16).filter fun n => natBits (pw ws 7) n n == 1),
    allOk (s.launchTensor ctx ws) (upto (natBits (pw ws 7) 31 23)),
    s.launchRead ds ctx (pw64 ws 28) (16 * natBits (pw ws 0) 7 0) with
  | .ok par, .ok shp, .ok tens, .ok bl =>
    let entry := fun (i : Nat) => ofBytes ((bl.drop (16 * i)).take 16)
    let es := (upto (natBits (pw ws 0) 7 0)).map entry
    let need := es.filter fun e => natBits e 97 96 != 0
    if es.any fun e => natBits e 127 98 != 0 then .error cILLEGAL
    else match allOk (fun (e : Nat) => match s.range (s.postDie ws) ctx {} true (BitVec.ofNat 64 e) (natBits e 95 64) with
        | .error (c, _) => .error c
        | .ok _ => .ok ()) need with
      | .error c => .error c
      | .ok _ =>
        .ok { params := (upto npar).map fun i => BitVec.ofNat 32 (ofBytes ((par.drop (4 * i)).take 4)),
              shapes := (((upto 16).filter fun n => natBits (pw ws 7) n n == 1).zip shp).map fun (n, bs) => (n, recOf bs),
              tensors := tens,
              buffers := es.map fun e => (natBits e 63 0, natBits e 95 64, natBits e 97 96) }
  | .error c, _, _, _ => .error c
  | _, .error c, _, _ => .error c
  | _, _, .error c, _ => .error c
  | _, _, _, .error c => .error c

/-- The check of R272 on a launch packet: the code that refuses it. -/
def State.launchCheck (s : State) (ctx : Nat) (ws : List W32) (priv : Bool) : Option Code :=
  if pkType ws != 1 || (s.context ctx).isNone || s.launchIllegal ws priv then some cILLEGAL
  else if natBits (pw ws 0) 7 0 != 0 && !priv then some cPRIV
  else if launchAlign ws then some cALIGN
  else match s.launchData ctx ws with
    | .error c => some c
    | .ok _ => none

/-! ## The order of packets (R270, R274) -/

/-- A packet waits for every earlier one: barrier = 1, or a launch of an unprivileged queue whose phase is not that of the launch
before it. -/
def State.pkBarrier (s : State) (q : Queue) (p : Packet) : Bool :=
  natBits (pw p.words 0) 15 15 == 1
    || (pkType p.words == 1 && !s.qpriv q && q.phase != some (pkPhase p.words))

/-- The packet of a queue that may start now: the first not started, when its barrier allows, its context has not been pre-empted
and the package is awake. -/
def State.packetTurn (s : State) (qn : Nat) : Option (Queue × Packet) :=
  match s.queues.find qn with
  | none => none
  | some q => match q.packets.find? fun p => !p.started with
    | none => none
    | some p =>
      if s.power != .l0 || s.waking || !s.runs (s.qctx q) || s.postWaits qn (s.postDie p.words) || (s.pkBarrier q p && q.packets.any fun p => p.started) then none
      else some (q, p)

/-- A packet completes: it leaves its queue and its completion is posted. -/
def State.finishPacket (s : State) (qn index : Nat) (ctag : Nat) (code : Code) (die : Nat) : State :=
  (s.modQueue qn fun q => { q with packets := q.packets.filter fun p => p.index != index }).post qn ctag code die index

/-- A packet completes with a code as it starts, posted by the die of R281. -/
def State.endPacket (s : State) (qn : Nat) (p : Packet) (code : Code) : State :=
  s.finishPacket qn p.index (pw p.words 25) code (s.postDie p.words)

/-- One packet of a queue changed. -/
def State.modPacket (s : State) (qn index : Nat) (f : Packet → Packet) : State :=
  s.modQueue qn fun q => { q with packets := q.packets.map fun p => if p.index == index then f p else p }

/-- A word that R271 asks to be zero is not, in a packet of type 0x00 or 0x02 to 0x04. -/
def plainBad (ws : List W32) : Bool :=
  natBits (pw ws 0) 23 16 != 0 || natBits (pw ws 0) 14 0 != 0
    || (upto 32).any fun i => i != 0 && i != 25 && (if i = 2 && 3 ≤ pkType ws then natBits (pw ws 2) 31 16 != 0 else pw ws i != 0)

/-- A packet that only completes (R271). -/
def State.plainPacket (s : State) (q type : Nat) : State :=
  match s.packetTurn q with
  | none => s
  | some (_, p) =>
    if pkType p.words != type then s else s.endPacket q p (if plainBad p.words then cILLEGAL else 0)

/-- NOOP_PACKET (R271). -/
def execNoopPacket (q : Nat) (s : State) : Res := .next (s.plainPacket q 0)

/-- MARKER_PACKET (R271). -/
def execMarkerPacket (q : Nat) (s : State) : Res := .next (s.plainPacket q 2)

/-- LAUNCH_PACKET (R271, R272): the packet is refused with its code, as is one of an unknown type, or accepted. -/
def execLaunchPacket (q : Nat) (s : State) : Res :=
  .next (match s.packetTurn q with
    | none => s
    | some (x, p) =>
      if p.checked || [0, 2, 3, 4].contains (pkType p.words) || s.launchWaits (s.qctx x) p.words then s
      else match s.launchCheck (s.qctx x) p.words (s.qpriv x) with
        | some c => (if [cILLEGAL, cPRIV, cALIGN].contains c then s else s.launchReading (s.qctx x) p.words).endPacket q p c
        | none => (s.launchReading (s.qctx x) p.words).modPacket q p.index fun p => { p with checked := true })

/-! ## Launch start (R273 to R275) -/

/-- Every L1 and remote-data cache of a die loses the lines that a test picks. -/
def State.emptyCaches (s : State) (d : Nat) (out : Nat → Bool) : State :=
  let keep := fun (cs : List CLine) => cs.filter fun x => !out x.line
  let cores := s.cores.map fun (c, k) => if dieOf c = d then (c, { k with l1 := keep k.l1 }) else (c, k)
  ({ s with cores := cores } : State).modDie d fun k => { k with rdc := keep k.rdc }

/-- A line lies in a buffer of a launch of a context. -/
def State.inBuffer (s : State) (ctx : Nat) (b : Nat × Nat × Nat) : Nat → Bool :=
  match piecesOf (fun a => (s.walk ctx a).map fun (pa, e, _) => (pa, e)) {} true (b.2.1 / 65536 + 2) (BitVec.ofNat 64 b.1) b.2.1 with
  | .error _ => fun _ => false
  | .ok ps => fun line => ps.any fun (pa, k) => 128 * line < pa + k && pa < 128 * line + 128

/-- LAUNCH_START (R273 to R275): the caches are emptied for a new phase or for buffers of modes 1 and 3, the tensor records are
installed, and the launch takes its number. A read that now fails refuses it. -/
def execLaunchStart (q : Nat) (s : State) : Res :=
  .next (match s.packetTurn q with
    | none => s
    | some (x, p) =>
      let ctx := s.qctx x
      if !p.checked || s.launchWaits ctx p.words then s
      else match s.launchData ctx p.words, s.context ctx with
        | .error c, _ => (s.launchReading ctx p.words).endPacket q p c
        | .ok _, none => s.endPacket q p cILLEGAL
        | .ok d, some k =>
          let dies := s.pkDies p.words
          let s := s.launchReading ctx p.words
          let fresh := !s.qpriv x && x.phase != some (pkPhase p.words)
          let s := if fresh then dies.foldl (fun s d => s.emptyCaches d fun _ => true) s else s
          let s := d.buffers.foldl (fun s b =>
            if b.2.2 % 2 = 1 then dies.foldl (fun s d => s.emptyCaches d (s.inBuffer ctx b)) s else s) s
          let s := d.tensors.foldl (fun s (ps, bs) => s.writePieces (s.postDie p.words) ps bs) s
          let l : Launch := { ctx := ctx, num := k.launches % 2 ^ 32, queue := q, index := p.index, words := p.words,
                              params := d.params, shapes := d.shapes, buffers := d.buffers }
          let s := s.modContext ctx fun k => { k with launches := k.launches + 1 }
          let s := s.modPacket q p.index fun p => { p with started := true }
          let s := s.modQueue q fun x => { x with phase := some (pkPhase p.words) }
          { s with launches := s.launches ++ [l] })

/-! ## Chunks (R276, R277, R32) -/

/-- The slab of the i-th of n dies (R276): first team, and one past the last. -/
def slabOf (teams n i : Nat) : Nat × Nat := (teams * i / n, teams * (i + 1) / n)

/-- The slab of a die of a launch. -/
def State.slab (s : State) (l : Launch) (d : Nat) : Nat × Nat :=
  let ds := s.pkDies l.words
  slabOf (pkTeams l.words) ds.length ((places (· == d) ds).headD 0)

/-- A die's ticket word lies beyond its slab. -/
def State.exhausted (s : State) (l : Launch) (d : Nat) : Bool :=
  let (lo, hi) := s.slab l d
  hi ≤ lo + l.tickets.get 0 d * pkChunk l.words

/-- The parts into which cuts divide an axis of n: first and one past the last of each. -/
def axisParts (n : Nat) (cuts : List Nat) : List (Nat × Nat) :=
  let ks := sortDedup (0 :: n :: cuts.filter (· < n))
  ks.zip (ks.drop 1)

/-- A cell of a grid that has been cut along its axes. -/
abbrev GridCell := (Nat × Nat) × (Nat × Nat) × (Nat × Nat)

/-- The cells of a range of teams, in ascending order of first team: with the axes cut where the range begins and ends, a cell lies in it
whole or not at all. -/
def rangeCells (tx ty first last : Nat) : List GridCell :=
  let x0 := first % tx
  let x1 := last % tx
  let y0 := first / tx % ty
  let y1 := last / tx % ty
  let z0 := first / (tx * ty)
  let z1 := last / (tx * ty)
  (axisParts (z1 + 1) [z0, z0 + 1, z1]).flatMap fun z => (axisParts ty [y0, y0 + 1, y1, y1 + 1]).flatMap fun y =>
    (axisParts tx [x0, x1 + 1]).filterMap fun x =>
      let n := x.1 + tx * (y.1 + ty * z.1)
      if first ≤ n && n ≤ last then some (x, y, z) else none

/-- A cell lies within the bounds of a box, ends excluded. -/
def GridCell.within (c : GridCell) (x y z : Nat × Nat) : Bool :=
  x.1 ≤ c.1.1 && c.1.2 ≤ x.2 && y.1 ≤ c.2.1.1 && c.2.1.2 ≤ y.2 && z.1 ≤ c.2.2.1 && c.2.2.2 ≤ z.2

/-- Teams of a cell. -/
def GridCell.count (c : GridCell) : Nat := (c.1.2 - c.1.1) * ((c.2.1.2 - c.2.1.1) * (c.2.2.2 - c.2.2.1))

/-- The ends that boxes may have along an axis, highest first. -/
def endsFrom (cs : List GridCell) (part : GridCell → Nat × Nat) (from_ : Nat) : List Nat :=
  ((sortDedup (cs.map fun c => (part c).2)).filter (from_ < ·)).reverse

/-- The boxes that begin at a cell and that cells of a list fill, the longest in z, y and x first. -/
def boxesAt (c : GridCell) (cs : List GridCell) : List ((Nat × Nat) × (Nat × Nat) × (Nat × Nat)) :=
  (endsFrom cs (fun c => c.2.2) c.2.2.1).flatMap fun z => (endsFrom cs (fun c => c.2.1) c.2.1.1).flatMap fun y =>
    (endsFrom cs (fun c => c.1) c.1.1).filterMap fun x =>
      let inside := cs.filter fun k => GridCell.within k (c.1.1, x) (c.2.1.1, y) (c.2.2.1, z)
      if ((inside.map GridCell.count).foldl (· + ·) 0) = (x - c.1.1) * ((y - c.2.1.1) * (z - c.2.2.1)) then
        some ((c.1.1, x), (c.2.1.1, y), (c.2.2.1, z)) else none

/-- A cover of cells by at most n boxes: the box that holds the first cell begins there, since the cells stand in ascending order. -/
def coverBy : Nat → List GridCell → Option (List Box)
  | _, [] => some []
  | 0, _ :: _ => none
  | n + 1, c :: cs => (boxesAt c (c :: cs)).findSome? fun (x, y, z) =>
    (coverBy n (cs.filter fun k => !GridCell.within k x y z)).map fun bs =>
      { x0 := x.1, x1 := x.2 - 1, y0 := y.1, y1 := y.2 - 1, z0 := z.1, z1 := z.2 - 1 } :: bs

/-- The fewest boxes that cover the linear team indices first to last (R32), in ascending order of first team: some shortest cover has all
its ends where the range's cells have theirs, so that the first length with a cover is the least. Of covers as short, the model takes the
one whose first boxes reach farthest (log 67). -/
def boxesOf (tx ty first last : Nat) : List Box :=
  let cs := rangeCells tx ty first last
  ((upto (cs.length + 1)).findSome? fun n => coverBy n cs).getD []

/-- A stroke as it is formed (R273, R31): the parameters in s0 upwards, everything else zero. -/
def Launch.stroke (l : Launch) (chunk : Nat) (consumer : Bool) (box : Box) : Stroke :=
  { ctx := l.ctx, launch := l.num, chunk := chunk, consumer := consumer, box := box,
    pc := BitVec.ofNat 64 (pw64 l.words (if consumer then 10 else 8)),
    s := (mapFrom (fun i (x : W32) => (i, Form.uni x)) 0 l.params).foldl (fun m x => SMap.set {} m x.1 x.2) [] }

/-- The roles of a launch that are present. -/
def rolesOf (ws : List W32) : List Bool := if pkNp ws = 0 then [true] else [false, true]

/-- A die's Nopol root runs: its boot ROM has not refused the image (R369). -/
def State.rootRuns (s : State) (d : Nat) : Bool := !(s.die d).rootRefused

/-- The Nopol root of some die runs. -/
def State.rootAlive (s : State) : Bool := (upto s.dieCount).any s.rootRuns

/-- The die whose Nopol root acts for the package: the lowest that has admitted its image. -/
def State.rootDie (s : State) : Nat := ((upto s.dieCount).find? s.rootRuns).getD 0

/-- A core's agent runs: its image has not been refused (R369), and it is not frozen (R371). -/
def State.agentRuns (s : State) (c : Nat) : Bool :=
  s.rootRuns (dieOf c) && !(s.die (dieOf c)).agentRefused && !(s.core c).agentFrozen

/-- CHUNK_CLAIM (R277, R32): the agent of a core takes the next ticket of its die and forms the chunk's strokes. -/
def execChunkClaim (core ctx launch : Nat) (s : State) : Res :=
  .next (match s.launch ctx launch with
    | none => s
    | some l =>
      let d := dieOf core
      if l.term.isSome || !s.runs ctx || !s.agentRuns core || s.power != .l0 || !(s.pkDies l.words).contains d
        || 16 ≤ (s.core core).strokes.length || s.coreCount ≤ core then s
      else
        let (lo, hi) := s.slab l d
        let t := l.tickets.get 0 d
        let first := lo + t * pkChunk l.words
        let s := s.modLaunch ctx launch fun l => { l with tickets := SMap.set 0 l.tickets d ((t + 1) % 2 ^ 32) }
        if hi ≤ first then s
        else
          let last := Nat.min (first + pkChunk l.words) hi - 1
          let s := s.modCore core fun k => { k with chunks := k.chunks ++ [(ctx, launch, first, last)] }
          (boxesOf (pw l.words 4) (pw l.words 5) first last).foldl (fun s b =>
            (rolesOf l.words).foldl (fun s r => s.formStroke core (l.stroke first r b)) s) s)

/-! ## Reservation and materialisation (R28, R41) -/

/-- Slots in use or reserved: those of resident groups, and those reserved for groups still to be released. -/
def Core.slotTaken (k : Core) (slot : Nat) : Bool :=
  (k.groups.find slot).isSome || k.teams.any fun (_, t) => t.resv.any fun (g, n, _, _) =>
    n == slot && !t.gone.getLsbD g && !t.released.getLsbD g

/-- The allotment units in use or reserved, as first unit and number. -/
def Core.unitRuns (k : Core) : List (Nat × Nat) :=
  (k.groups.filterMap fun (n, g) => if n = 63 then none else some (g.unit, g.nunit))
    ++ k.teams.flatMap fun (_, t) => t.resv.filterMap fun (g, _, u, n) =>
      if t.gone.getLsbD g || t.released.getLsbD g then none else some (u, n)

/-- The runs of local lines in use. -/
def Core.lineRuns (k : Core) : List (Nat × Nat) := k.teams.map fun (_, t) => (t.lbase, t.lines)

/-- A run does not meet any of a list. -/
def clear (runs : List (Nat × Nat)) (at_ n : Nat) : Bool := runs.all fun (a, k) => k == 0 || n == 0 || a + k ≤ at_ || at_ + n ≤ a

/-- The lowest place for a run of n below a limit: 0, or the end of a run in use. -/
def firstFit (runs : List (Nat × Nat)) (limit n : Nat) : Option Nat :=
  (sortDedup (0 :: runs.map fun (a, k) => a + k)).find? fun x => x + n ≤ limit && clear runs x n

/-- Contiguous units for groups, one group after another. -/
def fitUnits (runs : List (Nat × Nat)) : List Nat → Option (List Nat)
  | [] => some []
  | n :: ns => match firstFit runs Config.allotUnits n with
    | none => none
    | some u => (fitUnits ((u, n) :: runs) ns).map (u :: ·)

/-- Groups of a team: their units in order of group. -/
def groupUnits (ws : List W32) : List Nat :=
  List.replicate (pkNp ws) (pkUnits ws false) ++ List.replicate (pkNc ws) (pkUnits ws true)

/-- The groups of a team that strokes which have exited retired (R55, R206). -/
def Core.retired (k : Core) (l : Launch) (lin : Nat) : BitVec 16 :=
  k.exitedRoles.foldl (fun m (ctx, num, consumer, box) =>
    if ctx == l.ctx && num == l.num && box.has (pw l.words 4) (pw l.words 5) lin then
      m ||| roleMask (pkNp l.words) (pkNc l.words) consumer
    else m) 0

/-- A team of a launch as its reservation makes it. -/
def Launch.team (l : Launch) (lin : Nat) (resv : List (Nat × Nat × Nat × Nat)) (lbase : Nat) (gone : BitVec 16) : Team :=
  { ctx := l.ctx, launch := l.num, lin := lin, np := pkNp l.words, nc := pkNc l.words,
    tmask := BitVec.ofNat 8 (natBits (pw l.words 2) 23 16), resv := resv, nacc := natBits (pw l.words 2) 15 11,
    leaseLen := if natBits (pw l.words 2) 31 24 = 0 then 64 else natBits (pw l.words 2) 31 24,
    lbase := lbase, lines := pkLines l.words, gone := gone, shapes := l.shapes }

/-- The place of a resident team. -/
def Core.placeOf (k : Core) (ctx launch lin : Nat) : Option Nat :=
  (k.teams.find? fun (_, t) => t.ctx == ctx && t.launch == launch && t.lin == lin).map Prod.fst

/-- The lowest of a core's 8 team places that is free. -/
def Core.freePlace (k : Core) : Option Nat := (upto 8).find? fun p => (k.teams.find p).isNone

/-- The reservation of R28 for a whole team: the place it takes and the team, or none. Which free place, slots, units and lines it takes
is the model's choice (log 67): the lowest place and slots, and for units and lines the first run that fits. -/
def Core.reserve (k : Core) (l : Launch) (lin : Nat) : Option (Nat × Team) :=
  let n := pkNp l.words + pkNc l.words
  let slots := ((upto 63).filter fun x => !k.slotTaken x).take n
  match k.freePlace, fitUnits k.unitRuns (groupUnits l.words), firstFit k.lineRuns Config.localLines (pkLines l.words) with
  | some p, some us, some b =>
    if slots.length < n then none
    else
      let resv := mapFrom (fun g (x : Nat × Nat × Nat) => (g, x)) 0 (slots.zip (us.zip (groupUnits l.words)))
      some (p, l.team lin resv b (k.retired l lin))
  | _, _, _ => none

/-- A lane as it is materialised (R41): `lane` is its index in the team. -/
def Ink.lane (i : Ink) (tx ty lin lane : Nat) : Lane :=
  let x := lin % tx
  let y := lin / tx % ty
  let z := lin / (tx * ty)
  { pc := i.pc,
    v := i.v.foldl (fun m (r, f) => SMap.set 0 m r (f.eval x y z lane)) [],
    p := maskOf 7 ((upto 7).filter fun n => (i.p.get (.uni false) n).eval x y z lane) }

/-- A group as it is released (R41, R153, R352, R360). -/
def Ink.group (i : Ink) (s : State) (l : Launch) (place lin grp unit nunit : Nat) : Group :=
  let tx := pw l.words 4
  let ty := pw l.words 5
  let watch := match s.context i.ctx with
    | some c => c.watch
    | none => []
  { ctx := i.ctx, launch := i.launch, place := some place, grp := grp, consumer := i.consumer, unit := unit, nunit := nunit,
    lanes := (upto 32).map fun n => i.lane tx ty lin (32 * grp + n),
    s := i.s.foldl (fun m (r, f) => SMap.set 0 m r (f.eval (lin % tx) (lin / tx % ty) (lin / (tx * ty)) 0)) [],
    gen := { k := BitVec.ofNat 64 (pw64 l.words 12), sid := BitVec.ofNat 64 (16 * lin + grp) },
    watch := (watch ++ List.replicate 4 ⟨0, 0, 0, 0⟩).take 4 }

/-- The bind record of a group (Table 17-3). -/
def bindGroup (g : Group) (t : Team) (pc : W64) : List W32 :=
  [BitVec.ofNat 32 (2 ^ 31 + (if g.consumer then 2 ^ 29 else 0) + g.grp % 16 * 2 ^ 25 + g.ctx % 2 ^ 16), BitVec.ofNat 32 t.lin,
   BitVec.ofNat 32 (g.unit % 1024 * 2 ^ 22 + g.nunit % 64 * 2 ^ 16), BitVec.ofNat 32 (t.lbase * 2 ^ 19), loHalf pc, hiHalf pc,
   0, BitVec.ofNat 32 g.launch]

/-- Release the groups of one role of a resident team from its committed state (R41, R278). -/
def State.releaseRole (s : State) (c place : Nat) (i : Ink) (l : Launch) : State :=
  let t := s.team c place
  (t.resv.filter fun (g, _, _, _) => (roleMask t.np t.nc i.consumer).getLsbD g && !t.released.getLsbD g).foldl
    (fun s (g, slot, u, n) =>
      let x := i.group s l place t.lin g u n
      ((s.modCore c fun k => { k with groups := k.groups.put slot x, table := k.table.put slot (bindGroup x t i.pc) }).modTeam
        c place fun t => { t with released := t.released ||| maskOf 16 [g] }).armWatches c slot) s

/-- A new team takes its place: every line of its region is present (R169). -/
def Core.takeTeam (k : Core) (p : Nat) (t : Team) : Core :=
  { k with
    teams := k.teams.put p t
    absent := k.absent.filter fun l => !(t.lbase ≤ l && l < t.lbase + t.lines) }

/-- A committed team leaves the list of those waiting to be materialised. -/
def Core.dropInk (k : Core) (i : Ink) (lin : Nat) : Core :=
  { k with inked := k.inked.filterMap fun x =>
      if x = i then
        let ts := x.teams.filter (· != lin)
        if ts.isEmpty then none else some { x with teams := ts }
      else some x }

/-- Materialise a committed team: into its resident team's reservation, or with a reservation of its own. -/
def State.materialise (s : State) (c : Nat) (i : Ink) (lin : Nat) : Option State :=
  match s.launch i.ctx i.launch with
  | none => none
  | some l =>
    let k := s.core c
    match k.placeOf i.ctx i.launch lin with
    | some p => some ((s.releaseRole c p i l).modCore c fun k => k.dropInk i lin)
    | none => match k.reserve l lin with
      | none => none
      | some (p, t) =>
        let s := s.modCore c fun k => k.takeTeam p t
        some ((s.releaseRole c p i l).modCore c fun k => k.dropInk i lin)

/-- The committed teams of a launch in ascending linear index, producers first (R41): those that hold their reservation, and the first
that does not, behind which the others wait (R28). -/
def Core.inkTurns (k : Core) (ctx launch : Nat) : List (Ink × Nat) :=
  let is := k.inked.filter fun i => i.ctx == ctx && i.launch == launch
  let ts := sortDedup (is.flatMap fun i => i.teams)
  let here := fun n => (k.placeOf ctx launch n).isSome
  let next := ts.find? fun n => !here n
  (ts.filter fun n => here n || next == some n).flatMap fun n =>
    ((is.filter fun i => i.teams.contains n && !i.consumer) ++ is.filter fun i => i.teams.contains n && i.consumer).map fun i => (i, n)

/-- The committed teams of a core in the order in which they are tried. Between launches the order is the model's choice (log 67): that
in which their first committed ranges were inked. -/
def Core.inkOrder (k : Core) : List (Ink × Nat) :=
  let ls := k.inked.foldl (fun xs i => if xs.contains (i.ctx, i.launch) then xs else xs ++ [(i.ctx, i.launch)]) []
  ls.flatMap fun x => k.inkTurns x.1 x.2

/-- TEAM_MATERIALISE (R28, R41): the first committed team of a core whose reservation can be made is released. -/
def execTeamMaterialise (core : Nat) (s : State) : Res :=
  .next (if !s.agentRuns core || s.power != .l0 then s
    else (((s.core core).inkOrder.filter fun (i, _) => s.runs i.ctx).findSome? fun (i, n) => s.materialise core i n).getD s)

/-! ## Bind records (R278, R279) -/

/-- An agent whose bind record contradicts the maps is frozen and reported to Nopol root (R279, R371); the code is the model's choice (log
40). -/
def State.freezeAgent (s : State) (c : Nat) : State := s.stopAgent c 0 { code := cILLEGAL } cILLEGAL

/-- A resident group holds a slot. -/
def Core.slotHeld (k : Core) (slot : Nat) : Bool := (k.groups.find slot).isSome

/-- A group that a bind record names (Table 17-3), checked against the core's maps (R28): the team's place and the team, or none
where the record contradicts them. -/
def State.bindCheck (s : State) (c slot : Nat) (w : Nat → Nat) (l : Launch) : Option (Nat × Team) :=
  let k := s.core c
  let consumer := natBits (w 0) 29 29 == 1
  let grp := natBits (w 0) 28 25
  let lin := w 1
  let unit := natBits (w 2) 31 22
  let n := natBits (w 2) 21 16
  let lbase := natBits (w 3) 31 19
  let mine := (roleMask (pkNp l.words) (pkNc l.words) consumer).getLsbD grp
  let others := (upto (pkNp l.words + pkNc l.words)).filter (· != grp)
  if slot = 63 || k.slotHeld slot || natBits (w 0) 24 16 != 0 || natBits (w 2) 15 0 != 0 || natBits (w 3) 18 0 != 0
      || w 6 != 0 || !mine || n != pkUnits l.words consumer || pkTeams l.words ≤ lin || Config.allotUnits < unit + n then none
  else match k.placeOf l.ctx l.num lin with
    | some p => match k.teams.find p with
      | none => none
      | some t =>
        let t' := { t with resv := t.resv.filter fun x => x.1 != grp }
        let k' := { k with teams := k.teams.put p t' }
        if t.lbase != lbase || t.released.getLsbD grp || t.gone.getLsbD grp || k'.slotTaken slot || !clear k'.unitRuns unit n
        then none
        else some (p, { t' with resv := t'.resv ++ [(grp, slot, unit, n)] })
    | none =>
      let free := ((upto 63).filter fun x => x != slot && !k.slotTaken x).take others.length
      let need := others.map fun g => (groupUnits l.words)[g]?.getD 0
      if Config.localLines < lbase + pkLines l.words || !clear k.lineRuns lbase (pkLines l.words) || k.slotTaken slot
          || !clear k.unitRuns unit n || free.length < others.length then none
      else match k.freePlace, fitUnits ((unit, n) :: k.unitRuns) need with
        | some p, some us =>
          some (p, l.team lin ((grp, slot, unit, n) :: others.zip (free.zip (us.zip need))) lbase (k.retired l lin))
        | _, _ => none

/-- A valid group record releases its group (R278): from the committed state of its team where the core holds one, with the
record's PC, else as a stroke is formed. -/
def State.bindRelease (s : State) (c slot : Nat) (w : Nat → Nat) (l : Launch) (place : Nat) (t : Team) : State :=
  let consumer := natBits (w 0) 29 29 == 1
  let grp := natBits (w 0) 28 25
  let pc := BitVec.ofNat 64 (w 4 + 2 ^ 32 * w 5)
  let held := (s.core c).inked.find? fun i =>
    i.ctx == l.ctx && i.launch == l.num && i.consumer == consumer && i.teams.contains (w 1)
  let fresh := (l.stroke (w 1) consumer ⟨0, 0, 0, 0, 0, 0⟩).ink ⟨0, 0, 0, 0, 0, 0⟩ 1 1 pc
  let i : Ink := match held with
    | some i => { i with pc := pc }
    | none => fresh
  let g := i.group s l place (w 1) grp (natBits (w 2) 31 22) (natBits (w 2) 21 16)
  let t := { t with released := t.released ||| maskOf 16 [grp] }
  (s.modCore c fun k =>
    let k := if (k.teams.find place).isSome then { k with teams := k.teams.put place t } else k.takeTeam place t
    { k with groups := k.groups.put slot g }).armWatches c slot

/-- The box of a stroke's bind record. -/
def bindBox (w : Nat → Nat) : Box := { x0 := w 1, x1 := w 2, y0 := w 3, y1 := w 4, z0 := w 5, z1 := w 6 }

/-- A committed role of a team of which every group has been released leaves the list of those waiting. -/
def State.dropCommitted (s : State) (c place : Nat) (consumer : Bool) : State :=
  let t := s.team c place
  let m := roleMask t.np t.nc consumer
  if m &&& t.released != m then s
  else match (s.core c).inked.find? fun i =>
      i.ctx == t.ctx && i.launch == t.launch && i.consumer == consumer && i.teams.contains t.lin with
    | some i => s.modCore c fun k => k.dropInk i t.lin
    | none => s

/-- An entry of a core's slot table as it reads (Table 17-3): the record last written, with valid cleared once its group or stroke is
gone (R278). -/
def Core.bindRecord (k : Core) (entry : Nat) : List W32 :=
  let ws := k.table.get [] entry
  let live := if entry < 64 then (k.groups.find entry).isSome else (k.strokes.find (entry - 64)).isSome
  if live then ws else listModify ws 0 fun w => w &&& 0x7FFF_FFFF

/-- The writer of a bind record runs: Nopol root of the core's die, or an agent. -/
def State.bindMay (s : State) (c : Nat) : BindWriter → Bool
  | .root => s.rootRuns (dieOf c)
  | .agent w => w < s.coreCount && s.agentRuns w

/-- The core whose agent writes. -/
def BindWriter.writer (b : BindWriter) (core : Nat) : Nat :=
  match b with
  | .root => core
  | .agent w => w

/-- BIND_RECORD_WRITE (R278, R279): an entry of a core's slot table is written; entries 0 to 63 are groups' and 64 to 79 strokes'. A
valid record is checked against the core's maps and releases its group or starts its stroke; one that contradicts them, or a
write of entry 63 by the agent, freezes the agent; one that fits but is of a terminated launch releases nothing (R287). An agent that
writes another core's table is frozen, and the write is not made (R279, R371). Entry 63 starts the agent whose image its die's root has
admitted (R369), or without valid ends it. No launch releases that group and the spec gives its generator nothing: DESIGN CHOICE, key and
stream 0 (log 76). -/
def execBindRecordWrite (core entry : Nat) (words : List (BitVec 32)) (by_ : BindWriter) (s : State) : Res :=
  let w := pw words
  let put := fun (s : State) =>
    s.modCore core fun k => { k with table := k.table.put entry ((upto 8).map fun i => words[i]?.getD 0) }
  let ctx := natBits (w 0) 15 0
  .next (if s.coreCount ≤ core || 80 ≤ entry || !s.bindMay core by_ then s
    else if by_ != .root && by_ != .agent core then s.freezeAgent (BindWriter.writer by_ core)
    else if entry = 63 && by_ != .root then s.freezeAgent core
    else if natBits (w 0) 31 31 = 0 then
      put (if entry = 63 then s.modCore core fun k => { k with groups := k.groups.erase 63 } else s)
    else if entry = 63 then
      put (if (s.die (dieOf core)).agentRefused then s else s.modCore core fun k => { k with
        agentFrozen := false,
        groups := k.groups.put 63 { ctx := ctx, watch := List.replicate 4 ⟨0, 0, 0, 0⟩,
                                    lanes := List.replicate 32 { pc := BitVec.ofNat 64 (w 4 + 2 ^ 32 * w 5) } } })
    else match s.launch ctx (w 7) with
      | none => s.freezeAgent core
      | some l =>
        if decide (entry < 64) == (natBits (w 0) 30 30 == 1) then s.freezeAgent core
        else if entry < 64 then
          match s.bindCheck core entry w l with
          | none => s.freezeAgent core
          | some (p, t) =>
            if l.term.isSome then put s
            else (put (s.bindRelease core entry w l p t)).dropCommitted core p (natBits (w 0) 29 29 == 1)
        else
          let b := bindBox w
          let consumer := natBits (w 0) 29 29 == 1
          if ((s.core core).strokes.find (entry - 64)).isSome || b.x1 < b.x0 || b.y1 < b.y0 || b.z1 < b.z0
              || pw l.words 4 ≤ b.x1 || pw l.words 5 ≤ b.y1 || pw l.words 6 ≤ b.z1 || natBits (w 0) 28 16 != 0
              || !(rolesOf l.words).contains consumer then s.freezeAgent core
          else if l.term.isSome then put s
          else
            let first := b.first (pw l.words 4) (pw l.words 5)
            let chunk := match (s.core core).chunks.find? fun (x, n, lo, hi) =>
                x == ctx && n == l.num && lo ≤ first && first ≤ hi with
              | some (_, _, lo, _) => lo
              | none => first
            put (s.modCore core fun k => { k with strokes := k.strokes.put (entry - 64) (l.stroke chunk consumer b) }))

/-! ## Draining (R54) -/

/-- A copy or posted store that a group issued is not yet acknowledged (Table 3-4): its store queue, copies, remote stores, the
destinations of its collectives, and its queued accumulator stores. -/
def State.unacknowledged (s : State) (c slot : Nat) : Bool :=
  let g := s.group c slot
  !g.sq.isEmpty || (s.core c).cmds.any (fun k => k.slot == slot)
    || (s.die (dieOf c)).reqs.any (fun r => r.core == c && r.slot == slot)
    || (match s.context g.ctx with
      | some x => x.colls.any fun k => k.core == c && k.slot == slot && k.result.isNone
      | none => false)
    || (match g.place with
      | some p => (s.team c p).queue.any fun o => o.kind.posts && o.slot == slot
      | none => false)

/-- A group leaves its slot: faults that still wait for it are recorded against its context (R56), its watch table entries go, its
bind record is no longer valid, operations that it left in the queue have no issuer, and its team counts it. -/
def State.leave (s : State) (c slot : Nat) : State :=
  let g := s.group c slot
  let s := g.deliv.foldl (fun s d => s.groupRecord 0x01 c slot d.lane d.f d.f.code) s
  let s := (upto 4).foldl (fun s n => s.dropWatch c slot n) s
  let s := s.modCore c fun k => { k with groups := k.groups.erase slot }
  match g.place with
  | none => s
  | some p => ((s.modTeam c p fun t => { t with
      gone := t.gone ||| maskOf 16 [g.grp],
      queue := t.queue.map fun o => if o.slot == slot then { o with slot := noSlot } else o }).modCore c Core.freeTeams).settleTeam c p

/-- GROUP_LEAVES_DRAINING (R54): everything that the group issued has been acknowledged; its slot is free, and a team whose last
group this was is freed. -/
def execGroupLeavesDraining (core slot : Nat) (s : State) : Res :=
  .next (if !(s.group core slot).draining || s.unacknowledged core slot then s else s.leave core slot)

/-- FAULT_DELIVERY (R237, R283): the first fault that can be delivered to a lane of a group is taken there; that of a draining
group is only recorded (R56). -/
def execFaultDelivery (core slot : Nat) (s : State) : Res :=
  .next (let g := s.group core slot
    match g.nextDeliv with
    | none => s
    | some n => match g.deliv[n]? with
      | none => s
      | some d =>
        let s := s.modGroup core slot fun g => { g with deliv := listErase g.deliv n }
        if g.draining || (g.lane d.lane).exited then s.deliver core slot d
        else s.takeFault core slot d.lane d.f (d.resume.getD (g.lane d.lane).cur))

/-! ## Grid end (R192, R194, R115) -/

/-- A launch still holds a stroke, a committed team or a team on a core. -/
def State.launchLive (s : State) (ctx num : Nat) : Bool :=
  s.cores.any (fun (_, k) =>
    k.strokes.any (fun (_, st) => st.ctx == ctx && st.launch == num) || k.inked.any (fun i => i.ctx == ctx && i.launch == num)
      || k.teams.any (fun (_, t) => t.ctx == ctx && t.launch == num)
      || k.groups.any (fun (n, g) => n != 63 && g.ctx == ctx && g.launch == num))
    || match s.context ctx with
      | some x => x.saved.any fun k =>
          k.strokes.any (fun (_, st) => st.launch == num) || k.inked.any (fun i => i.launch == num)
            || k.teams.any (fun (_, t) => t.launch == num)
      | none => false

/-- The value that an ordered slot receives (R115): its contributions added to x0 in ascending order of key. -/
def Slot.value (o : Slot) : W32 :=
  let keys := sortDedup (o.contrib.map Prod.fst)
  let add := fun (v : Nat) (x : W32) => faddBits fF32 .rne v x.toNat
  BitVec.ofNat 32 (keys.foldl (fun v k => (o.contrib.filter fun c => c.1 == k).foldl (fun v c => add v c.2) v) o.x0.toNat)

/-- Dirty sectors of the lines that a test picks are written to HBM4E (R275). -/
def State.flushLines (s : State) (out : Nat → Bool) : State :=
  { s with dies := s.dies.map fun (d, k) =>
      (d, { k with home := k.home.map fun (n, h) => if out n then (n, { h with dirty := 0 }) else (n, h) }) }

/-- A core keeps nothing of a launch that has ended. -/
def Core.forget (k : Core) (ctx launch : Nat) : Core :=
  { k with
    exitedRoles := k.exitedRoles.filter fun x => !(x.1 == ctx && x.2.1 == launch)
    chunks := k.chunks.filter fun x => !(x.1 == ctx && x.2.1 == launch) }

/-- An ordered slot receives its value, unless its granule is poisoned (R194, R228). A slot of another live launch at the same location
does not stop the write. The sum of a launch whose ordered-sum area software has accessed is not defined (R273). -/
def State.writeSlot (s : State) (spoiled : Bool) (o : Slot) : State :=
  if s.bad o.pa 4 then s.readArray o.pa 4
  else
    let (x, s) := if spoiled then s.freeWord else (o.value, s)
    let open_ := s.launches.map fun l => { l with slots := l.slots.filter fun r => r.pa != o.pa }
    { ({ s with launches := open_ } : State).homeStore o.pa (bytesOf 4 x.toNat) .normal with launches := s.launches }

/-- The home cache lines that a launch writes back at grid end: those of its buffers of modes 2 and 3 (R275). -/
def State.flushed (s : State) (l : Launch) (line : Nat) : Bool := l.buffers.any fun b => 2 ≤ b.2.2 && s.inBuffer l.ctx b line

/-- A writeback at grid end waits for its stack (R325). -/
def State.flushWaits (s : State) (l : Launch) : Bool :=
  s.dies.any fun (_, d) => d.home.any fun (n, h) => h.dirty != 0 && s.held (128 * n) && s.flushed l n

/-- GRID_END (R192, R194, R228, R275, R281): every die of a launch has freed its slab; buffers of modes 2 and 3 are written back,
each ordered slot receives its value unless the launch was terminated, and the completion is posted, with ECC where a slot's granule
is poisoned. A slot or a writeback that its stack holds is waited for (R325). -/
def execGridEnd (ctx launch : Nat) (s : State) : Res :=
  .next (match s.launch ctx launch with
    | none => s
    | some l =>
      if (l.term.isNone && (s.pkDies l.words).any fun d => !s.exhausted l d) || s.launchLive ctx launch
          || (l.term.isNone && l.slots.any fun o => s.writeWaits o.pa 4) || s.flushWaits l || s.postWaits l.queue (s.postDie l.words) then s
      else
        let s := { s with launches := s.launches.filter fun x => !(x.ctx == ctx && x.num == launch) }
        let s := { s with cores := s.cores.map fun (x : Nat × Core) => (x.1, Core.forget x.2 ctx launch) }
        let slots := if l.term.isSome then [] else l.slots
        let bad := slots.any fun o => s.bad o.pa 4
        let s := slots.foldl (fun s o => s.writeSlot l.spoiled o) s
        let s := s.flushLines (s.flushed l)
        s.finishPacket l.queue l.index (pw l.words 25) (l.term.getD (if bad then cECC else 0))
          (s.postDie l.words))

/-! ## Termination (R287, R288) -/

/-- A group ends: its lanes have exited and it drains. -/
def Group.stopped (g : Group) : Group :=
  { g with
    lanes := g.lanes.map fun l => { l with exited := true, trap := false, wait := .none, parked := none, late := none },
    draining := true, unit := 0, nunit := 0, vector := [] }

/-- What a core gives up of a launch that is terminated: strokes, committed teams, and queued matrix operations but for the posted stores
of its groups, which R57 completes (log 60); its groups drain and groups not yet released never will be. -/
def Core.terminate (k : Core) (ctx launch : Nat) : Core :=
  let mine := fun (c l : Nat) => c == ctx && l == launch
  Core.freeTeams { k with
    strokes := k.strokes.filter fun (_, st) => !mine st.ctx st.launch,
    inked := k.inked.filter fun i => !mine i.ctx i.launch,
    groups := k.groups.map fun (n, g) => if n != 63 && mine g.ctx g.launch then (n, g.stopped) else (n, g),
    teams := k.teams.map fun (p, t) =>
      if mine t.ctx t.launch then (p, { t with queue := t.queue.filter fun o => o.kind.posts, gone := t.gone ||| ~~~t.released }) else (p, t),
    deferred := k.deferred.map fun d => if mine d.ctx d.launch then { d with out := false } else d }

/-- What is saved of a core without a launch. -/
def SavedCore.without (k : SavedCore) (launch : Nat) : SavedCore :=
  { k with
    groups := k.groups.filter fun (_, g) => g.launch != launch
    strokes := k.strokes.filter fun (_, st) => st.launch != launch
    teams := k.teams.filter fun (_, t) => t.launch != launch
    inked := k.inked.filter fun i => i.launch != launch
    exitedRoles := k.exitedRoles.filter fun x => x.2.1 != launch
    chunks := k.chunks.filter fun x => x.2.1 != launch }

/-- The launch's collectives have the response timeout from now on to end, as at a pre-emption (R57, R287). -/
def Context.limitColls (x : Context) (s : State) (mine : Coll → Bool) : Context :=
  { x with colls := x.colls.map fun k =>
      if mine k then { k with limit := some (k.limit.getD ((s.die k.die).cycle + x.timeout)) } else k }

/-- Terminate a launch with a code: the first request's stands (R288). What a pre-emption saved of it is dropped. -/
def State.terminateLaunch (s : State) (ctx launch : Nat) (code : Code) : State :=
  match s.launch ctx launch with
  | none => s
  | some l =>
    if l.term.isSome then s
    else
      let s := s.modLaunch ctx launch fun l => { l with term := some code, slots := [] }
      let s := { s with cores := s.cores.map fun (x : Nat × Core) => (x.1, Core.terminate x.2 ctx launch) }
      s.modContext ctx fun x => ({ x with saved := x.saved.map fun k => SavedCore.without k launch }).limitColls s fun k =>
        k.launch == launch

/-- TERMINATE (R287, R288), with a code of Table 0-4 (R11). -/
def execTerminate (ctx launch : Nat) (code : BitVec 8) (s : State) : Res :=
  .next (if 20 < code.toNat then s else s.terminateLaunch ctx launch code)

end Sys2Proof.Machine
end

