-- ==== Sys2Proof/Machine/Fabric.lean ====
section
/-! DEFINITION. The gateways: ports, sending, admission of packets, remote requests and their failures (R303 to R307, R328 to R333,
R371, R374). -/

namespace Sys2Proof.Machine

/-! ## Communicators (R305, R328) -/

def Context.comm (x : Context) (n : Nat) : Comm := x.comms.get {} n

def State.comm (s : State) (ctx n : Nat) : Comm :=
  match s.context ctx with
  | some x => x.comm n
  | none => {}

def State.modComm (s : State) (ctx n : Nat) (f : Comm → Comm) : State :=
  s.modContext ctx fun x => { x with comms := x.comms.put n (f (x.comm n)) }

/-- The adopted generation; 0 before the first adoption (log 7). -/
def Comm.gen (c : Comm) : BitVec 16 :=
  match c.adopted with
  | some t => t.gen
  | none => 0

/-- The device of a rank: none at or above nranks, or where the entry is not valid (R328). -/
def RankTable.deviceOf (t : RankTable) (rank : Nat) : Option (BitVec 20) :=
  match t.ranks[rank]? with
  | some r => if r.valid then some r.device else none
  | none => none

/-- The lowest valid rank of a device. -/
def RankTable.rankOf (t : RankTable) (dev : BitVec 20) : Option Nat :=
  (places (fun (r : RankEntry) => r.valid && r.device == dev) t.ranks).head?

def State.deviceOf (s : State) (ctx comm rank : Nat) : Option (BitVec 20) :=
  match (s.comm ctx comm).adopted with
  | some t => RankTable.deviceOf t rank
  | none => none

/-- The rank of a device in a communicator; 0 where it has none. -/
def State.rankOf (s : State) (ctx comm : Nat) (dev : BitVec 20) : Nat :=
  match (s.comm ctx comm).adopted with
  | some t => (RankTable.rankOf t dev).getD 0
  | none => 0

/-- A 32-bit counter that saturates (R305). -/
def satInc (x : W32) : W32 := if x = 0xFFFF_FFFF then x else x + 1

/-! ## Fesel packets on the wire (R303, Table 19-5) -/

/-- The payload of a packet in whole units of 64 bytes. The parameters that a kind carries beside the header are its payload, a layout
that is the model's own; those of an XDT and of collective data, whose payload may be full, have no place there (log 31). -/
def Fesel.body (p : Fesel) : List Byte :=
  let bs := if p.kind == 0x08 || p.kind == 0x0C then p.payload else p.payload ++ p.extra.flatMap fun x => bytesOf 8 x.toNat
  padTo (64 * ceilDiv bs.length 64) bs

/-- The eight words of the header. -/
def Fesel.header (p : Fesel) : List W32 :=
  [p.kind ++ (0 : BitVec 7) ++ p.dst, (0 : BitVec 12) ++ p.src, p.comm ++ p.gen, p.fid, loHalf p.vaddr, hiHalf p.vaddr,
   BitVec.ofNat 8 ((Fesel.body p).length / 64) ++ p.code ++ p.tctx, p.aux]

/-- The bytes of a packet: header, payload, and the CRC-32C of both. -/
def Fesel.wire (p : Fesel) : List Byte :=
  let bs := ((Fesel.header p).flatMap fun w => bytesOf 4 w.toNat) ++ Fesel.body p
  bs ++ bytesOf 4 (crc32c bs).toNat

/-- A packet as a gateway receives it: none where its CRC fails, its length is not what it says or its kind is reserved. The payload is
whole, parameters included. -/
def Fesel.ofWire (bs : List Byte) : Option Fesel :=
  let w := fun (i : Nat) => BitVec.ofNat 32 (ofBytes ((bs.drop (4 * i)).take 4))
  let n := bs.length - 4
  let kind := (field (w 0) 27 5).toNat
  if bs.length < 36 || bs.drop n != bytesOf 4 (crc32c (bs.take n)).toNat || n != 32 + 64 * (field (w 6) 24 8).toNat
      || kind = 0 || 0x12 < kind then none
  else
    some { kind := field (w 0) 27 5, dst := field (w 0) 0 20, src := field (w 1) 0 20, comm := field (w 2) 16 16,
           gen := field (w 2) 0 16, fid := w 3, vaddr := pairVal (w 4) (w 5), code := field (w 6) 16 8, tctx := field (w 6) 0 16,
           aux := w 7, payload := (bs.take n).drop 32 }

/-! ## Sending (R303) -/

/-- The port that a gateway uses for a first choice: the next of its ports that is up. -/
def State.nextPort (s : State) (d p : Nat) : Option Nat :=
  ((upto 8).map fun i => (p + i) % 8).find? fun q => !(s.die d).portsDown.contains q

/-- Put a packet out of a die's gateway; one for this package reaches its own gateway (R328). None while every port is down. -/
def State.putOut (s : State) (d port : Nat) (p : Fesel) : Option State :=
  (s.nextPort d port).map fun q =>
    if p.dst = s.devid then { s with gateQ := s.gateQ ++ [(d, p)] }
    else { s with fabricOut := s.fabricOut ++ [(8 * d + q, p)] }

/-- A packet of a context and communicator, with the adopted generation; tctx names the context (R374). -/
def State.fesel (s : State) (ctx comm : Nat) (kind : BitVec 5) (dst : BitVec 20) : Fesel :=
  { kind := kind, dst := dst, src := s.devid, comm := BitVec.ofNat 16 comm, gen := (s.comm ctx comm).gen, fid := 0, vaddr := 0,
    code := 0, tctx := BitVec.ofNat 16 ctx, aux := 0, payload := [] }

/-- A context's response timeout in cycles (R304). -/
def State.timeout (s : State) (ctx : Nat) : Nat := ((s.context ctx).getD {}).timeout

/-- Send a packet from a die and remember it for as long as it may have to be resent (R307). -/
def State.send (s : State) (ctx d port : Nat) (p : Fesel) : Option State :=
  let now := (s.die d).cycle
  (s.putOut d port p).map fun s => s.modDie d fun k => { k with
    sent := (k.sent.filter fun x => now < x.at_ + s.timeout x.ctx) ++ [{ ctx := ctx, port := port, at_ := now, pkt := p }] }

/-- Send a packet under the die's next fid, from the port of its destination; with no port up it is not sent. -/
def State.sendNew (s : State) (ctx d : Nat) (p : Fesel) : Option (BitVec 32 × State) :=
  let fid := (s.die d).fid
  (s.send ctx d (p.dst.toNat % 8) { p with fid := fid }).map fun s =>
    (fid, s.modDie d fun k => { k with fid := fid + 1 })

/-- The same where nothing waits for an answer. -/
def State.sendPlain (s : State) (ctx d : Nat) (p : Fesel) : State :=
  match s.sendNew ctx d p with
  | some (_, s) => s
  | none => s

/-- A packet that answers another under the fid of its request. -/
def State.answer (s : State) (ctx d : Nat) (p : Fesel) : State := (s.send ctx d (p.dst.toNat % 8) p).getD s

/-! ## Failures of remote requests (R329, R330) -/

/-- remrank and remcode after a failure (Tables 21-2 and 21-3). -/
def Context.failed (x : Context) (f : FaultRec) : Context :=
  let n := (field x.remcode 8 24).toNat
  { x with
    remrank := BitVec.ofNat 32 (2 ^ 31 + f.peer.1 % 64 * 2 ^ 20 + f.peer.2 % 2 ^ 20),
    remcode := BitVec.ofNat 32 ((if n + 1 < 2 ^ 24 then n + 1 else n) * 2 ^ 8 + f.code.toNat) }

/-- Terminate every launch of a context (R287). -/
def State.terminateContext (s : State) (ctx : Nat) (code : Code) : State :=
  (s.launches.filter fun l => l.ctx == ctx).foldl (fun s l => s.terminateLaunch ctx l.num code) s

/-- A remote failure is learnt (R330): in mode 0 the rank's sticky bit is set, in mode 1 it is recorded for its lane and the
context is terminated. -/
def State.remoteFail (s : State) (c slot lane ctx : Nat) (f : FaultRec) : State :=
  let mode := ((s.context ctx).getD {}).remMode
  let s := s.modContext ctx fun x => x.failed f
  if mode then (s.groupRecord 0x01 c slot lane { f with rem := true } f.code).terminateContext ctx f.code
  else s.modContext ctx fun x => { x with sticky := insertNat (f.peer.2 % 2 ^ 20) x.sticky }

/-- A lane's remote request has ended: it is late no longer (R49). -/
def State.onTime (s : State) (r : RReq) : State :=
  (s.accessEnded r.core r.slot r.id r.lane r.pc (r.kind != .rst)).modLane r.core r.slot r.lane fun l =>
    if l.late = some r.id then { l with late := none } else l

/-- A request fails with a code (R330): in mode 0 the destination registers become 0 and the predicate of a compare false. -/
def State.failReq (s : State) (r : RReq) (code : Code) : State :=
  let mode := ((s.context r.ctx).getD {}).remMode
  let s := s.remoteFail r.core r.slot r.lane r.ctx { code := code, addr := r.addr, pc := r.pc, peer := (r.comm, r.rank) }
  let s := if mode then s else match r.kind with
    | .rld d | .ratom d => s.arrive r.core r.slot r.lane d 0 false
    | .rst => s
  s.onTime r

/-! ## RLD, RST, RATOM (R331 to R333) -/

/-- One lane's remote request: ALIGN precisely, else failure where its rank does not resolve or cannot be reached, else sent. -/
def State.remoteLane (s : State) (e : Env) (f : MF) (kind : BitVec 5) (aux : W32) (l : Nat) (rk : RKind)
    (payload : List Byte) : State :=
  let va := e.va l f
  let w := e.srcAt l f.a 3
  let comm := (field w 16 6).toNat
  let rank := (field (e.srcAt l f.a 2) 0 20).toNat
  let d := dieOf e.core
  if va.toNat % f.size.bytes != 0 then s.raise e l { code := cALIGN, addr := va }
  else
    let (id, s) := s.fresh
    let data := match rk with
      | .rst => payload.take f.size.bytes
      | .ratom t => payload.take t.bytes
      | .rld _ => []
    let r : RReq := { id := id, fid := 0, kind := rk, dev := 0, core := e.core, slot := e.slot, lane := l, ctx := e.g.ctx,
                      launch := e.g.launch, pc := e.pc, addr := va, comm := comm, rank := rank, order := f.order, data := data,
                      sent := (s.die d).cycle }
    match s.deviceOf e.g.ctx comm rank with
    | none => s.failReq r cREMOTE
    | some dev =>
      let p : Fesel := { s.fesel e.g.ctx comm kind dev with vaddr := va, tctx := field w 0 16, aux := aux, payload := payload }
      match (if (s.die d).blockList.contains dev then none else s.sendNew e.g.ctx d p) with
      | none => s.failReq r cREMOTE
      | some (fid, s) =>
        let s := s.modDie d fun k => { k with reqs := k.reqs ++ [{ r with fid := fid, dev := dev }] }
        if rk = .rst then s else s.modLane e.core e.slot l fun x => { x with late := some id }

/-- A remote access of every active lane, after what a release orders before it (R333). -/
def State.remoteLanes (s : State) (e : Env) (f : MF) (kind : BitVec 5) (aux : W32) (rk : Nat → RKind)
    (payload : Nat → List Byte) : State :=
  s.ordered e f.order .s e.active fun s =>
    e.active.foldl (fun s l => s.remoteLane e f kind aux l (rk l) (payload l)) s

/-- RLD (R332). -/
def execRld (h : Hdr) (f : MF) (s : State) : Res :=
  s.issueInk (.rld h f) h fun e s =>
    s.remoteLanes e f 0x01 (BitVec.ofNat 32 f.size.bytes)
      (fun l => .rld (e.dest l f.d f.size.regs f.size.bytes f.sext)) fun _ => []

/-- RST (R332, R333). -/
def execRst (h : Hdr) (f : MF) (s : State) : Res :=
  s.issueInk (.rst h f) h fun e s =>
    s.remoteLanes e f 0x03 (BitVec.ofNat 32 f.size.bytes) (fun _ => .rst) fun l => padTo 64 (e.stored l f)

/-- The aux word of a remote atomic (Table 19-6). -/
def atomAux (f : MF) : W32 :=
  BitVec.ofNat 32 (f.sub.toNat % 16 * 2 ^ 28 + (if f.mod.getLsbD 5 then 2 ^ 27 else 0) + modBits f.mod 4 0)

/-- RATOM (R331, R332): operand and compare value travel as in Table 19-4. -/
def execRatom (h : Hdr) (f : MF) (s : State) : Res :=
  s.issueInk (.ratom h f) h fun e s =>
    let cas := f.sub == 8
    s.remoteLanes e f 0x05 (atomAux f)
      (fun l => .ratom { e.dest l f.d f.size.regs f.size.bytes false with pred := if cas then some f.pred.val else none })
      fun l =>
        let o := e.atomOp l f cas
        padTo 64 (bytesOf 8 o.operand.toNat ++ bytesOf 8 o.compare.toNat)

/-! ## Replies and timeouts at the source -/

/-- The dies of the package to which a gateway's die can pass a packet (R303, R23), itself first. -/
def State.diesFrom (s : State) (d : Nat) : List Nat := d :: (upto s.dieCount).filter fun k => k != d && s.linked d k

/-- The reply kind that a request waits for. -/
def RKind.reply : RKind → BitVec 5
  | .rld _ => 0x02
  | .rst => 0x04
  | .ratom _ => 0x06

/-- The request that a reply answers, with its die: that of the gateway of arrival, or another to which it is passed on. -/
def State.findReq (s : State) (d : Nat) (p : Fesel) : Option (Nat × RReq) :=
  (s.diesFrom d).findSome? fun k =>
    ((s.die k).reqs.find? fun r => r.fid == p.fid && r.dev == p.src && r.kind.reply == p.kind).map fun r => (k, r)

/-- A request need not be resent any more. -/
def State.forgetSent (s : State) (d : Nat) (fid : BitVec 32) : State :=
  s.modDie d fun k => { k with
    sent := k.sent.filter fun x => !(x.pkt.fid == fid && [0x01, 0x03, 0x05, 0x07].contains x.pkt.kind) }

/-- A request is outstanding no longer. -/
def State.dropReq (s : State) (d : Nat) (r : RReq) : State :=
  (s.modDie d fun k => { k with reqs := k.reqs.filter fun q => q.id != r.id }).forgetSent d r.fid

/-- A reply reaches its request (R332): failure, or the value, after which an acquire makes its removals (R333). -/
def State.onReply (s : State) (d : Nat) (p : Fesel) : State :=
  match s.findReq d p with
  | none => s
  | some (k, r) =>
    let s := s.dropReq k r
    if p.code != 0 then s.failReq r p.code
    else
      let s := match r.kind with
        | .rld t => s.arrive r.core r.slot r.lane t (ofBytes (p.payload.take t.bytes)) true
        | .ratom t => s.arrive r.core r.slot r.lane t (ofBytes (p.payload.take t.bytes)) ((p.payload[8]?.getD 0) == 1)
        | .rst => s
      (if isAcq r.order then s.acquire r.core .s else s).onTime r

/-- A request has had no reply within its context's response timeout, on the issuing die's counter (R304). -/
def State.timeoutReq (s : State) (d : Nat) (fid : BitVec 32) : State :=
  match (s.die d).reqs.find? fun r => r.fid == fid with
  | none => s
  | some r => if (s.die d).cycle < r.sent + s.timeout r.ctx then s else (s.dropReq d r).failReq r cREMOTE

/-! ## Admission of packets (R306, R371) -/

/-- The device is on the package's block list at a gateway. -/
def State.blocked (s : State) (d : Nat) (dev : BitVec 20) : Bool := (s.die d).blockList.contains dev

/-- The check of R306 on a packet for a context: accepted, or the state after it has been dropped or held. -/
def State.gate (s : State) (d : Nat) (p : Fesel) (ctx : Nat) : Except State State :=
  let n := p.comm.toNat % 64
  let k := p.gen - (s.comm ctx n).gen
  if p.comm = 0xFFFF || (s.context ctx).isNone then .ok s
  else if s.blocked d p.src then .error (s.modComm ctx n fun c => { c with blocked := satInc c.blocked })
  else if k = 0 then .ok s
  else if 32767 < k.toNat then .error (s.modComm ctx n fun c => { c with droppedOld := satInc c.droppedOld })
  else if (s.die d).hold.length < 64 then .error (s.modDie d fun g => { g with hold := g.hold ++ [(ctx, p)] })
  else
    let s := s.modComm ctx n fun c => { c with refused := satInc c.refused }
    .error (s.sendPlain ctx d { s.fesel ctx 0 0x12 p.src with comm := 0xFFFF, gen := 0, aux := p.fid })

/-- A packet that is dropped and counted as bad (R303, R374). -/
def State.badPacket (s : State) (d : Nat) : State := s.modDie d fun k => { k with badPackets := k.badPackets + 1 }

/-- The freeze record of a remote ingress stream, to Nopol root and a copy to its target context (R359, R371). The spec gives the record
no code: it is free. -/
def State.sourceRecord (s : State) (d ctx comm : Nat) (src : BitVec 20) : State :=
  let (x, s) := s.freeCode
  let f : FaultRec := { code := x, rem := true, peer := (comm, s.rankOf ctx comm src) }
  let body := faultBody f f.code 0 0 0 0 ctx false
  let (n, s) := s.event d
  let put := fun (s : State) (r : Option Ring) => match r with
    | some r =>
      let (s, ev) := s.tryRecord { ring := r, evseq := n, type := 0x02, die := d, core := none, slot := none, body := body }
      s.postEvents ev
    | none => s
  put (put s (s.rootRing d)) (s.eventRing ctx)

/-- A remote ingress stream is frozen by a packet from a source that its context does not admit (R371). -/
def State.freezeSource (s : State) (d : Nat) (p : Fesel) : State :=
  (s.modDie d fun k => { k with frozenSrc := k.frozenSrc ++ [(p.src, 0)] }).sourceRecord d p.tctx.toNat (p.comm.toNat % 64) p.src

/-- The check of R371 on an accepted packet: its source's stream is not frozen, and its context admits the source. -/
def State.admission (s : State) (d : Nat) (p : Fesel) : Except State State :=
  match (upto s.dieCount).find? fun k => (s.die k).frozenSrc.any fun x => x.1 == p.src with
  | some k => .error (s.modDie k fun g => { g with
      frozenSrc := g.frozenSrc.map fun x => if x.1 == p.src then (x.1, x.2 + 1) else x })
  | none => match s.context p.tctx.toNat with
    | none => .ok s
    | some x => if x.admitted.contains p.src then .ok s else .error (s.freezeSource d p)

/-! ## Requests at the target (R304, R332) -/

/-- A reply to a request, with the sender's adopted generation. -/
def State.reply (s : State) (d : Nat) (p : Fesel) (code : Code) (payload : List Byte) : State :=
  let gen := if p.comm = 0xFFFF then 0 else (s.comm p.tctx.toNat (p.comm.toNat % 64)).gen
  s.answer p.tctx.toNat d { p with kind := p.kind + 1, dst := p.src, src := s.devid, gen := gen, code := code,
                                   payload := payload }

/-- The operation that a remote atomic asks for. -/
def Fesel.atomOp (p : Fesel) : AtomOp :=
  let sub := natBits p.aux.toNat 31 28
  { sub := sub, ty := (Ty.ofCode (natBits p.aux.toNat 4 0)).getD .n32, ebf := p.aux.getLsbD 27, cas := sub == 8,
    operand := BitVec.ofNat 64 (ofBytes (p.payload.take 8)),
    compare := BitVec.ofNat 64 (ofBytes ((p.payload.drop 8).take 8)) }

/-- The package watch's hit by an ingress stream: the access goes on, and a record goes to the owner (R361). -/
def State.ingressWatch (s : State) (p : Fesel) (k : AKind) (pa n : Nat) : State :=
  let hits := s.watchTable p.tctx.toNat k false pa n
  match lowestHit (hits.map fun w => (w.index, 0)) with
  | none => s
  | some (i, _) => match hits.find? fun w => w.index == i with
    | none => s
    | some w =>
      let g := s.group w.core w.slot
      let comm := p.comm.toNat % 64
      let f : FaultRec := { code := cWATCH, addr := p.vaddr, num := BitVec.ofNat 16 i, rem := true,
                            peer := (comm, s.rankOf p.tctx.toNat comm p.src) }
      s.record (s.eventRing w.ctx) 0x04 (homeDie pa) none none
        (faultBody f cWATCH 0 g.grp (s.teamOf w.core w.slot).lin g.launch w.ctx g.draining)

/-- A packet waits at its gateway. -/
def State.waitPacket (s : State) (d : Nat) (p : Fesel) : State := { s with gateQ := s.gateQ ++ [(d, p)] }

/-- The bytes, kind and rights of a remote request. -/
def Fesel.access (p : Fesel) : Nat × AKind × Need :=
  match p.kind with
  | 0x01 => (Nat.min p.aux.toNat 4096, .read, { r := true })
  | 0x03 => (Nat.min p.aux.toNat p.payload.length, .write, { w := true })
  | _ => (AtomOp.bytes (Fesel.atomOp p), .atomic, { r := true, w := true })

/-- The access of a request at its own die waits: for its stack (R325), or for the copy of a traced chunk (R316). -/
def State.ingressWaits (s : State) (k : AKind) (pa n : Nat) : Bool :=
  match k with
  | .read => s.held pa && !s.homeHit pa n
  | .write => s.writeWaits pa n || s.viewWaits pa
  | .atomic => (s.held pa && !s.homeHit pa n) || s.viewWaits pa

/-- A granule that a write would change in part is poisoned, or would be as it is read (R167). -/
def State.badPart (s : State) (pa n : Nat) : Bool :=
  (blocks 64 pa n).any fun g => !(pa ≤ 64 * g && 64 * g + 64 ≤ pa + n) && s.bad (64 * g) 64

/-- Some granule of a range, on a page with tag checking, has another tag than the pointer's (R166). -/
def State.tagsFail (s : State) (ctx : Nat) (va : W64) (n : Nat) : Bool :=
  (blocks 64 va.toNat n).any fun g =>
    let a := if 64 * g < va.toNat then va else BitVec.ofNat 64 (64 * g)
    match s.walk ctx a with
    | .error _ => false
    | .ok (pa, e, _) => s.tagOn ctx e && !s.tagMatch ctx (ptrTag va) (tagOf (s.metaAt pa))

/-- What refuses a request whose pieces translate, in the order of R12: a tag, a link that is down, and at the gateway's own die poison or
a stack held too long. -/
def State.ingressFault (s : State) (d ctx : Nat) (va : W64) (k : AKind) (ps : List (Nat × Nat)) : Option Code :=
  let near := ps.filter fun x => homeDie x.1 == d
  let bad := fun (x : Nat × Nat) => if k = .write then s.badPart x.1 x.2 else s.bad x.1 x.2
  let late := fun (x : Nat × Nat) => s.held x.1 && !s.homeHit x.1 x.2 && s.overdue (stackOf x.1)
  if s.tagsFail ctx va (ps.foldl (fun n x => n + x.2) 0) then some cTAG
  else if ps.any fun x => !s.linked d (homeDie x.1) then some cREMOTE
  else if near.any bad then some cECC
  else if k != .write && near.any late then some cTHERM
  else none

/-- Pieces of a range cut at lines: the place of each in the range, its address and its bytes. -/
def linePieces : Nat → List (Nat × Nat) → List (Nat × Nat × Nat)
  | _, [] => []
  | off, (pa, n) :: ps => ((blocks 128 pa n).map fun b =>
      let lo := Nat.max pa (128 * b)
      (off + (lo - pa), lo, Nat.min (pa + n) (128 * b + 128) - lo)) ++ linePieces (off + n) ps

/-- The die-link request of an ingress stream for a piece within a line (R304, Table 19-4). -/
def Fesel.linkPkt (p : Fesel) (tag : BitVec 4) (k : AKind) (pa n : Nat) (bs : List Byte) : Pkt × List (BitVec 128) :=
  let q : Pkt := { op := 0x01, src := 0, dst := 0, scope := .s, tag := tag, ctx := p.tctx.toNat, addr := pa / 128 * 128 }
  match k with
  | .read => ({ q with aop := readSectors (pa, n) }, [])
  | .write => ({ q with op := 0x03 }, writeSlots pa bs)
  | .atomic => atomPkt q pa (Fesel.atomOp p)

/-- A piece of what an ingress stream performs has been answered: its place, its fault code, and what it read. -/
def State.ingressPart (s : State) (d id off : Nat) (code : Code) (bs : List Byte) : State :=
  s.modDie d fun k => { k with ingress := k.ingress.map fun x =>
    if x.id == id then { x with left := x.left - 1, code := if x.code = 0 then code else x.code, got := x.got ++ [(off, bs)] } else x }

/-- The old value of an atomic and the outcome of its compare, as a reply carries them. -/
def atomBytes (o : AtomOp) (m : W64) : List Byte := bytesOf 8 m.toNat ++ bytesOf 1 (if o.cas && m == o.compare then 1 else 0)

/-- A piece homed on the gateway's own die is performed there. -/
def State.ingressNear (s : State) (d id : Nat) (p : Fesel) (k : AKind) (off pa n : Nat) (bs : List Byte) : State :=
  match k with
  | .read =>
    let s := s.homeLoad pa n .normal
    let (bs, s) := s.softRead pa (s.bytes pa n)
    s.ingressPart d id off 0 bs
  | .write => ((s.softAccess pa n).homeStore pa bs .normal).ingressPart d id off 0 []
  | .atomic =>
    let o := Fesel.atomOp p
    let (m, s) := (s.softAccess pa n).homeAtomic pa o (coverBlock pa (pa + n)) .normal
    s.ingressPart d id off 0 (atomBytes o m)

/-- A piece homed on another die goes there over the die link; a write or atomic takes its line from the remote-data cache (R20). -/
def State.ingressFar (s : State) (d id : Nat) (p : Fesel) (tag : BitVec 4) (k : AKind) (off pa n : Nat) (bs : List Byte) : State :=
  let (q, data) := Fesel.linkPkt p tag k pa n bs
  let s := if k = .read then s else ((s.softAccess pa n).dropFar d [(pa, n)]).staleReads d (pa / 128)
  match s.request d (.ingress id off pa n) q data with
  | none => s.ingressPart d id off cREMOTE []
  | some (_, s) => s

/-- An ingress stream's access of some pieces begins (R304): each piece within a line is performed, or sent to its home. Also its
identifier. -/
def State.ingressGo (s : State) (d : Nat) (p : Fesel) (tag : BitVec 4) (k : AKind) (ps : List (Nat × Nat)) (bs : List Byte) : Nat × State :=
  let xs := linePieces 0 ps
  let (id, s) := s.fresh
  let s := s.modDie d fun g => { g with ingress := g.ingress ++ [{ id := id, pkt := p, left := xs.length }] }
  (id, xs.foldl (fun s x =>
    let part := (bs.drop x.1).take x.2.2
    if homeDie x.2.1 = d then s.ingressNear d id p k x.1 x.2.1 x.2.2 part
    else s.ingressFar d id p tag k x.1 x.2.1 x.2.2 part) s)

/-- An ingress stream's access of which every piece has been answered, and the state without it. -/
def State.ingressTake (s : State) (d id : Nat) : Option (Ingress × State) :=
  match (s.die d).ingress.find? fun x => x.id == id && x.left == 0 with
  | none => none
  | some x => some (x, s.modDie d fun k => { k with ingress := k.ingress.filter fun y => y.id != id })

/-- What an ingress stream's access has read, in order of place. -/
def Ingress.bytes (x : Ingress) : List Byte :=
  (sortDedup (x.got.map Prod.fst)).flatMap fun o => ((x.got.find? fun y => y.1 == o).map Prod.snd).getD []

/-- The reply to a request that has been performed: what was read, or the code of its first fault (R304, R332). -/
def State.ingressReply (s : State) (d : Nat) (x : Ingress) : State :=
  let (n, k, _) := Fesel.access x.pkt
  if x.code != 0 then s.reply d x.pkt x.code []
  else s.reply d x.pkt 0 (match k with
    | .read => padTo (64 * ceilDiv n 64) (Ingress.bytes x)
    | .write => []
    | .atomic => padTo 64 (Ingress.bytes x))

/-- The ingress stream of the source performs a request in context tctx, at scope .S, and replies (R304, R332). A walk that has to wait
keeps the packet at the gateway, as does a piece of the gateway's own die. -/
def State.serve (s : State) (d : Nat) (p : Fesel) : State :=
  let ctx := p.tctx.toNat
  let (n, k, need) := Fesel.access p
  if (s.context ctx).isNone then s.reply d p cPERM []
  else if s.rangeWaits d ctx p.vaddr (Nat.max 1 n) then s.waitPacket d p
  else
    let found := s.range d ctx need false p.vaddr (Nat.max 1 n)
    let s := s.rangeWalked d ctx p.vaddr (Nat.max 1 n)
    match found with
    | .error (c, _) => s.reply d p c []
    | .ok ps => match s.ingressFault d ctx p.vaddr k ps with
      | some c =>
        let near := ps.filter fun x => homeDie x.1 == d
        (if c = cECC then near.foldl (fun s (pa, n) => s.readArray pa n) s else s).reply d p c []
      | none =>
        let near := ps.filter fun x => homeDie x.1 == d
        let s := if k = .read then s else near.foldl (fun s (pa, _) => if s.held pa then s else s.startCopies pa) s
        if near.any fun (pa, n) => s.ingressWaits k pa n then s.waitPacket d p
        else
          let s := match ps.find? fun (pa, n) => !(s.watchTable ctx k false pa n).isEmpty with
            | some (pa, n) => s.ingressWatch p k pa n
            | none => s
          let (id, s) := s.ingressGo d p (ptrTag p.vaddr) k (if n = 0 then [] else ps) (p.payload.take n)
          match s.ingressTake d id with
          | some (x, s) => s.ingressReply d x
          | none => s

end Sys2Proof.Machine
end

