-- ==== Sys2Proof/Machine/Cadence.lean ====
section
/-! DEFINITION. Cadence: heartbeats, suspicion, probes, votes and verdicts over communicator 0 (R308 to R310). -/

namespace Sys2Proof.Machine

/-! ## The ring (R309) -/

/-- The members, in rank order. -/
def State.ring (s : State) (ctx : Nat) : List Nat :=
  match (s.comm ctx 0).adopted with
  | some t => places RankEntry.valid t.ranks
  | none => []

/-- Monitors that each member has. -/
def monitorCount (ring : List Nat) : Nat := Nat.min 5 (ring.length - 1)

/-- The monitors of a rank, in order. -/
def monitorsOf (ring : List Nat) (rank : Nat) : List Nat :=
  match (places (· == rank) ring).head? with
  | none => []
  | some i => (upto (monitorCount ring)).filterMap fun j => ring[(i + j + 1) % ring.length]?

/-- This package's rank. -/
def State.selfRank (s : State) (ctx : Nat) : Option Nat := (s.comm ctx 0).adopted.map fun t => t.self.toNat

/-- The die whose fabric engine sends and receives cadence packets: the lowest whose gateway is up. -/
def State.cadenceDie (s : State) : Nat := ((upto s.dieCount).find? fun d => (s.nextPort d 0).isSome).getD 0

/-- The counter by which the package times cadence, whichever die sends its packets: that of die 0, since no two dies' counters are
related (R3, R309, log 54). -/
def State.cadenceNow (s : State) : Nat := (s.die 0).cycle

/-- Send a cadence packet to a device. -/
def State.cadenceSend (s : State) (ctx : Nat) (kind : BitVec 5) (dst : BitVec 20) (aux : W32) (extra : List W64 := []) : State :=
  s.sendPlain ctx s.cadenceDie { s.fesel ctx 0 kind dst with aux := aux, extra := extra }

/-- A context in which cadence runs. -/
def State.cadence (s : State) (ctx : Nat) : Option Context :=
  match s.context ctx with
  | some x => if x.cadence then some x else none
  | none => none

def State.modWatched (s : State) (ctx : Nat) (dev : BitVec 20) (f : Watched → Watched) : State :=
  s.modContext ctx fun x => { x with watched := x.watched.put dev.toNat (f (x.watched.get {} dev.toNat)) }

/-! ## Heartbeats -/

/-- HEARTBEAT_TIMER (R309): every 25,000 cycles a heartbeat to each monitor. -/
def execHeartbeatTimer (ctx : Nat) (s : State) : Res :=
  .next (match s.cadence ctx, s.selfRank ctx with
    | some x, some me =>
      let now := s.cadenceNow
      if now < x.lastBeat + 20 * Config.cyclesPerUs || !(s.ring ctx).contains me then s
      else
        let s := (monitorsOf (s.ring ctx) me).foldl (fun s r => match s.deviceOf ctx 0 r with
          | some dev => s.cadenceSend ctx 0x0D dev (BitVec.ofNat 32 x.beats)
          | none => s) s
        s.modContext ctx fun x => { x with beats := x.beats + 1, lastBeat := now }
    | _, _ => s)

/-- The live member of lowest rank other than a subject, which acts as lead for it (R309, R310). -/
def State.leadFor (s : State) (ctx : Nat) (dev : BitVec 20) : Option (BitVec 20) :=
  ((s.ring ctx).filterMap (s.deviceOf ctx 0)).find? fun x => x != dev && !s.blocked s.cadenceDie x

/-- Send a vote to expel a subject, or its withdrawal, to the lead (Table 19-6). -/
def State.sendVote (s : State) (ctx : Nat) (dev : BitVec 20) (withdraw : Bool) : State :=
  match s.leadFor ctx dev with
  | some x => s.cadenceSend ctx 0x10 x (BitVec.ofNat 32 ((if withdraw then 2 ^ 31 else 0) + dev.toNat))
  | none => s

/-- A heartbeat reaches a monitor: it ends the suspicion and withdraws the vote. -/
def State.onHeartbeat (s : State) (_d : Nat) (p : Fesel) : State :=
  let ctx := p.tctx.toNat
  match s.cadence ctx with
  | none => s
  | some x =>
    let voted := (x.watched.get {} p.src.toNat).voted
    let s := s.modWatched ctx p.src fun _ => { last := s.cadenceNow }
    if voted then s.sendVote ctx p.src true else s

/-! ## Suspicion and probes -/

/-- A monitor votes to expel its subject. -/
def State.castVote (s : State) (ctx : Nat) (dev : BitVec 20) : State :=
  (s.modWatched ctx dev fun w => { w with probes := [], voted := true }).sendVote ctx dev false

/-- SUSPICION (R309): 100 µs after the last heartbeat of a subject; probe requests go to its next 3 monitors. -/
def execSuspicion (ctx rank : Nat) (s : State) : Res :=
  .next (match s.cadence ctx, s.selfRank ctx, s.deviceOf ctx 0 rank with
    | some x, some me, some dev =>
      let now := s.cadenceNow
      let ms := monitorsOf (s.ring ctx) rank
      match x.watched.find dev.toNat with
      | none => s
      | some w =>
        if !ms.contains me || w.suspected.isSome || now < w.last + 100 * Config.cyclesPerUs || s.blocked s.cadenceDie dev then s
        else
          let devs := (((ms.dropWhile (· != me)).drop 1).take 3).filterMap (s.deviceOf ctx 0)
          let s := s.modWatched ctx dev fun w => { w with suspected := some now, probes := devs, alive := false }
          let s := devs.foldl (fun s x => s.cadenceSend ctx 0x0E x (dev.zeroExtend 32)) s
          if devs.isEmpty then s.castVote ctx dev else s
    | _, _, _ => s)

/-- A probe request: the subject answers it; a monitor asked to probe sends one to the subject. -/
def State.onProbe (s : State) (_d : Nat) (p : Fesel) : State :=
  let ctx := p.tctx.toNat
  let subject : BitVec 20 := field p.aux 0 20
  if (s.cadence ctx).isNone then s
  else if subject = s.devid then s.cadenceSend ctx 0x0F p.src (subject.zeroExtend 32)
  else (s.modContext ctx fun x => { x with relays := x.relays ++ [(subject, p.src)] }).cadenceSend ctx 0x0E subject
    (subject.zeroExtend 32)

/-- A probe reply: it is passed on to those who asked for the probe, and shows a suspected subject to be alive. -/
def State.onProbeReply (s : State) (_d : Nat) (p : Fesel) : State :=
  let ctx := p.tctx.toNat
  let subject : BitVec 20 := field p.aux 0 20
  match s.cadence ctx with
  | none => s
  | some x =>
    let ask := x.relays.filter fun y => y.1 == subject && p.src == subject
    let s := s.modContext ctx fun x => { x with relays := x.relays.filter fun y => !(y.1 == subject && p.src == subject) }
    let s := ask.foldl (fun s y => s.cadenceSend ctx 0x0F y.2 (subject.zeroExtend 32)) s
    match x.watched.find subject.toNat with
    | some w => if w.probes.contains p.src then s.modWatched ctx subject fun w => { w with alive := true } else s
    | none => s

/-- PROBE_TIMEOUT (R309): probes of a suspected subject have had no reply within 40 µs; with none that succeeded, a vote. -/
def execProbeTimeout (ctx rank : Nat) (s : State) : Res :=
  .next (match s.cadence ctx, s.deviceOf ctx 0 rank with
    | some x, some dev => match x.watched.find dev.toNat with
      | none => s
      | some w => match w.suspected with
        | none => s
        | some t =>
          if w.probes.isEmpty || s.cadenceNow < t + 40 * Config.cyclesPerUs then s
          else if w.alive then s.modWatched ctx dev fun w => { w with probes := [] }
          else s.castVote ctx dev
    | _, _ => s)

/-! ## Votes and verdicts (R309, R310) -/

/-- The lead sends a verdict for a subject that has the votes, one for each generation at most: to every member, with the new
generation. -/
def State.tryVerdict (s : State) (ctx : Nat) : State :=
  match s.cadence ctx with
  | none => s
  | some x =>
    let gen := (s.comm ctx 0).gen
    let ripe := x.votes.find? fun (n, vs) => monitorCount (s.ring ctx) / 2 + 1 ≤ vs.length
      && s.leadFor ctx (BitVec.ofNat 20 n) == some s.devid
    match ripe with
    | none => s
    | some (n, _) =>
      if x.verdict = some gen then s
      else
        let s := s.modContext ctx fun x => { x with verdict := some gen, votes := x.votes.erase n }
        ((s.ring ctx).filterMap (s.deviceOf ctx 0)).foldl (fun s dev =>
          s.cadenceSend ctx 0x11 dev (BitVec.ofNat 32 n) [(gen + 1).zeroExtend 64]) s

/-- A vote of a subject's monitor reaches the lead. -/
def State.onVote (s : State) (_d : Nat) (p : Fesel) : State :=
  let ctx := p.tctx.toNat
  let dev : BitVec 20 := field p.aux 0 20
  let voter := s.rankOf ctx 0 p.src
  match s.cadence ctx with
  | none => s
  | some x =>
    let vs := x.votes.get [] dev.toNat
    if p.aux.getLsbD 31 then s.modContext ctx fun x => { x with votes := SMap.set [] x.votes dev.toNat (vs.filter (· != voter)) }
    else if !(monitorsOf (s.ring ctx) (s.rankOf ctx 0 dev)).contains voter || s.deviceOf ctx 0 voter != some p.src then s
    else (s.modContext ctx fun x => { x with votes := x.votes.put dev.toNat (insertNat voter vs) }).tryVerdict ctx

/-- Every gateway adds a device to its block list (R308). -/
def State.block (s : State) (dev : BitVec 20) : State :=
  (upto s.dieCount).foldl (fun s d => s.modDie d fun k =>
    { k with blockList := if k.blockList.contains dev then k.blockList else k.blockList ++ [dev] }) s

/-- A verdict reaches a member. -/
def State.onVerdict (s : State) (_d : Nat) (p : Fesel) : State :=
  let dev : BitVec 20 := field p.aux 0 20
  (s.modContext p.tctx.toNat fun x => { x with
    watched := x.watched.erase dev.toNat, votes := x.votes.erase dev.toNat }).block dev

end Sys2Proof.Machine
end

