-- ==== Sys2Proof/Machine/Collect.lean ====
section
/-! DEFINITION. Collectives (R339 to R341). -/

namespace Sys2Proof.Machine

/-! ## The descriptor (Table 21-6) -/

/-- Word n of a descriptor. -/
def descWord (r : BitVec 512) (n : Nat) : Nat := recField r (32 * n) 32

def collOp (r : BitVec 512) : Nat := recField r 28 4
def collRop (r : BitVec 512) : Nat := recField r 24 4
def collComm (r : BitVec 512) : Nat := recField r 13 6
def collCount (r : BitVec 512) : Nat := descWord r 1
def collRoot (r : BitVec 512) : Nat := descWord r 2
def collSrc (r : BitVec 512) : W64 := r.extractLsb' 128 64
def collDst (r : BitVec 512) : W64 := r.extractLsb' 192 64

/-- The element types that an operation takes. -/
def collTypes (op : Nat) : List Ty := [.f32, .f16, .bf16, .i32, .n32] ++ (if 2 ≤ op then [.b32] else [])

def collTy (r : BitVec 512) : Ty := (Ty.ofCode (recField r 19 5)).getD .b32

/-- Bytes of an element. -/
def collElem (r : BitVec 512) : Nat := (collTy r).width / 8

/-- The conditions of R339 that raise SHAPE. -/
def collBad (r : BitVec 512) : Bool :=
  let op := collOp r
  3 < op || (if 2 ≤ op then 0 else 2) < collRop r
    || !((Ty.ofCode (recField r 19 5)).map (collTypes op).contains).getD false
    || recField r 0 13 != 0 || collCount r == 0 || 2 ^ 28 < collCount r || 2 ^ 20 ≤ collRoot r
    || (op != 3 && collRoot r != 0) || descWord r 3 != 0 || recField r 256 256 != 0

/-- What every rank's description must agree in (R340), as packets carry it. -/
def collSays (r : BitVec 512) : List (BitVec 64) :=
  [BitVec.ofNat 64 (descWord r 0), BitVec.ofNat 64 (collCount r), BitVec.ofNat 64 (collRoot r)]

/-! ## Contributions -/

/-- Ranks whose elements are used: the root of a broadcast, else the contributing ranks. -/
def Coll.givers (k : Coll) : List Nat :=
  let live := (k.ranks.filter fun x => !x.2).map Prod.fst
  if collOp k.desc = 3 then live.filter (· == collRoot k.desc) else live

/-- Bytes that a rank contributes. -/
def Coll.size (k : Coll) : Nat :=
  collCount k.desc * collElem k.desc * (if collOp k.desc = 1 then k.ranks.length else 1)

/-- Bytes of the destination. -/
def Coll.dstSize (k : Coll) : Nat :=
  collCount k.desc * collElem k.desc * (if collOp k.desc = 2 then k.ranks.length else 1)

/-- The bytes received from a rank, in order of offset. -/
def Coll.from_ (k : Coll) (rank : Nat) : List Byte :=
  let mine := k.got.filter fun x => x.1 == rank
  ((sortDedup (mine.map fun x => x.2.1)).flatMap fun o => match mine.find? fun x => x.2.1 == o with
    | some x => x.2.2
    | none => [])

/-- Ranks, in order of ordinal, from which something is still needed. -/
def Coll.missing (k : Coll) : List Nat := k.givers.filter fun r => (k.from_ r).length < k.size

/-- The format of a floating-point element. -/
def collFmt : Ty → Fmt
  | .f16 => fF16
  | .bf16 => fBF16
  | _ => fF32

/-- One step of a fold (R340). -/
def foldStep (t : Ty) (rop a b : Nat) : Nat :=
  let f := collFmt t
  if t.isFloat then (if rop = 0 then faddBits f .rne a b else fminmax f (rop == 2) a b)
  else if rop = 0 then (a + b) % 2 ^ 32
  else
    let le := if t = .i32 then (BitVec.ofNat 32 a).sle (BitVec.ofNat 32 b) else a ≤ b
    if le == (rop == 1) then a else b

/-- The first value of a fold; a NaN is the canonical one, since no reduction passes a payload on (R95, R96). -/
def foldFirst (t : Ty) (x : Nat) : Nat := if t.isFloat && ((collFmt t).decode x).isNan then (collFmt t).canonNan else x

/-- The fold of an element over the contributing ranks; +0 where there is none. -/
def foldAll (t : Ty) (rop : Nat) : List Nat → Nat
  | [] => 0
  | x :: xs => xs.foldl (foldStep t rop) (foldFirst t x)

/-- Element i of bytes. -/
def elemAt (es : Nat) (bs : List Byte) (i : Nat) : Nat := ofBytes ((bs.drop (es * i)).take es)

/-- What the destination receives (R340). -/
def Coll.output (k : Coll) : List Byte :=
  let es := collElem k.desc
  let cnt := collCount k.desc
  let fold := fun (base : Nat) =>
    let xs := k.givers.map k.from_
    (upto cnt).flatMap fun i => bytesOf es (foldAll (collTy k.desc) (collRop k.desc) (xs.map fun x => elemAt es x (base + i)))
  match collOp k.desc with
  | 0 => fold 0
  | 1 => fold ((places (fun (x : Nat × Bool) => x.1 == k.self) k.ranks).headD 0 * cnt)
  | 2 => k.ranks.flatMap fun (r, zc) => if zc then List.replicate (cnt * es) 0 else k.from_ r
  | _ => k.from_ (collRoot k.desc)

/-! ## How a collective ends -/

/-- A collective of a context, changed. -/
def State.modColl (s : State) (ctx comm seq : Nat) (f : Coll → Coll) : State :=
  s.modContext ctx fun x => { x with colls := x.colls.map fun k => if k.comm == comm && k.seq == seq then f k else k }

/-- It fails with a code and the rank concerned (R330, R340). -/
def State.failColl (s : State) (ctx : Nat) (k : Coll) (code : Code) (rank : Nat) : State :=
  (s.modColl ctx k.comm k.seq fun k => { k with result := some code }).remoteFail k.core k.slot k.lane ctx
    { code := code, pc := k.pc, peer := (k.comm, rank) }

/-- For whom a collective's accesses are made. -/
def Coll.master (k : Coll) (ctx : Nat) : Master := { core := k.core, slot := k.slot, lane := k.lane, ctx := ctx }

/-- The stores of a destination, element by element: those whose checks pass, and what first stops one. -/
def State.collStores (k : Coll) (ctx : Nat) : Nat → List Byte → State → List StoreReq × Option Stop × State
  | 0, _, s => ([], none, s)
  | n + 1, bs, s =>
    let es := collElem k.desc
    let i := (k.dstSize / es) - (n + 1)
    let va := collDst k.desc + BitVec.ofNat 64 (es * i)
    match s.engCheck (k.master ctx) va es .write true with
    | (.error x, s) =>
      let (qs, _, s) := State.collStores k ctx n (bs.drop es) s
      (qs, some x, s)
    | (.ok pa, s) =>
      let (id, s) := s.fresh
      let q : StoreReq :=
        { acc := { id := id, lane := k.lane, ctx := ctx, va := va, pa := pa, pc := k.pc, scope := .s, order := .relaxed,
                   policy := .normal },
          kind := .store (bs.take es) }
      let (qs, c, s) := State.collStores k ctx n (bs.drop es) s
      (q :: qs, c, s)

/-- The destination's stores are posted by the group (R54, R340). -/
def State.postColl (s : State) (ctx : Nat) (k : Coll) (qs : List StoreReq) : State :=
  let s := qs.foldl (fun s q => s.pushStore k.core k.slot q) s
  s.modColl ctx k.comm k.seq fun k => { k with stores := qs.map fun q => q.acc.id }

/-- A collective of a context. -/
def State.coll (s : State) (ctx comm seq : Nat) : Option Coll :=
  (s.context ctx).bind fun x => x.colls.find? fun k => k.comm == comm && k.seq == seq

/-- It completes once everything it needs has arrived and its source has been read; a store whose walk waits keeps it. -/
def State.tryColl (s : State) (ctx comm seq : Nat) : State :=
  match s.coll ctx comm seq with
  | none => s
  | some k =>
    if k.result.isSome || k.unread || !k.missing.isEmpty then s
    else match State.collStores k ctx (k.dstSize / collElem k.desc) (Coll.output k) s with
      | (_, some (.fault f), s) => s.failColl ctx k f.code k.self
      | (_, some _, _) => s
      | (qs, none, s) => (s.postColl ctx k qs).modColl ctx comm seq fun k => { k with result := some 0 }

/-- A newer generation is adopted before it completes (R340): it fails with GEN, and its destination holds undefined values. -/
def State.staleColl (s : State) (ctx : Nat) (k : Coll) : State :=
  let n := k.dstSize
  let bs := (upto n).map fun i => Config.freeByte (s.free + i)
  let (qs, _, s) := State.collStores k ctx (n / collElem k.desc) bs { s with free := s.free + n }
  (s.postColl ctx k qs).failColl ctx k cGEN k.self

/-- No packet of it has arrived for the response timeout, or that time has passed since a pre-emption began (R57, R340); the rank recorded
is the first other one from which something is missing. One that has sent no packet yet is named by the fid that its die uses next (log 47). -/
def State.timeoutColls (s : State) (d : Nat) (fid : BitVec 32) : State :=
  let now := (s.die d).cycle
  s.contexts.foldl (fun s (ctx, x) =>
    (x.colls.filter fun k => k.die == d && k.fid.getD (s.die d).fid == fid && k.result.isNone
        && (k.last + x.timeout ≤ now || k.limit.any (· ≤ now))).foldl
      (fun s k => s.failColl ctx k cREMOTE ((k.missing.filter (· != k.self)).headD k.self)) s) s

/-! ## Packets -/

/-- A collective's packet reaches its collective, one of its own generation (R305, R340), or waits for it to be issued: a number less than
half of all ahead of the next (log 47). -/
def State.onCollData (s : State) (d : Nat) (p : Fesel) : State :=
  let ctx := p.tctx.toNat
  let comm := p.comm.toNat % 64
  let seq := p.aux.toNat % 2 ^ 26
  match s.context ctx with
  | none => s
  | some x => match x.colls.find? fun k => k.comm == comm && k.seq == seq && k.gen == p.gen with
    | none =>
      if (seq + 2 ^ 26 - (x.comm comm).seq) % 2 ^ 26 < 2 ^ 25 then
        s.modContext ctx fun x => { x with early := x.early ++ [(d, p)] }
      else s
    | some k =>
      if k.result.isSome then s
      else
        let r := s.rankOf ctx comm p.src
        let s := s.modColl ctx comm seq fun k => { k with last := (s.die k.die).cycle }
        if s.deviceOf ctx comm r != some p.src || !(k.ranks.any fun x => x.1 == r) then s
        else if p.extra != collSays k.desc then s.failColl ctx k cREMOTE r
        else
          let off := p.vaddr.toNat
          let s := s.modColl ctx comm seq fun k => { k with
            got := k.got ++ [(r, off, p.payload.take (Nat.min 4096 (k.size - off)))] }
          s.tryColl ctx comm seq

/-- Send a contribution to a rank in packets of up to 4,096 bytes, one without payload where there is nothing to contribute. -/
def State.sendColl (s : State) (ctx : Nat) (k : Coll) (rank : Nat) (bs : List Byte) : Option State :=
  match s.deviceOf ctx k.comm rank with
  | none => some s
  | some dev =>
    (upto (Nat.max 1 (ceilDiv bs.length 4096))).foldl (fun s i => s.bind fun s =>
      let part := (bs.drop (4096 * i)).take 4096
      let p := { s.fesel ctx k.comm 0x0C dev with
        vaddr := BitVec.ofNat 64 (4096 * i), aux := BitVec.ofNat 32 k.seq, payload := padTo (64 * ceilDiv part.length 64) part,
        extra := collSays k.desc }
      (s.sendNew ctx k.die p).map fun (fid, s) =>
        s.modColl ctx k.comm k.seq fun k => { k with fid := if k.fid.isSome then k.fid else some fid }) (some s)

/-- Send this package's contribution to every other rank; the failure names the first rank that cannot be reached. -/
def State.sendColls (s : State) (ctx : Nat) (k : Coll) (bs : List Byte) : List Nat → State
  | [] => s
  | r :: rs => match s.sendColl ctx k r bs with
    | some s => s.sendColls ctx k bs rs
    | none => s.failColl ctx k cREMOTE r

/-! ## COLL and CWAIT -/

/-- Read a range as a copy reads it (R188, R340), element by element. -/
def State.collRead (m : Master) (es : Nat) : Nat → W64 → State → Except Stop (List Byte) × State
  | 0, _, s => (.ok [], s)
  | n + 1, va, s => match s.engRead m va es with
    | (.error x, s) => (.error x, s)
    | (.ok bs, s) => match State.collRead m es n (va + BitVec.ofNat 64 es) s with
      | (.error x, s) => (.error x, s)
      | (.ok xs, s) => (.ok (bs ++ xs), s)

/-- Early packets of a collective that has now been issued. -/
def State.takeEarly (s : State) (ctx comm seq : Nat) : State :=
  let gen := (s.comm ctx comm).gen
  let mine := fun (x : Nat × Fesel) => x.2.comm.toNat % 64 == comm && x.2.aux.toNat % 2 ^ 26 == seq && x.2.gen == gen
  let ps := (((s.context ctx).getD {}).early).filter mine
  let s := s.modContext ctx fun x => { x with early := x.early.filter fun y => !mine y }
  ps.foldl (fun s (d, p) => s.onCollData d p) s

/-- The bytes that a collective reads from its source: none at a rank that contributes nothing. -/
def State.collSource (s : State) (ctx : Nat) (k : Coll) : Except Stop (List Byte) × State :=
  let es := collElem k.desc
  if k.givers.contains k.self then State.collRead (k.master ctx) es (k.size / es) (collSrc k.desc) s else (.ok [], s)

/-- The accesses of a collective's group that precede it have been performed (R188). -/
def State.collTurn (s : State) (k : Coll) : Bool := (s.group k.core k.slot).sq.all fun q => k.after ≤ q.acc.id

/-- A collective goes on as far as it can: in its turn it reads its source and sends its contribution, unless a walk or a stack makes it
wait; and it completes once it has everything (R188, R340). -/
def State.collGo (s : State) (ctx comm seq : Nat) : State :=
  match s.coll ctx comm seq with
  | none => s
  | some k =>
    if k.result.isSome || !s.collTurn k then s
    else if !k.unread then s.tryColl ctx comm seq
    else match s.collSource ctx k with
      | (.error (.fault x), s) => s.failColl ctx k x.code k.self
      | (.error _, _) => s
      | (.ok bs, s) =>
        let s := s.modColl ctx comm seq fun q => { q with
          unread := false, got := if k.givers.contains k.self then (k.self, 0, bs) :: q.got else q.got }
        (s.sendColls ctx k bs ((k.ranks.map Prod.fst).filter (· != k.self))).tryColl ctx comm seq

/-- Every collective goes on as far as it can. -/
def State.collsGo (s : State) : State :=
  s.contexts.foldl (fun s (ctx, x) => (x.colls.filter fun k => k.result.isNone).foldl (fun s k => s.collGo ctx k.comm k.seq) s) s

/-- A collective as COLL makes it, under its number. -/
def State.newColl (s : State) (e : Env) (n : Nat) (r : BitVec 512) : Coll :=
  let c := s.comm e.g.ctx (collComm r)
  let (ranks, self) := match c.adopted with
    | some t => ((places RankEntry.valid t.ranks).map fun i => (i, (t.ranks[i]?.map RankEntry.zc).getD false), t.self.toNat)
    | none => ([], 0)
  { comm := collComm r, seq := c.seq, die := dieOf e.core, core := e.core, slot := e.slot, lane := n, launch := e.g.launch, pc := e.pc,
    desc := r, gen := c.gen, ranks := ranks, self := self, last := (s.die (dieOf e.core)).cycle, unread := true, after := s.nextId }

/-- It takes part: its own rank is a valid one, and the root of a broadcast contributes (R340). -/
def Coll.takesPart (k : Coll) : Bool := k.ranks.any (fun x => x.1 == k.self) && !(collOp k.desc == 3 && k.givers.isEmpty)

/-- A collective starts (R340): its number and handle; then it goes on with the packets that came early and its own contribution. -/
def State.startColl (s : State) (e : Env) (n : Nat) (f : EF) (r : BitVec 512) : State :=
  let ctx := e.g.ctx
  let k := s.newColl e n r
  let s := (s.modComm ctx k.comm fun c => { c with seq := (k.seq + 1) % 2 ^ 26 }).nibD e f.d
    [BitVec.ofNat 32 (k.comm * 2 ^ 26 + k.seq)]
  let s := s.modContext ctx fun x => { x with
    colls := (x.colls.filter fun q => q.comm != k.comm || q.result.isNone || (k.seq + 2 ^ 26 - q.seq) % 2 ^ 26 < 256) ++ [k] }
  if k.takesPart then (s.takeEarly ctx k.comm k.seq).collGo ctx k.comm k.seq else s.failColl ctx k cREMOTE k.self

/-- COLL (R339, R340). -/
def execColl (h : Hdr) (f : EF) (s : State) : Res :=
  s.nibIssue (.coll h f) h fun e n s =>
    let va := e.addrA n f
    if va.toNat % 64 != 0 then s.nibFault e n cALIGN va
    else s.afterRecords e [(va, 64)] fun s => match s.readRecord e.core e.slot e.g.ctx va 64 with
      | .error (c, a) => s.nibFault e n c a
      | .ok bs =>
        let r := recOf bs
        let comm := collComm r
        if collBad r then s.nibFault e n cSHAPE
        else if (collSrc r).toNat % collElem r != 0 then s.nibFault e n cALIGN (collSrc r)
        else if (collDst r).toNat % collElem r != 0 then s.nibFault e n cALIGN (collDst r)
        else if !s.meets e (.collRoom comm) then s.waitAt e e.lanes (.collRoom comm)
        else s.startColl e n f r

/-- CWAIT (R341): an acquire of scope .S once the collective has ended. -/
def execCwait (h : Hdr) (f : EF) (s : State) : Res :=
  s.nibIssue (.cwait h f) h fun e n s =>
    let w := (e.src32 n f.b).toNat
    let comm := w / 2 ^ 26
    let seq := w % 2 ^ 26
    let x := (s.context e.g.ctx).getD {}
    match x.colls.find? fun k => k.comm == comm && k.seq == seq with
    | none => s.nibD e f.d [0x0D]
    | some k =>
      if 256 ≤ ((x.comm comm).seq + 2 ^ 26 - 1 - seq) % 2 ^ 26 then s.nibD e f.d [0x0D]
      else if !s.meets e (.coll comm seq) then s.waitAt e e.lanes (.coll comm seq)
      else (s.acquire e.core .s).nibD e f.d [(k.result.getD 0).zeroExtend 32]

end Sys2Proof.Machine
end

