-- ==== Sys2Proof/Machine/Third.lean ====
section
/-! DEFINITION. Third-party reads, landing windows and tracing views (R311 to R317, R334 to R338, R344, R345). -/

namespace Sys2Proof.Machine

/-! ## Plans (R312, Table 19-9) -/

/-- Bytes of a stripe. -/
def stripeBytes : Nat := 2 ^ 22

def planComm (ws : List W32) : Nat := natBits (pw ws 0) 31 16
def planGen (ws : List W32) : BitVec 16 := BitVec.ofNat 16 (natBits (pw ws 0) 15 0)
def planDonors (ws : List W32) : Nat := natBits (pw ws 2) 31 28
def planRegions (ws : List W32) : Nat := natBits (pw ws 2) 11 0

/-- Offset and length of a region. -/
def regOff (ws : List W32) (j : Nat) : Nat := pw64 ws (16 + 8 * j)
def regLen (ws : List W32) (j : Nat) : Nat := pw64 ws (18 + 8 * j)

/-- Stripes of a plan. -/
def planStripes (ws : List W32) : Nat :=
  ((upto (planRegions ws)).map fun j => ceilDiv (regLen ws j) stripeBytes).foldl (· + ·) 0

/-- A stripe: its offset in the views, length, window and offset there; `j` is the region at which to look, of `n` left. -/
def stripeFrom (ws : List W32) : (n j k : Nat) → Nat × Nat × Nat × Nat
  | 0, _, _ => (0, 0, 0, 0)
  | n + 1, j, k =>
    let m := ceilDiv (regLen ws j) stripeBytes
    if k < m then
      let o := k * stripeBytes
      (regOff ws j + o, Nat.min stripeBytes (regLen ws j - o), natBits (pw ws (20 + 8 * j)) 31 24, pw64 ws (21 + 8 * j) + o)
    else stripeFrom ws n (j + 1) (k - m)

/-- The conditions of R334 that raise SHAPE. -/
def planBad (ws : List W32) (first count : Nat) : Bool :=
  planDonors ws == 0 || 8 < planDonors ws || planRegions ws == 0 || 63 < planComm ws
    || natBits (pw ws 1) 31 20 != 0 || natBits (pw ws 2) 27 12 != 0 || pw ws 3 != 0
    || (upto 8).any (fun i => natBits (pw ws (4 + i)) 23 20 != 0) || (upto 4).any (fun i => pw ws (12 + i) != 0)
    || (upto (planRegions ws)).any (fun j => regOff ws j % 65536 != 0 || regLen ws j % 65536 != 0 || regLen ws j == 0
        || natBits (pw ws (20 + 8 * j)) 23 0 != 0 || pw ws (23 + 8 * j) != 0)
    || planStripes ws < first + count

/-! ## RRD3 (R334, R335) -/

/-- The 64-bit value of an s pair field. -/
def Env.spair (e : Env) (f : EF) : W64 := pairVal (e.g.rs (2 * f.spair.val)) (e.g.rs (2 * f.spair.val + 1))

/-- The words of bytes. -/
def wordsIn (bs : List Byte) : List W32 :=
  (upto (bs.length / 4)).map fun i => BitVec.ofNat 32 (ofBytes ((bs.drop (4 * i)).take 4))

/-- An RRD3 passes its checks: a name, a place at the join engine, and a copy of the nib lane. One of no stripes completes at
issue. -/
def State.startRrd3 (s : State) (e : Env) (n : Nat) (plan : List W32) (first count : Nat) (status : W64) : State :=
  let (seq, s) := s.nextSeq e.core
  if count = 0 then s
  else
    let (id, s) := s.fresh
    let k : Cmd := { kind := .rrd3, seq := seq, slot := e.slot, place := e.g.place.getD 0, lane := n, ctx := e.g.ctx,
                     launch := e.g.launch, pc := e.pc, after := id, list := status, count := count }
    let s := s.modCore e.core fun x => { x with cmds := x.cmds ++ [k] }
    let s := s.modLane e.core e.slot n fun l => { l with unsealed := l.unsealed ++ [seq.toNat] }
    s.modDie (dieOf e.core) fun d => { d with joinQ := d.joinQ ++
      [{ core := e.core, seq := seq, slot := e.slot, lane := n, ctx := e.g.ctx, pc := e.pc, plan := plan, first := first,
         count := count, next := first, status := status }] }

/-- The plan of an RRD3, whose header says how many regions follow it, or the faults of the reads. -/
def State.readPlan (s : State) (e : Env) (va : W64) : Except (Code × W64) (List W32) :=
  match s.readRecord e.core e.slot e.g.ctx va 64 with
  | .error x => .error x
  | .ok hd => match s.readRecord e.core e.slot e.g.ctx (va + 64) (32 * planRegions (wordsIn hd)) with
    | .error x => .error x
    | .ok bd => .ok (wordsIn (hd ++ bd))

/-- The records that an RRD3 reads: its header, and the regions that follow. -/
def State.planParts (s : State) (e : Env) (va : W64) : List (W64 × Nat) :=
  (va, 64) :: match s.readRecord e.core e.slot e.g.ctx va 64 with
    | .error _ => []
    | .ok hd => [(va + 64, 32 * planRegions (wordsIn hd))]

/-- Do what follows a check of a range: the PC set waits while the walk of one of its pages does (R163). -/
def State.afterWalks (s : State) (e : Env) (va : W64) (n : Nat) (k : State → State) : State :=
  match (pageStarts (n / 65536 + 2) va n).find? fun a => s.walkWaits e.core e.g.ctx a with
  | some a => s.waitAt e e.lanes (.reach a 0)
  | none => k ((pageStarts (n / 65536 + 2) va n).foldl (fun s a => (s.coreXlate e.core e.g.ctx a).2) s)

/-- RRD3 (R334, R335). -/
def execRrd3 (h : Hdr) (f : EF) (s : State) : Res :=
  s.nibIssue (.rrd3 h f) h fun e n s =>
    let va := e.addrA n f
    let count := (e.src32 n f.d).toNat
    let first := (e.src32 n f.b).toNat
    if va.toNat % 64 != 0 then s.nibFault e n cALIGN va
    else s.afterRecords e (s.planParts e va) fun s => s.afterWalks e (e.spair f) count fun s =>
      let status := s.coreRange e.core e.g.ctx { w := true } (e.slot == 63) (e.spair f) count
      match firstOf [faultOf (s.readPlan e va), faultOf status], s.readPlan e va with
      | some (c, a), _ => s.nibFault e n c a
      | none, .error _ => s
      | none, .ok plan =>
        if planBad plan first count then s.nibFault e n cSHAPE
        else if (s.comm e.g.ctx (planComm plan)).gen != planGen plan then s.nibFault e n cGEN
        else if !s.meets e .joinRoom then s.waitAt e e.lanes .joinRoom
        else s.startRrd3 e n plan first count (e.spair f)

/-! ## Stripes at the lead (R312 to R314, R335) -/

/-- The command of a stripe. -/
def State.joinCmd (s : State) (d : Nat) (x : Stripe) : Option JCmd :=
  (s.die d).joinQ.find? fun j => j.core == x.core && j.seq == x.seq

/-- A stripe has ended: a failure is recorded against its donor (R330), and a command whose stripes have all ended completes. -/
def State.stripeOver (s : State) (d : Nat) (x : Stripe) (j : JCmd) (code : Code) (addr : W64) : State :=
  let s := s.modDie d fun k => { k with stripes := k.stripes.filter fun y => y.fid != x.fid }
  let s := s.forgetSent d x.fid
  let s := if code = 0 then s else
    s.remoteFail j.core j.slot j.lane j.ctx
      { code := code, addr := addr, pc := j.pc, seq := j.seq, eng := true,
        peer := (planComm j.plan, s.rankOf j.ctx (planComm j.plan) x.donor) }
  let mine := fun (q : JCmd) => q.core == j.core && q.seq == j.seq
  if j.ended + 1 < j.count then
    s.modDie d fun k => { k with joinQ := k.joinQ.map fun q => if mine q then { q with ended := q.ended + 1 } else q }
  else
    (s.modDie d fun k => { k with joinQ := k.joinQ.filter fun q => !mine q }).modCmd j.core j.seq fun q => { q with done := true }

/-- A stripe ends with a code: its status byte is written, and then it ends (R335). A byte that its stack holds is written later. -/
def State.endStripe (s : State) (d : Nat) (x : Stripe) (code : Code) : State :=
  match s.joinCmd d x with
  | none => s.modDie d fun k => { k with stripes := k.stripes.filter fun y => y.fid != x.fid }
  | some j =>
    let va := j.status + BitVec.ofNat 64 (x.stripe - j.first)
    let m : Master := { core := j.core, slot := j.slot, lane := j.lane, ctx := j.ctx, die := some d,
                        old := ((s.cmd j.core j.seq.toNat).map Cmd.old).getD [] }
    match s.engWrite m va 1 false fun _ => [code] with
    | (.ok _, s) => s.stripeOver d x j code va
    | (.error (.fault f), s) =>
      (s.deliver j.core j.slot { lane := j.lane, f := { f with eng := true, pc := j.pc, seq := j.seq } }).stripeOver d x j code va
    | (.error _, s) => s.modDie d fun k => { k with
        stripes := k.stripes.map fun y => if y.fid == x.fid then { y with result := some code } else y }

/-- The next stripe of a command leaves (R313 step 1): it fails with GEN when the communicator has adopted another generation
(R314), and with REMOTE when no port is up. -/
def State.issueStripe (s : State) (d : Nat) (j : JCmd) : State :=
  let w := pw j.plan (4 + j.next % planDonors j.plan)
  let donor := BitVec.ofNat 20 w
  let (voff, len, win, woff) := stripeFrom j.plan (planRegions j.plan) 0 j.next
  let x : Stripe := { fid := (s.die d).fid, core := j.core, seq := j.seq, stripe := j.next, donor := donor, sent := (s.die d).cycle }
  let p : Fesel := { s.fesel j.ctx (planComm j.plan) 0x07 donor with
    vaddr := BitVec.ofNat 64 voff, aux := BitVec.ofNat 32 j.next,
    extra := [natBits w 31 24, len, natBits (pw j.plan 1) 19 0, win, woff].map (BitVec.ofNat 64) }
  let s := s.modDie d fun k => { k with joinQ := k.joinQ.map fun q =>
    if q.core == j.core && q.seq == j.seq then { q with next := q.next + 1 } else q }
  if (s.comm j.ctx (planComm j.plan)).gen != planGen j.plan then
    (s.modDie d fun k => { k with fid := k.fid + 1, stripes := k.stripes ++ [x] }).endStripe d x cGEN
  else match s.sendNew j.ctx d p with
    | some (_, s) => s.modDie d fun k => { k with stripes := k.stripes ++ [x] }
    | none => (s.modDie d fun k => { k with fid := k.fid + 1, stripes := k.stripes ++ [x] }).endStripe d x cREMOTE

/-- A status byte waits still: for its walk (R163), or for the stack that holds it (R325). -/
def State.statusHeld (s : State) (d : Nat) (j : JCmd) (x : Stripe) : Bool :=
  let va := j.status + BitVec.ofNat 64 (x.stripe - j.first)
  s.walkWaits j.core j.ctx va || match s.mapped j.core j.ctx va with
    | .ok (pa, _) => s.linked d (homeDie pa) && s.writeWaits pa 1
    | .error _ => false

/-- STRIPE_ISSUE (R312): a status byte that waited is written, or the next stripe is issued when fewer than 16 are in flight; a
frozen join engine issues none (R371). -/
def execStripeIssue (die : Nat) (s : State) : Res :=
  .next (let k := s.die die
    match k.stripes.find? fun x => x.result.isSome && match s.joinCmd die x with
      | some j => !s.statusHeld die j x
      | none => true with
    | some x => s.endStripe die x (x.result.getD 0)
    | none =>
      if k.joinFrozen || 16 ≤ k.stripes.length || s.power != .l0 then s
      else match k.joinQ.find? fun j => j.next < j.first + j.count with
        | some j => s.issueStripe die j
        | none => s)

/-- An XCN or XER is for a stripe: of the context that it names, under its fid and number (R374, Table 19-6). -/
def State.answersStripe (s : State) (d : Nat) (p : Fesel) (x : Stripe) : Bool :=
  x.fid == p.fid && x.stripe == p.aux.toNat && x.result.isNone && (s.joinCmd d x).any fun j => j.ctx == p.tctx.toNat

/-- An XCN or XER reaches the lead (R313 step 7, R335). -/
def State.onStripeEnd (s : State) (d : Nat) (p : Fesel) : State :=
  match (s.diesFrom d).findSome? fun k => ((s.die k).stripes.find? (s.answersStripe k p)).map fun x => (k, x) with
  | none => s
  | some (k, x) => s.endStripe k x (if p.kind = 0x09 then 0 else if p.code = 0 then cREMOTE else p.code)

/-- No answer to a stripe within the response timeout (R335). -/
def State.timeoutStripe (s : State) (d : Nat) (fid : BitVec 32) : State :=
  match (s.die d).stripes.find? fun x => x.fid == fid && x.result.isNone with
  | none => s
  | some x =>
    let ctx := match s.joinCmd d x with
      | some j => j.ctx
      | none => 0
    if (s.die d).cycle < x.sent + s.timeout ctx then s else s.endStripe d x cREMOTE

/-! ## Donors (R313 steps 2 to 4) -/

/-- A GNT reaches a donor, which keeps the grant. -/
def State.onGrant (s : State) (d : Nat) (p : Fesel) : State :=
  let win := natBits p.aux.toNat 31 24
  let s := { s with dies := s.dies.map fun (x : Nat × Die) =>
    (x.1, { x.2 with grants := x.2.grants.filter fun g => !(g.ctx == p.tctx.toNat && g.spare == p.src && g.window == win) }) }
  s.modDie d fun k => { k with grants := k.grants ++
    [{ ctx := p.tctx.toNat, spare := p.src, window := win, lead := field p.aux 0 20, gen := p.gen, comm := p.comm.toNat }] }

/-- The grant of a spare's window that the package keeps for a context. -/
def State.grantOf (s : State) (ctx : Nat) (spare : BitVec 20) (win : Nat) : Option Grant :=
  s.dies.findSome? fun (_, k) => k.grants.find? fun g => g.ctx == ctx && g.spare == spare && g.window == win

/-- Part i of what an XRQ names beside Table 19-6: view, length, spare, window, window offset. -/
def xpart (p : Fesel) (i : Nat) : Nat := (p.extra[i]?.getD 0).toNat

/-- An XDT of a stripe: its window offset, code and bytes. -/
def State.xdt (s : State) (ctx : Nat) (p : Fesel) (woff : Nat) (code : Code) (bs : List Byte) : Fesel :=
  { s.fesel ctx p.comm.toNat 0x08 (BitVec.ofNat 20 (xpart p 2)) with
    fid := p.fid, vaddr := BitVec.ofNat 64 woff, code := code, aux := BitVec.ofNat 32 (xpart p 3 * 2 ^ 24 + p.src.toNat),
    payload := bs, extra := [BitVec.ofNat 64 (xpart p 1), p.aux.zeroExtend 64] }

/-- A stripe fails at the donor: an XER to the lead, and a poisoned arrival to the spare. -/
def State.failXrq (s : State) (d ctx : Nat) (p : Fesel) (code : Code) : State :=
  let s := s.answer ctx d { s.fesel ctx p.comm.toNat 0x0A p.src with fid := p.fid, aux := p.aux, code := code }
  s.answer ctx d (s.xdt ctx p (xpart p 4) code [])

/-- Bytes at a physical address, read under a virtual one, have another tag than its pointer's (R166). -/
def State.viewTag (s : State) (ctx : Nat) (va : W64) (pa n : Nat) : Bool :=
  match s.walk ctx va with
  | .ok (_, e, _) => s.tagOn ctx e && (blocks 64 pa n).any fun g => !s.tagMatch ctx (ptrTag va) (tagOf (s.metaAt (64 * g)))
  | .error _ => false

/-- The address at which a view's bytes are read (Table 19-11): in the pool once their chunk is preserved; none while it is copied. -/
def View.source (v : View) (off : Nat) : Option W64 :=
  match v.state.find (off / 65536) with
  | some (.copying _) => none
  | some (.preserved slot) => some (v.pool + BitVec.ofNat 64 (65536 * slot + off % 65536))
  | none => some (v.base + BitVec.ofNat 64 off)

/-- The chunk of a view's bytes is Clean: they are read from live memory. -/
def View.live (v : View) (off : Nat) : Bool := (v.state.find (off / 65536)).isNone

/-- Where a view's bytes stand, by the walks of its owner's die: their physical address, the code of a fault, or none while they must
wait. They are read on the die that homes them (R313), which the owner's must reach (R298). -/
def State.viewAddr (s : State) (v : View) (off n : Nat) : Except (Option Code) Nat :=
  if v.lost then .error (some cVIEWLOST)
  else match View.source v off with
    | none => .error none
    | some va =>
      if s.walkerWaits v.die v.ctx va then .error none
      else match s.walkAs v.die v.ctx va with
        | .error c => .error (some c)
        | .ok (pa, e, _) =>
          if View.live v off && !rightsOk va e { r := true } false then .error (some cPERM)
          else if s.viewTag v.ctx (v.base + BitVec.ofNat 64 off) pa n then .error (some cTAG)
          else if !s.linked v.die (homeDie pa) then .error (some cREMOTE)
          else if s.bad pa n then .error (some cECC)
          else if s.held pa && !s.homeHit pa n then .error (if s.overdue (stackOf pa) then some cTHERM else none)
          else .ok pa

/-- The walk for a view's bytes reads its tables (R163). -/
def State.viewWalked (s : State) (v : View) (off : Nat) : State :=
  match View.source v off with
  | some va => s.rangeWalked v.die v.ctx va 1
  | none => s

/-- The codewords of a view's bytes are read where they stand (R321). -/
def State.readView (s : State) (v : View) (off n : Nat) : State :=
  match (View.source v off).map (s.walk v.ctx) with
  | some (.ok (pa, _, _)) => s.readArray pa n
  | _ => s

/-- The die that homes a view's bytes; the owner's where they have no place. -/
def State.viewHome (s : State) (v : View) (off : Nat) : Nat :=
  match (View.source v off).map (s.walk v.ctx) with
  | some (.ok (pa, _, _)) => homeDie pa
  | _ => v.die

/-- Send a stripe's XDTs in ascending offset, each through the gateway of the die that homes its bytes and port k modulo 8, as far
as they can be read; the read that still waits, where one does. A view of which a page was remapped, or whose pool software has accessed,
gives free values (R315, R344). -/
def State.sendXdts (n : Nat) : Nat → State → ViewRead → State × Option ViewRead
  | 0, s, _ => (s, none)
  | fuel + 1, s, r =>
    let p := r.pkt
    let o := 4096 * r.next
    match s.views.find n with
    | none => (s.failXrq r.die p.tctx.toNat p cVIEWLOST, none)
    | some v =>
      if xpart p 1 ≤ o then (s, none)
      else
        let k := Nat.min 4096 (xpart p 1 - o)
        let off := p.vaddr.toNat + o
        if (s.viewRemapped v || v.spoiled) && !v.lost then
          let bs := (upto k).map fun i => Config.freeByte (s.free + i)
          let s : State := { s with free := s.free + k }
          let s := (s.send v.ctx (s.viewHome v off) (r.next % 8) (s.xdt v.ctx p (xpart p 4 + o) 0 bs)).getD s
          State.sendXdts n fuel s { r with next := r.next + 1 }
        else
        match s.viewAddr v off k with
        | .error none => (s, some r)
        | .error (some c) =>
          let s := s.viewWalked v off
          let s := if c = cECC then s.readView v off k else s
          (s.failXrq r.die v.ctx p c, none)
        | .ok pa =>
          let s := (s.viewWalked v off).homeLoad pa k .normal
          let (bs, s) := if View.live v off then s.softRead pa (s.bytes pa k) else (s.bytes pa k, s)
          let s := (s.send v.ctx (homeDie pa) (r.next % 8) (s.xdt v.ctx p (xpart p 4 + o) 0 bs)).getD s
          State.sendXdts n fuel s { r with next := r.next + 1 }

/-- Every stripe that a view is being read for goes on as far as it can. -/
def State.serveView (s : State) (n : Nat) : State :=
  match s.views.find n with
  | none => s
  | some v =>
    let s := { s with views := s.views.put n { v with reads := [] } }
    v.reads.foldl (fun s r => match State.sendXdts n 1025 s r with
      | (s, none) => s
      | (s, some r) => { s with views := s.views.modify n fun v => { v with reads := v.reads ++ [r] } }) s

/-- An XRQ reaches its donor. A view of another context than the one that the packet is for is refused as one without a grant (log 78);
what the donor sends is of the packet's context (R374). -/
def State.onXrq (s : State) (d : Nat) (p : Fesel) : State :=
  let n := xpart p 0
  let gen := (s.comm p.tctx.toNat (p.comm.toNat % 64)).gen
  match s.views.find n with
  | none => s.failXrq d p.tctx.toNat p cVIEWLOST
  | some v =>
    if v.ctx != p.tctx.toNat || !v.grants.contains p.src || 65536 * v.chunks < p.vaddr.toNat + xpart p 1 then
      s.failXrq d p.tctx.toNat p cPERM
    else match s.grantOf v.ctx (BitVec.ofNat 20 (xpart p 2)) (xpart p 3) with
      | none => s.failXrq d v.ctx p cPERM
      | some g =>
        if g.lead != p.src then s.failXrq d v.ctx p cPERM
        else if g.gen != p.gen || g.gen != gen then s.failXrq d v.ctx p cGEN
        else State.serveView { s with views := s.views.put n { v with reads := v.reads ++ [{ die := d, pkt := p }] } } n

/-- A copy of 64 KiB needs a stack that holds some of its bytes. -/
def State.blockHeld (s : State) (p : Nat) : Bool := (blocks 512 p 65536).any fun b => s.held (512 * b) && !s.homeHit (512 * b) 512

/-- The copy of a chunk waits for a stack that holds some of its bytes, or of its slot's (R325). -/
def State.chunkHeld (s : State) (view chunk : Nat) : Bool :=
  (s.views.find view).any fun v => (match s.walk v.ctx (v.base + BitVec.ofNat 64 (65536 * chunk)) with
    | .ok (p, _, _) => s.blockHeld p
    | .error _ => false) || match v.state.find chunk with
      | some (.copying slot) => (s.poolAddr v slot).any s.blockHeld
      | _ => false

/-- CHUNK_COPY_END (R316): the chunk's copy stands in the pool, and the reads that waited go on. -/
def execChunkCopyEnd (view chunk : Nat) (s : State) : Res :=
  .next (if s.chunkHeld view chunk then s
    else
      let (s, ev) := s.chunkCopied view chunk
      (s.postEvents ev).serveView view)

/-! ## The spare (R313 steps 5 and 6, R336 to R338) -/

def State.window (s : State) (ctx n : Nat) : Option Window := (s.context ctx).bind fun x => x.windows.find n

def State.modWindow (s : State) (ctx n : Nat) (f : Window → Window) : State :=
  s.modContext ctx fun x => { x with windows := x.windows.put n (f (x.windows.get {} n)) }

/-- An event on a window's barrier, where its team is resident. -/
def State.windowBar (s : State) (ctx : Nat) (w : Window) (f : Barrier → Barrier) : State :=
  match (s.core w.core).placeOf ctx w.launch w.lin with
  | some p => s.barEvent w.core p w.bar f
  | none => s

/-- The epoch of a window's barrier. -/
def State.windowEpoch (s : State) (ctx : Nat) (w : Window) : BitVec 16 :=
  match (s.core w.core).placeOf ctx w.launch w.lin with
  | some p => ((s.team w.core p).bar w.bar).epoch
  | none => 0

/-- The stripe of an XDT among those that a window has seen; a new one takes the barrier's present epoch (R337). -/
def State.landing (s : State) (ctx : Nat) (w : Window) (p : Fesel) : Landing :=
  (w.stripes.find? fun x => x.lead == field p.aux 0 20 && x.fid == p.fid).getD
    { lead := field p.aux 0 20, fid := p.fid, epoch := s.windowEpoch ctx w, len := xpart p 0, stripe := xpart p 1 }

/-- A stripe's record put into its window. -/
def Window.put (w : Window) (x : Landing) : Window :=
  { w with stripes := (w.stripes.filter fun y => !(y.lead == x.lead && y.fid == x.fid)) ++ [x] }

/-- An XER from the spare to a stripe's lead. -/
def State.spareXer (s : State) (d ctx comm : Nat) (x : Landing) (code : Code) : State :=
  s.answer ctx d { s.fesel ctx comm 0x0A x.lead with fid := x.fid, aux := BitVec.ofNat 32 x.stripe, code := code }

/-- An XDT is discarded and counted, and its stripe's first XER is sent (R313 step 5). -/
def State.discardXdt (s : State) (d : Nat) (p : Fesel) (code : Code) : State :=
  let ctx := p.tctx.toNat
  let n := natBits p.aux.toNat 31 24
  let w := (s.window ctx n).getD {}
  let x := s.landing ctx w p
  let s := s.modWindow ctx n fun w => ({ w with discarded := if w.isOpen then satInc w.discarded else w.discarded }).put
    { x with xer := true }
  if x.xer then s else s.spareXer d ctx (p.comm.toNat % 64) x code

/-- What a landing meets after the causes of Table 19-10a: a link from the gateway's die to that of the window's barrier that is down
(R298), or what a remote write meets there. -/
def State.landingFault (s : State) (d ctx : Nat) (w : Window) (va : W64) (ps : List (Nat × Nat)) : Option Code :=
  if !s.linked d (dieOf w.core) then some cREMOTE else s.ingressFault d ctx va .write ps

/-- The first cause that an XDT meets at the gateway of a die, or the pieces that it lands in. -/
def State.landingCheck (s : State) (d : Nat) (p : Fesel) : Except Code (List (Nat × Nat)) :=
  let ctx := p.tctx.toNat
  match s.window ctx (natBits p.aux.toNat 31 24) with
  | none => .error cREMOTE
  | some w =>
    if !w.isOpen || w.closing then .error (if w.byGen then cGEN else cREMOTE)
    else if p.gen != w.gen then .error cGEN
    else if field p.aux 0 20 != w.lead then .error cPERM
    else if w.len < p.vaddr.toNat + p.payload.length then .error cPERM
    else match s.range d ctx { w := true } false (w.base + p.vaddr) p.payload.length with
      | .error (c, _) => .error c
      | .ok ps =>
        if !s.runs ctx then .error cREMOTE
        else match s.landingFault d ctx w (w.base + p.vaddr) ps with
          | some c => .error c
          | none => .ok ps

/-- A stripe whose last byte has landed sends its XCN (R313 step 6). -/
def State.stripeLanded (s : State) (ctx n : Nat) (x : Landing) : State :=
  if x.got < x.len || x.xcn then s
  else match s.window ctx n with
    | none => s
    | some w =>
      let s := s.modWindow ctx n fun w => w.put { x with xcn := true }
      s.answer ctx (dieOf w.core) { s.fesel ctx w.comm 0x09 x.lead with fid := x.fid, aux := BitVec.ofNat 32 x.stripe }

/-- An XDT has landed, every piece at its home (R313 steps 5 and 6): its bytes count on the barrier with the stripe's epoch, unless its
window has closed meanwhile; where a piece has failed, it is discarded with that code. -/
def State.xdtLanded (s : State) (d : Nat) (y : Ingress) : State :=
  let p := y.pkt
  let ctx := p.tctx.toNat
  let n := natBits p.aux.toNat 31 24
  let w := (s.window ctx n).getD {}
  if y.code != 0 then s.discardXdt d p y.code
  else if !w.isOpen || w.gen != p.gen then s
  else
    let x := s.landing ctx w p
    let x := { x with got := x.got + p.payload.length }
    let s := s.modWindow ctx n fun w => w.put x
    (s.windowBar ctx w fun b => b.land p.payload.length x.epoch).stripeLanded ctx n x

/-- An access of an ingress stream of which every piece has been answered is over: a landing (R313), or a request, which is replied to
(R304). -/
def State.ingressDone (s : State) (d id : Nat) : State :=
  match s.ingressTake d id with
  | none => s
  | some (x, s) => if x.pkt.kind == 0x08 then s.xdtLanded d x else s.ingressReply d x

/-- An XDT lands: what is homed on the gateway's own die at once, the rest over the die links (R304, R313); it waits there for a traced
chunk's copy, or for a stack. -/
def State.landXdt (s : State) (d : Nat) (p : Fesel) (w : Window) (ps : List (Nat × Nat)) : State :=
  let near := ps.filter fun x => homeDie x.1 == d
  let s := near.foldl (fun s (pa, _) => if s.held pa then s else s.startCopies pa) s
  if near.any fun (pa, k) => s.ingressWaits .write pa k then s.waitPacket d p
  else
    let s := ps.foldl (fun s (pa, k) => s.ingressWatch p .write pa k) s
    let (id, s) := s.ingressGo d p (ptrTag w.base) .write ps p.payload
    s.ingressDone d id

/-- An XDT reaches the spare: a poisoned arrival, a landing, or discarded. -/
def State.onXdt (s : State) (d : Nat) (p : Fesel) : State :=
  let ctx := p.tctx.toNat
  let n := natBits p.aux.toNat 31 24
  let w := (s.window ctx n).getD {}
  if w.isOpen && s.rangeWaits d ctx (w.base + p.vaddr) p.payload.length then s.waitPacket d p
  else
    let found := s.landingCheck d p
    let s := s.rangeWalked d ctx (w.base + p.vaddr) p.payload.length
    match found with
    | .error c => s.discardXdt d p c
    | .ok ps =>
      let s := s.modWindow ctx n fun y => y.put (s.landing ctx w p)
      if p.code != 0 && p.payload.isEmpty then s.windowBar ctx w Barrier.poisoned else s.landXdt d p w ps

/-- Windows granted in another generation close at its adoption (R314): each stripe partly landed gives one poisoned arrival and
one XER with GEN. -/
def State.closeWindows (s : State) (ctx comm : Nat) (gen : BitVec 16) : State :=
  (((s.context ctx).getD {}).windows.filter fun (_, w) => w.isOpen && w.comm == comm && w.gen != gen).foldl (fun s (n, w) =>
    let part := w.stripes.filter fun x => 0 < x.got && x.got < x.len
    let s := part.foldl (fun s x =>
      let s := s.windowBar ctx w Barrier.poisoned
      if x.xer then s else s.spareXer (dieOf w.core) ctx comm x cGEN) s
    s.modWindow ctx n fun w => { w with
      isOpen := false, byGen := true,
      stripes := w.stripes.map fun x => if 0 < x.got && x.got < x.len then { x with xer := true } else x }) s

/-- Windows open in the package. -/
def State.openWindows (s : State) : Nat :=
  (s.contexts.flatMap fun (_, x) => x.windows.filter fun (_, w) => w.isOpen).length

/-- The devices of a list of ranks, or none where one does not resolve. -/
def State.devicesOf (s : State) (ctx comm : Nat) (ranks : List Nat) : Option (List (BitVec 20)) :=
  ranks.foldr (fun r xs => match s.deviceOf ctx comm r, xs with
    | some d, some ds => some (d :: ds)
    | _, _ => none) (some [])

/-- A list without repeats, first occurrences kept. -/
def distinct (ds : List (BitVec 20)) : List (BitVec 20) :=
  ds.foldl (fun xs d => if xs.contains d then xs else xs ++ [d]) []

/-- RWIN (R336). -/
def execRwin (h : Hdr) (f : EF) (s : State) : Res :=
  s.nibIssue (.rwin h f) h fun e n s =>
    let base := e.addrA n f
    let units := (e.srcAt n f.a 2).toNat
    let lead := (e.srcAt n f.a 3).toNat
    let list := e.spair f
    let win := modBits f.mod 7 0
    let comm := modBits f.mod 13 8
    let nd := modBits f.mod 17 14
    if base.toNat % 65536 != 0 then s.nibFault e n cALIGN base
    else if list.toNat % 4 != 0 then s.nibFault e n cALIGN list
    else if units = 0 || nd = 0 || 8 < nd then s.nibFault e n cSHAPE
    else s.afterRecords e [(list, 4 * nd)] fun s => match s.readRecord e.core e.slot e.g.ctx list (4 * nd) with
      | .error (c, a) => s.nibFault e n c a
      | .ok bs =>
        let old := (s.window e.g.ctx win).getD {}
        let ranks := lead :: (wordsIn bs).map BitVec.toNat
        if (e.team.bar f.bar.val).members == 0 then s.nibFault e n cBARRIER
        else match (if 64 ≤ s.openWindows then none else s.devicesOf e.g.ctx comm ranks) with
          | none => s.nibFault e n cREMOTE
          | some [] => s
          | some (dev :: donors) =>
            if old.isOpen then s.nibFault e n cPERM
            else if !s.meets e .ports then s.waitAt e e.lanes .ports
            else
              let w : Window := { core := e.core, launch := e.g.launch, lin := e.team.lin, bar := f.bar.val, base := base,
                                  len := 65536 * units, lead := dev, comm := comm, gen := (s.comm e.g.ctx comm).gen, isOpen := true }
              let s := s.modWindow e.g.ctx win fun _ => w
              (distinct donors).foldl (fun s x => s.sendPlain e.g.ctx (dieOf e.core)
                { s.fesel e.g.ctx comm 0x0B x with aux := BitVec.ofNat 32 (win * 2 ^ 24 + dev.toNat) }) s

/-- RWCLOSE (R338): new landings stop at once, the PC set waits until every XDT that a gateway has taken is dealt with, and the window
closes. DEDUCED: an XDT's landing has begun once bytes of it are on their way to their homes; one still held whole is discarded and
counted (log 81). -/
def execRwclose (h : Hdr) (f : EF) (s : State) : Res :=
  s.nibIssue (.rwclose h f) h fun e _ s =>
    let win := modBits f.mod 7 0
    let w := (s.window e.g.ctx win).getD {}
    let s := if w.isOpen then s.modWindow e.g.ctx win fun w => { w with closing := true } else s
    if w.isOpen && !s.meets e (.landed win) then s.waitAt e e.lanes (.landed win)
    else
      let s := if w.isOpen then s.modWindow e.g.ctx win fun w => { w with isOpen := false, byGen := false, closing := false } else s
      s.nibD e f.d [w.discarded]

/-! ## Tracing views (R344, R345) -/

/-- TVIEW (R315, R344): after an acquire-release fence of scope .P the view opens with every chunk Clean. -/
def execTview (h : Hdr) (f : EF) (s : State) : Res :=
  s.nibIssue (.tview h f) h fun e n s =>
    let base := e.addrA n f
    let chunks := (e.srcAt n f.a 2).toNat
    let w3 := e.srcAt n f.a 3
    let slots := (field w3 0 16).toNat
    let list := e.src64 n false f.d
    let pool := e.spair f
    let num := modBits f.mod 3 0
    let ng := modBits f.mod 7 4
    let comm := modBits f.mod 13 8
    if base.toNat % 65536 != 0 then s.nibFault e n cALIGN base
    else if pool.toNat % 65536 != 0 then s.nibFault e n cALIGN pool
    else if list.toNat % 4 != 0 then s.nibFault e n cALIGN list
    else if chunks = 0 || slots = 0 || field w3 16 16 != 0 || 8 < ng then s.nibFault e n cSHAPE
    else s.afterRecords e [(list, 4 * ng)] fun s => s.afterWalks e pool (65536 * slots) fun s =>
      let read := s.readRecord e.core e.slot e.g.ctx list (4 * ng)
      match firstOf [faultOf (s.coreRange e.core e.g.ctx { w := true } (e.slot == 63) pool (65536 * slots)), faultOf read], read with
      | some (c, a), _ => s.nibFault e n c a
      | none, .error _ => s
      | none, .ok bs => match s.devicesOf e.g.ctx comm ((wordsIn bs).map BitVec.toNat) with
        | none => s.nibFault e n cREMOTE
        | some devs =>
          if (s.views.find num).isSome then s.nibFault e n cPERM
          else s.released e .p e.lanes fun s =>
            let s := s.acquire e.core .p
            { s with views := s.views.put num { die := dieOf e.core, ctx := e.g.ctx, base := base, chunks := chunks, pool := pool,
                                                slots := slots, grants := devs, comm := comm,
                                                leaves := s.viewLeaves e.g.ctx base chunks } }

/-- TVCLOSE (R317, R345). -/
def execTvclose (h : Hdr) (f : EF) (s : State) : Res :=
  s.nibIssue (.tvclose h f) h fun e n s =>
    let num := modBits f.mod 3 0
    match s.views.find num with
    | none => s.nibD e f.d [0]
    | some v =>
      if v.ctx != e.g.ctx then s.nibFault e n cPERM
      else if !s.meets e (.view num) then s.waitAt e e.lanes (.view num)
      else
        let x := (if v.lost then 0x14 else 0) + Nat.min v.most (2 ^ 24 - 1) * 2 ^ 8
        ({ s with views := s.views.erase num } : State).nibD e f.d [BitVec.ofNat 32 x]

end Sys2Proof.Machine
end

