-- ==== Sys2Proof/Machine/Translate.lean ====
section
/-! DEFINITION. Events of memory and translation: loads and stores that complete, cached lines that time out, walks, faults that
firmware serves, and invalidations (R48, R160, R173, R178, R195, R196, R237). -/

namespace Sys2Proof.Machine

/-! ## Loads, stores and lines -/

/-- LOAD_DATA_RETURN (R178): the data of an outstanding load of a group returns, from the caches that R172 gives it. -/
def execLoadDataReturn (core slot idx : Nat) (s : State) : Res :=
  .next (match (s.group core slot).loads[idx]? with
    | none => s
    | some r => s.serveLoad core slot r)

/-- STORE_PERFORM (R178): an entry of a group's store queue passes the core port and is accepted at its home, or sent there. -/
def execStorePerform (core slot idx : Nat) (s : State) : Res :=
  .next (match (s.group core slot).sq[idx]? with
    | none => s
    | some q => (s.performStore core slot q).collsGo)

/-- CACHE_LINE_TIMEOUT (R173): a line leaves an L1 or remote-data cache. -/
def execCacheLineTimeout (unit : CacheUnit) (line : Nat) (s : State) : Res :=
  .next (match unit with
    | .l1 c => s.modCore c fun k => { k with l1 := dropLine k.l1 line }
    | .rdc d => s.modDie d fun k => { k with rdc := dropLine k.rdc line })

/-! ## Walks (R160 to R163, R221) -/

/-- A walk ends: the core's translation caches take its leaf, and the line of a prefetch is brought in. -/
def State.endWalk (s : State) (w : Walk) : State :=
  match s.checkAs w.core w.ctx false (fun _ => none) { va := w.va, bytes := 1, need := { r := true }, tagck := true } with
  | (.error _, s) => s
  | (.ok (pa, pte), s) => if !w.pref || s.bad pa 1 then s else s.bringLine w.core w.scope w.policy w.ctx pa pte

/-- PAGE_WALK (R160, R163): the die's walker resolves the oldest walk that no stack makes wait, and its entry is free. -/
def execPageWalk (die : Nat) (s : State) : Res :=
  .next (match (places (fun w => !s.tablesWait die w.ctx w.va) (s.die die).walks).head? with
    | none => s
    | some i => match (s.die die).walks[i]? with
      | none => s
      | some w => ((s.modDie die fun d => { d with walks := listErase d.walks i }).endWalk w).collsGo)

/-! ## Translation faults that firmware serves (R48, R237) -/

/-- Two addresses lie in one page of the least size. -/
def samePage (a b : W64) : Bool := (untag a).toNat / 65536 == (untag b).toNat / 65536

/-- A parked lane's fault lies in a page. -/
def Lane.parkedAt (l : Lane) (va : W64) : Bool := l.parked.any fun f => samePage f.addr va

/-- The lanes of a group parked on a page re-execute. -/
def Group.unpark (g : Group) (va : W64) : Group :=
  { g with lanes := g.lanes.map fun l => if l.parkedAt va then { l with parked := none } else l }

/-- The matrix operations of a team suspended on a page go on. -/
def Team.unpark (t : Team) (ctx : Nat) (va : W64) : Team :=
  { t with queue := t.queue.map fun o =>
      if o.ctx == ctx then { o with parked := o.parked.filter fun x => !samePage va x.2 } else o }

/-- What of a core waits on a page goes on: parked lanes, suspended commands and operations. -/
def Core.resume (k : Core) (ctx : Nat) (va : W64) : Core :=
  { k with
    groups := k.groups.map fun (n, g) => if g.ctx == ctx then (n, g.unpark va) else (n, g)
    cmds := k.cmds.map fun q => if q.ctx == ctx && q.susp.any (samePage va) then { q with susp := none } else q
    teams := k.teams.map fun (p, t) => (p, t.unpark ctx va) }

/-- The same of what a pre-emption has saved. -/
def SavedCore.resume (k : SavedCore) (ctx : Nat) (va : W64) : SavedCore :=
  { k with
    groups := k.groups.map fun (n, g) => (n, g.unpark va)
    teams := k.teams.map fun (p, t) => (p, t.unpark ctx va) }

/-- Something that a pre-emption has saved is parked on a page. -/
def SavedCore.parkedAt (k : SavedCore) (va : W64) : Bool :=
  k.groups.any (fun (_, g) => g.lanes.any fun l => l.parkedAt va)
    || k.teams.any fun (_, t) => t.queue.any fun o => o.parked.any fun x => samePage va x.2

/-- What of a context waits on a page goes on, saved or not; what was saved stays parked where an earlier answer for the page has been that
it cannot be served. -/
def State.resumeFault (s : State) (ctx : Nat) (va : W64) : State :=
  let s := { s with cores := s.cores.map fun (x : Nat × Core) => (x.1, Core.resume x.2 ctx va) }
  s.modContext ctx fun x =>
    if x.unserved.any (samePage va) then x else { x with saved := x.saved.map fun k => SavedCore.resume k ctx va }

/-- The fault that the head operation of a team waits for cannot be served: the streams parked on the page stop with it, and an
operation not yet begun ends. -/
def State.failHead (s : State) (c place ctx : Nat) (va : W64) : State :=
  match (s.team c place).queue with
  | [] => s
  | o :: _ =>
    let hits := o.parked.filter fun x => o.ctx == ctx && samePage va x.2
    if !o.started then
      match hits with
      | [] => s
      | (_, a) :: _ =>
        let accs := match o.kind with
          | .msta _ _ => [o.acc]
          | _ => []
        (s.opFault c place o accs { code := cXLATE, addr := a }).popHead c place
    else hits.foldl (fun s (t, a) =>
      let ts := if t = 2 then (upto o.accs.length).filter fun n => !o.stopped.contains n else [t]
      (s.opFault c place o (ts.map fun n => o.acc + n) { code := cXLATE, addr := a }).modHead c place fun q => { q with
        parked := q.parked.filter fun x => x.1 != t, stopped := q.stopped ++ ts }) s

/-- A fault of a page cannot be served for some launches: parked lanes take it as a precise fault, and suspended transfers and
operations end with it. -/
def State.failParked (s : State) (ctx : Nat) (mine : Nat → Bool) (va : W64) : State :=
  s.cores.foldl (fun s (c, k) =>
    let s := k.groups.foldl (fun s (n, g) =>
      if g.ctx != ctx || !mine g.launch then s
      else (places (fun (l : Lane) => l.parkedAt va) g.lanes).foldl (fun s i =>
        match (g.lane i).parked with
        | some f => s.precise c n i f.pc f
        | none => s) s) s
    let s := (k.cmds.filter fun q => q.ctx == ctx && mine q.launch && q.susp.any (samePage va)).foldl (fun s q =>
      s.endTransfer c q (some { code := cXLATE, addr := q.susp.getD 0 })) s
    k.teams.foldl (fun s (p, t) => if mine t.launch then s.failHead c p ctx va else s) s) s

/-- A fault of a page cannot be served: what is parked on it fails, and what a pre-emption has saved there fails as it is restored. -/
def State.failFault (s : State) (ctx : Nat) (va : W64) : State :=
  (s.failParked ctx (fun _ => true) va).modContext ctx fun x =>
    if x.saved.any (fun k => SavedCore.parkedAt k va) then { x with unserved := x.unserved ++ [va] } else x

/-- An entry of a context's table of tensor identifiers is made invalid, where its page is mapped (Table 5-4). -/
def State.clearTensor (s : State) (ctx n : Nat) : State :=
  match s.walk ctx (s.tidAddr ctx n) with
  | .error _ => s
  | .ok (pa, _, _) =>
    let b := s.byte (pa + 9)
    if b.getLsbD 3 then s.putBy s.rootDie (pa + 9) [b &&& 0xF7] else s

/-- Tensor identifiers of a context that have been invalid since its creation, their pages not being mapped, are made so in memory as
soon as they are (Table 5-4, log 78). -/
def State.settleBlank (s : State) (ctx : Nat) : State :=
  match s.context ctx with
  | none => s
  | some x => x.blank.foldl (fun s n => match s.walk ctx (s.tidAddr ctx n) with
    | .error _ => s
    | .ok _ => (s.clearTensor ctx n).modContext ctx fun y => { y with blank := y.blank.filter (· != n) }) s

/-- The same for every context, after tables may have been written. -/
def State.settleBlanks (s : State) : State := s.contexts.keys.foldl State.settleBlank s

/-- TRANSLATION_FAULT_SERVED (R48, R237): Nopol root has written page-table entries and serves the fault of a page, or cannot. -/
def execTranslationFaultServed (ctx : Nat) (va : BitVec 64) (entries : List (Nat × BitVec 64)) (served : Bool) (s0 : State) : Res :=
  let s := (entries.foldl (fun s (pa, e) => s.putBy s.rootDie pa (bytesOf 8 e.toNat)) s0).settleBlanks
  .next (if !s.rootAlive then s0 else if served then s.resumeFault ctx va else s.failFault ctx va)

/-! ## Invalidation (R195, R196) -/

/-- An invalidation covers an address of a context. -/
def InvTarget.covers (t : InvTarget) (ctx : Nat) (va : W64) (n : Nat) : Bool :=
  match t with
  | .everything => true
  | .context c => c == ctx && !va.getLsbD 63
  | .range c base len =>
    (va.getLsbD 63 || c == ctx) && (base / 2 ^ 63 % 2 == 1) == va.getLsbD 63
      && (field va 0 56).toNat < base % 2 ^ 56 + len && base % 2 ^ 56 < (field va 0 56).toNat + n

/-- A held leaf is covered. -/
def InvTarget.coversLeaf (t : InvTarget) (e : TlbEntry) : Bool :=
  InvTarget.covers t e.ctx (BitVec.ofNat 64 (e.base + if e.firmware then 2 ^ 63 else 0)) (2 ^ e.lg)

/-- The covered leaves that a command of a context stands under: those it already does, and those of its core's caches (R196). -/
def Core.oldLeaves (k : Core) (t : InvTarget) (ctx : Nat) (old : List TlbEntry) : List TlbEntry :=
  old ++ (k.tlb ++ k.tlb2).filter fun e => (e.firmware || e.ctx == ctx) && InvTarget.coversLeaf t e

/-- Commands and matrix operations in flight keep the leaves that an invalidation takes from their core's caches (log 71). -/
def Core.keepLeaves (k : Core) (t : InvTarget) : Core :=
  { k with
    cmds := k.cmds.map fun q => if q.done || q.susp.isSome then q else { q with old := k.oldLeaves t q.ctx q.old }
    teams := k.teams.map fun (p, x) => (p, { x with queue := x.queue.map fun o =>
      if !o.kind.named || !o.parked.isEmpty then o else { o with old := k.oldLeaves t o.ctx o.old } }) }

/-- The caches of a core lose the leaves that an invalidation covers. -/
def Core.dropLeaves (k : Core) (t : InvTarget) : Core :=
  { k with
    tlb := k.tlb.filter fun e => !InvTarget.coversLeaf t e
    tlb2 := k.tlb2.filter fun e => !InvTarget.coversLeaf t e }

/-- The commands of a die that stand under leaves that an invalidation covers, by core and sequence number. -/
def State.coveredCmds (s : State) (d : Nat) (t : InvTarget) : List (Nat × W32) :=
  s.cores.flatMap fun (c, k) =>
    if dieOf c != d then []
    else (k.cmds.filter fun q => !q.done && q.old.any (InvTarget.coversLeaf t)).map fun q => (c, q.seq)

/-- The matrix operations that do, by core, place and sequence number. -/
def State.coveredOps (s : State) (d : Nat) (t : InvTarget) : List (Nat × Nat × W32) :=
  s.cores.flatMap fun (c, k) =>
    if dieOf c != d then []
    else k.teams.flatMap fun (p, x) => (x.queue.filter fun o => o.old.any (InvTarget.coversLeaf t)).map fun o => (c, p, o.seq)

/-- An access of a core stands under a translation that an invalidation covers: that of the leaf which the core's caches hold for it; where
they hold none, any that the largest page around it could be (R196). -/
def Core.accessCovered (k : Core) (t : InvTarget) (a : Access) : Bool :=
  match k.leaf a.ctx a.va with
  | some e => InvTarget.coversLeaf t e
  | none => InvTarget.covers t a.ctx (a.va &&& 0xFFFF_FFFF_0000_0000) (2 ^ 32)

/-- The accesses of a die's groups that stand under a translation that an invalidation covers. -/
def State.coveredAccesses (s : State) (d : Nat) (t : InvTarget) : List Nat :=
  s.cores.flatMap fun (c, k) =>
    if dieOf c != d then []
    else k.groups.flatMap fun (_, g) => ((g.loads.map fun r => r.acc) ++ g.sq.map fun q => q.acc).filterMap fun a =>
      if k.accessCovered t a then some a.id else none

/-- An invalidation reaches a die: its translation caches lose the leaves covered, and it is to be acknowledged once the accesses,
commands and matrix operations that stand under them have completed. -/
def State.invalidate (s : State) (d : Nat) (t : InvTarget) (dies : List Nat) (reply : Option (Nat × Nat × Nat)) : State :=
  let waits := s.coveredAccesses d t
  let act := fun (x : Nat × Core) => if dieOf x.1 = d then (x.1, Core.dropLeaves (Core.keepLeaves x.2 t) t) else x
  let s := { s with cores := s.cores.map act }
  { s with
    invals := s.invals ++ [{ id := s.nextInval, target := t, die := d, waits := waits, cmds := s.coveredCmds d t,
                             mops := s.coveredOps d t, dies := dies, reply := reply }]
    nextInval := s.nextInval + 1 }

/-- The data slot of an invalidation packet: its kind, context, first page of 64 KiB and number of pages (the layout is the
model's). -/
def InvTarget.slot (t : InvTarget) : BitVec 128 :=
  match t with
  | .everything => 2
  | .context c => BitVec.ofNat 128 (1 + c % 65536 * 4)
  | .range c base len =>
    BitVec.ofNat 128 (c % 65536 * 4 + base / 65536 % 2 ^ 48 * 2 ^ 18
      + ((base + len + 65535) / 65536 - base / 65536) % 2 ^ 48 * 2 ^ 66)

/-- The invalidation of a data slot. -/
def InvTarget.ofSlot (x : BitVec 128) : InvTarget :=
  match (field x 0 2).toNat with
  | 0 => .range (field x 2 16).toNat ((field x 18 48).toNat * 65536) ((field x 66 48).toNat * 65536)
  | 1 => .context (field x 2 16).toNat
  | _ => .everything

/-- A packet from one die to another that is placed on module 0 under the next request identifier (R299, R301); none when the link
is down. -/
def State.requestTo (s : State) (src dst : Nat) (for_ : DlFor) (p : Pkt) (data : List (BitVec 128)) : Option State :=
  let (rid, s) := s.nextRid src dst
  (s.sendPacket src 0 { p with rid := rid, src := src, dst := dst } data).map fun s =>
    s.modDie src fun d => { d with dlReqs := d.dlReqs ++ [{ dst := dst, rid := rid, for_ := for_ }] }

/-- An invalidation waits for a die no longer. -/
def State.invalAnswered (s : State) (id d : Nat) : State :=
  { s with invals := s.invals.map fun i => if i.id == id then { i with dies := i.dies.filter (· != d) } else i }

/-- INVALIDATION (R195): delivered to the translation caches and sources of die 0, and sent to every other die; the link to a die being
down ends the wait for it (R298). -/
def execInvalidation (target : InvTarget) (s : State) : Res :=
  let others := rangeFrom 1 (s.dieCount - 1)
  let id := s.nextInval
  .next (others.foldl (fun s d =>
    (s.requestTo 0 d (.inval id) { op := 0x07, src := 0, dst := d } [InvTarget.slot target]).getD (s.invalAnswered id d))
    (s.invalidate 0 target others none))

/-- Every access of a list has completed. -/
def State.accessesDone (s : State) (ids : List Nat) : Bool :=
  s.cores.all fun (_, k) => k.groups.all fun (_, g) =>
    g.loads.all (fun r => !ids.contains r.acc.id) && g.sq.all fun q => !ids.contains q.acc.id

/-- Every command and matrix operation that an invalidation waits for has ended, or stands under none of its leaves any more. -/
def State.commandsDone (s : State) (i : Inval) : Bool :=
  i.cmds.all (fun (c, n) => (s.core c).cmds.all fun q => q.seq != n || q.done || q.old.isEmpty)
    && i.mops.all fun (c, p, n) => (s.team c p).queue.all fun o => o.seq != n || o.old.isEmpty

/-- INVALIDATION_COMPLETE (R196): what stood under old translations has completed and every die has acknowledged; a die that
received it over a link acknowledges it. -/
def execInvalidationComplete (id : Nat) (s : State) : Res :=
  .next (match s.invals.find? fun i => i.id == id with
    | none => s
    | some i =>
      if !i.dies.isEmpty || !s.accessesDone i.waits || !s.commandsDone i then s
      else
        let s := { s with invals := s.invals.filter fun j => j.id != id }
        match i.reply with
        | none => s
        | some (dst, m, rid) =>
          (s.sendPacket i.die m { op := 0x08, rid := rid, src := dst, dst := dst } []).getD s)

end Sys2Proof.Machine
end

