-- ==== Sys2Proof/Machine/Flits.lean ====
section
/-! DEFINITION. Flits on the die links, their acknowledgement, replay and retraining (R295 to R298). -/

namespace Sys2Proof.Machine

/-! ## Status events (Table 19-2) -/

/-- The width field of a status word. -/
def Width.code : Width → Nat
  | .full => 0
  | .low => 1
  | .high => 2
  | .down => 3

/-- A link status event at both dies (R298): width, cause and the replays since the previous event, which then restart. -/
def State.linkEvent (s : State) (t : StreamId) (cause : Nat) : State :=
  let m := s.module t
  let w := t.lo * 2 ^ 29 + t.hi * 2 ^ 26 + t.module * 2 ^ 25 + m.width.code * 2 ^ 23 + cause * 2 ^ 20 + Nat.min m.nrep 4095
  let post := fun (s : State) (d : Nat) => s.record (s.rootRing d) 0x05 d none none (bytesOf 4 w)
  (post (post s t.lo) t.hi).modModule t fun m => { m with nrep := 0 }

/-! ## The receiver (R296) -/

/-- Slots in whole packets: the packets, each with the flit of its header, and what is left with the flit of its first slot. -/
def framed (no : Nat) : Nat → Nat → List (BitVec 128) → List (Nat × List (BitVec 128)) × Nat × List (BitVec 128)
  | 0, first, xs => ([], first, xs)
  | _ + 1, first, [] => ([], first, [])
  | fuel + 1, first, x :: xs =>
    let n := (Pkt.ofSlot x).len
    if xs.length < n then ([], first, x :: xs)
    else
      let (ps, k, rest) := framed no fuel no (xs.drop n)
      ((first, x :: xs.take n) :: ps, k, rest)

/-- An accepted data flit: its slots join those received, and whole packets are delivered. -/
def Stream.accept (x : Stream) (slots : List (BitVec 128)) (now : Nat) : Stream :=
  let first := if x.part.isEmpty then x.flits else x.partNo
  let (ps, k, rest) := framed x.flits (x.part.length + slots.length) first (x.part ++ slots)
  { x with
    before := ((x.partNo, x.part) :: x.before).take 64
    exp := (x.exp + 1) % 4096, nakAt := none, ackAt := x.ackAt <|> some now, flits := x.flits + 1
    part := rest, partNo := k, packets := x.packets ++ ps
    window := x.window.filter fun (n, _) => x.flits < n + 64 }

/-- A module carries flits: it neither retrains nor is down. -/
def Module.up (m : Module) : Bool := m.retrain.isNone && m.width != .down

/-- The receiver of a stream sends a nak unless one is outstanding. -/
def State.sendNak (s : State) (t : StreamId) : State :=
  if (s.stream t).nakAt.isSome then s
  else
    let now := (s.die (StreamId.dst t)).cycle
    (s.sendFlit (StreamId.back t) 2 0 true []).modStream t fun x => { x with nakAt := some now }

/-! ## The sender (R297) -/

/-- The lanes that a module tries when it retrains (R298). -/
def attempts : Width → List Width
  | .low => [.low, .high]
  | .high => [.high, .low]
  | _ => [.full, .low, .high]

/-- A module begins to retrain, with the cause that its status event will name; what is on its wires is lost. -/
def State.startRetrain (s : State) (t : StreamId) (ws : List Width) (cause : Nat) : State :=
  let s := s.modStream t fun x => { x with wire := [] }
  let s := s.modStream (StreamId.back t) fun x => { x with wire := [] }
  s.modModule t fun m => { m with retrain := some (ws, cause) }

/-- Resend the held flits of a stream in order, with their numbers. -/
def State.resend (s : State) (t : StreamId) : List HeldFlit → State
  | [] => s
  | h :: hs => (s.sendFlit t 1 h.seq false h.slots).resend t hs

/-- A replay (R297): every held flit is sent again; one that has already been replayed 4 times makes the module retrain (R298). -/
def State.replay (s : State) (t : StreamId) : State :=
  let x := s.stream t
  let now := (s.die (StreamId.src t)).cycle
  if x.replay.isEmpty then s
  else if x.replay.any fun h => 4 ≤ h.replays then s.startRetrain t (attempts (s.module t).width) 0
  else
    let s := s.modStream t fun x => { x with replay := x.replay.map fun h => { h with replays := h.replays + 1, at_ := now } }
    (s.modModule t fun m => { m with nrep := m.nrep + 1 }).resend t x.replay

/-- What a flit received on a stream says to the sender of the other direction (R296, R297): its ack releases held flits, its
credits are added, its nak starts a replay, and what waited may be sent. -/
def State.applyFlit (s : State) (t : StreamId) (f : Flit) : State :=
  let b := StreamId.back t
  let s := s.modStream b fun x => { x with
    replay := x.replay.filter fun h => 64 ≤ (f.ack + 4096 - h.seq) % 4096
    credits := Nat.min Config.linkCredits (x.credits + f.cred) }
  (if f.nak then s.replay b else s).pump b

/-- The flit at the head of a stream's wire, where it is of a kind, and the state without it. -/
def State.takeFlit (s : State) (t : StreamId) (kind : Nat) : Option (Flit × State) :=
  match (s.stream t).wire with
  | [] => none
  | f :: fs =>
    if f.kind.toNat = kind && s.hasLink t then some (f, s.modStream t fun x => { x with wire := fs }) else none

/-- DATA_FLIT (R296): accepted in order; a duplicate is discarded with an ack, any other with a nak. -/
def execDataFlit (st : StreamId) (s : State) : Res :=
  .next (match s.takeFlit st 1 with
    | none => s
    | some (f, s) =>
      let s := s.applyFlit st f
      let x := s.stream st
      let now := (s.die (StreamId.dst st)).cycle
      if f.seq = x.exp then s.modStream st fun x => x.accept f.slots now
      else if (x.exp + 4096 + 4095 - f.seq) % 4096 < 64 then s.sendFlit (StreamId.back st) 2 0 false []
      else s.sendNak st)

/-- IDLE_FLIT (R296): the sender's idle flit, when nothing else is on the wire. -/
def execIdleFlit (st : StreamId) (s : State) : Res :=
  .next (if !s.hasLink st || !(s.module st).up || !(s.stream st).wire.isEmpty then s
    else match (s.sendFlit st 0 0 false []).takeFlit st 0 with
      | none => s
      | some (f, s) => s.applyFlit st f)

/-- CONTROL_FLIT (R296). -/
def execControlFlit (st : StreamId) (s : State) : Res :=
  .next (match s.takeFlit st 2 with
    | none => s
    | some (f, s) => s.applyFlit st f)

/-- BAD_FLIT (R296): the flit at the head of a wire is received damaged, and is discarded; a nak is sent unless one is outstanding. -/
def execBadFlit (st : StreamId) (s : State) : Res :=
  .next (match (s.stream st).wire with
    | [] => s
    | _ :: fs => if !s.hasLink st then s else (s.modStream st fun x => { x with wire := fs }).sendNak st)

/-- NAK_LAPSE (R296). -/
def execNakLapse (st : StreamId) (s : State) : Res :=
  .next (match (s.stream st).nakAt with
    | none => s
    | some t =>
      if (s.die (StreamId.dst st)).cycle < t + 1024 then s else s.modStream st fun x => { x with nakAt := none })

/-- ACK_TIMER_EXPIRY (R296): no flit has carried an ack for 64 cycles; a control flit does. -/
def execAckTimerExpiry (st : StreamId) (s : State) : Res :=
  .next (match (s.stream st).ackAt with
    | none => s
    | some t =>
      if (s.die (StreamId.dst st)).cycle < t + 64 || !(s.module st).up then s
      else s.sendFlit (StreamId.back st) 2 0 false [])

/-- REPLAY_TIMEOUT (R297): the oldest held flit has gone 1,024 cycles without an ack. -/
def execReplayTimeout (st : StreamId) (s : State) : Res :=
  .next (match (s.stream st).replay with
    | [] => s
    | h :: _ =>
      if (s.die (StreamId.src st)).cycle < h.at_ + 1024 || !(s.module st).up then s else s.replay st)

/-- REPLAY_LIMIT (R298): a held flit has been replayed 4 times without an ack. -/
def execReplayLimit (st : StreamId) (s : State) : Res :=
  .next (if (s.module st).up && (s.stream st).replay.any fun h => 4 ≤ h.replays then
      s.startRetrain st (attempts (s.module st).width) 0
    else s)

/-! ## Retraining (R298) -/

/-- The stream of a module that its lower die sends. -/
def lowStream (lo hi module : Nat) : StreamId := ⟨lo, hi, module, false⟩

/-- LANE_LOCK_LOSS (R298). -/
def execLaneLockLoss (lo hi module : Nat) (s : State) : Res :=
  let t := lowStream lo hi module
  .next (if s.hasLink t && (s.module t).up then s.startRetrain t (attempts (s.module t).width) 1 else s)

/-- RETRAIN_COMMAND (R298): Nopol root's command tries all 64 lanes first. -/
def execRetrainCommand (lo hi module : Nat) (s : State) : Res :=
  let t := lowStream lo hi module
  .next (if s.hasLink t && (s.module t).retrain.isNone then s.startRetrain t (attempts .full) 2 else s)

/-- Of a stream's held flits, those that the receiver has accepted. -/
def heldAccepted (x : Stream) : Nat :=
  match x.replay with
  | [] => 0
  | h :: _ => let n := (x.exp + 4096 - h.seq) % 4096; if n ≤ x.replay.length then n else 0

/-- The receiver's framing as it stood before the first held flit, so that held flits can be received again (log 30). -/
def Stream.rewound (x : Stream) : Nat × List (BitVec 128) :=
  match heldAccepted x with
  | 0 => (x.partNo, x.part)
  | n + 1 => x.before[n]?.getD (x.partNo, x.part)

/-- Numbers from 0 for the held flits. -/
def renumber (now : Nat) : Nat → List HeldFlit → List HeldFlit
  | _, [] => []
  | i, h :: hs => { seq := i % 4096, slots := h.slots, replays := 0, at_ := now } :: renumber now (i + 1) hs

/-- A direction is numbered afresh after a retrain: seq and exp 0, and the held flits from 0. -/
def State.renumbered (s : State) (t : StreamId) : State :=
  let hs := renumber (s.die (StreamId.src t)).cycle 0 (s.stream t).replay
  s.modStream t fun x => { x with
    seq := hs.length % 4096, exp := 0, nakAt := none, replay := hs, part := x.rewound.2, partNo := x.rewound.1, before := [] }

/-- A direction starts afresh: its held flits are sent, then what waits. -/
def State.restart (s : State) (t : StreamId) : State := (s.resend t (s.stream t).replay).pump t

/-- The slots that a direction of a module going down still has to deliver, in whole packets: those of its held flits, behind the
part of a packet that came before them, and those that wait. -/
def Stream.undelivered (x : Stream) : List (BitVec 128) :=
  x.rewound.2 ++ (x.replay.flatMap fun h => h.slots) ++ x.waiting

/-- A direction of a module goes down: what it has to deliver goes to the other module's stream. -/
def State.moveStream (s : State) (t : StreamId) : State :=
  let x := s.stream t
  let s := s.modStream t fun x => { x with
    waiting := [], replay := [], wire := [], part := [], before := [], nakAt := none, ackAt := none, seq := 0, exp := 0,
    credits := Config.linkCredits, freed := 0 }
  (s.modStream (StreamId.other t) fun y => { y with waiting := y.waiting ++ x.undelivered }).pump (StreamId.other t)

/-- A die-link request fails with REMOTE (R298). -/
def State.failRequest (s : State) (d : Nat) (r : DlReq) : State :=
  let s := s.modDie d fun k => { k with dlReqs := k.dlReqs.filter fun q => !(q.dst == r.dst && q.rid == r.rid) }
  match r.for_ with
  | .load c slot id => match (s.group c slot).loads.find? fun q => q.acc.id == id with
    | some q => s.loadFail c slot q cREMOTE
    | none => s
  | .store c slot id => match (s.group c slot).sq.find? fun q => q.acc.id == id with
    | some q => s.storeFail c slot q cREMOTE
    | none => s
  | .inval id => s.invalAnswered id r.dst
  | .fill _ _ _ _ _ => s
  | .ingress id off _ _ => (s.ingressPart d id off cREMOTE []).ingressDone d id

/-- A stream of a link that is down holds nothing but the packets that its receiver has and has not acted on, whose slots its sender has
no credits for. -/
def Stream.cut (x : Stream) : Stream :=
  { x with
    waiting := [], replay := [], wire := [], part := [], partNo := 0, before := [], nakAt := none, ackAt := none, freed := 0,
    credits := Config.linkCredits - (x.packets.flatMap fun p => p.2).length }

/-- The link of two dies is down (R298): what it held is discarded, and requests outstanding across it, invalidations among them, and
copies passed over it, complete with REMOTE. -/
def State.linkDown (s : State) (lo hi : Nat) : State :=
  let s := [streamTo lo hi 0, streamTo hi lo 0, streamTo lo hi 1, streamTo hi lo 1].foldl (fun s t => s.modStream t Stream.cut) s
  let fail := fun (s : State) (a b : Nat) => ((s.die a).dlReqs.filter fun r => r.dst == b).foldl (fun s r => s.failRequest a r) s
  let s := fail (fail s lo hi) hi lo
  (s.cores.foldl (fun s (c, k) =>
    (k.cmds.filter fun q => !q.done && ((dieOf c == lo && q.passed == some hi) || (dieOf c == hi && q.passed == some lo))).foldl
      (fun s q => s.endTransfer c q (some { code := cREMOTE })) s) s).collsGo

/-- RETRAIN_ATTEMPT_END (R298): the lanes tried train, and both directions start afresh; or the next are tried; or, after the last,
the module is down, and with both modules down the link. -/
def execRetrainAttemptEnd (lo hi module : Nat) (ok : Bool) (s : State) : Res :=
  let t := lowStream lo hi module
  .next (match (s.module t).retrain with
    | none => s
    | some ([], _) => s
    | some (w :: ws, cause) =>
      let old := (s.module t).width
      if ok then
        let s := s.modModule t fun m => { m with width := w, retrain := none }
        let s := (((s.renumbered t).renumbered (StreamId.back t)).restart t).restart (StreamId.back t)
        if w = old then s else s.linkEvent t cause
      else if !ws.isEmpty then s.modModule t fun m => { m with retrain := some (ws, cause) }
      else
        let s := s.modModule t fun m => { m with width := .down, retrain := none }
        let s := if (s.module (StreamId.other t)).width = .down then s.linkDown lo hi
          else (s.moveStream t).moveStream (StreamId.back t)
        s.linkEvent t cause)

end Sys2Proof.Machine
end

