-- ==== Sys2Proof/Machine/DieLink.lean ====
section
/-! DEFINITION. Die-link packets as they are acted on (R299 to R302). -/

namespace Sys2Proof.Machine

/-! ## The packet that comes next -/

/-- The range of bytes that a packet's access touches. -/
def Pkt.touches (p : Pkt) (data : List (BitVec 128)) : Nat × Nat :=
  match p.op with
  | 0x01 =>
    let secs := (upto 4).filter fun k => p.aop / 2 ^ k % 2 == 1
    (p.addr + 32 * (minOf secs).getD 0, 32 * (maxOf secs + 1) - 32 * (minOf secs).getD 0)
  | 0x03 =>
    let en := (upto 128).filter fun b => (data.headD 0).getLsbD b
    (p.addr + (minOf en).getD 0, maxOf en + 1 - (minOf en).getD 0)
  | 0x05 => (p.addr, if ((Ty.ofCode p.atype).getD .n32).is64 then 8 else 4)
  | 0x0C => (p.addr, 1)
  | _ => (p.addr, 64)

/-- A request waits at its home (R325, R316): for its stack, or for the copy of a traced chunk. `full` names the sectors that the
requester's stores cover between them. -/
def State.pktHeld (s : State) (p : Pkt) (data : List (BitVec 128)) (full : BitVec 4) : Bool :=
  let (a, n) := p.touches data
  match p.op with
  | 0x01 => s.stackWaits a n
  | 0x0C => s.stackWaits a n
  | 0x03 => (s.held a && s.storeNeeds a n full) || s.viewWaits a || s.viewFirst a
  | 0x05 => s.stackWaits a n || s.viewWaits a || s.viewFirst a
  | 0x0A => s.held p.addr && s.dirtyLine (p.addr / 128)
  | 0x0E => (p.aop % 2 == 1 && s.held a && (blocks 128 a 64).any s.noRoom) || s.viewWaits a || s.viewFirst a
  | _ => false

/-- A read or atomic fails where its stack has been in self-refresh too long (R326). -/
def State.pktFails (s : State) (p : Pkt) (data : List (BitVec 128)) : Bool :=
  let (a, n) := p.touches data
  s.held a && !s.homeHit a n && s.overdue (stackOf a)

/-- What a request that arrives on a stream was sent for. -/
def State.sentFor (s : State) (t : StreamId) (rid : Nat) : Option DlFor :=
  ((s.die (StreamId.src t)).dlReqs.find? fun r => r.dst == StreamId.dst t && r.rid == rid).map DlReq.for_

/-- The store-queue entry that a request was sent for. -/
def State.entryFor (s : State) (t : StreamId) (rid : Nat) : Option StoreReq :=
  match s.sentFor t rid with
  | some (.store c slot id) => (s.group c slot).sq.find? fun q => q.acc.id == id
  | _ => none

/-- The sectors of its line that a write and the others of its instruction cover between them (R174). -/
def State.fullFor (s : State) (t : StreamId) (rid : Nat) : BitVec 4 := ((s.entryFor t rid).map fun q => q.acc.full).getD 0

/-- The place in a list of received packets of the first that may be acted on: those before it wait at their homes, for other
lines. -/
def State.nextPkt (s : State) (t : StreamId) (lines : List Nat) : Nat → List (Nat × List (BitVec 128)) → Option Nat
  | _, [] => none
  | i, (_, x) :: xs =>
    let p := Pkt.ofSlot (x.headD 0)
    if s.pktHeld p (x.drop 1) (s.fullFor t p.rid) || lines.contains (p.addr / 128) then
      s.nextPkt t (p.addr / 128 :: lines) (i + 1) xs
    else some i

/-- The writes and atomics held for a traced chunk start its copy (R316). -/
def State.startHeld (s : State) (t : StreamId) : State :=
  (s.stream t).packets.foldl (fun s x =>
    let p := Pkt.ofSlot (x.2.headD 0)
    let (a, _) := p.touches (x.2.drop 1)
    if [0x03, 0x05, 0x0E].contains p.op && s.viewFirst a && !s.held a then s.startCopies a else s) s

/-- The packet that a stream's receiver acts on next, where its operation satisfies a test, with the flit of its header and the
state without it: its slots are free. -/
def State.takePkt (s : State) (t : StreamId) (ok : Nat → Bool) : Option (Nat × Pkt × List (BitVec 128) × State) :=
  if !s.hasLink t then none
  else match s.nextPkt t [] 0 (s.stream t).packets with
    | none => none
    | some i => match (s.stream t).packets[i]? with
      | none => none
      | some (no, x) =>
        let p := Pkt.ofSlot (x.headD 0)
        if ok p.op then
          some (no, p, x.drop 1, s.modStream t fun y => { y with packets := listErase y.packets i, freed := y.freed + x.length })
        else none

/-! ## Replies -/

/-- Send slots back on the module that a stream belongs to, or the other while it is down (R299). -/
def State.sendBack (s : State) (t : StreamId) (slots : List (BitVec 128)) : State :=
  match s.linkModule (StreamId.dst t) (StreamId.src t) t.module with
  | none => s
  | some b => (s.modStream b fun x => { x with waiting := x.waiting ++ slots }).pump b

/-- A reply's slots: its request's header with the reply's operation, code and length. -/
def replySlots (p : Pkt) (op : Nat) (code : BitVec 8) (data : List (BitVec 128)) : List (BitVec 128) :=
  Pkt.slot { p with op := op, dst := p.src, code := code, len := data.length } :: data

/-- A request that must not be performed twice: its recorded reply where a window of the link holds it (R302). -/
def State.recorded (s : State) (t : StreamId) (rid : Nat) : Option (List (BitVec 128)) :=
  (((s.stream t).window ++ (s.stream (StreamId.other t)).window).find? fun x => x.2.1 == rid).map fun x => x.2.2

/-- Perform a request once, record its reply and send it (R302). -/
def State.performOnce (s : State) (t : StreamId) (no : Nat) (p : Pkt) (act : State → State × List (BitVec 128)) : State :=
  match s.recorded t p.rid with
  | some x => s.sendBack t x
  | none =>
    let (s, x) := act s
    (s.modStream t fun y => { y with window := if y.flits ≤ no + 64 then y.window ++ [(no, p.rid, x)] else y.window }).sendBack t x

/-- Runs of enabled bytes: the first byte's place and the bytes. -/
def runsOf (en : BitVec 128) : Nat → List Byte → List (Nat × List Byte)
  | _, [] => []
  | i, b :: bs =>
    let rest := runsOf en (i + 1) bs
    if !en.getLsbD i then rest
    else match rest with
      | (j, ys) :: more => if j = i + 1 then (i, b :: ys) :: more else (i, [b]) :: rest
      | [] => [(i, [b])]

/-! ## Requests at their home die -/

/-- What a request meets at its home (R166, R167, R224): a store-queue entry its tag and poison; an ingress stream's write a granule that
it would change in part, and its atomic any, that is poisoned. -/
def State.pktFault (s : State) (t : StreamId) (p : Pkt) : Option Code :=
  match s.sentFor t p.rid with
  | some (.ingress _ _ pa n) => if (if p.op = 0x03 then s.badPart pa n else s.bad pa n) then some cECC else none
  | _ => (s.entryFor t p.rid).bind s.storeFault

/-- A request that meets a fault at its home: poison is found as its array is read (R321). -/
def State.pktRefused (s : State) (p : Pkt) (data : List (BitVec 128)) (code : Code) : State :=
  if code = cECC then s.readArray (p.touches data).1 (p.touches data).2 else s

/-- The data slots of a read reply that carries a failure: as many as the reply has, of zeros (Table 19-4). -/
def noSectors (p : Pkt) : List (BitVec 128) :=
  List.replicate (1 + 2 * ((upto 4).filter fun k => p.aop / 2 ^ k % 2 == 1).length) 0

/-- A read at its home: the metadata symbols of the line and the sectors wanted (Table 19-4). -/
def State.serveRead (s : State) (p : Pkt) : State × List (BitVec 128) :=
  let (a, n) := p.touches []
  let s := s.homeLoad a n p.policy
  let line := p.addr / 128 * 128
  let secs := (upto 4).filter fun k => p.aop / 2 ^ k % 2 == 1
  let m := BitVec.ofNat 128 ((s.metaAt line).toNat + 256 * (s.metaAt (line + 64)).toNat)
  (s, m :: slotsOf (secs.flatMap fun k => s.bytes (line + 32 * k) 32))

/-- DIE_LINK_READ (R300): the sectors wanted, with the metadata symbols of the line's granules. -/
def execDieLinkRead (st : StreamId) (s : State) : Res :=
  .next (match s.takePkt st (· == 0x01) with
    | none => s
    | some (_, p, _, s) =>
      if s.pktFails p [] then s.sendBack st (replySlots p 0x02 cTHERM (noSectors p)) else
      let (s, x) := s.serveRead p
      s.sendBack st (replySlots p 0x02 0 x))

/-- DIE_LINK_WRITE (R300, R302): the enabled bytes of the line are accepted at its home cache. -/
def execDieLinkWrite (st : StreamId) (s : State) : Res :=
  .next (match (s.startHeld st).takePkt st (· == 0x03) with
    | none => s.startHeld st
    | some (no, p, data, s) => s.performOnce st no p fun s => match s.pktFault st p with
      | some code => (s.pktRefused p data code, replySlots p 0x04 code [])
      | none => ((runsOf (data.headD 0) 0 (slotBytes (data.drop 1))).foldl (fun s (i, bs) =>
          s.homeStoreIn (p.addr + i) bs p.policy (s.fullFor st p.rid)) s,
       replySlots p 0x04 0 []))

/-- The atomic operation of a packet (Tables 19-3 and 19-4). -/
def Pkt.atomOp (p : Pkt) (data : List (BitVec 128)) : AtomOp :=
  { sub := p.aop, ty := (Ty.ofCode p.atype).getD .n32, ebf := p.ebf, cas := p.aop == 8,
    operand := field (data.headD 0) 0 64, compare := field (data.headD 0) 64 64 }

/-- The block of the line that a request's instruction covers (R176). -/
def State.blockFor (s : State) (t : StreamId) (p : Pkt) (n : Nat) : Nat × Nat :=
  ((s.entryFor t p.rid).map fun q => q.acc.block n).getD (coverBlock p.addr (p.addr + n))

/-- DIE_LINK_ATOMIC (R300, R302): executed once at the home cache. -/
def execDieLinkAtomic (st : StreamId) (s : State) : Res :=
  .next (match (s.startHeld st).takePkt st (· == 0x05) with
    | none => s.startHeld st
    | some (no, p, data, s) => s.performOnce st no p fun s =>
      let o := p.atomOp data
      if s.pktFails p data then (s, replySlots p 0x06 cTHERM [0]) else
      match s.pktFault st p with
      | some code => (s.pktRefused p data code, replySlots p 0x06 code [0])
      | none =>
        let (m, s) := s.homeAtomic p.addr o (s.blockFor st p o.bytes) p.policy
        (s, replySlots p 0x06 0 [BitVec.ofNat 64 (if o.cas && m == o.compare then 1 else 0) ++ m]))

/-- DIE_LINK_WRITEBACK (R300, R302). -/
def execDieLinkWriteback (st : StreamId) (s : State) : Res :=
  .next (match s.takePkt st (· == 0x0A) with
    | none => s
    | some (no, p, _, s) => s.performOnce st no p fun s => (s.homeWriteback p.addr, replySlots p 0x0B 0 []))

/-- DIE_LINK_TAG_READ (R300): the symbol is read with its granule's codeword, as a load there reads it. -/
def execDieLinkTagRead (st : StreamId) (s : State) : Res :=
  .next (match s.takePkt st (· == 0x0C) with
    | none => s
    | some (_, p, data, s) =>
      if s.pktFails p data then s.sendBack st (replySlots p 0x0D cTHERM [0])
      else
        let s := s.homeLoad p.addr 1 p.policy
        s.sendBack st (replySlots p 0x0D 0 [(s.metaAt p.addr).zeroExtend 128]))

/-- DIE_LINK_TAG_WRITE (R300, R302). -/
def execDieLinkTagWrite (st : StreamId) (s : State) : Res :=
  .next (match (s.startHeld st).takePkt st (· == 0x0E) with
    | none => s.startHeld st
    | some (no, p, data, s) => s.performOnce st no p fun s =>
      (s.homeTag p.addr (field (data.headD 0) 0 4) (p.aop % 2 == 1), replySlots p 0x0F 0 []))

/-- DIE_LINK_INVALIDATION (R195, R196, R300): it acts on this die, which acknowledges it later. -/
def execDieLinkInvalidation (st : StreamId) (s : State) : Res :=
  .next (match s.takePkt st (· == 0x07) with
    | none => s
    | some (_, p, data, s) =>
      s.invalidate (StreamId.dst st) (InvTarget.ofSlot (data.headD 0)) [] (some (StreamId.src st, st.module, p.rid)))

/-- DIE_LINK_CONTROL (R300): a message reaches the control core, in firmware's own format. -/
def execDieLinkControl (st : StreamId) (s : State) : Res :=
  .next (match s.takePkt st (· == 0x09) with
    | none => s
    | some (_, _, _, s) => s)

/-- DIE_LINK_UNKNOWN_OP (R300): discarded, with a protocol error event. -/
def execDieLinkUnknownOp (st : StreamId) (s : State) : Res :=
  .next (match s.takePkt st (fun op => op == 0 || 0x0F < op) with
    | none => s
    | some (_, _, _, s) => s.linkEvent st 3)

/-! ## Replies at the requesting die -/

/-- The request that a reply answers, outstanding no longer; none where no request has its identifier (R301). -/
def State.takeReq (s : State) (t : StreamId) (rid : Nat) : Option (DlReq × State) :=
  let d := StreamId.dst t
  match (s.die d).dlReqs.find? fun r => r.dst == StreamId.src t && r.rid == rid with
  | none => none
  | some r => some (r, s.modDie d fun k => { k with dlReqs := k.dlReqs.filter fun q =>
      !(q.dst == r.dst && q.rid == r.rid) })

/-- A group's load with an identifier. -/
def State.loadOf (s : State) (c slot id : Nat) : Option LoadReq := (s.group c slot).loads.find? fun r => r.acc.id == id

/-- A group's store-queue entry with an identifier. -/
def State.storeOf (s : State) (c slot id : Nat) : Option StoreReq := (s.group c slot).sq.find? fun q => q.acc.id == id

/-- The bytes of a line of which a read reply has some sectors, in ascending order; the others are zero. -/
def placeSectors (mask : Nat) : Nat → List Byte → List Byte
  | 0, _ => []
  | n + 1, bs =>
    if mask / 2 ^ (3 - n) % 2 = 1 then padTo 32 bs ++ placeSectors mask n (bs.drop 32)
    else List.replicate 32 0 ++ placeSectors mask n bs

/-- The line of a read reply, with the sectors that it returns (R176). -/
def replyLine (p : Pkt) (data : List (BitVec 128)) (now : Nat) : CLine :=
  { line := p.addr / 128, data := placeSectors p.aop 4 (slotBytes (data.drop 1)), meta0 := field (data.headD 0) 0 5,
    meta1 := field (data.headD 0) 8 5, filled := now, held := BitVec.ofNat 4 p.aop }

/-- The bytes of a load in the sectors of a read reply. -/
def replyBytes (p : Pkt) (data : List (BitVec 128)) (pa n : Nat) : List Byte :=
  let first := (minOf ((upto 4).filter fun k => p.aop / 2 ^ k % 2 == 1)).getD 0
  ((slotBytes (data.drop 1)).drop (pa - p.addr - 32 * first)).take n

/-- The identifier bound of the moment at which an access was sent over a die link. -/
def Stage.bound : Stage → Nat
  | .sent _ at_ => at_
  | .queued => 0

/-- A read reply for a load: the failure it carries, TAG or ECC by the symbol of its granule, or its value with the group's own stores
over it; its sectors fill the nearer caches that may hold the line, unless the die has read it at its home since (R166, R167, R172,
R179, R224). -/
def State.loadReply (s : State) (c slot : Nat) (r : LoadReq) (p : Pkt) (data : List (BitVec 128)) (stale : Bool) : State :=
  let a := r.acc
  let m : BitVec 5 := field (data.headD 0) (if a.pa / 64 % 2 = 0 then 0 else 8) 5
  if p.code != 0 then s.loadFail c slot r p.code
  else match s.loadFault r m (poisonOf m) with
  | some code => s.loadFail c slot r code
  | none =>
    let fw := s.fwds (s.group c slot).sq a.id a.pa r.bytes r.tag
    let x := valueOf fw (replyBytes p data a.pa r.bytes)
    let (l1, rdc) := s.fills c a.scope a.policy a.pa (if a.rdc then 0x0008_0000_0000_0000 else 0)
    let s := s.serveFarther c (a.pa / 128)
    let s := if stale then s else s.fillNear c (replyLine p data (s.die (dieOf c)).cycle) l1 rdc a.policy a.stage.bound
    s.loadDone c slot r x

/-- A read reply for a piece of what an ingress stream reads (R304): poison of its granules is ECC (R167). -/
def State.ingressRead (s : State) (d id off pa n : Nat) (p : Pkt) (data : List (BitVec 128)) : State :=
  let symbol := fun (g : Nat) => field (data.headD 0) (if g % 2 = 0 then 0 else 8) 5
  let code := if p.code != 0 then p.code else if (blocks 64 pa n).any fun g => poisonOf (symbol g) then cECC else 0
  let (bs, s) := s.softRead pa (replyBytes p data pa n)
  (s.ingressPart d id off code bs).ingressDone d id

/-- DIE_LINK_READ_REPLY (R300, R301). -/
def execDieLinkReadReply (st : StreamId) (s : State) : Res :=
  .next (match s.takePkt st (· == 0x02) with
    | none => s
    | some (_, p, data, s) => match s.takeReq st p.rid with
      | none => s
      | some (q, s) => match q.for_ with
        | .load c slot id => match s.loadOf c slot id with
          | some r => s.loadReply c slot r p data q.stale
          | none => s
        | .fill c l1 rdc po at_ =>
          if p.code != 0 || q.stale then s
          else (s.serveFarther c (p.addr / 128)).fillNear c (replyLine p data (s.die (dieOf c)).cycle) l1 rdc po at_
        | .ingress id off pa n => s.ingressRead (StreamId.dst st) id off pa n p data
        | _ => s)

/-- DIE_LINK_TAG_READ_REPLY (R300, R301). -/
def execDieLinkTagReadReply (st : StreamId) (s : State) : Res :=
  .next (match s.takePkt st (· == 0x0D) with
    | none => s
    | some (_, p, data, s) => match s.takeReq st p.rid with
      | some (q, s) => match q.for_ with
        | .load c slot id => match s.loadOf c slot id with
          | some r => if p.code != 0 then s.loadFail c slot r p.code
            else s.loadDone c slot r ((data.headD 0).toNat % 256)
          | none => s
        | _ => s
      | none => s)

/-- A reply to a store-queue entry, or to a piece of what an ingress stream performs: it has been performed, with an atomic's old value, or
has failed. -/
def State.ackStore (s : State) (t : StreamId) (op : Nat) : State :=
  match s.takePkt t (· == op) with
  | none => s
  | some (_, p, data, s) => match s.takeReq t p.rid with
    | some (r, s) => match r.for_ with
      | .store c slot id => match s.storeOf c slot id with
        | some q =>
          (if p.code != 0 then s.storeFail c slot q p.code else s.storeDone c slot q (field (data.headD 0) 0 64)).collsGo
        | none => s
      | .ingress id off _ _ =>
        (s.ingressPart (StreamId.dst t) id off p.code (bytesOf 9 (data.headD 0).toNat)).ingressDone (StreamId.dst t) id
      | _ => s
    | none => s

/-- DIE_LINK_WRITE_ACK (R300, R301). -/
def execDieLinkWriteAck (st : StreamId) (s : State) : Res := .next (s.ackStore st 0x04)

/-- DIE_LINK_ATOMIC_REPLY (R301). -/
def execDieLinkAtomicReply (st : StreamId) (s : State) : Res := .next (s.ackStore st 0x06)

/-- DIE_LINK_WRITEBACK_ACK (R300, R301). -/
def execDieLinkWritebackAck (st : StreamId) (s : State) : Res := .next (s.ackStore st 0x0B)

/-- DIE_LINK_TAG_WRITE_ACK (R300, R301). -/
def execDieLinkTagWriteAck (st : StreamId) (s : State) : Res := .next (s.ackStore st 0x0F)

/-- DIE_LINK_INVALIDATION_ACK (R196, R301). -/
def execDieLinkInvalidationAck (st : StreamId) (s : State) : Res :=
  .next (match s.takePkt st (· == 0x08) with
    | none => s
    | some (_, p, _, s) => match s.takeReq st p.rid with
      | some (r, s) => match r.for_ with
        | .inval id => s.invalAnswered id (StreamId.src st)
        | _ => s
      | none => s)

end Sys2Proof.Machine
end

