-- ==== Sys2Proof/Machine/Preempt.lean ====
section
/-! DEFINITION. Pre-emption and restore, and what Nopol root creates: queues and contexts (R57 to R59, R268, R289, R290, R370). -/

namespace Sys2Proof.Machine

/-! ## Stopping and saving (R57, R58, R289) -/

/-- Issue stops for a context; a collective has the response timeout from now on to end (R57). -/
def State.stopContext (s : State) (ctx : Nat) : State :=
  s.modContext ctx fun x => ({ x with preempted := true }).limitColls s fun _ => true

/-- What R57 completes has been completed: stores, loads, copies, remote requests and third-party reads, collectives and draining
groups, and the faults that can be delivered. -/
def State.quiet (s : State) (ctx : Nat) : Bool :=
  s.cores.all (fun (_, k) =>
    k.cmds.all (fun q => q.ctx != ctx)
      && k.groups.all fun (n, g) => n == 63 || g.ctx != ctx
          || (g.sq.isEmpty && g.loads.isEmpty && g.nextDeliv.isNone && !g.draining))
    && s.dies.all (fun (_, d) => d.reqs.all (fun r => r.ctx != ctx) && d.joinQ.all fun j => j.ctx != ctx)
    && match s.context ctx with
      | some x => x.colls.all fun k => k.result.isSome
      | none => true

/-- Bytes of local memory, or absent lines, in the regions of teams. -/
def inRegions (ts : SMap Team) (line : Nat) : Bool := ts.any fun (_, t) => t.lbase ≤ line && line < t.lbase + t.lines

/-- A team as it is saved: its queued operations stand under no translation (R57, R196). -/
def Team.saved (t : Team) : Team := { t with queue := t.queue.map fun o => { o with old := [] } }

/-- What a core holds of a context. -/
def Core.savedOf (k : Core) (c ctx : Nat) : SavedCore :=
  let teams := k.teams.filter fun (_, t) => t.ctx == ctx
  let mine := fun (p : Nat) => teams.any fun x => x.1 == p
  { core := c, teams := teams.map fun (p, t) => (p, t.saved),
    groups := k.groups.filter fun (n, g) => n != 63 && g.ctx == ctx,
    strokes := k.strokes.filter fun (_, st) => st.ctx == ctx,
    inked := k.inked.filter fun i => i.ctx == ctx,
    exitedRoles := k.exitedRoles.filter fun x => x.1 == ctx,
    chunks := k.chunks.filter fun x => x.1 == ctx,
    lmem := k.lmem.filter fun (a, _) => inRegions teams (a / 128),
    absent := k.absent.filter (inRegions teams),
    leases := (k.holder.toList ++ k.fifo).filter mine }

/-- Nothing of a context is saved there. -/
def SavedCore.isEmpty (k : SavedCore) : Bool :=
  k.groups.isEmpty && k.strokes.isEmpty && k.teams.isEmpty && k.inked.isEmpty && k.exitedRoles.isEmpty && k.chunks.isEmpty

/-- A core without the resources of a context: slots, units, regions, strokes and leases are free. Its samples wait for the restore. -/
def Core.withoutContext (k : Core) (ctx : Nat) : Core :=
  let gone := (k.teams.filter fun (_, t) => t.ctx == ctx).map Prod.fst
  { k with
    teams := k.teams.filter fun (_, t) => t.ctx != ctx
    groups := k.groups.filter fun (n, g) => n == 63 || g.ctx != ctx
    strokes := k.strokes.filter fun (_, st) => st.ctx != ctx
    inked := k.inked.filter fun i => i.ctx != ctx
    exitedRoles := k.exitedRoles.filter fun x => x.1 != ctx
    chunks := k.chunks.filter fun x => x.1 != ctx
    absent := k.absent.filter fun l => !inRegions (k.teams.filter fun (_, t) => t.ctx == ctx) l
    holder := if k.holder.any gone.contains then none else k.holder
    fifo := k.fifo.filter fun p => !gone.contains p
    deferred := k.deferred.map fun d => if d.ctx == ctx then { d with out := true } else d }

/-- The watch table entries of a context's groups on a core. -/
def State.dropWatches (s : State) (c ctx : Nat) : State :=
  (((s.core c).groups.filter fun (n, g) => n != 63 && g.ctx == ctx).map Prod.fst).foldl
    (fun s slot => (upto 4).foldl (fun s n => s.dropWatch c slot n) s) s

/-- The pieces of a physical range, each within 64 KiB. -/
def rangePieces (r : VRange) : List (Nat × Nat) :=
  (blocks 65536 r.base r.len).map fun b =>
    let lo := Nat.max r.base (65536 * b)
    (lo, Nat.min (r.base + r.len) (65536 * b + 65536) - lo)

/-- The bytes of a context's save area as they stand. -/
def State.areaBytes (s : State) (x : Context) : List Byte :=
  match x.saveArea with
  | some r => s.bytes r.base r.len
  | none => []

/-- The save area is filled: in what form the device keeps the state there is its own, so that its bytes are free (R289, log 21). -/
def State.fillArea (s : State) (x : Context) : State :=
  match x.saveArea with
  | some r => ({ s with free := s.free + r.len }).writePieces s.rootDie (rangePieces r) ((upto r.len).map fun i => Config.freeByte (s.free + i))
  | none => s

/-- A context's state is saved and its resources are freed (R289). -/
def State.saveContext (s : State) (ctx : Nat) : State :=
  let saved := (s.cores.map fun (c, k) => k.savedOf c ctx).filter fun k => !k.isEmpty
  let s := s.cores.foldl (fun s (c, _) => s.dropWatches c ctx) s
  let s := { s with cores := s.cores.map fun (x : Nat × Core) => (x.1, Core.withoutContext x.2 ctx) }
  let s := s.fillArea ((s.context ctx).getD {})
  s.modContext ctx fun x => { x with
    out := true, saved := x.saved ++ saved, image := s.areaBytes x,
    unserved := if x.saved.all SavedCore.isEmpty then [] else x.unserved }

/-- Packets of type 0x03 that wait for a context's state to be saved complete. -/
def State.finishPreempts (s : State) (ctx : Nat) : State :=
  s.queues.foldl (fun s (qn, q) =>
    (q.packets.filter fun p => p.started && pkType p.words == 3 && natBits (pw p.words 2) 15 0 == ctx).foldl
      (fun s p => s.endPacket qn p 0) s) s

/-- PREEMPTION (R57, R289): issue of a context stops; once its work is complete its state is saved, its resources are freed, and a
packet that asked for it completes. -/
def execPreemption (ctx : Nat) (s : State) : Res :=
  .next (match s.context ctx with
    | none => s
    | some x =>
      if !x.preempted then s.stopContext ctx
      else if x.out || !s.quiet ctx then s
      else (s.saveContext ctx).finishPreempts ctx)

/-- PREEMPT_PACKET (R271, R289): it completes once the context's state is saved, at once where it already is. -/
def execPreemptPacket (q : Nat) (s : State) : Res :=
  .next (match s.packetTurn q with
    | none => s
    | some (x, p) =>
      let ctx := natBits (pw p.words 2) 15 0
      if pkType p.words != 3 then s
      else if plainBad p.words then s.endPacket q p cILLEGAL
      else if !s.qpriv x then s.endPacket q p cPRIV
      else match s.context ctx with
        | none => s.endPacket q p cILLEGAL
        | some k =>
          if k.out then s.endPacket q p 0
          else (s.modPacket q p.index fun p => { p with started := true }).stopContext ctx)

/-! ## Restore (R59, R290) -/

/-- The lowest free slot and the first run of units for a group. -/
def Core.findSlot (k : Core) (n : Nat) : Option (Nat × Nat) :=
  match (upto 63).find? fun x => !k.slotTaken x, firstFit k.unitRuns Config.allotUnits n with
  | some slot, some u => some (slot, u)
  | _, _ => none

/-- The slot that stands for a saved one, given the reservations of its team before and after. -/
def newSlot (old new : List (Nat × Nat × Nat × Nat)) (slot : Nat) : Nat :=
  match old.find? fun x => x.2.1 == slot with
  | none => slot
  | some x => match new.find? fun y => y.1 == x.1 with
    | some y => y.2.1
    | none => noSlot

/-- Place the groups of a saved team, one reservation after another: each takes a free slot and units. -/
def placeGroups (sv : SavedCore) (p : Nat) : List (Nat × Nat × Nat × Nat) → Core → Option Core
  | [], k => some k
  | (grp, slot, _, n) :: rest, k =>
    match k.teams.find p with
    | none => none
    | some t =>
      if t.gone.getLsbD grp then placeGroups sv p rest k
      else match k.findSlot n with
        | none => none
        | some (slot', u) =>
          let t := { t with resv := t.resv ++ [(grp, slot', u, n)] }
          let k := { k with teams := k.teams.put p t }
          match (if t.released.getLsbD grp then sv.groups.find slot else none) with
          | none => placeGroups sv p rest k
          | some g =>
            let g := { g with place := some p, unit := u }
            placeGroups sv p rest { k with
              groups := k.groups.put slot' g,
              table := k.table.put slot' (bindGroup g t ((g.lanes.headD {}).pc)) }

/-- Queued operations and samples of a team that has been placed name its groups' new slots. -/
def Core.renameSlots (k : Core) (p : Nat) (old : Team) : Core :=
  let new := ((k.teams.find p).getD {}).resv
  { k with
    teams := k.teams.modify p fun t => { t with queue := t.queue.map fun o => { o with slot := newSlot old.resv new o.slot } }
    deferred := k.deferred.map fun d =>
      if d.out && d.ctx == old.ctx && d.launch == old.launch && old.resv.any fun x => x.2.1 == d.acc.slot then
        { d with out := false, acc := { d.acc with slot := newSlot old.resv new d.acc.slot } }
      else d }

/-- Return a saved team to its core: its region at its former lines, in a free place, with its lease request (R290). -/
def restoreTeam (sv : SavedCore) (k : Core) (x : Nat × Team) : Option (Core × Nat) :=
  match k.freePlace with
  | none => none
  | some p =>
    if !clear k.lineRuns x.2.lbase x.2.lines then none
    else
      let inside := fun (l : Nat) => decide (x.2.lbase ≤ l ∧ l < x.2.lbase + x.2.lines)
      let lmem := (sv.lmem.filter fun (a, _) => inside (a / 128)).foldl (fun m (a, b) => SMap.set 0 m a b)
        (zeroBytes k.lmem (128 * x.2.lbase) (128 * x.2.lines))
      let k := { k with
        teams := k.teams.put p { x.2 with resv := [] }, lmem := lmem,
        absent := (sv.absent.filter inside).foldr insertNat k.absent }
      (placeGroups sv p x.2.resv k).map fun k =>
        let k := k.renameSlots p x.2
        (if sv.leases.contains x.1 then { k with fifo := k.fifo ++ [p] } else k, p)

/-- Return a saved stroke: to its entry, or to the lowest free one, with its bind record (R278). -/
def restoreStroke (k : Core) (x : Nat × Stroke) : Option Core :=
  let free := (upto 16).filter fun e => (k.strokes.find e).isNone
  match (if free.contains x.1 then some x.1 else free.head?) with
  | some e => some { k with strokes := k.strokes.put e x.2, table := k.table.put (64 + e) (bindStroke x.2) }
  | none => none

/-- A fold that may fail. -/
def tryAll {α β : Type} (f : β → α → Option β) : β → List α → Option β
  | b, [] => some b
  | b, x :: xs => match f b x with
    | some b => tryAll f b xs
    | none => none

/-- The order in which teams re-enter the lease queue: those with a lease or request first, as they stood. -/
def SavedCore.teamOrder (sv : SavedCore) : List (Nat × Team) :=
  (sv.leases.filterMap fun p => (sv.teams.find p).map (p, ·)) ++ sv.teams.filter fun (p, _) => !sv.leases.contains p

/-- Return what a saved core holds of one launch; none while something of it cannot be placed. -/
def State.restoreCore (s : State) (ctx num : Nat) (sv : SavedCore) : Option State :=
  let teams := sv.teamOrder.filter fun (_, t) => t.launch == num
  match tryAll (fun k t => (restoreTeam sv k t).map Prod.fst) (s.core sv.core) teams with
  | none => none
  | some k =>
    match tryAll restoreStroke k (sv.strokes.filter fun (_, st) => st.launch == num) with
    | none => none
    | some k =>
      let k := { k with
        inked := k.inked ++ sv.inked.filter fun i => i.launch == num,
        exitedRoles := k.exitedRoles ++ sv.exitedRoles.filter fun x => x.2.1 == num,
        chunks := k.chunks ++ sv.chunks.filter fun x => x.2.1 == num }
      let s := s.setCore sv.core k
      let slots := (k.groups.filter fun (n, g) => n != 63 && g.ctx == ctx && g.launch == num).map Prod.fst
      some (slots.foldl (fun s n => s.armWatches sv.core n) s)

/-- The launches of which something is saved. -/
def Context.savedLaunches (x : Context) : List Nat :=
  sortDedup (x.saved.flatMap fun k => k.teams.map (fun (_, t) => t.launch) ++ k.strokes.map (fun (_, st) => st.launch)
    ++ k.inked.map (fun i => i.launch) ++ k.exitedRoles.map (fun y => y.2.1) ++ k.chunks.map fun y => y.2.1)

/-- What is saved of a context without a launch. -/
def Context.restored (x : Context) (num : Nat) : Context :=
  let saved := (x.saved.map fun k => SavedCore.without k num).filter fun k => !SavedCore.isEmpty k
  { x with saved := saved, unserved := if saved.isEmpty then [] else x.unserved }

/-- Software has modified a save area: ECC is raised in every group saved, and the context is terminated (R289). -/
def State.areaSpoiled (s : State) (ctx : Nat) (x : Context) : State :=
  (x.saved.foldl (fun s k => k.groups.foldl (fun s (slot, g) =>
    let t := (g.place.bind k.teams.find).getD {}
    s.record (s.eventRing ctx) 0x01 (dieOf k.core) (some k.core) (some slot)
      (faultBody { code := cECC } cECC 0 g.grp t.lin g.launch ctx g.draining)) s) (s.modContext ctx fun x => { x with
        saved := [], unserved := [] })).terminateContext ctx cECC

/-- A launch returns, if all of it can be placed; what is parked on pages that could not be served meanwhile fails (R48, R290). -/
def State.restoreLaunch (s : State) (ctx num : Nat) : State :=
  match s.context ctx with
  | none => s
  | some x => match tryAll (fun s sv => s.restoreCore ctx num sv) s x.saved with
    | some s => (x.unserved.foldl (fun s va => s.failParked ctx (· == num) va) s).modContext ctx fun x => x.restored num
    | none => s

/-- Return every launch of a context that can be placed whole; the others wait (R290). -/
def State.restoreContext (s : State) (ctx : Nat) : State :=
  match s.context ctx with
  | none => s
  | some x =>
    let t := s.modContext ctx fun x => { x with preempted := false, out := false }
    if (x.out || !x.saved.isEmpty) && s.areaBytes x != x.image then t.areaSpoiled ctx x
    else x.savedLaunches.foldl (fun s num => s.restoreLaunch ctx num) t

/-- RESTORE (R59, R290): a pre-empted context runs again, and what of it still waits for its place is tried again. -/
def execRestore (ctx : Nat) (s : State) : Res :=
  .next (match s.context ctx with
    | none => s
    | some x => if x.preempted && !x.out then s else s.restoreContext ctx)

/-- RESUME_PACKET (R271, R290): a context whose state is still being saved makes the packet wait. -/
def execResumePacket (q : Nat) (s : State) : Res :=
  .next (match s.packetTurn q with
    | none => s
    | some (x, p) =>
      let ctx := natBits (pw p.words 2) 15 0
      if pkType p.words != 4 then s
      else if plainBad p.words then s.endPacket q p cILLEGAL
      else if !s.qpriv x then s.endPacket q p cPRIV
      else match s.context ctx with
        | none => s.endPacket q p cILLEGAL
        | some k =>
          if !k.preempted then s.endPacket q p 0
          else if !k.out then s
          else (s.restoreContext ctx).endPacket q p 0)

/-! ## What Nopol root creates (R268, R370) -/

/-- QUEUE_CREATE (R268, R269): Nopol root writes a queue's descriptor at an address of the firmware half, or, without words, destroys the
queue. The model keeps the physical place that the address has then; where it has none, or the descriptor would cross 64 KiB, no queue is
created (log 80). -/
def execQueueCreate (q desc : Nat) (words : Option (List (BitVec 32))) (s : State) : Res :=
  .next (if !s.rootAlive then s else match words with
    | none =>
      ({ s with queues := s.queues.erase q } : State).modDie 0 fun d => { d with held := d.held.erase q }
    | some ws =>
      let va := BitVec.ofNat 64 desc
      match (if va.getLsbD 63 && desc % 65536 ≤ 65472 then s.walkAs s.rootDie 0 va else .error cXLATE) with
      | .error _ => s
      | .ok (pa, _, _) =>
        let s := s.putBy s.rootDie pa ((upto 16).flatMap fun i => bytesOf 4 (pw ws i))
        let s := s.modDie 0 fun d => { d with held := d.held.erase q }
        { s with queues := s.queues.put q { desc := pa } })

/-- CONTEXT_CREATE (R15, R68, R273, R329, R370): a context with the roots, registers, buffers and tables that Nopol root gives it; its
launch counter, sticky bits, remrank and remcode are zero, and no tensor identifier is valid. With it comes what Nopol root writes at
bring-up. A context of which a launch is live stays. -/
def execContextCreate (ctx : Nat) (init : ContextInit) (s : State) : Res :=
  .next (if (s.launches.any fun l => l.ctx == ctx) || !s.rootAlive then s
    else
      let x : Context := {
        root := init.root, tagEn := init.tagctl.getLsbD 0, tagAny0 := init.tagctl.getLsbD 1, tidbase := init.tidbase,
        saveArea := init.saveArea, keys := init.keys,
        dbgctl := init.dbgctl, timeout := init.timeout, watch := init.watch, eventDesc := init.eventDesc,
        sampleDesc := init.sampleDesc, cadence := init.cadence, admitted := init.admitted, pager := init.pager,
        comms := init.comms.foldl (fun m (n, t) => m.put n { adopted := some t }) [], blank := upto 256 }
      let s := { s with
        contexts := s.contexts.put ctx x, devid := init.devid, fwRoot := init.fwRoot, hostWins := s.hostWins ++ init.windows,
        mailbox := init.mailbox <|> s.mailbox }
      (init.rootDescs.foldl (fun s (d, a) => s.modDie d fun k => { k with rootDesc := some a }) s).settleBlank ctx)

end Sys2Proof.Machine
end

