-- ==== Sys2Proof/Machine/Debug.lean ====
section
/-! DEFINITION. The host's debug requests (R366 to R368). -/

namespace Sys2Proof.Machine

/-! ## Debug requests (R366) -/

/-- Where a debug request stands. -/
def State.mailboxAt (s : State) (slot : Nat) : Nat := (match s.mailbox with
  | some m => m.base
  | none => 0) + 64 * slot

/-- Word n of a debug request. -/
def State.dbgWord (s : State) (slot n : Nat) : Nat := (s.read32 (s.mailboxAt slot + 4 * n)).toNat

def State.dbgPair (s : State) (slot n : Nat) : Nat := s.dbgWord slot n + 2 ^ 32 * s.dbgWord slot (n + 1)

/-- The context of a request. -/
def State.dbgCtx (s : State) (slot : Nat) : Nat := natBits (s.dbgWord slot 0) 31 16

/-- The request that Nopol root has come to, in the order of the mailbox. -/
def State.dbgTurn (s : State) (slot : Nat) : Bool := s.rootAlive && s.debugQ.head? == some slot

/-- A request is done: its result code stands in word 15 (R366). -/
def State.dbgDone (s : State) (slot : Nat) (code : Code) : State :=
  { (s.putBy s.rootDie (s.mailboxAt slot + 60) (bytesOf 4 code.toNat)) with debugQ := s.debugQ.drop 1 }

/-- DEBUG_RESUME (R366): a halted group resumes. Where the slot named holds no halted group of the context the spec gives no result:
it is free. -/
def execDebugResume (slot : Nat) (s : State) : Res :=
  .next (if !s.dbgTurn slot || natBits (s.dbgWord slot 0) 7 0 != 2 then s
    else
      let c := natBits (s.dbgWord slot 7) 11 0
      let n := natBits (s.dbgWord slot 7) 17 12
      match (s.core c).groups.find n with
      | none => let (x, s) := s.freeCode; s.dbgDone slot x
      | some g =>
        if g.halted && g.ctx == s.dbgCtx slot then
          (s.modGroup c n fun g => { g with halted := false }).dbgDone slot 0
        else let (x, s) := s.freeCode; s.dbgDone slot x)

/-- DEBUG_TERMINATE (R366): every launch of the context is terminated. The spec names no code for their completions: it is free. -/
def execDebugTerminate (slot : Nat) (s : State) : Res :=
  .next (if !s.dbgTurn slot || natBits (s.dbgWord slot 0) 7 0 != 3 then s
    else
      let (x, s) := s.freeCode
      (s.terminateContext (s.dbgCtx slot) x).dbgDone slot 0)

/-! ## The dump (R367, R368): the state of R58 in the model's own layout (log 23) -/

/-- Words of a sparse register file, in order. -/
def regBytes (m : SMap W32) (n : Nat) : List Byte := (upto n).flatMap fun i => bytesOf 4 (m.get 0 i).toNat

/-- A sparse table: its entries, each with its key, after their number. -/
def tabBytes {α : Type} (m : SMap α) (f : α → List Byte) : List Byte :=
  bytesOf 4 m.length ++ m.flatMap fun (i, x) => bytesOf 4 i ++ f x

def boolByte (b : Bool) : List Byte := bytesOf 1 (if b then 1 else 0)

/-- The lane status word of Table 3-5, with the late bit as it is. -/
def Lane.statusWord (l : Lane) : Nat :=
  let kind := match l.wait with
    | .join => some 0
    | .syncg => some 1
    | .synct => some 2
    | .synctRole => some 3
    | .trapret => some 4
    | _ => none
  l.age % 64 * 2 ^ 10 + (if l.trap then 2 ^ 9 else 0) + (if l.exited then 2 ^ 8 else 0) + (if l.parked.isSome then 2 ^ 7 else 0)
    + (if l.late.isSome then 2 ^ 6 else 0) + (if kind.isSome then 2 ^ 5 else 0) + kind.getD 0 * 2 ^ 2

/-- A lane of a group with its allotted v registers. -/
def Lane.dump (l : Lane) (regs : Nat) : List Byte :=
  bytesOf 8 l.pc.toNat ++ bytesOf 8 l.tpc.toNat ++ bytesOf 4 l.tcause.toNat ++ bytesOf 8 l.taddr.toNat ++ bytesOf 8 l.tpcr.toNat
    ++ bytesOf 4 l.tseq.toNat ++ bytesOf 8 l.tret.toNat ++ bytesOf 4 l.statusWord ++ bytesOf 1 l.p.toNat ++ regBytes l.v regs

/-- A group (R58). -/
def Group.dump (c slot : Nat) (g : Group) : List Byte :=
  bytesOf 4 c ++ bytesOf 4 slot ++ bytesOf 4 g.grp ++ bytesOf 4 g.launch ++ regBytes g.s 64 ++ boolByte g.sampleOn
    ++ bytesOf 8 g.gen.k.toNat ++ bytesOf 8 g.gen.sid.toNat ++ regBytes g.gen.n 32
    ++ (g.watch.flatMap fun w => bytesOf 8 w.base.toNat ++ bytesOf 4 w.len.toNat ++ bytesOf 4 w.lanes.toNat ++ bytesOf 4 w.ctl.toNat)
    ++ g.lanes.flatMap fun l => l.dump (8 * g.nunit)

/-- A barrier (Table 15-6). -/
def Barrier.dump (b : Barrier) : List Byte :=
  bytesOf 8 b.handler.toNat ++ bytesOf 4 b.xbytes.toNat ++ bytesOf 4 b.got.toNat ++ bytesOf 2 b.waiters.toNat
    ++ bytesOf 2 b.armed.toNat ++ bytesOf 2 b.epoch.toNat ++ bytesOf 2 b.link.toNat ++ bytesOf 1 b.members.toNat
    ++ bytesOf 1 b.arr.toNat ++ boolByte b.tu ++ boolByte b.tuarr ++ boolByte b.poison ++ boolByte b.plast ++ boolByte b.keep

/-- The class of a cell as the two bits of R106, in the order in which it lists them. -/
def CellClass.bits : CellClass → Nat
  | .fin => 0 | .pinf => 1 | .ninf => 2 | .nan => 3

/-- An accumulator with the classes of its cells. -/
def Acc.dump (a : Acc) : List Byte :=
  bytesOf 4 a.status.toNat ++ tabBytes a.cells fun x => bytesOf 16 x.c.toNat ++ bytesOf 1 x.cls.bits

/-- A plane. -/
def Plane.dump (p : Plane) : List Byte :=
  bytesOf 1 (match p.fmt with
    | some t => t.code.toNat
    | none => 255) ++ bytesOf 4 p.ks ++ bytesOf 4 (BitVec.ofInt 32 p.exp).toNat
    ++ tabBytes p.elems fun x => bytesOf 4 x.toNat

/-- An operand of a queued operation. -/
def Operand.dump : Operand → List Byte
  | .absent => bytesOf 1 0
  | .lmem off pitch sbe swz => bytesOf 1 1 ++ bytesOf 4 off ++ bytesOf 4 pitch ++ bytesOf 4 (BitVec.ofInt 32 sbe).toNat ++ bytesOf 1 swz
  | .handle h rec => bytesOf 1 2 ++ bytesOf 8 h.toNat ++ bytesOf 64 rec.toNat

/-- A queued operation, with its parameter block. -/
def MOp.dump (o : MOp) : List Byte :=
  let k := match o.kind with
    | .mldw src fmt => bytesOf 1 0 ++ src.dump ++ bytesOf 1 fmt.code.toNat
    | .mswap => bytesOf 1 1
    | .mma t blk a b w => bytesOf 1 2 ++ boolByte t ++ bytesOf 64 blk.toNat ++ a.dump ++ b.dump ++ w.dump
    | .mclr m => bytesOf 1 3 ++ bytesOf 1 m.toNat
    | .mguide w g => bytesOf 1 4 ++ bytesOf 4 w.toNat ++ bytesOf 1 g
    | .msta d m => bytesOf 1 5 ++ d.dump ++ bytesOf 4 m.toNat
  k ++ bytesOf 1 o.acc ++ bytesOf 4 o.seq.toNat ++ bytesOf 1 o.slot ++ bytesOf 1 o.lane ++ bytesOf 8 o.pc.toNat
    ++ boolByte o.started ++ bytesOf 4 o.step ++ bytesOf 1 o.parked.length
    ++ (o.parked.flatMap fun (i, a) => bytesOf 1 i ++ bytesOf 8 a.toNat) ++ bytesOf 1 o.stopped.length
    ++ o.stopped.flatMap fun i => bytesOf 1 i

/-- A team, with its region of local memory, and its place among the leases: 1 holds or has asked for it. -/
def Team.dump (t : Team) (c : Nat) (lmem : SMap Byte) (absent : List Nat) (lease : Bool) : List Byte :=
  bytesOf 4 c ++ bytesOf 4 t.launch ++ bytesOf 4 t.lin ++ bytesOf 4 t.lbase ++ bytesOf 4 t.lines ++ boolByte lease
    ++ bytesOf 2 t.leaseCount
    ++ ((rangeFrom t.lbase t.lines).flatMap fun l => boolByte (!absent.contains l))
    ++ ((rangeFrom (128 * t.lbase) (128 * t.lines)).map fun a => lmem.get 0 a)
    ++ tabBytes t.bars Barrier.dump ++ tabBytes t.shapes (fun x => bytesOf 64 x.toNat)
    ++ tabBytes t.accs Acc.dump
    ++ tabBytes t.prog (fun p => bytesOf 4 p.k0 ++ bytesOf 4 p.k1 ++ boolByte p.complete ++ bytesOf 1 p.fault.toNat)
    ++ t.active.dump ++ t.shadow.dump ++ bytesOf 1 t.queue.length ++ t.queue.flatMap MOp.dump

/-- A form of a stroke. -/
def Form.dump (f : Form) : List Byte := [f.base, f.cx, f.cy, f.cz, f.cl].flatMap fun x => bytesOf 4 x.toNat

/-- The place of a comparison in Table 5-12. -/
def cmpNum : Cmp → Nat
  | .eq => 0 | .ne => 1 | .lt => 2 | .le => 3 | .gt => 4 | .ge => 5 | .num => 6 | .nan => 7

/-- A predicate of a stroke. -/
def PForm.dump : PForm → List Byte
  | .uni b => bytesOf 1 0 ++ boolByte b
  | .cmp c g a b => bytesOf 1 1 ++ bytesOf 1 (cmpNum c) ++ boolByte g ++ a.dump ++ b.dump

/-- A stroke (R29), with its entry. -/
def Stroke.dump (c e : Nat) (st : Stroke) : List Byte :=
  bytesOf 4 c ++ bytesOf 1 e ++ bytesOf 4 st.launch ++ bytesOf 4 st.chunk ++ boolByte st.consumer
    ++ ([st.box.x0, st.box.x1, st.box.y0, st.box.y1, st.box.z0, st.box.z1].flatMap fun n => bytesOf 4 n)
    ++ bytesOf 8 st.pc.toNat ++ boolByte st.joining ++ tabBytes st.v Form.dump ++ tabBytes st.s Form.dump
    ++ tabBytes st.p PForm.dump

/-- What of a context is on the cores, and what its save area holds. -/
def State.dumpCores (s : State) (ctx : Nat) : List SavedCore :=
  match s.context ctx with
  | none => []
  | some x => x.saved ++ (s.cores.map fun (c, k) => k.savedOf c ctx).filter fun k => !k.isEmpty

/-- The group, team and stroke sections: each a list of sections. -/
def dumpGroups (ks : List SavedCore) : List (List Byte) := ks.flatMap fun k => k.groups.map fun (n, g) => g.dump k.core n
def dumpTeams (ks : List SavedCore) : List (List Byte) :=
  ks.flatMap fun k => k.teams.map fun (p, t) => t.dump k.core k.lmem k.absent (k.leases.contains p)
def dumpStrokes (ks : List SavedCore) : List (List Byte) := ks.flatMap fun k => k.strokes.map fun (e, st) => st.dump k.core e

/-- An in-flight record (R368) of up to 32 bytes. -/
def flightRecord (addr pc seq kind lane slot : Nat) (data : List Byte) : List Byte :=
  bytesOf 8 addr ++ bytesOf 8 pc ++ bytesOf 4 seq ++ bytesOf 1 data.length ++ bytesOf 1 kind ++ bytesOf 1 lane ++ bytesOf 1 slot
    ++ bytesOf 8 0 ++ padTo 32 data

/-- The in-flight records of a range of bytes, 32 bytes each. -/
def flightRecords (addr pc seq kind lane slot : Nat) (data : List Byte) : List (List Byte) :=
  (chunksOf 32 (data.length / 32 + 1) data).zip (upto (data.length / 32 + 1)) |>.filterMap fun (bs, i) =>
    if bs.isEmpty then none else some (flightRecord (addr + 32 * i) pc seq kind lane slot bs)

/-- The in-flight records of an entry of a store queue that has not been accepted at its home. -/
def StoreReq.flight (q : StoreReq) (s : State) (slot : Nat) : List (List Byte) :=
  let a := q.acc
  let go := fun kind bs => flightRecords a.va.toNat a.pc.toNat a.seq.toNat kind a.lane slot bs
  match q.kind with
  | .store bs => go 0 bs
  | .tag _ zero => if zero then go 0 (List.replicate 64 0) else []
  | .atom o _ => go 1 (bytesOf o.bytes o.operand.toNat)
  | .ordered x => go 1 (bytesOf 4 x.toNat)
  | .writeback => []
  | .setBits lo len x => go 0 (setBitsOf (s.bytes a.pa 64) lo len x)

/-- The in-flight records of a remote store or atomic that has no acknowledgement. -/
def RReq.flight (r : RReq) : List (List Byte) :=
  match r.kind with
  | .rst => flightRecords r.addr.toNat r.pc.toNat 0 4 r.lane r.slot r.data
  | .ratom _ => flightRecords r.addr.toNat r.pc.toNat 0 1 r.lane r.slot r.data
  | .rld _ => []

/-- An entry has been accepted at its home on another die, whose answer is still under way (R302). -/
def State.accepted (s : State) (c : Nat) (q : StoreReq) : Bool :=
  match q.acc.stage with
  | .queued => false
  | .sent rid _ => s.recorded (streamTo (dieOf c) (homeDie q.acc.pa) 0) rid |>.isSome

/-- The in-flight records of a group in issue order: its store queue, and its remote stores and atomics. A transfer and an accumulator
store issue their writes as they perform them, so that none is ever in flight. -/
def State.groupFlight (s : State) (c slot : Nat) (g : Group) : List (List Byte) :=
  let local_ := (g.sq.filter fun q => !s.accepted c q).map fun q => (q.acc.id, q.flight s slot)
  let remote := ((s.die (dieOf c)).reqs.filter fun r => r.core == c && r.slot == slot).map fun r => (r.id, r.flight)
  (sortDedup ((local_ ++ remote).map Prod.fst)).flatMap fun i =>
    ((local_ ++ remote).filter fun x => x.1 == i).flatMap Prod.snd

/-- The in-flight records of a context, group by group; none of a context that has been saved. -/
def State.dumpFlight (s : State) (ctx : Nat) : List (List Byte) :=
  match s.context ctx with
  | none => []
  | some x =>
    if x.out then []
    else s.cores.flatMap fun (c, k) => k.groups.flatMap fun (n, g) => if n = 63 || g.ctx != ctx then [] else s.groupFlight c n g

/-- The pieces of the listed ranges, or the code of the first that cannot be read. -/
def State.dumpRanges (s : State) (ctx : Nat) (list : List Byte) (n : Nat) : Except Code (List (List (Nat × Nat))) :=
  allOk (fun i =>
    let e := (list.drop (16 * i)).take 16
    match s.range s.rootDie ctx { r := true } true (BitVec.ofNat 64 (ofBytes (e.take 8))) (ofBytes (e.drop 8)) with
    | .error (c, _) => .error c
    | .ok ps => if ps.any fun (a, k) => s.bad a k then .error cECC else .ok ps) (upto n)

/-- The header of a dump: context, launch number, and the byte offset and count of each section. -/
def dumpHeader (ctx launch : Nat) (sections : List (List (List Byte))) : List Byte :=
  let go := sections.foldl (fun (x : Nat × List Byte) sec =>
    (x.1 + (sec.map List.length).foldl (· + ·) 0, x.2 ++ bytesOf 4 x.1 ++ bytesOf 4 sec.length)) (64, [])
  padTo 64 (bytesOf 4 ctx ++ bytesOf 4 launch ++ go.2)

/-- What a dump request writes, or its result code where nothing is done. -/
def State.dumpBytes (s : State) (slot ctx : Nat) : Except Code (List (Nat × Nat) × List Byte) :=
  let n := s.dbgWord slot 6
  let launch := match s.launches.find? fun l => l.ctx == ctx with
    | some l => l.num
    | none => ((s.context ctx).getD {}).launches
  if 256 < n then .error cILLEGAL
  else match s.range s.rootDie ctx { r := true } true (BitVec.ofNat 64 (s.dbgPair slot 4)) (16 * n) with
    | .error (c, _) => .error c
    | .ok lp => match s.dumpRanges ctx (s.pieceBytes lp) n with
      | .error c => .error c
      | .ok rs =>
        let ks := s.dumpCores ctx
        let secs := [dumpGroups ks, dumpTeams ks, dumpStrokes ks, rs.map s.pieceBytes, s.dumpFlight ctx]
        let bs := dumpHeader ctx launch secs ++ secs.flatten.flatten
        if s.dbgPair slot 1 % 4096 != 0 || s.dbgWord slot 3 < bs.length then .error cILLEGAL
        else match s.range s.rootDie ctx { w := true } true (BitVec.ofNat 64 (s.dbgPair slot 1)) bs.length with
          | .error (c, _) => .error c
          | .ok ps => .ok (ps, bs)

/-- A dump waits for a stack that holds its range list, a table on the way there, a range, or its area (R325). -/
def State.dumpHeld (s : State) (slot ctx : Nat) : Bool :=
  let waits := fun (ps : List (Nat × Nat)) => ps.any fun (a, k) => s.stackWaits a k
  let n := s.dbgWord slot 6
  let d := s.rootDie
  let va := BitVec.ofNat 64 (s.dbgPair slot 4)
  n ≤ 256 && (s.rangeWaits d ctx va (16 * n) || match s.range d ctx { r := true } true va (16 * n) with
    | .error _ => false
    | .ok lp => waits lp || match s.dumpRanges ctx (s.pieceBytes lp) n with
      | .error _ => false
      | .ok rs => rs.any waits || match s.dumpBytes slot ctx with
        | .error _ => false
        | .ok (ps, _) => ps.any fun (a, k) => s.writeWaits a k)

/-- DEBUG_DUMP (R366 to R368): the context's state, ranges and in-flight records are copied into the dump area, and its work goes
on. A dump of a context that is being pre-empted waits. A request that is none of the three gives ILLEGAL. -/
def execDebugDump (slot : Nat) (s : State) : Res :=
  .next (let op := natBits (s.dbgWord slot 0) 7 0
    let ctx := s.dbgCtx slot
    if !s.dbgTurn slot || op = 2 || op = 3 then s
    else if op != 1 then s.dbgDone slot cILLEGAL
    else match s.context ctx with
      | none => let (x, s) := s.freeCode; s.dbgDone slot x
      | some x =>
        if (x.preempted && !x.out) || s.dumpHeld slot ctx then s
        else match s.dumpBytes slot ctx with
          | .error c => s.dbgDone slot c
          | .ok (ps, bs) => (s.writePieces s.rootDie ps bs).dbgDone slot 0)

end Sys2Proof.Machine
end

