-- ==== Sys2Proof/Machine/Gateway.lean ====
section
/-! DEFINITION. Packets as a gateway receives them, response timeouts, and the adoption of a rank table (R303 to R307, R311, R314, R332,
R340, R342, R343, R374). -/

namespace Sys2Proof.Machine

/-! ## Refusals (R307) -/

/-- What a refused packet was sent for fails with GEN, and it is not resent (R307). -/
def State.staleSent (s : State) (d : Nat) (x : Sent) : State :=
  let s := s.modDie d fun k => { k with sent := k.sent.filter fun y => y != x }
  match (s.die d).reqs.find? fun r => r.fid == x.pkt.fid && x.pkt.kind.toNat ≤ 5 with
  | some r => (s.dropReq d r).failReq r cGEN
  | none => match (s.die d).stripes.find? fun y => y.fid == x.pkt.fid && x.pkt.kind == 0x07 with
    | some y => s.endStripe d y cGEN
    | none => s

/-- The source has adopted another generation of a packet's communicator than the packet carries (R307). -/
def State.outdated (s : State) (x : Sent) : Bool :=
  x.pkt.comm != 0xFFFF && x.pkt.gen != (s.comm x.ctx (x.pkt.comm.toNat % 64)).gen

/-- A refusal reaches the source gateway: the oldest packet that it can mean, which has no other refusal to answer, is to be
resent (log 32); one of another generation than the source has adopted is dropped. -/
def State.onRefusal (s : State) (d : Nat) (p : Fesel) : State :=
  let mine := fun (x : Sent) => x.pkt.fid == p.aux && x.pkt.dst == p.src && (x.due.isNone || x.resent)
  match (s.diesFrom d).find? fun k => (s.die k).sent.any mine with
  | none => s
  | some k =>
    let now := (s.die k).cycle
    let i := (places mine (s.die k).sent).headD 0
    match ((s.die k).sent[i]?).filter s.outdated with
    | some x => s.staleSent k x
    | none => s.modDie k fun g => { g with sent := listModify g.sent i fun x => { x with refused := true, due := some now, resent := false } }

/-- REFUSAL_RESEND (R307): 10 µs after a refusal, and after each resend of a packet that is not accepted, the packet is sent again.
Only the outside knows what is accepted: its event says so (log 32). -/
def execRefusalResend (die : Nat) (fid : BitVec 32) (s : State) : Res :=
  .next (let i := (places (fun (x : Sent) => x.pkt.fid == fid && x.due.isSome) (s.die die).sent).headD 0
    match (s.die die).sent[i]? with
    | none => s
    | some x =>
      let now := (s.die die).cycle
      if x.pkt.fid != fid || x.due.isNone || now < x.due.getD 0 + 10 * Config.cyclesPerUs then s
      else if s.outdated x then s.staleSent die x
      else if x.at_ + s.timeout x.ctx ≤ now then s.modDie die fun k => { k with sent := listErase k.sent i }
      else
        let resend := fun (y : Sent) => { y with due := some now, resent := true }
        ((s.modDie die fun k => { k with sent := listModify k.sent i resend }).putOut die x.port x.pkt).getD s)

/-! ## Packets that arrive -/

/-- The kind is that of a reply. -/
def Fesel.isReply (p : Fesel) : Bool := p.kind == 0x02 || p.kind == 0x04 || p.kind == 0x06

/-- Act on a packet (Table 19-6). -/
def State.actOn (s : State) (d : Nat) (p : Fesel) : State :=
  match p.kind.toNat with
  | 0x01 | 0x03 | 0x05 => s.serve d p
  | 0x02 | 0x04 | 0x06 => s.onReply d p
  | 0x07 => s.onXrq d p
  | 0x08 => s.onXdt d p
  | 0x09 | 0x0A => s.onStripeEnd d p
  | 0x0B => s.onGrant d p
  | 0x0C => s.onCollData d p
  | 0x0D => s.onHeartbeat d p
  | 0x0E => s.onProbe d p
  | 0x0F => s.onProbeReply d p
  | 0x10 => s.onVote d p
  | 0x11 => s.onVerdict d p
  | 0x12 => s.onRefusal d p
  | _ => s.badPacket d

/-- A packet has passed R306: the streams of R371 are checked for all but replies and refusals, which their requests answer for. -/
def State.accept (s : State) (d : Nat) (p : Fesel) : State :=
  if Fesel.isReply p || p.kind = 0x12 then s.actOn d p
  else match s.admission d p with
    | .ok s => s.actOn d p
    | .error s => s

/-- The context whose communicator a packet is checked against: that of its request for a reply, else tctx. -/
def State.packetCtx (s : State) (d : Nat) (p : Fesel) : Option Nat :=
  if Fesel.isReply p then (s.findReq d p).map fun x => x.2.ctx else some p.tctx.toNat

/-- A packet at its gateway (R304, R306, R311, R374): outside L0 it starts the exit and waits for it. -/
def State.packet (s : State) (d : Nat) (p : Fesel) : State :=
  if s.power != .l0 || s.waking then s.wake.waitPacket d p
  else if 7 ≤ p.kind.toNat && (s.context p.tctx.toNat).isNone then s.badPacket d
  else match s.packetCtx d p with
    | none => s
    | some ctx => match s.gate d p ctx with
      | .ok s => s.accept d p
      | .error s => s

/-- The first copy of a packet leaves a list. -/
def dropPacket (d : Nat) (p : Fesel) : List (Nat × Fesel) → List (Nat × Fesel)
  | [] => []
  | x :: xs => if x = (d, p) then xs else x :: dropPacket d p xs

/-- A packet of certain kinds arrives, from the fabric, at a port of its gateway that is up (R303), or from those that the gateway keeps;
one that only waits stays where it is. -/
def State.packetEvent (s : State) (d : Nat) (p : Fesel) (kinds : List (BitVec 5)) : Res :=
  .next (if s.dieCount ≤ d || !kinds.contains p.kind || p.dst != s.devid
      || (!s.gateQ.contains (d, p) && (s.nextPort d 0).isNone) then s
    else
      let t := { s with gateQ := dropPacket d p s.gateQ }
      let u := t.packet d p
      if s.gateQ.contains (d, p) && u == { t with gateQ := t.gateQ ++ [(d, p)] } then s else u)

/-- REMOTE_READ (R304, R332). -/
def execRemoteRead (die : Nat) (p : Fesel) (s : State) : Res := s.packetEvent die p [0x01]
/-- READ_REPLY (R332). -/
def execReadReply (die : Nat) (p : Fesel) (s : State) : Res := s.packetEvent die p [0x02]
/-- REMOTE_WRITE (R304, R332). -/
def execRemoteWrite (die : Nat) (p : Fesel) (s : State) : Res := s.packetEvent die p [0x03]
/-- WRITE_ACK (R333). -/
def execWriteAck (die : Nat) (p : Fesel) (s : State) : Res := s.packetEvent die p [0x04]
/-- REMOTE_ATOMIC (R332). -/
def execRemoteAtomic (die : Nat) (p : Fesel) (s : State) : Res := s.packetEvent die p [0x05]
/-- ATOMIC_REPLY (R332). -/
def execAtomicReply (die : Nat) (p : Fesel) (s : State) : Res := s.packetEvent die p [0x06]
/-- XRQ (R313). -/
def execXrq (die : Nat) (p : Fesel) (s : State) : Res := s.packetEvent die p [0x07]
/-- XDT (R313). -/
def execXdt (die : Nat) (p : Fesel) (s : State) : Res := s.packetEvent die p [0x08]
/-- XCN (R313). -/
def execXcn (die : Nat) (p : Fesel) (s : State) : Res := s.packetEvent die p [0x09]
/-- XER (R313). -/
def execXer (die : Nat) (p : Fesel) (s : State) : Res := s.packetEvent die p [0x0A]
/-- GNT (R313). -/
def execGnt (die : Nat) (p : Fesel) (s : State) : Res := s.packetEvent die p [0x0B]
/-- COLLECTIVE_DATA (R340). -/
def execCollectiveData (die : Nat) (p : Fesel) (s : State) : Res := s.packetEvent die p [0x0C]
/-- HEARTBEAT (R309). -/
def execHeartbeat (die : Nat) (p : Fesel) (s : State) : Res := s.packetEvent die p [0x0D]
/-- PROBE_REQUEST (R309). -/
def execProbeRequest (die : Nat) (p : Fesel) (s : State) : Res := s.packetEvent die p [0x0E]
/-- PROBE_REPLY (R309). -/
def execProbeReply (die : Nat) (p : Fesel) (s : State) : Res := s.packetEvent die p [0x0F]
/-- VERDICT (R308, R310): a vote that reaches the lead, which may send a verdict, or the verdict at a member. -/
def execVerdict (die : Nat) (p : Fesel) (s : State) : Res := s.packetEvent die p [0x10, 0x11]
/-- REFUSAL (R307). -/
def execRefusal (die : Nat) (p : Fesel) (s : State) : Res := s.packetEvent die p [0x12]

/-- BAD_FESEL_PACKET (R303): a packet whose CRC fails or whose kind is reserved is dropped and counted. -/
def execBadFeselPacket (die : Nat) (s : State) : Res := .next (if s.dieCount ≤ die then s else s.badPacket die)

/-- RESPONSE_TIMEOUT (R304, R335, R340): a request, stripe or collective under a fid of a die has waited its context's response
timeout. -/
def execResponseTimeout (die : Nat) (fid : BitVec 32) (s : State) : Res :=
  .next (((s.timeoutReq die fid).timeoutStripe die fid).timeoutColls die fid)

/-! ## Generations (R305, R342, R343) -/

/-- Refused packets of a communicator that carry another generation. -/
def State.staleAll (s : State) (ctx comm : Nat) (gen : BitVec 16) : State :=
  (s.dies.flatMap fun (d, k) => (k.sent.filter fun x => x.refused && x.ctx == ctx && x.pkt.comm == BitVec.ofNat 16 comm
      && x.pkt.gen != gen).map fun x => (d, x)).foldl (fun s (d, x) => s.staleSent d x) s

/-- Held packets of a communicator at an adoption (R306): those of the new generation are accepted in order of arrival, older ones
dropped and counted, and the others stay. -/
def State.releaseHeld (s : State) (ctx comm : Nat) (gen : BitVec 16) : State :=
  let mine := fun (x : Nat × Fesel) => x.1 == ctx && x.2.comm == BitVec.ofNat 16 comm
  let old := fun (p : Fesel) => 32767 < (p.gen - gen).toNat
  let all := s.dies.flatMap fun (d, k) => (k.hold.filter mine).map fun x => (d, x.2)
  let s := { s with dies := s.dies.map fun (x : Nat × Die) =>
    (x.1, { x.2 with hold := x.2.hold.filter fun y => !(mine y && (y.2.gen == gen || old y.2)) }) }
  all.foldl (fun s (d, p) =>
    if p.gen = gen then s.accept d p
    else if old p then s.modComm ctx comm fun c => { c with droppedOld := satInc c.droppedOld }
    else s) s

/-- The staged table of a communicator is adopted, for the whole package at once (R305, R314, R343): a collective of the new generation
takes no packet of an older one. -/
def State.adopt (s : State) (ctx comm : Nat) : Bool × State :=
  match (s.comm ctx comm).staged with
  | none => (false, s)
  | some t =>
    let s := s.modComm ctx comm fun c => { c with adopted := some t, staged := none }
    let s := s.modContext ctx fun x => { x with
      early := x.early.filter fun y => y.2.comm != BitVec.ofNat 16 comm || y.2.gen == t.gen }
    let s := s.staleAll ctx comm t.gen
    let flying := (((s.context ctx).getD {}).colls).filter fun k => k.comm == comm && k.result.isNone
    let s := flying.foldl (fun s k => s.staleColl ctx k) s
    let s := s.closeWindows ctx comm t.gen
    let s := s.releaseHeld ctx comm t.gen
    (true, if comm = 0 then s.tryVerdict ctx else s)

/-- GENRD (R342). -/
def execGenrd (h : Hdr) (f : EF) (s : State) : Res :=
  s.nibIssue (.genrd h f) h fun e _ s =>
    let c := s.comm e.g.ctx (f.mod.toNat % 64)
    let staged := match c.staged with
      | some t => t.gen
      | none => c.gen
    s.nibD e f.d [match f.sub.toNat with
      | 0 => staged ++ c.gen
      | 1 => c.droppedOld
      | 2 => c.blocked
      | _ => c.refused]

/-- RANKSW (R343): the adoption lies between the halves of an acquire-release fence of scope .P. -/
def execRanksw (h : Hdr) (f : EF) (s : State) : Res :=
  s.nibIssue (.ranksw h f) h fun e _ s =>
    s.released e .p e.lanes fun s =>
      let n := f.mod.toNat % 64
      let (new, s) := s.adopt e.g.ctx n
      (s.acquire e.core .p).nibD e f.d [BitVec.ofNat 32 ((s.comm e.g.ctx n).gen.toNat + if new then 65536 else 0)]

end Sys2Proof.Machine
end

