-- ==== Sys2Proof/Machine/Host.lean ====
section
/-! DEFINITION. The host's RDMA operations (R318, R319). -/

namespace Sys2Proof.Machine

/-- A range lies in a region that Nopol root has registered for the host. -/
def State.registered (s : State) (addr len : Nat) : Bool :=
  s.hostWins.any fun w => w.base ≤ addr && addr + len ≤ w.base + w.len

/-- A range cut at the multiples of 64 KiB. `fuel` bounds the pieces. -/
def cutRange : Nat → Nat → Nat → List (Nat × Nat)
  | 0, _, _ => []
  | fuel + 1, a, n =>
    if n = 0 then []
    else
      let k := Nat.min n (65536 - a % 65536)
      (a, k) :: cutRange fuel (a + k) (n - k)

/-- The pieces of a host access. -/
def hostPieces (addr len : Nat) : List (Nat × Nat) := cutRange (len / 65536 + 2) addr len

/-- Every byte of a host access is backed by a stack of a die that the form has. -/
def State.reachable (s : State) (addr len : Nat) : Bool := (blocks 65536 addr len).all fun b => s.backed (65536 * b)

/-- The host ports of the form (Table 0-1a). -/
def State.hostPorts (s : State) : Nat := if s.form = .b940d then 1 else 4

/-- The 64-byte debug requests that a written range holds whole: their places in the mailbox. -/
def State.requestsIn (s : State) (addr len : Nat) : List Nat :=
  match s.mailbox with
  | none => []
  | some m =>
    let first := ceilDiv (addr - m.base) 64
    rangeFrom first (Nat.min (m.len / 64) ((addr + len - m.base) / 64) - first)

/-- The queues whose wridx lies in a written range. -/
def State.wridxIn (s : State) (addr len : Nat) : List Nat :=
  (s.queues.filter fun (_, q) => addr ≤ q.desc + 12 && q.desc + 16 ≤ addr + len).map Prod.fst

/-- The pieces of a host request. -/
def HostReq.pieces (x : HostReq) : List (Nat × Nat) := hostPieces x.addr x.len

/-- The die of the port that a host request came by (R24). -/
def HostReq.die (x : HostReq) : Nat := 2 * x.port

/-- A host request is answered with a negative acknowledgement: outside the registered regions or the memory, at a die that its port's die
does not reach, a write that would change a poisoned granule in part, or a read of one, or of a stack held too long. -/
def State.hostRefused (s : State) (x : HostReq) : Bool :=
  !s.registered x.addr x.len || !s.reachable x.addr x.len
    || x.pieces.any fun (a, k) => !s.linked x.die (homeDie a)
      || if x.bytes.isSome then s.badPart a k else s.bad a k || (s.held a && !s.homeHit a k && s.overdue (stackOf a))

/-- A host request waits for a stack (R325). -/
def State.hostWaits (s : State) (x : HostReq) : Bool :=
  !s.hostRefused x && x.pieces.any fun (a, k) => if x.bytes.isSome then s.writeWaits a k else s.stackWaits a k

/-- What software reads over pieces, at their homes. -/
def State.softReads (s : State) : List (Nat × Nat) → List Byte × State
  | [] => ([], s)
  | (a, k) :: ps =>
    let s := s.homeLoad a k .normal
    let (bs, s) := s.softRead a (s.bytes a k)
    let (cs, s) := s.softReads ps
    (bs ++ cs, s)

/-- A host request is performed at .P, by the die of its port (R24): a wridx that a write changes is read, and a debug request that it
writes is noted. -/
def State.hostAct (s : State) (x : HostReq) : State :=
  if s.hostRefused x then
    let s := if s.registered x.addr x.len && x.bytes.isNone then x.pieces.foldl (fun s (a, k) => s.readArray a k) s else s
    { s with hostOut := s.hostOut ++ [.nak x.port] }
  else match x.bytes with
    | some bs =>
      let s := ((s.softAccesses x.pieces).writePieces x.die x.pieces bs).settleBlanks
      let s := (s.wridxIn x.addr x.len).foldl (fun s q => (s.readQueue q).wake) s
      { s with debugQ := s.debugQ ++ s.requestsIn x.addr x.len }
    | none =>
      let (bs, s) := s.softReads x.pieces
      { s with hostOut := s.hostOut ++ [.rdmaData x.port bs] }

/-- A host request is performed, or kept while its stack holds it or an earlier request of its queue pair waits (R319, R325). -/
def State.hostStep (s : State) (x : HostReq) : State :=
  if s.hostHeld.any (fun y => y.port == x.port && y.qp == x.qp) || s.hostWaits x then { s with hostHeld := s.hostHeld ++ [x] }
  else s.hostAct x

/-- The host's requests that wait are performed in order, as far as they can be. -/
def State.hostGo (s : State) : State := s.hostHeld.foldl State.hostStep { s with hostHeld := [] }

/-- The queue pairs of a port (R318). -/
def queuePairs : Nat := 1024

/-- HOST_RDMA_WRITE (R318, R319). -/
def execHostRdmaWrite (pair : QueuePair) (addr : Nat) (bytes : List Byte) (s : State) : Res :=
  .next (if s.hostPorts ≤ pair.port || queuePairs ≤ pair.qp then s
    else s.hostStep { port := pair.port, qp := pair.qp, addr := addr, len := bytes.length, bytes := some bytes })

/-- HOST_RDMA_READ (R318, R319): the values performed at .P. -/
def execHostRdmaRead (pair : QueuePair) (addr len : Nat) (s : State) : Res :=
  .next (if s.hostPorts ≤ pair.port || queuePairs ≤ pair.qp then s
    else s.hostStep { port := pair.port, qp := pair.qp, addr := addr, len := len, bytes := none })

/-- WRIDX_WRITE (R268, R269): the host writes a queue's wridx, as an RDMA WRITE through a window that Nopol root has registered (R318). The
event names no queue pair: it stands for the first of the first port (log 80). -/
def execWridxWrite (q : Nat) (value : BitVec 32) (s : State) : Res :=
  .next (match s.queues.find q with
    | none => s
    | some x => s.hostStep { port := 0, qp := 0, addr := x.desc + 12, len := 4, bytes := some (bytesOf 4 value.toNat) })

/-- HOST_UNSUPPORTED_OPERATION (R318): a negative acknowledgement, and nothing is performed. -/
def execHostUnsupportedOperation (port : Nat) (s : State) : Res :=
  .next (if s.hostPorts ≤ port then s else { s with hostOut := s.hostOut ++ [.nak port] })

end Sys2Proof.Machine
end

