-- ==== Sys2Proof/Machine/Devices.lean ====
section
/-! DEFINITION. The memory stacks, the ports, and what Nopol root sets in engines, gateways and communicators (R303, R305, R308, R311,
R321 to R326, R359, R371). -/

namespace Sys2Proof.Machine

/-! ## Scrub (R322) -/

/-- SCRUB (R321, R322): the base die reads a codeword of its stack and corrects it. A stack in self-refresh is not read, nor is an
uncorrectable codeword of which the home cache holds a sector, whose value a program reads (log 50). -/
def execScrub (stack granule : Nat) (s : State) : Res :=
  .next (if stackOf (64 * granule) != stack || !s.backed (64 * granule) || s.held (64 * granule)
      || (s.uncorrectable granule && (s.homeHit (64 * granule) 32 || s.homeHit (64 * granule + 32) 32)) then s
    else s.readGranules [granule])

/-! ## Temperature (R324 to R326) -/

/-- An action of a stack starts or ends, with its event (R324, R359). -/
def State.crossing (s : State) (n : Nat) (change : Bool) : State := if change then s.deviceEvent (n / 2) 3 n else s

/-- The stripes of every view go on as far as they can. -/
def State.serveViews (s : State) : State := s.views.keys.foldl (fun s n => s.serveView n) s

/-- The accesses of a stack that groups have queued, in order of their identifiers: core, slot, identifier, and whether a load. -/
def State.waiting (s : State) (n : Nat) : List (Nat × Nat × Nat × Bool) :=
  let all := s.cores.flatMap fun (c, k) => k.groups.flatMap fun (slot, g) =>
    ((g.loads.filter fun r => stackOf r.acc.pa == n).map fun r => (c, slot, r.acc.id, true))
      ++ (g.sq.filter fun q => stackOf q.acc.pa == n).map fun q => (c, slot, q.acc.id, false)
  (sortDedup (all.map fun x => x.2.2.1)).filterMap fun i => all.find? fun x => x.2.2.1 == i

/-- A queued access is performed, if its turn in its group has come. -/
def State.goOn (s : State) (x : Nat × Nat × Nat × Bool) : State :=
  let (c, slot, id, load) := x
  if load then match s.loadOf c slot id with
    | some r => s.serveLoad c slot r
    | none => s
  else match s.storeOf c slot id with
    | some q => s.performStore c slot q
    | none => s

/-- What waits outside the cores for a stack or for a walker's entry goes on as far as it can (R163, R325). -/
def State.retry (s : State) : State :=
  (s.queues.keys.foldl State.readQueue s.recordsGo.hostGo).serveViews.collsGo

/-- A stack has left self-refresh: the requests that waited for it proceed, those of groups in order of arrival, for which their
identifiers stand (R325, log 68). -/
def State.recover (s : State) (n : Nat) : State := ((s.waiting n).foldl State.goOn s).retry

/-- THERMAL_THRESHOLD_CROSSING (R324, R325): a stack's temperature; the actions of Table 19-13 start and end with it, each with an
event. -/
def execThermalThresholdCrossing (stack : Nat) (temp : Int) (s : State) : Res :=
  .next (if 2 * s.dieCount ≤ stack then s
    else
      let k := s.stack stack
      let th1 := decide (85 ≤ temp) || (k.th1 && decide (82 < temp))
      let th2 := decide (95 ≤ temp) || (k.th2 && decide (92 < temp))
      let th3 := decide (105 ≤ temp) || (k.th3.isSome && decide (95 ≤ temp))
      let since := if th3 then some (k.th3.getD (s.die (stack / 2)).cycle) else none
      let t := s.modStack stack fun k => { k with temp := temp, th1 := th1, th2 := th2, th3 := since }
      let t := t.crossing stack (k.th1 != th1)
      let t := t.crossing stack (k.th2 != th2)
      let t := t.crossing stack (k.th3.isSome != th3)
      if k.th3.isSome && !th3 then t.recover stack else t)

/-- A held store of a group waits at its home: in its own die's queue, or as a die-link write received there. -/
def State.waitsAtHome (s : State) (c : Nat) (q : StoreReq) : Bool :=
  match q.acc.stage with
  | .queued => homeDie q.acc.pa == dieOf c
  | .sent rid _ => s.streams.any fun (_, x) => x.packets.any fun (_, y) =>
      let p := Pkt.ofSlot (y.headD 0)
      (p.op == 0x03 || p.op == 0x0E) && p.rid == rid && p.src == dieOf c && p.dst == homeDie q.acc.pa

/-- The loads of a group that wait for a stack fail (R326). -/
def State.failLoads (s : State) (n c slot : Nat) : State :=
  (s.group c slot).loads.foldl (fun s r => if stackOf r.acc.pa = n then s.serveLoad c slot r else s) s

/-- The atomics of a group that wait for a stack fail, and each store that it holds delivers THERM once (R326). -/
def State.failStores (s : State) (n c slot : Nat) : State :=
  (s.group c slot).sq.foldl (fun s q =>
    if stackOf q.acc.pa != n then s
    else if q.kind.isAtom then s.performStore c slot q
    else if q.acc.therm || !s.needsStack q || !s.waitsAtHome c q then s
    else
      let mark := fun (r : StoreReq) => if r.acc.id == q.acc.id then { r with acc := { r.acc with therm := true } } else r
      (s.modGroup c slot fun g => { g with sq := g.sq.map mark }).deliver c slot
        { lane := q.acc.lane, f := { code := cTHERM, addr := q.acc.va, pc := q.acc.pc, seq := q.acc.seq } }) s

/-- The address at which the walk of an engine stands at a write that a stack holds. -/
def stopsAt (n : Nat) : Option (Nat × Stop) → Option W64
  | some (_, .hold k va) => if k = n then some va else none
  | _ => none

/-- The engine commands of a core whose writes a stack holds deliver THERM once (R326). -/
def State.failCmds (s : State) (n c : Nat) : State :=
  (s.core c).cmds.foldl (fun s k =>
    if k.therm || !s.cmdReady c k then s
    else match stopsAt n (s.runTransfer c k).2 with
      | none => s
      | some va => (s.modCmd c k.seq fun q => { q with therm := true }).engFault c k { code := cTHERM, addr := va }) s

/-- Where an accumulator store at the head of a team's queue stops. -/
def State.mstaStop (s : State) (c place : Nat) (o : MOp) : Option (Nat × Stop) :=
  match o.kind with
  | .msta dst mod =>
    let eo := match dst with
      | .handle _ rec => recSigned rec 80 6
      | _ => (field mod 8 6).toInt
    (State.mstaCells (o.master c place) place ((s.team c place).acc o.acc) dst ((Ty.ofCode (mod.toNat % 32)).getD .f32)
      (Rnd.ofCode (field mod 5 3)) (mod.getLsbD 17) (mod.getLsbD 18) eo (1024 - o.step) o.step s).2
  | _ => none

/-- The accumulator store that a team's engine queue has come to, held by a stack, delivers THERM once (R326). -/
def State.failMsta (s : State) (n c place : Nat) : State :=
  match (s.team c place).queue with
  | [] => s
  | o :: _ =>
    if o.therm || !s.headReady c place o then s
    else match stopsAt n (s.mstaStop c place o) with
      | none => s
      | some va =>
        (s.modHead c place fun q => { q with therm := true }).opFault c place o [o.acc] { code := cTHERM, addr := va }

/-- The status bytes of a die's third-party reads that a stack holds deliver THERM once (R326, R335). -/
def State.failStripes (s : State) (n d : Nat) : State :=
  (s.die d).stripes.foldl (fun s x => match s.joinCmd d x with
    | none => s
    | some j =>
      let va := j.status + BitVec.ofNat 64 (x.stripe - j.first)
      let here := match s.mapped j.core j.ctx va with
        | .ok (pa, _) => stackOf pa == n
        | .error _ => false
      if x.result.isNone || x.therm || !here || !s.statusHeld d j x then s
      else
        let mark := fun (y : Stripe) => if y.fid == x.fid then { y with therm := true } else y
        (s.modDie d fun k => { k with stripes := k.stripes.map mark }).deliver j.core j.slot
          { lane := j.lane, f := { code := cTHERM, addr := va, eng := true, pc := j.pc, seq := j.seq } }) s

/-- TH3_TIMEOUT (R326): 10 ms after a stack reached TH3, what waits for it fails or delivers THERM. -/
def execTh3Timeout (stack : Nat) (s : State) : Res :=
  .next (if !s.overdue stack then s
    else
      let s := s.cores.foldl (fun s (c, k) =>
        let s := k.groups.keys.foldl (fun s slot => (s.failLoads stack c slot).failStores stack c slot) s
        let s := s.failCmds stack c
        k.teams.keys.foldl (fun s p => s.failMsta stack c p) s) s
      ((upto s.dieCount).foldl (fun s d => s.failStripes stack d) s).serveViews.collsGo)

/-! ## Engines (R359, R371) -/

/-- A freeze record of an engine or stream that Nopol root freezes, to its own buffer (R359). The spec gives it no code: it is
free. -/
def State.masterRecord (s : State) (d : Nat) (core slot : Option Nat) (rem : Bool) : State :=
  let (x, s) := s.freeCode
  let f : FaultRec := { code := x, rem := rem }
  s.record (s.rootRing d) 0x02 d core slot (faultBody f f.code 0 0 0 0 0 false)

/-- A number put into a list or taken out of it. -/
def setIn (b : Bool) (n : Nat) (xs : List Nat) : List Nat := if b then insertNat n xs else xs.filter (· != n)

/-- The die of a master, and whether the form has it. -/
def EngineUnit.home : EngineUnit → Nat
  | .copy d _ => d
  | .gather k => k / 2
  | .join d => d
  | .matrix c => dieOf c
  | .agent c => dieOf c
  | .ingress _ => 0

/-- A master is frozen. -/
def State.isFrozen (s : State) : EngineUnit → Bool
  | .copy d n => (s.die d).copyFrozen.contains n
  | .gather k => (s.die (k / 2)).copyFrozen.contains (8 + k % 2)
  | .join d => (s.die d).joinFrozen
  | .matrix c => (s.core c).mtxFrozen
  | .agent c => (s.core c).agentFrozen
  | .ingress x => s.dies.any fun (_, d) => d.frozenSrc.any fun y => y.1 == x

/-- Freeze or unfreeze a master. A stream is frozen at die 0, whose mark every gateway heeds, and loses every mark. -/
def State.setFrozen (s : State) (b : Bool) : EngineUnit → State
  | .copy d n => s.modDie d fun k => { k with copyFrozen := setIn b n k.copyFrozen }
  | .gather g => s.modDie (g / 2) fun k => { k with copyFrozen := setIn b (8 + g % 2) k.copyFrozen }
  | .join d => s.modDie d fun k => { k with joinFrozen := b }
  | .matrix c => s.modCore c fun k => { k with mtxFrozen := b }
  | .agent c => s.modCore c fun k => { k with
      agentFrozen := b, groups := k.groups.modify 63 fun g => { g with frozen := if b then some 0 else none } }
  | .ingress x =>
    if b then s.modDie 0 fun k => { k with frozenSrc := k.frozenSrc ++ [(x, 0)] }
    else { s with dies := s.dies.map fun (y : Nat × Die) =>
      (y.1, { y.2 with frozenSrc := y.2.frozenSrc.filter fun z => z.1 != x }) }

/-- The freeze record of a master: a matrix unit's names its core, an agent's its core and slot 63, a stream's a remote peer (R371). A
stream that Nopol root freezes has no packet that would name a target context: each context that admits its source is one, with its rank
in communicator 0 there (log 81). -/
def State.frozenRecord (s : State) : EngineUnit → State
  | .copy d _ => s.masterRecord d none none false
  | .gather k => s.masterRecord (k / 2) none none false
  | .join d => s.masterRecord d none none false
  | .matrix c => s.masterRecord (dieOf c) (some c) none false
  | .agent c => s.masterRecord (dieOf c) (some c) (some 63) false
  | .ingress x =>
    let ctxs := s.contexts.filter fun (_, k) => k.admitted.contains x
    if ctxs.isEmpty then s.masterRecord 0 none none true else ctxs.foldl (fun s (n, _) => s.sourceRecord 0 n 0 x) s

/-- A unit that a die or core of the form has: 8 copy engines of a die, 2 stacks. -/
def State.hasUnit (s : State) : EngineUnit → Bool
  | .copy d n => decide (d < s.dieCount) && decide (n < 8)
  | .gather k => decide (k < 2 * s.dieCount)
  | .join d => decide (d < s.dieCount)
  | .matrix c => decide (c < s.coreCount)
  | .agent c => decide (c < s.coreCount)
  | .ingress _ => true

/-- MASTER_FREEZE (R370, R371): Nopol root freezes or unfreezes a master that is not a group; a freeze is reported. -/
def execMasterFreeze (unit : EngineUnit) (frozen : Bool) (s : State) : Res :=
  .next (if !s.hasUnit unit || !s.rootAlive || s.isFrozen unit == frozen then s
    else if frozen then (s.setFrozen true unit).frozenRecord unit
    else s.setFrozen false unit)

/-! ## Ports, block list, tables, join engines -/

/-- FESEL_PORT_DOWN (R303). -/
def execFeselPortDown (die port : Nat) (s : State) : Res :=
  .next (if s.dieCount ≤ die || 8 ≤ port then s
    else s.modDie die fun k => { k with portsDown := setIn true port k.portsDown })

/-- FESEL_PORT_UP (R303). -/
def execFeselPortUp (die port : Nat) (s : State) : Res :=
  .next (if s.dieCount ≤ die || 8 ≤ port then s
    else s.modDie die fun k => { k with portsDown := setIn false port k.portsDown })

/-- BLOCK_LIST_REMOVAL (R308). -/
def execBlockListRemoval (die : Nat) (device : BitVec 20) (s : State) : Res :=
  .next (if s.dieCount ≤ die || !s.rootRuns die then s else s.modDie die fun k => { k with blockList := k.blockList.filter (· != device) })

/-- RANK_TABLE_STAGE (R305): a later RANKSW adopts the table. -/
def execRankTableStage (ctx comm : Nat) (table : RankTable) (s : State) : Res :=
  .next (if 64 ≤ comm || !s.rootAlive then s else s.modComm ctx comm fun c => { c with staged := some table })

/-- JOIN_ENGINE_ARM (R292, R311): while a join engine is armed the package goes no deeper than L1, and leaves a deeper state. -/
def execJoinEngineArm (die : Nat) (armed : Bool) (s : State) : Res :=
  .next (if s.dieCount ≤ die || !s.rootRuns die then s
    else
      let s := s.modDie die fun k => { k with joinArmed := armed }
      if armed && s.power != .l0 && s.power != .l1 then s.wake else s)

end Sys2Proof.Machine
end

