-- ==== Sys2Proof/Machine/FloatOps.lean ====
section
/-! DEFINITION. Floating-point and packed instructions (R131 to R138). All of them ink a stroke. -/

namespace Sys2Proof.Machine

/-- Rounding mode of an instruction. -/
def VF.rnd (f : VF) : Rnd := Rnd.ofCode f.rc

/-- Operands A and B of a lane after their sign bits (R121), in a format. -/
def Env.fA (e : Env) (l : Nat) (f : VF) (t : Fmt) : Nat := signOp t f.nega f.absa (e.src32 l f.a).toNat
def Env.fB (e : Env) (l : Nat) (f : VF) (t : Fmt) : Nat := signOp t f.negb f.absb (e.srcB32 l f).toNat

/-- An F32 result from A, B and the old D. -/
def f32Op (i : Instr) (h : Hdr) (f : VF) (op : Nat → Nat → Nat → Nat) (s : State) : Res :=
  s.issueInk i h fun e s => s.writeD e f.d fun l =>
    [BitVec.ofNat 32 (op (e.fA l f fF32) (e.fB l f fF32) (e.src32 l f.d).toNat)]

/-- FADD (R132). -/
def execFadd (h : Hdr) (f : VF) (s : State) : Res := f32Op (.fadd h f) h f (fun a b _ => faddBits fF32 (VF.rnd f) a b) s
/-- FSUB (R132). -/
def execFsub (h : Hdr) (f : VF) (s : State) : Res := f32Op (.fsub h f) h f (fun a b _ => fsubBits fF32 (VF.rnd f) a b) s
/-- FMUL (R132). -/
def execFmul (h : Hdr) (f : VF) (s : State) : Res := f32Op (.fmul h f) h f (fun a b _ => fmulBits fF32 (VF.rnd f) a b) s
/-- FFMA (R132). -/
def execFfma (h : Hdr) (f : VF) (s : State) : Res := f32Op (.ffma h f) h f (fun a b d => ffmaBits fF32 (VF.rnd f) a b d) s
/-- FDIV (R132). -/
def execFdiv (h : Hdr) (f : VF) (s : State) : Res := f32Op (.fdiv h f) h f (fun a b _ => fdivBits fF32 (VF.rnd f) a b) s
/-- FMIN (R133). -/
def execFmin (h : Hdr) (f : VF) (s : State) : Res := f32Op (.fmin h f) h f (fun a b _ => fminmax fF32 false a b) s
/-- FMAX (R133). -/
def execFmax (h : Hdr) (f : VF) (s : State) : Res := f32Op (.fmax h f) h f (fun a b _ => fminmax fF32 true a b) s

/-- FCMP (R134). -/
def execFcmp (h : Hdr) (f : VF) (s : State) : Res :=
  s.issueInk (.fcmp h f) h fun e s => s.writeP e f.pred.val fun l =>
    fcmpVal (Cmp.ofCode f.rc) (fF32.decode (e.fA l f fF32)) (fF32.decode (e.fB l f fF32))

/-- A transcendental instruction (R135). -/
def transOp (i : Instr) (t : Trans) (h : Hdr) (f : VF) (s : State) : Res :=
  f32Op i h f (fun a _ _ => transBits t (VF.rnd f) a) s

/-- FRCP (R135). -/
def execFrcp (h : Hdr) (f : VF) (s : State) : Res := transOp (.frcp h f) .rcp h f s
/-- FRSQ (R135). -/
def execFrsq (h : Hdr) (f : VF) (s : State) : Res := transOp (.frsq h f) .rsq h f s
/-- FSQRT (R135). -/
def execFsqrt (h : Hdr) (f : VF) (s : State) : Res := transOp (.fsqrt h f) .sqrt h f s
/-- FEXP2 (R135). -/
def execFexp2 (h : Hdr) (f : VF) (s : State) : Res := transOp (.fexp2 h f) .exp2 h f s
/-- FLOG2 (R135). -/
def execFlog2 (h : Hdr) (f : VF) (s : State) : Res := transOp (.flog2 h f) .log2 h f s
/-- FSIN (R135). -/
def execFsin (h : Hdr) (f : VF) (s : State) : Res := transOp (.fsin h f) .sin h f s
/-- FCOS (R135). -/
def execFcos (h : Hdr) (f : VF) (s : State) : Res := transOp (.fcos h f) .cos h f s
/-- FTANH (R135). -/
def execFtanh (h : Hdr) (f : VF) (s : State) : Res := transOp (.ftanh h f) .tanh h f s

/-- FSCALE (R136): B is a 32-bit integer without sign bits. -/
def execFscale (h : Hdr) (f : VF) (s : State) : Res :=
  s.issueInk (.fscale h f) h fun e s => s.writeD e f.d fun l =>
    [BitVec.ofNat 32 (fscaleBits (VF.rnd f) (e.fA l f fF32) (e.srcB32 l f).toInt)]

/-- FCLASS (R136). -/
def execFclass (h : Hdr) (f : VF) (s : State) : Res :=
  s.issueInk (.fclass h f) h fun e s => s.writeD e f.d fun l => [BitVec.ofNat 32 (2 ^ fclassNo (e.src32 l f.a).toNat)]

/-- FRND (R136). -/
def execFrnd (h : Hdr) (f : VF) (s : State) : Res :=
  f32Op (.frnd h f) h f (fun a _ _ => fF32.encode (VF.rnd f) false (frndVal (VF.rnd f) (fF32.decode a))) s

/-- The element format of a packed instruction (R131). -/
def VF.elem (f : VF) : Fmt := if f.sub = 1 then fBF16 else fF16

/-- An operation on both 16-bit elements (R97, R137). -/
def packed (op : Nat → Nat → Nat → Nat) (a b d : Nat) : Nat :=
  op (a % 65536) (b % 65536) (d % 65536) + 65536 * op (a / 65536) (b / 65536) (d / 65536)

/-- A packed result from A, B and the old D; the sign bits act on both elements (R137). -/
def x2Op (i : Instr) (h : Hdr) (f : VF) (op : Fmt → Nat → Nat → Nat → Nat) (s : State) : Res :=
  s.issueInk i h fun e s => s.writeD e f.d fun l =>
    let t := VF.elem f
    let g := fun a b d => op t (signOp t f.nega f.absa a) (signOp t f.negb f.absb b) d
    [BitVec.ofNat 32 (packed g (e.src32 l f.a).toNat (e.srcB32 l f).toNat (e.src32 l f.d).toNat)]

/-- XADD (R137). -/
def execXadd (h : Hdr) (f : VF) (s : State) : Res := x2Op (.xadd h f) h f (fun t a b _ => faddBits t (VF.rnd f) a b) s
/-- XMUL (R137). -/
def execXmul (h : Hdr) (f : VF) (s : State) : Res := x2Op (.xmul h f) h f (fun t a b _ => fmulBits t (VF.rnd f) a b) s
/-- XFMA (R137). -/
def execXfma (h : Hdr) (f : VF) (s : State) : Res := x2Op (.xfma h f) h f (fun t a b d => ffmaBits t (VF.rnd f) a b d) s
/-- XMIN (R133, R137). -/
def execXmin (h : Hdr) (f : VF) (s : State) : Res := x2Op (.xmin h f) h f (fun t a b _ => fminmax t false a b) s
/-- XMAX (R133, R137). -/
def execXmax (h : Hdr) (f : VF) (s : State) : Res := x2Op (.xmax h f) h f (fun t a b _ => fminmax t true a b) s

/-! ## Conversion, packing, dot products (R139 to R146) -/

/-- Element i of n bits put into a register's value. -/
def putElem (n i : Nat) (old x : Nat) : Nat :=
  let lo := n * i
  old - old / 2 ^ lo % 2 ^ n * 2 ^ lo + x % 2 ^ n * 2 ^ lo

/-- CVT (R140). -/
def execCvt (h : Hdr) (f : VF) (s : State) : Res :=
  let st := (Ty.ofCode (modBits f.mod 4 0)).getD .b32
  s.issueInk (.cvt h f) h fun e s => s.writeD e f.d fun l =>
    let a := (if st.is64 then (e.src64 l (st == .i64) f.a).toNat else (e.src32 l f.a).toNat)
    let x := convert st f.ty (VF.rnd f) f.sat (f.mod.getLsbD 5) (a / 2 ^ (st.width * modBits f.mod 8 6))
    if f.mod.getLsbD 12 then [BitVec.ofNat 32 (putElem f.ty.width (modBits f.mod 11 9) (e.src32 l f.d).toNat x)]
    else valRegs f.ty.is64 (BitVec.ofNat 64 x)

/-- PACK (R141). -/
def execPack (h : Hdr) (f : VF) (s : State) : Res :=
  let st : Ty := if f.ty.isFloat then .f32 else .i32
  let k := modBits f.mod 1 0
  s.issueInk (.pack h f) h fun e s => s.writeD e f.d fun l =>
    let c := fun x => convert st f.ty (VF.rnd f) f.sat (f.mod.getLsbD 2) x
    let x := putElem f.ty.width (2 * k) (e.src32 l f.d).toNat (c (e.src32 l f.a).toNat)
    [BitVec.ofNat 32 (putElem f.ty.width (2 * k + 1) x (c (e.src32 l f.b).toNat))]

/-- UNPACK (R142). -/
def execUnpack (h : Hdr) (f : VF) (s : State) : Res :=
  let dt : Ty := if f.ty.isFloat then .f32 else if f.ty.isSigned then .i32 else .n32
  s.issueInk (.unpack h f) h fun e s => s.writeD e f.d fun l =>
    [BitVec.ofNat 32 (convert f.ty dt .rne false false ((e.src32 l f.a).toNat / 2 ^ (f.ty.width * modBits f.mod 2 0)))]

/-- A dot product of n elements (R113, R144); in I format B's elements have A's type. -/
def dotOp (i : Instr) (n : Nat) (h : Hdr) (f : VF) (s : State) : Res :=
  let tb := if f.imm.isSome then f.ty else (Ty.ofCode (modBits f.mod 4 0)).getD f.ty
  s.issueInk i h fun e s => s.writeD e f.d fun l =>
    [BitVec.ofNat 32 (dotBits f.ty tb n (VF.rnd f) (e.src32 l f.a).toNat (e.srcB32 l f).toNat (e.src32 l f.c)
      (e.src32 l f.d).toNat)]

/-- DOT4 (R144). -/
def execDot4 (h : Hdr) (f : VF) (s : State) : Res := dotOp (.dot4 h f) 4 h f s
/-- DOT8 (R144). -/
def execDot8 (h : Hdr) (f : VF) (s : State) : Res := dotOp (.dot8 h f) 8 h f s

/-- DSCL (R145). -/
def execDscl (h : Hdr) (f : VF) (s : State) : Res :=
  s.issueInk (.dscl h f) h fun e s => s.writeD e f.d fun l =>
    let x := (e.src32 l f.a).toNat / 2 ^ (8 * modBits f.mod 1 0) % 256
    let y := (e.src32 l f.b).toNat / 2 ^ (8 * modBits f.mod 3 2) % 256
    [if x = 255 || y = 255 then 0x80000000 else BitVec.ofInt 32 ((x : Int) - 127 + ((y : Int) - 127))]

end Sys2Proof.Machine
end

