-- ==== Sys2Proof/Machine/Lanes.lean ====
section
/-! DEFINITION. Cross-lane and random-number instructions, and pairs (R147 to R157, R81 to R83). -/

namespace Sys2Proof.Machine

/-- The source lane of SHFL (R148): mode, segment width, lane, control value. -/
def shflSource (mode w l c : Nat) : Option Nat :=
  let b0 := l - l % w
  match mode with
  | 0 => some (b0 + c % w)
  | 1 => if c < w && b0 + c ≤ l then some (l - c) else none
  | 2 => if c < w && l + c < b0 + w then some (l + c) else none
  | _ => some (b0 + ((l % w) ^^^ (c % w)))

/-- SHFL (R148). -/
def execShfl (h : Hdr) (f : VF) (s : State) : Res :=
  s.issueInk (.shfl h f) h fun e s =>
    let w := if f.imm.isSome then 32 else 2 ^ modBits f.mod 2 0
    let from_ := fun l => match shflSource f.sub.toNat w l (e.srcB32 l f).toNat with
      | some k => if e.active.contains k then some k else none
      | none => none
    (s.writeD e f.d fun l => valRegs f.ty.is64 (e.src ((from_ l).getD l) f.ty f.a)).writeP e f.pred.val
      fun l => (from_ l).isSome

/-- VOTE (R149): the result and the truth value of a mode. -/
def voteVal (mode : Nat) (active : List Nat) (q : Nat → Bool) : W32 × Bool :=
  let yes := active.filter q
  let bool := fun (b : Bool) => ((if b then 1 else 0 : W32), b)
  match mode with
  | 0 => bool (yes.length == active.length)
  | 1 => bool (!yes.isEmpty)
  | 2 => bool (yes.isEmpty || yes.length == active.length)
  | 3 => (maskOf 32 yes, false)
  | _ => (BitVec.ofNat 32 yes.length, false)

/-- VOTE (R149); a destination predicate of 0b111 is none. -/
def execVote (h : Hdr) (f : VF) (s : State) : Res :=
  s.issueInk (.vote h f) h fun e s =>
    let r := voteVal f.sub.toNat e.active fun l => (e.g.lane l).pred f.pred.val
    (s.writeD e f.d fun _ => [r.1]).writeP e (modBits f.mod 2 0) fun _ => r.2

/-- One step of REDL and SCANL (R150). -/
def reduceStep (f : VF) (v x : W32) : W32 :=
  let n := fun k => BitVec.ofNat 32 k
  let int := fun (g : Int → Int → Int) =>
    loHalf (narrow f.ty f.sat (g (valIn f.ty (v.zeroExtend 64)) (valIn f.ty (x.zeroExtend 64))))
  match f.sub.toNat, f.ty with
  | 0, .f32 => n (faddBits fF32 (VF.rnd f) v.toNat x.toNat)
  | 1, .f32 => n (fminmax fF32 false v.toNat x.toNat)
  | 2, .f32 => n (fminmax fF32 true v.toNat x.toNat)
  | 0, _ => int (· + ·)
  | 1, _ => int fun a b => if a ≤ b then a else b
  | 2, _ => int fun a b => if a ≤ b then b else a
  | 3, _ => v &&& x
  | 4, _ => v ||| x
  | _, _ => v ^^^ x

/-- The identities of Table 9-9. -/
def reduceIdentity (f : VF) : W32 :=
  match f.sub.toNat, f.ty with
  | 1, .i32 => 0x7FFFFFFF
  | 1, .n32 => 0xFFFFFFFF
  | 1, _ => 0x7F800000
  | 2, .i32 => 0x80000000
  | 2, .n32 => 0
  | 2, _ => 0xFF800000
  | 3, _ => 0xFFFFFFFF
  | _, _ => 0

/-- The first value of a reduction; a NaN is the canonical one, since no reduction passes a payload on (R95, R96). -/
def reduceFirst (ty : Ty) (x : W32) : W32 :=
  if ty = .f32 && (fF32.decode x.toNat).isNan then BitVec.ofNat 32 fF32.canonNan else x

/-- The values of A of the lanes up to and including one, combined in ascending order; none for no lane. -/
def combine (f : VF) (val : Nat → W32) : List Nat → Option W32
  | [] => none
  | l :: ls => some (ls.foldl (fun v k => reduceStep f v (val k)) (reduceFirst f.ty (val l)))

/-- REDL (R150). -/
def execRedl (h : Hdr) (f : VF) (s : State) : Res :=
  s.issueInk (.redl h f) h fun e s => s.writeD e f.d fun _ => [(combine f (fun l => e.src32 l f.a) e.active).getD 0]

/-- SCANL (R150). -/
def execScanl (h : Hdr) (f : VF) (s : State) : Res :=
  s.issueInk (.scanl h f) h fun e s => s.writeD e f.d fun l =>
    let upTo := e.active.filter fun k => if f.mod.getLsbD 0 then k < l else k ≤ l
    [(combine f (fun l => e.src32 l f.a) upTo).getD (reduceIdentity f)]

/-- MATCH (R151). -/
def execMatch (h : Hdr) (f : VF) (s : State) : Res :=
  s.issueInk (.match_ h f) h fun e s => s.writeD e f.d fun l =>
    [maskOf 32 (e.active.filter fun k => e.src k f.ty f.a == e.src l f.ty f.a)]

/-- ELECT (R151). -/
def execElect (h : Hdr) (f : VF) (s : State) : Res :=
  s.issueInk (.elect h f) h fun e s =>
    let n := e.active.headD 0
    (s.writeD e f.d fun _ => [BitVec.ofNat 32 n]).writeP e f.pred.val fun l => l == n

/-! ## Random numbers -/

/-- The output for a key, stream and position (R155). -/
def rngOut (k sid : W64) (pos : Nat) : W32 :=
  let m1 : W64 := 0xA3B195D46C2EF0B7
  let m2 : W64 := 0x8F1DC7A53E69B42D
  let sw : W64 := 0x5B3CD81F29E4A76B
  let x := k + sid * sw
  let x := x ^^^ (BitVec.ofNat 64 pos * m1)
  let x := x ^^^ (x >>> 31)
  let x := x * m2
  let x := x ^^^ (x >>> 29)
  let x := x * m1
  let x := x ^^^ (x >>> 32)
  loHalf x

/-- A draw typed: bits, or an exact F32 in [0, 1) (R155). -/
def rngTyped (t : Ty) (x : W32) : W32 :=
  if t = .f32 then BitVec.ofNat 32 (fF32.encode .rne false (.fin false (x.toNat / 256) (-24))) else x

/-- The primary of this issue cycle is an RNGSEED whose state remains (R157). -/
def State.seeded (s : State) : Bool :=
  match s.iss.snap with
  | some x => x.seeded
  | none => false

/-- The draw counters of the active lanes set. -/
def State.setCounters (s : State) (e : Env) (val : Nat → W32) : State :=
  s.modGroup e.core e.slot fun g =>
    { g with gen := { g.gen with n := e.active.foldl (fun n l => SMap.set 0 n l (val l)) g.gen.n } }

/-- RNG (R155). -/
def execRng (h : Hdr) (f : VF) (s : State) : Res :=
  s.issueInk (.rng h f) h fun e s =>
    let n := fun l => e.g.gen.n.get 0 l
    let s := s.writeD e f.d fun l => [rngTyped f.ty (rngOut e.g.gen.k e.g.gen.sid (32 * (n l).toNat + l))]
    if s.seeded then s else s.setCounters e fun l => n l + 1

/-- RNGSEED (R156). -/
def execRngseed (h : Hdr) (f : VF) (s : State) : Res :=
  s.issueInk (.rngseed h f) h fun e s =>
    match e.active with
    | [] => s
    | l :: _ => s.modGroup e.core e.slot fun g =>
      { g with gen := { k := e.src64 l false f.a, sid := e.src64 l false f.b, n := [] } }

/-- RNGSKIP (R156). -/
def execRngskip (h : Hdr) (f : VF) (s : State) : Res :=
  s.issueInk (.rngskip h f) h fun e s => s.setCounters e fun l => e.g.gen.n.get 0 l + e.srcB32 l f

/-! ## Pairs -/

/-- One operation of a pair on 32-bit values, rounding RNE (R81). -/
def pairVal1 (o : PairOp) (a b d : Nat) : Nat :=
  let int := fun (t : Ty) (g : Int → Int → Int → Int) =>
    (narrow t false (g (valIn t (BitVec.ofNat 64 a)) (valIn t (BitVec.ofNat 64 b)) (valIn t (BitVec.ofNat 64 d)))).toNat
  let bits := fun (g : W64 → W64 → W64) => (g (BitVec.ofNat 64 a) (BitVec.ofNat 64 b)).toNat
  match o with
  | .fadd => faddBits fF32 .rne a b
  | .fsub => fsubBits fF32 .rne a b
  | .fmul => fmulBits fF32 .rne a b
  | .ffma => ffmaBits fF32 .rne a b d
  | .fmin => fminmax fF32 false a b
  | .fmax => fminmax fF32 true a b
  | .frcp => transBits .rcp .rne a
  | .frsq => transBits .rsq .rne a
  | .fsqrt => transBits .sqrt .rne a
  | .fexp2 => transBits .exp2 .rne a
  | .flog2 => transBits .log2 .rne a
  | .fsin => transBits .sin .rne a
  | .fcos => transBits .cos .rne a
  | .ftanh => transBits .tanh .rne a
  | .xadd => packed (fun a b _ => faddBits fF16 .rne a b) a b d
  | .xmul => packed (fun a b _ => fmulBits fF16 .rne a b) a b d
  | .xfma => packed (fun a b d => ffmaBits fF16 .rne a b d) a b d
  | .xmin => packed (fun a b _ => fminmax fF16 false a b) a b d
  | .xmax => packed (fun a b _ => fminmax fF16 true a b) a b d
  | .movf | .movi => a
  | .iadd => int .i32 fun x y _ => x + y
  | .isub => int .i32 fun x y _ => x - y
  | .imul => int .i32 fun x y _ => x * y
  | .imad => int .i32 fun x y d => x * y + d
  | .imin => int .i32 fun x y _ => if x ≤ y then x else y
  | .imax => int .i32 fun x y _ => if x ≤ y then y else x
  | .and => bits (· &&& ·)
  | .or => bits (· ||| ·)
  | .xor => bits (· ^^^ ·)
  | .shl => (shlVal .b32 (BitVec.ofNat 64 a) b).toNat
  | .shr => (shrVal .b32 (BitVec.ofNat 64 a) b).toNat
  | .sar => (sarVal .i32 (BitVec.ofNat 64 a) b).toNat

/-- The result of one operation of a pair for a lane. -/
def Env.pairRes (e : Env) (l : Nat) (p : PairHalf) : List W32 :=
  [BitVec.ofNat 32 (pairVal1 p.op (e.src32 l p.a).toNat (e.src32 l p.b).toNat (e.src32 l p.d).toNat)]

/-- PAIR (R77, R81, R83): both operations read before either writes; each has its own guard. -/
def execPair (h : Hdr) (f : PF) (s : State) : Res :=
  s.issueInk (.pair h f) h fun e s =>
    let h1 : Hdr := { h with gneg := f.g1neg, gpred := f.g1pred }
    let e1 : Env := { e with active := e.lanes.filter fun l => Hdr.holds h1 (e.g.lane l) }
    (s.writeD e f.op0.d fun l => e.pairRes l f.op0).writeD e1 f.op1.d fun l => e1.pairRes l f.op1

end Sys2Proof.Machine
end

