-- ==== Sys2Proof/Machine/Power.lean ====
section
/-! DEFINITION. The power states of the package (R291, R292, R311, R326). -/

namespace Sys2Proof.Machine

/-- The depth of a power state. -/
def Power.depth : Power → Nat
  | .l0 => 0 | .l1 => 1 | .l2 => 2 | .l3 => 3 | .l4 => 4

/-- The exit latency of a power state in µs (Table 17-7). -/
def Power.latency : Power → Nat
  | .l0 => 0 | .l1 => 2 | .l2 => 60 | .l3 => 1000 | .l4 => 20000

/-- The deepest power state whose exit latency does not exceed a tolerance. -/
def Power.within (tol : Nat) : Power :=
  if 20000 ≤ tol then .l4 else if 1000 ≤ tol then .l3 else if 60 ≤ tol then .l2 else if 2 ≤ tol then .l1 else .l0

/-- The smallest tolerance of any queue, in µs; 0xFFFF_FFFF means none (Table 17-1). -/
def State.tolerance (s : State) : Nat :=
  (minOf (s.queues.map fun (_, q) => s.qword q 5)).getD 0xFFFF_FFFF

/-- The state that the tolerances and the armed join engines allow (R292). -/
def State.allowed (s : State) : Power :=
  let p := Power.within s.tolerance
  if s.dies.any (fun (_, d) => d.joinArmed) && 1 < p.depth then .l1 else p

/-- Nothing of a context is live on a core. -/
def Core.quiet (k : Core) : Bool :=
  k.groups.all (fun (n, _) => n == 63) && k.strokes.isEmpty && k.teams.isEmpty && k.inked.isEmpty && k.chunks.isEmpty
    && k.cmds.isEmpty

/-- The package is idle (R292). A launch of a pre-empted context, whose state is saved, is on no core. -/
def State.isIdle (s : State) : Bool :=
  s.queues.all (fun (_, q) => s.qword q 3 == s.qword q 4)
    && s.launches.all (fun l => match s.context l.ctx with
      | some x => x.out
      | none => false)
    && s.cores.all (fun (_, k) => k.quiet)
    && s.contexts.all (fun (_, x) => !x.preempted || x.out)
    && s.contexts.all (fun (_, x) => x.windows.all fun (_, w) => !w.isOpen)
    && s.dies.all (fun (_, d) => d.reqs.isEmpty && d.joinQ.isEmpty && d.ingress.isEmpty)
    && s.gateQ.isEmpty

/-- A core whose power is gated loses its state; the marks of a frozen agent and matrix unit are Nopol root's, and
stay (R370). -/
def Core.gated (k : Core) : Core := { agentFrozen := k.agentFrozen, mtxFrozen := k.mtxFrozen }

/-- The package enters a power state (Table 17-7): from L2 down core state is lost, and at L4 the home caches are written back and
off. -/
def State.enterPower (s : State) (p : Power) : State :=
  let s := { s with power := p }
  let s := if 2 ≤ p.depth then { s with cores := s.cores.map fun (x : Nat × Core) => (x.1, x.2.gated) } else s
  if p.depth = 4 then { s with dies := s.dies.map fun (x : Nat × Die) => (x.1, { x.2 with home := [] }) } else s

/-- POWER_STATE_ENTRY (R292): the idle package goes to the deepest state allowed. -/
def execPowerStateEntry (s : State) : Res :=
  .next (if s.waking || !s.isIdle || s.allowed.depth ≤ s.power.depth then s else s.enterPower s.allowed)

/-- The cause of an exit stands: packets posted or not yet started, a packet at a gateway, or a tolerance that no longer fits. -/
def State.causes (s : State) : WakeCause → Bool
  | .wridx => s.queues.any fun (_, q) =>
    !q.halted && (s.qword q 3 != s.qword q 4 || (s.runs (s.qctx q) && q.packets.any fun p => !p.started))
  | .ingress => !s.gateQ.isEmpty
  | .tolerance => s.allowed.depth < s.power.depth

/-- POWER_STATE_EXIT (R292). -/
def execPowerStateExit (cause : WakeCause) (s : State) : Res := .next (if s.causes cause then s.wake else s)

/-- POWER_STATE_EXIT_COMPLETE (R292, R311): the package is in L0, and what waited for it proceeds. -/
def execPowerStateExitComplete (s : State) : Res :=
  .next (if s.waking then { s with power := .l0, waking := false } else s)

/-- POWER_REMOVAL (R321, R326): held stores are lost and failed-group marks are cleared with everything else that needs power; what
remains is the part itself, and what it has already sent. Memory then holds what it holds at reset (log 1). -/
def execPowerRemoval (s : State) : Res :=
  .next { State.reset with
    form := s.form, devid := s.devid, fabricOut := s.fabricOut, hostOut := s.hostOut, agenda := s.agenda, nextId := s.nextId,
    free := s.free }

end Sys2Proof.Machine
end

