-- ==== Sys2Proof/Machine/Sample.lean ====
section
/-! DEFINITION. Periodic samples (R35, R362 to R364). -/

namespace Sys2Proof.Machine

/-! ## Memory instructions in flight (R364) -/

/-- A memory instruction of Table 13-3, an RLD or an RATOM. -/
def Instr.isMemory : Instr → Bool
  | .ld _ _ | .st _ _ | .ldl _ _ | .stl _ _ | .ldc _ _ | .lds _ _ | .pref _ _ | .cctlIl1 _ _ | .cctlIrd _ _ | .cctlWb _ _
  | .cctlIl1all _ _ | .cctlIrdall _ _ | .ldtag _ _ | .sttag _ _ | .atom _ _ | .atomc _ _ | .red _ _ | .atomo _ _
  | .atoml _ _ | .fence _ _ | .fenceo _ _ | .fencex _ _ | .fencep _ _ | .cbseal _ _ | .cbwait _ _ | .rld _ _
  | .ratom _ _ => true
  | _ => false

/-- The instruction that a PC set of a core is to issue. -/
def State.setInstr (s : State) (c slot : Nat) (pc : W64) : Option Instr := s.peek c (s.group c slot).ctx (slot == 63) pc

/-- The sectors that the present issue touches without an entry in a queue, each with its lane: those that hold the bytes at which PREF,
CCTL.IL1 and CCTL.IRD name their lines (log 25). -/
def State.lineSectors (s : State) : List (Nat × Nat) :=
  match s.setInstr s.iss.core s.iss.slot s.iss.pc with
  | some (.pref h f) | some (.cctlIl1 h f) | some (.cctlIrd h f) =>
    let e := s.env h
    e.active.filterMap fun l => match (s.coreXlate e.core e.g.ctx (e.va l f)).1 with
      | .ok (pa, _) => some (l, pa / 32)
      | .error _ => none
  | _ => []

/-- The 32-byte sectors that a group's accesses from an identifier on touch, for some of its lanes, with those that its lanes touch without
an entry. -/
def Group.sectors (g : Group) (lanes : List Nat) (from_ : Nat) (near : List (Nat × Nat)) : Nat :=
  let mine := fun (a : Access) => from_ ≤ a.id && lanes.contains a.lane
  let loads := (g.loads.filter fun r => mine r.acc).flatMap fun r => blocks 32 r.acc.pa r.bytes
  let stores := (g.sq.filter fun q => mine q.acc).flatMap fun q => blocks 32 q.acc.pa (Nat.max 1 q.length)
  let others := (near.filter fun x => lanes.contains x.1).map Prod.snd
  (sortDedup (loads ++ stores ++ others)).length

/-- A lane is to issue an instruction again. -/
def Lane.replays (l : Lane) (pc : W64) : Bool :=
  l.cur == pc && !l.exited && (l.parked.isSome || match l.wait with
    | .cond _ => true
    | _ => false)

/-- What a memory instruction that a group has just issued still waits for; lanes that are to issue it again have touched nothing. -/
def Group.memIssue (g : Group) (slot : Nat) (pc : W64) (lanes : List Nat) (from_ : Nat) (near : List (Nat × Nat)) : MemIssue :=
  let mine := fun (a : Access) => if from_ ≤ a.id && lanes.contains a.lane then [a.id] else []
  let late := lanes.filterMap fun l => match (g.lane l).late with
    | some i => if from_ ≤ i then some i else none
    | none => none
  { slot := slot, pc := pc, sect := g.sectors (lanes.filter fun l => !(g.lane l).replays pc) from_ near,
    ids := (g.loads.flatMap fun r => mine r.acc) ++ (g.sq.flatMap fun q => mine q.acc) ++ late,
    again := lanes.filter fun l => (g.lane l).replays pc }

/-- A sampled instruction has issued again for lanes that were to replay it: one replay more, with the accesses that it made now; a lane
that need not issue it once more has ended its replay (R363, R364). -/
def MemIssue.replayed (m : MemIssue) (g : Group) (slot : Nat) (pc : W64) (lanes : List Nat) (from_ : Nat) (near : List (Nat × Nat)) :
    MemIssue :=
  if m.slot == slot && m.pc == pc && lanes.any m.again.contains then
    let x := g.memIssue slot pc (lanes.filter m.again.contains) from_ near
    { m with ids := m.ids ++ x.ids, sect := m.sect + x.sect, repl := m.repl + 1,
             again := m.again.filter (fun l => !lanes.contains l) ++ x.again }
  else m

/-- An issue of a PC set is noted for the samples that wait for lanes to replay; `u` is the state that issued. -/
def State.noteReplay (s u : State) (c slot : Nat) (pc : W64) (lanes : List Nat) : State :=
  s.modCore c fun k => { k with deferred := k.deferred.map fun d =>
    if d.out then d else { d with acc := d.acc.replayed (s.group c slot) slot pc lanes u.nextId u.lineSectors } }

/-- The instruction at a set's PC is a memory instruction of those that a sample waits for. -/
def State.memAt (s : State) (c slot : Nat) (p : PCSet) : Bool :=
  ((s.setInstr c slot (BitVec.ofNat 64 p.pc)).map Instr.isMemory).getD false

/-- A group's issue cycle is noted for the core's samples: its primary set, and what its accesses are; `u` is the state that issued. -/
def State.noteIssue (s u : State) (c slot : Nat) (p : PCSet) : State :=
  let pc := BitVec.ofNat 64 p.pc
  let s := s.noteReplay u c slot pc p.lanes
  let acc := if u.memAt c slot p then some ((s.group c slot).memIssue slot pc p.lanes u.nextId u.lineSectors) else none
  s.modCore c fun k => { k with
    issued := some { at_ := (s.die (dieOf c)).cycle, slot := slot, pc := pc, lanes := p.lanes, acc := acc } }

/-! ## Stall reasons (Table 23-5) -/

/-- The stall reason of a condition that a lane waits for. -/
def Cond.reason : Cond → Nat
  | .lines _ => 0x04
  | .acc _ _ _ => 0x09
  | .engineRoom => 0x09
  | .joinRoom => 0x09
  | .collRoom _ => 0x09
  | .lease => 0x0A
  | .drain _ _ _ | .landed _ | .cores _ | .loads | .remote _ | .batch _ | .coll _ _ | .view _ | .ports => 0x0B
  | .reach _ _ => 0x01

/-- Why a lane of a group does not issue at a cycle; 0 where it could. A lane whose instruction cannot yet be fetched has reason 0x0C
(log 56). -/
def State.laneStall (s : State) (c slot lane now : Nat) : Nat :=
  let g := s.group c slot
  let l := g.lane lane
  let w := match l.wait with
    | .none => if s.fetchWaits c g.ctx l.cur then 0x0C else 0
    | .join | .syncg | .synct | .synctRole | .trapret => 0x06
    | .bwait _ => 0x05
    | .cond k => if s.fetchWaits c g.ctx l.cur then 0x0C else if s.condMet c slot lane k then 0 else k.reason
  if l.parked.isSome then 0x07
  else if l.late.isSome then 0x08
  else if w != 0 then w
  else if now < l.until_ then (match (s.core c).ceded with
    | some (k, t) => if k = slot && l.until_ = t + 17 then 0x0D else 0x02
    | none => 0x02)
  else if !s.eligible c slot g lane then 0x01
  else 0

/-- Why a group does not issue at a cycle, for lanes that stand at its lowest PC: the reason of the lowest; 0 where one of them could
and the group was only not selected. -/
def State.groupStall (s : State) (c slot : Nat) (lanes : List Nat) (now : Nat) : Nat :=
  let g := s.group c slot
  let inBar := match g.place with
    | some p => (s.team c p).bars.any fun (_, b) => maskBit b.waiters g.grp
    | none => false
  if g.frozen.isSome || g.halted || !s.runs g.ctx then 0x0E
  else if inBar then 0x05
  else
    let rs := lanes.map fun l => s.laneStall c slot l now
    if !rs.contains 0 then rs.headD 0 else if s.cedes c slot then 0x0D else 0

/-! ## Samples (R362, R363) -/

/-- The body of Table 23-4 up to byte 35. -/
def sampleHead (pc : W64) (stall cls : Nat) (stroke : Bool) (sentry grp : Nat) (mem : Bool) (team mask : Nat) : List Byte :=
  bytesOf 8 pc.toNat
    ++ bytesOf 4 (stall * 2 ^ 24 + cls * 2 ^ 22 + (if stroke then 2 ^ 21 else 0) + sentry % 16 * 2 ^ 17 + grp % 16 * 2 ^ 13
      + (if mem then 2 ^ 12 else 0))
    ++ bytesOf 4 team ++ bytesOf 4 mask

/-- The candidates of a core, in order: its running groups with the sample enable set, then, as 63, the stroke unit's stroke. -/
def Core.sampleCandidates (k : Core) : List Nat :=
  ((k.groups.filter fun (n, g) => n < 63 && g.sampleOn && !g.draining).map Prod.fst)
    ++ (if (k.strokes.find k.lastStroke).isSome then [63] else [])

/-- A sample of a group at a cycle. -/
def State.sampleGroup (s : State) (c slot at_ : Nat) : State :=
  let g := s.group c slot
  let k := s.core c
  let team := (s.teamOf c slot).lin
  let put := fun (s : State) body => s.record (s.sampleRing g.ctx) 0x10 (dieOf c) (some c) (some slot) body
  let now := match k.issued with
    | some i => if i.slot = slot && i.at_ = at_ then some i else none
    | none => none
  match now with
  | some i =>
    let head := fun mem => sampleHead i.pc 0 0 false 0 g.grp mem team (maskOf 32 i.lanes).toNat
    (match i.acc with
    | some m => s.modCore c fun k => { k with deferred := k.deferred ++ [{ ctx := g.ctx, launch := g.launch, body := head true, acc := m }] }
    | none => put s (head false))
  | none =>
    let live := places (fun (l : Lane) => !l.exited) g.lanes
    let pc := (minOf (live.map fun l => (g.lane l).cur.toNat)).getD 0
    let lanes := live.filter fun l => (g.lane l).cur.toNat == pc
    let r := s.groupStall c slot lanes at_
    put s (sampleHead (BitVec.ofNat 64 pc) r (if r = 0 then 1 else 2) false 0 g.grp false team (maskOf 32 lanes).toNat)

/-- A sample of a stroke at a cycle (R35). -/
def State.sampleStroke (s : State) (c e at_ : Nat) : State :=
  match s.strokeAt c e with
  | none => s
  | some st =>
    let r := if st.joining then 6 else if !s.runs st.ctx then 0x0E else if s.fetchWaits c st.ctx st.pc then 0x0C else 0
    let now := (s.core c).stroked == some at_
    s.record (s.sampleRing st.ctx) 0x10 (dieOf c) (some c) none
      (sampleHead st.pc (if now then 0 else r) (if now then 0 else if r = 0 then 1 else 2) true e 0 false
        (st.box.first (st.tx s) (st.ty s)) 0)

/-- The candidate that a core samples next: the one after the last sampled, wrapping round (R362). -/
def Core.nextSample (k : Core) : Option Nat :=
  match k.sampleCandidates.find? fun x => k.sampled < x with
  | some x => some x
  | none => k.sampleCandidates.head?

/-- One sample point of a core, at a cycle of its counter. -/
def State.samplePoint (s : State) (c at_ : Nat) : State :=
  let k := s.core c
  let s := s.modCore c fun k => { k with sampleAt := at_ }
  match k.nextSample with
  | none => s
  | some x =>
    let s := s.modCore c fun k => { k with sampled := x }
    if x = 63 then s.sampleStroke c k.lastStroke at_ else s.sampleGroup c x at_

/-- SAMPLE_POINT (R362): every period the core samples a candidate, once for each sample point that has passed. -/
def execSamplePoint (core : Nat) (s : State) : Res :=
  .next (let k := s.core core
    let n := Nat.max 16 k.period.toNat
    if k.period = 0 then s
    else (upto (((s.die (dieOf core)).cycle - k.sampleAt) / n)).foldl (fun s i => s.samplePoint core (k.sampleAt + n * (i + 1))) s)

/-- Bytes 36 to 49 of Table 23-4. The spec gives the queue times no reckoning that the model has, and no last lane where no data
returns: those fields are free (log 25). -/
def State.memFields (s : State) (m : MemIssue) : List Byte × State :=
  let (a, s) := s.freeWord
  let (q0, s) := s.freeWord
  let (q1, s) := s.freeWord
  let (q2, s) := s.freeWord
  let last := m.last.getD (field a 8 5).toNat
  (bytesOf 4 (last % 32 * 2 ^ 27 + Nat.min m.sect 32 * 2 ^ 21 + Nat.min m.repl 255 * 2 ^ 13)
    ++ bytesOf 4 q0.toNat ++ bytesOf 4 q1.toNat ++ bytesOf 2 q2.toNat, s)

/-- A sampled memory instruction has completed for every lane; one whose group is saved has not. -/
def State.sampleDone (s : State) (c : Nat) (d : Deferred) : Bool :=
  let g := s.group c d.acc.slot
  !d.out && d.acc.ids.isEmpty && d.acc.again.all fun l => !(g.lane l).replays d.acc.pc
    && g.loads.all (fun r => !(r.acc.lane == l && r.acc.pc == d.acc.pc))
    && g.sq.all fun q => !(q.acc.lane == l && q.acc.pc == d.acc.pc)

/-- SAMPLE_RECORD_DEFERRED (R364): the oldest sample of a core whose instruction has completed is written. -/
def execSampleRecordDeferred (core : Nat) (s : State) : Res :=
  .next (let k := s.core core
    match (places (s.sampleDone core) k.deferred).head? with
    | none => s
    | some i => match k.deferred[i]? with
      | none => s
      | some d =>
        let (x, s) := s.memFields d.acc
        let s := s.modCore core fun k => { k with deferred := listErase k.deferred i }
        s.record (s.sampleRing d.ctx) 0x10 (dieOf core) (some core) (some d.acc.slot) (d.body ++ x))

end Sys2Proof.Machine
end

