-- ==== Sys2Proof/Machine/Trust.lean ====
section
/-! DEFINITION. Admission of images and attestation (R369): SHA-256 and RSASSA-PKCS1-v1_5 as their public standards give them
(log 20). -/

namespace Sys2Proof.Machine

/-- A number's bytes, highest first. -/
def beBytes (n x : Nat) : List Byte := (bytesOf n x).reverse

/-- The value of bytes, highest first. -/
def beVal (bs : List Byte) : Nat := ofBytes bs.reverse

/-! ## SHA-256 -/

/-- The largest x below 2^bits, added to r, whose k-th power is at most n: one bit at a time from the top. -/
def rootBits (k n : Nat) : Nat → Nat → Nat
  | 0, r => r
  | b + 1, r => rootBits k n b (if (r + 2 ^ b) ^ k ≤ n then r + 2 ^ b else r)

/-- The first 32 bits of the fractional part of the k-th root of p, for p below 2^9. -/
def rootFrac (k p : Nat) : W32 := BitVec.ofNat 32 (rootBits k (p * 2 ^ (32 * k)) 40 0)

/-- The primes below 312, which are the first 64. -/
def shaPrimes : List Nat := (upto 312).filter fun p => 2 ≤ p && (rangeFrom 2 16).all fun q => p ≤ q || p % q != 0

/-- The constant that each of the 64 rounds adds. -/
def shaConsts : List W32 := shaPrimes.map (rootFrac 3)

/-- A compression in progress: the last four values of each of the two recurrences that the working variables run through
(newest first: a, b, c, d and e, f, g, h), and the next sixteen schedule words. -/
structure ShaRun where
  left : List W32
  right : List W32
  ahead : List W32
  deriving DecidableEq, Repr

/-- The exclusive or of a word rotated right by each amount. -/
def twirl (x : W32) (amounts : List Nat) : W32 := amounts.foldl (fun t n => t ^^^ x.rotateRight n) 0

/-- The schedule word that enters sixteen rounds after the first of a window. -/
def schedNext (w : List W32) : W32 :=
  let at_ (n : Nat) : W32 := w.getD n 0
  let mix (x : W32) (p q drop : Nat) : W32 := twirl x [p, q] ^^^ x >>> drop
  mix (at_ 14) 17 19 10 + at_ 9 + mix (at_ 1) 7 18 3 + at_ 0

/-- A round: the choice of f or g by e and the rotations of e give one addend, the majority of a, b, c and the rotations of a the
other; the right recurrence goes on from d, the left one from nothing. -/
def shaRound (r : ShaRun) (k : W32) : ShaRun :=
  match r.left, r.right, r.ahead with
  | a :: b :: c :: [d], e :: f :: g :: [h], w :: ws =>
    let u := k + w + h + twirl e [25, 11, 6] + (g ^^^ (e &&& (f ^^^ g)))
    { left := (u + twirl a [22, 13, 2] + ((a &&& (b ||| c)) ||| (b &&& c))) :: [a, b, c]
      right := (d + u) :: [e, f, g]
      ahead := ws ++ [schedNext r.ahead] }
  | _, _, _ => r

/-- The hash value, in its two halves, after a block of 64 bytes. -/
def shaBlock (hv : List W32 × List W32) (block : List Byte) : List W32 × List W32 :=
  let words := (chunksOf 4 16 block).map fun b => BitVec.ofNat 32 (beVal b)
  let r := shaConsts.foldl shaRound { left := hv.1, right := hv.2, ahead := words }
  (List.zipWith (· + ·) hv.1 r.left, List.zipWith (· + ·) hv.2 r.right)

/-- The SHA-256 digest of a message: it is followed by 0x80, zeros to 56 bytes past a multiple of 64, and its length in bits. -/
def sha256 (m : List Byte) : List Byte :=
  let full := padTo (64 * ((m.length + 72) / 64) - 8) (m ++ [0x80]) ++ beBytes 8 (8 * m.length)
  let start := (shaPrimes.take 8).map (rootFrac 2)
  let out := (chunksOf 64 (full.length / 64) full).foldl shaBlock (start.take 4, start.drop 4)
  (out.1 ++ out.2).flatMap fun x => beBytes 4 x.toNat

/-! ## RSASSA-PKCS1-v1_5 with RSA-3072 -/

/-- Modular exponentiation over the n low bits of an exponent. -/
def powMod (m : Nat) : Nat → Nat → Nat → Nat → Nat
  | 0, _, _, acc => acc
  | n + 1, b, e, acc => powMod m n (b * b % m) (e / 2) (if e % 2 = 1 then acc * b % m else acc)

/-- The encoded message of a digest, 384 bytes. -/
def pkcsEncode (digest : List Byte) : List Byte :=
  let info : List Byte := [0x30, 0x31, 0x30, 0x0d, 0x06, 0x09, 0x60, 0x86, 0x48, 0x01, 0x65, 0x03, 0x04, 0x02, 0x01, 0x05, 0x00,
    0x04, 0x20]
  let t := info ++ digest
  [0x00, 0x01] ++ List.replicate (381 - t.length) 0xFF ++ [0x00] ++ t

/-- The bytes of a key that the fused digest is taken over: modulus and exponent (log 20). -/
def keyBytes (img : Image) : List Byte := beBytes 384 img.modulus ++ beBytes 384 img.exponent

/-- An image's signature verifies against the fused key (R369). -/
def Image.verifies (img : Image) : Bool :=
  sha256 (keyBytes img) == Config.fusedDigest && img.modulus < 2 ^ 3072 && img.signature < img.modulus
    && powMod img.modulus 3072 (img.signature % img.modulus) img.exponent 1 == beVal (pkcsEncode (sha256 img.bytes))

/-! ## Admission and attestation (R369) -/

/-- The record of an image rejected: its kind and die, posted by a die's Nopol root (R359). -/
def State.rejected (s : State) (die kind failed : Nat) : State := s.deviceEvent die 4 (failed * 2 ^ 24 + kind)

/-- The rejections of Nopol root images that stand unreported are reported, by the lowest die that has admitted one (R359, R369). -/
def State.reportRoots (s : State) : State :=
  match (upto s.dieCount).find? fun d => (s.die d).rootImage.isSome with
  | none => s
  | some d => ((upto s.dieCount).filter fun k => (s.die k).rootPending).foldl (fun s k =>
      (s.modDie k fun x => { x with rootPending := false }).rejected d 0 k) s

/-- IMAGE_ADMISSION (R369): a die's boot ROM admits a Nopol root image, or its Nopol root, once it runs, a Nopol agent image, only
where it verifies. A rejected one is not run (`Die.rootRefused`, `Die.agentRefused`), and is reported by the die's Nopol root, or for
a Nopol root image by that of the lowest die that has one, once a die has. -/
def execImageAdmission (die : Nat) (img : Image) (s : State) : Res :=
  let admitted := if Image.verifies img then some (sha256 img.bytes) else none
  .next (if s.dieCount ≤ die || img.agent && !s.rootRuns die then s
    else if img.agent then
      let s := s.modDie die fun d => { d with agentImage := admitted, agentRefused := admitted.isNone }
      if admitted.isNone then s.rejected die 1 die else s
    else
      (s.modDie die fun d =>
        { d with rootImage := admitted, rootRefused := admitted.isNone, rootPending := admitted.isNone,
                 agentImage := if admitted.isNone then none else d.agentImage }).reportRoots)

/-- What an attestation report covers: devid, both image digests and the host's nonce, in the model's own layout (log 20). -/
def State.attested (s : State) (nonce : List Byte) : List Byte :=
  let d := s.die 0
  bytesOf 4 s.devid.toNat ++ padTo 32 (d.rootImage.getD []) ++ padTo 32 (d.agentImage.getD []) ++ nonce

/-- ATTESTATION_REPORT (R369): the report over a 32-byte nonce is signed with the package's identity key. -/
def execAttestationReport (nonce : List Byte) (s : State) : Res :=
  .next (if nonce.length != 32 then s
    else
      let bs := s.attested nonce
      let (n, d) := Config.identityKey
      { s with hostOut := s.hostOut ++ [.report bs (powMod n 3072 (beVal (pkcsEncode (sha256 bs)) % n) d 1)] })

end Sys2Proof.Machine
end

