-- ==== Sys2Proof/Machine/Dispatch.lean ====
section
/-! DEFINITION. The meaning of every row of the opcode table: one direct call per constructor. -/

namespace Sys2Proof.Machine

def exec (i : Instr) (s : State) : Host.Outcome State Fault Refusal :=
  match i with
  | .iadd h f => Sys2Proof.Machine.execIadd h f s
  | .isub h f => Sys2Proof.Machine.execIsub h f s
  | .iaddc h f => Sys2Proof.Machine.execIaddc h f s
  | .imul h f => Sys2Proof.Machine.execImul h f s
  | .imulh h f => Sys2Proof.Machine.execImulh h f s
  | .imad h f => Sys2Proof.Machine.execImad h f s
  | .idiv h f => Sys2Proof.Machine.execIdiv h f s
  | .irem h f => Sys2Proof.Machine.execIrem h f s
  | .imin h f => Sys2Proof.Machine.execImin h f s
  | .imax h f => Sys2Proof.Machine.execImax h f s
  | .iabs h f => Sys2Proof.Machine.execIabs h f s
  | .ineg h f => Sys2Proof.Machine.execIneg h f s
  | .lea h f => Sys2Proof.Machine.execLea h f s
  | .and h f => Sys2Proof.Machine.execAnd h f s
  | .or h f => Sys2Proof.Machine.execOr h f s
  | .xor h f => Sys2Proof.Machine.execXor h f s
  | .not h f => Sys2Proof.Machine.execNot h f s
  | .shl h f => Sys2Proof.Machine.execShl h f s
  | .shr h f => Sys2Proof.Machine.execShr h f s
  | .sar h f => Sys2Proof.Machine.execSar h f s
  | .rotl h f => Sys2Proof.Machine.execRotl h f s
  | .bfx h f => Sys2Proof.Machine.execBfx h f s
  | .bfi h f => Sys2Proof.Machine.execBfi h f s
  | .popc h f => Sys2Proof.Machine.execPopc h f s
  | .clz h f => Sys2Proof.Machine.execClz h f s
  | .brev h f => Sys2Proof.Machine.execBrev h f s
  | .sel h f => Sys2Proof.Machine.execSel h f s
  | .icmp h f => Sys2Proof.Machine.execIcmp h f s
  | .mov h f => Sys2Proof.Machine.execMov h f s
  | .movi h f => Sys2Proof.Machine.execMovi h f s
  | .movs h f => Sys2Proof.Machine.execMovs h f s
  | .fadd h f => Sys2Proof.Machine.execFadd h f s
  | .fsub h f => Sys2Proof.Machine.execFsub h f s
  | .fmul h f => Sys2Proof.Machine.execFmul h f s
  | .ffma h f => Sys2Proof.Machine.execFfma h f s
  | .fdiv h f => Sys2Proof.Machine.execFdiv h f s
  | .fmin h f => Sys2Proof.Machine.execFmin h f s
  | .fmax h f => Sys2Proof.Machine.execFmax h f s
  | .fcmp h f => Sys2Proof.Machine.execFcmp h f s
  | .frcp h f => Sys2Proof.Machine.execFrcp h f s
  | .frsq h f => Sys2Proof.Machine.execFrsq h f s
  | .fsqrt h f => Sys2Proof.Machine.execFsqrt h f s
  | .fexp2 h f => Sys2Proof.Machine.execFexp2 h f s
  | .flog2 h f => Sys2Proof.Machine.execFlog2 h f s
  | .fsin h f => Sys2Proof.Machine.execFsin h f s
  | .fcos h f => Sys2Proof.Machine.execFcos h f s
  | .ftanh h f => Sys2Proof.Machine.execFtanh h f s
  | .fscale h f => Sys2Proof.Machine.execFscale h f s
  | .fclass h f => Sys2Proof.Machine.execFclass h f s
  | .frnd h f => Sys2Proof.Machine.execFrnd h f s
  | .xadd h f => Sys2Proof.Machine.execXadd h f s
  | .xmul h f => Sys2Proof.Machine.execXmul h f s
  | .xfma h f => Sys2Proof.Machine.execXfma h f s
  | .xmin h f => Sys2Proof.Machine.execXmin h f s
  | .xmax h f => Sys2Proof.Machine.execXmax h f s
  | .cvt h f => Sys2Proof.Machine.execCvt h f s
  | .pack h f => Sys2Proof.Machine.execPack h f s
  | .unpack h f => Sys2Proof.Machine.execUnpack h f s
  | .dot4 h f => Sys2Proof.Machine.execDot4 h f s
  | .dot8 h f => Sys2Proof.Machine.execDot8 h f s
  | .dscl h f => Sys2Proof.Machine.execDscl h f s
  | .shfl h f => Sys2Proof.Machine.execShfl h f s
  | .vote h f => Sys2Proof.Machine.execVote h f s
  | .redl h f => Sys2Proof.Machine.execRedl h f s
  | .scanl h f => Sys2Proof.Machine.execScanl h f s
  | .match_ h f => Sys2Proof.Machine.execMatch h f s
  | .elect h f => Sys2Proof.Machine.execElect h f s
  | .rng h f => Sys2Proof.Machine.execRng h f s
  | .rngseed h f => Sys2Proof.Machine.execRngseed h f s
  | .rngskip h f => Sys2Proof.Machine.execRngskip h f s
  | .pair h f => Sys2Proof.Machine.execPair h f s
  | .bra h f => Sys2Proof.Machine.execBra h f s
  | .brx h f => Sys2Proof.Machine.execBrx h f s
  | .call h f => Sys2Proof.Machine.execCall h f s
  | .callx h f => Sys2Proof.Machine.execCallx h f s
  | .ret h f => Sys2Proof.Machine.execRet h f s
  | .join h f => Sys2Proof.Machine.execJoin h f s
  | .exit h f => Sys2Proof.Machine.execExit h f s
  | .trap h f => Sys2Proof.Machine.execTrap h f s
  | .bkpt h f => Sys2Proof.Machine.execBkpt h f s
  | .nop h f => Sys2Proof.Machine.execNop h f s
  | .yield h f => Sys2Proof.Machine.execYield h f s
  | .syncg h f => Sys2Proof.Machine.execSyncg h f s
  | .synct h f => Sys2Proof.Machine.execSynct h f s
  | .sizesel h f => Sys2Proof.Machine.execSizesel h f s
  | .ink h f => Sys2Proof.Machine.execInk h f s
  | .ld h f => Sys2Proof.Machine.execLd h f s
  | .st h f => Sys2Proof.Machine.execSt h f s
  | .ldl h f => Sys2Proof.Machine.execLdl h f s
  | .stl h f => Sys2Proof.Machine.execStl h f s
  | .ldc h f => Sys2Proof.Machine.execLdc h f s
  | .lds h f => Sys2Proof.Machine.execLds h f s
  | .pref h f => Sys2Proof.Machine.execPref h f s
  | .cctlIl1 h f => Sys2Proof.Machine.execCctlIl1 h f s
  | .cctlIrd h f => Sys2Proof.Machine.execCctlIrd h f s
  | .cctlWb h f => Sys2Proof.Machine.execCctlWb h f s
  | .cctlIl1all h f => Sys2Proof.Machine.execCctlIl1all h f s
  | .cctlIrdall h f => Sys2Proof.Machine.execCctlIrdall h f s
  | .ldtag h f => Sys2Proof.Machine.execLdtag h f s
  | .sttag h f => Sys2Proof.Machine.execSttag h f s
  | .atom h f => Sys2Proof.Machine.execAtom h f s
  | .atomc h f => Sys2Proof.Machine.execAtomc h f s
  | .red h f => Sys2Proof.Machine.execRed h f s
  | .atomo h f => Sys2Proof.Machine.execAtomo h f s
  | .atoml h f => Sys2Proof.Machine.execAtoml h f s
  | .fence h f => Sys2Proof.Machine.execFence h f s
  | .fenceo h f => Sys2Proof.Machine.execFenceo h f s
  | .fencex h f => Sys2Proof.Machine.execFencex h f s
  | .fencep h f => Sys2Proof.Machine.execFencep h f s
  | .cbseal h f => Sys2Proof.Machine.execCbseal h f s
  | .cbwait h f => Sys2Proof.Machine.execCbwait h f s
  | .cpyLd h f => Sys2Proof.Machine.execCpyLd h f s
  | .cpySt h f => Sys2Proof.Machine.execCpySt h f s
  | .cpym h f => Sys2Proof.Machine.execCpym h f s
  | .cpys h f => Sys2Proof.Machine.execCpys h f s
  | .cpyg h f => Sys2Proof.Machine.execCpyg h f s
  | .cpyx h f => Sys2Proof.Machine.execCpyx h f s
  | .pft h f => Sys2Proof.Machine.execPft h f s
  | .binit h f => Sys2Proof.Machine.execBinit h f s
  | .bexpect h f => Sys2Proof.Machine.execBexpect h f s
  | .barrive h f => Sys2Proof.Machine.execBarrive h f s
  | .bwait h f => Sys2Proof.Machine.execBwait h f s
  | .btest h f => Sys2Proof.Machine.execBtest h f s
  | .barm h f => Sys2Proof.Machine.execBarm h f s
  | .binv h f => Sys2Proof.Machine.execBinv h f s
  | .pclr h f => Sys2Proof.Machine.execPclr h f s
  | .ptest h f => Sys2Proof.Machine.execPtest h f s
  | .gld h f => Sys2Proof.Machine.execGld h f s
  | .gst h f => Sys2Proof.Machine.execGst h f s
  | .gset h f => Sys2Proof.Machine.execGset h f s
  | .gget h f => Sys2Proof.Machine.execGget h f s
  | .tidld h f => Sys2Proof.Machine.execTidld h f s
  | .tidset h f => Sys2Proof.Machine.execTidset h f s
  | .thnd h f => Sys2Proof.Machine.execThnd h f s
  | .mldw h f => Sys2Proof.Machine.execMldw h f s
  | .mswap h f => Sys2Proof.Machine.execMswap h f s
  | .mma h f => Sys2Proof.Machine.execMma h f s
  | .mmat h f => Sys2Proof.Machine.execMmat h f s
  | .mclr h f => Sys2Proof.Machine.execMclr h f s
  | .mguide h f => Sys2Proof.Machine.execMguide h f s
  | .msta h f => Sys2Proof.Machine.execMsta h f s
  | .mldt h f => Sys2Proof.Machine.execMldt h f s
  | .mprog h f => Sys2Proof.Machine.execMprog h f s
  | .mlease h f => Sys2Proof.Machine.execMlease h f s
  | .mrel h f => Sys2Proof.Machine.execMrel h f s
  | .mwait h f => Sys2Proof.Machine.execMwait h f s
  | .mstatArith h f => Sys2Proof.Machine.execMstatArith h f s
  | .mstatEng h f => Sys2Proof.Machine.execMstatEng h f s
  | .rld h f => Sys2Proof.Machine.execRld h f s
  | .rst h f => Sys2Proof.Machine.execRst h f s
  | .ratom h f => Sys2Proof.Machine.execRatom h f s
  | .rrd3 h f => Sys2Proof.Machine.execRrd3 h f s
  | .rwin h f => Sys2Proof.Machine.execRwin h f s
  | .rwclose h f => Sys2Proof.Machine.execRwclose h f s
  | .coll h f => Sys2Proof.Machine.execColl h f s
  | .cwait h f => Sys2Proof.Machine.execCwait h f s
  | .genrd h f => Sys2Proof.Machine.execGenrd h f s
  | .ranksw h f => Sys2Proof.Machine.execRanksw h f s
  | .tview h f => Sys2Proof.Machine.execTview h f s
  | .tvclose h f => Sys2Proof.Machine.execTvclose h f s
  | .gets h f => Sys2Proof.Machine.execGets h f s
  | .sets h f => Sys2Proof.Machine.execSets h f s
  | .trapret h f => Sys2Proof.Machine.execTrapret h f s
  | .halt h f => Sys2Proof.Machine.execHalt h f s
  | .watch h f => Sys2Proof.Machine.execWatch h f s
  | .unwatch h f => Sys2Proof.Machine.execUnwatch h f s
  | .sampleMark h f => Sys2Proof.Machine.execSampleMark h f s
  | .sampleOn h f => Sys2Proof.Machine.execSampleOn h f s
  | .sampleOff h f => Sys2Proof.Machine.execSampleOff h f s
  | .logm h f => Sys2Proof.Machine.execLogm h f s
  | .freeze h f => Sys2Proof.Machine.execFreeze h f s
  | .cycloRead h f => Sys2Proof.Machine.execCycloRead h f s
  | .teamMaterialise core => Sys2Proof.Machine.execTeamMaterialise core s
  | .wridxWrite q value => Sys2Proof.Machine.execWridxWrite q value s
  | .noopPacket q => Sys2Proof.Machine.execNoopPacket q s
  | .launchPacket q => Sys2Proof.Machine.execLaunchPacket q s
  | .markerPacket q => Sys2Proof.Machine.execMarkerPacket q s
  | .preemptPacket q => Sys2Proof.Machine.execPreemptPacket q s
  | .resumePacket q => Sys2Proof.Machine.execResumePacket q s
  | .launchStart q => Sys2Proof.Machine.execLaunchStart q s
  | .chunkClaim core ctx launch => Sys2Proof.Machine.execChunkClaim core ctx launch s
  | .bindRecordWrite core entry rec who => Sys2Proof.Machine.execBindRecordWrite core entry rec who s
  | .groupLeavesDraining core slot => Sys2Proof.Machine.execGroupLeavesDraining core slot s
  | .gridEnd ctx launch => Sys2Proof.Machine.execGridEnd ctx launch s
  | .completionReport q => Sys2Proof.Machine.execCompletionReport q s
  | .coalescingTimerExpiry q => Sys2Proof.Machine.execCoalescingTimerExpiry q s
  | .interrupt q => Sys2Proof.Machine.execInterrupt q s
  | .leaseGrant core => Sys2Proof.Machine.execLeaseGrant core s
  | .leaseExpiry core => Sys2Proof.Machine.execLeaseExpiry core s
  | .matrixOperationStart core team => Sys2Proof.Machine.execMatrixOperationStart core team s
  | .matrixKStep core team => Sys2Proof.Machine.execMatrixKStep core team s
  | .engineCommandComplete core seq => Sys2Proof.Machine.execEngineCommandComplete core seq s
  | .engineCommandFault core seq => Sys2Proof.Machine.execEngineCommandFault core seq s
  | .faultDelivery core slot => Sys2Proof.Machine.execFaultDelivery core slot s
  | .terminate ctx launch code => Sys2Proof.Machine.execTerminate ctx launch code s
  | .transferLanding core seq => Sys2Proof.Machine.execTransferLanding core seq s
  | .barmVectoring core slot => Sys2Proof.Machine.execBarmVectoring core slot s
  | .translationFaultServed ctx va entries served => Sys2Proof.Machine.execTranslationFaultServed ctx va entries served s
  | .pageWalk die => Sys2Proof.Machine.execPageWalk die s
  | .loadDataReturn core slot idx => Sys2Proof.Machine.execLoadDataReturn core slot idx s
  | .storePerform core slot idx => Sys2Proof.Machine.execStorePerform core slot idx s
  | .chunkCopyEnd view chunk => Sys2Proof.Machine.execChunkCopyEnd view chunk s
  | .cacheLineTimeout unit line => Sys2Proof.Machine.execCacheLineTimeout unit line s
  | .invalidation target => Sys2Proof.Machine.execInvalidation target s
  | .invalidationComplete id => Sys2Proof.Machine.execInvalidationComplete id s
  | .preemption ctx => Sys2Proof.Machine.execPreemption ctx s
  | .restore ctx => Sys2Proof.Machine.execRestore ctx s
  | .dataFlit st => Sys2Proof.Machine.execDataFlit st s
  | .idleFlit st => Sys2Proof.Machine.execIdleFlit st s
  | .controlFlit st => Sys2Proof.Machine.execControlFlit st s
  | .nakLapse st => Sys2Proof.Machine.execNakLapse st s
  | .ackTimerExpiry st => Sys2Proof.Machine.execAckTimerExpiry st s
  | .replayTimeout st => Sys2Proof.Machine.execReplayTimeout st s
  | .replayLimit st => Sys2Proof.Machine.execReplayLimit st s
  | .laneLockLoss lo hi module => Sys2Proof.Machine.execLaneLockLoss lo hi module s
  | .retrainCommand lo hi module => Sys2Proof.Machine.execRetrainCommand lo hi module s
  | .retrainAttemptEnd lo hi module ok => Sys2Proof.Machine.execRetrainAttemptEnd lo hi module ok s
  | .dieLinkRead st => Sys2Proof.Machine.execDieLinkRead st s
  | .dieLinkReadReply st => Sys2Proof.Machine.execDieLinkReadReply st s
  | .dieLinkWrite st => Sys2Proof.Machine.execDieLinkWrite st s
  | .dieLinkWriteAck st => Sys2Proof.Machine.execDieLinkWriteAck st s
  | .dieLinkAtomic st => Sys2Proof.Machine.execDieLinkAtomic st s
  | .dieLinkAtomicReply st => Sys2Proof.Machine.execDieLinkAtomicReply st s
  | .dieLinkInvalidation st => Sys2Proof.Machine.execDieLinkInvalidation st s
  | .dieLinkInvalidationAck st => Sys2Proof.Machine.execDieLinkInvalidationAck st s
  | .dieLinkControl st => Sys2Proof.Machine.execDieLinkControl st s
  | .dieLinkWriteback st => Sys2Proof.Machine.execDieLinkWriteback st s
  | .dieLinkWritebackAck st => Sys2Proof.Machine.execDieLinkWritebackAck st s
  | .dieLinkTagRead st => Sys2Proof.Machine.execDieLinkTagRead st s
  | .dieLinkTagReadReply st => Sys2Proof.Machine.execDieLinkTagReadReply st s
  | .dieLinkTagWrite st => Sys2Proof.Machine.execDieLinkTagWrite st s
  | .dieLinkTagWriteAck st => Sys2Proof.Machine.execDieLinkTagWriteAck st s
  | .dieLinkUnknownOp st => Sys2Proof.Machine.execDieLinkUnknownOp st s
  | .remoteRead die p => Sys2Proof.Machine.execRemoteRead die p s
  | .readReply die p => Sys2Proof.Machine.execReadReply die p s
  | .remoteWrite die p => Sys2Proof.Machine.execRemoteWrite die p s
  | .writeAck die p => Sys2Proof.Machine.execWriteAck die p s
  | .remoteAtomic die p => Sys2Proof.Machine.execRemoteAtomic die p s
  | .atomicReply die p => Sys2Proof.Machine.execAtomicReply die p s
  | .responseTimeout die fid => Sys2Proof.Machine.execResponseTimeout die fid s
  | .refusal die p => Sys2Proof.Machine.execRefusal die p s
  | .refusalResend die fid => Sys2Proof.Machine.execRefusalResend die fid s
  | .xrq die p => Sys2Proof.Machine.execXrq die p s
  | .xdt die p => Sys2Proof.Machine.execXdt die p s
  | .xcn die p => Sys2Proof.Machine.execXcn die p s
  | .xer die p => Sys2Proof.Machine.execXer die p s
  | .gnt die p => Sys2Proof.Machine.execGnt die p s
  | .stripeIssue die => Sys2Proof.Machine.execStripeIssue die s
  | .collectiveData die p => Sys2Proof.Machine.execCollectiveData die p s
  | .heartbeat die p => Sys2Proof.Machine.execHeartbeat die p s
  | .heartbeatTimer ctx => Sys2Proof.Machine.execHeartbeatTimer ctx s
  | .suspicion ctx rank => Sys2Proof.Machine.execSuspicion ctx rank s
  | .probeRequest die p => Sys2Proof.Machine.execProbeRequest die p s
  | .probeReply die p => Sys2Proof.Machine.execProbeReply die p s
  | .probeTimeout ctx rank => Sys2Proof.Machine.execProbeTimeout ctx rank s
  | .verdict die p => Sys2Proof.Machine.execVerdict die p s
  | .badFeselPacket die => Sys2Proof.Machine.execBadFeselPacket die s
  | .hostRdmaWrite pair addr bytes => Sys2Proof.Machine.execHostRdmaWrite pair addr bytes s
  | .hostRdmaRead pair addr len => Sys2Proof.Machine.execHostRdmaRead pair addr len s
  | .hostUnsupportedOperation port => Sys2Proof.Machine.execHostUnsupportedOperation port s
  | .debugDump slot => Sys2Proof.Machine.execDebugDump slot s
  | .debugResume slot => Sys2Proof.Machine.execDebugResume slot s
  | .debugTerminate slot => Sys2Proof.Machine.execDebugTerminate slot s
  | .samplePoint core => Sys2Proof.Machine.execSamplePoint core s
  | .sampleRecordDeferred core => Sys2Proof.Machine.execSampleRecordDeferred core s
  | .scrub stack granule => Sys2Proof.Machine.execScrub stack granule s
  | .thermalThresholdCrossing stack temp => Sys2Proof.Machine.execThermalThresholdCrossing stack temp s
  | .th3Timeout stack => Sys2Proof.Machine.execTh3Timeout stack s
  | .powerStateEntry => Sys2Proof.Machine.execPowerStateEntry s
  | .powerStateExit cause => Sys2Proof.Machine.execPowerStateExit cause s
  | .imageAdmission die img => Sys2Proof.Machine.execImageAdmission die img s
  | .attestationReport nonce => Sys2Proof.Machine.execAttestationReport nonce s
  | .masterFreeze unit frozen => Sys2Proof.Machine.execMasterFreeze unit frozen s
  | .badFlit st => Sys2Proof.Machine.execBadFlit st s
  | .feselPortDown die port => Sys2Proof.Machine.execFeselPortDown die port s
  | .feselPortUp die port => Sys2Proof.Machine.execFeselPortUp die port s
  | .powerRemoval => Sys2Proof.Machine.execPowerRemoval s
  | .powerStateExitComplete => Sys2Proof.Machine.execPowerStateExitComplete s
  | .rankTableStage ctx comm table => Sys2Proof.Machine.execRankTableStage ctx comm table s
  | .joinEngineArm die armed => Sys2Proof.Machine.execJoinEngineArm die armed s
  | .queueCreate q desc words => Sys2Proof.Machine.execQueueCreate q desc words s
  | .contextCreate ctx init => Sys2Proof.Machine.execContextCreate ctx init s
  | .blockListRemoval die device => Sys2Proof.Machine.execBlockListRemoval die device s
  | .cpyxRequest core seq => Sys2Proof.Machine.execCpyxRequest core seq s

end Sys2Proof.Machine
end

