-- ==== Sys2Proof/Machine/Run.lean ====
section
/-! DEFINITION. What one move of the package does: the issue of the fetched instruction to a PC set or a stroke, and the choice of
a move where the agenda names none (R33, R43 to R47, R61, R86). -/

namespace Sys2Proof.Machine

/-- A fetch fault goes to every lane of the set (R61); one that firmware serves parks them (R48). -/
def State.fetchFault (s : State) (f : FaultRec) : State :=
  let ctx := (s.group s.iss.core s.iss.slot).ctx
  s.iss.lanes.foldl (fun s l =>
    if f.code = cXLATE && s.served ctx f.addr then s.park s.iss.core s.iss.slot l s.iss.pc f
    else s.faultLane l f) s

/-- Fetch, decode and execute for the PC set of the present issue; ILLEGAL goes to every lane of the set (R86). While the fetch waits,
so do the lanes. -/
def State.runSet (s : State) : Res :=
  if s.fetchWaits s.iss.core (s.group s.iss.core s.iss.slot).ctx s.iss.pc then
    .next (s.iss.lanes.foldl (fun s l => s.modLane s.iss.core s.iss.slot l fun x =>
      { x with wait := .cond (.reach s.iss.pc 12) }) s)
  else match s.fetch s.iss.core (s.group s.iss.core s.iss.slot).ctx (s.iss.slot == 63) s.iss.pc with
  | (.error f, s) => .next (s.fetchFault f)
  | (.ok bs, s) => match decodeBytes bs with
    | .error _ => .next (s.faultSet cILLEGAL)
    | .ok (i, _) => exec i s

/-- Fetch, decode and execute for a stroke; what would fault inks it, and the fault is then raised per lane (R40, R41). -/
def State.runStroke (s : State) (e : Nat) : Res :=
  match s.strokeAt s.iss.core e with
  | none => .next s
  | some st =>
    if s.fetchWaits s.iss.core st.ctx s.iss.pc then .next s
    else match s.fetch s.iss.core st.ctx false s.iss.pc with
    | (.error _, s) => .next s.strokeInk
    | (.ok bs, s) => match decodeBytes bs with
      | .error _ => .next s.strokeInk
      | .ok (i, _) => exec i s

/-- Run the present issue. -/
def State.runIssue (s : State) : Res :=
  match s.iss.stroke with
  | some e => s.runStroke e
  | none => s.runSet

/-- The primary of an issue cycle is an RNGSEED that takes effect: one within the allotment, with a participating lane (R27, R157). -/
def seeds (g : Group) (slot : Nat) (ls : List Nat) : Option Instr → Bool
  | some (Instr.rngseed h f) => Instr.within (Instr.rngseed h f) (g.allot slot) && ls.any fun l => Hdr.holds h (g.lane l)
  | _ => false

/-- The issue of a group's vote: the lanes age, the selection is noted, the primary set is the present issue, and the secondary set
waits with the shared registers as they stand (R43 to R46). -/
def State.issueState (s : State) (c slot : Nat) (p : PCSet) (q : Option PCSet) : State :=
  let g := s.group c slot
  let issued := p.lanes ++ match q with
    | some x => x.lanes
    | none => []
  let eligible := s.eligibleLanes c slot
  let x := (s.context g.ctx).getD {}
  let snap : Snap :=
    { s := g.s, gen := g.gen, watch := g.watch, remMode := x.remMode, fcomm := x.fcomm, period := (s.core c).period,
      seeded := seeds g slot p.lanes (s.peek c g.ctx (slot == 63) (BitVec.ofNat 64 p.pc)) }
  let second : Option Issue := match q with
    | some x => some { core := c, slot := slot, lanes := x.lanes, pc := BitVec.ofNat 64 x.pc, snap := some snap }
    | none => none
  let s := s.modGroup c slot fun g => g.aged issued eligible
  let s := s.modCore c fun k => { k with
    lastSlot := slot, selected := k.selected.put slot (s.die (dieOf c)).cycle, turn := if slot = 63 then 0 else 1 }
  { s with rrCore := c + 1, second := second,
           iss := { core := c, slot := slot, lanes := p.lanes, pc := BitVec.ofNat 64 p.pc } }

/-- The secondary set of an issue cycle issues (R43). -/
def State.runSecond (s : State) (i : Issue) : Res :=
  let u := { s with iss := i, second := none }
  match u.runIssue with
  | .next t => .next (t.noteReplay u i.core i.slot i.pc i.lanes)
  | x => x

/-- One issue cycle of a group (R43 to R45): a fault that waits for it is delivered, or a vectored wake taken, or the sets of its
vote issue, the primary now and the secondary in the next step. A group that ceded is not selected in the cycle after (R65). -/
def State.runGroup (s : State) (c slot : Nat) : Res :=
  let passed := s.cedes c slot
  let s := s.tick (dieOf c) 1
  let g := s.group c slot
  if g.nextDeliv.isSome then exec (.faultDelivery c slot) { s with iss := {} }
  else if !g.vector.isEmpty && s.mayIssue c g then exec (.barmVectoring c slot) { s with iss := {} }
  else if passed then .next s
  else match s.vote c slot with
    | none => .next s
    | some (p, q) =>
      let u := s.issueState c slot p q
      match u.runIssue with
      | .next t => .next (t.noteIssue u c slot p)
      | x => x

/-- The issue of a stroke of a core's stroke unit. -/
def State.strokeState (s : State) (c e : Nat) (st : Stroke) : State :=
  let s := s.modCore c fun k => { k with lastStroke := e, stroked := some (s.die (dieOf c)).cycle, turn := 2 }
  { s with rrCore := c + 1, iss := { core := c, pc := st.pc, stroke := some e } }

/-- One cycle of a core's stroke unit (R33). -/
def State.runStrokeUnit (s : State) (c : Nat) : Res :=
  let s := s.tick (dieOf c) 1
  match s.nextStroke c with
  | none => .next s
  | some e => match s.strokeAt c e with
    | none => .next s
    | some st => (s.strokeState c e st).runIssue

/-- One cycle passes on every die. -/
def State.idle (s : State) : State := (upto s.dieCount).foldl (fun s d => s.tick d 1) s

/-- Carry out a move; a core or die that the form lacks is a fault. -/
def State.runMove (s : State) : Move → Res
  | .event e => exec e { s with iss := {} }
  | .issue c slot => if c < s.coreCount then s.runGroup c slot else .fault .noSuchUnit
  | .stroke c => if c < s.coreCount then s.runStrokeUnit c else .fault .noSuchUnit
  | .elapse d n => if d < s.dieCount then .next (s.tick d n) else .fault .noSuchUnit

end Sys2Proof.Machine
end

