-- ==== Sys2Proof/Machine/Choose.lean ====
section
/-! DEFINITION. The move that the model chooses where the agenda names none (log 16). -/

namespace Sys2Proof.Machine

/-- What a unit of the package may do of its own accord: the meaning of an event. -/
abbrev Act := State → Res

/-- What waits outside the cores goes on as far as it can (R163, R325). -/
def retryAct : Act := fun s => .next s.retry

/-- The events of a group: its accesses, the faults that wait for it, and its leaving. -/
def groupEvents (c n : Nat) (g : Group) : List Act :=
  (upto g.loads.length).map (fun i => execLoadDataReturn c n i) ++ (upto g.sq.length).map (fun i => execStorePerform c n i)
    ++ (if g.deliv.isEmpty then [] else [execFaultDelivery c n])
    ++ (if g.draining then [execGroupLeavesDraining c n] else [])

/-- The events of a core: its groups, engine commands, matrix engine, lease, materialisation and samples. -/
def coreEvents (c : Nat) (k : Core) : List Act :=
  (k.groups.flatMap fun (n, g) => groupEvents c n g)
    ++ (k.cmds.flatMap fun q => [execCpyxRequest c q.seq.toNat, execTransferLanding c q.seq.toNat, execEngineCommandFault c q.seq.toNat,
        execEngineCommandComplete c q.seq.toNat])
    ++ (k.teams.flatMap fun (p, t) =>
        if t.queue.isEmpty then [] else [execMatrixOperationStart c p, execMatrixKStep c p])
    ++ (if k.fifo.isEmpty then [] else [execLeaseGrant c]) ++ (if k.holder.isSome then [execLeaseExpiry c] else [])
    ++ (if k.inked.isEmpty then [] else [execTeamMaterialise c])
    ++ (if k.period = 0 then [] else [execSamplePoint c]) ++ (if k.deferred.isEmpty then [] else [execSampleRecordDeferred c])

/-- The event by which a gateway takes up a packet that waits there (Table 19-6). -/
def packetOf (d : Nat) (p : Fesel) : Act :=
  match p.kind.toNat with
  | 0x01 => execRemoteRead d p
  | 0x02 => execReadReply d p
  | 0x03 => execRemoteWrite d p
  | 0x04 => execWriteAck d p
  | 0x05 => execRemoteAtomic d p
  | 0x06 => execAtomicReply d p
  | 0x07 => execXrq d p
  | 0x08 => execXdt d p
  | 0x09 => execXcn d p
  | 0x0A => execXer d p
  | 0x0B => execGnt d p
  | 0x0C => execCollectiveData d p
  | 0x0D => execHeartbeat d p
  | 0x0E => execProbeRequest d p
  | 0x0F => execProbeReply d p
  | 0x12 => execRefusal d p
  | _ => execVerdict d p

/-- The events of a die: walks, remote requests, stripes and refusals. -/
def dieEvents (d : Nat) (k : Die) : List Act :=
  (if k.walks.isEmpty then [] else [execPageWalk d])
    ++ (k.reqs.map fun r => execResponseTimeout d r.fid) ++ (k.stripes.map fun x => execResponseTimeout d x.fid)
    ++ ((k.sent.filter fun x => x.due.isSome && !x.resent).map fun x => execRefusalResend d x.pkt.fid)
    ++ (if k.stripes.isEmpty && k.joinQ.isEmpty then [] else [execStripeIssue d])

/-- The stream of a key. -/
def streamOf (n : Nat) : StreamId := ⟨n / 32, n / 4 % 8, n / 2 % 2, n % 2 == 1⟩

/-- The events of a stream: the flit at the head of its wire, its timers, an idle flit with freed slots to report, and the packets
received. -/
def State.streamEvents (s : State) (n : Nat) (x : Stream) : List Act :=
  let t := streamOf n
  (if x.wire.isEmpty then [] else [execDataFlit t, execControlFlit t])
    ++ (if x.replay.isEmpty then [] else [execReplayTimeout t, execReplayLimit t])
    ++ (if x.ackAt.isSome then [execAckTimerExpiry t] else []) ++ (if x.nakAt.isSome then [execNakLapse t] else [])
    ++ (if (s.stream (StreamId.back t)).freed = 0 then [] else [execIdleFlit t])
    ++ (if x.packets.isEmpty then [] else
        [execDieLinkRead t, execDieLinkReadReply t, execDieLinkWrite t, execDieLinkWriteAck t, execDieLinkAtomic t, execDieLinkAtomicReply t,
         execDieLinkInvalidation t, execDieLinkInvalidationAck t, execDieLinkControl t, execDieLinkWriteback t, execDieLinkWritebackAck t,
         execDieLinkTagRead t, execDieLinkTagReadReply t, execDieLinkTagWrite t, execDieLinkTagWriteAck t, execDieLinkUnknownOp t])

/-- The events of a queue: its packet that comes next, reports and the interrupt. -/
def queueEvents (n : Nat) (q : Queue) : List Act :=
  (if q.packets.isEmpty then [] else
    [execNoopPacket n, execLaunchPacket n, execMarkerPacket n, execPreemptPacket n, execResumePacket n, execLaunchStart n])
    ++ (if q.reports = 0 then [] else [execCompletionReport n])

/-- The events of a context: a pre-emption that goes on, cadence, and collectives whose time is up. -/
def State.contextEvents (s : State) (n : Nat) (x : Context) : List Act :=
  let watched := x.watched.keys.map fun d => s.rankOf n 0 (BitVec.ofNat 20 d)
  (if x.preempted && !x.out then [execPreemption n] else []) ++ (if !x.preempted && !x.saved.isEmpty then [execRestore n] else [])
    ++ (if x.cadence then [execHeartbeatTimer n] else [])
    ++ (watched.map fun r => execSuspicion n r) ++ (watched.map fun r => execProbeTimeout n r)
    ++ (x.colls.filter fun k => k.result.isNone).map fun k => execResponseTimeout k.die (k.fid.getD (s.die k.die).fid)

/-- A core of a die without strokes or committed teams, whose agent runs, claims the next chunk of a launch (log 16). -/
def State.claims (s : State) (l : Launch) : List Act :=
  (s.pkDies l.words).filterMap fun d =>
    if s.exhausted l d || l.term.isSome then none
    else ((rangeFrom (d * Config.coresPerDie) Config.coresPerDie).find? fun c =>
      (s.core c).strokes.isEmpty && (s.core c).inked.isEmpty && s.agentRuns c).map fun c => execChunkClaim c l.ctx l.num

/-- The events that units of the package may have ready, of their own accord (log 16). -/
def State.candidates (s : State) : List Act :=
  (if s.waking then [execPowerStateExitComplete] else []) ++ [retryAct]
    ++ (s.cores.flatMap fun (c, k) => coreEvents c k) ++ (s.dies.flatMap fun (d, k) => dieEvents d k)
    ++ (s.streams.flatMap fun (n, x) => s.streamEvents n x) ++ (s.gateQ.map fun (d, p) => packetOf d p)
    ++ (s.views.flatMap fun (n, v) => v.state.filterMap fun (k, c) => match c with
      | .copying _ => some (execChunkCopyEnd n k)
      | .preserved _ => none)
    ++ (s.invals.map fun i => execInvalidationComplete i.id) ++ (s.hbm.filterMap fun (n, k) => k.th3.map fun _ => execTh3Timeout n)
    ++ (s.contexts.flatMap fun (n, x) => s.contextEvents n x)
    ++ (s.launches.flatMap fun l => s.claims l ++ [execGridEnd l.ctx l.num])
    ++ (s.queues.flatMap fun (n, q) => queueEvents n q)
    ++ ((s.die 0).held.flatMap fun (n, _) => [execCoalescingTimerExpiry n, execInterrupt n])
    ++ (if s.queues.isEmpty then [] else [execPowerStateExit .wridx, execPowerStateExit .tolerance, execPowerStateEntry])

/-- What an event changes, where it changes anything. -/
def State.moved (s : State) (f : Act) : Option State :=
  let s := { s with iss := {} }
  match f s with
  | .next t => if t = s then none else some t
  | _ => none

/-- The core that is asked first, and then the others in turn. -/
def State.coreOrder (s : State) : List Nat :=
  let ks := s.cores.map Prod.fst
  (ks.filter fun c => s.rrCore ≤ c) ++ ks.filter fun c => c < s.rrCore

/-- The issue of a core: a group, its stroke unit or its agent, in turn where several may issue (R46, R47). -/
def State.coreMove (s : State) (c : Nat) : Option Move :=
  let g := (s.nextGroup c).map fun n => Move.issue c n
  let t := (s.nextStroke c).map fun _ => Move.stroke c
  let a := if s.nextAgent c then some (Move.issue c 63) else none
  match (s.core c).turn with
  | 0 => g <|> t <|> a
  | 1 => t <|> a <|> g
  | _ => a <|> g <|> t

/-- An event of the package's units where one is ready, else an issue, else a cycle passes on every die. -/
def State.runChosen (s : State) : Res :=
  match s.candidates.findSome? s.moved with
  | some t => .next t
  | none => match s.coreOrder.findSome? s.coreMove with
    | some m => s.runMove m
    | none => .next s.idle

end Sys2Proof.Machine
end

