-- ==== Sys2Proof/Machine/Place.lean ====
section
/-! DEFINITION. An instruction's words placed where the next step fetches them, with all that this takes (log 5). -/

namespace Sys2Proof.Machine

/-- The virtual and physical address at which an instruction is placed. -/
def placeVa : W64 := 0x10000
def placePa : Nat := 0x10000

/-- A valid leaf that maps the 64 KiB page of the placed instruction with rights r, w and x. -/
def placePte : W64 := 0x0001_C000_0001_0003

/-- A running consumer group of one lane at the placed instruction, with the largest allotment. -/
def placeGroup : Group :=
  { unit := 0, nunit := 40, lanes := [{ pc := placeVa }], watch := List.replicate 4 ⟨0, 0, 0, 0⟩, place := some 0 }

/-- The 12 bytes of an instruction stand at the place, a group in slot 0 of core 0 stands there, the core translates its address,
and the next move issues that group. -/
def State.place (s : State) (bs : List Byte) : State :=
  let k := s.core 0
  let k := { k with
    groups := k.groups.put 0 placeGroup,
    tlb := { ctx := 0, firmware := false, base := 0x10000, lg := 16, pte := placePte } :: k.tlb }
  { (s.setCore 0 k) with mem := putBytes s.mem placePa bs, second := none, agenda := [.issue 0 0] }

end Sys2Proof.Machine
end

