-- ==== Sys2Proof/Machine/Step.lean ====
section
/-! DEFINITION. One step of the package, and the placing of an instruction for the next step. -/

namespace Sys2Proof.Machine

/-- One step: the secondary set of an issue cycle that has begun, else the next coming move, else the move that the model chooses
(log 2, log 16). -/
def step (s : State) : Host.Outcome State Fault Refusal :=
  match s.second with
  | some i => s.runSecond i
  | none => match s.agenda with
    | m :: rest => State.runMove { s with agenda := rest } m
    | [] => s.runChosen

/-- The state with an instruction of `nbits` bits, `w`, placed where the next step fetches it. -/
def State.withFetchWord (s : State) (nbits w : Nat) : State := s.place (bytesOf 12 (w % 2 ^ nbits))

end Sys2Proof.Machine
end

