-- ==== Sys2Proof/Machine/Codeword.lean ====
section
/-! DEFINITION. The Reed-Solomon codewords in which a stack stores its granules (R320). -/

namespace Sys2Proof.Machine

/-! ## GF(2^8) with x^8 + x^4 + x^3 + x^2 + 1 -/

/-- The product by α = 0x02. -/
def gfTwice (x : Byte) : Byte := (x <<< 1) ^^^ (if x.getLsbD 7 then 0x1D else 0)

/-- The product of a byte and the n highest bits still to be taken of another. -/
def gfMulN (x y : Byte) : Nat → Byte → Byte
  | 0, acc => acc
  | n + 1, acc => gfMulN x y n (gfTwice acc ^^^ (if y.getLsbD n then x else 0))

/-- The product. -/
def gfMul (x y : Byte) : Byte := gfMulN x y 8 0

/-- A power of α. -/
def gfPow : Nat → Byte
  | 0 => 1
  | n + 1 => gfTwice (gfPow n)

/-! ## The code (Table 19-12) -/

/-- A polynomial, highest coefficient first, multiplied by x + a. -/
def polyTimes (p : List Byte) (a : Byte) : List Byte :=
  (p ++ [0]).zipWith (fun x y => x ^^^ y) (0 :: p.map (gfMul a))

/-- The product of x + α^i for i below a bound. -/
def polyGen : Nat → List Byte
  | 0 => [1]
  | n + 1 => polyTimes (polyGen n) (gfPow n)

/-- g(x), of degree 14. -/
def rsGen : List Byte := polyGen 14

/-- One step of the division by g(x): the remainder takes the next symbol. -/
def rsStep (r : List Byte) (x : Byte) : List Byte :=
  let f := x ^^^ r.headD 0
  (r.drop 1 ++ [0]).zipWith (fun a b => a ^^^ gfMul f b) (rsGen.drop 1)

/-- Symbols 66 to 79: those that make the codeword a multiple of g(x). -/
def rsCheck (msg : List Byte) : List Byte := msg.foldl rsStep (List.replicate 14 0)

/-- The codeword of a granule: its 64 bytes, its metadata symbol, a zero, and the check symbols. -/
def rsEncode (bytes : List Byte) (m : BitVec 5) : List Byte :=
  let msg := padTo 64 bytes ++ [m.zeroExtend 8, 0]
  msg ++ rsCheck msg

/-- The value of a codeword's polynomial at a point; symbol j is the coefficient of x^(79 − j). -/
def rsAt (cw : List Byte) (x : Byte) : Byte := cw.foldl (fun acc c => gfMul acc x ^^^ c) 0

/-- A codeword is a multiple of g(x): it is zero at each root α^0 to α^13. -/
def rsValid (cw : List Byte) : Bool := (upto 14).all fun i => rsAt cw (gfPow i) == 0

/-- The symbols that a stack holds for a granule: its codeword, with the symbol errors that have befallen it (R321). -/
def State.codeword (s : State) (g : Nat) : List Byte :=
  (s.gerr.get [] g).foldl (fun cw (j, e) => listModify cw j fun x => x ^^^ e) (rsEncode (s.bytes (64 * g) 64) (s.metaAt (64 * g)))

end Sys2Proof.Machine
end

