-- ==== Sys2Proof/Safety.lean ====
section
/-! DEFINITION. What claims call a safe state and a safe run, and what they say an instruction leaves unchanged. -/

namespace Sys2Proof.Machine

/-- The memory, its tags and poison, and its symbol errors are in their canonical forms. -/
def State.MemOk (s : State) : Prop :=
  Memory.wf s.mem = true ∧ SMap.wf (0 : BitVec 5) s.gmeta = true ∧ SMap.wf ([] : List (Nat × Byte)) s.gerr = true

/-- A step ends in a next state: the run does not stop. -/
def Goes (s : State) : Prop := ∃ t, step s = .next t

/-! ## The issue of an instruction to a PC set -/

/-- The group that issues. -/
def State.issGroup (s : State) : Group := s.group s.iss.core s.iss.slot

/-- A lane of the group that issues. -/
def State.issLane (s : State) (l : Nat) : Lane := s.issGroup.lane l

/-- The guard-true lanes of the issuing set (R64). -/
def State.active (s : State) (h : Hdr) : List Nat := (s.env h).active

/-- An instruction issues to a PC set: to lanes that the group has, its registers within the role's allotment (R27, R69). -/
structure Issues (s : State) (i : Instr) : Prop where
  set : s.iss.stroke = none
  lanes : ∀ l ∈ s.iss.lanes, l < s.issGroup.lanes.length
  within : i.within (s.issGroup.allot s.iss.slot) = true

/-- An instruction that the nib lane executes once issues, and its nib lane is guard-true (R52, R64). -/
structure NibIssues (s : State) (i : Instr) (h : Hdr) (n : Nat) : Prop extends Issues s i where
  nib : s.iss.lanes.head? = some n
  on : (s.active h).head? = some n

/-- The register file after values go to consecutive registers from the operand's, for the v registers of a lane. -/
def vAfter (old : Nat → W32) (d : Opnd) (xs : List W32) (m : Nat) : W32 :=
  match d with
  | .v r => if r.val ≤ m ∧ m < r.val + xs.length then (xs[m - r.val]?).getD 0 else old m
  | _ => old m

/-- The same for the s registers of a group. -/
def sAfter (old : Nat → W32) (d : Opnd) (xs : List W32) (m : Nat) : W32 :=
  match d with
  | .s r => if r.val ≤ m ∧ m < r.val + xs.length then (xs[m - r.val]?).getD 0 else old m
  | _ => old m

/-- The predicates after one is written; p7 stays true (R68, R70). -/
def pAfter (old : Nat → Bool) (p : Nat) (b : Bool) (k : Nat) : Bool := if k = p ∧ p ≠ 7 then b else old k

/-- The instruction leaves everything unchanged but the lanes of the issuing set, the s registers of their group and the cede mark
of their core; and of a lane of the set everything but its v registers, predicates, current PC, wait, pace interval and the mark
of R348. -/
structure SetFrame (s t : State) : Prop where
  rest : { t with cores := s.cores } = s
  mem : ∀ a, t.byte a = s.byte a
  cores : ∀ c, c ≠ s.iss.core → t.core c = s.core c
  core : t.core s.iss.core = { s.core s.iss.core with
    groups := (t.core s.iss.core).groups, ceded := (t.core s.iss.core).ceded }
  slots : ∀ n, n ≠ s.iss.slot → t.group s.iss.core n = s.group s.iss.core n
  group : t.issGroup = { s.issGroup with lanes := t.issGroup.lanes, s := t.issGroup.s }
  count : t.issGroup.lanes.length = s.issGroup.lanes.length
  others : ∀ l, l ∉ s.iss.lanes → t.issLane l = s.issLane l
  lane : ∀ l, t.issLane l = { s.issLane l with
    pc := (t.issLane l).pc, tpc := (t.issLane l).tpc, v := (t.issLane l).v, p := (t.issLane l).p,
    wait := (t.issLane l).wait, until_ := (t.issLane l).until_, wskip := (t.issLane l).wskip }
  shadowPc : ∀ l, if (s.issLane l).trap then (t.issLane l).pc = (s.issLane l).pc else (t.issLane l).tpc = (s.issLane l).tpc

/-- Every lane of the set goes on at PC + 12 and waits for nothing (R42, R63). -/
def Advances (s t : State) : Prop :=
  ∀ l ∈ s.iss.lanes, (t.issLane l).cur = s.iss.pc + 12 ∧ (t.issLane l).wait = .none

/-- What is written for the lanes of a list: their registers and predicates take the values listed, in order, the s registers those
of the first of them; every other register and predicate stays (R64, R70). -/
structure Writes (s t : State) (act : List Nat) (ds : List (Opnd × (Nat → List W32))) (ps : List (Nat × (Nat → Bool))) : Prop
    extends SetFrame s t where
  v : ∀ l ∈ s.iss.lanes, ∀ m, (t.issLane l).rv m =
    if l ∈ act then ds.foldl (fun old x => vAfter old x.1 (x.2 l)) (s.issLane l).rv m else (s.issLane l).rv m
  sc : ∀ m, t.issGroup.rs m = match act.head? with
    | some l => ds.foldl (fun old x => sAfter old x.1 (x.2 l)) s.issGroup.rs m
    | none => s.issGroup.rs m
  p : ∀ l ∈ s.iss.lanes, ∀ k, k < 8 → (t.issLane l).pred k =
    if l ∈ act then ps.foldl (fun old x => pAfter old x.1 (x.2 l)) (s.issLane l).pred k else (s.issLane l).pred k

/-- What an instruction that only computes does: it writes for the guard-true lanes, and every lane of the set goes on. -/
structure Computes (s t : State) (h : Hdr) (ds : List (Opnd × (Nat → List W32))) (ps : List (Nat × (Nat → Bool))) : Prop
    extends Writes s t (s.active h) ds ps where
  advances : Advances s t

/-- The lanes of a list go on at the addresses given, the other lanes of the set at PC + 12, and none waits (R64, R199). -/
def Continues (s t : State) (act : List Nat) (next : Nat → W64) : Prop :=
  ∀ l ∈ s.iss.lanes, (t.issLane l).cur = (if l ∈ act then next l else s.iss.pc + 12) ∧ (t.issLane l).wait = .none

/-- What `Computes` says with one destination, for an instruction that issues: it completes, and each guard-true lane's destination
takes the value given for it. -/
def Gives (s : State) (i : Instr) (h : Hdr) (d : Opnd) (val : Nat → List W32) : Prop :=
  Issues s i → ∃ t, exec i s = .next t ∧ Computes s t h [(d, val)] []

/-! ## Strokes -/

/-- An instruction issues for a stroke in an entry, its registers within the role's allotment (R33, R69). -/
structure StrokeIssues (s : State) (i : Instr) (e : Nat) (st : Stroke) : Prop where
  entry : s.iss.stroke = some e
  at_ : s.strokeAt s.iss.core e = some st
  within : i.within s.strokeAllot = true

/-- An instruction executes for a stroke in an entry, under a uniform true guard (R33). -/
structure StrokeRuns (s : State) (i : Instr) (h : Hdr) (e : Nat) (st : Stroke) : Prop extends StrokeIssues s i e st where
  guard : st.guard h = some true

/-- The stroke of an entry replaced. -/
def State.putStroke (s : State) (e : Nat) (st : Stroke) : State :=
  s.modCore s.iss.core fun k => { k with strokes := k.strokes.put e st }

/-- A form of a stroke's operand A, of its operand B. -/
def Stroke.fa (st : Stroke) (s : State) (f : VF) : Option Form := st.form (st.tx s) (st.ty s) f.a

/-! ## Integer operands -/

/-- The values of operands A and B and of the old D in the instruction's type, for a lane (R67, R120, R125). -/
def intA (s : State) (h : Hdr) (f : VF) (l : Nat) : Int := valIn f.ty ((s.env h).src l f.ty f.a)
def intB (s : State) (h : Hdr) (f : VF) (l : Nat) : Int := valIn f.ty ((s.env h).srcB l f)
def intD (s : State) (h : Hdr) (f : VF) (l : Nat) : Int := valIn f.ty ((s.env h).src l f.ty f.d)

end Sys2Proof.Machine
end

