-- ==== Sys2Proof/Certificates/Slice0/Obligations.lean ====
section
/-! DEFINITION. Statements for the provers, from the rules of the spec. -/

open Sys2Proof Sys2Proof.Machine

/-! ## Instruction words -/

/-- Decoding the word of an instruction gives the instruction back, for every instruction that the encoding admits, with every
operand and field at every value that it admits. -/
def Obligations.RoundTrip : Prop :=
  ∀ i : Instr, i.wf = true → ∃ w, encode i = some w ∧ decode w = .ok i

/-- The decoder accepts only the word of a well-formed instruction: no bit of an accepted word is dropped, and two words of one
instruction do not exist.

The reserved major opcodes of Table 5-15 (R84, R85): no word with one decodes. -/
def Obligations.DecoderExact : Prop :=
  (
    ∀ (w : W96) (i : Instr), decode w = .ok i → i.wf = true ∧ encode i = some w) ∧
  (
    ∀ w : W96, (field w 88 8).toNat ∈
        [0x1F, 0x3E, 0x3F, 0x5F] ++ rangeFrom 0x49 7 ++ rangeFrom 0x75 11 ++ rangeFrom 0x96 10 ++ rangeFrom 0xAD 3
          ++ rangeFrom 0xBC 4 ++ rangeFrom 0xC9 23 ++ rangeFrom 0xE4 28 →
      ∃ e, decode w = .error e)

/-- Words written out from the encoding tables decode to the instructions they stand for, one of each format: IADD.I32 v1, v2, v3;
MOVI.B32 v4, 7; BRA −1 under @!p2; LD of 4 bytes at v2:v3 − 8 with scope .P and acquire; BINIT of barrier 5, one member; EXIT. -/
def Obligations.SampleWords : Prop :=
  let h : Hdr := { gneg := false, gpred := 7, pace := 0, cede := false, latchA := false, latchB := false }
  decodeTableWord 96 0x00_70_00_20_20_18_00_01_40_00_00_00 = some (.iadd h
    { d := .v 1, a := .v 2, b := .v 3, c := .v 0, imm := none, sub := 0, ty := .i32, rc := 0, sat := false, nega := false,
      negb := false, absa := false, absb := false, pred := 0, mod := 0 }) ∧
  decodeTableWord 96 0x1D_70_00_80_00_04_00_00_00_1C_00_00 = some (.movi h
    { d := .v 4, a := .v 0, b := .v 0, c := .v 0, imm := some 7, sub := 0, ty := .b32, rc := 0, sat := false, nega := false,
      negb := false, absa := false, absb := false, pred := 0, mod := 0 }) ∧
  decodeTableWord 96 0x50_A0_00_00_00_07_FF_FF_FF_F8_00_00 = some (.bra { h with gneg := true, gpred := 2 }
    { d := .v 0, a := .v 0, b := .v 0, off := 0xFFFFFFFF, sub := 0, mod := 0 }) ∧
  decodeTableWord 96 0x60_70_00_20_20_07_FF_FF_C2_A2_00_00 = some (.ld h
    { d := .v 1, a := .v 2, b := .v 0, off := 0xFFFFF8, size := .b4, scope := .p, policy := .normal, order := .acquire,
      sext := false, sub := 0, pred := 0, mod := 0 }) ∧
  decodeTableWord 96 0x86_70_00_00_00_02_80_00_00_00_00_01 = some (.binit h
    { d := .v 0, a := .v 0, b := .v 0, bar := 5, shp := 0, acc := 0, tid := 0, spair := 0, sub := 0, mod := 1 }) ∧
  decodeTableWord 96 0x56_70_00_00_00_00_00_00_00_00_00_00 = some (.exit h
    { d := .v 0, a := .v 0, b := .v 0, off := 0, sub := 0, mod := 0 })

/-! ## The step -/

/-- A step runs the decoded instruction. When the next move is the issue of a group that did not cede (R65) and has no fault or wake
waiting, one cycle of its die passes and its vote names the sets; when the words fetched at the primary's PC decode to an instruction,
the step is that instruction's `exec`, and the issue cycle is then noted for sampling. A secondary set issues in the step that follows,
and a stroke in a step of its own, in the same way. That a step takes the first move of the agenda is the model's choice (log 2). So are
the sets' order, primary first, and the cycle that an issue takes (logs 2, 3). -/
def Obligations.StepRunsDecoded : Prop :=
  (∀ (s : State) (c slot : Nat) (rest : List Move) (p : PCSet) (q : Option PCSet) (bs : List Byte) (v x : State) (i : Instr)
      (more : List Byte),
    let r := ({ s with agenda := rest } : State)
    let t := r.tick (dieOf c) 1
    let u := t.issueState c slot p q
    let ctx := (u.group c slot).ctx
    s.second = none → s.agenda = .issue c slot :: rest → c < s.coreCount → r.cedes c slot = false →
    (t.group c slot).nextDeliv = none → (t.group c slot).vector = [] → t.vote c slot = some (p, q) →
    u.fetchWaits c ctx (BitVec.ofNat 64 p.pc) = false →
    u.fetch c ctx (slot == 63) (BitVec.ofNat 64 p.pc) = (.ok bs, v) → decodeBytes bs = .ok (i, more) →
    exec i v = .next x → step s = .next (x.noteIssue u c slot p)) ∧
  (∀ (s : State) (n : Issue) (bs : List Byte) (v x : State) (i : Instr) (more : List Byte),
    let u : State := { s with iss := n, second := none }
    let ctx := (u.group n.core n.slot).ctx
    s.second = some n → n.stroke = none → u.fetchWaits n.core ctx n.pc = false →
    u.fetch n.core ctx (n.slot == 63) n.pc = (.ok bs, v) → decodeBytes bs = .ok (i, more) →
    exec i v = .next x → step s = .next (x.noteReplay u n.core n.slot n.pc n.lanes)) ∧
  (∀ (s : State) (c e : Nat) (rest : List Move) (st : Stroke) (bs : List Byte) (v : State) (i : Instr) (more : List Byte),
    let t := ({ s with agenda := rest } : State).tick (dieOf c) 1
    s.second = none → s.agenda = .stroke c :: rest → c < s.coreCount → t.nextStroke c = some e → t.strokeAt c e = some st →
    (t.strokeState c e st).fetchWaits c st.ctx st.pc = false →
    (t.strokeState c e st).fetch c st.ctx false st.pc = (.ok bs, v) → decodeBytes bs = .ok (i, more) →
    step s = exec i v)

/-- A word that decodes to nothing is ILLEGAL for every lane of the issuing set, whatever its guard, and a stroke inks there (R85,
R86); a fetch that fails is a fault of every lane of the set before decode (R61), and one that firmware serves parks them (R48). While
the fetch waits for a walk or for a stack (R163, R325), the lanes stand where they are, and so does a stroke: the form of waiting is the
model's reading (log 27), and which walks wait its choice (log 11).

For every instruction: a register at or above the role's allotment is ILLEGAL for every lane of the set, whatever its guard, and
the instruction has no effect for any lane (R27, R69, R86). -/
def Obligations.WholeInstructionFaults : Prop :=
  (
    (∀ (s v : State) (bs : List Byte) (e : DecodeError),
      s.fetchWaits s.iss.core s.issGroup.ctx s.iss.pc = false →
      s.fetch s.iss.core s.issGroup.ctx (s.iss.slot == 63) s.iss.pc = (.ok bs, v) → decodeBytes bs = .error e →
      s.iss.stroke = none → s.runIssue = .next (v.iss.lanes.foldl (fun s l => s.faultLane l { code := cILLEGAL }) v)) ∧
    (∀ (s v : State) (f : FaultRec),
      s.fetchWaits s.iss.core s.issGroup.ctx s.iss.pc = false →
      s.fetch s.iss.core s.issGroup.ctx (s.iss.slot == 63) s.iss.pc = (.error f, v) → s.iss.stroke = none →
      s.runIssue = .next (v.iss.lanes.foldl (fun t l =>
        if f.code = cXLATE && t.served (v.group v.iss.core v.iss.slot).ctx f.addr then
          t.park t.iss.core t.iss.slot l t.iss.pc f
        else t.faultLane l f) v)) ∧
    (∀ (s v : State) (k : Nat) (st : Stroke) (bs : List Byte) (e : DecodeError), s.iss.stroke = some k →
      s.strokeAt s.iss.core k = some st → s.fetchWaits s.iss.core st.ctx s.iss.pc = false →
      s.fetch s.iss.core st.ctx false s.iss.pc = (.ok bs, v) → decodeBytes bs = .error e →
      s.runIssue = .next v.strokeInk) ∧
    (∀ (s v : State) (k : Nat) (st : Stroke) (f : FaultRec), s.iss.stroke = some k →
      s.strokeAt s.iss.core k = some st → s.fetchWaits s.iss.core st.ctx s.iss.pc = false →
      s.fetch s.iss.core st.ctx false s.iss.pc = (.error f, v) → s.runIssue = .next v.strokeInk) ∧
    (∀ s : State, s.iss.stroke = none → s.fetchWaits s.iss.core s.issGroup.ctx s.iss.pc = true →
      s.runIssue = .next (s.iss.lanes.foldl (fun t l => t.modLane s.iss.core s.iss.slot l fun x =>
        { x with wait := .cond (.reach s.iss.pc 12) }) s)) ∧
    (∀ (s : State) (k : Nat) (st : Stroke), s.iss.stroke = some k → s.strokeAt s.iss.core k = some st →
      s.fetchWaits s.iss.core st.ctx s.iss.pc = true → s.runIssue = .next s)) ∧
  (
    ∀ (s : State) (i : Instr), i.hdr.isSome = true → s.iss.stroke = none → i.within (s.issGroup.allot s.iss.slot) = false →
      exec i s = .next (s.faultSet cILLEGAL))

/-! ## Reset -/

/-- The package at reset: no context, queue, launch, view or invalidation exists; every die-link stream, packet queue, host queue and
window is empty. That the package is in L0 and runs with empty caches, and every other value at reset, is the model's choice (logs 1, 3,
4, 5, 7, 13, 28): the spec gives none.

The memory, tags, poison and symbol errors at reset are in canonical form. -/
def Obligations.ResetState : Prop :=
  (
    let s := State.reset
    s.contexts = [] ∧ s.queues = [] ∧ s.launches = [] ∧ s.views = [] ∧ s.invals = [] ∧ s.power = .l0 ∧
    (∀ c slot, s.group c slot = {}) ∧
    (∀ c, (s.core c).l1 = [] ∧ (s.core c).tlb = [] ∧ (s.core c).tlb2 = [] ∧ (s.core c).cmds = [] ∧ (s.core c).strokes = [] ∧
      (s.core c).holder = none) ∧
    (∀ d, (s.die d).rdc = [] ∧ (s.die d).home = [] ∧ (s.die d).reqs = [] ∧ (s.die d).walks = [] ∧ (s.die d).hold = [] ∧ (s.die d).held = [] ∧
      (s.die d).watches = []) ∧
    (∀ x : StreamId, s.stream x = {}) ∧
    s.recQ = [] ∧ (∀ d, (s.die d).ingress = []) ∧ s.fabricOut = [] ∧ s.gateQ = [] ∧ s.hostHeld = [] ∧ s.hostOut = [] ∧ s.debugQ = [] ∧ s.hostWins = [] ∧
    (∀ a, s.byte a = 0) ∧ s.agenda = [] ∧ s.second = none) ∧
  (
    State.reset.MemOk)

/-- An invariant of every step: the memory, its tags and poison, and its symbol errors keep their canonical forms, whatever the
instruction or event and whatever else the state holds. -/
def Obligations.StepKeepsMemory : Prop :=
  ∀ s t : State, s.MemOk → step s = .next t → t.MemOk

/-! ## Instructions that compute -/

/-- The integer arithmetic of R125 and R127, for every type, operand form and guard: the exact result, clamped with .SAT and else
modulo 2^W, goes to D; all else is unchanged.

The corners of R127: division by zero gives all ones, and a remainder by zero the dividend; the most negative value divided by
−1 gives itself, or with .SAT the greatest value, and the remainder 0; every other quotient is truncated toward zero.

Narrowing (R98, R125): without .SAT the result is the pattern of the exact value modulo 2^W; with .SAT a value of the type is
kept, one above its range becomes the greatest value and one below it the least. -/
def Obligations.IntegerResults : Prop :=
  (
    ∀ (s : State) (h : Hdr) (f : VF),
      let a := intA s h f
      let b := intB s h f
      let d := intD s h f
      let res := fun (sat : Bool) (x : Nat → Int) (l : Nat) => valRegs f.ty.is64 (narrow f.ty sat (x l))
      Gives s (.iadd h f) h f.d (res f.sat fun l => a l + b l) ∧
      Gives s (.isub h f) h f.d (res f.sat fun l => a l - b l) ∧
      Gives s (.imul h f) h f.d (res f.sat fun l => a l * b l) ∧
      Gives s (.imulh h f) h f.d (res false fun l => a l * b l / 2 ^ wBits f.ty) ∧
      Gives s (.imad h f) h f.d (res f.sat fun l => a l * b l + d l) ∧
      Gives s (.imin h f) h f.d (res f.sat fun l => if a l ≤ b l then a l else b l) ∧
      Gives s (.imax h f) h f.d (res f.sat fun l => if a l ≤ b l then b l else a l) ∧
      Gives s (.iabs h f) h f.d (res f.sat fun l => ((a l).natAbs : Int)) ∧
      Gives s (.ineg h f) h f.d (res f.sat fun l => -a l) ∧
      Gives s (.idiv h f) h f.d (res false fun l => idivVal f.ty f.sat (a l) (b l)) ∧
      Gives s (.irem h f) h f.d (res false fun l => iremVal f.ty (a l) (b l))) ∧
  (
    (∀ (t : Ty) (sat : Bool) (x : Int), narrow t false (idivVal t sat x 0) = narrow t false (-1) ∧ iremVal t x 0 = x) ∧
    (∀ (t : Ty) (sat : Bool), t.isSigned = true →
      idivVal t sat (-(2 ^ (wBits t - 1))) (-1) = (if sat then 2 ^ (wBits t - 1) - 1 else -(2 ^ (wBits t - 1))) ∧
      iremVal t (-(2 ^ (wBits t - 1))) (-1) = 0) ∧
    (∀ (t : Ty) (sat : Bool) (x y : Int), y ≠ 0 → (t.isSigned = false ∨ x ≠ -(2 ^ (wBits t - 1)) ∨ y ≠ -1) →
      idivVal t sat x y = Int.tdiv x y ∧ iremVal t x y = Int.tmod x y)) ∧
  (
    ∀ (t : Ty) (x : Int),
      let r := typeRange t.isSigned (wBits t)
      (narrow t false x).toNat = (x % 2 ^ wBits t).toNat ∧
      (r.1 ≤ x → x ≤ r.2 → narrow t true x = narrow t false x ∧ valIn t (narrow t true x) = x) ∧
      (r.2 < x → narrow t true x = narrow t false r.2) ∧
      (x < r.1 → narrow t true x = narrow t false r.1))

/-- The bit operations of R128, for every type, operand form and guard.

The values of R128's operations bit by bit, for 32-bit and 64-bit types: a shift by W or more gives 0, or copies of the sign for SAR,
and any other moves each bit by the amount; ROTL rotates; BFX takes the bits from a position on, of A extended by its type, and extends
the field by its top bit for .I and by zeros for .N; BFI puts the low bits of C between bit positions of A; POPC counts the one bits,
and CLZ the zeros above the highest one; BREV sends bit i to bit W − 1 − i. -/
def Obligations.BitResults : Prop :=
  (
    ∀ (s : State) (h : Hdr) (f : VF),
      let e := s.env h
      let a := fun l => e.src l f.ty f.a
      let b := fun l => e.srcB l f
      let n := fun l => (e.srcB32 l f).toNat
      let w := fun (x : Nat → W64) (l : Nat) => valRegs f.ty.is64 (x l)
      Gives s (.and h f) h f.d (w fun l => a l &&& b l) ∧
      Gives s (.or h f) h f.d (w fun l => a l ||| b l) ∧
      Gives s (.xor h f) h f.d (w fun l => a l ^^^ b l) ∧
      Gives s (.not h f) h f.d (w fun l => ~~~(a l)) ∧
      Gives s (.shl h f) h f.d (w fun l => shlVal f.ty (a l) (n l)) ∧
      Gives s (.shr h f) h f.d (w fun l => shrVal f.ty (a l) (n l)) ∧
      Gives s (.sar h f) h f.d (w fun l => sarVal f.ty (a l) (n l)) ∧
      Gives s (.rotl h f) h f.d (w fun l => rotlVal f.ty (a l) (n l)) ∧
      Gives s (.bfx h f) h f.d (w fun l => bfxVal f.ty (a l) (e.srcB32 l f)) ∧
      Gives s (.bfi h f) h f.d (w fun l => bfiVal f.ty (a l) (e.srcB32 l f) (e.src l f.ty f.c)) ∧
      Gives s (.popc h f) h f.d (fun l => [BitVec.ofNat 32 (popBits 64 (a l).toNat)]) ∧
      Gives s (.clz h f) h f.d (fun l => [BitVec.ofNat 32 (clzBits (wBits f.ty) (a l).toNat)]) ∧
      Gives s (.brev h f) h f.d (w fun l => BitVec.ofNat 64 (revBits (wBits f.ty) (a l).toNat))) ∧
  (
    ∀ (t : Ty) (x : W64) (n i : Nat),
      let W := wBits t
      x.toNat < 2 ^ W → i < W →
      (shlVal t x n).getLsbD i = (decide (n ≤ i) && x.getLsbD (i - n)) ∧
      (shrVal t x n).getLsbD i = x.getLsbD (i + n) ∧
      (t.isSigned = true → (sarVal t x n).getLsbD i = x.getLsbD (Nat.min (i + n) (W - 1))) ∧
      (rotlVal t x n).getLsbD ((i + n) % W) = x.getLsbD i ∧
      (BitVec.ofNat 64 (revBits W x.toNat)).getLsbD (W - 1 - i) = x.getLsbD i ∧
      popBits 64 x.toNat = ((upto W).filter fun k => x.getLsbD k).length ∧
      (x = 0 → clzBits W x.toNat = W) ∧ (x ≠ 0 → x.toNat / 2 ^ (W - 1 - clzBits W x.toNat) = 1) ∧
      (∀ ctl : W32,
        let pos := ctl.toNat % 256
        let len := Nat.min (ctl.toNat / 256 % 256) W
        let src := fun k => if k < W then x.getLsbD k else t.isSigned && x.getLsbD (W - 1)
        (bfxVal t x ctl).getLsbD i =
          if len = 0 then false else if i < len then src (pos + i) else t.isSigned && src (pos + len - 1)) ∧
      (∀ (ctl : W32) (c : W64),
        let pos := ctl.toNat % 256
        let len := ctl.toNat / 256 % 256
        (bfiVal t x ctl c).getLsbD i = if pos ≤ i ∧ i < pos + len then c.getLsbD (i - pos) else x.getLsbD i))

/-- Selection, moves, addresses, carries and comparisons (R126, R127, R129).

What they compute: a sum with carry of two W-bit values and its carry out are the exact sum, whatever the type (R126); a comparison
is that of the two integers (R129); an immediate is sign-extended for .I64, zero-extended for the other 64-bit types, as it stands for
32-bit ones, and cut to the width of a narrower type (R73).

A pair (R77, R81 to R83): both operations read before either writes, and each writes its v destination for the lanes of its own
guard.

What an operation of a pair gives: what the V-format instruction of its class and minor opcode gives for the type of Table 5-14 with
rounding RNE and no modifier (R81). -/
def Obligations.SelectionAndPairs : Prop :=
  (
    ∀ (s : State) (h : Hdr) (f : VF),
      let e := s.env h
      let a := fun l => e.src l f.ty f.a
      let b := fun l => e.srcB l f
      let w := fun (x : Nat → W64) (l : Nat) => valRegs f.ty.is64 (x l)
      let sh := if f.imm.isSome then 0 else modBits f.mod 4 0
      let c := fun l => addCarry f.ty (a l) (b l) ((e.g.lane l).pred f.pred.val)
      Gives s (.sel h f) h f.d (w fun l => if (e.g.lane l).pred f.pred.val then a l else b l) ∧
      Gives s (.mov h f) h f.d (w a) ∧
      Gives s (.movi h f) h f.d (w fun _ => immVal f.ty (f.imm.getD 0)) ∧
      Gives s (.lea h f) h f.d (fun l =>
        let x := e.srcB32 l f
        valRegs true (e.src64 l false f.a + (if f.ty = .i32 then x.signExtend 64 else x.zeroExtend 64) * BitVec.ofNat 64 (2 ^ sh))) ∧
      (Issues s (.iaddc h f) → ∃ t, exec (.iaddc h f) s = .next t ∧
        Computes s t h [(f.d, fun l => valRegs f.ty.is64 (c l).1)] [(f.pred.val, fun l => (c l).2)]) ∧
      (Issues s (.icmp h f) → ∃ t, exec (.icmp h f) s = .next t ∧
        Computes s t h [] [(f.pred.val, fun l => icmpVal (Cmp.ofCode f.rc) (intA s h f l) (intB s h f l))]) ∧
      (Issues s (.movs h f) → ∃ t, exec (.movs h f) s = .next t ∧
        Computes s t h (if f.a = f.d then [] else
          [(f.d, w a), (f.a, w fun l => e.src l f.ty f.d)]) [])) ∧
  (
    (∀ (t : Ty) (x y : W64) (cin : Bool), x.toNat < 2 ^ wBits t → y.toNat < 2 ^ wBits t →
      let r := addCarry t x y cin
      r.1.toNat < 2 ^ wBits t ∧
      r.1.toNat + (if r.2 then 2 ^ wBits t else 0) = x.toNat + y.toNat + (if cin then 1 else 0)) ∧
    (∀ x y : Int, (icmpVal .eq x y = true ↔ x = y) ∧ (icmpVal .ne x y = true ↔ x ≠ y) ∧ (icmpVal .lt x y = true ↔ x < y) ∧
      (icmpVal .le x y = true ↔ x ≤ y) ∧ (icmpVal .gt x y = true ↔ x > y) ∧ (icmpVal .ge x y = true ↔ x ≥ y)) ∧
    (∀ x : W32, (immVal .i64 x).toInt = x.toInt ∧ (immVal .n64 x).toNat = x.toNat ∧ (immVal .b64 x).toNat = x.toNat ∧
      ∀ t : Ty, (t.width = 32 → (immVal t x).toNat = x.toNat) ∧ (t.width < 32 → (immVal t x).toNat = x.toNat % 2 ^ t.width))) ∧
  (
    ∀ (s : State) (h : Hdr) (f : PF), (Instr.pair h f).wf = true → Issues s (.pair h f) →
      ∃ t, exec (.pair h f) s = .next t ∧ SetFrame s t ∧ Advances s t ∧
        (∀ m, t.issGroup.rs m = s.issGroup.rs m) ∧
        ∀ l ∈ s.iss.lanes,
          let h1 : Hdr := { h with gneg := f.g1neg, gpred := f.g1pred }
          let e := s.env h
          let on0 := Hdr.holds h (e.g.lane l)
          let on1 := Hdr.holds h1 (e.g.lane l)
          let r0 := fun old => if on0 then vAfter old f.op0.d (e.pairRes l f.op0) else old
          let r1 := fun old => if on1 then vAfter old f.op1.d ((s.env h1).pairRes l f.op1) else old
          (∀ m, (t.issLane l).rv m = r1 (r0 (s.issLane l).rv) m) ∧ ∀ k, k < 8 → (t.issLane l).pred k = (s.issLane l).pred k) ∧
  (
    ∀ (e : Env) (l : Nat) (p : PairHalf),
      let a := e.src32 l p.a
      let b := e.src32 l p.b
      let d := e.src32 l p.d
      let flt := fun (g : Nat → Nat → Nat → Nat) => BitVec.ofNat 32 (g a.toNat b.toNat d.toNat)
      let two := fun (g : Nat → Nat → Nat → Nat) => BitVec.ofNat 32 (g (a.toNat % 2 ^ 16) (b.toNat % 2 ^ 16) (d.toNat % 2 ^ 16)
        + 2 ^ 16 * g (a.toNat / 2 ^ 16) (b.toNat / 2 ^ 16) (d.toNat / 2 ^ 16))
      e.pairRes l p = [match p.op with
        | .fadd => flt fun x y _ => faddBits fF32 .rne x y
        | .fsub => flt fun x y _ => fsubBits fF32 .rne x y
        | .fmul => flt fun x y _ => fmulBits fF32 .rne x y
        | .ffma => flt fun x y z => ffmaBits fF32 .rne x y z
        | .fmin => flt fun x y _ => fminmax fF32 false x y
        | .fmax => flt fun x y _ => fminmax fF32 true x y
        | .frcp => flt fun x _ _ => transBits .rcp .rne x
        | .frsq => flt fun x _ _ => transBits .rsq .rne x
        | .fsqrt => flt fun x _ _ => transBits .sqrt .rne x
        | .fexp2 => flt fun x _ _ => transBits .exp2 .rne x
        | .flog2 => flt fun x _ _ => transBits .log2 .rne x
        | .fsin => flt fun x _ _ => transBits .sin .rne x
        | .fcos => flt fun x _ _ => transBits .cos .rne x
        | .ftanh => flt fun x _ _ => transBits .tanh .rne x
        | .xadd => two fun x y _ => faddBits fF16 .rne x y
        | .xmul => two fun x y _ => fmulBits fF16 .rne x y
        | .xfma => two fun x y z => ffmaBits fF16 .rne x y z
        | .xmin => two fun x y _ => fminmax fF16 false x y
        | .xmax => two fun x y _ => fminmax fF16 true x y
        | .movf | .movi => a
        | .iadd => a + b
        | .isub => a - b
        | .imul => a * b
        | .imad => a * b + d
        | .imin => if a.toInt ≤ b.toInt then a else b
        | .imax => if a.toInt ≤ b.toInt then b else a
        | .and => a &&& b
        | .or => a ||| b
        | .xor => a ^^^ b
        | .shl => a <<< b.toNat
        | .shr => a >>> b.toNat
        | .sar => a.sshiftRight b.toNat])

/-- The floating-point instructions of R132 to R136, for every rounding mode, sign bit and operand form.

Formats and encodings (R94 to R96, Tables 7-1 and 7-2): the fields of an encoding give its value; the narrow formats have neither
infinities nor a negative zero, F8A and F8B one NaN encoding and F4 none; a NaN result is canonical whatever its source, and a zero
keeps its sign where the format has one.

Rounding (R99 to R104). A magnitude is cut at the quantum of the representable values near it: RTZ, and RUP or RDN where that
means toward zero, give the greatest multiple of the quantum not above it, RUP or RDN away from zero the least not below it, and RNE a
nearest one, the even one of two. The quantum is the format's spacing, bounded below by that of the subnormals, which are kept. A
result within the largest finite value is that multiple, with the sign; one above it overflows, as the mode and the format say.

Sums, products, quotients and roots before their one rounding (R100, R101, R132, R135). A sum and a product are exact; a quotient
and a root stand in the same order as the exact value to every multiple of a unit more than 2^62 times below them. The special cases:
a NaN operand, ∞ − ∞, 0 × ∞, 0 ÷ 0 and ∞ ÷ ∞ give the canonical NaN; a zero sum of opposite signs is −0 in RDN alone; a nonzero value
over a zero is infinite, and a finite one over an infinity zero, with the exclusive or of the signs.

The other results on F32 encodings: FMIN and FMAX return an operand as R133 chooses it; the functions of Table 9-3 have its special
cases (R135), exact powers of two, and the values given here at one point each, rounded down and up; FSCALE, FCLASS and FRND are as
R136 lays down. -/
def Obligations.FloatResults : Prop :=
  (
    ∀ (s : State) (h : Hdr) (f : VF),
      let e := s.env h
      let a := fun l => e.fA l f fF32
      let b := fun l => e.fB l f fF32
      let d := fun l => (e.src32 l f.d).toNat
      let r := Rnd.ofCode f.rc
      let w := fun (x : Nat → Nat) (l : Nat) => [BitVec.ofNat 32 (x l)]
      Gives s (.fadd h f) h f.d (w fun l => faddBits fF32 r (a l) (b l)) ∧
      Gives s (.fsub h f) h f.d (w fun l => fsubBits fF32 r (a l) (b l)) ∧
      Gives s (.fmul h f) h f.d (w fun l => fmulBits fF32 r (a l) (b l)) ∧
      Gives s (.ffma h f) h f.d (w fun l => ffmaBits fF32 r (a l) (b l) (d l)) ∧
      Gives s (.fdiv h f) h f.d (w fun l => fdivBits fF32 r (a l) (b l)) ∧
      Gives s (.fmin h f) h f.d (w fun l => fminmax fF32 false (a l) (b l)) ∧
      Gives s (.fmax h f) h f.d (w fun l => fminmax fF32 true (a l) (b l)) ∧
      Gives s (.frcp h f) h f.d (w fun l => transBits .rcp r (a l)) ∧
      Gives s (.frsq h f) h f.d (w fun l => transBits .rsq r (a l)) ∧
      Gives s (.fsqrt h f) h f.d (w fun l => transBits .sqrt r (a l)) ∧
      Gives s (.fexp2 h f) h f.d (w fun l => transBits .exp2 r (a l)) ∧
      Gives s (.flog2 h f) h f.d (w fun l => transBits .log2 r (a l)) ∧
      Gives s (.fsin h f) h f.d (w fun l => transBits .sin r (a l)) ∧
      Gives s (.fcos h f) h f.d (w fun l => transBits .cos r (a l)) ∧
      Gives s (.ftanh h f) h f.d (w fun l => transBits .tanh r (a l)) ∧
      Gives s (.fscale h f) h f.d (w fun l => fscaleBits r (a l) (e.srcB32 l f).toInt) ∧
      Gives s (.fclass h f) h f.d (w fun l => 2 ^ fclassNo (e.src32 l f.a).toNat) ∧
      Gives s (.frnd h f) h f.d (w fun l => fF32.encode r false (frndVal r (fF32.decode (a l))))) ∧
  (
    fF32 = ⟨8, 23, 127, true, false⟩ ∧ fF16 = ⟨5, 10, 15, true, false⟩ ∧ fBF16 = ⟨8, 7, 127, true, false⟩ ∧
    fF8A = ⟨4, 3, 8, false, true⟩ ∧ fF8B = ⟨5, 2, 16, false, true⟩ ∧ fF4 = ⟨2, 1, 1, false, false⟩ ∧
    (∀ f ∈ [fF32, fF16, fBF16, fF8A, fF8B, fF4], ∀ (neg : Bool) (E F : Nat), E < 2 ^ f.eb → F < 2 ^ f.fb →
      f.decode ((if neg then 2 ^ (f.eb + f.fb) else 0) + (E * 2 ^ f.fb + F)) =
        if f.ieee && E == 2 ^ f.eb - 1 then (if F = 0 then .inf neg else .nan)
        else if f.nan8 && neg && E == 0 && F == 0 then .nan
        else if E = 0 then .fin (neg && (f.ieee || F != 0)) F (1 - (f.bias : Int) - f.fb)
        else .fin neg (F + 2 ^ f.fb) ((E : Int) - f.bias - f.fb)) ∧
    (∀ (r : Rnd) (nof : Bool), fF32.encode r nof .nan = 0x7FC00000 ∧ fF16.encode r nof .nan = 0x7E00 ∧
      fBF16.encode r nof .nan = 0x7FC0 ∧ fF8A.encode r nof .nan = 0x80 ∧ fF8B.encode r nof .nan = 0x80 ∧ fF4.encode r nof .nan = 0) ∧
    (∀ (f : Fmt) (r : Rnd) (nof neg : Bool) (e : Int),
      f.encode r nof (.fin neg 0 e) = if neg && f.ieee then 2 ^ (f.eb + f.fb) else 0)) ∧
  (
    (∀ (r : Rnd) (neg : Bool) (m : Nat) (e q : Int),
      let c := min e q
      let x := m * 2 ^ (e - c).toNat
      let step := 2 ^ (q - c).toNat
      let t := roundAt r neg m e q
      let y := t * step
      (r = .rtz ∨ (r = .rup ∧ neg = true) ∨ (r = .rdn ∧ neg = false) → y ≤ x ∧ x < y + step) ∧
      ((r = .rup ∧ neg = false) ∨ (r = .rdn ∧ neg = true) → x ≤ y ∧ y < x + step) ∧
      (r = .rne → 2 * x ≤ 2 * y + step ∧ 2 * y ≤ 2 * x + step ∧
        (2 * x = 2 * y + step ∨ 2 * y = 2 * x + step → t % 2 = 0))) ∧
    (∀ f ∈ [fF32, fF16, fBF16, fF8A, fF8B, fF4], ∀ (r : Rnd) (nof neg : Bool) (m : Nat) (e : Int), m ≠ 0 →
      let q := f.quantum m e
      let least := 1 - (f.bias : Int) - f.fb
      let t := roundAt r neg m e q
      let x := f.encode r nof (.fin neg m e)
      let big := 0 < (FVal.fin false t q).diff (f.decode (f.maxBits false))
      (FVal.fin false m e).diff (.fin false 1 (q + f.fb + 1)) < 0 ∧ least ≤ q ∧
      (q = least ∨ 0 ≤ (FVal.fin false m e).diff (.fin false 1 (q + f.fb))) ∧
      (¬big → (f.decode x).diff (.fin neg t q) = 0 ∧ (f.decode x).isNeg = (neg && (f.ieee || t != 0)) ∧ f.decode x ≠ .nan) ∧
      (big → x = f.overflow r nof neg)) ∧
    (∀ f ∈ [fF32, fF16, fBF16], ∀ nof neg : Bool,
      f.decode (f.overflow .rne nof neg) = .inf neg ∧ f.overflow .rtz nof neg = f.maxBits neg ∧
      f.decode (f.overflow .rup nof false) = .inf false ∧ f.overflow .rup nof true = f.maxBits true ∧
      f.overflow .rdn nof false = f.maxBits false ∧ f.decode (f.overflow .rdn nof true) = .inf true ∧
      ∀ r, f.decode (f.encode r nof (.inf neg)) = .inf neg) ∧
    (∀ f ∈ [fF8A, fF8B], ∀ (r : Rnd) (nof neg : Bool), f.encode r nof (.inf neg) = f.overflow r nof neg ∧
      f.overflow r nof neg = if nof then 0x80 else if neg then 0xFF else 0x7F) ∧
    (∀ (r : Rnd) (nof neg : Bool), fF4.encode r nof (.inf neg) = fF4.overflow r nof neg ∧
      fF4.overflow r nof neg = if neg then 0xF else 0x7) ∧
    (∀ neg : Bool, fF32.maxBits neg = (if neg then 0xFF7FFFFF else 0x7F7FFFFF) ∧ fF16.maxBits neg = (if neg then 0xFBFF else 0x7BFF) ∧
      fBF16.maxBits neg = (if neg then 0xFF7F else 0x7F7F) ∧ fF8A.maxBits neg = (if neg then 0xFF else 0x7F) ∧
      fF8B.maxBits neg = (if neg then 0xFF else 0x7F) ∧ fF4.maxBits neg = if neg then 0xF else 0x7)) ∧
  (
    (∀ (f : Fmt) (r : Rnd) (a b d : Nat),
      faddBits f r a b = f.encode r false ((f.decode a).add r (f.decode b)) ∧
      fsubBits f r a b = f.encode r false ((f.decode a).add r (f.decode b).neg) ∧
      fmulBits f r a b = f.encode r false ((f.decode a).mul (f.decode b)) ∧
      fdivBits f r a b = f.encode r false ((f.decode a).div (f.decode b)) ∧
      ffmaBits f r a b d = f.encode r false (((f.decode a).mul (f.decode b)).add r (f.decode d))) ∧
    (∀ (r : Rnd) (na nb : Bool) (ma mb : Nat) (ea eb : Int), ∃ n m e, (FVal.fin na ma ea).add r (.fin nb mb eb) = .fin n m e ∧
      (∀ c, c ≤ ea → c ≤ eb → scaled n m e c = scaled na ma ea c + scaled nb mb eb c) ∧
      (m = 0 → n = if na = nb then na else r == .rdn)) ∧
    (∀ (na nb : Bool) (ma mb : Nat) (ea eb : Int),
      (FVal.fin na ma ea).neg = .fin (!na) ma ea ∧ (FVal.fin na ma ea).mul (.fin nb mb eb) = .fin (na != nb) (ma * mb) (ea + eb) ∧
      (ma ≠ 0 → mb ≠ 0 → ∃ (t k : Nat), (FVal.fin na ma ea).div (.fin nb mb eb) = .fin (na != nb) t (ea - eb - k - 1) ∧ 2 ^ 63 ≤ t ∧
        ∀ i : Nat, (t < 2 * i ↔ ma * 2 ^ k < mb * i) ∧ (2 * i < t ↔ mb * i < ma * 2 ^ k))) ∧
    (∀ (m : Nat) (e : Int), m ≠ 0 →
      (let (t, c) := sqrtMag m e
       2 ^ 63 ≤ t ∧ 2 * (c + 1) ≤ e ∧ ∀ i : Nat, (t < 2 * i ↔ m * 2 ^ (e - 2 * (c + 1)).toNat < i * i) ∧
         (2 * i < t ↔ i * i < m * 2 ^ (e - 2 * (c + 1)).toNat)) ∧
      (let (t, c) := rsqrtMag m e
       2 ^ 63 ≤ t ∧ e + 2 * (c + 1) ≤ 0 ∧ ∀ i : Nat, (t < 2 * i ↔ 2 ^ (-(e + 2 * (c + 1))).toNat < i * i * m) ∧
         (2 * i < t ↔ i * i * m < 2 ^ (-(e + 2 * (c + 1))).toNat))) ∧
    (∀ (f : Fmt) (r : Rnd) (a b d : Nat), f.decode a = .nan ∨ f.decode b = .nan →
      faddBits f r a b = f.canonNan ∧ fsubBits f r a b = f.canonNan ∧ fmulBits f r a b = f.canonNan ∧
      fdivBits f r a b = f.canonNan ∧ ffmaBits f r a b d = f.canonNan) ∧
    (∀ (f : Fmt) (r : Rnd) (a b d : Nat), f.decode d = .nan → ffmaBits f r a b d = f.canonNan) ∧
    (∀ (f : Fmt) (r : Rnd) (a b : Nat) (s u : Bool), f.decode a = .inf s → f.decode b = .inf u →
      faddBits f r a b = f.encode r false (if s = u then .inf s else .nan) ∧
      fsubBits f r a b = f.encode r false (if s = u then .nan else .inf s) ∧
      fmulBits f r a b = f.encode r false (.inf (s != u)) ∧ fdivBits f r a b = f.canonNan) ∧
    (∀ (f : Fmt) (r : Rnd) (a b m : Nat) (s u : Bool) (e : Int), f.decode a = .inf s → f.decode b = .fin u m e →
      faddBits f r a b = f.encode r false (.inf s) ∧ faddBits f r b a = f.encode r false (.inf s) ∧
      fmulBits f r a b = f.encode r false (if m = 0 then .nan else .inf (s != u)) ∧
      fmulBits f r b a = f.encode r false (if m = 0 then .nan else .inf (u != s)) ∧
      fdivBits f r a b = f.encode r false (.inf (s != u)) ∧ fdivBits f r b a = f.zeroBits (u != s)) ∧
    (∀ (f : Fmt) (r : Rnd) (a b m : Nat) (s u : Bool) (e g : Int), f.decode a = .fin s m e → f.decode b = .fin u 0 g →
      fdivBits f r a b = f.encode r false (if m = 0 then .nan else .inf (s != u)))) ∧
  (
    (∀ (f : Fmt) (a b : Nat),
      let x := f.decode a
      let y := f.decode b
      let lo := fminmax f false a b
      let hi := fminmax f true a b
      (x = .nan → y = .nan → lo = f.canonNan ∧ hi = f.canonNan) ∧ (x = .nan → y ≠ .nan → lo = b ∧ hi = b) ∧
      (x ≠ .nan → y = .nan → lo = a ∧ hi = a) ∧
      (x ≠ .nan → y ≠ .nan → (x.diff y < 0 → lo = a ∧ hi = b) ∧ (0 < x.diff y → lo = b ∧ hi = a) ∧
        (x.diff y = 0 → x.isNeg = true → y.isNeg = false → lo = a ∧ hi = b) ∧
        (x.diff y = 0 → x.isNeg = false → y.isNeg = true → lo = b ∧ hi = a))) ∧
    (∀ (r : Rnd) (a : Nat), fF32.decode a = .nan → ∀ t : Trans, transBits t r a = 0x7FC00000) ∧
    (∀ (r : Rnd) (a : Nat) (s : Bool), fF32.decode a = .inf s →
      transBits .rcp r a = (if s then 0x80000000 else 0) ∧ transBits .rsq r a = (if s then 0x7FC00000 else 0) ∧
      transBits .sqrt r a = (if s then 0x7FC00000 else 0x7F800000) ∧ transBits .exp2 r a = (if s then 0 else 0x7F800000) ∧
      transBits .log2 r a = (if s then 0x7FC00000 else 0x7F800000) ∧ transBits .sin r a = 0x7FC00000 ∧
      transBits .cos r a = 0x7FC00000 ∧ transBits .tanh r a = if s then 0xBF800000 else 0x3F800000) ∧
    (∀ (r : Rnd) (a : Nat) (s : Bool) (e : Int), fF32.decode a = .fin s 0 e →
      transBits .rcp r a = (if s then 0xFF800000 else 0x7F800000) ∧ transBits .rsq r a = (if s then 0xFF800000 else 0x7F800000) ∧
      transBits .sqrt r a = a ∧ transBits .exp2 r a = 0x3F800000 ∧ transBits .log2 r a = 0xFF800000 ∧ transBits .sin r a = a ∧
      transBits .cos r a = 0x3F800000 ∧ transBits .tanh r a = a) ∧
    (∀ (r : Rnd) (a m : Nat) (s : Bool) (e : Int), fF32.decode a = .fin s m e → m ≠ 0 →
      transBits .rcp r a = fF32.encode r false ((FVal.fin false 1 0).div (.fin s m e)) ∧
      (s = true → transBits .rsq r a = 0x7FC00000 ∧ transBits .sqrt r a = 0x7FC00000 ∧ transBits .log2 r a = 0x7FC00000) ∧
      (s = false → transBits .rsq r a = fF32.encode r false (.fin false (rsqrtMag m e).1 (rsqrtMag m e).2) ∧
        transBits .sqrt r a = fF32.encode r false (.fin false (sqrtMag m e).1 (sqrtMag m e).2)) ∧
      (∀ k : Nat, s = false → m = 2 ^ k → transBits .log2 r a = fF32.encode r false (intVal (e + k))) ∧
      (∀ n : Nat, n ≤ 4096 → scaled false m e (min e 0) = scaled false n 0 (min e 0) →
        transBits .exp2 r a = fF32.encode r false (.fin false 1 (if s then -(n : Int) else n))) ∧
      (∀ n : Nat, scaled false m e (min e 0) = scaled false n 0 (min e 0) →
        transBits .sin r a = (if s then 0x80000000 else 0) ∧ transBits .cos r a = if n % 2 = 0 then 0x3F800000 else 0xBF800000) ∧
      (∀ n : Nat, n % 2 = 1 → scaled false m e (min e (-1)) = scaled false n (-1) (min e (-1)) → transBits .cos r a = 0)) ∧
    (transBits .exp2 .rdn 0x3F000000 = 0x3FB504F3 ∧ transBits .exp2 .rup 0x3F000000 = 0x3FB504F4 ∧
      transBits .log2 .rdn 0x40400000 = 0x3FCAE00D ∧ transBits .log2 .rup 0x40400000 = 0x3FCAE00E ∧
      transBits .sin .rdn 0x3E800000 = 0x3F3504F3 ∧ transBits .sin .rup 0x3E800000 = 0x3F3504F4 ∧
      transBits .cos .rdn 0x3E000000 = 0x3F6C835E ∧ transBits .cos .rup 0x3E000000 = 0x3F6C835F ∧
      transBits .tanh .rdn 0x3F000000 = 0x3EEC9A9E ∧ transBits .tanh .rup 0x3F000000 = 0x3EEC9A9F) ∧
    (∀ (r : Rnd) (a : Nat) (k : Int), (fF32.decode a = .nan → fscaleBits r a k = 0x7FC00000) ∧
      (∀ s, fF32.decode a = .inf s → fscaleBits r a k = a) ∧ (∀ s e, fF32.decode a = .fin s 0 e → fscaleBits r a k = a) ∧
      (∀ s m e, fF32.decode a = .fin s m e → m ≠ 0 → -4096 ≤ k → k ≤ 4096 →
        fscaleBits r a k = fF32.encode r false (.fin s m (e + k)))) ∧
    (∀ a : Nat, (fF32.decode a = .nan → fclassNo a = 8) ∧ (∀ s, fF32.decode a = .inf s → fclassNo a = if s then 0 else 7) ∧
      ∀ s m e, fF32.decode a = .fin s m e → fclassNo a =
        if m = 0 then (if s then 3 else 4) else if m < 2 ^ 23 then (if s then 2 else 5) else if s then 1 else 6) ∧
    (∀ (r : Rnd) (s : Bool) (m : Nat) (e : Int), frndVal r .nan = .nan ∧ frndVal r (.inf s) = .inf s ∧
      frndVal r (.fin s m e) = .fin s (roundAt r s m e 0) 0))

/-- FCMP (R134): it writes p(pred) in each participating lane; with a NaN operand .NE and .NAN are true and every other comparison
false; without one .NUM is true and .NAN false, zeros compare equal whatever their signs, and any other two operands compare as their
exact values do, an infinity beyond every number. -/
def Obligations.FloatComparison : Prop :=
  (∀ (s : State) (h : Hdr) (f : VF), Issues s (.fcmp h f) → ∃ t, exec (.fcmp h f) s = .next t ∧
    Computes s t h [] [(f.pred.val, fun l =>
      fcmpVal (Cmp.ofCode f.rc) (fF32.decode ((s.env h).fA l f fF32)) (fF32.decode ((s.env h).fB l f fF32)))]) ∧
  (∀ (c : Cmp) (x y : FVal), x = .nan ∨ y = .nan → fcmpVal c x y = decide (c = .ne ∨ c = .nan)) ∧
  (∀ x y : FVal, x ≠ .nan → y ≠ .nan → fcmpVal .num x y = true ∧ fcmpVal .nan x y = false) ∧
  (∀ (a b : Bool) (e k : Int), fcmpVal .eq (.fin a 0 e) (.fin b 0 k) = true ∧ fcmpVal .ne (.fin a 0 e) (.fin b 0 k) = false ∧
    fcmpVal .lt (.fin a 0 e) (.fin b 0 k) = false ∧ fcmpVal .le (.fin a 0 e) (.fin b 0 k) = true ∧
    fcmpVal .gt (.fin a 0 e) (.fin b 0 k) = false ∧ fcmpVal .ge (.fin a 0 e) (.fin b 0 k) = true) ∧
  (∀ (r : Cmp) (a b : Bool) (m n : Nat) (e k c : Int), r ≠ .num → r ≠ .nan → c ≤ e → c ≤ k →
    let val := fun (neg : Bool) (m : Nat) (e : Int) => (if neg then -1 else 1) * ((m * 2 ^ (e - c).toNat : Nat) : Int)
    let one := fun (neg : Bool) => if neg then (-1 : Int) else 1
    fcmpVal r (.fin a m e) (.fin b n k) = icmpVal r (val a m e) (val b n k) ∧
    fcmpVal r (.inf a) (.fin b n k) = icmpVal r (one a) 0 ∧ fcmpVal r (.fin a m e) (.inf b) = icmpVal r 0 (one b) ∧
    fcmpVal r (.inf a) (.inf b) = icmpVal r (one a) (one b))

/-- Packed arithmetic, conversion, packing and dot products (R131, R137 to R145), for every format and operand form.

The values of packed and converted elements: both 16-bit elements are operated on alone (R97, R137); an element put into a register
leaves the others (R140, R141); a conversion rounds once to the destination format (R102 to R104), goes from floating point to an
integer by the rounding mode and the type's range, NaN giving 0, and between integers by clamping or by the low bits (R105).

The values of dot products (R113, R144): a NaN scale, element or addend gives the canonical NaN, an infinite addend itself, and all
else the exact sum of the products, scaled, plus the addend, rounded once; a zero sum counts as +0. -/
def Obligations.PackedResults : Prop :=
  (
    ∀ (s : State) (h : Hdr) (f : VF),
      let e := s.env h
      let t := VF.elem f
      let r := Rnd.ofCode f.rc
      let x2 := fun (op : Nat → Nat → Nat → Nat) (l : Nat) =>
        [BitVec.ofNat 32 (packed (fun a b d => op (signOp t f.nega f.absa a) (signOp t f.negb f.absb b) d)
          (e.src32 l f.a).toNat (e.srcB32 l f).toNat (e.src32 l f.d).toNat)]
      let st := (Ty.ofCode (modBits f.mod 4 0)).getD .b32
      let from_ := fun l => (if st.is64 then (e.src64 l (st == .i64) f.a).toNat else (e.src32 l f.a).toNat)
      let conv := fun l => convert st f.ty r f.sat (f.mod.getLsbD 5) (from_ l / 2 ^ (st.width * modBits f.mod 8 6))
      let pk := fun x => convert (if f.ty.isFloat then .f32 else .i32) f.ty r f.sat (f.mod.getLsbD 2) x
      let tb := if f.imm.isSome then f.ty else (Ty.ofCode (modBits f.mod 4 0)).getD f.ty
      let dot := fun (n l : Nat) => [BitVec.ofNat 32 (dotBits f.ty tb n r (e.src32 l f.a).toNat (e.srcB32 l f).toNat
        (e.src32 l f.c) (e.src32 l f.d).toNat)]
      let sc := fun (o : Opnd) (i l : Nat) => (e.src32 l o).toNat / 2 ^ (8 * i) % 256
      Gives s (.xadd h f) h f.d (x2 fun a b _ => faddBits t r a b) ∧
      Gives s (.xmul h f) h f.d (x2 fun a b _ => fmulBits t r a b) ∧
      Gives s (.xfma h f) h f.d (x2 fun a b d => ffmaBits t r a b d) ∧
      Gives s (.xmin h f) h f.d (x2 fun a b _ => fminmax t false a b) ∧
      Gives s (.xmax h f) h f.d (x2 fun a b _ => fminmax t true a b) ∧
      Gives s (.cvt h f) h f.d (fun l => if f.mod.getLsbD 12 then
          [BitVec.ofNat 32 (putElem f.ty.width (modBits f.mod 11 9) (e.src32 l f.d).toNat (conv l))]
        else valRegs f.ty.is64 (BitVec.ofNat 64 (conv l))) ∧
      Gives s (.pack h f) h f.d (fun l =>
        let k := modBits f.mod 1 0
        [BitVec.ofNat 32 (putElem f.ty.width (2 * k + 1)
          (putElem f.ty.width (2 * k) (e.src32 l f.d).toNat (pk (e.src32 l f.a).toNat)) (pk (e.src32 l f.b).toNat))]) ∧
      Gives s (.unpack h f) h f.d (fun l => [BitVec.ofNat 32 (convert f.ty
        (if f.ty.isFloat then .f32 else if f.ty.isSigned then .i32 else .n32) .rne false false
        ((e.src32 l f.a).toNat / 2 ^ (f.ty.width * modBits f.mod 2 0)))]) ∧
      Gives s (.dot4 h f) h f.d (dot 4) ∧
      Gives s (.dot8 h f) h f.d (dot 8) ∧
      Gives s (.dscl h f) h f.d (fun l =>
        let x := sc f.a (modBits f.mod 1 0) l
        let y := sc f.b (modBits f.mod 3 2) l
        [if x = 255 || y = 255 then 0x80000000 else BitVec.ofInt 32 ((x : Int) - 127 + ((y : Int) - 127))])) ∧
  (
    (∀ (op : Nat → Nat → Nat → Nat) (a b d : Nat), (∀ x y z, op x y z < 65536) →
      packed op a b d % 65536 = op (a % 65536) (b % 65536) (d % 65536) ∧
      packed op a b d / 65536 = op (a / 65536) (b / 65536) (d / 65536)) ∧
    (∀ n ∈ [4, 8, 16], ∀ i j old x : Nat, n * i < 32 → n * j < 32 →
      putElem n i old x / 2 ^ (n * j) % 2 ^ n = if j = i then x % 2 ^ n else old / 2 ^ (n * j) % 2 ^ n) ∧
    (fmtOf .f32 = fF32 ∧ fmtOf .f16 = fF16 ∧ fmtOf .bf16 = fBF16 ∧ fmtOf .f8a = fF8A ∧ fmtOf .f8b = fF8B ∧ fmtOf .f4 = fF4) ∧
    (∀ (src dst : Ty) (r : Rnd) (sat nof : Bool) (x : Nat), src.isFloat = true →
      let v := (fmtOf src).decode (x % 2 ^ src.width)
      let g := typeRange dst.isSigned dst.width
      let y := convert src dst r sat nof x
      (dst.isFloat = true → y = (fmtOf dst).encode r nof v) ∧
      (dst.isFloat = false → (v = .nan → y = 0) ∧ (∀ s, v = .inf s → y = ((if s then g.1 else g.2) % 2 ^ dst.width).toNat) ∧
        ∀ s m e, v = .fin s m e →
          let k : Int := roundAt r s m e 0
          let z := if s then -k else k
          y = ((if z < g.1 then g.1 else if g.2 < z then g.2 else z) % 2 ^ dst.width).toNat)) ∧
    (∀ (src dst : Ty) (r : Rnd) (sat nof : Bool) (x : Nat), src.isFloat = false →
      let u := x % 2 ^ src.width
      let v : Int := if src.isSigned ∧ 2 ^ (src.width - 1) ≤ u then (u : Int) - 2 ^ src.width else u
      let g := typeRange dst.isSigned dst.width
      let y := convert src dst r sat nof x
      (dst.isFloat = true → y = (fmtOf dst).encode r nof (.fin (v < 0) v.natAbs 0)) ∧
      (dst.isFloat = false → sat = false → y = (v % 2 ^ dst.width).toNat) ∧
      (dst.isFloat = false → sat = true →
        y = ((if v < g.1 then g.1 else if g.2 < v then g.2 else v) % 2 ^ dst.width).toNat))) ∧
  (
    ∀ (ta tb : Ty) (n : Nat) (r : Rnd) (a b : Nat) (c : W32) (d : Nat),
      let xs := elemsOf ta n a
      let ys := elemsOf tb n b
      let y := dotBits ta tb n r a b c d
      (c = 0x80000000 ∨ .nan ∈ xs ∨ .nan ∈ ys ∨ fF32.decode d = .nan → y = 0x7FC00000) ∧
      (c ≠ 0x80000000 → FVal.nan ∉ xs → FVal.nan ∉ ys → ∀ s, fF32.decode d = .inf s → y = d) ∧
      (c ≠ 0x80000000 → -4096 ≤ c.toInt → c.toInt ≤ 4096 → ∀ (ps : List ((Bool × Nat × Int) × (Bool × Nat × Int))) (s : Bool) (m : Nat)
          (e : Int), xs.zip ys = ps.map (fun p => (.fin p.1.1 p.1.2.1 p.1.2.2, .fin p.2.1 p.2.2.1 p.2.2.2)) →
        FVal.nan ∉ xs → FVal.nan ∉ ys → fF32.decode d = .fin s m e →
        ∃ (u : Bool) (k : Nat) (g : Int),
          (∀ z, (∀ p ∈ ps, z ≤ p.1.2.2 + p.2.2.2) → z ≤ 0 →
            scaled u k g z = (ps.map fun p => scaled (p.1.1 != p.2.1) (p.1.2.1 * p.2.2.1) (p.1.2.2 + p.2.2.2) z).sum) ∧
          y = fF32.encode r false ((if k = 0 then FVal.fin false 0 0 else .fin u k (g + c.toInt)).add r (.fin s m e))) ∧
      (xs = (upto n).map fun i => match elemVal ta (a / 2 ^ (ta.width * i)) with
        | .int x => .fin (x < 0) x.natAbs 0
        | .flt v => v))

/-- The cross-lane instructions (R147 to R150): what each guard-true lane receives from the guard-true lanes of its set.

The values of the cross-lane instructions: the sources of SHFL (R148); the votes (R149); and reductions (R150), which begin with the
first lane's value, its NaN made canonical (R95, R96), and take each further lane in turn: integers wrap or clamp at each step, F32
sums round at each step, minima and maxima follow R133 in F32, and .AND, .OR and .XOR are bitwise.

RNG, RNGSEED and RNGSKIP (R153 to R156): a draw of each guard-true lane takes the output at position 32 n + lane of its group's
key and stream and advances the lane's counter n by 1, unless the primary set of the same cycle has seeded the generator (R157, log 55); a seed
comes from the lowest guard-true lane and sets every counter to 0; a skip advances by operand B. All else is as for an instruction
that only computes. That the seed then stands with the increment lost is the model's reading (log 55). What a draw gives at a position: the low
word of the mixing of R155, every product and sum modulo 2^64; for .F32 its upper 24 bits as a multiple of 2^-24, which is exact. -/
def Obligations.CrossLaneAndRandom : Prop :=
  (
    ∀ (s : State) (h : Hdr) (f : VF),
      let e := s.env h
      let act := s.active h
      let a32 := fun l => e.src32 l f.a
      let src := fun l =>
        match shflSource f.sub.toNat (if f.imm.isSome then 32 else 2 ^ modBits f.mod 2 0) l (e.srcB32 l f).toNat with
        | some k => if act.contains k then some k else none
        | none => none
      let vote := voteVal f.sub.toNat act fun l => (e.g.lane l).pred f.pred.val
      Gives s (.redl h f) h f.d (fun _ => [(combine f a32 act).getD 0]) ∧
      Gives s (.scanl h f) h f.d (fun l =>
        [(combine f a32 (act.filter fun k => if f.mod.getLsbD 0 then k < l else k ≤ l)).getD (reduceIdentity f)]) ∧
      (Issues s (.shfl h f) → ∃ t, exec (.shfl h f) s = .next t ∧
        Computes s t h [(f.d, fun l => valRegs f.ty.is64 (e.src ((src l).getD l) f.ty f.a))]
          [(f.pred.val, fun l => (src l).isSome)]) ∧
      (Issues s (.vote h f) → ∃ t, exec (.vote h f) s = .next t ∧
        Computes s t h [(f.d, fun _ => [vote.1])] [(modBits f.mod 2 0, fun _ => vote.2)])) ∧
  (
    (∀ w l c : Nat, 0 < w →
      let b := l - l % w
      shflSource 0 w l c = some (b + c % w) ∧ shflSource 3 w l c = some (b + ((l % w) ^^^ (c % w))) ∧
      (c < w → b ≤ l - c → c ≤ l → shflSource 1 w l c = some (l - c)) ∧ (¬(c < w ∧ b + c ≤ l) → shflSource 1 w l c = none) ∧
      (c < w → l + c < b + w → shflSource 2 w l c = some (l + c)) ∧ (¬(c < w ∧ l + c < b + w) → shflSource 2 w l c = none)) ∧
    (∀ (act : List Nat) (q : Nat → Bool),
      ((voteVal 0 act q).2 = true ↔ ∀ l ∈ act, q l = true) ∧ ((voteVal 1 act q).2 = true ↔ ∃ l ∈ act, q l = true) ∧
      ((voteVal 2 act q).2 = true ↔ (∀ l ∈ act, q l = true) ∨ ∀ l ∈ act, q l = false) ∧
      (∀ m, m < 3 → (voteVal m act q).1 = if (voteVal m act q).2 then 1 else 0) ∧
      (∀ k, k < 32 → ((voteVal 3 act q).1.getLsbD k = true ↔ k ∈ act ∧ q k = true)) ∧
      (voteVal 4 act q).1 = BitVec.ofNat 32 (act.countP q)) ∧
    (∀ (f : VF) (val : Nat → W32) (l : Nat) (ls : List Nat),
      combine f val [] = none ∧
      combine f val [l] = some (if f.ty = .f32 ∧ fF32.decode (val l).toNat = .nan then 0x7FC00000 else val l) ∧
      ∀ v, combine f val ls = some v → combine f val (ls ++ [l]) = some (reduceStep f v (val l))) ∧
    (∀ (f : VF) (v a : W32),
      (f.sub = 3 → reduceStep f v a = v &&& a) ∧ (f.sub = 4 → reduceStep f v a = v ||| a) ∧ (f.sub = 5 → reduceStep f v a = v ^^^ a) ∧
      (f.ty = .f32 → (f.sub = 0 → reduceStep f v a = BitVec.ofNat 32 (faddBits fF32 (Rnd.ofCode f.rc) v.toNat a.toNat)) ∧
        (f.sub = 1 → reduceStep f v a = BitVec.ofNat 32 (fminmax fF32 false v.toNat a.toNat)) ∧
        (f.sub = 2 → reduceStep f v a = BitVec.ofNat 32 (fminmax fF32 true v.toNat a.toNat))) ∧
      (f.ty = .n32 → (f.sub = 0 → reduceStep f v a = if f.sat ∧ 2 ^ 32 ≤ v.toNat + a.toNat then 0xFFFFFFFF else v + a) ∧
        (f.sub = 1 → reduceStep f v a = if v.toNat ≤ a.toNat then v else a) ∧
        (f.sub = 2 → reduceStep f v a = if v.toNat ≤ a.toNat then a else v)) ∧
      (f.ty = .i32 → (f.sub = 0 → reduceStep f v a = if f.sat = true ∧ 2 ^ 31 ≤ v.toInt + a.toInt then 0x7FFFFFFF
          else if f.sat = true ∧ v.toInt + a.toInt < -2 ^ 31 then 0x80000000 else v + a) ∧
        (f.sub = 1 → reduceStep f v a = if v.toInt ≤ a.toInt then v else a) ∧
        (f.sub = 2 → reduceStep f v a = if v.toInt ≤ a.toInt then a else v)) ∧
      (f.sub = 0 ∨ f.sub = 4 ∨ f.sub = 5 → reduceIdentity f = 0) ∧ (f.sub = 3 → reduceIdentity f = 0xFFFFFFFF) ∧
      (f.sub = 1 → reduceIdentity f = if f.ty = .i32 then 0x7FFFFFFF else if f.ty = .n32 then 0xFFFFFFFF else 0x7F800000) ∧
      (f.sub = 2 → reduceIdentity f = if f.ty = .i32 then 0x80000000 else if f.ty = .n32 then 0 else 0xFF800000))) ∧
  (
    (∀ (s : State) (h : Hdr) (f : VF), Issues s (.rng h f) →
      let e := s.env h
      let n := fun l => e.g.gen.n.get 0 l
      ∃ u, exec (.rng h f) s = .next (if s.seeded then u else u.setCounters e fun l => n l + 1) ∧
        Computes s u h [(f.d, fun l => [rngTyped f.ty (rngOut e.g.gen.k e.g.gen.sid (32 * (n l).toNat + l))])] []) ∧
    (∀ (s : State) (h : Hdr) (f : VF), Issues s (.rngseed h f) →
      let e := s.env h
      ∃ u, Computes s u h [] [] ∧ exec (.rngseed h f) s = .next (match (s.active h).head? with
        | none => u
        | some l => u.modGroup s.iss.core s.iss.slot fun g =>
          { g with gen := { k := e.src64 l false f.a, sid := e.src64 l false f.b, n := [] } })) ∧
    (∀ (s : State) (h : Hdr) (f : VF), Issues s (.rngskip h f) →
      let e := s.env h
      ∃ u, Computes s u h [] [] ∧
        exec (.rngskip h f) s = .next (u.setCounters e fun l => e.g.gen.n.get 0 l + e.srcB32 l f)) ∧
    (∀ (s : State) (e : Env) (val : Nat → W32) (l : Nat), ((s.core e.core).groups.find e.slot).isSome = true →
      let g := s.group e.core e.slot
      let g' := (s.setCounters e val).group e.core e.slot
      g'.gen.n.get 0 l = (if l ∈ e.active then val l else g.gen.n.get 0 l) ∧ { g' with gen := g.gen } = g ∧
      g'.gen.k = g.gen.k ∧ g'.gen.sid = g.gen.sid) ∧
    (∀ (k sid : W64) (pos : Nat),
      let M := 2 ^ 64
      let a := (k.toNat + sid.toNat * 0x5B3CD81F29E4A76B) % M ^^^ (pos * 0xA3B195D46C2EF0B7 % M)
      let b := (a ^^^ (a / 2 ^ 31)) * 0x8F1DC7A53E69B42D % M
      let c := (b ^^^ (b / 2 ^ 29)) * 0xA3B195D46C2EF0B7 % M
      (rngOut k sid pos).toNat = (c ^^^ (c / 2 ^ 32)) % 2 ^ 32) ∧
    (∀ (t : Ty) (x : W32), t ≠ .f32 → rngTyped t x = x) ∧
    (∀ x : W32, x.toNat < 256 → rngTyped .f32 x = 0) ∧
    (∀ (x : W32) (k : Nat), 2 ^ k ≤ x.toNat / 256 → x.toNat / 256 < 2 ^ (k + 1) →
      (rngTyped .f32 x).toNat = (103 + k) * 2 ^ 23 + (x.toNat / 256 * 2 ^ (23 - k) - 2 ^ 23)))

/-- MATCH and ELECT (R151): in each participating lane MATCH writes the mask of the participating lanes whose A equals the lane's A in
every bit, all other bits zero; ELECT writes the lowest participating lane, and a predicate true in that lane and false in the
others. The lanes of every set that a vote names stand in ascending order. -/
def Obligations.MatchAndElect : Prop :=
  ∀ (s : State) (h : Hdr) (f : VF),
    let e := s.env h
    let act := s.active h
    (Issues s (.match_ h f) → ∃ (t : State) (m : Nat → W32), exec (.match_ h f) s = .next t ∧ Computes s t h [(f.d, fun l => [m l])] [] ∧
      ∀ l k, k < 32 → ((m l).getLsbD k = true ↔ k ∈ act ∧ e.src k f.ty f.a = e.src l f.ty f.a)) ∧
    (Issues s (.elect h f) → s.iss.lanes.Pairwise (· < ·) → ∀ n, n ∈ act → (∀ k ∈ act, n ≤ k) →
      ∃ t, exec (.elect h f) s = .next t ∧
        Computes s t h [(f.d, fun _ => [BitVec.ofNat 32 n])] [(f.pred.val, fun l => l == n)]) ∧
    (∀ (c slot : Nat) (p : PCSet) (q : Option PCSet), s.vote c slot = some (p, q) →
      p.lanes.Pairwise (· < ·) ∧ ∀ r, q = some r → r.lanes.Pairwise (· < ·))

/-! ## Strokes -/

/-- The partwise results of Table 3-2 agree with the lanes (R30, R33): at every team and lane, the form written takes the value that
the instruction computes from the values of its operands' forms, modulo 2^32.

The wrap check makes the exact comparison that of the lanes (R36): where an operand's exact value stays within the compare's type
over a box and the role's lanes, it is at each of them the typed value of the lane's 32-bit form; so a compare form evaluated for the
lane is the comparison that the sign of the exact difference decides.

A split is sound (R36, R37): every team of the range lies in exactly one part; every lane of a team in the first part takes the
branch, none of a team in the second; and where the stroke goes on whole, every lane of every team does the same. -/
def Obligations.StrokeForms : Prop :=
  (
    ∀ (a b : Form) (x y z l n : Nat),
      (a.zip (· + ·) b).eval x y z l = a.eval x y z l + b.eval x y z l ∧
      (a.zip (· - ·) b).eval x y z l = a.eval x y z l - b.eval x y z l ∧
      (a.isUni = true → (b.map (· * a.base)).eval x y z l = b.eval x y z l * a.eval x y z l) ∧
      ((a.map (· <<< n)).eval x y z l = a.eval x y z l <<< n) ∧
      (∀ c, (Form.uni c).eval x y z l = c)) ∧
  (
    (∀ (f : Form) (sg : Bool) (b : Box) (l0 l1 x y z l : Nat), inTypeRange (f.exact sg) sg b l0 l1 = true →
      b.x0 ≤ x → x ≤ b.x1 → b.y0 ≤ y → y ≤ b.y1 → b.z0 ≤ z → z ≤ b.z1 → l0 ≤ l → l ≤ l1 →
      (f.exact sg).at x y z l = typed sg (f.eval x y z l)) ∧
    (∀ (fa fb : Form) (sg : Bool) (c : Cmp) (b : Box) (l0 l1 x y z l : Nat), inTypeRange (fa.exact sg) sg b l0 l1 = true →
      inTypeRange (fb.exact sg) sg b l0 l1 = true →
      b.x0 ≤ x → x ≤ b.x1 → b.y0 ≤ y → y ≤ b.y1 → b.z0 ≤ z → z ≤ b.z1 → l0 ≤ l → l ≤ l1 →
      PForm.eval (.cmp c sg fa fb) x y z l = Cmp.ofDiff c (((fa.exact sg).sub (fb.exact sg)).at x y z l))) ∧
  (
    ∀ (b : Box) (c : Cmp) (sg neg : Bool) (fa fb : Form) (l0 nl x y z : Nat), 0 < nl →
      b.x0 ≤ x → x ≤ b.x1 → b.y0 ≤ y → y ≤ b.y1 → b.z0 ≤ z → z ≤ b.z1 →
      let inBox := fun (o : Option Box) => ∃ k, o = some k ∧ k.x0 ≤ x ∧ x ≤ k.x1 ∧ k.y0 ≤ y ∧ y ≤ k.y1 ∧ k.z0 ≤ z ∧ z ≤ k.z1
      let takes := fun l => PForm.eval (.cmp c sg fa fb) x y z l != neg
      (∀ yes no mixed, splitOf b c sg neg fa fb l0 nl = .parts yes no mixed →
        ((inBox yes ∧ ¬inBox no ∧ ¬inBox mixed) ∨ (¬inBox yes ∧ inBox no ∧ ¬inBox mixed) ∨ (¬inBox yes ∧ ¬inBox no ∧ inBox mixed)) ∧
        (inBox yes → ∀ l ∈ rangeFrom l0 nl, takes l = true) ∧ (inBox no → ∀ l ∈ rangeFrom l0 nl, takes l = false)) ∧
      (∀ t, splitOf b c sg neg fa fb l0 nl = .whole t → ∀ l ∈ rangeFrom l0 nl, takes l = t))

/-- Instructions of Table 3-2 in a stroke, under a uniform true guard: the stroke goes on with the result form at PC + 12, or at the
target of a direct branch or call; nothing else changes (R33, R123, R200).

Every instruction outside Table 3-2 inks the stroke at that instruction, whatever its guard (R33, R40). The majors listed are those of
Table 3-2 and INK.

Guards in a stroke (R33, R200). Under a uniform false guard an instruction of Table 3-2 whose operands meet the table only moves
the stroke to PC + 12, whatever its operands hold; and a guard that is a compare form inks the stroke at
any instruction but BRA, and INK, which inks it anyway.

LD and LDC in a stroke, under a uniform true guard (R34, R219): one access, checked once with the default watch set of the launch's
context and the package's table. Where a check fails the stroke inks at the instruction and nothing else is done. Where a nearer cache
holds the line, or where memory at home answers, the destination takes the value read there as uniform forms, the stroke goes on, and an
LD with acquire order then makes the removals of its scope. Bytes of an ordered-sum area read as free values (R273, log 79). That the
reply of another die comes within the step is the model's choice (log 68).

JOIN, EXIT, SIZESEL, CALLX and INK in a stroke, and BRA under a compare form (R37, R38, R55, R200, R210, R211). JOIN leaves the stroke
waiting at it; EXIT frees its entry; SIZESEL reads its record's entries once, up to the first that is not valid, and goes on whole at the
fit's target; CALLX reads its target before it writes the link. A split forms a sub-stroke of each part whose teams all do the same, in
the order of their first teams, and inks the mixed part at the BRA; a part without teams forms none. Which entry a stroke takes is the
model's choice (log 67). Where every stroke of the chunk and role waits and none merges, those at the lowest JOIN go on, and the others
wait; where one does not wait, none goes on. -/
def Obligations.StrokeInstructions : Prop :=
  (
    (∀ (s : State) (h : Hdr) (f : VF) (e : Nat) (st : Stroke) (a b : Form),
      let st1 : Stroke := { st with pc := s.iss.pc + 12 }
      let gives := fun (i : Instr) (r : Form) => StrokeRuns s i h e st → ∀ t, st1.setForm f.d r = some t →
        exec i s = .next (s.putStroke e t)
      closable f = true → st1.fa s f = some a → st1.formB s f = some b →
        gives (.iadd h f) (a.zip (· + ·) b) ∧ gives (.isub h f) (a.zip (· - ·) b) ∧
        (a.isUni = true → gives (.imul h f) (b.map (· * a.base))) ∧
        (a.isUni = false → b.isUni = true → gives (.imul h f) (a.map (· * b.base))) ∧
        (b.isUni = true → b.base.toNat < 32 → gives (.shl h f) (a.map (· <<< b.base.toNat))) ∧
        (a = b → gives (.sel h f) a) ∧
        (StrokeRuns s (.icmp h f) h e st → exec (.icmp h f) s =
          .next (s.putStroke e (st1.setP f.pred.val (icmpForm s st1 (Cmp.ofCode f.rc) (f.ty == .i32) a b))))) ∧
    (∀ (s : State) (h : Hdr) (f : VF) (e : Nat) (st : Stroke),
      let st1 : Stroke := { st with pc := s.iss.pc + 12 }
      (StrokeRuns s (.mov h f) h e st → ∀ as t, st1.formsOf s f.ty.is64 f.a = some as → st1.setForms f.d as = some t →
        exec (.mov h f) s = .next (s.putStroke e t)) ∧
      (StrokeRuns s (.movi h f) h e st → ∀ t,
        st1.setForms f.d ((valRegs f.ty.is64 (immVal f.ty (f.imm.getD 0))).map Form.uni) = some t →
        exec (.movi h f) s = .next (s.putStroke e t)) ∧
      (StrokeRuns s (.movs h f) h e st → ∀ as ds t u, st1.formsOf s f.ty.is64 f.a = some as → st1.formsOf s f.ty.is64 f.d = some ds →
        st1.setForms f.d as = some t → t.setForms f.a ds = some u → exec (.movs h f) s = .next (s.putStroke e u))) ∧
    (∀ (s : State) (h : Hdr) (f : CF) (e : Nat) (st : Stroke),
      let st1 : Stroke := { st with pc := s.iss.pc + 12 }
      (StrokeRuns s (.nop h f) h e st → exec (.nop h f) s = .next (s.putStroke e st1)) ∧
      (StrokeRuns s (.yield h f) h e st → exec (.yield h f) s = .next (s.putStroke e st1)) ∧
      (StrokeRuns s (.bra h f) h e st → exec (.bra h f) s = .next (s.putStroke e { st with pc := branchTo s.iss.pc f })) ∧
      (StrokeRuns s (.call h f) h e st → ∀ t, st1.link f.d (s.iss.pc + 12) = some t →
        exec (.call h f) s = .next (s.putStroke e { t with pc := branchTo s.iss.pc f })) ∧
      (StrokeRuns s (.brx h f) h e st → ∀ x, st1.uniPair s f.a = some x → x.toNat % 4 = 0 →
        exec (.brx h f) s = .next (s.putStroke e { st with pc := x })) ∧
      (StrokeRuns s (.ret h f) h e st → ∀ x, st1.uniPair s f.a = some x → x.toNat % 4 = 0 →
        exec (.ret h f) s = .next (s.putStroke e { st with pc := x })))) ∧
  (
    ∀ (s : State) (i : Instr) (e : Nat), s.iss.stroke = some e → i.hdr.isSome = true →
      i.major ∉ [0x00, 0x01, 0x03, 0x11, 0x1A, 0x1B, 0x1C, 0x1D, 0x1E, 0x50, 0x51, 0x52, 0x53, 0x54, 0x55, 0x56, 0x59, 0x5A, 0x5D, 0x5E,
        0x60, 0x64] →
      exec i s = .next (s.inkStroke s.iss.core e s.iss.pc)) ∧
  (
    (∀ (s : State) (h : Hdr) (e : Nat) (st : Stroke), st.guard h = some false →
      let st1 : Stroke := { st with pc := s.iss.pc + 12 }
      let passes := fun (i : Instr) => StrokeIssues s i e st → exec i s = .next (s.putStroke e st1)
      (∀ (f : VF) (a b : Form), closable f = true → st1.fa s f = some a → st1.formB s f = some b →
        let fits := fun (r : Form) => (st1.setForm f.d r).isSome = true
        (fits (a.zip (· + ·) b) → passes (.iadd h f)) ∧ (fits (a.zip (· - ·) b) → passes (.isub h f)) ∧
        (a.isUni = true → fits (b.map (· * a.base)) → passes (.imul h f)) ∧
        (a.isUni = false → b.isUni = true → fits (a.map (· * b.base)) → passes (.imul h f)) ∧
        (b.isUni = true → b.base.toNat < 32 → fits (a.map (· <<< b.base.toNat)) → passes (.shl h f)) ∧
        (a = b → fits a → passes (.sel h f)) ∧ passes (.icmp h f)) ∧
      (∀ (f : VF) (as : List Form), st1.formsOf s f.ty.is64 f.a = some as → (st1.setForms f.d as).isSome = true → passes (.mov h f)) ∧
      (∀ f : MF, loadCloses f s st1 = true → passes (.ld h f) ∧ passes (.ldc h f)) ∧
      (∀ (f : CF) (x : W64), st1.uniPair s f.a = some x →
        passes (.brx h f) ∧ passes (.ret h f) ∧ ((st1.link f.d 0).isSome = true → passes (.callx h f))) ∧
      (∀ (f : CF) (a : Form), st1.form (st1.tx s) (st1.ty s) f.a = some a → a.isUni = true →
        (st1.setForm f.d (.uni 0)).isSome = true → passes (.sizesel h f)) ∧
      (∀ f : VF, (st1.setForms f.d ((valRegs f.ty.is64 (immVal f.ty (f.imm.getD 0))).map Form.uni)).isSome = true → passes (.movi h f)) ∧
      (∀ (f : VF) (as ds : List Form) (t : Stroke), st1.formsOf s f.ty.is64 f.a = some as → st1.formsOf s f.ty.is64 f.d = some ds →
        st1.setForms f.d as = some t → (t.setForms f.a ds).isSome = true → passes (.movs h f)) ∧
      (∀ f : CF, passes (.bra h f) ∧ passes (.join h f) ∧ passes (.exit h f) ∧ passes (.nop h f) ∧ passes (.yield h f) ∧
        ((st1.link f.d (s.iss.pc + 12)).isSome = true → passes (.call h f)))) ∧
    (∀ (s : State) (i : Instr) (h : Hdr) (e : Nat) (st : Stroke), s.iss.stroke = some e → s.strokeAt s.iss.core e = some st →
      i.hdr = some h → st.guard h = none → i.major ∉ [0x50, 0x5E] → exec i s = .next (s.inkStroke s.iss.core e s.iss.pc))) ∧
  (
    ∀ (s : State) (h : Hdr) (f : MF) (e : Nat) (st : Stroke) (va : W64),
      let st1 : Stroke := { st with pc := s.iss.pc + 12 }
      let n := f.size.bytes
      let c := s.iss.core
      let regs := match s.context st.ctx with
        | some x => x.watch
        | none => []
      let watch := fun pa => lowestHit (watchIn regs .read false false (untag va).toNat n (fun _ => true)
        ++ (s.watchTable st.ctx .read false pa n).map fun w => (w.index, w.base - pa))
      loadCloses f s st1 = true → strokeVa f s st1 = some va → (va.toNat % n = 0 → s.walkWaits c st.ctx va = false) →
      ∀ i sc o, (i = .ld h f ∧ sc = f.scope ∧ o = f.order) ∨ (i = .ldc h f ∧ sc = .c ∧ o = .relaxed) → StrokeRuns s i h e st →
        (∀ x t, s.checkAs c st.ctx false watch (loadAsk va n sc) = (.error x, t) → exec i s = .next (s.inkStroke c e s.iss.pc)) ∧
        (∀ pa pte t, s.checkAs c st.ctx false watch (loadAsk va n sc) = (.ok (pa, pte), t) →
          let fill := t.fills c sc f.policy pa pte
          let gives := fun (u : State) (bs : List Byte) => ∀ st2,
            st1.setForms f.d (((destOf f.d f.size.regs n f.sext).regs (ofBytes (u.softRead pa bs).1)).map Form.uni) = some st2 →
            exec i s = .next ((if isAcq o then (u.softRead pa bs).2.acquire c sc else (u.softRead pa bs).2).modCore c fun k =>
              { k with strokes := k.strokes.put e st2 })
          (∀ x, t.nearLine c sc pa n pte = some x → gives (t.servedNear c sc f.policy x fill.1) ((x.data.drop (pa % 128)).take n)) ∧
          (t.nearLine c sc pa n pte = none → t.linked (dieOf c) (homeDie pa) = true → (t.held pa && !t.homeHit pa n) = false →
            let u := (t.homeLoad pa n f.policy).readAtHome c (dieOf c) (pa / 128)
            gives (u.fillNear c (u.lineOf (dieOf c) (pa / 128) (coverBlock pa (pa + n))) fill.1 fill.2 f.policy u.nextId) (u.bytes pa n)))) ∧
  (
    (∀ (s : State) (h : Hdr) (f : CF) (e : Nat) (st : Stroke),
      let c := s.iss.core
      let st1 : Stroke := { st with pc := s.iss.pc + 12 }
      (StrokeRuns s (.join h f) h e st →
        exec (.join h f) s = .next ((s.putStroke e { st with pc := s.iss.pc, joining := true }).joinSettle c st)) ∧
      (StrokeRuns s (.exit h f) h e st → exec (.exit h f) s = .next ((s.exitStroke c e).settleCore c)) ∧
      (s.iss.stroke = some e → exec (.ink h f) s = .next (s.inkStroke c e (s.iss.pc + 12))) ∧
      (StrokeRuns s (.callx h f) h e st → ∀ x t, st1.uniPair s f.a = some x → x.toNat % 4 = 0 →
        (st1.link f.d 0).isSome = true → st1.link f.d (s.iss.pc + 12) = some t →
        exec (.callx h f) s = .next (s.putStroke e { t with pc := x })) ∧
      (StrokeRuns s (.sizesel h f) h e st → ∀ l a t, s.launch st.ctx st.launch = some l →
        st1.form (st1.tx s) (st1.ty s) f.a = some a → a.isUni = true → (st1.setForm f.d (.uni 0)).isSome = true →
        let parts := s.schedParts c 64 st.ctx (schedAddr l.words f) 0 8
        (∀ p ∈ parts, s.reachWaits c 64 st.ctx p.1 p.2 = false) →
        (∀ x, s.schedEntries c 64 st.ctx (schedAddr l.words f) 0 8 = .error x →
          exec (.sizesel h f) s = .next (s.inkStroke c e s.iss.pc)) ∧
        (∀ rec, s.schedEntries c 64 st.ctx (schedAddr l.words f) 0 8 = .ok rec →
          let u := parts.foldl (fun s p => s.recordRead c 64 st.ctx p.1 p.2) s
          let r := sizeFit rec (a.base.zeroExtend 64) (s.iss.pc + 12) 0 8
          r.2.toNat % 4 = 0 → st1.setForm f.d (.uni r.1) = some t →
          exec (.sizesel h f) s = .next (u.modCore c fun k => { k with strokes := k.strokes.put e { t with pc := r.2 } }))) ∧
      (StrokeIssues s (.bra h f) e st → ∀ cmp sg fa fb l0 nl, st.pform h.gpred.val = .cmp cmp sg fa fb →
        roleLanes (natBits (s.launchWord st.ctx st.launch 2) 5 2) (natBits (s.launchWord st.ctx st.launch 2) 10 6) st.consumer = (l0, nl) →
        (splitOf st.box cmp sg h.gneg fa fb l0 nl = .ink → exec (.bra h f) s = .next (s.inkStroke c e s.iss.pc)) ∧
        (∀ b, splitOf st.box cmp sg h.gneg fa fb l0 nl = .whole b →
          exec (.bra h f) s = .next (s.putStroke e { st with pc := if b then branchTo s.iss.pc f else s.iss.pc + 12 })) ∧
        (∀ yes no mixed, splitOf st.box cmp sg h.gneg fa fb l0 nl = .parts yes no mixed →
          let first := fun (b : Box) => b.first (st.tx s) (st.ty s)
          let taken := fun (b : Box) => ({ st with box := b, pc := branchTo s.iss.pc f } : Stroke)
          let fallen := fun (b : Box) => ({ st with box := b, pc := s.iss.pc + 12 } : Stroke)
          let u := s.modCore c fun k => { k with strokes := k.strokes.erase e }
          let v := match mixed with
            | some b => u.modCore c fun k => { k with inked := k.inked ++ [st.ink b (st.tx s) (st.ty s) s.iss.pc] }
            | none => u
          let forms := fun (xs : List Stroke) => exec (.bra h f) s = .next ((xs.foldl (fun w x => w.formStroke c x) v).joinSettle c st)
          (∀ y n, yes = some y → no = some n → (first y < first n → forms [taken y, fallen n]) ∧ (first n < first y → forms [fallen n, taken y])) ∧
          (∀ y, yes = some y → no = none → forms [taken y]) ∧ (∀ n, yes = none → no = some n → forms [fallen n]) ∧
          (yes = none → no = none → forms [])))) ∧
    (∀ (s : State) (c : Nat) (k : Stroke),
      let kin := (s.core c).strokes.filter fun x => sameKin k x.2
      (firstMerge (kinOrder (s.launchWord k.ctx k.launch 4) (s.launchWord k.ctx k.launch 5) kin) = none) →
      ((∃ x ∈ kin, x.2.joining = false) → s.joinSettle c k = s.modCore c id) ∧
      ((∀ x ∈ kin, x.2.joining = true) → ∀ pc, minOf (kin.map fun x => x.2.pc.toNat) = some pc →
        ((s.joinSettle c k).core c).strokes = (s.core c).strokes.map fun x =>
          if sameKin k x.2 && x.2.pc.toNat == pc then (x.1, { x.2 with joining := false, pc := x.2.pc + 12 }) else x)) ∧
    (∀ (a b : Stroke) (u : Box), mergeable a b = some u →
      (a.joining = true ∧ b.joining = true ∧ a.pc = b.pc ∧ a.v = b.v ∧ a.s = b.s ∧ a.p = b.p) ∧
      (a.box.x0 ≤ a.box.x1 → a.box.y0 ≤ a.box.y1 → a.box.z0 ≤ a.box.z1 → b.box.x0 ≤ b.box.x1 → b.box.y0 ≤ b.box.y1 → b.box.z0 ≤ b.box.z1 →
        ∀ x y z, let inB := fun (k : Box) => k.x0 ≤ x ∧ x ≤ k.x1 ∧ k.y0 ≤ y ∧ y ≤ k.y1 ∧ k.z0 ≤ z ∧ z ≤ k.z1
          inB u ↔ inB a.box ∨ inB b.box)))

/-! ## Control transfer and the waits of lanes -/

/-- BRA, BRX, CALL, CALLX and RET (R199): each participating lane whose target is a multiple of 4 goes on there, and its link pair takes
PC + 12 for CALL and CALLX, an s pair that of the lowest such lane; each lane whose target is not takes ALIGN with the target as its
address and stands at the instruction, its link unchanged; the other lanes of the set go on at PC + 12. The address that ALIGN reports
is the model's reading (log 40). -/
def Obligations.Branches : Prop :=
  ∀ (s : State) (h : Hdr) (f : CF),
    let e := s.env h
    let direct := fun (_ : Nat) => s.iss.pc + 12 * f.off.signExtend 64
    let pair := fun l => e.src64 l false f.a
    let link : List (Opnd × (Nat → List W32)) := [(f.d, fun _ => valRegs true (s.iss.pc + 12))]
    let jumps := fun (i : Instr) (next : Nat → W64) (ds : List (Opnd × (Nat → List W32))) => Issues s i →
      let ok := (s.active h).filter fun l => (next l).toNat % 4 == 0
      let bad := (s.active h).filter fun l => (next l).toNat % 4 != 0
      ∃ u, Writes s u ok ds [] ∧ Continues s u ok next ∧ exec i s = .next (bad.foldl
        (fun t l => t.precise s.iss.core s.iss.slot l s.iss.pc { code := cALIGN, addr := next l }) u)
    jumps (.bra h f) direct [] ∧ jumps (.call h f) direct link ∧ jumps (.brx h f) pair [] ∧ jumps (.callx h f) pair link ∧
    jumps (.ret h f) pair []

/-- NOP only advances the PC (R204); YIELD also cedes the group's next cycle and keeps its
participating lanes ineligible for the next 16 cycles.

A lane that executes JOIN, TRAPRET in trap mode, SYNCG or SYNCT (outside trap mode) stands at the instruction and waits, and what
its arrival lets go then goes (R201, R205, R206, R285, R348); SYNCG and SYNCT arrive once the group's earlier accesses are performed at
their scope, and wait at the instruction until then. A lane in trap mode that executes SYNCT takes BARRIER and does not arrive, whatever
the other lanes of its set do (R206). That a set which must wait stands at its instruction and issues it again is the model's form of
waiting (log 27).

EXIT (R202): each participating lane is exited and out of trap mode, and when the last lane of the group has exited it drains and
its allotment units are free (R54). Then the lanes that only waited for them at a JOIN, a SYNCG, a SYNCT or a TRAPRET go on (R50,
R205, R206). -/
def Obligations.WaitsAndExits : Prop :=
  (
    ∀ (s : State) (h : Hdr) (f : CF),
      let now := (s.die (dieOf s.iss.core)).cycle
      (Issues s (.nop h f) → ∃ t, exec (.nop h f) s = .next t ∧ Computes s t h [] []) ∧
      (Issues s (.yield h f) → ∃ t, exec (.yield h f) s = .next t ∧ Computes s t h [] [] ∧
        (t.core s.iss.core).ceded = some (s.iss.slot, now) ∧
        ∀ l ∈ s.active h, now + 17 ≤ (t.issLane l).until_)) ∧
  (
    (∀ (s : State) (h : Hdr) (f : CF),
      let e := s.env h
      let u := s.beginIssue h
      (Issues s (.join h f) → exec (.join h f) s = .next (u.arriveAt e e.active .join)) ∧
      (Issues s (.syncg h f) → exec (.syncg h f) s = .next
        (let m := (drainMark e .g e.active).getD u.nextId
         if e.active.isEmpty || u.drained s.iss.core s.iss.slot .g m then u.arriveAt e e.active .syncg
         else u.waitAt e e.active (.drain .g m true))) ∧
      (Issues s (.synct h f) →
        let good := e.active.filter fun l => !(e.g.lane l).trap
        let v := (e.active.filter fun l => (e.g.lane l).trap).foldl
          (fun t l => t.precise s.iss.core s.iss.slot l s.iss.pc { code := cBARRIER }) u
        let m := (drainMark e .t good).getD v.nextId
        exec (.synct h f) s = .next
          (if good.isEmpty || v.drained s.iss.core s.iss.slot .t m then
             v.arriveAt e good (if f.mod.getLsbD 0 then .synctRole else .synct)
           else v.waitAt e good (.drain .t m true)))) ∧
    (∀ (s : State) (h : Hdr) (f : VF), Issues s (.trapret h f) → s.allTrap = true →
      exec (.trapret h f) s = .next ((s.beginIssue h).arriveAt (s.env h) (s.active h) .trapret)) ∧
    (∀ (s : State) (e : Env) (ls : List Nat) (w : Wait), s.arriveAt e ls w = State.settle (ls.foldl (fun t l =>
      t.modLane e.core e.slot l fun x => { (x.setCur e.pc) with wait := w }) s) e.core e.slot)) ∧
  (
    (∀ (s : State) (h : Hdr) (f : CF), Issues s (.exit h f) → exec (.exit h f) s = .next
      (((((s.active h).foldl (fun t l => t.modLane s.iss.core s.iss.slot l fun x =>
        { x with exited := true, trap := false, wait := .none, parked := none, late := none }) (s.beginIssue h)).modGroup
        s.iss.core s.iss.slot Group.drainIfDone)).settle s.iss.core s.iss.slot)) ∧
    (∀ g : Group, (∃ l, l < g.lanes.length ∧ (g.lane l).exited = false) → g.drainIfDone = g) ∧
    (∀ g : Group, (∀ l, l < g.lanes.length → (g.lane l).exited = true) →
      g.drainIfDone = { g with draining := true, unit := 0, nunit := 0 }))

/-- INK (R211): in a stroke it inks the whole stroke, and the inked lanes begin at the next instruction, with the stroke's forms and
predicates; in a group it acts as NOP. -/
def Obligations.InkInstruction : Prop :=
  (∀ (s : State) (h : Hdr) (f : CF), Issues s (.ink h f) → ∃ t, exec (.ink h f) s = .next t ∧ Computes s t h [] []) ∧
  (∀ (s : State) (h : Hdr) (f : CF) (e : Nat), s.iss.stroke = some e →
    exec (.ink h f) s = .next (s.inkStroke s.iss.core e (s.iss.pc + 12))) ∧
  (∀ (s : State) (c e : Nat) (pc : W64) (st : Stroke), s.strokeAt c e = some st →
    let t := s.inkStroke c e pc
    (t.core c).strokes.find e = none ∧
    ∃ i ∈ (t.core c).inked, i.pc = pc ∧ i.ctx = st.ctx ∧ i.launch = st.launch ∧ i.consumer = st.consumer ∧ i.v = st.v ∧ i.s = st.s ∧
      i.p = st.p ∧ i.teams = st.box.teams (st.tx s) (st.ty s))

/-- Which lanes leave a wait (R50, R51, R205, R285), of the lanes not exited, or in trap mode of those in trap mode: where any of them
does not wait there, or is parked or late, none leaves; where all wait at a JOIN, those at the lowest address go on after it and the
others wait on; where all wait at a SYNCG, all go on, each after its own; where all trap-mode lanes wait at a TRAPRET, all leave trap
mode, each to its tret.

The lanes that wait at a SYNCT of a team leave together, each after its own, once every covered group has arrived, and none
before (R206). -/
def Obligations.WaitsEnd : Prop :=
  (
    ∀ (g : Group) (trap : Bool) (l : Nat), l < g.lanes.length →
      let ls := g.concerned trap
      let at_ := fun k => (g.lane k).cur.toNat
      let after := fun (x : Lane) => { (x.setCur (x.cur + 12)) with wait := .none }
      (g.allWait trap .join = false → g.leaveJoin trap = g) ∧
      (g.allWait trap .syncg = false → g.leaveSync trap = g) ∧
      (g.allWait true .trapret = false → g.leaveTrap = g) ∧
      (g.allWait trap .join = true → (g.leaveJoin trap).lane l =
        if l ∈ ls ∧ ∀ k ∈ ls, at_ l ≤ at_ k then after (g.lane l) else g.lane l) ∧
      (g.allWait trap .syncg = true → (g.leaveSync trap).lane l = if l ∈ ls then after (g.lane l) else g.lane l) ∧
      (g.allWait true .trapret = true → g.leaveTrap.lane l =
        if (g.lane l).exited = false ∧ (g.lane l).trap = true then (g.lane l).leaveTrap else g.lane l)) ∧
  (
    ∀ (s : State) (c place n l : Nat) (w : Wait) (role : Option Bool), l < (s.group c n).lanes.length →
      ((s.core c).groups.find n).isSome = true → (s.group c n).place = some place →
      let gs := (s.team c place).covered role
      let g := s.group c n
      let t := s.settleSynct c place w role
      ((∃ k ∈ gs, s.arrivedAt c place k w = false) → t = s) ∧
      ((∀ k ∈ gs, s.arrivedAt c place k w = true) → (t.group c n).lane l =
        if g.grp ∈ gs ∧ (g.lane l).exited = false ∧ (g.lane l).wait = w then
          { ((g.lane l).setCur ((g.lane l).cur + 12)) with wait := .none }
        else g.lane l))

/-! ## Taking an exception, and the return from one -/

/-- A lane takes a fault (R283): its fault record is written; in trap mode its group is frozen with DOUBLE, with no handler it is
frozen with the fault's code, and so is the agent in slot 63, which has no handler (R371); else the lane enters its handler, with the
trap registers of Table 17-4 and the resume address given, and no other lane changes.

The fields of tcause (Table 17-6): the number or watch register in bits 31:16, wsup, eng and rem in bits 15, 14 and 13, the lane
in bits 12:8, the code in bits 7:0. -/
def Obligations.TakingAnException : Prop :=
  (
    ∀ (s : State) (c slot lane : Nat) (f : FaultRec) (resume : W64),
      let g := s.group c slot
      let l := g.lane lane
      let u := s.groupRecord 0x01 c slot lane f f.code
      let t := s.takeFault c slot lane f resume
      (l.trap = true → t = u.freezeGroup c slot lane f cDOUBLE) ∧
      (l.trap = false → slot = 63 ∨ s.trapAddr g = 0 → t = u.freezeGroup c slot lane f f.code) ∧
      (l.trap = false → slot ≠ 63 → s.trapAddr g ≠ 0 → ((s.core c).groups.find slot).isSome = true → lane < g.lanes.length →
        (t.group c slot).lane lane = { l with
          trap := true, tpc := s.trapAddr g, wait := .none, parked := none, tcause := tcauseOf f lane, taddr := f.addr, tpcr := f.pc,
          tseq := f.seq, tret := resume } ∧
        (∀ k, k ≠ lane → (t.group c slot).lane k = g.lane k) ∧ t.group c slot = { g with lanes := (t.group c slot).lanes } ∧
        (∀ d n, ¬(d = c ∧ n = slot) → t.group d n = s.group d n) ∧ t.mem = u.mem ∧ t.launches = s.launches ∧
        t.contexts = s.contexts)) ∧
  (
    ∀ (f : FaultRec) (lane : Nat), lane < 32 →
      let w := tcauseOf f lane
      w.extractLsb' 16 16 = f.num ∧ w.getLsbD 15 = decide (f.code = cWATCH) ∧ w.getLsbD 14 = f.eng ∧ w.getLsbD 13 = f.rem ∧
      (w.extractLsb' 8 5).toNat = lane ∧ w.extractLsb' 0 8 = f.code)

/-- A frozen group (R287): the first freeze gives the code and writes the freeze record; a group already frozen changes nothing, and a
frozen group has no eligible lane, so nothing of it issues. In slot 63 it is the core's agent that freezes: its freeze record goes to
Nopol root's buffer of the die (R371), with the fault code that froze it, which is the model's choice where the rule names none
(log 40).

HALT and FREEZE (R349, R350, R287): HALT only goes on while no debugger is attached or no lane participates, and else stops the
group after the instruction, with a halt record for its lowest participating lane; FREEZE leaves the lanes at the instruction and
freezes the group with code 0 and its number. Where the lanes of a FREEZE stand is the model's reading (log 61). -/
def Obligations.HaltingAndFreezing : Prop :=
  (
    ∀ (s : State) (c slot lane : Nat) (f : FaultRec) (code : Code),
      ((s.group c slot).frozen.isSome = true → s.vote c slot = none) ∧
      (slot ≠ 63 → (s.group c slot).frozen.isSome = true → s.freezeGroup c slot lane f code = s) ∧
      (slot ≠ 63 → (s.group c slot).frozen = none → ((s.core c).groups.find slot).isSome = true →
        s.freezeGroup c slot lane f code =
          (s.modGroup c slot fun g => { g with frozen := some code }).groupRecord 0x02 c slot lane f code ∧
        (s.freezeGroup c slot lane f code).group c slot = { s.group c slot with frozen := some code }) ∧
      ((s.core c).agentFrozen = true → s.freezeGroup c 63 lane f code = s) ∧
      ((s.core c).agentFrozen = false →
        let u := s.modCore c fun k => { k with
          agentFrozen := true
          groups := k.groups.modify 63 fun g => { g with frozen := some code } }
        s.freezeGroup c 63 lane f code = u.record (u.rootRing (dieOf c)) 0x02 (dieOf c) (some c) (some 63)
          (faultBody f code lane 0 0 0 (s.group c 63).ctx false))) ∧
  (
    (∀ (s : State) (h : Hdr) (f : VF), Issues s (.halt h f) →
      let debug := ((s.context (s.env h).g.ctx).getD {}).dbgctl
      ((debug = false ∨ s.active h = []) → exec (.halt h f) s = .next (s.beginIssue h)) ∧
      (∀ l, debug = true → (s.active h).head? = some l → exec (.halt h f) s =
        .next (((s.beginIssue h).modGroup s.iss.core s.iss.slot fun g => { g with halted := true }).groupRecord 0x03 s.iss.core
          s.iss.slot l { code := 0, pc := s.iss.pc } 0))) ∧
    (∀ (s : State) (h : Hdr) (f : VF) (n : Nat), NibIssues s (.freeze h f) h n → exec (.freeze h f) s =
      .next ((s.iss.lanes.foldl (fun t l => t.modLane s.iss.core s.iss.slot l fun x => x.setCur s.iss.pc) (s.beginIssue h)).freezeGroup
        s.iss.core s.iss.slot n { code := 0, pc := s.iss.pc, num := f.mod.truncate 16 &&& 0x1FFF } 0)) ∧
    (∀ (s : State) (c slot : Nat), (s.group c slot).halted = true → s.vote c slot = none))

/-- TRAP and BKPT (R203): every participating lane takes the fault with the instruction's number and the resume address PC + 12, so in
trap mode DOUBLE; else it enters its handler, where there is one, with that number and that resume address; both ink a stroke at the
instruction. -/
def Obligations.TrapAndBreakpoint : Prop :=
  (∀ (s : State) (h : Hdr) (f : CF),
    let takes := fun (code : Code) => (s.active h).foldl (fun t l => t.takeFault s.iss.core s.iss.slot l
      { code := code, pc := s.iss.pc, num := f.mod.zeroExtend 16 } (s.iss.pc + 12)) (s.beginIssue h)
    (Issues s (.trap h f) → exec (.trap h f) s = .next (takes 0x13)) ∧
    (Issues s (.bkpt h f) → exec (.bkpt h f) s = .next (takes 0x12)) ∧
    (∀ e, s.iss.stroke = some e → exec (.trap h f) s = .next (s.inkStroke s.iss.core e s.iss.pc) ∧
      exec (.bkpt h f) s = .next (s.inkStroke s.iss.core e s.iss.pc))) ∧
  (∀ (s : State) (c slot l : Nat) (f : FaultRec) (resume : W64),
    let x := (s.group c slot).lane l
    (x.trap = true → s.takeFault c slot l f resume = (s.groupRecord 0x01 c slot l f f.code).freezeGroup c slot l f cDOUBLE) ∧
    (x.trap = false → slot ≠ 63 → s.trapAddr (s.group c slot) ≠ 0 → ((s.core c).groups.find slot).isSome = true →
      l < (s.group c slot).lanes.length →
      let y := ((s.takeFault c slot l f resume).group c slot).lane l
      y.trap = true ∧ y.tret = resume ∧ y.tpcr = f.pc ∧ y.tcause.extractLsb' 0 8 = f.code ∧ y.tcause.extractLsb' 16 16 = f.num ∧
      y.leaveTrap.cur = resume))

/-- The return from a handler (R285, R348): the lane leaves trap mode and goes on at its tret; with wsup set its first execution
there skips its watch checks, and wsup is clear; its registers and predicates stay.

FAULT_DELIVERY takes the first fault that can be delivered (R237, R283, R56): the lane takes it with the resume address recorded for
it, or its PC; where that lane has exited, it becomes the lowest lane of the group not exited, which takes it at its own next
boundary; a draining group has it recorded against its context; and with none to deliver nothing changes. -/
def Obligations.LeavingAndDelivery : Prop :=
  (
    ∀ l : Lane,
      let r := l.leaveTrap
      r.trap = false ∧ r.cur = l.tret ∧ r.wait = .none ∧
      (l.tcause.getLsbD 15 = true → r.wskip = some l.tret) ∧ (l.tcause.getLsbD 15 = false → r.wskip = l.wskip) ∧
      r.tcause.getLsbD 15 = false ∧ (∀ i, i ≠ 15 → r.tcause.getLsbD i = l.tcause.getLsbD i) ∧
      { r with
        trap := l.trap
        pc := l.pc
        wait := l.wait
        wskip := l.wskip
        tcause := l.tcause } = l) ∧
  (
    ∀ (s : State) (c slot : Nat),
      let g := s.group c slot
      (g.nextDeliv = none → exec (.faultDelivery c slot) s = .next s) ∧
      (∀ n d, g.nextDeliv = some n → g.deliv[n]? = some d → ((s.core c).groups.find slot).isSome = true →
        let u := s.modGroup c slot fun g => { g with deliv := listErase g.deliv n }
        (g.draining = true → exec (.faultDelivery c slot) s = .next (u.groupRecord 0x01 c slot d.lane d.f d.f.code)) ∧
        (g.draining = false → (g.lane d.lane).exited = false → exec (.faultDelivery c slot) s =
          .next (u.takeFault c slot d.lane d.f (d.resume.getD (g.lane d.lane).cur))) ∧
        (g.draining = false → (g.lane d.lane).exited = true → ∀ k, k < g.lanes.length → (g.lane k).exited = false →
          (∀ j, j < k → (g.lane j).exited = true) → exec (.faultDelivery c slot) s =
            .next (u.modGroup c slot fun g => { g with deliv := g.deliv ++ [{ d with lane := k }] }))))

/-- Instructions outside their privilege (R12, R64, R86, R284, R347, R348): GETS of a trap register and TRAPRET with a lane of the set
outside trap mode, and SETS by a writer that Table 21-8 does not name, raise PRIV for every lane of the set, and do nothing else. That
one lane of the set outside trap mode makes every lane of it take PRIV is the model's reading (log 26). -/
def Obligations.PrivilegeTraps : Prop :=
  ∀ (s : State) (h : Hdr) (f : VF), s.iss.stroke = none →
    (Instr.within (.gets h f) (s.issGroup.allot s.iss.slot) = true → isTrapReg (sregNo f) = true → s.allTrap = false →
      exec (.gets h f) s = .next (s.faultSet cPRIV)) ∧
    (Instr.within (.sets h f) (s.issGroup.allot s.iss.slot) = true → s.setsAllowed (sregNo f) = false →
      exec (.sets h f) s = .next (s.faultSet cPRIV)) ∧
    (Instr.within (.trapret h f) (s.issGroup.allot s.iss.slot) = true → s.allTrap = false →
      exec (.trapret h f) s = .next (s.faultSet cPRIV)) ∧
    (s.iss.slot ≠ 63 → isTrapReg (sregNo f) = false → s.setsAllowed (sregNo f) = false) ∧
    (∀ n, isTrapReg n = true → n ≠ 0x100 → n ≠ 0x106 → n ≠ 0x107 → s.setsAllowed n = false) ∧
    s.faultSet cPRIV = s.iss.lanes.foldl (fun t l => t.precise t.iss.core t.iss.slot l t.iss.pc { code := cPRIV }) s

/-! ## System instructions and special registers -/

/-- GETS of each special register of Table 21-8 and Table 17-4 (R347, R284): it completes for every register that a reader may read, and
each participating lane's D takes the register; CYCLO_READ gives the low half of the die's cycle counter and latches the high half for
the lane. The counter's advance is the model's choice (log 3).

SETS by a writer that the tables name (R347, R284): in trap mode bit 15 of tcause and the halves of tret of each participating
lane; by the agent's group remerr of its context and the sampling period of its core, from the lowest participating lane. Nothing
else changes, and the lanes go on. -/
def Obligations.SpecialRegisters : Prop :=
  (
    (∀ (s : State) (h : Hdr) (f : VF), (isTrapReg (sregNo f) = true → s.allTrap = true) → Gives s (.gets h f) h f.d
      fun l => [s.sreg (s.env h) l (sregNo f)]) ∧
    (∀ (s : State) (e : Env) (l : Nat), s.iss.snap = none →
      let x := (s.context e.g.ctx).getD {}
      let y := e.g.lane l
      let w := fun n => (e.g.watch[n]?.getD ⟨0, 0, 0, 0⟩ : WatchReg)
      s.sreg e l 0x000 = BitVec.ofNat 32 e.core ∧ s.sreg e l 0x001 = s.devid.zeroExtend 32 ∧
      s.sreg e l 0x002 = (if x.tagEn then 1 else 0) ||| (if x.tagAny0 then 2 else 0) ∧ s.sreg e l 0x004 = y.cychi ∧
      s.sreg e l 0x005 = BitVec.ofNat 32 e.g.launch ∧
      s.sreg e l 0x008 = BitVec.ofNat 32 (x.fcomm % 64 * 256 + (if x.remMode then 1 else 0)) ∧ s.sreg e l 0x009 = x.remrank ∧
      s.sreg e l 0x00A = x.remcode ∧ s.sreg e l 0x00B = (if x.dbgctl then 1 else 0) ∧
      s.sreg e l 0x010 = (s.core e.core).period.zeroExtend 32 ∧
      (∀ n, n < 4 → s.sreg e l (0x20 + 8 * n) = loHalf (w n).base ∧ s.sreg e l (0x21 + 8 * n) = hiHalf (w n).base ∧
        s.sreg e l (0x22 + 8 * n) = (w n).len ∧ s.sreg e l (0x23 + 8 * n) = (w n).ctl ∧ s.sreg e l (0x24 + 8 * n) = (w n).lanes) ∧
      s.sreg e l 0x100 = y.tcause ∧ s.sreg e l 0x101 = loHalf y.taddr ∧ s.sreg e l 0x102 = hiHalf y.taddr ∧
      s.sreg e l 0x103 = loHalf y.tpcr ∧ s.sreg e l 0x104 = hiHalf y.tpcr ∧ s.sreg e l 0x105 = y.tseq ∧
      s.sreg e l 0x106 = loHalf y.tret ∧ s.sreg e l 0x107 = hiHalf y.tret) ∧
    (∀ (s : State) (h : Hdr) (f : VF), Issues s (.cycloRead h f) →
      let now := BitVec.ofNat 64 (s.die (dieOf s.iss.core)).cycle
      ∃ u, Computes s u h [(f.d, fun _ => [loHalf now])] [] ∧ exec (.cycloRead h f) s = .next ((s.active h).foldl
        (fun t l => t.modLane s.iss.core s.iss.slot l fun x => { x with cychi := hiHalf now }) u))) ∧
  (
    ∀ (s : State) (h : Hdr) (f : VF), Issues s (.sets h f) → s.setsAllowed (sregNo f) = true →
      let e := s.env h
      let u := s.beginIssue h
      let each := fun (g : W32 → Lane → Lane) => (s.active h).foldl (fun t l => t.modLane s.iss.core s.iss.slot l
        (g (e.src32 l f.a))) u
      let low := fun (g : W32 → State) => match (s.active h).head? with
        | none => u
        | some l => g (e.src32 l f.a)
      (sregNo f = 0x100 → exec (.sets h f) s = .next (each fun x y =>
        { y with tcause := (y.tcause &&& 0xFFFF_7FFF) ||| (x &&& 0x8000) })) ∧
      (sregNo f = 0x106 → exec (.sets h f) s = .next (each fun x y => { y with tret := pairVal x (hiHalf y.tret) })) ∧
      (sregNo f = 0x107 → exec (.sets h f) s = .next (each fun x y => { y with tret := pairVal (loHalf y.tret) x })) ∧
      (sregNo f = 0x008 → exec (.sets h f) s = .next (low fun x => u.modContext e.g.ctx fun y =>
        { y with remMode := x.getLsbD 0, fcomm := (field x 8 6).toNat })) ∧
      (sregNo f = 0x010 → exec (.sets h f) s = .next (low fun x => u.modCore s.iss.core fun k =>
        { k with period := field x 0 20, sampleAt := (s.die (dieOf s.iss.core)).cycle })) ∧
      (sregNo f = 0x100 ∨ sregNo f = 0x106 ∨ sregNo f = 0x107 ∨ sregNo f = 0x008 ∨ sregNo f = 0x010))

/-- WATCH and UNWATCH (R351): a watch of lane, group or team scope fills its register with base, length, participating lanes and the
control word of Table 21-10, the register's table entry goes, and D takes 1; a local range with high base bits leaves the register
clear and D 0. A package-scope watch waits at its instruction while the walk its address needs waits (the form of waiting: log 27);
where its table can hold it, the register takes also bit 30 of its control word and the table of the home die an entry, and D takes 1,
else the register is clear and D takes 0. UNWATCH clears a valid register and does nothing to another. A register of length 0 matches no
access.

SAMPLE and LOGM (R352, R365): a marker record carries A of the nib lane; ON and OFF set and clear the group's sample enable; LOGM
writes one record for each participating lane in ascending order, with the lane, the instruction's address and the four words. -/
def Obligations.WatchesSamplesLogs : Prop :=
  (
    (∀ (s : State) (h : Hdr) (f : VF) (n : Nat),
      let e := s.env h
      let u := s.beginIssue h
      let c := s.iss.core
      let k := s.iss.slot
      let i := (field f.mod 0 2).toNat
      let clear := u.setWatch c k i ⟨0, 0, 0, 0⟩
      let base := e.src64 n false f.a
      let len := e.src32 n f.b
      let reg := fun (ctl : W32) => (⟨base, len, maskOf 32 (s.active h), ctl⟩ : WatchReg)
      let ctl := wctlOf f.mod
      let table := ctl ||| 0x4000_0000
      let entry := fun (pa : Nat) => ({
        base := pa
        len := len.toNat
        core := c
        slot := k
        index := i
        ctx := (u.group c k).ctx
        ctl := table } : WatchEnt)
      (NibIssues s (.watch h f) h n → field f.mod 2 2 ≠ 3 → (f.mod.getLsbD 8 = false ∨ hiHalf base = 0) →
        exec (.watch h f) s = .next ((u.setWatch c k i (reg ctl)).writeD e f.d fun _ => [1])) ∧
      (NibIssues s (.watch h f) h n → f.mod.getLsbD 8 = true → hiHalf base ≠ 0 →
        exec (.watch h f) s = .next (clear.writeD e f.d fun _ => [0])) ∧
      (NibIssues s (.watch h f) h n → field f.mod 2 2 = 3 → (f.mod.getLsbD 8 = false ∨ hiHalf base = 0) →
        u.walkWaits c e.g.ctx base = true → exec (.watch h f) s = .next (u.waitAt e s.iss.lanes (.reach base 0))) ∧
      (NibIssues s (.watch h f) h n → field f.mod 2 2 = 3 → (f.mod.getLsbD 8 = false ∨ hiHalf base = 0) →
        u.walkWaits c e.g.ctx base = false →
        (∀ pa v, clear.watchRoom c (u.group c k).ctx base len.toNat = (some pa, v) → exec (.watch h f) s =
          .next (((v.setWatch c k i (reg table)).modDie (homeDie pa) fun d =>
            { d with watches := d.watches ++ [entry pa] }).writeD e f.d fun _ => [1])) ∧
        (∀ v, clear.watchRoom c (u.group c k).ctx base len.toNat = (none, v) →
          exec (.watch h f) s = .next (v.writeD e f.d fun _ => [0]))) ∧
      (NibIssues s (.unwatch h f) h n → exec (.unwatch h f) s =
        .next (if ((s.group c k).watch[i]?).any (fun w => w.ctl.getLsbD 31) then clear else u))) ∧
    (∀ (regs : List WatchReg) (k : AKind) (eng loc : Bool) (a n : Nat) (scopeOk : WatchReg → Bool),
      (∀ w ∈ regs, w.len = 0) → lowestHit (watchIn regs k eng loc a n scopeOk) = none)) ∧
  (
    ∀ (s : State) (h : Hdr) (f : VF) (n : Nat),
      let e := s.env h
      let u := s.beginIssue h
      let enable := fun b => u.modGroup s.iss.core s.iss.slot fun g => { g with sampleOn := b }
      (NibIssues s (.sampleMark h f) h n → exec (.sampleMark h f) s =
        .next (u.sampleRecord e 0x11 (bytesOf 4 (e.src32 n f.a).toNat ++ bytesOf 4 0 ++ bytesOf 8 s.iss.pc.toNat))) ∧
      (NibIssues s (.sampleOn h f) h n → exec (.sampleOn h f) s = .next (enable true)) ∧
      (NibIssues s (.sampleOff h f) h n → exec (.sampleOff h f) s = .next (enable false)) ∧
      (Issues s (.logm h f) → exec (.logm h f) s = .next ((s.active h).foldl (fun t l => t.sampleRecord e 0x12
        (bytesOf 8 s.iss.pc.toNat ++ bytesOf 4 l ++ bytesOf 4 0 ++ (e.srcN l f.a 4).flatMap fun x => bytesOf 4 x.toNat)) u)))

/-! ## Global memory access -/

/-- The checks of a lane's global access come in the order of R12: ALIGN; translation; rights, where an agent also writes nothing that
only Nopol root writes; tag; watch; data. The first that fails is the fault, with the access's address, and for WATCH that of the first
byte matched; where none fails the access has its physical address and leaf. That tag and data are judged at the access's place in its
group's order, behind the entries of the group's store queue, and only where a nearer cache or a link reaches them and, for an access
that is queued, where no tag write or renewal of the granule is on its way, is the model's choice (log 10): what the access meets at its
home is judged there, and a home that cannot be reached is REMOTE there. So is the byte that WATCH reports (log 38).

Each lane of a memory instruction is checked alone, in ascending order (R48, R163, R215): one whose walk waits stands at the
instruction; one that fails takes its fault and makes no access, or is parked where firmware serves the fault; the others make theirs.
Accesses of the instruction to one line are then merged (R176). How many walks stand at once is the model's choice (log 11). -/
def Obligations.ChecksOfAccesses : Prop :=
  (
    ∀ (s u : State) (e : Env) (l : Nat) (q : Ask) (pa : Nat) (pte : W64),
      let aligned := q.va.toNat % q.align = 0
      let own := (s.group e.core e.slot).sq
      let near := q.near.bind fun sc => u.nearLine e.core sc pa q.bytes pte
      let known := (near.isSome = true ∨ u.linked (q.die.getD (dieOf e.core)) (homeDie pa) = true) ∧
        ¬(q.later = true ∧ u.renewing (pa / 64) = true)
      let rights := rightsOk q.va pte q.need (e.slot == 63) = true ∧ ¬(e.slot = 63 ∧ q.need.w = true ∧ u.rootOnly pa q.bytes = true)
      let tag := ownTag own (pa / 64) (tagOf (near.elim (u.metaAt pa) fun x => x.metaAt pa))
      let tagBad := q.tagck = true ∧ u.tagOn e.g.ctx pte = true ∧ known ∧ u.tagMatch e.g.ctx (ptrTag q.va) tag = false
      let dataBad := q.ecc = true ∧ known ∧ (∀ r ∈ own, r.renews (pa / 64) = false) ∧
        near.elim (u.bad pa q.bytes) (fun x => poisonOf (x.metaAt pa)) = true
      (¬aligned → s.check e l q = (.error { code := cALIGN, addr := q.va }, s)) ∧
      (∀ c, aligned → s.heldXlate e.core e.g.ctx q.old q.va = (.error c, u) →
        s.check e l q = (.error { code := c, addr := q.va }, u)) ∧
      (aligned → s.heldXlate e.core e.g.ctx q.old q.va = (.ok (pa, pte), u) →
        (¬rights → s.check e l q = (.error { code := cPERM, addr := q.va }, u)) ∧
        (rights → tagBad → s.check e l q = (.error { code := cTAG, addr := q.va }, u)) ∧
        (rights → ¬tagBad → ∀ n off, s.laneWatch e l q pa = some (n, off) →
          s.check e l q = (.error { code := cWATCH, addr := q.va + BitVec.ofNat 64 off, num := BitVec.ofNat 16 n }, u)) ∧
        (rights → ¬tagBad → s.laneWatch e l q pa = none → dataBad → (s.check e l q).1 = .error { code := cECC, addr := q.va }) ∧
        (rights → ¬tagBad → s.laneWatch e l q pa = none → ¬dataBad → s.check e l q = (.ok (pa, pte), u)))) ∧
  (
    (∀ (s : State) (e : Env) (ls : List Nat) (ask : Nat → Ask) (go : Nat → Nat → W64 → State → State),
      let r := ls.foldl (fun (x : State × List Nat) l => x.1.oneLane e x.2 l (ask l) (go l)) (s, [])
      s.eachLane e ls ask go = (r.1.modGroup e.core e.slot fun g => g.merge s.nextId, r.2)) ∧
    (∀ (s : State) (e : Env) (ok : List Nat) (l : Nat) (q : Ask) (go : Nat → W64 → State → State),
      (s.checkWaits e q = true → s.oneLane e ok l q go = (s.waitAt e [l] (.reach q.va 0), ok)) ∧
      (s.checkWaits e q = false →
        (∀ f u, s.check e l { q with later := true } = (.error f, u) → s.oneLane e ok l q go = (u.raise e l f, ok)) ∧
        (∀ pa pte u, s.check e l { q with later := true } = (.ok (pa, pte), u) → s.oneLane e ok l q go = (go pa pte u, ok ++ [l])))) ∧
    (∀ (s : State) (e : Env) (l : Nat) (f : FaultRec),
      (¬(f.code = cXLATE ∧ s.served e.g.ctx f.addr = true) → s.raise e l f = s.precise e.core e.slot l e.pc f) ∧
      (f.code = cXLATE → s.served e.g.ctx f.addr = true → s.raise e l f =
        (s.park e.core e.slot l e.pc f).modLane e.core e.slot l fun x => { x with wskip := (e.g.lane l).wskip })))

/-- Loads issue (R217, R219, R220, R223): where the checks of the participating lanes pass and the core holds their translations, LD,
LDC, LDS and LDTAG put one outstanding load for each lane, under rising identifiers, into the group's list, with the address, size,
destination and scope of the instruction; an acquire then makes the lanes wait for their loads; every byte of memory, every register and
everything else is as the advance leaves it. LDS loads for the lowest participating lane only. That translation and checks come at issue
is the model's choice (log 10).

An outstanding load is served (R172, R178, R180): not before its group's earlier loads and atomics with a result; with every byte from
the group's own earlier stores it takes theirs; where none of them overlaps it, it takes the bytes of a nearer cache that holds the line,
else at its home those of memory there, or the granule's tag; a home on another die is asked by a packet, and the load waits for its
reply; a tag that does not match, poison, a stack that holds its data too long and a link that is down are its fault, delivered to its
lane (R224, R237, R298, R326). A load that is served leaves the group's loads, and its value arrives; in the ordered-sum area of a live
launch the value is free, since R273 defines none. That a load waits for the earlier loads of its group is the model's choice (log 34),
and so is how long a nearer cache keeps a line (log 13). -/
def Obligations.Loads : Prop :=
  (
    ∀ (s : State) (h : Hdr) (f : MF) (pa : Nat → Nat) (pte : Nat → W64),
      let e := s.env h
      let u := s.beginIssue h
      let pass := fun (q : Nat → Ask) (ls : List Nat) => ∀ l ∈ ls,
        ((u.core s.iss.core).leaf e.g.ctx (q l).va).isSome = true ∧ (u.check e l { q l with later := true }).1 = .ok (pa l, pte l)
      let acc := fun (k l : Nat) (sc : Scope) (o : Order) => ({
        id := s.nextId + k
        lane := l
        ctx := e.g.ctx
        va := e.va l f
        pa := pa l
        pc := s.iss.pc
        scope := sc
        order := o
        policy := f.policy
        tagck := (pte l).getLsbD 50
        rdc := (pte l).getLsbD 51 } : Access)
      let load := fun (sc : Scope) (o : Order) (k l : Nat) => ({
        acc := acc k l sc o
        bytes := f.size.bytes
        dst := e.dest l f.d f.size.regs f.size.bytes f.sext } : LoadReq)
      let tag := fun (k l : Nat) => ({
        acc := acc k l f.scope f.order
        bytes := 1
        dst := e.dest l f.d 1 4 false
        tag := true } : LoadReq)
      let queued := fun (ls : List Nat) (rs : List LoadReq) => ({ (u.modGroup s.iss.core s.iss.slot fun g =>
        ({ g with loads := g.loads ++ rs } : Group).merge s.nextId) with nextId := s.nextId + ls.length } : State)
      let full := fun (sc : Scope) (l : Nat) => loadAsk (e.va l f) f.size.bytes sc
      let act := s.active h
      (Issues s (.ld h f) → pass (full f.scope) act → exec (.ld h f) s =
        .next ((queued act (mapFrom (load f.scope f.order) 0 act)).acquired e f.order act)) ∧
      (Issues s (.ldc h f) → pass (full .c) act → exec (.ldc h f) s = .next (queued act (mapFrom (load .c .relaxed) 0 act))) ∧
      (Issues s (.lds h f) → pass (full f.scope) (act.take 1) → exec (.lds h f) s =
        .next ((queued (act.take 1) (mapFrom (load f.scope f.order) 0 (act.take 1))).acquired e f.order (act.take 1))) ∧
      (Issues s (.ldtag h f) → pass (fun l => { va := e.va l f, bytes := 1, need := { r := true } }) act →
        exec (.ldtag h f) s = .next ((queued act (mapFrom tag 0 act)).acquired e f.order act))) ∧
  (
    (∀ (s : State) (c n i : Nat), (s.group c n).loads[i]? = none → exec (.loadDataReturn c n i) s = .next s) ∧
    (∀ (s : State) (c n i : Nat) (r : LoadReq), (s.group c n).loads[i]? = some r →
      let g := s.group c n
      let a := r.acc
      let pte : W64 := if a.rdc then 0x0008_0000_0000_0000 else 0
      let fill := s.fills c a.scope a.policy a.pa pte
      let line := s.nearLine c a.scope a.pa r.bytes pte
      let size := if r.tag then 1 else r.bytes
      let turn := g.loadTurn a.id = true ∧ a.stage = .queued
      let clear := 0 < r.bytes ∧ ∀ p ∈ rangeFrom a.pa r.bytes, fwdByte g.sq a.id p r.tag = .memory ∨ s.inSlot p = true
      let ends := fun (t : State) => exec (.loadDataReturn c n i) s = .next t
      let gives := fun (u : State) (x : Nat) => ends (u.loadDone c n r x)
      let home := homeDie a.pa = dieOf c ∧ (s.held a.pa = true → s.homeHit a.pa size = true)
      let ask : Pkt := {
        op := if r.tag then 0x0C else 0x01
        src := 0
        dst := 0
        scope := a.scope
        order := a.order
        tag := ptrTag a.va
        policy := a.policy
        ctx := a.ctx
        aop := if r.tag then 0 else readSectors (a.block r.bytes)
        addr := if r.tag then a.pa / 64 * 64 else a.pa / 128 * 128 }
      (¬turn → ends s) ∧
      (turn → r.tag = false → (∀ p ∈ rangeFrom a.pa r.bytes, s.inSlot p = false) → ∀ bs,
        (rangeFrom a.pa r.bytes).map (fun p => fwdByte g.sq a.id p false) = bs.map Fwd.value → gives s (ofBytes bs)) ∧
      (turn → clear → r.tag = false → ∀ x, line = some x →
        (s.loadFault r (x.metaAt a.pa) (poisonOf (x.metaAt a.pa)) = none →
          gives (s.servedNear c a.scope a.policy x fill.1) (ofBytes ((x.data.drop (a.pa % 128)).take r.bytes))) ∧
        (∀ code, s.loadFault r (x.metaAt a.pa) (poisonOf (x.metaAt a.pa)) = some code → ends (s.loadFail c n r code))) ∧
      (turn → clear → r.tag = false → line = none → home → s.loadFault r (s.metaAt a.pa) (s.bad a.pa r.bytes) = none →
        let u := (s.homeLoadIn a.pa r.bytes (a.block r.bytes) a.policy).serveFarther c (a.pa / 128)
        gives (u.fillNear c (u.lineOf (dieOf c) (a.pa / 128) (a.block r.bytes)) fill.1 false a.policy u.nextId) (ofBytes (u.bytes a.pa r.bytes))) ∧
      (turn → clear → r.tag = false → line = none → home → s.loadFault r (s.metaAt a.pa) (s.bad a.pa r.bytes) = some cTAG →
        ends (s.loadFail c n r cTAG)) ∧
      (turn → clear → r.tag = false → line = none → home → s.loadFault r (s.metaAt a.pa) (s.bad a.pa r.bytes) = some cECC →
        ends ((s.readArray a.pa r.bytes).loadFail c n r cECC)) ∧
      (turn → clear → r.tag = true ∨ line = none → homeDie a.pa = dieOf c → s.held a.pa = true → s.homeHit a.pa size = false →
        ends (if s.overdue (stackOf a.pa) then s.loadFail c n r cTHERM else s)) ∧
      (turn → clear → r.tag = true → home →
        let u := s.homeLoad a.pa 1 a.policy
        gives u (u.metaAt a.pa).toNat) ∧
      (turn → clear → r.tag = true ∨ line = none → homeDie a.pa ≠ dieOf c →
        (s.request (dieOf c) (.load c n a.id) ask [] = none → ends (s.loadFail c n r cREMOTE)) ∧
        (∀ rid u, s.request (dieOf c) (.load c n a.id) ask [] = some (rid, u) → ends (({ u with nextId := u.nextId + 1 } : State).modGroup c n
          fun k => { k with loads := k.loads.map fun q =>
            if q.acc.id = a.id then { q with acc := { q.acc with stage := .sent rid u.nextId } } else q })))) ∧
    (∀ (s : State) (c n x : Nat) (r : LoadReq),
      let t := s.loadDone c n r x
      let l := (s.group c n).lane r.acc.lane
      (∀ q ∈ (t.group c n).loads, q.acc.id ≠ r.acc.id) ∧ (∀ a, t.byte a = s.byte a) ∧
      (∀ q ∈ (s.group c n).loads, q.acc.id ≠ r.acc.id → q ∈ (t.group c n).loads) ∧
      (((s.core c).groups.find n).isSome = true → r.acc.lane < (s.group c n).lanes.length → l.exited = false → r.dst.scalar = false →
        r.dst.pred = none → (t.group c n).lane r.acc.lane = l.wvs r.dst.reg (r.dst.regs
          (if ∃ k ∈ s.launches, s.osumMeets k r.acc.pa r.bytes = true then
            ofBytes ((upto r.bytes).map fun i => Config.freeByte (s.free + i))
          else x % 2 ^ (8 * r.bytes))))))

/-- Stores and atomics issue (R217, R223, R225 to R227): where no release waits, the core holds the translations and the checks of the
participating lanes pass, ST, STTAG, ATOM, ATOMC and RED put one entry for each lane, under rising identifiers, at the end of the
group's store queue, with the address of the instruction and what it does there; every byte of memory, every register and everything
else is as the advance leaves it, and an acquire makes the lanes wait. A release first waits for the group's earlier accesses (R182).
That translation and checks come at issue is the model's choice (log 10).

The oldest entry of a store queue is performed (R174, R178, R180, R193, R194, R222, R223): not before the entries ahead of it, nor
before earlier loads of its group, and one that no packet carries not before the earlier entries of its group on their way to its line. At
its home it acts at its address as its kind says: a store puts its bytes there, but into the slots of ordered sums, and no other byte
changes where no view is open and no codeword is in error; a tag write sets the granule's tag; an atomic puts the new value and returns
the old, in one step. It then leaves the queue, and what waited for it goes on. A home on another die is sent a packet, and the entry
stays until it is acknowledged (R178); a tag that does not match, poison, and a link that is down are its fault (R224, R237, R298). That
the queue is performed oldest first and passes the core port in the same step is the model's choice (logs 33, 34). -/
def Obligations.Stores : Prop :=
  (
    ∀ (s : State) (h : Hdr) (f : MF) (pa : Nat → Nat) (pte : Nat → W64),
      let e := s.env h
      let u := s.beginIssue h
      let act := s.active h
      let mark := (drainMark e f.scope act).getD s.nextId
      let ready := isRel f.order = false ∨ act = [] ∨ u.drained s.iss.core s.iss.slot f.scope mark = true
      let entry := fun (kind : Nat → StoreKind) (k l : Nat) => ({
        acc := {
          id := s.nextId + k
          lane := l
          ctx := e.g.ctx
          va := e.va l f
          pa := pa l
          pc := s.iss.pc
          scope := f.scope
          order := f.order
          policy := f.policy
          tagck := (pte l).getLsbD 50
          rdc := (pte l).getLsbD 51 }
        kind := kind l } : StoreReq)
      let issues := fun (i : Instr) (q : Nat → Ask) (kind : Nat → StoreKind) => Issues s i →
        (ready → (∀ l ∈ act, ((u.core s.iss.core).leaf e.g.ctx (q l).va).isSome = true ∧
            (u.check e l { q l with later := true }).1 = .ok (pa l, pte l)) → exec i s =
          .next (({ (u.modGroup s.iss.core s.iss.slot fun g =>
            ({ g with sq := g.sq ++ mapFrom (entry kind) 0 act } : Group).merge s.nextId) with
            nextId := s.nextId + act.length } : State).acquired e f.order act)) ∧
        (¬ready → exec i s = .next (u.waitAt e act (.drain f.scope mark)))
      let dst := fun l => e.dest l f.d f.size.regs f.size.bytes false
      let whole := fun l => ({
        va := e.va l f
        bytes := f.size.bytes
        align := f.size.bytes
        need := { w := true }
        kind := some .write
        tagck := true
        ecc := true } : Ask)
      let granule := fun l => ({ va := e.va l f, bytes := 64, align := 64, need := { w := true }, kind := some .write } : Ask)
      issues (.st h f) whole (fun l => .store (e.stored l f)) ∧
      issues (.sttag h f) granule (fun l => .tag (field (e.src32 l f.b) 0 4) (f.mod.getLsbD 0)) ∧
      issues (.atom h f) (atomAsk e f) (fun l => .atom (e.atomOp l f false) (some (dst l))) ∧
      issues (.atomc h f) (atomAsk e f) (fun l => .atom (e.atomOp l f true) (some { dst l with pred := some f.pred.val })) ∧
      issues (.red h f) (atomAsk e f) (fun l => .atom (e.atomOp l f false) none)) ∧
  (
    (∀ (s : State) (c n i : Nat), (s.group c n).sq[i]? = none → exec (.storePerform c n i) s = .next s) ∧
    (∀ (s : State) (c n i : Nat) (q : StoreReq), (s.group c n).sq[i]? = some q →
      let g := s.group c n
      let a := q.acc
      let first := ∀ r ∈ g.sq, a.id ≤ r.acc.id ∨ (r.acc.stage ≠ .queued ∧ (q.packet ≠ none ∨ r.acc.pa / 128 ≠ a.pa / 128))
      let after := ∀ r ∈ g.loads, a.id ≤ r.acc.id
      let ready := first ∧ after ∧ a.stage = .queued
      let near := if q.kind = .writeback then s else s.dropNear c (a.pa / 128)
      let ends := fun (t : State) => exec (.storePerform c n i) s = .next t.collsGo
      let away := homeDie a.pa ≠ dieOf c
      let here := (homeDie a.pa = dieOf c ∨ q.packet = none) ∧ s.linked (dieOf c) (homeDie a.pa) = true
      (¬ready → ends s) ∧
      (ready → away → ∀ p data, q.packet = some (p, data) →
        (near.request (dieOf c) (.store c n a.id) p data = none → ends (s.storeFail c n q cREMOTE)) ∧
        (∀ rid u, near.request (dieOf c) (.store c n a.id) p data = some (rid, u) → ends (({ u with nextId := u.nextId + 1 } : State).modGroup
          c n fun k => { k with sq := k.sq.map fun r =>
            if r.acc.id = a.id then { r with acc := { r.acc with stage := .sent rid u.nextId } } else r }))) ∧
      (ready → away → q.packet = none → s.linked (dieOf c) (homeDie a.pa) = false → ends (s.storeFail c n q cREMOTE)) ∧
      (ready → here → s.held a.pa = true → s.needsStack q = true →
        ends (if q.kind.isAtom = true ∧ s.overdue (stackOf a.pa) = true then s.storeFail c n q cTHERM else s)) ∧
      (ready → here → (s.held a.pa = true → s.needsStack q = false) →
        (s.storeFault q = some cTAG → ends (s.storeFail c n q cTAG)) ∧
        (s.storeFault q = some cECC → ends ((s.readArray a.pa q.length).storeFail c n q cECC)) ∧
        (s.storeFault q = none → s.views = [] →
          let u := near.performHome c n q
          ends (u.1.storeDone c n q u.2)))) ∧
    (∀ (s : State) (c n : Nat) (q : StoreReq),
      let pa := q.acc.pa
      let po := q.acc.policy
      (∀ bs, q.kind = .store bs → s.performHome c n q = (s.homeStoreIn pa bs po q.acc.full, 0)) ∧
      (∀ t z, q.kind = .tag t z → s.performHome c n q = (s.homeTag pa t z, 0)) ∧
      (∀ o d, q.kind = .atom o d → 
        let r := s.homeAtomic pa o (q.acc.block o.bytes) po
        s.performHome c n q = (r.2, r.1)) ∧
      (∀ x, q.kind = .ordered x → s.performHome c n q = (s.homeOrdered (s.group c n).ctx (s.group c n).launch pa
        (orderKey (s.teamOf c n).lin (32 * (s.group c n).grp + q.acc.lane) q.acc.id) x, 0)) ∧
      (q.kind = .writeback → s.performHome c n q = (s.writeback (pa / 128), 0)) ∧
      (∀ lo len x, q.kind = .setBits lo len x →
        s.performHome c n q = (s.homeStore pa (setBitsOf (s.bytes pa 64) lo len x) po, 0))) ∧
    (∀ (s : State) (pa : Nat) (bs : List Byte) (po : Policy) (full : BitVec 4), s.views = [] → s.gerr = [] → ∀ a,
      (s.homeStoreIn pa bs po full).byte a =
        if pa ≤ a ∧ a < pa + bs.length ∧ s.inSlot a = false then (bs[a - pa]?).getD 0 else s.byte a) ∧
    (∀ (s : State) (pa : Nat) (t : BitVec 4) (z : Bool), s.views = [] → s.gerr = [] →
      let u := s.homeTag pa t z
      tagOf (u.metaAt pa) = t ∧ (z = true → poisonOf (u.metaAt pa) = false) ∧
      (z = false → poisonOf (u.metaAt pa) = poisonOf (s.metaAt pa)) ∧ (∀ a, a / 64 ≠ pa / 64 → u.metaAt a = s.metaAt a) ∧
      (∀ a, u.byte a = if z = true ∧ a / 64 = pa / 64 ∧ s.inSlot a = false then 0 else s.byte a)) ∧
    (∀ (s : State) (pa : Nat) (o : AtomOp) (b : Nat × Nat) (po : Policy), s.gerr = [] →
      let old := BitVec.ofNat 64 (ofBytes (s.bytes pa o.bytes))
      let u := s.homeLoadIn pa o.bytes b po
      (∀ a, u.byte a = s.byte a) ∧ s.homeAtomic pa o b po = (old, u.homeStoreIn pa (bytesOf o.bytes (o.apply old).toNat) po 0)) ∧
    (∀ (s : State) (c n : Nat) (q : StoreReq) (m : W64),
      (∀ r ∈ ((s.storeDone c n q m).group c n).sq, r.acc.id ≠ q.acc.id) ∧ ∀ a, (s.storeDone c n q m).byte a = s.byte a))

/-! ## Local memory, ordered sums, cache control and fences -/

/-- LDL, STL and ATOML (R168, R170, R218, R225, R226): a release first waits for the group's earlier accesses at its scope (R182). Then,
where the local checks of the participating lanes pass, while a line that they touch is absent the whole set waits at the instruction;
else LDL gives each lane the bytes of local memory at its offset in the team's region, STL stores each lane's there in ascending order,
changing no other byte of any memory, and ATOML replaces each lane's value by the operation's and gives it the old one, sub-function 8
with the outcome of its compare.

ATOMO (R194, R228), where the core holds the translations and the checks of the participating lanes pass: with room in the
ordered-sum area of the launch for a contribution of each, an entry of each lane's goes to the end of the group's store queue, under
rising identifiers; a lane alone that finds the area full takes PERM with its address. Contributions to a location are kept, each under
its key of R115, and the location's first value with them; the location itself is unchanged. The key puts the linear team index before
the lane in the team, and that before the order in which the lane issued; the slot's value is x0 with the contributions added one by one
in ascending order of key, each sum rounded to F32. That contributions still queued count against the area, and the place of this PERM in
the order of checks, are the model's choice (log 41). -/
def Obligations.LocalAndOrdered : Prop :=
  (
    ∀ (s : State) (h : Hdr) (f : MF), (∀ l ∈ s.active h, (s.issLane l).exited = false) →
      let e := s.env h
      let u := s.beginIssue h
      let act := s.active h
      let n := f.size.bytes
      let c := s.iss.core
      let at_ := fun l => 128 * e.team.lbase + e.la l f
      let old := fun (t : State) l => BitVec.ofNat 64 (ofBytes ((t.core c).lbytes (at_ l) n))
      let lines := sortDedup (act.flatMap fun l => teamLines e.team (e.la l f) n)
      let dst := fun l => e.dest l f.d f.size.regs n false
      let present := (s.core c).present lines = true
      let pass := fun k => ∀ l ∈ act, u.localFault e l (e.la l f) n n k = none
      let waits := fun i => ¬present → exec i s = .next (u.waitAt e s.iss.lanes (.lines lines))
      let out := fun a => ∀ l ∈ act, a < at_ l ∨ at_ l + n ≤ a
      let mark := (drainMark e f.scope act).getD s.nextId
      let ready := isRel f.order = false ∨ act = [] ∨ u.drained c s.iss.slot f.scope mark = true
      (¬ready → ∀ i ∈ [Instr.ldl h f, Instr.stl h f, Instr.atoml h f], Issues s i →
        exec i s = .next (u.waitAt e act (.drain f.scope mark))) ∧
      (Issues s (.ldl h f) → ready → pass .read → waits (.ldl h f) ∧ (present → ∃ t, exec (.ldl h f) s = .next t ∧
        Computes s t h [(f.d, fun l => (destOf f.d f.size.regs n f.sext).regs (ofBytes ((s.core c).lbytes (at_ l) n)))] [])) ∧
      (Issues s (.stl h f) → ready → pass .write → waits (.stl h f) ∧ (present → ∃ t, exec (.stl h f) s = .next t ∧
        t = act.foldl (fun t l => t.lwrite c (at_ l) (e.stored l f)) u ∧ (∀ a, t.byte a = s.byte a) ∧
        (∀ k, k ≠ c → t.core k = s.core k) ∧ ∀ a, out a → (t.core c).lmem.get 0 a = (s.core c).lmem.get 0 a)) ∧
      (Issues s (.atoml h f) → ready → pass .atomic → waits (.atoml h f) ∧ (present → exec (.atoml h f) s = .next (act.foldl
        (fun t l =>
          let o := e.atomOp l f (f.sub == 8)
          let m := old t l
          (t.lwrite c (at_ l) (bytesOf n (o.apply m).toNat)).arrive c s.iss.slot l
            { dst l with pred := if f.sub == 8 then some f.pred.val else none } m.toNat (m == o.compare)) u)))) ∧
  (
    (∀ (s : State) (h : Hdr) (f : MF) (pa : Nat → Nat) (pte : Nat → W64), Issues s (.atomo h f) →
      let e := s.env h
      let u := s.beginIssue h
      let act := s.active h
      let entry := fun (k l : Nat) => ({
        acc := {
          id := s.nextId + k
          lane := l
          ctx := e.g.ctx
          va := e.va l f
          pa := pa l
          pc := s.iss.pc
          scope := f.scope
          order := f.order
          policy := f.policy
          tagck := (pte l).getLsbD 50
          rdc := (pte l).getLsbD 51 }
        kind := .ordered (e.src32 l f.b) } : StoreReq)
      (∀ l ∈ act, ((u.core s.iss.core).leaf e.g.ctx (e.va l f)).isSome = true ∧
        (u.check e l { atomAsk e f l with later := true }).1 = .ok (pa l, pte l)) →
      (u.contributions e.g.ctx e.g.launch + act.length ≤ e.word 24 → exec (.atomo h f) s =
        .next { (u.modGroup s.iss.core s.iss.slot fun g => { g with sq := g.sq ++ mapFrom entry 0 act }) with
          nextId := s.nextId + act.length }) ∧
      (∀ l, act = [l] → e.word 24 ≤ u.contributions e.g.ctx e.g.launch →
        exec (.atomo h f) s = .next (u.raise e l { code := cPERM, addr := e.va l f }))) ∧
    (∀ (s : State) (ctx launch pa key : Nat) (x : W32) (l : Launch), s.launch ctx launch = some l →
      let t := s.homeOrdered ctx launch pa key x
      (∀ a, t.byte a = s.byte a) ∧ ∃ k, t.launch ctx launch = some k ∧
      ((∀ o ∈ l.slots, o.pa ≠ pa) → k.slots = l.slots ++ [{ pa := pa, x0 := s.read32 pa, contrib := [(key, x)] }]) ∧
      ((∃ o ∈ l.slots, o.pa = pa) → k.slots = l.slots.map fun o =>
        if o.pa = pa then { o with contrib := o.contrib ++ [(key, x)] } else o)) ∧
    (∀ (s : State) (c slot : Nat) (q : StoreReq) (x : W32), q.kind = .ordered x →
      let g := s.group c slot
      s.performHome c slot q = (s.homeOrdered g.ctx g.launch q.acc.pa
        (orderKey (s.teamOf c slot).lin (32 * g.grp + q.acc.lane) q.acc.id) x, 0)) ∧
    (∀ t u i j m n : Nat, i < 1024 → j < 1024 → m < 2 ^ 64 → n < 2 ^ 64 →
      (orderKey t i m < orderKey u j n ↔ t < u ∨ (t = u ∧ (i < j ∨ (i = j ∧ m < n))))) ∧
    (∀ (o : Slot) (xs : List (Nat × W32)), xs.Perm o.contrib → xs.Pairwise (fun a b => a.1 < b.1) →
      o.value = BitVec.ofNat 32 (xs.foldl (fun v x => faddBits fF32 .rne v x.2.toNat) o.x0.toNat)))

/-- PREF, CCTL, the fences, CBSEAL and CBWAIT (R185, R186, R221, R222, R229 to R231). PREF waits for nothing; a CCTL takes effect once
the loads of the participating lanes have returned; a release once the group's earlier accesses are performed at its scope, and an
acquire removes the lines of its scope; FENCEO marks the group's stores; FENCEX starts, as a release, once the group's own earlier
accesses are performed, and then waits for the stores marked within its scope until then, while no cache within the scope keeps a line:
that it takes the marks at this moment is the model's choice (log 70); FENCEP first waits for the lanes' requests to remote devices.
What must wait makes its participating lanes stand at the instruction. Which marked stores it waits for is the model's reading too (log
42). -/
def Obligations.CacheAndFences : Prop :=
  ∀ (s : State) (h : Hdr) (f : MF),
    let e := s.env h
    let u := s.beginIssue h
    let act := s.active h
    let c := s.iss.core
    let n := s.iss.slot
    let loaded := act.all (fun l => (u.group c n).loadsDone l) = true
    let readable := fun l => ({ va := e.va l f, bytes := 1, need := { r := true } } : Ask)
    let lined := fun (i : Instr) (go : Nat → Nat → W64 → State → State) => Issues s i →
      (loaded → exec i s = .next (u.eachLane e act readable go).1) ∧ (¬loaded → exec i s = .next (u.waitAt e act .loads))
    let all := fun (i : Instr) (t : State) => Issues s i → act ≠ [] →
      (loaded → exec i s = .next t) ∧ (¬loaded → exec i s = .next (u.waitAt e act .loads))
    let drained := fun (sc : Scope) => u.drained c n sc ((drainMark e sc act).getD u.nextId) = true
    let drains := fun (sc : Scope) => u.waitAt e act (.drain sc ((drainMark e sc act).getD u.nextId))
    let marks := u.fenceoMarks c f.scope
    let empty := u.emptyWithin c f.scope
    let remote := act.all (fun l => u.remoteDone c n l u.nextId) = true
    let sticky := fun l => ((u.context e.g.ctx).getD {}).stickyWord ((e.src32 l f.b).toNat / 32 * 32)
    (Issues s (.pref h f) → exec (.pref h f) s = .next (act.foldl (fun t l => t.prefetchLane e f l) u)) ∧
    lined (.cctlIl1 h f) (fun _ pa _ t => t.modCore c fun k => { k with l1 := dropLine k.l1 (pa / 128) }) ∧
    lined (.cctlIrd h f) (fun _ pa _ t => t.modDie (dieOf c) fun d => { d with rdc := dropLine d.rdc (pa / 128) }) ∧
    lined (.cctlWb h f) (fun l pa pte t =>
      let (a, t) := t.access e l f (e.va l f) (pa / 128 * 128) pte
      t.pushStore c n { acc := a, kind := .writeback }) ∧
    all (.cctlIl1all h f) (u.modCore c fun k => { k with l1 := [], acq := u.nextId }) ∧
    all (.cctlIrdall h f) (u.modDie (dieOf c) fun d => { d with rdc := [], acq := u.nextId }) ∧
    (isRel f.order = false → all (.fence h f) (u.acquire c f.scope)) ∧
    (isRel f.order = true → Issues s (.fence h f) → act ≠ [] →
      (drained f.scope → exec (.fence h f) s = .next (if isAcq f.order then u.acquire c f.scope else u)) ∧
      (¬drained f.scope → exec (.fence h f) s = .next (drains f.scope))) ∧
    (Issues s (.fenceo h f) → act ≠ [] →
      exec (.fenceo h f) s = .next (u.modGroup c n fun g => { g with fenceo := u.nextId })) ∧
    (Issues s (.fencex h f) → act ≠ [] →
      (e.begun = true → exec (.fencex h f) s = .next (u.acquire c f.scope)) ∧
      (e.begun = false → ¬drained f.scope → exec (.fencex h f) s = .next (drains f.scope)) ∧
      (e.begun = false → drained f.scope → marks = [] → exec (.fencex h f) s = .next (empty.acquire c f.scope)) ∧
      (e.begun = false → drained f.scope → marks ≠ [] → exec (.fencex h f) s = .next (empty.waitAt e act (.cores marks)))) ∧
    (Issues s (.fencep h f) → act ≠ [] →
      (¬remote → exec (.fencep h f) s = .next (u.waitAt e act (.remote u.nextId))) ∧
      (remote → ¬drained .s → exec (.fencep h f) s = .next (drains .s)) ∧
      (remote → drained .s → f.mod.getLsbD 0 = false →
        exec (.fencep h f) s = .next ((u.acquire c .s).writeD e f.d fun l => [sticky l])) ∧
      (remote → drained .s → f.mod.getLsbD 0 = true → exec (.fencep h f) s =
        .next (((u.acquire c .s).writeD e f.d fun l => [sticky l]).modContext e.g.ctx fun x => { x with
          sticky := x.sticky.filter fun r => !(act.any fun l => let base := (e.src32 l f.b).toNat / 32 * 32
            base ≤ r && r < base + 32 && (sticky l).getLsbD (r - base)) }))) ∧
    (Issues s (.cbseal h f) → exec (.cbseal h f) s = .next (act.foldl (fun t l => t.modLane c n l fun x =>
      let b := f.mod.toNat % 16
      { x with batches := SMap.set [] x.batches b (x.batches.get [] b ++ x.unsealed), unsealed := [] }) u)) ∧
    (Issues s (.cbwait h f) → exec (.cbwait h f) s = .next (u.waitAt e
      (act.filter fun l => !((e.g.lane l).batches.get [] (f.mod.toNat % 16)).isEmpty) (.batch (f.mod.toNat % 16))))

/-! ## Barriers and presence -/

/-- The barrier unit (R250): arrivals saturate at 63; a landing of another epoch is ignored, one of this epoch adds its bytes, and
completes the transfer part where they are the bytes expected and poisons the phase where they are more; the phase completes when it is
poisoned, or all members have arrived and the transfer part, where one is expected, is complete; then the epoch advances, the phase's
counts are cleared, and the expectation too unless it is kept. An event on a barrier without members is ignored; one that does not
complete the phase only changes the counts; one that does stores the next phase, gives each armed group of the team a vectored wake
(R253), and lets the lanes that wait in BWAIT on the barrier go on after it, or, in a poisoned phase, take BARRIER (R252).

The barrier instructions (R236, R251 to R253): the nib lane takes BARRIER on a barrier that the instruction may not use, and only
that lane; BINIT sets members and keep and clears the rest but the epoch; BINV clears it all; BEXPECT, and BARRIVE once the group's
earlier accesses are performed at scope .T, are events of the unit; BWAIT and BTEST read the phase that has passed, with an acquire of
scope .T, and a BWAIT whose phase has not passed makes its lanes wait; BARM arms the group's vectored wake, or where the phase has
passed does what a BWAIT does. The form of waiting is the model's (log 27). -/
def Obligations.Barriers : Prop :=
  (
    (∀ (x : Barrier) (k : Nat), (x.arrive k).arr.toNat = Nat.min (x.arr.toNat + k) 63 ∧
      x.arrive k = { x with arr := (x.arrive k).arr }) ∧
    (∀ (x : Barrier) (n : W32), x.expect n = { x with xbytes := x.xbytes + n, tu := true }) ∧
    (∀ (x : Barrier) (n : Nat) (ep : BitVec 16), (ep ≠ x.epoch → x.land n ep = x) ∧
      (ep = x.epoch → (x.land n ep).got = x.got + BitVec.ofNat 32 n ∧
        x.land n ep = { x with got := (x.land n ep).got, tuarr := (x.land n ep).tuarr, poison := (x.land n ep).poison } ∧
        ((x.land n ep).tuarr = true ↔ x.tuarr = true ∨ (x.tu = true ∧ (x.land n ep).got = x.xbytes)) ∧
        ((x.land n ep).poison = true ↔ x.poison = true ∨ (x.tu = true ∧ x.xbytes.toNat < (x.land n ep).got.toNat)))) ∧
    (∀ x : Barrier, x.complete = true ↔
      x.poison = true ∨ (x.members.toNat ≤ x.arr.toNat ∧ (x.tu = false ∨ x.tuarr = true))) ∧
    (∀ x : Barrier, x.next = { x with
      plast := x.poison, epoch := x.epoch + 1, waiters := 0, armed := 0, arr := 0, got := 0, tuarr := false, poison := false,
      xbytes := if x.keep then x.xbytes else 0, tu := x.keep && x.tu }) ∧
    (∀ (s : State) (c p b : Nat) (f : Barrier → Barrier), ((s.team c p).bar b).members = 0 → s.barEvent c p b f = s) ∧
    (∀ (s : State) (c p b : Nat) (f : Barrier → Barrier), ((s.team c p).bar b).members ≠ 0 →
      (f ((s.team c p).bar b)).complete = false → s.barEvent c p b f = s.setBar c p b (f ((s.team c p).bar b))) ∧
    (∀ (s : State) (c p b : Nat) (f : Barrier → Barrier), ((s.team c p).bar b).members ≠ 0 →
      let y := f ((s.team c p).bar b)
      let wake : Wake := { handler := y.handler, link := y.link, poison := y.poison }
      y.complete = true → ((s.barEvent c p b f).team c p).bar b = y.next ∧
        s.barEvent c p b f = (s.core c).groups.foldl (fun u x =>
          if x.2.place = some p then
            let v := if maskBit y.armed x.2.grp then u.modGroup c x.1 fun g => { g with vector := g.vector ++ [wake] } else u
            if maskBit y.waiters x.2.grp then v.wakeGroup c x.1 b y.poison else v
          else u) (s.setBar c p b y.next)) ∧
    (∀ (s : State) (c n b : Nat),
      let waiting := places (fun (l : Lane) => l.wait == .bwait b) (s.group c n).lanes
      (s.wakeGroup c n b false).group c n = { s.group c n with
        lanes := (s.group c n).lanes.map fun l => if l.wait = .bwait b then { l.setCur (l.cur + 12) with wait := .none } else l } ∧
      s.wakeGroup c n b true = waiting.foldl (fun u l =>
        let pc := ((u.group c n).lane l).cur
        (u.modLane c n l fun x => { x.setCur (pc + 12) with wait := .none }).takeFault c n l { code := cBARRIER, pc := pc } (pc + 12)) s)) ∧
  (
    ∀ (s : State) (h : Hdr) (f : EF) (n p : Nat), (s.env h).g.place = some p →
      let e := s.env h
      let u := s.beginIssue h
      let c := s.iss.core
      let x := e.team.bar f.bar.val
      let member := 2 ^ e.g.grp
      let bars := u.barBusy c p f.bar.val = true
      let held := x.waiters ≠ 0 ∨ x.armed ≠ 0 ∨ bars
      let traps := (s.active h).any (fun l => (e.g.lane l).trap) = true
      let passed := x.epoch.getLsbD 0 ≠ f.mod.getLsbD 0
      let mark := (drainMark e .t s.iss.lanes).getD u.nextId
      let does := fun (i : Instr) (bad : Prop) (t : State) => NibIssues s i h n →
        (bad → exec i s = .next (u.raise e n { code := cBARRIER })) ∧ (¬bad → exec i s = .next t)
      does (.binit h f) held (u.setBar c p f.bar.val { members := field f.mod 0 6, keep := f.mod.getLsbD 6, epoch := x.epoch }) ∧
      does (.binv h f) held (u.setBar c p f.bar.val {}) ∧
      does (.bexpect h f) (x.members = 0) (u.barEvent c p f.bar.val fun x => x.expect (e.src32 n f.b)) ∧
      does (.barrive h f) (x.members = 0)
        (if u.drained c s.iss.slot .t mark = true then u.barEvent c p f.bar.val fun x => x.arrive (f.mod.toNat % 64)
          else u.waitAt e s.iss.lanes (.drain .t mark)) ∧
      (passed → does (.bwait h f) (x.members = 0 ∨ traps) (u.phasePassed e x)) ∧
      (¬passed → does (.bwait h f) (x.members = 0 ∨ traps)
        ((u.setBar c p f.bar.val { x with waiters := x.waiters ||| BitVec.ofNat 16 member }).waitLanes (s.active h)
          (.bwait f.bar.val))) ∧
      (passed → does (.btest h f) (x.members = 0) ((u.nibD e f.d [if x.plast then 3 else 1]).acquire c .t)) ∧
      (¬passed → does (.btest h f) (x.members = 0) (u.nibD e f.d [0])) ∧
      (passed → does (.barm h f) (x.members = 0) (u.phasePassed e x)) ∧
      (¬passed → does (.barm h f)
        (x.members = 0 ∨ (x.armed ≠ 0 ∧ (x.handler ≠ e.src64 n false f.a ∨ x.link ≠ f.d.field)))
        (u.setBar c p f.bar.val { x with
          handler := e.src64 n false f.a, link := f.d.field, armed := x.armed ||| BitVec.ofNat 16 member })))

/-- A passed phase is an acquire of scope .T, or where it was poisoned BARRIER for each participating lane, which resumes after the
instruction (R252); a vectored wake sends each lane that it takes to the handler, with the lane's PC in the link pair (R253), and in a
poisoned phase, where the group has a handler for faults, each such lane takes BARRIER there: that it has its link pair and resumes at
the wake's handler is the model's reading (log 43). It takes the lanes that are in no wait but that of a JOIN, a SYNCG or a SYNCT, the
release at the arrival of the latter two included. PCLR clears the presence of the lines in its range and PTEST tests it, and a range
outside the team's region is PERM (R254); the lines of a transfer that ends become present, but for those that another still writes
(R169). -/
def Obligations.WakesAndPresence : Prop :=
  (∀ (s : State) (e : Env) (x : Barrier), (x.plast = false → s.phasePassed e x = s.acquire e.core .t) ∧
    (x.plast = true → s.phasePassed e x = e.active.foldl
      (fun t l => t.takeFault e.core e.slot l { code := cBARRIER, pc := e.pc } (e.pc + 12)) s)) ∧
  (∀ (s : State) (c n : Nat) (w : Wake) (rest : List Wake) (l : Nat),
    ((s.core c).groups.find n).isSome = true → (s.group c n).vector = w :: rest → w.poison = false →
    l < (s.group c n).lanes.length → ∃ t, exec (.barmVectoring c n) s = .next t ∧
      (t.group c n).vector = rest ∧ (t.group c n).lane l = (if ((s.group c n).lane l).vectored = true then
        { (((s.group c n).lane l).wvs (w.link.toNat % 512) (valRegs true ((s.group c n).lane l).pc)) with
          pc := w.handler, wait := .none }
      else (s.group c n).lane l)) ∧
  (∀ (s : State) (c n : Nat) (w : Wake) (rest : List Wake) (l : Nat),
    let x := (s.group c n).lane l
    let f : FaultRec := { code := cBARRIER, pc := w.handler }
    ((s.core c).groups.find n).isSome = true → n ≠ 63 → s.trapAddr (s.group c n) ≠ 0 → (s.group c n).vector = w :: rest →
    w.poison = true → l < (s.group c n).lanes.length → ∃ t, exec (.barmVectoring c n) s = .next t ∧
      (t.group c n).vector = rest ∧ (t.group c n).lane l = (if x.vectored = true then
        { (x.wvs (w.link.toNat % 512) (valRegs true x.pc)) with
          pc := w.handler
          wait := .none
          trap := true
          tpc := s.trapAddr (s.group c n)
          parked := none
          tcause := tcauseOf f l
          taddr := f.addr
          tpcr := w.handler
          tseq := f.seq
          tret := w.handler }
      else x)) ∧
  (∀ l : Lane, l.vectored = true ↔ l.exited = false ∧ l.parked = none ∧ l.late = none ∧ l.trap = false ∧
    (l.wait = .none ∨ l.wait = .join ∨ l.wait = .syncg ∨ l.wait = .synct ∨ l.wait = .synctRole ∨
      ∃ sc m, l.wait = .cond (.drain sc m true))) ∧
  (∀ (s : State) (c : Nat) (lines : List Nat),
    let t := s.linesPresent c lines
    (∀ l, l ∈ (t.core c).absent ↔ l ∈ (s.core c).absent ∧ (l ∉ lines ∨ s.lineTargeted c l = true)) ∧
    (∀ j, j ≠ c → t.core j = s.core j) ∧ (∀ a, t.byte a = s.byte a)) ∧
  (∀ (s : State) (h : Hdr) (f : EF) (n : Nat),
    let e := s.env h
    let u := s.beginIssue h
    let a := (e.src32 n f.a).toNat
    let k := (e.src32 n f.b).toNat
    let outside := k ≠ 0 ∧ 128 * e.team.lines < a + k
    let perm := u.raise e n { code := cPERM, addr := BitVec.ofNat 64 a }
    let hits := lowestHit (u.watchGroup s.iss.core s.iss.slot e.g.watch n .write false true a k)
    let watched := (e.g.lane n).wskip ≠ some s.iss.pc ∧ k ≠ 0
    (NibIssues s (.pclr h f) h n → (outside → exec (.pclr h f) s = .next perm) ∧
      (¬outside → ∀ i off, watched → hits = some (i, off) → exec (.pclr h f) s = .next (u.raise e n
        { code := cWATCH, addr := BitVec.ofNat 64 (a + off), num := BitVec.ofNat 16 i })) ∧
      (¬outside → (watched → hits = none) → exec (.pclr h f) s =
        .next (u.modCore s.iss.core fun x => x.clearPresence (teamLines e.team a k)))) ∧
    (NibIssues s (.ptest h f) h n → (outside → exec (.ptest h f) s = .next perm) ∧
      (¬outside → exec (.ptest h f) s = .next (u.nibD e f.d
        [if (u.core s.iss.core).present (teamLines e.team a k) then 1 else 0]))))

/-! ## Transfers, shape registers, tensor identifiers and tile handles -/

/-- A transfer issues (R190, R235, R236, R242, R248): CPY.LD, CPY.ST, CPYM, PFT, CPYX, CPYG and CPYS make one command of the nib lane
from the operands and the shape registers; where a check of it fails, that lane alone takes the fault; else an empty one completes its
bytes at issue, and any other takes the core's next sequence number, joins the core's commands after those there, with the barrier's
epoch, its bytes, its destination lines in the team's region, for a CPYM the named cores in which the destination lies in one team of
the context, and the mark before which its group's stores precede it; it clears the presence of its destination lines in every core
that receives it, and, but for a prefetch, counts as a copy of the lane. That a CPYX is empty where either of its shapes is, is the
model's choice (log 72). -/
def Obligations.TransfersIssue : Prop :=
  (∀ (s : State) (h : Hdr) (f : EF) (n : Nat),
    let e := s.env h
    let u := s.beginIssue h
    let base : Cmd := {
      kind := .cpyLd
      seq := 0
      slot := s.iss.slot
      place := e.g.place.getD 0
      lane := n
      ctx := e.g.ctx
      launch := e.g.launch
      pc := s.iss.pc
      bar := f.bar.val
      shape := e.team.shapes.get 0 f.shp.val }
    let scope := (Scope.ofCode (f.mod.toNat % 8)).getD .g
    let ldst := fun (a : Opnd) => (recField base.shape 440 32 + (e.src32 n a).toNat) % 2 ^ 32
    let org := fun (a : Opnd) => (e.srcN n a 4).map BitVec.toNat
    let tile := { base with org := org f.a, tb := ldst f.b }
    let rows := fun (a b : Opnd) => { base with
      tb := ldst a, count := (e.src32 n b).toNat,
      list := pairVal (e.g.rs (2 * f.spair.val)) (e.g.rs (2 * f.spair.val + 1)) }
    let does := fun (i : Instr) (k : Cmd) => NibIssues s i h n →
      (∀ c a, k.issueFault e.team = some (c, a) → exec i s = .next (u.raise e n { code := c, addr := a })) ∧
      (k.issueFault e.team = none → exec i s = .next (u.startTransfer e n k))
    does (.cpyLd h f) { tile with kind := .cpyLd } ∧
    does (.cpySt h f) { tile with kind := .cpySt, scope := scope } ∧
    does (.cpym h f) { tile with kind := .cpym, mask := field f.mod 0 16 } ∧
    does (.pft h f) { tile with kind := .pft } ∧
    does (.cpyx h f) { base with
      kind := .cpyx, org := org f.a, org2 := org f.d, shape2 := e.team.shapes.get 0 (f.shp.val + 1), scope := scope } ∧
    does (.cpyg h f) { rows f.a f.b with kind := .cpyg } ∧
    does (.cpys h f) { rows f.a f.b with kind := .cpys, scope := scope }) ∧
  (∀ (s : State) (e : Env) (n : Nat) (k : Cmd),
    let seq := (s.core e.core).cmdCtr + 1
    let empty := shapeEmpty k.shape = true ∨ (k.kind = .cpyx ∧ shapeEmpty k.shape2 = true)
    let t := s.startTransfer e n k
    let q : Cmd := { k with
      seq := seq
      lines := if k.kind = .cpySt ∨ k.kind = .cpys ∨ k.kind = .cpyx then [] else teamLines e.team k.tb k.size
      recv := if k.kind = .cpym then s.receivers e.core k.ctx (s.absLocal e.core k.place k.tb) k.size k.mask else 0
      bytes := k.size
      after := s.nextId
      epoch := (e.team.bar k.bar).epoch }
    (empty → t = (s.modCore e.core fun x => { x with cmdCtr := seq }).barEvent e.core k.place k.bar
      fun x => x.land 0 x.epoch) ∧
    (¬empty → (t.core e.core).cmdCtr = seq ∧ (∀ a, t.byte a = s.byte a) ∧ (t.core e.core).cmds = (s.core e.core).cmds ++ [q] ∧
      (∀ j l, l ∈ (t.core j).absent ↔ l ∈ (s.core j).absent ∨ (j ∈ q.targets e.core ∧ l ∈ q.lines)) ∧
      (((s.core e.core).groups.find e.slot).isSome = true → n < (s.group e.core e.slot).lanes.length →
        ((t.group e.core e.slot).lane n).unsealed = ((s.group e.core e.slot).lane n).unsealed ++
          if k.kind = .pft then [] else [seq.toNat]))) ∧
  (∀ (s : State) (c ctx a m i : Nat) (mask : BitVec 16), i < 16 → ((s.receivers c ctx a m mask).getLsbD i = true ↔
    mask.getLsbD i = true ∧ i < Config.coresPerCluster ∧ ∃ x ∈ (s.core (clusterOf c * Config.coresPerCluster + i)).teams,
      x.2.ctx = ctx ∧ 128 * x.2.lbase ≤ a ∧ a + m ≤ 128 * (x.2.lbase + x.2.lines)))

/-- A transfer runs and ends (R22, R231, R237, R241, R247, R248, R250, R298): once it may run, it moves its elements in order to the
first that fails: each element from its spot in the source, zero where that is out of bounds, to its spot in the destination, which is
left alone where it is out of bounds; a gather or scatter reads the index of each row from its list first. Without a failure it lands:
its lines become present, its barrier receives its bytes under the epoch taken at issue, and a CPYM that some named cores did not
receive reports one PERM; a translation fault that firmware serves suspends it at that element; any other is delivered and its barrier
receives a poisoned arrival; a command that may not run, and a name that the core does not hold, leave everything as it is. A transfer
that has ended leaves the core's commands and the batches of its lane. A CPYX to a destination homed on another die is handed to an
engine there, and with the link down ends with REMOTE. Where the two shapes of a CPYX differ in element width the value of an element
read is free, which the spec leaves open (log 8). That the elements of a command move in one step, in ascending order, is the model's
choice (log 15); so is which engine of the die runs a command, whose die performs a CPYX whose tile spans homes, and that prefetches come
after demand copies (log 45). -/
def Obligations.TransfersRun : Prop :=
  (∀ (s : State) (c n : Nat), (s.cmd c n = none → exec (.transferLanding c n) s = .next s ∧
      exec (.engineCommandFault c n) s = .next s ∧ exec (.engineCommandComplete c n) s = .next s ∧
      exec (.cpyxRequest c n) s = .next s) ∧
    ∀ k, s.cmd c n = some k →
      let runs := s.cmdReady c k = true ∧ s.prefetchTurn c k = true
      let ended := (k.targets c).foldl (fun t j => t.linesPresent j k.lines) (s.modCmd c k.seq fun q => { q with done := true })
      let landed := ended.barEvent c k.place k.bar fun x => x.land k.bytes k.epoch
      (¬runs → exec (.transferLanding c n) s = .next s ∧ exec (.engineCommandFault c n) s = .next s) ∧
      (runs → ∀ t, s.runTransfer c k = (t, none) → exec (.transferLanding c n) s = .next (t.endTransfer c k none)) ∧
      (runs → ∀ t i f, s.runTransfer c k = (t, some (i, .fault f)) → exec (.transferLanding c n) s = .next s ∧
        exec (.engineCommandFault c n) s = .next (if f.code = cXLATE ∧ s.served k.ctx f.addr = true then
            t.modCmd c k.seq fun q => { q with start := i, susp := some f.addr, old := [] }
          else t.endTransfer c k (some f))) ∧
      s.endTransfer c k none = (if k.kind = .cpym ∧ k.recv ≠ k.mask then
          landed.engFault c k { code := cPERM, addr := BitVec.ofNat 64 k.tb, num := k.mask &&& ~~~k.recv } else landed) ∧
      (∀ f, s.endTransfer c k (some f) = (ended.engFault c k f).barEvent c k.place k.bar Barrier.poisoned) ∧
      (k.done = false → exec (.engineCommandComplete c n) s = .next s) ∧
      (k.done = true → ∃ t, exec (.engineCommandComplete c n) s = .next t ∧ (∀ a, t.byte a = s.byte a) ∧
        (t.core c).cmds = (s.core c).cmds.filter (fun q => q.seq != k.seq)) ∧
      (k.kind = .cpyx → k.done = false → k.passed = none → s.cpyxDie c k ≠ dieOf c → exec (.cpyxRequest c n) s = .next
        (if s.linked (dieOf c) (s.cpyxDie c k) = false then
          s.endTransfer c k (some { code := cREMOTE, addr := k.firstDst.getD 0 })
        else s.modCmd c k.seq fun q => { q with passed := some (s.cpyxDie c k) }))) ∧
  (∀ (s : State) (c : Nat) (k : Cmd), k.start < k.rowLen →
    let m := k.master c
    (k.kind = .cpym → k.recv = 0 →
      s.runTransfer c k = (s, some (0, .fault { code := cPERM, addr := BitVec.ofNat 64 k.tb, num := k.mask }))) ∧
    (k.kind ≠ .cpyg → k.kind ≠ .cpys → ¬(k.kind = .cpym ∧ k.recv = 0) →
      s.runTransfer c k = State.moveRow m k 0 0 (k.rowLen - k.start) k.start s)) ∧
  (∀ (s : State) (m : Master) (k : Cmd) (row i n : Nat),
    (k.kind = .cpyg ∨ k.kind = .cpys → ∀ bs t, s.engRead m (k.list + BitVec.ofNat 64 (4 * row)) 4 = (.ok bs, t) →
      State.moveRows m k (n + 1) row i s = match State.moveRow m k row (ofBytes bs) (k.rowLen - i) i t with
        | (u, some x) => (u, some x)
        | (u, none) => State.moveRows m k n (row + 1) 0 u) ∧
    (∀ index,
      State.moveRow m k row index 0 i s = (s, none) ∧
      (∀ t, s.moveElem m k row index i = (.ok (), t) →
        State.moveRow m k row index (n + 1) i s = State.moveRow m k row index n (i + 1) t) ∧
      (∀ t x, s.moveElem m k row index i = (.error x, t) →
        State.moveRow m k row index (n + 1) i s = (t, some (row * k.rowLen + i, x))) ∧
      (k.spots row index i = none → s.moveElem m k row index i = (.ok (), s)) ∧
      (∀ src dst, k.spots row index i = some (src, dst) →
        let e := shapeWidth k.shape
        (∀ x t, s.readSpot m k.place e src = (.error x, t) → s.moveElem m k row index i = (.error x, t)) ∧
        let renews := fun (u : State) => match dst with
          | .glob va _ => (match u.mapped m.core m.ctx va with
            | .ok (pa, _) => u.bad pa 1 && k.coversGranule row index va
            | .error _ => false)
          | .loc _ _ => false
        (∀ v t, s.readSpot m k.place e src = (.ok v, t) →
          (k.kind ≠ .cpyx ∨ shapeWidth k.shape2 = e ∨ src = none → s.moveElem m k row index i =
            t.writeSpot m k (if k.kind = .cpyx then shapeWidth k.shape2 else e) (renews t) v dst) ∧
          (k.kind = .cpyx → shapeWidth k.shape2 ≠ e → src ≠ none →
            let a := t.freeWord
            let b := a.2.freeWord
            s.moveElem m k row index i =
              b.2.writeSpot m k (shapeWidth k.shape2) (renews b.2) (pairVal a.1 b.1).toNat dst))))) ∧
  (∀ (s : State) (m : Master) (p e : Nat), s.readSpot m p e none = (.ok 0, s) ∧
    (∀ va hi bs t, s.engRead m va (elemBytes e) = (.ok bs, t) → s.readSpot m p e (some (.glob va hi)) = (.ok (elemOf e hi bs), t)) ∧
    (∀ off hi, s.engLocal m off (elemBytes e) .read = none → s.readSpot m p e (some (.loc off hi)) =
      (.ok (elemOf e hi ((s.core m.core).lbytes (s.absLocal m.core p off) (elemBytes e))), s))) ∧
  (∀ (s : State) (m : Master) (k : Cmd) (e x : Nat) (w : Bool),
    (∀ va hi, s.writeSpot m k e w x (.glob va hi) = s.engWrite m va (elemBytes e) w (elemPut e hi x)) ∧
    (∀ off hi, s.engLocal m off (elemBytes e) .write = none → s.writeSpot m k e w x (.loc off hi) =
      (.ok (), (k.targets m.core).foldl (fun t c => t.lwrite c (s.absLocal m.core k.place off)
        (elemPut e hi x ((t.core c).lbytes (s.absLocal m.core k.place off) (elemBytes e)))) s))) ∧
  (∀ (k : Cmd) (row index i : Nat),
    let src := shapeLayout k.shape
    let xs := boxCoords (shapeBox k.shape) i
    (k.kind = .cpyLd ∨ k.kind = .cpym ∨ k.kind = .pft → k.spots row index i = some (globSpot src k.org xs, k.localSpot i)) ∧
    (k.kind = .cpySt → k.spots row index i = (globSpot src k.org xs).map fun d => (some (k.localSpot i), d)) ∧
    (k.kind = .cpyx → k.spots row index i =
      (globSpot (shapeLayout k.shape2) k.org2 xs).map fun d => (globSpot src k.org xs, d)) ∧
    (k.kind = .cpyg → k.spots row index i = some (globSpot src [] [i, index, 0, 0], k.localSpot (row * k.rowLen + i))) ∧
    (k.kind = .cpys → k.spots row index i =
      (globSpot src [] [i, index, 0, 0]).map fun d => (some (k.localSpot (row * k.rowLen + i)), d)))

/-- GSET, GGET, GLD, GST, TIDLD, TIDSET and THND (R239, R243, R246), where the checks of the access pass and the group's earlier
accesses are performed at scope .P: GSET replaces one field of the team's shape register and GGET reads one; GLD loads a shape
register from 64 bytes; GST stores one; TIDLD puts the 64 bytes into the entry of a tensor identifier as four stores of scope .P,
TIDSET replaces one field of an entry in one access; THND packs two tile coordinates under a tensor identifier, and SHAPE faults where
one does not fit its field. A walk, for the read or the put, or a stack that holds the bytes read makes the set stand at the
instruction and issue it again, which is the model's form of waiting (log 27); a link that is down is REMOTE (R298), a stack that has held
them too long THERM (R326). That a read of another die's memory comes back within the step is the model's choice (log 68). -/
def Obligations.ShapesAndTensors : Prop :=
  ∀ (s : State) (h : Hdr) (f : EF) (n : Nat),
    let e := s.env h
    let u := s.beginIssue h
    let c := s.iss.core
    let va := e.src64 n false f.a
    let shape := e.team.shapes.get 0 f.shp.val
    let mark := (drainMark e .p s.iss.lanes).getD u.nextId
    let drained := u.drained c s.iss.slot .p mark = true
    let read : Ask := {
      va := va
      bytes := 64
      align := 64
      need := { r := true }
      kind := some .read
      tagck := true
      ecc := true }
    let rmw : Ask := {
      va := u.tidAddr e.g.ctx f.tid.toNat
      bytes := 64
      align := 64
      need := { r := true, w := true }
      kind := some .atomic
      tagck := true
      ecc := true
      later := true }
    let dst := u.tidAddr e.g.ctx f.tid.toNat
    let put : Ask := { ask64 dst with ecc := true }
    let waits := fun (q : Ask) => u.waitAt e s.iss.lanes (.reach q.va 0)
    let reads := fun (v : State) (pa : Nat) => v.linked (dieOf c) (homeDie pa) = true ∧ v.stackWaits pa 64 = false ∧
      (v.held pa = true → v.homeHit pa 64 = true)
    let after := fun (v : State) (pa : Nat) =>
      let w := (v.homeLoad pa 64 .normal).readAtHome c (dieOf c) (pa / 128)
      w.softRead pa (w.bytes pa 64)
    let stops := fun (i : Instr) (v : State) (pa : Nat) =>
      (v.linked (dieOf c) (homeDie pa) = false → exec i s = .next (v.raise e n { code := cREMOTE, addr := va })) ∧
      (v.linked (dieOf c) (homeDie pa) = true → v.stackWaits pa 64 = true →
        exec i s = .next (v.waitAt e s.iss.lanes (.reach va 64))) ∧
      (v.linked (dieOf c) (homeDie pa) = true → v.stackWaits pa 64 = false → v.held pa = true → v.homeHit pa 64 = false →
        exec i s = .next (v.raise e n { code := cTHERM, addr := va }))
    (NibIssues s (.gset h f) h n → exec (.gset h f) s = .next (u.setShape e f.shp.val
      (let (lo, len) := shapeField (f.mod.toNat % 32); recSet shape lo len (e.fieldVal n f len)))) ∧
    (NibIssues s (.gget h f) h n → ∃ t, exec (.gget h f) s = .next t ∧ Computes s t h
      [(f.d, fun _ => let (lo, len) := shapeField (f.mod.toNat % 32)
        wordsOf (if 32 < len then 2 else 1) (recField shape lo len))] []) ∧
    (NibIssues s (.gld h f) h n →
      (¬drained → exec (.gld h f) s = .next (u.waitAt e s.iss.lanes (.drain .p mark))) ∧
      (drained → u.checkWaits e read = true → exec (.gld h f) s = .next (waits read)) ∧
      (drained → u.checkWaits e read = false → ∀ pa pte v, u.check e n read = (.ok (pa, pte), v) →
        stops (.gld h f) v pa ∧
        (reads v pa → exec (.gld h f) s = .next ((after v pa).2.setShape e f.shp.val (recOf (after v pa).1))))) ∧
    (NibIssues s (.gst h f) h n →
      (u.checkWaits e (ask64 va) = true → exec (.gst h f) s = .next (waits (ask64 va))) ∧
      (u.checkWaits e (ask64 va) = false → ∀ pa pte v, u.check e n (ask64 va) = (.ok (pa, pte), v) →
        exec (.gst h f) s = .next (v.nibStore e n va pa pte (.store (recBytes shape))))) ∧
    (NibIssues s (.tidld h f) h n →
      (¬drained → exec (.tidld h f) s = .next (u.waitAt e s.iss.lanes (.drain .p mark))) ∧
      (drained → u.checkWaits e read = true → exec (.tidld h f) s = .next (waits read)) ∧
      (drained → u.checkWaits e read = false → u.checkWaits e put = true → exec (.tidld h f) s = .next (waits put)) ∧
      (drained → u.checkWaits e read = false → u.checkWaits e put = false → ∀ pa pte v pd te w,
        u.check e n read = (.ok (pa, pte), v) → v.check e n put = (.ok (pd, te), w) →
        stops (.tidld h f) w pa ∧
        (reads w pa → exec (.tidld h f) s = .next
          ((upto 4).foldl (fun t i => t.nibStore e n (dst + BitVec.ofNat 64 (16 * i)) (pd + 16 * i) te
            (.store (((after w pa).1.drop (16 * i)).take 16))) (after w pa).2)))) ∧
    (NibIssues s (.tidset h f) h n →
      (u.checkWaits e rmw = true → exec (.tidset h f) s = .next (waits rmw)) ∧
      (u.checkWaits e rmw = false → ∀ pa pte v, u.check e n rmw = (.ok (pa, pte), v) →
        exec (.tidset h f) s = .next (let (lo, len) := tensorField (f.mod.toNat % 32)
          v.nibStore e n dst pa pte (.setBits lo len (BitVec.ofNat 64 (e.fieldVal n f len)))))) ∧
    (NibIssues s (.thnd h f) h n →
      let x := (e.src32 n f.a).toNat
      let y := (e.src32 n f.b).toNat
      (2 ^ 28 ≤ x ∨ 2 ^ 28 ≤ y → exec (.thnd h f) s = .next (u.raise e n { code := cSHAPE })) ∧
      (x < 2 ^ 28 → y < 2 ^ 28 → ∃ t, exec (.thnd h f) s = .next t ∧
        Computes s t h [(f.d, fun _ => wordsOf 2 (f.tid.toNat * 2 ^ 56 + y * 2 ^ 28 + x))] []))

/-! ## The matrix engine -/

/-- An accumulator's cells (R107 to R110, R260): in wide mode a finite term is truncated toward zero at the anchor and added to the
cell, which is clamped to its 128 bits; bits discarded set the inexact bit, a clamp the overflow bit; an infinite or NaN term or cell
sets the special bit and gives the class of R109, and an infinite or NaN term leaves the cell's bits as they are. In integer mode the
term is added and wraps, or saturates, at 32 bits, and a sum outside them sets the overflow bit. A row of a k-step adds to each of its 32
cells, in ascending k, the products of the row's elements and the weights of the cell's column, with the scale-base exponents and the
negation; MGUIDE on a cell is R114, and what MSTA makes of one is R112.

MLDT (R265): ILLEGAL for the set where a register it writes lies beyond the allotment, SHAPE where the shape register's row and
column counts, format or reserved bits or the tile's base are not as the rule asks, PERM for a tile beyond the team's region and WATCH
for a watched one; else it waits for the tile's lines, and lane l's registers take column l of the tile, its elements from the lowest
bits up, and a lane past the last column takes zeros. That the format .X2 counts as one of 32 bits is the model's reading (log 73). -/
def Obligations.AccumulatorsAndTiles : Prop :=
  (
    (∀ (anchor : Int) (sat neg : Bool) (x : Cell) (st : W32) (m : Nat) (e : Int),
      let q := anchor - 56
      let mag := if q ≤ e then m * 2 ^ (e - q).toNat else m / 2 ^ (q - e).toNat
      let sum := x.c.toInt + (if neg then -(mag : Int) else mag)
      let r := addTerm anchor sat (x, st) (.flt (.fin neg m e))
      r.1.cls = x.cls ∧
      r.1.c.toInt = (if sum < -(2 ^ 127) then -(2 ^ 127) else if 2 ^ 127 ≤ sum then 2 ^ 127 - 1 else sum) ∧
      (r.2.getLsbD 0 = true ↔ st.getLsbD 0 = true ∨ (e < q ∧ m % 2 ^ (q - e).toNat ≠ 0)) ∧
      (r.2.getLsbD 1 = true ↔ st.getLsbD 1 = true ∨ sum < -(2 ^ 127) ∨ 2 ^ 127 ≤ sum) ∧
      (r.2.getLsbD 2 = true ↔ st.getLsbD 2 = true ∨ x.cls ≠ .fin)) ∧
    (∀ (anchor : Int) (sat : Bool) (x : Cell) (st : W32) (t : Int),
      let sum := x.c.toInt + t
      let r := addTerm anchor sat (x, st) (.int t)
      let out := sum < -(2 ^ 31) ∨ 2 ^ 31 ≤ sum
      r.1.cls = x.cls ∧ (r.2.getLsbD 1 = true ↔ st.getLsbD 1 = true ∨ out) ∧
      r.1.c.toInt = (if sat then (if sum < -(2 ^ 31) then -(2 ^ 31) else if 2 ^ 31 ≤ sum then 2 ^ 31 - 1 else sum)
        else (BitVec.ofInt 32 sum).toInt)) ∧
    (∀ (anchor : Int) (sat : Bool) (x : Cell) (st : W32) (v : FVal) (k : CellClass),
      (v = .nan ∧ k = .nan) ∨ (v = .inf false ∧ k = .pinf) ∨ (v = .inf true ∧ k = .ninf) →
        addTerm anchor sat (x, st) (.flt v) = ({ c := x.c, cls := classAdd k x.cls }, st ||| 4)) ∧
    (∀ c : CellClass, classAdd .fin c = c ∧ classAdd .nan c = .nan ∧ classAdd c .nan = .nan) ∧
    classAdd .pinf .ninf = .nan ∧ classAdd .ninf .pinf = .nan ∧ classAdd .pinf .fin = .pinf ∧ classAdd .ninf .fin = .ninf ∧
    classAdd .pinf .pinf = .pinf ∧ classAdd .ninf .ninf = .ninf ∧
    (∀ (a : Acc) (sh : Int) (neg sat : Bool) (i : Nat) (row : List Elem) (w : List (List Elem)),
      let b := a.addRow sh neg sat i row w
      let sum := fun j => ((row.zip w).filterMap fun x => x.2[j]?.map (termOf sh neg x.1)).foldl (addTerm a.anchor sat)
        (a.cell (32 * i + j), 0)
      (∀ j, j < 32 → b.cell (32 * i + j) = (sum j).1) ∧ (∀ k, k / 32 ≠ i → b.cell k = a.cell k) ∧
      (∀ n, b.status.getLsbD n = true ↔ a.status.getLsbD n = true ∨ ∃ j, j < 32 ∧ (sum j).2.getLsbD n = true)) ∧
    (∀ (sh : Int) (neg : Bool) (x y : Int), termOf sh neg (.int x) (.int y) = .int (if neg then -(x * y) else x * y)) ∧
    (∀ (sh : Int) (neg a b : Bool) (m n : Nat) (e g : Int), termOf sh neg (.flt (.fin a m e)) (.flt (.fin b n g)) =
      .flt (.fin (Bool.xor (Bool.xor a b) neg) (m * n) (e + g + sh))) ∧
    (∀ (w : FVal) (c u : Cell), c.cls ≠ .fin ∨ u.cls ≠ .fin ∨ w = .nan →
      guideCell w c u = ({ c with cls := .nan }, 4)) ∧
    (∀ (neg : Bool) (c u : Cell), c.cls = .fin → u.cls = .fin →
      let d := c.c.toInt - u.c.toInt
      guideCell (.inf neg) c u = ({ c with cls := if d = 0 then .nan else if (d < 0 ↔ neg = false) then .ninf else .pinf }, 4)) ∧
    (∀ (neg : Bool) (m : Nat) (e : Int) (c u : Cell), c.cls = .fin → u.cls = .fin →
      let d := c.c.toInt - u.c.toInt
      let q := d.natAbs * m
      let mag : Int := if 0 ≤ e then q * 2 ^ e.toNat else ((q / 2 ^ (-e).toNat : Nat) : Int)
      let t := if (d < 0 ↔ neg = false) then -mag else mag
      let sum := u.c.toInt + t
      let r := guideCell (.fin neg m e) c u
      r.1.cls = .fin ∧
      r.1.c.toInt = (if sum < -(2 ^ 127) then -(2 ^ 127) else if 2 ^ 127 ≤ sum then 2 ^ 127 - 1 else sum) ∧
      (r.2.getLsbD 0 = true ↔ e < 0 ∧ q % 2 ^ (-e).toNat ≠ 0) ∧
      (r.2.getLsbD 1 = true ↔ sum < -(2 ^ 127) ∨ 2 ^ 127 ≤ sum ∨ t < -(2 ^ 127) ∨ 2 ^ 127 ≤ t) ∧ r.2.getLsbD 2 = false) ∧
    (∀ (a : Acc) (i : Nat) (fmt : Ty) (rnd : Rnd) (sat nof : Bool) (eo : Int),
      let x := a.cell i
      let out := a.out i fmt rnd sat nof eo
      (a.intMode = true → out = convert .i32 fmt rnd sat nof (x.c.toNat % 2 ^ 32)) ∧
      (a.intMode = false → (x.cls = .nan → out = (fmtOf fmt).encode rnd nof .nan) ∧
        (x.cls = .pinf → out = (fmtOf fmt).encode rnd nof (.inf false)) ∧ (x.cls = .ninf → out = (fmtOf fmt).encode rnd nof (.inf true)) ∧
        (x.cls = .fin → out = (fmtOf fmt).encode rnd nof (.fin (x.c.toInt < 0) x.c.toInt.natAbs (a.anchor - 56 - eo)))))) ∧
  (
    ∀ (s : State) (h : Hdr) (f : EF) (n : Nat), NibIssues s (.mldt h f) h n →
      let e := s.env h
      let u := s.beginIssue h
      let r := e.team.shapes.get 0 f.shp.val
      let a := (e.src32 n f.a).toNat
      let cols := recField r 376 16
      let rows := recField r 392 16
      let w := ((recFormat r).map Ty.width).getD 0
      let wide := w = 8 ∨ w = 16 ∨ w = 32
      let regs := (rows * w + 31) / 32
      let beyond := wide ∧ ∃ x, f.d = .v x ∧ e.g.allot s.iss.slot < x.val + regs
      let shaped := wide ∧ 0 < cols ∧ cols ≤ 32 ∧ 0 < rows ∧ rows ≤ 32 ∧
        recField r 75 5 = 0 ∧ recField r 83 5 = 0 ∧ recField r 472 40 = 0 ∧ a % (if shapeSwz r = 0 then 16 else 128) = 0
      let bytes := cols * rows * w / 8
      let lines := teamLines e.team a bytes
      let hits := if (e.g.lane n).wskip = some s.iss.pc then [] else u.watchGroup s.iss.core s.iss.slot e.g.watch n .read false true a bytes
      (beyond → exec (.mldt h f) s = .next (s.faultSet cILLEGAL)) ∧
      (¬beyond → ¬shaped → exec (.mldt h f) s = .next (u.raise e n { code := cSHAPE })) ∧
      (¬beyond → shaped → inRegion e.team a bytes = false →
        exec (.mldt h f) s = .next (u.raise e n { code := cPERM, addr := BitVec.ofNat 64 a })) ∧
      (¬beyond → shaped → inRegion e.team a bytes = true →
        (∀ k off, lowestHit hits = some (k, off) → exec (.mldt h f) s =
          .next (u.raise e n { code := cWATCH, addr := BitVec.ofNat 64 (a + off), num := BitVec.ofNat 16 k })) ∧
        (lowestHit hits = none → (u.core s.iss.core).present lines = false →
          exec (.mldt h f) s = .next (u.waitAt e s.iss.lanes (.lines lines))) ∧
        (lowestHit hits = none → (u.core s.iss.core).present lines = true → ∃ t, exec (.mldt h f) s = .next t ∧
          Computes s t h [(f.d, fun l => (upto regs).map fun k => if cols ≤ l then 0 else mldtReg w rows k fun i =>
            ofBytes ((u.core s.iss.core).lbytes (128 * e.team.lbase + a + swzOff (shapeSwz r) ((l + cols * i) * w / 8)) (w / 8)))] [])))

/-- The matrix instructions issue (R255 to R258, R260 to R264, R266): from a team, with an accumulator that the launch gives, and where
the checks of its operands pass, an operation enters the team's queue behind those there, MLDW, MMA, MMAT and MSTA under a sequence
number of its own; a full queue makes the set wait. MLDW, MSWAP, MMA and MMAT need the lease: without it or a request for it they take
LEASE, and they wait for it to be granted. The entry of a tile handle is read at issue: the set waits until it can be, and the nib lane
takes the fault of the read or of the entry, SHAPE where its format is not the instruction's. MMA and MMAT take ALIGN, SHAPE and PERM
for the place of their block, wait for its lines and then for its entries, take the first fault of its entries and local ranges, SHAPE
for its contents, and MMAT TANDEM away from its pair. MPROG, MSTAT and MWAIT wait for the operations on their accumulator, and the reads
then give its state. MLEASE enters a request and waits; MREL gives the lease up, at once where the queue is empty. That the wait for the
block's lines comes between the checks of its address and those of its contents, and which of the faults of several entries of a block is
taken within a step of R12, is the model's reading (log 63), and so is the form of waiting (log 27). What MREL does with operations
queued, and MLEASE of a team that holds the lease, is the model's reading (log 44); when an MMAT with one stream parked is suspended is
the model's choice (log 81). -/
def Obligations.MatrixIssue : Prop :=
  (∀ (s : State) (e : Env) (p : Nat) (o : MOp),
    let t := s.enqueue e p o
    (8 ≤ e.team.queue.length → t = s.waitAt e e.lanes .engineRoom) ∧
    (e.team.queue.length < 8 → o.kind.named = false →
      t = s.modTeam e.core p fun x => { x with queue := x.queue ++ [{ o with seq := 0 }] }) ∧
    (e.team.queue.length < 8 → o.kind.named = true →
      let seq := (s.core e.core).cmdCtr + 1
      t = (s.modCore e.core fun k => { k with cmdCtr := seq }).modTeam e.core p fun x =>
        { x with queue := x.queue ++ [{ o with seq := seq }] })) ∧
  (∀ (s : State) (e : Env) (n p : Nat) (o : MOp),
    let k := s.core e.core
    let held := k.holder = some p ∧ e.team.releasing = false
    let t := s.enqueueLeased e n p o
    (¬held → p ∉ k.fifo → t = s.raise e n { code := cLEASE }) ∧
    (held ∨ p ∈ k.fifo → s.mayQueue e.core (some p) = false → t = s.waitAt e e.lanes .lease) ∧
    (held ∨ p ∈ k.fifo → s.mayQueue e.core (some p) = true → e.team.queue.length < 8 →
      t = if o.kind.named then (s.enqueue e p o).modTeam e.core p fun x => { x with leaseCount := x.leaseCount - 1 }
        else s.enqueue e p o)) ∧
  (∀ (s : State) (h : Hdr) (f : EF) (n p : Nat), (s.env h).g.place = some p →
    let e := s.env h
    let u := s.beginIssue h
    let c := s.iss.core
    let acc := f.acc.val
    let given := acc < e.team.nacc
    let op := fun (a : Nat) (k : MKind) => ({
      kind := k
      acc := a
      slot := s.iss.slot
      grp := e.g.grp
      lane := n
      ctx := e.g.ctx
      pc := s.iss.pc
      after := u.nextId } : MOp)
    let got := fun (t : State) (x : W64) => t.recordRead c s.iss.slot e.g.ctx (u.tidRange e.g.ctx x).1 64
    let a := (e.src32 n f.a).toNat
    let b := (e.src32 n f.b).toNat
    let hd := e.src64 n false f.a
    let wf := (Ty.ofCode f.mod.toNat).getD .f4
    let late := fun (x : W64) => u.reachWaits c s.iss.slot e.g.ctx (u.tidRange e.g.ctx x).1 64 = true
    let byHandle := fun (i : Instr) (fmt : Ty) (go : State → BitVec 512 → State) =>
      let v := got u hd
      (late hd → exec i s = .next (u.waitAt e s.iss.lanes (.reach (u.tidRange e.g.ctx hd).1 64))) ∧
      (¬late hd → (∀ x, v.entryOf c s.iss.slot e.g.ctx hd = .error x → exec i s = .next (v.raise e n x)) ∧
        ∀ r, v.entryOf c s.iss.slot e.g.ctx hd = .ok r →
          exec i s = .next (if recFormat r = some fmt then go v r else v.raise e n { code := cSHAPE }))
    let leased := ((u.core c).holder = some p ∧ e.team.releasing = false) ∨ p ∈ (u.core c).fifo
    let lines := teamLines e.team a 64
    let k := recOf ((u.core c).lbytes (u.absLocal c p a) 64)
    let block := fun (i : Instr) (tandem : Bool) => NibIssues s i h n →
      (a % 64 ≠ 0 → exec i s = .next (u.raise e n { code := cALIGN, addr := BitVec.ofNat 64 a })) ∧
      (a % 64 = 0 → ¬given → exec i s = .next (u.raise e n { code := cSHAPE })) ∧
      (a % 64 = 0 → given → inRegion e.team a 64 = false →
        exec i s = .next (u.raise e n { code := cPERM, addr := BitVec.ofNat 64 a })) ∧
      (a % 64 = 0 → given → inRegion e.team a 64 = true → (u.core c).present lines = false →
        exec i s = .next (u.waitAt e s.iss.lanes (.lines lines))) ∧
      (a % 64 = 0 → given → inRegion e.team a 64 = true → (u.core c).present lines = true →
        (∀ d pre post, blkHandles k tandem = pre ++ d :: post → (∀ x ∈ pre, ¬late (descHandle k x)) → late (descHandle k d) →
          exec i s = .next (u.waitAt e s.iss.lanes (.reach (u.tidRange e.g.ctx (descHandle k d)).1 64))) ∧
        ((∀ d ∈ blkHandles k tandem, ¬late (descHandle k d)) →
        let w := (blkHandles k tandem).foldl (fun t d => got t (descHandle k d)) u
        (∀ x, w.blkRecords e k tandem = .error x → exec i s = .next (w.raise e n x)) ∧
        ∀ rs, w.blkRecords e k tandem = .ok rs →
          let shaped := blkBad k tandem = false ∧ ∀ x ∈ rs, recFormat x.2 = some (if x.1 = 2 then blkWfmt k else blkAfmt k)
          let pair := e.g.grp = acc ∧ maskBit e.team.tmask (acc / 2) = true ∧ acc + 1 < e.team.nacc
          let at_ := fun d => blkOperand k d (((rs.find? fun x => x.1 == d).map Prod.snd).getD 0)
          (¬shaped → exec i s = .next (w.raise e n { code := cSHAPE })) ∧
          (shaped → tandem = true → ¬pair → leased → exec i s = .next (w.raise e n { code := cTANDEM })) ∧
          (shaped → tandem = false ∨ pair ∨ ¬leased → exec i s = .next (w.enqueueLeased e n p (op acc (.mma tandem k (at_ 0)
            (if tandem then at_ 1 else .absent) (if blkBit k 22 then at_ 2 else .absent)))))))
    let done := fun (all susp : Bool) => e.team.accDone acc all susp = true
    let reads := fun (i : Instr) (x : W32) => NibIssues s i h n → given →
      (done false true → ∃ t, exec i s = .next t ∧ Computes s t h [(f.d, fun _ => [x])] []) ∧
      (¬done false true → exec i s = .next (u.waitAt e s.iss.lanes (.acc acc false true)))
    (NibIssues s (.mclr h f) h n → given →
      exec (.mclr h f) s = .next (u.enqueue e p (op acc (.mclr (field f.mod 0 8))))) ∧
    (NibIssues s (.mguide h f) h n → given →
      exec (.mguide h f) s = .next (u.enqueue e p (op acc (.mguide (e.src32 n f.b) e.g.grp)))) ∧
    (NibIssues s (.mclr h f) h n → ¬given → exec (.mclr h f) s = .next (u.raise e n { code := cSHAPE })) ∧
    (NibIssues s (.msta h f) h n → given →
      (∀ t, Ty.ofCode (f.mod.toNat % 32) = some t → t ∈ mstaTypes →
        (f.sub = 0 → exec (.msta h f) s = .next (if localOk e.team a b 0 t.width (upto 32) 32 = true then
          u.enqueue e p (op acc (.msta (.lmem a b 0 0) f.mod)) else u.raise e n { code := cPERM, addr := BitVec.ofNat 64 a })) ∧
        (f.sub ≠ 0 → byHandle (.msta h f) t fun v r => v.enqueue e p (op acc (.msta (.handle hd r) f.mod)))) ∧
      ((∀ t ∈ mstaTypes, Ty.ofCode (f.mod.toNat % 32) ≠ some t) → exec (.msta h f) s = .next (u.raise e n { code := cSHAPE }))) ∧
    (NibIssues s (.mldw h f) h n →
      (f.sub = 0 → exec (.mldw h f) s = .next (if localOk e.team a b 0 wf.width (upto (ksOf wf wf)) 32 = true then
        u.enqueueLeased e n p (op 16 (.mldw (.lmem a b 0 0) wf)) else u.raise e n { code := cPERM, addr := BitVec.ofNat 64 a })) ∧
      (f.sub ≠ 0 → byHandle (.mldw h f) wf fun v r => v.enqueueLeased e n p (op 16 (.mldw (.handle hd r) wf)))) ∧
    (NibIssues s (.mswap h f) h n → exec (.mswap h f) s = .next (u.enqueueLeased e n p (op 16 .mswap))) ∧
    block (.mma h f) false ∧ block (.mmat h f) true ∧
    (∀ (v : State) (b : BitVec 512) (tandem : Bool),
      let entry := fun (x : W64) => v.entryOf c s.iss.slot e.g.ctx x
      let perm := blkFormed b = true ∧ blkLocalOk e.team b tandem = false
      (∀ r : Nat → BitVec 512, (∀ d ∈ blkHandles b tandem, entry (descHandle b d) = .ok (r d)) → ¬perm →
        v.blkRecords e b tandem = .ok ((blkHandles b tandem).map fun d => (d, r d))) ∧
      (∀ x : FaultRec, (∃ d ∈ blkHandles b tandem, entry (descHandle b d) = .error x) ∨ (perm ∧ x = { code := cPERM }) →
        ∃ y, v.blkRecords e b tandem = .error y ∧ checkStep y.code ≤ checkStep x.code)) ∧
    reads (.mprog h f) (BitVec.ofNat 32 ((e.team.progress acc).k0 % 2 ^ 16 + (e.team.progress acc).k1 % 2 ^ 16 * 2 ^ 16)) ∧
    reads (.mstatArith h f) (e.team.acc acc).status ∧
    (∀ all susp : Bool, done all susp ↔ ∀ o ∈ e.team.queue, all = true ∨ o.uses acc = true → susp = true ∧ o.parked ≠ [] ∧
      ∀ b k a0 a1 w, o.kind = .mma b k a0 a1 w → ∀ x ∈ o.live e.team (blkSteps k), ¬(all = true ∨ o.acc + x = acc)) ∧
    (let held := (u.core c).holder = some p
     let a := e.team.progress acc
     let parked := e.team.queue.any (fun o => o.uses acc && o.suspended e.team fun x => o.acc + x == acc) = true
     reads (.mstatEng h f) (BitVec.ofNat 32 ((if held then e.team.leaseCount % 256 * 2 ^ 24 + 2 ^ 23 else 0)
       + (if p ∈ (u.core c).fifo then 2 ^ 22 else 0) + (if a.complete then 2 ^ 21 else 0) + (if parked then 2 ^ 20 else 0)
       + e.team.queue.length % 16 * 2 ^ 16 + a.fault.toNat * 2 ^ 8))) ∧
    (NibIssues s (.mwait h f) h n → f.mod.getLsbD 0 = true ∨ given →
      (done (f.mod.getLsbD 0) false → exec (.mwait h f) s = .next u) ∧
      (¬done (f.mod.getLsbD 0) false → exec (.mwait h f) s =
        .next (u.waitAt e s.iss.lanes (.acc acc (f.mod.getLsbD 0) false)))) ∧
    (NibIssues s (.mlease h f) h n →
      (u.mayQueue c (some p) = true → exec (.mlease h f) s = .next u) ∧
      (u.mayQueue c (some p) = false → (u.core c).holder ≠ some p → p ∉ (u.core c).fifo → exec (.mlease h f) s =
        .next ((u.modCore c fun k => { k with fifo := k.fifo ++ [p] }).waitAt e s.iss.lanes .lease)) ∧
      (u.mayQueue c (some p) = false → p ∈ (u.core c).fifo →
        exec (.mlease h f) s = .next (u.waitAt e s.iss.lanes .lease))) ∧
    (NibIssues s (.mrel h f) h n →
      let v := u.modCore c fun k => { k with fifo := k.fifo.filter (· != p) }
      ((v.core c).holder ≠ some p → exec (.mrel h f) s = .next v) ∧
      ((v.core c).holder = some p → e.team.queue = [] → exec (.mrel h f) s =
        .next ((v.modTeam c p fun t => { t with leaseCount := 0, releasing := false }).modCore c fun k =>
          { k with holder := none })) ∧
      ((v.core c).holder = some p → e.team.queue ≠ [] →
        exec (.mrel h f) s = .next (v.modTeam c p fun t => { t with releasing := true }))))

/-- The engine runs the operation at the head of a team's queue (R255 to R257, R260 to R264, R280, R290): MLDW reads its weights into the
shadow plane, MSWAP exchanges the planes, MCLR clears its accumulator at an anchor and in a mode; MGUIDE joins the two accumulators of a
tandem pair cell by cell, or takes TANDEM; MSTA writes the cells of its accumulator one after the other, or takes SHAPE for an integer
format in wide mode; an operation that completes leaves the queue, and an MLDW or MSTA that meets a fault ends with it, or is suspended
where firmware serves it, an MLDW leaving the shadow plane as it was, which is the model's choice (log 24). A matrix operation starts with
its accumulators cleared or continued, their flags down, or ends with SHAPE for a plane or accumulator of another format, the flags then
as they were, which is the model's choice too (log 24); each k-step reads its weights once, streamed ones into the active plane, the
shadow plane becoming undefined; a stream of it adds its rows to its accumulator and counts the step; a k-step without a live stream ends
its operation, an accumulator being complete where an MMA did not stop or a stream of an MMAT has done every step. A core without a holder
grants the lease to the oldest request, with the team's length, or what a pre-emption saved; one whose count is spent passes to the back
of the queue, or is reloaded where none waits. -/
def Obligations.MatrixRuns : Prop :=
  ∀ (s : State) (c p : Nat),
    let t := s.team c p
    (t.queue = [] → exec (.matrixOperationStart c p) s = .next s ∧ exec (.matrixKStep c p) s = .next s) ∧
    (∀ o rest, t.queue = o :: rest →
      let ready := o.started = false ∧ s.headReady c p o = true
      (¬ready → exec (.matrixOperationStart c p) s = .next s) ∧
      (ready → o.kind = .mswap → exec (.matrixOperationStart c p) s =
        .next ((s.modTeam c p fun x => { x with active := x.shadow, shadow := x.active }).popHead c p)) ∧
      (ready → ∀ m, o.kind = .mclr m → exec (.matrixOperationStart c p) s = .next ((s.modTeam c p fun x =>
        (x.setAcc o.acc (clearAcc (field m 0 7) (m.getLsbD 7))).modProg o.acc fun q =>
          { q with complete := true, fault := 0 }).popHead c p)) ∧
      (ready → ∀ src fmt w u, o.kind = .mldw src fmt → s.readPlane (o.master c p) p src fmt (ksOf fmt fmt) 0 = (.ok w, u) →
        exec (.matrixOperationStart c p) s = .next ((u.modTeam c p fun x => { x with shadow := w }).popHead c p)) ∧
      (ready → ∀ src fmt x u, o.kind = .mldw src fmt → s.readPlane (o.master c p) p src fmt (ksOf fmt fmt) 0 = (.error x, u) →
        exec (.matrixOperationStart c p) s = .next (u.headStop s c p o [] 0 x)) ∧
      (∀ (u : State) (as : List Nat) (i : Nat) (f : FaultRec), u.headStop s c p o as i (.fault f) =
        if f.code = cXLATE ∧ u.served o.ctx f.addr = true then
          u.modHead c p fun q => { q with step := i, parked := [(0, f.addr)], old := [] }
        else (u.opFault c p o as f).popHead c p) ∧
      (ready → ∀ w grp, o.kind = .mguide w grp →
        let x := t.acc o.acc
        let y := t.acc (o.acc + 1)
        let cell := fun i => guideCell (fF32.decode w.toNat) (x.cell i) (y.cell i)
        let good := grp = o.acc ∧ maskBit t.tmask (o.acc / 2) = true ∧ o.acc + 1 < t.nacc ∧ (t.progress o.acc).complete = true ∧
          (t.progress (o.acc + 1)).complete = true ∧ x.intMode = false ∧ y.intMode = false ∧ x.anchor = y.anchor
        (¬good → exec (.matrixOperationStart c p) s = .next ((s.opFault c p o [o.acc] { code := cTANDEM }).popHead c p)) ∧
        (good → ∃ z : Acc, exec (.matrixOperationStart c p) s = .next ((s.modTeam c p fun q => (q.setAcc o.acc z).modProg o.acc fun r =>
            { r with complete := true, fault := 0 }).popHead c p) ∧
          (∀ i, i < 1024 → z.cell i = (cell i).1) ∧
          ∀ n, z.status.getLsbD n = true ↔ x.status.getLsbD n = true ∨ ∃ i, i < 1024 ∧ (cell i).2.getLsbD n = true)) ∧
      (ready → ∀ dst mod, o.kind = .msta dst mod →
        let a := t.acc o.acc
        let fmt := (Ty.ofCode (mod.toNat % 32)).getD .f32
        let eo := match dst with
          | .handle _ r => recSigned r 80 6
          | _ => (field mod 8 6).toInt
        let cells := State.mstaCells (o.master c p) p a dst fmt (Rnd.ofCode (field mod 5 3)) (mod.getLsbD 17) (mod.getLsbD 18) eo
        (a.intMode = false → fmt.isFloat = false → exec (.matrixOperationStart c p) s =
          .next ((s.opFault c p o [o.acc] { code := cSHAPE }).popHead c p)) ∧
        (a.intMode = true ∨ fmt.isFloat = true →
          (∀ u, cells (1024 - o.step) o.step s = (u, none) → exec (.matrixOperationStart c p) s =
            .next ((u.modTeam c p fun q => q.modProg o.acc fun r => { r with fault := 0 }).popHead c p)) ∧
          ∀ u i x, cells (1024 - o.step) o.step s = (u, some (i, x)) →
            exec (.matrixOperationStart c p) s = .next (u.headStop s c p o [o.acc] i x))) ∧
      (∀ steps n, n < o.accs.length → (((s.mmaEnd c p o steps).team c p).progress (o.acc + n)).complete =
        ((if o.accs.length = 2 then t.stepsDone o.acc n == steps else !o.stopped.contains n) || (t.progress (o.acc + n)).complete)) ∧
      (∀ k a0,
        let int := !(blkAfmt k).isFloat
        let clear := blkBit k 24 = true ∧ blkBit k 26 = false
        let plane := blkBit k 22 = true ∨ (t.active.fmt = some (blkWfmt k) ∧ t.active.ks = ksOf (blkAfmt k) (blkWfmt k))
        let mode := clear ∨ ∀ n ∈ o.accs, (t.acc n).intMode = int
        let v := s.mmaStart c p o k a0
        (¬(plane ∧ mode) → v = (s.opFault c p o o.accs { code := cSHAPE }).popHead c p) ∧
        (plane → mode → (v.team c p).queue = { o with started := true } :: rest ∧ ∀ n ∈ o.accs,
          (clear → (v.team c p).acc n = clearAcc (blkAnchor k a0) int) ∧ (¬clear → (v.team c p).acc n = t.acc n) ∧
          (((v.team c p).progress n).complete = false ∧ ((v.team c p).progress n).fault = 0) ∧
          (v.team c p).stepsDone o.acc (n - o.acc) = if blkBit k 26 then t.stepsDone o.acc (n - o.acc) else 0)) ∧
      (ready → ∀ b k a0 a1 w, o.kind = .mma b k a0 a1 w →
        exec (.matrixOperationStart c p) s = .next (s.mmaStart c p o k a0)) ∧
      (o.started = true → o.parked = [] → s.headReady c p o = true → ∀ b k a0 a1 w, o.kind = .mma b k a0 a1 w →
        let live := o.live t (blkSteps k)
        (live = [] → exec (.matrixKStep c p) s = .next (s.mmaEnd c p o (blkSteps k))) ∧
        (∀ step v, minOf (live.map fun x => t.stepsDone o.acc x) = some step → blkBit k 22 = false →
          State.streamsStep c p o k a0 a1 t.active step (live.filter fun x => t.stepsDone o.acc x == step) s = some v →
          exec (.matrixKStep c p) s = .next v) ∧
        (∀ step q u v, minOf (live.map fun x => t.stepsDone o.acc x) = some step → blkBit k 22 = true →
          s.readPlane (o.master c p) p w (blkWfmt k) (ksOf (blkAfmt k) (blkWfmt k)) step = (.ok q, u) →
          State.streamsStep c p o k a0 a1 q step (live.filter fun x => t.stepsDone o.acc x == step)
            (u.openPlane.2.modTeam c p fun x => { x with active := q, shadow := u.openPlane.1 }) = some v →
          exec (.matrixKStep c p) s = .next v)) ∧
      (∀ (b : BitVec 512) (a0 a1 : Operand) (w : Plane) (step n : Nat) (ns : List Nat),
        State.streamsStep c p o b a0 a1 w step [] s = some s ∧
        State.streamsStep c p o b a0 a1 w step (n :: ns) s =
          (s.streamStep c p o b (if n = 0 then a0 else a1) w step n).bind (State.streamsStep c p o b a0 a1 w step ns)) ∧
      (∀ (b : BitVec 512) (src : Operand) (w : Plane) (step n : Nat) (xs : List (Nat × List Elem)) (u : State),
        let rows := (upto (Nat.min 32 (blkRows b n))).filter fun i => maskBit (blkMask b n) i
        s.readRows (o.master c p) p src (blkAfmt b) (ksOf (blkAfmt b) (blkWfmt b)) step rows = (.ok xs, u) →
        ((u.core c).teams.find p).isSome = true → ∃ v, s.streamStep c p o b src w step n = some v ∧
          (v.team c p).acc (o.acc + n) = xs.foldl (fun a x => a.addRow (src.exp + w.exp) (blkBit b 23) (blkBit b 25) x.1 x.2
            (w.rows (blkWfmt b))) ((u.team c p).acc (o.acc + n)) ∧
          (v.team c p).stepsDone o.acc n = step + 1 ∧ (∀ k, k ≠ o.acc + n → (v.team c p).acc k = (u.team c p).acc k) ∧
          ∀ a, v.byte a = u.byte a)) ∧
    (∀ (m : Master) (a : Acc) (dst : Operand) (fmt : Ty) (rnd : Rnd) (sat nof : Bool) (eo : Int) (n i : Nat),
      let e := fmt.width
      let x := a.out i fmt rnd sat nof eo
      let cells := State.mstaCells m p a dst fmt rnd sat nof eo
      (∀ off pitch sbe swz, dst = .lmem off pitch sbe swz →
        let q := off + i / 32 * pitch + i % 32 * e / 8
        let r := s.absLocal m.core p q
        let hit := lowestHit (s.watchTeam m.core m.slot (m.place <|> (s.group m.core m.slot).place) (s.group m.core m.slot).watch m.lane
          .write false true q (elemBytes e))
        (hit = none → cells (n + 1) i s = cells n (i + 1)
          (s.lwrite m.core r (elemPut e (e == 4 && i % 2 == 1) x ((s.core m.core).lbytes r (elemBytes e))))) ∧
        ∀ k d, hit = some (k, d) → cells (n + 1) i s =
          (s, some (i, .fault { code := cWATCH, addr := BitVec.ofNat 64 (q + d), num := BitVec.ofNat 16 k }))) ∧
      (∀ hd r, dst = .handle hd r →
        let at_ := (tensorLayout r).addr [(handleCoords hd).1 + i % 32, (handleCoords hd).2 + i / 32, 0, 0]
        (at_ = none → cells (n + 1) i s = cells n (i + 1) s) ∧
        ∀ va hi, at_ = some (va, hi) → ∃ whole,
          (∀ u, s.engWrite m va (elemBytes e) whole (elemPut e hi x) = (.ok (), u) → cells (n + 1) i s = cells n (i + 1) u) ∧
          ∀ u y, s.engWrite m va (elemBytes e) whole (elemPut e hi x) = (.error y, u) → cells (n + 1) i s = (u, some (i, y)))) ∧
    (∀ q rest, (s.core c).holder = none → (s.core c).fifo = q :: rest → exec (.leaseGrant c) s =
      .next ((s.modCore c fun k => { k with holder := some q, fifo := rest }).modTeam c q fun x =>
        { x with leaseCount := if x.leaseCount = 0 then x.leaseLen else x.leaseCount })) ∧
    ((s.core c).holder = some p → t.leaseCount = 0 → t.releasing = false →
      ((s.core c).fifo = [] → exec (.leaseExpiry c) s = .next (s.modTeam c p fun x => { x with leaseCount := x.leaseLen })) ∧
      ((s.core c).fifo ≠ [] → t.atRest = false → exec (.leaseExpiry c) s = .next s) ∧
      ((s.core c).fifo ≠ [] → t.atRest = true → exec (.leaseExpiry c) s =
        .next (s.modCore c fun k => { k with holder := none, fifo := k.fifo ++ [p] })))

/-! ## Loads and stores complete -/

/-- Walks, served translation faults, invalidations and lines that time out (R48, R160, R163, R173, R195, R196, R237, R298): the oldest
walk that no stack makes wait leaves its die's walker and its checks are made; the pages that firmware writes are put in memory, tensor
identifiers of pages newly mapped are then as invalid as they have been (log 78), and what waits on the page goes on, or fails where the
fault cannot be served, and nothing is done while Nopol root does not run; an invalidation reaches die 0 and is sent to every other die, a
die that no link reaches being waited for no longer, and is complete once what stood under old translations has completed and every die
has answered; a die that received it over a link then answers it, on the module that brought it. What the walker and the translation
caches hold is the model's choice (log 11). -/
def Obligations.TranslationEvents : Prop :=
  (∀ (s : State) (d : Nat), ((∀ w ∈ (s.die d).walks, s.tablesWait d w.ctx w.va = true) → exec (.pageWalk d) s = .next s) ∧
    (∀ w before rest, (s.die d).walks = before ++ w :: rest → (∀ x ∈ before, s.tablesWait d x.ctx x.va = true) → s.tablesWait d w.ctx w.va = false →
      let u := s.modDie d fun x => { x with walks := before ++ rest }
      let ask : Ask := { va := w.va, bytes := 1, need := { r := true }, tagck := true }
      (∀ f v, u.checkAs w.core w.ctx false (fun _ => none) ask = (.error f, v) → exec (.pageWalk d) s = .next v.collsGo) ∧
      (∀ pa pte v, u.checkAs w.core w.ctx false (fun _ => none) ask = (.ok (pa, pte), v) → exec (.pageWalk d) s =
        .next (if w.pref = true ∧ v.bad pa 1 = false then v.bringLine w.core w.scope w.policy w.ctx pa pte else v).collsGo))) ∧
  (∀ (s : State) (ctx : Nat) (va : W64) (entries : List (Nat × W64)),
    let u := (entries.foldl (fun t x => t.putBy t.rootDie x.1 (bytesOf 8 x.2.toNat)) s).settleBlanks
    (u.rootAlive = false → ∀ b, exec (.translationFaultServed ctx va entries b) s = .next s) ∧
    (u.rootAlive = true → exec (.translationFaultServed ctx va entries true) s = .next (u.resumeFault ctx va) ∧
      exec (.translationFaultServed ctx va entries false) s = .next (u.failFault ctx va))) ∧
  (∀ (l : Lane) (g : Group) (va : W64) (i : Nat), i < g.lanes.length → g.lane i = l → (g.unpark va).lane i =
    if ∃ f, l.parked = some f ∧ (untag f.addr).toNat / 65536 = (untag va).toNat / 65536 then { l with parked := none } else l) ∧
  (∀ (s : State) (t : InvTarget), exec (.invalidation t) s = .next ((rangeFrom 1 (s.dieCount - 1)).foldl
      (fun u d => (u.requestTo 0 d (.inval s.nextInval) { op := 0x07, src := 0, dst := d } [Machine.InvTarget.slot t]).getD
        (u.invalAnswered s.nextInval d))
      (s.invalidate 0 t (rangeFrom 1 (s.dieCount - 1)) none)) ∧
    (∀ c dies r,
      ((s.invalidate (dieOf c) t dies r).core c).tlb = ((s.core c).tlb.filter fun x => !Machine.InvTarget.coversLeaf t x) ∧
      ((s.invalidate (dieOf c) t dies r).core c).tlb2 = ((s.core c).tlb2.filter fun x => !Machine.InvTarget.coversLeaf t x))) ∧
  (∀ (s : State) (id : Nat) (i : Inval), s.invals.find? (fun x => x.id == id) = some i →
    let waits := i.dies ≠ [] ∨ s.accessesDone i.waits = false ∨ s.commandsDone i = false
    let u : State := { s with invals := s.invals.filter fun j => j.id != id }
    (waits → exec (.invalidationComplete id) s = .next s) ∧
    (¬waits → i.reply = none → exec (.invalidationComplete id) s = .next u) ∧
    (¬waits → ∀ dst m rid, i.reply = some (dst, m, rid) → exec (.invalidationComplete id) s =
      .next ((u.sendPacket i.die m { op := 0x08, rid := rid, src := dst, dst := dst } []).getD u))) ∧
  (∀ (s : State) (c d line : Nat),
    exec (.cacheLineTimeout (.l1 c) line) s = .next (s.modCore c fun k => { k with l1 := dropLine k.l1 line }) ∧
    exec (.cacheLineTimeout (.rdc d) line) s = .next (s.modDie d fun k => { k with rdc := dropLine k.rdc line }))

/-! ## Schedule records, remote requests, collectives and generations -/

/-- SIZESEL in a group (R208 to R210): the first entry of the record whose bound the operand does not exceed gives its number and
target, and with none, 0xFFFFFFFF and the next instruction. Only the entries up to the first that ends the record are read, and the set
waits until they can be. A lane whose target is a multiple of 4 takes its number and goes on there, and any other takes ALIGN, with
the target as its address by the model's choice (log 40); where an entry cannot be read, each participating lane takes that fault. -/
def Obligations.SizeSelection : Prop :=
  (∀ (s : State) (h : Hdr) (f : CF), Issues s (.sizesel h f) →
    let e := s.env h
    let u := s.beginIssue h
    let at_ := schedAddr e.words f
    let parts := u.schedParts s.iss.core s.iss.slot e.g.ctx at_ 0 8
    let late := parts.find? fun x => u.reachWaits s.iss.core s.iss.slot e.g.ctx x.1 x.2
    let v := parts.foldl (fun t x => t.recordRead s.iss.core s.iss.slot e.g.ctx x.1 x.2) u
    let read := v.schedEntries s.iss.core s.iss.slot e.g.ctx at_ 0 8
    (s.active h = [] → ∃ t, exec (.sizesel h f) s = .next t ∧ Computes s t h [] []) ∧
    (s.active h ≠ [] → ∀ x, late = some x → exec (.sizesel h f) s = .next (u.waitAt e s.iss.lanes (.reach x.1 x.2))) ∧
    (s.active h ≠ [] → late = none → ∀ c, read = .error c →
      exec (.sizesel h f) s = .next ((s.active h).foldl (fun t l => t.raise e l { code := c, addr := at_ }) v)) ∧
    (s.active h ≠ [] → late = none → ∀ rec, read = .ok rec →
      let r := fun l => sizeFit rec ((e.src32 l f.a).zeroExtend 64) (s.iss.pc + 12) 0 8
      let ok := (s.active h).filter fun l => (r l).2.toNat % 4 == 0
      let bad := (s.active h).filter fun l => (r l).2.toNat % 4 != 0
      ∃ t, Writes v t ok [(f.d, fun l => [(r l).1])] [] ∧ Continues s t ok (fun l => (r l).2) ∧ exec (.sizesel h f) s =
        .next (bad.foldl (fun t l => t.precise s.iss.core s.iss.slot l s.iss.pc { code := cALIGN, addr := (r l).2 }) t))) ∧
  (∀ (rec : List Byte) (x next : W64) (i : Nat), i < 8 →
    let entry := fun j => ofBytes ((rec.drop (16 * j)).take 16)
    let used := fun j => natBits (entry j) 32 32 ≠ 0
    let fits := fun j => x.toNat ≤ natBits (entry j) 31 0
    (used i → fits i → (∀ j, j < i → used j ∧ ¬fits j) →
      sizeFit rec x next 0 8 = (BitVec.ofNat 32 i, BitVec.ofNat 64 (entry i / 2 ^ 64))) ∧
    (¬used i → (∀ j, j < i → used j ∧ ¬fits j) → sizeFit rec x next 0 8 = (0xFFFFFFFF, next)) ∧
    ((∀ j, j < 8 → used j ∧ ¬fits j) → sizeFit rec x next 0 8 = (0xFFFFFFFF, next)))

/-- RLD, RST and RATOM (R328, R330 to R333): a release waits until the group's earlier accesses are performed at .S; then each
participating lane makes its own request: an address that is not a multiple of the size takes ALIGN; a rank that names no device, a
blocked device, or every port down fails the request with REMOTE; else one packet leaves, the request is outstanding on the die, and but
for RST the lane is late. A packet leaves by the first port up from its destination modulo 8 on, one for this package to its own
gateway, and where no port is up none leaves. A failure sets the rank's sticky bit in mode 0, where the destination takes zero and a
compare's predicate false, unless the lane has exited; in mode 1 it is recorded for its lane and ends the context's launches. -/
def Obligations.RemoteRequests : Prop :=
  (∀ (s : State) (h : Hdr) (f : MF),
    let e := s.env h
    let u := s.beginIssue h
    let act := s.active h
    let n := f.size.bytes
    let size := BitVec.ofNat 32 n
    let cas := f.sub == 8
    let mark := (drainMark e .s act).getD u.nextId
    let late := isRel f.order = true ∧ act ≠ [] ∧ u.drained s.iss.core s.iss.slot .s mark = false
    let does := fun (i : Instr) (kind : BitVec 5) (aux : W32) (rk : Nat → RKind) (bs : Nat → List Byte) => Issues s i →
      (late → exec i s = .next (u.waitAt e act (.drain .s mark))) ∧
      (¬late → exec i s = .next (act.foldl (fun t l => t.remoteLane e f kind aux l (rk l) (bs l)) u))
    does (.rld h f) 0x01 size (fun l => .rld (e.dest l f.d f.size.regs n f.sext)) (fun _ => []) ∧
    does (.rst h f) 0x03 size (fun _ => .rst) (fun l => padTo 64 (e.stored l f)) ∧
    does (.ratom h f) 0x05 (atomAux f)
      (fun l => .ratom { e.dest l f.d f.size.regs n false with pred := if cas then some f.pred.val else none })
      (fun l => padTo 64 (bytesOf 8 (e.atomOp l f cas).operand.toNat ++ bytesOf 8 (e.atomOp l f cas).compare.toNat))) ∧
  (∀ (s : State) (e : Env) (f : MF) (kind : BitVec 5) (aux : W32) (l : Nat) (rk : RKind) (bs : List Byte),
    let va := e.va l f
    let w := e.srcAt l f.a 3
    let comm := (field w 16 6).toNat
    let rank := (field (e.srcAt l f.a 2) 0 20).toNat
    let d := dieOf e.core
    let t := s.remoteLane e f kind aux l rk bs
    let v : State := { s with nextId := s.nextId + 1 }
    let r : RReq := {
      id := s.nextId
      fid := 0
      kind := rk
      dev := 0
      core := e.core
      slot := e.slot
      lane := l
      ctx := e.g.ctx
      launch := e.g.launch
      pc := e.pc
      addr := va
      comm := comm
      rank := rank
      order := f.order
      data := match rk with
        | .rst => bs.take f.size.bytes
        | .ratom x => bs.take x.bytes
        | .rld _ => []
      sent := (s.die d).cycle }
    (va.toNat % f.size.bytes ≠ 0 → t = s.raise e l { code := cALIGN, addr := va }) ∧
    (va.toNat % f.size.bytes = 0 → s.deviceOf e.g.ctx comm rank = none → t = v.failReq r cREMOTE) ∧
    (va.toNat % f.size.bytes = 0 → ∀ dev, s.deviceOf e.g.ctx comm rank = some dev →
      let p : Fesel := { s.fesel e.g.ctx comm kind dev with vaddr := va, tctx := field w 0 16, aux := aux, payload := bs }
      (dev ∈ (s.die d).blockList → t = v.failReq r cREMOTE) ∧
      (v.sendNew e.g.ctx d p = none → t = v.failReq r cREMOTE) ∧
      (dev ∉ (s.die d).blockList → ∀ fid u, v.sendNew e.g.ctx d p = some (fid, u) →
        let q := u.modDie d fun k => { k with reqs := k.reqs ++ [{ r with fid := fid, dev := dev }] }
        t = if rk = .rst then q else q.modLane e.core e.slot l fun x => { x with late := some s.nextId }))) ∧
  (∀ (s : State) (ctx d : Nat) (p : Fesel),
    let up := fun q => q % 8 ∉ (s.die d).portsDown
    let first := p.dst.toNat % 8
    ((∀ q, q < 8 → ¬up q) → s.sendNew ctx d p = none) ∧
    (∀ i, i < 8 → up (first + i) → (∀ j, j < i → ¬up (first + j)) → ∃ t,
      s.sendNew ctx d p = some ((s.die d).fid, t) ∧ (t.die d).fid = (s.die d).fid + 1 ∧
      let q := { p with fid := (s.die d).fid }
      if p.dst = s.devid then t.gateQ = s.gateQ ++ [(d, q)] ∧ t.fabricOut = s.fabricOut
      else t.gateQ = s.gateQ ∧ t.fabricOut = s.fabricOut ++ [(8 * d + (first + i) % 8, q)])) ∧
  (∀ (s : State) (r : RReq) (code : Code),
    let t := s.remoteFail r.core r.slot r.lane r.ctx { code := code, addr := r.addr, pc := r.pc, peer := (r.comm, r.rank) }
    let zero := fun (x : Dest) => (t.arrive r.core r.slot r.lane x 0 false).onTime r
    let mode := ((s.context r.ctx).getD {}).remMode
    (mode = true → s.failReq r code = t.onTime r) ∧
    (mode = false → r.kind = .rst → s.failReq r code = t.onTime r) ∧
    (mode = false → ∀ x, r.kind = .rld x ∨ r.kind = .ratom x → s.failReq r code = zero x)) ∧
  (∀ (s : State) (c k l : Nat) (x : Dest), ((s.core c).groups.find k).isSome = true → l < (s.group c k).lanes.length →
    let g := s.group c k
    let t := s.arrive c k l x 0 false
    ((g.lane l).exited = true → t.group c k = g) ∧
    ((g.lane l).exited = false → x.sext = false →
      (∀ m, x.reg ≤ m → m < x.reg + x.n →
        (x.scalar = true → (t.group c k).rs m = 0) ∧ (x.scalar = false → ((t.group c k).lane l).rv m = 0)) ∧
      (∀ p, x.pred = some p → p < 7 → ((t.group c k).lane l).pred p = false))) ∧
  (∀ (s : State) (c n l ctx : Nat) (f : FaultRec) (x : Context), s.context ctx = some x →
    (x.remMode = false → ∃ y, (s.remoteFail c n l ctx f).context ctx = some y ∧ f.peer.2 % 2 ^ 20 ∈ y.sticky ∧
      (∀ r ∈ x.sticky, r ∈ y.sticky) ∧ y.remrank = BitVec.ofNat 32 (2 ^ 31 + f.peer.1 % 64 * 2 ^ 20 + f.peer.2 % 2 ^ 20)) ∧
    (x.remMode = true → s.remoteFail c n l ctx f =
      ((s.modContext ctx fun y => y.failed f).groupRecord 0x01 c n l { f with rem := true } f.code).terminateContext ctx f.code))

/-- COLL, CWAIT, GENRD and RANKSW (R339 to R343). COLL checks its descriptor's address, its bytes, its own contents and the addresses
in it, in that order; the set waits until the descriptor can be read and while another collective's room is wanting; then it starts:
it takes the communicator's next number and gives its handle, and where its own rank is not valid or the root of a broadcast does not
contribute it fails at once with REMOTE. One that takes part reads its source once its group's earlier stores are performed, and until
then sends nothing. CWAIT waits for its collective and gives its result, and 0x0D for one that is not known. GENRD reads a communicator's
generations and counters, and RANKSW adopts a staged table between the halves of its fence.

What a packet of a collective does (R340, R374): it joins the collective of its number and generation, or waits for one that is still
to be issued; one of another description fails its collective with REMOTE and the rank that sent it; else its bytes are those of its
sender's rank, and the collective completes once nothing is missing. A number is still to be issued where it is less than half the
numbers ahead, by the model's choice (log 47). -/
def Obligations.CollectivesIssue : Prop :=
  (
    ∀ (s : State) (h : Hdr) (f : EF) (n : Nat),
      let e := s.env h
      let u := s.beginIssue h
      let va := e.src64 n false f.a
      let fault := fun (v : State) (c : Code) (a : W64) => exec (.coll h f) s = .next (v.raise e n { code := c, addr := a })
      let mark := (drainMark e .p s.iss.lanes).getD u.nextId
      let drained := u.drained s.iss.core s.iss.slot .p mark = true
      let late := u.reachWaits s.iss.core s.iss.slot e.g.ctx va 64 = true
      let u0 := u.recordRead s.iss.core s.iss.slot e.g.ctx va 64
      let read := u0.readRecord s.iss.core s.iss.slot e.g.ctx va 64
      let x := (u.context e.g.ctx).getD {}
      let x0 := (u0.context e.g.ctx).getD {}
      let w := (e.src32 n f.b).toNat
      let c := u.comm e.g.ctx (f.mod.toNat % 64)
      let known := fun (k : Coll) => x.colls.find? (fun k => k.comm == w / 2 ^ 26 && k.seq == w % 2 ^ 26) = some k
      let old := 256 ≤ ((x.comm (w / 2 ^ 26)).seq + 2 ^ 26 - 1 - w % 2 ^ 26) % 2 ^ 26
      (NibIssues s (.coll h f) h n →
        (va.toNat % 64 ≠ 0 → fault u cALIGN va) ∧
        (va.toNat % 64 = 0 → late → exec (.coll h f) s = .next (u.waitAt e s.iss.lanes (.reach va 64))) ∧
        (va.toNat % 64 = 0 → ¬late → ∀ c a, read = .error (c, a) → fault u0 c a) ∧
        (va.toNat % 64 = 0 → ¬late → ∀ bs, read = .ok bs →
          let r := recOf bs
          let src := (collSrc r).toNat % collElem r
          let dst := (collDst r).toNat % collElem r
          let room := (x0.colls.filter fun k => k.comm == collComm r && k.result.isNone).length < 8
          (collBad r = true → fault u0 cSHAPE 0) ∧
          (collBad r = false → src ≠ 0 → fault u0 cALIGN (collSrc r)) ∧
          (collBad r = false → src = 0 → dst ≠ 0 → fault u0 cALIGN (collDst r)) ∧
          (collBad r = false → src = 0 → dst = 0 → ¬room →
            exec (.coll h f) s = .next (u0.waitAt e s.iss.lanes (.collRoom (collComm r)))) ∧
          (collBad r = false → src = 0 → dst = 0 → room →
            let k := u0.newColl e n r
            let v := ((u0.modComm e.g.ctx k.comm fun c => { c with seq := (k.seq + 1) % 2 ^ 26 }).nibD e f.d
              [BitVec.ofNat 32 (k.comm * 2 ^ 26 + k.seq)]).modContext e.g.ctx fun x => { x with
                colls := (x.colls.filter fun q => q.comm != k.comm || q.result.isNone || (k.seq + 2 ^ 26 - q.seq) % 2 ^ 26 < 256) ++ [k] }
            k.comm = collComm r ∧ k.seq = (u0.comm e.g.ctx k.comm).seq ∧ k.unread = true ∧ exec (.coll h f) s =
              .next (if k.takesPart then (v.takeEarly e.g.ctx k.comm k.seq).collGo e.g.ctx k.comm k.seq
                else v.failColl e.g.ctx k cREMOTE k.self)))) ∧
      (∀ (v : State) (ctx comm seq : Nat) (k : Coll), v.coll ctx comm seq = some k → k.result = none → k.unread = true →
        (v.collTurn k = false → v.collGo ctx comm seq = v) ∧
        (v.collTurn k = true → ∀ x t, v.collSource ctx k = (.error (.fault x), t) →
          v.collGo ctx comm seq = t.failColl ctx k x.code k.self) ∧
        (v.collTurn k = true → ∀ bs t, v.collSource ctx k = (.ok bs, t) →
          let w := t.modColl ctx comm seq fun q => { q with
            unread := false, got := if k.givers.contains k.self then (k.self, 0, bs) :: q.got else q.got }
          v.collGo ctx comm seq = (w.sendColls ctx k bs ((k.ranks.map Prod.fst).filter (· != k.self))).tryColl ctx comm seq)) ∧
      (NibIssues s (.cwait h f) h n →
        (x.colls.find? (fun k => k.comm == w / 2 ^ 26 && k.seq == w % 2 ^ 26) = none →
          exec (.cwait h f) s = .next (u.nibD e f.d [0x0D])) ∧
        (∀ k, known k → old → exec (.cwait h f) s = .next (u.nibD e f.d [0x0D])) ∧
        (∀ k, known k → ¬old → u.meets e (.coll (w / 2 ^ 26) (w % 2 ^ 26)) = false →
          exec (.cwait h f) s = .next (u.waitAt e s.iss.lanes (.coll (w / 2 ^ 26) (w % 2 ^ 26)))) ∧
        (∀ k, known k → ¬old → u.meets e (.coll (w / 2 ^ 26) (w % 2 ^ 26)) = true → exec (.cwait h f) s =
          .next ((u.acquire s.iss.core .s).nibD e f.d [(k.result.getD 0).zeroExtend 32]))) ∧
      (NibIssues s (.genrd h f) h n → ∃ t, exec (.genrd h f) s = .next t ∧ Computes s t h [(f.d, fun _ =>
        [if f.sub = 0 then (match c.staged with | some t => t.gen | none => c.gen) ++ c.gen
          else if f.sub = 1 then c.droppedOld else if f.sub = 2 then c.blocked else c.refused])] []) ∧
      (NibIssues s (.ranksw h f) h n →
        (¬drained → exec (.ranksw h f) s = .next (u.waitAt e s.iss.lanes (.drain .p mark))) ∧
        (drained → c.staged = none → exec (.ranksw h f) s =
          .next ((u.acquire s.iss.core .p).nibD e f.d [BitVec.ofNat 32 c.gen.toNat])) ∧
        (drained → ∀ t, c.staged = some t →
          let v := ((u.adopt e.g.ctx (f.mod.toNat % 64)).2).acquire s.iss.core .p
          exec (.ranksw h f) s = .next (v.nibD e f.d
            [BitVec.ofNat 32 ((v.comm e.g.ctx (f.mod.toNat % 64)).gen.toNat + 65536)])))) ∧
  (
    (∀ (s : State) (d : Nat) (p : Fesel) (x : Context), s.context p.tctx.toNat = some x →
      let ctx := p.tctx.toNat
      let comm := p.comm.toNat % 64
      let seq := p.aux.toNat % 2 ^ 26
      let mine := fun (k : Coll) => decide (k.comm = comm ∧ k.seq = seq ∧ k.gen = p.gen)
      let ahead := (seq + 2 ^ 26 - (x.comm comm).seq) % 2 ^ 26
      (x.colls.find? mine = none → ahead < 2 ^ 25 → s.onCollData d p =
        s.modContext ctx fun y => { y with early := y.early ++ [(d, p)] }) ∧
      (x.colls.find? mine = none → 2 ^ 25 ≤ ahead → s.onCollData d p = s) ∧
      (∀ k, x.colls.find? mine = some k →
        let r := s.rankOf ctx comm p.src
        let u := s.modColl ctx comm seq fun k => { k with last := (s.die k.die).cycle }
        let off := p.vaddr.toNat
        let member := u.deviceOf ctx comm r = some p.src ∧ r ∈ k.ranks.map Prod.fst
        (k.result ≠ none → s.onCollData d p = s) ∧
        (k.result = none → ¬member → s.onCollData d p = u) ∧
        (k.result = none → member → p.extra ≠ collSays k.desc → s.onCollData d p = u.failColl ctx k cREMOTE r) ∧
        (k.result = none → member → p.extra = collSays k.desc → s.onCollData d p = (u.modColl ctx comm seq fun k => { k with
          got := k.got ++ [(r, off, p.payload.take (Nat.min 4096 (k.size - off)))] }).tryColl ctx comm seq))) ∧
    (∀ (s : State) (ctx comm seq : Nat) (k : Coll), s.coll ctx comm seq = some k →
      let outs := State.collStores k ctx (k.dstSize / collElem k.desc) (Coll.output k) s
      (k.result ≠ none ∨ k.unread = true ∨ k.missing ≠ [] → s.tryColl ctx comm seq = s) ∧
      (k.result = none → k.unread = false → k.missing = [] →
        (∀ f, outs.2.1 = some (.fault f) → s.tryColl ctx comm seq = outs.2.2.failColl ctx k f.code k.self) ∧
        (outs.2.1 = none → s.tryColl ctx comm seq = (outs.2.2.postColl ctx k outs.1).modColl ctx comm seq fun k => { k with
          result := some 0 }))))

/-- RRD3, RWIN, RWCLOSE, TVIEW and TVCLOSE (R315, R317, R334 to R338, R344, R345), where their checks pass: RRD3 gives its plan to the
die's join engine under a sequence number, while it has room; RWIN opens a window and sends a grant to each donor; RWCLOSE begins no
further landing, waits until those begun have ended, closes the window and gives the count of what it discarded; TVIEW opens a view with
every chunk Clean, after an acquire-release fence of scope .P; TVCLOSE closes one once its reads have ended, and gives whether it was lost
and the most slots it used. An RRD3 of no stripes completes at issue. While a record or a page's walk has to wait, the set waits at its
instruction (log 27). Which leaves a view remembers, to see that a page was remapped, is the model's choice (log 48). -/
def Obligations.WindowsAndViews : Prop :=
  ∀ (s : State) (h : Hdr) (f : EF) (n : Nat),
    let e := s.env h
    let u := s.beginIssue h
    let c := s.iss.core
    let va := e.src64 n false f.a
    let pair := pairVal (e.g.rs (2 * f.spair.val)) (e.g.rs (2 * f.spair.val + 1))
    let count := (e.src32 n f.d).toNat
    let first := (e.src32 n f.b).toNat
    let read := fun (t : State) => t.readRecord c s.iss.slot e.g.ctx
    let done := fun (t : State) (rs : List (W64 × Nat)) => rs.foldl (fun t x => t.recordRead c s.iss.slot e.g.ctx x.1 x.2) t
    let late := fun (t : State) (rs : List (W64 × Nat)) => rs.find? fun x => t.reachWaits c s.iss.slot e.g.ctx x.1 x.2
    let walked := fun (t : State) (a : W64) (k : Nat) => (pageStarts (k / 65536 + 2) a k).foldl (fun t a => (t.coreXlate c e.g.ctx a).2) t
    let slow := fun (t : State) (a : W64) (k : Nat) => (pageStarts (k / 65536 + 2) a k).find? fun a => t.walkWaits c e.g.ctx a
    let wait := fun (i : Instr) (t : State) (k : Cond) => exec i s = .next (t.waitAt e s.iss.lanes k)
    let firm := s.iss.slot == 63
    let win := modBits f.mod 7 0
    let comm := modBits f.mod 13 8
    let w2 := (e.srcAt n f.a 2).toNat
    let w3 := e.srcAt n f.a 3
    let num := modBits f.mod 3 0
    (NibIssues s (.rrd3 h f) h n → va.toNat % 64 = 0 →
      let parts := u.planParts e va
      let r := done u parts
      (∀ x, late u parts = some x → wait (.rrd3 h f) u (.reach x.1 x.2)) ∧
      (late u parts = none → ∀ a, slow r pair count = some a → wait (.rrd3 h f) r (.reach a 0)) ∧
      (late u parts = none → slow r pair count = none →
        let v := walked r pair count
        ∀ hd bd ps, read v va 64 = .ok hd → read v (va + 64) (32 * planRegions (wordsIn hd)) = .ok bd →
        v.coreRange c e.g.ctx { w := true } firm pair count = .ok ps →
        let plan := wordsIn (hd ++ bd)
        (planBad plan first count = true → exec (.rrd3 h f) s = .next (v.raise e n { code := cSHAPE })) ∧
        (planBad plan first count = false → (v.comm e.g.ctx (planComm plan)).gen ≠ planGen plan →
          exec (.rrd3 h f) s = .next (v.raise e n { code := cGEN })) ∧
        (planBad plan first count = false → (v.comm e.g.ctx (planComm plan)).gen = planGen plan →
          (8 ≤ (v.die (dieOf c)).joinQ.length → wait (.rrd3 h f) v .joinRoom) ∧
          ((v.die (dieOf c)).joinQ.length < 8 → exec (.rrd3 h f) s = .next (v.startRrd3 e n plan first count pair))))) ∧
    (∀ (v : State) (plan : List W32) (k m : Nat) (a : W64),
      let t := v.startRrd3 e n plan k m a
      let seq := (v.core e.core).cmdCtr + 1
      (m = 0 → t = v.modCore e.core fun x => { x with cmdCtr := seq }) ∧
      (m ≠ 0 → (t.core e.core).cmdCtr = seq ∧ (t.die (dieOf e.core)).joinQ = (v.die (dieOf e.core)).joinQ ++ [{
        core := e.core
        seq := seq
        slot := e.slot
        lane := n
        ctx := e.g.ctx
        pc := e.pc
        plan := plan
        first := k
        count := m
        next := k
        status := a }])) ∧
    (NibIssues s (.rwin h f) h n →
      let nd := modBits f.mod 17 14
      let list := [(pair, 4 * nd)]
      va.toNat % 65536 = 0 → pair.toNat % 4 = 0 → w2 ≠ 0 → nd ≠ 0 → nd ≤ 8 →
      (late u list ≠ none → wait (.rwin h f) u (.reach pair (4 * nd))) ∧
      (late u list = none →
        let r := done u list
        ∀ bs dev donors, read r pair (4 * nd) = .ok bs → (e.team.bar f.bar.val).members ≠ 0 → r.openWindows < 64 →
        r.devicesOf e.g.ctx comm (w3.toNat :: (wordsIn bs).map BitVec.toNat) = some (dev :: donors) →
        (((r.window e.g.ctx win).getD {}).isOpen = true → exec (.rwin h f) s = .next (r.raise e n { code := cPERM })) ∧
        (((r.window e.g.ctx win).getD {}).isOpen = false → 8 ≤ (r.die (dieOf c)).portsDown.length → wait (.rwin h f) r .ports) ∧
        (((r.window e.g.ctx win).getD {}).isOpen = false → (r.die (dieOf c)).portsDown.length < 8 →
          let v := r.modWindow e.g.ctx win fun _ => {
            core := c
            launch := e.g.launch
            lin := e.team.lin
            bar := f.bar.val
            base := va
            len := 65536 * w2
            lead := dev
            comm := comm
            gen := (r.comm e.g.ctx comm).gen
            isOpen := true }
          exec (.rwin h f) s = .next ((distinct donors).foldl (fun t x => t.sendPlain e.g.ctx (dieOf c)
            { t.fesel e.g.ctx comm 0x0B x with aux := BitVec.ofNat 32 (win * 2 ^ 24 + dev.toNat) }) v)))) ∧
    (NibIssues s (.rwclose h f) h n →
      let w := (u.window e.g.ctx win).getD {}
      let v := u.modWindow e.g.ctx win fun w => { w with closing := true }
      (w.isOpen = false → exec (.rwclose h f) s = .next (u.nibD e f.d [w.discarded])) ∧
      (w.isOpen = true → v.meets e (.landed win) = false → wait (.rwclose h f) v (.landed win)) ∧
      (w.isOpen = true → v.meets e (.landed win) = true → exec (.rwclose h f) s =
        .next ((v.modWindow e.g.ctx win fun w => { w with isOpen := false, byGen := false, closing := false }).nibD e f.d [w.discarded]))) ∧
    (NibIssues s (.tview h f) h n →
      let slots := (field w3 0 16).toNat
      let list := e.src64 n false f.d
      let ng := modBits f.mod 7 4
      va.toNat % 65536 = 0 → pair.toNat % 65536 = 0 → list.toNat % 4 = 0 → w2 ≠ 0 → slots ≠ 0 → field w3 16 16 = 0 → ng ≤ 8 →
      let rs := [(list, 4 * ng)]
      let r := done u rs
      (late u rs ≠ none → wait (.tview h f) u (.reach list (4 * ng))) ∧
      (late u rs = none → ∀ a, slow r pair (65536 * slots) = some a → wait (.tview h f) r (.reach a 0)) ∧
      (late u rs = none → slow r pair (65536 * slots) = none →
        let v := walked r pair (65536 * slots)
        let mark := (drainMark e .p s.iss.lanes).getD v.nextId
        ∀ ps bs devs, v.coreRange c e.g.ctx { w := true } firm pair (65536 * slots) = .ok ps → read v list (4 * ng) = .ok bs →
        v.devicesOf e.g.ctx comm ((wordsIn bs).map BitVec.toNat) = some devs →
        ((v.views.find num).isSome = true → exec (.tview h f) s = .next (v.raise e n { code := cPERM })) ∧
        (v.views.find num = none → v.drained c s.iss.slot .p mark = false → wait (.tview h f) v (.drain .p mark false)) ∧
        (v.views.find num = none → v.drained c s.iss.slot .p mark = true →
          let t := v.acquire c .p
          exec (.tview h f) s = .next { t with views := t.views.put num {
            die := dieOf c
            ctx := e.g.ctx
            base := va
            chunks := w2
            pool := pair
            slots := slots
            grants := devs
            comm := comm
            leaves := t.viewLeaves e.g.ctx va w2 } }))) ∧
    (NibIssues s (.tvclose h f) h n →
      (u.views.find num = none → exec (.tvclose h f) s = .next (u.nibD e f.d [0])) ∧
      (∀ v, u.views.find num = some v → v.ctx ≠ e.g.ctx → exec (.tvclose h f) s = .next (u.raise e n { code := cPERM })) ∧
      (∀ v, u.views.find num = some v → v.ctx = e.g.ctx →
        (v.reads ≠ [] → wait (.tvclose h f) u (.view num)) ∧
        (v.reads = [] → exec (.tvclose h f) s = .next
          (({ u with views := u.views.erase num } : State).nibD e f.d
            [BitVec.ofNat 32 ((if v.lost then 0x14 else 0) + Nat.min v.most (2 ^ 24 - 1) * 2 ^ 8)]))))

/-! ## The gateways -/

/-- A packet arrives at the gateway of a die (R303 to R307, R332): one of this package's, of its kind, is acted on or waits as R306 and
R371 say, and any other leaves everything as it is; one that waits at the gateway is taken up by the same event, and where it must still
wait keeps its place; a packet of kinds 0x07 to 0x12 for a context that does not exist is dropped and counted (R374), as is one whose CRC
fails or whose kind is reserved; none arrives while every port of the gateway is down. The words of a packet's header hold its fields as
Table 19-5 lays them out, and a receiver reads from the bytes of a packet the packet itself, its payload in whole units (what parameters
a kind carries in its payload, and that they read back as payload, is the model's layout: log 31). While the package is not in L0 every
packet wakes it and waits (R292, R311). The place that a waiting packet keeps is the model's choice (log 49).

The check of R306: a packet of no communicator, or for a context that does not exist, passes; one from a blocked device is dropped
and counted; one of the adopted generation passes; an older one is dropped and counted; a newer one is held while fewer than 64 are,
else it is dropped and counted, and a refusal that names it goes to its source. And that of R371: a source whose stream is frozen only
has its packets counted, and one that its context does not name is frozen. The code of the freeze record is free (log 36). -/
def Obligations.Gateways : Prop :=
  (
    (∀ (s : State) (d : Nat) (p : Fesel), d < s.dieCount → p.dst = s.devid → (d, p) ∉ s.gateQ →
      (∃ q, q < 8 ∧ q ∉ (s.die d).portsDown) →
      let acts := fun (i : Instr) => exec i s = .next (s.packet d p)
      (p.kind = 0x01 → acts (.remoteRead d p)) ∧ (p.kind = 0x02 → acts (.readReply d p)) ∧
      (p.kind = 0x03 → acts (.remoteWrite d p)) ∧ (p.kind = 0x04 → acts (.writeAck d p)) ∧
      (p.kind = 0x05 → acts (.remoteAtomic d p)) ∧ (p.kind = 0x06 → acts (.atomicReply d p)) ∧
      (p.kind = 0x07 → acts (.xrq d p)) ∧ (p.kind = 0x08 → acts (.xdt d p)) ∧ (p.kind = 0x09 → acts (.xcn d p)) ∧
      (p.kind = 0x0A → acts (.xer d p)) ∧ (p.kind = 0x0B → acts (.gnt d p)) ∧ (p.kind = 0x0C → acts (.collectiveData d p)) ∧
      (p.kind = 0x0D → acts (.heartbeat d p)) ∧ (p.kind = 0x0E → acts (.probeRequest d p)) ∧
      (p.kind = 0x0F → acts (.probeReply d p)) ∧ (p.kind = 0x10 ∨ p.kind = 0x11 → acts (.verdict d p)) ∧
      (p.kind = 0x12 → acts (.refusal d p))) ∧
    (∀ p : Fesel, 0 < p.kind.toNat → p.kind.toNat ≤ 0x12 → (Fesel.body p).length < 64 * 256 →
      Fesel.ofWire (Fesel.wire p) = some { p with payload := Fesel.body p, extra := [] }) ∧
    (∀ p : Fesel, (Fesel.body p).length < 64 * 256 →
      let bs := Fesel.wire p
      let n := bs.length - 4
      let w := fun i => ofBytes ((bs.drop (4 * i)).take 4)
      natBits (w 0) 31 27 = p.kind.toNat ∧ natBits (w 0) 26 20 = 0 ∧ natBits (w 0) 19 0 = p.dst.toNat ∧
      natBits (w 1) 31 20 = 0 ∧ natBits (w 1) 19 0 = p.src.toNat ∧ natBits (w 2) 31 16 = p.comm.toNat ∧
      natBits (w 2) 15 0 = p.gen.toNat ∧ w 3 = p.fid.toNat ∧ w 4 + 2 ^ 32 * w 5 = p.vaddr.toNat ∧
      natBits (w 6) 31 24 = (Fesel.body p).length / 64 ∧ natBits (w 6) 23 16 = p.code.toNat ∧ natBits (w 6) 15 0 = p.tctx.toNat ∧
      w 7 = p.aux.toNat ∧ (bs.take n).drop 32 = Fesel.body p ∧ bs.drop n = bytesOf 4 (crc32c (bs.take n)).toNat) ∧
    (∀ (s : State) (d : Nat) (p : Fesel) (kinds : List (BitVec 5)),
      s.dieCount ≤ d ∨ p.kind ∉ kinds ∨ p.dst ≠ s.devid ∨ ((d, p) ∉ s.gateQ ∧ ∀ q, q < 8 → q ∈ (s.die d).portsDown) →
      s.packetEvent d p kinds = .next s) ∧
    (∀ (s : State) (d : Nat), d < s.dieCount → exec (.badFeselPacket d) s =
      .next (s.modDie d fun k => { k with badPackets := k.badPackets + 1 })) ∧
    (∀ (s : State) (d : Nat) (p : Fesel) (kinds : List (BitVec 5)), d < s.dieCount → p.kind ∈ kinds → p.dst = s.devid →
      (d, p) ∈ s.gateQ →
        let t : State := { s with gateQ := dropPacket d p s.gateQ }
        (t.packet d p = { t with gateQ := t.gateQ ++ [(d, p)] } → s.packetEvent d p kinds = .next s) ∧
        (t.packet d p ≠ { t with gateQ := t.gateQ ++ [(d, p)] } → s.packetEvent d p kinds = .next (t.packet d p))) ∧
    (∀ (s : State) (d : Nat) (p : Fesel), s.power ≠ .l0 ∨ s.waking = true → s.packet d p = s.wake.waitPacket d p) ∧
    (∀ (s : State) (d : Nat) (p : Fesel),
      (p.kind = 0x01 ∨ p.kind = 0x03 ∨ p.kind = 0x05 → s.actOn d p = s.serve d p) ∧
      (p.kind = 0x02 ∨ p.kind = 0x04 ∨ p.kind = 0x06 → s.actOn d p = s.onReply d p) ∧
      (p.kind = 0x07 → s.actOn d p = s.onXrq d p) ∧ (p.kind = 0x08 → s.actOn d p = s.onXdt d p) ∧
      (p.kind = 0x09 ∨ p.kind = 0x0A → s.actOn d p = s.onStripeEnd d p) ∧ (p.kind = 0x0B → s.actOn d p = s.onGrant d p) ∧
      (p.kind = 0x0C → s.actOn d p = s.onCollData d p) ∧ (p.kind = 0x0D → s.actOn d p = s.onHeartbeat d p) ∧
      (p.kind = 0x0E → s.actOn d p = s.onProbe d p) ∧ (p.kind = 0x0F → s.actOn d p = s.onProbeReply d p) ∧
      (p.kind = 0x10 → s.actOn d p = s.onVote d p) ∧ (p.kind = 0x11 → s.actOn d p = s.onVerdict d p) ∧
      (p.kind = 0x12 → s.actOn d p = s.onRefusal d p)) ∧
    (∀ (s : State) (d : Nat) (p : Fesel), s.power = .l0 → s.waking = false →
      (7 ≤ p.kind.toNat → s.context p.tctx.toNat = none →
        s.packet d p = s.modDie d fun k => { k with badPackets := k.badPackets + 1 }) ∧
      (p.kind.toNat < 7 → Fesel.isReply p = true → s.findReq d p = none → s.packet d p = s) ∧
      (Fesel.isReply p = false → s.packetCtx d p = some p.tctx.toNat)) ∧
    (∀ (s : State) (d ctx : Nat) (p : Fesel), s.power = .l0 → s.waking = false →
      s.packetCtx d p = some ctx → (7 ≤ p.kind.toNat → s.context p.tctx.toNat ≠ none) →
      (∀ u, s.gate d p ctx = .error u → s.packet d p = u) ∧
      (∀ u, s.gate d p ctx = .ok u → (Fesel.isReply p = true ∨ p.kind = 0x12 → s.packet d p = u.actOn d p) ∧
        (Fesel.isReply p = false → p.kind ≠ 0x12 → (∀ v, u.admission d p = .ok v → s.packet d p = v.actOn d p) ∧
          (∀ v, u.admission d p = .error v → s.packet d p = v))))) ∧
  (
    (∀ (s : State) (d ctx : Nat) (p : Fesel),
      let n := p.comm.toNat % 64
      let ahead := (p.gen - (s.comm ctx n).gen).toNat
      let none_ := p.comm = 0xFFFF ∨ s.context ctx = none
      let blocked := p.src ∈ (s.die d).blockList
      let full := 64 ≤ (s.die d).hold.length
      (none_ → s.gate d p ctx = .ok s) ∧
      (¬none_ → blocked → s.gate d p ctx = .error (s.modComm ctx n fun c => { c with blocked := satInc c.blocked })) ∧
      (¬none_ → ¬blocked → ahead = 0 → s.gate d p ctx = .ok s) ∧
      (¬none_ → ¬blocked → 32767 < ahead →
        s.gate d p ctx = .error (s.modComm ctx n fun c => { c with droppedOld := satInc c.droppedOld })) ∧
      (¬none_ → ¬blocked → 0 < ahead → ahead ≤ 32767 → ¬full →
        s.gate d p ctx = .error (s.modDie d fun g => { g with hold := g.hold ++ [(ctx, p)] })) ∧
      (¬none_ → ¬blocked → 0 < ahead → ahead ≤ 32767 → full →
        let u := s.modComm ctx n fun c => { c with refused := satInc c.refused }
        (u.comm ctx n).refused = satInc (s.comm ctx n).refused ∧ s.gate d p ctx = .error
          (u.sendPlain ctx d { u.fesel ctx 0 0x12 p.src with comm := 0xFFFF, gen := 0, aux := p.fid }))) ∧
    (∀ x : W32, satInc 0xFFFF_FFFF = 0xFFFF_FFFF ∧ (x ≠ 0xFFFF_FFFF → satInc x = x + 1)) ∧
    (∀ (s : State) (d k : Nat) (p : Fesel), k < s.dieCount → (∃ y ∈ (s.die k).frozenSrc, y.1 = p.src) →
      (∀ j, j < k → ∀ y ∈ (s.die j).frozenSrc, y.1 ≠ p.src) →
      s.admission d p = .error (s.modDie k fun g => { g with
        frozenSrc := g.frozenSrc.map fun x => if x.1 == p.src then (x.1, x.2 + 1) else x })) ∧
    (∀ (s : State) (d : Nat) (p : Fesel) (x : Context), s.context p.tctx.toNat = some x →
      (∀ k, k < s.dieCount → ∀ y ∈ (s.die k).frozenSrc, y.1 ≠ p.src) →
      (p.src ∈ x.admitted → s.admission d p = .ok s) ∧
      (p.src ∉ x.admitted → ∃ u, s.admission d p = .error u ∧ ∃ y ∈ (u.die d).frozenSrc, y.1 = p.src)))

/-- Requests of other packages are served (R304, R332, R361): one whose context does not exist is answered with PERM, one whose range does
not translate or whose pages do not grant the access with that code, one whose granules have another tag than the pointer's with TAG,
one to a die that the gateway's die has no link to with REMOTE, one that meets poison at the gateway's own die with ECC, and a load or
atomic of a stack there held too long with THERM, in that order; a walk or a stack that must be waited for keeps it at the gateway. It is
then performed line by line: what is homed on the gateway's own die there, a read giving the bytes, a write storing them, an atomic giving
the old value; the rest by a die-link request that carries the pointer's tag, or with REMOTE where no module is up, and what it writes
leaves the remote-data cache of the gateway's die. Once every piece has been answered, a request is replied to with the code of its first
fault, or the bytes in order. A reply completes its request and the lane is late no longer, and a request that has waited the response
timeout fails with REMOTE. A refusal marks the oldest packet that it can mean, and a refused packet is sent again after 10 µs; one whose
generation its source has left is not, and what it was sent for fails with GEN. Which packet a refusal means (log 32) and the order of
the checks (log 46) are the model's choices. -/
def Obligations.RemoteService : Prop :=
  (∀ (s : State) (d : Nat) (p : Fesel),
    let ctx := p.tctx.toNat
    let n := (Fesel.access p).1
    let k := (Fesel.access p).2.1
    let need := (Fesel.access p).2.2
    let m := Nat.max 1 n
    let w := s.rangeWalked d ctx p.vaddr m
    (s.context ctx = none → s.serve d p = s.reply d p cPERM []) ∧
    (s.context ctx ≠ none → s.rangeWaits d ctx p.vaddr m = true → s.serve d p = s.waitPacket d p) ∧
    (s.context ctx ≠ none → s.rangeWaits d ctx p.vaddr m = false →
      (∀ c va, s.range d ctx need false p.vaddr m = .error (c, va) → s.serve d p = w.reply d p c []) ∧
      (∀ ps, s.range d ctx need false p.vaddr m = .ok ps →
        let near := ps.filter fun x => homeDie x.1 == d
        let v := if k = .read then w else near.foldl (fun t x => if t.held x.1 then t else t.startCopies x.1) w
        (∀ c, w.ingressFault d ctx p.vaddr k ps = some c → s.serve d p =
          (if c = cECC then near.foldl (fun t x => t.readArray x.1 x.2) w else w).reply d p c []) ∧
        (w.ingressFault d ctx p.vaddr k ps = none → (∃ x ∈ near, v.ingressWaits k x.1 x.2 = true) →
          s.serve d p = v.waitPacket d p) ∧
        (w.ingressFault d ctx p.vaddr k ps = none → (∀ x ∈ near, v.ingressWaits k x.1 x.2 = false) →
          let u := match ps.find? fun (pa, n) => !(v.watchTable ctx k false pa n).isEmpty with
            | some (pa, n) => v.ingressWatch p k pa n
            | none => v
          let r := u.ingressGo d p (ptrTag p.vaddr) k (if n = 0 then [] else ps) (p.payload.take n)
          (∀ x t, r.2.ingressTake d r.1 = some (x, t) → s.serve d p = t.ingressReply d x) ∧
          (r.2.ingressTake d r.1 = none → s.serve d p = r.2))))) ∧
  (∀ (s : State) (d ctx : Nat) (va : W64) (k : AKind) (ps : List (Nat × Nat)),
    let f := s.ingressFault d ctx va k ps
    let tag := s.tagsFail ctx va (ps.foldl (fun n x => n + x.2) 0) = true
    let cut := ∃ x ∈ ps, s.linked d (homeDie x.1) = false
    let bad := ∃ x ∈ ps, homeDie x.1 = d ∧ (if k = .write then s.badPart x.1 x.2 else s.bad x.1 x.2) = true
    let late := k ≠ .write ∧ ∃ x ∈ ps, homeDie x.1 = d ∧ s.held x.1 = true ∧ s.homeHit x.1 x.2 = false ∧ s.overdue (stackOf x.1) = true
    (tag → f = some cTAG) ∧ (¬tag → cut → f = some cREMOTE) ∧ (¬tag → ¬cut → bad → f = some cECC) ∧
    (¬tag → ¬cut → ¬bad → late → f = some cTHERM) ∧ (¬tag → ¬cut → ¬bad → ¬late → f = none)) ∧
  (∀ (s : State) (ctx n : Nat) (va : W64), s.tagsFail ctx va n = true ↔ ∃ g ∈ blocks 64 va.toNat n, ∃ pa e lg,
    s.walk ctx (if 64 * g < va.toNat then va else BitVec.ofNat 64 (64 * g)) = .ok (pa, e, lg) ∧ s.tagOn ctx e = true ∧
      s.tagMatch ctx (ptrTag va) (tagOf (s.metaAt pa)) = false) ∧
  (∀ off pa n : Nat, 0 < n → pa / 128 = (pa + n - 1) / 128 → linePieces off [(pa, n)] = [(off, pa, n)]) ∧
  (∀ (s : State) (d : Nat) (p : Fesel) (tag : BitVec 4) (k : AKind) (ps : List (Nat × Nat)) (bs : List Byte),
    let xs := linePieces 0 ps
    let u := ({ s with nextId := s.nextId + 1 } : State).modDie d fun g => { g with
      ingress := g.ingress ++ [{ id := s.nextId, pkt := p, left := xs.length }] }
    s.ingressGo d p tag k ps bs = (s.nextId, xs.foldl (fun t x =>
      let part := (bs.drop x.1).take x.2.2
      if homeDie x.2.1 = d then t.ingressNear d s.nextId p k x.1 x.2.1 x.2.2 part
      else t.ingressFar d s.nextId p tag k x.1 x.2.1 x.2.2 part) u)) ∧
  (∀ (s : State) (d id off pa n : Nat) (p : Fesel) (tag : BitVec 4) (bs : List Byte),
    let o := Fesel.atomOp p
    let loaded := s.homeLoad pa n .normal
    let read := loaded.softRead pa (loaded.bytes pa n)
    let old := (s.softAccess pa n).homeAtomic pa o (coverBlock pa (pa + n)) .normal
    let swaps := o.cas = true ∧ old.1 = o.compare
    let sent := fun (v : State) (q : Pkt) (data : List (BitVec 128)) (t : State) =>
      match v.request d (.ingress id off pa n) q data with
      | none => t = v.ingressPart d id off cREMOTE []
      | some x => t = x.2
    let q : Pkt := { op := 0x01, src := 0, dst := 0, scope := .s, tag := tag, ctx := p.tctx.toNat, addr := pa / 128 * 128 }
    let v := ((s.softAccess pa n).dropFar d [(pa, n)]).staleReads d (pa / 128)
    s.ingressNear d id p .read off pa n bs = read.2.ingressPart d id off 0 read.1 ∧
    s.ingressNear d id p .write off pa n bs = ((s.softAccess pa n).homeStore pa bs .normal).ingressPart d id off 0 [] ∧
    s.ingressNear d id p .atomic off pa n bs =
      old.2.ingressPart d id off 0 (bytesOf 8 old.1.toNat ++ bytesOf 1 (if swaps then 1 else 0)) ∧
    sent s { q with aop := readSectors (pa, n) } [] (s.ingressFar d id p tag .read off pa n bs) ∧
    sent v { q with op := 0x03 } (writeSlots pa bs) (s.ingressFar d id p tag .write off pa n bs) ∧
    sent v (atomPkt q pa o).1 (atomPkt q pa o).2 (s.ingressFar d id p tag .atomic off pa n bs)) ∧
  (∀ (s : State) (d : Nat) (x : Ingress),
    let n := (Fesel.access x.pkt).1
    let k := (Fesel.access x.pkt).2.1
    let bs := (sortDedup (x.got.map Prod.fst)).flatMap fun o => ((x.got.find? fun y => y.1 == o).map Prod.snd).getD []
    (x.code ≠ 0 → s.ingressReply d x = s.reply d x.pkt x.code []) ∧
    (x.code = 0 → s.ingressReply d x = s.reply d x.pkt 0
      (if k = .write then [] else padTo (if k = .read then 64 * ceilDiv n 64 else 64) bs))) ∧
  (∀ (s : State) (d k : Nat) (p : Fesel) (r : RReq), s.findReq d p = some (k, r) →
    let u := s.dropReq k r
    let done := fun (t : State) => (if isAcq r.order then t.acquire r.core .s else t).onTime r
    (p.code ≠ 0 → s.onReply d p = u.failReq r p.code) ∧
    (p.code = 0 → r.kind = .rst → s.onReply d p = done u) ∧
    (p.code = 0 → ∀ t, r.kind = .rld t →
      s.onReply d p = done (u.arrive r.core r.slot r.lane t (ofBytes (p.payload.take t.bytes)) true)) ∧
    (p.code = 0 → ∀ t, r.kind = .ratom t → s.onReply d p =
      done (u.arrive r.core r.slot r.lane t (ofBytes (p.payload.take t.bytes)) ((p.payload[8]?.getD 0) == 1)))) ∧
  (∀ (s : State) (d : Nat) (fid : BitVec 32),
    exec (.responseTimeout d fid) s = .next (((s.timeoutReq d fid).timeoutStripe d fid).timeoutColls d fid) ∧
    (∀ r, (s.die d).reqs.find? (fun r => r.fid == fid) = some r →
      (r.sent + s.timeout r.ctx ≤ (s.die d).cycle → s.timeoutReq d fid = (s.dropReq d r).failReq r cREMOTE) ∧
      ((s.die d).cycle < r.sent + s.timeout r.ctx → s.timeoutReq d fid = s))) ∧
  (∀ (s : State) (d : Nat) (fid : BitVec 32), (∀ x ∈ (s.die d).sent, x.pkt.fid = fid → x.due = none) →
    exec (.refusalResend d fid) s = .next s) ∧
  (∀ (s : State) (x : Sent), s.outdated x = true ↔
    x.pkt.comm ≠ 0xFFFF ∧ x.pkt.gen ≠ (s.comm x.ctx (x.pkt.comm.toNat % 64)).gen) ∧
  (∀ (s : State) (d : Nat) (p : Fesel) (x : Sent) (rest : List Sent), (s.die d).sent = x :: rest → x.pkt.fid = p.aux →
    x.pkt.dst = p.src → x.due = none ∨ x.resent = true →
    (s.outdated x = true → s.onRefusal d p = s.staleSent d x) ∧
    (s.outdated x = false → s.onRefusal d p = s.modDie d fun k => { k with
      sent := { x with refused := true, due := some (s.die d).cycle, resent := false } :: rest })) ∧
  (∀ (s : State) (d t : Nat) (x : Sent) (rest : List Sent), (s.die d).sent = x :: rest → x.due = some t →
    let now := (s.die d).cycle
    (now < t + 10 * Config.cyclesPerUs → exec (.refusalResend d x.pkt.fid) s = .next s) ∧
    (t + 10 * Config.cyclesPerUs ≤ now → s.outdated x = true → exec (.refusalResend d x.pkt.fid) s = .next (s.staleSent d x)) ∧
    (t + 10 * Config.cyclesPerUs ≤ now → s.outdated x = false → x.at_ + s.timeout x.ctx ≤ now →
      exec (.refusalResend d x.pkt.fid) s = .next (s.modDie d fun k => { k with sent := rest })) ∧
    (t + 10 * Config.cyclesPerUs ≤ now → s.outdated x = false → now < x.at_ + s.timeout x.ctx →
      exec (.refusalResend d x.pkt.fid) s = .next
        (((s.modDie d fun k => { k with sent := { x with due := some now, resent := true } :: rest }).putOut d x.port x.pkt).getD s))) ∧
  (∀ (s : State) (d : Nat) (x : Sent),
    let u := s.modDie d fun k => { k with sent := k.sent.filter (· ≠ x) }
    (∀ r, x.pkt.kind.toNat ≤ 5 → (u.die d).reqs.find? (fun r => r.fid == x.pkt.fid) = some r →
      s.staleSent d x = (u.dropReq d r).failReq r cGEN) ∧
    (x.pkt.kind = 0x07 → ∀ y, (u.die d).stripes.find? (fun y => y.fid == x.pkt.fid) = some y →
      s.staleSent d x = u.endStripe d y cGEN))

/-- Cadence and third-party reads go on by themselves (R308 to R312, R316, R335): a heartbeat to each monitor every 20 µs; suspicion
100 µs after a subject's last heartbeat, and a vote where every probe of it has gone 40 µs without an answer; no stripe leaves while 16
are in flight, its engine is frozen or the package is not in L0, and a command's stripes leave in order; the end of a chunk's copy lets
its reads go on, unless a stack holds what it copies; its codewords are then read, and the chunk stands in its slot with its tags and
poison. That the package times cadence by the counter of die 0, and when its ring counts, are the model's choices (log 54).

What the cadence packets do (R308 to R310, log 54): a heartbeat ends the suspicion of its sender and withdraws a vote against it; a
monitor's vote goes to the lead, the live member of lowest rank other than the subject; a probed subject answers, a monitor that is asked
to probe asks the subject and passes its answer on, and an answer shows a suspected subject to be alive; the lead counts the votes of a
subject's monitors, and where they reach ⌊m ÷ 2⌋ + 1 it sends every member a verdict with the subject and the generation after its own,
once in each generation; a verdict puts the device on every block list. A package's cadence packets leave from its lowest die with a port
up.

What the packets of third-party reads do (R312 to R317, R335). A stripe leaves as an XRQ with its number, view, offset and length,
unless the plan's generation is adopted no longer (GEN) or no port is up (REMOTE). A donor keeps a grant in place of an earlier one for the
same window; it refuses an XRQ whose view is not open (VIEWLOST), whose lead its view does not admit or whose range is not wholly in the
view (PERM), that no grant or one for another lead answers (PERM) or that is of another generation (GEN), else it reads the view for it; a
read that fails gives its lead an XER and its spare a poisoned arrival. The XDTs of a stripe leave in ascending offset, of up to 4,096
bytes each, through the gateway of the die that homes the bytes. A landing that any cause of Table 19-10a stops is discarded and counted,
its stripe's first giving one XER; one that ends counts its bytes on the window's barrier, and with a stripe's last byte an XCN goes to
the lead, where a stripe's end is its status byte. A view of another context is refused as one without a grant (log 78), and which
leaves tell that a view was remapped is the model's choice (log 48). -/
def Obligations.CadenceAndStripes : Prop :=
  (
    (∀ (s : State) (ctx me : Nat) (x : Context), s.cadence ctx = some x → s.selfRank ctx = some me →
      let early := s.cadenceNow < x.lastBeat + 20 * Config.cyclesPerUs
      (early → exec (.heartbeatTimer ctx) s = .next s) ∧
      (¬early → me ∈ s.ring ctx → exec (.heartbeatTimer ctx) s = .next
        (((monitorsOf (s.ring ctx) me).foldl (fun t r => match t.deviceOf ctx 0 r with
          | some dev => t.cadenceSend ctx 0x0D dev (BitVec.ofNat 32 x.beats)
          | none => t) s).modContext ctx fun y => { y with beats := y.beats + 1, lastBeat := s.cadenceNow }))) ∧
    (∀ (ring : List Nat) (i : Nat), i < ring.length → ring.Nodup → ∀ r, ring[i]? = some r →
      (monitorsOf ring r).length = Nat.min 5 (ring.length - 1) ∧
      ∀ j, j < Nat.min 5 (ring.length - 1) → (monitorsOf ring r)[j]? = ring[(i + j + 1) % ring.length]?) ∧
    (∀ (s : State) (ctx rank me : Nat) (x : Context) (dev : BitVec 20) (w : Watched), s.cadence ctx = some x →
      s.selfRank ctx = some me → s.deviceOf ctx 0 rank = some dev → x.watched.find dev.toNat = some w →
      (s.cadenceNow < w.last + 100 * Config.cyclesPerUs → exec (.suspicion ctx rank) s = .next s) ∧
      (me ∈ monitorsOf (s.ring ctx) rank → w.suspected = none → w.last + 100 * Config.cyclesPerUs ≤ s.cadenceNow →
        s.blocked s.cadenceDie dev = false →
        let next := (((monitorsOf (s.ring ctx) rank).dropWhile (· != me)).drop 1).take 3
        let devs := next.filterMap (s.deviceOf ctx 0)
        let u := devs.foldl (fun t y => t.cadenceSend ctx 0x0E y (dev.zeroExtend 32))
          (s.modWatched ctx dev fun w => { w with suspected := some s.cadenceNow, probes := devs, alive := false })
        exec (.suspicion ctx rank) s = .next (if devs = [] then u.castVote ctx dev else u)) ∧
      (∀ t, w.suspected = some t → w.probes ≠ [] →
        (s.cadenceNow < t + 40 * Config.cyclesPerUs → exec (.probeTimeout ctx rank) s = .next s) ∧
        (t + 40 * Config.cyclesPerUs ≤ s.cadenceNow → exec (.probeTimeout ctx rank) s = .next
          (if w.alive then s.modWatched ctx dev fun w => { w with probes := [] } else s.castVote ctx dev)))) ∧
    (∀ (s : State) (d : Nat), (∀ x ∈ (s.die d).stripes, x.result = none) →
      let stops := (s.die d).joinFrozen = true ∨ 16 ≤ (s.die d).stripes.length ∨ s.power ≠ .l0
      (stops → exec (.stripeIssue d) s = .next s) ∧
      (¬stops → ∀ j, (s.die d).joinQ.find? (fun j => decide (j.next < j.first + j.count)) = some j →
        exec (.stripeIssue d) s = .next (s.issueStripe d j))) ∧
    (∀ s : State, s.cadenceNow = (s.die 0).cycle) ∧
    (∀ (s : State) (n k : Nat), exec (.chunkCopyEnd n k) s =
      .next (if s.chunkHeld n k then s else ((s.chunkCopied n k).1.postEvents (s.chunkCopied n k).2).serveView n)) ∧
    (∀ (s : State) (n k slot p q lg : Nat) (e : W64) (v : View), s.MemOk → s.views.find n = some v →
      v.state.find k = some (.copying slot) →
      s.walk v.ctx (v.base + BitVec.ofNat 64 (65536 * k)) = .ok (p, e, lg) → s.poolAddr v slot = some q →
      let u := (s.chunkCopied n k).1
      let t := (State.correctAll ((s.erring p 65536).filter fun g => !s.homeHit (64 * g) 64)
        { s with views := s.views.put n { v with state := v.state.put k (.preserved slot) } }).1
      (u.views.find n) = some { v with state := v.state.put k (.preserved slot) } ∧
      (p + 65536 ≤ q ∨ q + 65536 ≤ p → ∀ a, u.byte a = if q ≤ a ∧ a < q + 65536 then t.byte (p + (a - q)) else t.byte a) ∧
      (p % 64 = 0 → q % 64 = 0 → ∀ g, u.gmeta.get 0 g =
        if q / 64 ≤ g ∧ g < q / 64 + 1024 then t.gmeta.get 0 (p / 64 + (g - q / 64)) else t.gmeta.get 0 g))) ∧
  (
    (∀ (s : State) (ctx : Nat) (kind : BitVec 5) (dst : BitVec 20) (aux : W32) (xs : List W64),
      s.cadenceSend ctx kind dst aux xs = s.sendPlain ctx s.cadenceDie { s.fesel ctx 0 kind dst with aux := aux, extra := xs }) ∧
    (∀ (s : State) (d : Nat), d < s.dieCount → (∃ q, q < 8 ∧ q ∉ (s.die d).portsDown) →
      (∀ k, k < d → ∀ q, q < 8 → q ∈ (s.die k).portsDown) → s.cadenceDie = d) ∧
    (∀ (s : State) (ctx : Nat) (dev x : BitVec 20), s.leadFor ctx dev = some x →
      ∃ r ∈ s.ring ctx, s.deviceOf ctx 0 r = some x ∧ x ≠ dev ∧ s.blocked s.cadenceDie x = false ∧
        ∀ q ∈ s.ring ctx, q < r → ∀ y, s.deviceOf ctx 0 q = some y → y = dev ∨ s.blocked s.cadenceDie y = true) ∧
    (∀ (s : State) (ctx : Nat) (dev : BitVec 20) (w : Bool),
      (s.leadFor ctx dev = none → s.sendVote ctx dev w = s) ∧
      (∀ x, s.leadFor ctx dev = some x →
        s.sendVote ctx dev w = s.cadenceSend ctx 0x10 x (BitVec.ofNat 32 ((if w then 2 ^ 31 else 0) + dev.toNat))) ∧
      s.castVote ctx dev = (s.modWatched ctx dev fun y => { y with probes := [], voted := true }).sendVote ctx dev false) ∧
    (∀ (s : State) (d : Nat) (p : Fesel), s.cadence p.tctx.toNat = none →
      s.onHeartbeat d p = s ∧ s.onProbe d p = s ∧ s.onProbeReply d p = s ∧ s.onVote d p = s) ∧
    (∀ (s : State) (d : Nat) (p : Fesel) (x : Context), s.cadence p.tctx.toNat = some x →
      let ctx := p.tctx.toNat
      let dev : BitVec 20 := p.aux.setWidth 20
      let heard := s.modWatched ctx p.src fun _ => { last := s.cadenceNow }
      let passed := s.modContext ctx fun y => { y with relays := y.relays.filter fun z => !(z.1 == dev && p.src == dev) }
      let told := (x.relays.filter fun z => z.1 == dev && p.src == dev).foldl
        (fun t z => t.cadenceSend ctx 0x0F z.2 (dev.zeroExtend 32)) passed
      let voter := s.rankOf ctx 0 p.src
      let vs := x.votes.get [] dev.toNat
      let monitor := voter ∈ monitorsOf (s.ring ctx) (s.rankOf ctx 0 dev) ∧ s.deviceOf ctx 0 voter = some p.src
      s.onHeartbeat d p = (if (x.watched.get {} p.src.toNat).voted then heard.sendVote ctx p.src true else heard) ∧
      (dev = s.devid → s.onProbe d p = s.cadenceSend ctx 0x0F p.src (dev.zeroExtend 32)) ∧
      (dev ≠ s.devid → s.onProbe d p = (s.modContext ctx fun y => { y with relays := y.relays ++ [(dev, p.src)] }).cadenceSend
        ctx 0x0E dev (dev.zeroExtend 32)) ∧
      (∀ w, x.watched.find dev.toNat = some w → p.src ∈ w.probes →
        s.onProbeReply d p = told.modWatched ctx dev fun w => { w with alive := true }) ∧
      ((∀ w, x.watched.find dev.toNat = some w → p.src ∉ w.probes) → s.onProbeReply d p = told) ∧
      (p.aux.getLsbD 31 = true → s.onVote d p = s.modContext ctx fun y => { y with
        votes := SMap.set [] y.votes dev.toNat (vs.filter (· ≠ voter)) }) ∧
      (p.aux.getLsbD 31 = false → ¬monitor → s.onVote d p = s) ∧
      (p.aux.getLsbD 31 = false → monitor → s.onVote d p =
        (s.modContext ctx fun y => { y with votes := y.votes.put dev.toNat (insertNat voter vs) }).tryVerdict ctx)) ∧
    (∀ (s : State) (ctx : Nat) (x : Context), s.cadence ctx = some x →
      let gen := (s.comm ctx 0).gen
      let m := Nat.min 5 ((s.ring ctx).length - 1)
      let ripe := fun (y : Nat × List Nat) => m / 2 + 1 ≤ y.2.length ∧ s.leadFor ctx (BitVec.ofNat 20 y.1) = some s.devid
      ((∀ y ∈ x.votes, ¬ripe y) → s.tryVerdict ctx = s) ∧
      (x.verdict = some gen → s.tryVerdict ctx = s) ∧
      (x.verdict ≠ some gen → ∀ y rest before, x.votes = before ++ y :: rest → ripe y → (∀ z ∈ before, ¬ripe z) →
        s.tryVerdict ctx = ((s.ring ctx).filterMap (s.deviceOf ctx 0)).foldl (fun t dev =>
          t.cadenceSend ctx 0x11 dev (BitVec.ofNat 32 y.1) [(gen + 1).zeroExtend 64])
          (s.modContext ctx fun z => { z with verdict := some gen, votes := z.votes.erase y.1 }))) ∧
    (∀ (s : State) (d : Nat) (p : Fesel),
      let dev : BitVec 20 := p.aux.setWidth 20
      let t := s.onVerdict d p
      (∀ k, k < s.dieCount → dev ∈ (t.die k).blockList ∧ ∀ y, y ≠ dev → (y ∈ (t.die k).blockList ↔ y ∈ (s.die k).blockList)) ∧
      (∀ x, s.context p.tctx.toNat = some x → t.context p.tctx.toNat = some { x with
        watched := x.watched.erase dev.toNat, votes := x.votes.erase dev.toNat }))) ∧
  (
    (∀ (s : State) (d : Nat) (j : JCmd),
      let c := planComm j.plan
      let w := pw j.plan (4 + j.next % planDonors j.plan)
      let donor := BitVec.ofNat 20 w
      let at_ := stripeFrom j.plan (planRegions j.plan) 0 j.next
      let x : Stripe := { fid := (s.die d).fid, core := j.core, seq := j.seq, stripe := j.next, donor := donor, sent := (s.die d).cycle }
      let p : Fesel := { s.fesel j.ctx c 0x07 donor with
        vaddr := BitVec.ofNat 64 at_.1, aux := BitVec.ofNat 32 j.next,
        extra := [natBits w 31 24, at_.2.1, natBits (pw j.plan 1) 19 0, at_.2.2.1, at_.2.2.2].map (BitVec.ofNat 64) }
      let u := s.modDie d fun k => { k with joinQ := k.joinQ.map fun q =>
        if q.core == j.core && q.seq == j.seq then { q with next := q.next + 1 } else q }
      let failed := u.modDie d fun k => { k with fid := k.fid + 1, stripes := k.stripes ++ [x] }
      ((s.comm j.ctx c).gen ≠ planGen j.plan → s.issueStripe d j = failed.endStripe d x cGEN) ∧
      ((s.comm j.ctx c).gen = planGen j.plan → u.sendNew j.ctx d p = none → s.issueStripe d j = failed.endStripe d x cREMOTE) ∧
      ((s.comm j.ctx c).gen = planGen j.plan → ∀ fid t, u.sendNew j.ctx d p = some (fid, t) →
        s.issueStripe d j = t.modDie d fun k => { k with stripes := k.stripes ++ [x] })) ∧
    (∀ (s : State) (d : Nat) (p : Fesel),
      let win := natBits p.aux.toNat 31 24
      let t := s.onGrant d p
      let g : Grant := {
        ctx := p.tctx.toNat, spare := p.src, window := win, lead := p.aux.setWidth 20, gen := p.gen, comm := p.comm.toNat }
      (t.die d).grants = ((s.die d).grants.filter fun g => !(g.ctx == p.tctx.toNat && g.spare == p.src && g.window == win)) ++ [g]) ∧
    (∀ (s : State) (d ctx : Nat) (p : Fesel) (code : Code),
      s.failXrq d ctx p code =
        let t := s.answer ctx d { s.fesel ctx p.comm.toNat 0x0A p.src with fid := p.fid, aux := p.aux, code := code }
        t.answer ctx d (t.xdt ctx p (xpart p 4) code [])) ∧
    (∀ (s : State) (d : Nat) (p : Fesel),
      let ctx := p.tctx.toNat
      let n := xpart p 0
      let fails := fun (c : Code) => s.onXrq d p = s.failXrq d ctx p c
      (s.views.find n = none → fails cVIEWLOST) ∧
      (∀ v, s.views.find n = some v →
        (v.ctx ≠ ctx ∨ p.src ∉ v.grants ∨ 65536 * v.chunks < p.vaddr.toNat + xpart p 1 → fails cPERM) ∧
        (v.ctx = ctx → p.src ∈ v.grants → p.vaddr.toNat + xpart p 1 ≤ 65536 * v.chunks →
          let grant := s.grantOf ctx (BitVec.ofNat 20 (xpart p 2)) (xpart p 3)
          (grant = none → fails cPERM) ∧
          (∀ g, grant = some g → g.lead ≠ p.src → fails cPERM) ∧
          (∀ g, grant = some g → g.lead = p.src → g.gen ≠ p.gen ∨ g.gen ≠ (s.comm ctx (p.comm.toNat % 64)).gen → fails cGEN) ∧
          (∀ g, grant = some g → g.lead = p.src → g.gen = p.gen → g.gen = (s.comm ctx (p.comm.toNat % 64)).gen →
            s.onXrq d p = State.serveView { s with
              views := s.views.put n { v with reads := v.reads ++ [{ die := d, pkt := p }] } } n)))) ∧
    (∀ (s : State) (n m : Nat) (r : ViewRead) (v : View), s.views.find n = some v →
      let p := r.pkt
      let o := 4096 * r.next
      let len := xpart p 1
      let k := Nat.min 4096 (len - o)
      let off := p.vaddr.toNat + o
      let goes := fun (t : State) (die : Nat) (bs : List Byte) => State.sendXdts n (m + 1) s r =
        State.sendXdts n m ((t.send v.ctx die (r.next % 8) (t.xdt v.ctx p (xpart p 4 + o) 0 bs)).getD t) { r with next := r.next + 1 }
      (len ≤ o → State.sendXdts n (m + 1) s r = (s, none)) ∧
      (o < len → v.lost = false → s.viewRemapped v = true ∨ v.spoiled = true →
        goes { s with free := s.free + k } (s.viewHome v off) ((List.range k).map fun i => Config.freeByte (s.free + i))) ∧
      (o < len → v.lost = true ∨ (s.viewRemapped v = false ∧ v.spoiled = false) →
        (s.viewAddr v off k = .error none → State.sendXdts n (m + 1) s r = (s, some r)) ∧
        (∀ c, s.viewAddr v off k = .error (some c) → State.sendXdts n (m + 1) s r =
          ((if c = cECC then (s.viewWalked v off).readView v off k else s.viewWalked v off).failXrq r.die v.ctx p c, none)) ∧
        (∀ pa, s.viewAddr v off k = .ok pa →
          let t := (s.viewWalked v off).homeLoad pa k .normal
          let got := if v.state.find (off / 65536) = none then t.softRead pa (t.bytes pa k) else (t.bytes pa k, t)
          goes got.2 (homeDie pa) got.1))) ∧
    (∀ (s : State) (v : View) (off n : Nat),
      let answers := fun (x : Except (Option Code) Nat) => s.viewAddr v off n = x
      (v.lost = true → answers (.error (some cVIEWLOST))) ∧
      (v.lost = false → ∀ slot, v.state.find (off / 65536) = some (.copying slot) → answers (.error none)) ∧
      (v.lost = false → (∀ slot, v.state.find (off / 65536) ≠ some (.copying slot)) →
        let live := v.state.find (off / 65536) = none
        let va := match v.state.find (off / 65536) with
          | some (.preserved slot) => v.pool + BitVec.ofNat 64 (65536 * slot + off % 65536)
          | _ => v.base + BitVec.ofNat 64 off
        (s.walkerWaits v.die v.ctx va = true → answers (.error none)) ∧
        (s.walkerWaits v.die v.ctx va = false → ∀ c, s.walkAs v.die v.ctx va = .error c → answers (.error (some c))) ∧
        (s.walkerWaits v.die v.ctx va = false → ∀ pa e lg, s.walkAs v.die v.ctx va = .ok (pa, e, lg) →
          let right := live → rightsOk va e { r := true } false = true
          let tag := s.viewTag v.ctx (v.base + BitVec.ofNat 64 off) pa n
          let far := s.linked v.die (homeDie pa) = false
          let late := s.held pa = true ∧ s.homeHit pa n = false
          (¬right → answers (.error (some cPERM))) ∧ (right → tag = true → answers (.error (some cTAG))) ∧
          (right → tag = false → far → answers (.error (some cREMOTE))) ∧
          (right → tag = false → ¬far → s.bad pa n = true → answers (.error (some cECC))) ∧
          (right → tag = false → ¬far → s.bad pa n = false → late →
            answers (.error (if s.overdue (stackOf pa) then some cTHERM else none))) ∧
          (right → tag = false → ¬far → s.bad pa n = false → ¬late → answers (.ok pa))))) ∧
    (∀ (s : State) (d : Nat) (p : Fesel),
      let ctx := p.tctx.toNat
      let fails := fun (c : Code) => s.landingCheck d p = .error c
      (s.window ctx (natBits p.aux.toNat 31 24) = none → fails cREMOTE) ∧
      (∀ w, s.window ctx (natBits p.aux.toNat 31 24) = some w →
        let opens := w.isOpen = true ∧ w.closing = false
        let part := s.range d ctx { w := true } false (w.base + p.vaddr) p.payload.length
        (¬opens → fails (if w.byGen then cGEN else cREMOTE)) ∧
        (opens → p.gen ≠ w.gen → fails cGEN) ∧
        (opens → p.gen = w.gen → p.aux.setWidth 20 ≠ w.lead → fails cPERM) ∧
        (opens → p.gen = w.gen → p.aux.setWidth 20 = w.lead →
          (w.len < p.vaddr.toNat + p.payload.length → fails cPERM) ∧
          (p.vaddr.toNat + p.payload.length ≤ w.len →
            (∀ c a, part = .error (c, a) → fails c) ∧
            (∀ ps, part = .ok ps →
              (s.runs ctx = false → fails cREMOTE) ∧
              (s.runs ctx = true → (∀ c, s.landingFault d ctx w (w.base + p.vaddr) ps = some c → fails c) ∧
                (s.landingFault d ctx w (w.base + p.vaddr) ps = none → s.landingCheck d p = .ok ps))))))) ∧
    (∀ (s : State) (d : Nat) (p : Fesel) (code : Code),
      let ctx := p.tctx.toNat
      let n := natBits p.aux.toNat 31 24
      let w := (s.window ctx n).getD {}
      let x := s.landing ctx w p
      let t := s.modWindow ctx n fun w => ({ w with discarded := if w.isOpen then satInc w.discarded else w.discarded }).put
        { x with xer := true }
      (x.xer = true → s.discardXdt d p code = t) ∧
      (x.xer = false → s.discardXdt d p code = t.answer ctx d
        { t.fesel ctx (p.comm.toNat % 64) 0x0A x.lead with fid := x.fid, aux := BitVec.ofNat 32 x.stripe, code := code })) ∧
    (∀ (s : State) (d : Nat) (p : Fesel),
      let ctx := p.tctx.toNat
      let n := natBits p.aux.toNat 31 24
      let w := (s.window ctx n).getD {}
      let waits := w.isOpen = true ∧ s.rangeWaits d ctx (w.base + p.vaddr) p.payload.length = true
      let u := s.rangeWalked d ctx (w.base + p.vaddr) p.payload.length
      let v := u.modWindow ctx n fun y => y.put (u.landing ctx w p)
      (waits → s.onXdt d p = s.waitPacket d p) ∧
      (¬waits → (∀ c, s.landingCheck d p = .error c → s.onXdt d p = u.discardXdt d p c) ∧
        (∀ ps, s.landingCheck d p = .ok ps →
          (p.code ≠ 0 → p.payload = [] → s.onXdt d p = v.windowBar ctx w Barrier.poisoned) ∧
          (p.code = 0 ∨ p.payload ≠ [] → s.onXdt d p = v.landXdt d p w ps)))) ∧
    (∀ (s : State) (d : Nat) (y : Ingress),
      let p := y.pkt
      let ctx := p.tctx.toNat
      let n := natBits p.aux.toNat 31 24
      let w := (s.window ctx n).getD {}
      let x := { s.landing ctx w p with got := (s.landing ctx w p).got + p.payload.length }
      let t := (s.modWindow ctx n fun w => w.put x).windowBar ctx w fun b => b.land p.payload.length x.epoch
      (y.code ≠ 0 → s.xdtLanded d y = s.discardXdt d p y.code) ∧
      (y.code = 0 → w.isOpen = true → w.gen = p.gen → s.xdtLanded d y = t.stripeLanded ctx n x)) ∧
    (∀ (s : State) (ctx n : Nat) (x : Landing),
      (x.got < x.len ∨ x.xcn = true → s.stripeLanded ctx n x = s) ∧
      (x.len ≤ x.got → x.xcn = false → ∀ w, s.window ctx n = some w →
        let t := s.modWindow ctx n fun w => w.put { x with xcn := true }
        s.stripeLanded ctx n x = t.answer ctx (dieOf w.core)
          { t.fesel ctx w.comm 0x09 x.lead with fid := x.fid, aux := BitVec.ofNat 32 x.stripe })) ∧
    (∀ (s : State) (d : Nat) (p : Fesel),
      ((∀ k ∈ s.diesFrom d, ∀ x ∈ (s.die k).stripes, s.answersStripe k p x = false) → s.onStripeEnd d p = s) ∧
      (∀ x rest before, (s.die d).stripes = before ++ x :: rest → s.answersStripe d p x = true →
        (∀ y ∈ before, s.answersStripe d p y = false) →
        s.onStripeEnd d p = s.endStripe d x (if p.kind = 0x09 then 0 else if p.code = 0 then cREMOTE else p.code))) ∧
    (∀ (s : State) (d : Nat) (x : Stripe) (code : Code) (j : JCmd), s.joinCmd d x = some j →
      let va := j.status + BitVec.ofNat 64 (x.stripe - j.first)
      let m : Master := { core := j.core, slot := j.slot, lane := j.lane, ctx := j.ctx, die := some d,
                          old := ((s.cmd j.core j.seq.toNat).map Cmd.old).getD [] }
      ∀ t, ∀ bs, s.engWrite m va 1 false (fun _ => [code]) = (.ok bs, t) → s.endStripe d x code = t.stripeOver d x j code va))

/-! ## The die links -/

/-- Flits on a die link (R296, R297): a data flit with the expected number is accepted and its slots join those received; a duplicate
of the last 64 is discarded with an ack; any other with a nak, unless one is outstanding. Every flit's ack releases the held flits up to
it, its credits are added up to the most there are, its nak starts a replay, and what waited may be sent. A damaged flit is discarded
with a nak, unless one is outstanding: a control flit in the other direction that carries it, with the sender's ack and freed slots. The
timers act at their cycle and no sooner. A flit has 256 bytes, its header's fields where Table 19-1 has them, from which a receiver reads
it back; what the table has zero must be zero. That the slots that a flit does not use are zeros is the model's choice (log 77), and that
credits stop at the receiver's buffer its reading (log 30). -/
def Obligations.LinkFlits : Prop :=
  (∀ (s u : State) (t : StreamId) (f : Flit), s.takeFlit t 1 = some (f, u) →
    let v := u.applyFlit t f
    let x := v.stream t
    (f.seq = x.exp → exec (.dataFlit t) s = .next (v.modStream t fun x => x.accept f.slots (v.die (StreamId.dst t)).cycle)) ∧
    (f.seq ≠ x.exp → (x.exp + 4096 + 4095 - f.seq) % 4096 < 64 →
      exec (.dataFlit t) s = .next (v.sendFlit (StreamId.back t) 2 0 false [])) ∧
    (f.seq ≠ x.exp → 64 ≤ (x.exp + 4096 + 4095 - f.seq) % 4096 → exec (.dataFlit t) s = .next (v.sendNak t))) ∧
  (∀ f : Flit, f.seq < 4096 → f.ack < 4096 → f.cred < 256 → f.kind = 1 → f.slots.length ≤ 15 →
    let h := ofBytes (f.wire.take 8)
    f.wire.length = 256 ∧ Flit.ofWire f.wire = some { f with slots := f.slots ++ List.replicate (15 - f.slots.length) 0 } ∧
    natBits h 63 60 = f.kind.toNat ∧ natBits h 59 48 = f.seq ∧ natBits h 47 36 = f.ack ∧ natBits h 35 35 = f.nak.toNat ∧
    natBits h 34 27 = f.cred ∧ natBits h 26 0 = 0 ∧ f.wire.drop 252 = bytesOf 4 (crc32c (f.wire.take 252)).toNat ∧
    (∀ i, i < f.slots.length → ofBytes ((f.wire.drop (8 + 16 * i)).take 16) = (f.slots[i]?.getD 0).toNat)) ∧
  (∀ (bs : List Byte) (f : Flit), Flit.ofWire bs = some f → bs.length = 256 ∧ bs.drop 252 = bytesOf 4 (crc32c (bs.take 252)).toNat ∧
    f.kind.toNat ≤ 2 ∧ natBits (ofBytes (bs.take 8)) 26 0 = 0 ∧ (∀ x ∈ (bs.drop 248).take 4, x = 0) ∧
    (f.kind ≠ 1 → f.seq = 0 ∧ f.slots = [] ∧ ∀ x ∈ (bs.drop 8).take 240, x = 0)) ∧
  (∀ (s u : State) (t : StreamId) (f : Flit), s.takeFlit t 2 = some (f, u) →
    exec (.controlFlit t) s = .next (u.applyFlit t f)) ∧
  (∀ (s : State) (t : StreamId), (∀ k, s.takeFlit t k = none) →
    exec (.dataFlit t) s = .next s ∧ exec (.controlFlit t) s = .next s) ∧
  (∀ (s u : State) (t : StreamId) (f : Flit), s.hasLink t = true → (s.module t).up = true → (s.stream t).wire = [] →
    (s.sendFlit t 0 0 false []).takeFlit t 0 = some (f, u) → exec (.idleFlit t) s = .next (u.applyFlit t f)) ∧
  (∀ (s : State) (t : StreamId) (f : Flit) (fs : List Flit), s.hasLink t = true → (s.stream t).wire = f :: fs →
    exec (.badFlit t) s = .next ((s.modStream t fun x => { x with wire := fs }).sendNak t)) ∧
  (∀ (s : State) (t : StreamId),
    ((s.stream t).nakAt.isSome = true → s.sendNak t = s) ∧
    ((s.stream t).nakAt = none → s.sendNak t = (s.sendFlit (StreamId.back t) 2 0 true []).modStream t fun x => { x with
      nakAt := some (s.die (StreamId.dst t)).cycle })) ∧
  (∀ (s : State) (t : StreamId) (kind : BitVec 4) (seq : Nat) (nak : Bool) (slots : List (BitVec 128)),
    let b := s.stream (StreamId.back t)
    let u := s.sendFlit t kind seq nak slots
    let f : Flit := {
      kind := kind
      seq := seq
      ack := (b.exp + 4095) % 4096
      nak := nak
      cred := Nat.min b.freed 255
      slots := slots }
    (u.stream t).wire = (s.stream t).wire ++ [f] ∧ (u.stream (StreamId.back t)).ackAt = none ∧
    (u.stream (StreamId.back t)).freed = b.freed - Nat.min b.freed 255) ∧
  (∀ (x : Stream) (slots : List (BitVec 128)) (now : Nat), (x.accept slots now).exp = (x.exp + 1) % 4096 ∧
    (x.accept slots now).nakAt = none ∧ (x.ackAt = none → (x.accept slots now).ackAt = some now) ∧
    (x.accept slots now).flits = x.flits + 1 ∧ (x.accept slots now).seq = x.seq ∧
    (x.accept slots now).replay = x.replay ∧ (x.accept slots now).credits = x.credits ∧
    ∃ ps, (x.accept slots now).packets = x.packets ++ ps ∧
      (ps.flatMap fun p => p.2) ++ (x.accept slots now).part = x.part ++ slots ∧
      ∀ p ∈ ps, ∃ h rest, p.2 = h :: rest ∧ rest.length = (Pkt.ofSlot h).len) ∧
  (∀ (s : State) (t : StreamId) (a : Nat),
    ((s.stream t).nakAt = some a → (s.die (StreamId.dst t)).cycle < a + 1024 → exec (.nakLapse t) s = .next s) ∧
    ((s.stream t).nakAt = some a → a + 1024 ≤ (s.die (StreamId.dst t)).cycle →
      exec (.nakLapse t) s = .next (s.modStream t fun x => { x with nakAt := none })) ∧
    ((s.stream t).ackAt = some a → (s.die (StreamId.dst t)).cycle < a + 64 → exec (.ackTimerExpiry t) s = .next s) ∧
    ((s.stream t).ackAt = some a → a + 64 ≤ (s.die (StreamId.dst t)).cycle → (s.module t).up = true →
      exec (.ackTimerExpiry t) s = .next (s.sendFlit (StreamId.back t) 2 0 false []))) ∧
  (∀ (s : State) (t : StreamId) (h : HeldFlit) (hs : List HeldFlit), (s.stream t).replay = h :: hs →
    let now := (s.die (StreamId.src t)).cycle
    (now < h.at_ + 1024 → exec (.replayTimeout t) s = .next s) ∧
    (h.at_ + 1024 ≤ now → (s.module t).up = true → exec (.replayTimeout t) s = .next (s.replay t)) ∧
    ((∃ x ∈ h :: hs, 4 ≤ x.replays) → s.replay t = s.startRetrain t (attempts (s.module t).width) 0) ∧
    ((∀ x ∈ h :: hs, x.replays < 4) → s.replay t =
      ((s.modStream t fun x => { x with replay := x.replay.map fun h => { h with replays := h.replays + 1, at_ := now } }).modModule t
        fun m => { m with nrep := m.nrep + 1 }).resend t (h :: hs))) ∧
  (∀ (s : State) (t : StreamId) (f : Flit),
    let b := StreamId.back t
    let u := s.modStream b fun x => { x with
      replay := x.replay.filter fun h => 64 ≤ (f.ack + 4096 - h.seq) % 4096
      credits := Nat.min Config.linkCredits (x.credits + f.cred) }
    (f.nak = false → s.applyFlit t f = u.pump b) ∧ (f.nak = true → s.applyFlit t f = (u.replay b).pump b))

/-- Retraining (R298): five sendings of a held flit, a lost lane lock or a command of Nopol root make a module retrain, and what is on
its wires is lost; an attempt that succeeds brings the module up at its width; one that fails leads to the next, and after the last the
module is down: what it still had to deliver goes to the other module, or, with that down too, the link is down. Both directions are
numbered from 0 before either sends, the held flits in order. What stood before the
held flits that come again is the model's reading (log 30), and that what a link going down held is discarded while packets already
received may be acted on its choice (log 35). -/
def Obligations.LinkRetraining : Prop :=
  (∀ (s : State) (t : StreamId), (s.module t).up = true → (∃ x ∈ (s.stream t).replay, 4 ≤ x.replays) →
    exec (.replayLimit t) s = .next (s.startRetrain t (attempts (s.module t).width) 0)) ∧
  (∀ (s : State) (t : StreamId), (∀ x ∈ (s.stream t).replay, x.replays < 4) → exec (.replayLimit t) s = .next s) ∧
  (∀ (s : State) (lo hi m : Nat),
    let t := lowStream lo hi m
    s.hasLink t = true →
    ((s.module t).up = true → exec (.laneLockLoss lo hi m) s = .next (s.startRetrain t (attempts (s.module t).width) 1)) ∧
    ((s.module t).retrain = none → exec (.retrainCommand lo hi m) s = .next (s.startRetrain t (attempts .full) 2))) ∧
  (∀ (s : State) (t : StreamId) (ws : List Width) (cause : Nat),
    let u := s.startRetrain t ws cause
    (u.module t).retrain = some (ws, cause) ∧ (u.module t).width = (s.module t).width ∧ (u.stream t).wire = [] ∧
    (u.stream (StreamId.back t)).wire = []) ∧
  (attempts .full = [.full, .low, .high] ∧ attempts .down = [.full, .low, .high] ∧ attempts .low = [.low, .high] ∧
    attempts .high = [.high, .low]) ∧
  (∀ (s : State) (lo hi m cause : Nat) (w : Width) (ws : List Width),
    let t := lowStream lo hi m
    (s.module t).retrain = some (w :: ws, cause) →
    let v := ((s.modModule t fun x => { x with width := w, retrain := none }).renumbered t).renumbered (StreamId.back t)
    (w = (s.module t).width → exec (.retrainAttemptEnd lo hi m true) s = .next ((v.restart t).restart (StreamId.back t))) ∧
    (w ≠ (s.module t).width → exec (.retrainAttemptEnd lo hi m true) s = .next
      (((v.restart t).restart (StreamId.back t)).linkEvent t cause)) ∧
    (ws ≠ [] → exec (.retrainAttemptEnd lo hi m false) s =
      .next (s.modModule t fun x => { x with retrain := some (ws, cause) })) ∧
    (ws = [] → let v := s.modModule t fun x => { x with width := .down, retrain := none }
      (v.module (StreamId.other t)).width ≠ .down → exec (.retrainAttemptEnd lo hi m false) s =
        .next (((v.moveStream t).moveStream (StreamId.back t)).linkEvent t cause)) ∧
    (ws = [] → (s.module (StreamId.other t)).width = .down →
      ((s.modModule t fun x => { x with width := .down, retrain := none }).module (StreamId.other t)).width = .down →
      exec (.retrainAttemptEnd lo hi m false) s = .next
        (((s.modModule t fun x => { x with width := .down, retrain := none }).linkDown lo hi).linkEvent t cause))) ∧
  (∀ (s : State) (t : StreamId),
    let x := s.stream t
    let y := (s.renumbered t).stream t
    y.seq = x.replay.length % 4096 ∧ y.exp = 0 ∧ y.nakAt = none ∧ y.part = x.rewound.2 ∧
    y.replay.map HeldFlit.slots = x.replay.map HeldFlit.slots ∧
    (∀ i h, y.replay[i]? = some h → h.seq = i % 4096 ∧ h.replays = 0) ∧
    s.restart t = (s.resend t x.replay).pump t) ∧
  (∀ (s : State) (t : StreamId),
    let x := s.stream t
    let u := s.modStream t fun x => { x with
      waiting := [], replay := [], wire := [], part := [], before := [], nakAt := none, ackAt := none, seq := 0, exp := 0,
      credits := Config.linkCredits, freed := 0 }
    s.moveStream t = (u.modStream (StreamId.other t) fun y => { y with
      waiting := y.waiting ++ (x.rewound.2 ++ (x.replay.flatMap fun h => h.slots) ++ x.waiting) }).pump (StreamId.other t))

/-- Packets at the end of a die link (R195, R196, R299 to R302): a request acts at its home die and is answered on its module with its
own identifier; one that must not be performed twice is performed once, and a copy of it is answered with the recorded reply, kept for the
last 64 flits; a reply completes what its request was for, one that a later read at home has passed fills no cache, and one that answers
nothing is discarded; an unknown operation is discarded with an event. A write
or atomic that meets another tag or poison at its home is answered with that code and changes nothing, and a read or atomic of a stack
held too long with THERM; when that is, is the model's reading (log 51), and so is the layout of an invalidation's slot (log 57). -/
def Obligations.LinkPackets : Prop :=
  (∀ (s : State) (t : StreamId) (no : Nat) (p : Pkt) (act : State → State × List (BitVec 128)),
    (∀ x, s.recorded t p.rid = some x → s.performOnce t no p act = s.sendBack t x) ∧
    (s.recorded t p.rid = none → s.performOnce t no p act = (((act s).1.modStream t fun y => { y with
      window := if y.flits ≤ no + 64 then y.window ++ [(no, p.rid, (act s).2)] else y.window }).sendBack t (act s).2))) ∧
  (∀ (s : State) (t : StreamId),
    let quiet := fun (i : Instr) (op : Nat → Bool) => s.takePkt t op = none → exec i s = .next s
    quiet (.dieLinkRead t) (· == 0x01) ∧ quiet (.dieLinkReadReply t) (· == 0x02) ∧ quiet (.dieLinkWriteAck t) (· == 0x04) ∧
    quiet (.dieLinkAtomicReply t) (· == 0x06) ∧ quiet (.dieLinkInvalidation t) (· == 0x07) ∧
    quiet (.dieLinkInvalidationAck t) (· == 0x08) ∧ quiet (.dieLinkControl t) (· == 0x09) ∧
    quiet (.dieLinkWriteback t) (· == 0x0A) ∧ quiet (.dieLinkWritebackAck t) (· == 0x0B) ∧
    quiet (.dieLinkTagRead t) (· == 0x0C) ∧ quiet (.dieLinkTagReadReply t) (· == 0x0D) ∧
    quiet (.dieLinkTagWriteAck t) (· == 0x0F)) ∧
  (∀ (s u : State) (t : StreamId) (no : Nat) (p : Pkt) (data : List (BitVec 128)),
    let home := s.startHeld t
    let is := fun (op : Nat) => s.takePkt t (· == op) = some (no, p, data, u)
    let isHome := fun (op : Nat) => home.takePkt t (· == op) = some (no, p, data, u)
    (is 0x01 → u.pktFails p [] = false → exec (.dieLinkRead t) s =
      .next ((u.serveRead p).1.sendBack t (replySlots p 0x02 0 (u.serveRead p).2))) ∧
    (is 0x01 → u.pktFails p [] = true → exec (.dieLinkRead t) s = .next (u.sendBack t (replySlots p 0x02 cTHERM (noSectors p)))) ∧
    (isHome 0x03 → ∀ x, u.recorded t p.rid = some x → exec (.dieLinkWrite t) s = .next (u.sendBack t x)) ∧
    (isHome 0x03 → u.recorded t p.rid = none →
      (∀ c, u.pktFault t p = some c → exec (.dieLinkWrite t) s =
        .next (u.performOnce t no p fun _ => (u.pktRefused p data c, replySlots p 0x04 c []))) ∧
      (u.pktFault t p = none → exec (.dieLinkWrite t) s = .next (u.performOnce t no p fun v =>
        ((runsOf (data.headD 0) 0 (slotBytes (data.drop 1))).foldl (fun v x =>
          v.homeStoreIn (p.addr + x.1) x.2 p.policy (v.fullFor t p.rid)) v,
          replySlots p 0x04 0 [])))) ∧
    (isHome 0x05 → ∀ x, u.recorded t p.rid = some x → exec (.dieLinkAtomic t) s = .next (u.sendBack t x)) ∧
    (isHome 0x05 → u.recorded t p.rid = none →
      let r := u.homeAtomic p.addr (p.atomOp data) (u.blockFor t p (p.atomOp data).bytes) p.policy
      let hit := (p.atomOp data).cas = true ∧ r.1 = (p.atomOp data).compare
      (u.pktFails p data = true → exec (.dieLinkAtomic t) s =
        .next (u.performOnce t no p fun _ => (u, replySlots p 0x06 cTHERM [0]))) ∧
      (u.pktFails p data = false → ∀ c, u.pktFault t p = some c → exec (.dieLinkAtomic t) s =
        .next (u.performOnce t no p fun _ => (u.pktRefused p data c, replySlots p 0x06 c [0]))) ∧
      (u.pktFails p data = false → u.pktFault t p = none → exec (.dieLinkAtomic t) s =
        .next (u.performOnce t no p fun _ => (r.2, replySlots p 0x06 0 [BitVec.ofNat 64 (if hit then 1 else 0) ++ r.1])))) ∧
    (is 0x0A → exec (.dieLinkWriteback t) s =
      .next (u.performOnce t no p fun v => (v.homeWriteback p.addr, replySlots p 0x0B 0 []))) ∧
    (is 0x0C → u.pktFails p data = true → exec (.dieLinkTagRead t) s = .next (u.sendBack t (replySlots p 0x0D cTHERM [0]))) ∧
    (is 0x0C → u.pktFails p data = false →
      let v := u.homeLoad p.addr 1 p.policy
      exec (.dieLinkTagRead t) s = .next (v.sendBack t (replySlots p 0x0D 0 [(v.metaAt p.addr).zeroExtend 128]))) ∧
    (isHome 0x0E → exec (.dieLinkTagWrite t) s = .next (u.performOnce t no p fun v =>
      (v.homeTag p.addr (field (data.headD 0) 0 4) (p.aop % 2 == 1), replySlots p 0x0F 0 []))) ∧
    (is 0x07 → exec (.dieLinkInvalidation t) s =
      .next (u.invalidate (StreamId.dst t) (InvTarget.ofSlot (data.headD 0)) [] (some (StreamId.src t, t.module, p.rid)))) ∧
    (is 0x09 → exec (.dieLinkControl t) s = .next u) ∧
    (s.takePkt t (fun op => op == 0 || 0x0F < op) = some (no, p, data, u) →
      exec (.dieLinkUnknownOp t) s = .next (u.linkEvent t 3)) ∧
    (∀ q v, u.takeReq t p.rid = some (q, v) →
      (∀ id, q.for_ = .inval id → is 0x08 → exec (.dieLinkInvalidationAck t) s = .next (v.invalAnswered id (StreamId.src t))) ∧
      (∀ c n id r, q.for_ = .load c n id → v.loadOf c n id = some r →
        (is 0x02 → exec (.dieLinkReadReply t) s = .next (v.loadReply c n r p data q.stale)) ∧
        (is 0x0D → exec (.dieLinkTagReadReply t) s = .next
          (if p.code = 0 then v.loadDone c n r ((data.headD 0).toNat % 256) else v.loadFail c n r p.code))) ∧
      (∀ c l1 rdc po b, q.for_ = .fill c l1 rdc po b → is 0x02 →
        (p.code ≠ 0 ∨ q.stale = true → exec (.dieLinkReadReply t) s = .next v) ∧
        (p.code = 0 → q.stale = false → exec (.dieLinkReadReply t) s = .next ((v.serveFarther c (p.addr / 128)).fillNear c
          (replyLine p data (v.die (dieOf c)).cycle) l1 rdc po b))) ∧
      (∀ c n id r, q.for_ = .store c n id → v.storeOf c n id = some r →
        let ends : Host.Outcome State Fault Refusal := .next
          (if p.code = 0 then v.storeDone c n r (field (data.headD 0) 0 64) else v.storeFail c n r p.code).collsGo
        (is 0x04 → exec (.dieLinkWriteAck t) s = ends) ∧ (is 0x06 → exec (.dieLinkAtomicReply t) s = ends) ∧
        (is 0x0B → exec (.dieLinkWritebackAck t) s = ends) ∧ (is 0x0F → exec (.dieLinkTagWriteAck t) s = ends)) ∧
      (∀ id off pa n, q.for_ = .ingress id off pa n →
        let ends : Host.Outcome State Fault Refusal := .next
          ((v.ingressPart (StreamId.dst t) id off p.code (bytesOf 9 (data.headD 0).toNat)).ingressDone (StreamId.dst t) id)
        (is 0x02 → exec (.dieLinkReadReply t) s = .next (v.ingressRead (StreamId.dst t) id off pa n p data)) ∧
        (is 0x04 → exec (.dieLinkWriteAck t) s = ends) ∧ (is 0x06 → exec (.dieLinkAtomicReply t) s = ends))) ∧
    (u.takeReq t p.rid = none →
      let gone := fun (i : Instr) (op : Nat) => is op → exec i s = .next u
      gone (.dieLinkReadReply t) 0x02 ∧ gone (.dieLinkWriteAck t) 0x04 ∧ gone (.dieLinkAtomicReply t) 0x06 ∧
      gone (.dieLinkInvalidationAck t) 0x08 ∧ gone (.dieLinkWritebackAck t) 0x0B ∧ gone (.dieLinkTagReadReply t) 0x0D ∧
      gone (.dieLinkTagWriteAck t) 0x0F))

/-! ## Queues, launches and contexts -/

/-- Queues and their packets (R268 to R272, R289, R290, R318): a host's write of wridx through a registered window is read and wakes the
package, and one through none is answered with a negative acknowledgement; a descriptor that die 0's control core does not reach, or has
to wait for, is not read (that die 0 stands for all: log 80); a bad descriptor halts the queue; packets start in ring order, one with a
barrier only when none before it is left; NOOP and MARKER only complete, PREEMPT and RESUME ask for privilege and a context that exists,
and complete at once where there is nothing to do; a launch is checked: shape, then privilege, then alignment, then what it reads, unless
that waits for its stack. A halted queue reads nothing.

Slabs and strokes' boxes (R32, R276): the slabs of the dies of a launch follow one another from team 0 to the last; and the boxes of
a chunk hold each of its teams once and no other. Which of several covers with the fewest boxes is taken is the model's choice (log 67). -/
def Obligations.SlabsAndPackets : Prop :=
  (
    (∀ (s : State) (q : Nat) (x : Queue) (v : BitVec 32), s.queues.find q = some x →
      let bs := bytesOf 4 v.toNat
      let r : HostReq := { port := 0, qp := 0, addr := x.desc + 12, len := 4, bytes := some bs }
      let free := ∀ y ∈ s.hostHeld, y.port ≠ 0 ∨ y.qp ≠ 0
      (s.registered (x.desc + 12) 4 = false → free → exec (.wridxWrite q v) s = .next { s with hostOut := s.hostOut ++ [.nak 0] }) ∧
      (¬free ∨ s.hostWaits r = true → exec (.wridxWrite q v) s = .next { s with hostHeld := s.hostHeld ++ [r] }) ∧
      (s.hostRefused r = false → free → s.hostWaits r = false →
        let t := ((s.softAccesses (hostPieces (x.desc + 12) 4)).writePieces 0 (hostPieces (x.desc + 12) 4) bs).settleBlanks
        let u := (t.wridxIn (x.desc + 12) 4).foldl (fun t k => (t.readQueue k).wake) t
        q ∈ s.wridxIn (x.desc + 12) 4 ∧
        exec (.wridxWrite q v) s = .next { u with debugQ := u.debugQ ++ u.requestsIn (x.desc + 12) 4 })) ∧
    (∀ (s : State) (q : Nat) (x : Queue), s.queues.find q = some x →
      let asleep := x.halted = true ∨ s.descLinked 0 x = false ∨ s.stackWaits x.desc 64 = true
      let n := (s.qword x 3 + 2 ^ 32 - s.qword x 4) % 2 ^ 32
      let bad := s.descBad x = true ∨ 2 ^ natBits (s.qword x 2) 31 27 < n
      (asleep → s.readQueue q = s) ∧ (¬asleep → bad → s.readQueue q = s.haltQueue q x cILLEGAL) ∧
      (¬asleep → ¬bad → s.readQueue q = State.readPackets q x n s)) ∧
    (∀ (s : State) (q : Nat) (x : Queue) (p : Packet), s.packetTurn q = some (x, p) →
      s.queues.find q = some x ∧ s.power = .l0 ∧ s.waking = false ∧ s.runs (s.qctx x) = true ∧
      (∃ old new, x.packets = old ++ p :: new ∧ (∀ y ∈ old, y.started = true) ∧ p.started = false) ∧
      (natBits (pw p.words 0) 15 15 = 1 → ∀ y ∈ x.packets, y.started = false) ∧
      (pkType p.words = 1 → s.qpriv x = false → x.phase ≠ some (pkPhase p.words) → ∀ y ∈ x.packets, y.started = false)) ∧
    (∀ (s : State) (q : Nat) (x : Queue) (p : Packet), s.packetTurn q = some (x, p) →
      let ends : Code → Host.Outcome State Fault Refusal := fun c => .next (s.endPacket q p c)
      let ctx := natBits (pw p.words 2) 15 0
      (pkType p.words = 0 → exec (.noopPacket q) s = ends (if plainBad p.words then cILLEGAL else 0)) ∧
      (pkType p.words = 2 → exec (.markerPacket q) s = ends (if plainBad p.words then cILLEGAL else 0)) ∧
      (pkType p.words = 3 →
        (plainBad p.words = true → exec (.preemptPacket q) s = ends cILLEGAL) ∧
        (plainBad p.words = false → s.qpriv x = false → exec (.preemptPacket q) s = ends cPRIV) ∧
        (plainBad p.words = false → s.qpriv x = true → s.context ctx = none → exec (.preemptPacket q) s = ends cILLEGAL) ∧
        (∀ k, plainBad p.words = false → s.qpriv x = true → s.context ctx = some k →
          (k.out = true → exec (.preemptPacket q) s = ends 0) ∧
          (k.out = false → exec (.preemptPacket q) s =
            .next ((s.modPacket q p.index fun p => { p with started := true }).stopContext ctx)))) ∧
      (pkType p.words = 4 →
        (plainBad p.words = true → exec (.resumePacket q) s = ends cILLEGAL) ∧
        (plainBad p.words = false → s.qpriv x = false → exec (.resumePacket q) s = ends cPRIV) ∧
        (plainBad p.words = false → s.qpriv x = true → s.context ctx = none → exec (.resumePacket q) s = ends cILLEGAL) ∧
        (∀ k, plainBad p.words = false → s.qpriv x = true → s.context ctx = some k → k.preempted = false →
          exec (.resumePacket q) s = ends 0) ∧
        (∀ k, plainBad p.words = false → s.qpriv x = true → s.context ctx = some k → k.preempted = true →
          (k.out = true → exec (.resumePacket q) s = .next ((s.restoreContext ctx).endPacket q p 0)) ∧
          (k.out = false → exec (.resumePacket q) s = .next s))) ∧
      (p.checked = false → pkType p.words ∉ [0, 2, 3, 4] → s.launchWaits (s.qctx x) p.words = true →
        exec (.launchPacket q) s = .next s) ∧
      (p.checked = false → pkType p.words ∉ [0, 2, 3, 4] → s.launchWaits (s.qctx x) p.words = false →
        let read := s.launchReading (s.qctx x) p.words
        (∀ c, s.launchCheck (s.qctx x) p.words (s.qpriv x) = some c → exec (.launchPacket q) s =
          .next ((if c = cILLEGAL ∨ c = cPRIV ∨ c = cALIGN then s else read).endPacket q p c)) ∧
        (s.launchCheck (s.qctx x) p.words (s.qpriv x) = none →
          exec (.launchPacket q) s = .next (read.modPacket q p.index fun p => { p with checked := true })))) ∧
    (∀ (s : State) (ctx : Nat) (ws : List W32) (priv : Bool),
      (pkType ws ≠ 1 ∨ s.context ctx = none ∨ s.launchIllegal ws priv = true → s.launchCheck ctx ws priv = some cILLEGAL) ∧
      (∀ k, pkType ws = 1 → s.context ctx = some k → s.launchIllegal ws priv = false →
        (natBits (pw ws 0) 7 0 ≠ 0 → priv = false → s.launchCheck ctx ws priv = some cPRIV) ∧
        (natBits (pw ws 0) 7 0 = 0 ∨ priv = true → launchAlign ws = true → s.launchCheck ctx ws priv = some cALIGN) ∧
        (natBits (pw ws 0) 7 0 = 0 ∨ priv = true → launchAlign ws = false →
          s.launchCheck ctx ws priv = match s.launchData ctx ws with
            | .error c => some c
            | .ok _ => none)))) ∧
  (
    (∀ teams n i : Nat, 0 < n → i < n →
      (slabOf teams n 0).1 = 0 ∧ (slabOf teams n (n - 1)).2 = teams ∧ (slabOf teams n i).2 = (slabOf teams n (i + 1)).1 ∧
      (slabOf teams n i).1 ≤ (slabOf teams n i).2) ∧
    (∀ tx ty first last n : Nat, 0 < tx → 0 < ty → first ≤ last →
      ((boxesOf tx ty first last).filter fun b => b.has tx ty n).length = if first ≤ n ∧ n ≤ last then 1 else 0))

/-- Launches on their way to the cores (R28, R32, R41, R273 to R279): a start takes the next launch number; a chunk claim takes the next
ticket of its die and forms the strokes of its teams, and none beyond the slab; a materialisation releases the first committed team that
has room; a bind record that contradicts the maps, or an agent's write of entry 63 or of another core's table, freezes the agent that
writes; one that fits starts its group or stroke, and of a terminated launch nothing; Nopol root's write of entry 63 ends the agent's
group, or starts it where the die has admitted the agent's image. What a refused image keeps from running claims, materialises and binds
nothing (R369). What a reservation takes of what is free
and the order between launches are the model's choices (log 67), and so is when a chunk is claimed (log 16). -/
def Obligations.LaunchesRun : Prop :=
  (∀ (s : State) (q : Nat) (x : Queue) (p : Packet) (d : LaunchData) (k : Context), s.packetTurn q = some (x, p) →
    p.checked = true → s.launchWaits (s.qctx x) p.words = false → s.launchData (s.qctx x) p.words = .ok d → s.context (s.qctx x) = some k → ∃ t l,
    exec (.launchStart q) s = .next t ∧ t.launches.getLast? = some l ∧ l.ctx = s.qctx x ∧ l.num = k.launches % 2 ^ 32 ∧
    l.queue = q ∧ l.index = p.index ∧ l.words = p.words ∧ l.params = d.params ∧ l.shapes = d.shapes ∧
    l.buffers = d.buffers ∧ l.term = none ∧ l.tickets = []) ∧
  (∀ (s : State) (q : Nat) (x : Queue) (p : Packet) (c : Code), s.packetTurn q = some (x, p) → p.checked = true →
    s.launchWaits (s.qctx x) p.words = false → s.launchData (s.qctx x) p.words = .error c → exec (.launchStart q) s =
      .next ((s.launchReading (s.qctx x) p.words).endPacket q p c)) ∧
  (∀ (s : State) (c ctx n : Nat) (l : Launch), s.launch ctx n = some l → l.term = none → s.runs ctx = true →
    s.agentRuns c = true → s.power = .l0 → (s.pkDies l.words).contains (dieOf c) = true →
    (s.core c).strokes.length < 16 → c < s.coreCount →
    let d := dieOf c
    let ticket := l.tickets.get 0 d
    let first := (s.slab l d).1 + ticket * pkChunk l.words
    let u := s.modLaunch ctx n fun l => { l with tickets := SMap.set 0 l.tickets d ((ticket + 1) % 2 ^ 32) }
    ((s.slab l d).2 ≤ first → exec (.chunkClaim c ctx n) s = .next u) ∧
    (first < (s.slab l d).2 →
      let last := Nat.min (first + pkChunk l.words) (s.slab l d).2 - 1
      exec (.chunkClaim c ctx n) s = .next ((boxesOf (pw l.words 4) (pw l.words 5) first last).foldl
        (fun s b => (rolesOf l.words).foldl (fun s r => s.formStroke c (l.stroke first r b)) s)
        (u.modCore c fun k => { k with chunks := k.chunks ++ [(ctx, n, first, last)] })))) ∧
  (∀ (s t : State) (c : Nat) (i : Ink) (n : Nat) (rest : List (Ink × Nat)), s.agentRuns c = true → s.power = .l0 →
    ((s.core c).inkOrder.filter fun x => s.runs x.1.ctx) = (i, n) :: rest → s.materialise c i n = some t →
    exec (.teamMaterialise c) s = .next t) ∧
  (∀ (k : Core) (l : Launch) (lin p : Nat) (t : Team), k.reserve l lin = some (p, t) →
    k.teams.find p = none ∧ p < 8 ∧ t.lin = lin ∧ t.ctx = l.ctx ∧ t.launch = l.num ∧
    t.resv.length = pkNp l.words + pkNc l.words ∧ (∀ r ∈ t.resv, r.2.1 < 63 ∧ k.slotTaken r.2.1 = false) ∧
    t.lbase + t.lines ≤ Config.localLines) ∧
  (∀ (s : State) (c e : Nat) (ws : List (BitVec 32)) (b : BindWriter), c < s.coreCount → e < 80 → s.bindMay c b = true →
    let table := fun (k : Core) => { k with table := k.table.put e ((upto 8).map fun i => ws[i]?.getD 0) }
    let put := s.modCore c table
    let does := fun (t : State) => exec (.bindRecordWrite c e ws b) s = .next t
    let valid := natBits (pw ws 0) 31 31 = 1
    let ctx := natBits (pw ws 0) 15 0
    let stroke := natBits (pw ws 0) 30 30 = 1
    (∀ w, b = .agent w → w ≠ c → does (s.freezeAgent w)) ∧ (e = 63 → b = .agent c → does (s.freezeAgent c)) ∧
    (b = .root ∨ b = .agent c → e ≠ 63 → ¬valid → does put) ∧
    (b = .root ∨ b = .agent c → e ≠ 63 → valid → s.launch ctx (pw ws 7) = none → does (s.freezeAgent c)) ∧
    (b = .root ∨ b = .agent c → e ≠ 63 → valid → ∀ l, s.launch ctx (pw ws 7) = some l →
      (e < 63 → stroke → does (s.freezeAgent c)) ∧
      (e < 63 → ¬stroke →
        (s.bindCheck c e (pw ws) l = none → does (s.freezeAgent c)) ∧
        (∀ p t, s.bindCheck c e (pw ws) l = some (p, t) → (l.term ≠ none → does put) ∧
          (l.term = none → does (((s.bindRelease c e (pw ws) l p t).modCore c table).dropCommitted c p
            (natBits (pw ws 0) 29 29 == 1))))) ∧
      (64 ≤ e →
        let box := bindBox (pw ws)
        let consumer := natBits (pw ws 0) 29 29 = 1
        let fits := stroke ∧ box.x0 ≤ box.x1 ∧ box.y0 ≤ box.y1 ∧ box.z0 ≤ box.z1 ∧ box.x1 < pw l.words 4 ∧ box.y1 < pw l.words 5 ∧
          box.z1 < pw l.words 6 ∧ natBits (pw ws 0) 28 16 = 0 ∧ (s.core c).strokes.find (e - 64) = none ∧
          (consumer ∨ pkNp l.words ≠ 0)
        (¬fits → does (s.freezeAgent c)) ∧ (fits → l.term ≠ none → does put) ∧
        (fits → l.term = none → ∃ chunk, does ((s.modCore c fun k => { k with
          strokes := k.strokes.put (e - 64) (l.stroke chunk consumer box) }).modCore c table))))) ∧
  (∀ (s : State) (c e : Nat) (ws : List (BitVec 32)) (b : BindWriter), s.bindMay c b = false →
    exec (.bindRecordWrite c e ws b) s = .next s) ∧
  (∀ (s : State) (c w : Nat), (s.bindMay c .root = true ↔ s.rootRuns (dieOf c) = true) ∧
    (s.bindMay c (.agent w) = true ↔ w < s.coreCount ∧ s.agentRuns w = true)) ∧
  (∀ (s : State) (c : Nat), s.agentRuns c = false →
    exec (.teamMaterialise c) s = .next s ∧ ∀ ctx n, exec (.chunkClaim c ctx n) s = .next s) ∧
  (∀ (s : State) (c : Nat) (ws : List (BitVec 32)), c < s.coreCount → s.rootRuns (dieOf c) = true →
    ∃ t, exec (.bindRecordWrite c 63 ws .root) s = .next t ∧ (t.core c).table.find 63 = some ((upto 8).map fun i => ws[i]?.getD 0) ∧
      (natBits (pw ws 0) 31 31 = 0 → (t.core c).groups.find 63 = none) ∧
      (natBits (pw ws 0) 31 31 = 1 → (s.die (dieOf c)).agentRefused = true → (t.core c).groups = (s.core c).groups) ∧
      (natBits (pw ws 0) 31 31 = 1 → (s.die (dieOf c)).agentRefused = false → (t.core c).agentFrozen = false ∧
        ∃ g, (t.core c).groups.find 63 = some g ∧ g.ctx = natBits (pw ws 0) 15 0 ∧
          ∀ l < 32, (g.lane l).cur = BitVec.ofNat 64 (pw ws 4 + 2 ^ 32 * pw ws 5)))

/-- Launches at their end (R54, R192, R194, R281, R282, R287 to R290): a draining group leaves once everything it issued is acknowledged;
a grid ends once every die has used up its slab and nothing of it is live, its writebacks and its completion need not wait, its ordered
slots then receive their values, the key-ordered sums of R115, or free ones where software has accessed the area of the sums, and the
completion is posted; termination keeps the first code, one of Table 0-4; reports coalesce until their number or time is due. That a group
waits for its queued accumulator stores to tensors, and for no other matrix operation, is the model's reading (log 60). -/
def Obligations.LaunchesEnd : Prop :=
  (∀ (s : State) (c n : Nat), (s.group c n).draining = true →
    (s.unacknowledged c n = true → exec (.groupLeavesDraining c n) s = .next s) ∧
    (s.unacknowledged c n = false → exec (.groupLeavesDraining c n) s = .next (s.leave c n))) ∧
  (∀ (s : State) (c n : Nat), (((s.leave c n).core c).groups.find n).isNone = true) ∧
  (∀ (s : State) (ctx n : Nat) (l : Launch), s.launch ctx n = some l →
    (l.term = none → (∃ d ∈ s.pkDies l.words, s.exhausted l d = false) → exec (.gridEnd ctx n) s = .next s) ∧
    (l.term = none → (∃ o ∈ l.slots, s.writeWaits o.pa 4 = true) → exec (.gridEnd ctx n) s = .next s) ∧
    (s.flushWaits l = true ∨ s.postWaits l.queue (s.postDie l.words) = true → exec (.gridEnd ctx n) s = .next s) ∧
    (s.launchLive ctx n = true → exec (.gridEnd ctx n) s = .next s) ∧
    (s.launchLive ctx n = false → l.term = none → (∀ d ∈ s.pkDies l.words, s.exhausted l d = true) →
      (∀ o ∈ l.slots, s.writeWaits o.pa 4 = false) → l.buffers = [] →
      s.postWaits l.queue (s.postDie l.words) = false →
      let u : State := { s with
        launches := s.launches.filter fun x => !(x.ctx == ctx && x.num == n),
        cores := s.cores.map fun (x : Nat × Core) => (x.1, Core.forget x.2 ctx n) }
      exec (.gridEnd ctx n) s = .next ((l.slots.foldl (fun v o => v.writeSlot l.spoiled o) u).finishPacket l.queue l.index (pw l.words 25)
        (if l.slots.any fun o => u.bad o.pa 4 then cECC else 0)
        ((l.slots.foldl (fun v o => v.writeSlot l.spoiled o) u).postDie l.words)))) ∧
  (∀ (s : State) (ctx n : Nat) (l : Launch) (code : Code), s.launch ctx n = some l →
    (l.term.isSome = true → exec (.terminate ctx n code) s = .next s) ∧
    (20 < code.toNat → exec (.terminate ctx n code) s = .next s) ∧
    (code.toNat ≤ 20 → l.term = none → ∃ t, exec (.terminate ctx n code) s = .next t ∧
      (t.launch ctx n).map (fun x => (x.term, x.slots.length)) = some (some code, 0) ∧
      ∀ c k, (c, k) ∈ s.cores → (c, k.terminate ctx n) ∈ t.cores)) ∧
  (∀ (s : State) (o : Slot) (b : Bool),
    let keep := fun (t : State) (x : W32) =>
      let open_ : State := { t with launches := s.launches.map fun l => { l with slots := l.slots.filter fun r => r.pa != o.pa } }
      { open_.homeStore o.pa (bytesOf 4 x.toNat) .normal with launches := s.launches }
    (s.bad o.pa 4 = true → s.writeSlot b o = s.readArray o.pa 4) ∧
    (s.bad o.pa 4 = false → b = false → s.writeSlot b o = keep s o.value) ∧
    (s.bad o.pa 4 = false → b = true → s.writeSlot b o = keep { s with free := s.free + 1 } (Config.freeWord s.free))) ∧
  (∀ (s : State) (q : Nat) (x : Queue), s.queues.find q = some x →
    let d := s.die 0
    let h := d.held.get {} q
    (x.reports = 0 → exec (.completionReport q) s = .next s) ∧
    (0 < x.reports → ∃ t, exec (.completionReport q) s = .next t ∧ ∃ g, (t.die 0).held.find q = some g ∧ g.count = h.count + 1 ∧
      g.since = (if h.count = 0 then d.cycle else h.since) ∧
      (g.due = true ↔ h.due = true ∨ natBits (s.qword x 6) 7 0 < h.count + 1)) ∧
    (h.count ≠ 0 → h.due = false → h.since + Config.cyclesPerUs * natBits (s.qword x 6) 14 8 ≤ d.cycle →
      exec (.coalescingTimerExpiry q) s =
        .next (s.modDie 0 fun d => { d with held := d.held.put q { h with due := true } })) ∧
    (d.cycle < h.since + Config.cyclesPerUs * natBits (s.qword x 6) 14 8 → exec (.coalescingTimerExpiry q) s = .next s) ∧
    (h.due = false → exec (.interrupt q) s = .next s) ∧
    (h.due = true → ∃ t, exec (.interrupt q) s = .next t ∧ t.hostOut = s.hostOut ++
      [.rdmaWrite (BitVec.ofNat 64 (s.qpair x 11)) (bytesOf 4 (s.qword x 10) ++ bytesOf 4 h.count)] ∧
      (t.die 0).held.find q = none))

/-- Contexts and queues come, stop, leave and return (R57, R268, R273, R289, R290, R370): a context stops issuing first, is saved and
its packet completed once quiet, and runs again when it returns, its area unchanged; where software has changed the area, what was
saved is spoiled; while some Nopol root runs, creating a queue writes its descriptor where its address of the firmware half stands then
(log 80), and creating a context gives it Nopol root's values with counters and codes at zero and leaves every entry of its tensor table
invalid: those that are mapped at once, the others as soon as they are, which is the model's reading (log 78). What the area holds is the
model's choice (log 21). -/
def Obligations.ContextsAndQueues : Prop :=
  (∀ (s : State) (ctx : Nat) (x : Context), s.context ctx = some x →
    (x.preempted = false → ∃ t y, exec (.preemption ctx) s = .next t ∧ t.context ctx = some y ∧ y.preempted = true ∧ y.out = x.out ∧
      t.cores = s.cores ∧ t.mem = s.mem) ∧
    (x.preempted = true → x.out = false → s.quiet ctx = false → exec (.preemption ctx) s = .next s) ∧
    (x.preempted = true → x.out = false → s.quiet ctx = true →
      exec (.preemption ctx) s = .next ((s.saveContext ctx).finishPreempts ctx)) ∧
    (x.preempted = true → x.out = false → exec (.restore ctx) s = .next s) ∧
    (x.preempted = false ∨ x.out = true → exec (.restore ctx) s = .next (s.restoreContext ctx)) ∧
    (x.out = true ∨ x.saved ≠ [] → s.areaBytes x ≠ x.image → s.restoreContext ctx =
      (s.modContext ctx fun x => { x with preempted := false, out := false }).areaSpoiled ctx x) ∧
    (x.saved = [] → x.out = false ∨ s.areaBytes x = x.image → ∃ y, (s.restoreContext ctx).context ctx = some y ∧ y.preempted = false ∧ y.out = false)) ∧
  (∀ (s : State) (ctx : Nat) (x : Context), s.context ctx = some x → ∃ y, (s.saveContext ctx).context ctx = some y ∧ y.out = true ∧
    ∀ c k, ((s.saveContext ctx).cores.find c) = some k → ∀ n g, k.groups.find n = some g → n ≠ 63 → g.ctx ≠ ctx) ∧
  (∀ (s : State) (q a : Nat) (ws : List (BitVec 32)), s.rootAlive = true →
    let va := BitVec.ofNat 64 a
    let place := s.walkAs s.rootDie 0 va
    (va.getLsbD 63 = false ∨ 65472 < a % 65536 ∨ (∃ c, place = .error c) → exec (.queueCreate q a (some ws)) s = .next s) ∧
    (va.getLsbD 63 = true → a % 65536 ≤ 65472 → ∀ pa e lg, place = .ok (pa, e, lg) →
      ∃ t, exec (.queueCreate q a (some ws)) s = .next t ∧ t.queues.find q = some { desc := pa } ∧
        t.mem = (s.putMem pa ((upto 16).flatMap fun i => bytesOf 4 (pw ws i))).mem)) ∧
  (∀ (s : State) (q a : Nat), s.rootAlive = true → ∃ t, exec (.queueCreate q a none) s = .next t ∧ t.queues.find q = none ∧ t.mem = s.mem) ∧
  (∀ (s : State) (q a : Nat) (ws : Option (List (BitVec 32))), s.rootAlive = false → exec (.queueCreate q a ws) s = .next s) ∧
  (∀ (s : State) (ctx : Nat) (init : ContextInit), (∀ l ∈ s.launches, l.ctx ≠ ctx) → s.rootAlive = true → ∃ (t : State) (x : Context),
    exec (.contextCreate ctx init) s = .next (t.settleBlank ctx) ∧
    t.context ctx = some x ∧ x.root = init.root ∧ x.tagEn = init.tagctl.getLsbD 0 ∧ x.tagAny0 = init.tagctl.getLsbD 1 ∧
    x.tidbase = init.tidbase ∧ x.dbgctl = init.dbgctl ∧ x.timeout = init.timeout ∧ x.blank = upto 256 ∧
    x.keys = init.keys ∧ x.saveArea = init.saveArea ∧ t.devid = init.devid ∧ x.launches = 0 ∧ x.preempted = false ∧
    x.sticky = [] ∧ x.remrank = 0 ∧ x.remcode = 0) ∧
  (∀ (s : State) (ctx : Nat) (x : Context), s.context ctx = some x → s.settleBlank ctx = x.blank.foldl (fun t n =>
    match t.walk ctx (t.tidAddr ctx n) with
    | .ok _ => (t.clearTensor ctx n).modContext ctx fun y => { y with blank := y.blank.filter (· ≠ n) }
    | .error _ => t) s) ∧
  (∀ (s : State) (ctx n pa lg : Nat) (e : W64), s.walk ctx (s.tidAddr ctx n) = .ok (pa, e, lg) → s.views = [] → s.launches = [] →
    ((s.clearTensor ctx n).byte (pa + 9)).getLsbD 3 = false ∧
    (s.MemOk → ∀ a, a ≠ pa + 9 → (s.clearTensor ctx n).byte a = s.byte a)) ∧
  (∀ (s : State) (ctx : Nat) (init : ContextInit), (∃ l ∈ s.launches, l.ctx = ctx) ∨ s.rootAlive = false →
    exec (.contextCreate ctx init) s = .next s)

/-! ## Devices, power, host, debug, samples, trust -/

/-- The stacks (R320 to R326): a granule is stored as its 64 bytes, its metadata symbol, a zero and the 14 symbols that the division of
these by g(x), which is zero at the first 14 powers of α, leaves; a scrub reads a codeword of its stack as any read of the array does,
but for an uncorrectable one of which the home cache holds a sector; the actions of TH1 to TH3 start at 85, 95 and 105 degrees and end
at 82, 92 and below 95, whatever the temperature before; what waited for a stack that leaves TH3 goes on; a stack keeps the time at
which TH3 was reached, and a timeout that comes sooner than 10 ms after it does nothing; one that comes later fails what waits for the
stack. Which codeword a scrub passes over (log 50), the cycle in which 10 ms have passed (log 51) and the order in which what waited goes
on (log 68) are the model's readings.

What Nopol root sets in the devices (R292, R303, R305, R308, R311, R371): a master that it freezes is frozen and reported once, and
runs again when it is unfrozen; ports go down and up; a device leaves the block list; a rank table is staged and not yet adopted; an
armed join engine calls the package out of a state deeper than L1. Where no Nopol root runs that could, nothing is set (R369). The code
of the freeze record is free (log 36). -/
def Obligations.StacksAndDevices : Prop :=
  (
    (∀ (bs : List Byte) (m : BitVec 5), bs.length = 64 →
      rsEncode bs m = bs ++ [m.zeroExtend 8, 0] ++ rsCheck (bs ++ [m.zeroExtend 8, 0]) ∧ (rsEncode bs m).length = 80) ∧
    (rsGen.length = 15 ∧ rsGen.head? = some 1 ∧ ∀ i, i < 14 → rsAt rsGen (gfPow i) = 0) ∧
    (∀ x : Byte, gfMul 1 x = x ∧ gfMul 2 x = (x <<< 1) ^^^ (if x.getLsbD 7 then 0x1D else 0)) ∧
    (∀ (msg : List Byte) (x : Byte), rsCheck (msg ++ [x]) =
      let r := rsCheck msg
      (r.drop 1 ++ [0]).zipWith (fun a b => a ^^^ gfMul (x ^^^ r.headD 0) b) (rsGen.drop 1)) ∧
    (∀ (s : State) (g : Nat), s.gerr.get [] g = [] → s.codeword g = rsEncode (s.bytes (64 * g) 64) (s.metaAt (64 * g))) ∧
    (∀ (s : State) (n g : Nat), stackOf (64 * g) = n → s.backed (64 * g) = true → s.held (64 * g) = false →
      s.uncorrectable g = false ∨ (s.homeHit (64 * g) 32 = false ∧ s.homeHit (64 * g + 32) 32 = false) →
      exec (.scrub n g) s = .next (s.readGranules [g])) ∧
    (∀ (s : State) (n g : Nat), stackOf (64 * g) ≠ n ∨ s.backed (64 * g) = false ∨ s.held (64 * g) = true ∨
      (s.uncorrectable g = true ∧ (s.homeHit (64 * g) 32 = true ∨ s.homeHit (64 * g + 32) 32 = true)) → exec (.scrub n g) s = .next s) ∧
    (∀ (s : State) (n : Nat) (temp : Int), n < 2 * s.dieCount → ∃ u : State,
      let v := ((u.crossing n ((s.stack n).th1 != (u.stack n).th1)).crossing n ((s.stack n).th2 != (u.stack n).th2)).crossing n
        ((s.stack n).th3.isSome != (u.stack n).th3.isSome)
      exec (.thermalThresholdCrossing n temp) s =
        .next (if (s.stack n).th3.isSome = true ∧ (u.stack n).th3 = none then v.recover n else v) ∧
      { u with hbm := s.hbm } = s ∧ (∀ m, m ≠ n → u.stack m = s.stack m) ∧ (u.stack n).temp = temp ∧
      ((u.stack n).th1 = true ↔ 85 ≤ temp ∨ (s.stack n).th1 = true ∧ 82 < temp) ∧
      ((u.stack n).th2 = true ↔ 95 ≤ temp ∨ (s.stack n).th2 = true ∧ 92 < temp) ∧
      ((u.stack n).th3.isSome = true ↔ 105 ≤ temp ∨ (s.stack n).th3.isSome = true ∧ 95 ≤ temp) ∧
      ((s.stack n).th3 = none → 105 ≤ temp → (u.stack n).th3 = some (s.die (n / 2)).cycle) ∧
      (∀ a, (s.stack n).th3 = some a → 95 ≤ temp → (u.stack n).th3 = some a)) ∧
    (∀ (s : State) (n : Nat) (temp : Int), 2 * s.dieCount ≤ n → exec (.thermalThresholdCrossing n temp) s = .next s) ∧
    (∀ (s : State) (n : Nat), s.overdue n = false → exec (.th3Timeout n) s = .next s) ∧
    (∀ (s : State) (n : Nat), s.overdue n = true →
      let group := fun (c : Nat) (t : State) (slot : Nat) => (t.failLoads n c slot).failStores n c slot
      let core := fun (t : State) (x : Nat × Core) => x.2.teams.keys.foldl (fun t p => t.failMsta n x.1 p)
        ((x.2.groups.keys.foldl (group x.1) t).failCmds n x.1)
      exec (.th3Timeout n) s =
        .next (((upto s.dieCount).foldl (fun t d => t.failStripes n d) (s.cores.foldl core s)).serveViews.collsGo))) ∧
  (
    (∀ (s : State) (u : EngineUnit), s.hasUnit u = true → s.rootAlive = true →
      (s.isFrozen u = false → exec (.masterFreeze u true) s = .next ((s.setFrozen true u).frozenRecord u)) ∧
      (s.isFrozen u = true → exec (.masterFreeze u false) s = .next (s.setFrozen false u)) ∧
      (∀ b, s.isFrozen u = b → exec (.masterFreeze u b) s = .next s) ∧
      (s.setFrozen false u).isFrozen u = false ∧
      (s.setFrozen true u).isFrozen u = true) ∧
    (∀ (s : State) (d port : Nat), d < s.dieCount → port < 8 →
      (∃ t, exec (.feselPortDown d port) s = .next t ∧ port ∈ (t.die d).portsDown ∧
        ∀ p, p ≠ port → (p ∈ (t.die d).portsDown ↔ p ∈ (s.die d).portsDown)) ∧
      (∃ t, exec (.feselPortUp d port) s = .next t ∧ port ∉ (t.die d).portsDown ∧
        ∀ p, p ≠ port → (p ∈ (t.die d).portsDown ↔ p ∈ (s.die d).portsDown))) ∧
    (∀ (s : State) (d : Nat) (x : BitVec 20), d < s.dieCount → s.rootRuns d = true → ∃ t, exec (.blockListRemoval d x) s = .next t ∧
      ∀ y, y ∈ (t.die d).blockList ↔ y ∈ (s.die d).blockList ∧ y ≠ x) ∧
    (∀ (s : State) (ctx n : Nat) (r : RankTable) (x : Context), n < 64 → s.rootAlive = true → s.context ctx = some x → ∃ t y,
      exec (.rankTableStage ctx n r) s = .next t ∧ t.context ctx = some y ∧ (y.comms.get {} n).staged = some r ∧
      (y.comms.get {} n).adopted = (x.comms.get {} n).adopted) ∧
    (∀ (s : State) (d : Nat) (b : Bool), d < s.dieCount → s.rootRuns d = true → ∃ t, exec (.joinEngineArm d b) s = .next t ∧ (t.die d).joinArmed = b ∧
      t.power = s.power ∧
      (t.waking = true ↔ s.waking = true ∨ b = true ∧ s.power ≠ .l0 ∧ s.power ≠ .l1)) ∧
    (∀ (s : State) (d ctx n : Nat) (u : EngineUnit) (x : BitVec 20) (r : RankTable) (b : Bool),
      (s.rootAlive = false → exec (.masterFreeze u b) s = .next s ∧ exec (.rankTableStage ctx n r) s = .next s) ∧
      (s.rootRuns d = false → exec (.blockListRemoval d x) s = .next s ∧ exec (.joinEngineArm d b) s = .next s)))

/-- Power states (R291, R292, R326): the deepest state whose exit latency every tolerance allows is entered when the package is idle,
and none deeper; from L2 down the cores lose what they hold, at L4 the home caches too, and memory never; an exit starts for its cause
and ends in L0; and a removal of power leaves the machine as reset leaves it but for what is fixed or already sent. What cores lose from
L2 down and what a removal of power leaves are the model's readings (log 52). -/
def Obligations.PowerStates : Prop :=
  (∀ tol : Nat, (Power.within tol).latency ≤ tol ∧
    ∀ p : Power, p.latency ≤ tol → p.depth ≤ (Power.within tol).depth) ∧
  (∀ s : State, s.allowed.latency ≤ s.tolerance ∧
    ((∃ d x, (d, x) ∈ s.dies ∧ x.joinArmed = true) → s.allowed.depth ≤ 1)) ∧
  (∀ s : State, s.waking = false → s.isIdle = true → s.power.depth < s.allowed.depth → ∃ t, exec .powerStateEntry s = .next t ∧
    t.power = s.allowed ∧ t.mem = s.mem ∧ t.gmeta = s.gmeta ∧ t.contexts = s.contexts ∧ t.queues = s.queues ∧
    (s.allowed = .l1 → t = { s with power := .l1 }) ∧
    (2 ≤ s.allowed.depth → ∀ c k, (c, k) ∈ t.cores → k.groups = [] ∧ k.lmem = [] ∧ k.teams = []) ∧
    (s.allowed = .l4 → ∀ d x, (d, x) ∈ t.dies → x.home = [])) ∧
  (∀ s : State, s.waking = true ∨ s.isIdle = false ∨ s.allowed.depth ≤ s.power.depth → exec .powerStateEntry s = .next s) ∧
  (∀ (s : State) (c : WakeCause),
    (s.causes c = true → exec (.powerStateExit c) s = .next s.wake) ∧ (s.causes c = false → exec (.powerStateExit c) s = .next s)) ∧
  (∀ s : State, s.wake.power = s.power ∧ (s.power = .l0 → s.wake = s) ∧ (s.power ≠ .l0 → s.wake.waking = true)) ∧
  (∀ s : State, (s.waking = true → exec .powerStateExitComplete s =
      .next { s with
        power := .l0,
        waking := false }) ∧
    (s.waking = false → exec .powerStateExitComplete s = .next s)) ∧
  (∀ s : State, ∃ t, exec .powerRemoval s = .next t ∧ t.mem = State.reset.mem ∧ t.cores = State.reset.cores ∧
    t.dies = State.reset.dies ∧ t.contexts = State.reset.contexts ∧ t.power = State.reset.power ∧ t.form = s.form ∧
    t.devid = s.devid ∧ t.hostOut = s.hostOut ∧ t.fabricOut = s.fabricOut)

/-- The host and debug (R318, R319, R366): a request at a host port that the form has, on a queue pair, waits behind an earlier one of its
pair and for its stack; one outside the registered regions or the memory, to a die that the port's die does not reach, or that meets
poison, a read of a stack held too long, and one that the package does not support are answered with a negative acknowledgement and
perform nothing else, poison being found as it is read; a write is performed by the port's die, the queues whose wridx it holds are read
and the debug requests that it holds noted; a read answers with what memory holds, wherever its home is. A debug request is served in its
turn: resume lets a halted group run, terminate ends every launch of its context with one free code of Table 0-4, and a dump, once what it
reads can be read, writes its sections. The answers to accesses outside the memory, unreached, to poison or too late (log 53) and the
results of a resume or dump that finds nothing (log 37) are the model's. -/
def Obligations.HostAndDebug : Prop :=
  (∀ s : State, s.hostPorts = if s.form = .b940d then 1 else 4) ∧
  (∀ (s : State) (port qp addr len : Nat) (bs : List Byte),
    let does := fun (i : Instr) (x : HostReq) =>
      let here := port < s.hostPorts ∧ qp < 1024
      let waits := (∃ y ∈ s.hostHeld, y.port = port ∧ y.qp = qp) ∨ s.hostWaits x = true
      (¬here → exec i s = .next s) ∧ (here → waits → exec i s = .next { s with hostHeld := s.hostHeld ++ [x] }) ∧
      (here → ¬waits → exec i s = .next (s.hostAct x))
    does (.hostRdmaWrite ⟨port, qp⟩ addr bs) {
      port := port
      qp := qp
      addr := addr
      len := bs.length
      bytes := some bs } ∧
    does (.hostRdmaRead ⟨port, qp⟩ addr len) {
      port := port
      qp := qp
      addr := addr
      len := len
      bytes := none }) ∧
  (∀ (s : State) (x : HostReq),
    let ps := hostPieces x.addr x.len
    let out := s.registered x.addr x.len = false ∨ s.reachable x.addr x.len = false
    let late := fun (y : Nat × Nat) => s.held y.1 && !s.homeHit y.1 y.2 && s.overdue (stackOf y.1)
    let bad := ∃ y ∈ ps, s.linked (2 * x.port) (homeDie y.1) = false ∨
      (if x.bytes.isSome then s.badPart y.1 y.2 else s.bad y.1 y.2 || late y) = true
    (s.hostRefused x = true ↔ out ∨ bad) ∧
    (s.hostWaits x = true ↔ ¬(out ∨ bad) ∧ ∃ y ∈ ps, (if x.bytes.isSome then s.writeWaits y.1 y.2 else s.stackWaits y.1 y.2) = true) ∧
    (out ∨ bad → x.bytes.isSome = true ∨ s.registered x.addr x.len = false →
      s.hostAct x = { s with hostOut := s.hostOut ++ [.nak x.port] }) ∧
    (out ∨ bad → x.bytes = none → s.registered x.addr x.len = true →
      let u := ps.foldl (fun (v : State) y => v.readArray y.1 y.2) s
      s.hostAct x = { u with hostOut := u.hostOut ++ [.nak x.port] }) ∧
    (¬(out ∨ bad) → ∀ bs, x.bytes = some bs →
      let u := ((s.softAccesses ps).writePieces (2 * x.port) ps bs).settleBlanks
      let v := (u.wridxIn x.addr x.len).foldl (fun (v : State) q => (v.readQueue q).wake) u
      s.hostAct x = { v with debugQ := v.debugQ ++ v.requestsIn x.addr x.len }) ∧
    (¬(out ∨ bad) → x.bytes = none →
      let r := s.softReads ps
      s.hostAct x = { r.2 with hostOut := r.2.hostOut ++ [.rdmaData x.port r.1] })) ∧
  (∀ (s : State) (a k : Nat) (ps : List (Nat × Nat)),
    let u := s.homeLoad a k .normal
    let r := u.softRead a (u.bytes a k)
    let q := r.2.softReads ps
    s.softReads [] = ([], s) ∧ s.softReads ((a, k) :: ps) = (r.1 ++ q.1, q.2)) ∧
  (∀ (s : State) (a : Nat) (bs : List Byte),
    let t := s.softAccess a bs.length
    (s.inOsum a bs.length = false → s.softRead a bs = (bs, t)) ∧
    (s.inOsum a bs.length = true → s.softRead a bs =
      ((upto bs.length).map fun i => Config.freeByte (s.free + i), { t with free := s.free + bs.length }))) ∧
  (∀ (s : State) (port : Nat),
    (port < s.hostPorts → exec (.hostUnsupportedOperation port) s = .next { s with hostOut := s.hostOut ++ [.nak port] }) ∧
    (s.hostPorts ≤ port → exec (.hostUnsupportedOperation port) s = .next s)) ∧
  (∀ addr len : Nat,
    ((hostPieces addr len).map Prod.snd).sum = len ∧
    ∀ x ∈ hostPieces addr len, 0 < x.2 ∧ x.1 / 65536 = (x.1 + x.2 - 1) / 65536) ∧
  (∀ (s : State) (n : Nat), s.dbgTurn n = true →
    let op := natBits (s.dbgWord n 0) 7 0
    let ctx := s.dbgCtx n
    let c := natBits (s.dbgWord n 7) 11 0
    let slot := natBits (s.dbgWord n 7) 17 12
    (∀ g, op = 2 → (s.core c).groups.find slot = some g → g.halted = true → g.ctx = ctx →
      exec (.debugResume n) s = .next ((s.modGroup c slot fun g => { g with halted := false }).dbgDone n 0)) ∧
    (op = 2 → (∀ g, (s.core c).groups.find slot = some g → g.halted = false ∨ g.ctx ≠ ctx) → ∃ code : Code, code.toNat ≤ 20 ∧
      exec (.debugResume n) s = .next (s.freeCode.2.dbgDone n code)) ∧
    (op = 3 → ∃ code : Code, code.toNat ≤ 20 ∧
      exec (.debugTerminate n) s = .next ((s.freeCode.2.terminateContext ctx code).dbgDone n 0)) ∧
    (op ≠ 1 → op ≠ 2 → op ≠ 3 → exec (.debugDump n) s = .next (s.dbgDone n cILLEGAL)) ∧
    (op = 1 → s.context ctx = none → ∃ code : Code, code.toNat ≤ 20 ∧ exec (.debugDump n) s = .next (s.freeCode.2.dbgDone n code)) ∧
    (∀ x, op = 1 → s.context ctx = some x → (x.preempted = true ∧ x.out = false) ∨ s.dumpHeld n ctx = true →
      exec (.debugDump n) s = .next s) ∧
    (∀ x, op = 1 → s.context ctx = some x → x.preempted = false ∨ x.out = true → s.dumpHeld n ctx = false →
      (∀ code, s.dumpBytes n ctx = .error code → exec (.debugDump n) s = .next (s.dbgDone n code)) ∧
      (∀ ps bs, s.dumpBytes n ctx = .ok (ps, bs) → exec (.debugDump n) s =
        .next ((s.writePieces s.rootDie ps bs).dbgDone n 0)))) ∧
  (∀ (s : State) (n : Nat), s.dbgTurn n = false →
    exec (.debugDump n) s = .next s ∧ exec (.debugResume n) s = .next s ∧ exec (.debugTerminate n) s = .next s)

/-- Samples and trust (R362 to R364, R369): a core takes one sample for each period that has passed, each at its own cycle: the next
candidate after the last and then the first again; the sample of a memory instruction waits until the instruction has completed; a
die's root image is replaced by one that verifies and lost to one that does not, which then does not run, an agent image needs a running
Nopol root, a refused image is reported, a root image once a die has admitted one, and a report is signed over a nonce of 32 bytes, with
the package's identity key over the SHA-256 digest of what it covers. The queue times of a sample are free values
(log 25), and the keys and the report's layout the model's (log 20). -/
def Obligations.SamplesAndTrust : Prop :=
  (∀ (s : State) (c : Nat),
    let k := s.core c
    let n := Nat.max 16 k.period.toNat
    let now := (s.die (dieOf c)).cycle
    (k.period = 0 ∨ now < k.sampleAt + n → exec (.samplePoint c) s = .next s) ∧
    (k.period ≠ 0 → exec (.samplePoint c) s =
      .next ((upto ((now - k.sampleAt) / n)).foldl (fun t i => t.samplePoint c (k.sampleAt + n * (i + 1))) s))) ∧
  (∀ (s : State) (c at_ : Nat),
    let k := s.core c
    let u := s.modCore c fun k => { k with sampleAt := at_ }
    (k.sampleCandidates = [] → s.samplePoint c at_ = u) ∧
    (∀ x, k.sampleCandidates.find? (fun y => k.sampled < y) = some x ∨
        k.sampleCandidates.find? (fun y => k.sampled < y) = none ∧ k.sampleCandidates.head? = some x →
      let v := u.modCore c fun k => { k with sampled := x }
      s.samplePoint c at_ = if x = 63 then v.sampleStroke c k.lastStroke at_ else v.sampleGroup c x at_)) ∧
  (∀ (s : State) (c : Nat), (∀ d ∈ (s.core c).deferred, s.sampleDone c d = false) → exec (.sampleRecordDeferred c) s = .next s) ∧
  (∀ (s : State) (c i : Nat) (d : Deferred), (places (s.sampleDone c) (s.core c).deferred).head? = some i →
    (s.core c).deferred[i]? = some d →
    exec (.sampleRecordDeferred c) s = .next (((s.memFields d.acc).2.modCore c fun k =>
      { k with deferred := listErase k.deferred i }).record
        (((s.memFields d.acc).2.modCore c fun k => { k with deferred := listErase k.deferred i }).sampleRing d.ctx)
        0x10 (dieOf c) (some c) (some d.acc.slot) (d.body ++ (s.memFields d.acc).1))) ∧
  (∀ (s : State) (d : Nat) (img : Image), d < s.dieCount →
    let good := Machine.Image.verifies img = true
    let digest := sha256 img.bytes
    (good → img.agent = false → ∃ t, exec (.imageAdmission d img) s = .next t ∧ (t.die d).rootImage = some digest ∧
      (t.die d).rootRefused = false ∧ (t.die d).agentImage = (s.die d).agentImage) ∧
    (good → img.agent = true → s.rootRuns d = true → ∃ t, exec (.imageAdmission d img) s = .next t ∧
      (t.die d).agentImage = some digest ∧ (t.die d).agentRefused = false ∧ (t.die d).rootImage = (s.die d).rootImage) ∧
    (img.agent = true → s.rootRuns d = false → exec (.imageAdmission d img) s = .next s) ∧
    (¬good → img.agent = true → s.rootRuns d = true → exec (.imageAdmission d img) s =
      .next ((s.modDie d fun x => { x with agentImage := none, agentRefused := true }).rejected d 1 d)) ∧
    (¬good → img.agent = false →
      let u := s.modDie d fun x => { x with rootImage := none, rootRefused := true, rootPending := true, agentImage := none }
      u.rootRuns d = false ∧ (∀ c, dieOf c = d → u.agentRuns c = false) ∧
      exec (.imageAdmission d img) s = .next u.reportRoots)) ∧
  (∀ s : State, (∀ e, e < s.dieCount → (s.die e).rootImage = none) → s.reportRoots = s) ∧
  (∀ (s : State) (e : Nat), e < s.dieCount → (s.die e).rootImage.isSome = true → (∀ j, j < e → (s.die j).rootImage = none) →
    s.reportRoots = ((upto s.dieCount).filter fun k => (s.die k).rootPending).foldl (fun t k =>
      (t.modDie k fun x => { x with rootPending := false }).rejected e 0 k) s) ∧
  (∀ (s : State) (nonce : List Byte), nonce.length = 32 →
    let bs := s.attested nonce
    let modulus := Config.identityKey.1
    exec (.attestationReport nonce) s = .next { s with hostOut := s.hostOut ++
      [.report bs (powMod modulus 3072 (beVal (pkcsEncode (sha256 bs)) % modulus) Config.identityKey.2 1)] }) ∧
  (∀ (s : State) (nonce : List Byte), nonce.length ≠ 32 → exec (.attestationReport nonce) s = .next s)
end

