-- ==== Sys2Proof/Laws/Dispatch.lean ====
section
/-! SUPPORT. What `exec` calls for each constructor. -/

namespace Sys2Proof.Machine

section
variable (s : State)

@[simp] theorem exec_iadd (h : Hdr) (f : VF) : exec (.iadd h f) s = execIadd h f s := rfl
@[simp] theorem exec_isub (h : Hdr) (f : VF) : exec (.isub h f) s = execIsub h f s := rfl
@[simp] theorem exec_iaddc (h : Hdr) (f : VF) : exec (.iaddc h f) s = execIaddc h f s := rfl
@[simp] theorem exec_imul (h : Hdr) (f : VF) : exec (.imul h f) s = execImul h f s := rfl
@[simp] theorem exec_imulh (h : Hdr) (f : VF) : exec (.imulh h f) s = execImulh h f s := rfl
@[simp] theorem exec_imad (h : Hdr) (f : VF) : exec (.imad h f) s = execImad h f s := rfl
@[simp] theorem exec_idiv (h : Hdr) (f : VF) : exec (.idiv h f) s = execIdiv h f s := rfl
@[simp] theorem exec_irem (h : Hdr) (f : VF) : exec (.irem h f) s = execIrem h f s := rfl
@[simp] theorem exec_imin (h : Hdr) (f : VF) : exec (.imin h f) s = execImin h f s := rfl
@[simp] theorem exec_imax (h : Hdr) (f : VF) : exec (.imax h f) s = execImax h f s := rfl
@[simp] theorem exec_iabs (h : Hdr) (f : VF) : exec (.iabs h f) s = execIabs h f s := rfl
@[simp] theorem exec_ineg (h : Hdr) (f : VF) : exec (.ineg h f) s = execIneg h f s := rfl
@[simp] theorem exec_lea (h : Hdr) (f : VF) : exec (.lea h f) s = execLea h f s := rfl
@[simp] theorem exec_and (h : Hdr) (f : VF) : exec (.and h f) s = execAnd h f s := rfl
@[simp] theorem exec_or (h : Hdr) (f : VF) : exec (.or h f) s = execOr h f s := rfl
@[simp] theorem exec_xor (h : Hdr) (f : VF) : exec (.xor h f) s = execXor h f s := rfl
@[simp] theorem exec_not (h : Hdr) (f : VF) : exec (.not h f) s = execNot h f s := rfl
@[simp] theorem exec_shl (h : Hdr) (f : VF) : exec (.shl h f) s = execShl h f s := rfl
@[simp] theorem exec_shr (h : Hdr) (f : VF) : exec (.shr h f) s = execShr h f s := rfl
@[simp] theorem exec_sar (h : Hdr) (f : VF) : exec (.sar h f) s = execSar h f s := rfl
@[simp] theorem exec_rotl (h : Hdr) (f : VF) : exec (.rotl h f) s = execRotl h f s := rfl
@[simp] theorem exec_bfx (h : Hdr) (f : VF) : exec (.bfx h f) s = execBfx h f s := rfl
@[simp] theorem exec_bfi (h : Hdr) (f : VF) : exec (.bfi h f) s = execBfi h f s := rfl
@[simp] theorem exec_popc (h : Hdr) (f : VF) : exec (.popc h f) s = execPopc h f s := rfl
@[simp] theorem exec_clz (h : Hdr) (f : VF) : exec (.clz h f) s = execClz h f s := rfl
@[simp] theorem exec_brev (h : Hdr) (f : VF) : exec (.brev h f) s = execBrev h f s := rfl
@[simp] theorem exec_sel (h : Hdr) (f : VF) : exec (.sel h f) s = execSel h f s := rfl
@[simp] theorem exec_icmp (h : Hdr) (f : VF) : exec (.icmp h f) s = execIcmp h f s := rfl
@[simp] theorem exec_mov (h : Hdr) (f : VF) : exec (.mov h f) s = execMov h f s := rfl
@[simp] theorem exec_movi (h : Hdr) (f : VF) : exec (.movi h f) s = execMovi h f s := rfl
@[simp] theorem exec_movs (h : Hdr) (f : VF) : exec (.movs h f) s = execMovs h f s := rfl
@[simp] theorem exec_fadd (h : Hdr) (f : VF) : exec (.fadd h f) s = execFadd h f s := rfl
@[simp] theorem exec_fsub (h : Hdr) (f : VF) : exec (.fsub h f) s = execFsub h f s := rfl
@[simp] theorem exec_fmul (h : Hdr) (f : VF) : exec (.fmul h f) s = execFmul h f s := rfl
@[simp] theorem exec_ffma (h : Hdr) (f : VF) : exec (.ffma h f) s = execFfma h f s := rfl
@[simp] theorem exec_fdiv (h : Hdr) (f : VF) : exec (.fdiv h f) s = execFdiv h f s := rfl
@[simp] theorem exec_fmin (h : Hdr) (f : VF) : exec (.fmin h f) s = execFmin h f s := rfl
@[simp] theorem exec_fmax (h : Hdr) (f : VF) : exec (.fmax h f) s = execFmax h f s := rfl
@[simp] theorem exec_fcmp (h : Hdr) (f : VF) : exec (.fcmp h f) s = execFcmp h f s := rfl
@[simp] theorem exec_frcp (h : Hdr) (f : VF) : exec (.frcp h f) s = execFrcp h f s := rfl
@[simp] theorem exec_frsq (h : Hdr) (f : VF) : exec (.frsq h f) s = execFrsq h f s := rfl
@[simp] theorem exec_fsqrt (h : Hdr) (f : VF) : exec (.fsqrt h f) s = execFsqrt h f s := rfl
@[simp] theorem exec_fexp2 (h : Hdr) (f : VF) : exec (.fexp2 h f) s = execFexp2 h f s := rfl
@[simp] theorem exec_flog2 (h : Hdr) (f : VF) : exec (.flog2 h f) s = execFlog2 h f s := rfl
@[simp] theorem exec_fsin (h : Hdr) (f : VF) : exec (.fsin h f) s = execFsin h f s := rfl
@[simp] theorem exec_fcos (h : Hdr) (f : VF) : exec (.fcos h f) s = execFcos h f s := rfl
@[simp] theorem exec_ftanh (h : Hdr) (f : VF) : exec (.ftanh h f) s = execFtanh h f s := rfl
@[simp] theorem exec_fscale (h : Hdr) (f : VF) : exec (.fscale h f) s = execFscale h f s := rfl
@[simp] theorem exec_fclass (h : Hdr) (f : VF) : exec (.fclass h f) s = execFclass h f s := rfl
@[simp] theorem exec_frnd (h : Hdr) (f : VF) : exec (.frnd h f) s = execFrnd h f s := rfl
@[simp] theorem exec_xadd (h : Hdr) (f : VF) : exec (.xadd h f) s = execXadd h f s := rfl
@[simp] theorem exec_xmul (h : Hdr) (f : VF) : exec (.xmul h f) s = execXmul h f s := rfl
@[simp] theorem exec_xfma (h : Hdr) (f : VF) : exec (.xfma h f) s = execXfma h f s := rfl
@[simp] theorem exec_xmin (h : Hdr) (f : VF) : exec (.xmin h f) s = execXmin h f s := rfl
@[simp] theorem exec_xmax (h : Hdr) (f : VF) : exec (.xmax h f) s = execXmax h f s := rfl
@[simp] theorem exec_cvt (h : Hdr) (f : VF) : exec (.cvt h f) s = execCvt h f s := rfl
@[simp] theorem exec_pack (h : Hdr) (f : VF) : exec (.pack h f) s = execPack h f s := rfl
@[simp] theorem exec_unpack (h : Hdr) (f : VF) : exec (.unpack h f) s = execUnpack h f s := rfl
@[simp] theorem exec_dot4 (h : Hdr) (f : VF) : exec (.dot4 h f) s = execDot4 h f s := rfl
@[simp] theorem exec_dot8 (h : Hdr) (f : VF) : exec (.dot8 h f) s = execDot8 h f s := rfl
@[simp] theorem exec_dscl (h : Hdr) (f : VF) : exec (.dscl h f) s = execDscl h f s := rfl
@[simp] theorem exec_shfl (h : Hdr) (f : VF) : exec (.shfl h f) s = execShfl h f s := rfl
@[simp] theorem exec_vote (h : Hdr) (f : VF) : exec (.vote h f) s = execVote h f s := rfl
@[simp] theorem exec_redl (h : Hdr) (f : VF) : exec (.redl h f) s = execRedl h f s := rfl
@[simp] theorem exec_scanl (h : Hdr) (f : VF) : exec (.scanl h f) s = execScanl h f s := rfl
@[simp] theorem exec_match_ (h : Hdr) (f : VF) : exec (.match_ h f) s = execMatch h f s := rfl
@[simp] theorem exec_elect (h : Hdr) (f : VF) : exec (.elect h f) s = execElect h f s := rfl
@[simp] theorem exec_rng (h : Hdr) (f : VF) : exec (.rng h f) s = execRng h f s := rfl
@[simp] theorem exec_rngseed (h : Hdr) (f : VF) : exec (.rngseed h f) s = execRngseed h f s := rfl
@[simp] theorem exec_rngskip (h : Hdr) (f : VF) : exec (.rngskip h f) s = execRngskip h f s := rfl
@[simp] theorem exec_pair (h : Hdr) (f : PF) : exec (.pair h f) s = execPair h f s := rfl
@[simp] theorem exec_bra (h : Hdr) (f : CF) : exec (.bra h f) s = execBra h f s := rfl
@[simp] theorem exec_brx (h : Hdr) (f : CF) : exec (.brx h f) s = execBrx h f s := rfl
@[simp] theorem exec_call (h : Hdr) (f : CF) : exec (.call h f) s = execCall h f s := rfl
@[simp] theorem exec_callx (h : Hdr) (f : CF) : exec (.callx h f) s = execCallx h f s := rfl
@[simp] theorem exec_ret (h : Hdr) (f : CF) : exec (.ret h f) s = execRet h f s := rfl
@[simp] theorem exec_join (h : Hdr) (f : CF) : exec (.join h f) s = execJoin h f s := rfl
@[simp] theorem exec_exit (h : Hdr) (f : CF) : exec (.exit h f) s = execExit h f s := rfl
@[simp] theorem exec_trap (h : Hdr) (f : CF) : exec (.trap h f) s = execTrap h f s := rfl
@[simp] theorem exec_bkpt (h : Hdr) (f : CF) : exec (.bkpt h f) s = execBkpt h f s := rfl
@[simp] theorem exec_nop (h : Hdr) (f : CF) : exec (.nop h f) s = execNop h f s := rfl
@[simp] theorem exec_yield (h : Hdr) (f : CF) : exec (.yield h f) s = execYield h f s := rfl
@[simp] theorem exec_syncg (h : Hdr) (f : CF) : exec (.syncg h f) s = execSyncg h f s := rfl
@[simp] theorem exec_synct (h : Hdr) (f : CF) : exec (.synct h f) s = execSynct h f s := rfl
@[simp] theorem exec_sizesel (h : Hdr) (f : CF) : exec (.sizesel h f) s = execSizesel h f s := rfl
@[simp] theorem exec_ink (h : Hdr) (f : CF) : exec (.ink h f) s = execInk h f s := rfl
@[simp] theorem exec_ld (h : Hdr) (f : MF) : exec (.ld h f) s = execLd h f s := rfl
@[simp] theorem exec_st (h : Hdr) (f : MF) : exec (.st h f) s = execSt h f s := rfl
@[simp] theorem exec_ldl (h : Hdr) (f : MF) : exec (.ldl h f) s = execLdl h f s := rfl
@[simp] theorem exec_stl (h : Hdr) (f : MF) : exec (.stl h f) s = execStl h f s := rfl
@[simp] theorem exec_ldc (h : Hdr) (f : MF) : exec (.ldc h f) s = execLdc h f s := rfl
@[simp] theorem exec_lds (h : Hdr) (f : MF) : exec (.lds h f) s = execLds h f s := rfl
@[simp] theorem exec_pref (h : Hdr) (f : MF) : exec (.pref h f) s = execPref h f s := rfl
@[simp] theorem exec_cctlIl1 (h : Hdr) (f : MF) : exec (.cctlIl1 h f) s = execCctlIl1 h f s := rfl
@[simp] theorem exec_cctlIrd (h : Hdr) (f : MF) : exec (.cctlIrd h f) s = execCctlIrd h f s := rfl
@[simp] theorem exec_cctlWb (h : Hdr) (f : MF) : exec (.cctlWb h f) s = execCctlWb h f s := rfl
@[simp] theorem exec_cctlIl1all (h : Hdr) (f : MF) : exec (.cctlIl1all h f) s = execCctlIl1all h f s := rfl
@[simp] theorem exec_cctlIrdall (h : Hdr) (f : MF) : exec (.cctlIrdall h f) s = execCctlIrdall h f s := rfl
@[simp] theorem exec_ldtag (h : Hdr) (f : MF) : exec (.ldtag h f) s = execLdtag h f s := rfl
@[simp] theorem exec_sttag (h : Hdr) (f : MF) : exec (.sttag h f) s = execSttag h f s := rfl
@[simp] theorem exec_atom (h : Hdr) (f : MF) : exec (.atom h f) s = execAtom h f s := rfl
@[simp] theorem exec_atomc (h : Hdr) (f : MF) : exec (.atomc h f) s = execAtomc h f s := rfl
@[simp] theorem exec_red (h : Hdr) (f : MF) : exec (.red h f) s = execRed h f s := rfl
@[simp] theorem exec_atomo (h : Hdr) (f : MF) : exec (.atomo h f) s = execAtomo h f s := rfl
@[simp] theorem exec_atoml (h : Hdr) (f : MF) : exec (.atoml h f) s = execAtoml h f s := rfl
@[simp] theorem exec_fence (h : Hdr) (f : MF) : exec (.fence h f) s = execFence h f s := rfl
@[simp] theorem exec_fenceo (h : Hdr) (f : MF) : exec (.fenceo h f) s = execFenceo h f s := rfl
@[simp] theorem exec_fencex (h : Hdr) (f : MF) : exec (.fencex h f) s = execFencex h f s := rfl
@[simp] theorem exec_fencep (h : Hdr) (f : MF) : exec (.fencep h f) s = execFencep h f s := rfl
@[simp] theorem exec_cbseal (h : Hdr) (f : MF) : exec (.cbseal h f) s = execCbseal h f s := rfl
@[simp] theorem exec_cbwait (h : Hdr) (f : MF) : exec (.cbwait h f) s = execCbwait h f s := rfl
@[simp] theorem exec_cpyLd (h : Hdr) (f : EF) : exec (.cpyLd h f) s = execCpyLd h f s := rfl
@[simp] theorem exec_cpySt (h : Hdr) (f : EF) : exec (.cpySt h f) s = execCpySt h f s := rfl
@[simp] theorem exec_cpym (h : Hdr) (f : EF) : exec (.cpym h f) s = execCpym h f s := rfl
@[simp] theorem exec_cpys (h : Hdr) (f : EF) : exec (.cpys h f) s = execCpys h f s := rfl
@[simp] theorem exec_cpyg (h : Hdr) (f : EF) : exec (.cpyg h f) s = execCpyg h f s := rfl
@[simp] theorem exec_cpyx (h : Hdr) (f : EF) : exec (.cpyx h f) s = execCpyx h f s := rfl
@[simp] theorem exec_pft (h : Hdr) (f : EF) : exec (.pft h f) s = execPft h f s := rfl
@[simp] theorem exec_binit (h : Hdr) (f : EF) : exec (.binit h f) s = execBinit h f s := rfl
@[simp] theorem exec_bexpect (h : Hdr) (f : EF) : exec (.bexpect h f) s = execBexpect h f s := rfl
@[simp] theorem exec_barrive (h : Hdr) (f : EF) : exec (.barrive h f) s = execBarrive h f s := rfl
@[simp] theorem exec_bwait (h : Hdr) (f : EF) : exec (.bwait h f) s = execBwait h f s := rfl
@[simp] theorem exec_btest (h : Hdr) (f : EF) : exec (.btest h f) s = execBtest h f s := rfl
@[simp] theorem exec_barm (h : Hdr) (f : EF) : exec (.barm h f) s = execBarm h f s := rfl
@[simp] theorem exec_binv (h : Hdr) (f : EF) : exec (.binv h f) s = execBinv h f s := rfl
@[simp] theorem exec_pclr (h : Hdr) (f : EF) : exec (.pclr h f) s = execPclr h f s := rfl
@[simp] theorem exec_ptest (h : Hdr) (f : EF) : exec (.ptest h f) s = execPtest h f s := rfl
@[simp] theorem exec_gld (h : Hdr) (f : EF) : exec (.gld h f) s = execGld h f s := rfl
@[simp] theorem exec_gst (h : Hdr) (f : EF) : exec (.gst h f) s = execGst h f s := rfl
@[simp] theorem exec_gset (h : Hdr) (f : EF) : exec (.gset h f) s = execGset h f s := rfl
@[simp] theorem exec_gget (h : Hdr) (f : EF) : exec (.gget h f) s = execGget h f s := rfl
@[simp] theorem exec_tidld (h : Hdr) (f : EF) : exec (.tidld h f) s = execTidld h f s := rfl
@[simp] theorem exec_tidset (h : Hdr) (f : EF) : exec (.tidset h f) s = execTidset h f s := rfl
@[simp] theorem exec_thnd (h : Hdr) (f : EF) : exec (.thnd h f) s = execThnd h f s := rfl
@[simp] theorem exec_mldw (h : Hdr) (f : EF) : exec (.mldw h f) s = execMldw h f s := rfl
@[simp] theorem exec_mswap (h : Hdr) (f : EF) : exec (.mswap h f) s = execMswap h f s := rfl
@[simp] theorem exec_mma (h : Hdr) (f : EF) : exec (.mma h f) s = execMma h f s := rfl
@[simp] theorem exec_mmat (h : Hdr) (f : EF) : exec (.mmat h f) s = execMmat h f s := rfl
@[simp] theorem exec_mclr (h : Hdr) (f : EF) : exec (.mclr h f) s = execMclr h f s := rfl
@[simp] theorem exec_mguide (h : Hdr) (f : EF) : exec (.mguide h f) s = execMguide h f s := rfl
@[simp] theorem exec_msta (h : Hdr) (f : EF) : exec (.msta h f) s = execMsta h f s := rfl
@[simp] theorem exec_mldt (h : Hdr) (f : EF) : exec (.mldt h f) s = execMldt h f s := rfl
@[simp] theorem exec_mprog (h : Hdr) (f : EF) : exec (.mprog h f) s = execMprog h f s := rfl
@[simp] theorem exec_mlease (h : Hdr) (f : EF) : exec (.mlease h f) s = execMlease h f s := rfl
@[simp] theorem exec_mrel (h : Hdr) (f : EF) : exec (.mrel h f) s = execMrel h f s := rfl
@[simp] theorem exec_mwait (h : Hdr) (f : EF) : exec (.mwait h f) s = execMwait h f s := rfl
@[simp] theorem exec_mstatArith (h : Hdr) (f : EF) : exec (.mstatArith h f) s = execMstatArith h f s := rfl
@[simp] theorem exec_mstatEng (h : Hdr) (f : EF) : exec (.mstatEng h f) s = execMstatEng h f s := rfl
@[simp] theorem exec_rld (h : Hdr) (f : MF) : exec (.rld h f) s = execRld h f s := rfl
@[simp] theorem exec_rst (h : Hdr) (f : MF) : exec (.rst h f) s = execRst h f s := rfl
@[simp] theorem exec_ratom (h : Hdr) (f : MF) : exec (.ratom h f) s = execRatom h f s := rfl
@[simp] theorem exec_rrd3 (h : Hdr) (f : EF) : exec (.rrd3 h f) s = execRrd3 h f s := rfl
@[simp] theorem exec_rwin (h : Hdr) (f : EF) : exec (.rwin h f) s = execRwin h f s := rfl
@[simp] theorem exec_rwclose (h : Hdr) (f : EF) : exec (.rwclose h f) s = execRwclose h f s := rfl
@[simp] theorem exec_coll (h : Hdr) (f : EF) : exec (.coll h f) s = execColl h f s := rfl
@[simp] theorem exec_cwait (h : Hdr) (f : EF) : exec (.cwait h f) s = execCwait h f s := rfl
@[simp] theorem exec_genrd (h : Hdr) (f : EF) : exec (.genrd h f) s = execGenrd h f s := rfl
@[simp] theorem exec_ranksw (h : Hdr) (f : EF) : exec (.ranksw h f) s = execRanksw h f s := rfl
@[simp] theorem exec_tview (h : Hdr) (f : EF) : exec (.tview h f) s = execTview h f s := rfl
@[simp] theorem exec_tvclose (h : Hdr) (f : EF) : exec (.tvclose h f) s = execTvclose h f s := rfl
@[simp] theorem exec_gets (h : Hdr) (f : VF) : exec (.gets h f) s = execGets h f s := rfl
@[simp] theorem exec_sets (h : Hdr) (f : VF) : exec (.sets h f) s = execSets h f s := rfl
@[simp] theorem exec_trapret (h : Hdr) (f : VF) : exec (.trapret h f) s = execTrapret h f s := rfl
@[simp] theorem exec_halt (h : Hdr) (f : VF) : exec (.halt h f) s = execHalt h f s := rfl
@[simp] theorem exec_watch (h : Hdr) (f : VF) : exec (.watch h f) s = execWatch h f s := rfl
@[simp] theorem exec_unwatch (h : Hdr) (f : VF) : exec (.unwatch h f) s = execUnwatch h f s := rfl
@[simp] theorem exec_sampleMark (h : Hdr) (f : VF) : exec (.sampleMark h f) s = execSampleMark h f s := rfl
@[simp] theorem exec_sampleOn (h : Hdr) (f : VF) : exec (.sampleOn h f) s = execSampleOn h f s := rfl
@[simp] theorem exec_sampleOff (h : Hdr) (f : VF) : exec (.sampleOff h f) s = execSampleOff h f s := rfl
@[simp] theorem exec_logm (h : Hdr) (f : VF) : exec (.logm h f) s = execLogm h f s := rfl
@[simp] theorem exec_freeze (h : Hdr) (f : VF) : exec (.freeze h f) s = execFreeze h f s := rfl
@[simp] theorem exec_cycloRead (h : Hdr) (f : VF) : exec (.cycloRead h f) s = execCycloRead h f s := rfl
@[simp] theorem exec_teamMaterialise (core : Nat) : exec (.teamMaterialise core) s = execTeamMaterialise core s := rfl
@[simp] theorem exec_wridxWrite (q : Nat) (value : BitVec 32) : exec (.wridxWrite q value) s = execWridxWrite q value s := rfl
@[simp] theorem exec_noopPacket (q : Nat) : exec (.noopPacket q) s = execNoopPacket q s := rfl
@[simp] theorem exec_launchPacket (q : Nat) : exec (.launchPacket q) s = execLaunchPacket q s := rfl
@[simp] theorem exec_markerPacket (q : Nat) : exec (.markerPacket q) s = execMarkerPacket q s := rfl
@[simp] theorem exec_preemptPacket (q : Nat) : exec (.preemptPacket q) s = execPreemptPacket q s := rfl
@[simp] theorem exec_resumePacket (q : Nat) : exec (.resumePacket q) s = execResumePacket q s := rfl
@[simp] theorem exec_launchStart (q : Nat) : exec (.launchStart q) s = execLaunchStart q s := rfl
@[simp] theorem exec_chunkClaim (core ctx launch : Nat) : exec (.chunkClaim core ctx launch) s = execChunkClaim core ctx launch s := rfl
@[simp] theorem exec_bindRecordWrite (core entry : Nat) (rec : List (BitVec 32)) (by_ : BindWriter) : exec (.bindRecordWrite core entry rec by_) s = execBindRecordWrite core entry rec by_ s := rfl
@[simp] theorem exec_groupLeavesDraining (core slot : Nat) : exec (.groupLeavesDraining core slot) s = execGroupLeavesDraining core slot s := rfl
@[simp] theorem exec_gridEnd (ctx launch : Nat) : exec (.gridEnd ctx launch) s = execGridEnd ctx launch s := rfl
@[simp] theorem exec_completionReport (q : Nat) : exec (.completionReport q) s = execCompletionReport q s := rfl
@[simp] theorem exec_coalescingTimerExpiry (q : Nat) : exec (.coalescingTimerExpiry q) s = execCoalescingTimerExpiry q s := rfl
@[simp] theorem exec_interrupt (q : Nat) : exec (.interrupt q) s = execInterrupt q s := rfl
@[simp] theorem exec_leaseGrant (core : Nat) : exec (.leaseGrant core) s = execLeaseGrant core s := rfl
@[simp] theorem exec_leaseExpiry (core : Nat) : exec (.leaseExpiry core) s = execLeaseExpiry core s := rfl
@[simp] theorem exec_matrixOperationStart (core team : Nat) : exec (.matrixOperationStart core team) s = execMatrixOperationStart core team s := rfl
@[simp] theorem exec_matrixKStep (core team : Nat) : exec (.matrixKStep core team) s = execMatrixKStep core team s := rfl
@[simp] theorem exec_engineCommandComplete (core seq : Nat) : exec (.engineCommandComplete core seq) s = execEngineCommandComplete core seq s := rfl
@[simp] theorem exec_engineCommandFault (core seq : Nat) : exec (.engineCommandFault core seq) s = execEngineCommandFault core seq s := rfl
@[simp] theorem exec_faultDelivery (core slot : Nat) : exec (.faultDelivery core slot) s = execFaultDelivery core slot s := rfl
@[simp] theorem exec_terminate (ctx launch : Nat) (code : BitVec 8) : exec (.terminate ctx launch code) s = execTerminate ctx launch code s := rfl
@[simp] theorem exec_transferLanding (core seq : Nat) : exec (.transferLanding core seq) s = execTransferLanding core seq s := rfl
@[simp] theorem exec_barmVectoring (core slot : Nat) : exec (.barmVectoring core slot) s = execBarmVectoring core slot s := rfl
@[simp] theorem exec_translationFaultServed (ctx : Nat) (va : BitVec 64) (entries : List (Nat × BitVec 64)) (served : Bool) : exec (.translationFaultServed ctx va entries served) s = execTranslationFaultServed ctx va entries served s := rfl
@[simp] theorem exec_pageWalk (die : Nat) : exec (.pageWalk die) s = execPageWalk die s := rfl
@[simp] theorem exec_loadDataReturn (core slot idx : Nat) : exec (.loadDataReturn core slot idx) s = execLoadDataReturn core slot idx s := rfl
@[simp] theorem exec_storePerform (core slot idx : Nat) : exec (.storePerform core slot idx) s = execStorePerform core slot idx s := rfl
@[simp] theorem exec_chunkCopyEnd (view chunk : Nat) : exec (.chunkCopyEnd view chunk) s = execChunkCopyEnd view chunk s := rfl
@[simp] theorem exec_cacheLineTimeout (unit : CacheUnit) (line : Nat) : exec (.cacheLineTimeout unit line) s = execCacheLineTimeout unit line s := rfl
@[simp] theorem exec_invalidation (target : InvTarget) : exec (.invalidation target) s = execInvalidation target s := rfl
@[simp] theorem exec_invalidationComplete (id : Nat) : exec (.invalidationComplete id) s = execInvalidationComplete id s := rfl
@[simp] theorem exec_preemption (ctx : Nat) : exec (.preemption ctx) s = execPreemption ctx s := rfl
@[simp] theorem exec_restore (ctx : Nat) : exec (.restore ctx) s = execRestore ctx s := rfl
@[simp] theorem exec_dataFlit (st : StreamId) : exec (.dataFlit st) s = execDataFlit st s := rfl
@[simp] theorem exec_idleFlit (st : StreamId) : exec (.idleFlit st) s = execIdleFlit st s := rfl
@[simp] theorem exec_controlFlit (st : StreamId) : exec (.controlFlit st) s = execControlFlit st s := rfl
@[simp] theorem exec_nakLapse (st : StreamId) : exec (.nakLapse st) s = execNakLapse st s := rfl
@[simp] theorem exec_ackTimerExpiry (st : StreamId) : exec (.ackTimerExpiry st) s = execAckTimerExpiry st s := rfl
@[simp] theorem exec_replayTimeout (st : StreamId) : exec (.replayTimeout st) s = execReplayTimeout st s := rfl
@[simp] theorem exec_replayLimit (st : StreamId) : exec (.replayLimit st) s = execReplayLimit st s := rfl
@[simp] theorem exec_laneLockLoss (lo hi module : Nat) : exec (.laneLockLoss lo hi module) s = execLaneLockLoss lo hi module s := rfl
@[simp] theorem exec_retrainCommand (lo hi module : Nat) : exec (.retrainCommand lo hi module) s = execRetrainCommand lo hi module s := rfl
@[simp] theorem exec_retrainAttemptEnd (lo hi module : Nat) (ok : Bool) : exec (.retrainAttemptEnd lo hi module ok) s = execRetrainAttemptEnd lo hi module ok s := rfl
@[simp] theorem exec_dieLinkRead (st : StreamId) : exec (.dieLinkRead st) s = execDieLinkRead st s := rfl
@[simp] theorem exec_dieLinkReadReply (st : StreamId) : exec (.dieLinkReadReply st) s = execDieLinkReadReply st s := rfl
@[simp] theorem exec_dieLinkWrite (st : StreamId) : exec (.dieLinkWrite st) s = execDieLinkWrite st s := rfl
@[simp] theorem exec_dieLinkWriteAck (st : StreamId) : exec (.dieLinkWriteAck st) s = execDieLinkWriteAck st s := rfl
@[simp] theorem exec_dieLinkAtomic (st : StreamId) : exec (.dieLinkAtomic st) s = execDieLinkAtomic st s := rfl
@[simp] theorem exec_dieLinkAtomicReply (st : StreamId) : exec (.dieLinkAtomicReply st) s = execDieLinkAtomicReply st s := rfl
@[simp] theorem exec_dieLinkInvalidation (st : StreamId) : exec (.dieLinkInvalidation st) s = execDieLinkInvalidation st s := rfl
@[simp] theorem exec_dieLinkInvalidationAck (st : StreamId) : exec (.dieLinkInvalidationAck st) s = execDieLinkInvalidationAck st s := rfl
@[simp] theorem exec_dieLinkControl (st : StreamId) : exec (.dieLinkControl st) s = execDieLinkControl st s := rfl
@[simp] theorem exec_dieLinkWriteback (st : StreamId) : exec (.dieLinkWriteback st) s = execDieLinkWriteback st s := rfl
@[simp] theorem exec_dieLinkWritebackAck (st : StreamId) : exec (.dieLinkWritebackAck st) s = execDieLinkWritebackAck st s := rfl
@[simp] theorem exec_dieLinkTagRead (st : StreamId) : exec (.dieLinkTagRead st) s = execDieLinkTagRead st s := rfl
@[simp] theorem exec_dieLinkTagReadReply (st : StreamId) : exec (.dieLinkTagReadReply st) s = execDieLinkTagReadReply st s := rfl
@[simp] theorem exec_dieLinkTagWrite (st : StreamId) : exec (.dieLinkTagWrite st) s = execDieLinkTagWrite st s := rfl
@[simp] theorem exec_dieLinkTagWriteAck (st : StreamId) : exec (.dieLinkTagWriteAck st) s = execDieLinkTagWriteAck st s := rfl
@[simp] theorem exec_dieLinkUnknownOp (st : StreamId) : exec (.dieLinkUnknownOp st) s = execDieLinkUnknownOp st s := rfl
@[simp] theorem exec_remoteRead (die : Nat) (p : Fesel) : exec (.remoteRead die p) s = execRemoteRead die p s := rfl
@[simp] theorem exec_readReply (die : Nat) (p : Fesel) : exec (.readReply die p) s = execReadReply die p s := rfl
@[simp] theorem exec_remoteWrite (die : Nat) (p : Fesel) : exec (.remoteWrite die p) s = execRemoteWrite die p s := rfl
@[simp] theorem exec_writeAck (die : Nat) (p : Fesel) : exec (.writeAck die p) s = execWriteAck die p s := rfl
@[simp] theorem exec_remoteAtomic (die : Nat) (p : Fesel) : exec (.remoteAtomic die p) s = execRemoteAtomic die p s := rfl
@[simp] theorem exec_atomicReply (die : Nat) (p : Fesel) : exec (.atomicReply die p) s = execAtomicReply die p s := rfl
@[simp] theorem exec_responseTimeout (die : Nat) (fid : BitVec 32) : exec (.responseTimeout die fid) s = execResponseTimeout die fid s := rfl
@[simp] theorem exec_refusal (die : Nat) (p : Fesel) : exec (.refusal die p) s = execRefusal die p s := rfl
@[simp] theorem exec_refusalResend (die : Nat) (fid : BitVec 32) : exec (.refusalResend die fid) s = execRefusalResend die fid s := rfl
@[simp] theorem exec_xrq (die : Nat) (p : Fesel) : exec (.xrq die p) s = execXrq die p s := rfl
@[simp] theorem exec_xdt (die : Nat) (p : Fesel) : exec (.xdt die p) s = execXdt die p s := rfl
@[simp] theorem exec_xcn (die : Nat) (p : Fesel) : exec (.xcn die p) s = execXcn die p s := rfl
@[simp] theorem exec_xer (die : Nat) (p : Fesel) : exec (.xer die p) s = execXer die p s := rfl
@[simp] theorem exec_gnt (die : Nat) (p : Fesel) : exec (.gnt die p) s = execGnt die p s := rfl
@[simp] theorem exec_stripeIssue (die : Nat) : exec (.stripeIssue die) s = execStripeIssue die s := rfl
@[simp] theorem exec_collectiveData (die : Nat) (p : Fesel) : exec (.collectiveData die p) s = execCollectiveData die p s := rfl
@[simp] theorem exec_heartbeat (die : Nat) (p : Fesel) : exec (.heartbeat die p) s = execHeartbeat die p s := rfl
@[simp] theorem exec_heartbeatTimer (ctx : Nat) : exec (.heartbeatTimer ctx) s = execHeartbeatTimer ctx s := rfl
@[simp] theorem exec_suspicion (ctx rank : Nat) : exec (.suspicion ctx rank) s = execSuspicion ctx rank s := rfl
@[simp] theorem exec_probeRequest (die : Nat) (p : Fesel) : exec (.probeRequest die p) s = execProbeRequest die p s := rfl
@[simp] theorem exec_probeReply (die : Nat) (p : Fesel) : exec (.probeReply die p) s = execProbeReply die p s := rfl
@[simp] theorem exec_probeTimeout (ctx rank : Nat) : exec (.probeTimeout ctx rank) s = execProbeTimeout ctx rank s := rfl
@[simp] theorem exec_verdict (die : Nat) (p : Fesel) : exec (.verdict die p) s = execVerdict die p s := rfl
@[simp] theorem exec_badFeselPacket (die : Nat) : exec (.badFeselPacket die) s = execBadFeselPacket die s := rfl
@[simp] theorem exec_hostRdmaWrite (pair : QueuePair) (addr : Nat) (bytes : List Byte) : exec (.hostRdmaWrite pair addr bytes) s = execHostRdmaWrite pair addr bytes s := rfl
@[simp] theorem exec_hostRdmaRead (pair : QueuePair) (addr len : Nat) : exec (.hostRdmaRead pair addr len) s = execHostRdmaRead pair addr len s := rfl
@[simp] theorem exec_hostUnsupportedOperation (port : Nat) : exec (.hostUnsupportedOperation port) s = execHostUnsupportedOperation port s := rfl
@[simp] theorem exec_debugDump (slot : Nat) : exec (.debugDump slot) s = execDebugDump slot s := rfl
@[simp] theorem exec_debugResume (slot : Nat) : exec (.debugResume slot) s = execDebugResume slot s := rfl
@[simp] theorem exec_debugTerminate (slot : Nat) : exec (.debugTerminate slot) s = execDebugTerminate slot s := rfl
@[simp] theorem exec_samplePoint (core : Nat) : exec (.samplePoint core) s = execSamplePoint core s := rfl
@[simp] theorem exec_sampleRecordDeferred (core : Nat) : exec (.sampleRecordDeferred core) s = execSampleRecordDeferred core s := rfl
@[simp] theorem exec_scrub (stack granule : Nat) : exec (.scrub stack granule) s = execScrub stack granule s := rfl
@[simp] theorem exec_thermalThresholdCrossing (stack : Nat) (temp : Int) : exec (.thermalThresholdCrossing stack temp) s = execThermalThresholdCrossing stack temp s := rfl
@[simp] theorem exec_th3Timeout (stack : Nat) : exec (.th3Timeout stack) s = execTh3Timeout stack s := rfl
@[simp] theorem exec_powerStateEntry : exec .powerStateEntry s = execPowerStateEntry s := rfl
@[simp] theorem exec_powerStateExit (cause : WakeCause) : exec (.powerStateExit cause) s = execPowerStateExit cause s := rfl
@[simp] theorem exec_imageAdmission (die : Nat) (img : Image) : exec (.imageAdmission die img) s = execImageAdmission die img s := rfl
@[simp] theorem exec_attestationReport (nonce : List Byte) : exec (.attestationReport nonce) s = execAttestationReport nonce s := rfl
@[simp] theorem exec_masterFreeze (unit : EngineUnit) (frozen : Bool) : exec (.masterFreeze unit frozen) s = execMasterFreeze unit frozen s := rfl
@[simp] theorem exec_badFlit (st : StreamId) : exec (.badFlit st) s = execBadFlit st s := rfl
@[simp] theorem exec_feselPortDown (die port : Nat) : exec (.feselPortDown die port) s = execFeselPortDown die port s := rfl
@[simp] theorem exec_feselPortUp (die port : Nat) : exec (.feselPortUp die port) s = execFeselPortUp die port s := rfl
@[simp] theorem exec_powerRemoval : exec .powerRemoval s = execPowerRemoval s := rfl
@[simp] theorem exec_powerStateExitComplete : exec .powerStateExitComplete s = execPowerStateExitComplete s := rfl
@[simp] theorem exec_rankTableStage (ctx comm : Nat) (table : RankTable) : exec (.rankTableStage ctx comm table) s = execRankTableStage ctx comm table s := rfl
@[simp] theorem exec_joinEngineArm (die : Nat) (armed : Bool) : exec (.joinEngineArm die armed) s = execJoinEngineArm die armed s := rfl
@[simp] theorem exec_queueCreate (q desc : Nat) (words : Option (List (BitVec 32))) : exec (.queueCreate q desc words) s = execQueueCreate q desc words s := rfl
@[simp] theorem exec_contextCreate (ctx : Nat) (init : ContextInit) : exec (.contextCreate ctx init) s = execContextCreate ctx init s := rfl
@[simp] theorem exec_blockListRemoval (die : Nat) (device : BitVec 20) : exec (.blockListRemoval die device) s = execBlockListRemoval die device s := rfl
@[simp] theorem exec_cpyxRequest (core seq : Nat) : exec (.cpyxRequest core seq) s = execCpyxRequest core seq s := rfl

end

end Sys2Proof.Machine
end

