-- ==== Sys2Proof/Laws/Maps.lean ====
section
/-! SUPPORT. Laws of the sparse maps and of the list helpers: read after write, other keys, and the canonical form. -/

namespace Sys2Proof.Machine

/-! ## Reading after writing -/

section
variable {α : Type} (d : α) (m : SMap α) (i j : Nat) (x y : α) (f : α → α)

@[simp] theorem SMap.find_put_self : (m.put i x).find i = some x := by
  induction m with
  | nil => simp [SMap.put, SMap.find]
  | cons a m ih =>
    obtain ⟨k, v⟩ := a
    simp only [SMap.put]
    split
    · simp [SMap.find]
    · split
      · simp [SMap.find]
      · simp [SMap.find, *]

theorem SMap.find_put_ne (h : j ≠ i) : (m.put i x).find j = m.find j := by
  induction m with
  | nil => simp [SMap.put, SMap.find, h]
  | cons a m ih =>
    obtain ⟨k, v⟩ := a
    simp only [SMap.put]
    split
    · next e => subst e; simp [SMap.find, h]
    · split
      · simp [SMap.find, h]
      · simp only [SMap.find, ih]

theorem SMap.find_put : (m.put i x).find j = if j = i then some x else m.find j := by
  split
  · next h => subst h; simp
  · next h => exact m.find_put_ne i j x h

/-- A test that some entry passes is passed after a put, where the entry put for one that passed does. -/
theorem SMap.any_put (p : Nat × α → Bool) (h : ∀ y, m.find i = some y → p (i, y) = true → p (i, x) = true) (a : m.any p = true) :
    (m.put i x).any p = true := by
  induction m with
  | nil => simp at a
  | cons z m ih =>
    obtain ⟨k, v⟩ := z
    simp only [SMap.put]
    simp only [List.any_cons, Bool.or_eq_true] at a
    split
    · next e =>
      subst e
      simp only [List.any_cons, Bool.or_eq_true]
      exact a.imp (h v (by simp [SMap.find])) id
    · next e =>
      split
      · simp only [List.any_cons, Bool.or_eq_true]
        exact .inr a
      · simp only [List.any_cons, Bool.or_eq_true]
        exact a.imp id (ih fun y hy => h y (by simp [SMap.find, e, hy]))

theorem SMap.get_eq_find : m.get d i = (m.find i).getD d := by
  induction m with
  | nil => rfl
  | cons a m ih =>
    obtain ⟨k, v⟩ := a
    simp only [SMap.get, SMap.find]
    split <;> simp [ih]

@[simp] theorem SMap.get_put_self : (m.put i x).get d i = x := by simp [SMap.get_eq_find]

theorem SMap.get_put_ne (h : j ≠ i) : (m.put i x).get d j = m.get d j := by
  simp [SMap.get_eq_find, SMap.find_put_ne _ _ _ _ h]

@[simp] theorem SMap.find_erase_self : (m.erase i).find i = none := by
  induction m with
  | nil => rfl
  | cons a m ih =>
    obtain ⟨k, v⟩ := a
    simp only [SMap.erase]
    split
    · exact ih
    · next h => simp [SMap.find, h, ih]

theorem SMap.find_erase_ne (h : j ≠ i) : (m.erase i).find j = m.find j := by
  induction m with
  | nil => rfl
  | cons a m ih =>
    obtain ⟨k, v⟩ := a
    simp only [SMap.erase]
    split
    · next e => subst e; simp [SMap.find, h, ih]
    · simp [SMap.find, ih]

@[simp] theorem SMap.get_set_self [DecidableEq α] : (SMap.set d m i x).get d i = x := by
  unfold SMap.set
  split
  · next h => simp [SMap.get_eq_find, h]
  · simp

theorem SMap.get_set_ne [DecidableEq α] (h : j ≠ i) : (SMap.set d m i x).get d j = m.get d j := by
  unfold SMap.set
  split
  · simp [SMap.get_eq_find, SMap.find_erase_ne _ _ _ h]
  · exact m.get_put_ne d i j x h

theorem SMap.get_set [DecidableEq α] : (SMap.set d m i x).get d j = if j = i then x else m.get d j := by
  split
  · next h => subst h; simp
  · next h => exact m.get_set_ne d i j x h

@[simp] theorem SMap.find_modify_self : (m.modify i f).find i = (m.find i).map f := by
  unfold SMap.modify
  split
  · next h => simp [h]
  · next h => simp [h]

theorem SMap.find_modify_ne (h : j ≠ i) : (m.modify i f).find j = m.find j := by
  unfold SMap.modify
  split
  · exact m.find_put_ne i j _ h
  · rfl

@[simp] theorem SMap.put_put : (m.put i x).put i y = m.put i y := by
  induction m with
  | nil => simp [SMap.put]
  | cons a m ih =>
    obtain ⟨k, v⟩ := a
    simp only [SMap.put]
    split
    · simp [SMap.put]
    · next h1 =>
      split
      · next h2 => simp [SMap.put]
      · next h2 => simp [SMap.put, h1, h2, ih]

@[simp] theorem SMap.modify_modify (g : α → α) : (m.modify i f).modify i g = m.modify i (g ∘ f) := by
  cases h : m.find i <;> simp [SMap.modify, h]

/-! ## The canonical form -/

variable [DecidableEq α]

theorem SMap.wfFrom_mono {lo hi : Nat} (h : lo ≤ hi) (w : SMap.wfFrom d hi m = true) : SMap.wfFrom d lo m = true := by
  cases m with
  | nil => rfl
  | cons a m =>
    obtain ⟨k, v⟩ := a
    simp only [SMap.wfFrom, Bool.and_eq_true, decide_eq_true_eq] at w ⊢
    exact ⟨⟨by omega, w.1.2⟩, w.2⟩

theorem SMap.wfFrom_erase {lo : Nat} (w : SMap.wfFrom d lo m = true) : SMap.wfFrom d lo (m.erase i) = true := by
  induction m generalizing lo with
  | nil => rfl
  | cons a m ih =>
    obtain ⟨k, v⟩ := a
    simp only [SMap.wfFrom, Bool.and_eq_true, decide_eq_true_eq] at w
    simp only [SMap.erase]
    split
    · exact SMap.wfFrom_mono d _ (by omega) (ih w.2)
    · simp only [SMap.wfFrom, Bool.and_eq_true, decide_eq_true_eq]
      exact ⟨w.1, ih w.2⟩

theorem SMap.wfFrom_put {lo : Nat} (hx : x ≠ d) (hi : lo ≤ i) (w : SMap.wfFrom d lo m = true) :
    SMap.wfFrom d lo (m.put i x) = true := by
  induction m generalizing lo with
  | nil => simp [SMap.put, SMap.wfFrom, hx, hi]
  | cons a m ih =>
    obtain ⟨k, v⟩ := a
    simp only [SMap.wfFrom, Bool.and_eq_true, decide_eq_true_eq] at w
    simp only [SMap.put]
    split
    · next e =>
      subst e
      simp only [SMap.wfFrom, Bool.and_eq_true, decide_eq_true_eq]
      exact ⟨⟨hi, hx⟩, w.2⟩
    · split
      · simp only [SMap.wfFrom, Bool.and_eq_true, decide_eq_true_eq]
        exact ⟨⟨hi, hx⟩, ⟨by omega, w.1.2⟩, w.2⟩
      · simp only [SMap.wfFrom, Bool.and_eq_true, decide_eq_true_eq]
        exact ⟨w.1, ih (by omega) w.2⟩

/-- Writing a value keeps the canonical form. -/
theorem SMap.wf_set (w : SMap.wf d m = true) : SMap.wf d (SMap.set d m i x) = true := by
  unfold SMap.set
  split
  · exact SMap.wfFrom_erase d m i w
  · next h => exact SMap.wfFrom_put d m i x h (Nat.zero_le _) w

/-- Unlisting a key keeps the canonical form. -/
theorem SMap.wf_erase (w : SMap.wf d m = true) : SMap.wf d (m.erase i) = true := SMap.wfFrom_erase d m i w

theorem SMap.wfFrom_filter (p : Nat × α → Bool) {lo : Nat} (w : SMap.wfFrom d lo m = true) :
    SMap.wfFrom d lo (m.filter p) = true := by
  induction m generalizing lo with
  | nil => rfl
  | cons a m ih =>
    obtain ⟨k, v⟩ := a
    simp only [SMap.wfFrom, Bool.and_eq_true, decide_eq_true_eq] at w
    simp only [List.filter]
    split
    · simp only [SMap.wfFrom, Bool.and_eq_true, decide_eq_true_eq]
      exact ⟨w.1, ih w.2⟩
    · exact SMap.wfFrom_mono d _ (by omega) (ih w.2)

/-- Unlisting keys by a test keeps the canonical form. -/
theorem SMap.wf_filter (p : Nat × α → Bool) (w : SMap.wf d m = true) : SMap.wf d (m.filter p) = true :=
  SMap.wfFrom_filter d m p w

/-- Writes one after the other keep the canonical form. -/
theorem SMap.wf_foldl {β : Type} (g : SMap α → β → SMap α) (hg : ∀ m b, SMap.wf d m = true → SMap.wf d (g m b) = true)
    (bs : List β) (m : SMap α) (w : SMap.wf d m = true) : SMap.wf d (bs.foldl g m) = true := by
  induction bs generalizing m with
  | nil => exact w
  | cons b bs ih => exact ih _ (hg m b w)

end

/-! ## Lists -/

section
variable {α : Type} (xs : List α) (i j : Nat) (y : α) (f : α → α)

@[simp] theorem listSet_length : (listSet xs i y).length = xs.length := by
  induction xs generalizing i with
  | nil => rfl
  | cons x xs ih => cases i <;> simp [listSet, ih]

theorem listSet_get : (listSet xs i y)[j]? = if j = i ∧ i < xs.length then some y else xs[j]? := by
  induction xs generalizing i j with
  | nil => simp [listSet]
  | cons x xs ih =>
    cases i with
    | zero => cases j <;> simp [listSet]
    | succ i => cases j <;> simp [listSet, ih]

@[simp] theorem listModify_length : (listModify xs i f).length = xs.length := by
  unfold listModify
  split <;> simp

theorem listModify_get : (listModify xs i f)[j]? = if j = i then xs[j]?.map f else xs[j]? := by
  unfold listModify
  split
  · next x h =>
    rw [listSet_get]
    have hi : i < xs.length := (List.getElem?_eq_some_iff.mp h).1
    by_cases e : j = i
    · subst e; simp only [and_self, hi, if_true, h, Option.map_some]
    · simp [e]
  · next h =>
    by_cases e : j = i
    · subst e; simp [h]
    · simp [e]

theorem listModify_listModify (g : α → α) : listModify (listModify xs i f) i g = listModify xs i (g ∘ f) := by
  apply List.ext_getElem?
  intro k
  simp only [listModify_get]
  split <;> simp

end

theorem mem_rangeFrom {lo n i : Nat} : i ∈ rangeFrom lo n ↔ lo ≤ i ∧ i < lo + n := by
  induction n generalizing lo with
  | zero => simp [rangeFrom]
  | succ n ih => simp [rangeFrom, ih]; omega

theorem mem_upto {n i : Nat} : i ∈ upto n ↔ i < n := by simp [upto, mem_rangeFrom]

@[simp] theorem rangeFrom_length (lo n : Nat) : (rangeFrom lo n).length = n := by
  induction n generalizing lo with
  | zero => rfl
  | succ n ih => simp [rangeFrom, ih]

@[simp] theorem bytesOf_length (n x : Nat) : (bytesOf n x).length = n := by
  induction n generalizing x with
  | zero => rfl
  | succ n ih => simp [bytesOf, ih]

end Sys2Proof.Machine
end

