-- ==== Sys2Proof/Laws/State.lean ====
section
/-! SUPPORT. Each field after each update of the state, and reading a core, die, group, lane or team after writing one. -/

namespace Sys2Proof.Machine

/-! ### setCore -/

@[simp] theorem State.setCore_form (s : State) (c : Nat) (x : Core) : (s.setCore c x).form = s.form := rfl
@[simp] theorem State.setCore_devid (s : State) (c : Nat) (x : Core) : (s.setCore c x).devid = s.devid := rfl
@[simp] theorem State.setCore_mem (s : State) (c : Nat) (x : Core) : (s.setCore c x).mem = s.mem := rfl
@[simp] theorem State.setCore_gmeta (s : State) (c : Nat) (x : Core) : (s.setCore c x).gmeta = s.gmeta := rfl
@[simp] theorem State.setCore_gerr (s : State) (c : Nat) (x : Core) : (s.setCore c x).gerr = s.gerr := rfl
@[simp] theorem State.setCore_hbm (s : State) (c : Nat) (x : Core) : (s.setCore c x).hbm = s.hbm := rfl
@[simp] theorem State.setCore_fwRoot (s : State) (c : Nat) (x : Core) : (s.setCore c x).fwRoot = s.fwRoot := rfl
@[simp] theorem State.setCore_dies (s : State) (c : Nat) (x : Core) : (s.setCore c x).dies = s.dies := rfl
@[simp] theorem State.setCore_streams (s : State) (c : Nat) (x : Core) : (s.setCore c x).streams = s.streams := rfl
@[simp] theorem State.setCore_modules (s : State) (c : Nat) (x : Core) : (s.setCore c x).modules = s.modules := rfl
@[simp] theorem State.setCore_contexts (s : State) (c : Nat) (x : Core) : (s.setCore c x).contexts = s.contexts := rfl
@[simp] theorem State.setCore_queues (s : State) (c : Nat) (x : Core) : (s.setCore c x).queues = s.queues := rfl
@[simp] theorem State.setCore_launches (s : State) (c : Nat) (x : Core) : (s.setCore c x).launches = s.launches := rfl
@[simp] theorem State.setCore_views (s : State) (c : Nat) (x : Core) : (s.setCore c x).views = s.views := rfl
@[simp] theorem State.setCore_invals (s : State) (c : Nat) (x : Core) : (s.setCore c x).invals = s.invals := rfl
@[simp] theorem State.setCore_nextInval (s : State) (c : Nat) (x : Core) : (s.setCore c x).nextInval = s.nextInval := rfl
@[simp] theorem State.setCore_power (s : State) (c : Nat) (x : Core) : (s.setCore c x).power = s.power := rfl
@[simp] theorem State.setCore_waking (s : State) (c : Nat) (x : Core) : (s.setCore c x).waking = s.waking := rfl
@[simp] theorem State.setCore_mailbox (s : State) (c : Nat) (x : Core) : (s.setCore c x).mailbox = s.mailbox := rfl
@[simp] theorem State.setCore_debugQ (s : State) (c : Nat) (x : Core) : (s.setCore c x).debugQ = s.debugQ := rfl
@[simp] theorem State.setCore_hostWins (s : State) (c : Nat) (x : Core) : (s.setCore c x).hostWins = s.hostWins := rfl
@[simp] theorem State.setCore_hostHeld (s : State) (c : Nat) (x : Core) : (s.setCore c x).hostHeld = s.hostHeld := rfl
@[simp] theorem State.setCore_fabricOut (s : State) (c : Nat) (x : Core) : (s.setCore c x).fabricOut = s.fabricOut := rfl
@[simp] theorem State.setCore_gateQ (s : State) (c : Nat) (x : Core) : (s.setCore c x).gateQ = s.gateQ := rfl
@[simp] theorem State.setCore_hostOut (s : State) (c : Nat) (x : Core) : (s.setCore c x).hostOut = s.hostOut := rfl
@[simp] theorem State.setCore_recQ (s : State) (c : Nat) (x : Core) : (s.setCore c x).recQ = s.recQ := rfl
@[simp] theorem State.setCore_agenda (s : State) (c : Nat) (x : Core) : (s.setCore c x).agenda = s.agenda := rfl
@[simp] theorem State.setCore_iss (s : State) (c : Nat) (x : Core) : (s.setCore c x).iss = s.iss := rfl
@[simp] theorem State.setCore_second (s : State) (c : Nat) (x : Core) : (s.setCore c x).second = s.second := rfl
@[simp] theorem State.setCore_nextId (s : State) (c : Nat) (x : Core) : (s.setCore c x).nextId = s.nextId := rfl
@[simp] theorem State.setCore_free (s : State) (c : Nat) (x : Core) : (s.setCore c x).free = s.free := rfl
@[simp] theorem State.setCore_rrCore (s : State) (c : Nat) (x : Core) : (s.setCore c x).rrCore = s.rrCore := rfl

/-! ### modCore -/

@[simp] theorem State.modCore_form (s : State) (c : Nat) (f : Core → Core) : (s.modCore c f).form = s.form := rfl
@[simp] theorem State.modCore_devid (s : State) (c : Nat) (f : Core → Core) : (s.modCore c f).devid = s.devid := rfl
@[simp] theorem State.modCore_mem (s : State) (c : Nat) (f : Core → Core) : (s.modCore c f).mem = s.mem := rfl
@[simp] theorem State.modCore_gmeta (s : State) (c : Nat) (f : Core → Core) : (s.modCore c f).gmeta = s.gmeta := rfl
@[simp] theorem State.modCore_gerr (s : State) (c : Nat) (f : Core → Core) : (s.modCore c f).gerr = s.gerr := rfl
@[simp] theorem State.modCore_hbm (s : State) (c : Nat) (f : Core → Core) : (s.modCore c f).hbm = s.hbm := rfl
@[simp] theorem State.modCore_fwRoot (s : State) (c : Nat) (f : Core → Core) : (s.modCore c f).fwRoot = s.fwRoot := rfl
@[simp] theorem State.modCore_dies (s : State) (c : Nat) (f : Core → Core) : (s.modCore c f).dies = s.dies := rfl
@[simp] theorem State.modCore_streams (s : State) (c : Nat) (f : Core → Core) : (s.modCore c f).streams = s.streams := rfl
@[simp] theorem State.modCore_modules (s : State) (c : Nat) (f : Core → Core) : (s.modCore c f).modules = s.modules := rfl
@[simp] theorem State.modCore_contexts (s : State) (c : Nat) (f : Core → Core) : (s.modCore c f).contexts = s.contexts := rfl
@[simp] theorem State.modCore_queues (s : State) (c : Nat) (f : Core → Core) : (s.modCore c f).queues = s.queues := rfl
@[simp] theorem State.modCore_launches (s : State) (c : Nat) (f : Core → Core) : (s.modCore c f).launches = s.launches := rfl
@[simp] theorem State.modCore_views (s : State) (c : Nat) (f : Core → Core) : (s.modCore c f).views = s.views := rfl
@[simp] theorem State.modCore_invals (s : State) (c : Nat) (f : Core → Core) : (s.modCore c f).invals = s.invals := rfl
@[simp] theorem State.modCore_nextInval (s : State) (c : Nat) (f : Core → Core) : (s.modCore c f).nextInval = s.nextInval := rfl
@[simp] theorem State.modCore_power (s : State) (c : Nat) (f : Core → Core) : (s.modCore c f).power = s.power := rfl
@[simp] theorem State.modCore_waking (s : State) (c : Nat) (f : Core → Core) : (s.modCore c f).waking = s.waking := rfl
@[simp] theorem State.modCore_mailbox (s : State) (c : Nat) (f : Core → Core) : (s.modCore c f).mailbox = s.mailbox := rfl
@[simp] theorem State.modCore_debugQ (s : State) (c : Nat) (f : Core → Core) : (s.modCore c f).debugQ = s.debugQ := rfl
@[simp] theorem State.modCore_hostWins (s : State) (c : Nat) (f : Core → Core) : (s.modCore c f).hostWins = s.hostWins := rfl
@[simp] theorem State.modCore_hostHeld (s : State) (c : Nat) (f : Core → Core) : (s.modCore c f).hostHeld = s.hostHeld := rfl
@[simp] theorem State.modCore_fabricOut (s : State) (c : Nat) (f : Core → Core) : (s.modCore c f).fabricOut = s.fabricOut := rfl
@[simp] theorem State.modCore_gateQ (s : State) (c : Nat) (f : Core → Core) : (s.modCore c f).gateQ = s.gateQ := rfl
@[simp] theorem State.modCore_hostOut (s : State) (c : Nat) (f : Core → Core) : (s.modCore c f).hostOut = s.hostOut := rfl
@[simp] theorem State.modCore_recQ (s : State) (c : Nat) (f : Core → Core) : (s.modCore c f).recQ = s.recQ := rfl
@[simp] theorem State.modCore_agenda (s : State) (c : Nat) (f : Core → Core) : (s.modCore c f).agenda = s.agenda := rfl
@[simp] theorem State.modCore_iss (s : State) (c : Nat) (f : Core → Core) : (s.modCore c f).iss = s.iss := rfl
@[simp] theorem State.modCore_second (s : State) (c : Nat) (f : Core → Core) : (s.modCore c f).second = s.second := rfl
@[simp] theorem State.modCore_nextId (s : State) (c : Nat) (f : Core → Core) : (s.modCore c f).nextId = s.nextId := rfl
@[simp] theorem State.modCore_free (s : State) (c : Nat) (f : Core → Core) : (s.modCore c f).free = s.free := rfl
@[simp] theorem State.modCore_rrCore (s : State) (c : Nat) (f : Core → Core) : (s.modCore c f).rrCore = s.rrCore := rfl

/-! ### setDie -/

@[simp] theorem State.setDie_form (s : State) (d : Nat) (x : Die) : (s.setDie d x).form = s.form := rfl
@[simp] theorem State.setDie_devid (s : State) (d : Nat) (x : Die) : (s.setDie d x).devid = s.devid := rfl
@[simp] theorem State.setDie_mem (s : State) (d : Nat) (x : Die) : (s.setDie d x).mem = s.mem := rfl
@[simp] theorem State.setDie_gmeta (s : State) (d : Nat) (x : Die) : (s.setDie d x).gmeta = s.gmeta := rfl
@[simp] theorem State.setDie_gerr (s : State) (d : Nat) (x : Die) : (s.setDie d x).gerr = s.gerr := rfl
@[simp] theorem State.setDie_hbm (s : State) (d : Nat) (x : Die) : (s.setDie d x).hbm = s.hbm := rfl
@[simp] theorem State.setDie_fwRoot (s : State) (d : Nat) (x : Die) : (s.setDie d x).fwRoot = s.fwRoot := rfl
@[simp] theorem State.setDie_cores (s : State) (d : Nat) (x : Die) : (s.setDie d x).cores = s.cores := rfl
@[simp] theorem State.setDie_streams (s : State) (d : Nat) (x : Die) : (s.setDie d x).streams = s.streams := rfl
@[simp] theorem State.setDie_modules (s : State) (d : Nat) (x : Die) : (s.setDie d x).modules = s.modules := rfl
@[simp] theorem State.setDie_contexts (s : State) (d : Nat) (x : Die) : (s.setDie d x).contexts = s.contexts := rfl
@[simp] theorem State.setDie_queues (s : State) (d : Nat) (x : Die) : (s.setDie d x).queues = s.queues := rfl
@[simp] theorem State.setDie_launches (s : State) (d : Nat) (x : Die) : (s.setDie d x).launches = s.launches := rfl
@[simp] theorem State.setDie_views (s : State) (d : Nat) (x : Die) : (s.setDie d x).views = s.views := rfl
@[simp] theorem State.setDie_invals (s : State) (d : Nat) (x : Die) : (s.setDie d x).invals = s.invals := rfl
@[simp] theorem State.setDie_nextInval (s : State) (d : Nat) (x : Die) : (s.setDie d x).nextInval = s.nextInval := rfl
@[simp] theorem State.setDie_power (s : State) (d : Nat) (x : Die) : (s.setDie d x).power = s.power := rfl
@[simp] theorem State.setDie_waking (s : State) (d : Nat) (x : Die) : (s.setDie d x).waking = s.waking := rfl
@[simp] theorem State.setDie_mailbox (s : State) (d : Nat) (x : Die) : (s.setDie d x).mailbox = s.mailbox := rfl
@[simp] theorem State.setDie_debugQ (s : State) (d : Nat) (x : Die) : (s.setDie d x).debugQ = s.debugQ := rfl
@[simp] theorem State.setDie_hostWins (s : State) (d : Nat) (x : Die) : (s.setDie d x).hostWins = s.hostWins := rfl
@[simp] theorem State.setDie_hostHeld (s : State) (d : Nat) (x : Die) : (s.setDie d x).hostHeld = s.hostHeld := rfl
@[simp] theorem State.setDie_fabricOut (s : State) (d : Nat) (x : Die) : (s.setDie d x).fabricOut = s.fabricOut := rfl
@[simp] theorem State.setDie_gateQ (s : State) (d : Nat) (x : Die) : (s.setDie d x).gateQ = s.gateQ := rfl
@[simp] theorem State.setDie_hostOut (s : State) (d : Nat) (x : Die) : (s.setDie d x).hostOut = s.hostOut := rfl
@[simp] theorem State.setDie_recQ (s : State) (d : Nat) (x : Die) : (s.setDie d x).recQ = s.recQ := rfl
@[simp] theorem State.setDie_agenda (s : State) (d : Nat) (x : Die) : (s.setDie d x).agenda = s.agenda := rfl
@[simp] theorem State.setDie_iss (s : State) (d : Nat) (x : Die) : (s.setDie d x).iss = s.iss := rfl
@[simp] theorem State.setDie_second (s : State) (d : Nat) (x : Die) : (s.setDie d x).second = s.second := rfl
@[simp] theorem State.setDie_nextId (s : State) (d : Nat) (x : Die) : (s.setDie d x).nextId = s.nextId := rfl
@[simp] theorem State.setDie_free (s : State) (d : Nat) (x : Die) : (s.setDie d x).free = s.free := rfl
@[simp] theorem State.setDie_rrCore (s : State) (d : Nat) (x : Die) : (s.setDie d x).rrCore = s.rrCore := rfl

/-! ### modDie -/

@[simp] theorem State.modDie_form (s : State) (d : Nat) (f : Die → Die) : (s.modDie d f).form = s.form := rfl
@[simp] theorem State.modDie_devid (s : State) (d : Nat) (f : Die → Die) : (s.modDie d f).devid = s.devid := rfl
@[simp] theorem State.modDie_mem (s : State) (d : Nat) (f : Die → Die) : (s.modDie d f).mem = s.mem := rfl
@[simp] theorem State.modDie_gmeta (s : State) (d : Nat) (f : Die → Die) : (s.modDie d f).gmeta = s.gmeta := rfl
@[simp] theorem State.modDie_gerr (s : State) (d : Nat) (f : Die → Die) : (s.modDie d f).gerr = s.gerr := rfl
@[simp] theorem State.modDie_hbm (s : State) (d : Nat) (f : Die → Die) : (s.modDie d f).hbm = s.hbm := rfl
@[simp] theorem State.modDie_fwRoot (s : State) (d : Nat) (f : Die → Die) : (s.modDie d f).fwRoot = s.fwRoot := rfl
@[simp] theorem State.modDie_cores (s : State) (d : Nat) (f : Die → Die) : (s.modDie d f).cores = s.cores := rfl
@[simp] theorem State.modDie_streams (s : State) (d : Nat) (f : Die → Die) : (s.modDie d f).streams = s.streams := rfl
@[simp] theorem State.modDie_modules (s : State) (d : Nat) (f : Die → Die) : (s.modDie d f).modules = s.modules := rfl
@[simp] theorem State.modDie_contexts (s : State) (d : Nat) (f : Die → Die) : (s.modDie d f).contexts = s.contexts := rfl
@[simp] theorem State.modDie_queues (s : State) (d : Nat) (f : Die → Die) : (s.modDie d f).queues = s.queues := rfl
@[simp] theorem State.modDie_launches (s : State) (d : Nat) (f : Die → Die) : (s.modDie d f).launches = s.launches := rfl
@[simp] theorem State.modDie_views (s : State) (d : Nat) (f : Die → Die) : (s.modDie d f).views = s.views := rfl
@[simp] theorem State.modDie_invals (s : State) (d : Nat) (f : Die → Die) : (s.modDie d f).invals = s.invals := rfl
@[simp] theorem State.modDie_nextInval (s : State) (d : Nat) (f : Die → Die) : (s.modDie d f).nextInval = s.nextInval := rfl
@[simp] theorem State.modDie_power (s : State) (d : Nat) (f : Die → Die) : (s.modDie d f).power = s.power := rfl
@[simp] theorem State.modDie_waking (s : State) (d : Nat) (f : Die → Die) : (s.modDie d f).waking = s.waking := rfl
@[simp] theorem State.modDie_mailbox (s : State) (d : Nat) (f : Die → Die) : (s.modDie d f).mailbox = s.mailbox := rfl
@[simp] theorem State.modDie_debugQ (s : State) (d : Nat) (f : Die → Die) : (s.modDie d f).debugQ = s.debugQ := rfl
@[simp] theorem State.modDie_hostWins (s : State) (d : Nat) (f : Die → Die) : (s.modDie d f).hostWins = s.hostWins := rfl
@[simp] theorem State.modDie_hostHeld (s : State) (d : Nat) (f : Die → Die) : (s.modDie d f).hostHeld = s.hostHeld := rfl
@[simp] theorem State.modDie_fabricOut (s : State) (d : Nat) (f : Die → Die) : (s.modDie d f).fabricOut = s.fabricOut := rfl
@[simp] theorem State.modDie_gateQ (s : State) (d : Nat) (f : Die → Die) : (s.modDie d f).gateQ = s.gateQ := rfl
@[simp] theorem State.modDie_hostOut (s : State) (d : Nat) (f : Die → Die) : (s.modDie d f).hostOut = s.hostOut := rfl
@[simp] theorem State.modDie_recQ (s : State) (d : Nat) (f : Die → Die) : (s.modDie d f).recQ = s.recQ := rfl
@[simp] theorem State.modDie_agenda (s : State) (d : Nat) (f : Die → Die) : (s.modDie d f).agenda = s.agenda := rfl
@[simp] theorem State.modDie_iss (s : State) (d : Nat) (f : Die → Die) : (s.modDie d f).iss = s.iss := rfl
@[simp] theorem State.modDie_second (s : State) (d : Nat) (f : Die → Die) : (s.modDie d f).second = s.second := rfl
@[simp] theorem State.modDie_nextId (s : State) (d : Nat) (f : Die → Die) : (s.modDie d f).nextId = s.nextId := rfl
@[simp] theorem State.modDie_free (s : State) (d : Nat) (f : Die → Die) : (s.modDie d f).free = s.free := rfl
@[simp] theorem State.modDie_rrCore (s : State) (d : Nat) (f : Die → Die) : (s.modDie d f).rrCore = s.rrCore := rfl

/-! ### modStack -/

@[simp] theorem State.modStack_form (s : State) (n : Nat) (f : Stack → Stack) : (s.modStack n f).form = s.form := rfl
@[simp] theorem State.modStack_devid (s : State) (n : Nat) (f : Stack → Stack) : (s.modStack n f).devid = s.devid := rfl
@[simp] theorem State.modStack_mem (s : State) (n : Nat) (f : Stack → Stack) : (s.modStack n f).mem = s.mem := rfl
@[simp] theorem State.modStack_gmeta (s : State) (n : Nat) (f : Stack → Stack) : (s.modStack n f).gmeta = s.gmeta := rfl
@[simp] theorem State.modStack_gerr (s : State) (n : Nat) (f : Stack → Stack) : (s.modStack n f).gerr = s.gerr := rfl
@[simp] theorem State.modStack_fwRoot (s : State) (n : Nat) (f : Stack → Stack) : (s.modStack n f).fwRoot = s.fwRoot := rfl
@[simp] theorem State.modStack_cores (s : State) (n : Nat) (f : Stack → Stack) : (s.modStack n f).cores = s.cores := rfl
@[simp] theorem State.modStack_dies (s : State) (n : Nat) (f : Stack → Stack) : (s.modStack n f).dies = s.dies := rfl
@[simp] theorem State.modStack_streams (s : State) (n : Nat) (f : Stack → Stack) : (s.modStack n f).streams = s.streams := rfl
@[simp] theorem State.modStack_modules (s : State) (n : Nat) (f : Stack → Stack) : (s.modStack n f).modules = s.modules := rfl
@[simp] theorem State.modStack_contexts (s : State) (n : Nat) (f : Stack → Stack) : (s.modStack n f).contexts = s.contexts := rfl
@[simp] theorem State.modStack_queues (s : State) (n : Nat) (f : Stack → Stack) : (s.modStack n f).queues = s.queues := rfl
@[simp] theorem State.modStack_launches (s : State) (n : Nat) (f : Stack → Stack) : (s.modStack n f).launches = s.launches := rfl
@[simp] theorem State.modStack_views (s : State) (n : Nat) (f : Stack → Stack) : (s.modStack n f).views = s.views := rfl
@[simp] theorem State.modStack_invals (s : State) (n : Nat) (f : Stack → Stack) : (s.modStack n f).invals = s.invals := rfl
@[simp] theorem State.modStack_nextInval (s : State) (n : Nat) (f : Stack → Stack) : (s.modStack n f).nextInval = s.nextInval := rfl
@[simp] theorem State.modStack_power (s : State) (n : Nat) (f : Stack → Stack) : (s.modStack n f).power = s.power := rfl
@[simp] theorem State.modStack_waking (s : State) (n : Nat) (f : Stack → Stack) : (s.modStack n f).waking = s.waking := rfl
@[simp] theorem State.modStack_mailbox (s : State) (n : Nat) (f : Stack → Stack) : (s.modStack n f).mailbox = s.mailbox := rfl
@[simp] theorem State.modStack_debugQ (s : State) (n : Nat) (f : Stack → Stack) : (s.modStack n f).debugQ = s.debugQ := rfl
@[simp] theorem State.modStack_hostWins (s : State) (n : Nat) (f : Stack → Stack) : (s.modStack n f).hostWins = s.hostWins := rfl
@[simp] theorem State.modStack_hostHeld (s : State) (n : Nat) (f : Stack → Stack) : (s.modStack n f).hostHeld = s.hostHeld := rfl
@[simp] theorem State.modStack_fabricOut (s : State) (n : Nat) (f : Stack → Stack) : (s.modStack n f).fabricOut = s.fabricOut := rfl
@[simp] theorem State.modStack_gateQ (s : State) (n : Nat) (f : Stack → Stack) : (s.modStack n f).gateQ = s.gateQ := rfl
@[simp] theorem State.modStack_hostOut (s : State) (n : Nat) (f : Stack → Stack) : (s.modStack n f).hostOut = s.hostOut := rfl
@[simp] theorem State.modStack_recQ (s : State) (n : Nat) (f : Stack → Stack) : (s.modStack n f).recQ = s.recQ := rfl
@[simp] theorem State.modStack_agenda (s : State) (n : Nat) (f : Stack → Stack) : (s.modStack n f).agenda = s.agenda := rfl
@[simp] theorem State.modStack_iss (s : State) (n : Nat) (f : Stack → Stack) : (s.modStack n f).iss = s.iss := rfl
@[simp] theorem State.modStack_second (s : State) (n : Nat) (f : Stack → Stack) : (s.modStack n f).second = s.second := rfl
@[simp] theorem State.modStack_nextId (s : State) (n : Nat) (f : Stack → Stack) : (s.modStack n f).nextId = s.nextId := rfl
@[simp] theorem State.modStack_free (s : State) (n : Nat) (f : Stack → Stack) : (s.modStack n f).free = s.free := rfl
@[simp] theorem State.modStack_rrCore (s : State) (n : Nat) (f : Stack → Stack) : (s.modStack n f).rrCore = s.rrCore := rfl

/-! ### modContext -/

@[simp] theorem State.modContext_form (s : State) (n : Nat) (f : Context → Context) : (s.modContext n f).form = s.form := rfl
@[simp] theorem State.modContext_devid (s : State) (n : Nat) (f : Context → Context) : (s.modContext n f).devid = s.devid := rfl
@[simp] theorem State.modContext_mem (s : State) (n : Nat) (f : Context → Context) : (s.modContext n f).mem = s.mem := rfl
@[simp] theorem State.modContext_gmeta (s : State) (n : Nat) (f : Context → Context) : (s.modContext n f).gmeta = s.gmeta := rfl
@[simp] theorem State.modContext_gerr (s : State) (n : Nat) (f : Context → Context) : (s.modContext n f).gerr = s.gerr := rfl
@[simp] theorem State.modContext_hbm (s : State) (n : Nat) (f : Context → Context) : (s.modContext n f).hbm = s.hbm := rfl
@[simp] theorem State.modContext_fwRoot (s : State) (n : Nat) (f : Context → Context) : (s.modContext n f).fwRoot = s.fwRoot := rfl
@[simp] theorem State.modContext_cores (s : State) (n : Nat) (f : Context → Context) : (s.modContext n f).cores = s.cores := rfl
@[simp] theorem State.modContext_dies (s : State) (n : Nat) (f : Context → Context) : (s.modContext n f).dies = s.dies := rfl
@[simp] theorem State.modContext_streams (s : State) (n : Nat) (f : Context → Context) : (s.modContext n f).streams = s.streams := rfl
@[simp] theorem State.modContext_modules (s : State) (n : Nat) (f : Context → Context) : (s.modContext n f).modules = s.modules := rfl
@[simp] theorem State.modContext_queues (s : State) (n : Nat) (f : Context → Context) : (s.modContext n f).queues = s.queues := rfl
@[simp] theorem State.modContext_launches (s : State) (n : Nat) (f : Context → Context) : (s.modContext n f).launches = s.launches := rfl
@[simp] theorem State.modContext_views (s : State) (n : Nat) (f : Context → Context) : (s.modContext n f).views = s.views := rfl
@[simp] theorem State.modContext_invals (s : State) (n : Nat) (f : Context → Context) : (s.modContext n f).invals = s.invals := rfl
@[simp] theorem State.modContext_nextInval (s : State) (n : Nat) (f : Context → Context) : (s.modContext n f).nextInval = s.nextInval := rfl
@[simp] theorem State.modContext_power (s : State) (n : Nat) (f : Context → Context) : (s.modContext n f).power = s.power := rfl
@[simp] theorem State.modContext_waking (s : State) (n : Nat) (f : Context → Context) : (s.modContext n f).waking = s.waking := rfl
@[simp] theorem State.modContext_mailbox (s : State) (n : Nat) (f : Context → Context) : (s.modContext n f).mailbox = s.mailbox := rfl
@[simp] theorem State.modContext_debugQ (s : State) (n : Nat) (f : Context → Context) : (s.modContext n f).debugQ = s.debugQ := rfl
@[simp] theorem State.modContext_hostWins (s : State) (n : Nat) (f : Context → Context) : (s.modContext n f).hostWins = s.hostWins := rfl
@[simp] theorem State.modContext_hostHeld (s : State) (n : Nat) (f : Context → Context) : (s.modContext n f).hostHeld = s.hostHeld := rfl
@[simp] theorem State.modContext_fabricOut (s : State) (n : Nat) (f : Context → Context) : (s.modContext n f).fabricOut = s.fabricOut := rfl
@[simp] theorem State.modContext_gateQ (s : State) (n : Nat) (f : Context → Context) : (s.modContext n f).gateQ = s.gateQ := rfl
@[simp] theorem State.modContext_hostOut (s : State) (n : Nat) (f : Context → Context) : (s.modContext n f).hostOut = s.hostOut := rfl
@[simp] theorem State.modContext_recQ (s : State) (n : Nat) (f : Context → Context) : (s.modContext n f).recQ = s.recQ := rfl
@[simp] theorem State.modContext_agenda (s : State) (n : Nat) (f : Context → Context) : (s.modContext n f).agenda = s.agenda := rfl
@[simp] theorem State.modContext_iss (s : State) (n : Nat) (f : Context → Context) : (s.modContext n f).iss = s.iss := rfl
@[simp] theorem State.modContext_second (s : State) (n : Nat) (f : Context → Context) : (s.modContext n f).second = s.second := rfl
@[simp] theorem State.modContext_nextId (s : State) (n : Nat) (f : Context → Context) : (s.modContext n f).nextId = s.nextId := rfl
@[simp] theorem State.modContext_free (s : State) (n : Nat) (f : Context → Context) : (s.modContext n f).free = s.free := rfl
@[simp] theorem State.modContext_rrCore (s : State) (n : Nat) (f : Context → Context) : (s.modContext n f).rrCore = s.rrCore := rfl

/-! ### modQueue -/

@[simp] theorem State.modQueue_form (s : State) (n : Nat) (f : Queue → Queue) : (s.modQueue n f).form = s.form := rfl
@[simp] theorem State.modQueue_devid (s : State) (n : Nat) (f : Queue → Queue) : (s.modQueue n f).devid = s.devid := rfl
@[simp] theorem State.modQueue_mem (s : State) (n : Nat) (f : Queue → Queue) : (s.modQueue n f).mem = s.mem := rfl
@[simp] theorem State.modQueue_gmeta (s : State) (n : Nat) (f : Queue → Queue) : (s.modQueue n f).gmeta = s.gmeta := rfl
@[simp] theorem State.modQueue_gerr (s : State) (n : Nat) (f : Queue → Queue) : (s.modQueue n f).gerr = s.gerr := rfl
@[simp] theorem State.modQueue_hbm (s : State) (n : Nat) (f : Queue → Queue) : (s.modQueue n f).hbm = s.hbm := rfl
@[simp] theorem State.modQueue_fwRoot (s : State) (n : Nat) (f : Queue → Queue) : (s.modQueue n f).fwRoot = s.fwRoot := rfl
@[simp] theorem State.modQueue_cores (s : State) (n : Nat) (f : Queue → Queue) : (s.modQueue n f).cores = s.cores := rfl
@[simp] theorem State.modQueue_dies (s : State) (n : Nat) (f : Queue → Queue) : (s.modQueue n f).dies = s.dies := rfl
@[simp] theorem State.modQueue_streams (s : State) (n : Nat) (f : Queue → Queue) : (s.modQueue n f).streams = s.streams := rfl
@[simp] theorem State.modQueue_modules (s : State) (n : Nat) (f : Queue → Queue) : (s.modQueue n f).modules = s.modules := rfl
@[simp] theorem State.modQueue_contexts (s : State) (n : Nat) (f : Queue → Queue) : (s.modQueue n f).contexts = s.contexts := rfl
@[simp] theorem State.modQueue_launches (s : State) (n : Nat) (f : Queue → Queue) : (s.modQueue n f).launches = s.launches := rfl
@[simp] theorem State.modQueue_views (s : State) (n : Nat) (f : Queue → Queue) : (s.modQueue n f).views = s.views := rfl
@[simp] theorem State.modQueue_invals (s : State) (n : Nat) (f : Queue → Queue) : (s.modQueue n f).invals = s.invals := rfl
@[simp] theorem State.modQueue_nextInval (s : State) (n : Nat) (f : Queue → Queue) : (s.modQueue n f).nextInval = s.nextInval := rfl
@[simp] theorem State.modQueue_power (s : State) (n : Nat) (f : Queue → Queue) : (s.modQueue n f).power = s.power := rfl
@[simp] theorem State.modQueue_waking (s : State) (n : Nat) (f : Queue → Queue) : (s.modQueue n f).waking = s.waking := rfl
@[simp] theorem State.modQueue_mailbox (s : State) (n : Nat) (f : Queue → Queue) : (s.modQueue n f).mailbox = s.mailbox := rfl
@[simp] theorem State.modQueue_debugQ (s : State) (n : Nat) (f : Queue → Queue) : (s.modQueue n f).debugQ = s.debugQ := rfl
@[simp] theorem State.modQueue_hostWins (s : State) (n : Nat) (f : Queue → Queue) : (s.modQueue n f).hostWins = s.hostWins := rfl
@[simp] theorem State.modQueue_hostHeld (s : State) (n : Nat) (f : Queue → Queue) : (s.modQueue n f).hostHeld = s.hostHeld := rfl
@[simp] theorem State.modQueue_fabricOut (s : State) (n : Nat) (f : Queue → Queue) : (s.modQueue n f).fabricOut = s.fabricOut := rfl
@[simp] theorem State.modQueue_gateQ (s : State) (n : Nat) (f : Queue → Queue) : (s.modQueue n f).gateQ = s.gateQ := rfl
@[simp] theorem State.modQueue_hostOut (s : State) (n : Nat) (f : Queue → Queue) : (s.modQueue n f).hostOut = s.hostOut := rfl
@[simp] theorem State.modQueue_recQ (s : State) (n : Nat) (f : Queue → Queue) : (s.modQueue n f).recQ = s.recQ := rfl
@[simp] theorem State.modQueue_agenda (s : State) (n : Nat) (f : Queue → Queue) : (s.modQueue n f).agenda = s.agenda := rfl
@[simp] theorem State.modQueue_iss (s : State) (n : Nat) (f : Queue → Queue) : (s.modQueue n f).iss = s.iss := rfl
@[simp] theorem State.modQueue_second (s : State) (n : Nat) (f : Queue → Queue) : (s.modQueue n f).second = s.second := rfl
@[simp] theorem State.modQueue_nextId (s : State) (n : Nat) (f : Queue → Queue) : (s.modQueue n f).nextId = s.nextId := rfl
@[simp] theorem State.modQueue_free (s : State) (n : Nat) (f : Queue → Queue) : (s.modQueue n f).free = s.free := rfl
@[simp] theorem State.modQueue_rrCore (s : State) (n : Nat) (f : Queue → Queue) : (s.modQueue n f).rrCore = s.rrCore := rfl

/-! ### modLaunch -/

@[simp] theorem State.modLaunch_form (s : State) (c n : Nat) (f : Launch → Launch) : (s.modLaunch c n f).form = s.form := rfl
@[simp] theorem State.modLaunch_devid (s : State) (c n : Nat) (f : Launch → Launch) : (s.modLaunch c n f).devid = s.devid := rfl
@[simp] theorem State.modLaunch_mem (s : State) (c n : Nat) (f : Launch → Launch) : (s.modLaunch c n f).mem = s.mem := rfl
@[simp] theorem State.modLaunch_gmeta (s : State) (c n : Nat) (f : Launch → Launch) : (s.modLaunch c n f).gmeta = s.gmeta := rfl
@[simp] theorem State.modLaunch_gerr (s : State) (c n : Nat) (f : Launch → Launch) : (s.modLaunch c n f).gerr = s.gerr := rfl
@[simp] theorem State.modLaunch_hbm (s : State) (c n : Nat) (f : Launch → Launch) : (s.modLaunch c n f).hbm = s.hbm := rfl
@[simp] theorem State.modLaunch_fwRoot (s : State) (c n : Nat) (f : Launch → Launch) : (s.modLaunch c n f).fwRoot = s.fwRoot := rfl
@[simp] theorem State.modLaunch_cores (s : State) (c n : Nat) (f : Launch → Launch) : (s.modLaunch c n f).cores = s.cores := rfl
@[simp] theorem State.modLaunch_dies (s : State) (c n : Nat) (f : Launch → Launch) : (s.modLaunch c n f).dies = s.dies := rfl
@[simp] theorem State.modLaunch_streams (s : State) (c n : Nat) (f : Launch → Launch) : (s.modLaunch c n f).streams = s.streams := rfl
@[simp] theorem State.modLaunch_modules (s : State) (c n : Nat) (f : Launch → Launch) : (s.modLaunch c n f).modules = s.modules := rfl
@[simp] theorem State.modLaunch_contexts (s : State) (c n : Nat) (f : Launch → Launch) : (s.modLaunch c n f).contexts = s.contexts := rfl
@[simp] theorem State.modLaunch_queues (s : State) (c n : Nat) (f : Launch → Launch) : (s.modLaunch c n f).queues = s.queues := rfl
@[simp] theorem State.modLaunch_views (s : State) (c n : Nat) (f : Launch → Launch) : (s.modLaunch c n f).views = s.views := rfl
@[simp] theorem State.modLaunch_invals (s : State) (c n : Nat) (f : Launch → Launch) : (s.modLaunch c n f).invals = s.invals := rfl
@[simp] theorem State.modLaunch_nextInval (s : State) (c n : Nat) (f : Launch → Launch) : (s.modLaunch c n f).nextInval = s.nextInval := rfl
@[simp] theorem State.modLaunch_power (s : State) (c n : Nat) (f : Launch → Launch) : (s.modLaunch c n f).power = s.power := rfl
@[simp] theorem State.modLaunch_waking (s : State) (c n : Nat) (f : Launch → Launch) : (s.modLaunch c n f).waking = s.waking := rfl
@[simp] theorem State.modLaunch_mailbox (s : State) (c n : Nat) (f : Launch → Launch) : (s.modLaunch c n f).mailbox = s.mailbox := rfl
@[simp] theorem State.modLaunch_debugQ (s : State) (c n : Nat) (f : Launch → Launch) : (s.modLaunch c n f).debugQ = s.debugQ := rfl
@[simp] theorem State.modLaunch_hostWins (s : State) (c n : Nat) (f : Launch → Launch) : (s.modLaunch c n f).hostWins = s.hostWins := rfl
@[simp] theorem State.modLaunch_hostHeld (s : State) (c n : Nat) (f : Launch → Launch) : (s.modLaunch c n f).hostHeld = s.hostHeld := rfl
@[simp] theorem State.modLaunch_fabricOut (s : State) (c n : Nat) (f : Launch → Launch) : (s.modLaunch c n f).fabricOut = s.fabricOut := rfl
@[simp] theorem State.modLaunch_gateQ (s : State) (c n : Nat) (f : Launch → Launch) : (s.modLaunch c n f).gateQ = s.gateQ := rfl
@[simp] theorem State.modLaunch_hostOut (s : State) (c n : Nat) (f : Launch → Launch) : (s.modLaunch c n f).hostOut = s.hostOut := rfl
@[simp] theorem State.modLaunch_recQ (s : State) (c n : Nat) (f : Launch → Launch) : (s.modLaunch c n f).recQ = s.recQ := rfl
@[simp] theorem State.modLaunch_agenda (s : State) (c n : Nat) (f : Launch → Launch) : (s.modLaunch c n f).agenda = s.agenda := rfl
@[simp] theorem State.modLaunch_iss (s : State) (c n : Nat) (f : Launch → Launch) : (s.modLaunch c n f).iss = s.iss := rfl
@[simp] theorem State.modLaunch_second (s : State) (c n : Nat) (f : Launch → Launch) : (s.modLaunch c n f).second = s.second := rfl
@[simp] theorem State.modLaunch_nextId (s : State) (c n : Nat) (f : Launch → Launch) : (s.modLaunch c n f).nextId = s.nextId := rfl
@[simp] theorem State.modLaunch_free (s : State) (c n : Nat) (f : Launch → Launch) : (s.modLaunch c n f).free = s.free := rfl
@[simp] theorem State.modLaunch_rrCore (s : State) (c n : Nat) (f : Launch → Launch) : (s.modLaunch c n f).rrCore = s.rrCore := rfl

/-! ### modGroup -/

@[simp] theorem State.modGroup_form (s : State) (c n : Nat) (f : Group → Group) : (s.modGroup c n f).form = s.form := rfl
@[simp] theorem State.modGroup_devid (s : State) (c n : Nat) (f : Group → Group) : (s.modGroup c n f).devid = s.devid := rfl
@[simp] theorem State.modGroup_mem (s : State) (c n : Nat) (f : Group → Group) : (s.modGroup c n f).mem = s.mem := rfl
@[simp] theorem State.modGroup_gmeta (s : State) (c n : Nat) (f : Group → Group) : (s.modGroup c n f).gmeta = s.gmeta := rfl
@[simp] theorem State.modGroup_gerr (s : State) (c n : Nat) (f : Group → Group) : (s.modGroup c n f).gerr = s.gerr := rfl
@[simp] theorem State.modGroup_hbm (s : State) (c n : Nat) (f : Group → Group) : (s.modGroup c n f).hbm = s.hbm := rfl
@[simp] theorem State.modGroup_fwRoot (s : State) (c n : Nat) (f : Group → Group) : (s.modGroup c n f).fwRoot = s.fwRoot := rfl
@[simp] theorem State.modGroup_dies (s : State) (c n : Nat) (f : Group → Group) : (s.modGroup c n f).dies = s.dies := rfl
@[simp] theorem State.modGroup_streams (s : State) (c n : Nat) (f : Group → Group) : (s.modGroup c n f).streams = s.streams := rfl
@[simp] theorem State.modGroup_modules (s : State) (c n : Nat) (f : Group → Group) : (s.modGroup c n f).modules = s.modules := rfl
@[simp] theorem State.modGroup_contexts (s : State) (c n : Nat) (f : Group → Group) : (s.modGroup c n f).contexts = s.contexts := rfl
@[simp] theorem State.modGroup_queues (s : State) (c n : Nat) (f : Group → Group) : (s.modGroup c n f).queues = s.queues := rfl
@[simp] theorem State.modGroup_launches (s : State) (c n : Nat) (f : Group → Group) : (s.modGroup c n f).launches = s.launches := rfl
@[simp] theorem State.modGroup_views (s : State) (c n : Nat) (f : Group → Group) : (s.modGroup c n f).views = s.views := rfl
@[simp] theorem State.modGroup_invals (s : State) (c n : Nat) (f : Group → Group) : (s.modGroup c n f).invals = s.invals := rfl
@[simp] theorem State.modGroup_nextInval (s : State) (c n : Nat) (f : Group → Group) : (s.modGroup c n f).nextInval = s.nextInval := rfl
@[simp] theorem State.modGroup_power (s : State) (c n : Nat) (f : Group → Group) : (s.modGroup c n f).power = s.power := rfl
@[simp] theorem State.modGroup_waking (s : State) (c n : Nat) (f : Group → Group) : (s.modGroup c n f).waking = s.waking := rfl
@[simp] theorem State.modGroup_mailbox (s : State) (c n : Nat) (f : Group → Group) : (s.modGroup c n f).mailbox = s.mailbox := rfl
@[simp] theorem State.modGroup_debugQ (s : State) (c n : Nat) (f : Group → Group) : (s.modGroup c n f).debugQ = s.debugQ := rfl
@[simp] theorem State.modGroup_hostWins (s : State) (c n : Nat) (f : Group → Group) : (s.modGroup c n f).hostWins = s.hostWins := rfl
@[simp] theorem State.modGroup_hostHeld (s : State) (c n : Nat) (f : Group → Group) : (s.modGroup c n f).hostHeld = s.hostHeld := rfl
@[simp] theorem State.modGroup_fabricOut (s : State) (c n : Nat) (f : Group → Group) : (s.modGroup c n f).fabricOut = s.fabricOut := rfl
@[simp] theorem State.modGroup_gateQ (s : State) (c n : Nat) (f : Group → Group) : (s.modGroup c n f).gateQ = s.gateQ := rfl
@[simp] theorem State.modGroup_hostOut (s : State) (c n : Nat) (f : Group → Group) : (s.modGroup c n f).hostOut = s.hostOut := rfl
@[simp] theorem State.modGroup_recQ (s : State) (c n : Nat) (f : Group → Group) : (s.modGroup c n f).recQ = s.recQ := rfl
@[simp] theorem State.modGroup_agenda (s : State) (c n : Nat) (f : Group → Group) : (s.modGroup c n f).agenda = s.agenda := rfl
@[simp] theorem State.modGroup_iss (s : State) (c n : Nat) (f : Group → Group) : (s.modGroup c n f).iss = s.iss := rfl
@[simp] theorem State.modGroup_second (s : State) (c n : Nat) (f : Group → Group) : (s.modGroup c n f).second = s.second := rfl
@[simp] theorem State.modGroup_nextId (s : State) (c n : Nat) (f : Group → Group) : (s.modGroup c n f).nextId = s.nextId := rfl
@[simp] theorem State.modGroup_free (s : State) (c n : Nat) (f : Group → Group) : (s.modGroup c n f).free = s.free := rfl
@[simp] theorem State.modGroup_rrCore (s : State) (c n : Nat) (f : Group → Group) : (s.modGroup c n f).rrCore = s.rrCore := rfl

/-! ### setGroup -/

@[simp] theorem State.setGroup_form (s : State) (c n : Nat) (g : Group) : (s.setGroup c n g).form = s.form := rfl
@[simp] theorem State.setGroup_devid (s : State) (c n : Nat) (g : Group) : (s.setGroup c n g).devid = s.devid := rfl
@[simp] theorem State.setGroup_mem (s : State) (c n : Nat) (g : Group) : (s.setGroup c n g).mem = s.mem := rfl
@[simp] theorem State.setGroup_gmeta (s : State) (c n : Nat) (g : Group) : (s.setGroup c n g).gmeta = s.gmeta := rfl
@[simp] theorem State.setGroup_gerr (s : State) (c n : Nat) (g : Group) : (s.setGroup c n g).gerr = s.gerr := rfl
@[simp] theorem State.setGroup_hbm (s : State) (c n : Nat) (g : Group) : (s.setGroup c n g).hbm = s.hbm := rfl
@[simp] theorem State.setGroup_fwRoot (s : State) (c n : Nat) (g : Group) : (s.setGroup c n g).fwRoot = s.fwRoot := rfl
@[simp] theorem State.setGroup_dies (s : State) (c n : Nat) (g : Group) : (s.setGroup c n g).dies = s.dies := rfl
@[simp] theorem State.setGroup_streams (s : State) (c n : Nat) (g : Group) : (s.setGroup c n g).streams = s.streams := rfl
@[simp] theorem State.setGroup_modules (s : State) (c n : Nat) (g : Group) : (s.setGroup c n g).modules = s.modules := rfl
@[simp] theorem State.setGroup_contexts (s : State) (c n : Nat) (g : Group) : (s.setGroup c n g).contexts = s.contexts := rfl
@[simp] theorem State.setGroup_queues (s : State) (c n : Nat) (g : Group) : (s.setGroup c n g).queues = s.queues := rfl
@[simp] theorem State.setGroup_launches (s : State) (c n : Nat) (g : Group) : (s.setGroup c n g).launches = s.launches := rfl
@[simp] theorem State.setGroup_views (s : State) (c n : Nat) (g : Group) : (s.setGroup c n g).views = s.views := rfl
@[simp] theorem State.setGroup_invals (s : State) (c n : Nat) (g : Group) : (s.setGroup c n g).invals = s.invals := rfl
@[simp] theorem State.setGroup_nextInval (s : State) (c n : Nat) (g : Group) : (s.setGroup c n g).nextInval = s.nextInval := rfl
@[simp] theorem State.setGroup_power (s : State) (c n : Nat) (g : Group) : (s.setGroup c n g).power = s.power := rfl
@[simp] theorem State.setGroup_waking (s : State) (c n : Nat) (g : Group) : (s.setGroup c n g).waking = s.waking := rfl
@[simp] theorem State.setGroup_mailbox (s : State) (c n : Nat) (g : Group) : (s.setGroup c n g).mailbox = s.mailbox := rfl
@[simp] theorem State.setGroup_debugQ (s : State) (c n : Nat) (g : Group) : (s.setGroup c n g).debugQ = s.debugQ := rfl
@[simp] theorem State.setGroup_hostWins (s : State) (c n : Nat) (g : Group) : (s.setGroup c n g).hostWins = s.hostWins := rfl
@[simp] theorem State.setGroup_hostHeld (s : State) (c n : Nat) (g : Group) : (s.setGroup c n g).hostHeld = s.hostHeld := rfl
@[simp] theorem State.setGroup_fabricOut (s : State) (c n : Nat) (g : Group) : (s.setGroup c n g).fabricOut = s.fabricOut := rfl
@[simp] theorem State.setGroup_gateQ (s : State) (c n : Nat) (g : Group) : (s.setGroup c n g).gateQ = s.gateQ := rfl
@[simp] theorem State.setGroup_hostOut (s : State) (c n : Nat) (g : Group) : (s.setGroup c n g).hostOut = s.hostOut := rfl
@[simp] theorem State.setGroup_recQ (s : State) (c n : Nat) (g : Group) : (s.setGroup c n g).recQ = s.recQ := rfl
@[simp] theorem State.setGroup_agenda (s : State) (c n : Nat) (g : Group) : (s.setGroup c n g).agenda = s.agenda := rfl
@[simp] theorem State.setGroup_iss (s : State) (c n : Nat) (g : Group) : (s.setGroup c n g).iss = s.iss := rfl
@[simp] theorem State.setGroup_second (s : State) (c n : Nat) (g : Group) : (s.setGroup c n g).second = s.second := rfl
@[simp] theorem State.setGroup_nextId (s : State) (c n : Nat) (g : Group) : (s.setGroup c n g).nextId = s.nextId := rfl
@[simp] theorem State.setGroup_free (s : State) (c n : Nat) (g : Group) : (s.setGroup c n g).free = s.free := rfl
@[simp] theorem State.setGroup_rrCore (s : State) (c n : Nat) (g : Group) : (s.setGroup c n g).rrCore = s.rrCore := rfl

/-! ### modLane -/

@[simp] theorem State.modLane_form (s : State) (c n l : Nat) (f : Lane → Lane) : (s.modLane c n l f).form = s.form := rfl
@[simp] theorem State.modLane_devid (s : State) (c n l : Nat) (f : Lane → Lane) : (s.modLane c n l f).devid = s.devid := rfl
@[simp] theorem State.modLane_mem (s : State) (c n l : Nat) (f : Lane → Lane) : (s.modLane c n l f).mem = s.mem := rfl
@[simp] theorem State.modLane_gmeta (s : State) (c n l : Nat) (f : Lane → Lane) : (s.modLane c n l f).gmeta = s.gmeta := rfl
@[simp] theorem State.modLane_gerr (s : State) (c n l : Nat) (f : Lane → Lane) : (s.modLane c n l f).gerr = s.gerr := rfl
@[simp] theorem State.modLane_hbm (s : State) (c n l : Nat) (f : Lane → Lane) : (s.modLane c n l f).hbm = s.hbm := rfl
@[simp] theorem State.modLane_fwRoot (s : State) (c n l : Nat) (f : Lane → Lane) : (s.modLane c n l f).fwRoot = s.fwRoot := rfl
@[simp] theorem State.modLane_dies (s : State) (c n l : Nat) (f : Lane → Lane) : (s.modLane c n l f).dies = s.dies := rfl
@[simp] theorem State.modLane_streams (s : State) (c n l : Nat) (f : Lane → Lane) : (s.modLane c n l f).streams = s.streams := rfl
@[simp] theorem State.modLane_modules (s : State) (c n l : Nat) (f : Lane → Lane) : (s.modLane c n l f).modules = s.modules := rfl
@[simp] theorem State.modLane_contexts (s : State) (c n l : Nat) (f : Lane → Lane) : (s.modLane c n l f).contexts = s.contexts := rfl
@[simp] theorem State.modLane_queues (s : State) (c n l : Nat) (f : Lane → Lane) : (s.modLane c n l f).queues = s.queues := rfl
@[simp] theorem State.modLane_launches (s : State) (c n l : Nat) (f : Lane → Lane) : (s.modLane c n l f).launches = s.launches := rfl
@[simp] theorem State.modLane_views (s : State) (c n l : Nat) (f : Lane → Lane) : (s.modLane c n l f).views = s.views := rfl
@[simp] theorem State.modLane_invals (s : State) (c n l : Nat) (f : Lane → Lane) : (s.modLane c n l f).invals = s.invals := rfl
@[simp] theorem State.modLane_nextInval (s : State) (c n l : Nat) (f : Lane → Lane) : (s.modLane c n l f).nextInval = s.nextInval := rfl
@[simp] theorem State.modLane_power (s : State) (c n l : Nat) (f : Lane → Lane) : (s.modLane c n l f).power = s.power := rfl
@[simp] theorem State.modLane_waking (s : State) (c n l : Nat) (f : Lane → Lane) : (s.modLane c n l f).waking = s.waking := rfl
@[simp] theorem State.modLane_mailbox (s : State) (c n l : Nat) (f : Lane → Lane) : (s.modLane c n l f).mailbox = s.mailbox := rfl
@[simp] theorem State.modLane_debugQ (s : State) (c n l : Nat) (f : Lane → Lane) : (s.modLane c n l f).debugQ = s.debugQ := rfl
@[simp] theorem State.modLane_hostWins (s : State) (c n l : Nat) (f : Lane → Lane) : (s.modLane c n l f).hostWins = s.hostWins := rfl
@[simp] theorem State.modLane_hostHeld (s : State) (c n l : Nat) (f : Lane → Lane) : (s.modLane c n l f).hostHeld = s.hostHeld := rfl
@[simp] theorem State.modLane_fabricOut (s : State) (c n l : Nat) (f : Lane → Lane) : (s.modLane c n l f).fabricOut = s.fabricOut := rfl
@[simp] theorem State.modLane_gateQ (s : State) (c n l : Nat) (f : Lane → Lane) : (s.modLane c n l f).gateQ = s.gateQ := rfl
@[simp] theorem State.modLane_hostOut (s : State) (c n l : Nat) (f : Lane → Lane) : (s.modLane c n l f).hostOut = s.hostOut := rfl
@[simp] theorem State.modLane_recQ (s : State) (c n l : Nat) (f : Lane → Lane) : (s.modLane c n l f).recQ = s.recQ := rfl
@[simp] theorem State.modLane_agenda (s : State) (c n l : Nat) (f : Lane → Lane) : (s.modLane c n l f).agenda = s.agenda := rfl
@[simp] theorem State.modLane_iss (s : State) (c n l : Nat) (f : Lane → Lane) : (s.modLane c n l f).iss = s.iss := rfl
@[simp] theorem State.modLane_second (s : State) (c n l : Nat) (f : Lane → Lane) : (s.modLane c n l f).second = s.second := rfl
@[simp] theorem State.modLane_nextId (s : State) (c n l : Nat) (f : Lane → Lane) : (s.modLane c n l f).nextId = s.nextId := rfl
@[simp] theorem State.modLane_free (s : State) (c n l : Nat) (f : Lane → Lane) : (s.modLane c n l f).free = s.free := rfl
@[simp] theorem State.modLane_rrCore (s : State) (c n l : Nat) (f : Lane → Lane) : (s.modLane c n l f).rrCore = s.rrCore := rfl

/-! ### modTeam -/

@[simp] theorem State.modTeam_form (s : State) (c p : Nat) (f : Team → Team) : (s.modTeam c p f).form = s.form := rfl
@[simp] theorem State.modTeam_devid (s : State) (c p : Nat) (f : Team → Team) : (s.modTeam c p f).devid = s.devid := rfl
@[simp] theorem State.modTeam_mem (s : State) (c p : Nat) (f : Team → Team) : (s.modTeam c p f).mem = s.mem := rfl
@[simp] theorem State.modTeam_gmeta (s : State) (c p : Nat) (f : Team → Team) : (s.modTeam c p f).gmeta = s.gmeta := rfl
@[simp] theorem State.modTeam_gerr (s : State) (c p : Nat) (f : Team → Team) : (s.modTeam c p f).gerr = s.gerr := rfl
@[simp] theorem State.modTeam_hbm (s : State) (c p : Nat) (f : Team → Team) : (s.modTeam c p f).hbm = s.hbm := rfl
@[simp] theorem State.modTeam_fwRoot (s : State) (c p : Nat) (f : Team → Team) : (s.modTeam c p f).fwRoot = s.fwRoot := rfl
@[simp] theorem State.modTeam_dies (s : State) (c p : Nat) (f : Team → Team) : (s.modTeam c p f).dies = s.dies := rfl
@[simp] theorem State.modTeam_streams (s : State) (c p : Nat) (f : Team → Team) : (s.modTeam c p f).streams = s.streams := rfl
@[simp] theorem State.modTeam_modules (s : State) (c p : Nat) (f : Team → Team) : (s.modTeam c p f).modules = s.modules := rfl
@[simp] theorem State.modTeam_contexts (s : State) (c p : Nat) (f : Team → Team) : (s.modTeam c p f).contexts = s.contexts := rfl
@[simp] theorem State.modTeam_queues (s : State) (c p : Nat) (f : Team → Team) : (s.modTeam c p f).queues = s.queues := rfl
@[simp] theorem State.modTeam_launches (s : State) (c p : Nat) (f : Team → Team) : (s.modTeam c p f).launches = s.launches := rfl
@[simp] theorem State.modTeam_views (s : State) (c p : Nat) (f : Team → Team) : (s.modTeam c p f).views = s.views := rfl
@[simp] theorem State.modTeam_invals (s : State) (c p : Nat) (f : Team → Team) : (s.modTeam c p f).invals = s.invals := rfl
@[simp] theorem State.modTeam_nextInval (s : State) (c p : Nat) (f : Team → Team) : (s.modTeam c p f).nextInval = s.nextInval := rfl
@[simp] theorem State.modTeam_power (s : State) (c p : Nat) (f : Team → Team) : (s.modTeam c p f).power = s.power := rfl
@[simp] theorem State.modTeam_waking (s : State) (c p : Nat) (f : Team → Team) : (s.modTeam c p f).waking = s.waking := rfl
@[simp] theorem State.modTeam_mailbox (s : State) (c p : Nat) (f : Team → Team) : (s.modTeam c p f).mailbox = s.mailbox := rfl
@[simp] theorem State.modTeam_debugQ (s : State) (c p : Nat) (f : Team → Team) : (s.modTeam c p f).debugQ = s.debugQ := rfl
@[simp] theorem State.modTeam_hostWins (s : State) (c p : Nat) (f : Team → Team) : (s.modTeam c p f).hostWins = s.hostWins := rfl
@[simp] theorem State.modTeam_hostHeld (s : State) (c p : Nat) (f : Team → Team) : (s.modTeam c p f).hostHeld = s.hostHeld := rfl
@[simp] theorem State.modTeam_fabricOut (s : State) (c p : Nat) (f : Team → Team) : (s.modTeam c p f).fabricOut = s.fabricOut := rfl
@[simp] theorem State.modTeam_gateQ (s : State) (c p : Nat) (f : Team → Team) : (s.modTeam c p f).gateQ = s.gateQ := rfl
@[simp] theorem State.modTeam_hostOut (s : State) (c p : Nat) (f : Team → Team) : (s.modTeam c p f).hostOut = s.hostOut := rfl
@[simp] theorem State.modTeam_recQ (s : State) (c p : Nat) (f : Team → Team) : (s.modTeam c p f).recQ = s.recQ := rfl
@[simp] theorem State.modTeam_agenda (s : State) (c p : Nat) (f : Team → Team) : (s.modTeam c p f).agenda = s.agenda := rfl
@[simp] theorem State.modTeam_iss (s : State) (c p : Nat) (f : Team → Team) : (s.modTeam c p f).iss = s.iss := rfl
@[simp] theorem State.modTeam_second (s : State) (c p : Nat) (f : Team → Team) : (s.modTeam c p f).second = s.second := rfl
@[simp] theorem State.modTeam_nextId (s : State) (c p : Nat) (f : Team → Team) : (s.modTeam c p f).nextId = s.nextId := rfl
@[simp] theorem State.modTeam_free (s : State) (c p : Nat) (f : Team → Team) : (s.modTeam c p f).free = s.free := rfl
@[simp] theorem State.modTeam_rrCore (s : State) (c p : Nat) (f : Team → Team) : (s.modTeam c p f).rrCore = s.rrCore := rfl

/-! ### Reading after writing -/

section
variable (s : State) (c c' n n' l l' p d d' : Nat)

@[simp] theorem State.core_setCore (x : Core) : (s.setCore c x).core c = x := by simp [State.core, State.setCore]

theorem State.core_setCore_ne (x : Core) (h : c' ≠ c) : (s.setCore c x).core c' = s.core c' := by
  simp [State.core, State.setCore, SMap.get_put_ne _ _ _ _ _ h]

@[simp] theorem State.core_modCore (f : Core → Core) : (s.modCore c f).core c = f (s.core c) := by simp [State.modCore]

theorem State.core_modCore_ne (f : Core → Core) (h : c' ≠ c) : (s.modCore c f).core c' = s.core c' := by
  simp [State.modCore, State.core_setCore_ne s c c' _ h]

@[simp] theorem State.die_setDie (x : Die) : (s.setDie d x).die d = x := by simp [State.die, State.setDie]

theorem State.die_setDie_ne (x : Die) (h : d' ≠ d) : (s.setDie d x).die d' = s.die d' := by
  simp [State.die, State.setDie, SMap.get_put_ne _ _ _ _ _ h]

@[simp] theorem State.die_modDie (f : Die → Die) : (s.modDie d f).die d = f (s.die d) := by simp [State.modDie]

theorem State.die_modDie_ne (f : Die → Die) (h : d' ≠ d) : (s.modDie d f).die d' = s.die d' := by
  simp [State.modDie, State.die_setDie_ne s d d' _ h]

@[simp] theorem State.stack_modStack (f : Stack → Stack) : (s.modStack n f).stack n = f (s.stack n) := by
  simp [State.stack, State.modStack]

@[simp] theorem State.context_modContext (f : Context → Context) :
    (s.modContext n f).context n = (s.context n).map f := by simp [State.context, State.modContext]

theorem State.context_modContext_ne (f : Context → Context) (h : n' ≠ n) :
    (s.modContext n f).context n' = s.context n' := by
  simp [State.context, State.modContext, SMap.find_modify_ne _ _ _ _ h]

@[simp] theorem State.die_setCore (x : Core) : (s.setCore c x).die d = s.die d := rfl
@[simp] theorem State.die_modCore (f : Core → Core) : (s.modCore c f).die d = s.die d := rfl
@[simp] theorem State.die_modLane (f : Lane → Lane) : (s.modLane c n l f).die d = s.die d := rfl
@[simp] theorem State.die_modGroup (f : Group → Group) : (s.modGroup c n f).die d = s.die d := rfl
@[simp] theorem State.die_modTeam (f : Team → Team) : (s.modTeam c p f).die d = s.die d := rfl
@[simp] theorem State.die_modContext (f : Context → Context) : (s.modContext n f).die d = s.die d := rfl
@[simp] theorem State.core_setDie (x : Die) : (s.setDie d x).core c = s.core c := rfl
@[simp] theorem State.core_modDie (f : Die → Die) : (s.modDie d f).core c = s.core c := rfl
@[simp] theorem State.core_modContext (f : Context → Context) : (s.modContext n f).core c = s.core c := rfl
@[simp] theorem State.context_modCore (f : Core → Core) : (s.modCore c f).context n = s.context n := rfl
@[simp] theorem State.context_modLane (f : Lane → Lane) : (s.modLane c n' l f).context n = s.context n := rfl
@[simp] theorem State.context_modGroup (f : Group → Group) : (s.modGroup c n' f).context n = s.context n := rfl
@[simp] theorem State.context_modDie (f : Die → Die) : (s.modDie d f).context n = s.context n := rfl
@[simp] theorem State.dieCount_modCore (f : Core → Core) : (s.modCore c f).dieCount = s.dieCount := rfl
@[simp] theorem State.dieCount_modDie (f : Die → Die) : (s.modDie d f).dieCount = s.dieCount := rfl

/-! A core seen through its groups. -/

/-- Two changes of a group are one. -/
theorem State.modGroup_modGroup (f g : Group → Group) : (s.modGroup c n f).modGroup c n g = s.modGroup c n (g ∘ f) := by
  have h : ∀ u v : Core → Core, (s.modCore c u).modCore c v = s.modCore c (v ∘ u) := fun u v => by
    rw [State.modCore, State.core_modCore]
    simp only [State.modCore, State.setCore, SMap.put_put, Function.comp]
  simp only [State.modGroup, h, Function.comp_def, SMap.modify_modify]

theorem State.core_modGroup (f : Group → Group) :
    (s.modGroup c n f).core c = { s.core c with groups := (s.core c).groups.modify n f } := by simp [State.modGroup]

theorem State.core_modGroup_ne (f : Group → Group) (h : c' ≠ c) : (s.modGroup c n f).core c' = s.core c' :=
  State.core_modCore_ne s c c' _ h

/-- A group that stands in the slot is changed; an empty slot stays empty. -/
theorem State.group_modGroup (f : Group → Group) :
    (s.modGroup c n f).group c n = (((s.core c).groups.find n).map f).getD {} := by
  simp [State.group, State.core_modGroup]

theorem State.group_modGroup_slot (f : Group → Group) (h : n' ≠ n) : (s.modGroup c n f).group c n' = s.group c n' := by
  simp [State.group, State.core_modGroup, SMap.find_modify_ne _ _ _ _ h]

theorem State.group_modGroup_core (f : Group → Group) (h : c' ≠ c) : (s.modGroup c n f).group c' n' = s.group c' n' := by
  simp [State.group, State.core_modGroup_ne s c c' n f h]

@[simp] theorem State.group_modDie (f : Die → Die) : (s.modDie d f).group c n = s.group c n := rfl
@[simp] theorem State.group_modContext (f : Context → Context) : (s.modContext l f).group c n = s.group c n := rfl

/-- A lane's change keeps all of its group but that lane. -/
theorem State.group_modLane (f : Lane → Lane) :
    (s.modLane c n l f).group c n = { s.group c n with lanes := listModify (s.group c n).lanes l f } := by
  unfold State.modLane
  rw [State.group_modGroup]
  unfold State.group
  cases (s.core c).groups.find n <;> simp [listModify]

theorem State.group_modLane_slot (f : Lane → Lane) (h : n' ≠ n) : (s.modLane c n l f).group c n' = s.group c n' :=
  State.group_modGroup_slot s c n n' _ h

theorem State.group_modLane_core (f : Lane → Lane) (h : c' ≠ c) : (s.modLane c n l f).group c' n' = s.group c' n' :=
  State.group_modGroup_core s c c' n n' _ h

/-- A lane that the group has reads as changed. -/
theorem State.lane_modLane (f : Lane → Lane) (h : l < (s.group c n).lanes.length) :
    ((s.modLane c n l f).group c n).lane l = f ((s.group c n).lane l) := by
  simp only [State.group_modLane, Group.lane, listModify_get, if_true, List.getElem?_eq_getElem h, Option.map_some,
    Option.getD_some]

theorem State.lane_modLane_ne (f : Lane → Lane) (h : l' ≠ l) :
    ((s.modLane c n l f).group c n).lane l' = (s.group c n).lane l' := by
  simp [State.group_modLane, Group.lane, listModify_get, h]

@[simp] theorem State.lanes_modLane (f : Lane → Lane) :
    ((s.modLane c n l f).group c n).lanes.length = (s.group c n).lanes.length := by
  simp [State.group_modLane]

/-! A core seen through its teams. -/

theorem State.team_modTeam (f : Team → Team) :
    (s.modTeam c p f).team c p = (((s.core c).teams.find p).map f).getD {} := by
  simp [State.team, State.modTeam]

@[simp] theorem State.group_modTeam (f : Team → Team) : (s.modTeam c p f).group c' n = s.group c' n := by
  unfold State.group State.modTeam
  by_cases h : c' = c
  · subst h; simp
  · simp [State.core_modCore_ne s c c' _ h]

@[simp] theorem State.team_modLane (f : Lane → Lane) : (s.modLane c n l f).team c' p = s.team c' p := by
  unfold State.team State.modLane State.modGroup
  by_cases h : c' = c
  · subst h; simp
  · simp [State.core_modCore_ne s c c' _ h]

end

/-! ### A lane's registers -/

theorem bit_ofNat_two_pow (w n m : Nat) (h : m < w) : (BitVec.ofNat w (2 ^ n)).getLsbD m = decide (n = m) := by
  rw [BitVec.getLsbD_ofNat, Nat.testBit_two_pow]
  simp [h]

section
variable (x : Lane) (n m : Nat) (w : W32) (a : W64) (b : Bool)

@[simp] theorem Lane.rv_wv : (x.wv n w).rv n = w := by simp [Lane.rv, Lane.wv]
theorem Lane.rv_wv_ne (h : m ≠ n) : (x.wv n w).rv m = x.rv m := by simp [Lane.rv, Lane.wv, SMap.get_set_ne _ _ _ _ _ h]
@[simp] theorem Lane.rv_setCur : (x.setCur a).rv n = x.rv n := by unfold Lane.setCur Lane.rv; split <;> rfl
@[simp] theorem Lane.pred_setCur : (x.setCur a).pred n = x.pred n := by unfold Lane.setCur; split <;> rfl
@[simp] theorem Lane.cur_setCur : (x.setCur a).cur = a := by unfold Lane.setCur Lane.cur; split <;> simp [*]
@[simp] theorem Lane.trap_setCur : (x.setCur a).trap = x.trap := by unfold Lane.setCur; split <;> simp_all
@[simp] theorem Lane.pred_seven : x.pred 7 = true := by simp [Lane.pred]
@[simp] theorem Lane.setPred_seven : x.setPred 7 b = x := by simp [Lane.setPred]

theorem Lane.pred_setPred (h : n < 7) : (x.setPred n b).pred n = b := by
  have h7 : n ≠ 7 := by omega
  cases b <;> simp only [Lane.pred, Lane.setPred, h7, if_false, if_true, Bool.false_eq_true, BitVec.getLsbD_and,
    BitVec.getLsbD_or, BitVec.getLsbD_not, bit_ofNat_two_pow _ _ _ h, h, decide_true, Bool.not_true, Bool.and_false,
    Bool.or_true]

theorem Lane.pred_setPred_ne (hm : m < 8) (h : m ≠ n) : (x.setPred n b).pred m = x.pred m := by
  by_cases h7 : n = 7
  · simp [h7]
  · by_cases m7 : m = 7
    · simp [m7]
    · have h1 : m < 7 := by omega
      cases b <;> simp only [Lane.pred, Lane.setPred, h7, m7, if_false, if_true, Bool.false_eq_true, BitVec.getLsbD_and,
        BitVec.getLsbD_or, BitVec.getLsbD_not, bit_ofNat_two_pow _ _ _ h1, h1, Ne.symm h, decide_true, decide_false,
        Bool.not_false, Bool.and_true, Bool.or_false]

theorem Lane.wvs_append (v : List W32) : (x.wvs n v).rv m =
    if n ≤ m ∧ m < n + v.length then (v[m - n]?).getD 0 else x.rv m := by
  induction v generalizing x n with
  | nil => simp [Lane.wvs] <;> omega
  | cons y v ih =>
    simp only [Lane.wvs, ih, List.length_cons]
    by_cases h0 : m = n
    · subst h0
      have h1 : ¬ (m + 1 ≤ m ∧ m < m + 1 + v.length) := by omega
      have h2 : m ≤ m ∧ m < m + (v.length + 1) := by omega
      simp only [if_neg h1, if_pos h2, Nat.sub_self, List.getElem?_cons_zero, Option.getD_some, Lane.rv_wv]
    · by_cases h1 : n + 1 ≤ m ∧ m < n + 1 + v.length
      · have h2 : n ≤ m ∧ m < n + (v.length + 1) := by omega
        have h3 : m - n = (m - (n + 1)) + 1 := by omega
        simp only [if_pos h1, if_pos h2, h3, List.getElem?_cons_succ]
      · have h2 : ¬ (n ≤ m ∧ m < n + (v.length + 1)) := by omega
        simp only [if_neg h1, if_neg h2]
        exact x.rv_wv_ne n m y h0

end

end Sys2Proof.Machine
end

