-- ==== Sys2Proof/Laws/Issue.lean ====
section
/-! SUPPORT. What an issue to a PC set does: the advance of its lanes, and the writing of registers and predicates. -/

namespace Sys2Proof.Machine

/-! ## Keeping a lane but for its registers and its place -/

/-- The lane is kept but for what `SetFrame` lets change. -/
def LaneKept (x y : Lane) : Prop :=
  y = { x with pc := y.pc, tpc := y.tpc, v := y.v, p := y.p, wait := y.wait, until_ := y.until_, wskip := y.wskip } ∧
  (if x.trap then y.pc = x.pc else y.tpc = x.tpc)

theorem LaneKept.refl (x : Lane) : LaneKept x x := ⟨rfl, by split <;> rfl⟩

theorem LaneKept.trap {x y : Lane} (h : LaneKept x y) : y.trap = x.trap := by rw [h.1]

theorem LaneKept.trans {x y z : Lane} (h : LaneKept x y) (k : LaneKept y z) : LaneKept x z := by
  refine ⟨?_, ?_⟩
  · rw [k.1, h.1]
  · have hk := k.2
    have hh := h.2
    rw [h.trap] at hk
    split <;> simp_all

theorem LaneKept.setCur (x : Lane) (a : W64) : LaneKept x (x.setCur a) := by
  unfold Lane.setCur
  cases h : x.trap <;> simp [LaneKept, h]

theorem LaneKept.wv (x : Lane) (n : Nat) (w : W32) : LaneKept x (x.wv n w) := ⟨rfl, by split <;> rfl⟩

theorem LaneKept.wvs (x : Lane) (n : Nat) (ws : List W32) : LaneKept x (x.wvs n ws) := by
  induction ws generalizing x n with
  | nil => exact LaneKept.refl x
  | cons w ws ih => exact (LaneKept.wv x n w).trans (ih _ _)

theorem LaneKept.setPred (x : Lane) (n : Nat) (b : Bool) : LaneKept x (x.setPred n b) := by
  unfold Lane.setPred
  split
  · exact LaneKept.refl x
  · exact ⟨rfl, by split <;> rfl⟩

/-! ## The frame -/

theorem SetFrame.iss {s t : State} (F : SetFrame s t) : t.iss = s.iss := by
  have h := congrArg State.iss F.rest
  exact h

theorem SetFrame.issLane_kept {s t : State} (F : SetFrame s t) (l : Nat) : LaneKept (s.issLane l) (t.issLane l) :=
  ⟨F.lane l, F.shadowPc l⟩

theorem SetFrame.refl (s : State) : SetFrame s s where
  rest := rfl
  mem _ := rfl
  cores _ _ := rfl
  core := rfl
  slots _ _ := rfl
  group := rfl
  count := rfl
  others _ _ := rfl
  lane _ := rfl
  shadowPc _ := by split <;> rfl

/-- A change of the issuing group that keeps it as the frame says keeps the frame. -/
theorem SetFrame.modGroup {s t : State} (F : SetFrame s t) (f : Group → Group)
    (hf : ∀ g, f g = { g with lanes := (f g).lanes, s := (f g).s })
    (hn : ∀ g, (f g).lanes.length = g.lanes.length)
    (ho : ∀ g l, l ∉ s.iss.lanes → (f g).lane l = g.lane l)
    (hk : ∀ g l, LaneKept (g.lane l) ((f g).lane l)) : SetFrame s (t.modGroup s.iss.core s.iss.slot f) := by
  have key : (t.modGroup s.iss.core s.iss.slot f).issGroup = t.issGroup ∨
      (t.modGroup s.iss.core s.iss.slot f).issGroup = f t.issGroup := by
    unfold State.issGroup
    rw [State.modGroup_iss, F.iss, State.group_modGroup]
    unfold State.group
    cases (t.core s.iss.core).groups.find s.iss.slot <;> simp
  have hg : ∃ g, (t.modGroup s.iss.core s.iss.slot f).issGroup = g ∧
      g = { t.issGroup with lanes := g.lanes, s := g.s } ∧ g.lanes.length = t.issGroup.lanes.length ∧
      (∀ l, l ∉ s.iss.lanes → g.lane l = t.issGroup.lane l) ∧ ∀ l, LaneKept (t.issGroup.lane l) (g.lane l) := by
    rcases key with k | k
    · exact ⟨_, k, rfl, rfl, fun _ _ => rfl, fun l => LaneKept.refl _⟩
    · exact ⟨_, k, hf _, hn _, fun l h => ho _ l h, fun l => hk _ l⟩
  obtain ⟨g, e, g1, g2, g3, g4⟩ := hg
  have kept : ∀ l, LaneKept (s.issLane l) ((t.modGroup s.iss.core s.iss.slot f).issLane l) := by
    intro l
    refine (F.issLane_kept l).trans ?_
    unfold State.issLane
    rw [e]
    exact g4 l
  exact {
    rest := F.rest
    mem := F.mem
    cores := fun c h => by rw [State.core_modGroup_ne _ _ _ _ _ h]; exact F.cores c h
    core := by rw [State.core_modGroup]; rw [F.core]
    slots := fun n h => by rw [State.group_modGroup_slot _ _ _ _ _ h]; exact F.slots n h
    group := by rw [e, g1, F.group]
    count := by rw [e, g2, F.count]
    others := fun l h => by
      unfold State.issLane
      rw [e, g3 l h]
      exact F.others l h
    lane := fun l => (kept l).1
    shadowPc := fun l => (kept l).2 }

/-- A change of one lane of the set. -/
theorem SetFrame.modLane {s t : State} (F : SetFrame s t) (l : Nat) (hl : l ∈ s.iss.lanes) (f : Lane → Lane)
    (hk : ∀ x, LaneKept x (f x)) : SetFrame s (t.modLane s.iss.core s.iss.slot l f) := by
  refine F.modGroup _ (fun _ => rfl) (fun g => by simp) ?_ ?_
  · intro g m hm
    have : m ≠ l := fun h => hm (h ▸ hl)
    simp [Group.lane, listModify_get, this]
  · intro g m
    unfold Group.lane
    simp only [listModify_get]
    split
    · next h =>
      subst h
      cases g.lanes[m]? with
      | none => exact LaneKept.refl _
      | some x => exact hk x
    · exact LaneKept.refl _

/-- A change of the lanes of the set, one after the other. -/
theorem SetFrame.foldLanes {s t : State} (F : SetFrame s t) (ls : List Nat) (hl : ∀ l ∈ ls, l ∈ s.iss.lanes)
    (f : Nat → Lane → Lane) (hk : ∀ l x, LaneKept x (f l x)) :
    SetFrame s (ls.foldl (fun t l => t.modLane s.iss.core s.iss.slot l (f l)) t) := by
  induction ls generalizing t with
  | nil => exact F
  | cons l ls ih =>
    exact ih (F.modLane l (hl l (by simp)) _ (hk l)) (fun m hm => hl m (by simp [hm]))

/-! ## A fold over lanes -/

/-- A lane after each listed lane is changed by an operation that gives the same when done again. -/
theorem lane_fold (s : State) (c n : Nat) (ls : List Nat) (f : Nat → Lane → Lane) (l : Nat)
    (h : l < (s.group c n).lanes.length) (hi : ∀ l x, f l (f l x) = f l x) :
    ((ls.foldl (fun t l => t.modLane c n l (f l)) s).group c n).lane l =
      if l ∈ ls then f l ((s.group c n).lane l) else (s.group c n).lane l := by
  induction ls generalizing s with
  | nil => simp
  | cons m ls ih =>
    have h' : l < ((s.modLane c n m (f m)).group c n).lanes.length := by simpa using h
    simp only [List.foldl_cons]
    rw [ih _ h']
    by_cases e : l = m
    · subst e
      simp only [State.lane_modLane s c n l _ h, hi, List.mem_cons, true_or, if_true, ite_self]
    · simp [State.lane_modLane_ne s c n m l _ e, e]

theorem rs_modLane (s : State) (c n l m : Nat) (f : Lane → Lane) :
    ((s.modLane c n l f).group c n).rs m = (s.group c n).rs m := by
  simp [State.group_modLane, Group.rs]

theorem rs_fold (s : State) (c n m : Nat) (ls : List Nat) (f : Nat → Lane → Lane) :
    ((ls.foldl (fun t l => t.modLane c n l (f l)) s).group c n).rs m = (s.group c n).rs m := by
  induction ls generalizing s with
  | nil => rfl
  | cons l ls ih => simp only [List.foldl_cons]; rw [ih, rs_modLane]

/-! ## The advance (R42, R63, R65) -/

/-- What the advance does to a lane. -/
def State.advanced (s : State) (h : Hdr) (x : Lane) : Lane :=
  let y := x.setCur (s.iss.pc + 12)
  { y with
    wait := .none, until_ := (s.die (dieOf s.iss.core)).cycle + paceCycles h.pace.val,
    wskip := if y.wskip = some s.iss.pc then none else y.wskip }

theorem LaneKept.advanced (s : State) (h : Hdr) (x : Lane) : LaneKept x (s.advanced h x) := by
  unfold State.advanced Lane.setCur
  cases hx : x.trap <;> simp [LaneKept, hx]

theorem State.advanced_idem (s : State) (h : Hdr) (x : Lane) : s.advanced h (s.advanced h x) = s.advanced h x := by
  unfold State.advanced Lane.setCur
  cases x.trap <;> simp

/-- The state after the advance, before the cede hint. -/
def State.advanceAll (s : State) (h : Hdr) : State :=
  s.iss.lanes.foldl (fun t l => t.modLane s.iss.core s.iss.slot l (s.advanced h)) s

theorem State.beginIssue_eq (s : State) (h : Hdr) : s.beginIssue h =
    if h.cede then (s.advanceAll h).modCore s.iss.core fun k =>
      { k with ceded := some (s.iss.slot, (s.die (dieOf s.iss.core)).cycle) } else s.advanceAll h := by
  have i : ∀ (ls : List Nat) (t : State), t.iss = s.iss →
      (ls.foldl (fun t l => t.modLane s.iss.core s.iss.slot l (s.advanced h)) t).iss = s.iss := by
    intro ls
    induction ls with
    | nil => intro t ht; exact ht
    | cons l ls ih => intro t ht; exact ih _ (by simpa using ht)
  have e : ∀ (ls : List Nat) (t : State), t.iss = s.iss →
      ls.foldl (fun (t : State) l => t.modLane t.iss.core t.iss.slot l fun x =>
        let y := x.setCur (t.iss.pc + 12)
        { y with
          wait := .none, until_ := (s.die (dieOf s.iss.core)).cycle + paceCycles h.pace.val,
          wskip := if y.wskip = some t.iss.pc then none else y.wskip }) t =
      ls.foldl (fun t l => t.modLane s.iss.core s.iss.slot l (s.advanced h)) t := by
    intro ls
    induction ls with
    | nil => intro t _; rfl
    | cons l ls ih =>
      intro t ht
      simp only [List.foldl_cons]
      rw [ih _ (by simpa using ht), ht]
      rfl
  have e' := e s.iss.lanes s rfl
  have i' := i s.iss.lanes s rfl
  unfold State.beginIssue State.advanceAll
  simp only at e' ⊢
  rw [e', i']

theorem SetFrame.ceded {s t : State} (F : SetFrame s t) (x : Option (Nat × Nat)) :
    SetFrame s (t.modCore s.iss.core fun k => { k with ceded := x }) := by
  have g : ∀ n, (t.modCore s.iss.core fun k => { k with ceded := x }).group s.iss.core n = t.group s.iss.core n := by
    intro n
    simp [State.group]
  have gi : (t.modCore s.iss.core fun k => { k with ceded := x }).issGroup = t.issGroup := by
    unfold State.issGroup
    simp only [State.modCore_iss, F.iss, g]
  have li : ∀ l, (t.modCore s.iss.core fun k => { k with ceded := x }).issLane l = t.issLane l := by
    intro l
    simp only [State.issLane, gi]
  exact {
    rest := F.rest
    mem := F.mem
    cores := fun c h => by rw [State.core_modCore_ne _ _ _ _ h]; exact F.cores c h
    core := by rw [State.core_modCore]; rw [F.core]
    slots := fun n h => by rw [g]; exact F.slots n h
    group := by rw [gi]; exact F.group
    count := by rw [gi]; exact F.count
    others := fun l h => by rw [li]; exact F.others l h
    lane := fun l => by rw [li]; exact F.lane l
    shadowPc := fun l => by rw [li]; exact F.shadowPc l }

theorem SetFrame.advanceAll (s : State) (h : Hdr) : SetFrame s (s.advanceAll h) :=
  (SetFrame.refl s).foldLanes _ (fun _ h => h) (fun _ => s.advanced h) (fun _ x => LaneKept.advanced s h x)

theorem SetFrame.beginIssue (s : State) (h : Hdr) : SetFrame s (s.beginIssue h) := by
  rw [State.beginIssue_eq]
  split
  · exact (SetFrame.advanceAll s h).ceded _
  · exact SetFrame.advanceAll s h

theorem group_ceded (s : State) (c n : Nat) (x : Option (Nat × Nat)) :
    (s.modCore c fun k => { k with ceded := x }).group c n = s.group c n := by simp [State.group]

/-- A lane of the issuing set after the advance. -/
theorem issLane_beginIssue (s : State) (h : Hdr) (l : Nat) (hl : l ∈ s.iss.lanes)
    (hr : l < s.issGroup.lanes.length) : (s.beginIssue h).issLane l = s.advanced h (s.issLane l) := by
  have a : ((s.advanceAll h).group s.iss.core s.iss.slot).lane l = s.advanced h (s.issLane l) := by
    unfold State.advanceAll
    rw [lane_fold s s.iss.core s.iss.slot s.iss.lanes (fun _ => s.advanced h) l hr
      (fun _ x => s.advanced_idem h x)]
    simp [hl, State.issLane, State.issGroup]
  have i := (SetFrame.beginIssue s h).iss
  unfold State.issLane State.issGroup
  rw [i, State.beginIssue_eq]
  split
  · rw [group_ceded]; exact a
  · exact a

theorem rs_beginIssue (s : State) (h : Hdr) (m : Nat) : (s.beginIssue h).issGroup.rs m = s.issGroup.rs m := by
  have i := (SetFrame.beginIssue s h).iss
  unfold State.issGroup
  rw [i, State.beginIssue_eq]
  have a : ((s.advanceAll h).group s.iss.core s.iss.slot).rs m = (s.group s.iss.core s.iss.slot).rs m := by
    unfold State.advanceAll
    rw [rs_fold s s.iss.core s.iss.slot m s.iss.lanes (fun _ => s.advanced h)]
  split
  · rw [group_ceded]; exact a
  · exact a

/-! ## Computing instructions -/

variable {s t : State} {h : Hdr} {ds : List (Opnd × (Nat → List W32))} {ps : List (Nat × (Nat → Bool))}

/-- The lanes of the issuing set are lanes of its group. -/
def LanesIn (s : State) : Prop := ∀ l ∈ s.iss.lanes, l < s.issGroup.lanes.length

theorem active_sub (s : State) (h : Hdr) : ∀ l ∈ s.active h, l ∈ s.iss.lanes := by
  intro l hl
  simp only [State.active, State.env, List.mem_filter] at hl
  exact hl.1

theorem computes_begin (s : State) (h : Hdr) (hr : LanesIn s) : Computes s (s.beginIssue h) h [] [] := by
  have L := fun l hl => issLane_beginIssue s h l hl (hr l hl)
  exact {
    toSetFrame := SetFrame.beginIssue s h
    advances := fun l hl => by
      rw [L l hl]
      unfold State.advanced Lane.setCur
      cases (s.issLane l).trap <;> simp [Lane.cur]
    v := fun l hl m => by
      rw [L l hl]
      simp only [List.foldl_nil, ite_self]
      unfold State.advanced
      exact Lane.rv_setCur _ _ _
    sc := fun m => by
      rw [rs_beginIssue]
      cases (s.active h).head? <;> rfl
    p := fun l hl k _ => by
      rw [L l hl]
      simp only [List.foldl_nil, ite_self]
      unfold State.advanced
      exact Lane.pred_setCur _ _ _ }

theorem wvs_wvs (x : Lane) (n : Nat) (ws : List W32) (m : Nat) : ((x.wvs n ws).wvs n ws).rv m = (x.wvs n ws).rv m := by
  simp only [Lane.wvs_append]
  split <;> rfl

theorem cur_wvs (x : Lane) (n : Nat) (ws : List W32) :
    (x.wvs n ws).cur = x.cur ∧ (x.wvs n ws).wait = x.wait ∧ ∀ k, (x.wvs n ws).pred k = x.pred k := by
  induction ws generalizing x n with
  | nil => exact ⟨rfl, rfl, fun _ => rfl⟩
  | cons w ws ih =>
    obtain ⟨a, b, c⟩ := ih (x.wv n w) (n + 1)
    exact ⟨a, b, c⟩

theorem wss_append (g : Group) (n : Nat) (v : List W32) (m : Nat) : (g.wss n v).rs m =
    if n ≤ m ∧ m < n + v.length then (v[m - n]?).getD 0 else g.rs m := by
  induction v generalizing g n with
  | nil => simp [Group.wss] <;> omega
  | cons y v ih =>
    simp only [Group.wss, ih, List.length_cons]
    by_cases h0 : m = n
    · subst h0
      have h1 : ¬ (m + 1 ≤ m ∧ m < m + 1 + v.length) := by omega
      have h2 : m ≤ m ∧ m < m + (v.length + 1) := by omega
      simp only [if_neg h1, if_pos h2, Nat.sub_self, List.getElem?_cons_zero, Option.getD_some, Group.rs, Group.ws,
        SMap.get_set_self]
    · by_cases h1 : n + 1 ≤ m ∧ m < n + 1 + v.length
      · have h2 : n ≤ m ∧ m < n + (v.length + 1) := by omega
        have h3 : m - n = (m - (n + 1)) + 1 := by omega
        simp only [if_pos h1, if_pos h2, h3, List.getElem?_cons_succ]
      · have h2 : ¬ (n ≤ m ∧ m < n + (v.length + 1)) := by omega
        simp only [if_neg h1, if_neg h2]
        simp [Group.rs, Group.ws, SMap.get_set_ne _ _ _ _ _ h0]

theorem wss_lanes (g : Group) (n : Nat) (v : List W32) :
    g.wss n v = { g with s := (g.wss n v).s } := by
  induction v generalizing g n with
  | nil => rfl
  | cons y v ih =>
    simp only [Group.wss]
    rw [ih]
    rfl

/-- What a lane of the set reads as after each active lane of it is changed. -/
theorem issLane_active (F : SetFrame s t) (f : Nat → Lane → Lane) (ls : List Nat) (l : Nat) (hr : LanesIn s)
    (hl : l ∈ s.iss.lanes) (P : Lane → Prop) (h1 : l ∈ ls → ∀ x, x = t.issLane l → P (f l x))
    (h0 : l ∉ ls → P (t.issLane l)) (h2 : l ∈ ls → ∀ x, P (f l x) → P (f l (f l x))) :
    P (((ls.foldl (fun u l => u.modLane s.iss.core s.iss.slot l (f l)) t).group s.iss.core s.iss.slot).lane l) := by
  have hlt : l < (t.group s.iss.core s.iss.slot).lanes.length := by
    have := F.count
    unfold State.issGroup at this
    rw [F.iss] at this
    rw [this]
    exact hr l hl
  have et : t.issLane l = (t.group s.iss.core s.iss.slot).lane l := by
    unfold State.issLane State.issGroup
    rw [F.iss]
  -- generalise: the lane is `t`'s, or an image whose property holds
  have gen : ∀ (ls' : List Nat) (u : State), l < (u.group s.iss.core s.iss.slot).lanes.length →
      (∀ m ∈ ls', m ∈ ls) →
      ((u.group s.iss.core s.iss.slot).lane l = t.issLane l ∧ (l ∈ ls' ∨ l ∉ ls) ∨
        (∃ x, (u.group s.iss.core s.iss.slot).lane l = f l x ∧ P (f l x) ∧ l ∈ ls)) →
      P (((ls'.foldl (fun u l => u.modLane s.iss.core s.iss.slot l (f l)) u).group s.iss.core s.iss.slot).lane l) := by
    intro ls'
    induction ls' with
    | nil =>
      intro u hu _ hc
      rcases hc with ⟨e, hc⟩ | ⟨x, e, hp, _⟩
      · simp only [List.foldl_nil, e]
        rcases hc with hc | hc
        · simp at hc
        · exact h0 hc
      · simp only [List.foldl_nil, e]; exact hp
    | cons m ls' ih =>
      intro u hu hs hc
      simp only [List.foldl_cons]
      apply ih _ (by simpa using hu) (fun k hk => hs k (by simp [hk]))
      by_cases e : l = m
      · subst e
        right
        have hm : l ∈ ls := hs l (by simp)
        rw [State.lane_modLane u _ _ l _ hu]
        rcases hc with ⟨e, _⟩ | ⟨x, e, hp, _⟩
        · exact ⟨t.issLane l, by rw [e], h1 hm _ rfl, hm⟩
        · exact ⟨f l x, by rw [e], h2 hm x hp, hm⟩
      · rw [State.lane_modLane_ne u _ _ m l _ e]
        rcases hc with ⟨e', hc⟩ | hc
        · left
          refine ⟨e', ?_⟩
          rcases hc with hc | hc
          · left
            simp only [List.mem_cons, e, false_or] at hc
            exact hc
          · exact .inr hc
        · exact .inr hc
  apply gen ls t hlt (fun _ h => h)
  left
  exact ⟨et.symm, by by_cases hh : l ∈ ls <;> simp [hh]⟩

theorem computes_writeD (C : Computes s t h ds ps) (hr : LanesIn s) (d : Opnd) (val : Nat → List W32) :
    Computes s (t.writeD (s.env h) d val) h (ds ++ [(d, val)]) ps := by
  have hc : (s.env h).core = s.iss.core := rfl
  have hs : (s.env h).slot = s.iss.slot := rfl
  have ha : (s.env h).active = s.active h := rfl
  cases d with
  | k c =>
    have e : t.writeD (s.env h) (.k c) val = t := rfl
    rw [e]
    exact {
      toSetFrame := C.toSetFrame
      advances := C.advances
      v := fun l hl m => by
        rw [C.v l hl m]; simp [List.foldl_append, vAfter]
      sc := fun m => by
        rw [C.sc m]; cases (s.active h).head? <;> simp [List.foldl_append, sAfter]
      p := C.p }
  | v r =>
    have e : t.writeD (s.env h) (.v r) val =
        (s.active h).foldl (fun u l => u.modLane s.iss.core s.iss.slot l ((fun l x => x.wvs r.val (val l)) l)) t := rfl
    rw [e]
    have F := C.toSetFrame.foldLanes (s.active h) (active_sub s h) (fun l x => x.wvs r.val (val l))
      (fun l x => LaneKept.wvs x _ _)
    have I : ∀ l, ((s.active h).foldl (fun u l => u.modLane s.iss.core s.iss.slot l
        ((fun l x => x.wvs r.val (val l)) l)) t).issLane l = (((s.active h).foldl
        (fun u l => u.modLane s.iss.core s.iss.slot l ((fun l x => x.wvs r.val (val l)) l)) t).group
          s.iss.core s.iss.slot).lane l := by
      intro l
      unfold State.issLane State.issGroup
      rw [F.iss]
    exact {
      toSetFrame := F
      advances := fun l hl => by
        rw [I]
        apply issLane_active C.toSetFrame _ _ l hr hl (fun x => x.cur = s.iss.pc + 12 ∧ x.wait = .none)
        · intro _ x hx
          subst hx
          rw [(cur_wvs _ _ _).1, (cur_wvs _ _ _).2.1]
          exact C.advances l hl
        · intro _; exact C.advances l hl
        · intro _ x hx
          rw [(cur_wvs _ _ _).1, (cur_wvs _ _ _).2.1]
          exact hx
      v := fun l hl m => by
        rw [I]
        apply issLane_active C.toSetFrame _ _ l hr hl (fun x => x.rv m = _)
        · intro hm x hx
          subst hx
          rw [Lane.wvs_append, C.v l hl m]
          simp [hm, List.foldl_append, vAfter]
        · intro hm
          rw [C.v l hl m]
          simp [hm]
        · intro _ x hx
          rw [wvs_wvs]
          exact hx
      sc := fun m => by
        have : ((s.active h).foldl (fun u l => u.modLane s.iss.core s.iss.slot l
            ((fun l x => x.wvs r.val (val l)) l)) t).issGroup.rs m = t.issGroup.rs m := by
          unfold State.issGroup
          rw [F.iss, rs_fold, C.toSetFrame.iss]
        rw [this, C.sc m]
        cases (s.active h).head? <;> simp [List.foldl_append, sAfter]
      p := fun l hl k hk => by
        rw [I]
        apply issLane_active C.toSetFrame _ _ l hr hl (fun x => x.pred k = _)
        · intro hm x hx
          subst hx
          rw [(cur_wvs _ _ _).2.2 k, C.p l hl k hk]
        · intro hm
          rw [C.p l hl k hk]
        · intro _ x hx
          rw [(cur_wvs _ _ _).2.2 k]
          exact hx }
  | s r =>
    cases hh : (s.active h) with
    | nil =>
      have e : t.writeD (s.env h) (.s r) val = t := by simp [State.writeD, ha, hh]
      rw [e]
      exact {
        toSetFrame := C.toSetFrame
        advances := C.advances
        v := fun l hl m => by
          rw [C.v l hl m]; simp [hh]
        sc := fun m => by
          rw [C.sc m]; simp [hh]
        p := C.p }
    | cons a as =>
      have e : t.writeD (s.env h) (.s r) val = t.modGroup s.iss.core s.iss.slot fun g => g.wss r.val (val a) := by
        simp [State.writeD, ha, hh, hc, hs]
      rw [e]
      have F := C.toSetFrame.modGroup (fun g => g.wss r.val (val a))
        (fun g => by rw [wss_lanes]) (fun g => by rw [wss_lanes])
        (fun g l _ => by rw [wss_lanes]; rfl)
        (fun g l => by rw [wss_lanes]; exact LaneKept.refl _)
      have L : ∀ l, (t.modGroup s.iss.core s.iss.slot fun g => g.wss r.val (val a)).issLane l = t.issLane l := by
        intro l
        unfold State.issLane State.issGroup
        rw [F.iss, C.toSetFrame.iss, State.group_modGroup]
        unfold State.group
        cases (t.core s.iss.core).groups.find s.iss.slot with
        | none => rfl
        | some g => simp only [Option.map_some, Option.getD_some]; rw [wss_lanes]; rfl
      exact {
        toSetFrame := F
        advances := fun l hl => by rw [L]; exact C.advances l hl
        v := fun l hl m => by
          rw [L, C.v l hl m]
          split <;> simp [List.foldl_append, vAfter]
        sc := fun m => by
          have G : (t.modGroup s.iss.core s.iss.slot fun g => g.wss r.val (val a)).issGroup =
              t.issGroup.wss r.val (val a) := by
            have ex : ∃ g, (t.core s.iss.core).groups.find s.iss.slot = some g := by
              have hlen := hr a (active_sub s h a (by rw [hh]; simp))
              have hcount := C.toSetFrame.count
              unfold State.issGroup at hcount hlen
              rw [C.toSetFrame.iss] at hcount
              rw [← hcount] at hlen
              cases hx : (t.core s.iss.core).groups.find s.iss.slot with
              | some g => exact ⟨g, rfl⟩
              | none => simp [State.group, hx] at hlen
            obtain ⟨g, hg⟩ := ex
            unfold State.issGroup
            rw [F.iss, C.toSetFrame.iss, State.group_modGroup]
            simp [State.group, hg]
          rw [G, wss_append, C.sc m]
          simp [hh, List.foldl_append, sAfter]
        p := fun l hl k hk => by rw [L]; exact C.p l hl k hk }

theorem setPred_setPred (x : Lane) (n : Nat) (b : Bool) (k : Nat) (hk : k < 8) :
    ((x.setPred n b).setPred n b).pred k = (x.setPred n b).pred k := by
  by_cases h7 : n = 7
  · subst h7; simp
  · by_cases e : k = n
    · subst e
      rw [Lane.pred_setPred _ _ _ (by omega), Lane.pred_setPred _ _ _ (by omega)]
    · rw [Lane.pred_setPred_ne _ _ _ _ hk e]

theorem cur_setPred (x : Lane) (n : Nat) (b : Bool) :
    (x.setPred n b).cur = x.cur ∧ (x.setPred n b).wait = x.wait ∧ ∀ k, (x.setPred n b).rv k = x.rv k := by
  unfold Lane.setPred
  split <;> exact ⟨rfl, rfl, fun _ => rfl⟩

theorem computes_writeP (C : Computes s t h ds ps) (hr : LanesIn s) (p : Nat) (hp : p < 8) (val : Nat → Bool) :
    Computes s (t.writeP (s.env h) p val) h ds (ps ++ [(p, val)]) := by
  have e : t.writeP (s.env h) p val =
      (s.active h).foldl (fun u l => u.modLane s.iss.core s.iss.slot l ((fun l x => x.setPred p (val l)) l)) t := rfl
  rw [e]
  have F := C.toSetFrame.foldLanes (s.active h) (active_sub s h) (fun l x => x.setPred p (val l))
    (fun l x => LaneKept.setPred x _ _)
  have I : ∀ l, ((s.active h).foldl (fun u l => u.modLane s.iss.core s.iss.slot l
      ((fun l x => x.setPred p (val l)) l)) t).issLane l = (((s.active h).foldl
      (fun u l => u.modLane s.iss.core s.iss.slot l ((fun l x => x.setPred p (val l)) l)) t).group
        s.iss.core s.iss.slot).lane l := by
    intro l
    unfold State.issLane State.issGroup
    rw [F.iss]
  exact {
    toSetFrame := F
    advances := fun l hl => by
      rw [I]
      apply issLane_active C.toSetFrame _ _ l hr hl (fun x => x.cur = s.iss.pc + 12 ∧ x.wait = .none)
      · intro _ x hx
        subst hx
        rw [(cur_setPred _ _ _).1, (cur_setPred _ _ _).2.1]
        exact C.advances l hl
      · intro _; exact C.advances l hl
      · intro _ x hx
        rw [(cur_setPred _ _ _).1, (cur_setPred _ _ _).2.1]
        exact hx
    v := fun l hl m => by
      rw [I]
      apply issLane_active C.toSetFrame _ _ l hr hl (fun x => x.rv m = _)
      · intro hm x hx
        subst hx
        rw [(cur_setPred _ _ _).2.2 m, C.v l hl m]
      · intro hm
        rw [C.v l hl m]
      · intro _ x hx
        rw [(cur_setPred _ _ _).2.2 m]
        exact hx
    sc := fun m => by
      have : ((s.active h).foldl (fun u l => u.modLane s.iss.core s.iss.slot l
          ((fun l x => x.setPred p (val l)) l)) t).issGroup.rs m = t.issGroup.rs m := by
        unfold State.issGroup
        rw [F.iss, rs_fold, C.toSetFrame.iss]
      rw [this, C.sc m]
    p := fun l hl k hk => by
      rw [I]
      apply issLane_active C.toSetFrame _ _ l hr hl (fun x => x.pred k = _)
      · intro hm x hx
        subst hx
        simp only [hm, if_true, List.foldl_append, List.foldl_cons, List.foldl_nil]
        by_cases h7 : p = 7
        · subst h7
          rw [Lane.setPred_seven, C.p l hl k hk]
          simp [hm, pAfter]
        · by_cases ek : k = p
          · subst ek
            rw [Lane.pred_setPred _ _ _ (by omega)]
            simp [pAfter, h7]
          · rw [Lane.pred_setPred_ne _ _ _ _ hk ek, C.p l hl k hk]
            simp [hm, pAfter, ek]
      · intro hm
        rw [C.p l hl k hk]
        simp [hm]
      · intro _ x hx
        rw [setPred_setPred _ _ _ _ hk]
        exact hx }

/-! ## The meaning of a word that issues -/

/-- An instruction that issues to a PC set does its body, on the state in which the set has advanced. -/
theorem issue_next {i : Instr} (I : Issues s i) (closed : Closed) (body : Env → State → State) :
    s.issue i h closed body = .next (body (s.env h) (s.beginIssue h)) := by
  have w := I.within
  unfold State.issGroup at w
  simp [State.issue, State.issueIf, I.set, State.groupIssue, w]

theorem issueInk_next {i : Instr} (I : Issues s i) (body : Env → State → State) :
    s.issueInk i h body = .next (body (s.env h) (s.beginIssue h)) := issue_next I inks body

/-- An instruction that the nib lane executes does its body with that lane, where its guard is true. -/
theorem nibIssue_next {i : Instr} {n : Nat} (I : NibIssues s i h n) (body : Env → Nat → State → State) :
    s.nibIssue i h body = .next (body (s.env h) n (s.beginIssue h)) := by
  unfold State.nibIssue
  rw [issueInk_next I.toIssues]
  have hl : (s.env h).lanes = s.iss.lanes := rfl
  have hn := I.nib
  have ho : (s.env h).active.head? = some n := I.on
  rw [hl]
  cases e : s.iss.lanes with
  | nil => rw [e] at hn; simp at hn
  | cons a as =>
    rw [e] at hn
    simp only [List.head?_cons, Option.some.injEq] at hn
    subst hn
    simp only [ho, if_true]

/-- Where the nib lane's guard is false, the instruction does nothing but go on. -/
theorem nibIssue_off {i : Instr} {n : Nat} (I : Issues s i) (hn : s.iss.lanes.head? = some n) (ho : (s.active h).head? ≠ some n)
    (body : Env → Nat → State → State) : s.nibIssue i h body = .next (s.beginIssue h) := by
  unfold State.nibIssue
  rw [issueInk_next I]
  have hl : (s.env h).lanes = s.iss.lanes := rfl
  have ha : (s.env h).active.head? ≠ some n := ho
  rw [hl]
  cases e : s.iss.lanes with
  | nil => rfl
  | cons a as =>
    rw [e] at hn
    simp only [List.head?_cons, Option.some.injEq] at hn
    subst hn
    simp only [ha, if_false]

theorem Issues.lanesIn {i : Instr} (I : Issues s i) : LanesIn s := I.lanes

/-- An instruction whose body writes one destination. -/
theorem computes_one {i : Instr} (I : Issues s i) (d : Opnd) (val : Nat → List W32) :
    Computes s ((s.beginIssue h).writeD (s.env h) d val) h [(d, val)] [] :=
  computes_writeD (computes_begin s h I.lanesIn) I.lanesIn d val

/-- An instruction whose body writes one destination gives the values written, where it issues. -/
theorem gives_of {i : Instr} {d : Opnd} {val : Nat → List W32} {cl : Closed} {body : Env → State → State} {r : Res}
    (e0 : exec i s = r) (e1 : r = s.issue i h cl body)
    (e2 : body (s.env h) (s.beginIssue h) = (s.beginIssue h).writeD (s.env h) d val) : Gives s i h d val := by
  intro I
  refine ⟨_, (e0.trans e1).trans (issue_next I _ _), ?_⟩
  rw [e2]
  exact computes_one I d val

/-- An instruction whose body writes one predicate. -/
theorem computes_pred {i : Instr} (I : Issues s i) (p : Nat) (hp : p < 8) (val : Nat → Bool) :
    Computes s ((s.beginIssue h).writeP (s.env h) p val) h [] [(p, val)] :=
  computes_writeP (computes_begin s h I.lanesIn) I.lanesIn p hp val

/-! ## The step -/

/-- Outside a secondary set, a step makes the first move of the agenda (log 2). -/
theorem step_agenda {s : State} {m : Move} {rest : List Move} (a : s.second = none) (b : s.agenda = m :: rest) :
    step s = State.runMove { s with agenda := rest } m := by
  unfold step
  split
  · rename_i h; rw [a] at h; cases h
  · split
    · rename_i h; rw [b] at h; cases h; rfl
    · rename_i h; rw [b] at h; cases h

end Sys2Proof.Machine
end

