-- ==== Sys2Proof/Laws/Records.lean ====
section
/-! SUPPORT. What a record, a preserved chunk and the taking of a fault leave unchanged. -/

namespace Sys2Proof.Machine

/-- Only memory with its tags, symbol errors and stacks, views, dies, records that wait, what the host receives and the counter of free
values may differ. -/
def SameBut (s t : State) : Prop :=
  { t with
    mem := s.mem
    gmeta := s.gmeta
    gerr := s.gerr
    hbm := s.hbm
    views := s.views
    dies := s.dies
    recQ := s.recQ
    hostOut := s.hostOut
    free := s.free } = s

theorem SameBut.refl (s : State) : SameBut s s := rfl

theorem SameBut.trans {s t u : State} (a : SameBut s t) (b : SameBut t u) : SameBut s u := by
  unfold SameBut at *
  rw [← b] at a
  exact a

theorem SameBut.cores {s t : State} (a : SameBut s t) : t.cores = s.cores :=
  (congrArg State.cores (show _ = s from a) :)
theorem SameBut.launches {s t : State} (a : SameBut s t) : t.launches = s.launches :=
  (congrArg State.launches (show _ = s from a) :)
theorem SameBut.contexts {s t : State} (a : SameBut s t) : t.contexts = s.contexts :=
  (congrArg State.contexts (show _ = s from a) :)
theorem SameBut.iss {s t : State} (a : SameBut s t) : t.iss = s.iss :=
  (congrArg State.iss (show _ = s from a) :)

theorem SameBut.fold {α : Type} {f : State → α → State} (h : ∀ s x, SameBut s (f s x)) (xs : List α) (s : State) :
    SameBut s (xs.foldl f s) := by
  induction xs generalizing s with
  | nil => exact .refl s
  | cons x xs ih => exact (h s x).trans (ih _)

theorem State.event_same (s : State) (d : Nat) : SameBut s (s.event d).2 := rfl

theorem State.putRaw_same (s : State) (pa : Nat) (bs : List Byte) : SameBut s (s.putRaw pa bs) := rfl

theorem State.chunkWrite_same (s : State) (x : Nat × Nat × View) : SameBut s (s.chunkWrite x).1 := by
  unfold State.chunkWrite
  dsimp only
  split
  · rfl
  · split <;> rfl

theorem State.correct_same (s : State) (g : Nat) : SameBut s (s.correct g).1 := by
  unfold State.correct
  dsimp only
  split
  · rfl
  · split <;> rfl

theorem State.correctAll_same (gs : List Nat) (s : State) : SameBut s (State.correctAll gs s).1 := by
  unfold State.correctAll
  suffices ∀ (gs : List Nat) (x : State × List DevEvent), SameBut s x.1 →
      SameBut s (gs.foldl (fun (x : State × List DevEvent) g =>
        ((x.1.correct g).1, if (x.1.correct g).2 then x.2 ++ [(homeDie (64 * g), 2, stackOf (64 * g))] else x.2)) x).1 from
    this gs _ (.refl s)
  intro gs
  induction gs with
  | nil => exact fun _ h => h
  | cons g gs ih => exact fun x hx => ih _ (hx.trans (State.correct_same x.1 g))

theorem State.chunkCopied_same (s : State) (n k : Nat) : SameBut s (s.chunkCopied n k).1 := by
  have all (vs : SMap View) (gs : List Nat) : SameBut s (State.correctAll gs { s with views := vs }).1 :=
    (show SameBut s { s with views := vs } from rfl).trans (State.correctAll_same gs _)
  unfold State.chunkCopied
  split
  · rfl
  · split
    · dsimp only
      split
      · exact (all _ _).trans rfl
      · rfl
    · rfl

theorem State.preserve_same (s : State) (pa : Nat) : SameBut s (s.preserve pa).1 := by
  unfold State.preserve
  have gen : ∀ (xs : List (Nat × Nat × View)) (u : State) (l : List DevEvent), SameBut s u →
      SameBut s (xs.foldl (fun (s, ev) x =>
        let (s, l) := s.chunkWrite x
        let (s, m) := s.chunkCopied x.1 x.2.1
        (s, ev ++ l ++ m)) (u, l)).1 := by
    intro xs
    induction xs with
    | nil => intro u l h; exact h
    | cons x xs ih =>
      intro u l h
      exact ih _ _ ((h.trans (State.chunkWrite_same u x)).trans (State.chunkCopied_same _ _ _))
  exact gen _ s [] (.refl s)

theorem State.dropFar_same (s : State) (d : Nat) (ps : List (Nat × Nat)) : SameBut s (s.dropFar d ps) :=
  by unfold State.dropFar; refine SameBut.fold ?_ _ s; exact fun _ _ => rfl

theorem State.putOver_same (s : State) (d : Nat) (x : List DevEvent) (pa : Nat) (bs : List Byte) : SameBut s (s.putOver d x pa bs).1 :=
  ((State.preserve_same s pa).trans (State.putRaw_same _ pa bs)).trans (State.dropFar_same _ d _)

theorem State.homeTouch_same (s : State) (line : Nat) (sec : BitVec 4) (w : Bool) (po : Policy) :
    SameBut s (s.homeTouch line sec w po) := by
  unfold State.homeTouch
  dsimp only
  split <;> rfl

theorem State.fetchIn_same (s : State) (pa n : Nat) (b : Nat × Nat) (po : Policy) : SameBut s (s.fetchIn pa n b po).1 := by
  unfold State.fetchIn
  dsimp only
  split
  · exact SameBut.fold (fun s _ => State.homeTouch_same s _ _ _ _) _ s
  · exact (State.correctAll_same _ s).trans (SameBut.fold (fun s _ => State.homeTouch_same s _ _ _ _) _ _)

theorem State.walkReading_same (d : Nat) (as : List Nat) : ∀ s : State, SameBut s (State.walkReading d as s).1 := by
  induction as with
  | nil => exact fun s => .refl s
  | cons a as ih =>
    intro s
    unfold State.walkReading
    split
    · split
      · exact State.correctAll_same _ s
      · exact .refl s
    · exact (State.fetchIn_same s _ _ _ _).trans (ih _)

theorem State.hostError_same (s : State) (r : Ring) (bs : List Byte) : SameBut s (s.hostError r bs) := by
  unfold State.hostError
  split <;> rfl

theorem State.writeRecord_same (s : State) (r : Ring) (n : Nat) (type : BitVec 8) (die : Nat) (core slot : Option Nat)
    (body : List Byte) : SameBut s (s.writeRecord r n type die core slot body).1 := by
  have hw := State.walkReading_same die (s.walkReads r.ctx (s.ringNext r)) s
  unfold State.writeRecord
  dsimp only
  split
  · rfl
  split
  · exact State.putOver_same _ _ _ _ _
  split
  · exact hw.trans (State.putOver_same _ _ _ _ _)
  split
  · exact hw.trans (State.putOver_same _ _ _ _ _)
  · exact (((hw.trans (State.putOver_same _ _ _ _ _)).trans (State.putOver_same _ _ _ _ _)).trans (State.hostError_same _ _ _)).trans
      (State.putOver_same _ _ _ _ _)

theorem State.recordOnly_same (s : State) (r : Option Ring) (type : BitVec 8) (die : Nat) (core slot : Option Nat)
    (body : List Byte) : SameBut s (s.recordOnly r type die core slot body).1 := by
  cases r with
  | none => exact State.event_same s die
  | some r =>
    unfold State.recordOnly State.tryRecord
    dsimp only
    split
    · rfl
    · exact (State.event_same s die).trans (State.writeRecord_same _ _ _ _ _ _ _ _)

theorem State.postEventsN_same (fuel : Nat) : ∀ (s : State) (xs : List DevEvent), SameBut s (State.postEventsN fuel xs s) := by
  induction fuel with
  | zero => exact fun s _ => .refl s
  | succ n ih => exact fun s xs => match xs with
    | [] => .refl s
    | (d, _, _) :: _ => (State.recordOnly_same s (s.rootRing d) _ d none none _).trans (ih _ _)

theorem State.record_same (s : State) (r : Option Ring) (type : BitVec 8) (die : Nat) (core slot : Option Nat)
    (body : List Byte) : SameBut s (s.record r type die core slot body) :=
  (State.recordOnly_same s r type die core slot body).trans (State.postEventsN_same _ _ _)

theorem State.groupRecord_same (s : State) (type : BitVec 8) (c slot lane : Nat) (f : FaultRec) (code : Code) :
    SameBut s (s.groupRecord type c slot lane f code) := State.record_same _ _ _ _ _ _ _

theorem SameBut.core {s t : State} (a : SameBut s t) (c : Nat) : t.core c = s.core c := by
  unfold State.core
  rw [a.cores]

theorem SameBut.group {s t : State} (a : SameBut s t) (c n : Nat) : t.group c n = s.group c n := by
  unfold State.group
  rw [a.core]

theorem SameBut.trapAddr {s t : State} (a : SameBut s t) (g : Group) : t.trapAddr g = s.trapAddr g := by
  unfold State.trapAddr State.launch
  rw [a.launches]

end Sys2Proof.Machine
end

