-- ==== Sys2Proof/Laws/Access.lean ====
section
/-! SUPPORT. The checks of lanes' accesses and the entries that they make. -/

namespace Sys2Proof.Machine

/-- A state that differs from another in the queues of one group and in the next identifier only: an access of that group whose
translation its core holds is checked alike in both. -/
structure SameChecks (u v : State) (c n : Nat) : Prop where
  rest : v = { u with cores := v.cores, nextId := v.nextId }
  core : v.core c = { u.core c with groups := (v.core c).groups }
  watch : ∀ own lane k eng loc a m, v.watchGroup c n own lane k eng loc a m = u.watchGroup c n own lane k eng loc a m
  renew : ∀ g, u.renewing g = true → v.renewing g = true

variable {u v w : State} {c n : Nat}

theorem SameChecks.refl (u : State) : SameChecks u u c n := ⟨rfl, rfl, fun _ _ _ _ _ _ _ => rfl, fun _ => id⟩

theorem SameChecks.trans (A : SameChecks u v c n) (B : SameChecks v w c n) : SameChecks u w c n where
  rest := by rw [B.rest, A.rest]
  core := by rw [B.core, A.core]
  watch own lane k eng loc a m := by rw [B.watch, A.watch]
  renew g h := B.renew g (A.renew g h)

theorem SameChecks.laneWatch (S : SameChecks u v c n) (e : Env) (hc : e.core = c) (hn : e.slot = n) (l : Nat) (q : Ask) :
    v.laneWatch e l q = u.laneWatch e l q := by
  funext pa
  unfold State.laneWatch
  subst hc hn
  simp only [S.watch]
  rw [S.rest]
  rfl

/-- Entries that write no tag leave the tag of a granule as it was. -/
theorem ownTag_append (own xs : List StoreReq) (g : Nat) (t : BitVec 4) (h : ∀ q ∈ xs, ∀ a b, q.kind ≠ .tag a b) :
    ownTag (own ++ xs) g t = ownTag own g t := by
  unfold ownTag
  rw [List.foldl_append]
  generalize List.foldl _ t own = y
  induction xs generalizing y with
  | nil => rfl
  | cons q qs ih =>
    rw [List.foldl_cons, ih (fun p hp => h p (List.mem_cons_of_mem _ hp))]
    split
    · rename_i a b hk
      exact absurd hk (h q (List.mem_cons_self ..) a b)
    · rfl

/-- When the checks at a physical address pass: the rights hold, the tag matches or is not checked, no watch register is touched, and the
data are good or not read. -/
theorem State.checkAt_ok (s : State) (c ctx : Nat) (agent : Bool) (watch : Option (Nat × Nat)) (q : Ask) (pa : Nat) (pte : W64)
    (near : Option CLine) (x : Nat × W64) :
    (s.checkAt c ctx agent watch q pa pte near).1 = .ok x ↔ x = (pa, pte) ∧
      (!rightsOk q.va pte q.need agent || (agent && q.need.w && s.rootOnly pa q.bytes)) = false ∧
      (q.tagck && s.tagOn ctx pte && ((near.isSome || s.linked (q.die.getD (dieOf c)) (homeDie pa)) && !(q.later && s.renewing (pa / 64))) &&
        !s.tagMatch ctx (ptrTag q.va) (ownTag q.own (pa / 64) (tagOf (near.elim (s.metaAt pa) (·.metaAt pa))))) = false ∧
      watch = none ∧
      (q.ecc && ((near.isSome || s.linked (q.die.getD (dieOf c)) (homeDie pa)) && !(q.later && s.renewing (pa / 64))) && !(q.own.any fun r => r.renews (pa / 64)) &&
        near.elim (s.bad pa q.bytes) fun y => poisonOf (y.metaAt pa)) = false := by
  unfold State.checkAt
  cases near <;> cases watch <;> simp only [Option.elim] <;> (repeat' split) <;> simp_all <;> first | exact eq_comm | (intros; refine ⟨?_, ?_⟩ <;> simp_all)

/-- Checks that pass at a physical address change nothing. -/
theorem State.checkAt_same (s : State) (c ctx : Nat) (agent : Bool) (watch : Option (Nat × Nat)) (q : Ask) (pa : Nat) (pte : W64)
    (near : Option CLine) (x : Nat × W64) (h : (s.checkAt c ctx agent watch q pa pte near).1 = .ok x) :
    s.checkAt c ctx agent watch q pa pte near = (.ok x, s) := by
  revert h
  unfold State.checkAt
  cases near <;> cases watch <;> dsimp only <;> (repeat' split) <;> intro h <;> simp_all

/-- The checks at a physical address pass behind more entries of the group that write no tag, or where tags are not checked, if they pass
without them; and they read nothing of the queues. -/
theorem SameChecks.checkAt (S : SameChecks u v c n) (ctx : Nat) (agent : Bool) (watch : Option (Nat × Nat)) (q : Ask)
    (own xs : List StoreReq) (hx : q.tagck = false ∨ ∀ r ∈ xs, ∀ a b, r.kind ≠ .tag a b) (pa : Nat) (pte : W64) (near : Option CLine)
    (x : Nat × W64) (h : (u.checkAt c ctx agent watch { q with own := own } pa pte near).1 = .ok x) :
    v.checkAt c ctx agent watch { q with own := own ++ xs } pa pte near = (.ok x, v) := by
  obtain ⟨hpa, h1, h2, h3, h4⟩ := (State.checkAt_ok ..).1 h
  have later : (q.later && v.renewing (pa / 64)) = true ∨ (q.later && v.renewing (pa / 64)) = (q.later && u.renewing (pa / 64)) := by
    have hg := S.renew (pa / 64)
    cases q.later <;> cases hu : u.renewing (pa / 64) <;> cases hv : v.renewing (pa / 64) <;> simp_all
  refine State.checkAt_same _ _ _ _ _ _ _ _ _ _ ((State.checkAt_ok ..).2 ⟨hpa, ?_, ?_, h3, ?_⟩)
  · rw [S.rest]
    exact h1
  · dsimp only at h2 ⊢
    rcases later with later | later
    · simp [later]
    rw [later, S.rest]
    rcases hx with h0 | h0
    · simp [h0]
    · rw [show ownTag (own ++ xs) (pa / 64) = ownTag own (pa / 64) from funext fun y => ownTag_append own xs _ y h0]
      exact h2
  · dsimp only at h4 ⊢
    rcases later with later | later
    · simp [later]
    rw [later, S.rest, List.any_append]
    cases hr : own.any fun r => r.renews (pa / 64) with
    | true => simp
    | false =>
      simp only [hr] at h4
      cases hy : xs.any fun r => r.renews (pa / 64) with
      | true => simp
      | false => exact h4

/-- A check that passes, with the translation held by the core's caches, passes in the other state too. -/
theorem SameChecks.check (S : SameChecks u v c n) (e : Env) (hc : e.core = c) (hn : e.slot = n) (l : Nat) (q : Ask)
    (xs : List StoreReq) (hs : (v.group c n).sq = (u.group c n).sq ++ xs)
    (hx : q.tagck = false ∨ ∀ r ∈ xs, ∀ a b, r.kind ≠ .tag a b) (hl : ((u.core c).leaf e.g.ctx q.va).isSome = true) (ho : q.old = [])
    (x : Nat × W64) (h : (u.check e l q).1 = .ok x) : v.check e l q = (.ok x, v) := by
  unfold State.check at *
  rw [S.laneWatch e hc hn]
  subst hc hn
  obtain ⟨t, ht⟩ := Option.isSome_iff_exists.1 hl
  have hv : (v.core e.core).leaf e.g.ctx q.va = some t := by rw [S.core]; exact ht
  have held : ∀ s : State, (s.core e.core).leaf e.g.ctx q.va = some t →
      s.heldXlate e.core e.g.ctx q.old q.va = if canonical q.va then (.ok (t.pa q.va, t.pte), s) else (.error cXLATE, s) := by
    intro s hs
    cases hcan : canonical q.va <;> simp [State.heldXlate, State.coreXlate, ho, tlbFind, hcan, hs]
  have near : ∀ sc pa k pte, v.nearLine e.core sc pa k pte = u.nearLine e.core sc pa k pte := by
    intro sc pa k pte
    unfold State.nearLine
    rw [S.core, S.rest]
    rfl
  unfold State.checkAs at *
  dsimp only at *
  rw [held _ ht] at h
  rw [held _ hv]
  split at h
  · simp at h
  · rename_i ha
    rw [if_neg ha]
    cases hcan : canonical q.va with
    | false => simp [hcan] at h
    | true =>
      simp only [hcan, if_true] at h ⊢
      simp only [near]
      rw [hs]
      exact S.checkAt _ _ _ q _ xs hx _ _ _ x h

/-- A change of the group's queues and of the next identifier leaves its checks alone. -/
theorem SameChecks.queued (u : State) (c n m : Nat) (f : Group → Group) (hp : ∀ g, (f g).place = g.place)
    (hs : ∀ g, ∀ q ∈ g.sq, q ∈ (f g).sq) :
    SameChecks u { (u.modGroup c n f) with nextId := m } c n where
  rest := rfl
  core := by simp [State.modGroup, State.modCore, State.setCore, State.core]
  renew := by
    intro g h
    refine SMap.any_put _ _ _ _ (fun k hk hy => ?_) h
    rw [show u.core c = k by rw [State.core, SMap.get_eq_find, hk]; rfl]
    dsimp only at hy ⊢
    unfold SMap.modify
    split
    · rename_i x hx
      refine SMap.any_put _ _ _ _ (fun y hy' hq => ?_) hy
      rw [Option.some.inj (hx.symm.trans hy')]
      obtain ⟨q, hq, hg⟩ := List.any_eq_true.1 hq
      exact List.any_eq_true.2 ⟨q, hs _ q hq, hg⟩
    · exact hy
  watch := by
    intro own lane k eng loc a m'
    have h1 : ({ (u.modGroup c n f) with nextId := m } : State).core c = { u.core c with
        groups := (u.core c).groups.modify n f } := by
      simp [State.modGroup, State.modCore, State.setCore, State.core]
    have hpl : (State.group ({ (u.modGroup c n f) with nextId := m } : State) c n).place = (u.group c n).place := by
      unfold State.group
      rw [h1]
      simp only [SMap.find_modify_self]
      cases (u.core c).groups.find n with
      | none => rfl
      | some g => exact hp g
    have hf : ∀ (p : Nat × Group → Bool) (xs : SMap Group), (∀ x, x.1 = n → p x = false) →
        (xs.modify n f).filter p = xs.filter p := by
      intro p xs hx
      have hq : ∀ (y : Group) (xs : SMap Group), (xs.put n y).filter p = xs.filter p := by
        intro y xs
        induction xs with
        | nil => simp [SMap.put, hx]
        | cons z zs ih =>
          obtain ⟨k, z⟩ := z
          unfold SMap.put
          split
          · rename_i e; subst e; simp [hx]
          · split
            · simp [hx]
            · simp only [List.filter_cons, ih]
      unfold SMap.modify
      split
      · exact hq _ _
      · rfl
    unfold State.watchGroup State.watchTeam
    rw [hpl, h1]
    simp only
    rw [hf]
    intro x hx
    simp [hx]

/-- A lane whose translation is held does not wait for a walk. -/
theorem State.checkWaits_held (s : State) (e : Env) (q : Ask) (h : ((s.core e.core).leaf e.g.ctx q.va).isSome = true) :
    s.checkWaits e q = false := by
  obtain ⟨t, ht⟩ := Option.isSome_iff_exists.1 h
  simp [State.checkWaits, State.walkWaits, ht]

/-- A lane's access passes the checks of its issue, with its translation held by the core. -/
def Passes (u : State) (e : Env) (l : Nat) (q : Ask) (x : Nat × W64) : Prop :=
  ((u.core e.core).leaf e.g.ctx q.va).isSome = true ∧ q.old = [] ∧ (u.check e l { q with later := true }).1 = .ok x

/-- Entries put into a group, `put` appending them: what the lanes of an instruction do one after another is one change, under rising
identifiers. The entries that come to stand in the store queue write no tag, or the instruction's accesses check none. -/
theorem eachLane_puts {α : Type} (put : List α → Group → Group) (sq : α → List StoreReq) (mk : Nat → Nat → α)
    (nil : ∀ g, put [] g = g) (snoc : ∀ xs ys g, put ys (put xs g) = put (xs ++ ys) g) (place : ∀ xs g, (put xs g).place = g.place)
    (queue : ∀ xs g, (put xs g).sq = g.sq ++ xs.flatMap sq) (u : State) (e : Env) (ask : Nat → Ask) (pa : Nat → Nat × W64)
    (ls : List Nat) (hp : ∀ l ∈ ls, Passes u e l (ask l) (pa l))
    (tags : (∀ l ∈ ls, (ask l).tagck = false) ∨ ∀ i, ∀ l ∈ ls, ∀ r ∈ sq (mk i l), ∀ x y, r.kind ≠ .tag x y)
    (go : Nat → Nat → W64 → State → State)
    (hgo : ∀ l ∈ ls, ∀ s, go l (pa l).1 (pa l).2 s =
      { (s.modGroup e.core e.slot (put [mk s.nextId l])) with nextId := s.nextId + 1 }) :
    u.eachLane e ls ask go =
      ((({ (u.modGroup e.core e.slot (put (mapFrom (fun i l => mk i l) u.nextId ls))) with nextId := u.nextId + ls.length } : State).modGroup
        e.core e.slot fun g => g.merge u.nextId), ls) := by
  let free := fun (xs : List α) => (∀ l ∈ ls, (ask l).tagck = false) ∨ ∀ a ∈ xs, ∀ r ∈ sq a, ∀ x y, r.kind ≠ .tag x y
  have step : ∀ (v : State) (xs : List α) (ok : List Nat) (l : Nat), l ∈ ls → free xs → SameChecks u v e.core e.slot →
      (∃ ys, (v.group e.core e.slot).sq = (u.group e.core e.slot).sq ++ ys ∧ ∀ r ∈ ys, r ∈ xs.flatMap sq) →
      v.oneLane e ok l (ask l) (go l) =
        ({ (v.modGroup e.core e.slot (put [mk v.nextId l])) with nextId := v.nextId + 1 }, ok ++ [l]) := by
    intro v xs ok l hl hf S ⟨ys, hs, hy⟩
    obtain ⟨h1, h2, h3⟩ := hp l hl
    unfold State.oneLane
    dsimp only
    rw [State.checkWaits_held v e (ask l) (by rw [S.core]; exact h1), S.check e rfl rfl l { ask l with later := true } ys hs (hf.imp (fun h => h l hl)
      fun h r hr => by
        obtain ⟨a, hm, ha⟩ := List.mem_flatMap.1 (hy r hr)
        exact h a hm r ha) h1 h2 (pa l) h3]
    simp only [Bool.false_eq_true, if_false]
    rw [hgo l hl]
  have key : ∀ (as bs : List Nat) (xs : List α), (∀ l ∈ bs, l ∈ ls) → free xs →
      bs.foldl (fun (x : State × List Nat) l => x.1.oneLane e x.2 l (ask l) (go l))
        (({ (u.modGroup e.core e.slot (put xs)) with nextId := u.nextId + as.length } : State), as) =
      (({ (u.modGroup e.core e.slot (put (xs ++ mapFrom (fun i l => mk i l) (u.nextId + as.length) bs))) with
        nextId := u.nextId + (as ++ bs).length } : State), as ++ bs) := by
    intro as bs
    induction bs generalizing as with
    | nil => intro xs _ _; simp [mapFrom]
    | cons l bs ih =>
      intro xs hm hf
      rw [List.foldl_cons, step _ xs as l (hm l (List.mem_cons_self ..)) hf
        (SameChecks.queued u e.core e.slot (u.nextId + as.length) (put xs) (place xs)
          fun g q hq => by rw [queue]; exact List.mem_append_left _ hq) (by
          change ∃ ys, ((u.modGroup e.core e.slot (put xs)).group e.core e.slot).sq = _ ∧ _
          rw [State.group_modGroup]
          unfold State.group
          cases (u.core e.core).groups.find e.slot with
          | none => exact ⟨[], (List.append_nil _).symm, by simp⟩
          | some g => exact ⟨_, queue xs g, fun _ h => h⟩)]
      have h := ih (as ++ [l]) (xs ++ [mk (u.nextId + as.length) l]) (fun k hk => hm k (List.mem_cons_of_mem _ hk)) (by
        rcases tags with h | h
        · exact .inl h
        · rcases hf with h' | h'
          · exact .inl h'
          · refine .inr fun a ha => ?_
            rcases List.mem_append.1 ha with ha | ha
            · exact h' a ha
            · rw [List.mem_singleton.1 ha]
              exact h _ l (hm l (List.mem_cons_self ..)))
      simp only [List.append_assoc, List.singleton_append, List.length_append, List.length_singleton, ← Nat.add_assoc] at h
      rw [mapFrom, List.length_append, List.length_cons, ← Nat.add_assoc]
      refine Eq.trans (congrArg (fun x => List.foldl _ x bs) ?_) h
      have := State.modGroup_modGroup u e.core e.slot (put xs) (put [mk (u.nextId + as.length) l])
      rw [show put [mk (u.nextId + as.length) l] ∘ put xs = put (xs ++ [mk (u.nextId + as.length) l]) from funext fun g => snoc _ _ g]
        at this
      rw [← this]
      rfl
  unfold State.eachLane
  cases ls with
  | nil =>
    have := State.modGroup_modGroup u e.core e.slot (put []) fun g => g.merge u.nextId
    rw [show (fun g : Group => g.merge u.nextId) ∘ put [] = fun g => g.merge u.nextId from funext fun g => by simp [nil]] at this
    simp only [List.foldl_nil, mapFrom, List.length_nil, Nat.add_zero]
    rw [← this]
    rfl
  | cons l bs =>
    have h := key [l] bs [mk u.nextId l] (fun k hk => List.mem_cons_of_mem _ hk) (tags.imp id fun h a ha => by
      rw [List.mem_singleton.1 ha]
      exact h _ l (List.mem_cons_self ..))
    rw [List.foldl_cons, step u [] [] l (List.mem_cons_self ..) (.inr (by simp)) (SameChecks.refl u) ⟨[], by simp, by simp⟩]
    simp only [List.length_singleton, List.singleton_append] at h
    rw [show ([] : List Nat) ++ [l] = [l] from rfl, h]
    rfl

end Sys2Proof.Machine
end

