-- ==== Sys2Proof/Laws/Bits.lean ====
section
/-! SUPPORT. The bits of integers, fields and reversed values (R98, R125, R128), which the results of the bit operations cite. -/

namespace Sys2Proof.Machine

/-- Bit i of an integer in two's complement without end. -/
def ibit (z : Int) (i : Nat) : Bool := decide (z / 2 ^ i % 2 = 1)

theorem ibit_nat (n i : Nat) : ibit n i = n.testBit i := by
  unfold ibit
  rw [Nat.testBit_eq_decide_div_mod_eq]
  congr 1
  have : ((n : Int) / 2 ^ i % 2) = ((n / 2 ^ i % 2 : Nat) : Int) := by push_cast; rfl
  rw [this]
  exact propext ⟨fun h => by exact_mod_cast h, fun h => by exact_mod_cast h⟩

theorem ibit_div (z : Int) (p i : Nat) : ibit (z / 2 ^ p) i = ibit z (p + i) := by
  unfold ibit
  rw [Int.ediv_ediv_of_nonneg (by positivity), ← pow_add]

theorem ibit_mod (z : Int) (n i : Nat) : ibit (z % 2 ^ n) i = (decide (i < n) && ibit z i) := by
  unfold ibit
  by_cases h : i < n
  · have : z % 2 ^ n / 2 ^ i % 2 = z / 2 ^ i % 2 := by
      have e : (2 : Int) ^ n = 2 ^ i * 2 ^ (n - i) := by rw [← pow_add]; congr 1; omega
      have h2 : (2 : Int) ^ (n - i) = 2 * 2 ^ (n - i - 1) := by rw [← pow_succ']; congr 1; omega
      rw [Int.emod_def z, show z - 2 ^ n * (z / 2 ^ n) = z + 2 ^ i * (-(2 * 2 ^ (n - i - 1) * (z / 2 ^ n))) by rw [← h2]; rw [e]; ring,
        Int.add_mul_ediv_left _ _ (by positivity),
        show z / 2 ^ i + -(2 * 2 ^ (n - i - 1) * (z / 2 ^ n)) = z / 2 ^ i + 2 * (-(2 ^ (n - i - 1) * (z / 2 ^ n))) by ring,
        Int.add_mul_emod_self_left]
    simp [h, this]
  · have h1 : z % 2 ^ n / 2 ^ i = 0 := by
      apply Int.ediv_eq_zero_of_lt (Int.emod_nonneg _ (by positivity))
      exact lt_of_lt_of_le (Int.emod_lt_of_pos _ (by positivity)) (pow_le_pow_right₀ (by norm_num) (by omega))
    simp [h, h1]

theorem ofNat_bit (y i : Nat) (h : i < 64) : (BitVec.ofNat 64 y).getLsbD i = y.testBit i := by
  rw [BitVec.getLsbD_ofNat]; simp [h]

theorem narrow_bit (t : Ty) (z : Int) (i : Nat) (h : i < wBits t) : (narrow t false z).getLsbD i = ibit z i := by
  have hw : wBits t ≤ 64 := by unfold wBits; split <;> omega
  unfold narrow
  simp only [Bool.false_eq_true, if_false]
  rw [ofNat_bit _ _ (by omega), ← ibit_nat, Int.toNat_of_nonneg (Int.emod_nonneg _ (by positivity)), ibit_mod]
  simp [h]

theorem ibit_big (n i W : Nat) (h : n < 2 ^ W) (hi : W ≤ i) : n.testBit i = false :=
  Nat.testBit_lt_two_pow (lt_of_lt_of_le h (Nat.pow_le_pow_right (by norm_num) hi))

theorem val_bit (t : Ty) (x : W64) (j : Nat) (hx : x.toNat < 2 ^ wBits t) :
    ibit (valIn t x) j = if j < wBits t then x.getLsbD j else t.isSigned && x.getLsbD (wBits t - 1) := by
  have hg : ∀ k, x.getLsbD k = x.toNat.testBit k := fun k => rfl
  have key : ∀ W : Nat, 1 ≤ W → x.toNat < 2 ^ W → ∀ s : Bool,
      ibit (if s then (if 2 * x.toNat < 2 ^ W then (x.toNat : Int) else x.toNat - 2 ^ W) else x.toNat) j =
        if j < W then x.getLsbD j else s && x.getLsbD (W - 1) := by
    intro W hW hx s
    have hpow : 2 ^ W = 2 * 2 ^ (W - 1) := by rw [← pow_succ']; congr 1; omega
    have htop : x.getLsbD (W - 1) = decide (¬ 2 * x.toNat < 2 ^ W) := by
      rw [hg, Nat.testBit_eq_decide_div_mod_eq]
      have h2 : x.toNat / 2 ^ (W - 1) < 2 := by rw [Nat.div_lt_iff_lt_mul (by positivity)]; omega
      have h3 : 2 ^ (W - 1) ≤ x.toNat ↔ 1 ≤ x.toNat / 2 ^ (W - 1) := by rw [Nat.le_div_iff_mul_le (by positivity)]; simp
      have h4 := h3
      apply decide_eq_decide.2
      rw [Nat.mod_eq_of_lt h2]
      constructor
      · intro h; have := h4.2 (by omega); omega
      · intro h; have := h4.1 (by omega); omega
    have hmod : ∀ i, i < W → ibit ((x.toNat : Int) - 2 ^ W) i = x.getLsbD i := by
      intro i hi
      have := ibit_mod ((x.toNat : Int) - 2 ^ W) W i
      have h2 : ((x.toNat : Int) - 2 ^ W) % 2 ^ W = x.toNat := by
        rw [Int.sub_emod_right, Int.emod_eq_of_lt (by positivity) (by exact_mod_cast hx)]
      rw [h2, ibit_nat] at this
      simp [hi] at this
      rw [← this]; rfl
    have hhigh : ∀ i, W ≤ i → ¬ 2 * x.toNat < 2 ^ W → ibit ((x.toNat : Int) - 2 ^ W) i = true := by
      intro i hi _
      have : ((x.toNat : Int) - 2 ^ W) / 2 ^ i = -1 := by
        have hle : (2 : Int) ^ W ≤ 2 ^ i := pow_le_pow_right₀ (by norm_num) hi
        have hx' : (x.toNat : Int) < 2 ^ W := by exact_mod_cast hx
        have hp : (0 : Int) < 2 ^ i := by positivity
        have h0 : (0 : Int) ≤ x.toNat := by positivity
        apply le_antisymm
        · have := Int.ediv_lt_of_lt_mul hp (show (x.toNat : Int) - 2 ^ W < 0 * 2 ^ i by omega); omega
        · exact Int.le_ediv_of_mul_le hp (by omega)
      unfold ibit; rw [this]; decide
    by_cases hj : j < W
    · rw [if_pos hj]
      cases s
      · simp only [Bool.false_eq_true, if_false]; rw [ibit_nat]; rfl
      · simp only [if_true]
        split
        · rw [ibit_nat]; rfl
        · exact hmod j hj
    · rw [if_neg hj]
      cases s
      · simp only [Bool.false_eq_true, if_false, Bool.false_and]; rw [ibit_nat]; exact ibit_big _ _ W hx (by omega)
      · simp only [if_true, Bool.true_and]
        rw [htop]
        split
        · rename_i h; rw [ibit_nat, ibit_big _ _ W hx (by omega)]; simp [h]
        · rename_i h; rw [hhigh j (by omega) h]; simp [h]
  unfold wBits at hx ⊢
  unfold valIn
  cases h64 : t.is64
  · simp only [h64, Bool.false_eq_true, if_false] at hx ⊢
    have ht : (BitVec.truncate 32 x).toNat = x.toNat := by simp; omega
    rw [← key 32 (by norm_num) hx t.isSigned]
    congr 1
    cases t.isSigned <;> simp [BitVec.toInt, ht]
  · simp only [h64, if_true] at hx ⊢
    rw [← key 64 (by norm_num) hx t.isSigned]
    cases t.isSigned <;> simp [BitVec.toInt]

theorem wBits_eq (t : Ty) : wBits t = 32 ∨ wBits t = 64 := by unfold wBits; split <;> simp

theorem rev_bit (n x i : Nat) (h : i < n) (hx : x < 2 ^ n) : (revBits n x).testBit (n - 1 - i) = x.testBit i ∧ revBits n x < 2 ^ n := by
  induction n generalizing x i with
  | zero => omega
  | succ n ih =>
    have hx2 : x / 2 < 2 ^ n := by rw [pow_succ] at hx; omega
    unfold revBits
    have hlt : revBits n (x / 2) < 2 ^ n := by
      rcases Nat.eq_zero_or_pos n with h0 | h0
      · subst h0; simp [revBits]
      · exact (ih (x / 2) 0 h0 hx2).2
    have hm : x % 2 * 2 ^ n = 2 ^ n * (x % 2) := by ring
    constructor
    · rcases Nat.eq_zero_or_pos i with h0 | h0
      · subst h0
        rw [hm, Nat.testBit_two_pow_mul_add _ hlt]
        simp
      · rw [hm, Nat.testBit_two_pow_mul_add _ hlt]
        have h1 : n + 1 - 1 - i < n := by omega
        rw [if_pos h1]
        have := (ih (x / 2) (i - 1) (by omega) hx2).1
        have h2 : n - 1 - (i - 1) = n + 1 - 1 - i := by omega
        rw [h2] at this; rw [this, Nat.testBit_div_two]; congr 1; omega
    · have := Nat.mod_lt x (show 0 < 2 by norm_num)
      rw [pow_succ]
      rcases (show x % 2 = 0 ∨ x % 2 = 1 by omega) with h | h <;> rw [h] <;> omega

theorem pop_count (n x : Nat) : popBits n x = ((upto n).filter fun k => x.testBit k).length := by
  have gen : ∀ n lo x, popBits n (x / 2 ^ lo) = ((rangeFrom lo n).filter fun k => x.testBit k).length := by
    intro n
    induction n with
    | zero => intro lo x; rfl
    | succ n ih =>
      intro lo x
      unfold popBits rangeFrom
      rw [Nat.div_div_eq_div_mul, ← pow_succ, ih (lo + 1) x, List.filter_cons, Nat.testBit_eq_decide_div_mod_eq]
      rcases (show x / 2 ^ lo % 2 = 0 ∨ x / 2 ^ lo % 2 = 1 by omega) with h | h <;> simp [h]; omega
  have := gen n 0 x
  simpa [upto] using this

theorem rangeFrom_append (lo a b : Nat) : rangeFrom lo (a + b) = rangeFrom lo a ++ rangeFrom (lo + a) b := by
  induction a generalizing lo with
  | zero => simp [rangeFrom]
  | succ a ih => rw [show a + 1 + b = (a + b) + 1 by omega]; simp only [rangeFrom, List.cons_append, ih]; congr 3; omega

theorem bfi_mask_bit (W pos len i : Nat) (h : i < W) :
    (bfiMask W pos len).testBit i = decide (pos ≤ i ∧ i < pos + len) := by
  unfold bfiMask
  rw [Nat.testBit_mul_two_pow, Nat.testBit_div_two_pow, Nat.testBit_two_pow_sub_one]
  by_cases hp : pos ≤ i
  · simp [hp]; omega
  · simp [hp]

end Sys2Proof.Machine
end

