-- ==== Sys2Proof/Laws/Float.lean ====
section
/-! SUPPORT. Rounding, encoding and the exact values of floating-point arithmetic (R95, R99 to R105, R113, R132, R135): what decoding a
pattern of given fields gives, what a rounding mode chooses, and how sums, quotients and roots stand to every multiple of a quantum. -/

namespace Sys2Proof.Machine

/-- The formats of Table 7-1. -/
def formats : List Fmt := [fF32, fF16, fBF16, fF8A, fF8B, fF4]

/-- One past the greatest exponent field of a number. -/
def topOf (f : Fmt) : Nat := if f.ieee then 2 ^ f.eb - 1 else 2 ^ f.eb
/-- The pattern of a sign alone. -/
def signBit (f : Fmt) (neg : Bool) : Nat := if neg then 2 ^ (f.eb + f.fb) else 0

theorem decode_fields (f : Fmt) (neg : Bool) (E F : Nat) (hE : E < 2 ^ f.eb) (hF : F < 2 ^ f.fb) :
    f.decode (signBit f neg + (E * 2 ^ f.fb + F)) =
      if f.ieee && E == 2 ^ f.eb - 1 then (if F = 0 then .inf neg else .nan)
      else if f.nan8 && neg && E == 0 && F == 0 then .nan
      else if E = 0 then .fin (neg && f.ieee || neg && F != 0) F (1 - (f.bias : Int) - f.fb)
      else .fin neg (F + 2 ^ f.fb) ((E : Int) - f.bias - f.fb) := by
  have hp : 0 < 2 ^ f.fb := by positivity
  have hlow : E * 2 ^ f.fb + F < 2 ^ (f.eb + f.fb) := by
    rw [pow_add]; nlinarith
  have h3 : (signBit f neg + (E * 2 ^ f.fb + F)) % 2 ^ f.fb = F := by
    unfold signBit
    split
    · rw [pow_add, ← Nat.add_assoc, ← Nat.add_mul, Nat.add_comm, Nat.add_mul_mod_self_right, Nat.mod_eq_of_lt hF]
    · rw [Nat.zero_add, Nat.add_comm, Nat.add_mul_mod_self_right, Nat.mod_eq_of_lt hF]
  have h2 : (signBit f neg + (E * 2 ^ f.fb + F)) / 2 ^ f.fb % 2 ^ f.eb = E := by
    unfold signBit
    split
    · rw [pow_add, ← Nat.add_assoc, ← Nat.add_mul, Nat.add_comm, Nat.add_mul_div_right _ _ hp, Nat.div_eq_of_lt hF]
      simp [Nat.mod_eq_of_lt hE]
    · rw [Nat.zero_add, Nat.add_comm, Nat.add_mul_div_right _ _ hp, Nat.div_eq_of_lt hF]
      simp [Nat.mod_eq_of_lt hE]
  have h1 : (signBit f neg + (E * 2 ^ f.fb + F)) / 2 ^ (f.eb + f.fb) % 2 = if neg then 1 else 0 := by
    unfold signBit
    split
    · rw [Nat.add_comm, Nat.add_div_right _ (by positivity), Nat.div_eq_of_lt hlow]
    · rw [Nat.zero_add, Nat.div_eq_of_lt hlow]
  have h1' : ((signBit f neg + (E * 2 ^ f.fb + F)) / 2 ^ (f.eb + f.fb) % 2 == 1) = neg := by
    rw [h1]; cases neg <;> rfl
  unfold Fmt.decode
  simp only [h1', h2, h3]

/-- Facts of a format that the proofs use. -/
structure Fmt.Ok (f : Fmt) : Prop where
  eb : 2 ≤ f.eb
  fb : 1 ≤ f.fb
  excl : f.ieee = true → f.nan8 = false
  bias : f.bias < 2 ^ f.eb

theorem Fmt.ok_of_mem (f : Fmt) (h : f ∈ formats) : f.Ok := by
  simp only [formats, List.mem_cons, List.not_mem_nil, or_false] at h
  rcases h with rfl | rfl | rfl | rfl | rfl | rfl <;> exact ⟨by decide, by decide, by decide, by decide⟩

theorem Fmt.eb_pos {f : Fmt} (h : f.Ok) : 4 ≤ 2 ^ f.eb := by
  calc 4 = 2 ^ 2 := rfl
    _ ≤ 2 ^ f.eb := Nat.pow_le_pow_right (by norm_num) h.eb

theorem decode_sub {f : Fmt} (h : f.Ok) (neg : Bool) (F : Nat) (hF : F < 2 ^ f.fb) (h0 : F ≠ 0) :
    f.decode (signBit f neg + F) = .fin neg F (1 - (f.bias : Int) - f.fb) := by
  have e := Fmt.eb_pos h
  have := decode_fields f neg 0 F (by omega) hF
  rw [Nat.zero_mul, Nat.zero_add] at this
  rw [this]
  have : ((0 : Nat) == 2 ^ f.eb - 1) = false := by simp; omega
  have h1 : (F != 0) = true := by simpa using h0
  simp [this, h0, h1]
  exact fun a _ => a

theorem decode_norm {f : Fmt} (h : f.Ok) (neg : Bool) (E F : Nat) (hF : F < 2 ^ f.fb) (h0 : E ≠ 0) (hE : E < topOf f) :
    f.decode (signBit f neg + (E * 2 ^ f.fb + F)) = .fin neg (F + 2 ^ f.fb) ((E : Int) - f.bias - f.fb) := by
  have e := Fmt.eb_pos h
  have hE' : E < 2 ^ f.eb := by unfold topOf at hE; split at hE <;> omega
  rw [decode_fields f neg E F hE' hF]
  have : (f.ieee && E == 2 ^ f.eb - 1) = false := by
    unfold topOf at hE; cases hi : f.ieee <;> simp [hi] at hE ⊢; omega
  simp [this, h0]

theorem decode_zero {f : Fmt} (h : f.Ok) (neg : Bool) :
    f.decode (f.zeroBits neg) = .fin (neg && f.ieee) 0 (1 - (f.bias : Int) - f.fb) := by
  have e := Fmt.eb_pos h
  have hz : f.zeroBits neg = signBit f (neg && f.ieee) + (0 * 2 ^ f.fb + 0) := by simp [Fmt.zeroBits, signBit]
  rw [hz, decode_fields f _ 0 0 (by omega) (by positivity)]
  have : ((0 : Nat) == 2 ^ f.eb - 1) = false := by simp; omega
  have := h.excl
  cases neg <;> cases hi : f.ieee <;> simp_all

theorem decode_max {f : Fmt} (h : f.Ok) :
    f.decode (f.maxBits false) = .fin false (2 ^ (f.fb + 1) - 1) ((topOf f : Int) - 1 - f.bias - f.fb) := by
  have e := Fmt.eb_pos h
  have hp : 2 ≤ 2 ^ f.fb := by
    calc 2 = 2 ^ 1 := rfl
      _ ≤ 2 ^ f.fb := Nat.pow_le_pow_right (by norm_num) h.fb
  have ht : topOf f ≤ 2 ^ f.eb ∧ 3 ≤ topOf f := by unfold topOf; split <;> omega
  have hm : f.maxBits false = signBit f false + ((topOf f - 1) * 2 ^ f.fb + (2 ^ f.fb - 1)) := by
    unfold Fmt.maxBits signBit topOf
    cases hi : f.ieee
    · simp [pow_add]
      have : (2 ^ f.eb - 1) * 2 ^ f.fb = 2 ^ f.eb * 2 ^ f.fb - 2 ^ f.fb := by rw [Nat.sub_mul, one_mul]
      rw [this]
      have : 2 ^ f.fb ≤ 2 ^ f.eb * 2 ^ f.fb := Nat.le_mul_of_pos_left _ (by positivity)
      omega
    · simp
      have : (2 ^ f.eb - 1 - 1) * 2 ^ f.fb = (2 ^ f.eb - 1) * 2 ^ f.fb - 2 ^ f.fb := by rw [Nat.sub_mul, one_mul]
      rw [this]
      have : 2 ^ f.fb ≤ (2 ^ f.eb - 1) * 2 ^ f.fb := Nat.le_mul_of_pos_left _ (by omega)
      omega
  rw [hm, decode_norm h false _ _ (by omega) (by omega) (by omega)]
  congr 1
  · rw [pow_succ]; omega
  · omega

theorem roundAt_modes (r : Rnd) (neg : Bool) (m : Nat) (e q : Int) :
    let c := min e q
    let x := m * 2 ^ (e - c).toNat
    let step := 2 ^ (q - c).toNat
    let t := roundAt r neg m e q
    let y := t * step
    (r = .rtz ∨ (r = .rup ∧ neg = true) ∨ (r = .rdn ∧ neg = false) → y ≤ x ∧ x < y + step) ∧
    ((r = .rup ∧ neg = false) ∨ (r = .rdn ∧ neg = true) → x ≤ y ∧ y < x + step) ∧
    (r = .rne → 2 * x ≤ 2 * y + step ∧ 2 * y ≤ 2 * x + step ∧
      (2 * x = 2 * y + step ∨ 2 * y = 2 * x + step → t % 2 = 0)) := by
  intro c x step t y
  by_cases h : q ≤ e
  · have hc : c = q := min_eq_right h
    have hs : step = 1 := by simp [step, hc]
    have ht : t = x := by simp [t, x, roundAt, h, hc]
    have hy : y = x := by simp [y, ht, hs]
    rw [hy, hs]
    refine ⟨fun _ => by omega, fun _ => by omega, fun _ => by omega⟩
  · have hc : c = e := min_eq_left (by omega)
    have hx : x = m := by simp [x, hc]
    have hs : step = 2 ^ (q - e).toNat := by simp [step, hc]
    have hp : 0 < step := by rw [hs]; positivity
    have hm := Nat.div_add_mod m step
    have hr := Nat.mod_lt m hp
    have ht : t = (if (match r with
      | .rne => decide (step < 2 * (m % step)) || (2 * (m % step) == step && m / step % 2 == 1)
      | .rtz => false
      | .rup => !neg && m % step != 0
      | .rdn => neg && m % step != 0) = true then m / step + 1 else m / step) := by
      simp only [t, roundAt, if_neg h, hs]; all_goals cases r <;> rfl
    have hy : y = t * step := rfl
    have h1 : (m / step + 1) * step = step * (m / step) + step := by ring
    have h2 : (m / step) * step = step * (m / step) := by ring
    rw [hx]
    refine ⟨?_, ?_, ?_⟩
    · intro hr'
      rcases hr' with hr' | ⟨hr', hn⟩ | ⟨hr', hn⟩ <;> subst hr' <;> simp_all <;> omega
    · intro hr'
      rcases hr' with ⟨hr', hn⟩ | ⟨hr', hn⟩ <;> subst hr' <;> subst hn <;> simp at ht <;> split at ht <;>
        (rw [hy, ht]; simp only [h1, h2]; omega)
    · intro hr'
      subst hr'
      simp at ht
      split at ht <;> (rw [hy, ht]; simp only [h1, h2]; omega)

/-- The rational m · 2^e. -/
def mag (m : Nat) (e : Int) : ℚ := m * 2 ^ e

theorem mag_scaled (m : Nat) (e c : Int) (h : c ≤ e) : ((scaled false m e c : Int) : ℚ) = mag m e * 2 ^ (-c) := by
  unfold scaled mag
  simp only [Bool.false_eq_true, if_false]
  push_cast
  rw [mul_assoc, ← zpow_add₀ (by norm_num), ← zpow_natCast]
  congr 2
  have := Int.toNat_of_nonneg (show 0 ≤ e - c by omega)
  omega

theorem diff_cast (a b : Nat) (e g : Int) :
    (((FVal.fin false a e).diff (.fin false b g) : Int) : ℚ) = (mag a e - mag b g) * 2 ^ (-(min e g)) := by
  unfold FVal.diff
  push_cast
  rw [mag_scaled _ _ _ (min_le_left e g), mag_scaled _ _ _ (min_le_right e g), sub_mul]

theorem diff_neg_iff (a b : Nat) (e g : Int) : (FVal.fin false a e).diff (.fin false b g) < 0 ↔ mag a e < mag b g := by
  rw [← Int.cast_lt (R := ℚ), diff_cast]
  have : (0 : ℚ) < 2 ^ (-(min e g)) := by positivity
  constructor
  · intro h; by_contra h'; rw [not_lt] at h'; have := mul_nonneg (sub_nonneg.2 h') this.le; push_cast at h; linarith
  · intro h; push_cast; exact mul_neg_of_neg_of_pos (sub_neg.2 h) this

theorem diff_pos_iff (a b : Nat) (e g : Int) : 0 < (FVal.fin false a e).diff (.fin false b g) ↔ mag b g < mag a e := by
  rw [← Int.cast_lt (R := ℚ), diff_cast]
  have : (0 : ℚ) < 2 ^ (-(min e g)) := by positivity
  constructor
  · intro h; by_contra h'; rw [not_lt] at h'; have := mul_nonneg (sub_nonneg.2 h') this.le; push_cast at h; linarith
  · intro h; push_cast; exact mul_pos (sub_pos.2 h) this

theorem mag_split (m : Nat) (e c : Int) (h : c ≤ e) : mag m e = ((m * 2 ^ (e - c).toNat : Nat) : ℚ) * 2 ^ c := by
  unfold mag
  push_cast
  rw [mul_assoc, ← zpow_natCast, ← zpow_add₀ (by norm_num)]
  congr 2
  have := Int.toNat_of_nonneg (show 0 ≤ e - c by omega)
  omega

/-- A rounded magnitude lies less than one quantum from the exact one. -/
theorem roundAt_near (r : Rnd) (neg : Bool) (m : Nat) (e q : Int) :
    mag (roundAt r neg m e q) q < mag m e + 2 ^ q ∧ mag m e < mag (roundAt r neg m e q) q + 2 ^ q := by
  obtain ⟨h1, h2, h3⟩ := roundAt_modes r neg m e q
  set c := min e q
  have hs : (2 : ℚ) ^ q = ((1 * 2 ^ (q - c).toNat : Nat) : ℚ) * 2 ^ c := by
    rw [← mag_split 1 q c (min_le_right e q)]; simp [mag]
  rw [mag_split m e c (min_le_left e q), mag_split (roundAt r neg m e q) q c (min_le_right e q), hs, ← add_mul, ← add_mul]
  have hp : (0 : ℚ) < 2 ^ c := by positivity
  rw [mul_lt_mul_iff_left₀ hp, mul_lt_mul_iff_left₀ hp]
  have hpos : 0 < 2 ^ (q - c).toNat := by positivity
  have : roundAt r neg m e q * 2 ^ (q - c).toNat < m * 2 ^ (e - c).toNat + 1 * 2 ^ (q - c).toNat ∧
      m * 2 ^ (e - c).toNat < roundAt r neg m e q * 2 ^ (q - c).toNat + 1 * 2 ^ (q - c).toNat := by
    cases r
    · have := h3 rfl; omega
    · have := h1 (.inl rfl); omega
    · cases neg
      · have := h2 (.inl ⟨rfl, rfl⟩); omega
      · have := h1 (.inr (.inl ⟨rfl, rfl⟩)); omega
    · cases neg
      · have := h1 (.inr (.inr ⟨rfl, rfl⟩)); omega
      · have := h2 (.inr ⟨rfl, rfl⟩); omega
  exact_mod_cast this

theorem mag_le_of (t k : Nat) (q : Int) (x : ℚ) (h : mag t q < x + 2 ^ q) (hx : x ≤ mag k q) : t ≤ k := by
  have hp : (0 : ℚ) < 2 ^ q := by positivity
  have : mag t q < mag (k + 1) q := by
    calc mag t q < x + 2 ^ q := h
      _ ≤ mag k q + 2 ^ q := by linarith
      _ = mag (k + 1) q := by unfold mag; push_cast; ring
  unfold mag at this
  rw [mul_lt_mul_iff_left₀ hp] at this
  have : t < k + 1 := by exact_mod_cast this
  omega

theorem le_mag_of (t k : Nat) (q : Int) (x : ℚ) (h : x < mag t q + 2 ^ q) (hx : mag k q ≤ x) : k ≤ t := by
  have hp : (0 : ℚ) < 2 ^ q := by positivity
  have : mag k q < mag (t + 1) q := by
    calc mag k q ≤ x := hx
      _ < mag t q + 2 ^ q := h
      _ = mag (t + 1) q := by unfold mag; push_cast; ring
  unfold mag at this
  rw [mul_lt_mul_iff_left₀ hp] at this
  have : k < t + 1 := by exact_mod_cast this
  omega

theorem mag_pow (a : Nat) (q : Int) : mag (2 ^ a) q = 2 ^ (q + a) := by
  unfold mag; push_cast; rw [← zpow_natCast, ← zpow_add₀ (by norm_num)]; congr 1; omega

/-- What the quantum of a magnitude is. -/
theorem quantum_spec (f : Fmt) (m : Nat) (e : Int) (hm : m ≠ 0) :
    mag m e < 2 ^ (f.quantum m e + f.fb + 1) ∧ 1 - (f.bias : Int) - f.fb ≤ f.quantum m e ∧
    (f.quantum m e = 1 - (f.bias : Int) - f.fb ∨ 2 ^ (f.quantum m e + f.fb) ≤ mag m e) := by
  have hlo : 2 ^ Nat.log2 m ≤ m := Nat.log2_self_le hm
  have hhi : m < 2 ^ (Nat.log2 m + 1) := Nat.lt_log2_self
  have h1 : mag m e < mag (2 ^ (Nat.log2 m + 1)) e := by
    unfold mag; rw [mul_lt_mul_iff_left₀ (by positivity)]; exact_mod_cast hhi
  have h2 : mag (2 ^ Nat.log2 m) e ≤ mag m e := by
    unfold mag; rw [mul_le_mul_iff_left₀ (by positivity)]; exact_mod_cast hlo
  rw [mag_pow] at h1 h2
  refine ⟨lt_of_lt_of_le h1 ?_, le_max_right _ _, ?_⟩
  · apply zpow_le_zpow_right₀ (by norm_num)
    have := le_max_left (e + (Nat.log2 m + 1 : Nat) - (f.fb + 1 : Nat)) (1 - (f.bias : Int) - f.fb)
    unfold Fmt.quantum; push_cast at this ⊢; omega
  · by_cases h : e + (Nat.log2 m + 1 : Nat) - (f.fb + 1 : Nat) ≤ 1 - (f.bias : Int) - f.fb
    · left; exact max_eq_right h
    · right
      refine le_trans (le_of_eq ?_) h2
      congr 1
      unfold Fmt.quantum
      rw [max_eq_left (by omega)]
      push_cast; omega

theorem diff_zero (s : Bool) (a b : Nat) (e g : Int) (h : mag a e = mag b g) :
    (FVal.fin s a e).diff (.fin s b g) = 0 := by
  have h0 : (FVal.fin false a e).diff (.fin false b g) = 0 := by
    have := diff_cast a b e g
    rw [h, sub_self, zero_mul] at this
    exact_mod_cast this
  cases s
  · exact h0
  · unfold FVal.diff scaled at *
    simp only [Bool.false_eq_true, if_false, if_true] at *
    omega

/-- A carry out of the fraction moves into the exponent. -/
theorem carry_spec (f : Fmt) (t : Nat) (q : Int) (h : t ≤ 2 ^ (f.fb + 1)) :
    let p := if 2 ^ (f.fb + 1) ≤ t then (t / 2, q + 1) else (t, q)
    p.1 < 2 ^ (f.fb + 1) ∧ mag p.1 p.2 = mag t q ∧ q ≤ p.2 ∧ (p.1 < 2 ^ f.fb → p = (t, q)) := by
  intro p
  have h2 : 2 ^ (f.fb + 1) = 2 * 2 ^ f.fb := by rw [pow_succ]; ring
  have hp : 0 < 2 ^ f.fb := by positivity
  by_cases c : 2 ^ (f.fb + 1) ≤ t
  · have hp' : p = (t / 2, q + 1) := if_pos c
    have e : t = 2 * 2 ^ f.fb := by omega
    have ht : t / 2 = 2 ^ f.fb := by omega
    rw [hp', ht]
    refine ⟨by omega, ?_, by show q ≤ q + 1; omega, fun h => by simp at h⟩
    rw [e]
    unfold mag
    push_cast
    rw [zpow_add₀ (by norm_num)]
    ring
  · have hp' : p = (t, q) := if_neg c
    rw [hp']
    exact ⟨by show t < _; omega, rfl, le_refl _, fun _ => rfl⟩

/-- The rounding of a nonzero magnitude to a format (R99, R101, R103, R104). -/
theorem encode_fin {f : Fmt} (ok : f.Ok) (r : Rnd) (nof neg : Bool) (m : Nat) (e : Int) (hm : m ≠ 0) :
    let q := f.quantum m e
    let t := roundAt r neg m e q
    let x := f.encode r nof (.fin neg m e)
    let big := 0 < (FVal.fin false t q).diff (f.decode (f.maxBits false))
    (¬big → (f.decode x).diff (.fin neg t q) = 0 ∧ (f.decode x).isNeg = (neg && (f.ieee || t != 0)) ∧ f.decode x ≠ .nan) ∧
    (big → x = f.overflow r nof neg) := by
  intro q t x big
  obtain ⟨q1, q2, q3⟩ := quantum_spec f m e hm
  obtain ⟨n1, n2⟩ := roundAt_near r neg m e q
  have hfb : (2 : ℚ) ^ (q + f.fb + 1) = mag (2 ^ (f.fb + 1)) q := by rw [mag_pow]; congr 1; push_cast; omega
  have ht : t ≤ 2 ^ (f.fb + 1) := mag_le_of t _ q _ n1 (hfb ▸ q1.le)
  obtain ⟨c1, c2, c3, c4⟩ := carry_spec f t q ht
  have hbig : big ↔ mag (2 ^ (f.fb + 1) - 1) ((topOf f : Int) - 1 - f.bias - f.fb) < mag t q := by
    show 0 < FVal.diff _ _ ↔ _
    rw [decode_max ok, diff_pos_iff]
  have e4 := Fmt.eb_pos ok
  have htop : topOf f ≤ 2 ^ f.eb ∧ 3 ≤ topOf f := by unfold topOf; split <;> omega
  have hp : 0 < 2 ^ f.fb := by positivity
  have h2 : 2 ^ (f.fb + 1) = 2 * 2 ^ f.fb := by rw [pow_succ]; ring
  set p := (if 2 ^ (f.fb + 1) ≤ t then (t / 2, q + 1) else (t, q)) with hpdef
  have hx : x = match f.roundMag r neg m e with
      | none => f.overflow r nof neg
      | some t => if t = 0 then f.zeroBits neg else signBit f neg + t := by
    show (if m = 0 then _ else _) = _
    rw [if_neg hm]; rfl
  have hround : f.roundMag r neg m e = if p.1 < 2 ^ f.fb then some p.1 else
      if topOf f ≤ (p.2 + f.fb + f.bias).toNat then none
      else some ((p.2 + f.fb + f.bias).toNat * 2 ^ f.fb + (p.1 - 2 ^ f.fb)) := rfl
  by_cases hs : p.1 < 2 ^ f.fb
  · -- subnormal or zero
    have hpt := c4 hs
    have pt : p.1 = t := by rw [hpt]
    have pq : p.2 = q := by rw [hpt]
    rw [if_pos hs, pt] at hround
    rw [hround] at hx
    simp only at hx
    have hq : q = 1 - (f.bias : Int) - f.fb := by
      rcases q3 with h | h
      · exact h
      · exfalso
        have : mag (2 ^ f.fb) q ≤ mag m e := by rw [mag_pow]; exact h
        have := le_mag_of t _ q _ n2 this
        omega
    have hnb : ¬big := by
      rw [hbig, not_lt]
      have h1 : mag t q ≤ mag (2 ^ (f.fb + 1) - 1) q := by
        unfold mag; rw [mul_le_mul_iff_left₀ (by positivity)]; exact_mod_cast (by omega : t ≤ 2 ^ (f.fb + 1) - 1)
      refine le_trans h1 ?_
      unfold mag
      apply mul_le_mul_of_nonneg_left _ (by positivity)
      apply zpow_le_zpow_right₀ (by norm_num)
      omega
    refine ⟨fun _ => ?_, fun h => absurd h hnb⟩
    by_cases h0 : t = 0
    · rw [if_pos h0] at hx
      rw [hx, decode_zero ok, h0]
      refine ⟨?_, ?_, by simp⟩
      · simp [FVal.diff, scaled]
      · simp [FVal.isNeg]
    · rw [if_neg h0] at hx
      rw [hx, decode_sub ok neg t (by omega) h0, hq]
      refine ⟨diff_zero _ _ _ _ _ rfl, ?_, by simp⟩
      simp [FVal.isNeg, h0]
  · rw [if_neg hs] at hround
    have hq1 : 1 ≤ p.2 + f.fb + f.bias := by omega
    set ex := (p.2 + f.fb + f.bias).toNat with hex
    have hexq : (ex : Int) = p.2 + f.fb + f.bias := Int.toNat_of_nonneg (by omega)
    by_cases ho : topOf f ≤ ex
    · rw [if_pos ho] at hround
      rw [hround] at hx
      have hb : big := by
        rw [hbig, ← c2]
        have h1 : mag (2 ^ f.fb) p.2 ≤ mag p.1 p.2 := by
          unfold mag; rw [mul_le_mul_iff_left₀ (by positivity)]; exact_mod_cast (by omega : 2 ^ f.fb ≤ p.1)
        refine lt_of_lt_of_le ?_ h1
        have h3 : mag (2 ^ (f.fb + 1) - 1) ((topOf f : Int) - 1 - f.bias - f.fb) <
            mag (2 ^ (f.fb + 1)) ((topOf f : Int) - 1 - f.bias - f.fb) := by
          unfold mag; rw [mul_lt_mul_iff_left₀ (by positivity)]; exact_mod_cast (by omega : 2 ^ (f.fb + 1) - 1 < 2 ^ (f.fb + 1))
        refine lt_of_lt_of_le h3 ?_
        rw [mag_pow, mag_pow]
        apply zpow_le_zpow_right₀ (by norm_num)
        push_cast; omega
      exact ⟨fun h => absurd hb h, fun _ => hx⟩
    · rw [if_neg ho] at hround
      rw [hround] at hx
      simp only at hx
      have hz : ex * 2 ^ f.fb + (p.1 - 2 ^ f.fb) ≠ 0 := by
        have : 1 ≤ ex := by omega
        have : 0 < ex * 2 ^ f.fb := by positivity
        omega
      rw [if_neg hz] at hx
      have hnb : ¬big := by
        rw [hbig, not_lt, ← c2]
        have h1 : mag p.1 p.2 ≤ mag (2 ^ (f.fb + 1) - 1) p.2 := by
          unfold mag; rw [mul_le_mul_iff_left₀ (by positivity)]; exact_mod_cast (by omega : p.1 ≤ 2 ^ (f.fb + 1) - 1)
        refine le_trans h1 ?_
        unfold mag
        apply mul_le_mul_of_nonneg_left _ (by positivity)
        apply zpow_le_zpow_right₀ (by norm_num)
        omega
      refine ⟨fun _ => ?_, fun h => absurd h hnb⟩
      rw [hx, decode_norm ok neg ex _ (by omega) (by omega) (by omega)]
      have hp1 : p.1 - 2 ^ f.fb + 2 ^ f.fb = p.1 := by omega
      have hp2 : (ex : Int) - f.bias - f.fb = p.2 := by omega
      rw [hp1, hp2]
      refine ⟨diff_zero _ _ _ _ _ c2, ?_, by simp⟩
      have : t ≠ 0 := by
        intro h0
        have hp0 : p = (t, q) := if_neg (by omega)
        have : p.1 = 0 := by rw [hp0]; exact h0
        omega
      simp [FVal.isNeg, this]

theorem add_fin (r : Rnd) (na nb : Bool) (ma mb : Nat) (ea eb : Int) :
    ∃ n m e, (FVal.fin na ma ea).add r (.fin nb mb eb) = .fin n m e ∧
      (∀ c, c ≤ ea → c ≤ eb → scaled n m e c = scaled na ma ea c + scaled nb mb eb c) ∧
      (m = 0 → n = if na = nb then na else r == .rdn) := by
  have key : ∀ (s : Bool) (m : Nat) (e c d : Int), d ≤ c → c ≤ e → scaled s m e d = scaled s m e c * 2 ^ (c - d).toNat := by
    intro s m e c d h1 h2
    have : (e - d).toNat = (e - c).toNat + (c - d).toNat := by omega
    unfold scaled
    rw [this, pow_add]
    cases s <;> simp <;> ring
  show ∃ n m e, ofScaled _ _ _ = _ ∧ _
  set k := min ea eb
  have hs : ∀ c, c ≤ ea → c ≤ eb →
      scaled na ma ea c + scaled nb mb eb c = (scaled na ma ea k + scaled nb mb eb k) * 2 ^ (k - c).toNat := by
    intro c h1 h2
    rw [key na ma ea k c (le_min h1 h2) (min_le_left _ _), key nb mb eb k c (le_min h1 h2) (min_le_right _ _)]
    ring
  by_cases h : scaled na ma ea k + scaled nb mb eb k = 0
  · refine ⟨_, 0, 0, by rw [ofScaled, if_pos h], fun c h1 h2 => ?_, fun _ => rfl⟩
    rw [hs c h1 h2, h]; simp [scaled]
  · refine ⟨_, _, k, by rw [ofScaled, if_neg h], fun c h1 h2 => ?_, fun h0 => absurd (Int.natAbs_eq_zero.1 h0) h⟩
    rw [hs c h1 h2]
    generalize scaled na ma ea k + scaled nb mb eb k = x at h
    unfold scaled
    by_cases hx : x < 0
    · have : ((x.natAbs : Nat) : Int) = -x := by omega
      simp [hx, this]; 
    · have : ((x.natAbs : Nat) : Int) = x := by omega
      simp [hx, this]

/-- A value with one bit below a floor stands in the same order as the exact value to every multiple of two. -/
theorem sticky_order (x n i : Nat) (hn : 0 < n) :
    (2 * (x / n) + (if (x % n != 0) = true then 1 else 0) < 2 * i ↔ x < n * i) ∧
    (2 * i < 2 * (x / n) + (if (x % n != 0) = true then 1 else 0) ↔ n * i < x) := by
  have h := Nat.div_add_mod x n
  have hr := Nat.mod_lt x hn
  set d := x / n
  set m := x % n
  have mono : ∀ a b : Nat, a < b → n * a + n ≤ n * b := fun a b h => by
    calc n * a + n = n * (a + 1) := by ring
      _ ≤ n * b := Nat.mul_le_mul_left _ h
  by_cases hm : m = 0
  · simp [hm]
    constructor
    · constructor
      · intro h1; have := mono d i (by omega); omega
      · intro h1; by_contra h2
        have : n * i ≤ n * d := Nat.mul_le_mul_left _ (by omega); omega
    · constructor
      · intro h1; have := mono i d (by omega); omega
      · intro h1; by_contra h2
        have : n * d ≤ n * i := Nat.mul_le_mul_left _ (by omega); omega
  · simp [hm]
    constructor
    · constructor
      · intro h1; have := mono d i (by omega); omega
      · intro h1; by_contra h2
        have : n * i ≤ n * d := Nat.mul_le_mul_left _ (by omega); omega
    · constructor
      · intro h1
        have : n * i ≤ n * d := Nat.mul_le_mul_left _ (by omega); omega
      · intro h1; by_contra h2
        have := mono d i (by omega); omega

theorem div_fin (na nb : Bool) (ma mb : Nat) (ea eb : Int) (ha : ma ≠ 0) (hb : mb ≠ 0) :
    ∃ (t k : Nat), (FVal.fin na ma ea).div (.fin nb mb eb) = .fin (na != nb) t (ea - eb - k - 1) ∧ 2 ^ 63 ≤ t ∧
      ∀ i : Nat, (t < 2 * i ↔ ma * 2 ^ k < mb * i) ∧ (2 * i < t ↔ mb * i < ma * 2 ^ k) := by
  refine ⟨2 * (ma * 2 ^ (64 + Nat.log2 mb) / mb) + (if (ma * 2 ^ (64 + Nat.log2 mb) % mb != 0) = true then 1 else 0),
    64 + Nat.log2 mb, ?_, ?_, fun i => sticky_order _ mb i (by omega)⟩
  · simp [FVal.div, ha, hb, sticky]
  · have h1 : mb < 2 ^ (Nat.log2 mb + 1) := Nat.lt_log2_self
    have : 2 ^ 63 ≤ ma * 2 ^ (64 + Nat.log2 mb) / mb := by
      rw [Nat.le_div_iff_mul_le (by omega)]
      calc 2 ^ 63 * mb ≤ 2 ^ 63 * 2 ^ (Nat.log2 mb + 1) := Nat.mul_le_mul_left _ h1.le
        _ = 1 * 2 ^ (64 + Nat.log2 mb) := by rw [one_mul, ← pow_add]; congr 1; omega
        _ ≤ ma * 2 ^ (64 + Nat.log2 mb) := Nat.mul_le_mul_right _ (by omega)
    split <;> omega

theorem isqrtFrom_spec (x n acc : Nat) (h1 : acc * acc ≤ x) (h2 : x < (acc + 2 ^ n) * (acc + 2 ^ n)) :
    isqrtFrom x n acc * isqrtFrom x n acc ≤ x ∧ x < (isqrtFrom x n acc + 1) * (isqrtFrom x n acc + 1) := by
  induction n generalizing acc with
  | zero => exact ⟨h1, by simpa [isqrtFrom] using h2⟩
  | succ n ih =>
    unfold isqrtFrom
    split
    · rename_i h
      refine ih _ h ?_
      have : acc + 2 ^ n + 2 ^ n = acc + 2 ^ (n + 1) := by rw [pow_succ]; ring
      rw [this]; exact h2
    · rename_i h
      exact ih _ h1 (by omega)

theorem isqrt_spec (x : Nat) : isqrt x * isqrt x ≤ x ∧ x < (isqrt x + 1) * (isqrt x + 1) := by
  refine isqrtFrom_spec x _ 0 (by simp) ?_
  rw [Nat.zero_add]
  by_cases hx : x = 0
  · subst hx; positivity
  · calc x < 2 ^ (Nat.log2 x + 1) := Nat.lt_log2_self
      _ ≤ 2 ^ (Nat.log2 x / 2 + 1 + (Nat.log2 x / 2 + 1)) := Nat.pow_le_pow_right (by norm_num) (by omega)
      _ = _ := by rw [pow_add]

/-- The order of a root with one bit below its floor to every multiple of two, for a quantity p · a² against n. -/
theorem sqrt_order (n p t i : Nat) (more : Bool) (h1 : t * t * p ≤ n) (h2 : n < (t + 1) * (t + 1) * p)
    (hm : more = (t * t * p != n)) :
    (2 * t + (if more = true then 1 else 0) < 2 * i ↔ n < i * i * p) ∧
    (2 * i < 2 * t + (if more = true then 1 else 0) ↔ i * i * p < n) := by
  have mono : ∀ a b : Nat, a ≤ b → a * a * p ≤ b * b * p := fun a b h => Nat.mul_le_mul_right _ (Nat.mul_le_mul h h)
  have up : t < i → n < i * i * p := fun h => lt_of_lt_of_le h2 (mono _ _ h)
  by_cases e : t * t * p = n
  · have : more = false := by rw [hm]; simpa using e
    simp only [this, Bool.false_eq_true, if_false, Nat.add_zero]
    constructor
    · constructor
      · intro h; exact up (by omega)
      · intro h; by_contra h'; have := mono i t (by omega); omega
    · constructor
      · intro h
        have hp : 0 < p := by
          rcases Nat.eq_zero_or_pos p with h0 | h0
          · subst h0; simp at h2
          · exact h0
        have : i * i < t * t := Nat.mul_self_lt_mul_self (by omega)
        have := Nat.mul_lt_mul_of_pos_right this hp
        omega
      · intro h; by_contra h'; have := mono t i (by omega); omega
  · have : more = true := by rw [hm]; simpa using e
    simp only [this, if_true]
    constructor
    · constructor
      · intro h; exact up (by omega)
      · intro h; by_contra h'; have := mono i t (by omega); omega
    · constructor
      · intro h; have := mono i t (by omega); omega
      · intro h; by_contra h'; have := up (by omega); omega

theorem sqrtMag_spec (m : Nat) (e : Int) (hm : m ≠ 0) :
    2 ^ 63 ≤ (sqrtMag m e).1 ∧ 2 * ((sqrtMag m e).2 + 1) ≤ e ∧ ∀ i : Nat,
      ((sqrtMag m e).1 < 2 * i ↔ m * 2 ^ (e - 2 * ((sqrtMag m e).2 + 1)).toNat < i * i) ∧
      (2 * i < (sqrtMag m e).1 ↔ i * i < m * 2 ^ (e - 2 * ((sqrtMag m e).2 + 1)).toNat) := by
  have core : ∀ (m' : Nat), m' ≠ 0 → 2 ^ 63 ≤ (sticky (isqrt (m' * 2 ^ 128)) (isqrt (m' * 2 ^ 128) * isqrt (m' * 2 ^ 128) != m' * 2 ^ 128) 0).1 ∧
      ∀ i : Nat, ((sticky (isqrt (m' * 2 ^ 128)) (isqrt (m' * 2 ^ 128) * isqrt (m' * 2 ^ 128) != m' * 2 ^ 128) 0).1 < 2 * i ↔ m' * 2 ^ 128 < i * i) ∧
      (2 * i < (sticky (isqrt (m' * 2 ^ 128)) (isqrt (m' * 2 ^ 128) * isqrt (m' * 2 ^ 128) != m' * 2 ^ 128) 0).1 ↔ i * i < m' * 2 ^ 128) := by
    intro m' h0
    obtain ⟨h1, h2⟩ := isqrt_spec (m' * 2 ^ 128)
    have := sqrt_order (m' * 2 ^ 128) 1 (isqrt (m' * 2 ^ 128))
    simp only [mul_one] at this
    refine ⟨?_, fun i => this i _ h1 h2 rfl⟩
    have : 2 ^ 64 ≤ isqrt (m' * 2 ^ 128) := by
      by_contra hc
      have : isqrt (m' * 2 ^ 128) + 1 ≤ 2 ^ 64 := by omega
      have := Nat.mul_le_mul this this
      have : 1 * 2 ^ 128 ≤ m' * 2 ^ 128 := Nat.mul_le_mul_right _ (by omega)
      omega
    unfold sticky
    simp only
    omega
  by_cases he : e % 2 = 0
  · have hs : sqrtMag m e = sticky (isqrt (m * 2 ^ 128)) (isqrt (m * 2 ^ 128) * isqrt (m * 2 ^ 128) != m * 2 ^ 128) (e / 2 - 64) := by
      simp [sqrtMag, he]
    have h2 : (sqrtMag m e).2 = e / 2 - 64 - 1 := by rw [hs]; rfl
    have h1 : (sqrtMag m e).1 = (sticky (isqrt (m * 2 ^ 128)) (isqrt (m * 2 ^ 128) * isqrt (m * 2 ^ 128) != m * 2 ^ 128) 0).1 := by rw [hs]; rfl
    have h3 : (e - 2 * ((sqrtMag m e).2 + 1)).toNat = 128 := by rw [h2]; omega
    rw [h3, h1]
    exact ⟨(core m hm).1, by rw [h2]; omega, (core m hm).2⟩
  · have hs : sqrtMag m e = sticky (isqrt (2 * m * 2 ^ 128)) (isqrt (2 * m * 2 ^ 128) * isqrt (2 * m * 2 ^ 128) != 2 * m * 2 ^ 128) ((e - 1) / 2 - 64) := by
      simp [sqrtMag, he]
    have h2 : (sqrtMag m e).2 = (e - 1) / 2 - 64 - 1 := by rw [hs]; rfl
    have h1 : (sqrtMag m e).1 = (sticky (isqrt (2 * m * 2 ^ 128)) (isqrt (2 * m * 2 ^ 128) * isqrt (2 * m * 2 ^ 128) != 2 * m * 2 ^ 128) 0).1 := by rw [hs]; rfl
    have h3 : (e - 2 * ((sqrtMag m e).2 + 1)).toNat = 129 := by rw [h2]; omega
    have h4 : m * 2 ^ 129 = 2 * m * 2 ^ 128 := by ring
    rw [h3, h1, h4]
    exact ⟨(core (2 * m) (by omega)).1, by rw [h2]; omega, (core (2 * m) (by omega)).2⟩

theorem rsqrtMag_spec (m : Nat) (e : Int) (hm : m ≠ 0) :
    2 ^ 63 ≤ (rsqrtMag m e).1 ∧ e + 2 * ((rsqrtMag m e).2 + 1) ≤ 0 ∧ ∀ i : Nat,
      ((rsqrtMag m e).1 < 2 * i ↔ 2 ^ (-(e + 2 * ((rsqrtMag m e).2 + 1))).toNat < i * i * m) ∧
      (2 * i < (rsqrtMag m e).1 ↔ i * i * m < 2 ^ (-(e + 2 * ((rsqrtMag m e).2 + 1))).toNat) := by
  have core : ∀ (m' : Nat), m' ≠ 0 →
      let n := 2 ^ (2 * (64 + Nat.log2 m'))
      let t := isqrt (n / m')
      2 ^ 63 ≤ 2 * t + (if (t * t * m' != n) = true then 1 else 0) ∧
      ∀ i : Nat, (2 * t + (if (t * t * m' != n) = true then 1 else 0) < 2 * i ↔ n < i * i * m') ∧
      (2 * i < 2 * t + (if (t * t * m' != n) = true then 1 else 0) ↔ i * i * m' < n) := by
    intro m' h0 n t
    obtain ⟨h1, h2⟩ := isqrt_spec (n / m')
    have hp : 0 < m' := by omega
    have h1' : t * t * m' ≤ n := (Nat.le_div_iff_mul_le hp).1 h1
    have h2' : n < (t + 1) * (t + 1) * m' := (Nat.div_lt_iff_lt_mul hp).1 h2
    refine ⟨?_, fun i => sqrt_order n m' t i _ h1' h2' rfl⟩
    have : 2 ^ 62 ≤ t := by
      by_contra hc
      have ht : t + 1 ≤ 2 ^ 62 := by omega
      have h3 := Nat.mul_le_mul (Nat.mul_le_mul ht ht) (Nat.lt_log2_self (n := m')).le
      have : 2 ^ 62 * 2 ^ 62 * 2 ^ (Nat.log2 m' + 1) ≤ n := by
        show _ ≤ 2 ^ _
        rw [← pow_add, ← pow_add]
        exact Nat.pow_le_pow_right (by norm_num) (by omega)
      omega
    split <;> omega
  by_cases he : e % 2 = 0
  · obtain ⟨c1, c2⟩ := core m hm
    have h1 : (rsqrtMag m e).1 = 2 * isqrt (2 ^ (2 * (64 + Nat.log2 m)) / m) + (if (isqrt (2 ^ (2 * (64 + Nat.log2 m)) / m) * isqrt (2 ^ (2 * (64 + Nat.log2 m)) / m) * m != 2 ^ (2 * (64 + Nat.log2 m))) = true then 1 else 0) := by
      simp [rsqrtMag, he, sticky]
    have h2 : (rsqrtMag m e).2 = -(e / 2) - (64 + Nat.log2 m : Nat) - 1 := by simp [rsqrtMag, he, sticky]
    have h3 : (-(e + 2 * ((rsqrtMag m e).2 + 1))).toNat = 2 * (64 + Nat.log2 m) := by rw [h2]; omega
    rw [h3, h1]
    exact ⟨c1, by rw [h2]; omega, c2⟩
  · obtain ⟨c1, c2⟩ := core (2 * m) (by omega)
    set L := Nat.log2 (2 * m) with hL
    have h1 : (rsqrtMag m e).1 = 2 * isqrt (2 ^ (2 * (64 + L)) / (2 * m)) + (if (isqrt (2 ^ (2 * (64 + L)) / (2 * m)) * isqrt (2 ^ (2 * (64 + L)) / (2 * m)) * (2 * m) != 2 ^ (2 * (64 + L))) = true then 1 else 0) := by
      simp [rsqrtMag, he, sticky, hL]
    have h2 : (rsqrtMag m e).2 = -((e - 1) / 2) - (64 + L : Nat) - 1 := by simp [rsqrtMag, he, sticky, hL]
    have h3 : (-(e + 2 * ((rsqrtMag m e).2 + 1))).toNat = 2 * (64 + L) - 1 := by rw [h2]; omega
    have h4 : 2 ^ (2 * (64 + L)) = 2 * 2 ^ (2 * (64 + L) - 1) := by
      rw [← pow_succ']; congr 1; omega
    rw [h3, h1]
    refine ⟨c1, by rw [h2]; omega, fun i => ?_⟩
    obtain ⟨d1, d2⟩ := c2 i
    have h5 : i * i * (2 * m) = 2 * (i * i * m) := by ring
    constructor
    · rw [d1, h4, h5]; omega
    · rw [d2, h4, h5]; omega

theorem add_exp (r : Rnd) (na nb n : Bool) (ma mb m : Nat) (ea eb e c : Int) (h : (FVal.fin na ma ea).add r (.fin nb mb eb) = .fin n m e)
    (ha : c ≤ ea) (hb : c ≤ eb) (h0 : c ≤ 0) : c ≤ e := by
  have : ofScaled _ _ _ = FVal.fin n m e := h
  unfold ofScaled at this
  split at this <;> injection this <;> omega

theorem dot_fold (ps : List ((Bool × Nat × Int) × (Bool × Nat × Int))) (u : Bool) (k : Nat) (g : Int) :
    ∃ u' k' g', (ps.map (fun p => (FVal.fin p.1.1 p.1.2.1 p.1.2.2, FVal.fin p.2.1 p.2.2.1 p.2.2.2))).foldl
        (fun (s : FVal) (p : FVal × FVal) => s.add .rne (p.1.mul p.2)) (.fin u k g) = .fin u' k' g' ∧
      ∀ z, (∀ p ∈ ps, z ≤ p.1.2.2 + p.2.2.2) → z ≤ g → z ≤ 0 →
        scaled u' k' g' z = scaled u k g z +
          (ps.map fun p => scaled (p.1.1 != p.2.1) (p.1.2.1 * p.2.2.1) (p.1.2.2 + p.2.2.2) z).sum := by
  induction ps generalizing u k g with
  | nil => exact ⟨u, k, g, rfl, fun z _ _ _ => by simp⟩
  | cons p ps ih =>
    obtain ⟨n, m, e, h1, h2, h3⟩ := add_fin .rne u (p.1.1 != p.2.1) k (p.1.2.1 * p.2.2.1) g (p.1.2.2 + p.2.2.2)
    obtain ⟨u', k', g', h4, h5⟩ := ih n m e
    have hstep : (FVal.fin u k g).add .rne ((FVal.fin p.1.1 p.1.2.1 p.1.2.2).mul (.fin p.2.1 p.2.2.1 p.2.2.2)) = .fin n m e := h1
    refine ⟨u', k', g', ?_, ?_⟩
    · simp only [List.map_cons, List.foldl_cons, hstep]; exact h4
    · intro z hz hk h0
      have hp := hz p (by simp)
      rw [h5 z (fun q hq => hz q (by simp [hq])) (add_exp _ _ _ _ _ _ _ _ _ _ _ h1 hk hp h0) h0, h2 z hk hp]
      simp; ring

end Sys2Proof.Machine
end

