-- ==== Sys2Proof/Laws/Memory.lean ====
section
/-! SUPPORT. Every operation that writes memory, its tags and poison, or its symbol errors keeps their canonical forms; reset's memory
has it. -/

namespace Sys2Proof.Machine

theorem reset_memory_wf : Memory.wf State.reset.mem = true := rfl

/-! ## Sparse bytes -/

theorem putBytes_wf (m : SMap Byte) (a : Nat) (bs : List Byte) (w : SMap.wf 0 m = true) : SMap.wf 0 (putBytes m a bs) = true := by
  induction bs generalizing m a with
  | nil => exact w
  | cons b bs ih => exact ih _ _ (SMap.wf_set 0 m a b w)

theorem zeroBytes_wf (m : SMap Byte) (a n : Nat) (w : SMap.wf 0 m = true) : SMap.wf 0 (zeroBytes m a n) = true :=
  SMap.wf_filter 0 m _ w

theorem copyRange_wf (m : SMap Byte) (a b n : Nat) (w : SMap.wf 0 m = true) : SMap.wf 0 (copyRange m a b n) = true :=
  SMap.wf_foldl 0 _ (fun m _ h => SMap.wf_set 0 m _ _ h) _ _ (zeroBytes_wf m b n w)

theorem copyGranules_wf {β : Type} [DecidableEq β] (d : β) (m : SMap β) (a b n : Nat) (w : SMap.wf d m = true) :
    SMap.wf d (copyGranules d m a b n) = true :=
  SMap.wf_foldl d _ (fun m _ h => SMap.wf_set d m _ _ h) _ _ (SMap.wf_filter d m _ w)

/-- Reading a byte after bytes were put: those put inside their range, the old one outside. -/
theorem putBytes_get (m : SMap Byte) (a : Nat) (bs : List Byte) (i : Nat) :
    (putBytes m a bs).get 0 i = if a ≤ i ∧ i < a + bs.length then bs[i - a]?.getD 0 else m.get 0 i := by
  induction bs generalizing m a with
  | nil => simp [putBytes] <;> omega
  | cons b bs ih =>
    simp only [putBytes, ih, List.length_cons]
    by_cases h : i = a
    · subst h; simp <;> omega
    · have e : (SMap.set 0 m a b).get 0 i = m.get 0 i := SMap.get_set_ne _ _ _ _ _ h
      rw [e]
      by_cases h2 : a + 1 ≤ i ∧ i < a + 1 + bs.length
      · rw [if_pos h2, if_pos (by omega), show i - a = i - (a + 1) + 1 by omega, List.getElem?_cons_succ]
      · rw [if_neg h2, if_neg (by omega)]

/-! ## States -/

/-- A state with the same memory, tags and symbol errors has them in the same form. -/
theorem State.MemOk.same {s t : State} (h : s.MemOk) (m : t.mem = s.mem) (g : t.gmeta = s.gmeta) (e : t.gerr = s.gerr) : t.MemOk := by
  unfold State.MemOk at *; rw [m, g, e]; exact h

/-- A fold of operations that keep the form keeps it. -/
theorem State.MemOk.foldl {α : Type} (f : State → α → State) (hf : ∀ s x, s.MemOk → (f s x).MemOk) (xs : List α) (s : State)
    (h : s.MemOk) : (xs.foldl f s).MemOk := by
  induction xs generalizing s with
  | nil => exact h
  | cons x xs ih => exact ih _ (hf s x h)

theorem State.MemOk.putRaw {s : State} (h : s.MemOk) (pa : Nat) (bs : List Byte) : (s.putRaw pa bs).MemOk := by
  obtain ⟨a, b, c⟩ := h
  refine ⟨SMap.wf_foldl 0 _ (fun m x w => ?_) _ _ a, SMap.wf_foldl 0 _ (fun m x w => SMap.wf_set 0 m _ _ w) _ _ b,
    SMap.wf_foldl [] _ (fun m x w => SMap.wf_erase [] m x w) _ _ c⟩
  split
  · exact w
  · exact SMap.wf_set 0 m _ _ w

theorem State.MemOk.correct {s : State} (h : s.MemOk) (g : Nat) : (s.correct g).1.MemOk := by
  unfold State.correct
  simp only []
  split
  · exact h
  · split
    · exact ⟨SMap.wf_foldl 0 _ (fun m _ w => zeroBytes_wf m _ _ w) _ _ h.1, SMap.wf_set 0 s.gmeta g 0x10 h.2.1,
        SMap.wf_erase [] s.gerr g h.2.2⟩
    · exact ⟨h.1, h.2.1, SMap.wf_erase [] _ _ h.2.2⟩

theorem State.MemOk.chunkWrite {s : State} (h : s.MemOk) (x : Nat × Nat × View) : (s.chunkWrite x).1.MemOk := by
  unfold State.chunkWrite
  simp only []
  split
  · exact h
  · split <;> exact h

theorem State.MemOk.correctAll {s : State} (h : s.MemOk) (gs : List Nat) : (State.correctAll gs s).1.MemOk := by
  unfold State.correctAll
  suffices ∀ (gs : List Nat) (x : State × List DevEvent), x.1.MemOk →
      (gs.foldl (fun (x : State × List DevEvent) g =>
        ((x.1.correct g).1, if (x.1.correct g).2 then x.2 ++ [(homeDie (64 * g), 2, stackOf (64 * g))] else x.2)) x).1.MemOk from
    this gs _ h
  intro gs
  induction gs with
  | nil => exact fun _ h => h
  | cons g gs ih => exact fun x hx => ih _ (hx.correct g)

theorem State.MemOk.chunkCopied {s : State} (h : s.MemOk) (n k : Nat) : (s.chunkCopied n k).1.MemOk := by
  unfold State.chunkCopied
  split
  · exact h
  · split
    · dsimp only
      split
      · have c := fun (x : SMap View) gs => State.MemOk.correctAll (s := { s with views := x }) h gs
        exact ⟨copyRange_wf _ _ _ _ (c _ _).1, copyGranules_wf 0 _ _ _ _ (c _ _).2.1, SMap.wf_filter [] _ _ (c _ _).2.2⟩
      · exact h
    · exact h

theorem State.MemOk.preserve {s : State} (h : s.MemOk) (pa : Nat) : (s.preserve pa).1.MemOk := by
  unfold State.preserve
  suffices ∀ (xs : List (Nat × Nat × View)) (p : State × List DevEvent), p.1.MemOk →
      (xs.foldl (fun (p : State × List DevEvent) x =>
        (((p.1.chunkWrite x).1.chunkCopied x.1 x.2.1).1, p.2 ++ (p.1.chunkWrite x).2 ++ ((p.1.chunkWrite x).1.chunkCopied x.1 x.2.1).2))
        p).1.MemOk from this _ _ h
  intro xs
  induction xs with
  | nil => exact fun _ h => h
  | cons x xs ih => exact fun p hp => ih _ ((hp.chunkWrite x).chunkCopied _ _)

theorem State.MemOk.event {s : State} (h : s.MemOk) (d : Nat) : (s.event d).2.MemOk := h

theorem State.MemOk.dropFar {s : State} (h : s.MemOk) (d : Nat) (ps : List (Nat × Nat)) : (s.dropFar d ps).MemOk := by
  unfold State.dropFar
  refine State.MemOk.foldl _ ?_ _ _ h
  exact fun _ _ h => h

theorem State.MemOk.putOver {s : State} (h : s.MemOk) (d : Nat) (x : List DevEvent) (pa : Nat) (bs : List Byte) :
    (s.putOver d x pa bs).1.MemOk := ((h.preserve pa).putRaw pa bs).dropFar _ _

theorem State.MemOk.homeTouch {s : State} (h : s.MemOk) (line : Nat) (sec : BitVec 4) (w : Bool) (po : Policy) :
    (s.homeTouch line sec w po).MemOk := by
  unfold State.homeTouch
  dsimp only
  split <;> exact h

theorem State.MemOk.fetchIn {s : State} (h : s.MemOk) (pa n : Nat) (b : Nat × Nat) (po : Policy) : (s.fetchIn pa n b po).1.MemOk := by
  unfold State.fetchIn
  dsimp only
  split
  · exact State.MemOk.foldl _ (fun _ _ h => h.homeTouch _ _ _ _) _ _ h
  · exact State.MemOk.foldl _ (fun _ _ h => h.homeTouch _ _ _ _) _ _ (h.correctAll _)

theorem State.MemOk.walkReading (d : Nat) (as : List Nat) : ∀ {s : State}, s.MemOk → (State.walkReading d as s).1.MemOk := by
  induction as with
  | nil => exact fun h => h
  | cons a as ih =>
    intro s h
    unfold State.walkReading
    split
    · split
      · exact h.correctAll _
      · exact h
    · exact ih (h.fetchIn _ _ _ _)

theorem State.MemOk.hostError {s : State} (h : s.MemOk) (r : Ring) (bs : List Byte) : (s.hostError r bs).MemOk := by
  unfold State.hostError
  split <;> exact h

theorem State.MemOk.writeRecord {s : State} (h : s.MemOk) (r : Ring) (n : Nat) (ty : BitVec 8) (die : Nat) (core slot : Option Nat)
    (body : List Byte) : (s.writeRecord r n ty die core slot body).1.MemOk := by
  have hw : (State.walkReading die (s.walkReads r.ctx (s.ringNext r)) s).1.MemOk := .walkReading die _ h
  unfold State.writeRecord
  dsimp only
  split
  · exact h
  split
  · exact h.putOver _ _ _ _
  split
  · exact hw.putOver _ _ _ _
  split
  · exact hw.putOver _ _ _ _
  · exact (((hw.putOver _ _ _ _).putOver _ _ _ _).hostError _ _).putOver _ _ _ _

theorem State.MemOk.recordOnly {s : State} (h : s.MemOk) (r : Option Ring) (ty : BitVec 8) (die : Nat) (core slot : Option Nat)
    (body : List Byte) : (s.recordOnly r ty die core slot body).1.MemOk := by
  cases r with
  | none => exact h.event die
  | some r =>
    unfold State.recordOnly State.tryRecord
    dsimp only
    split
    · exact h
    · exact (h.event die).writeRecord r _ _ _ _ _ _

theorem State.MemOk.postEventsN (fuel : Nat) : ∀ {s : State} (xs : List DevEvent), s.MemOk → (State.postEventsN fuel xs s).MemOk := by
  induction fuel with
  | zero => exact fun _ h => h
  | succ n ih => exact fun {s} xs h => match xs with
    | [] => h
    | (d, _, _) :: _ => ih _ (h.recordOnly (s.rootRing d) _ d none none _)

theorem State.MemOk.postEvents {s : State} (h : s.MemOk) (xs : List DevEvent) : (s.postEvents xs).MemOk := postEventsN _ _ h

theorem State.MemOk.record {s : State} (h : s.MemOk) (r : Option Ring) (ty : BitVec 8) (die : Nat) (core slot : Option Nat)
    (body : List Byte) : (s.record r ty die core slot body).MemOk := (h.recordOnly r ty die core slot body).postEvents _

theorem State.MemOk.deviceEvent {s : State} (h : s.MemOk) (die code what : Nat) : (s.deviceEvent die code what).MemOk :=
  h.record _ _ _ _ _ _

theorem State.MemOk.readGranules {s : State} (h : s.MemOk) (gs : List Nat) : (s.readGranules gs).MemOk := (h.correctAll gs).postEvents _

theorem State.MemOk.readArray {s : State} (h : s.MemOk) (pa n : Nat) : (s.readArray pa n).MemOk := h.readGranules _

theorem State.MemOk.putMem {s : State} (h : s.MemOk) (pa : Nat) (bs : List Byte) : (s.putMem pa bs).MemOk :=
  ((h.preserve pa).putRaw pa bs).postEvents _

theorem State.MemOk.homeLoadIn {s : State} (h : s.MemOk) (pa n : Nat) (b : Nat × Nat) (po : Policy) :
    (s.homeLoadIn pa n b po).MemOk := (h.fetchIn pa n b po).postEvents _

theorem State.MemOk.homeLoad {s : State} (h : s.MemOk) (pa n : Nat) (po : Policy) : (s.homeLoad pa n po).MemOk := h.homeLoadIn _ _ _ _

theorem State.MemOk.fillStore {s : State} (h : s.MemOk) (pa n : Nat) (full : BitVec 4) : (s.fillStore pa n full).MemOk := by
  refine State.MemOk.foldl _ (fun s k h => ?_) _ _ h
  split
  · exact h
  · exact h.readArray _ _

theorem State.MemOk.homeStoreIn {s : State} (h : s.MemOk) (pa : Nat) (bs : List Byte) (po : Policy) (full : BitVec 4) :
    (s.homeStoreIn pa bs po full).MemOk :=
  State.MemOk.foldl _ (fun _ _ h => h.homeTouch _ _ _ _) _ _ ((h.fillStore pa bs.length full).putMem pa bs)

theorem State.MemOk.homeStore {s : State} (h : s.MemOk) (pa : Nat) (bs : List Byte) (po : Policy) : (s.homeStore pa bs po).MemOk :=
  h.homeStoreIn _ _ _ _

theorem State.MemOk.homeTag {s : State} (h : s.MemOk) (pa : Nat) (t : BitVec 4) (zero : Bool) : (s.homeTag pa t zero).MemOk := by
  unfold State.homeTag
  have set : ∀ {u : State} (x : BitVec 5), u.MemOk → ({ u with gmeta := SMap.set 0 u.gmeta (pa / 64) x } : State).MemOk :=
    fun x hu => ⟨hu.1, SMap.wf_set 0 _ _ _ hu.2.1, hu.2.2⟩
  simp only []
  split
  · exact set _ (h.homeStore _ _ _)
  · exact set _ ((h.preserve pa).postEvents _)

theorem State.MemOk.homeAtomic {s : State} (h : s.MemOk) (pa : Nat) (o : AtomOp) (b : Nat × Nat) (po : Policy) :
    (s.homeAtomic pa o b po).2.MemOk := (h.homeLoadIn pa o.bytes b po).homeStore _ _ _

theorem State.MemOk.freshGranule {s : State} (h : s.MemOk) (pa : Nat) : (s.freshGranule pa).MemOk :=
  ⟨h.1, SMap.wf_set 0 _ _ _ h.2.1, SMap.wf_erase [] _ _ h.2.2⟩

theorem State.MemOk.writePieces (d : Nat) (ps : List (Nat × Nat)) :
    ∀ {s : State} (bs : List Byte), s.MemOk → (s.writePieces d ps bs).MemOk := by
  induction ps with
  | nil => exact fun _ h => h
  | cons p ps ih => exact fun bs h => ih _ ((h.homeStore _ _ _).dropFar _ _)

theorem State.MemOk.place {s : State} (h : s.MemOk) (bs : List Byte) : (s.place bs).MemOk :=
  ⟨putBytes_wf _ _ _ h.1, h.2.1, h.2.2⟩

end Sys2Proof.Machine
end

