-- ==== Sys2Proof/Tests/Slice0.lean ====
section
/-! SUPPORT. The model's own tests: words, ill-formed terms, single steps, and a witness for the hypotheses of each statement. -/

namespace Sys2Proof.Tests

set_option Elab.async false

open Machine

/-! ## Words of every constructor, their bits put together from the field positions of 05_encoding.md -/

/-- A header with the guard always true (R64), and fields of each format with every field zero. -/
def tHdr : Hdr := { gneg := false, gpred := 7, pace := 0, cede := false, latchA := false, latchB := false }
@[inherit_doc tHdr] def tV : VF :=
  { d := .v 0, a := .v 0, b := .v 0, c := .v 0, imm := none, sub := 0, ty := .b32, rc := 0, sat := false, nega := false,
    negb := false, absa := false, absb := false, pred := 0, mod := 0 }
@[inherit_doc tHdr] def tM : MF :=
  { d := .v 0, a := .v 0, b := .v 0, off := 0, size := .b1, scope := .g, policy := .normal, order := .relaxed, sext := false,
    sub := 0, pred := 0, mod := 0 }
@[inherit_doc tHdr] def tE : EF :=
  { d := .v 0, a := .v 0, b := .v 0, bar := 0, shp := 0, acc := 0, tid := 0, spair := 0, sub := 0, mod := 0 }
@[inherit_doc tHdr] def tC : CF := { d := .v 0, a := .v 0, b := .v 0, off := 0, sub := 0, mod := 0 }


/-- Integer and bit operations (Tables 9-1 and 9-2, majors 0x00 to 0x1E). -/
theorem decode_integer : [
    0x0070_0020_2018_0001_4000_0000,
    0x01A0_27F7_FCA8_0003_4400_0000,
    0x0270_0080_6006_0000_0004_0706,
    0x037B_2894_6007_FFFF_FFFC_0301,
    0x0470_C100_A060_0003_8000_0000,
    0x0570_00B8_2038_0001_4000_0000,
    0x0670_00A0_6C08_0001_4400_0000,
    0x0770_00A0_6038_0003_4000_0000,
    0x0870_0080_6040_0001_8000_0000,
    0x0970_00A0_6038_0003_4000_0000,
    0x0A70_00A0_6000_0001_4400_0000,
    0x0B70_0080_6000_0001_8000_0000,
    0x0C70_0080_6038_0001_4000_001F,
    0x0D70_0080_6038_0000_0000_0000,
    0x0E70_0080_6004_48D1_59E0_0000,
    0x0F70_0080_6040_0000_4000_0000,
    0x1070_0080_7000_0000_0000_0000,
    0x1170_0080_7004_0000_007C_0000,
    0x1270_0080_8058_0000_4000_0000,
    0x1370_0080_8058_0001_8000_0000,
    0x1470_0080_9058_0000_0000_0000,
    0x1570_0080_9004_0000_2010_0680,
    0x1670_0080_9058_1A00_0000_0000,
    0x1770_00A0_8000_0000_4000_0000,
    0x1870_00A0_9000_0000_0000_0000,
    0x1970_0080_8000_0000_4000_0000,
    0x1A70_0080_8C00_0000_0030_0000,
    0x1B70_0000_8004_0000_0190_02DE,
    0x1C70_2820_9000_0000_0000_0000,
    0x1D70_0080_0006_0000_0000_0300,
    0x1E70_0080_6000_0000_4000_0000].map (decodeTableWord 96) = [
    some (.iadd tHdr { tV with d := .v 1, a := .v 2, b := .v 3, ty := .i32 }),
    some (.isub { tHdr with gneg := true, gpred := 2 } { tV with d := .v 319, a := .s 63, b := .k .active, ty := .n32, sat := true }),
    some (.iaddc tHdr { tV with d := .v 4, a := .v 6, imm := some 0x80000001, ty := .n64, pred := 3 }),
    some (.imul { tHdr with pace := 5, cede := true } { tV with d := .s 4, a := .s 6, imm := some 0xffffffff, ty := .i64, sat := true }),
    some (.imulh { tHdr with latchA := true, latchB := true } { tV with d := .v 8, a := .v 10, b := .v 12, ty := .n64 }),
    some (.imad tHdr { tV with d := .v 5, a := .k .lane, b := .v 7, ty := .i32 }),
    some (.idiv tHdr { tV with d := .v 5, a := .v 6, b := .k .one, ty := .i32, sat := true }),
    some (.irem tHdr { tV with d := .v 5, a := .v 6, b := .v 7, ty := .n32 }),
    some (.imin tHdr { tV with d := .v 4, a := .v 6, b := .v 8, ty := .i64 }),
    some (.imax tHdr { tV with d := .v 5, a := .v 6, b := .v 7, ty := .n32 }),
    some (.iabs tHdr { tV with d := .v 5, a := .v 6, ty := .i32, sat := true }),
    some (.ineg tHdr { tV with d := .v 4, a := .v 6, ty := .i64 }),
    some (.lea tHdr { tV with d := .v 4, a := .v 6, b := .v 7, ty := .i32, mod := 0x1f }),
    some (.and tHdr { tV with d := .v 4, a := .v 6, b := .v 7 }),
    some (.or tHdr { tV with d := .v 4, a := .v 6, imm := some 0x12345678 }),
    some (.xor tHdr { tV with d := .v 4, a := .v 6, b := .v 8, ty := .b64 }),
    some (.not tHdr { tV with d := .v 4, a := .v 7 }),
    some (.shl tHdr { tV with d := .v 4, a := .v 7, imm := some 0x1f }),
    some (.shr tHdr { tV with d := .v 4, a := .v 8, b := .v 11, ty := .b64 }),
    some (.sar tHdr { tV with d := .v 4, a := .v 8, b := .v 11, ty := .i64 }),
    some (.rotl tHdr { tV with d := .v 4, a := .v 9, b := .v 11 }),
    some (.bfx tHdr { tV with d := .v 4, a := .v 9, imm := some 0x804, ty := .n32 }),
    some (.bfi tHdr { tV with d := .v 4, a := .v 9, b := .v 11, c := .v 13 }),
    some (.popc tHdr { tV with d := .v 5, a := .v 8, ty := .b64 }),
    some (.clz tHdr { tV with d := .v 5, a := .v 9 }),
    some (.brev tHdr { tV with d := .v 4, a := .v 8, ty := .b64 }),
    some (.sel tHdr { tV with d := .v 4, a := .v 8, b := .k .zero, pred := 6 }),
    some (.icmp tHdr { tV with a := .v 8, imm := some 0x64, ty := .i32, rc := 5, pred := 7 }),
    some (.mov tHdr { tV with d := .s 1, a := .v 9 }),
    some (.movi tHdr { tV with d := .v 4, imm := some 0x80000000, ty := .i64 }),
    some (.movs tHdr { tV with d := .v 4, a := .v 6, ty := .b64 })] := by decide +kernel

/-- Floating point, packed, conversion and dot products (Tables 9-3 and 9-4, majors 0x20 to 0x3D). -/
theorem decode_float : [
    0x2070_0020_2018_0005_4A00_0000,
    0x2170_0039_1018_0005_5100_0000,
    0x2270_0020_2018_0005_5880_0000,
    0x2370_0020_2018_0005_4040_0000,
    0x2470_0020_2004_FE00_0000_0A90,
    0x2570_0020_2018_0005_4000_0000,
    0x2670_0020_2C90_0005_4000_0000,
    0x2770_0000_2018_0005_7820_0000,
    0x2870_0020_2000_0005_4000_0000,
    0x2970_0020_2000_0005_4000_0000,
    0x2A70_0020_2000_0005_4800_0000,
    0x2B70_0020_2000_0005_4000_0000,
    0x2C70_0020_2000_0005_4000_0000,
    0x2D70_0020_2000_0005_4000_0000,
    0x2E70_0020_2000_0005_4000_0000,
    0x2F70_0020_2000_0005_4000_0000,
    0x3070_0020_2018_0005_4000_0000,
    0x3170_0020_2000_0005_4000_0000,
    0x3270_0020_2000_0005_5800_0000,
    0x3370_0020_2018_000E_0000_0000,
    0x3470_0020_2018_0006_0000_0000,
    0x3570_0020_2018_0006_1000_0000,
    0x3670_0020_2018_000E_0000_0000,
    0x3770_0020_2018_0006_0000_0000,
    0x3870_0020_2000_0004_4800_1635,
    0x3970_0020_2018_0000_C400_0001,
    0x3A70_0020_2000_0002_8000_0007,
    0x3B70_0020_2018_0800_C000_000B,
    0x3C70_0020_2025_D950_C840_0500,
    0x3D70_0020_2018_0002_C000_000E].map (decodeTableWord 96) = [
    some (.fadd tHdr { tV with d := .v 1, a := .v 2, b := .v 3, ty := .f32, rc := 1, nega := true }),
    some (.fsub tHdr { tV with d := .v 1, a := .k .f1, b := .v 3, ty := .f32, rc := 2, negb := true }),
    some (.fmul tHdr { tV with d := .v 1, a := .v 2, b := .v 3, ty := .f32, rc := 3, absa := true }),
    some (.ffma tHdr { tV with d := .v 1, a := .v 2, b := .v 3, ty := .f32, absb := true }),
    some (.fdiv tHdr { tV with d := .v 1, a := .v 2, imm := some 0x3f800000, ty := .f32, rc := 1 }),
    some (.fmin tHdr { tV with d := .v 1, a := .v 2, b := .v 3, ty := .f32 }),
    some (.fmax tHdr { tV with d := .v 1, a := .v 2, b := .k .fhalf, ty := .f32 }),
    some (.fcmp tHdr { tV with a := .v 2, b := .v 3, ty := .f32, rc := 7, pred := 4 }),
    some (.frcp tHdr { tV with d := .v 1, a := .v 2, ty := .f32 }),
    some (.frsq tHdr { tV with d := .v 1, a := .v 2, ty := .f32 }),
    some (.fsqrt tHdr { tV with d := .v 1, a := .v 2, ty := .f32, rc := 1 }),
    some (.fexp2 tHdr { tV with d := .v 1, a := .v 2, ty := .f32 }),
    some (.flog2 tHdr { tV with d := .v 1, a := .v 2, ty := .f32 }),
    some (.fsin tHdr { tV with d := .v 1, a := .v 2, ty := .f32 }),
    some (.fcos tHdr { tV with d := .v 1, a := .v 2, ty := .f32 }),
    some (.ftanh tHdr { tV with d := .v 1, a := .v 2, ty := .f32 }),
    some (.fscale tHdr { tV with d := .v 1, a := .v 2, b := .v 3, ty := .f32 }),
    some (.fclass tHdr { tV with d := .v 1, a := .v 2, ty := .f32 }),
    some (.frnd tHdr { tV with d := .v 1, a := .v 2, ty := .f32, rc := 3 }),
    some (.xadd tHdr { tV with d := .v 1, a := .v 2, b := .v 3, ty := .x2, sub := 1 }),
    some (.xmul tHdr { tV with d := .v 1, a := .v 2, b := .v 3, ty := .x2 }),
    some (.xfma tHdr { tV with d := .v 1, a := .v 2, b := .v 3, ty := .x2, rc := 2 }),
    some (.xmin tHdr { tV with d := .v 1, a := .v 2, b := .v 3, ty := .x2, sub := 1 }),
    some (.xmax tHdr { tV with d := .v 1, a := .v 2, b := .v 3, ty := .x2 }),
    some (.cvt tHdr { tV with d := .v 1, a := .v 2, ty := .f8a, rc := 1, mod := 0x1635 }),
    some (.pack tHdr { tV with d := .v 1, a := .v 2, b := .v 3, ty := .i8, sat := true, mod := 1 }),
    some (.unpack tHdr { tV with d := .v 1, a := .v 2, ty := .n4, mod := 7 }),
    some (.dot4 tHdr { tV with d := .v 1, a := .v 2, b := .v 3, c := .v 4, ty := .i8, mod := 0xb }),
    some (.dot8 tHdr { tV with d := .v 1, a := .v 2, c := .v 4, imm := some 0x76543210, ty := .n4 }),
    some (.dscl tHdr { tV with d := .v 1, a := .v 2, b := .v 3, ty := .n8, mod := 0xe })] := by decide +kernel

/-- Cross-lane and random numbers (Tables 9-5 and 9-6), and system instructions (Table 21-7). -/
theorem decode_lanes : [
    0x4070_0020_2018_0010_0008_0005,
    0x4170_0020_0000_0008_0010_0007,
    0x4270_0020_2000_0005_5800_0000,
    0x4370_0020_2000_0028_0000_0001,
    0x4470_0020_2000_0000_4000_0000,
    0x4570_0020_0000_0000_0028_0000,
    0x4670_0020_0000_0005_4000_0000,
    0x4770_0000_2020_0000_4000_0000,
    0x4870_0000_0004_0000_0030_0680,
    0xC070_0020_0000_0000_0000_8380,
    0xC070_0020_0000_0000_0000_0180,
    0xC170_0000_1000_0000_0000_0800,
    0xC270_0000_0000_0000_0000_0000,
    0xC370_0000_0000_0000_0000_0000,
    0xC470_0020_2020_0000_0000_0052,
    0xC570_0000_0000_0000_0000_0003,
    0xC670_0000_9000_0000_0000_0000,
    0xC670_0000_0000_0008_0000_0000,
    0xC670_0000_0000_0010_0000_0000,
    0xC770_0000_8000_0000_0000_0000,
    0xC870_0000_0000_0000_0000_1FFF].map (decodeTableWord 96) = [
    some (.shfl tHdr { tV with d := .v 1, a := .v 2, b := .v 3, sub := 2, pred := 1, mod := 5 }),
    some (.vote tHdr { tV with d := .v 1, sub := 1, pred := 2, mod := 7 }),
    some (.redl tHdr { tV with d := .v 1, a := .v 2, sub := 0, ty := .f32, rc := 3 }),
    some (.scanl tHdr { tV with d := .v 1, a := .v 2, sub := 5, mod := 1 }),
    some (.match_ tHdr { tV with d := .v 1, a := .v 2, ty := .b64 }),
    some (.elect tHdr { tV with d := .v 1, pred := 5 }),
    some (.rng tHdr { tV with d := .v 1, ty := .f32 }),
    some (.rngseed tHdr { tV with a := .v 2, b := .v 4, ty := .b64 }),
    some (.rngskip tHdr { tV with imm := some 0xc, ty := .n32 }),
    some (.gets tHdr { tV with d := .v 1, mod := 0x8380 }),
    some (.cycloRead tHdr { tV with d := .v 1, mod := 0x180 }),
    some (.sets tHdr { tV with a := .v 1, mod := 0x800 }),
    some (.trapret tHdr tV),
    some (.halt tHdr tV),
    some (.watch tHdr { tV with d := .v 1, a := .v 2, b := .v 4, mod := 0x52 }),
    some (.unwatch tHdr { tV with mod := 3 }),
    some (.sampleMark tHdr { tV with a := .v 9 }),
    some (.sampleOn tHdr { tV with sub := 1 }),
    some (.sampleOff tHdr { tV with sub := 2 }),
    some (.logm tHdr { tV with a := .v 8 }),
    some (.freeze tHdr { tV with mod := 0x1fff })] := by decide +kernel

/-- Control (Table 13-1, majors 0x50 to 0x5E). -/
theorem decode_control : [
    0x50A0_0000_0007_FFFF_FFF8_0000,
    0x5170_0000_2000_0000_0000_0000,
    0x5270_0080_0004_0000_0000_0000,
    0x5370_2894_6000_0000_0000_0000,
    0x5470_0000_4000_0000_0000_0000,
    0x5570_0000_0000_0000_0000_0000,
    0x5670_0000_0000_0000_0000_0000,
    0x5770_0000_0000_0000_0000_1FFF,
    0x5870_0000_0000_0000_0000_1001,
    0x597B_0000_0000_0000_0000_0000,
    0x5A70_0000_0000_0000_0000_0000,
    0x5B70_0000_0000_0000_0000_0000,
    0x5C70_0000_0000_0000_0000_0001,
    0x5D70_0020_2000_0000_0000_000F,
    0x5E70_0000_0000_0000_0000_0000].map (decodeTableWord 96) = [
    some (.bra { tHdr with gneg := true, gpred := 2 } { tC with off := 0xffffffff }),
    some (.brx tHdr { tC with a := .v 2 }),
    some (.call tHdr { tC with d := .v 4, off := 0x80000000 }),
    some (.callx tHdr { tC with d := .s 4, a := .s 6 }),
    some (.ret tHdr { tC with a := .v 4 }),
    some (.join tHdr tC),
    some (.exit tHdr tC),
    some (.trap tHdr { tC with mod := 0x1fff }),
    some (.bkpt tHdr { tC with mod := 0x1001 }),
    some (.nop { tHdr with pace := 5, cede := true } tC),
    some (.yield tHdr tC),
    some (.syncg tHdr tC),
    some (.synct tHdr { tC with mod := 1 }),
    some (.sizesel tHdr { tC with d := .v 1, a := .v 2, mod := 0xf }),
    some (.ink tHdr tC)] := by decide +kernel

/-- Memory, atomics, fences and batches (Table 13-3), and remote accesses (Table 21-5). -/
theorem decode_memory : [
    0x6070_0020_2007_FFFF_C2A2_0000,
    0x6170_0018_0023_FFFF_FCDC_0000,
    0x6270_0020_3000_0000_2121_0000,
    0x6370_0000_3020_0000_4300_0000,
    0x6470_0020_2000_0000_0011_0000,
    0x6570_2894_8000_0000_0460_0000,
    0x6670_0000_2000_0002_0088_0000,
    0x6770_0000_2000_0002_0000_0000,
    0x6770_0000_2000_0000_0000_0400,
    0x6770_0000_2000_0000_0000_0800,
    0x6770_0018_0000_0000_0000_0C00,
    0x6770_0018_0000_0000_0000_1000,
    0x6870_0020_2000_0000_0040_0000,
    0x6970_0000_2020_0000_00A4_0001,
    0x6A70_0080_2030_0000_03A6_0406,
    0x6B70_0080_2030_0000_0200_0100,
    0x6C70_0000_2030_0000_0200_0038,
    0x6D70_0000_2030_0000_02A0_0015,
    0x6E70_0020_3030_0000_0220_2100,
    0x6F70_0000_0000_0000_0086_0000,
    0x7070_0000_0000_0000_0000_0000,
    0x7170_0000_0000_0000_00A0_0000,
    0x7270_0020_0010_0000_00C0_0001,
    0x7370_0000_0000_0000_0000_000F,
    0x7470_0000_0000_0000_0000_0003,
    0xB070_0100_4000_0000_83C0_0000,
    0xB170_0000_4048_0000_02C4_0000,
    0xB270_0100_4050_0000_02C0_1C0D].map (decodeTableWord 96) = [
    some (.ld tHdr { tM with d := .v 1, a := .v 2, off := 0xfffff8, size := .b4, scope := .p, order := .acquire }),
    some (.st tHdr { tM with a := .k .zero, b := .v 4, off := 0x7fffff, size := .b16, scope := .s, policy := .retain, order := .release }),
    some (.ldl tHdr { tM with d := .v 1, a := .v 3, off := 4, size := .b2, scope := .t, sext := true }),
    some (.stl tHdr { tM with a := .v 3, b := .v 4, off := 8, size := .b8 }),
    some (.ldc tHdr { tM with d := .v 1, a := .v 2, size := .b1, policy := .bypass, sext := true }),
    some (.lds tHdr { tM with d := .s 4, a := .s 8, size := .b16, scope := .k }),
    some (.pref tHdr { tM with a := .v 2, off := 0x40, scope := .d, policy := .evictFirst }),
    some (.cctlIl1 tHdr { tM with a := .v 2, off := 0x40 }),
    some (.cctlIrd tHdr { tM with a := .v 2, sub := 1 }),
    some (.cctlWb tHdr { tM with a := .v 2, sub := 2 }),
    some (.cctlIl1all tHdr { tM with a := .k .zero, sub := 3 }),
    some (.cctlIrdall tHdr { tM with a := .k .zero, sub := 4 }),
    some (.ldtag tHdr { tM with d := .v 1, a := .v 2, scope := .c }),
    some (.sttag tHdr { tM with a := .v 2, b := .v 4, scope := .p, order := .release, mod := 1 }),
    some (.atom tHdr { tM with d := .v 4, a := .v 2, b := .v 6, size := .b8, scope := .p, order := .acqrel, sub := 1, mod := 6 }),
    some (.atomc tHdr { tM with d := .v 4, a := .v 2, b := .v 6, size := .b4, pred := 2 }),
    some (.red tHdr { tM with a := .v 2, b := .v 6, size := .b4, sub := 0, mod := 0x38 }),
    some (.atomo tHdr { tM with a := .v 2, b := .v 6, size := .b4, scope := .p, mod := 0x15 }),
    some (.atoml tHdr { tM with d := .v 1, a := .v 3, b := .v 6, size := .b4, scope := .t, sub := 8, pred := 2 }),
    some (.fence tHdr { tM with scope := .d, order := .acqrel }),
    some (.fenceo tHdr tM),
    some (.fencex tHdr { tM with scope := .p }),
    some (.fencep tHdr { tM with d := .v 1, b := .v 2, scope := .s, mod := 1 }),
    some (.cbseal tHdr { tM with mod := 0xf }),
    some (.cbwait tHdr { tM with mod := 3 }),
    some (.rld tHdr { tM with d := .v 8, a := .v 4, off := 0x10, size := .b8, scope := .s }),
    some (.rst tHdr { tM with a := .v 4, b := .v 9, size := .b4, scope := .s, order := .release }),
    some (.ratom tHdr { tM with d := .v 8, a := .v 4, b := .v 10, size := .b4, scope := .s, sub := 7, mod := 0xd })] := by decide +kernel

/-- Copies, barriers, shapes and tensors (Tables 15-1 to 15-6, majors 0x80 to 0x95). -/
theorem decode_engines : [
    0x8070_0000_4047_F000_0000_0000,
    0x8070_0000_4040_9000_0010_0006,
    0x8170_0014_4041_F800_0000_FFFF,
    0x8270_0000_4040_0000_7C00_0004,
    0x8370_0000_4041_0800_0800_0000,
    0x8470_0080_8001_7000_0000_0005,
    0x8570_0000_4040_0000_0000_0000,
    0x8670_0000_0002_8000_0000_007F,
    0x8770_0000_0042_8000_0000_0000,
    0x8870_0000_0002_8000_0000_003F,
    0x8970_0000_0002_8000_0000_0001,
    0x8A70_0020_0002_8000_0000_0000,
    0x8B70_0040_4002_8000_0000_0001,
    0x8C70_0000_0004_8000_0000_0000,
    0x8D70_0000_1010_0000_0000_0000,
    0x8E70_0060_1010_0000_0000_0000,
    0x8F70_0000_2000_3800_0000_0000,
    0x9070_0000_2000_3800_0000_0000,
    0x9170_0000_0010_3800_0000_000B,
    0x9270_0020_0000_3800_0000_0010,
    0x9370_0000_2000_007F_8000_0000,
    0x9470_0000_0008_0003_8000_000B,
    0x9570_0040_4028_0001_8000_0000].map (decodeTableWord 96) = [
    some (.cpyLd tHdr { tE with a := .v 4, b := .v 8, bar := 0xf, shp := 0xe }),
    some (.cpySt tHdr { tE with a := .v 4, b := .v 8, bar := 1, shp := 2, sub := 1, mod := 6 }),
    some (.cpym tHdr { tE with a := .s 4, b := .v 8, bar := 3, shp := 0xf, mod := 0xffff }),
    some (.cpys tHdr { tE with a := .v 4, b := .v 8, spair := 0x1f, mod := 4 }),
    some (.cpyg tHdr { tE with a := .v 4, b := .v 8, bar := 2, shp := 1, spair := 2 }),
    some (.cpyx tHdr { tE with d := .v 4, a := .v 8, bar := 2, shp := 0xe, mod := 5 }),
    some (.pft tHdr { tE with a := .v 4, b := .v 8 }),
    some (.binit tHdr { tE with bar := 5, mod := 0x7f }),
    some (.bexpect tHdr { tE with b := .v 8, bar := 5 }),
    some (.barrive tHdr { tE with bar := 5, mod := 0x3f }),
    some (.bwait tHdr { tE with bar := 5, mod := 1 }),
    some (.btest tHdr { tE with d := .v 1, bar := 5 }),
    some (.barm tHdr { tE with d := .v 2, a := .v 4, bar := 5, mod := 1 }),
    some (.binv tHdr { tE with bar := 9 }),
    some (.pclr tHdr { tE with a := .v 1, b := .v 2 }),
    some (.ptest tHdr { tE with d := .v 3, a := .v 1, b := .v 2 }),
    some (.gld tHdr { tE with a := .v 2, shp := 7 }),
    some (.gst tHdr { tE with a := .v 2, shp := 7 }),
    some (.gset tHdr { tE with b := .v 2, shp := 7, mod := 0xb }),
    some (.gget tHdr { tE with d := .v 1, shp := 7, mod := 0x10 }),
    some (.tidld tHdr { tE with a := .v 2, tid := 0xff }),
    some (.tidset tHdr { tE with b := .v 1, tid := 7, mod := 0xb }),
    some (.thnd tHdr { tE with d := .v 2, a := .v 4, b := .v 5, tid := 3 })] := by decide +kernel

/-- Matrix operations (Table 15-7, majors 0xA0 to 0xAC) and remote, collective and view instructions (0xB3 to 0xBB). -/
theorem decode_matrix : [
    0xA070_0000_4028_0000_0000_0013,
    0xA170_0000_0000_0000_0000_0000,
    0xA270_0000_1000_0780_0000_0000,
    0xA370_0000_1000_0700_0000_0000,
    0xA470_0000_0000_0180_0000_00FF,
    0xA570_0000_0008_0100_0000_0000,
    0xA670_0000_2000_0080_0011_8000,
    0xA770_0100_1000_1800_0000_0000,
    0xA870_0020_0000_0480_0000_0000,
    0xA970_0000_0000_0000_0000_0000,
    0xAA70_0000_0000_0000_0000_0000,
    0xAB70_0000_0000_0000_0000_0001,
    0xAC70_0020_0000_0200_0000_0000,
    0xAC70_0020_0000_0000_0010_0000,
    0xB370_0020_2020_0000_0C00_0000,
    0xB470_0000_4001_0000_1403_FFFF,
    0xB570_0020_0000_0000_0000_00FF,
    0xB670_0020_2000_0000_0000_0000,
    0xB770_0020_0010_0000_0000_0000,
    0xB870_0020_0000_0000_0030_003F,
    0xB970_0020_0000_0000_0000_0009,
    0xBA70_0040_4000_0000_1800_3FFF,
    0xBB70_0020_0000_0000_0000_000F].map (decodeTableWord 96) = [
    some (.mldw tHdr { tE with a := .v 4, b := .v 5, mod := 0x13 }),
    some (.mswap tHdr tE),
    some (.mma tHdr { tE with a := .v 1, acc := 0xf }),
    some (.mmat tHdr { tE with a := .v 1, acc := 0xe }),
    some (.mclr tHdr { tE with acc := 3, mod := 0xff }),
    some (.mguide tHdr { tE with b := .v 1, acc := 2 }),
    some (.msta tHdr { tE with a := .v 2, acc := 1, sub := 1, mod := 0x18000 }),
    some (.mldt tHdr { tE with d := .v 8, a := .v 1, shp := 3 }),
    some (.mprog tHdr { tE with d := .v 1, acc := 9 }),
    some (.mlease tHdr tE),
    some (.mrel tHdr tE),
    some (.mwait tHdr { tE with mod := 1 }),
    some (.mstatArith tHdr { tE with d := .v 1, acc := 4 }),
    some (.mstatEng tHdr { tE with d := .v 1, sub := 1 }),
    some (.rrd3 tHdr { tE with d := .v 1, a := .v 2, b := .v 4, spair := 3 }),
    some (.rwin tHdr { tE with a := .v 4, bar := 2, spair := 5, mod := 0x3ffff }),
    some (.rwclose tHdr { tE with d := .v 1, mod := 0xff }),
    some (.coll tHdr { tE with d := .v 1, a := .v 2 }),
    some (.cwait tHdr { tE with d := .v 1, b := .v 2 }),
    some (.genrd tHdr { tE with d := .v 1, sub := 3, mod := 0x3f }),
    some (.ranksw tHdr { tE with d := .v 1, mod := 9 }),
    some (.tview tHdr { tE with d := .v 2, a := .v 4, spair := 6, mod := 0x3fff }),
    some (.tvclose tHdr { tE with d := .v 1, mod := 0xf })] := by decide +kernel

/-- Pairs (Tables 5-10a and 5-14): FFMA beside SAR under @!p3, and MOV (integer class) beside FRCP. -/
theorem decode_pair : [0xE270_0300_8080_C581_0140_EB00, 0xE170_0C00_6440_0300_C080_0700].map (decodeTableWord 96) = [
    some (.pair tHdr { op0 := ⟨.ffma, .v 1, .v 2, .v 6⟩, op1 := ⟨.sar, .v 4, .v 10, .v 14⟩, g1neg := true, g1pred := 3 }),
    some (.pair tHdr { op0 := ⟨.movi, .v 0, .k .f1, .v 0⟩, op1 := ⟨.frcp, .v 3, .v 4, .v 0⟩, g1neg := false, g1pred := 7 })] := by
  decide +kernel

/-! ## Words and terms that are refused -/

/-- The name of a refusal. -/
def refusedAs (w : W96) : Option DecodeError :=
  match decode w with
  | .ok _ => none
  | .error e => some e

/-- A reserved major opcode and sub-function, operand values 406 and 511, a reserved type, size and scope code, a field that the
entry does not accept, and too few bytes (R78, R80, R84, R85). -/
theorem test_refused_words :
    ([0x1F_70_00_00_00_00_00_00_00_00_00_00, 0x67_70_00_01_80_00_00_00_00_00_14_00, 0x00_70_32_C0_20_18_00_01_40_00_00_00,
      0x59_7F_FF_FF_FF_FF_00_00_00_00_00_00, 0x00_70_00_20_20_18_00_01_C0_00_00_00, 0x60_70_00_20_20_00_00_00_05_00_00_00,
      0x60_70_00_20_20_00_00_00_02_E0_00_00, 0x00_70_00_20_20_18_00_01_40_00_00_01].map refusedAs =
      [some .opcode, some .opcode, some .operand, some .operand, some .type, some .code, some .code, some .entry]) ∧
    (match decodeBytes (List.replicate 11 0) with | .error e => e == .short | .ok _ => false) = true := by
  decide +kernel

/-- Format V and I: guard 1111, a constant as destination, an odd pair, an unused operand, an immediate where none may stand, none
where one must, B beside an immediate, a type, .SAT, a sign bit, a predicate, a comparison, a sub-function, mod bits, an element index, a
special register, and an event, which has no word (R64, R66, R67, R69, R73, R85, R119). -/
theorem illformed_v : ∀ i ∈ ([
    .iadd { tHdr with gneg := true } { tV with ty := .i32 }, .iadd tHdr { tV with d := .k .one, ty := .i32 },
    .iadd tHdr { tV with d := .v 1, ty := .i64 }, .mov tHdr { tV with b := .v 1 }, .mov tHdr { tV with imm := some 1 },
    .movi tHdr { tV with imm := none }, .iadd tHdr { tV with b := .v 1, imm := some 1, ty := .i32 }, .iadd tHdr { tV with ty := .f32 },
    .irem tHdr { tV with sat := true, ty := .i32 }, .iadd tHdr { tV with nega := true, ty := .i32 },
    .iadd tHdr { tV with pred := 1, ty := .i32 }, .icmp tHdr { tV with rc := 6, ty := .i32 },
    .shfl tHdr { tV with sub := 4 }, .iadd tHdr { tV with mod := 1, ty := .i32 }, .unpack tHdr { tV with ty := .n8, mod := 4 },
    .gets tHdr { tV with mod := 0x6 <<< 7 }, .fadd tHdr { tV with ty := .f32, rc := 4 }, .gridEnd 0 0] : List Instr), i.wf = false := by
  decide +kernel

/-- Format M: a constant that is not %zero as base, an odd base pair, a v register for LDS, a size, scope, policy and order that the
entry does not take, sign extension of four bytes, a sub-function, a predicate, an offset where none is used, mod bits, and an atomic
whose type does not fit its size (R74, R212, R225). -/
theorem illformed_m : ∀ i ∈ ([
    .ld tHdr { tM with a := .k .one }, .ld tHdr { tM with a := .v 1 }, .lds tHdr { tM with size := .b4, a := .s 2 },
    .lds tHdr { tM with d := .s 0, a := .s 2, size := .b1 }, .ldl tHdr { tM with scope := .p },
    .ldc tHdr { tM with policy := .retain }, .ld tHdr { tM with order := .release }, .ld tHdr { tM with size := .b4, sext := true },
    .cctlWb tHdr { tM with sub := 1 }, .ld tHdr { tM with pred := 1 }, .fence tHdr { tM with order := .acquire, off := 4 },
    .st tHdr { tM with mod := 1 }, .atom tHdr { tM with size := .b4, mod := 6 }, .fence tHdr tM] : List Instr), i.wf = false := by
  decide +kernel

/-- Format E: a barrier, shape, accumulator, tensor identifier or s pair where none is used, a quad that is not aligned, a
sub-function, mod bits, an odd accumulator of a tandem operation, and a member count of 0 (R75, R234). -/
theorem illformed_e : ∀ i ∈ ([
    .mswap tHdr { tE with bar := 1 }, .mswap tHdr { tE with shp := 1 }, .mswap tHdr { tE with acc := 1 },
    .mswap tHdr { tE with tid := 1 }, .mswap tHdr { tE with spair := 1 }, .cpyLd tHdr { tE with a := .v 2 },
    .mldw tHdr { tE with sub := 2, mod := 0x10 }, .mswap tHdr { tE with mod := 1 }, .mmat tHdr { tE with acc := 1 },
    .binit tHdr { tE with mod := 64 }] : List Instr), i.wf = false := by
  decide +kernel

/-- Format C: operand B, sub-function, an offset where none is used, mod bits (R76); format P: both destinations in one bank, an s
destination, four source banks, two transcendentals, guard 1111, operand B of a unary operation (R82). -/
theorem illformed_cp : ∀ i ∈ ([
    .bra tHdr { tC with b := .v 1 }, .bra tHdr { tC with sub := 1 }, .nop tHdr { tC with off := 1 }, .nop tHdr { tC with mod := 1 },
    .pair tHdr ⟨⟨.fadd, .v 1, .v 2, .v 6⟩, ⟨.fadd, .v 5, .v 2, .v 6⟩, false, 7⟩,
    .pair tHdr ⟨⟨.fadd, .s 1, .v 2, .v 6⟩, ⟨.fadd, .v 4, .v 2, .v 6⟩, false, 7⟩,
    .pair tHdr ⟨⟨.fadd, .v 1, .v 0, .v 1⟩, ⟨.fadd, .v 4, .v 2, .v 3⟩, false, 7⟩,
    .pair tHdr ⟨⟨.frcp, .v 1, .v 0, .v 0⟩, ⟨.fsin, .v 4, .v 2, .v 0⟩, false, 7⟩,
    .pair tHdr ⟨⟨.fadd, .v 1, .v 2, .v 6⟩, ⟨.fadd, .v 4, .v 2, .v 6⟩, true, 7⟩,
    .pair tHdr ⟨⟨.movi, .v 1, .v 2, .v 6⟩, ⟨.fadd, .v 4, .v 2, .v 6⟩, false, 7⟩] : List Instr), i.wf = false := by
  decide +kernel


/-- The words that the spec's own examples write out (06_encoding_notes, 14, 16, 18 and 22), decoded to the instructions that they
stand beside. -/
theorem decode_examples : [
    0x1170_0098_8004_0000_0014_0000, 0x0070_0080_4C10_0001_4000_0000, 0x1170_0040_4004_0000_0008_0000,
    0x1D70_0060_0004_0000_0000_0000, 0x0070_0040_2A00_0001_8000_0000, 0x0070_00A0_4A10_0001_4000_0000,
    0x6170_0000_2028_0000_02A0_0000, 0x5670_0000_0000_0000_0000_0000, 0x5D70_00A0_4000_0000_0000_0000,
    0x7070_0000_0000_0000_0000_0000, 0x7170_0000_0000_0000_0080_0000, 0xA270_0001_E000_0000_0000_0000,
    0xA670_0001_80C8_0000_0000_0013, 0xA770_0600_2000_0800_0000_0000, 0x8070_0000_4080_0800_0010_0005,
    0x1B70_0000_1A20_0001_6800_0000, 0x5000_0000_0000_0000_0078_0000, 0xA370_0001_7000_0100_0000_0000,
    0xA570_0000_0A10_0100_0000_0000, 0x6A70_0054_0008_0000_02A0_000D, 0xB970_0020_0000_0000_0000_0002,
    0xB670_0054_0000_0000_0000_0000, 0xB770_0060_0010_0000_0000_0000, 0xB370_00C0_4038_0000_1000_0000,
    0xB470_0000_4000_8000_1000_8205, 0x00A6_0100_8004_0000_0320_0280, 0xE270_0002_0140_C001_4080_8700].map (decodeTableWord 96) = [
    some (.shl tHdr { tV with d := .v 4, a := .k .tlin, imm := some 5 }),
    some (.iadd tHdr { tV with d := .v 4, a := .v 4, b := .k .lane, ty := .i32 }),
    some (.shl tHdr { tV with d := .v 2, a := .v 4, imm := some 2 }),
    some (.movi tHdr { tV with d := .v 3, imm := some 0 }),
    some (.iadd tHdr { tV with d := .v 2, a := .v 2, b := .s 0, ty := .i64 }),
    some (.iadd tHdr { tV with d := .v 5, a := .v 4, b := .s 2, ty := .i32 }),
    some (.st tHdr { tM with a := .v 2, b := .v 5, size := .b4, scope := .p }),
    some (.exit tHdr tC),
    some (.sizesel tHdr { tC with d := .v 5, a := .v 4 }),
    some (.fenceo tHdr tM),
    some (.fencex tHdr { tM with scope := .d }),
    some (.mma tHdr { tE with a := .v 30 }),
    some (.msta tHdr { tE with a := .v 24, b := .v 25, mod := 0x13 }),
    some (.mldt tHdr { tE with d := .v 48, a := .v 2, shp := 1 }),
    some (.cpySt tHdr { tE with shp := 1, a := .v 4, b := .v 16, sub := 1, mod := 5 }),
    some (.icmp tHdr { tV with a := .v 1, b := .s 4, ty := .i32, rc := 5, pred := 0 }),
    some (.bra { tHdr with gpred := 0 } { tC with off := 15 }),
    some (.mmat tHdr { tE with a := .v 23, acc := 2 }),
    some (.mguide tHdr { tE with b := .s 2, acc := 2 }),
    some (.atom tHdr { tM with d := .v 2, a := .s 0, b := .v 1, size := .b4, scope := .p, mod := 0x0D }),
    some (.ranksw tHdr { tE with d := .v 1, mod := 2 }),
    some (.coll tHdr { tE with d := .v 2, a := .s 0 }),
    some (.cwait tHdr { tE with d := .v 3, b := .v 2 }),
    some (.rrd3 tHdr { tE with d := .v 6, a := .v 4, b := .v 7, spair := 4 }),
    some (.rwin tHdr { tE with a := .v 4, spair := 4, bar := 1, mod := 5 + 2 * 2 ^ 8 + 2 * 2 ^ 14 }),
    some (.iadd { tHdr with gneg := true, gpred := 2, pace := 3 } { tV with d := .v 8, a := .v 8, ty := .i32, imm := some 200 }),
    some (.pair tHdr ⟨⟨.fadd, .v 4, .v 5, .v 6⟩, ⟨.iadd, .v 5, .v 4, .v 8⟩, false, 7⟩)] := by
  decide +kernel


/-! ## A small machine -/

/-- The conditions of `Issues`, decided. -/
def issuesB (s : State) (i : Instr) : Bool :=
  s.iss.stroke.isNone && s.iss.lanes.all (fun l => decide (l < s.issGroup.lanes.length)) && i.within (s.issGroup.allot s.iss.slot)

theorem issues_of {s : State} {i : Instr} (h : issuesB s i = true) : Issues s i := by
  simp only [issuesB, Bool.and_eq_true, Option.isNone_iff_eq_none, List.all_eq_true, decide_eq_true_eq] at h
  exact ⟨h.1.1, h.1.2, h.2⟩

theorem issues_all {s : State} {is : List Instr} (h : is.all (issuesB s) = true) : ∀ i ∈ is, Issues s i :=
  fun i k => issues_of (List.all_eq_true.mp h i k)

/-- The conditions of `NibIssues`, decided. -/
def nibB (s : State) (h : Hdr) (n : Nat) (i : Instr) : Bool :=
  issuesB s i && s.iss.lanes.head? == some n && (s.active h).head? == some n

theorem nib_of {s : State} {h : Hdr} {n : Nat} {i : Instr} (k : nibB s h n i = true) : NibIssues s i h n := by
  simp only [nibB, Bool.and_eq_true, beq_iff_eq] at k
  exact { issues_of k.1.1 with nib := k.1.2, on := k.2 }

theorem nib_all {s : State} {h : Hdr} {n : Nat} {is : List Instr} (k : is.all (nibB s h n) = true) :
    ∀ i ∈ is, NibIssues s i h n :=
  fun i m => nib_of (List.all_eq_true.mp k i m)

/-- A lane at 0x10000 with v2:v3 = 0x10100, v4:v5 = 7, v8:v9 = 0x10240, v12:v13 = 0x10012, p0 true. -/
def tLane : Lane := { pc := 0x10000, v := [(2, 0x10100), (4, 7), (8, 0x10240), (12, 0x10012)], p := 1 }

/-- A group of three lanes, the last of them past the issuing set. -/
def tGroup : Group :=
  { ctx := 1, launch := 3, place := some 0, grp := 0, unit := 0, nunit := 40,
    lanes := [tLane, { tLane with v := [(2, 0x10200), (4, 9)], p := 0 }, { tLane with pc := 0x10020 }],
    s := [(0, 0x10300), (4, 0x10300)], gen := { k := 5, sid := 1 }, watch := List.replicate 4 ⟨0, 0, 0, 0⟩ }

/-- Its team: two consumer groups, barrier 5 with two members. -/
def tTeam : Team :=
  { ctx := 1, launch := 3, lin := 2, np := 0, nc := 2, tmask := 1, resv := [(0, 0, 0, 40), (1, 1, 40, 40)], nacc := 2, lines := 64,
    released := 3, bars := [(5, { members := 2 })] }

/-- The agent's group of core 0. -/
def tAgent : Group := { ctx := 1, lanes := List.replicate 32 {}, watch := List.replicate 4 ⟨0, 0, 0, 0⟩ }

/-- Core 0, which translates the page at 0x10000 to the same physical page, with rights r, w and x. -/
def tCore : Core :=
  { groups := [(0, tGroup), (63, tAgent)], teams := [(0, tTeam)],
    tlb := [{ ctx := 1, firmware := false, base := 0x10000, lg := 16, pte := placePte }] }

/-- The packet of the launch: two consumer groups of the largest allotment, grid extents 4, 2, 1, room for two ordered contributions. -/
def tWords : List W32 :=
  [0x0001_0001, 0, 0x80, 0x5_0000, 4, 2, 1, 0, 0, 0, 0, 0, 0, 0, 0, 0, 0, 0, 0, 0, 0, 0, 0, 0, 2, 0, 0, 0, 0, 0, 0, 0]

/-- Launch 3 of context 1. -/
def tLaunch : Launch := { ctx := 1, num := 3, queue := 0, index := 0, words := tWords, params := [], shapes := [] }

/-- A package in which lanes 0 and 1 of group 0 of core 0 issue at 0x10000. -/
def tS : State :=
  { State.reset with
    cores := [(0, tCore)], contexts := [(1, {})], launches := [tLaunch], nextId := 10,
    iss := { core := 0, slot := 0, lanes := [0, 1], pc := 0x10000 } }

/-- The same with another group in the slot, core, team, context, die 0. -/
def tWithGroup (f : Group → Group) : State := tS.modGroup 0 0 f
@[inherit_doc tWithGroup] def tWithTeam (f : Team → Team) : State := tS.modTeam 0 0 f
@[inherit_doc tWithGroup] def tWithCore (f : Core → Core) : State := tS.modCore 0 f
@[inherit_doc tWithGroup] def tWithContext (f : Context → Context) : State := tS.modContext 1 f
@[inherit_doc tWithGroup] def tWithDie (f : Die → Die) : State := tS.modDie 0 f

/-- The set's lanes are in trap mode. -/
def tTrap : State := tWithGroup fun g => { g with lanes := g.lanes.map fun l => { l with trap := true, tpc := 0x10000 } }

/-- The agent's group issues. -/
def tAgentIssue : State := { tS with iss := { tS.iss with slot := 63 } }

/-- A stroke over teams 0 to 3 of row 0, at 0x10000, in entry 1, that issues. -/
def tStroke : Stroke :=
  { ctx := 1, launch := 3, chunk := 0, consumer := true, box := ⟨0, 3, 0, 0, 0, 0⟩, pc := 0x10000,
    v := [(1, { cx := 2 }), (2, { base := 5 }), (4, { base := 0x10100 })] }
@[inherit_doc tStroke] def tStrokeState : State :=
  { tWithCore fun k => { k with strokes := [(1, tStroke)] } with
    iss := { core := 0, pc := 0x10000, stroke := some 1 } }

/-- The launch has a trap handler at 0x10100. -/
def tHandled : State := { tS with launches := [{ tLaunch with words := tWords.set 26 0x10100 }] }

/-- Every lane of a group with a change. -/
def tLanes (f : Lane → Lane) (g : Group) : Group := { g with lanes := g.lanes.map f }

/-- Page tables of context 1 at 0x40000 (R160): pages 0x10000 and 0x30000 are themselves, with rights r, w and x, and page 0x20000
is 2 ^ 37, on die 1. -/
def tTables : List Host.Cell :=
  [(0x40000, 0x48001), (0x48000, 0x50001), (0x50000, 0x50801), (0x50800, 0x51001), (0x51008, 0x0001_C000_0001_0003),
    (0x51010, 0x0001_C020_0000_0003), (0x51018, 0x0001_C000_0003_0003)].foldl (fun m x => putBytes m x.1 (bytesOf 8 x.2)) []

/-- The state of `tS` with these tables, and more bytes of memory. -/
def tMapped (bs : List (Nat × List Byte)) : State :=
  { tS with
    mem := bs.foldl (fun m x => putBytes m x.1 x.2) tTables
    contexts := [(1, { root := 0x40000, tidbase := 0x10800 })] }


/-! ## Witnesses: what meets the hypotheses of each statement -/

theorem witness_DecoderExact :
    decode 0x59_70_00_00_00_00_00_00_00_00_00_00 = .ok (.nop tHdr tC) ∧
    ∀ m ∈ [0x1F, 0x49, 0x4F, 0x75, 0x7F, 0x96, 0x9F, 0xAD, 0xAF, 0xBC, 0xBF, 0xC9, 0xDF, 0xE4, 0xFF],
      (field (BitVec.ofNat 96 (m * 2 ^ 88)) 88 8).toNat ∈
        [0x1F, 0x3E, 0x3F, 0x5F] ++ rangeFrom 0x49 7 ++ rangeFrom 0x75 11 ++ rangeFrom 0x96 10 ++ rangeFrom 0xAD 3
          ++ rangeFrom 0xBC 4 ++ rangeFrom 0xC9 23 ++ rangeFrom 0xE4 28 := by
  refine ⟨rfl, by decide +kernel⟩

theorem witness_IntegerResults : ∀ i ∈ ([
    .iadd tHdr { tV with d := .v 319, ty := .i32 }, .isub tHdr { tV with d := .s 62, ty := .n64, sat := true },
    .imul tHdr { tV with ty := .i64 }, .imulh tHdr { tV with ty := .n32 }, .imad tHdr { tV with ty := .i32 },
    .imin tHdr { tV with ty := .i32 }, .imax tHdr { tV with ty := .i32 }, .iabs tHdr { tV with ty := .i64 },
    .ineg tHdr { tV with ty := .i32, sat := true }, .idiv { tHdr with gneg := true, gpred := 0 } { tV with ty := .i32, imm := some 0 },
    .irem tHdr { tV with ty := .n64 }] : List Instr), Issues tS i := issues_all (by decide +kernel)

theorem witness_IntegerResults_corners :
    Ty.isSigned .i32 = true ∧ ((-1 : Int) ≠ 0 ∧ Ty.isSigned .n64 = false) ∧ ((-2 : Int) ≠ 0 ∧ (-(2 ^ 31) + 1 : Int) ≠ -(2 ^ (wBits .i32 - 1))) ∧
    (let r := typeRange true (wBits .i64)
     r.1 ≤ r.1 ∧ r.1 ≤ r.2 ∧ r.2 ≤ r.2 ∧ r.2 < 2 ^ 63 ∧ -(2 ^ 63) - 1 < r.1 ∧ r.2 = 2 ^ 63 - 1) := by
  decide +kernel

theorem witness_BitResults : (∀ i ∈ ([
    .and tHdr tV, .or tHdr tV, .xor tHdr { tV with ty := .b64 }, .not tHdr tV, .shl tHdr tV, .shr tHdr tV,
    .sar tHdr { tV with ty := .i32 }, .rotl tHdr tV, .bfx tHdr { tV with ty := .i64 }, .bfi tHdr tV, .popc tHdr tV, .clz tHdr tV,
    .brev tHdr tV] : List Instr), Issues tS i) ∧
    ((0xFFFF_FFFF : W64).toNat < 2 ^ wBits .b32 ∧ 31 < wBits .b32 ∧ (0xFFFF_FFFF_FFFF_FFFF : W64).toNat < 2 ^ wBits .i64 ∧
      63 < wBits .i64 ∧ Ty.isSigned .i64 = true ∧ (0xFFFF_FFFF : W64) ≠ 0) :=
  ⟨issues_all (by decide +kernel), by decide +kernel⟩

theorem witness_SelectionAndPairs : (∀ i ∈ ([
    .sel tHdr tV, .mov tHdr tV, .movi tHdr { tV with imm := some 1 }, .lea tHdr { tV with ty := .i32 },
    .iaddc tHdr { tV with ty := .n32 }, .icmp tHdr { tV with ty := .i32 }, .movs tHdr { tV with a := .v 2 }] : List Instr),
      Issues tS i) ∧
    (let f : PF := ⟨⟨.ffma, .v 1, .v 2, .v 6⟩, ⟨.iadd, .v 4, .v 10, .v 319⟩, true, 3⟩
     (Instr.pair tHdr f).wf = true ∧ Issues tS (.pair tHdr f)) :=
  ⟨issues_all (by decide +kernel), by decide +kernel, issues_of (by decide +kernel)⟩

theorem witness_FloatResults : ∀ i ∈ ([
    .fadd tHdr tV, .fsub tHdr tV, .fmul tHdr tV, .ffma tHdr tV, .fdiv tHdr tV, .fmin tHdr tV, .fmax tHdr tV, .frcp tHdr tV,
    .frsq tHdr tV, .fsqrt tHdr tV, .fexp2 tHdr tV, .flog2 tHdr tV, .fsin tHdr tV, .fcos tHdr tV, .ftanh tHdr tV, .fscale tHdr tV,
    .fclass tHdr tV, .frnd tHdr tV] : List Instr), Issues tS i := issues_all (by decide +kernel)

theorem witness_FloatComparison : (∀ i ∈ ([.fcmp tHdr { tV with ty := .f32, rc := 7, pred := 6 }] : List Instr), Issues tS i) ∧
    fF32.decode 0x7FC0_0000 = .nan ∧ fF32.decode 0x8000_0000 ≠ .nan ∧ fF32.decode 0x7F80_0000 ≠ .nan :=
  ⟨issues_all (by decide +kernel), by decide +kernel⟩

theorem witness_PackedResults : ∀ i ∈ ([
    .xadd tHdr tV, .xmul tHdr tV, .xfma tHdr tV, .xmin tHdr tV, .xmax tHdr tV, .cvt tHdr tV, .pack tHdr tV, .unpack tHdr tV,
    .dot4 tHdr tV, .dot8 tHdr tV, .dscl tHdr tV] : List Instr), Issues tS i := issues_all (by decide +kernel)

theorem witness_CrossLaneAndRandom : (∀ i ∈ ([
    .redl tHdr tV, .scanl tHdr tV, .shfl tHdr tV, .vote tHdr tV, .rng tHdr tV, .rngseed tHdr tV, .rngskip tHdr tV] : List Instr),
      Issues tS i) ∧ ((tS.core 0).groups.find 0).isSome = true :=
  ⟨issues_all (by decide +kernel), by decide +kernel⟩

theorem witness_MatchAndElect : (∀ i ∈ ([.match_ tHdr tV, .elect tHdr tV] : List Instr), Issues tS i) ∧
    tS.iss.lanes.Pairwise (· < ·) ∧ (0 ∈ tS.active tHdr ∧ ∀ k ∈ tS.active tHdr, 0 ≤ k) ∧ (31 < 32) ∧
    (tS.vote 0 0).isSome = true :=
  ⟨issues_all (by decide +kernel), by decide +kernel, by decide +kernel, by decide, by decide +kernel⟩

/-- Values of each class of every format; magnitudes at and above the largest finite one, and below the least normal one. -/
theorem witness_FloatResults_values :
    (∀ f ∈ [fF32, fF16, fBF16, fF8A, fF8B, fF4], 2 ^ f.eb - 1 < 2 ^ f.eb ∧ 2 ^ f.fb - 1 < 2 ^ f.fb ∧
      (let x := FVal.fin false (2 ^ (f.fb + 1) - 1) ((if f.ieee then 2 ^ f.eb - 2 else 2 ^ f.eb - 1 : Nat) - f.bias - f.fb)
       x.diff (f.decode (f.maxBits false)) = 0 ∧ 0 < (FVal.fin false 1 200).diff (f.decode (f.maxBits false)) ∧
       f.quantum 1 (-200) = 1 - (f.bias : Int) - f.fb)) ∧
    (fF32.decode 0x7FC0_0001 = .nan ∧ fF32.decode 0xFF80_0000 = .inf true ∧ fF32.decode 0x8000_0000 = .fin true 0 (-149) ∧
      fF32.decode 0x3F80_0000 = .fin false (2 ^ 23) (-23) ∧ fF32.decode 0x3F00_0000 = .fin false (2 ^ 23) (-24)) ∧
    (scaled false (2 ^ 23) (-23) (min (-23) 0) = scaled false 1 0 (min (-23) 0) ∧
      scaled false (2 ^ 23) (-24) (min (-24) (-1)) = scaled false 1 (-1) (min (-24) (-1))) ∧
    ((fF32.decode 0x3F80_0000).diff (fF32.decode 0x4000_0000) < 0 ∧
      (fF32.decode 0x8000_0000).diff (fF32.decode 0) = 0 ∧ (fF32.decode 0x8000_0000).isNeg = true ∧ (fF32.decode 0).isNeg = false) := by
  decide +kernel

/-- Element types of each kind, and a dot product of finite elements, of one NaN and of an infinite addend. -/
theorem witness_PackedResults_values :
    (∀ x y z : Nat, (fun a _ _ => a % 65536 : Nat → Nat → Nat → Nat) x y z < 65536) ∧
    (Ty.isFloat .f16 = true ∧ Ty.isFloat .i8 = false ∧ fF16.decode (0x7C00 % 2 ^ Ty.width .f16) = .inf false ∧
      fF16.decode (0x7E00 % 2 ^ Ty.width .f16) = .nan ∧ fF16.decode (0x3C00 % 2 ^ Ty.width .f16) = .fin false 1024 (-10)) ∧
    ((elemsOf .i8 4 0xFF02_0301).zip (elemsOf .i8 4 0x0101_0101) =
        [((false, 1, 0), (false, 1, 0)), ((false, 3, 0), (false, 1, 0)), ((false, 2, 0), (false, 1, 0)), ((true, 1, 0), (false, 1, 0))].map
          (fun (p : (Bool × Nat × Int) × (Bool × Nat × Int)) => (FVal.fin p.1.1 p.1.2.1 p.1.2.2, FVal.fin p.2.1 p.2.2.1 p.2.2.2)) ∧
      FVal.nan ∉ elemsOf .i8 4 0xFF02_0301 ∧ FVal.nan ∈ elemsOf .f8a 4 0x80 ∧ (0xFFFF_F000 : W32).toInt = -4096 ∧
      fF32.decode 0x7F80_0000 = .inf false) :=
  ⟨fun x _ _ => Nat.mod_lt x (by decide), by decide +kernel, by decide +kernel⟩

/-- A shuffle within and past its segment, and a list of lanes that a reduction takes. -/
theorem witness_CrossLaneAndRandom_values :
    ((0 < 8) ∧ 3 < 8 ∧ 13 - 13 % 8 ≤ 13 - 3 ∧ 3 ≤ 13 ∧ ¬(3 < 8 ∧ 9 - 9 % 8 + 3 ≤ 9) ∧ 13 + 2 < 13 - 13 % 8 + 8 ∧ ¬13 + 3 < 13 - 13 % 8 + 8) ∧
    combine { tV with ty := .n32 } (fun l => BitVec.ofNat 32 l) [3, 5] = some 8 ∧
    (BitVec.ofNat 32 (2 ^ 31 - 1)).toInt + (1 : W32).toInt = 2 ^ 31 ∧ fF32.decode (0x7FC0_0001 : W32).toNat = .nan := by
  decide +kernel

/-- Values of the further clauses: addends as wide as the type, whose sum carries out; formats and exponents; draws below and above the
least 24-bit fraction. -/
theorem witness_SelectionAndPairs_values :
    ((0xFFFF_FFFF : W64).toNat < 2 ^ wBits .i32 ∧ addCarry .i32 0xFFFF_FFFF 1 true = (1, true) ∧ (1 : W64).toNat < 2 ^ wBits .n64 ∧
      Ty.width .b32 = 32 ∧ Ty.width .i8 < 32 ∧ immVal .i64 0x8000_0000 = 0xFFFF_FFFF_8000_0000) ∧
    ((Cmp.lt ≠ .num ∧ Cmp.lt ≠ .nan ∧ (-24 : Int) ≤ -23) ∧ fcmpVal .lt (.fin true 1 (-23)) (.fin false 3 (-24)) = true ∧
      fcmpVal .gt (.inf true) (.fin true 5 9) = false) ∧
    ((0xFF : W32).toNat < 256 ∧ 2 ^ 0 ≤ (0x1FF : W32).toNat / 256 ∧ (0x1FF : W32).toNat / 256 < 2 ^ (0 + 1) ∧
      2 ^ 23 ≤ (0xFFFF_FFFF : W32).toNat / 256 ∧ (0xFFFF_FFFF : W32).toNat / 256 < 2 ^ 24 ∧ Ty.n32 ≠ .f32) := by
  decide +kernel

theorem witness_StrokeForms :
    (Form.uni 3).isUni = true ∧
    (let b : Box := ⟨0, 3, 0, 0, 0, 0⟩
     let f : Form := { base := 0x7FFF_FFF0, cx := 5 }
     inTypeRange (f.exact true) true b 0 31 = true ∧ inTypeRange ((Form.uni 0).exact true) true b 0 31 = true ∧
     inTypeRange (({ f with cx := 6 } : Form).exact true) true b 0 31 = false) ∧
    (match splitOf ⟨0, 3, 0, 0, 0, 0⟩ .lt true false { cx := 1 } (.uni 2) 0 32 with
     | .parts (some yes) (some no) none => yes.x1 == 1 && no.x0 == 2
     | _ => false) = true ∧
    (match splitOf ⟨0, 3, 0, 0, 0, 0⟩ .lt true false (.uni 1) (.uni 2) 0 32 with
     | .whole t => t
     | _ => false) = true := by
  decide +kernel

/-- The conditions of `StrokeIssues`, decided. -/
def strokeIssuesB (s : State) (e : Nat) (st : Stroke) (i : Instr) : Bool :=
  s.iss.stroke == some e && s.strokeAt s.iss.core e == some st && i.within s.strokeAllot

theorem strokeIssues_all {s : State} {e : Nat} {st : Stroke} {is : List Instr} (k : is.all (strokeIssuesB s e st) = true) :
    ∀ i ∈ is, StrokeIssues s i e st := by
  intro i m
  have k := List.all_eq_true.mp k i m
  simp only [strokeIssuesB, Bool.and_eq_true, beq_iff_eq] at k
  exact ⟨k.1.1, k.1.2, k.2⟩

theorem stroke_all {s : State} {h : Hdr} {e : Nat} {st : Stroke} {is : List Instr} (k : is.all (strokeIssuesB s e st) = true)
    (g : st.guard h = some true) : ∀ i ∈ is, StrokeRuns s i h e st :=
  fun i m => { strokeIssues_all k i m with guard := g }

theorem witness_StrokeInstructions :
    (let f : VF := { tV with d := .v 63, a := .v 2, b := .v 1, ty := .i32 }
     let st1 : Stroke := { tStroke with pc := 0x1000C }
     (∀ i ∈ ([.iadd tHdr f, .isub tHdr f, .imul tHdr f, .shl tHdr { f with imm := some 31 }, .sel tHdr { f with b := .v 2 },
        .icmp tHdr f, .mov tHdr f, .movi tHdr { f with imm := some 1 }, .movs tHdr f] : List Instr),
        StrokeRuns tStrokeState i tHdr 1 tStroke) ∧
     closable f = true ∧ st1.fa tStrokeState f = some { base := 5 } ∧ st1.formB tStrokeState f = some { cx := 2 } ∧
     Form.isUni { base := 5 } = true ∧ Form.isUni { cx := 2 } = false ∧ (st1.setForm f.d { base := 5 }).isSome = true ∧
     st1.formsOf tStrokeState f.ty.is64 f.a = some [{ base := 5 }] ∧ (st1.setForms f.d [{ base := 5 }]).isSome = true ∧
     st1.formsOf tStrokeState f.ty.is64 f.d = some [.uni 0]) ∧
    (∀ i ∈ ([.nop tHdr tC, .yield tHdr tC, .bra tHdr tC, .call tHdr { tC with d := .v 6 }, .brx tHdr { tC with a := .v 4 },
        .ret tHdr { tC with a := .v 4 }, .join tHdr tC, .exit tHdr tC, .callx tHdr { tC with d := .v 6, a := .v 4 },
        .sizesel tHdr { tC with d := .v 1, a := .v 2 }] : List Instr), StrokeRuns tStrokeState i tHdr 1 tStroke) ∧
    ((tStroke.link (.v 62) 0x1000C).isSome = true ∧ tStroke.uniPair tStrokeState (.v 4) = some 0x10100) ∧
    (tStrokeState.iss.stroke = some 1 ∧ (Instr.xor tHdr tV).hdr.isSome = true ∧
      (Instr.xor tHdr tV).major ∉ [0x00, 0x01, 0x03, 0x11, 0x1A, 0x1B, 0x1C, 0x1D, 0x1E, 0x50, 0x51, 0x52, 0x53, 0x54, 0x55, 0x56,
        0x59, 0x5A, 0x5D, 0x5E, 0x60, 0x64]) := by
  refine ⟨⟨stroke_all (by decide +kernel) (by decide +kernel), ?_⟩, stroke_all (by decide +kernel) (by decide +kernel), ?_, ?_⟩ <;>
    decide +kernel

/-- A guard that is uniform and false, and one that is a compare form. -/
def tPred : Stroke := { tStroke with p := [(1, .uni false), (2, .cmp .lt true { cx := 2 } { base := 3 })] }
@[inherit_doc tPred] def tPredState : State := { tStrokeState with cores := tStrokeState.cores.map fun x => (x.1, { x.2 with strokes := [(1, tPred)] }) }

theorem witness_StrokeInstructions_guards :
    (let f : VF := { tV with d := .v 63, a := .v 2, b := .v 1, ty := .i32 }
     let h := { tHdr with gpred := 1 }
     let m : MF := { tM with d := .v 1, a := .v 4, size := .b4, scope := .p }
     let st1 : Stroke := { tPred with pc := 0x1000C }
     (∀ i ∈ ([.iadd h f, .isub h f, .imul h f, .shl h { f with imm := some 31 }, .sel h { f with b := .v 2 }, .icmp h f, .mov h f,
        .ld h m, .ldc h m, .brx h { tC with a := .v 2 }, .ret h { tC with a := .v 2 }, .callx h { tC with a := .v 2 },
        .sizesel h { tC with d := .v 1, a := .v 2 }, .movi h f, .movs h f, .bra h tC, .join h tC, .exit h tC, .nop h tC, .yield h tC,
        .call h { tC with d := .v 6 }] : List Instr), StrokeIssues tPredState i 1 tPred) ∧
     tPred.guard h = some false ∧ loadCloses m tPredState st1 = true ∧ st1.uniPair tPredState (.v 2) = some 5 ∧
     ((st1.setForms f.d ((valRegs f.ty.is64 (immVal f.ty 0)).map Form.uni)).isSome = true ∧
       st1.formsOf tPredState f.ty.is64 f.a = some [{ base := 5 }] ∧ st1.formsOf tPredState f.ty.is64 f.d = some [.uni 0] ∧
       ((st1.setForms f.d [{ base := 5 }]).bind fun t => t.setForms f.a [.uni 0]).isSome = true) ∧
     (st1.link (.v 0) 0).isSome = true ∧ st1.form (st1.tx tPredState) (st1.ty tPredState) (.v 2) = some { base := 5 }) ∧
    (tPred.guard { tHdr with gpred := 2 } = none ∧ (Instr.ld { tHdr with gpred := 2 } tM).major ∉ [0x50, 0x5E] ∧
      tPredState.strokeAt 0 1 = some tPred ∧ tPredState.iss.stroke = some 1) ∧
    (let h := { tHdr with gpred := 2 }
     (∀ i ∈ ([.bra h tC] : List Instr), StrokeIssues tPredState i 1 tPred) ∧
     tPred.pform h.gpred.val = .cmp .lt true { cx := 2 } { base := 3 } ∧
     roleLanes (natBits (tPredState.launchWord 1 3 2) 5 2) (natBits (tPredState.launchWord 1 3 2) 10 6) true = (0, 64) ∧
     (match splitOf tPred.box .lt true false { cx := 2 } { base := 3 } 0 64 with
      | .parts (some y) (some n) none => decide (y = ⟨0, 1, 0, 0, 0, 0⟩ ∧ n = ⟨2, 3, 0, 0, 0, 0⟩)
      | _ => false) = true ∧
     (match splitOf tPred.box .lt true false { cx := 64, cl := 1 } { base := 100 } 0 64 with
      | .parts (some y) (some n) (some m) => decide (y = ⟨0, 0, 0, 0, 0, 0⟩ ∧ m = ⟨1, 1, 0, 0, 0, 0⟩ ∧ n = ⟨2, 3, 0, 0, 0, 0⟩)
      | _ => false) = true ∧
     (match splitOf ⟨0, 1, 0, 0, 0, 0⟩ .lt true false { cx := 64, cl := 1 } { base := 100 } 0 64 with
      | .parts (some _) none (some _) => true
      | _ => false) = true ∧
     (match splitOf ⟨1, 3, 0, 0, 0, 0⟩ .lt true false { cx := 64, cl := 1 } { base := 100 } 0 64 with
      | .parts none (some _) (some _) => true
      | _ => false) = true ∧
     (match splitOf ⟨1, 1, 0, 0, 0, 0⟩ .lt true false { cx := 64, cl := 1 } { base := 100 } 0 64 with
      | .parts none none (some _) => true
      | .ink => true
      | _ => false) = true ∧
     (⟨0, 1, 0, 0, 0, 0⟩ : Box).first 4 2 < (⟨2, 3, 0, 0, 0, 0⟩ : Box).first 4 2 ∧
     (match splitOf tPred.box .eq true false { cl := 1 } { base := 3 } 0 64 with
      | .ink => true
      | _ => false) = true ∧
     (match splitOf tPred.box .lt true false { base := 2 } { base := 3 } 0 64 with
      | .whole b => b
      | _ => false) = true) := by
  refine ⟨⟨strokeIssues_all (by decide +kernel), ?_⟩, by decide +kernel, strokeIssues_all (by decide +kernel), ?_⟩ <;> decide +kernel

/-- A state in which a load's check passes, or not, as booleans. -/
def strokeCheck (s : State) (va : W64) : Option Nat × Code :=
  match s.checkAs 0 1 false (fun _ => none) (loadAsk va 4 .p) with
  | (.ok (pa, _), _) => (some pa, 0)
  | (.error f, _) => (none, f.code)

/-- A load that passes at home, and at a nearer cache; one that does not; and the kin of a JOIN: all waiting at two addresses, one not
waiting, and two that merge. -/
theorem witness_StrokeInstructions_loads :
    (let m : MF := { tM with d := .v 1, a := .v 4, size := .b4, scope := .p }
     let st1 : Stroke := { tStroke with pc := 0x1000C }
     let s := tStrokeState
     let near := s.modCore 0 fun k => { k with l1 := [⟨0x202, List.replicate 128 7, 0, 0, 0, false, 15⟩] }
     (∀ i ∈ ([.ld tHdr m, .ldc tHdr m] : List Instr), StrokeRuns s i tHdr 1 tStroke) ∧
     loadCloses m s st1 = true ∧ strokeVa m s st1 = some 0x10100 ∧ s.walkWaits 0 1 0x10100 = false ∧
     strokeCheck s 0x10100 = (some 0x10100, 0) ∧ strokeCheck s 0x20000 = (none, cXLATE) ∧
     s.nearLine 0 .p 0x10100 4 placePte = none ∧ (near.nearLine 0 .c 0x10100 4 placePte).isSome = true ∧
     s.linked (dieOf 0) (homeDie 0x10100) = true ∧ s.held 0x10100 = false ∧
     (st1.setForms m.d (((destOf m.d m.size.regs 4 m.sext).regs 7).map Form.uni)).isSome = true) ∧
    (let k : Stroke := { tStroke with joining := true, box := ⟨0, 1, 0, 0, 0, 0⟩ }
     let s := fun (j : Stroke) => tWithCore fun c => { c with strokes := [(1, k), (2, j)] }
     let kin := fun (t : State) => (t.core 0).strokes.filter fun x => sameKin k x.2
     let apart := s { k with box := ⟨2, 3, 1, 1, 0, 0⟩, pc := 0x10020 }
     let busy := s { k with box := ⟨2, 3, 1, 1, 0, 0⟩, joining := false }
     firstMerge (kinOrder (apart.launchWord 1 3 4) (apart.launchWord 1 3 5) (kin apart)) = none ∧
     (kin apart).all (fun x => x.2.joining) = true ∧ minOf ((kin apart).map fun x => x.2.pc.toNat) = some 0x10000 ∧
     firstMerge (kinOrder (busy.launchWord 1 3 4) (busy.launchWord 1 3 5) (kin busy)) = none ∧
     (kin busy).any (fun x => !x.2.joining) = true ∧
     mergeable k { k with box := ⟨2, 3, 0, 0, 0, 0⟩ } = some ⟨0, 3, 0, 0, 0, 0⟩) := by
  refine ⟨⟨stroke_all (by decide +kernel) (by decide +kernel), ?_⟩, ?_⟩ <;> decide +kernel

/-- The boxes that a row of teams makes (R32): a run of one row is one box, and teams 1 to 6 of a grid of 2 by 2 by 2 are three. -/
theorem test_boxesOf_fewest : (boxesOf 2 2 1 6).length = 3 ∧ boxesOf 4 2 0 3 = [⟨0, 3, 0, 0, 0, 0⟩] := by decide +kernel

/-- A stroke's SIZESEL of a memory without a schedule: its entry faults, and so does the whole read. -/
theorem witness_StrokeInstructions_sizesel :
    let s := tStrokeState
    let l := tLaunch
    ((s.launch 1 3).isSome = true ∧ (match s.schedEntries 0 64 1 (schedAddr l.words tC) 0 8 with | .error x => x == cXLATE | .ok _ => false) = true ∧
      ∀ p ∈ s.schedParts 0 64 1 (schedAddr l.words tC) 0 8, s.reachWaits 0 64 1 p.1 p.2 = false) ∧
    (let t := { s with launches := [{ l with words := tWords.set 20 0x10100 }], mem := putBytes [] 0x10100 (bytesOf 8 0x1_0000_0000) }
     (match t.schedEntries 0 64 1 (schedAddr (tWords.set 20 0x10100) tC) 0 8 with | .ok bs => bs.length == 32 | .error _ => false) = true ∧
      ∀ p ∈ t.schedParts 0 64 1 (schedAddr (tWords.set 20 0x10100) tC) 0 8, t.reachWaits 0 64 1 p.1 p.2 = false) := by
  decide +kernel

/-- Lane 0's pair v12:v13 is no multiple of 4, lane 1's, 0, is one. -/
theorem witness_Branches : (∀ i ∈ ([.bra tHdr { tC with off := 0xFFFFFFFF }, .brx tHdr { tC with a := .v 12 }, .call tHdr { tC with d := .v 318 },
      .callx tHdr { tC with d := .s 2, a := .v 12 }, .ret tHdr { tC with a := .v 12 }] : List Instr), Issues tS i) ∧
    (tS.active tHdr).map (fun l => ((tS.env tHdr).src64 l false (.v 12)).toNat % 4) = [2, 0] :=
  ⟨issues_all (by decide +kernel), by decide +kernel⟩

theorem witness_WaitsAndExits : (∀ i ∈ ([.nop tHdr tC, .yield tHdr tC, .join tHdr tC, .syncg tHdr tC, .synct tHdr { tC with mod := 1 },
      .exit tHdr tC] : List Instr), Issues tS i) ∧ (∀ l ∈ tS.active tHdr, ((tS.env tHdr).g.lane l).trap = false) ∧
    (∀ i ∈ ([.trapret tHdr tV] : List Instr), Issues tTrap i) ∧ tTrap.allTrap = true ∧
    (∃ l, l < tGroup.lanes.length ∧ (tGroup.lane l).exited = false) ∧
    (∀ l, l < (tLanes (fun x => { x with exited := true }) tGroup).lanes.length →
      ((tLanes (fun x => { x with exited := true }) tGroup).lane l).exited = true) :=
  ⟨issues_all (by decide +kernel), by decide +kernel, issues_all (by decide +kernel), by decide +kernel, ⟨0, by decide +kernel⟩,
    by decide +kernel⟩

theorem witness_InkInstruction : (∀ i ∈ ([.ink tHdr tC] : List Instr), Issues tS i) ∧ tStrokeState.iss.stroke = some 1 ∧
    tStrokeState.strokeAt 0 1 = some tStroke :=
  ⟨issues_all (by decide +kernel), by decide +kernel⟩

/-- All lanes wait at a JOIN, at two addresses; at a SYNCG; in trap mode at a TRAPRET; and in a group that waits for nothing none does. -/
theorem witness_WaitsEnd :
    (0 < tGroup.lanes.length ∧ tGroup.allWait false .join = false ∧ tGroup.allWait false .syncg = false ∧
      tGroup.allWait true .trapret = false ∧ (tLanes (fun x => { x with wait := .join }) tGroup).allWait false .join = true ∧
      (tLanes (fun x => { x with wait := .syncg }) tGroup).allWait false .syncg = true ∧
      (tLanes (fun x => { x with wait := .trapret, trap := true }) tGroup).allWait true .trapret = true) ∧
    (let s := tWithTeam fun t => { t with gone := 2 }
     let u := s.modGroup 0 0 (tLanes fun x => { x with wait := .synct })
     ((s.core 0).groups.find 0).isSome = true ∧ (s.group 0 0).place = some 0 ∧
     (∃ k ∈ (s.team 0 0).covered none, s.arrivedAt 0 0 k .synct = false) ∧
     ((u.core 0).groups.find 0).isSome = true ∧ (u.group 0 0).place = some 0 ∧ (u.team 0 0).covered none = [0, 1] ∧
     ∀ k ∈ (u.team 0 0).covered none, u.arrivedAt 0 0 k .synct = true) := by
  decide +kernel

theorem witness_TakingAnException :
    ((tTrap.group 0 0).lane 0).trap = true ∧
    (((tS.group 0 0).lane 0).trap = false ∧ tS.trapAddr (tS.group 0 0) = 0) ∧
    (((tS.group 0 63).lane 5).trap = false) ∧
    (((tHandled.group 0 0).lane 2).trap = false ∧ (0 : Nat) ≠ 63 ∧ tHandled.trapAddr (tHandled.group 0 0) ≠ 0 ∧
      ((tHandled.core 0).groups.find 0).isSome = true ∧ 2 < (tHandled.group 0 0).lanes.length) ∧ 31 < 32 := by
  decide +kernel

theorem witness_HaltingAndFreezing :
    (((tWithGroup fun g => { g with frozen := some 5 }).group 0 0).frozen.isSome = true ∧
      (tS.group 0 0).frozen = none ∧ ((tS.core 0).groups.find 0).isSome = true ∧
      ((tWithGroup fun g => { g with halted := true }).group 0 0).halted = true ∧ (tS.core 0).agentFrozen = false ∧
      ((tWithCore fun k => { k with agentFrozen := true }).core 0).agentFrozen = true) ∧
    ((∀ i ∈ ([.halt tHdr tV] : List Instr), Issues tS i) ∧ ((tS.context (tS.env tHdr).g.ctx).getD {}).dbgctl = false) ∧
    (let s := tWithContext fun x => { x with dbgctl := true }
     (∀ i ∈ ([.halt tHdr tV] : List Instr), Issues s i) ∧ ((s.context (s.env tHdr).g.ctx).getD {}).dbgctl = true ∧
     (s.active tHdr).head? = some 0 ∧ s.active { tHdr with gneg := true } = []) ∧
    (∀ i ∈ ([.freeze tHdr { tV with mod := 0x1FFF }] : List Instr), NibIssues tS i tHdr 0) :=
  ⟨by decide +kernel, ⟨issues_all (by decide +kernel), by decide +kernel⟩, ⟨issues_all (by decide +kernel), by decide +kernel⟩,
    nib_all (by decide +kernel)⟩

theorem witness_TrapAndBreakpoint : (∀ i ∈ ([.trap tHdr { tC with mod := 0x1FFF }, .bkpt tHdr tC] : List Instr), Issues tS i) ∧
    tStrokeState.iss.stroke = some 1 ∧ ((tTrap.group 0 0).lane 0).trap = true ∧
    (((tHandled.group 0 0).lane 0).trap = false ∧ tHandled.trapAddr (tHandled.group 0 0) ≠ 0 ∧
      ((tHandled.core 0).groups.find 0).isSome = true ∧ 0 < (tHandled.group 0 0).lanes.length) :=
  ⟨issues_all (by decide +kernel), by decide +kernel⟩

theorem witness_LeavingAndDelivery :
    ({ tLane with tcause := 0x8000 } : Lane).tcause.getLsbD 15 = true ∧ tLane.tcause.getLsbD 15 = false ∧
    (tS.group 0 0).nextDeliv = none ∧
    (let s := tWithGroup fun g => { g with deliv := [⟨1, { code := cECC }, none⟩] }
     let u := s.modGroup 0 0 fun g => { g with draining := true }
     let gone := s.modGroup 0 0 fun g => { g with lanes := g.lanes.modify 1 fun l => { l with exited := true } }
     (s.group 0 0).nextDeliv = some 0 ∧ (s.group 0 0).deliv[0]? = some ⟨1, { code := cECC }, none⟩ ∧
     ((s.core 0).groups.find 0).isSome = true ∧ (s.group 0 0).draining = false ∧ ((s.group 0 0).lane 1).exited = false ∧
     (u.group 0 0).nextDeliv = some 0 ∧ (u.group 0 0).draining = true ∧
     (gone.group 0 0).nextDeliv = some 0 ∧ ((gone.group 0 0).lane 1).exited = true ∧ ((gone.group 0 0).lane 0).exited = false) := by
  decide +kernel

theorem witness_PrivilegeTraps :
    (let f : VF := { tV with mod := 0x107 <<< 7 }
     tS.iss.stroke = none ∧ Instr.within (.gets tHdr f) (tS.issGroup.allot tS.iss.slot) = true ∧ isTrapReg (sregNo f) = true ∧
     tS.allTrap = false ∧ Instr.within (.sets tHdr f) (tS.issGroup.allot tS.iss.slot) = true ∧ tS.setsAllowed (sregNo f) = false ∧
     Instr.within (.trapret tHdr tV) (tS.issGroup.allot tS.iss.slot) = true ∧ tS.iss.slot ≠ 63 ∧
     isTrapReg (sregNo { tV with mod := 0x10 <<< 7 }) = false) ∧
    (isTrapReg 0x105 = true ∧ 0x105 ≠ 0x100 ∧ 0x105 ≠ 0x106 ∧ 0x105 ≠ 0x107) := by
  decide +kernel

theorem witness_SpecialRegisters :
    (isTrapReg (sregNo { tV with mod := 0x105 <<< 7 }) = true ∧ tTrap.allTrap = true) ∧
    (∀ i ∈ ([.gets tHdr { tV with mod := 0x105 <<< 7 }] : List Instr), Issues tTrap i) ∧ tS.iss.snap = none ∧ (3 < 4) ∧
    (∀ i ∈ ([.cycloRead tHdr { tV with mod := 3 <<< 7 }, .gets tHdr { tV with mod := 0x3C <<< 7 }] : List Instr), Issues tS i) ∧
    (∀ r ∈ [0x100, 0x106, 0x107], tTrap.setsAllowed (sregNo { tV with mod := BitVec.ofNat 19 (128 * r) }) = true ∧
      sregNo { tV with mod := BitVec.ofNat 19 (128 * r) } = r) ∧
    (∀ i ∈ ([.sets tHdr { tV with mod := 0x107 <<< 7 }] : List Instr), Issues tTrap i) ∧
    (∀ r ∈ [0x008, 0x010], tAgentIssue.setsAllowed (sregNo { tV with mod := BitVec.ofNat 19 (128 * r) }) = true) ∧
    (∀ i ∈ ([.sets tHdr { tV with mod := 0x10 <<< 7 }] : List Instr), Issues tAgentIssue i) :=
  ⟨by decide +kernel, issues_all (by decide +kernel), by decide +kernel, by decide, issues_all (by decide +kernel), by decide +kernel,
    issues_all (by decide +kernel), by decide +kernel, issues_all (by decide +kernel)⟩

/-- WATCH of each scope; of local memory with a base within 32 bits, and with high base bits (v2:v3 and v4:v5 of a lane whose v5 is
set); of package scope with a free entry, and with a range that leaves its page. -/
theorem witness_WatchesSamplesLogs :
    (let g : VF := { tV with d := .v 1, a := .v 2, b := .v 4, mod := 0x10 }
     let room := fun (b : Opnd) => ((tS.beginIssue tHdr).setWatch 0 0 0 ⟨0, 0, 0, 0⟩).watchRoom 0 1
       ((tS.env tHdr).src64 0 false (.v 2)) ((tS.env tHdr).src32 0 b).toNat
     (∀ i ∈ ([.watch tHdr g, .watch tHdr { g with mod := 0x110 }, .watch tHdr { g with a := .v 2, mod := 0x1C },
        .unwatch tHdr { tV with mod := 3 }, .sampleMark tHdr tV, .sampleOn tHdr { tV with sub := 1 },
        .sampleOff tHdr { tV with sub := 2 }] : List Instr), NibIssues tS i tHdr 0) ∧
     (∀ i ∈ ([.logm tHdr { tV with a := .v 4 }] : List Instr), Issues tS i) ∧
     (field g.mod 2 2 ≠ 3 ∧ g.mod.getLsbD 8 = false ∧ (0x110 : BitVec 19).getLsbD 8 = true ∧ field (0x1C : BitVec 19) 2 2 = 3 ∧
      (0x1C : BitVec 19).getLsbD 8 = false ∧ (0x18 : BitVec 19).getLsbD 8 = false) ∧
     (let w := tWithDie fun d => { d with walks := List.replicate 256 { ctx := 1, va := 0x40000, core := 0, pref := true } }
      nibB w tHdr 0 (.watch tHdr { g with a := .v 4, mod := 0x1C }) = true ∧
      (w.beginIssue tHdr).walkWaits 0 1 ((w.env tHdr).src64 0 false (.v 4)) = true ∧
      (tS.beginIssue tHdr).walkWaits 0 1 ((tS.env tHdr).src64 0 false (.v 2)) = false ∧
      ((tWithGroup fun g => { g with watch := [⟨0, 4, 1, 0x8000_0000⟩] }).group 0 0).watch[0]?.any (fun w => w.ctl.getLsbD 31) = true) ∧
     hiHalf ((tS.env tHdr).src64 0 false (.v 2)) = 0 ∧ hiHalf ((tS.env tHdr).src64 0 false (.k .ones)) = 0 ∧
     (room (.v 4)).1 = some 0x10100 ∧ (room (.k .ones)).1 = none ∧
     hiHalf ((tS.env tHdr).src64 0 false (.v 3)) = 7) :=
  ⟨nib_all (by decide +kernel), issues_all (by decide +kernel), by decide +kernel, by decide +kernel, by decide +kernel,
    by decide +kernel, by decide +kernel, by decide +kernel⟩


/-- What a check answers: its address where it passes and leaves the state, its fault's code where it fails. -/
def checked (s : State) (e : Env) (l : Nat) (q : Ask) : Option Nat × Code :=
  match s.check e l q with
  | (.ok (pa, _), t) => (if t = s then some pa else none, 0)
  | (.error f, _) => (none, f.code)

/-- A check that passes and leaves the state. -/
def passB (s : State) (e : Env) (l : Nat) (q : Ask) (pa : Nat) (pte : W64) : Bool :=
  match s.check e l q with
  | (.ok x, t) => decide (x = (pa, pte) ∧ t = s)
  | _ => false

theorem pass_of {s : State} {e : Env} {l : Nat} {q : Ask} {pa : Nat} {pte : W64} (h : passB s e l q pa pte = true) :
    s.check e l q = (.ok (pa, pte), s) := by
  unfold passB at h
  split at h
  · next k =>
    obtain ⟨rfl, rfl⟩ := of_decide_eq_true h
    exact k
  · exact absurd h (by simp)

/-- An outstanding load and an entry of the store queue at 0x10100, of lane 0. -/
def tAcc (id : Nat) : Access :=
  { id := id, lane := 0, ctx := 1, va := 0x10100, pa := 0x10100, pc := 0x10000, scope := .p, order := .relaxed, policy := .normal }
@[inherit_doc tAcc] def tLoad (id : Nat) : LoadReq := { acc := tAcc id, bytes := 4, dst := { reg := 1 } }
@[inherit_doc tAcc] def tStore (id : Nat) : StoreReq := { acc := tAcc id, kind := .store [1, 2, 3, 4] }

/-- The state of each clause: misaligned; no translation; no right; a home that the form lacks, which the check lets pass; a tag that differs; a watch; poison; an
agent's write of what Nopol root alone writes; and an access that passes, at the last byte of its page. Then lanes: one whose walk waits
for the walker, one that takes its fault, one that parks. -/
theorem witness_ChecksOfAccesses :
    (let e := tS.env tHdr
     let q : Ask := { va := 0x1FFFC, bytes := 4, align := 4, need := { w := true }, kind := some .write, tagck := true, ecc := true }
     let leaf := fun (pte : W64) => tWithCore fun k => { k with tlb := k.tlb.map fun x => { x with pte := pte } }
     let watched := tWithGroup fun g => { g with watch := [⟨0x1FFFE, 1, 1, 0x8000_0020⟩] }
     checked tS e 0 { q with va := 0x1FFFD } = (none, cALIGN) ∧ checked tS e 0 { q with va := 0x20000 } = (none, cXLATE) ∧
     checked (leaf 0x0000_4000_0001_0003) e 0 q = (none, cPERM) ∧
     checked { leaf 0x0001_E000_0001_0003 with form := .b940d } e 0 q = (some 0x1FFFC, 0) ∧
     checked { leaf (placePte + 0x20_0000_0000) with form := .b940d } e 0 q = (some (2 ^ 37 + 0x1FFFC), 0) ∧
     checked { leaf (placePte + 0x4_0000_0000_0000) with contexts := [(1, { tagEn := true })] } e 0
       { q with va := 0x0300_0000_0001_FFFC } = (none, cTAG) ∧
     checked watched (watched.env tHdr) 0 q = (none, cWATCH) ∧
     checked { tS with gmeta := [(0x7FF, 0x10)] } e 0 q = (none, cECC) ∧ checked tS e 0 q = (some 0x1FFFC, 0) ∧
     (let r := { tS with contexts := [(1, { eventDesc := some 0x1FFF0 })] }
      r.rootOnly 0x1FFFC 4 = true ∧ checked r (tAgentIssue.env tHdr) 0 q = (none, cPERM))) ∧
    (let e := tS.env tHdr
     let q : Ask := { va := 0x30000, bytes := 4, align := 4, need := { r := true } }
     let full := tWithDie fun d => { d with walks := List.replicate 256 { ctx := 1, va := 0x40000, core := 0, pref := true } }
     full.checkWaits e q = true ∧ tS.checkWaits e q = false ∧ full.checkWaits e { q with va := 0x10100 } = false ∧
     checked tS e 0 q = (none, cXLATE)) ∧
    (let r := tWithGroup fun g => { g with sq := [{ acc := tAcc 3, kind := .tag 5 true }] }
     r.renewing (0x10100 / 64) = true ∧ tS.renewing (0x10100 / 64) = false) ∧
    ((cALIGN : Code) ≠ cXLATE ∧ tS.served 1 0x20000 = false ∧
      (tWithContext fun x => { x with pager := [⟨0x20000, 0x10000⟩] }).served 1 0x20000 = true) := by
  decide +kernel

theorem witness_Loads :
    (let f : MF := { tM with d := .v 1, a := .v 2, size := .b4, scope := .p }
     let g : MF := { f with d := .s 1, a := .s 0, scope := .k }
     (∀ i ∈ ([.ld tHdr { f with order := .acquire }, .ldc tHdr { f with scope := .g }, .lds tHdr g,
        .ldtag tHdr { f with size := .b1 }] : List Instr), Issues tS i) ∧
     (∀ l ∈ tS.active tHdr, (tS.beginIssue tHdr).check (tS.env tHdr) l { loadAsk ((tS.env tHdr).va l f) 4 .p with later := true } =
        (.ok (0x10100 + 256 * l, placePte), tS.beginIssue tHdr)) ∧
     (∀ l ∈ (tS.active tHdr).take 1, (tS.beginIssue tHdr).check (tS.env tHdr) l { loadAsk ((tS.env tHdr).va l g) 4 .k with later := true } =
        (.ok (0x10300, placePte), tS.beginIssue tHdr)) ∧
     (∀ l ∈ tS.active tHdr, (tS.beginIssue tHdr).check (tS.env tHdr) l
        { va := (tS.env tHdr).va l f, bytes := 1, need := { r := true }, later := true } = (.ok (0x10100 + 256 * l, placePte), tS.beginIssue tHdr))) ∧
    (let s := tWithGroup fun g => { g with loads := [tLoad 5, { tLoad 6 with tag := true }], sq := [tStore 3] }
     let u := tWithGroup fun g => { g with loads := [tLoad 5] }
     let v := tWithGroup fun g => { g with loads := [{ tLoad 5 with tag := true }] }
     let n := (u.modCore 0 fun k => { k with l1 := [⟨0x202, List.replicate 128 7, 0, 0, 0, false, 15⟩] }).modGroup 0 0 fun g =>
       { g with loads := g.loads.map fun r => { r with acc := { r.acc with scope := .c } } }
     (tS.group 0 0).loads[0]? = none ∧ (s.group 0 0).loads[0]? = some (tLoad 5) ∧
     ((s.group 0 0).loadTurn 5 = true ∧ (s.group 0 0).loadTurn 6 = false ∧ (tLoad 5).acc.stage = .queued) ∧
     (rangeFrom 0x10100 4).map (fun p => fwdByte (s.group 0 0).sq 5 p false) = [1, 2, 3, 4].map Fwd.value ∧
     (∀ p ∈ rangeFrom 0x10100 4, fwdByte (u.group 0 0).sq 5 p false = .memory) ∧ (u.group 0 0).loadTurn 5 = true ∧
     (n.nearLine 0 .c 0x10100 4 0).isSome = true ∧ u.nearLine 0 .p 0x10100 4 0 = none ∧ homeDie 0x10100 = dieOf 0 ∧
     u.held 0x10100 = false ∧ (v.group 0 0).loadTurn 5 = true ∧ (∀ p ∈ rangeFrom 0x10100 4, fwdByte (v.group 0 0).sq 5 p true = .memory)) := by
  refine ⟨⟨issues_all (by decide +kernel), fun l hl => pass_of ?_, fun l hl => pass_of ?_, fun l hl => pass_of ?_⟩, by decide +kernel⟩
  · exact (by decide +kernel : ∀ l ∈ tS.active tHdr, passB (tS.beginIssue tHdr) (tS.env tHdr) l
      { loadAsk ((tS.env tHdr).va l { tM with d := .v 1, a := .v 2, size := .b4, scope := .p }) 4 .p with later := true } (0x10100 + 256 * l) placePte = true) l hl
  · exact (by decide +kernel : ∀ l ∈ (tS.active tHdr).take 1, passB (tS.beginIssue tHdr) (tS.env tHdr) l
      { loadAsk ((tS.env tHdr).va l { tM with d := .s 1, a := .s 0, size := .b4, scope := .k }) 4 .k with later := true } 0x10300 placePte = true) l hl
  · exact (by decide +kernel : ∀ l ∈ tS.active tHdr, passB (tS.beginIssue tHdr) (tS.env tHdr) l
      { va := (tS.env tHdr).va l { tM with d := .v 1, a := .v 2, size := .b4, scope := .p }, bytes := 1, need := { r := true }, later := true }
      (0x10100 + 256 * l) placePte = true) l hl

/-- A release with nothing before it, and with a store queued; the oldest entry of a queue, a younger one, and an atomic behind a load; a
granule held by the home cache. -/
theorem witness_Stores :
    (let f : MF := { tM with a := .v 2, b := .v 4, size := .b4, scope := .p }
     let g := { f with off := 0xC0 }
     let q := tWithGroup fun g => { g with sq := [tStore 3] }
     let whole := fun l => ({
       va := (tS.env tHdr).va l f
       bytes := 4
       align := 4
       need := { w := true }
       kind := some .write
       tagck := true
       ecc := true } : Ask)
     let granule := fun l => ({ va := (tS.env tHdr).va l g, bytes := 64, align := 64, need := { w := true }, kind := some .write } : Ask)
     (∀ i ∈ ([.st tHdr { f with order := .release }, .sttag tHdr { g with size := .b1, mod := 1 }, .atom tHdr { f with mod := 5 },
        .atomc tHdr f, .red tHdr { f with mod := 5 }] : List Instr), Issues tS i) ∧
     ((tS.core 0).leaf 1 0x10100).isSome = true ∧ ((tS.core 0).leaf 1 0x10200).isSome = true ∧
     (tS.beginIssue tHdr).drained 0 0 .p 10 = true ∧ isRel Order.release = true ∧ tS.active tHdr ≠ [] ∧
     (q.beginIssue tHdr).drained 0 0 .p 10 = false ∧ (drainMark (q.env tHdr) .p (q.active tHdr)).getD q.nextId = 10 ∧
     (tS.active tHdr).map (fun l => checked (tS.beginIssue tHdr) (tS.env tHdr) l { whole l with later := true }) = [(some 0x10100, 0), (some 0x10200, 0)] ∧
     (tS.active tHdr).map (fun l => checked (tS.beginIssue tHdr) (tS.env tHdr) l { granule l with later := true }) = [(some 0x101C0, 0), (some 0x102C0, 0)] ∧
     (tS.active tHdr).map (fun l => checked (tS.beginIssue tHdr) (tS.env tHdr) l { atomAsk (tS.env tHdr) f l with later := true }) =
        [(some 0x10100, 0), (some 0x10200, 0)]) ∧
    (let at_ : StoreReq := { acc := tAcc 7, kind := .atom { sub := 0, ty := .n32, operand := 1 } (some {}) }
     let s := tWithGroup fun g => { g with sq := [tStore 3, tStore 4] }
     let u := tWithGroup fun g => { g with sq := [at_], loads := [tLoad 5] }
     (tS.group 0 0).sq[0]? = none ∧ (s.group 0 0).sq[0]? = some (tStore 3) ∧
     (∀ r ∈ (s.group 0 0).sq, 3 ≤ r.acc.id ∨ r.acc.stage ≠ .queued) ∧ (tStore 3).kind.returns = false ∧
     ((s.group 0 0).sq[1]? = some (tStore 4) ∧ ¬∀ r ∈ (s.group 0 0).sq, 4 ≤ r.acc.id ∨ r.acc.stage ≠ .queued) ∧
     (at_.kind.returns = true ∧ ¬∀ r ∈ (u.group 0 0).loads, 7 ≤ r.acc.id) ∧ homeDie 0x10100 = dieOf 0 ∧ s.held 0x10100 = false ∧
     s.views = [] ∧ s.gerr = [] ∧ (tWithDie fun d => { d with home := [(0x202, { valid := 1 })] }).homeHit 0x10100 32 = true) := by
  refine ⟨⟨issues_all (by decide +kernel), by decide +kernel⟩, by decide +kernel⟩

/-- A state in which the link between dies 0 and 1 is down. -/
def tCut (s : State) : State := { s with modules := [(moduleKey 0 1 0, { width := .down }), (moduleKey 0 1 1, { width := .down })] }

/-- A state in which stack 0 has held its data since cycle 0, in cycle n of die 0. -/
def tHold (s : State) (n : Nat) : State := { s with hbm := [(0, { th3 := some 0 })], dies := [(0, { cycle := n })] }

/-- An access with tag 3 under tag checking, and one to die 1. -/
def tTagged (a : Access) : Access := { a with va := 0x0300_0000_0001_0100, tagck := true }
@[inherit_doc tTagged] def tFar (a : Access) : Access := { a with pa := 2 ^ 37 + 0x100 }

/-- How a load ends otherwise: with TAG, with ECC, at a stack that holds its data too long or not yet, as a granule's tag, in a slot of
ordered sums, and at another die, with the link up and down. -/
theorem witness_Loads_ends :
    (let r := { tLoad 5 with acc := tTagged (tAcc 5) }
     let s := tWithContext fun x => { x with tagEn := true }
     let bad := { tS with gmeta := [(0x404, 0x10)] }
     s.loadFault r (s.metaAt 0x10100) (s.bad 0x10100 4) = some cTAG ∧ tS.loadFault (tLoad 5) (tS.metaAt 0x10100) (tS.bad 0x10100 4) = none ∧
     bad.loadFault (tLoad 5) (bad.metaAt 0x10100) (bad.bad 0x10100 4) = some cECC) ∧
    ((tHold tS 0).held 0x10100 = true ∧ (tHold tS 0).homeHit 0x10100 4 = false ∧ (tHold tS 0).overdue (stackOf 0x10100) = false ∧
      (tHold tS 12500000).overdue (stackOf 0x10100) = true) ∧
    ((tLoad 5).dst.scalar = false ∧ (tLoad 5).dst.pred = none ∧ ((tS.group 0 0).lane 0).exited = false ∧
      tS.inOsum 0x10100 4 = false ∧
      ({ tS with launches := [{ tLaunch with slots := [⟨0x10100, 0, []⟩] }] } : State).inSlot 0x10100 = true) ∧
    (let a := tFar (tAcc 5)
     let p : Pkt := { op := 0x01, src := 0, dst := 0, scope := a.scope, order := a.order, addr := a.pa / 128 * 128 }
     homeDie a.pa ≠ dieOf 0 ∧ (tS.request 0 (.load 0 0 5) p []).isSome = true ∧ ((tCut tS).request 0 (.load 0 0 5) p []).isNone = true ∧
     ((tS.core 0).leaf 1 0x10100).isSome = true) := by
  decide +kernel

/-- How an entry of a store queue ends otherwise: at another die, with a packet and without one, with the link up and down; at a stack
that holds its data; with TAG and with ECC. -/
theorem witness_Stores_ends :
    (let q := { tStore 3 with acc := tFar (tAcc 3) }
     let o : StoreReq := { q with kind := .ordered 7 }
     homeDie q.acc.pa ≠ dieOf 0 ∧ o.packet = none ∧ (tCut tS).linked (dieOf 0) (homeDie o.acc.pa) = false ∧
     tS.linked (dieOf 0) (homeDie o.acc.pa) = true ∧
     (q.packet.map fun x => ((tS.request 0 (.store 0 0 3) x.1 x.2).isSome, ((tCut tS).request 0 (.store 0 0 3) x.1 x.2).isSome)) =
       some (true, false)) ∧
    (let at_ : StoreReq := { acc := tAcc 7, kind := .atom { sub := 0, ty := .n32, operand := 1 } (some {}) }
     let s := tHold tS 12500000
     s.held 0x10100 = true ∧ s.needsStack at_ = true ∧ at_.kind.isAtom = true ∧ s.overdue (stackOf 0x10100) = true ∧
     s.needsStack (tStore 3) = true ∧ (tStore 3).kind.isAtom = false ∧ s.needsStack { tStore 3 with kind := .tag 3 true } = false) ∧
    (let s := tWithContext fun x => { x with tagEn := true }
     let bad := { tS with gmeta := [(0x404, 0x10)] }
     s.storeFault { tStore 3 with acc := tTagged (tAcc 3) } = some cTAG ∧ bad.storeFault (tStore 3) = some cECC ∧
     tS.storeFault (tStore 3) = none ∧ tS.views = [] ∧ tS.gerr = [] ∧
     (tWithDie fun d => { d with home := [(0x202, { valid := 1 })] }).homeHit 0x10100 4 = true) := by
  decide +kernel

/-- Local accesses at the last bytes of the team's region, with the line present and absent; ordered sums with room for both lanes, a lane alone
with none left, a slot's first contribution and its next. -/
theorem witness_LocalAndOrdered :
    (let f : MF := { tM with d := .v 1, a := .k .zero, b := .v 4, off := 0x1FFC, size := .b4, scope := .t }
     let u := tS.beginIssue tHdr
     let w := tWithCore fun k => { k with absent := [63] }
     isRel f.order = false ∧ (∀ l ∈ tS.active tHdr, (tS.issLane l).exited = false) ∧
     (∀ i ∈ ([.ldl tHdr f, .stl tHdr f, .atoml tHdr { f with sub := 8 }] : List Instr), Issues tS i) ∧
     (∀ k ∈ [AKind.read, .write, .atomic], ∀ l ∈ tS.active tHdr, u.localFault (tS.env tHdr) l ((tS.env tHdr).la l f) 4 4 k = none) ∧
     (tS.core 0).present [63] = true ∧ (w.core 0).present [63] = false ∧
     sortDedup ((tS.active tHdr).flatMap fun l => teamLines (tS.env tHdr).team ((tS.env tHdr).la l f) 4) = [63] ∧
     (let q := tWithGroup fun g => { g with sq := [tStore 3] }
      isRel Order.release = true ∧ q.active tHdr ≠ [] ∧
      (q.beginIssue tHdr).drained 0 0 .t ((drainMark (q.env tHdr) .t (q.active tHdr)).getD q.nextId) = false)) ∧
    (let f : MF := { tM with a := .v 2, b := .v 4, size := .b4, scope := .p, mod := 0x15 }
     let u := tS.beginIssue tHdr
     let h : Hdr := { tHdr with gpred := 0 }
     let full := { tS with launches := [{ tLaunch with slots := [⟨0x10100, 0, [(1, 0), (2, 0)]⟩] }] }
     (∀ i ∈ ([.atomo tHdr f] : List Instr), Issues tS i) ∧
     (tS.active tHdr).map (fun l => checked u (tS.env tHdr) l { atomAsk (tS.env tHdr) f l with later := true }) = [(some 0x10100, 0), (some 0x10200, 0)] ∧
     u.contributions 1 3 + (tS.active tHdr).length = (tS.env tHdr).word 24 ∧
     full.active h = [0] ∧ (full.env h).word 24 ≤ (full.beginIssue h).contributions 1 3 ∧
     checked (full.beginIssue h) (full.env h) 0 (atomAsk (full.env h) f 0) = (some 0x10100, 0) ∧
     full.launch 1 3 = some { tLaunch with slots := [⟨0x10100, 0, [(1, 0), (2, 0)]⟩] } ∧ tS.launch 1 3 = some tLaunch) := by
  refine ⟨⟨by decide +kernel, by decide +kernel, issues_all (by decide +kernel), by decide +kernel⟩, issues_all (by decide +kernel),
    by decide +kernel⟩

theorem witness_CacheAndFences :
    (let a : MF := { tM with a := .v 2 }
     let z : MF := { tM with a := .k .zero }
     ∀ i ∈ ([.pref tHdr a, .cctlIl1 tHdr a, .cctlIrd tHdr { a with sub := 1 }, .cctlWb tHdr { a with sub := 2 }, .cctlIl1all tHdr { z with sub := 3 },
        .cctlIrdall tHdr { z with sub := 4 }, .fence tHdr { tM with order := .acquire, scope := .k },
        .fence tHdr { tM with order := .acqrel, scope := .s }, .fenceo tHdr tM, .fencex tHdr { tM with scope := .p },
        .fencep tHdr { tM with d := .v 1, b := .v 4, scope := .s, mod := 1 }, .cbseal tHdr { tM with mod := 15 },
        .cbwait tHdr { tM with mod := 15 }] : List Instr), Issues tS i) ∧
    (let u := tS.beginIssue tHdr
     let s := tWithGroup fun g => { g with loads := [tLoad 5], sq := [tStore 3], fenceo := 4 }
     let v := s.beginIssue tHdr
     let w := tWithGroup (tLanes fun x => { x with wait := .cond (.cores []) })
     let r := tWithDie fun d => { d with reqs := [⟨2, 0, .rst, 0, 0, 0, 0, 1, 3, 0, 0, 0, 0, .relaxed, [], 0⟩] }
     tS.active tHdr ≠ [] ∧ (tS.active tHdr).all (fun l => (u.group 0 0).loadsDone l) = true ∧
     (s.active tHdr).all (fun l => (v.group 0 0).loadsDone l) = false ∧ isRel Order.acquire = false ∧ isRel Order.acqrel = true ∧
     u.drained 0 0 .s 10 = true ∧ v.drained 0 0 .k 10 = false ∧ (s.env tHdr).begun = false ∧ v.fenceoMarks 0 .k ≠ [] ∧
     u.fenceoMarks 0 .p = [] ∧ (w.env tHdr).begun = true ∧ (tS.active tHdr).all (fun l => u.remoteDone 0 0 l 10) = true ∧
     (r.active tHdr).all (fun l => (r.beginIssue tHdr).remoteDone 0 0 l 10) = false ∧ (0 : BitVec 7).getLsbD 0 = false ∧
     (1 : BitVec 7).getLsbD 0 = true) :=
  ⟨issues_all (by decide +kernel), by decide +kernel⟩

/-- The keys of ordered contributions, and a slot whose contributions came in another order. -/
theorem witness_LocalAndOrdered_sums :
    (1023 < 1024 ∧ (5 < 2 ^ 64) ∧ orderKey 2 1023 7 < orderKey 3 0 5 ∧ orderKey 2 3 5 < orderKey 2 3 7) ∧
    (let o : Slot := ⟨0x10100, 0x3F80_0000, [(9, 0xCB80_0000), (4, 0x4B80_0000)]⟩
     [(4, 0x4B80_0000), (9, 0xCB80_0000)].Perm o.contrib ∧
     [(4, (0x4B80_0000 : W32)), (9, 0xCB80_0000)].Pairwise (fun a b => a.1 < b.1)) ∧
    ({ tStore 3 with kind := .ordered 7 } : StoreReq).kind = .ordered 7 := by
  decide +kernel

/-- A record of shape or tensor fields, each a value at a lowest bit. -/
def tRec (xs : List (Nat × Nat)) : BitVec 512 := BitVec.ofNat 512 (xs.foldl (fun n x => n + x.1 * 2 ^ x.2) 0)

/-- A row of 16 bytes at 0x10400, one dimension of 64 unsigned bytes; the same with an extent of 0; a tensor of 64 signed bytes. -/
def tShape : BitVec 512 := tRec [(0x10400, 0), (0x0B, 64), (1, 72), (64, 88), (1, 184), (16, 376), (1, 392), (1, 408), (1, 424)]
@[inherit_doc tShape] def tEmpty : BitVec 512 := tRec [(0x10400, 0), (0x0B, 64), (1, 72), (1, 184), (16, 376), (1, 392), (1, 408), (1, 424)]
@[inherit_doc tShape] def tTensor : BitVec 512 := tRec [(0x10400, 0), (0x03, 64), (1, 72), (1, 75), (64, 104), (1, 200)]

/-- The state of `tS` with shape registers 0, 1 and 2. -/
def tShaped : State := tWithTeam fun t => { t with shapes := [(0, tShape), (1, tShape), (2, tEmpty)] }

theorem witness_Barriers :
    (({} : Barrier).epoch ≠ 1 ∧ ({} : Barrier).epoch = 0) ∧
    (((tS.team 0 0).bar 6).members = 0 ∧ ((tS.team 0 0).bar 5).members ≠ 0 ∧
      ((fun x => Barrier.arrive x 1) ((tS.team 0 0).bar 5)).complete = false ∧
      ((fun x => Barrier.arrive x 2) ((tS.team 0 0).bar 5)).complete = true) ∧
    (let f : EF := { tE with bar := 5 }
     let used := tWithTeam fun t => { t with bars := [(5, { members := 2, waiters := 1, epoch := 1, plast := true })] }
     let armed := tWithTeam fun t => { t with bars := [(5, { members := 2, armed := 1, handler := 0x10200, link := 3 })] }
     (tS.env tHdr).g.place = some 0 ∧
     (∀ i ∈ ([.binit tHdr { f with mod := 127 }, .binv tHdr { f with bar := 6 }, .bexpect tHdr { f with b := .v 4 }, .barrive tHdr { f with mod := 63 },
        .bwait tHdr f, .bwait tHdr { f with mod := 1 }, .btest tHdr { f with d := .v 1 }, .btest tHdr { f with d := .v 1, mod := 1 },
        .barm tHdr { f with d := .v 6, a := .v 2 }, .barm tHdr { f with d := .v 6, a := .v 2, mod := 1 }] : List Instr), NibIssues tS i tHdr 0) ∧
     ((used.env tHdr).team.bar 5).waiters ≠ 0 ∧ (((tS.env tHdr).team.bar 5).waiters = 0 ∧ ((tS.env tHdr).team.bar 5).armed = 0 ∧
      (tS.beginIssue tHdr).barBusy 0 0 5 = false) ∧ ((tS.env tHdr).team.bar 6).members = 0 ∧
     (tTrap.active tHdr).any (fun l => ((tTrap.env tHdr).g.lane l).trap) = true ∧
     (tS.active tHdr).any (fun l => ((tS.env tHdr).g.lane l).trap) = false ∧
     ((used.env tHdr).team.bar 5).epoch.getLsbD 0 ≠ f.mod.getLsbD 0 ∧ ((tS.env tHdr).team.bar 5).epoch.getLsbD 0 = f.mod.getLsbD 0 ∧
     (((armed.env tHdr).team.bar 5).armed ≠ 0 ∧ ((armed.env tHdr).team.bar 5).handler ≠ (armed.env tHdr).src64 0 false (.v 2)) ∧
     (tS.beginIssue tHdr).drained 0 0 .t ((drainMark (tS.env tHdr) .t tS.iss.lanes).getD 10) = true) :=
  ⟨by decide +kernel, by decide +kernel, by decide +kernel, nib_all (by decide +kernel), by decide +kernel⟩

theorem witness_WakesAndPresence :
    (({} : Barrier).plast = false ∧ ({ plast := true } : Barrier).plast = true) ∧
    (let s := tWithGroup fun g => { g with vector := [⟨0x10200, 2, false⟩] }
     ((s.core 0).groups.find 0).isSome = true ∧ (s.group 0 0).vector = [⟨0x10200, 2, false⟩] ∧ 2 < (s.group 0 0).lanes.length) ∧
    (let f : EF := { tE with d := .v 1, a := .v 2, b := .v 4 }
     let w := tWithGroup fun g => { g with watch := [⟨8, 8, 3, 0x8000_0420⟩] }
     (∀ i ∈ ([.pclr tHdr { f with d := .v 0 }, .ptest tHdr f] : List Instr), NibIssues tS i tHdr 0) ∧
     (((tS.env tHdr).src32 0 (.v 4)).toNat ≠ 0 ∧ 128 * (tS.env tHdr).team.lines < ((tS.env tHdr).src32 0 (.v 2)).toNat + 7) ∧
     ¬(128 * (tS.env tHdr).team.lines < ((tS.env tHdr).src32 0 (.v 4)).toNat + 7) ∧
     lowestHit ((w.beginIssue tHdr).watchGroup 0 0 (w.env tHdr).g.watch 0 .write false true 7 7) = some (0, 1) ∧
     ((w.env tHdr).g.lane 0).wskip ≠ some tS.iss.pc ∧
     lowestHit ((tS.beginIssue tHdr).watchGroup 0 0 (tS.env tHdr).g.watch 0 .write false true 7 7) = none) :=
  ⟨by decide +kernel, by decide +kernel, nib_all (by decide +kernel), by decide +kernel⟩

/-- The command that CPY.LD makes of shape register 0, with local offset 0. -/
def tCmd : Cmd :=
  { kind := .cpyLd, seq := 1, slot := 0, place := 0, lane := 0, ctx := 1, launch := 3, pc := 0x10000, bar := 5, shape := tShape,
    org := [0, 0, 0, 0], bytes := 16, lines := [0], after := 10 }

theorem witness_TransfersIssue :
    (let f : EF := { tE with a := .v 16, b := .v 16 }
     (∀ i ∈ ([.cpyLd tHdr f, .cpySt tHdr { f with sub := 1, mod := 6 }, .cpym tHdr { f with mod := 3 }, .pft tHdr f,
        .cpyx tHdr { f with d := .v 16, b := .v 0, mod := 5 }, .cpyg tHdr f, .cpys tHdr f] : List Instr), NibIssues tShaped i tHdr 0) ∧
     tCmd.issueFault (tShaped.env tHdr).team = none ∧
     ({ tCmd with tb := 1 } : Cmd).issueFault (tShaped.env tHdr).team = some (cSHAPE, 0)) ∧
    (shapeEmpty tEmpty = true ∧ shapeEmpty tShape = false ∧ tCmd.kind ≠ .cpyx ∧ ((tShaped.core 0).groups.find 0).isSome = true ∧
      (tShaped.receivers 0 1 0 16 3).getLsbD 0 = true ∧ (tShaped.receivers 0 1 0 16 3).getLsbD 1 = false) :=
  ⟨⟨nib_all (by decide +kernel), by decide +kernel⟩, by decide +kernel⟩

/-- A command that ends with a result: none, a fault, or a wait. -/
def ranTo (x : State × Option (Nat × Stop)) : Option (Nat × Code) :=
  match x.2 with
  | some (i, .fault f) => some (i, f.code)
  | some (i, _) => some (i, 0)
  | none => none

theorem witness_TransfersRun :
    (let s := { tWithCore fun k => { k with cmds := [tCmd], cmdCtr := 1 } with nextId := 11 }
     let bad := { tCmd with shape := tRec [(0x20000, 0), (0x0B, 64), (1, 72), (64, 88), (1, 184), (16, 376), (1, 392), (1, 408), (1, 424)] }
     let x := fun (r : BitVec 512) => ({ tCmd with kind := .cpyx, shape2 := r, org2 := [0, 0, 0, 0] } : Cmd)
     let far := tMapped []
     let dst := tRec [(0x20000, 0), (0x0B, 64), (1, 72), (64, 88), (1, 184), (16, 376), (1, 392), (1, 408), (1, 424)]
     s.cmd 0 2 = none ∧ s.cmd 0 1 = some tCmd ∧ s.cmdReady 0 tCmd = true ∧ s.prefetchTurn 0 tCmd = true ∧
     (s.modGroup 0 0 fun g => { g with sq := [tStore 3] }).cmdReady 0 tCmd = false ∧
     ranTo (far.runTransfer 0 tCmd) = none ∧ ranTo (s.runTransfer 0 bad) = some (0, cXLATE) ∧ ({ tCmd with done := true } : Cmd).done = true ∧ tCmd.done = false ∧
     s.served 1 0x20000 = false ∧ ((x dst).kind = .cpyx ∧ (x dst).passed = none ∧ (x dst).done = false ∧ far.cpyxDie 0 (x dst) = 1) ∧
     far.linked (dieOf 0) 1 = true ∧ (tCut far).linked (dieOf 0) 1 = false) := by
  decide +kernel

/-- An engine's read or write that answers, and one that fails. -/
def engB (x : Except Stop (List Byte) × State) : Bool :=
  match x.1 with
  | .ok _ => true
  | .error _ => false

/-- The element that a command reads first, and its spots: of a local tile, of a tile out of bounds, of a row that a list names, and of
a CPYX between shapes of one width and of two. -/
theorem witness_TransfersRun_elements :
    (let far := { tMapped [] with cores := tShaped.cores }
     let m := tCmd.master 0
     tCmd.start < tCmd.rowLen ∧ ({ tCmd with kind := .cpym, recv := 0 } : Cmd).recv = 0 ∧ tCmd.kind ≠ .cpyg ∧ tCmd.kind ≠ .cpys ∧
     engB (far.engRead m (0x10400 + BitVec.ofNat 64 (4 * 0)) 4) = true ∧ engB (far.engRead m 0x60000 4) = false ∧
     (tCmd.spots 0 0 0).isSome = true ∧ ({ tCmd with kind := .cpySt, org := [64, 0, 0, 0] } : Cmd).spots 0 0 0 = none ∧
     globSpot (shapeLayout tShape) [60, 0, 0, 0] (boxCoords (shapeBox tShape) 3) ≠ none ∧
     globSpot (shapeLayout tShape) [64, 0, 0, 0] (boxCoords (shapeBox tShape) 3) = none ∧
     shapeWidth tShape = 8 ∧ (far.engLocal m 0 (elemBytes 8) .read).isNone = true) := by
  decide +kernel

theorem witness_ShapesAndTensors :
    (let f : EF := { tE with a := .v 8 }
     (∀ i ∈ ([.gset tHdr { tE with b := .v 2, mod := 11 }, .gget tHdr { tE with d := .v 1, mod := 16 }, .gld tHdr f, .gst tHdr f, .tidld tHdr { f with tid := 255 },
        .tidset tHdr { tE with b := .v 4, tid := 255, mod := 11 }, .thnd tHdr { tE with d := .v 2, a := .v 4, b := .v 4, tid := 1 },
        .thnd tHdr { tE with d := .v 2, a := .v 4, b := .k .ones, tid := 1 }] : List Instr), NibIssues tS i tHdr 0)) ∧
    (let s := tWithContext fun x => { x with tidbase := 0x10800 }
     let u := s.beginIssue tHdr
     let e := s.env tHdr
     let q := tWithGroup fun g => { g with sq := [tStore 3] }
     let read : Ask := { va := 0x10240, bytes := 64, align := 64, need := { r := true }, kind := some .read, tagck := true, ecc := true }
     let both : Ask := { read with va := u.tidAddr 1 255, need := { r := true, w := true }, kind := some .atomic }
     let full := u.modDie 0 fun d => { d with walks := List.replicate 256 { ctx := 1, va := 0x40000, core := 0, pref := true } }
     u.checkWaits e read = false ∧ full.checkWaits e { read with va := 0x30000 } = true ∧ u.checkWaits e both = false ∧
     u.checkWaits e (ask64 0x10240) = false ∧ u.linked 0 (homeDie 0x10240) = true ∧ (tCut u).linked 0 (homeDie (2 ^ 37)) = false ∧
     u.stackWaits 0x10240 64 = false ∧
     u.drained 0 0 .p ((drainMark e .p s.iss.lanes).getD u.nextId) = true ∧
     (q.beginIssue tHdr).drained 0 0 .p ((drainMark (q.env tHdr) .p q.iss.lanes).getD q.nextId) = false ∧
     checked u e 0 read = (some 0x10240, 0) ∧ u.held 0x10240 = false ∧ checked u e 0 (ask64 0x10240) = (some 0x10240, 0) ∧
     checked (u.homeLoad 0x10240 64 .normal) e 0 { ask64 (u.tidAddr 1 255) with ecc := true } = (some 0x147C0, 0) ∧
     checked u e 0 both = (some 0x147C0, 0) ∧ (2 ^ 28 - 1 < 2 ^ 28 ∧ 2 ^ 28 ≤ (e.src32 0 (.k .ones)).toNat ∧ (e.src32 0 (.v 4)).toNat < 2 ^ 28)) :=
  ⟨nib_all (by decide +kernel), by decide +kernel⟩

/-- Shape register 3 holds a tile of 32 columns and 32 rows of bytes for MLDT. -/
theorem witness_AccumulatorsAndTiles :
    (let s := tWithTeam fun t => { t with shapes := [(3, tRec [(0x0B, 64), (1, 72), (32, 376), (32, 392)])] }
     let r := (s.env tHdr).team.shapes.get 0 3
     let bytes := 32 * 32 * 8 / 8
     let gone := s.modCore 0 fun k => { k with absent := [1] }
     (∀ i ∈ ([.mldt tHdr { tE with d := .v 312, a := .k .zero, shp := 3 }] : List Instr), NibIssues s i tHdr 0) ∧
     (recFormat r).map Ty.width = some 8 ∧ recField r 376 16 = 32 ∧ recField r 392 16 = 32 ∧ recField r 75 5 = 0 ∧ recField r 83 5 = 0 ∧
     recField r 472 40 = 0 ∧ 0 % (if shapeSwz r = 0 then 16 else 128) = 0 ∧ 312 + (32 * 8 + 31) / 32 ≤ (s.env tHdr).g.allot 0 ∧
     inRegion (s.env tHdr).team 0 bytes = true ∧
     (s.beginIssue tHdr).watchGroup 0 0 (s.env tHdr).g.watch 0 .read false true 0 bytes = [] ∧
     (let w := s.modGroup 0 0 fun g => { g with watch := [⟨8, 8, 3, 0x8000_0410⟩] }
      (lowestHit ((w.beginIssue tHdr).watchGroup 0 0 (w.env tHdr).g.watch 0 .read false true 0 bytes)).isSome = true) ∧
     inRegion (s.env tHdr).team 0x1FF0 bytes = false ∧ 0x1FF0 % 16 = 0 ∧ (s.env tHdr).g.allot 0 < 318 + (32 * 8 + 31) / 32 ∧
     ((s.beginIssue tHdr).core 0).present (teamLines (s.env tHdr).team 0 bytes) = true ∧
     ((gone.beginIssue tHdr).core 0).present (teamLines (s.env tHdr).team 0 bytes) = false) :=
  ⟨nib_all (by decide +kernel), by decide +kernel⟩

/-- A parameter block of one row of bytes at local offset 1024, one k-step against the active plane, accumulate off. -/
def tBlk : BitVec 512 := tRec [(0x0B, 0), (0x0B, 5), (1, 10), (1, 16), (1, 24), (1, 64), (32, 144), (1024, 160)]

/-- An operation of team 0. -/
def tOp (k : MKind) : MOp := { kind := k, acc := 1, seq := 1, slot := 0, lane := 0, ctx := 1, pc := 0x10000, after := 10 }

/-- Team 0 holds the lease, and the block stands at the start of its region. -/
def tLeased : State := tWithCore fun k =>
  { k with
    holder := some 0, lmem := putBytes [] 0 (recBytes tBlk)
    teams := k.teams.map fun x => (x.1, { x.2 with leaseCount := 8 }) }

theorem witness_MatrixIssue :
    (let s := tWithTeam fun t => { t with queue := List.replicate 8 (tOp .mswap) }
     8 ≤ (s.env tHdr).team.queue.length ∧ (tS.env tHdr).team.queue.length < 8 ∧ MKind.mswap.named = false ∧
     (MKind.mldw .absent .n8).named = true) ∧
    (((tS.core 0).holder ≠ some 0 ∧ 0 ∉ (tS.core 0).fifo) ∧
     (let w := tWithCore fun k => { k with fifo := [0] }
      0 ∈ (w.core 0).fifo ∧ w.mayQueue 0 (some 0) = false) ∧
     ((tLeased.core 0).holder = some 0 ∧ (tLeased.env tHdr).team.releasing = false ∧ tLeased.mayQueue 0 (some 0) = true)) ∧
    (let f : EF := { tE with a := .k .zero, b := .k .zero, acc := 1 }
     (∀ i ∈ ([.mclr tHdr { tE with acc := 1, mod := 255 }, .mclr tHdr { tE with acc := 2 }, .mguide tHdr { tE with b := .v 4 }, .msta tHdr { f with mod := 0x0B },
        .msta tHdr { f with sub := 1, a := .v 2, b := .v 0, mod := 0x03 }, .mldw tHdr { f with acc := 0, mod := 0x0B },
        .mldw tHdr { f with acc := 0, b := .v 0, a := .v 2, sub := 1, mod := 0x03 }, .mswap tHdr tE, .mma tHdr { f with b := .v 0 }, .mmat tHdr { f with b := .v 0, acc := 0 },
        .mprog tHdr { tE with d := .v 1, acc := 1 }, .mstatArith tHdr { tE with d := .v 1, acc := 1 },
        .mstatEng tHdr { tE with d := .v 1, acc := 1, sub := 1 }, .mwait tHdr { tE with acc := 1 }, .mwait tHdr { tE with mod := 1 }, .mlease tHdr tE,
        .mrel tHdr tE] : List Instr), NibIssues tS i tHdr 0)) ∧
    ((tS.env tHdr).g.place = some 0 ∧ 1 < (tS.env tHdr).team.nacc ∧ ¬2 < (tS.env tHdr).team.nacc ∧ Ty.ofCode 0x0B = some .n8 ∧ Ty.n8 ∈ mstaTypes ∧
     localOk (tS.env tHdr).team 0 0 0 8 (upto 32) 32 = true ∧ localOk (tS.env tHdr).team 0 0 0 8 (upto (ksOf .n8 .n8)) 32 = true) ∧
    (let s := tLeased
     let b := recOf (((s.beginIssue tHdr).core 0).lbytes ((s.beginIssue tHdr).absLocal 0 0 0) 64)
     b = tBlk ∧ inRegion (s.env tHdr).team 0 64 = true ∧ ((s.beginIssue tHdr).core 0).present (teamLines (s.env tHdr).team 0 64) = true ∧
     (∀ d ∈ blkDescs b false, recField b (descAt d) 2 = 0) ∧ blkLocalOk (s.env tHdr).team b false = true ∧ blkBad b false = false ∧
     (∀ d ∈ blkDescs b true, recField b (descAt d) 2 = 0) ∧ blkLocalOk (s.env tHdr).team b true = true ∧ blkBad b true = false ∧
     (s.env tHdr).g.grp = 0 ∧ maskBit (s.env tHdr).team.tmask (0 / 2) = true ∧ 0 + 1 < (s.env tHdr).team.nacc) ∧
    (let s := tWithTeam fun t => { t with queue := [tOp .mswap] }
     (tS.env tHdr).team.accDone 1 false true = true ∧ (s.env tHdr).team.accDone 1 false true = false ∧
     (tS.env tHdr).team.accDone 1 true false = true ∧ (s.env tHdr).team.accDone 1 true false = false ∧
     (tLeased.env tHdr).team.queue = [] ∧ (s.env tHdr).team.queue ≠ []) :=
  ⟨by decide +kernel, by decide +kernel, nib_all (by decide +kernel), by decide +kernel, by decide +kernel, by decide +kernel⟩

/-- The entry that a tile handle names, where it is read. -/
def entryB (s : State) (h : W64) : Option (BitVec 512) :=
  match s.entryOf 0 0 1 h with
  | .ok r => some r
  | .error _ => none

theorem witness_MatrixIssue_tensors :
    (let s := tMapped [(0x10800, recBytes tTensor)]
     entryB (s.beginIssue tHdr) 0x10100 = some tTensor ∧ recFormat tTensor = some .i8 ∧ Ty.i8 ∈ mstaTypes ∧ Ty.ofCode 0x03 = some .i8) := by
  decide +kernel

/-- What may be wrong with the block at a place: its alignment, its lines, its local ranges; a tile handle whose page waits for a walk. -/
theorem witness_MatrixIssue_blocks :
    (let s := tLeased
     let u := s.beginIssue tHdr
     let bad := tRec [(0x0B, 0), (0x0B, 5), (1, 10), (1, 16), (1, 24), (1, 64), (32, 144), (0x2000, 160)]
     let gone := (s.modCore 0 fun k => { k with absent := [0] }).beginIssue tHdr
     let full := u.modDie 0 fun d => { d with walks := List.replicate 256 { ctx := 1, va := 0x40000, core := 0, pref := true } }
     32 % 64 ≠ 0 ∧ inRegion (s.env tHdr).team 0x2000 64 = false ∧ (gone.core 0).present (teamLines (s.env tHdr).team 0 64) = false ∧
     (match u.blkRecords (s.env tHdr) tBlk false with
      | .ok rs => rs.isEmpty
      | .error _ => false) = true ∧ blkHandles tBlk true = [] ∧
     blkFormed bad = true ∧ blkLocalOk (s.env tHdr).team bad false = false ∧
     (match u.blkRecords (s.env tHdr) bad false with
      | .ok _ => false
      | .error f => f.code == cPERM) = true ∧
     ((u.core 0).holder = some 0 ∧ (s.env tHdr).team.releasing = false) ∧ ¬((s.env tHdr).g.grp = 1) ∧
     full.reachWaits 0 0 1 (full.tidRange 1 0x10100).1 64 = true ∧ u.reachWaits 0 0 1 (u.tidRange 1 0x10100).1 64 = false) := by
  decide +kernel

/-- A matrix operation that starts with its accumulators cleared, and continued; a plane and accumulators of the other mode. -/
theorem witness_MatrixRuns_start :
    (let q := fun (o : MOp) => tLeased.modTeam 0 0 fun t => { t with queue := [o], active := { fmt := some .n8, ks := 32 } }
     let o := tOp (.mma false tBlk (blkOperand tBlk 0 0) .absent .absent)
     let t := (q o).team 0 0
     o.accs = [1] ∧ blkBit tBlk 24 = true ∧ blkBit tBlk 26 = false ∧ t.active.fmt = some (blkWfmt tBlk) ∧
     t.active.ks = ksOf (blkAfmt tBlk) (blkWfmt tBlk) ∧ (q o).headReady 0 0 o = true ∧ o.started = false ∧
     (tLeased.team 0 0).active.fmt ≠ some (blkWfmt tBlk) ∧
     (let k := tRec [(0x0B, 0), (0x0B, 5), (1, 10), (1, 16), (1, 22), (1, 24), (1, 64), (32, 144), (1024, 160)]
      let w := blkOperand k 0 0
      let r : MOp := { tOp (.mma false k (blkOperand k 0 0) .absent w) with started := true }
      blkBit k 22 = true ∧ minOf ((r.live ((q r).team 0 0) (blkSteps k)).map fun x => ((q r).team 0 0).stepsDone 1 x) = some 0 ∧
      (match (q r).readPlane (r.master 0 0) 0 w (blkWfmt k) (ksOf (blkAfmt k) (blkWfmt k)) 0 with
       | (.ok p, u) => (State.streamsStep 0 0 r k (blkOperand k 0 0) .absent p 0 [0]
           (u.openPlane.2.modTeam 0 0 fun x => { x with active := p, shadow := u.openPlane.1 })).isSome
       | _ => false) = true)) := by
  decide +kernel

theorem witness_MatrixRuns :
    (let q := fun (o : MOp) => tLeased.modTeam 0 0 fun t => { t with queue := [o], active := { fmt := some .n8, ks := 32 } }
     let ready := fun (k : MKind) => (q (tOp k)).headReady 0 0 (tOp k)
     let run : MOp := { tOp (.mma false tBlk (blkOperand tBlk 0 0) .absent .absent) with started := true }
     (tS.team 0 0).queue = [] ∧ (tOp .mswap).started = false ∧ ready .mswap = true ∧ ready (.mclr 255) = true ∧
     (match ((q (tOp (.mldw (.lmem 0 0 0 0) .n8))).readPlane ((tOp .mswap).master 0 0) 0 (.lmem 0 0 0 0) .n8 32 0).1 with
      | .ok _ => true
      | .error _ => false) = true ∧ ready (.mldw (.lmem 0 0 0 0) .n8) = true ∧ ready run.kind = true ∧
     ((q run).headReady 0 0 run = true ∧ run.parked = []) ∧
     run.live { (q run).team 0 0 with prog := [(1, { k0 := 1 })] } (blkSteps tBlk) = [] ∧
     run.live ((q run).team 0 0) (blkSteps tBlk) = [0] ∧ minOf ([0].map fun x => ((q run).team 0 0).stepsDone 1 x) = some 0 ∧
     blkBit tBlk 22 = false ∧
     (State.streamsStep 0 0 run tBlk (blkOperand tBlk 0 0) .absent ((q run).team 0 0).active 0 [0] (q run)).isSome = true ∧
     (let s := tWithCore fun k => { k with fifo := [0] }
      (s.core 0).holder = none ∧ (s.core 0).fifo = [0]) ∧
     (let s := tWithCore fun k => { k with holder := some 0 }
      (s.core 0).holder = some 0 ∧ (s.team 0 0).leaseCount = 0 ∧ (s.team 0 0).releasing = false ∧ (s.core 0).fifo = [] ∧
      ((s.modCore 0 fun k => { k with fifo := [1] }).core 0).fifo ≠ [] ∧ (s.team 0 0).atRest = true ∧ ((q run).team 0 0).atRest = false)) := by
  decide +kernel

/-- A poisoned wake in a group with a handler: a lane that a SYNCG's release holds is taken, a lane that waits for its loads is not; and
local lines of which one is still the target of a transfer. -/
theorem witness_WakesAndPresence_poisoned :
    (let s := tHandled.modGroup 0 0 fun g => { g with
      vector := [⟨0x10200, 2, true⟩]
      lanes := (g.lanes.modify 1 fun l => { l with wait := .cond (.drain .g 5 true) }).modify 2 fun l => { l with wait := .cond .loads } }
     ((s.core 0).groups.find 0).isSome = true ∧ (0 : Nat) ≠ 63 ∧ s.trapAddr (s.group 0 0) ≠ 0 ∧
     (s.group 0 0).vector = [⟨0x10200, 2, true⟩] ∧ 2 < (s.group 0 0).lanes.length ∧ ((s.group 0 0).lane 1).vectored = true ∧
     ((s.group 0 0).lane 2).vectored = false) ∧
    (let s := tWithCore fun k => { k with cmds := [{ tCmd with seq := 2, lines := [7] }], absent := [7, 9] }
     s.lineTargeted 0 7 = true ∧ s.lineTargeted 0 9 = false) := by
  decide +kernel

/-- A CPYX between shapes of two widths, with a source in bounds; GLD and TIDLD whose read, or put, waits for a walk, whose stack holds the
bytes, and holds them too long; and a link that is down. -/
theorem witness_TransfersRun_widths :
    (let wide := tRec [(0x10500, 0), (0x04, 64), (1, 72), (64, 88), (1, 184), (16, 376), (1, 392), (1, 408), (1, 424)]
     let k : Cmd := { tCmd with kind := .cpyx, shape2 := wide, org2 := [0, 0, 0, 0] }
     shapeWidth k.shape2 ≠ shapeWidth k.shape ∧ (k.spots 0 0 0).any (fun x => x.1.isSome) = true) ∧
    (let s := (tWithContext fun x => { x with tidbase := 0x30000 }).beginIssue tHdr
     let e := s.env tHdr
     let read : Ask := { va := 0x10240, bytes := 64, align := 64, need := { r := true }, kind := some .read, tagck := true, ecc := true, later := true }
     let full := s.modDie 0 fun d => { d with walks := List.replicate 256 { ctx := 1, va := 0x40000, core := 0, pref := true } }
     let put : Ask := { ask64 (full.tidAddr 1 255) with ecc := true }
     full.checkWaits e read = false ∧ full.checkWaits e put = true ∧ checked s e 0 read = (some 0x10240, 0) ∧
     ((tHold s 0).stackWaits 0x10100 64 = true ∧ (tHold s 0).linked 0 0 = true) ∧
     ((tHold s 12500000).stackWaits 0x10100 64 = false ∧ (tHold s 12500000).held 0x10100 = true ∧
       (tHold s 12500000).homeHit 0x10100 64 = false) ∧ (tCut s).linked 0 1 = false) := by
  decide +kernel

/-- A block that names a tensor by a handle whose page waits for a walk, and one whose walk has come. -/
theorem witness_MatrixIssue_handles :
    (let b := tRec [(0x0B, 0), (0x0B, 5), (1, 10), (1, 16), (1, 24), (1, 64), (1, 128), (0x10100, 160)]
     let u := tLeased.beginIssue tHdr
     let full := u.modDie 0 fun d => { d with walks := List.replicate 256 { ctx := 1, va := 0x40000, core := 0, pref := true } }
     let late := fun (s : State) (d : Nat) => s.reachWaits 0 0 1 (s.tidRange 1 (descHandle b d)).1 64
     blkHandles b false = [0] ∧ late full 0 = true ∧ late u 0 = false) ∧
    (let o : MOp := { tOp (.mma true tBlk .absent .absent .absent) with acc := 0, parked := [(0, 0x20000)], stopped := [1] }
     let t := { tTeam with queue := [o] }
     o.uses 0 = true ∧ o.parked ≠ [] ∧ t.accDone 0 false true = o.suspended t fun k => 0 + k == 0) := by
  decide +kernel

/-- The engine's other operations: an MLDW that reads, and that a watch of engine accesses stops; MGUIDE of a good pair and of another; MSTA
in wide and in integer mode, whose first cell lies in the team's region; the stops of an operation, one of them served. -/
theorem witness_MatrixRuns_stores :
    (let q := fun (o : MOp) => tLeased.modTeam 0 0 fun t => { t with queue := [o] }
     let o := tOp (.mldw (.lmem 0 0 0 0) .n8)
     let w := (q o).modGroup 0 0 fun g => { g with watch := [⟨0, 64, 1, 0x8000_0490⟩] }
     let cut := fun (s : State) => match (s.readPlane (o.master 0 0) 0 (.lmem 0 0 0 0) .n8 32 0).1 with
       | .ok _ => none
       | .error (.fault f) => some f.code
       | .error _ => some 0
     cut (q o) = none ∧ cut w = some cWATCH ∧ w.headReady 0 0 o = true) ∧
    (let o : MOp := { tOp (.mguide 0x3F80_0000 0) with acc := 0 }
     let s := tLeased.modTeam 0 0 fun t => { t with queue := [o] }
     let t := s.team 0 0
     (o.started = false ∧ s.headReady 0 0 o = true) ∧ (0 = o.acc ∧ maskBit t.tmask (o.acc / 2) = true ∧ o.acc + 1 < t.nacc ∧
       (t.progress o.acc).complete = true ∧ (t.progress (o.acc + 1)).complete = true ∧ (t.acc o.acc).intMode = false ∧
       (t.acc (o.acc + 1)).intMode = false ∧ (t.acc o.acc).anchor = (t.acc (o.acc + 1)).anchor) ∧ ¬(3 = o.acc)) ∧
    (let dst : Operand := .lmem 0 128 0 0
     let o := tOp (.msta dst 0x0B)
     let wide : MOp := tOp (.msta dst 0x05)
     let s := tLeased.modTeam 0 0 fun t => { t with queue := [o] }
     let int := s.modTeam 0 0 fun t => t.setAcc 1 (clearAcc 0 true)
     let x := State.mstaCells (o.master 0 0) 0 ((int.team 0 0).acc 1) dst .n8 .rne false false 0 1 1023 int
     s.headReady 0 0 o = true ∧ (s.team 0 0).acc 1 = {} ∧ ({} : Acc).intMode = false ∧ Ty.isFloat .n8 = false ∧
     (int.headReady 0 0 o = true ∧ ((int.team 0 0).acc 1).intMode = true ∧ x.2.isNone = true) ∧
     (Ty.ofCode (wide.acc % 32)).isSome = true ∧
     lowestHit (s.watchTeam 0 0 (some 0) (s.group 0 0).watch 0 .write false true 0 1) = none ∧
     (tensorLayout tTensor).addr [0, 0, 0, 0] ≠ none ∧ (tensorLayout tTensor).addr [0, 1, 0, 0] = none) ∧
    (tS.served 1 0x20000 = false ∧ (tWithContext fun x => { x with pager := [⟨0x20000, 0x10000⟩] }).served 1 0x20000 = true) := by
  decide +kernel

/-- A stream whose rows are read, and the cells of MGUIDE and MSTA: both finite, one of a class, and in integer mode. -/
theorem witness_AccumulatorsAndTiles_cells :
    (let o : MOp := { tOp (.mma false tBlk (blkOperand tBlk 0 0) .absent .absent) with started := true }
     let s := tLeased.modTeam 0 0 fun t => { t with queue := [o], active := { fmt := some .n8, ks := 32 } }
     (match (s.readRows (o.master 0 0) 0 (blkOperand tBlk 0 0) .n8 32 0 [0]).1 with
      | .ok xs => xs.length == 1
      | .error _ => false) = true ∧ ((s.core 0).teams.find 0).isSome = true) ∧
    (let c : Cell := { c := 5 }
     c.cls = .fin ∧ ({ cls := .pinf } : Cell).cls ≠ .fin ∧
     (guideCell (.fin false 3 (-1)) { c := 5 } { c := 2 }).1 = { c := 6 } ∧ (guideCell (.fin false 3 (-1)) { c := 5 } { c := 2 }).2 = 1 ∧
     (guideCell (.fin false 3 (-1)) { c := 2 } { c := 5 }).1 = { c := 1 } ∧ (guideCell (.inf true) { c := 5 } { c := 2 }).1.cls = .ninf ∧
     (clearAcc 0 true).intMode = true ∧ (clearAcc 3 false).intMode = false) := by
  decide +kernel

theorem witness_TranslationEvents :
    (let w : Walk := { ctx := 1, va := 0x10100, core := 0, pref := true }
     let s := { tMapped [] with dies := [(0, { walks := [w, { w with va := 0x40000 }] })] }
     let u := s.modDie 0 fun x => { x with walks := [{ w with va := 0x40000 }] }
     let ask : Ask := { va := 0x10100, bytes := 1, need := { r := true }, tagck := true }
     let held := tHold s 0
     (tS.die 0).walks = [] ∧ (s.die 0).walks = [] ++ w :: [{ w with va := 0x40000 }] ∧ s.tablesWait 0 w.ctx w.va = false ∧
     held.tablesWait 0 w.ctx w.va = true ∧ u.bad 0x10100 1 = false ∧
     (match u.checkAs 0 1 false (fun _ => none) ask with
      | (.ok (pa, _), _) => pa == 0x10100
      | _ => false) = true ∧
     (match u.checkAs 0 1 false (fun _ => none) { ask with va := 0x40000 } with
      | (.error f, _) => f.code == cXLATE
      | _ => false) = true) ∧
    (2 < tGroup.lanes.length ∧ tGroup.lane 2 = { tLane with pc := 0x10020 }) ∧
    (let i : Inval := { id := 4, target := .everything, die := 0, waits := [3], dies := [7] }
     let j : Inval := { i with id := 5, waits := [], dies := [] }
     let s := { tS with invals := [i, j] }
     s.invals.find? (fun x => x.id == 4) = some i ∧ i.dies ≠ [] ∧ s.invals.find? (fun x => x.id == 5) = some j ∧ j.dies = [] ∧
     s.accessesDone j.waits = true ∧ s.commandsDone j = true ∧ j.reply = none ∧
     ({ j with reply := some (1, 0, 3) } : Inval).reply = some (1, 0, 3)) ∧
    (tS.rootAlive = true ∧
      ({ tS with dies := (upto tS.dieCount).map fun d => (d, { rootRefused := true }) } : State).rootAlive = false) := by
  decide +kernel

/-- Two entries of a schedule record, bounds 7 and 100, and none after them; the record of the launch stands at 0x30000. -/
def tSched : List Byte := bytesOf 16 (7 + 2 ^ 32 + 0x10200 * 2 ^ 64) ++ bytesOf 16 (100 + 2 ^ 32 + 0x10302 * 2 ^ 64) ++ List.replicate 96 0

theorem witness_SizeSelection :
    (∀ i ∈ ([.sizesel tHdr { tC with d := .v 1, a := .v 4, mod := 15 }] : List Instr), Issues tS i) ∧
    (let s := { tMapped [(0x30000, tSched)] with launches := [{ tLaunch with words := tWords.set 20 0x30000 }] }
     let full := fun (t : State) => t.modDie 0 fun d => { d with walks := List.replicate 256 { ctx := 1, va := 0x40000, core := 0, pref := true } }
     let read := fun (t : State) =>
       let at_ := schedAddr (t.env tHdr).words tC
       let u := t.beginIssue tHdr
       let parts := u.schedParts 0 0 1 at_ 0 8
       ((parts.find? fun x => u.reachWaits 0 0 1 x.1 x.2).isSome,
         match (parts.foldl (fun t x => t.recordRead 0 0 1 x.1 x.2) u).schedEntries 0 0 1 at_ 0 8 with
         | .error c => some c
         | .ok bs => if bs = tSched.take 48 then none else some 0)
     read tS = (false, some cXLATE) ∧ read s = (false, none) ∧ (read (full s)).1 = true ∧ s.active { tHdr with gneg := true } = [] ∧
     (s.active tHdr).map (fun l => ((sizeFit tSched (((s.env tHdr).src32 l (.v 4)).zeroExtend 64) 0x1000C 0 8).2.toNat % 4)) = [0, 2]) ∧
    (let entry := fun j => ofBytes ((tSched.drop (16 * j)).take 16)
     let used := fun j => natBits (entry j) 32 32 ≠ 0
     let fits := fun (x : W64) j => x.toNat ≤ natBits (entry j) 31 0
     (used 1 ∧ fits 100 1 ∧ ∀ j, j < 1 → used j ∧ ¬fits 100 j) ∧ (¬used 2 ∧ ∀ j, j < 2 → used j ∧ ¬fits 101 j) ∧
     ∀ j, j < 8 → natBits (ofBytes (((List.replicate 8 (bytesOf 16 (7 + 2 ^ 32))).flatten.drop (16 * j)).take 16)) 32 32 ≠ 0 ∧
       ¬(8 : W64).toNat ≤ natBits (ofBytes (((List.replicate 8 (bytesOf 16 (7 + 2 ^ 32))).flatten.drop (16 * j)).take 16)) 31 0) :=
  ⟨issues_all (by decide +kernel), by decide +kernel⟩

/-- Generation 7 of communicator 0: this package, device 0x100, is rank 0; ranks 1 and 2 are other packages; rank 3 is not valid. -/
def tTable : RankTable := { gen := 7, self := 0, ranks := [⟨true, false, 0x100⟩, ⟨true, false, 0x200⟩, ⟨true, true, 0x300⟩, ⟨false, false, 0⟩] }

/-- A context with that table adopted and its successor staged, cadence on, and one admitted source; lane 0 names ranks 0x1, 0x3 and a
window of one unit by v20:v23, v24:v27 and v28:v31. -/
def tComm (bs : List (Nat × List Byte)) : State :=
  let regs : List (Nat × W32) := [(2, 0x10100), (4, 7), (20, 0x10100), (22, 1), (24, 0x10102), (26, 3), (28, 0x30000), (30, 1), (31, 1), (32, 0x30100)]
  let lanes := tGroup.lanes.map fun l => { l with v := regs }
  let g : Group := { tGroup with lanes := lanes, s := [(0, 0x30100), (2, 0x30000), (4, 0x30040)] }
  let k : Core := { tCore with groups := [(0, g), (63, tAgent)] }
  let c : Comm := { adopted := some tTable, staged := some { tTable with gen := 8 } }
  let x : Context := { root := 0x40000, tidbase := 0x10800, cadence := true, admitted := [0x200], comms := [(0, c)] }
  { tMapped bs with devid := 0x100, contexts := [(1, x)], cores := [(0, k)] }

theorem witness_RemoteRequests :
    (let f : MF := { tM with d := .v 1, a := .v 20, size := .b4, scope := .s }
     (∀ i ∈ ([.rld tHdr f, .rst tHdr { f with d := .v 0, b := .v 4 }, .ratom tHdr { f with b := .v 4, sub := 8, pred := 1 }] : List Instr), Issues tS i) ∧
     isRel f.order = false) ∧
    (let s := tComm []
     let e := s.env tHdr
     let f : MF := { tM with d := .v 1, a := .v 20, size := .b4, scope := .s }
     let g : MF := { f with a := .v 24 }
     let b := s.modDie 0 fun k => { k with blockList := [0x200] }
     (e.va 0 g).toNat % 4 ≠ 0 ∧ (e.va 0 { g with off := 2 }).toNat % 4 = 0 ∧
     s.deviceOf 1 (field (e.srcAt 0 g.a 3) 16 6).toNat (field (e.srcAt 0 g.a 2) 0 20).toNat = none ∧ (e.va 0 f).toNat % 4 = 0 ∧
     s.deviceOf 1 (field (e.srcAt 0 f.a 3) 16 6).toNat (field (e.srcAt 0 f.a 2) 0 20).toNat = some 0x200 ∧
     0x200 ∈ (b.die 0).blockList ∧ 0x200 ∉ (s.die 0).blockList ∧
     (s.sendNew 1 0 { s.fesel 1 0 0x01 0x200 with vaddr := 0x10100, aux := 4 }).isSome = true ∧
     ((s.modDie 0 fun k => { k with portsDown := upto 8 }).sendNew 1 0 (s.fesel 1 0 0x01 0x200)).isSome = false ∧
     (∀ q, q < 8 → q % 8 ∈ upto 8) ∧ (0 ∉ (s.die 0).portsDown ∧ (s.fesel 1 0 0x01 0x200).dst ≠ s.devid ∧ (s.fesel 1 0 0x01 0x100).dst = s.devid) ∧
     (s.context 1).isSome = true ∧ ((s.context 1).getD {}).remMode = false ∧
     ((s.modContext 1 fun x => { x with remMode := true }).context 1).map (fun x => x.remMode) = some true ∧
     ((s.core 0).groups.find 0).isSome = true ∧ ((s.group 0 0).lane 0).exited = false ∧ ({} : Dest).sext = false) ∧
    (let q := tWithGroup fun g => { g with sq := [tStore 3] }
     isRel Order.release = true ∧ q.active tHdr ≠ [] ∧
     (q.beginIssue tHdr).drained 0 0 .s ((drainMark (q.env tHdr) .s (q.active tHdr)).getD 10) = false) :=
  ⟨⟨issues_all (by decide +kernel), by decide +kernel⟩, by decide +kernel, by decide +kernel⟩

/-- A collective of communicator 0 that takes no part yet. -/
def tColl : Coll :=
  { comm := 0, seq := 7, die := 0, core := 0, slot := 0, lane := 0, launch := 3, pc := 0x10000, desc := 0, gen := 7, ranks := [], self := 0,
    last := 0 }

/-- A descriptor of an all-gather of four .B32 elements from 0x10100 to 0x10200; with a source that is no multiple of 4, with such a
destination, and with a count of 0. -/
def tDesc (src dst count : Nat) : BitVec 512 := tRec [(2, 28), (0, 19), (count, 32), (src, 128), (dst, 192)]

theorem witness_CollectivesIssue :
    (let s := tComm []
     ∀ i ∈ ([.coll tHdr { tE with d := .v 1, a := .v 32 }, .coll tHdr { tE with d := .v 1, a := .v 2 }, .cwait tHdr { tE with d := .v 1, b := .v 4 },
      .genrd tHdr { tE with d := .v 1, sub := 3, mod := 63 }, .ranksw tHdr { tE with d := .v 1 }] : List Instr), NibIssues s i tHdr 0) ∧
    (let s := tComm [(0x30100, recBytes (tDesc 0x10100 0x10200 4))]
     let u := s.beginIssue tHdr
     let e := s.env tHdr
     let full := { u with contexts := u.contexts.map fun (x : Nat × Context) => (x.1, { x.2 with colls := List.replicate 8 { tColl with seq := 9 } }) }
     let q := u.modGroup 0 0 fun g => { g with sq := [tStore 3] }
     (0x30102 % 64 ≠ 0 ∧ (e.src64 0 false (.v 32)).toNat % 64 = 0) ∧
     (match (u.recordRead 0 0 1 0x50000 64).readRecord 0 0 1 0x50000 64 with
      | .error (c, _) => c == cXLATE
      | .ok _ => false) = true ∧
     (match (u.recordRead 0 0 1 0x30100 64).readRecord 0 0 1 0x30100 64 with
      | .error _ => false
      | .ok bs => recOf bs == tDesc 0x10100 0x10200 4) = true ∧
     collBad (tDesc 0x10100 0x10200 0) = true ∧ collBad (tDesc 0x10100 0x10200 4) = false ∧ collElem (tDesc 0x10100 0x10200 4) = 4 ∧
     (collBad (tDesc 0x10102 0x10200 4) = false ∧ (collSrc (tDesc 0x10102 0x10200 4)).toNat % 4 ≠ 0) ∧
     (collBad (tDesc 0x10100 0x10201 4) = false ∧ (collDst (tDesc 0x10100 0x10201 4)).toNat % 4 ≠ 0) ∧
     ((((u.context 1).getD {}).colls.filter fun k => k.comm == 0 && k.result.isNone).length < 8) ∧
     ¬((((full.context 1).getD {}).colls.filter fun k => k.comm == 0 && k.result.isNone).length < 8) ∧
     u.reachWaits 0 0 1 0x30100 64 = false ∧ (u.newColl e 0 (tDesc 0x10100 0x10200 4)).takesPart = true ∧
     ({ u.newColl e 0 (tDesc 0x10100 0x10200 4) with self := 3 } : Coll).takesPart = false ∧
     (let k := u.newColl e 0 (tDesc 0x10100 0x10200 4)
      let v := u.modContext 1 fun x => { x with colls := [k] }
      (v.coll 1 0 0).isSome = true ∧ k.result = none ∧ k.unread = true ∧ v.collTurn k = true ∧
      (v.modGroup 0 0 fun g => { g with sq := [tStore 3] }).collTurn k = false ∧
      (match (v.collSource 1 k).1 with
       | .ok bs => bs.length == 16
       | .error _ => false) = true ∧
      (match (v.collSource 1 { k with desc := tDesc 0x50000 0x10200 4 }).1 with
       | .error (.fault f) => f.code == cXLATE
       | _ => false) = true) ∧
     u.drained 0 0 .p ((drainMark e .p s.iss.lanes).getD u.nextId) = true ∧ q.drained 0 0 .p 10 = false) ∧
    (let k : Coll := tColl
     let x : Context := { comms := [(0, { seq := 8 })], colls := [k] }
     let s := { tComm [] with contexts := [(1, x)] }
     x.colls.find? (fun k => k.comm == 9 / 2 ^ 26 && k.seq == 9 % 2 ^ 26) = none ∧
     x.colls.find? (fun k => k.comm == 7 / 2 ^ 26 && k.seq == 7 % 2 ^ 26) = some k ∧
     ¬256 ≤ ((x.comm (7 / 2 ^ 26)).seq + 2 ^ 26 - 1 - 7 % 2 ^ 26) % 2 ^ 26 ∧ 256 ≤ (264 + 2 ^ 26 - 1 - 7 % 2 ^ 26) % 2 ^ 26 ∧
     s.meets (s.env tHdr) (.coll 0 7) = false ∧
     ({ s with contexts := [(1, { x with colls := [{ k with result := some 0 }] })] } : State).meets (s.env tHdr) (.coll 0 7) = true ∧
     ((tComm []).comm 1 0).staged.isSome = true ∧ ((tComm []).comm 1 1).staged = none) :=
  ⟨nib_all (by decide +kernel), by decide +kernel, by decide +kernel⟩

/-- A plan of one donor and one region of 64 KiB; the landing window's and the grants' rank lists name rank 1. -/
def tPlan : List Byte :=
  bytesOf 4 7 ++ bytesOf 4 0 ++ bytesOf 4 0x1000_0001 ++ List.replicate 52 0 ++ bytesOf 8 0 ++ bytesOf 8 0x10000 ++ List.replicate 16 0

/-- The words of a plan read as `RRD3` reads it. -/
def planB (s : State) : Option (List W32) :=
  match s.readRecord 0 0 1 0x30100 64 with
  | .error _ => none
  | .ok hd => match s.readRecord 0 0 1 (0x30100 + 64) (32 * planRegions (wordsIn hd)) with
    | .error _ => none
    | .ok bd => some (wordsIn (hd ++ bd))

/-- A range, a record read, as booleans. -/
def rangeB (s : State) (va : W64) (n : Nat) : Bool := (s.coreRange 0 1 { w := true } false va n).toOption.isSome
@[inherit_doc rangeB] def recordB (s : State) (va : W64) (n : Nat) : Option (List Byte) := (s.readRecord 0 0 1 va n).toOption

/-- Records that are read, or whether one waits; a range whose pages are walked, or whether a walk waits. -/
def tRead (s : State) (rs : List (W64 × Nat)) : State := rs.foldl (fun t x => t.recordRead 0 0 1 x.1 x.2) s
@[inherit_doc tRead] def tLate (s : State) (rs : List (W64 × Nat)) : Bool := rs.any fun x => s.reachWaits 0 0 1 x.1 x.2
@[inherit_doc tRead] def tWalked (s : State) (a : W64) (k : Nat) : State :=
  (pageStarts (k / 65536 + 2) a k).foldl (fun t a => (t.coreXlate 0 1 a).2) s
@[inherit_doc tRead] def tSlow (s : State) (a : W64) (k : Nat) : Bool := (pageStarts (k / 65536 + 2) a k).any fun a => s.walkWaits 0 1 a

/-- The walker of die 0 is full. -/
def tFull (s : State) : State :=
  s.modDie 0 fun d => { d with walks := List.replicate 256 { ctx := 1, va := 0x40000, core := 0, pref := true } }

theorem witness_WindowsAndViews :
    (let s := tComm []
     ∀ i ∈ ([.rrd3 tHdr { tE with d := .v 22, a := .v 32, b := .v 23, spair := 2 }, .rwin tHdr { tE with a := .v 28, bar := 5, mod := 0x4000 },
       .rwclose tHdr { tE with d := .v 1, mod := 255 }, .tview tHdr { tE with d := .v 32, a := .v 28, spair := 1, mod := 0x1F },
       .tvclose tHdr { tE with d := .v 1, mod := 15 }] : List Instr), NibIssues s i tHdr 0) ∧
    (let s := tComm [(0x30100, tPlan)]
     let u := s.beginIssue tHdr
     let plan := wordsIn tPlan
     let parts := u.planParts (s.env tHdr) 0x30100
     let r := tRead u parts
     let v := tWalked r 0x30040 1
     tLate u parts = false ∧ tLate (tFull u) parts = true ∧ tSlow r 0x30040 1 = false ∧ tSlow (tFull r) 0x20040 1 = true ∧
     planB v = some plan ∧ rangeB v 0x30040 1 = true ∧ planBad plan 0 1 = false ∧ planBad plan 1 1 = true ∧
     (v.comm 1 (planComm plan)).gen = planGen plan ∧ (v.comm 1 1).gen ≠ planGen plan ∧ (v.die 0).joinQ.length < 8 ∧
     8 ≤ ((u.modDie 0 fun d => { d with joinQ := List.replicate 8 ⟨0, 0, 0, 0, 0, 0, [], 0, 0, 0, 0, 0⟩ }).die 0).joinQ.length) ∧
    (let s := tComm [(0x30100, bytesOf 4 2)]
     let u := s.beginIssue tHdr
     let e := s.env tHdr
     let w3 := e.srcAt 0 (.v 28) 3
     let used := { s with contexts := s.contexts.map fun (x : Nat × Context) => (x.1, { x.2 with windows := [(0, { isOpen := true })] }) }
     (e.src64 0 false (.v 28)).toNat % 65536 = 0 ∧ (pairVal (e.g.rs 0) (e.g.rs 1)).toNat % 4 = 0 ∧ (e.srcAt 0 (.v 28) 2).toNat ≠ 0 ∧
     modBits (0x4000 : BitVec 20) 17 14 = 1 ∧ recordB (tRead u [(0x30100, 4)]) 0x30100 4 = some (bytesOf 4 2) ∧
     u.devicesOf 1 0 (w3.toNat :: (wordsIn (bytesOf 4 2)).map BitVec.toNat) = some [0x200, 0x300] ∧ u.openWindows < 64 ∧
     ((u.window 1 0).getD {}).isOpen = false ∧ ((used.window 1 0).getD {}).isOpen = true ∧ (u.die 0).portsDown.length < 8 ∧
     8 ≤ ((u.modDie 0 fun d => { d with portsDown := upto 8 }).die 0).portsDown.length ∧ tLate u [(0x30100, 4)] = false ∧
     tLate (tFull u) [(0x30100, 4)] = true ∧ (e.team.bar 5).members ≠ 0 ∧
     (let v := used.modWindow 1 0 fun w => { w with closing := true }
      let p : Fesel := { u.fesel 1 0 0x08 0x100 with tctx := 1, aux := 0 }
      let held := v.modDie 0 fun d => { d with ingress := [{ id := 9, pkt := p, left := 1 }] }
      v.meets e (.landed 0) = true ∧ held.meets e (.landed 0) = false)) ∧
    (let s := tComm [(0x30100, bytesOf 4 2)]
     let u := s.beginIssue tHdr
     let e := s.env tHdr
     let v : View := ⟨0, 1, 0x30000, 1, 0x30000, 1, [], 0, [], 0, 0, false, [], [], false⟩
     let w := { u with views := [(0, v)] }
     (field (e.srcAt 0 (.v 28) 3) 0 16).toNat ≠ 0 ∧ field (e.srcAt 0 (.v 28) 3) 16 16 = 0 ∧ (pairVal (e.g.rs 2) (e.g.rs 3)).toNat % 65536 = 0 ∧
     (e.src64 0 false (.v 32)).toNat % 4 = 0 ∧ tLate u [(0x30100, 4)] = false ∧ tLate (tFull u) [(0x30100, 4)] = true ∧
     tSlow (tRead u [(0x30100, 4)]) 0x30000 65536 = false ∧ tSlow (tFull u) 0x20000 65536 = true ∧
     rangeB (tWalked (tRead u [(0x30100, 4)]) 0x30000 65536) 0x30000 65536 = true ∧ recordB u 0x30100 4 = some (bytesOf 4 2) ∧
     u.devicesOf 1 0 ((wordsIn (bytesOf 4 2)).map BitVec.toNat) = some [0x300] ∧ u.views.find 0 = none ∧ (w.views.find 0).isSome = true ∧
     u.drained 0 0 .p ((drainMark e .p s.iss.lanes).getD u.nextId) = true ∧ w.views.find 0 = some v ∧ v.ctx = e.g.ctx ∧
     v.reads = [] ∧ ({ v with reads := [⟨0, u.fesel 1 0 7 0x200, 0⟩] } : View).reads ≠ [] ∧ ({ v with ctx := 2 } : View).ctx ≠ e.g.ctx) :=
  ⟨nib_all (by decide +kernel), by decide +kernel, by decide +kernel, by decide +kernel⟩

/-- A packet from rank 1 to context 1, of a kind, communicator and generation. -/
def tPkt (kind : BitVec 5) (comm gen : BitVec 16) : Fesel :=
  { kind := kind, dst := 0x100, src := 0x200, comm := comm, gen := gen, fid := 5, vaddr := 0x10100, code := 0, tctx := 1, aux := 4,
    payload := List.replicate 64 1 }

/-- Generations 7, 6, 39 steps of 1024 ahead at the bound 32767, and one past it; a blocked source; a full hold; a source that is
admitted, and one that is not. -/
theorem witness_Gateways :
    (let s := tComm []
     7 < s.dieCount ∧ (∀ k ∈ (upto 18).map fun n => BitVec.ofNat 5 (n + 1), (tPkt k 0 7).dst = s.devid ∧ (7, tPkt k 0 7) ∉ s.gateQ) ∧
     (s.dieCount ≤ 8 ∧ (tPkt 2 0 7).kind ∉ [1] ∧ { tPkt 2 0 7 with dst := 0x101 }.dst ≠ s.devid) ∧
     s.power = .l0 ∧ s.waking = false ∧ s.packetCtx 0 (tPkt 1 0 7) = some 1 ∧ s.context (tPkt 7 0 7).tctx.toNat ≠ none ∧
     (match s.gate 0 (tPkt 1 0 7) 1 with
      | .ok u => decide (u = s)
      | .error _ => false) = true ∧
     (match s.gate 0 (tPkt 1 0 6) 1 with
      | .ok _ => false
      | .error _ => true) = true ∧
     Fesel.isReply (tPkt 2 0 7) = true ∧ Fesel.isReply (tPkt 1 0 7) = false ∧ (tPkt 1 0 7).kind ≠ 0x12) ∧
    (let s := tComm []
     let b := s.modDie 0 fun k => { k with blockList := [0x200] }
     let f := s.modDie 0 fun k => { k with hold := List.replicate 64 (1, tPkt 1 0 8) }
     let ahead := fun (g : BitVec 16) => (g - (s.comm 1 0).gen).toNat
     (tPkt 1 0xFFFF 0).comm = 0xFFFF ∧ s.context 2 = none ∧ (tPkt 1 0 7).comm ≠ 0xFFFF ∧ (tPkt 1 0 7).src ∈ (b.die 0).blockList ∧
     (tPkt 1 0 7).src ∉ (s.die 0).blockList ∧ ahead 7 = 0 ∧ ahead 6 = 65535 ∧ 32767 < ahead (7 + 32768) ∧ ahead (7 + 32767) = 32767 ∧
     (s.die 0).hold.length < 64 ∧ 64 ≤ (f.die 0).hold.length ∧ (0xFFFF_FFFE : W32) ≠ 0xFFFF_FFFF) ∧
    (let s := tComm []
     (∀ k, k < s.dieCount → ∀ y ∈ (s.die k).frozenSrc, y.1 ≠ (tPkt 1 0 7).src) ∧ (s.context 1).isSome = true ∧
     (tPkt 1 0 7).src ∈ ((s.context 1).getD {}).admitted ∧ (0x300 : BitVec 20) ∉ ((s.context 1).getD {}).admitted) := 
  ⟨by decide +kernel, by decide +kernel, by decide +kernel⟩

/-- A packet that waits at its gateway; one whose kind, destination or context is another's; a frozen source; and a packet's bytes. -/
theorem witness_Gateways_waiting :
    (let s := { tComm [] with gateQ := [(0, tPkt 1 0 7)] }
     let p := tPkt 1 0 7
     (0, p) ∈ s.gateQ ∧ p.kind ∈ [(0x01 : BitVec 5)] ∧ p.dst = s.devid ∧ (tComm []).power = .l0 ∧
     { s with power := .l2 }.power ≠ .l0 ∧ (let t := { s with gateQ := dropPacket 0 p s.gateQ }
      t.packet 0 p ≠ { t with gateQ := t.gateQ ++ [(0, p)] } ∧
      (tHold t 0).packet 0 { p with aux := 4 } = { (tHold t 0) with gateQ := [(0, p)] }) ∧
     ((tPkt 7 0 7).kind.toNat = 7 ∧ (tComm []).context { tPkt 7 0 7 with tctx := 9 }.tctx.toNat = none) ∧
     ((tPkt 2 0 7).kind.toNat < 7 ∧ (tComm []).findReq 0 (tPkt 2 0 7) = none)) ∧
    (let s := (tComm []).modDie 1 fun k => { k with frozenSrc := [(0x200, 2)] }
     1 < s.dieCount ∧ (s.die 1).frozenSrc = [((tPkt 1 0 7).src, 2)] ∧ (s.die 0).frozenSrc = []) ∧
    (0 < (tPkt 1 0 7).kind.toNat ∧ (tPkt 1 0 7).kind.toNat ≤ 0x12 ∧ (Fesel.body (tPkt 1 0 7)).length < 64 * 256 ∧
      (Fesel.wire (tPkt 1 0 7)).length = 32 + 64 + 4 ∧ (Fesel.wire (tPkt 1 0 7)).take 4 = [0x00, 0x01, 0x00, 0x08] ∧
      Fesel.ofWire (Fesel.wire (tPkt 1 0 7)) = some (tPkt 1 0 7) ∧
      Fesel.ofWire ((Fesel.wire (tPkt 1 0 7)).set 40 9) = none) := by
  decide +kernel

/-- A request of lane 0 of each kind, sent in cycle 0. -/
def tReq (k : RKind) : RReq :=
  { id := 2, fid := 5, kind := k, dev := 0x200, core := 0, slot := 0, lane := 0, ctx := 1, launch := 3, pc := 0x10000, addr := 0x10100, comm := 0,
    rank := 1, order := .acquire, sent := 0 }

/-- The pieces of a request's range, or none where it does not translate. -/
def piecesB (s : State) (d : Nat) (va : W64) (n : Nat) (need : Need) : Option (List (Nat × Nat)) := (s.range d 1 need false va n).toOption

/-- Requests to a context that does not exist; to pages that are not there, without the rights, with another tag; over a link that is down,
to poison, to a stack held too long and one to be waited for; a walk that waits; and accesses near and far that go through. -/
theorem witness_RemoteService :
    (let s := tComm []
     let p := tPkt 1 0 7
     let tagged := s.modContext 1 fun x => { x with tagEn := true }
     let page := { tagged with mem := putBytes s.mem 0x51008 (bytesOf 8 (0x0001_C000_0001_0003 + 2 ^ 50)) }
     let bad := { s with gmeta := [(0x404, 0x10)] }
     let full := tFull s
     let w := s.rangeWalked 0 1 0x10100 4
     s.context 2 = none ∧ s.context 1 ≠ none ∧ (Fesel.access p).1 = 4 ∧
     ((Fesel.access p).2.1 = .read ∧ (Fesel.access (tPkt 3 0 7)).2.1 = .write ∧ (Fesel.access (tPkt 5 0 7)).2.1 = .atomic) ∧
     full.rangeWaits 0 1 0x50000 4 = true ∧ s.rangeWaits 0 1 0x10100 4 = false ∧ piecesB s 0 0x50000 4 { r := true } = none ∧
     piecesB s 0 0x10100 4 { r := true } = some [(0x10100, 4)] ∧ piecesB s 0 0x20000 4 { w := true } = some [(2 ^ 37, 4)] ∧
     w.ingressFault 0 1 0x10100 .read [(0x10100, 4)] = none ∧
     page.ingressFault 0 1 0x0300_0000_0001_0100 .read [(0x10100, 4)] = some cTAG ∧
     (tCut s).ingressFault 0 1 0x20000 .read [(2 ^ 37, 4)] = some cREMOTE ∧
     bad.ingressFault 0 1 0x10100 .read [(0x10100, 4)] = some cECC ∧
     (tHold s 12500000).ingressFault 0 1 0x10100 .read [(0x10100, 4)] = some cTHERM ∧
     (tHold s 0).ingressWaits .read 0x10100 4 = true ∧ w.ingressWaits .read 0x10100 4 = false ∧
     (let r := w.ingressGo 0 p 0 .read [(0x10100, 4)] []
      (r.2.ingressTake 0 r.1).isSome = true) ∧
     (let r := w.ingressGo 0 p 0 .read [(2 ^ 37, 4)] []
      (r.2.ingressTake 0 r.1).isNone = true ∧ (r.2.die 0).ingress.length = 1)) ∧
    (linePieces 0 [(0x10100, 4)] = [(0, 0x10100, 4)] ∧ (0 < 128 ∧ 0x10100 / 128 = (0x10100 + 128 - 1) / 128)) ∧
    (let x : Ingress := { id := 3, pkt := tPkt 1 0 7, left := 0, got := [(0, [1, 2, 3, 4])] }
     x.code = 0 ∧ { x with code := cECC }.code ≠ 0) ∧
    (let s := fun (k : RKind) => (tComm []).modDie 0 fun d => { d with reqs := [tReq k] }
     (s (.rld {})).findReq 0 (tPkt 2 0 7) = some (0, tReq (.rld {})) ∧ (s .rst).findReq 0 (tPkt 4 0 7) = some (0, tReq .rst) ∧
     (s (.ratom {})).findReq 0 (tPkt 6 0 7) = some (0, tReq (.ratom {})) ∧ (tPkt 2 0 7).code = 0 ∧ { tPkt 2 0 7 with code := cPERM }.code ≠ 0 ∧
     ((s .rst).die 0).reqs.find? (fun r => r.fid == 5) = some (tReq .rst) ∧ (s .rst).timeout 1 = 1250000 ∧
     (((s .rst).modDie 0 fun d => { d with cycle := 1250000 }).die 0).cycle = (tReq .rst).sent + 1250000 ∧
     ((s .rst).die 0).cycle < (tReq .rst).sent + (s .rst).timeout 1) := by
  decide +kernel

/-- A packet that may be refused and sent again: before its 10 µs and after them, of a generation that its source has left, and past the
response timeout; a request and a stripe that it was sent for. -/
theorem witness_RemoteService_refusals :
    (let x : Sent := { ctx := 1, port := 0, at_ := 0, pkt := tPkt 1 0 7, due := some 0 }
     let s := fun (y : Sent) (n : Nat) => (tComm []).modDie 0 fun d => { d with sent := [y], cycle := n }
     let old : Sent := { x with pkt := tPkt 1 0 6 }
     let p := { tPkt 0x12 0 7 with aux := 5 }
     (∀ y ∈ ((tComm []).die 0).sent, y.pkt.fid = 5 → y.due = none) ∧ ((s x 12500).die 0).sent = [x] ∧ x.due = some 0 ∧
     x.pkt.fid = p.aux ∧ { x with pkt := { x.pkt with dst := 0x200 } }.pkt.dst = p.src ∧ { x with resent := true }.resent = true ∧
     ({ ctx := 1, port := 0, at_ := 0, pkt := tPkt 1 0 7 } : Sent).due = none ∧ (s x 0).outdated x = false ∧ (s old 0).outdated old = true ∧
     ((s x 12499).die 0).cycle < 0 + 10 * Config.cyclesPerUs ∧ 0 + 10 * Config.cyclesPerUs = ((s x 12500).die 0).cycle ∧
     ((s x 12500).die 0).cycle < x.at_ + (s x 12500).timeout x.ctx ∧ x.at_ + (s x 1250000).timeout x.ctx ≤ ((s x 1250000).die 0).cycle) ∧
    (let s := (tComm []).modDie 0 fun d => { d with reqs := [tReq .rst], stripes := [⟨5, 0, 1, 0, 0x200, 0, none, false⟩] }
     (tPkt 1 0 6).kind.toNat ≤ 5 ∧ (s.die 0).reqs.find? (fun r => r.fid == 5) = some (tReq .rst) ∧ (tPkt 7 0 6).kind = 0x07 ∧
     ((s.die 0).stripes.find? (fun y => y.fid == 5)).isSome = true) := by
  decide +kernel

theorem witness_CadenceAndStripes :
    (let s := tComm []
     let t := s.modDie 0 fun d => { d with cycle := 25000 }
     (s.cadence 1).isSome = true ∧ s.selfRank 1 = some 0 ∧ s.cadenceNow < ((s.cadence 1).getD {}).lastBeat + 20 * Config.cyclesPerUs ∧
     t.cadenceNow = ((t.cadence 1).getD {}).lastBeat + 20 * Config.cyclesPerUs ∧ 0 ∈ t.ring 1 ∧
     (2 < [0, 1, 2].length ∧ [0, 1, 2].Nodup ∧ [0, 1, 2][2]? = some 2 ∧ 1 < Nat.min 5 ([0, 1, 2].length - 1))) ∧
    (let s := fun (n : Nat) (w : Watched) => ({ tComm [] with
       dies := [(0, { cycle := n })]
       contexts := (tComm []).contexts.map fun (x : Nat × Context) => (x.1, { x.2 with watched := [(0x200, w)] }) } : State)
     (s 0 {}).deviceOf 1 0 1 = some 0x200 ∧ (((s 0 {}).cadence 1).map fun x => x.watched.find (0x200 : BitVec 20).toNat) = some (some {}) ∧
     (s 124999 {}).cadenceNow < 0 + 100 * Config.cyclesPerUs ∧ 0 + 100 * Config.cyclesPerUs = (s 125000 {}).cadenceNow ∧
     0 ∈ monitorsOf ((s 125000 {}).ring 1) 1 ∧ (s 125000 {}).blocked (s 125000 {}).cadenceDie 0x200 = false ∧
     (let w : Watched := { suspected := some 0, probes := [0x300] }
      w.suspected = some 0 ∧ w.probes ≠ [] ∧ (s 49999 w).cadenceNow < 0 + 40 * Config.cyclesPerUs ∧
      0 + 40 * Config.cyclesPerUs = (s 50000 w).cadenceNow)) ∧
    (let j : JCmd := ⟨0, 1, 0, 0, 1, 0x10000, wordsIn tPlan, 0, 1, 0, 0x30000, 0⟩
     let s := (tComm []).modDie 0 fun d => { d with joinQ := [j] }
     (∀ x ∈ (s.die 0).stripes, x.result = none) ∧ (s.die 0).joinFrozen = false ∧ (s.die 0).stripes.length < 16 ∧ s.power = .l0 ∧
     (s.die 0).joinQ.find? (fun j => decide (j.next < j.first + j.count)) = some j ∧
     ((s.modDie 0 fun d => { d with joinFrozen := true }).die 0).joinFrozen = true) ∧
    (let v : View := ⟨0, 1, 0x10000, 1, 0x30000, 1, [], 0, [(0, .copying 0)], 1, 1, false, [], [], false⟩
     let s := { tMapped [] with views := [(2, v)] }
     s.views.find 2 = some v ∧ v.state.find 0 = some (.copying 0) ∧
     (match s.walk 1 (v.base + BitVec.ofNat 64 (65536 * 0)) with
      | .ok (p, _, _) => p == 0x10000
      | .error _ => false) = true ∧ s.poolAddr v 0 = some 0x30000 ∧ 0x10000 + 65536 ≤ 0x30000 ∧
     0x10000 % 64 = 0 ∧ 0x30000 % 64 = 0 ∧ s.chunkHeld 2 0 = false ∧ (tHold s 0).chunkHeld 2 0 = true ∧
     (Memory.wf s.mem = true ∧ SMap.wf (0 : BitVec 5) s.gmeta = true ∧ SMap.wf ([] : List (Nat × Byte)) s.gerr = true)) := by
  decide +kernel


/-- A package with cadence in a ring of three, that watches its neighbours; votes of two monitors against rank 2. -/
def tRing : State :=
  (tComm []).modContext 1 fun x => { x with
    votes := [(0x300, [0, 1])]
    watched := [(0x200, { last := 0, probes := [0x300], voted := true })]
    relays := [(0x200, 0x300)]
    comms := [(0, { adopted := some { tTable with ranks := [⟨true, false, 0x100⟩, ⟨true, false, 0x200⟩, ⟨true, false, 0x300⟩] } })] }

theorem witness_CadencePackets :
    (let s := tRing
     (s.cadence 1).isSome = true ∧ s.cadence 2 = none ∧ (0 < s.dieCount ∧ 0 ∉ (s.die 0).portsDown) ∧
     ((upto 8).all (fun q => (((s.modDie 0 fun d => { d with portsDown := upto 8 }).die 0).portsDown).contains q) = true ∧
       (s.modDie 0 fun d => { d with portsDown := upto 8 }).cadenceDie = 1) ∧
     s.leadFor 1 0x300 = some 0x100 ∧ s.leadFor 1 0x100 = some 0x200 ∧ (tS.leadFor 1 0x300) = none ∧
     (let x := (s.context 1).getD {}
      (x.watched.find 0x200).map (fun w => w.probes) = some [0x300] ∧ x.watched.find 0x300 = none ∧
      (tPkt 0x0F 0 7).src ∉ [(0x300 : BitVec 20)] ∧ { tPkt 0x0F 0 7 with src := 0x300 }.src ∈ [(0x300 : BitVec 20)]) ∧
     (s.devid = 0x100 ∧ ((0x200 : W32).setWidth 20 : BitVec 20) ≠ s.devid ∧ ((0x100 : W32).setWidth 20 : BitVec 20) = s.devid) ∧
     ((0x8000_0300 : W32).getLsbD 31 = true ∧ (0x300 : W32).getLsbD 31 = false) ∧
     (let voter := s.rankOf 1 0 0x200
      voter = 1 ∧ voter ∈ monitorsOf (s.ring 1) (s.rankOf 1 0 0x300) ∧ s.deviceOf 1 0 voter = some 0x200 ∧
      s.rankOf 1 0 0x300 ∉ monitorsOf (s.ring 1) (s.rankOf 1 0 0x300)) ∧
     (let m := Nat.min 5 ((s.ring 1).length - 1)
      let x := (s.context 1).getD {}
      m / 2 + 1 ≤ 2 ∧ s.leadFor 1 (BitVec.ofNat 20 0x300) = some s.devid ∧ x.verdict ≠ some (s.comm 1 0).gen ∧
      ¬m / 2 + 1 ≤ 1)) := by
  decide +kernel

/-- The join command of a plan, an open window of rank 0, a view of one chunk, and an XRQ for it from rank 1 by the same package as spare. -/
def tJoin : JCmd := ⟨0, 1, 0, 0, 1, 0x10000, wordsIn tPlan, 0, 1, 0, 0x30000, 0⟩
@[inherit_doc tJoin] def tWindow : Window :=
  { launch := 3, lin := 2, bar := 5, base := 0x10000, len := 65536, lead := 4, gen := 7, isOpen := true }
@[inherit_doc tJoin] def tView : View :=
  { die := 0, ctx := 1, base := 0x10000, chunks := 1, pool := 0x30000, slots := 1, grants := [0x200], comm := 0 }
@[inherit_doc tJoin] def tXrq : Fesel := { tPkt 7 0 7 with vaddr := 0, extra := [2, 64, 0x100, 0, 0] }

/-- What a state's view gives for 64 bytes at its start: an address, a wait, or a code. -/
def viewB (s : State) (v : View) : Option Code × Option Nat :=
  match s.viewAddr v 0 64 with
  | .ok pa => (none, some pa)
  | .error c => (some (c.getD 0), none)

/-- What a landing meets: a code, or pieces. -/
def landB (s : State) (p : Fesel) : Option Code :=
  match s.landingCheck 0 p with
  | .error c => some c
  | .ok _ => none

theorem witness_StripePackets :
    (let s := tComm []
     (s.comm 1 (planComm tJoin.plan)).gen = planGen tJoin.plan ∧
     (let p : Fesel := { s.fesel 1 0 0x07 0x001 with aux := 0 }
      (s.sendNew 1 0 p).isSome = true ∧ ((s.modDie 0 fun d => { d with portsDown := upto 8 }).sendNew 1 0 p).isNone = true) ∧
     ((s.modContext 1 fun x => { x with comms := [] }).comm 1 0).gen ≠ planGen tJoin.plan) ∧
    (let g : Grant := ⟨1, 0x100, 0, 0x200, 7, 0⟩
     let s := (({ tComm [] with views := [(2, tView)] }).modDie 0 fun d => { d with grants := [g] })
     xpart tXrq 0 = 2 ∧ xpart tXrq 1 = 64 ∧ s.views.find 2 = some tView ∧ s.views.find 0 = none ∧ tView.ctx = tXrq.tctx.toNat ∧
     tXrq.src ∈ tView.grants ∧ tXrq.vaddr.toNat + xpart tXrq 1 ≤ 65536 * tView.chunks ∧
     s.grantOf 1 (BitVec.ofNat 20 (xpart tXrq 2)) (xpart tXrq 3) = some g ∧ (tComm []).grantOf 1 0x100 0 = none ∧ g.lead = tXrq.src ∧
     { g with lead := 0x300 }.lead ≠ tXrq.src ∧ g.gen = tXrq.gen ∧ { g with gen := 6 }.gen ≠ tXrq.gen ∧ g.gen = (s.comm 1 0).gen) ∧
    (let s := { tComm [] with views := [(2, tView)] }
     let r : ViewRead := { die := 0, pkt := tXrq }
     s.views.find 2 = some tView ∧ 4096 * r.next < xpart r.pkt 1 ∧ xpart r.pkt 1 ≤ 4096 * { r with next := 1 }.next ∧ tView.lost = false ∧
     tView.spoiled = false ∧ s.viewRemapped { tView with leaves := s.viewLeaves 1 0x10000 1 } = false ∧
     { tView with spoiled := true }.spoiled = true ∧ { tView with lost := true }.lost = true) ∧
    (let s := { tComm [] with views := [(2, tView)] }
     let tagged := s.modContext 1 fun x => { x with tagEn := true }
     let page := { tagged with mem := putBytes s.mem 0x51008 (bytesOf 8 (0x0001_C000_0001_0003 + 2 ^ 50)) }
     let dark := { s with mem := putBytes s.mem 0x51008 (bytesOf 8 0x0001_8000_0001_0003) }
     viewB s tView = (none, some 0x10000) ∧ viewB s { tView with lost := true } = (some cVIEWLOST, none) ∧
     viewB s { tView with state := [(0, .copying 0)] } = (some 0, none) ∧
     viewB s { tView with state := [(0, .preserved 0)] } = (none, some 0x30000) ∧ viewB (tFull s) tView = (some 0, none) ∧
     viewB s { tView with base := 0x50000 } = (some cXLATE, none) ∧ viewB dark tView = (some cPERM, none) ∧
     viewB { page with gmeta := [(0x400, 5)] } { tView with base := 0x0300_0000_0001_0000 } = (some cTAG, none) ∧
     viewB (tCut s) { tView with base := 0x20000 } = (some cREMOTE, none) ∧
     viewB { s with gmeta := [(0x400, 0x10)] } tView = (some cECC, none)) ∧
    (let s := (tComm []).modContext 1 fun x => { x with windows := [(0, tWindow)] }
     let p := { tPkt 8 0 7 with vaddr := 0x100 }
     let with_ := fun (w : Window) => s.modContext 1 fun x => { x with windows := [(0, w)] }
     natBits p.aux.toNat 31 24 = 0 ∧ landB (tComm []) p = some cREMOTE ∧ landB (with_ { tWindow with isOpen := false }) p = some cREMOTE ∧
     landB (with_ { tWindow with isOpen := false, byGen := true }) p = some cGEN ∧ landB (with_ { tWindow with closing := true }) p = some cREMOTE ∧
     landB s { p with gen := 6 } = some cGEN ∧ landB s { p with aux := 5 } = some cPERM ∧ landB s { p with vaddr := 0xFFFF } = some cPERM ∧
     landB (with_ { tWindow with base := 0x50000 }) p = some cXLATE ∧ landB s p = none ∧
     landB { s with gmeta := [(0x404, 0x10)] } { p with payload := [1] } = some cECC ∧ s.runs 1 = true ∧
     (s.modContext 1 fun x => { x with preempted := true }).runs 1 = false ∧
     (let x := s.landing 1 tWindow p
      x.xer = false ∧ x.xcn = false ∧ x.len ≤ x.got ∧ { x with len := 64 }.got < { x with len := 64 }.len) ∧
     ((tFull s).rangeWaits 0 1 0x50000 64 = true ∧ s.rangeWaits 0 1 0x10100 64 = false) ∧ p.code = 0 ∧ p.payload ≠ [] ∧
     (s.window 1 0).isSome = true) ∧
    (let x : Stripe := ⟨5, 0, 1, 4, 0x200, 0, none, false⟩
     let s := (tComm []).modDie 0 fun d => { d with joinQ := [tJoin], stripes := [x] }
     s.answersStripe 0 (tPkt 9 0 7) x = true ∧ s.answersStripe 0 { tPkt 9 0 7 with fid := 6 } x = false ∧ s.joinCmd 0 x = some tJoin ∧
     (match (s.engWrite { core := 0, slot := 0, lane := 0, ctx := 1, die := some 0 } 0x30000 1 false fun _ => [0]).1 with
      | .ok _ => true
      | .error _ => false) = true) := by
  refine ⟨?_, ?_, ?_, ?_, ?_, ?_⟩ <;> decide +kernel

theorem witness_CollectivePackets :
    (let k : Coll := { tColl with ranks := [(0, false), (1, false)], desc := tDesc 0x10100 0x10200 4 }
     let s := (tComm []).modContext 1 fun x => { x with colls := [k] }
     let p := { tPkt 0x0C 0 7 with aux := 7, vaddr := 0, extra := collSays k.desc }
     (s.context 1).isSome = true ∧ s.rankOf 1 0 p.src = 1 ∧ s.deviceOf 1 0 1 = some p.src ∧ 1 ∈ k.ranks.map Prod.fst ∧ k.result = none ∧
     { p with extra := [] }.extra ≠ collSays k.desc ∧ s.deviceOf 1 0 (s.rankOf 1 0 0x999) ≠ some 0x999 ∧
     (9 + 2 ^ 26 - 0) % 2 ^ 26 < 2 ^ 25 ∧ 2 ^ 25 ≤ (2 ^ 26 - 1 + 2 ^ 26 - 0) % 2 ^ 26 ∧
     s.coll 1 0 7 = some k ∧ k.missing ≠ [] ∧
     (let full := { k with got := [(0, 0, List.replicate 16 1), (1, 0, List.replicate 16 2)] }
      full.missing = [] ∧ full.unread = false ∧
      (State.collStores full 1 (full.dstSize / collElem full.desc) (Coll.output full) s).2.1 = none)) := by
  decide +kernel

/-- The stream of module 0 from die 0 to die 1. -/
def tStream : StreamId := ⟨0, 1, 0, false⟩

/-- The state of `tS` with that stream, and dies 0 and 1 in cycle n. -/
def tLink (n : Nat) (x : Stream) : State :=
  { tS with
    streams := [(StreamId.key tStream, x)]
    dies := [(0, { cycle := n }), (1, { cycle := n })] }

/-- A stream whose receiver expects number 5, with one flit of a kind and number on its wire. -/
def tWire (kind : BitVec 4) (seq : Nat) : State := tLink 0 { exp := 5, wire := [⟨kind, seq, 0, false, 0, []⟩] }

/-- A held flit sent in cycle 0 and replayed so often. -/
def tHeld (n : Nat) : HeldFlit := ⟨5, [], n, 0⟩

theorem witness_LinkFlits :
    (let t := tStream
     let arrives := fun (s : State) (k : Nat) => (s.takeFlit t k).map fun x => (x.1.seq, ((x.2.applyFlit t x.1).stream t).exp)
     let off := fun (n : Nat) => (5 + 4096 + 4095 - n) % 4096
     (arrives (tWire 1 5) 1 = some (5, 5) ∧ arrives (tWire 1 4037) 1 = some (4037, 5) ∧ off 4037 = 63 ∧
      arrives (tWire 1 4036) 1 = some (4036, 5) ∧ off 4036 = 64 ∧ arrives (tWire 1 6) 1 = some (6, 5) ∧ off 6 = 4094) ∧
     arrives (tWire 2 0) 2 = some (0, 5) ∧ (tS.stream t).wire = [] ∧ tS.hasLink t = true ∧ (tS.module t).up = true ∧
     ((tS.sendFlit t 0 0 false []).takeFlit t 0).isSome = true ∧ ((tWire 1 5).stream t).wire ≠ []) ∧
    (let t := tStream
     let x : Stream := { nakAt := some 0, ackAt := some 0, replay := [tHeld 3] }
     ((tLink 1023 x).stream t).nakAt = some 0 ∧ ((tLink 1023 x).die (StreamId.dst t)).cycle < 0 + 1024 ∧
     ((tLink 1024 x).die (StreamId.dst t)).cycle = 0 + 1024 ∧ ((tLink 63 x).stream t).ackAt = some 0 ∧
     ((tLink 63 x).die (StreamId.dst t)).cycle < 0 + 64 ∧ ((tLink 64 x).die (StreamId.dst t)).cycle = 0 + 64 ∧
     ((tLink 64 x).module t).up = true ∧ ((tLink 1023 x).stream t).replay = [tHeld 3] ∧
     ((tLink 1023 x).die (StreamId.src t)).cycle < (tHeld 3).at_ + 1024 ∧
     ((tLink 1024 x).die (StreamId.src t)).cycle = (tHeld 3).at_ + 1024 ∧ (tHeld 3).replays < 4 ∧ 4 ≤ (tHeld 4).replays ∧
     ((tLink 0 { replay := [tHeld 4] }).stream t).replay = [tHeld 4]) := by
  decide +kernel

theorem witness_LinkRetraining :
    (let t := tStream
     let s := tLink 0 { replay := [tHeld 4] }
     let key := moduleKey 0 1 0
     let r := fun (ws : List Width) (w : Width) =>
       ({ tS with modules := [(key, { retrain := some (ws, 1) }), (moduleKey 0 1 1, { width := w })] } : State)
     (s.module t).up = true ∧ (∃ x ∈ (s.stream t).replay, 4 ≤ x.replays) ∧
     (∀ x ∈ ((tLink 0 { replay := [tHeld 3] }).stream t).replay, x.replays < 4) ∧ lowStream 0 1 0 = t ∧ s.hasLink t = true ∧
     (s.module t).retrain = none ∧ ((r [.full, .low] .full).module t).retrain = some ([.full, .low], 1) ∧
     ((r [.full, .low] .full).module t).width = .full ∧ ((r [.low] .full).module t).width ≠ .low ∧
     ((r [.high] .down).module t).retrain = some ([.high], 1) ∧ ((r [.high] .down).module (StreamId.other t)).width = .down ∧
     (((r [.high] .down).modModule t fun x => { x with width := .down, retrain := none }).module (StreamId.other t)).width = .down) := by
  decide +kernel

/-- The stream's receiver, die 1, has one packet from die 0, for an address of die 1 or the other way, and outstanding requests 3
of a kind to die 0. -/
def tPacket (op : Nat) (x : DlFor) : State :=
  { tWithGroup fun g => { g with loads := [tLoad 8], sq := [tStore 7] } with
    streams := [(StreamId.key tStream,
      { packets := [(0, [Pkt.slot { op := op, rid := 3, src := 0, dst := 1, len := 1, atype := 0x10, aop := 1, addr := 2 ^ 37 }, 0])] })]
    dies := [(1, { cycle := 10000 * Config.cyclesPerUs, dlReqs := [⟨0, 3, x, 0, false⟩] })] }

/-- A packet of an operation is the next, and the request it replies to. -/
def tTakes (s : State) (op : Nat) : Option (Option DlFor) :=
  (s.takePkt tStream (· == op)).map fun x => (x.2.2.2.takeReq tStream x.2.1.rid).map fun y => y.1.for_

theorem witness_LinkPackets :
    (let t := tStream
     let s := tPacket 1 (.inval 4)
     let load := DlFor.load 0 0 8
     let store := DlFor.store 0 0 7
     (tS.recorded t 3 = none ∧ (tLink 0 { window := [(0, 3, [])] }).recorded t 3 = some []) ∧
     (∀ op ∈ upto 16, (tS.takePkt t (· == op)).isNone = true) ∧
     (∀ op ∈ [0x01, 0x07, 0x09, 0x0A, 0x0C], (tTakes (tPacket op load) op).isSome = true) ∧
     (∀ op ∈ [0x03, 0x05, 0x0E], (tTakes ((tPacket op load).startHeld t) op).isSome = true) ∧
     ((tPacket 0x10 load).takePkt t (fun op => op == 0 || 0x0F < op)).isSome = true ∧
     tTakes (tPacket 0x08 (.inval 4)) 0x08 = some (some (.inval 4)) ∧
     (∀ op ∈ [0x02, 0x0D], tTakes (tPacket op load) op = some (some load)) ∧
     (∀ op ∈ [0x04, 0x06, 0x0B, 0x0F], tTakes (tPacket op store) op = some (some store)) ∧
     (tPacket 0x02 load).loadOf 0 0 8 = some (tLoad 8) ∧ (tPacket 0x04 store).storeOf 0 0 7 = some (tStore 7) ∧
     tTakes { tPacket 0x02 load with dies := [] } 0x02 = some none ∧
     (s.takePkt t (· == 1)).map (fun x => x.2.2.2.pktFails x.2.1 []) = some false ∧
     ((tPacket 5 load).takePkt t (· == 5)).map (fun x => (x.2.2.2.pktFails x.2.1 x.2.2.1, (x.2.2.2.recorded t x.2.1.rid).isNone)) =
       some (false, true) ∧
     (({ s with hbm := [(2, { th3 := some 0 })] } : State).takePkt t (· == 1)).map (fun x => x.2.2.2.pktFails x.2.1 []) = some true) := by
  decide +kernel

/-- A data flit's bytes: 256 of them, from which the flit is read back, and none where a bit is damaged. -/
theorem witness_LinkFlits_wire :
    (let f : Flit := ⟨1, 4095, 17, true, 255, [5, 7]⟩
     f.seq < 4096 ∧ f.ack < 4096 ∧ f.cred < 256 ∧ f.kind = 1 ∧ f.slots.length ≤ 15 ∧ f.wire.length = 256 ∧
     Flit.ofWire f.wire = some { f with slots := f.slots ++ List.replicate 13 0 } ∧
     Flit.ofWire (f.wire.set 100 3) = none ∧
     (⟨0, 0, 17, false, 3, []⟩ : Flit).kind ≠ 1 ∧ (Flit.ofWire (⟨0, 0, 17, false, 3, []⟩ : Flit).wire).isSome = true) ∧
    ((tLink 0 { replay := [tHeld 3, tHeld 0] }).renumbered tStream).stream tStream =
      { ((tLink 0 { replay := [tHeld 3, tHeld 0] }).renumbered tStream).stream tStream with seq := 2, exp := 0, nakAt := none } ∧
    ((tWire 1 5).stream tStream).wire = [⟨1, 5, 0, false, 0, []⟩] ∧ ((tWire 1 5).stream tStream).nakAt = none ∧
    ((tLink 0 { nakAt := some 0 }).stream tStream).nakAt.isSome = true := by
  decide +kernel

/-- What a request at its home may meet: another tag, poison, a stack held too long; and a reply to a fill. -/
theorem witness_LinkPackets_faults :
    (let t := tStream
     let fill := DlFor.fill 0 true false .normal 5
     let store := DlFor.store 0 0 7
     let asked := { (tPacket 3 store).modGroup 0 0 fun g => { g with sq := [{ tStore 7 with acc := { tAcc 7 with pa := 2 ^ 37 } }] } with
       dies := [(0, { dlReqs := [⟨1, 3, store, 0, false⟩] })] }
     let fault := fun (s : State) => (s.takePkt t (· == 3)).map fun x => (x.2.2.2.pktFault t x.2.1, (x.2.2.2.recorded t x.2.1.rid).isNone)
     fault asked = some (none, true) ∧ fault { asked with gmeta := [(2 ^ 37 / 64, 0x10)] } = some (some cECC, true) ∧
     tTakes (tPacket 0x02 fill) 0x02 = some (some fill) ∧
     tTakes (tPacket 0x02 (.ingress 9 0 0x10100 4)) 0x02 = some (some (.ingress 9 0 0x10100 4)) ∧
     ((⟨0, 3, fill, 0, true⟩ : DlReq).stale = true ∧ (⟨0, 3, fill, 0, false⟩ : DlReq).stale = false) ∧
     ((tPacket 0x0C store).takePkt t (· == 0x0C)).map (fun x => x.2.2.2.pktFails x.2.1 x.2.2.1) = some false ∧
     (({ tPacket 0x0C store with hbm := [(2, { th3 := some 0 })] } : State).takePkt t (· == 0x0C)).map
       (fun x => x.2.2.2.pktFails x.2.1 x.2.2.1) = some true ∧
     (((tPacket 3 store).startHeld t).takePkt t (· == 3)).isSome = true) := by
  decide +kernel

/-- A queue descriptor at 0x30200: log2 of the ring's packets, priv, wridx, rdidx; context 1, tolerance 60, ccount 0, ctime 1. -/
def tDescriptor (lg priv wr rd : Nat) : List Byte :=
  [0, 0, lg * 2 ^ 27 + priv * 2 ^ 26 + 1, wr, rd, 60, 256, 0, 0, 4 * 2 ^ 27, 0, 0, 0, 0, 0, 0].flatMap fun (w : Nat) => bytesOf 4 w

/-- The words of a packet of a type that are all zero but for word 2. -/
def tPlain (type w2 : Nat) : List W32 := [BitVec.ofNat 32 (type * 2 ^ 24), 0, BitVec.ofNat 32 w2] ++ List.replicate 29 0

/-- The words of a launch of die 0 of four by two teams, no buffers. -/
def tLaunchWords : List W32 := (tWords.set 0 0x0101_0000)

/-- A queue 6 with a descriptor and packets, and a second context. -/
def tQueue (d : List Byte) (x : Context) (ps : List Packet) : State :=
  { tMapped [(0x30200, d)] with
    queues := [(6, { desc := 0x30200, packets := ps })]
    contexts := [(1, { root := 0x40000, tidbase := 0x10800 }), (2, x)] }

/-- The packet of queue 6 that may start, and whether the queue is privileged. -/
def tTurn (s : State) : Option (Nat × Bool) := (s.packetTurn 6).map fun x => (pkType x.2.words, s.qpriv x.1)

/-- A check of a launch's records that passes. -/
def okB {α : Type} : Except Code α → Bool
  | .ok _ => true
  | .error _ => false

theorem witness_SlabsAndPackets :
    (let s := fun (lg wr : Nat) => tQueue (tDescriptor lg 0 wr 0) {} []
     let bad := fun (t : State) => (t.queues.find 6).map fun x => (t.descBad x, decide (2 ^ natBits (t.qword x 2) 31 27 < (t.qword x 3 + 2 ^ 32 - t.qword x 4) % 2 ^ 32))
     bad (s 4 16) = some (false, false) ∧ bad (s 4 17) = some (false, true) ∧ bad (s 3 1) = some (true, false) ∧
     (tQueue [] {} []).queues.find 6 = some { desc := 0x30200 } ∧ ({ desc := 0, halted := true } : Queue).halted = true) ∧
    (let d := tDescriptor 4
     let p := fun (t w2 : Nat) => ({ index := 0, words := tPlain t w2 } : Packet)
     let b : Packet := { index := 1, words := [0x8000] }
     tTurn (tQueue (d 0 1 1) {} [{ p 0 0 with started := true }, p 0 0]) = some (0, false) ∧
     tTurn (tQueue (d 0 1 1) {} [b]) = some (0, false) ∧ tTurn (tQueue (d 0 1 1) {} [{ p 0 0 with started := true }, b]) = none ∧
     tTurn (tQueue (d 0 1 1) {} [p 2 0]) = some (2, false) ∧ plainBad (p 2 0).words = false ∧ plainBad (p 2 1).words = true ∧
     tTurn (tQueue (d 0 1 1) {} [p 3 0]) = some (3, false) ∧ tTurn (tQueue (d 1 1 1) {} [p 3 2]) = some (3, true) ∧
     plainBad (p 3 2).words = false ∧ plainBad (p 3 0x10000).words = true ∧ natBits (pw (p 3 2).words 2) 15 0 = 2 ∧
     (tQueue (d 1 1 1) {} []).context 2 = some {} ∧ tS.context 2 = none ∧ ({} : Context).preempted = false ∧
     tTurn (tQueue (d 1 1 1) { preempted := true, out := true } [p 4 2]) = some (4, true) ∧ plainBad (p 4 2).words = false ∧
     tTurn (tQueue (d 0 1 1) {} [p 4 2]) = some (4, false) ∧ tTurn (tQueue (d 0 1 1) {} [p 5 0]) = some (5, false)) ∧
    (let s := tQueue (tDescriptor 4 0 1 1) {} [{ index := 0, words := tLaunchWords }]
     let w := tLaunchWords
     (s.packetTurn 6).map (fun x => x.2.checked) = some false ∧ s.launchWaits 1 w = false ∧ (tHold s 0).launchWaits 1 (w.set 16 0x30000) = true ∧
     tTurn s = some (1, false) ∧ s.launchCheck 1 w false = none ∧ s.launchCheck 1 (tPlain 5 0) false = some cILLEGAL ∧
     pkType (tPlain 5 0) ≠ 1 ∧ s.context 3 = none ∧ s.launchIllegal (w.set 4 0) false = true ∧ s.launchIllegal w false = false ∧
     natBits (pw (w.set 0 0x0101_0001) 0) 7 0 ≠ 0 ∧ s.launchIllegal (w.set 0 0x0101_0001) false = false ∧ natBits (pw w 0) 7 0 = 0 ∧
     launchAlign (w.set 10 2) = true ∧ s.launchIllegal (w.set 10 2) false = false ∧ launchAlign w = false) ∧
    ((0 < 3 ∧ 2 < 3) ∧ 0 < (1 : Nat) ∧ (5 : Nat) ≤ 5) :=
  ⟨by decide +kernel, by decide +kernel, by decide +kernel, by decide +kernel⟩

/-- Committed teams 2, which is resident, and 3, which is not. -/
def tInk (n : Nat) : Ink := { ctx := 1, launch := 3, chunk := 0, consumer := true, teams := [n], pc := 0x10000, v := [], s := [], p := [] }

theorem witness_LaunchesRun :
    (let s := fun (ws : List W32) => tQueue (tDescriptor 4 0 1 1) {} [{ index := 0, words := ws, checked := true }]
     let turn := fun (t : State) => (t.packetTurn 6).map fun x => (t.qctx x.1, x.2.checked, okB (t.launchData (t.qctx x.1) x.2.words))
     turn (s tLaunchWords) = some (1, true, true) ∧ turn (s ((tLaunchWords.set 14 0x50000).set 7 0x10000)) = some (1, true, false) ∧
     (s tLaunchWords).launchWaits 1 tLaunchWords = false ∧ ((s tLaunchWords).context 1).isSome = true) ∧
    (let s := fun (n : Nat) => ({ tS with launches := [{ tLaunch with tickets := [(0, n)] }] } : State)
     let l := fun (n : Nat) => ((s n).launch 1 3).getD tLaunch
     let first := fun (n : Nat) => ((s n).slab (l n) (dieOf 0)).1 + (l n).tickets.get 0 (dieOf 0) * pkChunk (l n).words
     ((s 0).launch 1 3).isSome = true ∧ (l 0).term = none ∧ (s 0).runs 1 = true ∧ (s 0).agentRuns 0 = true ∧ (s 0).power = .l0 ∧
     ((s 0).pkDies (l 0).words).contains (dieOf 0) = true ∧ ((s 0).core 0).strokes.length < 16 ∧ 0 < (s 0).coreCount ∧
     first 0 = 0 ∧ ((s 0).slab (l 0) (dieOf 0)).2 = 8 ∧ first 1 = 64) ∧
    (let s := fun (n : Nat) => tWithCore fun k => { k with inked := [tInk n] }
     let k := tWithCore fun k => { k with teams := k.teams.map fun x => (x.1, { x.2 with resv := [] }) }
     (∀ n ∈ [2, 3], (((s n).core 0).inkOrder.filter fun x => (s n).runs x.1.ctx).head? = some (tInk n, n) ∧
       ((s n).materialise 0 (tInk n) n).isSome = true) ∧ (((k.core 0).reserve tLaunch 3).isSome = true)) ∧
    (let s := tS
     let used := tWithCore fun k => { k with strokes := [(15, tStroke)] }
     let g := fun (w6 : W32) => ([0xA000_0001, 3, 80 * 2 ^ 22 + 40 * 2 ^ 16, 0, 0x10000, 0, w6, 3] : List W32)
     let b := fun (x1 : W32) => ([0xE000_0001, 0, x1, 0, 0, 0, 0, 3] : List W32)
     let box := bindBox (pw (b 3))
     0 < s.coreCount ∧ s.agentRuns 0 = true ∧ (tWithCore fun k => { k with agentFrozen := true }).agentRuns 0 = false ∧
     s.rootRuns (dieOf 0) = true ∧ natBits (pw (g 0) 0) 31 31 = 1 ∧ natBits (pw (g 0) 0) 30 30 = 0 ∧
     natBits (pw [0] 0) 31 31 = 0 ∧ s.launch 1 4 = none ∧ s.launch (natBits (pw (g 0) 0) 15 0) (pw (g 0) 7) = some tLaunch ∧
     tLaunch.term = none ∧ (s.bindCheck 0 2 (pw (g 0)) tLaunch).isSome = true ∧ s.bindCheck 0 2 (pw (g 1)) tLaunch = none ∧
     s.launch (natBits (pw (b 3) 0) 15 0) (pw (b 3) 7) = some tLaunch ∧ natBits (pw (b 3) 0) 30 30 = 1 ∧
     (box.x0 ≤ box.x1 ∧ box.y0 ≤ box.y1 ∧ box.z0 ≤ box.z1 ∧ box.x1 < pw tLaunch.words 4 ∧ box.y1 < pw tLaunch.words 5 ∧
       box.z1 < pw tLaunch.words 6) ∧ pw tLaunch.words 4 ≤ (bindBox (pw (b 4))).x1 ∧ natBits (pw (b 3) 0) 28 16 = 0 ∧
     (s.core 0).strokes.find (79 - 64) = none ∧ ((used.core 0).strokes.find (79 - 64)).isSome = true ∧
     (rolesOf tLaunch.words).contains (natBits (pw (b 3) 0) 29 29 == 1) = true) :=
  ⟨by decide +kernel, by decide +kernel, by decide +kernel, by decide +kernel⟩

theorem witness_LaunchesEnd :
    (let s := fun (q : List StoreReq) => tWithGroup fun g => { g with draining := true, sq := q }
     ((s []).group 0 0).draining = true ∧ (s []).unacknowledged 0 0 = false ∧ (s [tStore 7]).unacknowledged 0 0 = true) ∧
    (let l : Launch := { tLaunch with tickets := [(0, 1)], slots := [⟨0x30300, 0, []⟩] }
     let s := { tS with launches := [l], cores := [] }
     tS.launch 1 3 = some tLaunch ∧ tLaunch.term = none ∧ (∃ d ∈ tS.pkDies tLaunch.words, tS.exhausted tLaunch d = false) ∧
     tS.launchLive 1 3 = true ∧ s.launch 1 3 = some l ∧ s.launchLive 1 3 = false ∧ l.term = none ∧
     (∀ d ∈ s.pkDies l.words, s.exhausted l d = true) ∧ (∀ o ∈ l.slots, (s.held o.pa && s.storeFills o.pa 4) = false) ∧
     20 < (0x15 : Code).toNat ∧ (cILLEGAL : Code).toNat ≤ 20 ∧ s.bad 0x30300 4 = false ∧
     ({ s with gmeta := [(0x30300 / 64, 0x10)] } : State).bad 0x30300 4 = true ∧ l.buffers = [] ∧ ({ l with term := some cILLEGAL } : Launch).term.isSome = true) ∧
    (let s := fun (n reports : Nat) (h : Held) =>
       { tQueue (tDescriptor 4 0 1 1) {} [] with
         queues := [(6, { desc := 0x30200, reports := reports })]
         dies := [(0, { cycle := n, held := [(6, h)] })] }
     let time := fun (t : State) => natBits (t.qword { desc := 0x30200 } 6) 14 8
     (s 0 0 {}).queues.find 6 = some { desc := 0x30200 } ∧ (s 0 1 {}).queues.find 6 = some { desc := 0x30200, reports := 1 } ∧
     time (s 0 0 {}) = 1 ∧ ({ count := 1 } : Held).count ≠ 0 ∧ ({ count := 1 } : Held).due = false ∧
     ((s 1250 0 { count := 1 }).die 0).held.get {} 6 = { count := 1 } ∧ ((s 1250 0 {}).die 0).cycle = 0 + Config.cyclesPerUs * 1 ∧
     ((s 1249 0 {}).die 0).cycle < 0 + Config.cyclesPerUs * 1 ∧ ({ due := true } : Held).due = true) :=
  ⟨by decide +kernel, by decide +kernel, by decide +kernel⟩

theorem witness_ContextsAndQueues :
    (let s := fun (q : List StoreReq) => ({ tWithGroup fun g => { g with sq := q } with contexts := [(1, { preempted := true })] } : State)
     tS.context 1 = some {} ∧ ({} : Context).preempted = false ∧ ({} : Context).saved = [] ∧ (s []).context 1 = some { preempted := true } ∧
     ({ preempted := true } : Context).out = false ∧ (s []).quiet 1 = true ∧ (s [tStore 7]).quiet 1 = false ∧
     ({ preempted := true, out := true } : Context).out = true) ∧
    ((∃ l ∈ tS.launches, l.ctx = 1) ∧ (∀ l ∈ tS.launches, l.ctx ≠ 2) ∧ tS.rootAlive = true) ∧
    (let out : Context := { preempted := true, out := true, saveArea := some ⟨0x30000, 64⟩, image := List.replicate 64 0 }
     let s := { tMapped [] with contexts := [(1, out)] }
     s.context 1 = some out ∧ s.areaBytes out = out.image ∧ { s with mem := putBytes s.mem 0x30000 [1] }.areaBytes out ≠ out.image) ∧
    (let s := { tMapped [] with launches := [] }
     (match s.walk 1 (s.tidAddr 1 3) with
      | .ok (p, _, _) => p == s.tidAddr 1 3
      | .error _ => false) = true ∧ s.views = []) := by
  decide +kernel

/-- The stack of an address holds its data. -/
def tHoldAt (s : State) (pa : Nat) : State := { s with hbm := [(stackOf pa, { th3 := some 0 })] }

/-- A host's write of a queue's wridx: without a window, behind another request of its pair, to a stack that holds its data, and one that
is performed; descriptors that are not read; packets for a context that is out, that is not pre-empted, and that does not exist. -/
theorem witness_SlabsAndPackets_hosts :
    (let s := { tQueue (tDescriptor 4 0 1 1) {} [] with hostWins := [⟨0x30000, 0x10000⟩] }
     let r : HostReq := { port := 0, qp := 0, addr := 0x30200 + 12, len := 4, bytes := some (bytesOf 4 2) }
     let busy := { s with hostHeld := [r] }
     s.queues.find 6 = some { desc := 0x30200 } ∧ { s with hostWins := [] }.registered 0x3020C 4 = false ∧
     (∀ y ∈ s.hostHeld, y.port ≠ 0 ∨ y.qp ≠ 0) ∧ ¬(∀ y ∈ busy.hostHeld, y.port ≠ 0 ∨ y.qp ≠ 0) ∧ (tHoldAt s 0x3020C).hostWaits r = true ∧
     s.hostRefused r = false ∧ s.hostWaits r = false ∧
     (({ desc := 0, halted := true } : Queue).halted = true ∧ (tHoldAt s 0x30200).stackWaits 0x30200 64 = true ∧ s.stackWaits 0x30200 64 = false ∧
       s.descLinked 0 { desc := 0x30200 } = true ∧ (tCut s).descLinked 0 { desc := 2 ^ 37 } = false)) ∧
    (let p : Packet := { index := 0, words := tPlain 4 2 }
     let d := tDescriptor 4 1 1 1
     tTurn (tQueue d {} [p]) = some (4, true) ∧ ((tQueue d {} [p]).context 2).map (fun k => k.preempted) = some false ∧
     tTurn (tQueue d {} [{ p with words := tPlain 4 7 }]) = some (4, true) ∧ (tQueue d {} [p]).context 7 = none ∧
     ((tQueue d { preempted := true, out := true } []).context 2).map (fun k => k.out) = some true) := by
  decide +kernel

/-- A grid that ends while a slot's stack, a writeback's or the completion ring's holds its data. -/
theorem witness_LaunchesEnd_waits :
    (let l : Launch := { tLaunch with queue := 6, tickets := [(0, 1)], slots := [⟨0x10300, 0, []⟩] }
     let q := tQueue (tDescriptor 4 0 1 1) {} []
     let s := { q with launches := [l], cores := [] }
     (s.launch 1 3).isSome = true ∧ s.writeWaits 0x10300 4 = false ∧ (tHoldAt s 0x10300).writeWaits 0x10300 4 = true ∧
     s.postWaits 6 (s.postDie l.words) = false ∧ (tHoldAt s 0x30200).postWaits 6 (s.postDie l.words) = true ∧
     s.flushWaits l = false) := by
  decide +kernel

/-- Queue descriptors at addresses of the wrong half, that cross a page, that do not translate, and at one that does; a context with an entry
of its tensor table still to be mapped; a context whose area changed while launches wait saved. -/
theorem witness_ContextsAndQueues_places :
    (let s := { tMapped [] with fwRoot := 0x40000 }
     let at_ := fun (t : State) (a : Nat) => match t.walkAs t.rootDie 0 (BitVec.ofNat 64 a) with
       | .ok (p, _, _) => some p
       | .error _ => none
     s.rootAlive = true ∧ (BitVec.ofNat 64 0x30200).getLsbD 63 = false ∧ 65472 < 0xF000_0000_0003_FFF0 % 65536 ∧
     (BitVec.ofNat 64 0xF000_0000_0003_0200).getLsbD 63 = true ∧ 0xF000_0000_0003_0200 % 65536 ≤ 65472 ∧
     at_ s 0xF000_0000_0003_0200 = some 0x30200 ∧ at_ s 0xF000_0000_0005_0000 = none) ∧
    ((∀ l ∈ tS.launches, l.ctx ≠ 2) ∧ tS.rootAlive = true) ∧
    (let s := (tMapped []).modContext 1 fun x => { x with blank := [3, 9] }
     (s.context 1).isSome = true ∧ (match s.walk 1 (s.tidAddr 1 3) with
      | .ok _ => true
      | .error _ => false) = true ∧ { s with launches := [] }.views = []) ∧
    (let x : Context := { preempted := true, saveArea := some ⟨0x30000, 64⟩, image := List.replicate 64 0, saved := [⟨0, [], [], [], [], [], [], [], [], []⟩] }
     x.saved ≠ [] ∧ { tMapped [(0x30000, [1])] with contexts := [(1, x)] }.areaBytes x ≠ x.image) := by
  decide +kernel

/-- A stack of the package at a temperature threshold. -/
def tStacks (n : Nat) (k : Stack) : State :=
  { tS with
    hbm := [(3, k)]
    dies := [(1, { cycle := n })] }

/-- A granule with eight symbol errors. -/
def tWorn : State := { tS with gerr := [(0x408, (upto 8).map fun j => (j, 1))] }

/-- Die 0's Nopol root has been refused, and every die's. -/
def tRefused : State := tS.modDie 0 fun d => { d with rootRefused := true }
@[inherit_doc tRefused] def tNoRoot : State := (upto 8).foldl (fun s d => s.modDie d fun x => { x with rootRefused := true }) tS

theorem witness_StacksAndDevices :
    ((stackOf (64 * 0x408) = 1 ∧ backed (64 * 0x408) = true ∧ homeDie (64 * 0x408) < tS.dieCount ∧ tS.held (64 * 0x408) = false ∧
      tS.homeHit (64 * 0x408) 64 = false ∧ stackOf (64 * 0x408) ≠ 0) ∧
     (15 < 2 * tS.dieCount ∧ 2 * tS.dieCount ≤ 16 ∧ (tS.stack 3).th3 = none ∧ ((tStacks 0 { th3 := some 0 }).stack 3).th3 = some 0) ∧
     ((85 : Int) ≤ 85 ∧ ¬(85 : Int) ≤ 84 ∧ ¬(82 : Int) < 82) ∧
     (tStacks 12499999 { th3 := some 0 }).overdue 3 = false ∧ (tStacks 12500000 { th3 := some 0 }).overdue 3 = true ∧
     tS.gerr.get [] 0x408 = [] ∧ tS.backed (64 * 0x408) = true ∧ tS.uncorrectable 0x408 = false ∧
     tWorn.uncorrectable 0x408 = true ∧ tWorn.homeHit (64 * 0x408) 32 = false ∧ tWorn.homeHit (64 * 0x408 + 32) 32 = false) ∧
    (let us : List EngineUnit := [.copy 7 7, .gather 15, .join 7, .agent 4095, .ingress 0x200]
     (∀ u ∈ us, tS.hasUnit u = true ∧ tS.isFrozen u = false ∧ (tS.setFrozen true u).isFrozen u = true) ∧ 7 < tS.dieCount ∧ 7 < 8 ∧ tS.rootAlive = true ∧ tS.rootRuns 0 = true ∧
     tRefused.rootRuns 0 = false ∧ tRefused.rootAlive = true ∧ tNoRoot.rootAlive = false ∧
     tS.context 1 = some {} ∧ 63 < 64) := by
  decide +kernel

/-- An idle package with one queue, whose tolerance is 60 µs. -/
def tIdle : State :=
  { State.reset with
    mem := putBytes [] 0x30200 (tDescriptor 4 0 1 1)
    queues := [(6, { desc := 0x30200 })] }

theorem witness_PowerStates :
    (let armed := State.reset.modDie 0 fun d => { d with joinArmed := true }
     (Power.l2.latency ≤ 60 ∧ ¬Power.l3.latency ≤ 60) ∧ tIdle.allowed = .l2 ∧ tIdle.waking = false ∧ tIdle.isIdle = true ∧
     tIdle.power.depth < tIdle.allowed.depth ∧ State.reset.allowed = .l4 ∧ State.reset.isIdle = true ∧ armed.allowed = .l1 ∧
     (armed.waking = false ∧ armed.isIdle = true ∧ armed.power.depth < armed.allowed.depth) ∧ tS.isIdle = false ∧
     ({ tIdle with power := .l3 } : State).allowed.depth ≤ ({ tIdle with power := .l3 } : State).power.depth ∧
     (∃ x ∈ armed.dies, x.2.joinArmed = true) ∧
     (∀ c ∈ [WakeCause.wridx, .ingress, .tolerance], tIdle.causes c = false) ∧
     ({ tIdle with power := .l3 } : State).causes .tolerance = true ∧
     ({ tIdle with gateQ := [(0, tPkt 1 0 7)] } : State).causes .ingress = true ∧
     ({ tIdle with mem := putBytes [] 0x30200 (tDescriptor 4 0 2 1) } : State).causes .wridx = true) := by
  decide +kernel

/-- A debug mailbox at 0x30400 with one request of these words. -/
def tDebug (ws : List Nat) (g : Group → Group) (x : Context → Context) : State :=
  { (tMapped [(0x30400, ws.flatMap fun (w : Nat) => bytesOf 4 w)]) with
    mailbox := some ⟨0x30400, 64⟩
    debugQ := [0]
    cores := [(0, { tCore with groups := [(0, g tGroup)] })]
    contexts := [(1, x { root := 0x40000, tidbase := 0x10800 })] }

/-- Whether a debug dump can be written. -/
def dumpB (s : State) : Bool :=
  match s.dumpBytes 0 1 with
  | .ok _ => true
  | .error _ => false

theorem witness_HostAndDebug :
    (let s := { tS with hostWins := [⟨0x30000, 0x20000⟩, ⟨2 ^ 40 - 64, 128⟩] }
     s.registered 0x30000 0x20000 = true ∧ s.reachable 0x30000 0x20000 = true ∧ s.registered 0x30001 0x20000 = false ∧
     s.registered (2 ^ 40 - 4) 8 = true ∧ s.reachable (2 ^ 40 - 4) 8 = false ∧ hostPieces 0x3FFFF 2 = [(0x3FFFF, 1), (0x40000, 1)] ∧
     (let w : HostReq := { port := 3, qp := 9, addr := 0x30008, len := 2, bytes := some [1, 2] }
      let r : HostReq := { port := 3, qp := 9, addr := 0x30008, len := 2, bytes := none }
      let h := tHold s 0
      s.hostPorts = 4 ∧ { s with form := .b940d }.hostPorts = 1 ∧ ¬3 < { s with form := .b940d }.hostPorts ∧
      (∀ x ∈ [w, r], s.hostRefused x = false ∧ s.hostWaits x = false ∧ h.hostWaits x = true ∧ { h with hostWins := [] }.hostWaits x = false ∧
        { s with hostWins := [] }.hostRefused x = true) ∧
      s.badPart 0x30008 2 = false ∧ { s with gmeta := [(0xC00, 16)] }.badPart 0x30008 2 = true ∧
      { s with gmeta := [(0xC00, 16)] }.hostRefused r = true)) ∧
    (let id1 := fun (x : Context) => x
     let halted := fun (g : Group) => { g with halted := true }
     let s := fun (ws : List Nat) => tDebug ws halted id1
     let out := tDebug [0x10001, 0x30000, 0, 0x10000] halted fun x => { x with preempted := true, out := true }
     let op := fun (t : State) => natBits (t.dbgWord 0 0) 7 0
     (s [0x10002]).dbgTurn 0 = true ∧ op (s [0x10002]) = 2 ∧ (s [0x10002]).dbgCtx 0 = 1 ∧ natBits ((s [0x10002]).dbgWord 0 7) 11 0 = 0 ∧
     natBits ((s [0x10002]).dbgWord 0 7) 17 12 = 0 ∧ ((s [0x10002]).core 0).groups.find 0 = some { tGroup with halted := true } ∧
     op (s [0x10003]) = 3 ∧ op (s [0x10004]) = 4 ∧ (s [0x10004]).dbgTurn 1 = false ∧
     op (s [0x10001, 0x30000, 0, 0x10000]) = 1 ∧ (s [0x10001, 0x30000, 0, 0x10000]).context 1 = some { root := 0x40000, tidbase := 0x10800 } ∧
     (s [0x10001, 0x30000, 0, 0x10000]).dumpHeld 0 1 = false ∧ (s [0x10001]).context 9 = none ∧
     (tHold (tDebug [0x10001, 0x30000, 0, 0x10000, 0x30000, 0, 1] halted id1) 0).dumpHeld 0 1 = true ∧
     op out = 1 ∧ (out.context 1).map (fun x => (x.preempted, x.out)) = some (true, true) ∧
     dumpB { s [0x10001, 0x30000, 0, 0x10000] with cores := [] } = true ∧
     dumpB { s [0x10001, 0x30000, 0, 0x20] with cores := [] } = false) :=
  ⟨by decide +kernel, by decide +kernel⟩

/-- An image with a modulus of 3072 bits and exponent 1, signed by its encoded digest; and one whose modulus is too long. -/
def tImage (bytes : List Byte) (m : Nat) : Image :=
  { agent := false, bytes := bytes, modulus := m, exponent := 1, signature := beVal (pkcsEncode (sha256 bytes)) }

/-- The signature of the first image is right: it verifies against a key whose digest is the fused one. -/
theorem witness_verifies (h : sha256 (keyBytes (tImage [1, 2, 3] (2 ^ 3072 - 1))) = Config.fusedDigest) :
    Machine.Image.verifies (tImage [1, 2, 3] (2 ^ 3072 - 1)) = true := by
  have k : (decide ((tImage [1, 2, 3] (2 ^ 3072 - 1)).modulus < 2 ^ 3072) &&
      decide ((tImage [1, 2, 3] (2 ^ 3072 - 1)).signature < (tImage [1, 2, 3] (2 ^ 3072 - 1)).modulus) &&
      powMod (tImage [1, 2, 3] (2 ^ 3072 - 1)).modulus 3072
        ((tImage [1, 2, 3] (2 ^ 3072 - 1)).signature % (tImage [1, 2, 3] (2 ^ 3072 - 1)).modulus) 1 1 ==
        beVal (pkcsEncode (sha256 [1, 2, 3]))) = true := by decide +kernel
  simp only [Bool.and_eq_true] at k
  simp only [Machine.Image.verifies, h, beq_self_eq_true, Bool.true_and, Bool.and_eq_true]
  exact k

theorem witness_rejected : Machine.Image.verifies (tImage [1, 2, 3] (2 ^ 3072)) = false := by
  have k : decide ((tImage [1, 2, 3] (2 ^ 3072)).modulus < 2 ^ 3072) = false := by decide +kernel
  simp only [Machine.Image.verifies, k, Bool.and_false, Bool.false_and]

theorem witness_SamplesAndTrust :
    (let s := fun (n : Nat) (on : Bool) (last : Nat) =>
       { (tWithCore fun k => { k with period := 20, sampled := last, groups := k.groups.map fun x => (x.1, { x.2 with sampleOn := on }) }) with
         dies := [(0, { cycle := n })] }
     (tS.core 0).period = 0 ∧ ((s 19 true 63).core 0).period ≠ 0 ∧ ((s 19 true 63).die 0).cycle < 0 + Nat.max 16 20 ∧
     ((s 20 true 63).die 0).cycle = 0 + Nat.max 16 20 ∧ ((s 20 false 63).core 0).sampleCandidates = [] ∧
     ((s 20 true 63).core 0).sampleCandidates = [0] ∧ [0].find? (fun y => 63 < y) = none ∧
     [0, 4].find? (fun y => 0 < y) = some 4) ∧
    (let d : Deferred := ⟨1, 3, [], ⟨0, 0x10000, [], [], none, 0, 0⟩, false⟩
     let s := tWithCore fun k => { k with deferred := [{ d with acc := { d.acc with ids := [4] } }, d] }
     (∀ d ∈ (tS.core 0).deferred, tS.sampleDone 0 d = false) ∧ (places (s.sampleDone 0) (s.core 0).deferred).head? = some 1 ∧
     (s.core 0).deferred[1]? = some d ∧
     (let u := tS.modDie 0 fun k => { k with rootImage := some [] }
      (u.die 0).rootImage.isSome = true ∧ (tS.die 0).rootImage = none ∧ 0 < tS.dieCount ∧
      ∀ e, e < u.dieCount → e ≠ 0 → (u.die e).rootImage = none) ∧
     (List.replicate 32 (0 : Byte)).length = 32 ∧ ([] : List Byte).length ≠ 32) := by
  decide +kernel

/-! ## The whole step -/

/-- An IADD of v1 and v7, placed at 0x10000 with an issue of group 0 to come. -/
def tAdd (a : List Move) : State :=
  { tS with
    mem := putBytes [] 0x10000 (bytesOf 12 0x0070_0020_2018_0001_4000_0000)
    agenda := a }

/-- What stands at a fetched address decodes, and runs to a next state. -/
def runsB (x : Except FaultRec (List Byte) × State) : Bool :=
  match x.1 with
  | .error _ => false
  | .ok bs => match decodeBytes bs with
    | .error _ => false
    | .ok (i, _) => match exec i x.2 with
      | .next _ => true
      | _ => false

/-- The issue that the group of slot 0 of core 0 votes for runs its decoded instruction. -/
def issueB (t : State) : Bool :=
  match t.vote 0 0 with
  | none => false
  | some (p, q) =>
    let u := t.issueState 0 0 p q
    runsB (u.fetch 0 (u.group 0 0).ctx false (BitVec.ofNat 64 p.pc))

/-- The fetch of that issue waits. -/
def issueWaits (t : State) : Bool :=
  match t.vote 0 0 with
  | none => true
  | some (p, q) =>
    let u := t.issueState 0 0 p q
    u.fetchWaits 0 (u.group 0 0).ctx (BitVec.ofNat 64 p.pc)

/-- A step ends in a next state. -/
def goesB (s : State) : Bool :=
  match step s with
  | .next _ => true
  | _ => false

theorem witness_StepRunsDecoded :
    (let s := tAdd [.issue 0 0]
     let t := ({ s with agenda := [] } : State).tick (dieOf 0) 1
     s.second = none ∧ ({ s with agenda := [] } : State).cedes 0 0 = false ∧ issueWaits t = false ∧ (t.group 0 0).nextDeliv = none ∧ (t.group 0 0).vector = [] ∧ issueB t = true ∧ 0 < s.coreCount) ∧
    (let s := { tAdd [] with second := some tS.iss }
     let u : State := { s with iss := tS.iss, second := none }
     tS.iss.stroke = none ∧ u.fetchWaits 0 (u.group 0 0).ctx 0x10000 = false ∧ runsB (u.fetch 0 (u.group 0 0).ctx false 0x10000) = true) ∧
    (let s := { tStrokeState with mem := (tAdd []).mem, agenda := [.stroke 0] }
     let t := ({ s with agenda := [] } : State).tick (dieOf 0) 1
     s.second = none ∧ t.nextStroke 0 = some 1 ∧ t.strokeAt 0 1 = some tStroke ∧
     (t.strokeState 0 1 tStroke).fetchWaits 0 1 0x10000 = false ∧
     runsB ((t.strokeState 0 1 tStroke).fetch 0 1 false 0x10000) = true) := by
  decide +kernel

/-- The fetch of a present issue: a fault's code, or whether the bytes decode. -/
def fetchB (s : State) : Option Code × Bool :=
  match (s.fetch s.iss.core (s.group s.iss.core s.iss.slot).ctx (s.iss.slot == 63) s.iss.pc).1 with
  | .error f => (some f.code, false)
  | .ok bs => (none, match decodeBytes bs with
    | .ok _ => true
    | .error _ => false)

theorem witness_WholeInstructionFaults :
    (let bad := { tS with mem := putBytes [] 0x10000 (List.replicate 12 0xFF) }
     let far := { tS with iss := { tS.iss with pc := 0x50000 } }
     fetchB bad = (none, false) ∧ bad.iss.stroke = none ∧ fetchB far = (some cXLATE, false) ∧
     tStrokeState.iss.stroke = some 1 ∧ tStrokeState.strokeAt 0 1 = some tStroke ∧
     fetchB { tStrokeState with mem := bad.mem } = (none, false) ∧
     (let waits := fun (u : State) => u.fetchWaits 0 1 u.iss.pc
      let full := fun (u : State) => (tHold { u with mem := (tMapped []).mem, contexts := (tMapped []).contexts } 0)
      waits bad = false ∧ waits far = false ∧ waits { tStrokeState with mem := bad.mem } = false ∧
      waits { tStrokeState with iss := { tStrokeState.iss with pc := 0x50000 } } = false ∧
      fetchB { tStrokeState with iss := { tStrokeState.iss with pc := 0x50000 } } = (some cXLATE, false) ∧
      waits (full tS) = true ∧ waits (full tStrokeState) = true)) ∧
    (let s := tWithGroup fun g => { g with nunit := 1 }
     (([.iadd tHdr { tV with d := .v 8 }] : List Instr).all fun i => i.hdr.isSome && !i.within (s.issGroup.allot s.iss.slot)) = true ∧
     s.iss.stroke = none) := by
  decide +kernel

theorem witness_StepKeepsMemory :
    (Memory.wf (tAdd []).mem = true ∧ SMap.wf (0 : BitVec 5) (tAdd []).gmeta = true ∧ SMap.wf ([] : List (Nat × Byte)) (tAdd []).gerr = true) ∧
    goesB (tAdd [.issue 0 0]) = true := by
  decide +kernel

/-- One instruction of each format: V, I, M, E, C and P, with and without operands. -/
theorem witness_RoundTrip : (([
    .iadd { tHdr with gneg := true, gpred := 2 } { tV with d := .v 319, a := .s 63, b := .k .active, ty := .n32, sat := true },
    .movi tHdr { tV with d := .v 4, imm := some 0x80000001 }, .ld tHdr { tM with a := .v 2, size := .b4, off := 0x7F },
    .fenceo tHdr tM, .binit tHdr { tE with bar := 5, mod := 1 }, .mmat tHdr { tE with acc := 2 }, .bra tHdr { tC with off := 0x100 },
    .pair tHdr ⟨⟨.fadd, .v 1, .v 2, .v 6⟩, ⟨.fmul, .v 4, .v 2, .v 6⟩, false, 7⟩] : List Instr).map Instr.wf) =
    List.replicate 8 true := by decide +kernel

/-- An IADD placed after reset is decoded, and the next step runs it: the group's lane stands after it. -/
theorem test_placed : decodeTableWord 96 0x0070_0020_2018_0001_4000_0000 =
      some (.iadd tHdr { tV with d := .v 1, a := .v 2, b := .v 3, ty := .i32 }) ∧
    (match step (State.reset.withFetchWord 96 0x0070_0020_2018_0001_4000_0000) with
      | .next t => ((t.group 0 0).lane 0).pc == 0x1000C
      | _ => false) = true := by
  decide +kernel

/-- Host requests to a die that the port's die does not reach, of a stack held too long, refused within a registered region; a read of an
ordered-sum area; the reports of root images, with and without a die whose root runs. -/
theorem witness_HostAndDebug_refusals :
    (let s := { tS with hostWins := [⟨0, 2 ^ 39⟩] }
     let r : HostReq := { port := 0, qp := 9, addr := 0x30008, len := 2, bytes := none }
     let far : HostReq := { r with addr := 2 ^ 37 }
     (tCut s).linked (2 * r.port) (homeDie (2 ^ 37)) = false ∧ (tCut s).hostRefused far = true ∧ s.hostRefused far = false ∧
     (tCut s).registered far.addr far.len = true ∧ far.bytes = none ∧
     (let a : HostReq := { r with addr := 0x10100 }
      (tHold s 12500000).hostRefused a = true ∧ (tHold s 0).hostRefused a = false ∧ (tHold s 0).hostWaits a = true) ∧
     s.inOsum 0x30008 2 = false ∧
     (let t := { tMapped [] with launches := [{ tLaunch with words := (tWords.set 22 0x30000).set 24 2 }] }
      t.inOsum 0x30008 2 = true)) ∧
    (let u := (tS.modDie 1 fun d => { d with rootRefused := true, rootPending := true }).modDie 2 fun d => { d with rootImage := some [] }
     (∀ e, e < tS.dieCount → (tS.die e).rootImage = none) ∧ 2 < u.dieCount ∧ (u.die 2).rootImage.isSome = true ∧
     ∀ j, j < 2 → (u.die j).rootImage = none) := by
  decide +kernel

/-- Bind records by Nopol root and by agents: one of the agent of another core, of entry 63, of a terminated launch, of a form that is not
its entry's, and of a live one; a die that has refused its agent's image. -/
theorem witness_LaunchesRun_binds :
    (let s := tS
     let two := { s with cores := s.cores ++ [(1, { tCore with groups := [(63, tAgent)] })] }
     let dead := { s with launches := [{ tLaunch with term := some cILLEGAL }] }
     let g : List W32 := [0xA000_0001, 3, 80 * 2 ^ 22 + 40 * 2 ^ 16, 0, 0x10000, 0, 0, 3]
     let b := fun (x1 : W32) => ([0xE000_0001, 0, x1, 0, 0, 0, 0, 3] : List W32)
     two.bindMay 0 (.agent 1) = true ∧ (1 : Nat) ≠ 0 ∧ s.bindMay 0 (.agent 0) = true ∧ s.bindMay 0 .root = true ∧
     (s.modCore 0 fun k => { k with agentFrozen := true }).bindMay 0 (.agent 0) = false ∧ tRefused.bindMay 0 .root = false ∧
     ((s.launch 1 3).map (fun l => l.term) = some none ∧ (dead.launch 1 3).map (fun l => l.term.isSome) = some true) ∧
     (dead.launch 1 3).map (fun l => (dead.bindCheck 0 2 (pw g) l).isSome) = some true ∧
     natBits (pw (b 3) 0) 29 29 = 1 ∧ natBits (pw g 0) 30 30 = 0 ∧ natBits (pw (b 3) 0) 30 30 = 1 ∧
     ((s.die 0).agentRefused = false ∧ ((s.modDie 0 fun d => { d with agentRefused := true }).die 0).agentRefused = true)) := by
  decide +kernel

/-! ## Single steps: results worked out by hand from the rules -/

/-- Lane 0 of the issuing group has these values in v2, v4 and v1. -/
def tRegs (a b c : W32) : State :=
  tWithGroup fun g => { g with lanes := g.lanes.map fun l => { l with v := [(2, a), (4, b), (1, c)] } }

/-- Register v1 of lane 0 after an instruction, and whether its PC moved by 12. -/
def v1After (s : State) (i : Instr) : W32 × Bool :=
  match exec i s with
  | .next t => (((t.group 0 0).lane 0).v.get 0 1, ((t.group 0 0).lane 0).pc == 0x1000C)
  | _ => (0, false)

/-- The PC of lane 0 after an instruction, whether it is in trap mode, and its cause. -/
def pcAfter (s : State) (i : Instr) : W64 × Bool × W32 :=
  match exec i s with
  | .next t => (((t.group 0 0).lane 0).cur, ((t.group 0 0).lane 0).trap, ((t.group 0 0).lane 0).tcause)
  | _ => (0, false, 0)

/-- Predicate 1 of lane 0 after an instruction. -/
def p1After (s : State) (i : Instr) : Bool :=
  match exec i s with
  | .next t => ((t.group 0 0).lane 0).p.getLsbD 1
  | _ => false

/-- Operands v2 and v4 into v1. -/
def tOps (ty : Ty) : VF := { tV with d := .v 1, a := .v 2, b := .v 4, ty := ty }

/-- Integer arithmetic wraps, or saturates with sat; IMULH is the upper half; IMAD adds to its destination (Table 9-1). -/
theorem test_integer :
    v1After (tRegs 0x7FFF_FFFF 1 0) (.iadd tHdr (tOps .i32)) = (0x8000_0000, true) ∧
    v1After (tRegs 0x7FFF_FFFF 1 0) (.iadd tHdr { tOps .i32 with sat := true }) = (0x7FFF_FFFF, true) ∧
    v1After (tRegs 0 1 0) (.isub tHdr { tOps .n32 with sat := true }) = (0, true) ∧
    v1After (tRegs 0xFFFF_FFFF 0xFFFF_FFFF 0) (.imulh tHdr (tOps .n32)) = (0xFFFF_FFFE, true) ∧
    v1After (tRegs 0xFFFF_FFFF 0xFFFF_FFFF 0) (.imulh tHdr (tOps .i32)) = (0, true) ∧
    v1After (tRegs 3 5 0xFFFF_FFFF) (.imad tHdr (tOps .i32)) = (14, true) ∧
    v1After (tRegs 0xFFFF_FFF9 2 0) (.idiv tHdr (tOps .i32)) = (0xFFFF_FFFD, true) ∧
    v1After (tRegs 0xFFFF_FFF9 2 0) (.irem tHdr (tOps .i32)) = (0xFFFF_FFFF, true) ∧
    v1After (tRegs 0xFFFF_FFFF 1 0) (.imin tHdr (tOps .n32)) = (1, true) := by decide +kernel

theorem test_bits :
    v1After (tRegs 0xF0F0_F0F0 4 0) (.shl tHdr (tOps .b32)) = (0x0F0F_0F00, true) ∧
    v1After (tRegs 0x8000_0000 4 0) (.sar tHdr (tOps .i32)) = (0xF800_0000, true) ∧
    v1After (tRegs 0x8000_0001 4 0) (.rotl tHdr (tOps .b32)) = (0x0000_0018, true) ∧
    v1After (tRegs 1 0 0) (.brev tHdr (tOps .b32)) = (0x8000_0000, true) ∧
    v1After (tRegs 1 0 0) (.clz tHdr (tOps .b32)) = (31, true) ∧
    v1After (tRegs 0xFF 0 0) (.popc tHdr (tOps .b32)) = (8, true) := by decide +kernel

/-- 1.0 + 2.0, 3.0 × 2.0, the square root of 4.0, 0.5 + 1.5 × 2.0; the smaller of -1.0 and 2.0. -/
theorem test_float :
    v1After (tRegs 0x3F80_0000 0x4000_0000 0) (.fadd tHdr (tOps .f32)) = (0x4040_0000, true) ∧
    v1After (tRegs 0x4040_0000 0x4000_0000 0) (.fmul tHdr (tOps .f32)) = (0x40C0_0000, true) ∧
    v1After (tRegs 0x4080_0000 0 0) (.fsqrt tHdr (tOps .f32)) = (0x4000_0000, true) ∧
    v1After (tRegs 0x3FC0_0000 0x4000_0000 0x3F00_0000) (.ffma tHdr (tOps .f32)) = (0x4060_0000, true) ∧
    v1After (tRegs 0xBF80_0000 0x4000_0000 0) (.fmin tHdr (tOps .f32)) = (0xBF80_0000, true) := by decide +kernel

/-- A signed and an unsigned comparison of -1 with 1: less (Table 9-1). -/
theorem test_compare :
    p1After (tRegs 0xFFFF_FFFF 1 0) (.icmp tHdr { tOps .i32 with rc := 2, pred := 1 }) = true ∧
    p1After (tRegs 0xFFFF_FFFF 1 0) (.icmp tHdr { tOps .n32 with rc := 2, pred := 1 }) = false := by decide +kernel

/-- TRAP with code 5 saves its cause and goes to the handler. -/
theorem test_control :
    pcAfter tS (.nop tHdr tC) = (0x1000C, false, 0) ∧
    pcAfter tHandled (.trap tHdr { tC with mod := 5 }) = (0x10100, true, 0x0005_0013) := by decide +kernel

/-- The published values of SHA-256 of "abc" and of CRC-32C of "123456789"; a codeword is a multiple of g(x) (R320), and one with an
error in a symbol is not; teams 9 to 12 of a grid two wide are two boxes of one column each (R32). -/
theorem test_sha256 : sha256 [0x61, 0x62, 0x63] = beBytes 32 0xBA7816BF_8F01CFEA_414140DE_5DAE2223_B00361A3_96177A9C_B410FF61_F20015AD := by
  decide +kernel

@[inherit_doc test_sha256] theorem test_codes :
    crc32c [0x31, 0x32, 0x33, 0x34, 0x35, 0x36, 0x37, 0x38, 0x39] = 0xE306_9283 ∧
    (let cw := rsEncode ((upto 64).map (BitVec.ofNat 8)) 0x13
     rsValid cw = true ∧ rsValid (listModify cw 70 fun x => x ^^^ 1) = false) := by decide +kernel

@[inherit_doc test_sha256] theorem test_boxes : boxesOf 2 8 9 12 = [⟨1, 1, 4, 5, 0, 0⟩, ⟨0, 0, 5, 6, 0, 0⟩] := by decide +kernel

end Sys2Proof.Tests
end

/-! PROOFS of the statements of 00_scope.md: the order of the checks of an access (R12). -/

namespace Sys2Proof.Machine

/-! ## What each check of R12 tests -/

/-- Tag and data of an access are judged at its issue: a nearer cache or a link reaches them and, where the access is queued, no tag
write or renewal of the granule is on its way (log 10). -/
def State.Judged (s : State) (core : Nat) (q : Ask) (pa : Nat) (near : Option CLine) : Prop :=
  (near.isSome = true ∨ s.linked (q.die.getD (dieOf core)) (homeDie pa) = true) ∧ ¬(q.later = true ∧ s.renewing (pa / 64) = true)

/-- The leaf gives the rights, and an agent writes nothing that only Nopol root writes (R162, R370). -/
def State.Permits (s : State) (agent : Bool) (q : Ask) (pa : Nat) (pte : W64) : Prop :=
  rightsOk q.va pte q.need agent = true ∧ ¬(agent = true ∧ q.need.w = true ∧ s.rootOnly pa q.bytes = true)

/-- The tag is checked and judged, and does not match the pointer's (R166). -/
def State.TagBad (s : State) (core ctx : Nat) (q : Ask) (pa : Nat) (pte : W64) (near : Option CLine) : Prop :=
  q.tagck = true ∧ s.tagOn ctx pte = true ∧ s.Judged core q pa near ∧
    s.tagMatch ctx (ptrTag q.va) (ownTag q.own (pa / 64) (tagOf (near.elim (s.metaAt pa) fun x => x.metaAt pa))) = false

/-- The data are read and judged, no earlier entry of the group's store queue renews them, and they hold poison (R167). -/
def State.DataBad (s : State) (core : Nat) (q : Ask) (pa : Nat) (near : Option CLine) : Prop :=
  q.ecc = true ∧ s.Judged core q pa near ∧ (∀ r ∈ q.own, r.renews (pa / 64) = false) ∧
    near.elim (s.bad pa q.bytes) (fun x => poisonOf (x.metaAt pa)) = true

section
variable (s : State) (core ctx : Nat) (agent : Bool) (q : Ask) (pa : Nat) (pte : W64) (near : Option CLine)

/-! Each of these is the test of `State.checkAt`, as that definition computes it. -/

theorem State.judged_iff : s.Judged core q pa near ↔
    ((near.isSome || s.linked (q.die.getD (dieOf core)) (homeDie pa)) && !(q.later && s.renewing (pa / 64))) = true := by
  simp [State.Judged, imp_iff_not_or]

theorem State.permits_iff : s.Permits agent q pa pte ↔
    (!rightsOk q.va pte q.need agent || (agent && q.need.w && s.rootOnly pa q.bytes)) = false := by
  simp [State.Permits]

theorem State.tagBad_iff : s.TagBad core ctx q pa pte near ↔
    (q.tagck && s.tagOn ctx pte && ((near.isSome || s.linked (q.die.getD (dieOf core)) (homeDie pa)) && !(q.later && s.renewing (pa / 64))) &&
      !s.tagMatch ctx (ptrTag q.va) (ownTag q.own (pa / 64) (tagOf (near.elim (s.metaAt pa) (·.metaAt pa))))) = true := by
  rw [State.TagBad, State.judged_iff]
  simp only [Bool.and_eq_true, Bool.not_eq_true', and_assoc]

theorem State.dataBad_iff : s.DataBad core q pa near ↔
    (q.ecc && ((near.isSome || s.linked (q.die.getD (dieOf core)) (homeDie pa)) && !(q.later && s.renewing (pa / 64))) &&
      !(q.own.any fun r => r.renews (pa / 64)) && near.elim (s.bad pa q.bytes) fun y => poisonOf (y.metaAt pa)) = true := by
  rw [State.DataBad, State.judged_iff]
  simp only [Bool.and_eq_true, Bool.not_eq_true', List.any_eq_false, Bool.not_eq_true, and_assoc]

end

/-! ## The checks at the physical address, each behind those before it -/

section
variable {s : State} {core ctx : Nat} {agent : Bool} {watch : Option (Nat × Nat)} {q : Ask} {pa : Nat} {pte : W64} {near : Option CLine}

theorem State.checkAt_perm (h : ¬s.Permits agent q pa pte) :
    s.checkAt core ctx agent watch q pa pte near = (.error { code := cPERM, addr := q.va }, s) := by
  rw [State.permits_iff, Bool.not_eq_false] at h
  exact if_pos h

theorem State.checkAt_tag (hr : s.Permits agent q pa pte) (ht : s.TagBad core ctx q pa pte near) :
    s.checkAt core ctx agent watch q pa pte near = (.error { code := cTAG, addr := q.va }, s) := by
  rw [State.permits_iff] at hr
  rw [State.tagBad_iff] at ht
  unfold State.checkAt
  rw [if_neg (by simp [hr])]
  cases near <;> exact if_pos ht

theorem State.checkAt_watch {n off : Nat} (hr : s.Permits agent q pa pte) (ht : ¬s.TagBad core ctx q pa pte near) :
    s.checkAt core ctx agent (some (n, off)) q pa pte near =
      (.error { code := cWATCH, addr := q.va + BitVec.ofNat 64 off, num := BitVec.ofNat 16 n }, s) := by
  rw [State.permits_iff] at hr
  rw [State.tagBad_iff] at ht
  unfold State.checkAt
  rw [if_neg (by simp [hr])]
  cases near <;> exact if_neg ht

theorem State.checkAt_ecc (hr : s.Permits agent q pa pte) (ht : ¬s.TagBad core ctx q pa pte near) (hd : s.DataBad core q pa near) :
    (s.checkAt core ctx agent none q pa pte near).1 = .error { code := cECC, addr := q.va } := by
  rw [State.permits_iff] at hr
  rw [State.tagBad_iff] at ht
  rw [State.dataBad_iff] at hd
  unfold State.checkAt
  rw [if_neg (by simp [hr])]
  cases near <;> exact congrArg Prod.fst ((if_neg ht).trans (if_pos hd))

theorem State.checkAt_pass (hr : s.Permits agent q pa pte) (ht : ¬s.TagBad core ctx q pa pte near) (hd : ¬s.DataBad core q pa near) :
    s.checkAt core ctx agent none q pa pte near = (.ok (pa, pte), s) := by
  rw [State.permits_iff] at hr
  rw [State.tagBad_iff, Bool.not_eq_true] at ht
  rw [State.dataBad_iff, Bool.not_eq_true] at hd
  exact State.checkAt_same _ _ _ _ _ _ _ _ _ _ ((State.checkAt_ok ..).2 ⟨rfl, hr, ht, rfl, hd⟩)

end

/-! ## The checks of a lane's access -/

section
variable {s u : State} {e : Env} {l : Nat} {q : Ask} {pa : Nat} {pte : W64}

theorem State.check_unaligned (h : ¬q.va.toNat % q.align = 0) : s.check e l q = (.error { code := cALIGN, addr := q.va }, s) :=
  if_pos (bne_iff_ne.2 h)

theorem State.check_untranslated {c : Code} (h : q.va.toNat % q.align = 0) (hx : s.heldXlate e.core e.g.ctx q.old q.va = (.error c, u)) :
    s.check e l q = (.error { code := c, addr := q.va }, u) := by
  simp only [State.check, State.checkAs, hx]
  exact if_neg (by simpa using h)

theorem State.check_translated (h : q.va.toNat % q.align = 0) (hx : s.heldXlate e.core e.g.ctx q.old q.va = (.ok (pa, pte), u)) :
    s.check e l q = u.checkAt e.core e.g.ctx (e.slot == 63) (s.laneWatch e l q pa) { q with own := (s.group e.core e.slot).sq }
      pa pte (q.near.bind fun sc => u.nearLine e.core sc pa q.bytes pte) := by
  simp only [State.check, State.checkAs, hx]
  exact if_neg (by simpa using h)

end

/-! ## Each lane alone -/

section
variable {s u : State} {e : Env} {ok : List Nat} {l : Nat} {q : Ask} {go : Nat → W64 → State → State}

theorem State.oneLane_waits (h : s.checkWaits e q = true) : s.oneLane e ok l q go = (s.waitAt e [l] (.reach q.va 0), ok) := if_pos h

theorem State.oneLane_faults {f : FaultRec} (h : s.checkWaits e q = false) (hc : s.check e l { q with later := true } = (.error f, u)) :
    s.oneLane e ok l q go = (u.raise e l f, ok) := by
  rw [State.oneLane, if_neg (by simp [h]), hc]

theorem State.oneLane_goes {pa : Nat} {pte : W64} (h : s.checkWaits e q = false)
    (hc : s.check e l { q with later := true } = (.ok (pa, pte), u)) : s.oneLane e ok l q go = (go pa pte u, ok ++ [l]) := by
  rw [State.oneLane, if_neg (by simp [h]), hc]

theorem State.raise_precise {f : FaultRec} (h : ¬(f.code = cXLATE ∧ s.served e.g.ctx f.addr = true)) :
    s.raise e l f = s.precise e.core e.slot l e.pc f :=
  if_neg (by simpa using h)

theorem State.raise_parks {f : FaultRec} (hc : f.code = cXLATE) (hs : s.served e.g.ctx f.addr = true) :
    s.raise e l f = (s.park e.core e.slot l e.pc f).modLane e.core e.slot l fun x => { x with wskip := (e.g.lane l).wskip } :=
  if_pos (by simp [hc, hs])

end

/-- Settles O29: each check of R12 is reached only where those before it pass, and the lanes are folded over one at a time. -/
theorem checksOfAccesses : Obligations.ChecksOfAccesses := by
  unfold Obligations.ChecksOfAccesses
  refine ⟨?order, fun _ _ _ _ _ => rfl, ?lane, ?fault⟩
  case order =>
    intro s u e l q pa pte aligned own near known rights tag tagBad dataBad
    refine ⟨State.check_unaligned, fun c => State.check_untranslated, fun ha hx => ?_⟩
    have agentRights : rights ↔ u.Permits (e.slot == 63) { q with own := own } pa pte := by simp [rights, State.Permits]
    rw [State.check_translated ha hx, agentRights]
    refine ⟨State.checkAt_perm, State.checkAt_tag, fun hr ht n off hw => ?_, fun hr ht hw hd => ?_, fun hr ht hw hd => ?_⟩ <;> rw [hw]
    · exact State.checkAt_watch hr ht
    · exact State.checkAt_ecc hr ht hd
    · exact State.checkAt_pass hr ht hd
  case lane =>
    exact fun s e ok l q go => ⟨State.oneLane_waits, fun h => ⟨fun f u => State.oneLane_faults h, fun pa pte u => State.oneLane_goes h⟩⟩
  case fault => exact fun s e l f => ⟨State.raise_precise, State.raise_parks⟩

end Sys2Proof.Machine

/-! PROOFS of the statements of 03_execution.md: forms, the exact comparison and splits (R30, R33, R36, R37). -/

namespace Sys2Proof.Machine

/-! ## Forms and their exact values (R30, R33, R36) -/

theorem Form.eval_zip_add (a b : Form) (x y z l : Nat) : (a.zip (· + ·) b).eval x y z l = a.eval x y z l + b.eval x y z l := by
  simp only [Form.eval, Form.zip]
  ring

theorem Form.eval_zip_sub (a b : Form) (x y z l : Nat) : (a.zip (· - ·) b).eval x y z l = a.eval x y z l - b.eval x y z l := by
  simp only [Form.eval, Form.zip]
  ring

theorem Form.eval_of_isUni {a : Form} (h : a.isUni = true) (x y z l : Nat) : a.eval x y z l = a.base := by
  simp only [Form.isUni, Bool.and_eq_true, beq_iff_eq] at h
  obtain ⟨⟨⟨hx, hy⟩, hz⟩, hl⟩ := h
  simp [Form.eval, hx, hy, hz, hl]

theorem Form.eval_map_mul (b : Form) (c : W32) (x y z l : Nat) : (b.map (· * c)).eval x y z l = b.eval x y z l * c := by
  simp only [Form.eval, Form.map]
  ring

theorem Form.eval_map_shiftLeft (a : Form) (n x y z l : Nat) : (a.map (· <<< n)).eval x y z l = a.eval x y z l <<< n := by
  simp only [Form.eval, Form.map, BitVec.shiftLeft_eq_mul_twoPow]
  ring

theorem ofInt_typed (sg : Bool) (x : W32) : BitVec.ofInt 32 (typed sg x) = x := by
  cases sg <;> simp [typed]

/-- A form's value at a lane is its exact value modulo 2^32. -/
theorem Form.eval_eq_ofInt (f : Form) (sg : Bool) (x y z l : Nat) :
    f.eval x y z l = BitVec.ofInt 32 ((f.exact sg).at x y z l) := by
  simp only [Form.eval, Exact.at, Form.exact, BitVec.ofInt_add, BitVec.ofInt_mul, ofInt_typed, BitVec.ofInt_toInt, BitVec.ofInt_natCast]

theorem typed_ofInt {sg : Bool} {v : Int}
    (h : if sg then -(2 ^ 31) ≤ v ∧ v ≤ 2 ^ 31 - 1 else 0 ≤ v ∧ v ≤ 2 ^ 32 - 1) : typed sg (BitVec.ofInt 32 v) = v := by
  cases sg
  · simp only [Bool.false_eq_true, if_false] at h
    simp only [typed, Bool.false_eq_true, if_false, BitVec.toNat_ofInt]
    omega
  · simp only [if_true] at h
    simp only [typed, if_true, BitVec.toInt_ofInt]
    exact Int.bmod_eq_of_le (by omega) (by omega)

theorem span_bounds (c : Int) {lo hi i : Nat} (h0 : lo ≤ i) (h1 : i ≤ hi) :
    (span c lo hi).1 ≤ c * i ∧ c * i ≤ (span c lo hi).2 := by
  have h0' : (lo : Int) ≤ i := by omega
  have h1' : (i : Int) ≤ hi := by omega
  unfold span
  split
  · next hc => exact ⟨Int.mul_le_mul_of_nonneg_left h0' hc, Int.mul_le_mul_of_nonneg_left h1' hc⟩
  · next hc => exact ⟨Int.mul_le_mul_of_nonpos_left (by omega) h1', Int.mul_le_mul_of_nonpos_left (by omega) h0'⟩

/-- A team lies in a box. -/
def Box.Holds (b : Box) (x y z : Nat) : Prop := b.x0 ≤ x ∧ x ≤ b.x1 ∧ b.y0 ≤ y ∧ y ≤ b.y1 ∧ b.z0 ≤ z ∧ z ≤ b.z1

section
variable {b : Box} {l0 l1 x y z l : Nat} {sg : Bool}

/-- The wrap check bounds the exact value over the box and the lanes (R36). -/
theorem inTypeRange_at {v : Exact} (h : inTypeRange v sg b l0 l1 = true) (hb : b.Holds x y z) (h0 : l0 ≤ l) (h1 : l ≤ l1) :
    if sg then -(2 ^ 31) ≤ v.at x y z l ∧ v.at x y z l ≤ 2 ^ 31 - 1 else 0 ≤ v.at x y z l ∧ v.at x y z l ≤ 2 ^ 32 - 1 := by
  obtain ⟨hx0, hx1, hy0, hy1, hz0, hz1⟩ := hb
  have bx := span_bounds v.cx hx0 hx1
  have by_ := span_bounds v.cy hy0 hy1
  have bz := span_bounds v.cz hz0 hz1
  have bl := span_bounds v.cl h0 h1
  simp only [Exact.at]
  cases sg <;>
  · simp only [inTypeRange, Bool.false_eq_true, if_false, if_true, Bool.and_eq_true, decide_eq_true_eq] at h ⊢
    omega

theorem Form.at_eq_typed {f : Form} (h : inTypeRange (f.exact sg) sg b l0 l1 = true) (hb : b.Holds x y z) (h0 : l0 ≤ l) (h1 : l ≤ l1) :
    (f.exact sg).at x y z l = typed sg (f.eval x y z l) := by
  rw [Form.eval_eq_ofInt f sg, typed_ofInt (inTypeRange_at h hb h0 h1)]

theorem Exact.at_sub (u v : Exact) (x y z l : Nat) : (u.sub v).at x y z l = u.at x y z l - v.at x y z l := by
  simp only [Exact.at, Exact.sub]
  ring

theorem PForm.eval_cmp_exact {fa fb : Form} (c : Cmp) (ha : inTypeRange (fa.exact sg) sg b l0 l1 = true)
    (hb : inTypeRange (fb.exact sg) sg b l0 l1 = true) (hbox : b.Holds x y z) (h0 : l0 ≤ l) (h1 : l ≤ l1) :
    PForm.eval (.cmp c sg fa fb) x y z l = Cmp.ofDiff c (((fa.exact sg).sub (fb.exact sg)).at x y z l) := by
  rw [Exact.at_sub, Form.at_eq_typed ha hbox h0 h1, Form.at_eq_typed hb hbox h0 h1, PForm.eval]

end

/-! ## Splits (R36, R37) -/

theorem classOf_some {holds : Nat → Bool} {lanes : List Nat} {t : Bool} (h : classOf holds lanes = some t) :
    ∀ l ∈ lanes, holds l = t := by
  unfold classOf at h
  split at h
  · next ha => cases h; simpa using ha
  · split at h
    · next hn => cases h; simpa using hn
    · cases h

/-- A list that rises without a gap holds the numbers from its first to its last. -/
theorem mem_of_contiguous {xs : List Nat} {lo hi k : Nat} (h : contiguous xs = true) (hlo : xs.head? = some lo)
    (hhi : xs.getLast? = some hi) : k ∈ xs ↔ lo ≤ k ∧ k ≤ hi := by
  induction xs generalizing lo k with
  | nil => simp at hlo
  | cons a xs ih =>
    cases xs with
    | nil =>
      simp only [List.head?_cons, List.getLast?_singleton, Option.some.injEq] at hlo hhi
      simp only [List.mem_singleton]
      omega
    | cons b xs =>
      simp only [contiguous, Bool.and_eq_true, beq_iff_eq] at h
      simp only [List.head?_cons, Option.some.injEq] at hlo
      rw [List.getLast?_cons_cons] at hhi
      have tail : ∀ {k}, k ∈ b :: xs ↔ b ≤ k ∧ k ≤ hi := ih h.2 rfl hhi
      have first : b ≤ hi := (tail.1 List.mem_cons_self).2
      rw [List.mem_cons, tail]
      omega

/-- A coordinate of a team: 0, 1, 2 for x, y, z. -/
def coord (d x y z : Nat) : Nat :=
  match d with
  | 0 => x
  | 1 => y
  | _ => z

/-- A team of a box lies in a cut of it along d where its coordinate is one of those that the cut was made of. -/
theorem Box.holds_cut {b : Box} {xs : List Nat} {x y z : Nat} (d : Nat) (hb : b.Holds x y z) (h : contiguous xs = true) :
    (∃ k, b.cut d xs = some k ∧ k.Holds x y z) ↔ coord d x y z ∈ xs := by
  obtain ⟨hx0, hx1, hy0, hy1, hz0, hz1⟩ := hb
  cases hlo : xs.head? with
  | none => simp [Box.cut, List.head?_eq_none_iff.1 hlo]
  | some lo =>
    cases hhi : xs.getLast? with
    | none => simp [Box.cut, List.getLast?_eq_none_iff.1 hhi]
    | some hi =>
      rw [mem_of_contiguous h hlo hhi]
      match d with
      | 0 | 1 | _ + 2 => simp [Box.cut, Box.Holds, coord, *]

section
variable {b : Box} {c : Cmp} {sg neg : Bool} {fa fb : Form} {l0 nl x y z : Nat}

/-- The exact difference of the operands (R36). -/
def exactDiff (sg : Bool) (fa fb : Form) : Exact := (fa.exact sg).sub (fb.exact sg)

/-- The class of a team, by the exact difference at each of its lanes (R36). -/
def teamClass (c : Cmp) (sg neg : Bool) (fa fb : Form) (l0 nl x y z : Nat) : Option Bool :=
  classOf (fun l => Cmp.ofDiff c ((exactDiff sg fa fb).at x y z l) != neg) (rangeFrom l0 nl)

/-- Coordinates with which the difference does not vary do not matter to a team's class. -/
theorem teamClass_congr {x' y' z' : Nat} (hx : (exactDiff sg fa fb).cx = 0 ∨ x = x') (hy : (exactDiff sg fa fb).cy = 0 ∨ y = y')
    (hz : (exactDiff sg fa fb).cz = 0 ∨ z = z') :
    teamClass c sg neg fa fb l0 nl x y z = teamClass c sg neg fa fb l0 nl x' y' z' := by
  have ex : (exactDiff sg fa fb).cx * x = (exactDiff sg fa fb).cx * x' := by rcases hx with h | h <;> simp [h]
  have ey : (exactDiff sg fa fb).cy * y = (exactDiff sg fa fb).cy * y' := by rcases hy with h | h <;> simp [h]
  have ez : (exactDiff sg fa fb).cz * z = (exactDiff sg fa fb).cz * z' := by rcases hz with h | h <;> simp [h]
  have same : ∀ l, (exactDiff sg fa fb).at x y z l = (exactDiff sg fa fb).at x' y' z' l := fun l => by simp only [Exact.at, ex, ey, ez]
  simp only [teamClass, same]

/-- The coordinates between two bounds at which a classification gives v. -/
def partOf (cls : Nat → Option Bool) (lo hi : Nat) (v : Option Bool) : List Nat := (rangeFrom lo (hi + 1 - lo)).filter fun k => cls k == v

theorem mem_partOf {cls : Nat → Option Bool} {lo hi k : Nat} {v : Option Bool} (h : lo ≤ k ∧ k ≤ hi) :
    k ∈ partOf cls lo hi v ↔ cls k = v := by
  simp only [partOf, List.mem_filter, mem_rangeFrom, beq_iff_eq, and_iff_right_iff_imp]
  omega

/-- The parts of a box by the classes of a coordinate, where each is without gaps (R37). -/
def partsAlong (b : Box) (d lo hi : Nat) (cls : Nat → Option Bool) : Split :=
  if contiguous (partOf cls lo hi (some true)) && contiguous (partOf cls lo hi (some false)) && contiguous (partOf cls lo hi none) then
    .parts (b.cut d (partOf cls lo hi (some true))) (b.cut d (partOf cls lo hi (some false))) (b.cut d (partOf cls lo hi none))
  else .ink

/-- Past the wrap check, a split depends on which coordinates the exact difference varies with. -/
theorem splitOf_eq (ra : inTypeRange (fa.exact sg) sg b l0 (l0 + nl - 1) = true)
    (rb : inTypeRange (fb.exact sg) sg b l0 (l0 + nl - 1) = true) :
    splitOf b c sg neg fa fb l0 nl =
      match (exactDiff sg fa fb).cx != 0, (exactDiff sg fa fb).cy != 0, (exactDiff sg fa fb).cz != 0 with
      | false, false, false => (teamClass c sg neg fa fb l0 nl b.x0 b.y0 b.z0).elim .ink .whole
      | true, false, false => partsAlong b 0 b.x0 b.x1 fun k => teamClass c sg neg fa fb l0 nl k b.y0 b.z0
      | false, true, false => partsAlong b 1 b.y0 b.y1 fun k => teamClass c sg neg fa fb l0 nl b.x0 k b.z0
      | false, false, true => partsAlong b 2 b.z0 b.z1 fun k => teamClass c sg neg fa fb l0 nl b.x0 b.y0 k
      | _, _, _ => .ink := by
  refine (if_neg (by simp [ra, rb])).trans ?_
  rw [← exactDiff]
  cases hx : (exactDiff sg fa fb).cx != 0 <;> cases hy : (exactDiff sg fa fb).cy != 0 <;> cases hz : (exactDiff sg fa fb).cz != 0 <;>
    simp only [places, placesFrom, Bool.false_eq_true, if_true, if_false]
  case false.false.false =>
    rw [← teamClass]
    cases teamClass c sg neg fa fb l0 nl b.x0 b.y0 b.z0 <;> rfl
  all_goals rfl

/-- A team lies in a part exactly where its class is the part's. -/
theorem partsAlong_sound {d lo hi : Nat} {cls : Nat → Option Bool} {yes no mixed : Option Box}
    (h : partsAlong b d lo hi cls = .parts yes no mixed)
    (hb : b.Holds x y z) (hk : lo ≤ coord d x y z ∧ coord d x y z ≤ hi) :
    ((∃ k, yes = some k ∧ k.Holds x y z) ↔ cls (coord d x y z) = some true) ∧
    ((∃ k, no = some k ∧ k.Holds x y z) ↔ cls (coord d x y z) = some false) ∧
    ((∃ k, mixed = some k ∧ k.Holds x y z) ↔ cls (coord d x y z) = none) := by
  unfold partsAlong at h
  split at h
  · next hc =>
    simp only [Bool.and_eq_true] at hc
    obtain ⟨⟨cy, cn⟩, cm⟩ := hc
    cases h
    simp only [Box.holds_cut d hb cy, Box.holds_cut d hb cn, Box.holds_cut d hb cm, mem_partOf hk, and_self]
  · cases h

theorem partsAlong_ne_whole {d lo hi : Nat} {cls : Nat → Option Bool} {t : Bool} : partsAlong b d lo hi cls ≠ .whole t := by
  unfold partsAlong
  split <;> simp

/-- What is not an inking has passed the wrap check (R36). -/
theorem splitOf_inRange {r : Split} (h : splitOf b c sg neg fa fb l0 nl = r) (hr : r ≠ .ink) :
    inTypeRange (fa.exact sg) sg b l0 (l0 + nl - 1) = true ∧ inTypeRange (fb.exact sg) sg b l0 (l0 + nl - 1) = true := by
  by_contra ho
  refine hr (h.symm.trans (if_pos ?_))
  rw [← Bool.not_and, Bool.not_eq_true', ← Bool.not_eq_true, Bool.and_eq_true]
  exact ho

/-- Where the stroke goes on whole, every team is of its class. -/
theorem splitOf_whole {t : Bool} (h : splitOf b c sg neg fa fb l0 nl = .whole t) : teamClass c sg neg fa fb l0 nl x y z = some t := by
  obtain ⟨ra, rb⟩ := splitOf_inRange h nofun
  rw [splitOf_eq ra rb] at h
  split at h
  case h_1 hx hy hz =>
    rw [teamClass_congr (x' := b.x0) (y' := b.y0) (z' := b.z0) (.inl (by simpa using hx)) (.inl (by simpa using hy))
      (.inl (by simpa using hz))]
    cases hc : teamClass c sg neg fa fb l0 nl b.x0 b.y0 b.z0 with
    | none => rw [hc] at h; cases h
    | some u => rw [hc] at h; cases h; rfl
  case h_5 => cases h
  all_goals exact absurd h partsAlong_ne_whole

/-- A team lies in the part of its class. -/
theorem splitOf_parts {yes no mixed : Option Box} (h : splitOf b c sg neg fa fb l0 nl = .parts yes no mixed) (hb : b.Holds x y z) :
    ((∃ k, yes = some k ∧ k.Holds x y z) ↔ teamClass c sg neg fa fb l0 nl x y z = some true) ∧
    ((∃ k, no = some k ∧ k.Holds x y z) ↔ teamClass c sg neg fa fb l0 nl x y z = some false) ∧
    ((∃ k, mixed = some k ∧ k.Holds x y z) ↔ teamClass c sg neg fa fb l0 nl x y z = none) := by
  obtain ⟨ra, rb⟩ := splitOf_inRange h nofun
  rw [splitOf_eq ra rb] at h
  have ⟨hx0, hx1, hy0, hy1, hz0, hz1⟩ := hb
  split at h
  case h_1 => cases hc : teamClass c sg neg fa fb l0 nl b.x0 b.y0 b.z0 <;> rw [hc] at h <;> cases h
  case h_2 _ hy hz =>
    rw [teamClass_congr (x' := x) (y' := b.y0) (z' := b.z0) (.inr rfl) (.inl (by simpa using hy)) (.inl (by simpa using hz))]
    exact partsAlong_sound h hb ⟨hx0, hx1⟩
  case h_3 hx _ hz =>
    rw [teamClass_congr (x' := b.x0) (y' := y) (z' := b.z0) (.inl (by simpa using hx)) (.inr rfl) (.inl (by simpa using hz))]
    exact partsAlong_sound h hb ⟨hy0, hy1⟩
  case h_4 hx hy _ =>
    rw [teamClass_congr (x' := b.x0) (y' := b.y0) (z' := z) (.inl (by simpa using hx)) (.inl (by simpa using hy)) (.inr rfl)]
    exact partsAlong_sound h hb ⟨hz0, hz1⟩
  case h_5 => cases h

/-- Every lane of a team of a class does as the class says, where the wrap check has passed (R36). -/
theorem takes_of_teamClass {r : Split} {t : Bool} {l : Nat} (h : splitOf b c sg neg fa fb l0 nl = r) (hr : r ≠ .ink) (hb : b.Holds x y z)
    (hc : teamClass c sg neg fa fb l0 nl x y z = some t) (hl : l ∈ rangeFrom l0 nl) :
    (PForm.eval (.cmp c sg fa fb) x y z l != neg) = t := by
  obtain ⟨ra, rb⟩ := splitOf_inRange h hr
  have hl' := mem_rangeFrom.1 hl
  rw [PForm.eval_cmp_exact c ra rb hb hl'.1 (by omega)]
  exact classOf_some hc l hl

end

/-- Settles O16: the forms by arithmetic modulo 2^32, the comparison by the bounds of the wrap check, and a split by the class of each
team, which depends on the one coordinate that is cut. -/
theorem strokeForms : Obligations.StrokeForms := by
  unfold Obligations.StrokeForms
  refine ⟨?forms, ⟨?exact, ?compare⟩, ?split⟩
  case forms =>
    intro a b x y z l n
    refine ⟨a.eval_zip_add b x y z l, a.eval_zip_sub b x y z l, fun h => ?_, a.eval_map_shiftLeft n x y z l, fun c => ?_⟩
    · rw [b.eval_map_mul, Form.eval_of_isUni h]
    · exact Form.eval_of_isUni (a := .uni c) rfl x y z l
  case exact =>
    exact fun f sg b l0 l1 x y z l h hx0 hx1 hy0 hy1 hz0 hz1 => Form.at_eq_typed h ⟨hx0, hx1, hy0, hy1, hz0, hz1⟩
  case compare =>
    exact fun fa fb sg c b l0 l1 x y z l ha hb hx0 hx1 hy0 hy1 hz0 hz1 => PForm.eval_cmp_exact c ha hb ⟨hx0, hx1, hy0, hy1, hz0, hz1⟩
  case split =>
    intro b c sg neg fa fb l0 nl x y z _ hx0 hx1 hy0 hy1 hz0 hz1
    have hb : b.Holds x y z := ⟨hx0, hx1, hy0, hy1, hz0, hz1⟩
    refine ⟨fun yes no mixed h => ?_, fun t h l hl => ?_⟩
    · obtain ⟨inYes, inNo, inMixed⟩ := splitOf_parts h hb
      refine ⟨?_, fun hy l hl => takes_of_teamClass h nofun hb (inYes.1 hy) hl,
        fun hn l hl => takes_of_teamClass h nofun hb (inNo.1 hn) hl⟩
      simp only [Box.Holds] at inYes inNo inMixed
      simp only [inYes, inNo, inMixed]
      match teamClass c sg neg fa fb l0 nl x y z with
      | some true | some false | none => simp
    · exact takes_of_teamClass h nofun hb (splitOf_whole h) hl

end Sys2Proof.Machine

/-! PROOFS of the statements of 03_execution.md: which lanes leave a wait (R50, R51, R205, R206, R285). -/

namespace Sys2Proof.Machine

/-! ## Lists and maps -/

theorem mapFrom_get {α β : Type} (f : Nat → α → β) (xs : List α) (i j : Nat) : (mapFrom f i xs)[j]? = xs[j]?.map (f (i + j)) := by
  induction xs generalizing i j with
  | nil => rfl
  | cons x xs ih =>
    cases j with
    | zero => simp [mapFrom]
    | succ j =>
      simp only [mapFrom, List.getElem?_cons_succ, ih]
      rw [Nat.add_right_comm, Nat.add_assoc]

theorem mem_placesFrom {α : Type} {p : α → Bool} {xs : List α} {i j : Nat} :
    j ∈ placesFrom p i xs ↔ ∃ k x, j = i + k ∧ xs[k]? = some x ∧ p x = true := by
  induction xs generalizing i with
  | nil => simp [placesFrom]
  | cons y xs ih =>
    have later : j ∈ placesFrom p (i + 1) xs ↔ ∃ k x, j = i + (k + 1) ∧ (y :: xs)[k + 1]? = some x ∧ p x = true := by
      simp only [ih, List.getElem?_cons_succ, Nat.add_assoc, Nat.add_comm 1]
    have first : (∃ k x, j = i + k ∧ (y :: xs)[k]? = some x ∧ p x = true) ↔
        (j = i ∧ p y = true) ∨ ∃ k x, j = i + (k + 1) ∧ (y :: xs)[k + 1]? = some x ∧ p x = true := by
      constructor
      · rintro ⟨_ | k, z, rfl, hz, hp⟩
        · cases hz; exact .inl ⟨rfl, hp⟩
        · exact .inr ⟨k, z, rfl, hz, hp⟩
      · rintro (⟨rfl, hp⟩ | ⟨k, h⟩)
        · exact ⟨0, y, rfl, rfl, hp⟩
        · exact ⟨k + 1, h⟩
    rw [first, ← later]
    simp only [placesFrom]
    split <;> simp [*]

theorem mem_places {α : Type} {p : α → Bool} {xs : List α} {j : Nat} :
    j ∈ places p xs ↔ ∃ x, xs[j]? = some x ∧ p x = true := by
  simp [places, mem_placesFrom]

theorem minOf_eq_none {xs : List Nat} : minOf xs = none ↔ xs = [] := by
  cases xs with
  | nil => simp [minOf]
  | cons x xs =>
    simp only [minOf, List.cons_ne_nil, iff_false]
    split <;> simp

theorem minOf_eq_some {xs : List Nat} {m : Nat} (h : minOf xs = some m) : m ∈ xs ∧ ∀ x ∈ xs, m ≤ x := by
  induction xs generalizing m with
  | nil => cases h
  | cons x xs ih =>
    simp only [minOf] at h
    split at h
    · next hn =>
      cases h
      simp [minOf_eq_none.1 hn]
    · next y hy =>
      obtain ⟨hm, hle⟩ := ih hy
      cases h
      simp only [List.mem_cons, forall_eq_or_imp]
      split
      · next hxy => exact ⟨.inl rfl, le_rfl, fun z hz => hxy.trans (hle z hz)⟩
      · next hxy => exact ⟨.inr hm, by omega, hle⟩

/-- Entries changed in place, each under its own key. -/
theorem SMap.find_map {α β : Type} (m : SMap α) (f : Nat × α → Nat × β) (hf : ∀ x, (f x).1 = x.1) (n : Nat) :
    SMap.find (m.map f) n = (m.find n).map fun v => (f (n, v)).2 := by
  induction m with
  | nil => rfl
  | cons x m ih =>
    obtain ⟨k, v⟩ := x
    have hk : f (k, v) = (k, (f (k, v)).2) := Prod.ext (hf _) rfl
    rw [List.map_cons, hk]
    simp only [SMap.find, ih]
    split
    · next e => subst e; rfl
    · rfl

/-! ## Lanes of a group -/

/-- The lane goes on after the instruction at which it waits. -/
def Lane.goesOn (x : Lane) : Lane := { x.setCur (x.cur + 12) with wait := .none }

section
variable {g : Group} {trap : Bool} {l : Nat}

theorem Group.lane_eq_of_get {x : Lane} (h : g.lanes[l]? = some x) : g.lane l = x := by simp [Group.lane, h]

theorem Group.get_of_lt (h : l < g.lanes.length) : g.lanes[l]? = some (g.lane l) := by simp [Group.lane, h]

theorem Group.exists_lane {P : Lane → Prop} : (∃ x, g.lanes[l]? = some x ∧ P x) ↔ l < g.lanes.length ∧ P (g.lane l) := by
  constructor
  · rintro ⟨x, hx, hp⟩
    exact ⟨(List.getElem?_eq_some_iff.1 hx).1, Group.lane_eq_of_get hx ▸ hp⟩
  · rintro ⟨hl, hp⟩
    exact ⟨_, Group.get_of_lt hl, hp⟩

theorem Group.mem_places {p : Lane → Bool} : l ∈ places p g.lanes ↔ l < g.lanes.length ∧ p (g.lane l) = true := by
  rw [Machine.mem_places, Group.exists_lane]

theorem Group.lane_goOn (ls : List Nat) (h : l < g.lanes.length) :
    (g.goOn ls).lane l = if l ∈ ls then (g.lane l).goesOn else g.lane l := by
  simp only [Group.goOn]
  rw [Group.lane, mapFrom_get, Group.get_of_lt h, Nat.zero_add, Option.map_some, Option.getD_some]
  simp only [List.contains_iff_mem]
  rfl

theorem Group.leaveJoin_of_not (h : g.allWait trap .join = false) : g.leaveJoin trap = g := if_neg (by simp [h])

theorem Group.leaveSync_of_not (h : g.allWait trap .syncg = false) : g.leaveSync trap = g := if_neg (by simp [h])

theorem Group.leaveTrap_of_not (h : g.allWait true .trapret = false) : g.leaveTrap = g := if_neg (by simp [h])

/-- Of lanes that all wait at a JOIN, those at the lowest address go on (R50, R51). -/
theorem Group.lane_leaveJoin (h : g.allWait trap .join = true) (hl : l < g.lanes.length) : (g.leaveJoin trap).lane l =
    if l ∈ g.concerned trap ∧ ∀ k ∈ g.concerned trap, (g.lane l).cur.toNat ≤ (g.lane k).cur.toNat
      then (g.lane l).goesOn else g.lane l := by
  unfold Group.leaveJoin
  rw [if_pos h]
  dsimp only
  cases hm : minOf ((g.concerned trap).map fun l => (g.lane l).cur.toNat) with
  | none => simp [List.map_eq_nil_iff.1 (minOf_eq_none.1 hm)]
  | some pc =>
    obtain ⟨hpc, hle⟩ := minOf_eq_some hm
    simp only [List.mem_map, forall_exists_index, and_imp, forall_apply_eq_imp_iff₂] at hpc hle
    obtain ⟨m, hmem, rfl⟩ := hpc
    simp only [Group.lane_goOn _ hl, List.mem_filter, beq_iff_eq]
    refine if_congr (and_congr_right fun hc => ?_) rfl rfl
    exact ⟨fun e k hk => e ▸ hle k hk, fun ha => le_antisymm (ha m hmem) (hle l hc)⟩

theorem Group.lane_leaveSync (h : g.allWait trap .syncg = true) (hl : l < g.lanes.length) :
    (g.leaveSync trap).lane l = if l ∈ g.concerned trap then (g.lane l).goesOn else g.lane l := by
  unfold Group.leaveSync
  rw [if_pos h, Group.lane_goOn _ hl]

theorem Group.lane_leaveTrap (h : g.allWait true .trapret = true) (hl : l < g.lanes.length) :
    g.leaveTrap.lane l = if (g.lane l).exited = false ∧ (g.lane l).trap = true then (g.lane l).leaveTrap else g.lane l := by
  unfold Group.leaveTrap
  rw [if_pos h, Group.lane, List.getElem?_map, Group.get_of_lt hl]
  simp

end

/-! ## The groups of a team -/

section
variable {s : State} {c place n l : Nat} {w : Wait} {role : Option Bool}

theorem State.settleSynct_waits (h : ∃ k ∈ (s.team c place).covered role, s.arrivedAt c place k w = false) :
    s.settleSynct c place w role = s := by
  obtain ⟨k, hk, hn⟩ := h
  refine if_neg fun ha => ?_
  rw [List.all_eq_true.1 ha k hk] at hn
  cases hn

/-- The groups of the team that a complete SYNCT covers go on, with their lanes that wait there (R206). -/
theorem State.group_settleSynct (h : ∀ k ∈ (s.team c place).covered role, s.arrivedAt c place k w = true)
    (hg : ((s.core c).groups.find n).isSome = true) (hp : (s.group c n).place = some place) :
    (s.settleSynct c place w role).group c n = if (s.group c n).grp ∈ (s.team c place).covered role then
      (s.group c n).goOn (places (fun (x : Lane) => !x.exited && x.wait == w) (s.group c n).lanes) else s.group c n := by
  obtain ⟨g, hg⟩ := Option.isSome_iff_exists.1 hg
  have eg : s.group c n = g := by simp [State.group, hg]
  rw [eg] at hp ⊢
  unfold State.settleSynct
  dsimp only
  rw [if_pos (List.all_eq_true.2 h), State.group, State.core_modCore, SMap.find_map, hg]
  · simp only [hp, Option.map_some, Option.getD_some, beq_self_eq_true, Bool.true_and, List.contains_iff_mem]
    split <;> rfl
  · intro x
    split <;> rfl

end

/-- Settles O21: each wait by what its last arrival does to a lane of the group, and the SYNCT by what it does to a group of the team. -/
theorem waitsEnd : Obligations.WaitsEnd := by
  unfold Obligations.WaitsEnd
  refine ⟨?inGroup, ?inTeam⟩
  case inGroup =>
    exact fun g trap l hl => ⟨Group.leaveJoin_of_not, Group.leaveSync_of_not, Group.leaveTrap_of_not, fun h => Group.lane_leaveJoin h hl,
      fun h => Group.lane_leaveSync h hl, fun h => Group.lane_leaveTrap h hl⟩
  case inTeam =>
    intro s c place n l w role hl hg hp
    refine ⟨State.settleSynct_waits, fun h => ?_⟩
    rw [State.group_settleSynct h hg hp]
    split
    · next hc =>
      rw [Group.lane_goOn _ hl]
      simp only [Group.mem_places, hl, hc, true_and, Bool.and_eq_true, Bool.not_eq_true', beq_iff_eq]
      rfl
    · next hc => exact (if_neg fun ha => hc ha.1).symm

end Sys2Proof.Machine

/-! PROOFS of the statements of 03_execution.md: NOP, YIELD, the waits and EXIT (R50, R54, R201, R202, R204 to R206, R285). -/

namespace Sys2Proof.Machine

/-! ## Hints that an issue leaves -/

section
variable {s t : State} {h : Hdr} {ds : List (Opnd × (Nat → List W32))} {ps : List (Nat × (Nat → Bool))}

theorem SetFrame.issLane_eq (F : SetFrame s t) (l : Nat) : t.issLane l = (t.group s.iss.core s.iss.slot).lane l := by
  rw [State.issLane, State.issGroup, F.iss]

theorem SetFrame.die (F : SetFrame s t) (d : Nat) : t.die d = s.die d := by
  have dies := congrArg State.dies F.rest
  exact congrArg (fun m => SMap.get {} m d) dies

theorem ceded_foldLanes (c n : Nat) (f : Lane → Lane) (ls : List Nat) (t : State) :
    ((ls.foldl (fun t l => t.modLane c n l f) t).core c).ceded = (t.core c).ceded := by
  induction ls generalizing t with
  | nil => rfl
  | cons l ls ih => rw [List.foldl_cons, ih, State.modLane, State.core_modGroup]

/-- The cede mark of the core is no part of what an instruction computes. -/
theorem Computes.ceded (C : Computes s t h ds ps) (x : Option (Nat × Nat)) :
    Computes s (t.modCore s.iss.core fun k => { k with ceded := x }) h ds ps := by
  have group : (t.modCore s.iss.core fun k => { k with ceded := x }).issGroup = t.issGroup := by
    simp only [State.issGroup, State.modCore_iss, C.toSetFrame.iss, group_ceded]
  have lane : ∀ l, (t.modCore s.iss.core fun k => { k with ceded := x }).issLane l = t.issLane l := fun l => by
    simp only [State.issLane, group]
  exact {
    toSetFrame := C.toSetFrame.ceded x
    advances := fun l hl => by rw [lane]; exact C.advances l hl
    v := fun l hl m => by rw [lane]; exact C.v l hl m
    sc := fun m => by rw [group]; exact C.sc m
    p := fun l hl k hk => by rw [lane]; exact C.p l hl k hk }

/-- The guard-true lanes may be changed in what an instruction does not compute. -/
theorem Computes.foldActive (C : Computes s t h ds ps) (hr : LanesIn s) (f : Lane → Lane) (kept : ∀ x, LaneKept x (f x))
    (same : ∀ x, (f x).cur = x.cur ∧ (f x).wait = x.wait ∧ (∀ m, (f x).rv m = x.rv m) ∧ ∀ k, (f x).pred k = x.pred k) :
    Computes s ((s.active h).foldl (fun t l => t.modLane s.iss.core s.iss.slot l f) t) h ds ps := by
  have F := C.toSetFrame.foldLanes (s.active h) (active_sub s h) (fun _ => f) fun _ => kept
  have lane {P : Lane → Prop} {l : Nat} (hl : l ∈ s.iss.lanes) (old : P (t.issLane l)) (keeps : ∀ x, P x → P (f x)) :
      P (((s.active h).foldl (fun t l => t.modLane s.iss.core s.iss.slot l f) t).issLane l) := by
    rw [F.issLane_eq]
    exact issLane_active C.toSetFrame (fun _ => f) _ l hr hl P (fun _ x e => e ▸ keeps _ old) (fun _ => old) fun _ x hx => keeps _ hx
  exact {
    toSetFrame := F
    advances := fun l hl => lane (P := fun x => x.cur = s.iss.pc + 12 ∧ x.wait = .none) hl (C.advances l hl) fun x hx =>
      ⟨(same x).1.trans hx.1, (same x).2.1.trans hx.2⟩
    v := fun l hl m => lane (P := fun x => x.rv m = _) hl (C.v l hl m) fun x hx => ((same x).2.2.1 m).trans hx
    sc := fun m => by
      rw [State.issGroup, F.iss, rs_fold, ← C.sc m, State.issGroup, C.toSetFrame.iss]
    p := fun l hl k hk => lane (P := fun x => x.pred k = _) hl (C.p l hl k hk) fun x hx => ((same x).2.2.2 k).trans hx }

end

section
variable {s : State} {h : Hdr} {f : CF}

theorem exec_nop_computes (I : Issues s (.nop h f)) : ∃ t, exec (.nop h f) s = .next t ∧ Computes s t h [] [] :=
  ⟨_, issue_next I _ _, computes_begin s h I.lanesIn⟩

/-- A lane rests until a cycle (R204). -/
def Lane.restUntil (n : Nat) (x : Lane) : Lane := { x with until_ := Nat.max x.until_ n }

/-- What YIELD does beside going on: the group's next cycle is ceded, and the lanes rest for 16 cycles. -/
def State.yielded (s : State) (h : Hdr) : State :=
  (s.active h).foldl (fun t l => t.modLane s.iss.core s.iss.slot l (Lane.restUntil ((s.die (dieOf s.iss.core)).cycle + 17)))
    ((s.beginIssue h).modCore s.iss.core fun k => { k with ceded := some (s.iss.slot, (s.die (dieOf s.iss.core)).cycle) })

theorem exec_yield_next (I : Issues s (.yield h f)) : exec (.yield h f) s = .next (s.yielded h) := by
  have die : (s.beginIssue h).die (dieOf s.iss.core) = s.die (dieOf s.iss.core) := (SetFrame.beginIssue s h).die _
  refine (issue_next I _ _).trans ?_
  rw [State.yielded, ← die]
  rfl

theorem yielded_computes (hr : LanesIn s) : Computes s (s.yielded h) h [] [] :=
  ((computes_begin s h hr).ceded _).foldActive hr _ (fun _ => ⟨rfl, by split <;> rfl⟩)
    fun _ => ⟨rfl, rfl, fun _ => rfl, fun _ => rfl⟩

theorem yielded_cedes : ((s.yielded h).core s.iss.core).ceded = some (s.iss.slot, (s.die (dieOf s.iss.core)).cycle) := by
  rw [State.yielded, ceded_foldLanes, State.core_modCore]

theorem yielded_rests (hr : LanesIn s) : ∀ l ∈ s.active h,
    (s.die (dieOf s.iss.core)).cycle + 17 ≤ ((s.yielded h).issLane l).until_ := by
  intro l hl
  rw [(yielded_computes hr).issLane_eq]
  exact issLane_active ((SetFrame.beginIssue s h).ceded _) (fun _ => Lane.restUntil _) _ l hr (active_sub s h l hl)
    (fun x => (s.die (dieOf s.iss.core)).cycle + 17 ≤ x.until_) (fun _ _ _ => Nat.le_max_right _ _) (absurd hl)
    fun _ _ _ => Nat.le_max_right _ _

end

/-! ## The meaning of a word that issues to a PC set -/

section
variable {s : State} {h : Hdr} {i : Instr}

theorem groupIssue_eq (I : Issues s i) (body : Env → State → State) : s.groupIssue i h body = body (s.env h) (s.beginIssue h) :=
  if_pos I.within

theorem privIssue_next (I : Issues s i) (body : Env → State → State) :
    s.privIssue i h true body = .next (body (s.env h) (s.beginIssue h)) :=
  (if_neg (by simp)).trans (issueInk_next I body)

end

section
variable {s : State} {h : Hdr} {f : CF}

theorem exec_join_arrives (I : Issues s (.join h f)) :
    exec (.join h f) s = .next ((s.beginIssue h).arriveAt (s.env h) (s.env h).active .join) := by
  rw [exec_join, execJoin, I.set]
  exact congrArg _ (groupIssue_eq I _)

theorem exec_exit_retires (I : Issues s (.exit h f)) :
    exec (.exit h f) s = .next ((s.beginIssue h).exitLanes s.iss.core s.iss.slot (s.active h)) := by
  rw [exec_exit, execExit, I.set]
  exact congrArg _ (groupIssue_eq I _)

end

theorem Group.drainIfDone_of_live {g : Group} (h : ∃ l, l < g.lanes.length ∧ (g.lane l).exited = false) : g.drainIfDone = g := by
  obtain ⟨l, hl, he⟩ := h
  refine if_neg fun ha => ?_
  have := List.all_eq_true.1 ha (g.lane l) (by simp [Group.lane, hl])
  rw [he] at this
  cases this

theorem Group.drainIfDone_of_exited {g : Group} (h : ∀ l, l < g.lanes.length → (g.lane l).exited = true) :
    g.drainIfDone = { g with draining := true, unit := 0, nunit := 0 } := by
  refine if_pos (List.all_eq_true.2 fun x hx => ?_)
  obtain ⟨l, hl, rfl⟩ := List.getElem_of_mem hx
  simpa [Group.lane, hl] using h l hl

/-- Settles O19: each instruction by its body on the state in which its set has advanced. -/
theorem waitsAndExits : Obligations.WaitsAndExits := by
  unfold Obligations.WaitsAndExits
  refine ⟨fun s h f => ⟨exec_nop_computes, fun I =>
    ⟨_, exec_yield_next I, yielded_computes I.lanesIn, yielded_cedes, yielded_rests I.lanesIn⟩⟩,
    ⟨fun s h f => ⟨exec_join_arrives, fun I => ?syncg, fun I => ?synct⟩,
    fun s h f I ht => ?trapret, fun _ _ _ _ => rfl⟩, fun s h f => exec_exit_retires, fun g => Group.drainIfDone_of_live,
    fun g => Group.drainIfDone_of_exited⟩
  case syncg => exact issueInk_next I _
  case synct => exact issueInk_next I _
  case trapret =>
    rw [exec_trapret, execTrapret, ht]
    exact privIssue_next I _

end Sys2Proof.Machine

/-! PROOFS of the statements of 03_execution.md: the end of groups and launches, and completion reports (R54, R115, R192, R194, R281, R282,
R287). -/

namespace Sys2Proof.Machine

/-! ## A group leaves (R54) -/

section
variable {s : State} {c n p : Nat}

theorem exec_groupLeavesDraining_waits (h : s.unacknowledged c n = true) : exec (.groupLeavesDraining c n) s = .next s :=
  congrArg _ (if_pos (by simp [h]))

theorem exec_groupLeavesDraining_leaves (hd : (s.group c n).draining = true) (h : s.unacknowledged c n = false) :
    exec (.groupLeavesDraining c n) s = .next (s.leave c n) := congrArg _ (if_neg (by simp [hd, h]))

/-- A slot of a core is empty. -/
def State.SlotFree (s : State) (c n : Nat) : Prop := (s.core c).groups.find n = none

theorem State.SlotFree.settleSynct (h : s.SlotFree c n) (w : Wait) (role : Option Bool) : (s.settleSynct c p w role).SlotFree c n := by
  unfold State.settleSynct
  dsimp only
  split
  · rw [State.SlotFree, State.core_modCore, SMap.find_map, h, Option.map_none]
    intro x
    split <;> rfl
  · exact h

theorem State.SlotFree.settleTeam (h : s.SlotFree c n) : (s.settleTeam c p).SlotFree c n :=
  ((h.settleSynct _ _).settleSynct _ _).settleSynct _ _

theorem State.SlotFree.modCore (h : s.SlotFree c n) (f : Core → Core) (hf : ∀ k, (f k).groups = k.groups) :
    (s.modCore c f).SlotFree c n := by
  rw [State.SlotFree, State.core_modCore, hf]
  exact h

theorem State.SlotFree.modTeam (h : s.SlotFree c n) (f : Team → Team) : (s.modTeam c p f).SlotFree c n := h.modCore _ fun _ => rfl

theorem State.leave_slotFree : (s.leave c n).SlotFree c n := by
  have erased (t : State) : (t.modCore c fun k => { k with groups := k.groups.erase n }).SlotFree c n := by
    rw [State.SlotFree, State.core_modCore, SMap.find_erase_self]
  unfold State.leave
  dsimp only
  split
  · exact erased _
  · exact .settleTeam (.modCore (.modTeam (erased _) _) _ fun _ => rfl)

end

/-! ## Grid end (R192, R194) -/

section
variable {s : State} {ctx n : Nat} {l : Launch}

/-- What holds a grid end back. -/
def State.endWaits (s : State) (ctx n : Nat) (l : Launch) : Bool :=
  (l.term.isNone && (s.pkDies l.words).any fun d => !s.exhausted l d) || s.launchLive ctx n
    || (l.term.isNone && l.slots.any fun o => s.writeWaits o.pa 4) || s.flushWaits l || s.postWaits l.queue (s.postDie l.words)

theorem State.endWaits_iff (s : State) (ctx n : Nat) (l : Launch) : s.endWaits ctx n l = true ↔
    (l.term = none ∧ ((∃ d ∈ s.pkDies l.words, s.exhausted l d = false) ∨ ∃ o ∈ l.slots, s.writeWaits o.pa 4 = true)) ∨
      s.launchLive ctx n = true ∨ s.flushWaits l = true ∨ s.postWaits l.queue (s.postDie l.words) = true := by
  simp only [State.endWaits, Bool.or_eq_true, Bool.and_eq_true, Option.isNone_iff_eq_none, List.any_eq_true, Bool.not_eq_true']
  grind

theorem exec_gridEnd_waits (hl : s.launch ctx n = some l) (h : s.endWaits ctx n l = true) : exec (.gridEnd ctx n) s = .next s := by
  rw [exec_gridEnd, execGridEnd, hl]
  exact congrArg _ (if_pos h)

/-- The state without a launch, and with nothing of it kept on the cores. -/
def State.launchGone (s : State) (ctx n : Nat) : State :=
  { s with
    launches := s.launches.filter fun x => !(x.ctx == ctx && x.num == n),
    cores := s.cores.map fun (x : Nat × Core) => (x.1, Core.forget x.2 ctx n) }

theorem State.flushed_of_noBuffers (t : State) (hb : l.buffers = []) (line : Nat) : t.flushed l line = false := by simp [State.flushed, hb]

theorem State.flushLines_none (t : State) : t.flushLines (fun _ => false) = t := by simp [State.flushLines]

theorem State.flushWaits_of_noBuffers (hb : l.buffers = []) : s.flushWaits l = false := by
  simp [State.flushWaits, State.flushed_of_noBuffers s hb]

theorem exec_gridEnd_ends (hl : s.launch ctx n = some l) (h : s.endWaits ctx n l = false) (ht : l.term = none) (hb : l.buffers = []) :
    exec (.gridEnd ctx n) s = .next
      (let u := s.launchGone ctx n
       let v := l.slots.foldl (fun v o => v.writeSlot l.spoiled o) u
       v.finishPacket l.queue l.index (pw l.words 25) (if l.slots.any fun o => u.bad o.pa 4 then cECC else 0) (v.postDie l.words)) := by
  rw [exec_gridEnd, execGridEnd, hl]
  refine congrArg _ ((if_neg (by rw [← State.endWaits, h]; simp)).trans ?_)
  have none_ : ∀ t : State, t.flushed l = fun _ => false := fun t => funext (t.flushed_of_noBuffers hb)
  simp only [ht, Option.isSome_none, Bool.false_eq_true, if_false, Option.getD_none, none_, State.flushLines_none]
  rfl

end

/-! ## Termination (R287, R288) -/

section
variable {s : State} {ctx n : Nat} {l : Launch} {code : Code}

theorem State.launch_modLaunch (f : Launch → Launch) (hf : ∀ x, (f x).ctx = x.ctx ∧ (f x).num = x.num) :
    (s.modLaunch ctx n f).launch ctx n = (s.launch ctx n).map f := by
  simp only [State.launch, State.modLaunch]
  induction s.launches with
  | nil => rfl
  | cons x xs ih =>
    simp only [List.map_cons, List.find?_cons]
    cases hx : x.ctx == ctx && x.num == n with
    | true => simp [hf, hx]
    | false => simpa [hx] using ih

theorem exec_terminate_terminated (hl : s.launch ctx n = some l) (ht : l.term.isSome = true) :
    exec (.terminate ctx n code) s = .next s := by
  rw [exec_terminate, execTerminate, State.terminateLaunch, hl]
  simp only [ht, if_true, ite_self]

theorem exec_terminate_noCode (h : 20 < code.toNat) : exec (.terminate ctx n code) s = .next s := congrArg _ (if_pos h)

theorem exec_terminate_first (h : code.toNat ≤ 20) : exec (.terminate ctx n code) s = .next (s.terminateLaunch ctx n code) :=
  congrArg _ (if_neg (by omega))

/-- The launch takes the code and gives up its ordered slots. -/
theorem State.launch_terminateLaunch (hl : s.launch ctx n = some l) (ht : l.term = none) :
    (s.terminateLaunch ctx n code).launch ctx n = some { l with term := some code, slots := [] } := by
  have marked : (s.modLaunch ctx n fun l => { l with term := some code, slots := [] }).launch ctx n =
      some { l with term := some code, slots := [] } := by
    rw [State.launch_modLaunch, hl, Option.map_some]
    exact fun _ => ⟨rfl, rfl⟩
  rw [State.terminateLaunch, hl]
  simp only [ht, Option.isSome_none, Bool.false_eq_true, if_false]
  exact marked

theorem State.cores_terminateLaunch (hl : s.launch ctx n = some l) (ht : l.term = none) :
    (s.terminateLaunch ctx n code).cores = s.cores.map fun (x : Nat × Core) => (x.1, Core.terminate x.2 ctx n) := by
  rw [State.terminateLaunch, hl]
  simp only [ht, Option.isSome_none, Bool.false_eq_true, if_false]
  rfl

end

/-! ## Ordered slots (R194, R228, R273) -/

section
variable {s : State} {o : Slot}

theorem State.writeSlot_poisoned (b : Bool) (h : s.bad o.pa 4 = true) : s.writeSlot b o = s.readArray o.pa 4 := if_pos h

/-- A slot receives a value: the word's granule is no longer open for the launches while it is stored. -/
def State.slotStored (s t : State) (o : Slot) (x : W32) : State :=
  { ({ t with launches := s.launches.map fun l => { l with slots := l.slots.filter fun r => r.pa != o.pa } } : State).homeStore
      o.pa (bytesOf 4 x.toNat) .normal with launches := s.launches }

theorem State.writeSlot_sum (h : s.bad o.pa 4 = false) : s.writeSlot false o = s.slotStored s o o.value := if_neg (by simp [h])

theorem State.writeSlot_free (h : s.bad o.pa 4 = false) :
    s.writeSlot true o = s.slotStored { s with free := s.free + 1 } o (Config.freeWord s.free) := if_neg (by simp [h])

end

/-! ## Completion reports (R282) -/

section
variable {s : State} {q : Nat} {x : Queue}

theorem exec_completionReport_none (hq : s.queues.find q = some x) (h : x.reports = 0) : exec (.completionReport q) s = .next s := by
  rw [exec_completionReport, execCompletionReport, hq]
  exact congrArg _ (if_pos h)

/-- A report that reaches die 0 is held there. -/
theorem exec_completionReport_held (hq : s.queues.find q = some x) (h : 0 < x.reports) :
    let d := s.die 0
    let h := d.held.get {} q
    ∃ t, exec (.completionReport q) s = .next t ∧ (t.die 0).held.find q = some
      { count := h.count + 1, since := if h.count = 0 then d.cycle else h.since,
        due := h.due || natBits (s.qword x 6) 7 0 + 1 ≤ h.count + 1 } := by
  intro d h
  rw [exec_completionReport, execCompletionReport, hq]
  refine ⟨_, congrArg _ (if_neg (by omega)), ?_⟩
  rw [State.die_modDie, SMap.find_put_self]
  rfl

/-- The coalescing time of a queue since its first held completion. -/
def State.heldUntil (s : State) (q : Nat) (x : Queue) : Nat :=
  ((s.die 0).held.get {} q).since + Config.cyclesPerUs * natBits (s.qword x 6) 14 8

theorem exec_coalescingTimerExpiry_early (hq : s.queues.find q = some x) (h : (s.die 0).cycle < s.heldUntil q x) :
    exec (.coalescingTimerExpiry q) s = .next s := by
  rw [exec_coalescingTimerExpiry, execCoalescingTimerExpiry, hq]
  exact congrArg _ (if_pos (by simpa using .inr h))

theorem exec_coalescingTimerExpiry_due (hq : s.queues.find q = some x) (hn : ((s.die 0).held.get {} q).count ≠ 0)
    (hd : ((s.die 0).held.get {} q).due = false) (h : s.heldUntil q x ≤ (s.die 0).cycle) :
    exec (.coalescingTimerExpiry q) s =
      .next (s.modDie 0 fun d => { d with held := d.held.put q { (s.die 0).held.get {} q with due := true } }) := by
  rw [exec_coalescingTimerExpiry, execCoalescingTimerExpiry, hq]
  exact congrArg _ (if_neg (by simpa [hn, hd, State.heldUntil] using h))

theorem exec_interrupt_notDue (hq : s.queues.find q = some x) (h : ((s.die 0).held.get {} q).due = false) :
    exec (.interrupt q) s = .next s := by
  rw [exec_interrupt, execInterrupt, hq]
  exact congrArg _ (if_pos (by simp [h]))

theorem exec_interrupt_due (hq : s.queues.find q = some x) (h : ((s.die 0).held.get {} q).due = true) :
    ∃ t, exec (.interrupt q) s = .next t ∧ t.hostOut = s.hostOut ++ [.rdmaWrite (BitVec.ofNat 64 (s.qpair x 11))
        (bytesOf 4 (s.qword x 10) ++ bytesOf 4 ((s.die 0).held.get {} q).count)] ∧ (t.die 0).held.find q = none := by
  rw [exec_interrupt, execInterrupt, hq]
  refine ⟨_, congrArg _ (if_neg (by simp [h])), rfl, ?_⟩
  have erased := State.die_modDie (s.event 0).2 0 fun d => { d with held := d.held.erase q }
  exact (congrArg (fun k : Die => k.held.find q) erased).trans (SMap.find_erase_self _ _)

end

/-- Settles O55: each event by the test that it makes and what it does where the test passes. -/
theorem launchesEnd : Obligations.LaunchesEnd := by
  unfold Obligations.LaunchesEnd
  refine ⟨fun s c n hd => ⟨exec_groupLeavesDraining_waits, exec_groupLeavesDraining_leaves hd⟩, fun s c n => ?leaves,
    fun s ctx n l hl => ?gridEnd, fun s ctx n l code hl => ⟨exec_terminate_terminated hl,
      exec_terminate_noCode, fun hc ht => ?terminate⟩,
    fun s o b => ⟨State.writeSlot_poisoned b, fun h hb => hb ▸ State.writeSlot_sum h, fun h hb => hb ▸ State.writeSlot_free h⟩,
    fun s q x hq => ⟨exec_completionReport_none hq, fun h => ?report, exec_coalescingTimerExpiry_due hq,
      exec_coalescingTimerExpiry_early hq,
      exec_interrupt_notDue hq, exec_interrupt_due hq⟩⟩
  case leaves => exact Option.isNone_iff_eq_none.2 State.leave_slotFree
  case gridEnd =>
    have waits := State.endWaits_iff s ctx n l
    refine ⟨fun ht hd => exec_gridEnd_waits hl (waits.2 (.inl ⟨ht, .inl hd⟩)),
      fun ht ho => exec_gridEnd_waits hl (waits.2 (.inl ⟨ht, .inr ho⟩)),
      fun h => exec_gridEnd_waits hl (waits.2 (.inr (.inr h))), fun h => exec_gridEnd_waits hl (waits.2 (.inr (.inl h))),
      fun hv ht hd ho hb hp => exec_gridEnd_ends hl (Bool.eq_false_iff.2 fun h => ?_) ht hb⟩
    rcases waits.1 h with ⟨-, ⟨d, hm, hx⟩ | ⟨o, hm, hx⟩⟩ | hx | hx | hx
    · rw [hd d hm] at hx; cases hx
    · rw [ho o hm] at hx; cases hx
    · rw [hv] at hx; cases hx
    · rw [State.flushWaits_of_noBuffers hb] at hx; cases hx
    · rw [hp] at hx; cases hx
  case terminate =>
    refine ⟨_, exec_terminate_first hc, ?_, fun c k hk => ?_⟩
    · rw [State.launch_terminateLaunch hl ht]
      rfl
    · rw [State.cores_terminateLaunch hl ht]
      exact List.mem_map_of_mem hk
  case report =>
    obtain ⟨t, ht, hg⟩ := exec_completionReport_held hq h
    exact ⟨t, ht, _, hg, rfl, rfl, by simp⟩

end Sys2Proof.Machine

/-! PROOFS of the statements of 03_execution.md: what an instruction does to a stroke (R33, R34, R37, R38, R40, R55). -/

namespace Sys2Proof.Machine

/-! ## The issue to a stroke (R33, R40) -/

/-- The stroke as an instruction's closure meets it: at the next instruction. -/
abbrev State.stepped (s : State) (st : Stroke) : Stroke := { st with pc := s.iss.pc + 12 }

section
variable {s s' : State} {i : Instr} {h : Hdr} {e : Nat} {st st' : Stroke} {cond : State → Stroke → Bool} {closed : Closed}
  {body : Env → State → State}

theorem inkStroke_none {c : Nat} {pc : W64} (hs : s.strokeAt c e = none) : s.inkStroke c e pc = s := by
  rw [State.inkStroke, hs]

theorem strokeInk_eq (he : s.iss.stroke = some e) : s.strokeInk = s.inkStroke s.iss.core e s.iss.pc := by
  rw [State.strokeInk, he]

theorem issueIf_stroke (he : s.iss.stroke = some e) : s.issueIf i h cond closed body =
    .next (if i.within s.strokeAllot then s.strokeIssueIf h cond closed else s.inkStroke s.iss.core e s.iss.pc) := by
  rw [State.issueIf, he, strokeInk_eq he]

theorem strokeIssueIf_noGuard (he : s.iss.stroke = some e) (hs : s.strokeAt s.iss.core e = some st) (hg : st.guard h = none) :
    s.strokeIssueIf h cond closed = s.inkStroke s.iss.core e s.iss.pc := by
  rw [State.strokeIssueIf, he]
  simp only [hs, hg, ite_self]

theorem strokeIssueIf_passes (he : s.iss.stroke = some e) (hs : s.strokeAt s.iss.core e = some st) (hg : st.guard h = some false)
    (hc : cond s (s.stepped st) = true) : s.strokeIssueIf h cond closed = s.putStroke e (s.stepped st) := by
  rw [State.strokeIssueIf, he]
  simp only [hs, hg, hc, Bool.true_eq_false, if_false]
  rfl

theorem strokeIssueIf_runs (he : s.iss.stroke = some e) (hs : s.strokeAt s.iss.core e = some st) (hg : st.guard h = some true)
    (hc : cond s (s.stepped st) = true) (hb : closed s (s.stepped st) = some (s', st')) :
    s.strokeIssueIf h cond closed = s'.modCore s.iss.core fun k => { k with strokes := k.strokes.put e st' } := by
  rw [State.strokeIssueIf, he]
  simp only [hs, hg, hc, hb, Bool.true_eq_false, if_false]

theorem strokeIssueIf_inks (he : s.iss.stroke = some e) (hg : ∀ st, s.strokeAt s.iss.core e = some st → closed s (s.stepped st) = none)
    (hf : ∀ st, s.strokeAt s.iss.core e = some st → cond s (s.stepped st) = false ∨ st.guard h = some true) :
    s.strokeIssueIf h cond closed = s.inkStroke s.iss.core e s.iss.pc := by
  cases hs : s.strokeAt s.iss.core e with
  | none =>
    simp only [State.strokeIssueIf, he, hs]
    exact (inkStroke_none hs).symm
  | some st =>
    rcases hf st hs with hc | ht
    · simp only [State.strokeIssueIf, he, hs, hc, if_true]
    · simp only [State.strokeIssueIf, he, hs, ht, hg st hs, ite_self]

/-- An instruction outside Table 3-2 inks the stroke, whatever its guard (R40). -/
theorem issueInk_stroke (he : s.iss.stroke = some e) : s.issueInk i h body = .next (s.inkStroke s.iss.core e s.iss.pc) := by
  refine (issueIf_stroke he).trans (congrArg _ ?_)
  rw [strokeIssueIf_inks he (fun _ _ => rfl) fun _ _ => .inl rfl, ite_self]

theorem privIssue_stroke {ok : Bool} (he : s.iss.stroke = some e) :
    s.privIssue i h ok body = .next (s.inkStroke s.iss.core e s.iss.pc) :=
  (if_neg (by simp [he])).trans (issueInk_stroke he)

/-- A guard that is a compare form inks the stroke (R33). -/
theorem issueIf_noGuard (he : s.iss.stroke = some e) (hs : s.strokeAt s.iss.core e = some st) (hg : st.guard h = none) :
    s.issueIf i h cond closed body = .next (s.inkStroke s.iss.core e s.iss.pc) := by
  rw [issueIf_stroke he, strokeIssueIf_noGuard he hs hg, ite_self]

/-- Under a uniform false guard a stroke whose operands meet the table goes on (R33). -/
theorem issueIf_passes (I : StrokeIssues s i e st) (hg : st.guard h = some false) (hc : cond s (s.stepped st) = true) :
    s.issueIf i h cond closed body = .next (s.putStroke e (s.stepped st)) := by
  rw [issueIf_stroke I.entry, if_pos I.within, strokeIssueIf_passes I.entry I.at_ hg hc]

theorem issueIf_runs (I : StrokeRuns s i h e st) (hc : cond s (s.stepped st) = true) (hb : closed s (s.stepped st) = some (s', st')) :
    s.issueIf i h cond closed body = .next (s'.modCore s.iss.core fun k => { k with strokes := k.strokes.put e st' }) := by
  rw [issueIf_stroke I.entry, if_pos I.within, strokeIssueIf_runs I.entry I.at_ I.guard hc hb]

/-- A fault under a true guard inks the stroke at the instruction (R34). -/
theorem issueIf_faults (I : StrokeRuns s i h e st) (hb : closed s (s.stepped st) = none) :
    s.issueIf i h cond closed body = .next (s.inkStroke s.iss.core e s.iss.pc) := by
  have at_ : ∀ {x}, s.strokeAt s.iss.core e = some x → x = st := fun hx => Option.some.inj (hx.symm.trans I.at_)
  rw [issueIf_stroke I.entry, if_pos I.within,
    strokeIssueIf_inks I.entry (fun _ hx => at_ hx ▸ hb) fun _ hx => .inr (at_ hx ▸ I.guard)]

theorem issue_runs (I : StrokeRuns s i h e st) (hb : closed s (s.stepped st) = some (s, st')) :
    s.issue i h closed body = .next (s.putStroke e st') := issueIf_runs I (by rw [hb]; rfl) hb

theorem issue_passes (I : StrokeIssues s i e st) (hg : st.guard h = some false) (hb : (closed s (s.stepped st)).isSome = true) :
    s.issue i h closed body = .next (s.putStroke e (s.stepped st)) := issueIf_passes I hg hb

/-- The issue of an instruction whose registers need no check. -/
theorem strokeIssue_passes (I : StrokeIssues s i e st) (hg : st.guard h = some false) (hb : (closed s (s.stepped st)).isSome = true) :
    s.strokeIssue h closed = s.putStroke e (s.stepped st) := strokeIssueIf_passes I.entry I.at_ hg hb

end

/-! ## Outside Table 3-2 (R33, R40) -/

/-- The majors of Table 3-2 and of INK. -/
def tableMajors : List Nat :=
  [0x00, 0x01, 0x03, 0x11, 0x1A, 0x1B, 0x1C, 0x1D, 0x1E, 0x50, 0x51, 0x52, 0x53, 0x54, 0x55, 0x56, 0x59, 0x5A, 0x5D, 0x5E, 0x60, 0x64]

theorem exec_outsideTable {s : State} {i : Instr} {e : Nat} (he : s.iss.stroke = some e) (hi : i.hdr.isSome = true)
    (hm : tableMajors.contains i.major = false) : exec i s = .next (s.inkStroke s.iss.core e s.iss.pc) := by
  -- an event has no header; a major of the list is no row outside the table
  cases i
  all_goals cases hi
  case pair => exact issueInk_stroke he
  all_goals cases hm
  case gets | sets | trapret => exact privIssue_stroke he
  case mldt => exact (if_neg (by simp [he])).trans (issueInk_stroke he)
  all_goals exact issueInk_stroke he

theorem exec_inTable_noGuard {s : State} {i : Instr} {h : Hdr} {e : Nat} {st : Stroke} (he : s.iss.stroke = some e)
    (hs : s.strokeAt s.iss.core e = some st) (hi : i.hdr = some h) (hg : st.guard h = none) (ht : tableMajors.contains i.major = true)
    (hm : i.major ∉ [0x50, 0x5E]) : exec i s = .next (s.inkStroke s.iss.core e s.iss.pc) := by
  -- the header is the instruction's own; a row outside the table has no major of the list
  cases i
  all_goals cases hi
  case pair => exact issueIf_noGuard he hs hg
  all_goals cases ht
  case bra => exact absurd (.head _) hm
  case ink => exact absurd (.tail _ (.head _)) hm
  case join =>
    rw [exec_join, execJoin, he]
    simp only [hs, hg]
    exact congrArg _ (strokeIssueIf_noGuard he hs hg)
  case exit =>
    rw [exec_exit, execExit, he]
    simp only [hs, hg]
    exact congrArg _ (strokeIssueIf_noGuard he hs hg)
  all_goals exact issueIf_noGuard he hs hg

theorem exec_noGuard {s : State} {i : Instr} {h : Hdr} {e : Nat} {st : Stroke} (he : s.iss.stroke = some e)
    (hs : s.strokeAt s.iss.core e = some st) (hi : i.hdr = some h) (hg : st.guard h = none) (hm : i.major ∉ [0x50, 0x5E]) :
    exec i s = .next (s.inkStroke s.iss.core e s.iss.pc) := by
  cases ht : tableMajors.contains i.major with
  | false => exact exec_outsideTable he (by rw [hi]; rfl) ht
  | true => exact exec_inTable_noGuard he hs hi hg ht hm

/-! ## The closures of Table 3-2 -/

section
variable {s : State} {h : Hdr} {f : VF} {e : Nat} {st t u : Stroke} {a b r : Form} {op : Form → Form → Option Form} {i : Instr}
  {body : Env → State → State} {as ds : List Form}

theorem closedBin_eq (hf : closable f = true) (ha : st.fa s f = some a) (hb : st.formB s f = some b) (hr : op a b = some r) :
    closedBin f op s st = (st.setForm f.d r).map fun t => (s, t) := by
  rw [Stroke.fa] at ha
  simp only [closedBin, hf, ha, hb, hr, Bool.not_true, Bool.false_eq_true, if_false]

theorem closedBin_runs (x : exec i s = s.issue i h (closedBin f op) body) (hf : closable f = true)
    (ha : (s.stepped st).fa s f = some a) (hb : (s.stepped st).formB s f = some b) (hr : op a b = some r) (I : StrokeRuns s i h e st)
    (ht : (s.stepped st).setForm f.d r = some t) : exec i s = .next (s.putStroke e t) :=
  x.trans (issue_runs I (by rw [closedBin_eq hf ha hb hr, ht]; rfl))

theorem closedBin_passes (x : exec i s = s.issue i h (closedBin f op) body) (hg : st.guard h = some false) (hf : closable f = true)
    (ha : (s.stepped st).fa s f = some a) (hb : (s.stepped st).formB s f = some b) (hr : op a b = some r)
    (ht : ((s.stepped st).setForm f.d r).isSome = true) (I : StrokeIssues s i e st) :
    exec i s = .next (s.putStroke e (s.stepped st)) :=
  x.trans (issue_passes I hg (by rw [closedBin_eq hf ha hb hr, Option.isSome_map, ht]))

end

section
variable {s : State} {h : Hdr} {f : VF} {e : Nat} {st : Stroke} {a b : Form} (hf : closable f = true)
  (ha : (s.stepped st).fa s f = some a) (hb : (s.stepped st).formB s f = some b)
include hf ha hb

theorem exec_arith_stroke :
    let gives := fun (i : Instr) (r : Form) => StrokeRuns s i h e st → ∀ t, (s.stepped st).setForm f.d r = some t →
      exec i s = .next (s.putStroke e t)
    gives (.iadd h f) (a.zip (· + ·) b) ∧ gives (.isub h f) (a.zip (· - ·) b) ∧
      (a.isUni = true → gives (.imul h f) (b.map (· * a.base))) ∧
      (a.isUni = false → b.isUni = true → gives (.imul h f) (a.map (· * b.base))) ∧
      (b.isUni = true → b.base.toNat < 32 → gives (.shl h f) (a.map (· <<< b.base.toNat))) ∧
      (a = b → gives (.sel h f) a) := by
  refine ⟨fun I t => closedBin_runs rfl hf ha hb rfl I, fun I t => closedBin_runs rfl hf ha hb rfl I,
    fun hu I t => closedBin_runs rfl hf ha hb (if_pos hu) I, fun hn hu I t => closedBin_runs rfl hf ha hb ?_ I,
    fun hu hn I t => closedBin_runs rfl hf ha hb (if_pos (by simp [hu, hn])) I, fun he I t => closedBin_runs rfl hf ha hb (if_pos he) I⟩
  rw [hn, hu]
  rfl

theorem exec_icmp_stroke (I : StrokeRuns s (.icmp h f) h e st) : exec (.icmp h f) s =
    .next (s.putStroke e ((s.stepped st).setP f.pred.val (icmpForm s (s.stepped st) (Cmp.ofCode f.rc) (f.ty == .i32) a b))) := by
  rw [Stroke.fa] at ha
  exact issue_runs I (by simp only [hf, ha, hb, Bool.not_true, Bool.false_eq_true, if_false])

/-- Under a uniform false guard an arithmetic instruction only goes on, whatever its operands hold (R33). -/
theorem exec_arith_passes (hg : st.guard h = some false) :
    let passes := fun (i : Instr) => StrokeIssues s i e st → exec i s = .next (s.putStroke e (s.stepped st))
    let fits := fun (r : Form) => ((s.stepped st).setForm f.d r).isSome = true
    (fits (a.zip (· + ·) b) → passes (.iadd h f)) ∧ (fits (a.zip (· - ·) b) → passes (.isub h f)) ∧
      (a.isUni = true → fits (b.map (· * a.base)) → passes (.imul h f)) ∧
      (a.isUni = false → b.isUni = true → fits (a.map (· * b.base)) → passes (.imul h f)) ∧
      (b.isUni = true → b.base.toNat < 32 → fits (a.map (· <<< b.base.toNat)) → passes (.shl h f)) ∧
      (a = b → fits a → passes (.sel h f)) ∧ passes (.icmp h f) := by
  refine ⟨closedBin_passes rfl hg hf ha hb rfl, closedBin_passes rfl hg hf ha hb rfl,
    fun hu => closedBin_passes rfl hg hf ha hb (if_pos hu),
    fun hn hu => closedBin_passes rfl hg hf ha hb ?_, fun hu hn => closedBin_passes rfl hg hf ha hb (if_pos (by simp [hu, hn])),
    fun he => closedBin_passes rfl hg hf ha hb (if_pos he), fun I => ?_⟩
  · rw [hn, hu]
    rfl
  · rw [Stroke.fa] at ha
    exact issue_passes I hg (by simp only [hf, ha, hb, Bool.not_true, Bool.false_eq_true, if_false, Option.isSome_some])

end

section
variable {s : State} {h : Hdr} {f : VF} {e : Nat} {st t u : Stroke} {as ds : List Form}

theorem exec_mov_stroke (I : StrokeRuns s (.mov h f) h e st) (ha : (s.stepped st).formsOf s f.ty.is64 f.a = some as)
    (ht : (s.stepped st).setForms f.d as = some t) : exec (.mov h f) s = .next (s.putStroke e t) :=
  issue_runs I (by simp only [ha, ht, Option.map_some])

theorem exec_mov_passes (hg : st.guard h = some false) (ha : (s.stepped st).formsOf s f.ty.is64 f.a = some as)
    (ht : ((s.stepped st).setForms f.d as).isSome = true) (I : StrokeIssues s (.mov h f) e st) :
    exec (.mov h f) s = .next (s.putStroke e (s.stepped st)) := issue_passes I hg (by simp only [ha, ht, Option.isSome_map])

theorem exec_movi_stroke (I : StrokeRuns s (.movi h f) h e st)
    (ht : (s.stepped st).setForms f.d ((valRegs f.ty.is64 (immVal f.ty (f.imm.getD 0))).map Form.uni) = some t) :
    exec (.movi h f) s = .next (s.putStroke e t) := issue_runs I (by simp only [ht, Option.map_some])

theorem exec_movi_passes (hg : st.guard h = some false)
    (ht : ((s.stepped st).setForms f.d ((valRegs f.ty.is64 (immVal f.ty (f.imm.getD 0))).map Form.uni)).isSome = true)
    (I : StrokeIssues s (.movi h f) e st) : exec (.movi h f) s = .next (s.putStroke e (s.stepped st)) :=
  issue_passes I hg (by simp only [ht, Option.isSome_map])

theorem exec_movs_stroke (I : StrokeRuns s (.movs h f) h e st) (ha : (s.stepped st).formsOf s f.ty.is64 f.a = some as)
    (hd : (s.stepped st).formsOf s f.ty.is64 f.d = some ds) (ht : (s.stepped st).setForms f.d as = some t)
    (hu : t.setForms f.a ds = some u) :
    exec (.movs h f) s = .next (s.putStroke e u) := issue_runs I (by simp only [ha, hd, ht, hu, Option.map_some])

theorem exec_movs_passes (hg : st.guard h = some false) (ha : (s.stepped st).formsOf s f.ty.is64 f.a = some as)
    (hd : (s.stepped st).formsOf s f.ty.is64 f.d = some ds) (ht : (s.stepped st).setForms f.d as = some t)
    (hu : (t.setForms f.a ds).isSome = true) (I : StrokeIssues s (.movs h f) e st) :
    exec (.movs h f) s = .next (s.putStroke e (s.stepped st)) := issue_passes I hg (by simp only [ha, hd, ht, hu, Option.isSome_map])

end

/-! ## Control transfer in a stroke (R199, R200) -/

section
variable {s : State} {h : Hdr} {f : CF} {e : Nat} {st t : Stroke} {x : W64}

/-- A uniform guard is a uniform predicate (R64). -/
theorem Stroke.pform_of_guard {b : Bool} (hg : st.guard h = some b) : ∃ p, st.pform h.gpred.val = .uni p := by
  unfold Stroke.guard at hg
  split at hg
  · next p hp => exact ⟨p, hp⟩
  · cases hg

/-- BRA under a uniform guard issues as the other instructions of the table. -/
theorem exec_bra_uniform {b : Bool} (I : StrokeIssues s (.bra h f) e st) (hg : st.guard h = some b) :
    exec (.bra h f) s = .next (s.strokeIssue h fun s st => some (s, { st with pc := branchTo s.iss.pc f })) := by
  obtain ⟨p, hp⟩ := Stroke.pform_of_guard hg
  rw [exec_bra, execBra, I.entry]
  simp only [I.at_, hp]

theorem exec_bra_stroke (I : StrokeRuns s (.bra h f) h e st) :
    exec (.bra h f) s = .next (s.putStroke e { st with pc := branchTo s.iss.pc f }) :=
  (exec_bra_uniform I.toStrokeIssues I.guard).trans (congrArg _ (strokeIssueIf_runs I.entry I.at_ I.guard rfl rfl))

theorem exec_bra_passes (hg : st.guard h = some false) (I : StrokeIssues s (.bra h f) e st) :
    exec (.bra h f) s = .next (s.putStroke e (s.stepped st)) :=
  (exec_bra_uniform I hg).trans (congrArg _ (strokeIssue_passes I hg rfl))

theorem exec_call_stroke (I : StrokeRuns s (.call h f) h e st) (ht : (s.stepped st).link f.d (s.iss.pc + 12) = some t) :
    exec (.call h f) s = .next (s.putStroke e { t with pc := branchTo s.iss.pc f }) := issue_runs I (by simp only [ht, Option.map_some])

theorem exec_call_passes (hg : st.guard h = some false) (ht : ((s.stepped st).link f.d (s.iss.pc + 12)).isSome = true)
    (I : StrokeIssues s (.call h f) e st) : exec (.call h f) s = .next (s.putStroke e (s.stepped st)) :=
  issue_passes I hg (by simp only [ht, Option.isSome_map])

theorem strokeGo_aligned (st : Stroke) (s : State) (hx : x.toNat % 4 = 0) : strokeGo st s x = some (s, { st with pc := x }) := if_pos hx

theorem pairTarget_of_uniPair (ha : st.uniPair s f.a = some x) : pairTarget f s st = true := by rw [pairTarget, ha]; rfl

section
variable (ha : (s.stepped st).uniPair s f.a = some x)
include ha

theorem exec_indirect_stroke (hx : x.toNat % 4 = 0) :
    let goes := fun (i : Instr) => StrokeRuns s i h e st → exec i s = .next (s.putStroke e { st with pc := x })
    goes (.brx h f) ∧ goes (.ret h f) := by
  have go : ((s.stepped st).uniPair s f.a).bind (strokeGo (s.stepped st) s) = some (s, { st with pc := x }) := by
    rw [ha, Option.bind_some, strokeGo_aligned _ _ hx]
  exact ⟨fun I => issueIf_runs I (pairTarget_of_uniPair ha) go, fun I => issueIf_runs I (pairTarget_of_uniPair ha) go⟩

/-- CALLX reads its target before it writes the link (R200). -/
theorem exec_callx_stroke (hx : x.toNat % 4 = 0) (hd : ((s.stepped st).link f.d 0).isSome = true)
    (ht : (s.stepped st).link f.d (s.iss.pc + 12) = some t) (I : StrokeRuns s (.callx h f) h e st) :
    exec (.callx h f) s = .next (s.putStroke e { t with pc := x }) :=
  issueIf_runs I (by simp only [pairTarget_of_uniPair ha, hd, Bool.and_self])
    (by simp only [ha, ht, Option.bind_some, strokeGo_aligned _ _ hx])

theorem exec_indirect_passes (hg : st.guard h = some false) :
    let passes := fun (i : Instr) => StrokeIssues s i e st → exec i s = .next (s.putStroke e (s.stepped st))
    passes (.brx h f) ∧ passes (.ret h f) ∧ (((s.stepped st).link f.d 0).isSome = true → passes (.callx h f)) :=
  ⟨fun I => issueIf_passes I hg (pairTarget_of_uniPair ha), fun I => issueIf_passes I hg (pairTarget_of_uniPair ha),
    fun hd I => issueIf_passes I hg (by simp only [pairTarget_of_uniPair ha, hd, Bool.and_self])⟩

end

theorem exec_nop_stroke (I : StrokeRuns s (.nop h f) h e st) : exec (.nop h f) s = .next (s.putStroke e (s.stepped st)) := issue_runs I rfl

theorem exec_yield_stroke (I : StrokeRuns s (.yield h f) h e st) : exec (.yield h f) s = .next (s.putStroke e (s.stepped st)) :=
  issue_runs I rfl

/-! ## JOIN, EXIT and INK in a stroke (R38, R55, R211) -/

theorem exec_join_stroke (I : StrokeRuns s (.join h f) h e st) :
    exec (.join h f) s = .next ((s.putStroke e { st with pc := s.iss.pc, joining := true }).joinSettle s.iss.core st) := by
  rw [exec_join, execJoin, I.entry]
  simp only [I.at_, I.guard]
  rfl

theorem exec_join_passes (hg : st.guard h = some false) (I : StrokeIssues s (.join h f) e st) :
    exec (.join h f) s = .next (s.putStroke e (s.stepped st)) := by
  rw [exec_join, execJoin, I.entry]
  simp only [I.at_, hg]
  exact congrArg _ (strokeIssue_passes I hg rfl)

theorem exec_exit_stroke (I : StrokeRuns s (.exit h f) h e st) :
    exec (.exit h f) s = .next ((s.exitStroke s.iss.core e).settleCore s.iss.core) := by
  rw [exec_exit, execExit, I.entry]
  simp only [I.at_, I.guard]

theorem exec_exit_passes (hg : st.guard h = some false) (I : StrokeIssues s (.exit h f) e st) :
    exec (.exit h f) s = .next (s.putStroke e (s.stepped st)) := by
  rw [exec_exit, execExit, I.entry]
  simp only [I.at_, hg]
  exact congrArg _ (strokeIssue_passes I hg rfl)

theorem exec_ink_stroke (he : s.iss.stroke = some e) : exec (.ink h f) s = .next (s.inkStroke s.iss.core e (s.iss.pc + 12)) := by
  rw [exec_ink, execInk, he]

end

/-! ## LD and LDC in a stroke (R34, R219) -/

section
variable {s t : State} {h : Hdr} {f : MF} {e : Nat} {st : Stroke} {va : W64} {sc : Scope} {o : Order}

/-- The watch match of a stroke's load: the default set of its context, and the package's table (R34). -/
def State.strokeWatch (s : State) (ctx : Nat) (va : W64) (n pa : Nat) : Option (Nat × Nat) :=
  let regs := match s.context ctx with
    | some x => x.watch
    | none => []
  lowestHit (watchIn regs .read false false (untag va).toNat n (fun _ => true)
    ++ (s.watchTable ctx .read false pa n).map fun w => (w.index, w.base - pa))

/-- The checks of a stroke's load (R12, R34). -/
def State.strokeCheck (s : State) (st : Stroke) (f : MF) (va : W64) (sc : Scope) : Except FaultRec (Nat × W64) × State :=
  s.checkAs s.iss.core st.ctx false (s.strokeWatch st.ctx va f.size.bytes) (loadAsk va f.size.bytes sc)

/-- What a load leaves once its bytes are there: its value as uniform forms, and an acquire's removals (R34, R217). -/
def State.loaded (s : State) (c : Nat) (st : Stroke) (f : MF) (sc : Scope) (o : Order)
    (pa : Nat) (bs : List Byte) : Option (State × Stroke) :=
  (st.setForms f.d (((destOf f.d f.size.regs f.size.bytes f.sext).regs (ofBytes (s.softRead pa bs).1)).map Form.uni)).map fun st =>
    (if isAcq o then (s.softRead pa bs).2.acquire c sc else (s.softRead pa bs).2, st)

/-- No walk holds the load, unless it is misaligned. -/
def State.NoWalk (s : State) (st : Stroke) (f : MF) (va : W64) : Prop :=
  va.toNat % f.size.bytes = 0 → s.walkWaits s.iss.core st.ctx va = false

theorem noWalk_test (hw : s.NoWalk st f va) : ¬(va.toNat % f.size.bytes == 0 && s.walkWaits s.iss.core st.ctx va) = true := by
  simpa [State.NoWalk] using hw

section
variable (hv : strokeVa f s st = some va) (hw : s.NoWalk st f va)
include hv hw

theorem strokeLoad_fails {x : FaultRec} (hx : s.strokeCheck st f va sc = (.error x, t)) : strokeLoad f sc o s st = none := by
  rw [strokeLoad, hv]
  refine (if_neg (noWalk_test hw)).trans ?_
  dsimp only
  split
  · rfl
  · next hok => cases hok.symm.trans hx

section
variable {pa : Nat} {pte : W64} (hx : s.strokeCheck st f va sc = (.ok (pa, pte), t))
include hx

theorem strokeLoad_near {x : CLine} (hn : t.nearLine s.iss.core sc pa f.size.bytes pte = some x) : strokeLoad f sc o s st =
    (t.servedNear s.iss.core sc f.policy x (t.fills s.iss.core sc f.policy pa pte).1).loaded s.iss.core st f sc o pa
      ((x.data.drop (pa % 128)).take f.size.bytes) := by
  rw [strokeLoad, hv]
  refine (if_neg (noWalk_test hw)).trans ?_
  dsimp only
  split
  · next herr => cases herr.symm.trans hx
  · next hok =>
    cases hok.symm.trans hx
    rw [hn]
    rfl

theorem strokeLoad_home (hn : t.nearLine s.iss.core sc pa f.size.bytes pte = none) (hl : t.linked (dieOf s.iss.core) (homeDie pa) = true)
    (hh : (t.held pa && !t.homeHit pa f.size.bytes) = false) : strokeLoad f sc o s st =
    let u := (t.homeLoad pa f.size.bytes f.policy).readAtHome s.iss.core (dieOf s.iss.core) (pa / 128)
    (u.fillNear s.iss.core (u.lineOf (dieOf s.iss.core) (pa / 128) (coverBlock pa (pa + f.size.bytes)))
      (t.fills s.iss.core sc f.policy pa pte).1 (t.fills s.iss.core sc f.policy pa pte).2 f.policy u.nextId).loaded
        s.iss.core st f sc o pa (u.bytes pa f.size.bytes) := by
  rw [strokeLoad, hv]
  refine (if_neg (noWalk_test hw)).trans ?_
  dsimp only
  split
  · next herr => cases herr.symm.trans hx
  · next hok =>
    cases hok.symm.trans hx
    simp only [hn, hl, hh, Bool.not_true, Bool.false_eq_true, if_false]
    rfl

end

end

/-- A load of either kind does its closure. -/
theorem exec_load_eq {i : Instr} (hi : (i = .ld h f ∧ sc = f.scope ∧ o = f.order) ∨ (i = .ldc h f ∧ sc = .c ∧ o = .relaxed)) :
    ∃ body, exec i s = s.issueIf i h (loadCloses f) (strokeLoad f sc o) body := by
  rcases hi with ⟨rfl, rfl, rfl⟩ | ⟨rfl, rfl, rfl⟩
  · exact ⟨_, rfl⟩
  · exact ⟨_, rfl⟩

theorem exec_load_passes (hg : st.guard h = some false) (hc : loadCloses f s (s.stepped st) = true) :
    let passes := fun (i : Instr) => StrokeIssues s i e st → exec i s = .next (s.putStroke e (s.stepped st))
    passes (.ld h f) ∧ passes (.ldc h f) := ⟨fun I => issueIf_passes I hg hc, fun I => issueIf_passes I hg hc⟩

end

/-! ## SIZESEL in a stroke (R208 to R210) -/

/-! The present issue stays as it is while a record is read. -/

theorem foldl_iss {α : Type} {f : State → α → State} (hf : ∀ s x, (f s x).iss = s.iss) (xs : List α) (s : State) :
    (xs.foldl f s).iss = s.iss := by
  induction xs generalizing s with
  | nil => rfl
  | cons x xs ih => exact (ih _).trans (hf s x)

section
variable (s : State)

@[simp] theorem State.postEvents_iss (ev : List DevEvent) : (s.postEvents ev).iss = s.iss := (State.postEventsN_same _ s ev).iss

@[simp] theorem State.readArray_iss (pa n : Nat) : (s.readArray pa n).iss = s.iss :=
  (State.postEvents_iss _ _).trans (State.correctAll_same _ s).iss

@[simp] theorem State.homeLoad_iss (pa n : Nat) (po : Policy) : (s.homeLoad pa n po).iss = s.iss :=
  (State.postEvents_iss _ _).trans (State.fetchIn_same s pa n _ po).iss

@[simp] theorem State.readAtHome_iss (c d line : Nat) : (s.readAtHome c d line).iss = s.iss := rfl

@[simp] theorem State.softAccess_iss (pa n : Nat) : (s.softAccess pa n).iss = s.iss := by
  unfold State.softAccess
  split <;> rfl

@[simp] theorem State.walked_iss (c ctx : Nat) (va : W64) : (s.walked c ctx va).iss = s.iss :=
  (State.postEvents_iss _ _).trans ((foldl_iss (fun s _ => s.readAtHome_iss _ _ _) _ _).trans (State.walkReading_same _ _ s).iss)

@[simp] theorem State.coreXlate_iss (c ctx : Nat) (va : W64) : (s.coreXlate c ctx va).2.iss = s.iss := by
  unfold State.coreXlate
  split
  · rfl
  · split
    · rfl
    · split
      · exact s.walked_iss c ctx va
      · exact s.walked_iss c ctx va

@[simp] theorem State.recordRead_iss (c slot ctx : Nat) (va : W64) (n : Nat) : (s.recordRead c slot ctx va n).iss = s.iss := by
  have pages : ((pageStarts (n / 65536 + 2) va n).foldl (fun s a => (s.coreXlate c ctx a).2) s).iss = s.iss :=
    foldl_iss (fun s a => s.coreXlate_iss c ctx a) _ s
  unfold State.recordRead
  dsimp only
  split
  · exact pages
  · refine (foldl_iss (fun u p => ?_) _ _).trans pages
    split
    · split <;> simp
    · exact (foldl_iss (fun s _ => s.readAtHome_iss _ _ _) _ _).trans (by simp)

end

section
variable {s : State} {h : Hdr} {f : CF} {e : Nat} {st t : Stroke} {l : Launch} {a : Form}

theorem exec_sizesel_passes (hg : st.guard h = some false)
    (ha : (s.stepped st).form ((s.stepped st).tx s) ((s.stepped st).ty s) f.a = some a)
    (hu : a.isUni = true) (hd : ((s.stepped st).setForm f.d (.uni 0)).isSome = true) (I : StrokeIssues s (.sizesel h f) e st) :
    exec (.sizesel h f) s = .next (s.putStroke e (s.stepped st)) :=
  issueIf_passes I hg (by simp only [ha, hd, Option.any_some, hu, Bool.and_self])

/-- The parts of the record that a SIZESEL reads. -/
def State.sizeParts (s : State) (st : Stroke) (l : Launch) (f : CF) : List (W64 × Nat) :=
  s.schedParts s.iss.core 64 st.ctx (schedAddr l.words f) 0 8

/-- The state after that read. -/
def State.sizeRead (s : State) (st : Stroke) (l : Launch) (f : CF) : State :=
  (s.sizeParts st l f).foldl (fun t p => t.recordRead s.iss.core 64 st.ctx p.1 p.2) s

theorem State.sizeRead_eq : (s.sizeParts st l f).foldl (fun t p => t.recordRead t.iss.core 64 st.ctx p.1 p.2) s = s.sizeRead st l f := by
  have gen : ∀ (ps : List (W64 × Nat)) (t : State), t.iss = s.iss → ps.foldl (fun t p => t.recordRead t.iss.core 64 st.ctx p.1 p.2) t =
      ps.foldl (fun t p => t.recordRead s.iss.core 64 st.ctx p.1 p.2) t := by
    intro ps
    induction ps with
    | nil => exact fun _ _ => rfl
    | cons p ps ih =>
      intro t ht
      rw [List.foldl_cons, List.foldl_cons, ih _ (by simpa using ht), ht]
  exact gen _ s rfl

theorem State.sizeRead_iss : (s.sizeRead st l f).iss = s.iss := foldl_iss (fun t _ => t.recordRead_iss _ _ _ _ _) _ s

/-- No part of the record is waited for, in the model's own words. -/
theorem sizeParts_test (hw : ∀ p ∈ s.sizeParts st l f, s.reachWaits s.iss.core 64 st.ctx p.1 p.2 = false) :
    ((s.schedParts s.iss.core 64 st.ctx (schedAddr l.words f) 0 8).any fun p => s.reachWaits s.iss.core 64 st.ctx p.1 p.2) = false := by
  simpa [State.sizeParts] using hw

section
variable (I : StrokeRuns s (.sizesel h f) h e st) (hl : s.launch st.ctx st.launch = some l)
  (hw : ∀ p ∈ s.sizeParts st l f, s.reachWaits s.iss.core 64 st.ctx p.1 p.2 = false)
include I hl hw

theorem exec_sizesel_fails {x : Code} (hx : s.schedEntries s.iss.core 64 st.ctx (schedAddr l.words f) 0 8 = .error x) :
    exec (.sizesel h f) s = .next (s.inkStroke s.iss.core e s.iss.pc) := by
  exact issueIf_faults I (by simp only [hl, sizeParts_test hw, hx, Bool.false_eq_true, if_false])

theorem exec_sizesel_fits {rec : List Byte} {r : W32 × W64}
    (ha : (s.stepped st).form ((s.stepped st).tx s) ((s.stepped st).ty s) f.a = some a)
    (hu : a.isUni = true) (hd : ((s.stepped st).setForm f.d (.uni 0)).isSome = true)
    (hx : s.schedEntries s.iss.core 64 st.ctx (schedAddr l.words f) 0 8 = .ok rec)
    (hr : sizeFit rec (a.base.zeroExtend 64) (s.iss.pc + 12) 0 8 = r) (h4 : r.2.toNat % 4 = 0)
    (ht : (s.stepped st).setForm f.d (.uni r.1) = some t) :
    exec (.sizesel h f) s = .next
      ((s.sizeRead st l f).modCore s.iss.core fun k => { k with strokes := k.strokes.put e { t with pc := r.2 } }) := by
  have read := s.sizeRead_eq (st := st) (l := l) (f := f)
  unfold State.sizeParts at read
  exact issueIf_runs I (by simp only [ha, hd, Option.any_some, hu, Bool.and_self])
    (by simp only [hl, sizeParts_test hw, hx, ha, read, State.sizeRead_iss, hr, ht, Bool.false_eq_true, if_false, Option.getD_some,
      Option.bind_some, strokeGo_aligned _ _ h4])

end

end

/-! ## BRA under a compare form (R37) -/

/-- Strokes in the order of their first teams. -/
def inOrder (tx ty : Nat) (xs : List Stroke) : List Stroke :=
  (sortDedup (xs.map fun x => x.box.first tx ty)).filterMap fun k => xs.find? fun x => x.box.first tx ty == k

section
variable {tx ty : Nat} {x y : Stroke}

theorem inOrder_one : inOrder tx ty [x] = [x] := by simp [inOrder, sortDedup, insertNat]

theorem inOrder_lt (h : x.box.first tx ty < y.box.first tx ty) : inOrder tx ty [x, y] = [x, y] := by
  simp [inOrder, sortDedup, insertNat, h, h.ne]

theorem inOrder_gt (h : y.box.first tx ty < x.box.first tx ty) : inOrder tx ty [x, y] = [y, x] := by
  simp [inOrder, sortDedup, insertNat, h.not_gt, h.ne']

end

section
variable {s : State} {h : Hdr} {f : CF} {e : Nat} {st : Stroke} {cmp : Cmp} {sg : Bool} {fa fb : Form} {l0 nl : Nat}

/-- The stroke goes on with a part of its box. -/
def Stroke.part (st : Stroke) (b : Box) (pc : W64) : Stroke := { st with box := b, pc := pc }

/-- The state in which a split stroke has left its entry, and its mixed part is inked. -/
def State.splitting (s : State) (e : Nat) (st : Stroke) (mixed : Option Box) : State :=
  let u := s.modCore s.iss.core fun k => { k with strokes := k.strokes.erase e }
  match mixed with
  | some b => u.modCore s.iss.core fun k => { k with inked := k.inked ++ [st.ink b (st.tx s) (st.ty s) s.iss.pc] }
  | none => u

/-- A split's sub-strokes are formed, and the stroke's kin then settles. -/
def State.splitInto (s : State) (e : Nat) (st : Stroke) (mixed : Option Box) (xs : List Stroke) : State :=
  (xs.foldl (fun w x => w.formStroke s.iss.core x) (s.splitting e st mixed)).joinSettle s.iss.core st

variable (I : StrokeIssues s (.bra h f) e st) (hp : st.pform h.gpred.val = .cmp cmp sg fa fb)
  (hr : roleLanes (natBits (s.launchWord st.ctx st.launch 2) 5 2) (natBits (s.launchWord st.ctx st.launch 2) 10 6) st.consumer = (l0, nl))
include I hp

theorem exec_bra_compare : exec (.bra h f) s = .next (s.strokeSplit e st h (branchTo s.iss.pc f)) := by
  rw [exec_bra, execBra, I.entry]
  simp only [I.at_, hp]

include hr

theorem exec_bra_inks (hs : splitOf st.box cmp sg h.gneg fa fb l0 nl = .ink) :
    exec (.bra h f) s = .next (s.inkStroke s.iss.core e s.iss.pc) := by
  rw [exec_bra_compare I hp, State.strokeSplit]
  simp only [hp, hr, hs]

theorem exec_bra_whole {b : Bool} (hs : splitOf st.box cmp sg h.gneg fa fb l0 nl = .whole b) : exec (.bra h f) s =
    .next (s.putStroke e { st with pc := if b then branchTo s.iss.pc f else s.iss.pc + 12 }) := by
  rw [exec_bra_compare I hp, State.strokeSplit]
  simp only [hp, hr, hs]
  rfl

theorem exec_bra_parts {yes no mixed : Option Box} (hs : splitOf st.box cmp sg h.gneg fa fb l0 nl = .parts yes no mixed) :
    exec (.bra h f) s = .next (s.splitInto e st mixed (inOrder (st.tx s) (st.ty s)
      ((yes.map fun b => st.part b (branchTo s.iss.pc f)).toList ++ (no.map fun b => st.part b (s.iss.pc + 12)).toList))) := by
  rw [exec_bra_compare I hp, State.strokeSplit]
  simp only [hp, hr, hs]
  cases yes <;> cases no <;> cases mixed <;> rfl

end

/-! ## JOIN of strokes (R38) -/

section
variable {s : State} {c : Nat} {k : Stroke}

/-- The strokes of a core that are of a stroke's chunk and role. -/
def State.kin (s : State) (c : Nat) (k : Stroke) : SMap Stroke := (s.core c).strokes.filter fun x => sameKin k x.2

variable (hm : firstMerge (kinOrder (s.launchWord k.ctx k.launch 4) (s.launchWord k.ctx k.launch 5) (s.kin c k)) = none)
include hm

/-- Where no pair qualifies to merge, the strokes stay. -/
theorem mergeAll_none (fuel : Nat) :
    mergeAll (s.launchWord k.ctx k.launch 4) (s.launchWord k.ctx k.launch 5) (sameKin k) fuel (s.core c).strokes = (s.core c).strokes := by
  cases fuel with
  | zero => rfl
  | succ n =>
    rw [mergeAll]
    split
    · rfl
    · next hs => cases hm.symm.trans hs

theorem joinSettle_waits (hw : ∃ x ∈ s.kin c k, x.2.joining = false) : s.joinSettle c k = s.modCore c id := by
  obtain ⟨x, hx, hj⟩ := hw
  have some_ : ¬((s.kin c k).all fun x => x.2.joining) = true := fun ha => by
    rw [List.all_eq_true.1 ha x hx] at hj
    cases hj
  unfold State.joinSettle State.modCore
  simp only [mergeAll_none hm]
  exact congrArg _ (if_neg some_)

theorem joinSettle_goes (ha : ∀ x ∈ s.kin c k, x.2.joining = true) {pc : Nat}
    (hpc : minOf ((s.kin c k).map fun x => x.2.pc.toNat) = some pc) :
    ((s.joinSettle c k).core c).strokes = (s.core c).strokes.map fun x =>
      if sameKin k x.2 && x.2.pc.toNat == pc then (x.1, { x.2 with joining := false, pc := x.2.pc + 12 }) else x := by
  unfold State.joinSettle
  simp only [State.core_modCore, mergeAll_none hm]
  refine (congrArg Core.strokes (if_pos (List.all_eq_true.2 ha))).trans ?_
  split
  · next hn => cases hpc.symm.trans hn
  · next hs =>
    cases hpc.symm.trans hs
    rfl

end

theorem mergeable_eq_some {a b : Stroke} {u : Box} (h : mergeable a b = some u) :
    (a.joining = true ∧ b.joining = true ∧ a.pc = b.pc ∧ a.v = b.v ∧ a.s = b.s ∧ a.p = b.p) ∧ a.box.join b.box = some u := by
  unfold mergeable at h
  split at h
  · next hc => simpa [and_assoc] using And.intro hc h
  · cases h

/-- The union of adjacent boxes holds what either holds. -/
theorem Box.join_holds {a b u : Box} (h : a.join b = some u) (ha : a.x0 ≤ a.x1 ∧ a.y0 ≤ a.y1 ∧ a.z0 ≤ a.z1)
    (hb : b.x0 ≤ b.x1 ∧ b.y0 ≤ b.y1 ∧ b.z0 ≤ b.z1) (x y z : Nat) :
    (u.x0 ≤ x ∧ x ≤ u.x1 ∧ u.y0 ≤ y ∧ y ≤ u.y1 ∧ u.z0 ≤ z ∧ z ≤ u.z1) ↔
      (a.x0 ≤ x ∧ x ≤ a.x1 ∧ a.y0 ≤ y ∧ y ≤ a.y1 ∧ a.z0 ≤ z ∧ z ≤ a.z1) ∨
        (b.x0 ≤ x ∧ x ≤ b.x1 ∧ b.y0 ≤ y ∧ y ≤ b.y1 ∧ b.z0 ≤ z ∧ z ≤ b.z1) := by
  unfold Box.join at h
  dsimp only at h
  split at h
  · next hc =>
    cases h
    simp only [Bool.or_eq_true, Bool.and_eq_true, beq_iff_eq] at hc
    simp only [Nat.min_eq_min, Nat.max_eq_max]
    rcases hc with (hc | hc) | hc <;> omega
  · cases h

/-- Settles O17: each instruction of the table by its closure, the others by the inking of an empty one; a split by the order of its
parts, and the strokes that wait by the one merge pass that finds no pair. -/
theorem strokeInstructions : Obligations.StrokeInstructions := by
  unfold Obligations.StrokeInstructions
  refine ⟨⟨?arith, ?moves, ?control⟩, ?outside, ⟨?falseGuard, ?compareGuard⟩, ?loads, ?others, ?settle, ?merge⟩
  case arith =>
    intro s h f e st a b st1 gives hf ha hb
    obtain ⟨add, sub, mul, mul', shl, sel⟩ := exec_arith_stroke (h := h) (e := e) hf ha hb
    exact ⟨add, sub, mul, mul', shl, sel, exec_icmp_stroke hf ha hb⟩
  case moves =>
    exact fun s h f e st => ⟨fun I _ _ => exec_mov_stroke I, fun I _ => exec_movi_stroke I, fun I _ _ _ _ => exec_movs_stroke I⟩
  case control =>
    exact fun s h f e st => ⟨exec_nop_stroke, exec_yield_stroke, exec_bra_stroke, fun I _ => exec_call_stroke I,
      fun I _ ha hx => (exec_indirect_stroke ha hx).1 I, fun I _ ha hx => (exec_indirect_stroke ha hx).2 I⟩
  case outside =>
    exact fun s i e he hi hm => exec_outsideTable he hi (by simpa [tableMajors] using hm)
  case falseGuard =>
    intro s h e st hg st1 passes
    exact ⟨fun f a b hf ha hb => exec_arith_passes hf ha hb hg, fun f as ha ht => exec_mov_passes hg ha ht,
      fun f hc => exec_load_passes hg hc,
      fun f x ha => exec_indirect_passes ha hg, fun f a ha hu hd => exec_sizesel_passes hg ha hu hd, fun f ht => exec_movi_passes hg ht,
      fun f as ds t ha hd ht hu => exec_movs_passes hg ha hd ht hu, fun f => ⟨exec_bra_passes hg, exec_join_passes hg,
        exec_exit_passes hg,
        fun I => issue_passes I hg rfl, fun I => issue_passes I hg rfl, exec_call_passes hg⟩⟩
  case compareGuard =>
    exact fun s i h e st he hs hi hg hm => exec_noGuard he hs hi hg hm
  case loads =>
    intro s h f e st va st1 n c regs watch hc hv hw i sc o hi I
    obtain ⟨body, x⟩ := exec_load_eq (s := s) hi
    refine ⟨fun y t hy => x.trans (issueIf_faults I (strokeLoad_fails hv hw hy)), fun pa pte t hy => ?_⟩
    refine ⟨fun y hn st2 hs => x.trans (issueIf_runs I hc ?_), fun hn hl hh st2 hs => x.trans (issueIf_runs I hc ?_)⟩
    · rw [strokeLoad_near hv hw hy hn]
      exact congrArg (Option.map _) hs
    · rw [strokeLoad_home hv hw hy hn hl hh]
      exact congrArg (Option.map _) hs
  case others =>
    intro s h f e st c st1
    refine ⟨exec_join_stroke, exec_exit_stroke, exec_ink_stroke, fun I x t ha hx hd ht => exec_callx_stroke ha hx hd ht I,
      fun I l a t hl ha hu hd hw => ⟨fun x => exec_sizesel_fails I hl hw,
        fun rec hx h4 ht => exec_sizesel_fits I hl hw ha hu hd hx rfl h4 ht⟩,
      fun I cmp sg fa fb l0 nl hp hr => ⟨exec_bra_inks I hp hr, fun b => exec_bra_whole I hp hr, fun yes no mixed hs => ?_⟩⟩
    have split := exec_bra_parts I hp hr hs
    have into {xs ys : List Stroke} (hx : xs = ys) : (.next (s.splitInto e st mixed xs) : Res) = .next (s.splitInto e st mixed ys) := by
      rw [hx]
    refine ⟨fun y n hy hn => ⟨fun lt => ?_, fun gt => ?_⟩, fun y hy hn => ?_, fun n hy hn => ?_, fun hy hn => ?_⟩
    all_goals
      refine split.trans ?_
      rw [hy, hn]
    · exact into (inOrder_lt lt)
    · exact into (inOrder_gt gt)
    · exact into inOrder_one
    · exact into inOrder_one
    · rfl
  case settle =>
    exact fun s c k hm => ⟨joinSettle_waits hm, fun ha pc hpc => joinSettle_goes hm ha hpc⟩
  case merge =>
    intro a b u hu
    obtain ⟨alike, join⟩ := mergeable_eq_some hu
    exact ⟨alike, fun ax ay az bx by_ bz => Box.join_holds join ⟨ax, ay, az⟩ ⟨bx, by_, bz⟩⟩

end Sys2Proof.Machine

/-! PROOFS of the statements of 05_encoding.md: what the decoder accepts (R84, R85). -/

namespace Sys2Proof.Machine

/-! ## Fields of a word, put together again -/

section
variable {n : Nat} (w : BitVec n)

/-- Two neighbouring fields make one. -/
theorem field_append {hi lo a b : Nat} (h : hi = lo + b) : field w hi a ++ field w lo b = field w lo (a + b) :=
  BitVec.extractLsb'_append_extractLsb'_eq_extractLsb' h

theorem bit1_getLsbD (i : Nat) : bit1 (w.getLsbD i) = field w i 1 := by
  refine BitVec.eq_of_getLsbD_eq fun j hj => ?_
  obtain rfl : j = 0 := by omega
  simp [bit1, field]

theorem ofFin_fin8 (x : BitVec 3) : (BitVec.ofFin (fin8 x) : BitVec 3) = x := rfl

end

/-! ## Codes: what a code names has that code -/

theorem Konst.code_ofCode {n : Nat} {c : Konst} (h : Konst.ofCode n = some c) : c.code = n := by
  unfold Konst.ofCode at h
  split at h <;> cases h <;> rfl

theorem Opnd.field_ofField {x : BitVec 9} {o : Opnd} (h : Opnd.ofField x = some o) : o.field = x := by
  have lt := x.isLt
  unfold Opnd.ofField at h
  split at h
  · cases h
    exact BitVec.ofNat_toNat ..
  · split at h
    · cases h
      refine BitVec.eq_of_toNat_eq ?_
      simp only [Opnd.field, BitVec.toNat_ofNat]
      omega
    · obtain ⟨c, hc, rfl⟩ := Option.map_eq_some_iff.1 h
      refine BitVec.eq_of_toNat_eq ?_
      simp only [Opnd.field, BitVec.toNat_ofNat, Konst.code_ofCode hc]
      omega

theorem Ty.code_ofCode {x : BitVec 5} {t : Ty} (h : Ty.ofCode x.toNat = some t) : t.code = x := by
  refine BitVec.eq_of_toNat_eq ?_
  unfold Ty.ofCode at h
  split at h <;> cases h <;> simp only [*] <;> rfl

theorem Size.code_ofCode {x : BitVec 3} {z : Size} (h : Size.ofCode x.toNat = some z) : z.code = x := by
  refine BitVec.eq_of_toNat_eq ?_
  unfold Size.ofCode at h
  split at h <;> cases h <;> simp only [*] <;> rfl

theorem Scope.code_ofCode {x : BitVec 3} {sc : Scope} (h : Scope.ofCode x.toNat = some sc) : sc.code = x := by
  refine BitVec.eq_of_toNat_eq ?_
  unfold Scope.ofCode at h
  split at h <;> cases h <;> simp only [*] <;> rfl

theorem Policy.code_ofCode (x : BitVec 2) : (Policy.ofCode x).code = x := by
  revert x
  decide

theorem Order.code_ofCode (x : BitVec 2) : (Order.ofCode x).code = x := by
  revert x
  decide

theorem PairOp.minor_ofMinor {isInt : Bool} {x : BitVec 6} {o : PairOp} (h : PairOp.ofMinor isInt x.toNat = some o) :
    o.minor = x ∧ o.isInt = isInt := by
  rw [← BitVec.toNat_inj]
  unfold PairOp.ofMinor at h
  cases isInt
  all_goals
    simp only [Bool.false_eq_true, if_false, if_true] at h
    split at h <;> cases h <;> simp only [*] <;> exact ⟨rfl, rfl⟩

/-! ## Each format: the parsed fields give the word back -/

section
variable {w : W96}

theorem encHdr_parseHdr : encHdr (field w 88 8).toNat (parseHdr w) = field w 78 18 := by
  simp only [encHdr, parseHdr, ofFin_fin8, bit1_getLsbD, BitVec.ofNat_toNat, BitVec.setWidth_eq, field_append]

theorem encOps_ofField {d a b : Opnd} (hd : Opnd.ofField (field w 69 9) = some d) (ha : Opnd.ofField (field w 60 9) = some a)
    (hb : Opnd.ofField (field w 51 9) = some b) : encOps d a b = field w 51 27 := by
  simp only [encOps, Opnd.field_ofField hd, Opnd.field_ofField ha, Opnd.field_ofField hb, field_append]

theorem encC_parseC {f : CF} (h : parseC w = .ok f) : encC (field w 88 8).toNat (parseHdr w) f = w := by
  unfold parseC at h
  split at h
  · next hd ha hb =>
    cases h
    simp only [encC, encHdr_parseHdr, encOps_ofField hd ha hb, field_append]
    exact BitVec.extractLsb'_eq_self
  · cases h

theorem encE_parseE {f : EF} (h : parseE w = .ok f) : encE (field w 88 8).toNat (parseHdr w) f = w := by
  unfold parseE at h
  split at h
  · next hd ha hb =>
    cases h
    simp only [encE, encHdr_parseHdr, encOps_ofField hd ha hb, BitVec.ofFin_toFin, field_append]
    exact BitVec.extractLsb'_eq_self
  · cases h

theorem encM_parseM {f : MF} (h : parseM w = .ok f) : encM (field w 88 8).toNat (parseHdr w) f = w := by
  unfold parseM at h
  split at h
  · next hd ha hb =>
    split at h
    · next hz hc =>
      cases h
      simp only [encM, encHdr_parseHdr, encOps_ofField hd ha hb, Size.code_ofCode hz, Scope.code_ofCode hc, Policy.code_ofCode,
        Order.code_ofCode, bit1_getLsbD, ofFin_fin8, field_append]
      exact BitVec.extractLsb'_eq_self
    · cases h
  · cases h

theorem encV_parseV {f : VF} (h : parseV w = .ok f) : encV (field w 88 8).toNat (parseHdr w) f = w := by
  unfold parseV at h
  split at h
  · next hd ha hb =>
    split at h
    case isTrue immediate =>
      split at h
      · next ht =>
        cases h
        have one : bit1 true = field w 50 1 := by rw [← bit1_getLsbD, immediate]
        simp only [encV, encHdr_parseHdr, Option.isSome_some, if_true, encOps_ofField hd ha hb, encVFn, Ty.code_ofCode ht, one,
          bit1_getLsbD, ofFin_fin8, field_append]
        exact BitVec.extractLsb'_eq_self
      · cases h
    case isFalse noImmediate =>
      split at h
      · next hc ht =>
        cases h
        have zero : bit1 false = field w 50 1 := by rw [← bit1_getLsbD, Bool.eq_false_of_not_eq_true noImmediate]
        simp only [encV, encHdr_parseHdr, Option.isSome_none, Bool.false_eq_true, if_false, encOps_ofField hd ha hb, encVFn,
          Opnd.field_ofField hc, Ty.code_ofCode ht, zero, bit1_getLsbD, ofFin_fin8, field_append]
        exact BitVec.extractLsb'_eq_self
      · cases h
      · cases h
  · cases h

theorem encHalf_parseHalf {isInt : Bool} {m : BitVec 6} {d a b : BitVec 9} {p : PairHalf} (h : parseHalf isInt m d a b = .ok p) :
    encHalf p = m ++ d ++ a ++ b ∧ p.op.isInt = isInt := by
  unfold parseHalf at h
  split at h
  · next ho hd ha hb =>
    cases h
    obtain ⟨minor, cls⟩ := PairOp.minor_ofMinor ho
    rw [encHalf, minor, Opnd.field_ofField hd, Opnd.field_ofField ha, Opnd.field_ofField hb]
    exact ⟨rfl, cls⟩
  · cases h
  · cases h

theorem encP_parseP {f : PF} (h : parseP w = .ok f) : encP (field w 88 8).toNat (parseHdr w) f = w ∧
    f.op0.op.isInt = w.getLsbD 88 ∧ f.op1.op.isInt = w.getLsbD 89 := by
  unfold parseP at h
  split at h
  · next h0 h1 =>
    obtain ⟨half0, int0⟩ := encHalf_parseHalf h0
    obtain ⟨half1, int1⟩ := encHalf_parseHalf h1
    split at h
    · next low =>
      cases h
      refine ⟨?_, int0, int1⟩
      simp only [encP, encHdr_parseHdr, half0, half1, ← low, bit1_getLsbD, ofFin_fin8, field_append]
      exact BitVec.extractLsb'_eq_self
    · cases h
  · cases h
  · cases h

end

/-! ## Each major opcode: the word of its instruction -/

section
variable {m : Nat} {h : Hdr}

theorem encode_vCtor {f : VF} {k : Hdr → VF → Instr} (hk : vCtor m f = some k) : encode (k h f) = some (encV m h f) := by
  unfold vCtor at hk
  split at hk
  -- GETS of register 3 is the row CYCLO_READ; SAMPLE has a row for each sub-function
  case h_78 =>
    cases hk
    split <;> rfl
  case h_79 => split at hk <;> cases hk <;> rfl
  all_goals cases hk <;> rfl

theorem encode_mCtor {f : MF} {k : Hdr → MF → Instr} (hk : mCtor m f = some k) : encode (k h f) = some (encM m h f) := by
  unfold mCtor at hk
  split at hk
  -- CCTL has a row for each sub-function
  case h_24 => split at hk <;> cases hk <;> rfl
  all_goals cases hk <;> rfl

theorem encode_eCtor {f : EF} {k : Hdr → EF → Instr} (hk : eCtor m f = some k) : encode (k h f) = some (encE m h f) := by
  unfold eCtor at hk
  split at hk
  -- CPY and MSTAT have a row for each sub-function
  case h_43 | h_44 => split at hk <;> cases hk <;> rfl
  all_goals cases hk <;> rfl

theorem encode_cCtor {f : CF} {k : Hdr → CF → Instr} (hk : cCtor m = some k) : encode (k h f) = some (encC m h f) := by
  unfold cCtor at hk
  split at hk <;> cases hk <;> rfl

end

/-! ## The decoder -/

theorem accept_eq_ok {i j : Instr} (h : accept i = .ok j) : i = j ∧ j.wf = true := by
  unfold accept at h
  split at h
  · next wf =>
    cases h
    exact ⟨rfl, wf⟩
  · cases h

theorem build_eq_ok {F : Type} {h : Hdr} {p : Except DecodeError F} {mk : F → Option (Hdr → F → Instr)} {i : Instr}
    (hb : build h p mk = .ok i) : ∃ f k, p = .ok f ∧ mk f = some k ∧ k h f = i ∧ i.wf = true := by
  unfold build at hb
  split at hb
  · cases hb
  · next f =>
    split at hb
    · cases hb
    · next k hk => exact ⟨f, k, rfl, hk, accept_eq_ok hb⟩

/-- The instruction of a word: a constructor that the word's major opcode names, on the fields that the word holds. -/
inductive Decodes (w : W96) : Instr → Prop where
  | v {f : VF} {k : Hdr → VF → Instr} (hp : parseV w = .ok f) (hk : vCtor (field w 88 8).toNat f = some k) :
    Decodes w (k (parseHdr w) f)
  | m {f : MF} {k : Hdr → MF → Instr} (hp : parseM w = .ok f) (hk : mCtor (field w 88 8).toNat f = some k) :
    Decodes w (k (parseHdr w) f)
  | e {f : EF} {k : Hdr → EF → Instr} (hp : parseE w = .ok f) (hk : eCtor (field w 88 8).toNat f = some k) :
    Decodes w (k (parseHdr w) f)
  | c {f : CF} {k : Hdr → CF → Instr} (hp : parseC w = .ok f) (hk : cCtor (field w 88 8).toNat = some k) :
    Decodes w (k (parseHdr w) f)
  | p {f : PF} (hp : parseP w = .ok f) (hm : 0xE0 ≤ (field w 88 8).toNat ∧ (field w 88 8).toNat < 0xE4) :
    Decodes w (.pair (parseHdr w) f)

section
variable {w : W96} {i : Instr}

theorem decodes_of_build {F : Type} {p : Except DecodeError F} {mk : F → Option (Hdr → F → Instr)}
    (hb : build (parseHdr w) p mk = .ok i) (hd : ∀ {f k}, p = .ok f → mk f = some k → Decodes w (k (parseHdr w) f)) :
    Decodes w i ∧ i.wf = true := by
  obtain ⟨f, k, hp, hk, rfl, wf⟩ := build_eq_ok hb
  exact ⟨hd hp hk, wf⟩

/-- What the decoder accepts: Table 5-5 gives the format of each range of major opcodes. -/
theorem decodes_of_decode (h : decode w = .ok i) : Decodes w i ∧ i.wf = true := by
  unfold decode at h
  dsimp only at h
  split at h
  · exact decodes_of_build h .v
  split at h
  · exact decodes_of_build h .c
  split at h
  · exact decodes_of_build h .m
  split at h
  · exact decodes_of_build h .e
  split at h
  · exact decodes_of_build h .m
  split at h
  · exact decodes_of_build h .e
  split at h
  · exact decodes_of_build h .v
  split at h
  · next hm =>
    refine decodes_of_build h fun hp hk => ?_
    cases hk
    exact .p hp hm
  · cases h

/-- The classes of a pair's operations are bits 0 and 1 of its major opcode (R77). -/
theorem pairMajor_eq (hm : 0xE0 ≤ (field w 88 8).toNat ∧ (field w 88 8).toNat < 0xE4) :
    0xE0 + (if w.getLsbD 88 then 1 else 0) + (if w.getLsbD 89 then 2 else 0) = (field w 88 8).toNat := by
  have classes : ∀ x : BitVec 8, 0xE0 ≤ x.toNat ∧ x.toNat < 0xE4 →
      0xE0 + (if x.getLsbD 0 then 1 else 0) + (if x.getLsbD 1 then 2 else 0) = x.toNat := by decide
  simpa [field] using classes (field w 88 8) hm

theorem encode_pair {f : PF} (hp : parseP w = .ok f) (hm : 0xE0 ≤ (field w 88 8).toNat ∧ (field w 88 8).toNat < 0xE4) :
    encode (.pair (parseHdr w) f) = some w := by
  obtain ⟨word, int0, int1⟩ := encP_parseP hp
  have enc : encode (.pair (parseHdr w) f) =
    some (encP (0xE0 + (if f.op0.op.isInt then 1 else 0) + (if f.op1.op.isInt then 2 else 0)) (parseHdr w) f) := rfl
  rw [enc, int0, int1, pairMajor_eq hm, word]

theorem Decodes.encode_eq (h : Decodes w i) : encode i = some w := by
  cases h with
  | v hp hk => rw [encode_vCtor hk, encV_parseV hp]
  | m hp hk => rw [encode_mCtor hk, encM_parseM hp]
  | e hp hk => rw [encode_eCtor hk, encE_parseE hp]
  | c hp hk => rw [encode_cCtor hk, encC_parseC hp]
  | p hp hm => exact encode_pair hp hm

end

/-! ## Reserved major opcodes -/

/-- The reserved major opcodes of Table 5-15. -/
def reservedMajors : List Nat :=
  [0x1F, 0x3E, 0x3F, 0x5F] ++ rangeFrom 0x49 7 ++ rangeFrom 0x75 11 ++ rangeFrom 0x96 10 ++ rangeFrom 0xAD 3
    ++ rangeFrom 0xBC 4 ++ rangeFrom 0xC9 23 ++ rangeFrom 0xE4 28

theorem none_of_reserved {α : Type} {mk : Nat → Option α} (all : (reservedMajors.all fun m => (mk m).isNone) = true) {m : Nat}
    (hm : m ∈ reservedMajors) : mk m = none :=
  Option.isNone_iff_eq_none.1 (List.all_eq_true.1 all m hm)

/-- No format names an instruction by a reserved major, and no pair has one. -/
theorem not_decodes_of_reserved {w : W96} {i : Instr} (hr : (field w 88 8).toNat ∈ reservedMajors) : ¬Decodes w i := by
  have noPair : ∀ m ∈ reservedMajors, ¬(0xE0 ≤ m ∧ m < 0xE4) := by decide
  intro h
  cases h with
  | @v f _ _ hk => cases hk.symm.trans (none_of_reserved (mk := fun m => vCtor m f) rfl hr)
  | @m f _ _ hk => cases hk.symm.trans (none_of_reserved (mk := fun m => mCtor m f) rfl hr)
  | @e f _ _ hk => cases hk.symm.trans (none_of_reserved (mk := fun m => eCtor m f) rfl hr)
  | c _ hk => cases hk.symm.trans (none_of_reserved (mk := cCtor) rfl hr)
  | p _ hm => exact noPair _ hr hm

/-- Settles O2: a word that decodes is put together again from the fields that its format parses, and no format names an instruction by a
reserved major. -/
theorem decoderExact : Obligations.DecoderExact := by
  unfold Obligations.DecoderExact
  refine ⟨fun w i h => ?accepted, fun w hr => ?reserved⟩
  case accepted =>
    obtain ⟨decodes, wf⟩ := decodes_of_decode h
    exact ⟨wf, decodes.encode_eq⟩
  case reserved =>
    cases h : decode w with
    | error e => exact ⟨e, rfl⟩
    | ok i => exact absurd (decodes_of_decode h).1 (not_decodes_of_reserved hr)

end Sys2Proof.Machine

/-! PROOFS of the statements of 05_encoding.md: faults of the whole set (R27, R48, R61, R69, R85, R86, R163, R325). -/

namespace Sys2Proof.Machine

/-! ## The fetch of a PC set (R48, R61, R86, R163) -/

/-- A fold whose steps read the present issue and keep it reads the issue that it began with. -/
theorem foldl_readIss (g : Issue → State → Nat → State) (keeps : ∀ n t l, (g n t l).iss = t.iss) (ls : List Nat) (s : State) :
    ls.foldl (fun t l => g t.iss t l) s = ls.foldl (g s.iss) s := by
  induction ls generalizing s with
  | nil => rfl
  | cons l ls ih => rw [List.foldl_cons, List.foldl_cons, ih, keeps]

section
variable {s v : State} {bs : List Byte} {x : DecodeError} {f : FaultRec}

theorem runIssue_set (hs : s.iss.stroke = none) : s.runIssue = s.runSet := by
  rw [State.runIssue, hs]

theorem runSet_waits (hw : s.fetchWaits s.iss.core s.issGroup.ctx s.iss.pc = true) :
    s.runSet = .next (s.iss.lanes.foldl (fun t l => t.modLane s.iss.core s.iss.slot l fun x =>
      { x with wait := .cond (.reach s.iss.pc 12) }) s) :=
  (if_pos hw).trans (congrArg _ (foldl_readIss
    (fun n t l => t.modLane n.core n.slot l fun x => { x with wait := .cond (.reach n.pc 12) }) (fun _ _ _ => rfl) _ s))

theorem runSet_fetchFails (hw : s.fetchWaits s.iss.core s.issGroup.ctx s.iss.pc = false)
    (hf : s.fetch s.iss.core s.issGroup.ctx (s.iss.slot == 63) s.iss.pc = (.error f, v)) : s.runSet = .next (v.fetchFault f) := by
  rw [State.issGroup] at hw hf
  rw [State.runSet, hw, hf]
  rfl

theorem runSet_undecodable (hw : s.fetchWaits s.iss.core s.issGroup.ctx s.iss.pc = false)
    (hf : s.fetch s.iss.core s.issGroup.ctx (s.iss.slot == 63) s.iss.pc = (.ok bs, v)) (hd : decodeBytes bs = .error x) :
    s.runSet = .next (v.faultSet cILLEGAL) := by
  rw [State.issGroup] at hw hf
  simp only [State.runSet, hw, hf, hd, Bool.false_eq_true, if_false]

end

/-! ## The fetch of a stroke (R41, R61, R86, R163) -/

section
variable {s v : State} {k : Nat} {st : Stroke} {bs : List Byte} {x : DecodeError} {f : FaultRec} (hk : s.iss.stroke = some k)
  (hs : s.strokeAt s.iss.core k = some st)
include hk hs

theorem runIssue_stroke_waits (hw : s.fetchWaits s.iss.core st.ctx s.iss.pc = true) : s.runIssue = .next s := by
  simp only [State.runIssue, hk, State.runStroke, hs, hw, if_true]

theorem runIssue_stroke_fetchFails (hw : s.fetchWaits s.iss.core st.ctx s.iss.pc = false)
    (hf : s.fetch s.iss.core st.ctx false s.iss.pc = (.error f, v)) : s.runIssue = .next v.strokeInk := by
  simp only [State.runIssue, hk, State.runStroke, hs, hw, hf, Bool.false_eq_true, if_false]

theorem runIssue_stroke_undecodable (hw : s.fetchWaits s.iss.core st.ctx s.iss.pc = false)
    (hf : s.fetch s.iss.core st.ctx false s.iss.pc = (.ok bs, v)) (hd : decodeBytes bs = .error x) :
    s.runIssue = .next v.strokeInk := by
  simp only [State.runIssue, hk, State.runStroke, hs, hw, hf, hd, Bool.false_eq_true, if_false]

end

/-! ## Registers beyond the allotment (R27, R69, R86) -/

section
variable {s : State} {i : Instr} {h : Hdr} {cond : State → Stroke → Bool} {closed : Closed} {body : Env → State → State}

theorem groupIssue_beyond (hw : i.within (s.issGroup.allot s.iss.slot) = false) : s.groupIssue i h body = s.faultSet cILLEGAL :=
  if_neg (ne_true_of_eq_false hw)

theorem issueIf_beyond (hs : s.iss.stroke = none) (hw : i.within (s.issGroup.allot s.iss.slot) = false) :
    s.issueIf i h cond closed body = .next (s.faultSet cILLEGAL) := by
  rw [State.issueIf, hs, ← groupIssue_beyond hw]

theorem privIssue_beyond {ok : Bool} (hs : s.iss.stroke = none) (hw : i.within (s.issGroup.allot s.iss.slot) = false) :
    s.privIssue i h ok body = .next (s.faultSet cILLEGAL) := by
  rw [State.issGroup] at hw
  exact (if_neg (by simp [hw])).trans (issueIf_beyond hs hw)

end

/-- Every instruction checks its registers against the allotment before it does anything else. -/
theorem exec_beyond {s : State} {i : Instr} (hi : i.hdr.isSome = true) (hs : s.iss.stroke = none)
    (hw : i.within (s.issGroup.allot s.iss.slot) = false) : exec i s = .next (s.faultSet cILLEGAL) := by
  -- an event has no header
  cases i
  all_goals cases hi
  case bra => rw [exec_bra, execBra, hs, groupIssue_beyond hw]
  case join => rw [exec_join, execJoin, hs, groupIssue_beyond hw]
  case exit => rw [exec_exit, execExit, hs, groupIssue_beyond hw]
  case ink => rw [exec_ink, execInk, hs, groupIssue_beyond hw]
  case gets | sets | trapret => exact privIssue_beyond hs hw
  case mldt =>
    -- MLDT also tests the registers that its shape asks for, with the same fault
    rw [exec_mldt, execMldt]
    split
    · rfl
    · exact issueIf_beyond hs hw
  all_goals exact issueIf_beyond hs hw

/-- Settles O5: the fetch by the branches of the issue, and the allotment by the check that every instruction's issue begins with. -/
theorem wholeInstructionFaults : Obligations.WholeInstructionFaults := by
  unfold Obligations.WholeInstructionFaults
  exact ⟨⟨fun _ _ _ _ hw hf hd hs => (runIssue_set hs).trans (runSet_undecodable hw hf hd),
    fun _ _ _ hw hf hs => (runIssue_set hs).trans (runSet_fetchFails hw hf),
    fun _ _ _ _ _ _ hk hs => runIssue_stroke_undecodable hk hs,
    fun _ _ _ _ _ hk hs => runIssue_stroke_fetchFails hk hs,
    fun _ hs hw => (runIssue_set hs).trans (runSet_waits hw),
    fun _ _ _ hk hs => runIssue_stroke_waits hk hs⟩,
    fun _ _ => exec_beyond⟩

end Sys2Proof.Machine

/-! PROOFS of the statements of 07_arithmetic.md: floating-point values and instructions (R94 to R104, R132 to R136). -/

namespace Sys2Proof.Machine

/-! ## The instructions write one register (R132 to R136) -/

section
variable {s : State} {h : Hdr} {f : VF} {i : Instr}

theorem f32Op_gives (op : Nat → Nat → Nat → Nat) (he : exec i s = f32Op i h f op s) : Gives s i h f.d fun l =>
    [BitVec.ofNat 32 (op ((s.env h).fA l f fF32) ((s.env h).fB l f fF32) ((s.env h).src32 l f.d).toNat)] := gives_of he rfl rfl

theorem transOp_gives {t : Trans} (he : exec i s = transOp i t h f s) :
    Gives s i h f.d fun l => [BitVec.ofNat 32 (transBits t (VF.rnd f) ((s.env h).fA l f fF32))] := f32Op_gives _ he

end

/-! ## Encodings of the special values (R95, R96, R101, R103, R104) -/

theorem FVal.isNan_iff {v : FVal} : v.isNan = true ↔ v = .nan := by cases v <;> simp [FVal.isNan]

theorem ieee_of_mem {f : Fmt} (h : f ∈ [fF32, fF16, fBF16]) : f.ieee = true := by
  simp only [List.mem_cons, List.not_mem_nil, or_false] at h
  rcases h with rfl | rfl | rfl <;> rfl

theorem decode_infBits {f : Fmt} (h : f.ieee = true) (neg : Bool) : f.decode (f.infBits neg) = .inf neg := by
  have fields := decode_fields f neg (2 ^ f.eb - 1) 0 (Nat.sub_lt (by positivity) Nat.one_pos) (by positivity)
  simpa [Fmt.infBits, signBit, h] using fields

theorem overflow_ieee {f : Fmt} (h : f.ieee = true) (nof neg : Bool) :
    f.decode (f.overflow .rne nof neg) = .inf neg ∧ f.overflow .rtz nof neg = f.maxBits neg ∧
      f.decode (f.overflow .rup nof false) = .inf false ∧ f.overflow .rup nof true = f.maxBits true ∧
      f.overflow .rdn nof false = f.maxBits false ∧ f.decode (f.overflow .rdn nof true) = .inf true ∧
      ∀ r, f.decode (f.encode r nof (.inf neg)) = .inf neg := by
  simp [Fmt.overflow, Fmt.encode, h, decode_infBits h]

theorem overflow_narrow8 {f : Fmt} (h : f ∈ [fF8A, fF8B]) (r : Rnd) (nof neg : Bool) :
    f.encode r nof (.inf neg) = f.overflow r nof neg ∧ f.overflow r nof neg = if nof then 0x80 else if neg then 0xFF else 0x7F := by
  simp only [List.mem_cons, List.not_mem_nil, or_false] at h
  rcases h with rfl | rfl <;> cases nof <;> cases neg <;> exact ⟨rfl, rfl⟩

theorem overflow_f4 (r : Rnd) (nof neg : Bool) :
    fF4.encode r nof (.inf neg) = fF4.overflow r nof neg ∧ fF4.overflow r nof neg = if neg then 0xF else 0x7 := by
  cases nof <;> cases neg <;> exact ⟨rfl, rfl⟩

theorem maxBits_values (neg : Bool) : fF32.maxBits neg = (if neg then 0xFF7FFFFF else 0x7F7FFFFF) ∧
    fF16.maxBits neg = (if neg then 0xFBFF else 0x7BFF) ∧ fBF16.maxBits neg = (if neg then 0xFF7F else 0x7F7F) ∧
    fF8A.maxBits neg = (if neg then 0xFF else 0x7F) ∧ fF8B.maxBits neg = (if neg then 0xFF else 0x7F) ∧
    fF4.maxBits neg = if neg then 0xF else 0x7 := by
  cases neg <;> decide

/-! ## Rounding (R99) -/

theorem mag_one (e : Int) : mag 1 e = 2 ^ e := by simp [mag]

/-- The quantum's place: a magnitude lies below 2^(fb + 1) quanta and, but at the least quantum, at or above 2^fb of them. -/
theorem quantum_place (f : Fmt) {m : Nat} (e : Int) (hm : m ≠ 0) :
    let q := f.quantum m e
    (FVal.fin false m e).diff (.fin false 1 (q + f.fb + 1)) < 0 ∧ 1 - (f.bias : Int) - f.fb ≤ q ∧
      (q = 1 - (f.bias : Int) - f.fb ∨ 0 ≤ (FVal.fin false m e).diff (.fin false 1 (q + f.fb))) := by
  obtain ⟨above, least, place⟩ := quantum_spec f m e hm
  refine ⟨(diff_neg_iff ..).2 (by rwa [mag_one]), least, place.imp_right fun h => ?_⟩
  rw [← Int.not_lt, diff_neg_iff, mag_one]
  exact not_lt.2 h

/-! ## The special cases of exact arithmetic (R100, R101, R132) -/

section
variable {r : Rnd} {x y : FVal}

theorem FVal.add_nan (h : x = .nan ∨ y = .nan) : x.add r y = .nan := by
  rcases h with rfl | rfl
  · rfl
  · cases x <;> rfl

theorem FVal.mul_nan (h : x = .nan ∨ y = .nan) : x.mul y = .nan := by
  rcases h with rfl | rfl
  · rfl
  · cases x <;> rfl

theorem FVal.div_nan (h : x = .nan ∨ y = .nan) : x.div y = .nan := by
  rcases h with rfl | rfl
  · rfl
  · cases x <;> rfl

end

section
variable {f : Fmt} {r : Rnd} {a b d : Nat}

theorem arith_nan (h : f.decode a = .nan ∨ f.decode b = .nan) :
    faddBits f r a b = f.canonNan ∧ fsubBits f r a b = f.canonNan ∧ fmulBits f r a b = f.canonNan ∧ fdivBits f r a b = f.canonNan ∧
      ffmaBits f r a b d = f.canonNan := by
  have neg : f.decode a = .nan ∨ (f.decode b).neg = .nan := h.imp_right fun hb => by rw [hb]; rfl
  rw [faddBits, fsubBits, fmulBits, fdivBits, ffmaBits, FVal.add_nan h, FVal.add_nan neg, FVal.mul_nan h, FVal.div_nan h,
    FVal.add_nan (.inl rfl)]
  exact ⟨rfl, rfl, rfl, rfl, rfl⟩

theorem ffma_nan (h : f.decode d = .nan) : ffmaBits f r a b d = f.canonNan := by
  rw [ffmaBits, FVal.add_nan (.inr h)]
  rfl

theorem arith_inf_inf {s u : Bool} (ha : f.decode a = .inf s) (hb : f.decode b = .inf u) :
    faddBits f r a b = f.encode r false (if s = u then .inf s else .nan) ∧
      fsubBits f r a b = f.encode r false (if s = u then .nan else .inf s) ∧
      fmulBits f r a b = f.encode r false (.inf (s != u)) ∧ fdivBits f r a b = f.canonNan := by
  rw [faddBits, fsubBits, fmulBits, fdivBits, ha, hb]
  cases s <;> cases u <;> exact ⟨rfl, rfl, rfl, rfl⟩

theorem arith_inf_fin {m : Nat} {s u : Bool} {e : Int} (ha : f.decode a = .inf s) (hb : f.decode b = .fin u m e) :
    faddBits f r a b = f.encode r false (.inf s) ∧ faddBits f r b a = f.encode r false (.inf s) ∧
      fmulBits f r a b = f.encode r false (if m = 0 then .nan else .inf (s != u)) ∧
      fmulBits f r b a = f.encode r false (if m = 0 then .nan else .inf (u != s)) ∧
      fdivBits f r a b = f.encode r false (.inf (s != u)) ∧ fdivBits f r b a = f.zeroBits (u != s) := by
  rw [faddBits, faddBits, fmulBits, fmulBits, fdivBits, fdivBits, ha, hb]
  exact ⟨rfl, rfl, rfl, rfl, rfl, rfl⟩

theorem div_zero_fin {m : Nat} {s u : Bool} {e g : Int} (ha : f.decode a = .fin s m e) (hb : f.decode b = .fin u 0 g) :
    fdivBits f r a b = f.encode r false (if m = 0 then .nan else .inf (s != u)) := by
  rw [fdivBits, ha, hb]
  rfl

end

/-! ## FMIN and FMAX (R133) -/

section
variable {f : Fmt} {a b : Nat}

theorem fminmax_nan_left (isMax : Bool) (ha : f.decode a = .nan) :
    fminmax f isMax a b = if f.decode b = .nan then f.canonNan else b := by
  simp only [fminmax, ha, FVal.isNan_iff, if_true]

theorem fminmax_nan_right (isMax : Bool) (ha : f.decode a ≠ .nan) (hb : f.decode b = .nan) : fminmax f isMax a b = a := by
  simp only [fminmax, FVal.isNan_iff, ha, hb, if_true, if_false]

/-- Two numbers: the smaller or the greater; two equal ones go by their signs. -/
theorem fminmax_numbers (isMax : Bool) (ha : f.decode a ≠ .nan) (hb : f.decode b ≠ .nan) : fminmax f isMax a b =
    if (f.decode a).diff (f.decode b) = 0 then (if ((f.decode a).isNeg != isMax) = true then a else b)
    else if (decide ((f.decode a).diff (f.decode b) < 0) != isMax) = true then a else b := by
  simp only [fminmax, FVal.isNan_iff, ha, hb, if_false]

theorem fminmax_chooses : let x := f.decode a
    let y := f.decode b
    let lo := fminmax f false a b
    let hi := fminmax f true a b
    (x = .nan → y = .nan → lo = f.canonNan ∧ hi = f.canonNan) ∧ (x = .nan → y ≠ .nan → lo = b ∧ hi = b) ∧
    (x ≠ .nan → y = .nan → lo = a ∧ hi = a) ∧
    (x ≠ .nan → y ≠ .nan → (x.diff y < 0 → lo = a ∧ hi = b) ∧ (0 < x.diff y → lo = b ∧ hi = a) ∧
      (x.diff y = 0 → x.isNeg = true → y.isNeg = false → lo = a ∧ hi = b) ∧
      (x.diff y = 0 → x.isNeg = false → y.isNeg = true → lo = b ∧ hi = a)) := by
  intro x y lo hi
  refine ⟨fun hx hy => ?_, fun hx hy => ?_, fun hx hy => ⟨fminmax_nan_right _ hx hy, fminmax_nan_right _ hx hy⟩, fun hx hy => ?_⟩
  · exact ⟨(fminmax_nan_left _ hx).trans (if_pos hy), (fminmax_nan_left _ hx).trans (if_pos hy)⟩
  · exact ⟨(fminmax_nan_left _ hx).trans (if_neg hy), (fminmax_nan_left _ hx).trans (if_neg hy)⟩
  · have least : lo = _ := fminmax_numbers false hx hy
    have greatest : hi = _ := fminmax_numbers true hx hy
    rw [least, greatest]
    refine ⟨fun h => ?_, fun h => ?_, fun h hn _ => ?_, fun h hn _ => ?_⟩
    · simp [x, y, h, h.ne]
    · simp [x, y, h.ne', h.le]
    · simp [x, y, h, hn]
    · simp [x, y, h, hn]

end

/-! ## The functions of Table 9-3 (R135) -/

theorem trans_nan {a : Nat} (h : fF32.decode a = .nan) (r : Rnd) (t : Trans) : transBits t r a = 0x7FC00000 := by
  unfold transBits
  rw [h]
  cases t <;> rfl

theorem trans_inf {a : Nat} {s : Bool} (h : fF32.decode a = .inf s) (r : Rnd) :
    transBits .rcp r a = (if s then 0x80000000 else 0) ∧ transBits .rsq r a = (if s then 0x7FC00000 else 0) ∧
      transBits .sqrt r a = (if s then 0x7FC00000 else 0x7F800000) ∧ transBits .exp2 r a = (if s then 0 else 0x7F800000) ∧
      transBits .log2 r a = (if s then 0x7FC00000 else 0x7F800000) ∧ transBits .sin r a = 0x7FC00000 ∧
      transBits .cos r a = 0x7FC00000 ∧ transBits .tanh r a = if s then 0xBF800000 else 0x3F800000 := by
  unfold transBits
  rw [h]
  cases s <;> exact ⟨rfl, rfl, rfl, rfl, rfl, rfl, rfl, rfl⟩

theorem trans_zero {a : Nat} {s : Bool} {e : Int} (h : fF32.decode a = .fin s 0 e) (r : Rnd) :
    transBits .rcp r a = (if s then 0xFF800000 else 0x7F800000) ∧ transBits .rsq r a = (if s then 0xFF800000 else 0x7F800000) ∧
      transBits .sqrt r a = a ∧ transBits .exp2 r a = 0x3F800000 ∧ transBits .log2 r a = 0xFF800000 ∧ transBits .sin r a = a ∧
      transBits .cos r a = 0x3F800000 ∧ transBits .tanh r a = a := by
  unfold transBits
  rw [h]
  cases s <;> exact ⟨rfl, rfl, rfl, rfl, rfl, rfl, rfl, rfl⟩

theorem fF32_encode_one (r : Rnd) (neg : Bool) : fF32.encode r false (.fin neg 1 0) = if neg then 0xBF800000 else 0x3F800000 := by
  cases r <;> cases neg <;> decide

/-- Equal magnitudes: the digits of the one with the lesser exponent. -/
theorem eq_of_scaled_eq {m n : Nat} {e g : Int} (h : scaled false m e (min e g) = scaled false n g (min e g)) :
    g ≤ e ∧ m * 2 ^ (e - g).toNat = n ∨ e < g ∧ m = n * 2 ^ (g - e).toNat := by
  simp only [scaled, Bool.false_eq_true, if_false] at h
  rcases le_or_gt g e with hg | hg
  · rw [min_eq_right hg, Int.sub_self, Int.toNat_zero, pow_zero, mul_one] at h
    exact .inl ⟨hg, by exact_mod_cast h⟩
  · rw [min_eq_left hg.le, Int.sub_self, Int.toNat_zero, pow_zero, mul_one] at h
    exact .inr ⟨hg, by exact_mod_cast h⟩

section
variable {m n : Nat} {e : Int} (hn : scaled false m e (min e 0) = scaled false n 0 (min e 0))
include hn

/-- The test for an integer, which EXP2 and SIN make. -/
theorem integer_test : (decide (0 ≤ e) || decide (m % 2 ^ (-e).toNat = 0)) = true := by
  rcases eq_of_scaled_eq hn with ⟨h0, _⟩ | ⟨h0, hd⟩
  · simp [h0]
  · rw [hd, Int.zero_sub]
    simp

theorem integer_value : (if 0 ≤ e then m * 2 ^ e.toNat else m / 2 ^ (-e).toNat) = n := by
  rcases eq_of_scaled_eq hn with ⟨h0, hd⟩ | ⟨h0, hd⟩
  · rw [if_pos h0, ← hd, Int.sub_zero]
  · rw [if_neg (by omega), hd, Int.zero_sub, Nat.mul_div_cancel _ (by positivity)]

end

section
variable {r : Rnd} {a m n : Nat} {s : Bool} {e : Int} (h : fF32.decode a = .fin s m e) (hm : m ≠ 0)
include h hm

theorem rcp_fin : transBits .rcp r a = fF32.encode r false ((FVal.fin false 1 0).div (.fin s m e)) := by
  simp only [transBits, h, if_neg hm]

theorem roots_negative (hs : s = true) :
    transBits .rsq r a = 0x7FC00000 ∧ transBits .sqrt r a = 0x7FC00000 ∧ transBits .log2 r a = 0x7FC00000 := by
  simp only [transBits, h, if_neg hm, hs, if_true, and_self]
  rfl

theorem roots_positive (hs : s = false) :
    transBits .rsq r a = fF32.encode r false (.fin false (rsqrtMag m e).1 (rsqrtMag m e).2) ∧
      transBits .sqrt r a = fF32.encode r false (.fin false (sqrtMag m e).1 (sqrtMag m e).2) := by
  simp only [transBits, h, if_neg hm, hs, Bool.false_eq_true, if_false, and_self]

theorem log2_pow {k : Nat} (hs : s = false) (hk : m = 2 ^ k) : transBits .log2 r a = fF32.encode r false (intVal (e + k)) := by
  have log : Nat.log2 m = k := by rw [hk, Nat.log2_two_pow]
  simp only [transBits, h, if_neg hm, hs, Bool.false_eq_true, if_false, log, if_pos hk]

variable (hn : scaled false m e (min e 0) = scaled false n 0 (min e 0))
include hn

theorem exp2_integer (hb : n ≤ 4096) : transBits .exp2 r a = fF32.encode r false (.fin false 1 (if s then -(n : Int) else n)) := by
  have test := integer_test hn
  have value := integer_value hn
  simp only [transBits, h, if_neg hm, test, if_true, value, show Nat.min n 4096 = n from Nat.min_eq_left hb]

theorem sin_integer : transBits .sin r a = if s then 0x80000000 else 0 := by
  have test := integer_test hn
  simp only [transBits, h, if_neg hm, test, if_true]
  cases s <;> rfl

end

/-- sin(π x) at x = 1/2 and 3/2 modulo 2. -/
theorem sinBits_half {r : Rnd} {k D : Nat} (hD : 0 < D) :
    sinBits r false ((2 * k + 1) * D) (2 * D) = if k % 2 = 0 then 0x3F800000 else 0xBF800000 := by
  have half : (2 * k + 1) * D % (2 * (2 * D)) = (2 * (k % 2) + 1) * D := by
    rw [show 2 * (2 * D) = 4 * D by omega, Nat.mul_mod_mul_right]
    congr 1
    omega
  simp only [sinBits, half]
  have below : ¬2 * D < D := by omega
  rcases Nat.mod_two_eq_zero_or_one k with hk | hk
  · simp only [hk, Nat.mul_zero, Nat.zero_add, Nat.one_mul, below, Nat.lt_irrefl, if_false, if_true]
    exact fF32_encode_one r false
  · have beyond : 2 * D < (2 * 1 + 1) * D := by omega
    have rest : (2 * 1 + 1) * D - 2 * D = D := by omega
    simp only [hk, beyond, rest, Nat.lt_irrefl, if_false, if_true, Nat.one_ne_zero]
    exact fF32_encode_one r true

/-- A magnitude that is half of an odd integer has digits below 1. -/
theorem half_digits {m n : Nat} {e : Int} (ho : n % 2 = 1) (hn : scaled false m e (min e (-1)) = scaled false n (-1) (min e (-1))) :
    e < 0 ∧ 2 * m = n * 2 ^ (-e).toNat := by
  rcases eq_of_scaled_eq hn with ⟨h0, hd⟩ | ⟨h0, hd⟩
  · have fraction : e < 0 := by
      by_contra hp
      rw [show (e - -1).toNat = e.toNat + 1 by omega, pow_succ, ← Nat.mul_assoc] at hd
      omega
    obtain rfl : e = -1 := by omega
    simp only [Int.sub_self, Int.toNat_zero, pow_zero, Nat.mul_one] at hd
    rw [hd]
    exact ⟨fraction, Nat.mul_comm ..⟩
  · refine ⟨by omega, ?_⟩
    rw [hd, show (-e).toNat = (-1 - e).toNat + 1 by omega, pow_succ]
    ring

/-- The integer that COS meets is twice the value, plus one. -/
theorem cos_num {m n D : Nat} (hd : m = n * D) : 2 * m + D = (2 * n + 1) * D := by rw [hd]; ring

section
variable {r : Rnd} {a m n : Nat} {s : Bool} {e : Int} (h : fF32.decode a = .fin s m e) (hm : m ≠ 0)
include h hm

theorem cos_integer (hn : scaled false m e (min e 0) = scaled false n 0 (min e 0)) :
    transBits .cos r a = if n % 2 = 0 then 0x3F800000 else 0xBF800000 := by
  simp only [transBits, h, if_neg hm]
  rcases eq_of_scaled_eq hn with ⟨h0, hd⟩ | ⟨h0, hd⟩
  · rw [Int.sub_zero] at hd
    rw [if_pos h0, hd]
  · rw [Int.zero_sub] at hd
    have num := cos_num hd
    have odd : (2 * n + 1) * 2 ^ (-e).toNat % (2 * 2 ^ (-e).toNat) ≠ 0 := by
      rw [Nat.mul_mod_mul_right]
      have : 0 < 2 ^ (-e).toNat := by positivity
      simp [Nat.add_mod]
    rw [if_neg (by omega), num, if_neg odd, sinBits_half (by positivity)]

theorem cos_half (ho : n % 2 = 1) (hn : scaled false m e (min e (-1)) = scaled false n (-1) (min e (-1))) : transBits .cos r a = 0 := by
  obtain ⟨h0, hd⟩ := half_digits ho hn
  have even : (n + 1) * 2 ^ (-e).toNat = (n + 1) / 2 * (2 * 2 ^ (-e).toNat) := by
    rw [← Nat.mul_assoc]
    congr 1
    omega
  have num : 2 * m + 2 ^ (-e).toNat = (n + 1) / 2 * (2 * 2 ^ (-e).toNat) := by rw [hd, ← even]; ring
  simp only [transBits, h, if_neg hm, if_neg (show ¬0 ≤ e by omega), num, Nat.mul_mod_left, if_true]

end

/-! ## FSCALE, FCLASS and FRND (R136) -/

theorem boundExp_of_mem {k : Int} (h0 : -4096 ≤ k) (h1 : k ≤ 4096) : boundExp k = k := by
  unfold boundExp clampInt
  rw [if_neg (by omega), if_neg (by omega)]

section
variable {r : Rnd} {a m : Nat} {s : Bool} {e k : Int}

theorem fscale_nan (h : fF32.decode a = .nan) : fscaleBits r a k = 0x7FC00000 := by
  rw [fscaleBits, h]
  rfl

theorem fscale_inf (h : fF32.decode a = .inf s) : fscaleBits r a k = a := by
  rw [fscaleBits, h]

theorem fscale_zero (h : fF32.decode a = .fin s 0 e) : fscaleBits r a k = a := by
  rw [fscaleBits, h]
  rfl

theorem fscale_finite (h : fF32.decode a = .fin s m e) (hm : m ≠ 0) (h0 : -4096 ≤ k) (h1 : k ≤ 4096) :
    fscaleBits r a k = fF32.encode r false (.fin s m (e + k)) := by
  simp only [fscaleBits, h, if_neg hm, boundExp_of_mem h0 h1]

theorem fclass_nan (h : fF32.decode a = .nan) : fclassNo a = 8 := by
  rw [fclassNo, h]

theorem fclass_inf (h : fF32.decode a = .inf s) : fclassNo a = if s then 0 else 7 := by
  rw [fclassNo, h]

theorem fclass_fin (h : fF32.decode a = .fin s m e) : fclassNo a =
    if m = 0 then (if s then 3 else 4) else if m < 2 ^ 23 then (if s then 2 else 5) else if s then 1 else 6 := by
  rw [fclassNo, h]

end

/-- Settles O11: each instruction by the register that its body writes; encodings by their fields, rounding by the quantum, and exact
arithmetic and the functions of Table 9-3 by the classes of their operands. -/
theorem floatResults : Obligations.FloatResults := by
  unfold Obligations.FloatResults
  refine ⟨fun s h f => ?gives, ⟨rfl, rfl, rfl, rfl, rfl, rfl, fun f _ neg E F hE hF => ?fields,
    fun _ _ => ⟨rfl, rfl, rfl, rfl, rfl, rfl⟩, fun _ _ _ _ _ => rfl⟩,
    ⟨roundAt_modes, fun f hf r nof neg m e hm => ?rounding, fun f hf nof neg => overflow_ieee (ieee_of_mem hf) nof neg,
      fun f hf => overflow_narrow8 hf, overflow_f4, maxBits_values⟩,
    ⟨fun _ _ _ _ _ => ⟨rfl, rfl, rfl, rfl, rfl⟩, add_fin, fun na nb ma mb ea eb => ⟨rfl, rfl, div_fin na nb ma mb ea eb⟩,
      fun m e hm => ⟨sqrtMag_spec m e hm, rsqrtMag_spec m e hm⟩, fun f r a b d => arith_nan, fun f r a b d => ffma_nan,
      fun f r a b s u => arith_inf_inf, fun f r a b m s u e => arith_inf_fin, fun f r a b m s u e g => div_zero_fin⟩,
    ⟨fun _ _ _ => fminmax_chooses, fun r _ h => trans_nan h r, fun r _ _ h => trans_inf h r, fun r _ _ _ h => trans_zero h r,
      fun r a m s e h hm => ⟨rcp_fin h hm, roots_negative h hm, roots_positive h hm, fun _ hs hk => log2_pow h hm hs hk,
        fun _ hb hn => exp2_integer h hm hn hb, fun _ hn => ⟨sin_integer h hm hn, cos_integer h hm hn⟩,
        fun _ ho hn => cos_half h hm ho hn⟩, by decide +kernel,
      fun _ _ _ => ⟨fscale_nan, fun _ => fscale_inf, fun _ _ => fscale_zero, fun _ _ _ => fscale_finite⟩,
      fun _ => ⟨fclass_nan, fun _ => fclass_inf, fun _ _ _ => fclass_fin⟩, fun _ _ _ _ => ⟨rfl, rfl, rfl⟩⟩⟩
  case gives =>
    exact ⟨f32Op_gives (fun a b _ => faddBits fF32 (VF.rnd f) a b) rfl, f32Op_gives (fun a b _ => fsubBits fF32 (VF.rnd f) a b) rfl,
      f32Op_gives (fun a b _ => fmulBits fF32 (VF.rnd f) a b) rfl, f32Op_gives (fun a b d => ffmaBits fF32 (VF.rnd f) a b d) rfl,
      f32Op_gives (fun a b _ => fdivBits fF32 (VF.rnd f) a b) rfl, f32Op_gives (fun a b _ => fminmax fF32 false a b) rfl,
      f32Op_gives (fun a b _ => fminmax fF32 true a b) rfl, transOp_gives rfl, transOp_gives rfl, transOp_gives rfl, transOp_gives rfl,
      transOp_gives rfl, transOp_gives rfl, transOp_gives rfl, transOp_gives rfl, gives_of rfl rfl rfl, gives_of rfl rfl rfl,
      f32Op_gives (fun a _ _ => fF32.encode (VF.rnd f) false (frndVal (VF.rnd f) (fF32.decode a))) rfl⟩
  case fields =>
    rw [Bool.and_or_distrib_left]
    exact decode_fields f neg E F hE hF
  case rounding =>
    obtain ⟨above, least, place⟩ := quantum_place f e hm
    exact ⟨above, least, place, encode_fin (Fmt.ok_of_mem f hf) r nof neg m e hm⟩

end Sys2Proof.Machine

/-! PROOFS of the statements of 07_arithmetic.md: packed elements, conversions and dot products (R97, R102 to R105, R113, R131, R137 to
R145). -/

namespace Sys2Proof.Machine

/-! ## Packed instructions and dot products write one register -/

section
variable {s : State} {h : Hdr} {f : VF} {i : Instr}

theorem x2Op_gives (op : Fmt → Nat → Nat → Nat → Nat) (he : exec i s = x2Op i h f op s) :
    Gives s i h f.d fun l => [BitVec.ofNat 32 (packed
      (fun a b d => op (VF.elem f) (signOp (VF.elem f) f.nega f.absa a) (signOp (VF.elem f) f.negb f.absb b) d)
      ((s.env h).src32 l f.a).toNat ((s.env h).srcB32 l f).toNat ((s.env h).src32 l f.d).toNat)] := gives_of he rfl rfl

theorem dotOp_gives {n : Nat} (he : exec i s = dotOp i n h f s) :
    Gives s i h f.d fun l => [BitVec.ofNat 32 (dotBits f.ty (if f.imm.isSome then f.ty else (Ty.ofCode (modBits f.mod 4 0)).getD f.ty) n
      (VF.rnd f) ((s.env h).src32 l f.a).toNat ((s.env h).srcB32 l f).toNat ((s.env h).src32 l f.c) ((s.env h).src32 l f.d).toNat)] :=
  gives_of he rfl rfl

end

/-! ## Elements of a register (R97, R137, R140, R141) -/

theorem packed_elements {op : Nat → Nat → Nat → Nat} (h : ∀ x y z, op x y z < 65536) (a b d : Nat) :
    packed op a b d % 65536 = op (a % 65536) (b % 65536) (d % 65536) ∧
      packed op a b d / 65536 = op (a / 65536) (b / 65536) (d / 65536) := by
  have low := h (a % 65536) (b % 65536) (d % 65536)
  unfold packed
  omega

/-- An element put into a register: the register's parts below, at and above it. -/
theorem putElem_parts (n i old x : Nat) :
    putElem n i old x % 2 ^ (n * i) = old % 2 ^ (n * i) ∧ putElem n i old x / 2 ^ (n * i) % 2 ^ n = x % 2 ^ n ∧
      putElem n i old x / 2 ^ (n * i) / 2 ^ n = old / 2 ^ (n * i) / 2 ^ n := by
  have hp : 0 < 2 ^ (n * i) := by positivity
  have hx : x % 2 ^ n < 2 ^ n := Nat.mod_lt _ (by positivity)
  have ho := Nat.div_add_mod old (2 ^ (n * i))
  have hd := Nat.div_add_mod (old / 2 ^ (n * i)) (2 ^ n)
  have hl := Nat.mod_lt old hp
  simp only [putElem]
  generalize 2 ^ (n * i) = p at *
  generalize 2 ^ n = w at *
  generalize old / p = t at *
  generalize old % p = low at *
  generalize x % w = e at *
  have value : old - t % w * p + e * p = p * (w * (t / w) + e) + low := by
    have parts : old = p * (w * (t / w) + t % w) + low := by rw [hd, ho]
    rw [parts, Nat.mul_add, Nat.mul_add, Nat.mul_comm (t % w), Nat.mul_comm e]
    omega
  rw [value, Nat.mul_add_mod, Nat.mod_eq_of_lt hl, Nat.mul_add_div hp, Nat.div_eq_of_lt hl, Nat.add_zero, Nat.mul_add_mod,
    Nat.mod_eq_of_lt hx, Nat.mul_add_div (by omega), Nat.div_eq_of_lt hx, Nat.add_zero]
  exact ⟨rfl, rfl, rfl⟩

/-- An element of a register below another lies in the part below that one. -/
theorem elem_below {n i j : Nat} (h : j < i) (x : Nat) : x % 2 ^ (n * i) / 2 ^ (n * j) % 2 ^ n = x / 2 ^ (n * j) % 2 ^ n := by
  have inside : 2 ^ (n * j) * 2 ^ n ∣ 2 ^ (n * i) := by
    rw [← pow_add]
    exact Nat.pow_dvd_pow 2 (Nat.mul_le_mul_left n h)
  rw [← Nat.mod_mul_right_div_self, ← Nat.mod_mul_right_div_self, Nat.mod_mod_of_dvd _ inside]

/-- An element of a register above another lies in the part above that one. -/
theorem elem_above {n i j : Nat} (h : i < j) (x : Nat) : x / 2 ^ (n * j) = x / 2 ^ (n * i) / 2 ^ n / 2 ^ (n * (j - i - 1)) := by
  rw [Nat.div_div_eq_div_mul, Nat.div_div_eq_div_mul, ← pow_add, ← pow_add]
  congr 2
  obtain ⟨k, rfl⟩ := Nat.exists_eq_add_of_lt h
  rw [show i + k + 1 - i - 1 = k by omega]
  ring

theorem elem_putElem (n i j old x : Nat) :
    putElem n i old x / 2 ^ (n * j) % 2 ^ n = if j = i then x % 2 ^ n else old / 2 ^ (n * j) % 2 ^ n := by
  obtain ⟨below, at_, above⟩ := putElem_parts n i old x
  rcases lt_trichotomy j i with h | rfl | h
  · rw [if_neg (by omega), ← elem_below h, below, elem_below h]
  · rw [if_pos rfl, at_]
  · rw [if_neg (by omega), elem_above h, above, ← elem_above h]

/-! ## Conversion (R102 to R105) -/

section
variable {src dst : Ty} {r : Rnd} {sat nof : Bool} {x : Nat}

theorem elemVal_float (h : src.isFloat = true) : elemVal src x = .flt ((fmtOf src).decode (x % 2 ^ src.width)) := if_pos h

/-- The integer of a pattern in a type. -/
def intOf (t : Ty) (x : Nat) : Int :=
  if t.isSigned ∧ 2 ^ (t.width - 1) ≤ x % 2 ^ t.width then ((x % 2 ^ t.width : Nat) : Int) - 2 ^ t.width else (x % 2 ^ t.width : Nat)

theorem elemVal_int (h : src.isFloat = false) : elemVal src x = .int (intOf src x) := by
  simp only [elemVal, h, Bool.false_eq_true, if_false, Bool.and_eq_true, decide_eq_true_eq, intOf]

theorem convert_float_float (hs : src.isFloat = true) (hd : dst.isFloat = true) :
    convert src dst r sat nof x = (fmtOf dst).encode r nof ((fmtOf src).decode (x % 2 ^ src.width)) := by
  simp only [convert, elemVal_float hs, hd, if_true]

theorem convert_float_int (hs : src.isFloat = true) (hd : dst.isFloat = false) :
    convert src dst r sat nof x = (floatToInt r (typeRange dst.isSigned dst.width).1 (typeRange dst.isSigned dst.width).2
      ((fmtOf src).decode (x % 2 ^ src.width)) % 2 ^ dst.width).toNat := by
  simp only [convert, elemVal_float hs, hd, Bool.false_eq_true, if_false]

theorem convert_int_float (hs : src.isFloat = false) (hd : dst.isFloat = true) :
    convert src dst r sat nof x = (fmtOf dst).encode r nof (intVal (intOf src x)) := by
  simp only [convert, elemVal_int hs, hd, if_true]

theorem convert_int_int (hs : src.isFloat = false) (hd : dst.isFloat = false) :
    convert src dst r sat nof x = ((if sat then clampInt (typeRange dst.isSigned dst.width).1 (typeRange dst.isSigned dst.width).2
      (intOf src x) else intOf src x) % 2 ^ dst.width).toNat := by
  simp only [convert, elemVal_int hs, hd, Bool.false_eq_true, if_false]

end

/-! ## Dot products (R113, R144) -/

theorem any_isNan_iff {xs : List FVal} : xs.any FVal.isNan = true ↔ .nan ∈ xs := by
  simp only [List.any_eq_true, FVal.isNan_iff, exists_eq_right]

theorem no_nan {xs ys : List FVal} {v : FVal} (hx : .nan ∉ xs) (hy : .nan ∉ ys) (hv : v ≠ .nan) :
    (xs.any FVal.isNan || ys.any FVal.isNan || v.isNan) = false := by
  simp only [← Bool.not_eq_true, Bool.or_eq_true, any_isNan_iff, FVal.isNan_iff, not_or]
  exact ⟨⟨hx, hy⟩, hv⟩

/-- The exact sum of the products of finite elements. -/
theorem dotSum_fin {xs ys : List FVal} {ps : List ((Bool × Nat × Int) × (Bool × Nat × Int))}
    (h : xs.zip ys = ps.map fun p => (.fin p.1.1 p.1.2.1 p.1.2.2, .fin p.2.1 p.2.2.1 p.2.2.2)) :
    ∃ u k g, dotSum xs ys = .fin u k g ∧ ∀ z, (∀ p ∈ ps, z ≤ p.1.2.2 + p.2.2.2) → z ≤ 0 →
      scaled u k g z = (ps.map fun p => scaled (p.1.1 != p.2.1) (p.1.2.1 * p.2.2.1) (p.1.2.2 + p.2.2.2) z).sum := by
  obtain ⟨u, k, g, sum, exactSum⟩ := dot_fold ps false 0 0
  refine ⟨u, k, g, by rw [dotSum, h]; exact sum, fun z hz h0 => ?_⟩
  rw [exactSum z hz h0 h0]
  simp [scaled]

section
variable {ta tb : Ty} {n : Nat} {r : Rnd} {a b : Nat} {c : W32} {d : Nat}

theorem dotBits_nan (h : c = 0x80000000 ∨ .nan ∈ elemsOf ta n a ∨ .nan ∈ elemsOf tb n b ∨ fF32.decode d = .nan) :
    dotBits ta tb n r a b c d = 0x7FC00000 := by
  simp only [dotBits]
  by_cases hc : c = 0x80000000
  · exact if_pos hc
  · have nan : ((elemsOf ta n a).any FVal.isNan || (elemsOf tb n b).any FVal.isNan || (fF32.decode d).isNan) = true := by
      simpa only [Bool.or_eq_true, any_isNan_iff, FVal.isNan_iff, or_assoc] using h.resolve_left hc
    rw [if_neg hc, if_pos nan]
    rfl

section
variable (hc : c ≠ 0x80000000) (ha : FVal.nan ∉ elemsOf ta n a) (hb : FVal.nan ∉ elemsOf tb n b)
include hc ha hb

theorem dotBits_inf {s : Bool} (hd : fF32.decode d = .inf s) : dotBits ta tb n r a b c d = d := by
  have number := no_nan ha hb (v := .inf s) (by simp)
  simp only [dotBits, if_neg hc, number, Bool.false_eq_true, if_false, hd]

theorem dotBits_fin {s u : Bool} {m k : Nat} {e g : Int} (hd : fF32.decode d = .fin s m e)
    (hs : dotSum (elemsOf ta n a) (elemsOf tb n b) = .fin u k g) (h0 : -4096 ≤ c.toInt) (h1 : c.toInt ≤ 4096) :
    dotBits ta tb n r a b c d =
      fF32.encode r false ((if k = 0 then FVal.fin false 0 0 else .fin u k (g + c.toInt)).add r (.fin s m e)) := by
  have number := no_nan ha hb (v := .fin s m e) (by simp)
  simp only [dotBits, if_neg hc, number, Bool.false_eq_true, if_false, hd, hs, boundExp_of_mem h0 h1]

end

end

/-- Settles O13: each instruction by the register that its body writes; elements by their places, conversions by the kinds of their types,
and dot products by the exact sum of the products. -/
theorem packedResults : Obligations.PackedResults := by
  unfold Obligations.PackedResults
  refine ⟨fun s h f => ?gives, ⟨fun op a b d h => packed_elements h a b d, fun n _ i j old x _ _ => elem_putElem n i j old x,
    ⟨rfl, rfl, rfl, rfl, rfl, rfl⟩, fun src dst r sat nof x hs => ⟨convert_float_float hs, fun hd => ?floatInt⟩,
    fun src dst r sat nof x hs => ⟨convert_int_float hs, fun hd hsat => ?wraps, fun hd hsat => ?clamps⟩⟩,
    fun ta tb n r a b c d => ⟨dotBits_nan, fun hc ha hb s => dotBits_inf hc ha hb, fun hc h0 h1 ps s m e hz ha hb hd => ?dot, ?elems⟩⟩
  case gives =>
    exact ⟨x2Op_gives (fun t a b _ => faddBits t (VF.rnd f) a b) rfl, x2Op_gives (fun t a b _ => fmulBits t (VF.rnd f) a b) rfl,
      x2Op_gives (fun t a b d => ffmaBits t (VF.rnd f) a b d) rfl, x2Op_gives (fun t a b _ => fminmax t false a b) rfl,
      x2Op_gives (fun t a b _ => fminmax t true a b) rfl, gives_of rfl rfl rfl, gives_of rfl rfl rfl, gives_of rfl rfl rfl,
      dotOp_gives rfl, dotOp_gives rfl, gives_of rfl rfl rfl⟩
  case floatInt =>
    simp only [convert_float_int hs hd]
    refine ⟨fun hv => ?_, fun s hv => ?_, fun s m e hv => ?_⟩ <;> rw [hv]
    · exact congrArg Int.toNat (Int.zero_emod _)
    · rfl
    · rfl
  case wraps => rw [convert_int_int hs hd, hsat]; rfl
  case clamps => rw [convert_int_int hs hd, hsat]; rfl
  case dot =>
    obtain ⟨u, k, g, sum, exactSum⟩ := dotSum_fin hz
    exact ⟨u, k, g, exactSum, dotBits_fin hc ha hb hd sum h0 h1⟩
  case elems =>
    refine List.map_congr_left fun i _ => ?_
    cases elemVal ta (a / 2 ^ (ta.width * i)) <;> rfl

end Sys2Proof.Machine

/-! PROOFS of the statements of 07_arithmetic.md: accumulator cells (R107 to R110, R112, R114, R260) and the transposed tile (R265). -/

namespace Sys2Proof.Machine

/-! ## The status bits (R108 to R110) -/

@[simp] theorem getLsbD_stInexact (n : Nat) : stInexact.getLsbD n = decide (n = 0) := by
  show (BitVec.twoPow 32 0).getLsbD n = _
  simp [BitVec.getLsbD_twoPow, eq_comm]

@[simp] theorem getLsbD_stOverflow (n : Nat) : stOverflow.getLsbD n = decide (n = 1) := by
  show (BitVec.twoPow 32 1).getLsbD n = _
  simp [BitVec.getLsbD_twoPow, eq_comm]

@[simp] theorem getLsbD_stSpecial (n : Nat) : stSpecial.getLsbD n = decide (n = 2) := by
  show (BitVec.twoPow 32 2).getLsbD n = _
  simp [BitVec.getLsbD_twoPow, eq_comm]

theorem getLsbD_none (n : Nat) : (0 : W32).getLsbD n = false := BitVec.getLsbD_zero

/-- The special bit, set unless a cell's class is finite. -/
@[simp] theorem getLsbD_special (p : Prop) [Decidable p] (n : Nat) :
    (if p then 0 else stSpecial).getLsbD n = (!decide p && decide (n = 2)) := by
  split <;> simp [*]

@[simp] theorem getLsbD_flag (p : Prop) [Decidable p] (w : W32) (n : Nat) :
    (if p then w else 0).getLsbD n = (decide p && w.getLsbD n) := by
  split <;> simp [*]

/-! ## A cell's 128 bits (R108) -/

/-- A sum lies outside a cell's 128 bits. -/
def CellBeyond (x : Int) : Prop := x < -(2 ^ 127) ∨ 2 ^ 127 ≤ x

theorem clampCell_toInt (x : Int) :
    (clampCell x).1.toInt = if x < -(2 ^ 127) then -(2 ^ 127) else if 2 ^ 127 ≤ x then 2 ^ 127 - 1 else x := by
  unfold clampCell
  split
  · decide
  · split
    · decide
    · rw [BitVec.toInt_ofInt, Int.bmod_eq_of_le (by omega) (by omega)]

theorem clampCell_cell (c : BitVec 128) : clampCell c.toInt = (c, 0) := by
  have low := c.le_toInt
  have high := c.toInt_lt
  unfold clampCell
  rw [if_neg (by omega), if_neg (by omega), BitVec.ofInt_toInt]

theorem getLsbD_clampCell (x : Int) (n : Nat) : (clampCell x).2.getLsbD n = true ↔ n = 1 ∧ CellBeyond x := by
  unfold clampCell
  split
  · next h =>
    have beyond : CellBeyond x := .inl h
    simp [beyond]
  · next h0 =>
    split
    · next h1 =>
      have beyond : CellBeyond x := .inr h1
      simp [beyond]
    · next h1 =>
      have inside : ¬CellBeyond x := by simp only [CellBeyond, h0, h1, or_self, not_false_eq_true]
      simp [inside]

/-- The status word after a term: bits discarded, a clamp, a class that is not finite. -/
theorem termStatus_bits (st : W32) (y : Int) (p : Prop) [Decidable p] (k : CellClass) :
    let w := st ||| (clampCell y).2 ||| (if p then stInexact else 0) ||| (if k = .fin then 0 else stSpecial)
    (w.getLsbD 0 = true ↔ st.getLsbD 0 = true ∨ p) ∧ (w.getLsbD 1 = true ↔ st.getLsbD 1 = true ∨ CellBeyond y) ∧
      (w.getLsbD 2 = true ↔ st.getLsbD 2 = true ∨ k ≠ .fin) := by
  refine ⟨?_, ?_, ?_⟩ <;>
    simp only [BitVec.getLsbD_or, Bool.or_eq_true, getLsbD_clampCell, getLsbD_flag, getLsbD_special, getLsbD_stInexact] <;> simp

/-- The status word of MGUIDE: a clamp of the sum or of what is added, and bits discarded. -/
theorem guideStatus_bits (y z : Int) (p : Prop) [Decidable p] :
    let w := (clampCell y).2 ||| (clampCell z).2 ||| (if p then stInexact else 0)
    (w.getLsbD 0 = true ↔ p) ∧ (w.getLsbD 1 = true ↔ CellBeyond y ∨ CellBeyond z) ∧ w.getLsbD 2 = false := by
  refine ⟨?_, ?_, Bool.eq_false_iff.2 ?_⟩ <;>
    simp only [ne_eq, BitVec.getLsbD_or, Bool.or_eq_true, getLsbD_clampCell, getLsbD_flag, getLsbD_stInexact] <;> simp

/-! ## One term (R107 to R110) -/

section
variable {anchor : Int} {sat : Bool} {x : Cell} {st : W32}

theorem classAdd_fin (c : CellClass) : classAdd .fin c = c := by cases c <;> rfl
theorem classAdd_nan_left (c : CellClass) : classAdd .nan c = .nan := by cases c <;> rfl
theorem classAdd_nan_right (c : CellClass) : classAdd c .nan = .nan := by cases c <;> rfl

/-- A finite term is cut toward zero at the anchor, added, and the sum clamped. -/
theorem addTerm_fin (neg : Bool) (m : Nat) (e : Int) :
    let q := anchor - 56
    let mag := if q ≤ e then m * 2 ^ (e - q).toNat else m / 2 ^ (q - e).toNat
    let sum := x.c.toInt + (if neg then -(mag : Int) else mag)
    addTerm anchor sat (x, st) (.flt (.fin neg m e)) = ({ c := (clampCell sum).1, cls := x.cls },
      st ||| (clampCell sum).2 ||| (if e < q ∧ m % 2 ^ (q - e).toNat ≠ 0 then stInexact else 0) |||
        (if x.cls = .fin then 0 else stSpecial)) := by
  intro q mag sum
  have part : (termBits anchor (.fin neg m e)).1 = if neg then -(mag : Int) else mag := by
    simp only [termBits, roundAt, Bool.false_eq_true, if_false]
    rfl
  simp only [addTerm, termClass, classAdd_fin, part, beq_iff_eq]
  simp only [termBits, Bool.and_eq_true, decide_eq_true_eq, bne_iff_ne, sum, q]

theorem toInt_ofInt_of_mem {y : Int} (h0 : -(2 ^ 31) ≤ y) (h1 : y < 2 ^ 31) : (BitVec.ofInt 128 y).toInt = y := by
  rw [BitVec.toInt_ofInt, Int.bmod_eq_of_le (by omega) (by omega)]

/-- A term of integer mode wraps or saturates at 32 bits. -/
theorem addTerm_int (t : Int) :
    let sum := x.c.toInt + t
    (addTerm anchor sat (x, st) (.int t)).1.cls = x.cls ∧
    ((addTerm anchor sat (x, st) (.int t)).2.getLsbD 1 = true ↔ st.getLsbD 1 = true ∨ sum < -(2 ^ 31) ∨ 2 ^ 31 ≤ sum) ∧
    (addTerm anchor sat (x, st) (.int t)).1.c.toInt =
      (if sat then (if sum < -(2 ^ 31) then -(2 ^ 31) else if 2 ^ 31 ≤ sum then 2 ^ 31 - 1 else sum)
      else (BitVec.ofInt 32 sum).toInt) := by
  intro sum
  refine ⟨rfl, ?_, ?_⟩
  · simp only [addTerm, BitVec.getLsbD_or, getLsbD_flag, getLsbD_stOverflow, Bool.or_eq_true, Bool.and_eq_true, decide_eq_true_eq,
      and_true, sum]
  · have value : (addTerm anchor sat (x, st) (.int t)).1.c =
      BitVec.ofInt 128 (if sat then clampInt (-(2 ^ 31)) (2 ^ 31 - 1) sum else (BitVec.ofInt 32 sum).toInt) := rfl
    have clamped : clampInt (-(2 ^ 31)) (2 ^ 31 - 1) sum =
      if sum < -(2 ^ 31) then -(2 ^ 31) else if 2 ^ 31 ≤ sum then 2 ^ 31 - 1 else sum := by
      unfold clampInt
      split_ifs <;> omega
    rw [value, clamped]
    cases sat with
    | false => exact toInt_ofInt_of_mem (BitVec.le_toInt _) BitVec.toInt_lt
    | true =>
      rw [if_pos rfl]
      refine toInt_ofInt_of_mem ?_ ?_ <;> split_ifs <;> omega

/-- An infinite or NaN term leaves the cell's bits as they are. -/
theorem addTerm_special {v : FVal} {k : CellClass}
    (h : v = .nan ∧ k = .nan ∨ v = .inf false ∧ k = .pinf ∨ v = .inf true ∧ k = .ninf) :
    addTerm anchor sat (x, st) (.flt v) = ({ c := x.c, cls := classAdd k x.cls }, st ||| stSpecial) := by
  obtain ⟨hc, hb, hk⟩ : termClass v = k ∧ termBits anchor v = (0, false) ∧ k ≠ .fin := by
    rcases h with ⟨rfl, rfl⟩ | ⟨rfl, rfl⟩ | ⟨rfl, rfl⟩ <;> exact ⟨rfl, rfl, by decide⟩
  have special : classAdd k x.cls ≠ .fin := by
    revert hk
    cases k <;> cases x.cls <;> decide
  simp [addTerm, hc, hb, clampCell_cell, special]

/-- The status bits that a term sets are added to those set before. -/
theorem addTerm_status (t : Elem) :
    addTerm anchor sat (x, st) t = ((addTerm anchor sat (x, 0) t).1, st ||| (addTerm anchor sat (x, 0) t).2) := by
  cases t <;> simp [addTerm, BitVec.or_assoc]

/-- No term sets a status bit above the special bit. -/
theorem addTerm_status_high (t : Elem) {n : Nat} (hn : 3 ≤ n) : (addTerm anchor sat (x, 0) t).2.getLsbD n = false := by
  cases t with
  | int t =>
    simp only [addTerm, BitVec.getLsbD_or, getLsbD_none, getLsbD_flag, getLsbD_stOverflow, show n ≠ 1 by omega, decide_false,
      Bool.and_false, Bool.or_self]
  | flt v =>
    have clip : ∀ y, (clampCell y).2.getLsbD n = false := fun y => Bool.eq_false_iff.2 fun h => by
      have := ((getLsbD_clampCell y n).1 h).1
      omega
    simp only [addTerm, BitVec.getLsbD_or, getLsbD_none, clip, getLsbD_flag, getLsbD_stInexact, getLsbD_special,
      show n ≠ 0 by omega, show n ≠ 2 by omega, decide_false, Bool.and_false, Bool.or_self]

/-- Terms added in turn: their status bits are added to those set before. -/
theorem addTerms_status (ts : List Elem) : ts.foldl (addTerm anchor sat) (x, st) =
    ((ts.foldl (addTerm anchor sat) (x, 0)).1, st ||| (ts.foldl (addTerm anchor sat) (x, 0)).2) := by
  induction ts generalizing x st with
  | nil => simp
  | cons t ts ih =>
    rw [List.foldl_cons, List.foldl_cons, addTerm_status t, ih, ih (st := (addTerm anchor sat (x, 0) t).2), BitVec.or_assoc]

theorem addTerms_status_high (ts : List Elem) {n : Nat} (hn : 3 ≤ n) : (ts.foldl (addTerm anchor sat) (x, 0)).2.getLsbD n = false := by
  induction ts generalizing x with
  | nil => simp
  | cons t ts ih =>
    rw [List.foldl_cons, ← Prod.mk.eta (p := addTerm anchor sat (x, 0) t), addTerms_status, BitVec.getLsbD_or,
      addTerm_status_high t hn, ih, Bool.or_self]

end

/-! ## The terms of a cell, and of a row of cells (R108) -/

/-- The terms of a row's products with the weights of column j, in ascending k. -/
def rowTerms (sh : Int) (neg : Bool) (row : List Elem) (w : List (List Elem)) (j : Nat) : List Elem :=
  (row.zip w).filterMap fun x => x.2[j]?.map (termOf sh neg x.1)

/-- Terms added to one cell of an accumulator. -/
def Acc.addTerms (a : Acc) (sat : Bool) (n : Nat) (ts : List Elem) : Acc :=
  let x := ts.foldl (addTerm a.anchor sat) (a.cell n, a.status)
  { cells := SMap.set {} a.cells n x.1, status := x.2 }

section
variable {a : Acc} {sat : Bool} {n : Nat} {ts : List Elem}

theorem Acc.cell_addTerms (k : Nat) :
    (a.addTerms sat n ts).cell k = if k = n then (ts.foldl (addTerm a.anchor sat) (a.cell n, 0)).1 else a.cell k := by
  rw [Acc.addTerms, Acc.cell, SMap.get_set, addTerms_status]
  rfl

theorem Acc.status_addTerms :
    (a.addTerms sat n ts).status = a.status ||| (ts.foldl (addTerm a.anchor sat) (a.cell n, 0)).2 := by
  rw [Acc.addTerms, addTerms_status]

theorem Acc.anchor_addTerms : (a.addTerms sat n ts).anchor = a.anchor := by
  unfold Acc.anchor
  congr 1
  refine BitVec.eq_of_getLsbD_eq fun i hi => ?_
  simp only [field, BitVec.getLsbD_extractLsb', Acc.status_addTerms, BitVec.getLsbD_or, addTerms_status_high ts (show 3 ≤ 9 + i by omega),
    Bool.or_false]

end

section
variable {sat : Bool} {base : Nat} {ts : Nat → List Elem} {js : List Nat}

/-- Terms added to cells of an accumulator, one cell after the other. -/
theorem Acc.addCells (a : Acc) (hd : js.Nodup) :
    let b := js.foldl (fun a j => a.addTerms sat (base + j) (ts j)) a
    let sum := fun j => (ts j).foldl (addTerm a.anchor sat) (a.cell (base + j), 0)
    (∀ j ∈ js, b.cell (base + j) = (sum j).1) ∧ (∀ k, (∀ j ∈ js, k ≠ base + j) → b.cell k = a.cell k) ∧
      ∀ n, b.status.getLsbD n = true ↔ a.status.getLsbD n = true ∨ ∃ j ∈ js, (sum j).2.getLsbD n = true := by
  induction js generalizing a with
  | nil => simp
  | cons j js ih =>
    obtain ⟨fresh, hd⟩ := List.nodup_cons.1 hd
    obtain ⟨cells, others, status⟩ := ih (a.addTerms sat (base + j) (ts j)) hd
    have later : ∀ i ∈ js, (a.addTerms sat (base + j) (ts j)).cell (base + i) = a.cell (base + i) := fun i hi => by
      rw [Acc.cell_addTerms, if_neg fun h => fresh (by rwa [← Nat.add_left_cancel h])]
    rw [Acc.anchor_addTerms] at cells status
    refine ⟨fun i hi => ?_, fun k hk => ?_, fun n => ?_⟩
    · rcases List.mem_cons.1 hi with rfl | hi
      · rw [List.foldl_cons, others _ fun k hk h => fresh (by rwa [Nat.add_left_cancel h]), Acc.cell_addTerms, if_pos rfl]
      · rw [List.foldl_cons, cells i hi]
        exact congrArg (fun x => ((ts i).foldl (addTerm a.anchor sat) (x, 0)).1) (later i hi)
    · rw [List.foldl_cons, others k fun i hi => hk i (.tail _ hi), Acc.cell_addTerms, if_neg (hk j (.head _))]
    · rw [List.foldl_cons, status, Acc.status_addTerms, BitVec.getLsbD_or, Bool.or_eq_true, or_assoc]
      have same : (∃ i ∈ js, ((ts i).foldl (addTerm a.anchor sat)
          ((a.addTerms sat (base + j) (ts j)).cell (base + i), 0)).2.getLsbD n = true) ↔
          ∃ i ∈ js, ((ts i).foldl (addTerm a.anchor sat) (a.cell (base + i), 0)).2.getLsbD n = true :=
        exists_congr fun i => and_congr_right fun hi => by rw [later i hi]
      simp only [same, List.mem_cons, exists_eq_or_imp]

end

theorem Acc.addRow_eq (a : Acc) (sh : Int) (neg sat : Bool) (i : Nat) (row : List Elem) (w : List (List Elem)) :
    a.addRow sh neg sat i row w = (upto 32).foldl (fun a j => a.addTerms sat (32 * i + j) (rowTerms sh neg row w j)) a := by
  refine congrArg (fun step => (upto 32).foldl step a) (funext₂ fun a j => ?_)
  rw [Acc.addTerms, rowTerms, List.foldl_filterMap]
  refine congrArg (fun step => let x := (row.zip w).foldl step (a.cell (32 * i + j), a.status)
    ({ cells := SMap.set {} a.cells (32 * i + j) x.1, status := x.2 } : Acc)) (funext₂ fun x p => ?_)
  obtain ⟨r, ws⟩ := p
  dsimp only
  cases ws[j]? <;> rfl

/-- A row of a k-step: each of its cells takes its terms, the other cells stay. -/
theorem Acc.addRow_cells (a : Acc) (sh : Int) (neg sat : Bool) (i : Nat) (row : List Elem) (w : List (List Elem)) :
    let b := a.addRow sh neg sat i row w
    let sum := fun j => (rowTerms sh neg row w j).foldl (addTerm a.anchor sat) (a.cell (32 * i + j), 0)
    (∀ j, j < 32 → b.cell (32 * i + j) = (sum j).1) ∧ (∀ k, k / 32 ≠ i → b.cell k = a.cell k) ∧
      ∀ n, b.status.getLsbD n = true ↔ a.status.getLsbD n = true ∨ ∃ j, j < 32 ∧ (sum j).2.getLsbD n = true := by
  have columns : (upto 32).Nodup := by decide
  obtain ⟨cells, others, status⟩ := Acc.addCells (sat := sat) (base := 32 * i) (ts := rowTerms sh neg row w) a columns
  rw [Acc.addRow_eq]
  refine ⟨fun j hj => cells j (mem_upto.2 hj), fun k hk => others k fun j hj h => hk ?_, fun n => ?_⟩
  · have := mem_upto.1 hj
    omega
  · simpa only [mem_upto] using status n

theorem termOf_int (sh : Int) (neg : Bool) (x y : Int) : termOf sh neg (.int x) (.int y) = .int (if neg then -(x * y) else x * y) := rfl

theorem termOf_fin (sh : Int) (neg a b : Bool) (m n : Nat) (e g : Int) : termOf sh neg (.flt (.fin a m e)) (.flt (.fin b n g)) =
    .flt (.fin (Bool.xor (Bool.xor a b) neg) (m * n) (e + g + sh)) := by
  cases neg <;> cases a <;> cases b <;> rfl

/-! ## Guidance on a cell (R114) -/

section
variable {w : FVal} {c u : Cell}

theorem guideCell_special (h : c.cls ≠ .fin ∨ u.cls ≠ .fin ∨ w = .nan) : guideCell w c u = ({ c with cls := .nan }, stSpecial) := by
  by_cases number : c.cls = .fin ∧ u.cls = .fin
  · obtain ⟨hc, hu⟩ := number
    obtain rfl : w = .nan := by simpa only [hc, hu, ne_eq, not_true_eq_false, false_or] using h
    simp [guideCell, hc, hu]
  · have notFinite : (c.cls != .fin || u.cls != .fin) = true := by
      simpa only [Bool.or_eq_true, bne_iff_ne, ne_eq, not_and_or] using number
    exact if_pos notFinite

/-- The test by which MGUIDE takes its term off: the difference is negative, or the weight, and not both. -/
theorem sign_ne_iff (d : Int) (neg : Bool) : ((decide (d < 0)) != neg) = true ↔ (d < 0 ↔ neg = false) := by
  cases neg <;> simp

variable (hc : c.cls = .fin) (hu : u.cls = .fin)
include hc hu

theorem guideCell_inf (neg : Bool) : guideCell (.inf neg) c u = ({ c with cls :=
    if c.c.toInt - u.c.toInt = 0 then .nan else if (c.c.toInt - u.c.toInt < 0 ↔ neg = false) then .ninf else .pinf }, stSpecial) := by
  simp only [guideCell, hc, hu, bne_self_eq_false, Bool.or_self, Bool.false_eq_true, if_false, sign_ne_iff]

theorem guideCell_fin (neg : Bool) (m : Nat) (e : Int) :
    let d := c.c.toInt - u.c.toInt
    let q := d.natAbs * m
    let mag : Int := if 0 ≤ e then q * 2 ^ e.toNat else ((q / 2 ^ (-e).toNat : Nat) : Int)
    let t := if (d < 0 ↔ neg = false) then -mag else mag
    guideCell (.fin neg m e) c u = ({ c := (clampCell (u.c.toInt + t)).1, cls := .fin },
      (clampCell (u.c.toInt + t)).2 ||| (clampCell t).2 ||| (if e < 0 ∧ q % 2 ^ (-e).toNat ≠ 0 then stInexact else 0)) := by
  intro d q mag t
  have part : (roundAt .rtz false q e 0 : Int) = mag := by
    simp only [roundAt, Bool.false_eq_true, if_false, mag]
    split <;> simp
  simp only [guideCell, hc, hu, bne_self_eq_false, Bool.or_self, Bool.false_eq_true, if_false, sign_ne_iff]
  simp only [← part, Bool.and_eq_true, decide_eq_true_eq, bne_iff_ne, d, q, t]

end

/-! ## The destination element of a cell (R112) -/

section
variable {a : Acc} {i : Nat} {fmt : Ty} {rnd : Rnd} {sat nof : Bool} {eo : Int}

theorem Acc.out_int (h : a.intMode = true) : a.out i fmt rnd sat nof eo = convert .i32 fmt rnd sat nof ((a.cell i).c.toNat % 2 ^ 32) :=
  if_pos h

theorem Acc.out_wide (h : a.intMode = false) :
    ((a.cell i).cls = .nan → a.out i fmt rnd sat nof eo = (fmtOf fmt).encode rnd nof .nan) ∧
    ((a.cell i).cls = .pinf → a.out i fmt rnd sat nof eo = (fmtOf fmt).encode rnd nof (.inf false)) ∧
    ((a.cell i).cls = .ninf → a.out i fmt rnd sat nof eo = (fmtOf fmt).encode rnd nof (.inf true)) ∧
    ((a.cell i).cls = .fin → a.out i fmt rnd sat nof eo = (fmtOf fmt).encode rnd nof
      (.fin ((a.cell i).c.toInt < 0) (a.cell i).c.toInt.natAbs (a.anchor - 56 - eo))) := by
  refine ⟨fun hk => ?_, fun hk => ?_, fun hk => ?_, fun hk => ?_⟩ <;> simp only [Acc.out, h, hk, Bool.false_eq_true, if_false]

end

/-! ## The transposed tile (R265) -/

/-- The width of a shape register's format, 0 where it has none. -/
def formatWidth (r : BitVec 512) : Nat := ((recFormat r).map Ty.width).getD 0

/-- The widths that MLDT takes. -/
def TileWide (w : Nat) : Prop := w = 8 ∨ w = 16 ∨ w = 32

theorem mldtWidth_of_wide {r : BitVec 512} (h : TileWide (formatWidth r)) : mldtWidth r = some (formatWidth r) := by
  unfold formatWidth mldtWidth at *
  cases hf : (recFormat r).map Ty.width with
  | none => simp [hf, TileWide] at h
  | some w => exact if_pos (by simpa [hf, TileWide, or_assoc] using h)

theorem mldtWidth_of_not_wide {r : BitVec 512} (h : ¬TileWide (formatWidth r)) : mldtWidth r = none := by
  unfold formatWidth mldtWidth at *
  cases hf : (recFormat r).map Ty.width with
  | none => rfl
  | some w => exact if_neg (by simpa [hf, TileWide, or_assoc] using h)

theorem mldtWidth_isSome_iff (r : BitVec 512) : (mldtWidth r).isSome = true ↔ TileWide (formatWidth r) := by
  by_cases h : TileWide (formatWidth r)
  · simp [mldtWidth_of_wide h, h]
  · simp [mldtWidth_of_not_wide h, h]

/-- The tests of the shape register and of the tile's base, which give SHAPE. -/
def mldtMisshaped (r : BitVec 512) (a : Nat) : Bool :=
  (mldtWidth r).isNone || recField r 376 16 == 0 || 32 < recField r 376 16 || recField r 392 16 == 0 || 32 < recField r 392 16
    || recField r 75 5 != 0 || recField r 83 5 != 0 || recField r 472 40 != 0 || a % (if shapeSwz r = 0 then 16 else 128) != 0

theorem mldtMisshaped_eq_false (r : BitVec 512) (a : Nat) : mldtMisshaped r a = false ↔
    TileWide (formatWidth r) ∧ 0 < recField r 376 16 ∧ recField r 376 16 ≤ 32 ∧ 0 < recField r 392 16 ∧ recField r 392 16 ≤ 32 ∧
      recField r 75 5 = 0 ∧ recField r 83 5 = 0 ∧ recField r 472 40 = 0 ∧ a % (if shapeSwz r = 0 then 16 else 128) = 0 := by
  simp only [← mldtWidth_isSome_iff, mldtMisshaped, Bool.or_eq_false_iff, Option.isNone_eq_false_iff, beq_eq_false_iff_ne,
    bne_eq_false_iff_eq, decide_eq_false_iff_not, Nat.not_lt, Nat.pos_iff_ne_zero, and_assoc]

/-- The shape register that an MLDT names, the tile's base and its size. -/
def Env.mldtShape (e : Env) (f : EF) : BitVec 512 := e.team.shapes.get 0 f.shp.val
@[inherit_doc Env.mldtShape] def Env.mldtBase (e : Env) (f : EF) (n : Nat) : Nat := (e.src32 n f.a).toNat
@[inherit_doc Env.mldtShape] def mldtBytes (r : BitVec 512) : Nat := recField r 376 16 * recField r 392 16 * formatWidth r / 8

/-- The watches that the tile meets, but at the instruction that a handler steps over (R348). -/
def State.mldtHits (s : State) (h : Hdr) (f : EF) (n : Nat) : List (Nat × Nat) :=
  let e := s.env h
  if (e.g.lane n).wskip = some s.iss.pc then []
  else (s.beginIssue h).watchGroup s.iss.core s.iss.slot e.g.watch n .read false true (e.mldtBase f n) (mldtBytes (e.mldtShape f))

section
variable {s : State} {h : Hdr} {f : EF} {n : Nat} (I : NibIssues s (.mldt h f) h n)
include I

theorem exec_mldt_beyond (hb : mldtBeyond (s.env h) f = true) : exec (.mldt h f) s = .next (s.faultSet cILLEGAL) :=
  if_pos (by simp [I.set, hb])

theorem exec_mldt_shape (hb : mldtBeyond (s.env h) f = false)
    (hm : mldtMisshaped ((s.env h).mldtShape f) ((s.env h).mldtBase f n) = true) :
    exec (.mldt h f) s = .next ((s.beginIssue h).raise (s.env h) n { code := cSHAPE }) := by
  rw [exec_mldt, execMldt, hb, Bool.and_false, if_neg Bool.false_ne_true, nibIssue_next I]
  exact congrArg _ (if_pos hm)

/-- The further checks of MLDT in their order, and what it loads. -/
theorem exec_mldt_run (hb : mldtBeyond (s.env h) f = false)
    (hm : mldtMisshaped ((s.env h).mldtShape f) ((s.env h).mldtBase f n) = false) :
    let e := s.env h
    let u := s.beginIssue h
    let r := e.mldtShape f
    let a := e.mldtBase f n
    let w := formatWidth r
    let lines := teamLines e.team a (mldtBytes r)
    exec (.mldt h f) s = .next (
      if inRegion e.team a (mldtBytes r) = false then u.raise e n { code := cPERM, addr := BitVec.ofNat 64 a }
      else (lowestHit (s.mldtHits h f n)).elim
        (if (u.core s.iss.core).present lines = false then u.waitAt e s.iss.lanes (.lines lines)
        else u.writeD e f.d fun l => (upto (mldtRegs r w)).map fun k =>
          if recField r 376 16 ≤ l then 0 else mldtReg w (recField r 392 16) k fun i =>
            ofBytes ((u.core s.iss.core).lbytes
              (128 * e.team.lbase + a + swzOff (shapeSwz r) ((l + recField r 376 16 * i) * w / 8)) (w / 8)))
        fun x => u.raise e n { code := cWATCH, addr := BitVec.ofNat 64 (a + x.2), num := BitVec.ofNat 16 x.1 }) := by
  intro e u r a w lines
  have width : mldtWidth ((s.env h).team.shapes.get 0 f.shp.val) = some w := mldtWidth_of_wide ((mldtMisshaped_eq_false r a).1 hm).1
  rw [exec_mldt, execMldt, hb, Bool.and_false, if_neg Bool.false_ne_true, nibIssue_next I]
  refine congrArg _ ((if_neg (ne_true_of_eq_false hm)).trans ?_)
  simp only [width, Option.getD_some, Nat.add_assoc]
  refine if_congr (Bool.not_eq_true' _).to_iff rfl ?_
  split
  · next found =>
    have hit : lowestHit (s.mldtHits h f n) = _ := found
    rw [hit]
    rfl
  · next missed =>
    have unwatched : lowestHit (s.mldtHits h f n) = none := missed
    rw [unwatched]
    exact if_congr (Bool.not_eq_true' _).to_iff rfl rfl

end

theorem mldtBeyond_iff (e : Env) (f : EF) : mldtBeyond e f = true ↔ TileWide (formatWidth (e.mldtShape f)) ∧
    ∃ x, f.d = .v x ∧ e.g.allot e.slot < x.val + (recField (e.mldtShape f) 392 16 * formatWidth (e.mldtShape f) + 31) / 32 := by
  by_cases wide : TileWide (formatWidth (e.mldtShape f))
  · have width : mldtWidth (e.team.shapes.get 0 f.shp.val) = some (formatWidth (e.mldtShape f)) := mldtWidth_of_wide wide
    simp only [mldtBeyond, width, wide, true_and]
    cases f.d with
    | v x =>
      simp only [Opnd.v.injEq, exists_eq_left']
      exact decide_eq_true_iff
    | _ => simp
  · have width : mldtWidth (e.team.shapes.get 0 f.shp.val) = none := mldtWidth_of_not_wide wide
    simp only [mldtBeyond, width, wide, false_and, Bool.false_eq_true]

/-- Settles O39: the status bits and the cell of one term, which a row's fold adds cell by cell; guidance and destination elements by a
cell's class; MLDT by the checks that it makes in turn. -/
theorem accumulatorsAndTiles : Obligations.AccumulatorsAndTiles := by
  unfold Obligations.AccumulatorsAndTiles
  refine ⟨⟨fun anchor sat neg x st m e => ?finite, fun anchor sat x st t => ?int, fun anchor sat x st v k => addTerm_special,
    fun c => ⟨classAdd_fin c, classAdd_nan_left c, classAdd_nan_right c⟩, rfl, rfl, rfl, rfl, rfl, rfl, Acc.addRow_cells, termOf_int,
    termOf_fin, fun w c u => guideCell_special, fun neg c u hc hu => guideCell_inf hc hu neg, fun neg m e c u hc hu => ?guide,
    fun a i fmt rnd sat nof eo => ⟨Acc.out_int, Acc.out_wide⟩⟩, fun s h f n I => ?tile⟩
  case finite =>
    intro q mag sum r
    have term : r = _ := addTerm_fin neg m e
    rw [term]
    exact ⟨rfl, clampCell_toInt _, termStatus_bits st sum _ x.cls⟩
  case int =>
    obtain ⟨cls, overflow, value⟩ := addTerm_int (anchor := anchor) (sat := sat) (x := x) (st := st) t
    exact ⟨cls, overflow, value⟩
  case guide =>
    intro d q mag t sum r
    have cell : r = _ := guideCell_fin hc hu neg m e
    rw [cell]
    obtain ⟨inexact, overflow, special⟩ := guideStatus_bits sum t (e < 0 ∧ q % 2 ^ (-e).toNat ≠ 0)
    exact ⟨rfl, clampCell_toInt _, inexact, overflow.trans or_assoc, special⟩
  case tile =>
    intro e u r a cols rows w wide regs beyond shaped bytes lines hits
    have allotted : ¬beyond → mldtBeyond e f = false := fun hb => Bool.eq_false_iff.2 fun h => hb ((mldtBeyond_iff e f).1 h)
    have misshaped : ¬shaped → mldtMisshaped r a = true := fun hs =>
      Bool.not_eq_false _ ▸ fun h => hs ((mldtMisshaped_eq_false r a).1 h)
    have formed : shaped → mldtMisshaped r a = false := (mldtMisshaped_eq_false r a).2
    have run : ¬beyond → shaped → _ := fun hb hs => exec_mldt_run I (allotted hb) (formed hs)
    refine ⟨fun hb => exec_mldt_beyond I ((mldtBeyond_iff e f).2 hb), fun hb hs => exec_mldt_shape I (allotted hb) (misshaped hs),
      fun hb hs hr => (run hb hs).trans (congrArg _ (if_pos hr)), fun hb hs hr => ?_⟩
    have inside := (run hb hs).trans (congrArg _ (if_neg (Bool.not_eq_false _ ▸ hr)))
    refine ⟨fun k off hw => ?_, fun hw hp => ?_, fun hw hp => ⟨_, ?_, computes_one I.toIssues f.d _⟩⟩ <;>
      rw [inside, show lowestHit (s.mldtHits h f n) = _ from hw]
    · rfl
    · exact congrArg _ (if_pos hp)
    · exact congrArg _ (if_neg (Bool.not_eq_false _ ▸ hp))

end Sys2Proof.Machine

/-! PROOFS of the statements of 09_compute_instructions.md: bit operations, fields and shifts (R128). -/

namespace Sys2Proof.Machine

/-! ## Instructions that write one register, or a register and a predicate (R120) -/

section
variable {s : State} {h : Hdr} {f : VF} {i : Instr} {closed : Closed}

theorem wideOp_gives (op : W64 → W64 → W64 → W64) (he : exec i s = wideOp i h f closed op s) : Gives s i h f.d fun l =>
    valRegs f.ty.is64 (op ((s.env h).src l f.ty f.a) ((s.env h).srcB l f) ((s.env h).src l f.ty f.d)) := gives_of he rfl rfl

theorem shiftOp_gives (op : W64 → W32 → W64) (he : exec i s = shiftOp i h f closed op s) : Gives s i h f.d fun l =>
    valRegs f.ty.is64 (op ((s.env h).src l f.ty f.a) ((s.env h).srcB32 l f)) := gives_of he rfl rfl

theorem countOp_gives (op : Nat → Nat) (he : exec i s = countOp i h f op s) : Gives s i h f.d fun l =>
    [BitVec.ofNat 32 (op ((s.env h).src l f.ty f.a).toNat)] := gives_of he rfl rfl

theorem arithOp_gives (op : Int → Int → Int → Int) (he : exec i s = arithOp i h f closed op s) : Gives s i h f.d fun l =>
    valRegs f.ty.is64 (narrow f.ty f.sat (op (intA s h f l) (intB s h f l) (intD s h f l))) :=
  wideOp_gives _ he

/-- An instruction whose body writes one destination and then one predicate. -/
theorem computes_both (I : Issues s i) (d : Opnd) (val : Nat → List W32) (p : Nat) (hp : p < 8) (b : Nat → Bool) :
    Computes s (((s.beginIssue h).writeD (s.env h) d val).writeP (s.env h) p b) h [(d, val)] [(p, b)] :=
  computes_writeP (computes_one I d val) I.lanesIn p hp b

end

/-! ## Bits of a sign-extended field (R128) -/

theorem ibit_of_lt {z : Int} {n i : Nat} (h0 : 0 ≤ z) (h1 : z < 2 ^ n) (hi : n ≤ i) : ibit z i = false := by
  have small : z < 2 ^ i := h1.trans_le (pow_le_pow_right₀ (by norm_num) hi)
  simp [ibit, Int.ediv_eq_zero_of_lt h0 small]

theorem ibit_of_neg {z : Int} {n i : Nat} (h0 : z < 0) (h1 : -(2 ^ n) ≤ z) (hi : n ≤ i) : ibit z i = true := by
  have small : (2 : Int) ^ n ≤ 2 ^ i := pow_le_pow_right₀ (by norm_num) hi
  have floor : z / 2 ^ i = -1 :=
    (Int.ediv_eq_iff_of_pos (by positivity)).2 ⟨by omega, by omega⟩
  simp [ibit, floor]

theorem ibit_sub_two_pow {n i : Nat} (z : Int) (hi : i < n) : ibit (z - 2 ^ n) i = ibit z i := by
  have low := ibit_mod (z - 2 ^ n) n i
  rw [Int.sub_emod_right, ibit_mod] at low
  simpa [hi] using low.symm

/-- The top bit of an n-bit field says whether the field is at least 2^(n − 1). -/
theorem ibit_top {z : Int} {n : Nat} (hn : 0 < n) (h0 : 0 ≤ z) (h1 : z < 2 ^ n) : ibit z (n - 1) = decide (2 ^ (n - 1) ≤ z) := by
  obtain ⟨k, rfl⟩ := Nat.exists_eq_succ_of_ne_zero hn.ne'
  rw [Nat.succ_sub_one]
  rw [pow_succ] at h1
  rcases lt_or_ge z (2 ^ k) with hz | hz
  · rw [ibit_of_lt h0 hz le_rfl, decide_eq_false (by omega)]
  · have one : z / 2 ^ k = 1 := (Int.ediv_eq_iff_of_pos (by positivity)).2 ⟨by omega, by omega⟩
    simp [ibit, one, hz]

/-- A field read as signed repeats its top bit above itself; read as unsigned it has zeros there. -/
theorem ibit_extend {z : Int} {n : Nat} (hn : 0 < n) (h0 : 0 ≤ z) (h1 : z < 2 ^ n) (signed : Bool) (i : Nat) :
    ibit (if (signed && decide (2 ^ (n - 1) ≤ z)) = true then z - 2 ^ n else z) i =
      if i < n then ibit z i else signed && ibit z (n - 1) := by
  rw [← ibit_top hn h0 h1]
  split
  · next hs =>
    split
    · next hi => exact ibit_sub_two_pow z hi
    · next hi => rw [hs, ibit_of_neg (by omega) (by omega) (Nat.le_of_not_lt hi)]
  · next hs =>
    split
    · rfl
    · next hi => rw [ibit_of_lt h0 h1 (Nat.le_of_not_lt hi), Bool.eq_false_iff.2 hs]

/-! ## Shifts, rotation and fields, bit by bit (R128) -/

theorem natBits_low (x : Nat) : natBits x 7 0 = x % 256 := rfl

theorem natBits_second (x : Nat) : natBits x 15 8 = x / 256 % 256 := congrArg (· % 256) (Nat.shiftRight_eq_div_pow x 8)

theorem wBits_le (t : Ty) : wBits t ≤ 64 := by rcases wBits_eq t with h | h <;> omega

section
variable {t : Ty} {x : W64} {n i : Nat}

theorem getLsbD_of_wBits_le (hx : x.toNat < 2 ^ wBits t) (hi : wBits t ≤ i) : x.getLsbD i = false := ibit_big _ _ _ hx hi

theorem shlVal_bit (hi : i < wBits t) : (shlVal t x n).getLsbD i = (decide (n ≤ i) && x.getLsbD (i - n)) := by
  unfold shlVal
  split
  · next hn => simp [show ¬n ≤ i by omega]
  · rw [ofNat_bit _ _ (hi.trans_le (wBits_le t)), Nat.testBit_mod_two_pow, Nat.testBit_mul_two_pow, decide_eq_true hi, Bool.true_and]
    rfl

theorem shrVal_bit (hx : x.toNat < 2 ^ wBits t) (hi : i < wBits t) : (shrVal t x n).getLsbD i = x.getLsbD (i + n) := by
  unfold shrVal
  split
  · next hn => rw [getLsbD_of_wBits_le hx (by omega)]; simp
  · rw [ofNat_bit _ _ (hi.trans_le (wBits_le t)), Nat.testBit_div_two_pow]
    rfl

theorem sarVal_bit (ht : t.isSigned = true) (hx : x.toNat < 2 ^ wBits t) (hi : i < wBits t) :
    (sarVal t x n).getLsbD i = x.getLsbD (Nat.min (i + n) (wBits t - 1)) := by
  rw [sarVal, narrow_bit t _ i hi, ibit_div, val_bit t x _ hx, ht, Bool.true_and]
  have inside : (if wBits t ≤ n then wBits t else n) + i < wBits t ↔ i + n < wBits t := by split <;> omega
  rw [if_congr inside rfl rfl]
  split
  · next hs => rw [if_neg (by omega), Nat.add_comm, show Nat.min (i + n) (wBits t - 1) = i + n from Nat.min_eq_left (by omega)]
  · next hs => rw [show Nat.min (i + n) (wBits t - 1) = wBits t - 1 from Nat.min_eq_right (by omega)]

/-- ROTL's two parts lie side by side: the low bits moved up by the amount, and below them the bits that leave at the top. -/
theorem rotlVal_bit (hx : x.toNat < 2 ^ wBits t) (hi : i < wBits t) :
    (rotlVal t x n).getLsbD ((i + n) % wBits t) = x.getLsbD i := by
  have hw := wBits_le t
  have hk : n % wBits t < wBits t := Nat.mod_lt _ (by omega)
  have place : (i + n) % wBits t = if i + n % wBits t < wBits t then i + n % wBits t else i + n % wBits t - wBits t := by
    rw [← Nat.add_mod_mod]
    split
    · next hlt => exact Nat.mod_eq_of_lt hlt
    · next hge => rw [Nat.mod_eq_sub_mod (by omega), Nat.mod_eq_of_lt (by omega)]
  rw [place]
  simp only [rotlVal]
  generalize n % wBits t = k at hk ⊢
  generalize wBits t = W at *
  have split_pow : 2 ^ W = 2 ^ k * 2 ^ (W - k) := by rw [← pow_add]; congr 1; omega
  have low : x.toNat / 2 ^ (W - k) < 2 ^ k := by
    rw [Nat.div_lt_iff_lt_mul (by positivity), ← split_pow]
    exact hx
  have parts : x.toNat * 2 ^ k % 2 ^ W = 2 ^ k * (x.toNat % 2 ^ (W - k)) := by
    rw [split_pow, Nat.mul_comm, Nat.mul_mod_mul_left]
  rw [ofNat_bit _ _ (by split <;> omega), parts, Nat.testBit_two_pow_mul_add _ low]
  split
  · next hs =>
    rw [if_neg (by omega), Nat.testBit_mod_two_pow, decide_eq_true (by omega), Bool.true_and, Nat.add_sub_cancel]
    rfl
  · next hs =>
    rw [if_pos (by omega), Nat.testBit_div_two_pow, show i + k - W + (W - k) = i by omega]
    rfl

theorem brev_bit (hx : x.toNat < 2 ^ wBits t) (hi : i < wBits t) :
    (BitVec.ofNat 64 (revBits (wBits t) x.toNat)).getLsbD (wBits t - 1 - i) = x.getLsbD i := by
  have hw := wBits_le t
  rw [ofNat_bit _ _ (by omega), (rev_bit _ _ i hi hx).1]
  rfl

/-- The bits at and above the type's width are zero, so that those below it are all there is to count. -/
theorem popc_count (hx : x.toNat < 2 ^ wBits t) :
    popBits 64 x.toNat = ((upto (wBits t)).filter fun k => x.getLsbD k).length := by
  have hw := wBits_le t
  have high : (rangeFrom (wBits t) (64 - wBits t)).filter (fun k => x.toNat.testBit k) = [] := by
    refine List.filter_eq_nil_iff.2 fun k hk => ?_
    rw [ibit_big _ k _ hx (mem_rangeFrom.1 hk).1]
    exact Bool.false_ne_true
  have all : upto 64 = upto (wBits t) ++ rangeFrom (wBits t) (64 - wBits t) := by
    have cut := rangeFrom_append 0 (wBits t) (64 - wBits t)
    rwa [Nat.add_sub_cancel' hw, Nat.zero_add] at cut
  rw [pop_count, all, List.filter_append, high, List.append_nil]
  rfl

theorem clz_leading (hx : x.toNat < 2 ^ wBits t) (h0 : x ≠ 0) : x.toNat / 2 ^ (wBits t - 1 - clzBits (wBits t) x.toNat) = 1 := by
  have nonzero : x.toNat ≠ 0 := fun e => h0 (BitVec.eq_of_toNat_eq e)
  have below : Nat.log2 x.toNat < wBits t := (Nat.log2_lt nonzero).2 hx
  have le := Nat.log2_self_le nonzero
  have lt := Nat.lt_log2_self (n := x.toNat)
  rw [clzBits, if_neg nonzero, show wBits t - 1 - (wBits t - 1 - Nat.log2 x.toNat) = Nat.log2 x.toNat by omega]
  rw [pow_succ] at lt
  exact (Nat.div_eq_iff (by positivity)).2 ⟨by omega, by omega⟩

/-- Bit k of A extended by its type. -/
def extBit (t : Ty) (x : W64) (k : Nat) : Bool := if k < wBits t then x.getLsbD k else t.isSigned && x.getLsbD (wBits t - 1)

theorem bfxVal_bit (hx : x.toNat < 2 ^ wBits t) (hi : i < wBits t) (ctl : W32) :
    let pos := ctl.toNat % 256
    let len := Nat.min (ctl.toNat / 256 % 256) (wBits t)
    (bfxVal t x ctl).getLsbD i =
      if len = 0 then false else if i < len then extBit t x (pos + i) else t.isSigned && extBit t x (pos + len - 1) := by
  intro pos len
  have bit : ∀ k, k < len → ibit (valIn t x / 2 ^ pos % 2 ^ len) k = extBit t x (pos + k) := fun k hk => by
    rw [ibit_mod, decide_eq_true hk, Bool.true_and, ibit_div, val_bit t x _ hx]
    rfl
  simp only [bfxVal, natBits_low, natBits_second]
  split
  · simp
  · next hl =>
    have extended := ibit_extend (Nat.pos_of_ne_zero hl) (Int.emod_nonneg (valIn t x / 2 ^ pos) (by positivity))
      (Int.emod_lt_of_pos _ (by positivity)) t.isSigned i
    rw [narrow_bit t _ i hi]
    refine extended.trans ?_
    split
    · next hk => exact bit i hk
    · rw [bit _ (by omega), ← Nat.add_sub_assoc (by omega)]

theorem bfiVal_bit (hi : i < wBits t) (ctl : W32) (c : W64) : (bfiVal t x ctl c).getLsbD i =
    if ctl.toNat % 256 ≤ i ∧ i < ctl.toNat % 256 + ctl.toNat / 256 % 256 then c.getLsbD (i - ctl.toNat % 256) else x.getLsbD i := by
  have h64 : i < 64 := hi.trans_le (wBits_le t)
  simp only [bfiVal, natBits_low, natBits_second, BitVec.getLsbD_or, BitVec.getLsbD_and, BitVec.getLsbD_not, ofNat_bit _ _ h64,
    bfi_mask_bit _ _ _ _ hi, Nat.testBit_mod_two_pow, Nat.testBit_mul_two_pow, h64, hi, decide_true, Bool.true_and]
  split
  · next hm =>
    rw [decide_eq_true hm, decide_eq_true hm.1, Bool.not_true, Bool.and_false, Bool.false_or, Bool.true_and, Bool.and_true]
    rfl
  · next hm => rw [decide_eq_false hm, Bool.not_false, Bool.and_true, Bool.and_false, Bool.or_false]

end

/-- Settles O9: each instruction by the register that its body writes, each value by the bits of the integer that it is. -/
theorem bitResults : Obligations.BitResults := by
  unfold Obligations.BitResults
  refine ⟨fun s h f => ?gives, ?bits⟩
  case gives =>
    exact ⟨wideOp_gives (fun x y _ => x &&& y) rfl, wideOp_gives (fun x y _ => x ||| y) rfl, wideOp_gives (fun x y _ => x ^^^ y) rfl,
      wideOp_gives (fun x _ _ => ~~~x) rfl, shiftOp_gives (fun x n => shlVal f.ty x n.toNat) rfl,
      shiftOp_gives (fun x n => shrVal f.ty x n.toNat) rfl, shiftOp_gives (fun x n => sarVal f.ty x n.toNat) rfl,
      shiftOp_gives (fun x n => rotlVal f.ty x n.toNat) rfl, shiftOp_gives (bfxVal f.ty) rfl, gives_of rfl rfl rfl,
      countOp_gives (popBits 64) rfl, countOp_gives (clzBits (wBits f.ty)) rfl,
      wideOp_gives (fun x _ _ => BitVec.ofNat 64 (revBits (wBits f.ty) x.toNat)) rfl⟩
  case bits =>
    intro t x n i W hx hi
    exact ⟨shlVal_bit hi, shrVal_bit hx hi, fun ht => sarVal_bit ht hx hi, rotlVal_bit hx hi, brev_bit hx hi, popc_count hx,
      fun h0 => by rw [h0]; rfl, clz_leading hx, bfxVal_bit hx hi, bfiVal_bit hi⟩

end Sys2Proof.Machine

/-! PROOFS of the statements of 09_compute_instructions.md: FCMP (R134). -/

namespace Sys2Proof.Machine

section
variable {c : Cmp} {x y : FVal}

theorem fcmpVal_nan (h : x = .nan ∨ y = .nan) : fcmpVal c x y = decide (c = .ne ∨ c = .nan) := by
  have nan : (x.isNan || y.isNan) = true := by simpa only [Bool.or_eq_true, FVal.isNan_iff] using h
  rw [fcmpVal, if_pos nan, Bool.decide_or]
  rfl

theorem fcmpVal_number (hx : x ≠ .nan) (hy : y ≠ .nan) : fcmpVal c x y = (icmpVal c (x.diff y) 0 || c == .num) := by
  have number : ¬(x.isNan || y.isNan) = true := by
    simpa only [Bool.or_eq_true, FVal.isNan_iff, not_or] using ⟨hx, hy⟩
  exact if_neg number

theorem fcmpVal_ordered (hn : c ≠ .num) (hx : x ≠ .nan) (hy : y ≠ .nan) : fcmpVal c x y = icmpVal c (x.diff y) 0 := by
  rw [fcmpVal_number hx hy, beq_false_of_ne hn, Bool.or_false]

end

section
variable (c : Cmp) (x y : Int)

theorem icmpVal_sub_zero : icmpVal c (x - y) 0 = icmpVal c x y := by
  cases c <;> simp only [icmpVal, Bool.beq_eq_decide_eq, bne, sub_eq_zero, sub_neg, sub_nonpos, sub_pos, sub_nonneg]

theorem icmpVal_mul_pos {p : Int} (hp : 0 < p) : icmpVal c (x * p) (y * p) = icmpVal c x y := by
  cases c <;> simp only [icmpVal, Bool.beq_eq_decide_eq, bne, mul_left_inj' hp.ne', mul_lt_mul_iff_left₀ hp, mul_le_mul_iff_left₀ hp]

end

/-- The signed integer of a value at a lower common exponent. -/
theorem scaled_lower (neg : Bool) (m : Nat) {c d e : Int} (hc : c ≤ d) (hd : d ≤ e) :
    scaled neg m e c = scaled neg m e d * 2 ^ (d - c).toNat := by
  have digits : (e - c).toNat = (e - d).toNat + (d - c).toNat := by omega
  unfold scaled
  rw [digits, pow_add]
  cases neg
  · simp only [Bool.false_eq_true, if_false]; ring
  · simp only [if_true]; ring

theorem scaled_eq_sign_mul (neg : Bool) (m : Nat) (e c : Int) :
    scaled neg m e c = (if neg then -1 else 1) * ((m * 2 ^ (e - c).toNat : Nat) : Int) := by
  cases neg <;> simp [scaled]

/-- Two finite operands compare as their integers at any common exponent. -/
theorem fcmpVal_fin {r : Cmp} (hr : r ≠ .num) (a b : Bool) (m n : Nat) {e k c : Int} (he : c ≤ e) (hk : c ≤ k) :
    fcmpVal r (.fin a m e) (.fin b n k) = icmpVal r (scaled a m e c) (scaled b n k c) := by
  have hc : c ≤ min e k := le_min he hk
  rw [fcmpVal_ordered hr (by simp) (by simp), scaled_lower a m hc (min_le_left e k), scaled_lower b n hc (min_le_right e k),
    icmpVal_mul_pos r _ _ (by positivity)]
  exact icmpVal_sub_zero r _ _

theorem fcmpVal_inf {r : Cmp} (hr : r ≠ .num) (a b : Bool) (m n : Nat) (e k : Int) :
    let one := fun (neg : Bool) => if neg then (-1 : Int) else 1
    fcmpVal r (.inf a) (.fin b n k) = icmpVal r (one a) 0 ∧ fcmpVal r (.fin a m e) (.inf b) = icmpVal r 0 (one b) ∧
      fcmpVal r (.inf a) (.inf b) = icmpVal r (one a) (one b) := by
  refine ⟨fcmpVal_ordered hr (by simp) (by simp), ?_, ?_⟩
  · rw [fcmpVal_ordered hr (by simp) (by simp), ← icmpVal_sub_zero r 0]
    cases b <;> rfl
  · rw [fcmpVal_ordered hr (by simp) (by simp), ← icmpVal_sub_zero r _ (if b then (-1 : Int) else 1)]
    rfl

theorem fcmpVal_zeros (c : Cmp) (a b : Bool) (e k : Int) : fcmpVal c (.fin a 0 e) (.fin b 0 k) = (icmpVal c 0 0 || c == .num) := by
  rw [fcmpVal_number (by simp) (by simp)]
  cases a <;> cases b <;> simp [FVal.diff, scaled]

/-- Settles O12: the predicate that the body writes, and its value by the classes of the operands. -/
theorem floatComparison : Obligations.FloatComparison := by
  unfold Obligations.FloatComparison
  refine ⟨fun s h f I => ⟨_, issueInk_next I _, computes_pred I _ f.pred.isLt _⟩, fun c x y => fcmpVal_nan,
    fun x y hx hy => ⟨by rw [fcmpVal_number hx hy]; rfl, by rw [fcmpVal_number hx hy]; rfl⟩, fun a b e k => ?zeros,
    fun r a b m n e k c hr _ he hk => ?values⟩
  case zeros =>
    simp only [fcmpVal_zeros]
    decide
  case values =>
    refine ⟨?_, fcmpVal_inf hr a b m n e k⟩
    simp only [← scaled_eq_sign_mul]
    exact fcmpVal_fin hr a b m n he hk

end Sys2Proof.Machine

/-! PROOFS of the statements of 09_compute_instructions.md: MATCH and ELECT (R43, R151). -/

namespace Sys2Proof.Machine

theorem maskOf_bit {n k : Nat} (hk : k < n) (ls : List Nat) : (maskOf n ls).getLsbD k = true ↔ k ∈ ls := by
  induction ls with
  | nil => simp [maskOf]
  | cons i ls ih =>
    rw [maskOf, BitVec.getLsbD_or, Bool.or_eq_true, ih, List.mem_cons, BitVec.getLsbD_ofNat, Nat.testBit_two_pow]
    simp [hk, eq_comm]

/-! ## Ascending lanes -/

theorem rangeFrom_ascending (lo n : Nat) : (rangeFrom lo n).Pairwise (· < ·) := by
  induction n generalizing lo with
  | zero => exact .nil
  | succ n ih => exact .cons (fun k hk => (mem_rangeFrom.1 hk).1) (ih _)

/-- The least of ascending numbers stands first. -/
theorem headD_of_least {xs : List Nat} (hp : xs.Pairwise (· < ·)) {n : Nat} (hn : n ∈ xs) (hle : ∀ k ∈ xs, n ≤ k) (d : Nat) :
    xs.headD d = n := by
  cases hp with
  | nil => cases hn
  | @cons x xs hx _ =>
    rcases List.mem_cons.1 hn with rfl | hn
    · rfl
    · exact absurd (hx n hn) (not_lt.2 (hle x (List.mem_cons_self ..)))

/-! ## The sets of a vote (R43) -/

theorem eligibleLanes_ascending (s : State) (c slot : Nat) : (s.eligibleLanes c slot).Pairwise (· < ·) := by
  unfold State.eligibleLanes
  dsimp only
  split
  · exact (rangeFrom_ascending _ _).filter _
  · exact .nil

theorem pcSets_ascending (g : Group) {ls : List Nat} (h : ls.Pairwise (· < ·)) : ∀ p ∈ g.pcSets ls, p.lanes.Pairwise (· < ·) := by
  intro p hp
  obtain ⟨pc, _, rfl⟩ := List.mem_map.1 hp
  exact h.filter _

theorem forcedSet_mem {xs : List PCSet} {f : PCSet} (h : forcedSet xs = some f) : f ∈ xs := by
  unfold forcedSet at h
  dsimp only at h
  split at h
  · exact List.mem_of_find?_eq_some h
  · cases h

/-- A vote names sets of its list. -/
theorem voteSets_mem {xs : List PCSet} {p : PCSet} {q : Option (PCSet × Bool)} (h : voteSets xs = some (p, q)) :
    p ∈ xs ∧ ∀ r, q = some r → r.1 ∈ xs := by
  match xs, h with
  | [x], h => cases h; exact ⟨List.mem_cons_self .., fun _ h => nomatch h⟩
  | x :: y :: zs, h =>
    simp only [voteSets] at h
    split at h
    · next f hf =>
      have mem := forcedSet_mem hf
      split at h <;> cases h
      · exact ⟨by simp, fun _ h => by cases h; exact mem⟩
      · exact ⟨by simp, fun _ h => by cases h; exact mem⟩
    · cases h
      exact ⟨by simp, fun _ h => by cases h; simp⟩

/-- The sets that issue are sets that the vote names. -/
theorem jointIssue_keeps {P : PCSet → Prop} {v : PCSet × Option (PCSet × Bool)} {unit : PCSet → Option IssueUnit}
    {w : PCSet × Option PCSet} (h : jointIssue v unit = w) (hp : P v.1) (hq : ∀ r, v.2 = some r → P r.1) :
    P w.1 ∧ ∀ r, w.2 = some r → P r := by
  subst h
  obtain ⟨p, _ | ⟨q, forced⟩⟩ := v
  · exact ⟨hp, fun _ h => nomatch h⟩
  · have second : P q := hq _ rfl
    simp only [jointIssue]
    split
    · exact ⟨by split <;> assumption, fun _ h => nomatch h⟩
    · exact ⟨hp, fun _ h => by cases h; exact second⟩

theorem vote_ascending {s : State} {c slot : Nat} {p : PCSet} {q : Option PCSet} (h : s.vote c slot = some (p, q)) :
    p.lanes.Pairwise (· < ·) ∧ ∀ r, q = some r → r.lanes.Pairwise (· < ·) := by
  obtain ⟨v, hv, joint⟩ := Option.map_eq_some_iff.1 h
  obtain ⟨first, second⟩ := voteSets_mem hv
  have sets := pcSets_ascending (s.group c slot) (eligibleLanes_ascending s c slot)
  exact jointIssue_keeps (P := fun x => x.lanes.Pairwise (· < ·)) joint (sets _ first) fun r hr => sets _ (second r hr)

/-- Settles O15: MATCH by the bits of its mask, ELECT by the head of the ascending active lanes. -/
theorem matchAndElect : Obligations.MatchAndElect := by
  unfold Obligations.MatchAndElect
  refine fun s h f => ⟨fun I => ?matching, fun I hasc n hn hle => ?elect, fun c slot p q => vote_ascending⟩
  case matching =>
    refine ⟨_, _, issueInk_next I _, computes_one I f.d _, fun l k hk => ?_⟩
    rw [maskOf_bit hk, List.mem_filter, beq_iff_eq]
    rfl
  case elect =>
    have head : (s.env h).active.headD 0 = n := headD_of_least (hasc.filter _) hn hle 0
    refine ⟨_, issueInk_next I _, ?_⟩
    dsimp only
    rw [head]
    exact computes_both I f.d _ _ f.pred.isLt _

end Sys2Proof.Machine

/-! PROOFS of the statements of 09_compute_instructions.md: integer arithmetic (R98, R125, R127). -/

namespace Sys2Proof.Machine

/-! ## Division (R127) -/

section
variable {t : Ty} {sat : Bool} {x y : Int}

theorem div_by_zero : narrow t false (idivVal t sat x 0) = narrow t false (-1) ∧ iremVal t x 0 = x := by
  have ones : (2 ^ wBits t - 1 : Int) % 2 ^ wBits t = -1 % 2 ^ wBits t := by
    rw [sub_eq_neg_add, Int.add_emod_right]
  simp only [idivVal, iremVal, narrow, Bool.false_eq_true, if_false, if_true, ones, and_self]

theorem div_overflow (ht : t.isSigned = true) :
    idivVal t sat (-(2 ^ (wBits t - 1))) (-1) = (if sat then 2 ^ (wBits t - 1) - 1 else -(2 ^ (wBits t - 1))) ∧
      iremVal t (-(2 ^ (wBits t - 1))) (-1) = 0 := by
  simp [idivVal, iremVal, ht]

theorem div_truncates (hy : y ≠ 0) (h : t.isSigned = false ∨ x ≠ -(2 ^ (wBits t - 1)) ∨ y ≠ -1) :
    idivVal t sat x y = Int.tdiv x y ∧ iremVal t x y = Int.tmod x y := by
  have plain : ¬(t.isSigned && decide (x = -(2 ^ (wBits t - 1))) && decide (y = -1)) = true := by
    simp only [Bool.and_eq_true, decide_eq_true_eq]
    rintro ⟨⟨hs, hx⟩, h1⟩
    rcases h with h | h | h
    · rw [hs] at h; cases h
    · exact h hx
    · exact h h1
  simp only [idivVal, iremVal, if_neg hy, if_neg plain, true_and]
  exact (Int.tmod_def x y).symm

end

/-! ## Narrowing (R98) -/

section
variable {t : Ty} {x : Int}

theorem wBits_pos (t : Ty) : 0 < wBits t := by rcases wBits_eq t with h | h <;> omega

theorem narrow_toNat (t : Ty) (x : Int) : (narrow t false x).toNat = (x % 2 ^ wBits t).toNat := by
  have bound : (x % 2 ^ wBits t).toNat < 2 ^ wBits t := by
    rw [Int.toNat_lt (Int.emod_nonneg _ (by positivity))]
    exact_mod_cast Int.emod_lt_of_pos x (by positivity)
  simp only [narrow, Bool.false_eq_true, if_false]
  rw [BitVec.toNat_ofNat, Nat.mod_eq_of_lt (bound.trans_le (Nat.pow_le_pow_right (by norm_num) (wBits_le t)))]

theorem narrow_clamps (t : Ty) (x : Int) : narrow t true x =
    narrow t false (clampInt (typeRange t.isSigned (wBits t)).1 (typeRange t.isSigned (wBits t)).2 x) := rfl

theorem typeRange_ordered (signed : Bool) (n : Nat) : (typeRange signed n).1 ≤ (typeRange signed n).2 := by
  have h1 : (1 : Int) ≤ 2 ^ (n - 1) := one_le_pow₀ (by norm_num)
  have h0 : (1 : Int) ≤ 2 ^ n := one_le_pow₀ (by norm_num)
  cases signed <;> simp only [typeRange, Bool.false_eq_true, if_false, if_true] <;> omega

theorem clampInt_mem {lo hi : Int} (h0 : lo ≤ x) (h1 : x ≤ hi) : clampInt lo hi x = x := by
  rw [clampInt, if_neg (by omega), if_neg (by omega)]

theorem clampInt_above {lo hi : Int} (h : lo ≤ hi) (h1 : hi < x) : clampInt lo hi x = hi := by
  rw [clampInt, if_neg (by omega), if_pos h1]

theorem clampInt_below {lo hi : Int} (h0 : x < lo) : clampInt lo hi x = lo := if_pos h0

/-- A pattern's value in a type: of a signed one the representative nearest zero. -/
theorem valIn_eq {x : W64} (hx : x.toNat < 2 ^ wBits t) :
    valIn t x = if t.isSigned then (x.toNat : Int).bmod (2 ^ wBits t) else x.toNat := by
  unfold valIn wBits at *
  cases h64 : t.is64
  · have low : (x.truncate 32).toNat = x.toNat := by
      rw [h64] at hx
      exact Nat.mod_eq_of_lt hx
    simp only [Bool.false_eq_true, if_false, BitVec.toInt_eq_toNat_bmod, low]
  · simp only [if_true, BitVec.toInt_eq_toNat_bmod]

theorem valIn_narrow (h0 : (typeRange t.isSigned (wBits t)).1 ≤ x) (h1 : x ≤ (typeRange t.isSigned (wBits t)).2) :
    valIn t (narrow t false x) = x := by
  have modulus : ((x % 2 ^ wBits t).toNat : Int) = x % 2 ^ wBits t := Int.toNat_of_nonneg (Int.emod_nonneg _ (by positivity))
  have bound : (narrow t false x).toNat < 2 ^ wBits t := by
    rw [narrow_toNat, Int.toNat_lt (Int.emod_nonneg _ (by positivity))]
    exact_mod_cast Int.emod_lt_of_pos x (by positivity)
  rw [valIn_eq bound, narrow_toNat, modulus]
  unfold typeRange at h0 h1
  split
  · next hs =>
    rw [hs, if_pos rfl] at h0 h1
    rw [show (2 : Int) ^ wBits t = ((2 ^ wBits t : Nat) : Int) by push_cast; rfl, Int.emod_bmod]
    have half : 2 ^ wBits t = 2 * 2 ^ (wBits t - 1) := by rw [← pow_succ', Nat.sub_add_cancel (wBits_pos t)]
    have cast : ((2 ^ (wBits t - 1) : Nat) : Int) = 2 ^ (wBits t - 1) := by push_cast; rfl
    exact Int.bmod_eq_of_le (by simp only at h0; omega) (by simp only at h1; omega)
  · next hs =>
    rw [if_neg hs] at h0 h1
    simp only at h0 h1
    exact Int.emod_eq_of_lt h0 (by omega)

end

/-- Settles O8: each instruction by the register that its body writes, the corners of division by cases, and narrowing by the
residue modulo 2^W that a pattern's value is. -/
theorem integerResults : Obligations.IntegerResults := by
  unfold Obligations.IntegerResults
  refine ⟨fun s h f => ?gives, ⟨fun t sat x => div_by_zero, fun t sat => div_overflow, fun t sat x y => div_truncates⟩,
    fun t x => ⟨narrow_toNat t x, fun h0 h1 => ?kept, fun h1 => ?above, fun h0 => ?below⟩⟩
  case gives =>
    exact ⟨arithOp_gives (fun x y _ => x + y) rfl, arithOp_gives (fun x y _ => x - y) rfl, arithOp_gives (fun x y _ => x * y) rfl,
      wideOp_gives (fun x y _ => narrow f.ty false (valIn f.ty x * valIn f.ty y / 2 ^ wBits f.ty)) rfl,
      arithOp_gives (fun x y d => x * y + d) rfl, arithOp_gives (fun x y _ => if x ≤ y then x else y) rfl,
      arithOp_gives (fun x y _ => if x ≤ y then y else x) rfl, arithOp_gives (fun x _ _ => (x.natAbs : Int)) rfl,
      arithOp_gives (fun x _ _ => -x) rfl,
      wideOp_gives (fun x y _ => narrow f.ty false (idivVal f.ty f.sat (valIn f.ty x) (valIn f.ty y))) rfl,
      wideOp_gives (fun x y _ => narrow f.ty false (iremVal f.ty (valIn f.ty x) (valIn f.ty y))) rfl⟩
  case kept =>
    have same : narrow t true x = narrow t false x := by rw [narrow_clamps, clampInt_mem h0 h1]
    exact ⟨same, by rw [same, valIn_narrow h0 h1]⟩
  case above => rw [narrow_clamps, clampInt_above (typeRange_ordered _ _) h1]
  case below => rw [narrow_clamps, clampInt_below h0]

end Sys2Proof.Machine

/-! PROOFS of the statements of 09_compute_instructions.md: selection, moves, addresses, carries and comparisons (R73, R126, R127, R129),
and pairs (R77, R81 to R83). -/

namespace Sys2Proof.Machine

/-! ## Carries, comparisons and immediates -/

theorem addCarry_exact {t : Ty} {x y : W64} (cin : Bool) (hx : x.toNat < 2 ^ wBits t) (hy : y.toNat < 2 ^ wBits t) :
    let r := addCarry t x y cin
    r.1.toNat < 2 ^ wBits t ∧ r.1.toNat + (if r.2 then 2 ^ wBits t else 0) = x.toNat + y.toNat + (if cin then 1 else 0) := by
  have carry : (if cin then 1 else 0) ≤ 1 := by cases cin <;> decide
  have fits : 2 ^ wBits t ≤ 2 ^ 64 := Nat.pow_le_pow_right (by norm_num) (wBits_le t)
  have pos : 0 < 2 ^ wBits t := by positivity
  simp only [addCarry, decide_eq_true_eq]
  generalize (if cin then 1 else 0) = c at *
  generalize 2 ^ wBits t = M at *
  have small : (x.toNat + y.toNat + c) % M < 2 ^ 64 := (Nat.mod_lt _ pos).trans_le fits
  rw [BitVec.toNat_ofNat, Nat.mod_eq_of_lt small]
  refine ⟨Nat.mod_lt _ pos, ?_⟩
  split
  · next hc => rw [Nat.mod_eq_sub_mod hc, Nat.mod_eq_of_lt (by omega), Nat.sub_add_cancel hc]
  · next hc => rw [Nat.mod_eq_of_lt (by omega), Nat.add_zero]

theorem icmpVal_iff (x y : Int) : (icmpVal .eq x y = true ↔ x = y) ∧ (icmpVal .ne x y = true ↔ x ≠ y) ∧
    (icmpVal .lt x y = true ↔ x < y) ∧ (icmpVal .le x y = true ↔ x ≤ y) ∧ (icmpVal .gt x y = true ↔ x > y) ∧
    (icmpVal .ge x y = true ↔ x ≥ y) := by
  simp only [icmpVal, beq_iff_eq, bne_iff_ne, decide_eq_true_eq, ne_eq, gt_iff_lt, ge_iff_le, and_self]

theorem zeroExtend_toNat (x : W32) : (x.zeroExtend 64).toNat = x.toNat := BitVec.toNat_setWidth_of_le (by decide)

theorem immVal_signed (x : W32) : (immVal .i64 x).toInt = x.toInt := BitVec.toInt_signExtend_of_le (by decide)

theorem immVal_word (t : Ty) (x : W32) (ht : t.width = 32) : (immVal t x).toNat = x.toNat := by
  cases t with
  | b32 | i32 | n32 | f32 | x2 => exact zeroExtend_toNat x
  | _ => cases ht

theorem immVal_narrow (t : Ty) (x : W32) (ht : t.width < 32) : (immVal t x).toNat = x.toNat % 2 ^ t.width := by
  have cut : immVal t x = BitVec.ofNat 64 (x.toNat % 2 ^ t.width) := by
    cases t with
    | i4 | n4 | f4 | i8 | n8 | f8a | f8b | i16 | n16 | f16 | bf16 => rfl
    | _ => exact absurd ht (by decide)
  rw [cut, BitVec.toNat_ofNat, Nat.mod_eq_of_lt]
  exact (Nat.mod_le _ _).trans_lt (x.isLt.trans (by decide))

/-! ## MOVS (R129) -/

section
variable {s : State} {h : Hdr} {f : VF}

theorem exec_movs_computes (I : Issues s (.movs h f)) : ∃ t, exec (.movs h f) s = .next t ∧
    Computes s t h (if f.a = f.d then [] else
      [(f.d, fun l => valRegs f.ty.is64 ((s.env h).src l f.ty f.a)), (f.a, fun l => valRegs f.ty.is64 ((s.env h).src l f.ty f.d))]) [] := by
  refine ⟨_, issue_next I _ _, ?_⟩
  split
  · exact computes_begin s h I.lanesIn
  · exact computes_writeD (computes_one I f.d _) I.lanesIn f.a _

end

/-! ## Pairs: what their operations leave in the lanes of a set (R77, R83) -/

/-- Since the issue of an instruction its set has advanced, and of what its frame lets change only the v registers of the set's lanes
have: they hold the values given for each lane. -/
structure LaneValues (s t : State) (reg : Nat → Nat → W32) : Prop extends SetFrame s t where
  advances : Advances s t
  sc : ∀ m, t.issGroup.rs m = s.issGroup.rs m
  v : ∀ l ∈ s.iss.lanes, ∀ m, (t.issLane l).rv m = reg l m
  p : ∀ l ∈ s.iss.lanes, ∀ k, k < 8 → (t.issLane l).pred k = (s.issLane l).pred k

section
variable {s t : State} {reg : Nat → Nat → W32}

theorem mem_active {h : Hdr} {l : Nat} (hl : l ∈ s.iss.lanes) : l ∈ s.active h ↔ Hdr.holds h ((s.env h).g.lane l) = true := by
  simp only [State.active, State.env, List.mem_filter, hl, true_and]

theorem laneValues_begin (hr : LanesIn s) (h : Hdr) : LaneValues s (s.beginIssue h) fun l => (s.issLane l).rv := by
  have C := computes_begin s h hr
  exact {
    toSetFrame := C.toSetFrame
    advances := C.advances
    sc := rs_beginIssue s h
    v := fun l hl m => (C.v l hl m).trans (ite_self _)
    p := fun l hl k hk => (C.p l hl k hk).trans (ite_self _) }

/-- Values written to a v register of the lanes whose guard is true, whichever header's guard it is. -/
theorem LaneValues.writeV (L : LaneValues s t reg) (hr : LanesIn s) (h : Hdr) (r : Fin 320) (val : Nat → List W32) :
    LaneValues s (t.writeD (s.env h) (.v r) val) fun l =>
      if Hdr.holds h ((s.env h).g.lane l) then vAfter (reg l) (.v r) (val l) else reg l := by
  have F : SetFrame s (t.writeD (s.env h) (.v r) val) :=
    L.toSetFrame.foldLanes (s.active h) (active_sub s h) (fun l x => x.wvs r.val (val l)) fun l x => LaneKept.wvs x _ _
  have lane {P : Lane → Prop} {l : Nat} (hl : l ∈ s.iss.lanes) (on : l ∈ s.active h → P ((t.issLane l).wvs r.val (val l)))
      (off : l ∉ s.active h → P (t.issLane l)) (again : ∀ x : Lane, P (x.wvs r.val (val l)) → P ((x.wvs r.val (val l)).wvs r.val (val l))) :
      P ((t.writeD (s.env h) (.v r) val).issLane l) := by
    rw [F.issLane_eq]
    exact issLane_active L.toSetFrame (fun l x => x.wvs r.val (val l)) _ l hr hl P (fun hm x hx => hx ▸ on hm) off fun _ => again
  exact {
    toSetFrame := F
    advances := fun l hl => by
      have old := L.advances l hl
      refine lane (P := fun x => x.cur = s.iss.pc + 12 ∧ x.wait = .none) hl (fun _ => ?_) (fun _ => old) fun x hx => ?_
      · rwa [(cur_wvs _ _ _).1, (cur_wvs _ _ _).2.1]
      · rwa [(cur_wvs _ _ _).1, (cur_wvs _ _ _).2.1]
    sc := fun m => by
      rw [← L.sc m, State.issGroup, F.iss, State.issGroup, L.toSetFrame.iss]
      exact rs_fold ..
    v := fun l hl m => by
      refine lane (P := fun x => x.rv m = _) hl (fun hm => ?_) (fun hm => ?_) fun x hx => (wvs_wvs ..).trans hx
      · rw [if_pos ((mem_active hl).1 hm), Lane.wvs_append, L.v l hl m]
        rfl
      · rw [if_neg fun hh => hm ((mem_active hl).2 hh), L.v l hl m]
    p := fun l hl k hk => by
      have old := L.p l hl k hk
      exact lane (P := fun x => x.pred k = _) hl (fun _ => ((cur_wvs _ _ _).2.2 k).trans old) (fun _ => old)
        fun x hx => ((cur_wvs _ _ _).2.2 k).trans hx }

end

theorem Opnd.eq_v_of_vNo {o : Opnd} {n : Nat} (h : o.vNo = some n) : ∃ r, o = .v r := by
  cases o with
  | v r => exact ⟨r, rfl⟩
  | s | k => cases h

/-- Both destinations of a well-formed pair are v registers (R82). -/
theorem pair_destinations {h : Hdr} {f : PF} (hw : (Instr.pair h f).wf = true) : (∃ r, f.op0.d = .v r) ∧ ∃ r, f.op1.d = .v r := by
  have legal : pairOk f = true := (Bool.and_eq_true_iff.1 hw).2
  unfold pairOk at legal
  split at legal
  · next h0 h1 => exact ⟨Opnd.eq_v_of_vNo h0, Opnd.eq_v_of_vNo h1⟩
  · simp at legal

theorem exec_pair_values {s : State} {h : Hdr} {f : PF} (hw : (Instr.pair h f).wf = true) (I : Issues s (.pair h f)) :
    let h1 : Hdr := { h with gneg := f.g1neg, gpred := f.g1pred }
    ∃ t, exec (.pair h f) s = .next t ∧ LaneValues s t fun l =>
      let r0 := if Hdr.holds h ((s.env h).g.lane l) then vAfter (s.issLane l).rv f.op0.d ((s.env h).pairRes l f.op0)
        else (s.issLane l).rv
      if Hdr.holds h1 ((s.env h).g.lane l) then vAfter r0 f.op1.d ((s.env h1).pairRes l f.op1) else r0 := by
  obtain ⟨⟨r, h0⟩, q, h1⟩ := pair_destinations hw
  refine ⟨_, issueInk_next I _, ?_⟩
  dsimp only
  rw [h0, h1]
  exact ((laneValues_begin I.lanesIn h).writeV I.lanesIn h r _).writeV I.lanesIn { h with gneg := f.g1neg, gpred := f.g1pred } q _

/-! ## The values of a pair's integer operations (R81) -/

section
variable (a b d : W32)

theorem ofNat64_toNat : (BitVec.ofNat 64 a.toNat).toNat = a.toNat := by
  rw [BitVec.toNat_ofNat, Nat.mod_eq_of_lt (a.isLt.trans (by decide))]

theorem valIn_i32 : valIn .i32 (BitVec.ofNat 64 a.toNat) = a.toInt := by
  have low : (BitVec.ofNat 64 a.toNat).truncate 32 = a := by
    apply BitVec.eq_of_toNat_eq
    rw [BitVec.truncate_eq_setWidth, BitVec.toNat_setWidth, ofNat64_toNat, Nat.mod_eq_of_lt a.isLt]
  exact congrArg BitVec.toInt low

theorem narrow_i32 (z : Int) : BitVec.ofNat 32 (narrow .i32 false z).toNat = BitVec.ofInt 32 z := by
  apply BitVec.eq_of_toNat_eq
  rw [narrow_toNat, BitVec.toNat_ofNat, BitVec.toNat_ofInt, show wBits .i32 = 32 from rfl]
  omega

/-- An operation on the signed values of 32-bit operands, modulo 2^32. -/
theorem pairInt_value (g : Int → Int → Int → Int) :
    BitVec.ofNat 32 (narrow .i32 false (g (valIn .i32 (BitVec.ofNat 64 a.toNat)) (valIn .i32 (BitVec.ofNat 64 b.toNat))
      (valIn .i32 (BitVec.ofNat 64 d.toNat)))).toNat = BitVec.ofInt 32 (g a.toInt b.toInt d.toInt) := by
  rw [narrow_i32, valIn_i32, valIn_i32, valIn_i32]

theorem ofInt_sub : BitVec.ofInt 32 (a.toInt - b.toInt) = a - b := by
  rw [Int.sub_eq_add_neg, BitVec.ofInt_add, BitVec.ofInt_neg, BitVec.ofInt_toInt, BitVec.ofInt_toInt, BitVec.sub_eq_add_neg]

theorem ofNat_and : BitVec.ofNat 32 (BitVec.ofNat 64 a.toNat &&& BitVec.ofNat 64 b.toNat).toNat = a &&& b := by
  rw [BitVec.toNat_and, ofNat64_toNat, ofNat64_toNat, BitVec.ofNat_and, BitVec.ofNat_toNat, BitVec.ofNat_toNat, BitVec.setWidth_eq,
    BitVec.setWidth_eq]

theorem ofNat_or : BitVec.ofNat 32 (BitVec.ofNat 64 a.toNat ||| BitVec.ofNat 64 b.toNat).toNat = a ||| b := by
  rw [BitVec.toNat_or, ofNat64_toNat, ofNat64_toNat, BitVec.ofNat_or, BitVec.ofNat_toNat, BitVec.ofNat_toNat, BitVec.setWidth_eq,
    BitVec.setWidth_eq]

theorem ofNat_xor : BitVec.ofNat 32 (BitVec.ofNat 64 a.toNat ^^^ BitVec.ofNat 64 b.toNat).toNat = a ^^^ b := by
  rw [BitVec.toNat_xor, ofNat64_toNat, ofNat64_toNat, BitVec.ofNat_xor, BitVec.ofNat_toNat, BitVec.ofNat_toNat, BitVec.setWidth_eq,
    BitVec.setWidth_eq]

/-- Equal bits below 32 make a 64-bit pattern's low word. -/
theorem lowWord_eq {x : W64} {y : W32} (h : ∀ i, i < 32 → x.getLsbD i = y.getLsbD i) : BitVec.ofNat 32 x.toNat = y := by
  apply BitVec.eq_of_getLsbD_eq
  intro i hi
  rw [BitVec.getLsbD_ofNat, decide_eq_true hi, Bool.true_and]
  exact h i hi

theorem getLsbD_ofNat64 (i : Nat) : (BitVec.ofNat 64 a.toNat).getLsbD i = a.getLsbD i := by
  rw [← BitVec.testBit_toNat, ofNat64_toNat, BitVec.testBit_toNat]

theorem shlVal_word (n : Nat) : BitVec.ofNat 32 (shlVal .b32 (BitVec.ofNat 64 a.toNat) n).toNat = a <<< n :=
  lowWord_eq fun i hi => by
    rw [shlVal_bit (t := .b32) hi, getLsbD_ofNat64, BitVec.getLsbD_shiftLeft, decide_eq_true hi, Bool.true_and]
    by_cases hn : n ≤ i
    · simp [hn]
    · simp [hn, Nat.lt_of_not_le hn]

theorem shrVal_word (n : Nat) : BitVec.ofNat 32 (shrVal .b32 (BitVec.ofNat 64 a.toNat) n).toNat = a >>> n :=
  lowWord_eq fun i hi => by
    rw [shrVal_bit (t := .b32) (by rw [ofNat64_toNat]; exact a.isLt) hi, getLsbD_ofNat64, BitVec.getLsbD_ushiftRight, Nat.add_comm]

theorem sarVal_word (n : Nat) : BitVec.ofNat 32 (sarVal .i32 (BitVec.ofNat 64 a.toNat) n).toNat = a.sshiftRight n :=
  lowWord_eq fun i hi => by
    rw [sarVal_bit (t := .i32) rfl (by rw [ofNat64_toNat]; exact a.isLt) hi, getLsbD_ofNat64, BitVec.getLsbD_sshiftRight,
      decide_eq_false (by omega), Bool.not_false, Bool.true_and]
    split
    · next hs => rw [Nat.add_comm n, show Nat.min (i + n) (wBits .i32 - 1) = i + n from Nat.min_eq_left (by change i + n ≤ 31; omega)]
    · next hs =>
      rw [BitVec.msb_eq_getLsbD_last, show Nat.min (i + n) (wBits .i32 - 1) = 31 from Nat.min_eq_right (by change 31 ≤ i + n; omega)]

end

/-- Settles O10: each instruction by what its body writes; a pair by two writes after one another, each under its own guard. -/
theorem selectionAndPairs : Obligations.SelectionAndPairs := by
  unfold Obligations.SelectionAndPairs
  refine ⟨fun s h f => ?gives, ⟨fun t x y cin hx hy => addCarry_exact cin hx hy, icmpVal_iff, fun x =>
    ⟨immVal_signed x, zeroExtend_toNat x, zeroExtend_toNat x, fun t => ⟨immVal_word t x, immVal_narrow t x⟩⟩⟩, fun s h f hw I => ?pair,
    fun e l p => ?values⟩
  case gives =>
    exact ⟨gives_of rfl rfl rfl, gives_of rfl rfl rfl, gives_of rfl rfl rfl, gives_of rfl rfl rfl,
      fun I => ⟨_, issueInk_next I _, computes_both I _ _ _ f.pred.isLt _⟩,
      fun I => ⟨_, issue_next I _ _, computes_pred I _ f.pred.isLt _⟩, exec_movs_computes⟩
  case pair =>
    obtain ⟨t, ht, L⟩ := exec_pair_values hw I
    exact ⟨t, ht, L.toSetFrame, L.advances, L.sc, fun l hl => ⟨L.v l hl, L.p l hl⟩⟩
  case values =>
    intro a b d flt two
    obtain ⟨o, od, oa, ob⟩ := p
    refine congrArg (fun x => [x]) ?_
    cases o with
    | iadd => exact (pairInt_value a b d fun x y _ => x + y).trans (by rw [BitVec.ofInt_add, BitVec.ofInt_toInt, BitVec.ofInt_toInt])
    | isub => exact (pairInt_value a b d fun x y _ => x - y).trans (ofInt_sub a b)
    | imul => exact (pairInt_value a b d fun x y _ => x * y).trans (by rw [BitVec.ofInt_mul, BitVec.ofInt_toInt, BitVec.ofInt_toInt])
    | imad =>
      exact (pairInt_value a b d fun x y z => x * y + z).trans
        (by rw [BitVec.ofInt_add, BitVec.ofInt_mul, BitVec.ofInt_toInt, BitVec.ofInt_toInt, BitVec.ofInt_toInt])
    | imin =>
      exact (pairInt_value a b d fun x y _ => if x ≤ y then x else y).trans
        (by rw [apply_ite (BitVec.ofInt 32), BitVec.ofInt_toInt, BitVec.ofInt_toInt])
    | imax =>
      exact (pairInt_value a b d fun x y _ => if x ≤ y then y else x).trans
        (by rw [apply_ite (BitVec.ofInt 32), BitVec.ofInt_toInt, BitVec.ofInt_toInt])
    | and => exact ofNat_and a b
    | or => exact ofNat_or a b
    | xor => exact ofNat_xor a b
    | shl => exact shlVal_word a b.toNat
    | shr => exact shrVal_word a b.toNat
    | sar => exact sarVal_word a b.toNat
    | movf | movi => exact BitVec.ofNat_toNat ..
    | _ => rfl

end Sys2Proof.Machine

/-! PROOFS of the statements of 09_compute_instructions.md: cross-lane instructions (R95, R96, R133, R147 to R150) and random numbers
(R153 to R157). -/

namespace Sys2Proof.Machine

/-! ## The sources of SHFL (R148) -/

theorem shflSource_modes (w l c : Nat) : let b := l - l % w
    shflSource 0 w l c = some (b + c % w) ∧ shflSource 3 w l c = some (b + ((l % w) ^^^ (c % w))) ∧
    (c < w → b ≤ l - c → c ≤ l → shflSource 1 w l c = some (l - c)) ∧ (¬(c < w ∧ b + c ≤ l) → shflSource 1 w l c = none) ∧
    (c < w → l + c < b + w → shflSource 2 w l c = some (l + c)) ∧ (¬(c < w ∧ l + c < b + w) → shflSource 2 w l c = none) := by
  simp only [shflSource, Bool.and_eq_true, decide_eq_true_eq]
  refine ⟨trivial, trivial, fun hc hb hl => if_pos ⟨hc, by omega⟩, fun h => if_neg h, fun hc hb => if_pos ⟨hc, hb⟩, fun h => if_neg h⟩

/-! ## Votes (R149) -/

section
variable (act : List Nat) (q : Nat → Bool)

theorem voteAll_iff : (voteVal 0 act q).2 = true ↔ ∀ l ∈ act, q l = true := by
  rw [← List.length_filter_eq_length_iff]
  exact beq_iff_eq

theorem voteAny_iff : (voteVal 1 act q).2 = true ↔ ∃ l ∈ act, q l = true := by
  simp [voteVal]

theorem voteUniform_iff : (voteVal 2 act q).2 = true ↔ (∀ l ∈ act, q l = true) ∨ ∀ l ∈ act, q l = false := by
  have none : (act.filter q).isEmpty = true ↔ ∀ l ∈ act, q l = false := by
    simp only [List.isEmpty_iff, List.filter_eq_nil_iff, Bool.not_eq_true]
  rw [← voteAll_iff, ← none, or_comm]
  exact Bool.or_eq_true_iff

theorem voteTruth_word {m : Nat} (hm : m < 3) : (voteVal m act q).1 = if (voteVal m act q).2 then 1 else 0 := by
  match m, hm with
  | 0, _ | 1, _ | 2, _ => rfl

theorem voteMask_bit {k : Nat} (hk : k < 32) : (voteVal 3 act q).1.getLsbD k = true ↔ k ∈ act ∧ q k = true :=
  (maskOf_bit hk _).trans List.mem_filter

theorem voteCount : (voteVal 4 act q).1 = BitVec.ofNat 32 (act.countP q) := by
  rw [List.countP_eq_length_filter]
  rfl

end

/-! ## Reductions (R95, R96, R133, R150) -/

section
variable (f : VF) (val : Nat → W32) (l : Nat) (ls : List Nat)

theorem combine_one :
    combine f val [l] = some (if f.ty = .f32 ∧ fF32.decode (val l).toNat = .nan then 0x7FC00000 else val l) := by
  simp only [combine, List.foldl_nil, reduceFirst, Bool.and_eq_true, decide_eq_true_eq, FVal.isNan_iff]
  rfl

theorem combine_snoc {v : W32} (h : combine f val ls = some v) : combine f val (ls ++ [l]) = some (reduceStep f v (val l)) := by
  cases ls with
  | nil => cases h
  | cons k ks =>
    cases h
    rw [List.cons_append, combine, List.foldl_append]
    rfl

end

/-- The low word of a result narrowed to a 32-bit type. -/
theorem loHalf_narrow {t : Ty} (ht : wBits t = 32) (sat : Bool) (z : Int) : loHalf (narrow t sat z) =
    BitVec.ofInt 32 (if sat then clampInt (typeRange t.isSigned 32).1 (typeRange t.isSigned 32).2 z else z) := by
  have wraps : ∀ y, loHalf (narrow t false y) = BitVec.ofInt 32 y := fun y => by
    refine Eq.trans ?_ (narrow_i32 y)
    simp only [narrow, ht]
    rfl
  cases sat with
  | false => exact wraps z
  | true => rw [narrow_clamps, wraps, ht]; rfl

/-- A result that .SAT does not clamp is taken modulo 2^32. -/
theorem loHalf_narrow_kept {t : Ty} (ht : wBits t = 32) {sat : Bool} {z : Int}
    (hs : sat = true → (typeRange t.isSigned 32).1 ≤ z ∧ z ≤ (typeRange t.isSigned 32).2) : loHalf (narrow t sat z) = BitVec.ofInt 32 z := by
  rw [loHalf_narrow ht]
  split
  · next h => rw [clampInt_mem (hs h).1 (hs h).2]
  · rfl

/-- A 32-bit register's value in a 32-bit integer type. -/
theorem valIn_typed {t : Ty} (ht : t = .i32 ∨ t = .n32) (v : W32) : valIn t (v.zeroExtend 64) = typed t.isSigned v := by
  have low : (v.zeroExtend 64).truncate 32 = v := by
    apply BitVec.eq_of_toNat_eq
    rw [BitVec.truncate_eq_setWidth, BitVec.toNat_setWidth, zeroExtend_toNat, Nat.mod_eq_of_lt v.isLt]
  rcases ht with rfl | rfl
  · exact congrArg BitVec.toInt low
  · exact congrArg (fun x : W32 => (x.toNat : Int)) low

theorem typed_mem (signed : Bool) (v : W32) : (typeRange signed 32).1 ≤ typed signed v ∧ typed signed v ≤ (typeRange signed 32).2 := by
  have nat := v.isLt
  have lower := v.le_toInt
  have upper := v.toInt_lt
  cases signed <;> simp only [typeRange, typed, Bool.false_eq_true, if_false, if_true] <;> omega

section
variable {f : VF} (v a : W32)

theorem reduceStep_bitwise : (f.sub = 3 → reduceStep f v a = v &&& a) ∧ (f.sub = 4 → reduceStep f v a = v ||| a) ∧
    (f.sub = 5 → reduceStep f v a = v ^^^ a) := by
  unfold reduceStep
  refine ⟨fun h => ?_, fun h => ?_, fun h => ?_⟩ <;> rw [h] <;> rfl

theorem reduceStep_f32 (ht : f.ty = .f32) :
    (f.sub = 0 → reduceStep f v a = BitVec.ofNat 32 (faddBits fF32 (Rnd.ofCode f.rc) v.toNat a.toNat)) ∧
    (f.sub = 1 → reduceStep f v a = BitVec.ofNat 32 (fminmax fF32 false v.toNat a.toNat)) ∧
    (f.sub = 2 → reduceStep f v a = BitVec.ofNat 32 (fminmax fF32 true v.toNat a.toNat)) := by
  unfold reduceStep
  rw [ht]
  refine ⟨fun h => ?_, fun h => ?_, fun h => ?_⟩ <;> rw [h] <;> rfl

section
variable (ht : f.ty = .i32 ∨ f.ty = .n32)
include ht

/-- The integer operations, of 32-bit types, on the values of their operands. -/
theorem reduceStep_int : let x := valIn f.ty (v.zeroExtend 64)
    let y := valIn f.ty (a.zeroExtend 64)
    (f.sub = 0 → reduceStep f v a = loHalf (narrow f.ty f.sat (x + y))) ∧
    (f.sub = 1 → reduceStep f v a = loHalf (narrow f.ty f.sat (if x ≤ y then x else y))) ∧
    (f.sub = 2 → reduceStep f v a = loHalf (narrow f.ty f.sat (if x ≤ y then y else x))) := by
  unfold reduceStep
  refine ⟨fun h => ?_, fun h => ?_, fun h => ?_⟩ <;> rw [h] <;> rcases ht with ht | ht <;> rw [ht] <;> rfl

theorem wBits_word : wBits f.ty = 32 := by rcases ht with ht | ht <;> rw [ht] <;> rfl

theorem reduceStep_sum (h : f.sub = 0) :
    reduceStep f v a = loHalf (narrow f.ty f.sat (typed f.ty.isSigned v + typed f.ty.isSigned a)) := by
  rw [(reduceStep_int v a ht).1 h, valIn_typed ht, valIn_typed ht]

/-- A sum that .SAT does not clamp is the sum of the patterns. -/
theorem reduceStep_wraps (h : f.sub = 0) {x y : Int} (hx : typed f.ty.isSigned v = x) (hy : typed f.ty.isSigned a = y)
    (hs : f.sat = true → (typeRange f.ty.isSigned 32).1 ≤ x + y ∧ x + y ≤ (typeRange f.ty.isSigned 32).2) :
    reduceStep f v a = v + a := by
  subst hx hy
  rw [reduceStep_sum v a ht h, loHalf_narrow_kept (wBits_word ht) hs, BitVec.ofInt_add, ofInt_typed, ofInt_typed]

/-- A minimum and a maximum are in the type's range, so that .SAT changes neither. -/
theorem reduceStep_extremes :
    (f.sub = 1 → reduceStep f v a = if typed f.ty.isSigned v ≤ typed f.ty.isSigned a then v else a) ∧
    (f.sub = 2 → reduceStep f v a = if typed f.ty.isSigned v ≤ typed f.ty.isSigned a then a else v) := by
  have kept : ∀ x : W32, loHalf (narrow f.ty f.sat (typed f.ty.isSigned x)) = x := fun x => by
    rw [loHalf_narrow_kept (wBits_word ht) fun _ => typed_mem _ x, ofInt_typed]
  obtain ⟨_, least, greatest⟩ := reduceStep_int v a ht
  rw [valIn_typed ht, valIn_typed ht] at least greatest
  refine ⟨fun h => (least h).trans ?_, fun h => (greatest h).trans ?_⟩
  · rw [apply_ite (fun z => loHalf (narrow f.ty f.sat z)), kept, kept]
  · rw [apply_ite (fun z => loHalf (narrow f.ty f.sat z)), kept, kept]

end

theorem reduceStep_n32 (ht : f.ty = .n32) :
    (f.sub = 0 → reduceStep f v a = if f.sat ∧ 2 ^ 32 ≤ v.toNat + a.toNat then 0xFFFFFFFF else v + a) ∧
    (f.sub = 1 → reduceStep f v a = if v.toNat ≤ a.toNat then v else a) ∧
    (f.sub = 2 → reduceStep f v a = if v.toNat ≤ a.toNat then a else v) := by
  have value : ∀ x : W32, typed f.ty.isSigned x = x.toNat := fun x => by rw [ht]; rfl
  have range : typeRange f.ty.isSigned 32 = (0, 2 ^ 32 - 1) := by rw [ht]; rfl
  obtain ⟨least, greatest⟩ := reduceStep_extremes v a (.inr ht)
  simp only [value, Int.ofNat_le] at least greatest
  refine ⟨fun h => ?_, least, greatest⟩
  split
  · next hs =>
    obtain ⟨sat, above⟩ := hs
    rw [reduceStep_sum v a (.inr ht) h, loHalf_narrow (wBits_word (.inr ht)), sat, if_pos rfl, range, value, value,
      clampInt_above (by norm_num) (by simp only; omega)]
    rfl
  · next hs =>
    refine reduceStep_wraps v a (.inr ht) h (value v) (value a) fun sat => ?_
    rw [range]
    simp only [sat, true_and] at hs ⊢
    omega

theorem reduceStep_i32 (ht : f.ty = .i32) :
    (f.sub = 0 → reduceStep f v a = if f.sat = true ∧ 2 ^ 31 ≤ v.toInt + a.toInt then 0x7FFFFFFF
      else if f.sat = true ∧ v.toInt + a.toInt < -2 ^ 31 then 0x80000000 else v + a) ∧
    (f.sub = 1 → reduceStep f v a = if v.toInt ≤ a.toInt then v else a) ∧
    (f.sub = 2 → reduceStep f v a = if v.toInt ≤ a.toInt then a else v) := by
  have value : ∀ x : W32, typed f.ty.isSigned x = x.toInt := fun x => by rw [ht]; rfl
  have range : typeRange f.ty.isSigned 32 = (-(2 ^ 31), 2 ^ 31 - 1) := by rw [ht]; rfl
  obtain ⟨least, greatest⟩ := reduceStep_extremes v a (.inl ht)
  simp only [value] at least greatest
  refine ⟨fun h => ?_, least, greatest⟩
  split
  · next hs =>
    obtain ⟨sat, above⟩ := hs
    rw [reduceStep_sum v a (.inl ht) h, loHalf_narrow (wBits_word (.inl ht)), sat, if_pos rfl, range, value, value,
      clampInt_above (by norm_num) (by simp only; omega)]
    rfl
  · next hs =>
    split
    · next hl =>
      obtain ⟨sat, below⟩ := hl
      rw [reduceStep_sum v a (.inl ht) h, loHalf_narrow (wBits_word (.inl ht)), sat, if_pos rfl, range, value, value,
        clampInt_below (by simp only; omega)]
      rfl
    · next hl =>
      refine reduceStep_wraps v a (.inl ht) h (value v) (value a) fun sat => ?_
      rw [range]
      simp only [sat, true_and] at hs hl ⊢
      omega

end

theorem reduceIdentity_values (f : VF) :
    (f.sub = 0 ∨ f.sub = 4 ∨ f.sub = 5 → reduceIdentity f = 0) ∧ (f.sub = 3 → reduceIdentity f = 0xFFFFFFFF) ∧
    (f.sub = 1 → reduceIdentity f = if f.ty = .i32 then 0x7FFFFFFF else if f.ty = .n32 then 0xFFFFFFFF else 0x7F800000) ∧
    (f.sub = 2 → reduceIdentity f = if f.ty = .i32 then 0x80000000 else if f.ty = .n32 then 0 else 0xFF800000) := by
  unfold reduceIdentity
  refine ⟨fun h => ?_, fun h => ?_, fun h => ?_, fun h => ?_⟩
  · rcases h with h | h | h <;> rw [h] <;> rfl
  · rw [h]; rfl
  · rw [h]; cases f.ty <;> rfl
  · rw [h]; cases f.ty <;> rfl

/-! ## Draws (R155) -/

theorem loHalf_toNat (x : W64) : (loHalf x).toNat = x.toNat % 2 ^ 32 := rfl

theorem xor_shift_toNat (x : W64) (n : Nat) : (x ^^^ (x >>> n)).toNat = x.toNat ^^^ (x.toNat / 2 ^ n) := by
  rw [BitVec.toNat_xor, BitVec.toNat_ushiftRight, Nat.shiftRight_eq_div_pow]

theorem rngOut_mixes (k sid : W64) (pos : Nat) :
    let M := 2 ^ 64
    let a := (k.toNat + sid.toNat * 0x5B3CD81F29E4A76B) % M ^^^ (pos * 0xA3B195D46C2EF0B7 % M)
    let b := (a ^^^ (a / 2 ^ 31)) * 0x8F1DC7A53E69B42D % M
    let c := (b ^^^ (b / 2 ^ 29)) * 0xA3B195D46C2EF0B7 % M
    (rngOut k sid pos).toNat = (c ^^^ (c / 2 ^ 32)) % 2 ^ 32 := by
  have start : (k + sid * (0x5B3CD81F29E4A76B : W64) ^^^ BitVec.ofNat 64 pos * (0xA3B195D46C2EF0B7 : W64)).toNat =
      (k.toNat + sid.toNat * 0x5B3CD81F29E4A76B) % 2 ^ 64 ^^^ (pos * 0xA3B195D46C2EF0B7 % 2 ^ 64) := by
    rw [BitVec.toNat_xor, BitVec.toNat_add, BitVec.toNat_mul, BitVec.toNat_mul, BitVec.toNat_ofNat pos 64, Nat.add_mod_mod,
      Nat.mod_mul_mod]
    rfl
  intro M a b c
  simp only [rngOut]
  rw [loHalf_toNat, xor_shift_toNat, BitVec.toNat_mul, xor_shift_toNat, BitVec.toNat_mul, xor_shift_toNat]
  rw [start]
  rfl

theorem rngTyped_bits {t : Ty} (ht : t ≠ .f32) (x : W32) : rngTyped t x = x := if_neg ht

theorem rngTyped_zero {x : W32} (hx : x.toNat < 256) : rngTyped .f32 x = 0 := by
  rw [rngTyped, if_pos rfl, Nat.div_eq_of_lt hx]
  rfl

/-- A magnitude whose rounding needs no carry and does not overflow: the exponent field over the fraction. -/
theorem roundMag_normal {f : Fmt} {r : Rnd} {neg : Bool} {m t : Nat} {e q : Int} (hq : f.quantum m e = q) (ht : roundAt r neg m e q = t)
    (h0 : 2 ^ f.fb ≤ t) (h1 : t < 2 ^ (f.fb + 1)) (hx : (q + f.fb + f.bias).toNat < topOf f) :
    f.roundMag r neg m e = some ((q + f.fb + f.bias).toNat * 2 ^ f.fb + (t - 2 ^ f.fb)) := by
  simp only [Fmt.roundMag, hq, ht, if_neg (not_le.2 h1), if_neg (not_lt.2 h0)]
  exact if_neg (not_le.2 hx)

section
variable {m k : Nat} (h0 : 2 ^ k ≤ m) (h1 : m < 2 ^ (k + 1)) (hk : k ≤ 23)
include h0 h1 hk

/-- A number of at most 24 bits shifted so that bit 23 is its highest. -/
theorem fraction_bounds : 2 ^ 23 ≤ m * 2 ^ (23 - k) ∧ m * 2 ^ (23 - k) < 2 ^ 24 := by
  constructor
  · calc 2 ^ 23 = 2 ^ k * 2 ^ (23 - k) := by rw [← pow_add, Nat.add_sub_cancel' hk]
      _ ≤ m * 2 ^ (23 - k) := Nat.mul_le_mul_right _ h0
  · calc m * 2 ^ (23 - k) < 2 ^ (k + 1) * 2 ^ (23 - k) := Nat.mul_lt_mul_of_pos_right h1 (by positivity)
      _ = 2 ^ 24 := by rw [← pow_add, show k + 1 + (23 - k) = 24 by omega]

/-- A multiple of 2^-24 of at most 24 bits is exact in F32. -/
theorem fF32_encode_fraction : fF32.encode .rne false (.fin false m (-24)) = (103 + k) * 2 ^ 23 + (m * 2 ^ (23 - k) - 2 ^ 23) := by
  have pos : m ≠ 0 := (Nat.lt_of_lt_of_le (Nat.two_pow_pos k) h0).ne'
  have log : Nat.log2 m = k := (Nat.log2_eq_iff pos).2 ⟨h0, h1⟩
  have quantum : fF32.quantum m (-24) = (k : Int) - 47 := by
    simp only [Fmt.quantum, log, fF32]
    omega
  have digits : roundAt .rne false m (-24) ((k : Int) - 47) = m * 2 ^ (23 - k) := by
    rw [roundAt, if_pos (by omega), show (-24 - ((k : Int) - 47)).toNat = 23 - k by omega]
  have exponent : ((k : Int) - 47 + fF32.fb + fF32.bias).toNat = 103 + k := by
    change ((k : Int) - 47 + 23 + 127).toNat = 103 + k
    omega
  obtain ⟨lower, upper⟩ := fraction_bounds h0 h1 hk
  have rounded := roundMag_normal quantum digits lower upper (by rw [exponent]; change 103 + k < 255; omega)
  rw [exponent, show fF32.fb = 23 from rfl] at rounded
  simp only [Fmt.encode, if_neg pos, rounded]
  rw [if_neg (by omega)]
  exact Nat.zero_add _

end

theorem rngTyped_fraction {x : W32} {k : Nat} (h0 : 2 ^ k ≤ x.toNat / 256) (h1 : x.toNat / 256 < 2 ^ (k + 1)) :
    (rngTyped .f32 x).toNat = (103 + k) * 2 ^ 23 + (x.toNat / 256 * 2 ^ (23 - k) - 2 ^ 23) := by
  have hk : k < 24 := (Nat.pow_lt_pow_iff_right (by decide)).1 (h0.trans_lt (Nat.div_lt_of_lt_mul x.isLt))
  obtain ⟨_, upper⟩ := fraction_bounds h0 h1 (by omega)
  rw [rngTyped, if_pos rfl, fF32_encode_fraction h0 h1 (by omega), BitVec.toNat_ofNat, Nat.mod_eq_of_lt (by omega)]

/-! ## The generator of a group (R153 to R157) -/

section
variable {s t : State} {h : Hdr} {f : VF}

theorem SetFrame.seeded (F : SetFrame s t) : t.seeded = s.seeded := by rw [State.seeded, F.iss]; rfl

theorem exec_rng_draws (I : Issues s (.rng h f)) : ∃ u,
    exec (.rng h f) s = .next (if s.seeded then u else u.setCounters (s.env h) fun l => (s.env h).g.gen.n.get 0 l + 1) ∧
    Computes s u h [(f.d, fun l => [rngTyped f.ty
      (rngOut (s.env h).g.gen.k (s.env h).g.gen.sid (32 * ((s.env h).g.gen.n.get 0 l).toNat + l))])] [] := by
  have C := computes_one (h := h) I f.d fun l => [rngTyped f.ty
    (rngOut (s.env h).g.gen.k (s.env h).g.gen.sid (32 * ((s.env h).g.gen.n.get 0 l).toNat + l))]
  refine ⟨_, ?_, C⟩
  rw [← C.toSetFrame.seeded]
  exact issueInk_next I _

theorem exec_rngseed_seeds (I : Issues s (.rngseed h f)) : ∃ u, Computes s u h [] [] ∧
    exec (.rngseed h f) s = .next (match (s.active h).head? with
      | none => u
      | some l => u.modGroup s.iss.core s.iss.slot fun g =>
        { g with gen := { k := (s.env h).src64 l false f.a, sid := (s.env h).src64 l false f.b, n := [] } }) := by
  refine ⟨_, computes_begin s h I.lanesIn, (issueInk_next I _).trans (congrArg _ ?_)⟩
  have active : (s.env h).active = s.active h := rfl
  rw [active]
  cases s.active h <;> rfl

end

theorem get_foldl_set (val : Nat → W32) (ls : List Nat) (n : SMap W32) (l : Nat) :
    (ls.foldl (fun n k => SMap.set 0 n k (val k)) n).get 0 l = if l ∈ ls then val l else n.get 0 l := by
  induction ls generalizing n with
  | nil => simp
  | cons k ks ih =>
    rw [List.foldl_cons, ih, SMap.get_set]
    by_cases hl : l ∈ ks
    · simp [hl]
    · by_cases hk : l = k <;> simp [hl, hk]

/-- The counters of the active lanes alone change of a group that exists. -/
theorem setCounters_group (s : State) (e : Env) (val : Nat → W32) (l : Nat) (hg : ((s.core e.core).groups.find e.slot).isSome = true) :
    let g := s.group e.core e.slot
    let g' := (s.setCounters e val).group e.core e.slot
    g'.gen.n.get 0 l = (if l ∈ e.active then val l else g.gen.n.get 0 l) ∧ { g' with gen := g.gen } = g ∧ g'.gen.k = g.gen.k ∧
      g'.gen.sid = g.gen.sid := by
  obtain ⟨x, hx⟩ := Option.isSome_iff_exists.1 hg
  have before : s.group e.core e.slot = x := by simp [State.group, hx]
  have after : (s.setCounters e val).group e.core e.slot =
      { x with gen := { x.gen with n := e.active.foldl (fun n l => SMap.set 0 n l (val l)) x.gen.n } } := by
    rw [State.setCounters, State.group_modGroup, hx]
    rfl
  rw [before, after]
  exact ⟨get_foldl_set val e.active x.gen.n l, rfl, rfl, rfl⟩

/-- Settles O14: each instruction by what its body writes; votes by their filtered lanes, reductions by one step after another, and
draws by the words of the mixing. -/
theorem crossLaneAndRandom : Obligations.CrossLaneAndRandom := by
  unfold Obligations.CrossLaneAndRandom
  refine ⟨fun s h f => ?gives, ⟨fun w l c _ => shflSource_modes w l c, fun act q => ?votes,
    fun f val l ls => ⟨rfl, combine_one f val l, fun v => combine_snoc f val l ls⟩, fun f v a => ?steps⟩,
    fun s h f => exec_rng_draws, fun s h f => exec_rngseed_seeds,
    fun s h f I => ⟨_, computes_begin s h I.lanesIn, issueInk_next I _⟩, setCounters_group, rngOut_mixes,
    fun t x ht => rngTyped_bits ht x, fun x => rngTyped_zero, fun x k => rngTyped_fraction⟩
  case gives =>
    have dest : modBits f.mod 2 0 < 8 := Nat.mod_lt _ (by decide)
    exact ⟨gives_of rfl rfl rfl, gives_of rfl rfl rfl, fun I => ⟨_, issueInk_next I _, computes_both I _ _ _ f.pred.isLt _⟩,
      fun I => ⟨_, issueInk_next I _, computes_both I _ _ _ dest _⟩⟩
  case votes =>
    exact ⟨voteAll_iff act q, voteAny_iff act q, voteUniform_iff act q, fun m => voteTruth_word act q, fun k => voteMask_bit act q,
      voteCount act q⟩
  case steps =>
    obtain ⟨both, either, differ⟩ := reduceStep_bitwise (f := f) v a
    exact ⟨both, either, differ, reduceStep_f32 v a, reduceStep_n32 v a, reduceStep_i32 v a, reduceIdentity_values f⟩

end Sys2Proof.Machine

/-! PROOFS of the statements of 11_memory_model.md: walks (R160, R163), faults that firmware serves (R48), invalidations (R195, R196)
and lines that time out (R173). -/

namespace Sys2Proof.Machine

/-! ## Walks -/

/-- The elements of which a test fails are no places of the list. -/
theorem placesFrom_append_neg {α : Type} {p : α → Bool} {before : List α} (h : ∀ x ∈ before, p x = false) (xs : List α) (i : Nat) :
    placesFrom p i (before ++ xs) = placesFrom p (i + before.length) xs := by
  induction before generalizing i with
  | nil => rfl
  | cons x before ih =>
    obtain ⟨hx, hb⟩ := List.forall_mem_cons.1 h
    simp only [List.cons_append, placesFrom, hx, Bool.false_eq_true, if_false, ih hb, List.length_cons]
    rw [Nat.add_right_comm, Nat.add_assoc]

/-- The first place is that of the first element that satisfies the test. -/
theorem places_head_append {α : Type} {p : α → Bool} {before : List α} (h : ∀ x ∈ before, p x = false) {w : α} (hw : p w = true)
    (rest : List α) : (places p (before ++ w :: rest)).head? = some before.length := by
  simp only [places, placesFrom_append_neg h, placesFrom, hw, if_true, List.head?_cons, Nat.zero_add]

theorem places_eq_nil {α : Type} {p : α → Bool} {xs : List α} (h : ∀ x ∈ xs, p x = false) : places p xs = [] := by
  simpa [places, placesFrom] using placesFrom_append_neg h [] 0

theorem listErase_append {α : Type} (before : List α) (w : α) (rest : List α) :
    listErase (before ++ w :: rest) before.length = before ++ rest := by
  induction before with
  | nil => rfl
  | cons x before ih => exact congrArg (x :: ·) ih

section
variable {s : State} {d : Nat}

theorem exec_pageWalk_none (h : ∀ w ∈ (s.die d).walks, s.tablesWait d w.ctx w.va = true) : exec (.pageWalk d) s = .next s := by
  rw [exec_pageWalk, execPageWalk, places_eq_nil fun w hw => by rw [h w hw]; rfl]
  rfl

/-- The oldest walk that no stack makes wait leaves the walker and ends. -/
theorem exec_pageWalk_first {w : Walk} {before rest : List Walk} (hs : (s.die d).walks = before ++ w :: rest)
    (hb : ∀ x ∈ before, s.tablesWait d x.ctx x.va = true) (hw : s.tablesWait d w.ctx w.va = false) :
    exec (.pageWalk d) s = .next ((s.modDie d fun x => { x with walks := before ++ rest }).endWalk w).collsGo := by
  rw [exec_pageWalk, execPageWalk, hs, places_head_append (fun x hx => by rw [hb x hx]; rfl) (by rw [hw]; rfl)]
  have left : (s.modDie d fun x => { x with walks := listErase x.walks before.length }) =
      s.modDie d fun x => { x with walks := before ++ rest } := by
    rw [State.modDie, hs, listErase_append]
    rfl
  simp only [List.getElem?_append_right, Nat.le_refl, Nat.sub_self, List.getElem?_cons_zero, left]

/-- A walk whose checks fail changes nothing more. -/
theorem State.endWalk_error {w : Walk} {f : FaultRec} {v : State}
    (h : s.checkAs w.core w.ctx false (fun _ => none) { va := w.va, bytes := 1, need := { r := true }, tagck := true } = (.error f, v)) :
    s.endWalk w = v := by
  rw [State.endWalk, h]

/-- The line of a prefetch is brought in where its checks are met and it is not poisoned. -/
theorem State.endWalk_ok {w : Walk} {pa : Nat} {pte : W64} {v : State}
    (h : s.checkAs w.core w.ctx false (fun _ => none) { va := w.va, bytes := 1, need := { r := true }, tagck := true } =
      (.ok (pa, pte), v)) :
    s.endWalk w = if w.pref = true ∧ v.bad pa 1 = false then v.bringLine w.core w.scope w.policy w.ctx pa pte else v := by
  rw [State.endWalk, h]
  dsimp only
  cases w.pref <;> cases v.bad pa 1 <;> rfl

end

/-! ## Faults that firmware serves -/

section
variable (s : State) (ctx : Nat) (va : W64) (entries : List (Nat × W64))

/-- The state after the entries of page tables are in memory, and tensor identifiers of pages newly mapped are as invalid as they were. -/
def State.tablesPut : State := (entries.foldl (fun t x => t.putBy t.rootDie x.1 (bytesOf 8 x.2.toNat)) s).settleBlanks

theorem exec_translationFaultServed_dead (b : Bool) (h : (s.tablesPut entries).rootAlive = false) :
    exec (.translationFaultServed ctx va entries b) s = .next s := by
  rw [exec_translationFaultServed, execTranslationFaultServed]
  rw [State.tablesPut] at h
  simp only [h, Bool.not_false, if_true]

theorem exec_translationFaultServed_alive (b : Bool) (h : (s.tablesPut entries).rootAlive = true) :
    exec (.translationFaultServed ctx va entries b) s =
      .next (if b then (s.tablesPut entries).resumeFault ctx va else (s.tablesPut entries).failFault ctx va) := by
  rw [exec_translationFaultServed, execTranslationFaultServed]
  rw [State.tablesPut] at h ⊢
  simp only [h, Bool.not_true, Bool.false_eq_true, if_false]

end

theorem Lane.parkedAt_iff (l : Lane) (va : W64) :
    l.parkedAt va = true ↔ ∃ f, l.parked = some f ∧ (untag f.addr).toNat / 65536 = (untag va).toNat / 65536 := by
  simp [Lane.parkedAt, samePage, Option.any_eq_true]

theorem Group.lane_unpark {g : Group} {i : Nat} (hi : i < g.lanes.length) (va : W64) :
    (g.unpark va).lane i = if (g.lane i).parkedAt va then { g.lane i with parked := none } else g.lane i := by
  simp [Group.lane, Group.unpark, hi]

/-! ## Invalidations -/

/-- A core of the die that an invalidation reaches loses the leaves covered. -/
theorem State.core_invalidate (s : State) (c : Nat) (t : InvTarget) (dies : List Nat) (r : Option (Nat × Nat × Nat)) :
    (s.invalidate (dieOf c) t dies r).core c = Core.dropLeaves (Core.keepLeaves (s.core c) t) t := by
  simp only [State.invalidate, State.core, SMap.get_eq_find]
  rw [SMap.find_map _ _ fun x => by split <;> rfl]
  cases s.cores.find c with
  | none => rfl
  | some k => simp

section
variable {s : State} {id : Nat} {i : Inval} (found : s.invals.find? (fun x => x.id == id) = some i)
include found

theorem exec_invalidationComplete_waits (h : i.dies ≠ [] ∨ s.accessesDone i.waits = false ∨ s.commandsDone i = false) :
    exec (.invalidationComplete id) s = .next s := by
  rw [exec_invalidationComplete, execInvalidationComplete, found]
  have waits : (!i.dies.isEmpty || !s.accessesDone i.waits || !s.commandsDone i) = true := by
    simpa [or_assoc] using h
  simp only [waits, if_true]

/-- An invalidation for which nothing waits leaves the package, and is answered where a die link brought it. -/
theorem exec_invalidationComplete_done (h : ¬(i.dies ≠ [] ∨ s.accessesDone i.waits = false ∨ s.commandsDone i = false)) :
    exec (.invalidationComplete id) s = .next (
      let u : State := { s with invals := s.invals.filter fun j => j.id != id }
      i.reply.elim u fun x => (u.sendPacket i.die x.2.1 { op := 0x08, rid := x.2.2, src := x.1, dst := x.1 } []).getD u) := by
  rw [exec_invalidationComplete, execInvalidationComplete, found]
  have done : (!i.dies.isEmpty || !s.accessesDone i.waits || !s.commandsDone i) = false := by
    simpa [and_assoc] using h
  simp only [done, Bool.false_eq_true, if_false]
  cases i.reply <;> rfl

end

/-- Settles O42: each event by the condition under which it acts; a walk by the first place that no stack makes wait. -/
theorem translationEvents : Obligations.TranslationEvents := by
  unfold Obligations.TranslationEvents
  refine ⟨fun s d => ⟨exec_pageWalk_none, fun w before rest hs hb hw => ?walk⟩, fun s ctx va entries => ?served,
    fun l g va i hi hl => ?unpark, fun s t => ⟨rfl, fun c dies r => ?leaves⟩, fun s id i found => ?complete, fun s c d line => ⟨rfl, rfl⟩⟩
  case walk =>
    refine ⟨fun f v h => ?_, fun pa pte v h => ?_⟩
    · rw [exec_pageWalk_first hs hb hw, State.endWalk_error h]
    · rw [exec_pageWalk_first hs hb hw, State.endWalk_ok h]
  case served =>
    exact ⟨fun h b => exec_translationFaultServed_dead s ctx va entries b h, fun h =>
      ⟨exec_translationFaultServed_alive s ctx va entries true h, exec_translationFaultServed_alive s ctx va entries false h⟩⟩
  case unpark =>
    subst hl
    simp only [Group.lane_unpark hi, Lane.parkedAt_iff]
  case leaves =>
    rw [State.core_invalidate]
    exact ⟨rfl, rfl⟩
  case complete =>
    refine ⟨exec_invalidationComplete_waits found, fun h hr => ?_, fun h dst m rid hr => ?_⟩
    all_goals rw [exec_invalidationComplete_done found h, hr]; rfl

end Sys2Proof.Machine

/-! PROOFS of the statements of 11_memory_model.md: every step keeps memory, its tags and poison, and its symbol errors in canonical form
(R165, R167, R320, R321). Laws/Memory has it of the operations that write them; here it is carried through every other operation, every
meaning and every event, in the order of the model's files. A lemma has the name of the function it is about. -/

namespace Sys2Proof.Machine

/-- A meaning keeps the canonical forms: where it ends in a next state, that state has them. -/
structure Res.MemOk (r : Res) : Prop where
  of_next : ∀ t, r = .next t → t.MemOk

/-- What an instruction does to a whole stroke keeps the canonical forms. -/
def Closed.MemOk (c : Closed) : Prop := ∀ s st, s.MemOk → ∀ r, c s st = some r → r.1.MemOk

/-- A check leaves a state with the canonical forms, whether it passes or not. -/
def Gate.MemOk (x : Except State State) : Prop :=
  match x with
  | .ok s => s.MemOk
  | .error s => s.MemOk

theorem Res.MemOk.next {s : State} (ok : s.MemOk) : Res.MemOk (.next s) :=
  ⟨fun _ e => Host.Outcome.next.inj e ▸ ok⟩

theorem Res.MemOk.fault {f : Fault} : Res.MemOk (.fault f) := ⟨fun _ e => nomatch e⟩

namespace State.MemOk
variable {α β : Type} {s : State}

/-- The state of a pair that is known. -/
theorem of_fst {p : State × α} {a : α} (e : p = (s, a)) (ok : p.1.MemOk) : s.MemOk := by
  subst e
  exact ok

theorem of_snd {p : α × State} {a : α} (e : p = (a, s)) (ok : p.2.MemOk) : s.MemOk := by
  subst e
  exact ok

/-- The state of the last of three that are known. -/
theorem of_third {p : α × β × State} {a : α} {b : β} (e : p = (a, b, s)) (ok : p.2.2.MemOk) : s.MemOk := by
  subst e
  exact ok

theorem of_gate {x y : Except State State} (e : x = y) (ok : Gate.MemOk x) : Gate.MemOk y := e ▸ ok

theorem of_none {f : α → State} : ∀ r, none = some r → (f r).MemOk := fun _ e => nomatch e

/-- The state of what an option holds. -/
theorem of_some {f : α → State} {x : α} (ok : (f x).MemOk) : ∀ r, some x = some r → (f r).MemOk :=
  fun _ e => Option.some.inj e ▸ ok

/-- Each of two states. -/
theorem ite {a b : State} {c : Prop} [Decidable c] (hc : a.MemOk) (hn : b.MemOk) : (if c then a else b).MemOk := by
  split
  · exact hc
  · exact hn

theorem of_ite {f : α → State} {o : Option α} {c : Prop} [Decidable c] (h : ∀ r, o = some r → (f r).MemOk) :
    ∀ r, (if c then none else o) = some r → (f r).MemOk := by
  split
  · exact of_none
  · exact h

theorem of_map {f : β → State} {g : α → β} {o : Option α} (h : ∀ x, o = some x → (f (g x)).MemOk) :
    ∀ r, o.map g = some r → (f r).MemOk := by
  intro r e
  obtain ⟨x, hx, rfl⟩ := Option.map_eq_some_iff.1 e
  exact h x hx

theorem of_bind {f : β → State} {g : α → Option β} {o : Option α} (h : ∀ x, o = some x → ∀ r, g x = some r → (f r).MemOk) :
    ∀ r, o.bind g = some r → (f r).MemOk := by
  intro r e
  obtain ⟨x, hx, hr⟩ := Option.bind_eq_some_iff.1 e
  exact h x hx r hr

/-- A state, or where there is one the state that an operation leaves. -/
theorem getD (ok : s.MemOk) {o : Option State} (h : ∀ t, o = some t → t.MemOk) : (o.getD s).MemOk := by
  cases o with
  | none => exact ok
  | some t => exact h t rfl

/-- The first state that a list of operations leaves. -/
theorem of_findSome {g : α → Option State} {xs : List α} (h : ∀ x ∈ xs, ∀ t, g x = some t → t.MemOk) :
    ∀ t, xs.findSome? g = some t → t.MemOk := by
  intro t e
  obtain ⟨x, hx, ht⟩ := List.exists_of_findSome?_eq_some e
  exact h x hx t ht

/-- A fold of operations that keep the canonical forms keeps them. -/
theorem fold (ok : s.MemOk) {f : State → α → State} (hf : ∀ u x, u.MemOk → (f u x).MemOk) {xs : List α} : (xs.foldl f s).MemOk :=
  foldl f hf xs s ok

/-- The same where an operation may leave no state. -/
theorem tryAll {f : State → α → Option State} (hf : ∀ u x, u.MemOk → ∀ t, f u x = some t → t.MemOk) {xs : List α} (ok : s.MemOk) :
    ∀ t, Machine.tryAll f s xs = some t → t.MemOk := by
  induction xs generalizing s with
  | nil => exact of_some ok
  | cons x xs ih =>
    dsimp only [Machine.tryAll]
    split
    · exact ih (hf _ _ ok _ ‹_›)
    · exact of_none

end State.MemOk

/-! ## What whole strokes do -/

namespace Closed.MemOk

theorem inks : Closed.MemOk inks := fun _ _ _ => State.MemOk.of_none

theorem bin (f : VF) (op : Form → Form → Option Form) : Closed.MemOk (closedBin f op) := by
  intro s st ok
  dsimp only [closedBin]
  split
  · exact State.MemOk.of_none
  split
  · split
    · exact State.MemOk.of_map fun _ _ => ok
    · exact State.MemOk.of_none
  · exact State.MemOk.of_none

end Closed.MemOk

section
variable {s : State} (ok : s.MemOk)
include ok

/-! ## Operations over the parts of the state (Machine/Ops) -/

theorem State.MemOk.setCore (c : Nat) (x : Core) : (s.setCore c x).MemOk := ok

theorem State.MemOk.modCore (c : Nat) (f : Core → Core) : (s.modCore c f).MemOk := ok

theorem State.MemOk.modDie (d : Nat) (f : Die → Die) : (s.modDie d f).MemOk := ok

theorem State.MemOk.modStack (n : Nat) (f : Stack → Stack) : (s.modStack n f).MemOk := ok

theorem State.MemOk.modContext (n : Nat) (f : Context → Context) : (s.modContext n f).MemOk := ok

theorem State.MemOk.modQueue (n : Nat) (f : Queue → Queue) : (s.modQueue n f).MemOk := ok

theorem State.MemOk.modLaunch (ctx num : Nat) (f : Launch → Launch) : (s.modLaunch ctx num f).MemOk := ok

theorem State.MemOk.modGroup (c slot : Nat) (f : Group → Group) : (s.modGroup c slot f).MemOk := ok

theorem State.MemOk.modLane (c slot l : Nat) (f : Lane → Lane) : (s.modLane c slot l f).MemOk := ok

theorem State.MemOk.modTeam (c place : Nat) (f : Team → Team) : (s.modTeam c place f).MemOk := ok

theorem State.MemOk.fresh : s.fresh.2.MemOk := ok

theorem State.MemOk.freeWord : s.freeWord.2.MemOk := ok

theorem State.MemOk.freeCode : s.freeCode.2.MemOk := ok

theorem State.MemOk.softAccess (pa n : Nat) : (s.softAccess pa n).MemOk := by
  dsimp only [State.softAccess]
  split <;> exact ok

theorem State.MemOk.softAccesses (ps : List (Nat × Nat)) : (s.softAccesses ps).MemOk := ok.fold fun _ _ ok => ok.softAccess ..

theorem State.MemOk.tryRecord (h : HeldRec) : (s.tryRecord h).1.MemOk := by
  dsimp only [State.tryRecord]
  split
  · exact ok
  · exact ok.writeRecord ..

theorem State.MemOk.recordsGo : s.recordsGo.MemOk := by
  dsimp only [State.recordsGo]
  refine State.MemOk.fold ?_ fun _ _ ok => ?_
  · exact ok
  · exact (ok.tryRecord ..).postEvents ..

theorem State.MemOk.rangeWalked (d ctx : Nat) (va : W64) (n : Nat) : (s.rangeWalked d ctx va n).MemOk :=
  ok.fold fun _ _ ok => (ok.walkReading ..).postEvents ..

theorem State.MemOk.groupRecord (type : BitVec 8) (c slot lane : Nat) (f : FaultRec) (code : Code) :
    (s.groupRecord type c slot lane f code).MemOk :=
  ok.record ..

theorem State.MemOk.stopAgent (c lane : Nat) (f : FaultRec) (code : Code) : (s.stopAgent c lane f code).MemOk := by
  dsimp only [State.stopAgent]
  split
  · exact ok
  · exact (ok.modCore ..).record ..

theorem State.MemOk.freezeGroup (c slot lane : Nat) (f : FaultRec) (code : Code) : (s.freezeGroup c slot lane f code).MemOk := by
  dsimp only [State.freezeGroup]
  split
  · exact ok.stopAgent ..
  split
  · exact ok
  · exact (ok.modGroup ..).groupRecord ..

theorem State.MemOk.takeFault (c slot lane : Nat) (f : FaultRec) (resume : W64) : (s.takeFault c slot lane f resume).MemOk := by
  dsimp only [State.takeFault]
  split
  · exact (ok.groupRecord ..).freezeGroup ..
  split
  · exact (ok.groupRecord ..).freezeGroup ..
  · exact (ok.groupRecord ..).modLane ..

theorem State.MemOk.precise (c slot lane : Nat) (pc : W64) (f : FaultRec) : (s.precise c slot lane pc f).MemOk :=
  (ok.modLane ..).takeFault ..

theorem State.MemOk.deliver (c slot : Nat) (d : Deliv) : (s.deliver c slot d).MemOk := by
  dsimp only [State.deliver]
  split
  · exact ok.groupRecord ..
  · exact ok

theorem State.MemOk.lwrite (c a : Nat) (bs : List Byte) : (s.lwrite c a bs).MemOk := ok

theorem State.MemOk.staleReads (d line : Nat) : (s.staleReads d line).MemOk := ok

theorem State.MemOk.dropNear (c line : Nat) : (s.dropNear c line).MemOk := by
  dsimp only [State.dropNear]
  split <;> exact ok

theorem State.MemOk.emptyL1 (c : Nat) : (s.emptyL1 c).MemOk := ok

theorem State.MemOk.emptyRdc (d : Nat) : (s.emptyRdc d).MemOk := ok

theorem State.MemOk.acquire (c : Nat) (sc : Scope) : (s.acquire c sc).MemOk := by
  dsimp only [State.acquire]
  split
  · apply State.MemOk.emptyRdc
    split <;> exact ok
  · split <;> exact ok

/-! ## Guards, operands and destinations (Machine/Operands) -/

theorem State.MemOk.writeD (e : Env) (d : Opnd) (val : Nat → List W32) : (s.writeD e d val).MemOk := by
  dsimp only [State.writeD]
  split
  · exact ok.fold fun _ _ ok => ok.modLane ..
  · split <;> exact ok
  · exact ok

theorem State.MemOk.writeP (e : Env) (p : Nat) (val : Nat → Bool) : (s.writeP e p val).MemOk := ok.fold fun _ _ ok => ok.modLane ..

theorem State.MemOk.beginIssue (h : Hdr) : (s.beginIssue h).MemOk := by
  dsimp only [State.beginIssue]
  split
  · exact (ok.fold fun _ _ ok => ok.modLane ..).modCore ..
  · exact ok.fold fun _ _ ok => ok.modLane ..

theorem State.MemOk.faultSet (c : Code) : (s.faultSet c).MemOk := ok.fold fun _ _ ok => ok.precise ..

theorem State.MemOk.faultLane (l : Nat) (f : FaultRec) : (s.faultLane l f).MemOk := ok.precise ..

theorem State.MemOk.waitLanes (ls : List Nat) (w : Wait) : (s.waitLanes ls w).MemOk := ok.fold fun _ _ ok => ok.modLane ..

/-! ## Strokes (Machine/Stroke) -/

theorem State.MemOk.joinSettle (c : Nat) (k : Stroke) : (s.joinSettle c k).MemOk := ok

theorem State.MemOk.inkStroke (c e : Nat) (pc : W64) : (s.inkStroke c e pc).MemOk := by
  dsimp only [State.inkStroke]
  split <;> exact ok

theorem State.MemOk.formStroke (c : Nat) (st : Stroke) : (s.formStroke c st).MemOk := by
  dsimp only [State.formStroke]
  split <;> exact ok

theorem State.MemOk.exitStroke (c e : Nat) : (s.exitStroke c e).MemOk := by
  dsimp only [State.exitStroke]
  split <;> exact ok

theorem State.MemOk.strokeIssueIf {body : Closed} (h : Hdr) (cond : State → Stroke → Bool) (bodyOk : Closed.MemOk body) :
    (s.strokeIssueIf h cond body).MemOk := by
  dsimp only [State.strokeIssueIf]
  split
  · exact ok
  split
  · exact ok
  split
  · exact ok.inkStroke ..
  split
  · exact ok.inkStroke ..
  · exact ok
  split
  · exact ok.inkStroke ..
  · rename_i e
    exact (bodyOk _ _ ok _ e).modCore ..

theorem State.MemOk.strokeIssue {body : Closed} (h : Hdr) (bodyOk : Closed.MemOk body) : (s.strokeIssue h body).MemOk :=
  ok.strokeIssueIf _ _ bodyOk

theorem State.MemOk.strokeInk : s.strokeInk.MemOk := by
  dsimp only [State.strokeInk]
  split
  · exact ok
  · exact ok.inkStroke ..

theorem State.MemOk.strokeSplit (e : Nat) (st : Stroke) (h : Hdr) (target : W64) : (s.strokeSplit e st h target).MemOk := by
  dsimp only [State.strokeSplit]
  split
  · exact ok
  split
  · exact ok.inkStroke ..
  · exact ok
  apply State.MemOk.joinSettle
  refine State.MemOk.fold ?_ fun _ _ ok => ?_
  · split <;> exact ok
  · exact ok.formStroke ..

/-! ## The issue of an instruction (Machine/Issue) -/

theorem State.MemOk.groupIssue {body : Env → State → State} (i : Instr) (h : Hdr) (bodyOk : ∀ e u, u.MemOk → (body e u).MemOk) :
    (s.groupIssue i h body).MemOk := by
  dsimp only [State.groupIssue]
  split
  · exact bodyOk _ _ (ok.beginIssue ..)
  · exact ok.faultSet ..

theorem State.MemOk.issueIf {closed : Closed} {body : Env → State → State} (i : Instr) (h : Hdr) (cond : State → Stroke → Bool)
    (closedOk : Closed.MemOk closed) (bodyOk : ∀ e u, u.MemOk → (body e u).MemOk) : (s.issueIf i h cond closed body).MemOk := by
  dsimp only [State.issueIf]
  apply Res.MemOk.next
  split
  · split
    · exact ok.strokeIssueIf _ _ closedOk
    · exact ok.strokeInk
  · exact ok.groupIssue _ _ bodyOk

theorem State.MemOk.issue {closed : Closed} {body : Env → State → State} (i : Instr) (h : Hdr) (closedOk : Closed.MemOk closed)
    (bodyOk : ∀ e u, u.MemOk → (body e u).MemOk) : (s.issue i h closed body).MemOk :=
  ok.issueIf _ _ _ closedOk bodyOk

theorem State.MemOk.issueInk {body : Env → State → State} (i : Instr) (h : Hdr) (bodyOk : ∀ e u, u.MemOk → (body e u).MemOk) :
    (s.issueInk i h body).MemOk :=
  ok.issue _ _ .inks bodyOk

theorem State.MemOk.nibIssue {body : Env → Nat → State → State} (i : Instr) (h : Hdr) (bodyOk : ∀ e n u, u.MemOk → (body e n u).MemOk) :
    (s.nibIssue i h body).MemOk := by
  dsimp only [State.nibIssue]
  refine ok.issueInk _ _ fun _ _ ok => ?_
  split
  · exact ok
  split
  · exact bodyOk _ _ _ ok
  · exact ok

theorem State.MemOk.nibD (e : Env) (d : Opnd) (val : List W32) : (s.nibD e d val).MemOk := ok.writeD ..

/-! ## Die-link streams (Machine/Links) -/

theorem State.MemOk.modStream (t : StreamId) (f : Stream → Stream) : (s.modStream t f).MemOk := ok

theorem State.MemOk.modModule (t : StreamId) (f : Module → Module) : (s.modModule t f).MemOk := ok

theorem State.MemOk.sendFlit (t : StreamId) (kind : BitVec 4) (seq : Nat) (nak : Bool) (slots : List (BitVec 128)) :
    (s.sendFlit t kind seq nak slots).MemOk :=
  ok

theorem State.MemOk.pumpN (t : StreamId) (n : Nat) : (State.pumpN t n s).MemOk := by
  induction n generalizing s with
  | zero => exact ok
  | succ n ih =>
    dsimp only [State.pumpN]
    split
    · exact ok
    · exact ih ok

theorem State.MemOk.pump (t : StreamId) : (s.pump t).MemOk := ok.pumpN ..

theorem State.MemOk.sendPacket (sender m : Nat) (p : Pkt) (data : List (BitVec 128)) :
    ∀ t, s.sendPacket sender m p data = some t → t.MemOk :=
  of_map fun _ _ => (ok.modStream ..).pump ..

theorem State.MemOk.nextRid (src dst : Nat) : (s.nextRid src dst).2.MemOk := ok

theorem State.MemOk.request (src : Nat) (for_ : DlFor) (p : Pkt) (data : List (BitVec 128)) :
    ∀ r, s.request src for_ p data = some r → r.2.MemOk := by
  dsimp only [State.request]
  split
  · exact of_none
  · rename_i e
    have ok := (ok.nextRid ..).sendPacket _ _ _ _ _ e
    exact of_some (ok.modDie ..)

/-! ## Accesses, the home caches and the store queues (Machine/Mem) -/

theorem State.MemOk.serveFarther (c line : Nat) : (s.serveFarther c line).MemOk := ok

theorem State.MemOk.readAtHome (c d line : Nat) : (s.readAtHome c d line).MemOk := ok

theorem State.MemOk.walked (core ctx : Nat) (va : W64) : (s.walked core ctx va).MemOk :=
  ((ok.walkReading ..).fold fun _ _ ok => ok.readAtHome ..).postEvents ..

theorem State.MemOk.coreXlate (core ctx : Nat) (va : W64) : (s.coreXlate core ctx va).2.MemOk := by
  dsimp only [State.coreXlate]
  split
  · exact ok
  split
  · exact ok
  split
  · exact ok.walked ..
  · exact (ok.walked ..).modCore ..

theorem State.MemOk.heldXlate (core ctx : Nat) (old : List TlbEntry) (va : W64) : (s.heldXlate core ctx old va).2.MemOk := by
  dsimp only [State.heldXlate]
  split
  · exact ok
  · exact ok.coreXlate ..

theorem State.MemOk.checkAt (core ctx : Nat) (agent : Bool) (watch : Option (Nat × Nat)) (q : Ask) (pa : Nat) (pte : W64)
    (near : Option CLine) : (s.checkAt core ctx agent watch q pa pte near).2.MemOk := by
  dsimp only [State.checkAt]
  split
  · exact ok
  split
  · split
    · exact ok
    split
    · exact ok
    split
    · split
      · exact ok
      · exact ok.readArray ..
    · exact ok
  split
  · exact ok
  split
  · exact ok
  split
  · split
    · exact ok
    · exact ok.readArray ..
  · exact ok

theorem State.MemOk.checkAs (core ctx : Nat) (agent : Bool) (watch : Nat → Option (Nat × Nat)) (q : Ask) :
    (s.checkAs core ctx agent watch q).2.MemOk := by
  dsimp only [State.checkAs]
  split
  · exact ok
  split
  · rename_i e
    exact of_snd e (ok.heldXlate ..)
  rename_i e
  exact (of_snd e (ok.heldXlate ..)).checkAt ..

theorem State.MemOk.check (e : Env) (l : Nat) (q : Ask) : (s.check e l q).2.MemOk := ok.checkAs ..

theorem State.MemOk.waitAt (e : Env) (ls : List Nat) (c : Cond) : (s.waitAt e ls c).MemOk := ok.fold fun _ _ ok => ok.modLane ..

theorem State.MemOk.waitNext (e : Env) (ls : List Nat) (c : Cond) : (s.waitNext e ls c).MemOk := ok.fold fun _ _ ok => ok.modLane ..

theorem State.MemOk.raise (e : Env) (l : Nat) (f : FaultRec) : (s.raise e l f).MemOk := by
  dsimp only [State.raise]
  split
  · exact ok
  · exact ok.precise ..

theorem State.MemOk.homeOrdered (ctx launch pa key : Nat) (x : W32) : (s.homeOrdered ctx launch pa key x).MemOk := ok

theorem State.MemOk.homeWriteback (pa : Nat) : (s.homeWriteback pa).MemOk := ok

theorem State.MemOk.fillNear (c : Nat) (x : CLine) (l1 rdc : Bool) (po : Policy) (at_ : Nat) : (s.fillNear c x l1 rdc po at_).MemOk := by
  dsimp only [State.fillNear]
  split
  · exact ok
  · split <;> split <;> exact ok

theorem State.MemOk.servedNear (c : Nat) (sc : Scope) (po : Policy) (x : CLine) (l1 : Bool) : (s.servedNear c sc po x l1).MemOk := by
  dsimp only [State.servedNear]
  split
  · exact ok
  · exact (ok.modCore ..).fillNear ..

theorem State.MemOk.arrive (c slot lane : Nat) (d : Dest) (x : Nat) (b : Bool) : (s.arrive c slot lane d x b).MemOk := ok

theorem State.MemOk.releasedFor {k : State → State} (e : Env) (sc : Scope) (sync : Bool) (ls : List Nat) (kOk : ∀ u, u.MemOk → (k u).MemOk)
    : (s.releasedFor e sc sync ls k).MemOk := by
  dsimp only [State.releasedFor]
  split
  · exact kOk _ ok
  · exact ok.waitAt ..

theorem State.MemOk.released {k : State → State} (e : Env) (sc : Scope) (ls : List Nat) (kOk : ∀ u, u.MemOk → (k u).MemOk) :
    (s.released e sc ls k).MemOk :=
  ok.releasedFor _ _ _ _ kOk

theorem State.MemOk.ordered {k : State → State} (e : Env) (o : Order) (sc : Scope) (ls : List Nat) (kOk : ∀ u, u.MemOk → (k u).MemOk) :
    (s.ordered e o sc ls k).MemOk := by
  dsimp only [State.ordered]
  split
  · exact ok.released _ _ _ kOk
  · exact kOk _ ok

theorem State.MemOk.pushStore (c slot : Nat) (q : StoreReq) : (s.pushStore c slot q).MemOk := ok

theorem State.MemOk.oneLane {go : Nat → W64 → State → State} (e : Env) (b : List Nat) (l : Nat) (q : Ask)
    (goOk : ∀ pa pte u, u.MemOk → (go pa pte u).MemOk) : (s.oneLane e b l q go).1.MemOk := by
  dsimp only [State.oneLane]
  split
  · exact ok.waitAt ..
  split
  · rename_i e
    exact (of_snd e (ok.check ..)).raise ..
  · rename_i e
    exact goOk _ _ _ (of_snd e (ok.check ..))

theorem State.MemOk.eachLane {go : Nat → Nat → W64 → State → State} (e : Env) (ls : List Nat) (ask : Nat → Ask)
    (goOk : ∀ l pa pte u, u.MemOk → (go l pa pte u).MemOk) : (s.eachLane e ls ask go).1.MemOk := by
  dsimp only [State.eachLane]
  exact List.foldlRecOn (motive := fun x : State × List Nat => x.1.MemOk) _ _ ok fun _ ok _ _ => ok.oneLane _ _ _ _ (goOk _)

theorem State.MemOk.acquired (e : Env) (o : Order) (ls : List Nat) : (s.acquired e o ls).MemOk := by
  dsimp only [State.acquired]
  split
  · exact ok.waitNext ..
  · exact ok

theorem State.MemOk.accessEnded (c slot id lane : Nat) (pc : W64) (data : Bool) : (s.accessEnded c slot id lane pc data).MemOk := ok

theorem State.MemOk.softRead (pa : Nat) (bs : List Byte) : (s.softRead pa bs).2.MemOk := by
  dsimp only [State.softRead]
  split <;> exact ok.softAccess ..

theorem State.MemOk.loadDone (c slot : Nat) (r : LoadReq) (x : Nat) : (s.loadDone c slot r x).MemOk := by
  dsimp only [State.loadDone]
  split
  · exact ((((ok.softRead ..).accessEnded ..).modGroup ..).arrive ..).acquire ..
  · exact (((ok.softRead ..).accessEnded ..).modGroup ..).arrive ..

theorem State.MemOk.loadFail (c slot : Nat) (r : LoadReq) (code : Code) : (s.loadFail c slot r code).MemOk :=
  ((ok.accessEnded ..).modGroup ..).deliver ..

theorem State.MemOk.serveHome (c slot : Nat) (r : LoadReq) (fw : List Fwd) (l1 : Bool) : (s.serveHome c slot r fw l1).MemOk := by
  dsimp only [State.serveHome]
  split
  · split
    · split
      · exact ok.loadFail ..
      · exact ok
    · exact (ok.homeLoad ..).loadDone ..
  split
  · split
    · exact ok.loadFail ..
    · exact ok
  split
  · apply State.MemOk.loadFail
    split
    · exact ok.readArray ..
    · exact ok
  · exact (((ok.homeLoadIn ..).serveFarther ..).fillNear ..).loadDone ..

theorem State.MemOk.serveLoad (c slot : Nat) (r : LoadReq) : (s.serveLoad c slot r).MemOk := by
  dsimp only [State.serveLoad]
  split
  · exact ok
  split
  · exact ok.loadDone ..
  split
  · split
    · exact ok.loadFail ..
    · exact (ok.servedNear ..).loadDone ..
  split
  · exact ok.serveHome ..
  split
  · exact ok.loadFail ..
  rename_i e
  have ok := ok.request _ _ _ _ _ e
  exact ok

theorem State.MemOk.dropStore (c slot id : Nat) : (s.dropStore c slot id).MemOk := by
  dsimp only [State.dropStore]
  apply State.MemOk.modGroup
  split <;> exact ok

theorem State.MemOk.storeFail (c slot : Nat) (q : StoreReq) (code : Code) : (s.storeFail c slot q code).MemOk :=
  (ok.dropStore ..).deliver ..

theorem State.MemOk.performHome (c slot : Nat) (q : StoreReq) : (s.performHome c slot q).1.MemOk := by
  dsimp only [State.performHome]
  split
  · exact ok.homeStoreIn ..
  · exact ok.homeTag ..
  · exact ok.homeAtomic ..
  · exact ok.homeOrdered ..
  · exact ok.homeWriteback ..
  · exact ok.homeStore ..

theorem State.MemOk.storeDone (c slot : Nat) (q : StoreReq) (m : W64) : (s.storeDone c slot q m).MemOk := by
  dsimp only [State.storeDone]
  split
  · split
    · exact (((ok.softAccess ..).dropStore ..).arrive ..).acquire ..
    · exact ((ok.softAccess ..).dropStore ..).arrive ..
  · exact (ok.softAccess ..).dropStore ..

theorem State.MemOk.startCopies (pa : Nat) : (s.startCopies pa).MemOk := ok.fold fun _ _ ok => (ok.chunkWrite ..).postEvents ..

theorem State.MemOk.performStore (c slot : Nat) (q : StoreReq) : (s.performStore c slot q).MemOk := by
  have near {u : State} (ok : u.MemOk) : (if q.kind = .writeback then u else u.dropNear c (q.acc.pa / 128)).MemOk := by
    split
    · exact ok
    · exact ok.dropNear ..
  dsimp only [State.performStore]
  split
  · exact ok
  split
  · split
    · exact ok.storeFail ..
    · rename_i e
      have ok := (near ok).request _ _ _ _ _ e
      exact ok
  split
  · exact ok.storeFail ..
  split
  · split
    · exact ok.storeFail ..
    · exact ok
  split
  · apply State.MemOk.storeFail
    split
    · exact ok.readArray ..
    · exact ok
  split
  · exact ok
  split
  · exact ok.startCopies ..
  apply State.MemOk.storeDone
  apply State.MemOk.performHome
  apply near
  split
  · exact ok
  · exact ok.startCopies ..

/-! ## Control transfer, synchronisation, traps and inking (Machine/Control) -/

theorem State.MemOk.settleSynct (c place : Nat) (w : Wait) (role : Option Bool) : (s.settleSynct c place w role).MemOk := by
  dsimp only [State.settleSynct]
  split <;> exact ok

theorem State.MemOk.settleTeam (c place : Nat) : (s.settleTeam c place).MemOk := ((ok.settleSynct ..).settleSynct ..).settleSynct ..

theorem State.MemOk.settle (c slot : Nat) : (s.settle c slot).MemOk := by
  dsimp only [State.settle]
  split
  · exact (ok.modGroup ..).settleTeam ..
  · exact ok

theorem State.MemOk.settleCore (c : Nat) : (s.settleCore c).MemOk := ok.fold fun _ _ ok => ok.settleTeam ..

theorem State.MemOk.recordRead (c slot ctx : Nat) (va : W64) (n : Nat) : (s.recordRead c slot ctx va n).MemOk := by
  dsimp only [State.recordRead]
  split
  · exact ok.fold fun _ _ ok => ok.coreXlate ..
  refine (ok.fold fun _ _ ok => ok.coreXlate ..).fold fun _ _ ok => ?_
  split
  · split
    · exact ok.readArray ..
    · exact ok
  · exact ((ok.homeLoad ..).softAccess ..).fold fun _ _ ok => ok.readAtHome ..

theorem State.MemOk.afterRecords {k : State → State} (e : Env) (rs : List (W64 × Nat)) (kOk : ∀ u, u.MemOk → (k u).MemOk) :
    (s.afterRecords e rs k).MemOk := by
  dsimp only [State.afterRecords]
  split
  · exact ok.waitAt ..
  · exact kOk _ (ok.fold fun _ _ ok => ok.recordRead ..)

theorem State.MemOk.jump (e : Env) (next : Nat → W64) (link : Option Opnd) : (s.jump e next link).MemOk := by
  dsimp only [State.jump]
  refine State.MemOk.fold ?_ fun _ _ ok => ?_
  · refine State.MemOk.fold ?_ fun _ _ ok => ?_
    · split
      · exact ok.writeD ..
      · exact ok
    · exact ok
  · exact ok.precise ..

theorem State.MemOk.strokeGo (st : Stroke) (next : W64) : ∀ r, strokeGo st s next = some r → r.1.MemOk := by
  dsimp only [Machine.strokeGo]
  split
  · exact of_some ok
  · exact of_none

theorem State.MemOk.execBra (h : Hdr) (f : CF) : (execBra h f s).MemOk := by
  dsimp only [Machine.execBra]
  split
  · exact .next (ok.groupIssue _ _ fun _ _ ok => ok.jump ..)
  split
  · exact .next ok
  split
  · exact .next (ok.strokeSplit ..)
  · exact .next (ok.strokeIssue _ fun _ _ ok => of_some ok)

theorem State.MemOk.execCallx (h : Hdr) (f : CF) : (execCallx h f s).MemOk := by
  refine ok.issueIf _ _ _ (fun _ _ ok => ?_) fun _ _ ok => ok.jump ..
  split
  · exact of_bind fun _ _ => ok.strokeGo _ _
  · exact of_none

theorem State.MemOk.arriveAt (e : Env) (ls : List Nat) (w : Wait) : (s.arriveAt e ls w).MemOk :=
  (ok.fold fun _ _ ok => ok.modLane ..).settle ..

theorem State.MemOk.execJoin (h : Hdr) (f : CF) : (execJoin h f s).MemOk := by
  dsimp only [Machine.execJoin]
  split
  · exact .next (ok.groupIssue _ _ fun _ _ ok => ok.arriveAt ..)
  split
  · exact .next ok
  split
  · exact .next ok
  · exact .next (ok.strokeIssue _ fun _ _ ok => of_some ok)

theorem State.MemOk.exitLanes (c slot : Nat) (ls : List Nat) : (s.exitLanes c slot ls).MemOk :=
  ((ok.fold fun _ _ ok => ok.modLane ..).modGroup ..).settle ..

theorem State.MemOk.execExit (h : Hdr) (f : CF) : (execExit h f s).MemOk := by
  dsimp only [Machine.execExit]
  split
  · exact .next (ok.groupIssue _ _ fun _ _ ok => ok.exitLanes ..)
  split
  · exact .next ok
  split
  · exact .next ((ok.exitStroke ..).settleCore ..)
  · exact .next (ok.strokeIssue _ fun _ _ ok => of_some ok)

theorem State.MemOk.trapWith (e : Env) (c : Code) (f : CF) : (s.trapWith e c f).MemOk := ok.fold fun _ _ ok => ok.takeFault ..

theorem State.MemOk.execSizesel (h : Hdr) (f : CF) : (execSizesel h f s).MemOk := by
  refine ok.issueIf _ _ _ (fun _ _ ok => ?_) fun _ _ ok => ?_
  · dsimp only
    split <;> split
    · exact of_some ok
    · split
      · exact of_bind fun _ _ => (ok.fold fun _ _ ok => ok.recordRead ..).strokeGo _ _
      · exact of_none
    · exact of_some ok
    · split
      · exact of_bind fun _ _ => (ok.fold fun _ _ ok => ok.recordRead ..).strokeGo _ _
      · exact of_none
  · split
    · exact ok
    refine ok.afterRecords _ _ fun _ ok => ?_
    split
    · exact ok.fold fun _ _ ok => ok.raise ..
    · exact (ok.writeD ..).jump ..

theorem State.MemOk.execInk (h : Hdr) (f : CF) : (execInk h f s).MemOk := by
  dsimp only [Machine.execInk]
  split
  · exact .next (ok.inkStroke ..)
  · exact .next (ok.groupIssue _ _ fun _ _ ok => ok)

/-! ## Barriers (Machine/Barrier) -/

theorem State.MemOk.setBar (c place b : Nat) (x : Barrier) : (s.setBar c place b x).MemOk := ok

theorem State.MemOk.wakeGroup (c slot b : Nat) (poison : Bool) : (s.wakeGroup c slot b poison).MemOk := by
  dsimp only [State.wakeGroup]
  refine ok.fold fun _ _ ok => ?_
  split
  · exact (ok.modLane ..).takeFault ..
  · exact ok

theorem State.MemOk.barEvent (c place b : Nat) (f : Barrier → Barrier) : (s.barEvent c place b f).MemOk := by
  dsimp only [State.barEvent]
  split
  · exact ok
  split
  · exact ok
  refine (ok.setBar ..).fold fun _ _ ok => ?_
  split
  · exact ok
  split
  · apply State.MemOk.wakeGroup
    split <;> exact ok
  · split <;> exact ok

theorem State.MemOk.nibFault (e : Env) (n : Nat) (c : Code) (addr : W64) : (s.nibFault e n c addr).MemOk := ok.raise ..

theorem State.MemOk.barrierOp {go : Env → Nat → Nat → Barrier → State → State} (i : Instr) (h : Hdr) (f : EF)
    (bad : State → Env → Nat → Barrier → Bool) (goOk : ∀ e n m b u, u.MemOk → (go e n m b u).MemOk) : (s.barrierOp i h f bad go).MemOk := by
  dsimp only [State.barrierOp]
  refine ok.nibIssue _ _ fun _ _ _ ok => ?_
  split
  · exact ok.nibFault _ _ _ _
  split
  · exact ok.nibFault _ _ _ _
  · exact goOk _ _ _ _ _ ok

theorem State.MemOk.phasePassed (e : Env) (x : Barrier) : (s.phasePassed e x).MemOk := by
  dsimp only [State.phasePassed]
  split
  · exact ok.fold fun _ _ ok => ok.takeFault ..
  · exact ok.acquire ..

theorem State.MemOk.execBwait (h : Hdr) (f : EF) : (execBwait h f s).MemOk := by
  dsimp only [Machine.execBwait]
  refine ok.barrierOp _ _ _ _ fun _ _ _ _ _ ok => ?_
  split
  · exact ok.phasePassed ..
  · exact (ok.setBar ..).waitLanes ..

theorem State.MemOk.execBtest (h : Hdr) (f : EF) : (execBtest h f s).MemOk := by
  dsimp only [Machine.execBtest]
  refine ok.barrierOp _ _ _ _ fun _ _ _ _ _ ok => ?_
  split
  · exact (ok.nibD ..).acquire ..
  · exact ok.nibD ..

theorem State.MemOk.execBarm (h : Hdr) (f : EF) : (execBarm h f s).MemOk := by
  dsimp only [Machine.execBarm]
  refine ok.nibIssue _ _ fun _ _ _ ok => ?_
  split
  · exact ok.nibFault _ _ _ _
  split
  · exact ok.nibFault _ _ _ _
  split
  · exact ok.phasePassed ..
  split
  · exact ok.nibFault _ _ _ _
  · exact ok

theorem State.MemOk.execBarmVectoring (core slot : Nat) : (execBarmVectoring core slot s).MemOk := by
  dsimp only [Machine.execBarmVectoring]
  split
  · exact .next ok
  apply Res.MemOk.next
  refine (ok.modGroup ..).fold fun _ _ ok => ?_
  split
  · exact (ok.modLane ..).takeFault ..
  · exact ok

theorem State.MemOk.execPclr (h : Hdr) (f : EF) : (execPclr h f s).MemOk := by
  dsimp only [Machine.execPclr]
  refine ok.nibIssue _ _ fun _ _ _ ok => ?_
  split
  · exact ok.nibFault _ _ _ _
  split
  · exact ok.raise ..
  · exact ok

theorem State.MemOk.execPtest (h : Hdr) (f : EF) : (execPtest h f s).MemOk := by
  dsimp only [Machine.execPtest]
  refine ok.nibIssue _ _ fun _ _ _ ok => ?_
  split
  · exact ok.nibFault _ _ _ _
  · exact ok.nibD ..

/-! ## Integer and move instructions (Machine/Integer) -/

theorem State.MemOk.wideOp {closed : Closed} (i : Instr) (h : Hdr) (f : VF) (closedOk : Closed.MemOk closed) (op : W64 → W64 → W64 → W64) :
    (wideOp i h f closed op s).MemOk :=
  ok.issue _ _ closedOk fun _ _ ok => ok.writeD ..

theorem State.MemOk.shiftOp {closed : Closed} (i : Instr) (h : Hdr) (f : VF) (closedOk : Closed.MemOk closed) (op : W64 → W32 → W64) :
    (shiftOp i h f closed op s).MemOk :=
  ok.issue _ _ closedOk fun _ _ ok => ok.writeD ..

theorem State.MemOk.arithOp {closed : Closed} (i : Instr) (h : Hdr) (f : VF) (closedOk : Closed.MemOk closed) (op : Int → Int → Int → Int) :
    (arithOp i h f closed op s).MemOk :=
  ok.wideOp _ _ _ closedOk _

theorem State.MemOk.countOp (i : Instr) (h : Hdr) (f : VF) (op : Nat → Nat) : (countOp i h f op s).MemOk :=
  ok.issueInk _ _ fun _ _ ok => ok.writeD ..

theorem State.MemOk.execIcmp (h : Hdr) (f : VF) : (execIcmp h f s).MemOk := by
  refine ok.issue _ _ (fun _ _ ok => ?_) fun _ _ ok => ok.writeP ..
  split
  · exact of_none
  split
  · exact of_some ok
  · exact of_none

theorem State.MemOk.execMov (h : Hdr) (f : VF) : (execMov h f s).MemOk := by
  refine ok.issue _ _ (fun _ _ ok => ?_) fun _ _ ok => ok.writeD ..
  split
  · exact of_map fun _ _ => ok
  · exact of_none

theorem State.MemOk.execMovs (h : Hdr) (f : VF) : (execMovs h f s).MemOk := by
  refine ok.issue _ _ (fun _ _ ok => ?_) fun _ _ ok => ?_
  · split
    · split
      · exact of_map fun _ _ => ok
      · exact of_none
    · exact of_none
  · split
    · exact ok
    · exact (ok.writeD ..).writeD ..

/-! ## Memory access, fences and batches (Machine/Memory) -/

theorem State.MemOk.loadLanes (e : Env) (ls : List Nat) (f : MF) (sc : Scope) (o : Order) : (s.loadLanes e ls f sc o).MemOk := by
  refine (State.MemOk.eachLane ?_ _ _ _ ?_).acquired ..
  · exact ok
  · exact fun _ _ _ _ ok => ok

omit ok in
theorem Closed.MemOk.strokeLoad (f : MF) (sc : Scope) (o : Order) : Closed.MemOk (strokeLoad f sc o) := by
  intro s st ok
  dsimp only [Machine.strokeLoad]
  split
  · exact State.MemOk.of_none
  split
  · exact State.MemOk.of_some ok
  split
  · exact State.MemOk.of_none
  rename_i e
  have ok := State.MemOk.of_snd e (ok.checkAs ..)
  have fin {u : State} (ok : u.MemOk) (pa : Nat) (bs : List Byte) :
      (if isAcq o then (u.softRead pa bs).2.acquire s.iss.core sc else (u.softRead pa bs).2).MemOk := by
    split
    · exact (ok.softRead ..).acquire ..
    · exact ok.softRead ..
  split
  · exact State.MemOk.of_map fun _ _ => fin (ok.servedNear ..) _ _
  split
  · exact State.MemOk.of_none
  split
  · split
    · exact State.MemOk.of_none
    · exact State.MemOk.of_some ok
  · exact State.MemOk.of_map fun _ _ => fin (((ok.homeLoad ..).readAtHome ..).fillNear ..) _ _

theorem State.MemOk.execLd (h : Hdr) (f : MF) : (execLd h f s).MemOk := ok.issueIf _ _ _ (.strokeLoad _ _ _) fun _ _ ok => ok.loadLanes ..

theorem State.MemOk.bringLine (c : Nat) (sc : Scope) (po : Policy) (ctx pa : Nat) (pte : W64) : (s.bringLine c sc po ctx pa pte).MemOk := by
  dsimp only [State.bringLine]
  split
  · split
    · exact ok
    · exact (ok.homeLoad ..).fillNear ..
  split
  · rename_i e
    exact ok.fresh.request _ _ _ _ _ e
  · exact ok

theorem State.MemOk.prefetchLane (e : Env) (f : MF) (l : Nat) : (s.prefetchLane e f l).MemOk := by
  dsimp only [State.prefetchLane]
  split
  · split
    · exact ok.waitAt ..
    · exact ok
  split
  · exact ok
  rename_i e
  have ok := of_snd e (ok.check ..)
  split
  · exact ok
  · exact ok.bringLine ..

theorem State.MemOk.storeLanes (e : Env) (f : MF) (ask : Nat → Ask) (kind : Nat → StoreKind) : (s.storeLanes e f ask kind).MemOk := by
  refine ok.ordered _ _ _ _ fun _ ok => (State.MemOk.eachLane ?_ _ _ _ ?_).acquired ..
  · exact ok
  · exact fun _ _ _ _ ok => ok

theorem State.MemOk.localLanes {go : Nat → Nat → State → State} (e : Env) (f : MF) (k : AKind) (goOk : ∀ n m u, u.MemOk → (go n m u).MemOk)
    : (s.localLanes e f k go).MemOk := by
  dsimp only [State.localLanes]
  refine ok.ordered _ _ _ _ fun _ ok => ?_
  split
  · exact ok.waitAt ..
  refine (ok.fold fun _ _ ok => goOk _ _ _ ok).fold fun _ _ ok => ?_
  split
  · exact ok.raise ..
  · exact ok

theorem State.MemOk.afterLoads {k : State → State} (e : Env) (ls : List Nat) (kOk : ∀ u, u.MemOk → (k u).MemOk) :
    (s.afterLoads e ls k).MemOk := by
  dsimp only [State.afterLoads]
  split
  · exact kOk _ ok
  · exact ok.waitAt ..

theorem State.MemOk.lineControl {go : Nat → Nat → W64 → State → State} (e : Env) (f : MF) (goOk : ∀ n m w u, u.MemOk → (go n m w u).MemOk) :
    (s.lineControl e f go).MemOk :=
  ok.afterLoads _ _ fun _ ok => ok.eachLane _ _ _ goOk

theorem State.MemOk.execCctlIl1all (h : Hdr) (f : MF) : (execCctlIl1all h f s).MemOk := by
  dsimp only [Machine.execCctlIl1all]
  refine ok.issueInk _ _ fun _ _ ok => ?_
  split
  · exact ok
  · exact ok.afterLoads _ _ fun _ ok => ok.emptyL1 ..

theorem State.MemOk.execCctlIrdall (h : Hdr) (f : MF) : (execCctlIrdall h f s).MemOk := by
  dsimp only [Machine.execCctlIrdall]
  refine ok.issueInk _ _ fun _ _ ok => ?_
  split
  · exact ok
  · exact ok.afterLoads _ _ fun _ ok => ok.emptyRdc ..

theorem State.MemOk.execLdtag (h : Hdr) (f : MF) : (execLdtag h f s).MemOk := by
  refine ok.issueInk _ _ fun _ _ ok => (State.MemOk.eachLane ?_ _ _ _ ?_).acquired ..
  · exact ok
  · exact fun _ _ _ _ ok => ok

theorem State.MemOk.orderedLane (e : Env) (f : MF) (l : Nat) : (s.orderedLane e f l).MemOk := by
  dsimp only [State.orderedLane]
  split
  · exact ok.waitAt ..
  split
  · rename_i e
    exact (of_snd e (ok.check ..)).raise ..
  rename_i e
  have ok := of_snd e (ok.check ..)
  split
  · exact ok.raise ..
  · exact ok

theorem State.MemOk.execFence (h : Hdr) (f : MF) : (execFence h f s).MemOk := by
  dsimp only [Machine.execFence]
  refine ok.issueInk _ _ fun _ _ ok => ?_
  split
  · exact ok
  split
  · refine ok.released _ _ _ fun _ ok => ?_
    split
    · exact ok.acquire ..
    · exact ok
  · exact ok.afterLoads _ _ fun _ ok => ok.acquire ..

theorem State.MemOk.execFenceo (h : Hdr) (f : MF) : (execFenceo h f s).MemOk := by
  dsimp only [Machine.execFenceo]
  refine ok.issueInk _ _ fun _ _ ok => ?_
  split <;> exact ok

theorem State.MemOk.emptyWithin (c : Nat) (sc : Scope) : (s.emptyWithin c sc).MemOk :=
  (ok.fold fun _ _ ok => ok.emptyL1 ..).fold fun _ _ ok => ok.emptyRdc ..

theorem State.MemOk.execFencex (h : Hdr) (f : MF) : (execFencex h f s).MemOk := by
  dsimp only [Machine.execFencex]
  refine ok.issueInk _ _ fun _ _ ok => ?_
  split
  · exact ok
  split
  · exact ok.acquire ..
  refine ok.released _ _ _ fun _ ok => ?_
  split
  · exact (ok.emptyWithin ..).acquire ..
  · exact (ok.emptyWithin ..).waitAt ..

theorem State.MemOk.execFencep (h : Hdr) (f : MF) : (execFencep h f s).MemOk := by
  dsimp only [Machine.execFencep]
  refine ok.issueInk _ _ fun _ _ ok => ?_
  split
  · exact ok
  split
  · exact ok.waitAt ..
  refine ok.released _ _ _ fun _ ok => ?_
  split
  · exact ((ok.acquire ..).writeD ..).modContext ..
  · exact (ok.acquire ..).writeD ..

/-! ## Accesses of engines (Machine/Shape) -/

theorem State.MemOk.withEntry {k : BitVec 512 → State → State} (e : Env) (n : Nat) (handle : W64) (kOk : ∀ n u, u.MemOk → (k n u).MemOk) :
    (s.withEntry e n handle k).MemOk := by
  dsimp only [State.withEntry]
  refine ok.afterRecords _ _ fun _ ok => ?_
  split
  · exact ok.raise ..
  · exact kOk _ _ ok

theorem State.MemOk.engCheck (m : Master) (va : W64) (n : Nat) (k : AKind) (ecc : Bool) : (s.engCheck m va n k ecc).2.MemOk := by
  dsimp only [State.engCheck]
  split
  · exact ok
  split
  · rename_i e
    exact of_snd e (ok.checkAs ..)
  rename_i e
  split <;> exact of_snd e (ok.checkAs ..)

theorem State.MemOk.engRead (m : Master) (va : W64) (n : Nat) : (s.engRead m va n).2.MemOk := by
  dsimp only [State.engRead]
  split
  · rename_i e
    exact of_snd e (ok.engCheck ..)
  rename_i e
  have ok := of_snd e (ok.engCheck ..)
  split
  · exact ok
  split
  · exact ok
  · exact ((ok.homeLoad ..).readAtHome ..).softRead ..

theorem State.MemOk.engWrite (m : Master) (va : W64) (n : Nat) (whole : Bool) (val : List Byte → List Byte) :
    (s.engWrite m va n whole val).2.MemOk := by
  dsimp only [State.engWrite]
  split
  · rename_i e
    exact of_snd e (ok.engCheck ..)
  rename_i e
  have ok := of_snd e (ok.engCheck ..)
  split
  · exact ok
  apply State.MemOk.homeStore
  apply State.MemOk.softAccess
  apply State.MemOk.readAtHome
  split
  · exact ok.freshGranule ..
  · exact ok

/-! ## Instruction fetch (Machine/Sched) -/

theorem State.MemOk.fetchWord (core ctx : Nat) (agent : Bool) (va : W64) : (s.fetchWord core ctx agent va).2.MemOk := by
  dsimp only [State.fetchWord]
  split
  · rename_i e
    exact of_snd e (ok.coreXlate ..)
  rename_i e
  have ok := of_snd e (ok.coreXlate ..)
  split
  · exact ok
  split
  · exact ok
  split
  · exact ok
  split
  · exact ok.readArray ..
  · exact ok

theorem State.MemOk.fetch (core ctx : Nat) (agent : Bool) (pc : W64) : (s.fetch core ctx agent pc).2.MemOk := by
  have word {x : Except FaultRec Nat} {u t : State} {va : W64} (ok : u.MemOk) (e : u.fetchWord core ctx agent va = (x, t)) : t.MemOk :=
    of_snd e (ok.fetchWord ..)
  dsimp only [State.fetch]
  split
  · exact word ok ‹_›
  rename_i e
  have ok := word ok e
  split
  · exact word ok ‹_›
  rename_i e
  have ok := word ok e
  split
  · exact word ok ‹_›
  · exact word ok ‹_›

theorem State.MemOk.tick (d n : Nat) : (s.tick d n).MemOk := ok

/-! ## Transfers, shape registers and tensor identifiers (Machine/Transfer) -/

theorem State.MemOk.readSpot (m : Master) (place e : Nat) (o : Option Spot) : (s.readSpot m place e o).2.MemOk := by
  dsimp only [State.readSpot]
  split
  · exact ok
  · split <;> rename_i e <;> exact of_snd e (ok.engRead ..)
  · split <;> exact ok

theorem State.MemOk.writeSpot (m : Master) (k : Cmd) (e : Nat) (whole : Bool) (x : Nat) (p : Spot) :
    (s.writeSpot m k e whole x p).2.MemOk := by
  dsimp only [State.writeSpot]
  split
  · exact ok.engWrite ..
  split
  · exact ok
  · exact ok.fold fun _ _ ok => ok.lwrite ..

theorem State.MemOk.moveElem (m : Master) (k : Cmd) (row index i : Nat) : (s.moveElem m k row index i).2.MemOk := by
  dsimp only [State.moveElem]
  split
  · exact ok
  split
  · rename_i e
    exact of_snd e (ok.readSpot ..)
  rename_i e
  have ok := of_snd e (ok.readSpot ..)
  apply State.MemOk.writeSpot
  split
  · split
    · exact ok
    · exact ok.freeWord.freeWord
  split
  · exact ok
  · exact ok.freeWord.freeWord

theorem State.MemOk.moveRow (m : Master) (k : Cmd) (row index n i : Nat) : (State.moveRow m k row index n i s).1.MemOk := by
  induction n generalizing i s with
  | zero => exact ok
  | succ n ih =>
    dsimp only [State.moveRow]
    split
    · rename_i e
      exact of_snd e (ok.moveElem ..)
    · rename_i e
      exact ih (of_snd e (ok.moveElem ..)) _

theorem State.MemOk.rowIndex (m : Master) (k : Cmd) (row : Nat) : (s.rowIndex m k row).2.MemOk := by
  dsimp only [State.rowIndex]
  split
  · split <;> rename_i e <;> exact of_snd e (ok.engRead ..)
  · exact ok

theorem State.MemOk.moveRows (m : Master) (k : Cmd) (n row i : Nat) : (State.moveRows m k n row i s).1.MemOk := by
  induction n generalizing row i s with
  | zero => exact ok
  | succ n ih =>
    dsimp only [State.moveRows]
    split
    · rename_i e
      exact of_snd e (ok.rowIndex ..)
    rename_i e
    have ok := of_snd e (ok.rowIndex ..)
    split
    · rename_i e
      exact of_fst e (ok.moveRow ..)
    · rename_i e
      exact ih (of_fst e (ok.moveRow ..)) _ _

theorem State.MemOk.runTransfer (c : Nat) (k : Cmd) : (s.runTransfer c k).1.MemOk := by
  dsimp only [State.runTransfer]
  split
  · exact ok
  · exact ok.moveRows ..

theorem State.MemOk.modCmd (c : Nat) (seq : W32) (f : Cmd → Cmd) : (s.modCmd c seq f).MemOk := ok

theorem State.MemOk.linesPresent (c : Nat) (lines : List Nat) : (s.linesPresent c lines).MemOk := ok

theorem State.MemOk.engFault (c : Nat) (k : Cmd) (f : FaultRec) : (s.engFault c k f).MemOk := ok.deliver ..

theorem State.MemOk.endTransfer (c : Nat) (k : Cmd) (fault : Option FaultRec) : (s.endTransfer c k fault).MemOk := by
  dsimp only [State.endTransfer]
  split
  · exact (((ok.modCmd ..).fold fun _ _ ok => ok.linesPresent ..).engFault ..).barEvent ..
  split
  · exact (((ok.modCmd ..).fold fun _ _ ok => ok.linesPresent ..).barEvent ..).engFault ..
  · exact ((ok.modCmd ..).fold fun _ _ ok => ok.linesPresent ..).barEvent ..

theorem State.MemOk.execTransferLanding (core seq : Nat) : (execTransferLanding core seq s).MemOk := by
  dsimp only [Machine.execTransferLanding]
  apply Res.MemOk.next
  split
  · exact ok
  split
  · exact ok
  split
  · rename_i e
    exact (of_fst e (ok.runTransfer ..)).endTransfer ..
  · exact ok

theorem State.MemOk.execEngineCommandFault (core seq : Nat) : (execEngineCommandFault core seq s).MemOk := by
  dsimp only [Machine.execEngineCommandFault]
  apply Res.MemOk.next
  split
  · exact ok
  split
  · exact ok
  split
  · rename_i e
    have ok := of_fst e (ok.runTransfer ..)
    split
    · exact ok
    · exact ok.endTransfer ..
  · exact ok

theorem State.MemOk.execEngineCommandComplete (core seq : Nat) : (execEngineCommandComplete core seq s).MemOk := by
  dsimp only [Machine.execEngineCommandComplete]
  apply Res.MemOk.next
  split
  · exact ok
  · split <;> exact ok

theorem State.MemOk.execCpyxRequest (core seq : Nat) : (execCpyxRequest core seq s).MemOk := by
  dsimp only [Machine.execCpyxRequest]
  apply Res.MemOk.next
  split
  · exact ok
  split
  · exact ok
  split
  · exact ok.endTransfer ..
  · exact ok

theorem State.MemOk.nextSeq (c : Nat) : (s.nextSeq c).2.MemOk := ok

theorem State.MemOk.startTransfer (e : Env) (n : Nat) (k : Cmd) : (s.startTransfer e n k).MemOk := by
  dsimp only [State.startTransfer]
  split
  · exact (ok.nextSeq ..).barEvent ..
  split
  · exact ((ok.nextSeq ..).modCore ..).fold fun _ _ ok => ok.modCore ..
  · exact (((ok.nextSeq ..).modCore ..).fold fun _ _ ok => ok.modCore ..).modLane ..

theorem State.MemOk.transfer (i : Instr) (h : Hdr) (f : EF) (make : Env → Nat → Cmd → Cmd) : (s.transfer i h f make).MemOk := by
  dsimp only [State.transfer]
  refine ok.nibIssue _ _ fun _ _ _ ok => ?_
  split
  · exact ok.nibFault _ _ _ _
  · exact ok.startTransfer ..

theorem State.MemOk.setShape (e : Env) (n : Nat) (r : BitVec 512) : (s.setShape e n r).MemOk := by
  dsimp only [State.setShape]
  split <;> exact ok

theorem State.MemOk.nibAccess {k : Nat → W64 → State → State} (e : Env) (n : Nat) (q : Ask)
    (kOk : ∀ pa pte u, u.MemOk → (k pa pte u).MemOk) : (s.nibAccess e n q k).MemOk := by
  dsimp only [State.nibAccess]
  split
  · exact ok.waitAt ..
  split
  · rename_i e
    exact (of_snd e (ok.check ..)).raise ..
  · rename_i e
    exact kOk _ _ _ (of_snd e (ok.check ..))

theorem State.MemOk.take64 {k : List Byte → State → State} (e : Env) (n : Nat) (va : W64) (pa : Nat)
    (kOk : ∀ xs u, u.MemOk → (k xs u).MemOk) : (s.take64 e n va pa k).MemOk := by
  dsimp only [State.take64]
  split
  · exact ok.raise ..
  split
  · exact ok.waitAt ..
  split
  · exact ok.raise ..
  · exact kOk _ _ (((ok.homeLoad ..).readAtHome ..).softRead ..)

theorem State.MemOk.load64 {k : List Byte → State → State} (e : Env) (n : Nat) (va : W64) (kOk : ∀ xs u, u.MemOk → (k xs u).MemOk) :
    (s.load64 e n va k).MemOk :=
  ok.released _ _ _ fun _ ok => ok.nibAccess _ _ _ fun _ _ _ ok => ok.take64 _ _ _ _ kOk

theorem State.MemOk.nibStore (e : Env) (n : Nat) (va : W64) (pa : Nat) (pte : W64) (kind : StoreKind) :
    (s.nibStore e n va pa pte kind).MemOk :=
  ok

theorem State.MemOk.check2 {k : Nat → Nat → W64 → State → State} (e : Env) (n : Nat) (q r : Ask)
    (kOk : ∀ n m w u, u.MemOk → (k n m w u).MemOk) : (s.check2 e n q r k).MemOk := by
  dsimp only [State.check2]
  split
  · exact ok.waitAt ..
  split
  · exact kOk _ _ _ _ ((ok.check ..).check ..)
  · exact ((ok.check ..).check ..).raise ..
  · exact ((ok.check ..).check ..).raise ..
  · exact ((ok.check ..).check ..).raise ..

theorem State.MemOk.execThnd (h : Hdr) (f : EF) : (execThnd h f s).MemOk := by
  dsimp only [Machine.execThnd]
  refine ok.nibIssue _ _ fun _ _ _ ok => ?_
  split
  · exact ok.nibFault _ _ _ _
  · exact ok.nibD ..

/-! ## The matrix engine (Machine/Matrix) -/

theorem State.MemOk.operandElem (m : Master) (place e : Nat) (o : Operand) (row col : Nat) :
    (s.operandElem m place e o row col).2.MemOk := by
  dsimp only [State.operandElem]
  split
  · exact ok
  · split
    · exact ok
    · split <;> exact ok
  split
  · exact ok
  · split <;> rename_i e <;> exact of_snd e (ok.engRead ..)

theorem State.MemOk.readAll {get : Nat × Nat → State → Except Stop Nat × State} (getOk : ∀ x u, u.MemOk → (get x u).2.MemOk)
    (xs : List (Nat × Nat)) : (State.readAll get xs s).2.MemOk := by
  induction xs generalizing s with
  | nil => exact ok
  | cons x xs ih =>
    dsimp only [State.readAll]
    split
    · rename_i e
      exact of_snd e (getOk _ _ ok)
    rename_i e
    have ok := of_snd e (getOk _ _ ok)
    split
    · rename_i e
      exact of_snd e (ih ok)
    · rename_i e
      exact of_snd e (ih ok)

theorem State.MemOk.readPlane (m : Master) (place : Nat) (src : Operand) (fmt : Ty) (ks step : Nat) :
    (s.readPlane m place src fmt ks step).2.MemOk := by
  dsimp only [State.readPlane]
  split <;> rename_i e <;> exact of_snd e (ok.readAll (fun _ _ ok => ok.operandElem ..) _)

theorem State.MemOk.openPlane : s.openPlane.2.MemOk := ok

theorem State.MemOk.modHead (c place : Nat) (f : MOp → MOp) : (s.modHead c place f).MemOk := ok

theorem State.MemOk.popHead (c place : Nat) : (s.popHead c place).MemOk := by
  dsimp only [State.popHead]
  split <;> exact ok

theorem State.MemOk.opFault (c place : Nat) (o : MOp) (accs : List Nat) (f : FaultRec) : (s.opFault c place o accs f).MemOk := by
  dsimp only [State.opFault]
  split
  · exact (ok.modTeam ..).record ..
  · exact (ok.modTeam ..).deliver ..

theorem State.MemOk.headStop {old : State} (oldOk : old.MemOk) (c place : Nat) (o : MOp) (accs : List Nat) (step : Nat) (x : Stop) :
    (s.headStop old c place o accs step x).MemOk := by
  cases x with
  | fault f =>
    dsimp only [State.headStop]
    split
    · exact ok.modHead ..
    · exact (ok.opFault ..).popHead ..
  | hold => exact oldOk
  | walk => exact oldOk
  | absent => exact oldOk

theorem State.MemOk.mstaCells (m : Master) (place : Nat) (a : Acc) (dst : Operand) (fmt : Ty) (rnd : Rnd) (sat nof : Bool) (eo : Int)
    (n i : Nat) : (State.mstaCells m place a dst fmt rnd sat nof eo n i s).1.MemOk := by
  induction n generalizing i s with
  | zero => exact ok
  | succ n ih =>
    dsimp only [State.mstaCells]
    split
    · exact ok
    · split
      · exact ok
      · exact ih (ok.lwrite ..) _
    · split
      · exact ih ok _
      split
      · rename_i e
        exact of_snd e (ok.engWrite ..)
      · rename_i e
        exact ih (of_snd e (ok.engWrite ..)) _

theorem State.MemOk.mmaStart (c place : Nat) (o : MOp) (blk : BitVec 512) (a0 : Operand) : (s.mmaStart c place o blk a0).MemOk := by
  dsimp only [State.mmaStart]
  split
  · exact (ok.opFault ..).popHead ..
  apply State.MemOk.modHead
  split <;> exact ok

theorem State.MemOk.execMatrixOperationStart (core team : Nat) : (execMatrixOperationStart core team s).MemOk := by
  dsimp only [Machine.execMatrixOperationStart]
  apply Res.MemOk.next
  split
  · exact ok
  split
  · exact ok
  split
  · split
    · rename_i e
      exact (of_snd e (ok.readPlane ..)).headStop ok ..
    · rename_i e
      exact ((of_snd e (ok.readPlane ..)).modTeam ..).popHead ..
  · exact (ok.modTeam ..).popHead ..
  · exact ok.mmaStart ..
  · exact (ok.modTeam ..).popHead ..
  · split
    · exact (ok.opFault ..).popHead ..
    · exact (ok.modTeam ..).popHead ..
  · split
    · exact (ok.opFault ..).popHead ..
    split
    · rename_i e
      exact (of_fst e (ok.mstaCells ..)).headStop ok ..
    · rename_i e
      exact ((of_fst e (ok.mstaCells ..)).modTeam ..).popHead ..

theorem State.MemOk.readRows (m : Master) (place : Nat) (src : Operand) (fmt : Ty) (ks step : Nat) (rows : List Nat) :
    (s.readRows m place src fmt ks step rows).2.MemOk := by
  dsimp only [State.readRows]
  split <;> rename_i e <;> exact of_snd e (ok.readAll (fun _ _ ok => ok.operandElem ..) _)

theorem State.MemOk.streamStop (c place : Nat) (o : MOp) (streams : List Nat) (as : Nat) (f : FaultRec) :
    (s.streamStop c place o streams as f).MemOk := by
  dsimp only [State.streamStop]
  split
  · exact ok
  · exact (ok.opFault ..).modHead ..

theorem State.MemOk.streamStep (c place : Nat) (o : MOp) (blk : BitVec 512) (src : Operand) (w : Plane) (step t : Nat) :
    ∀ u, s.streamStep c place o blk src w step t = some u → u.MemOk := by
  dsimp only [State.streamStep]
  split
  next e => exact of_some ((of_snd e (ok.readRows ..)).streamStop ..)
  next => exact of_none
  next e => exact of_some ((of_snd e (ok.readRows ..)).modTeam ..)

theorem State.MemOk.streamsStep (c place : Nat) (o : MOp) (blk : BitVec 512) (a0 a1 : Operand) (w : Plane) (step : Nat) (ts : List Nat) :
    ∀ u, State.streamsStep c place o blk a0 a1 w step ts s = some u → u.MemOk := by
  induction ts generalizing s with
  | nil => exact of_some ok
  | cons t ts ih =>
    dsimp only [State.streamsStep]
    split
    · exact of_none
    · rename_i e
      exact ih (ok.streamStep _ _ _ _ _ _ _ _ _ e)

theorem State.MemOk.mmaEnd (c place : Nat) (o : MOp) (steps : Nat) : (s.mmaEnd c place o steps).MemOk := (ok.modTeam ..).popHead ..

theorem State.MemOk.execMatrixKStep (core team : Nat) : (execMatrixKStep core team s).MemOk := by
  dsimp only [Machine.execMatrixKStep]
  apply Res.MemOk.next
  split
  · exact ok
  split
  · split
    · exact ok
    split
    · split
      · exact ok.mmaEnd ..
      · exact ok
    split
    · split
      next e => exact (of_snd e (ok.readPlane ..)).streamStop ..
      next => exact ok
      next e => exact ok.getD (((of_snd e (ok.readPlane ..)).openPlane.modTeam ..).streamsStep _ _ _ _ _ _ _ _ _)
    · exact ok.getD (ok.streamsStep _ _ _ _ _ _ _ _ _)
  · exact ok

theorem State.MemOk.execLeaseGrant (core : Nat) : (execLeaseGrant core s).MemOk := by
  dsimp only [Machine.execLeaseGrant]
  apply Res.MemOk.next
  split <;> exact ok

theorem State.MemOk.execLeaseExpiry (core : Nat) : (execLeaseExpiry core s).MemOk := by
  dsimp only [Machine.execLeaseExpiry]
  apply Res.MemOk.next
  split
  · exact ok
  split
  · exact ok
  split
  · exact ok
  · split <;> exact ok

theorem State.MemOk.execMlease (h : Hdr) (f : EF) : (execMlease h f s).MemOk := by
  dsimp only [Machine.execMlease]
  refine ok.nibIssue _ _ fun _ _ _ ok => ?_
  split
  · exact ok.nibFault _ _ _ _
  split
  · exact ok
  apply State.MemOk.waitAt
  split <;> exact ok

theorem State.MemOk.execMrel (h : Hdr) (f : EF) : (execMrel h f s).MemOk := by
  dsimp only [Machine.execMrel]
  refine ok.nibIssue _ _ fun _ _ _ ok => ?_
  split
  · exact ok
  split
  · exact ok
  · split <;> exact ok

theorem State.MemOk.enqueue (e : Env) (p : Nat) (o : MOp) : (s.enqueue e p o).MemOk := by
  dsimp only [State.enqueue]
  split
  · exact ok.waitAt ..
  apply State.MemOk.modTeam
  split <;> exact ok

theorem State.MemOk.enqueueLeased (e : Env) (n p : Nat) (o : MOp) : (s.enqueueLeased e n p o).MemOk := by
  dsimp only [State.enqueueLeased]
  split
  · exact ok.nibFault _ _ _ _
  split
  · exact ok.waitAt ..
  split
  · exact ok.waitAt ..
  split
  · exact (ok.enqueue ..).modTeam ..
  · exact ok.enqueue ..

theorem State.MemOk.teamOp {body : Env → Nat → Nat → State → State} (i : Instr) (h : Hdr) (acc : Option Nat)
    (bodyOk : ∀ e n m u, u.MemOk → (body e n m u).MemOk) : (s.teamOp i h acc body).MemOk := by
  dsimp only [State.teamOp]
  refine ok.nibIssue _ _ fun _ _ _ ok => ?_
  split
  · exact ok.nibFault _ _ _ _
  · exact bodyOk _ _ _ _ ok
  split
  · exact ok.nibFault _ _ _ _
  · exact bodyOk _ _ _ _ ok

theorem State.MemOk.execMldw (h : Hdr) (f : EF) : (execMldw h f s).MemOk := by
  dsimp only [Machine.execMldw]
  refine ok.teamOp _ _ _ fun _ _ _ _ ok => ?_
  split
  · split
    · exact ok.nibFault _ _ _ _
    · exact ok.enqueueLeased ..
  refine ok.withEntry _ _ _ fun _ _ ok => ?_
  split
  · exact ok.nibFault _ _ _ _
  · exact ok.enqueueLeased ..

theorem State.MemOk.mmaIssue (i : Instr) (h : Hdr) (f : EF) (tandem : Bool) : (s.mmaIssue i h f tandem).MemOk := by
  dsimp only [State.mmaIssue]
  refine ok.nibIssue _ _ fun _ _ _ ok => ?_
  split
  · exact ok.nibFault _ _ _ _
  split
  · exact ok.nibFault _ _ _ _
  split
  · exact ok.nibFault _ _ _ _
  split
  · exact ok.nibFault _ _ _ _
  split
  · exact ok.waitAt ..
  refine ok.afterRecords _ _ fun _ ok => ?_
  split
  · exact ok.raise ..
  split
  · exact ok.nibFault _ _ _ _
  split
  · exact ok.nibFault _ _ _ _
  · exact ok.enqueueLeased ..

theorem State.MemOk.execMsta (h : Hdr) (f : EF) : (execMsta h f s).MemOk := by
  dsimp only [Machine.execMsta]
  refine ok.teamOp _ _ _ fun _ _ _ _ ok => ?_
  split
  · exact ok.nibFault _ _ _ _
  split
  · split
    · exact ok.nibFault _ _ _ _
    · exact ok.enqueue ..
  refine ok.withEntry _ _ _ fun _ _ ok => ?_
  split
  · exact ok.nibFault _ _ _ _
  · exact ok.enqueue ..

theorem State.MemOk.execMldt (h : Hdr) (f : EF) : (execMldt h f s).MemOk := by
  dsimp only [Machine.execMldt]
  split
  · exact .next (ok.faultSet ..)
  refine ok.nibIssue _ _ fun _ _ _ ok => ?_
  split
  · split
    · exact ok.nibFault _ _ _ _
    split
    · exact ok.nibFault _ _ _ _
    split
    · exact ok.raise ..
    split
    · exact ok.waitAt ..
    · exact ok.writeD ..
  split
  · exact ok.nibFault _ _ _ _
  split
  · exact ok.nibFault _ _ _ _
  split
  · exact ok.raise ..
  split
  · exact ok.waitAt ..
  · exact ok.writeD ..

theorem State.MemOk.accRead (i : Instr) (h : Hdr) (f : EF) (val : State → Env → Nat → W32) : (s.accRead i h f val).MemOk := by
  dsimp only [State.accRead]
  refine ok.teamOp _ _ _ fun _ _ _ _ ok => ?_
  split
  · exact ok.nibD ..
  · exact ok.waitAt ..

theorem State.MemOk.execMwait (h : Hdr) (f : EF) : (execMwait h f s).MemOk := by
  dsimp only [Machine.execMwait]
  refine ok.teamOp _ _ _ fun _ _ _ _ ok => ?_
  split
  · exact ok
  · exact ok.waitAt ..

/-! ## System instructions (Machine/System) -/

theorem State.MemOk.privIssue {body : Env → State → State} (i : Instr) (h : Hdr) (b : Bool) (bodyOk : ∀ e u, u.MemOk → (body e u).MemOk) :
    (s.privIssue i h b body).MemOk := by
  dsimp only [State.privIssue]
  split
  · exact .next (ok.faultSet ..)
  · exact ok.issueInk _ _ bodyOk

theorem State.MemOk.execSets (h : Hdr) (f : VF) : (execSets h f s).MemOk := by
  dsimp only [Machine.execSets]
  refine ok.privIssue _ _ _ fun _ _ ok => ?_
  split
  · exact ok.fold fun _ _ ok => ok.modLane ..
  split
  · exact ok
  · split <;> exact ok

theorem State.MemOk.execHalt (h : Hdr) (f : VF) : (execHalt h f s).MemOk := by
  dsimp only [Machine.execHalt]
  refine ok.issueInk _ _ fun _ _ ok => ?_
  split
  · exact ok
  split
  · exact (ok.modGroup ..).groupRecord ..
  · exact ok

theorem State.MemOk.dropWatch (c slot n : Nat) : (s.dropWatch c slot n).MemOk := ok

theorem State.MemOk.setWatch (c slot n : Nat) (w : WatchReg) : (s.setWatch c slot n w).MemOk := ok

theorem State.MemOk.watchRoom (c ctx : Nat) (base : W64) (len : Nat) : (s.watchRoom c ctx base len).2.MemOk := by
  dsimp only [State.watchRoom]
  split
  · exact ok
  split
  · rename_i e
    exact of_snd e (ok.coreXlate ..)
  rename_i e
  split <;> exact of_snd e (ok.coreXlate ..)

theorem State.MemOk.tableWatch (c slot n : Nat) (w : WatchReg) : (s.tableWatch c slot n w).2.MemOk := by
  dsimp only [State.tableWatch]
  split
  · rename_i e
    exact of_snd e ((ok.setWatch ..).watchRoom ..)
  rename_i e
  exact ((of_snd e ((ok.setWatch ..).watchRoom ..)).setWatch ..).modDie ..

theorem State.MemOk.armWatches (c slot : Nat) : (s.armWatches c slot).MemOk := by
  dsimp only [State.armWatches]
  refine ok.fold fun _ _ ok => ?_
  split
  · split
    · exact ok.tableWatch ..
    · exact ok
  · exact ok

theorem State.MemOk.execWatch (h : Hdr) (f : VF) : (execWatch h f s).MemOk := by
  dsimp only [Machine.execWatch]
  refine ok.nibIssue _ _ fun _ _ _ ok => ?_
  split
  · exact (ok.setWatch ..).nibD ..
  split
  · exact (ok.setWatch ..).nibD ..
  · exact ok.afterRecords _ _ fun _ ok => (ok.tableWatch ..).nibD ..

theorem State.MemOk.execUnwatch (h : Hdr) (f : VF) : (execUnwatch h f s).MemOk := by
  dsimp only [Machine.execUnwatch]
  refine ok.nibIssue _ _ fun _ _ _ ok => ?_
  split <;> exact ok

theorem State.MemOk.sampleRecord (e : Env) (type : BitVec 8) (body : List Byte) : (s.sampleRecord e type body).MemOk := ok.record ..

/-! ## Queues, launches and bind records (Machine/Launch) -/

theorem State.MemOk.putBy (d pa : Nat) (bs : List Byte) : (s.putBy d pa bs).MemOk := (ok.putMem ..).dropFar ..

theorem State.MemOk.setQword (d : Nat) (q : Queue) (n x : Nat) : (s.setQword d q n x).MemOk := ok.putBy ..

theorem State.MemOk.post (qn ctag : Nat) (code : Code) (die index : Nat) : (s.post qn ctag code die index).MemOk := by
  dsimp only [State.post]
  split
  · exact ok
  split
  · exact ok
  split
  · exact ok
  · exact ((((ok.rangeWalked ..).writePieces ..).setQword ..).event ..).modQueue ..

theorem State.MemOk.execCompletionReport (q : Nat) : (execCompletionReport q s).MemOk := by
  dsimp only [Machine.execCompletionReport]
  apply Res.MemOk.next
  split
  · exact ok
  · split <;> exact ok

theorem State.MemOk.execCoalescingTimerExpiry (q : Nat) : (execCoalescingTimerExpiry q s).MemOk := by
  dsimp only [Machine.execCoalescingTimerExpiry]
  apply Res.MemOk.next
  split
  · exact ok
  · split <;> exact ok

theorem State.MemOk.execInterrupt (q : Nat) : (execInterrupt q s).MemOk := by
  dsimp only [Machine.execInterrupt]
  apply Res.MemOk.next
  split
  · exact ok
  · split <;> exact ok

theorem State.MemOk.haltQueue (qn : Nat) (q : Queue) (code : Code) : (s.haltQueue qn q code).MemOk :=
  ((ok.modQueue ..).post ..).deviceEvent ..

theorem State.MemOk.readPackets (qn : Nat) (q : Queue) (n : Nat) : (State.readPackets qn q n s).MemOk := by
  induction n generalizing s with
  | zero => exact ok
  | succ n ih =>
    dsimp only [State.readPackets]
    split
    · exact ok
    have ok := ok.rangeWalked 0 (s.qctx q) (BitVec.ofNat 64 (s.qpair q 0 + 128 * (s.qword q 4 % 2 ^ natBits (s.qword q 2) 31 27))) 128
    split
    · exact ok.haltQueue ..
    split
    · exact ok
    split
    · exact ok.haltQueue ..
    split
    · split
      · exact (ok.fold fun _ _ ok => ok.readArray ..).haltQueue ..
      · exact ih (((ok.fold fun _ _ ok => ok.readArray ..).modQueue ..).setQword ..)
    · split
      · exact (ok.fold fun _ _ ok => ok.homeLoad ..).haltQueue ..
      · exact ih (((ok.fold fun _ _ ok => ok.homeLoad ..).modQueue ..).setQword ..)

theorem State.MemOk.readQueue (qn : Nat) : (s.readQueue qn).MemOk := by
  dsimp only [State.readQueue]
  split
  · exact ok
  split
  · exact ok
  split
  · exact ok.haltQueue ..
  · exact ok.readPackets ..

theorem State.MemOk.wake : s.wake.MemOk := by
  dsimp only [State.wake]
  split <;> exact ok

theorem State.MemOk.launchReading (ctx : Nat) (ws : List W32) : (s.launchReading ctx ws).MemOk := by
  dsimp only [State.launchReading]
  refine ok.fold fun _ _ ok => ?_
  split
  · exact ok.fold fun _ _ ok => ok.rangeWalked ..
  refine (ok.fold fun _ _ ok => ok.rangeWalked ..).fold fun _ _ ok => ?_
  split
  · exact ok.readArray ..
  · exact ok.homeLoad ..

theorem State.MemOk.finishPacket (qn index ctag : Nat) (code : Code) (die : Nat) : (s.finishPacket qn index ctag code die).MemOk :=
  (ok.modQueue ..).post ..

theorem State.MemOk.endPacket (qn : Nat) (p : Packet) (code : Code) : (s.endPacket qn p code).MemOk := ok.finishPacket ..

theorem State.MemOk.modPacket (qn index : Nat) (f : Packet → Packet) : (s.modPacket qn index f).MemOk := ok

theorem State.MemOk.plainPacket (q type : Nat) : (s.plainPacket q type).MemOk := by
  dsimp only [State.plainPacket]
  split
  · exact ok
  split
  · exact ok
  · exact ok.endPacket ..

theorem State.MemOk.execNoopPacket (q : Nat) : (execNoopPacket q s).MemOk := .next (ok.plainPacket ..)

theorem State.MemOk.execMarkerPacket (q : Nat) : (execMarkerPacket q s).MemOk := .next (ok.plainPacket ..)

theorem State.MemOk.execLaunchPacket (q : Nat) : (execLaunchPacket q s).MemOk := by
  dsimp only [Machine.execLaunchPacket]
  apply Res.MemOk.next
  split
  · exact ok
  split
  · exact ok
  split
  · apply State.MemOk.endPacket
    split
    · exact ok
    · exact ok.launchReading ..
  · exact (ok.launchReading ..).modPacket ..

theorem State.MemOk.emptyCaches (d : Nat) (out : Nat → Bool) : (s.emptyCaches d out).MemOk := ok

/-- The launches are no part of memory. -/
theorem State.MemOk.withLaunches (ls : List Launch) : ({ s with launches := ls } : State).MemOk := ok

theorem State.MemOk.execLaunchStart (q : Nat) : (execLaunchStart q s).MemOk := by
  dsimp only [Machine.execLaunchStart]
  apply Res.MemOk.next
  split
  · exact ok
  split
  · exact ok
  split
  · exact (ok.launchReading ..).endPacket ..
  · exact ok.endPacket ..
  · apply State.MemOk.withLaunches
    apply State.MemOk.modQueue
    apply State.MemOk.modPacket
    apply State.MemOk.modContext
    refine State.MemOk.fold (State.MemOk.fold ?_ fun _ _ ok => ?_) fun _ _ ok => State.MemOk.writePieces _ _ _ ok
    · split
      · exact (ok.launchReading ..).fold fun _ _ ok => ok.emptyCaches ..
      · exact ok.launchReading ..
    · split
      · exact ok.fold fun _ _ ok => ok.emptyCaches ..
      · exact ok

theorem State.MemOk.execChunkClaim (core ctx launch : Nat) : (execChunkClaim core ctx launch s).MemOk := by
  dsimp only [Machine.execChunkClaim]
  apply Res.MemOk.next
  split
  · exact ok
  split
  · exact ok
  split
  · exact ok
  · exact ((ok.modLaunch ..).modCore ..).fold fun _ _ ok => ok.fold fun _ _ ok => ok.formStroke ..

theorem State.MemOk.releaseRole (c place : Nat) (i : Ink) (l : Launch) : (s.releaseRole c place i l).MemOk :=
  ok.fold fun _ _ ok => ((ok.modCore ..).modTeam ..).armWatches ..

theorem State.MemOk.materialise (c : Nat) (i : Ink) (lin : Nat) : ∀ (t : State), s.materialise c i lin = some t → t.MemOk := by
  dsimp only [State.materialise]
  split
  · exact State.MemOk.of_none
  split
  · apply State.MemOk.of_some
    exact (ok.releaseRole ..).modCore ..
  split
  · exact State.MemOk.of_none
  apply State.MemOk.of_some
  exact ((ok.modCore ..).releaseRole ..).modCore ..

theorem State.MemOk.execTeamMaterialise (core : Nat) : (execTeamMaterialise core s).MemOk := by
  dsimp only [Machine.execTeamMaterialise]
  apply Res.MemOk.next
  split
  · exact ok
  · exact ok.getD (of_findSome fun _ _ => ok.materialise _ _ _)

theorem State.MemOk.freezeAgent (c : Nat) : (s.freezeAgent c).MemOk := ok.stopAgent ..

theorem State.MemOk.bindRelease (c slot : Nat) (w : Nat → Nat) (l : Launch) (place : Nat) (t : Team) :
    (s.bindRelease c slot w l place t).MemOk :=
  (ok.modCore ..).armWatches ..

theorem State.MemOk.dropCommitted (c place : Nat) (consumer : Bool) : (s.dropCommitted c place consumer).MemOk := by
  dsimp only [State.dropCommitted]
  split
  · exact ok
  · split <;> exact ok

theorem State.MemOk.execBindRecordWrite (core entry : Nat) (words : List (BitVec 32)) (by_ : BindWriter) :
    (execBindRecordWrite core entry words by_ s).MemOk := by
  unfold Machine.execBindRecordWrite
  extract_lets w put ctx
  refine .next (.ite ok (.ite (ok.freezeAgent ..) (.ite (ok.freezeAgent ..) (.ite (.ite ok ok) (.ite (.ite ok ok) ?_)))))
  split
  · exact ok.freezeAgent ..
  refine .ite (ok.freezeAgent ..) (.ite ?_ (.ite (ok.freezeAgent ..) (.ite ok ok)))
  split
  · exact ok.freezeAgent ..
  · exact .ite ok (((ok.bindRelease ..).modCore ..).dropCommitted ..)

theorem State.MemOk.leave (c slot : Nat) : (s.leave c slot).MemOk := by
  dsimp only [State.leave]
  split
  · exact ((ok.fold fun _ _ ok => ok.groupRecord ..).fold fun _ _ ok => ok.dropWatch ..).modCore ..
  · exact (((((ok.fold fun _ _ ok => ok.groupRecord ..).fold fun _ _ ok => ok.dropWatch ..).modCore ..).modTeam ..).modCore ..).settleTeam
      ..

theorem State.MemOk.execGroupLeavesDraining (core slot : Nat) : (execGroupLeavesDraining core slot s).MemOk := by
  dsimp only [Machine.execGroupLeavesDraining]
  apply Res.MemOk.next
  split
  · exact ok
  · exact ok.leave ..

theorem State.MemOk.execFaultDelivery (core slot : Nat) : (execFaultDelivery core slot s).MemOk := by
  dsimp only [Machine.execFaultDelivery]
  apply Res.MemOk.next
  split
  · exact ok
  split
  · exact ok
  split
  · exact (ok.modGroup ..).deliver ..
  · exact (ok.modGroup ..).takeFault ..

theorem State.MemOk.flushLines (out : Nat → Bool) : (s.flushLines out).MemOk := ok

theorem State.MemOk.writeSlot (spoiled : Bool) (o : Slot) : (s.writeSlot spoiled o).MemOk := by
  dsimp only [State.writeSlot]
  split
  · exact ok.readArray ..
  apply State.MemOk.withLaunches
  apply State.MemOk.homeStore
  split <;> exact ok

theorem State.MemOk.execGridEnd (ctx launch : Nat) : (execGridEnd ctx launch s).MemOk := by
  dsimp only [Machine.execGridEnd]
  apply Res.MemOk.next
  split
  · exact ok
  split
  · exact ok
  apply State.MemOk.finishPacket
  apply State.MemOk.flushLines
  refine State.MemOk.fold ?_ fun _ _ ok => ?_
  · exact ok
  · exact ok.writeSlot ..

theorem State.MemOk.terminateLaunch (ctx launch : Nat) (code : Code) : (s.terminateLaunch ctx launch code).MemOk := by
  dsimp only [State.terminateLaunch]
  split
  · exact ok
  · split <;> exact ok

theorem State.MemOk.execTerminate (ctx launch : Nat) (code : BitVec 8) : (execTerminate ctx launch code s).MemOk := by
  dsimp only [Machine.execTerminate]
  apply Res.MemOk.next
  split
  · exact ok
  · exact ok.terminateLaunch ..

/-! ## The gateways (Machine/Fabric) -/

theorem State.MemOk.modComm (ctx n : Nat) (f : Comm → Comm) : (s.modComm ctx n f).MemOk := ok

theorem State.MemOk.putOut (d port : Nat) (p : Fesel) : ∀ t, s.putOut d port p = some t → t.MemOk := by
  refine of_map fun _ _ => ?_
  split <;> exact ok

theorem State.MemOk.send (ctx d port : Nat) (p : Fesel) : ∀ t, s.send ctx d port p = some t → t.MemOk := by
  refine of_map fun _ e => ?_
  have ok := ok.putOut _ _ _ _ e
  exact ok.modDie ..

theorem State.MemOk.sendNew (ctx d : Nat) (p : Fesel) : ∀ r, s.sendNew ctx d p = some r → r.2.MemOk := by
  refine of_map fun _ e => ?_
  have ok := ok.send _ _ _ _ _ e
  exact ok.modDie ..

theorem State.MemOk.sendPlain (ctx d : Nat) (p : Fesel) : (s.sendPlain ctx d p).MemOk := by
  dsimp only [State.sendPlain]
  split
  · rename_i e
    exact ok.sendNew _ _ _ _ e
  · exact ok

theorem State.MemOk.sent (ctx d port : Nat) (p : Fesel) : ((s.send ctx d port p).getD s).MemOk := ok.getD (ok.send _ _ _ _)

theorem State.MemOk.answer (ctx d : Nat) (p : Fesel) : (s.answer ctx d p).MemOk := ok.sent ..

theorem State.MemOk.terminateContext (ctx : Nat) (code : Code) : (s.terminateContext ctx code).MemOk :=
  ok.fold fun _ _ ok => ok.terminateLaunch ..

theorem State.MemOk.remoteFail (c slot lane ctx : Nat) (f : FaultRec) : (s.remoteFail c slot lane ctx f).MemOk := by
  dsimp only [State.remoteFail]
  split
  · exact ((ok.modContext ..).groupRecord ..).terminateContext ..
  · exact ok

theorem State.MemOk.onTime (r : RReq) : (s.onTime r).MemOk := ok

theorem State.MemOk.failReq (r : RReq) (code : Code) : (s.failReq r code).MemOk := by
  dsimp only [State.failReq]
  apply State.MemOk.onTime
  split
  · exact ok.remoteFail ..
  split
  · exact (ok.remoteFail ..).arrive ..
  · exact (ok.remoteFail ..).arrive ..
  · exact ok.remoteFail ..

theorem State.MemOk.remoteLane (e : Env) (f : MF) (kind : BitVec 5) (aux : W32) (l : Nat) (rk : RKind) (payload : List Byte) :
    (s.remoteLane e f kind aux l rk payload).MemOk := by
  dsimp only [State.remoteLane]
  split
  · exact ok.raise ..
  split
  · exact ok.fresh.failReq ..
  split
  · exact ok.fresh.failReq ..
  rename_i e
  have ok := of_ite (ok.fresh.sendNew _ _ _) _ e
  split <;> exact ok

theorem State.MemOk.remoteLanes (e : Env) (f : MF) (kind : BitVec 5) (aux : W32) (rk : Nat → RKind) (payload : Nat → List Byte) :
    (s.remoteLanes e f kind aux rk payload).MemOk :=
  ok.ordered _ _ _ _ fun _ ok => ok.fold fun _ _ ok => ok.remoteLane ..

theorem State.MemOk.forgetSent (d : Nat) (fid : BitVec 32) : (s.forgetSent d fid).MemOk := ok

theorem State.MemOk.dropReq (d : Nat) (r : RReq) : (s.dropReq d r).MemOk := ok

theorem State.MemOk.onReply (d : Nat) (p : Fesel) : (s.onReply d p).MemOk := by
  dsimp only [State.onReply]
  split
  · exact ok
  split
  · exact (ok.dropReq ..).failReq ..
  apply State.MemOk.onTime
  split
  · apply State.MemOk.acquire
    split <;> exact ok
  · split <;> exact ok

theorem State.MemOk.timeoutReq (d : Nat) (fid : BitVec 32) : (s.timeoutReq d fid).MemOk := by
  dsimp only [State.timeoutReq]
  split
  · exact ok
  split
  · exact ok
  · exact (ok.dropReq ..).failReq ..

theorem State.MemOk.gate (d : Nat) (p : Fesel) (ctx : Nat) : Gate.MemOk (s.gate d p ctx) := by
  dsimp only [State.gate]
  split
  · exact ok
  split
  · exact ok
  split
  · exact ok
  split
  · exact ok
  split
  · exact ok
  · exact (ok.modComm ..).sendPlain ..

theorem State.MemOk.badPacket (d : Nat) : (s.badPacket d).MemOk := ok

theorem State.MemOk.sourceRecord (d ctx comm : Nat) (src : BitVec 20) : (s.sourceRecord d ctx comm src).MemOk := by
  dsimp only [State.sourceRecord]
  split
  · apply State.MemOk.postEvents
    apply State.MemOk.tryRecord
    split
    · exact ((ok.freeCode.event ..).tryRecord ..).postEvents ..
    · exact ok
  split
  · exact ((ok.freeCode.event ..).tryRecord ..).postEvents ..
  · exact ok

theorem State.MemOk.freezeSource (d : Nat) (p : Fesel) : (s.freezeSource d p).MemOk := (ok.modDie ..).sourceRecord ..

theorem State.MemOk.admission (d : Nat) (p : Fesel) : Gate.MemOk (s.admission d p) := by
  dsimp only [State.admission]
  split
  · exact ok
  split
  · exact ok
  split
  · exact ok
  · exact ok.freezeSource ..

theorem State.MemOk.reply (d : Nat) (p : Fesel) (code : Code) (payload : List Byte) : (s.reply d p code payload).MemOk := ok.answer ..

theorem State.MemOk.ingressWatch (p : Fesel) (k : AKind) (pa n : Nat) : (s.ingressWatch p k pa n).MemOk := by
  dsimp only [State.ingressWatch]
  split
  · exact ok
  split
  · exact ok
  · exact ok.record ..

theorem State.MemOk.waitPacket (d : Nat) (p : Fesel) : (s.waitPacket d p).MemOk := ok

theorem State.MemOk.ingressPart (d id off : Nat) (code : Code) (bs : List Byte) : (s.ingressPart d id off code bs).MemOk := ok

theorem State.MemOk.ingressNear (d id : Nat) (p : Fesel) (k : AKind) (off pa n : Nat) (bs : List Byte) :
    (s.ingressNear d id p k off pa n bs).MemOk := by
  dsimp only [State.ingressNear]
  split
  · exact ((ok.homeLoad ..).softRead ..).ingressPart ..
  · exact ((ok.softAccess ..).homeStore ..).ingressPart ..
  · exact ((ok.softAccess ..).homeAtomic ..).ingressPart ..

theorem State.MemOk.ingressFar (d id : Nat) (p : Fesel) (tag : BitVec 4) (k : AKind) (off pa n : Nat) (bs : List Byte) :
    (s.ingressFar d id p tag k off pa n bs).MemOk := by
  have ready : (if k = .read then s else ((s.softAccess pa n).dropFar d [(pa, n)]).staleReads d (pa / 128)).MemOk := by
    split
    · exact ok
    · exact ((ok.softAccess ..).dropFar ..).staleReads ..
  dsimp only [State.ingressFar]
  split
  · exact ready.ingressPart ..
  · rename_i e
    exact ready.request _ _ _ _ _ e

theorem State.MemOk.ingressGo (d : Nat) (p : Fesel) (tag : BitVec 4) (k : AKind) (ps : List (Nat × Nat)) (bs : List Byte) :
    (s.ingressGo d p tag k ps bs).2.MemOk := by
  dsimp only [State.ingressGo]
  refine (ok.fresh.modDie ..).fold fun _ _ ok => ?_
  split
  · exact ok.ingressNear ..
  · exact ok.ingressFar ..

theorem State.MemOk.ingressTake (d id : Nat) : ∀ (r : Ingress × State), s.ingressTake d id = some r → r.2.MemOk := by
  dsimp only [State.ingressTake]
  split
  · exact State.MemOk.of_none
  apply State.MemOk.of_some
  exact ok.modDie ..

theorem State.MemOk.ingressReply (d : Nat) (x : Ingress) : (s.ingressReply d x).MemOk := by
  dsimp only [State.ingressReply]
  split <;> exact ok.reply ..

theorem State.MemOk.serve (d : Nat) (p : Fesel) : (s.serve d p).MemOk := by
  dsimp only [State.serve]
  split
  · exact ok.reply ..
  split
  · exact ok.waitPacket ..
  have ok := ok.rangeWalked d p.tctx.toNat p.vaddr (Nat.max 1 (Fesel.access p).1)
  split
  · exact ok.reply ..
  split
  · apply State.MemOk.reply
    split
    · exact ok.fold fun _ _ ok => ok.readArray ..
    · exact ok
  have copied {xs : List (Nat × Nat)} : (xs.foldl (fun s x => if s.held x.1 then s else s.startCopies x.1)
      (s.rangeWalked d p.tctx.toNat p.vaddr (Nat.max 1 (Fesel.access p).1))).MemOk :=
    ok.fold fun _ _ ok => .ite ok (ok.startCopies ..)
  split
  · refine .ite (ok.waitPacket ..) ?_
    split
    · rename_i e
      split at e
      · exact (((ok.ingressWatch ..).ingressGo ..).ingressTake _ _ _ e).ingressReply ..
      · exact ((ok.ingressGo ..).ingressTake _ _ _ e).ingressReply ..
    · apply State.MemOk.ingressGo
      split
      · exact ok.ingressWatch ..
      · exact ok
  · refine .ite (copied.waitPacket ..) ?_
    split
    · rename_i e
      split at e
      · exact (((copied.ingressWatch ..).ingressGo ..).ingressTake _ _ _ e).ingressReply ..
      · exact ((copied.ingressGo ..).ingressTake _ _ _ e).ingressReply ..
    · apply State.MemOk.ingressGo
      split
      · exact copied.ingressWatch ..
      · exact copied

/-! ## Cadence (Machine/Cadence) -/

theorem State.MemOk.cadenceSend (ctx : Nat) (kind : BitVec 5) (dst : BitVec 20) (aux : W32) (extra : List W64) :
    (s.cadenceSend ctx kind dst aux extra).MemOk :=
  ok.sendPlain ..

theorem State.MemOk.modWatched (ctx : Nat) (dev : BitVec 20) (f : Watched → Watched) : (s.modWatched ctx dev f).MemOk := ok

theorem State.MemOk.execHeartbeatTimer (ctx : Nat) : (execHeartbeatTimer ctx s).MemOk := by
  dsimp only [Machine.execHeartbeatTimer]
  apply Res.MemOk.next
  split
  · split
    · exact ok
    apply State.MemOk.modContext
    refine ok.fold fun _ _ ok => ?_
    split
    · exact ok.cadenceSend _ _ _ _ _
    · exact ok
  · exact ok

theorem State.MemOk.sendVote (ctx : Nat) (dev : BitVec 20) (withdraw : Bool) : (s.sendVote ctx dev withdraw).MemOk := by
  dsimp only [State.sendVote]
  split
  · exact ok.cadenceSend _ _ _ _ _
  · exact ok

theorem State.MemOk.onHeartbeat (n : Nat) (p : Fesel) : (s.onHeartbeat n p).MemOk := by
  dsimp only [State.onHeartbeat]
  split
  · exact ok
  split
  · exact (ok.modWatched ..).sendVote ..
  · exact ok

theorem State.MemOk.castVote (ctx : Nat) (dev : BitVec 20) : (s.castVote ctx dev).MemOk := (ok.modWatched ..).sendVote ..

theorem State.MemOk.execSuspicion (ctx rank : Nat) : (execSuspicion ctx rank s).MemOk := by
  dsimp only [Machine.execSuspicion]
  apply Res.MemOk.next
  split
  · split
    · exact ok
    split
    · exact ok
    split
    · exact ((ok.modWatched ..).fold fun _ _ ok => ok.cadenceSend _ _ _ _ _).castVote ..
    · exact (ok.modWatched ..).fold fun _ _ ok => ok.cadenceSend _ _ _ _ _
  · exact ok

theorem State.MemOk.onProbe (n : Nat) (p : Fesel) : (s.onProbe n p).MemOk := by
  dsimp only [State.onProbe]
  split
  · exact ok
  split
  · exact ok.cadenceSend _ _ _ _ _
  · exact (ok.modContext ..).cadenceSend _ _ _ _ _

theorem State.MemOk.onProbeReply (n : Nat) (p : Fesel) : (s.onProbeReply n p).MemOk := by
  dsimp only [State.onProbeReply]
  split
  · exact ok
  split
  · split
    · exact ((ok.modContext ..).fold fun _ _ ok => ok.cadenceSend _ _ _ _ _).modWatched ..
    · exact (ok.modContext ..).fold fun _ _ ok => ok.cadenceSend _ _ _ _ _
  · exact (ok.modContext ..).fold fun _ _ ok => ok.cadenceSend _ _ _ _ _

theorem State.MemOk.execProbeTimeout (ctx rank : Nat) : (execProbeTimeout ctx rank s).MemOk := by
  dsimp only [Machine.execProbeTimeout]
  apply Res.MemOk.next
  split
  · split
    · exact ok
    split
    · exact ok
    split
    · exact ok
    split
    · exact ok
    · exact ok.castVote ..
  · exact ok

theorem State.MemOk.tryVerdict (ctx : Nat) : (s.tryVerdict ctx).MemOk := by
  dsimp only [State.tryVerdict]
  split
  · exact ok
  split
  · exact ok
  split
  · exact ok
  · exact (ok.modContext ..).fold fun _ _ ok => ok.cadenceSend _ _ _ _ _

theorem State.MemOk.onVote (n : Nat) (p : Fesel) : (s.onVote n p).MemOk := by
  dsimp only [State.onVote]
  split
  · exact ok
  split
  · exact ok
  split
  · exact ok
  · exact (ok.modContext ..).tryVerdict ..

theorem State.MemOk.block (dev : BitVec 20) : (s.block dev).MemOk := ok.fold fun _ _ ok => ok.modDie ..

theorem State.MemOk.onVerdict (n : Nat) (p : Fesel) : (s.onVerdict n p).MemOk := (ok.modContext ..).block ..

/-! ## Collectives (Machine/Collect) -/

theorem State.MemOk.modColl (ctx comm seq : Nat) (f : Coll → Coll) : (s.modColl ctx comm seq f).MemOk := ok

theorem State.MemOk.failColl (ctx : Nat) (k : Coll) (code : Code) (rank : Nat) : (s.failColl ctx k code rank).MemOk :=
  (ok.modColl ..).remoteFail ..

theorem State.MemOk.collStores (k : Coll) (ctx n : Nat) (bs : List Byte) : (State.collStores k ctx n bs s).2.2.MemOk := by
  induction n generalizing bs s with
  | zero => exact ok
  | succ n ih =>
    dsimp only [State.collStores]
    split
    · rename_i e
      have ok := of_snd e (ok.engCheck ..)
      exact ih ok _
    · rename_i e
      have ok := of_snd e (ok.engCheck ..)
      exact ih ok.fresh _

theorem State.MemOk.postColl (ctx : Nat) (k : Coll) (qs : List StoreReq) : (s.postColl ctx k qs).MemOk :=
  (ok.fold fun _ _ ok => ok.pushStore ..).modColl ..

theorem State.MemOk.tryColl (ctx comm seq : Nat) : (s.tryColl ctx comm seq).MemOk := by
  dsimp only [State.tryColl]
  split
  · exact ok
  split
  · exact ok
  split
  next e => exact (of_third e (ok.collStores ..)).failColl ..
  next => exact ok
  next e => exact ((of_third e (ok.collStores ..)).postColl ..).modColl ..

theorem State.MemOk.staleColl (ctx : Nat) (k : Coll) : (s.staleColl ctx k).MemOk := by
  dsimp only [State.staleColl]
  refine ((State.MemOk.collStores ?_ _ _ _ _).postColl ..).failColl ..
  exact ok

theorem State.MemOk.timeoutColls (d : Nat) (fid : BitVec 32) : (s.timeoutColls d fid).MemOk :=
  ok.fold fun _ _ ok => ok.fold fun _ _ ok => ok.failColl ..

theorem State.MemOk.onCollData (d : Nat) (p : Fesel) : (s.onCollData d p).MemOk := by
  dsimp only [State.onCollData]
  split
  · exact ok
  split
  · split <;> exact ok
  split
  · exact ok
  split
  · exact ok
  split
  · exact (ok.modColl ..).failColl ..
  · exact ((ok.modColl ..).modColl ..).tryColl ..

theorem State.MemOk.sendColl (ctx : Nat) (k : Coll) (rank : Nat) (bs : List Byte) : ∀ t, s.sendColl ctx k rank bs = some t → t.MemOk := by
  dsimp only [State.sendColl]
  split
  · exact of_some ok
  · refine List.foldlRecOn (motive := fun o : Option State => ∀ t, o = some t → t.MemOk) _ _ (of_some ok) fun _ ok _ _ => ?_
    exact of_bind fun _ e => of_map fun _ e' => (ok _ e).sendNew _ _ _ _ e'

theorem State.MemOk.sendColls (ctx : Nat) (k : Coll) (bs : List Byte) (rs : List Nat) : (s.sendColls ctx k bs rs).MemOk := by
  induction rs generalizing s with
  | nil => exact ok
  | cons r rs ih =>
    dsimp only [State.sendColls]
    split
    · rename_i e
      exact ih (ok.sendColl _ _ _ _ _ e)
    · exact ok.failColl ..

theorem State.MemOk.collRead (m : Master) (es n : Nat) (va : W64) : (State.collRead m es n va s).2.MemOk := by
  induction n generalizing va s with
  | zero => exact ok
  | succ n ih =>
    dsimp only [State.collRead]
    split
    · rename_i e
      exact of_snd e (ok.engRead ..)
    rename_i e
    have ok := of_snd e (ok.engRead ..)
    split
    · rename_i e
      exact of_snd e (ih ok _)
    · rename_i e
      exact of_snd e (ih ok _)

theorem State.MemOk.takeEarly (ctx comm seq : Nat) : (s.takeEarly ctx comm seq).MemOk :=
  (ok.modContext ..).fold fun _ _ ok => ok.onCollData ..

theorem State.MemOk.collSource (ctx : Nat) (k : Coll) : (s.collSource ctx k).2.MemOk := by
  dsimp only [State.collSource]
  split
  · exact ok.collRead ..
  · exact ok

theorem State.MemOk.collGo (ctx comm seq : Nat) : (s.collGo ctx comm seq).MemOk := by
  dsimp only [State.collGo]
  split
  · exact ok
  split
  · exact ok
  split
  · exact ok.tryColl ..
  split
  · rename_i e
    exact (of_snd e (ok.collSource ..)).failColl ..
  · exact ok
  rename_i e
  exact (((of_snd e (ok.collSource ..)).modColl ..).sendColls ..).tryColl ..

theorem State.MemOk.collsGo : s.collsGo.MemOk := ok.fold fun _ _ ok => ok.fold fun _ _ ok => ok.collGo ..

theorem State.MemOk.startColl (e : Env) (n : Nat) (f : EF) (r : BitVec 512) : (s.startColl e n f r).MemOk := by
  dsimp only [State.startColl]
  split
  · exact ((((ok.modComm ..).nibD ..).modContext ..).takeEarly ..).collGo ..
  · exact (((ok.modComm ..).nibD ..).modContext ..).failColl ..

theorem State.MemOk.execColl (h : Hdr) (f : EF) : (execColl h f s).MemOk := by
  dsimp only [Machine.execColl]
  refine ok.nibIssue _ _ fun _ _ _ ok => ?_
  split
  · exact ok.nibFault _ _ _ _
  refine ok.afterRecords _ _ fun _ ok => ?_
  split
  · exact ok.nibFault _ _ _ _
  split
  · exact ok.nibFault _ _ _ _
  split
  · exact ok.nibFault _ _ _ _
  split
  · exact ok.nibFault _ _ _ _
  split
  · exact ok.waitAt ..
  · exact ok.startColl ..

theorem State.MemOk.execCwait (h : Hdr) (f : EF) : (execCwait h f s).MemOk := by
  dsimp only [Machine.execCwait]
  refine ok.nibIssue _ _ fun _ _ _ ok => ?_
  split
  · exact ok.nibD ..
  split
  · exact ok.nibD ..
  split
  · exact ok.waitAt ..
  · exact (ok.acquire ..).nibD ..

/-! ## Third-party reads, landing windows and tracing views (Machine/Third) -/

theorem State.MemOk.startRrd3 (e : Env) (n : Nat) (plan : List W32) (first count : Nat) (status : W64) :
    (s.startRrd3 e n plan first count status).MemOk := by
  dsimp only [State.startRrd3]
  split <;> exact ok

theorem State.MemOk.afterWalks {k : State → State} (e : Env) (va : W64) (n : Nat) (kOk : ∀ u, u.MemOk → (k u).MemOk) :
    (s.afterWalks e va n k).MemOk := by
  dsimp only [State.afterWalks]
  split
  · exact ok.waitAt ..
  · exact kOk _ (ok.fold fun _ _ ok => ok.coreXlate ..)

theorem State.MemOk.execRrd3 (h : Hdr) (f : EF) : (execRrd3 h f s).MemOk := by
  dsimp only [Machine.execRrd3]
  refine ok.nibIssue _ _ fun _ _ _ ok => ?_
  split
  · exact ok.nibFault _ _ _ _
  refine ok.afterRecords _ _ fun _ ok => ?_
  refine ok.afterWalks _ _ _ fun _ ok => ?_
  split
  · exact ok.nibFault _ _ _ _
  · exact ok
  split
  · exact ok.nibFault _ _ _ _
  split
  · exact ok.nibFault _ _ _ _
  split
  · exact ok.waitAt ..
  · exact ok.startRrd3 ..

theorem State.MemOk.stripeOver (d : Nat) (x : Stripe) (j : JCmd) (code : Code) (addr : W64) : (s.stripeOver d x j code addr).MemOk := by
  dsimp only [State.stripeOver]
  split
  · apply State.MemOk.modDie
    split
    · exact ok
    · exact ((ok.modDie ..).forgetSent ..).remoteFail ..
  apply State.MemOk.modCmd
  apply State.MemOk.modDie
  split
  · exact ok
  · exact ((ok.modDie ..).forgetSent ..).remoteFail ..

theorem State.MemOk.endStripe (d : Nat) (x : Stripe) (code : Code) : (s.endStripe d x code).MemOk := by
  dsimp only [State.endStripe]
  split
  · exact ok
  split
  · rename_i e
    exact (of_snd e (ok.engWrite ..)).stripeOver ..
  · rename_i e
    exact ((of_snd e (ok.engWrite ..)).deliver ..).stripeOver ..
  rename_i e
  have ok := of_snd e (ok.engWrite ..)
  exact ok

theorem State.MemOk.issueStripe (d : Nat) (j : JCmd) : (s.issueStripe d j).MemOk := by
  dsimp only [State.issueStripe]
  split
  · exact ((ok.modDie ..).modDie ..).endStripe ..
  split
  · rename_i e
    have ok := (ok.modDie ..).sendNew _ _ _ _ e
    exact ok
  · exact ((ok.modDie ..).modDie ..).endStripe ..

theorem State.MemOk.execStripeIssue (die : Nat) : (execStripeIssue die s).MemOk := by
  dsimp only [Machine.execStripeIssue]
  apply Res.MemOk.next
  split
  · exact ok.endStripe ..
  split
  · exact ok
  split
  · exact ok.issueStripe ..
  · exact ok

theorem State.MemOk.onStripeEnd (d : Nat) (p : Fesel) : (s.onStripeEnd d p).MemOk := by
  dsimp only [State.onStripeEnd]
  split
  · exact ok
  · exact ok.endStripe ..

theorem State.MemOk.timeoutStripe (d : Nat) (fid : BitVec 32) : (s.timeoutStripe d fid).MemOk := by
  dsimp only [State.timeoutStripe]
  split
  · exact ok
  split
  · split
    · exact ok
    · exact ok.endStripe ..
  split
  · exact ok
  · exact ok.endStripe ..

theorem State.MemOk.failXrq (d ctx : Nat) (p : Fesel) (code : Code) : (s.failXrq d ctx p code).MemOk := (ok.answer ..).answer ..

theorem State.MemOk.viewWalked (v : View) (off : Nat) : (s.viewWalked v off).MemOk := by
  dsimp only [State.viewWalked]
  split
  · exact ok.rangeWalked ..
  · exact ok

theorem State.MemOk.readView (v : View) (off n : Nat) : (s.readView v off n).MemOk := by
  dsimp only [State.readView]
  split
  · exact ok.readArray ..
  · exact ok

theorem State.MemOk.sendXdts (n fuel : Nat) (r : ViewRead) : (State.sendXdts n fuel s r).1.MemOk := by
  induction fuel generalizing r s with
  | zero => exact ok
  | succ fuel ih =>
    dsimp only [State.sendXdts]
    split
    · exact ok.failXrq ..
    split
    · exact ok
    split
    · apply ih
      apply State.MemOk.sent
      exact ok
    split
    · exact ok
    · apply State.MemOk.failXrq
      split
      · exact (ok.viewWalked ..).readView ..
      · exact ok.viewWalked ..
    · apply ih
      apply State.MemOk.sent
      split
      · exact ((ok.viewWalked ..).homeLoad ..).softRead ..
      · exact (ok.viewWalked ..).homeLoad ..

theorem State.MemOk.serveView (n : Nat) : (s.serveView n).MemOk := by
  dsimp only [State.serveView]
  split
  · exact ok
  refine State.MemOk.fold ?_ fun _ _ ok => ?_
  · exact ok
  split <;> rename_i e
  · exact of_fst e (ok.sendXdts ..)
  · have ok := of_fst e (ok.sendXdts ..)
    exact ok

theorem State.MemOk.onXrq (d : Nat) (p : Fesel) : (s.onXrq d p).MemOk := by
  dsimp only [State.onXrq]
  split
  · exact ok.failXrq ..
  split
  · exact ok.failXrq ..
  split
  · exact ok.failXrq ..
  split
  · exact ok.failXrq ..
  split
  · exact ok.failXrq ..
  apply State.MemOk.serveView
  exact ok

theorem State.MemOk.execChunkCopyEnd (view chunk : Nat) : (execChunkCopyEnd view chunk s).MemOk := by
  dsimp only [Machine.execChunkCopyEnd]
  apply Res.MemOk.next
  split
  · exact ok
  · exact ((ok.chunkCopied ..).postEvents ..).serveView ..

theorem State.MemOk.modWindow (ctx n : Nat) (f : Window → Window) : (s.modWindow ctx n f).MemOk := ok

theorem State.MemOk.windowBar (ctx : Nat) (w : Window) (f : Barrier → Barrier) : (s.windowBar ctx w f).MemOk := by
  dsimp only [State.windowBar]
  split
  · exact ok.barEvent ..
  · exact ok

theorem State.MemOk.spareXer (d ctx comm : Nat) (x : Landing) (code : Code) : (s.spareXer d ctx comm x code).MemOk := ok.answer ..

theorem State.MemOk.discardXdt (d : Nat) (p : Fesel) (code : Code) : (s.discardXdt d p code).MemOk := by
  dsimp only [State.discardXdt]
  split
  · exact ok
  · exact (ok.modWindow ..).spareXer ..

theorem State.MemOk.stripeLanded (ctx n : Nat) (x : Landing) : (s.stripeLanded ctx n x).MemOk := by
  dsimp only [State.stripeLanded]
  split
  · exact ok
  split
  · exact ok
  · exact (ok.modWindow ..).answer ..

theorem State.MemOk.xdtLanded (d : Nat) (y : Ingress) : (s.xdtLanded d y).MemOk := by
  dsimp only [State.xdtLanded]
  split
  · exact ok.discardXdt ..
  split
  · exact ok
  · exact ((ok.modWindow ..).windowBar ..).stripeLanded ..

theorem State.MemOk.ingressDone (d id : Nat) : (s.ingressDone d id).MemOk := by
  dsimp only [State.ingressDone]
  split
  · exact ok
  rename_i e
  have ok := ok.ingressTake _ _ _ e
  split
  · exact ok.xdtLanded ..
  · exact ok.ingressReply ..

theorem State.MemOk.landXdt (d : Nat) (p : Fesel) (w : Window) (ps : List (Nat × Nat)) : (s.landXdt d p w ps).MemOk := by
  dsimp only [State.landXdt]
  split
  · apply State.MemOk.waitPacket
    refine ok.fold fun _ _ ok => ?_
    split
    · exact ok
    · exact ok.startCopies ..
  apply State.MemOk.ingressDone
  apply State.MemOk.ingressGo
  refine State.MemOk.fold ?_ fun _ _ ok => ?_
  · refine ok.fold fun _ _ ok => ?_
    split
    · exact ok
    · exact ok.startCopies ..
  · exact ok.ingressWatch ..

theorem State.MemOk.onXdt (d : Nat) (p : Fesel) : (s.onXdt d p).MemOk := by
  dsimp only [State.onXdt]
  split
  · exact ok
  split
  · exact (ok.rangeWalked ..).discardXdt ..
  split
  · exact ((ok.rangeWalked ..).modWindow ..).windowBar ..
  · exact ((ok.rangeWalked ..).modWindow ..).landXdt ..

theorem State.MemOk.closeWindows (ctx comm : Nat) (gen : BitVec 16) : (s.closeWindows ctx comm gen).MemOk := by
  dsimp only [State.closeWindows]
  refine ok.fold fun _ _ ok => ?_
  apply State.MemOk.modWindow
  refine ok.fold fun _ _ ok => ?_
  split
  · exact ok.windowBar ..
  · exact (ok.windowBar ..).spareXer ..

theorem State.MemOk.execRwin (h : Hdr) (f : EF) : (execRwin h f s).MemOk := by
  dsimp only [Machine.execRwin]
  refine ok.nibIssue _ _ fun _ _ _ ok => ?_
  split
  · exact ok.nibFault _ _ _ _
  split
  · exact ok.nibFault _ _ _ _
  split
  · exact ok.nibFault _ _ _ _
  refine ok.afterRecords _ _ fun _ ok => ?_
  split
  · exact ok.nibFault _ _ _ _
  split
  · exact ok.nibFault _ _ _ _
  split
  · exact ok.nibFault _ _ _ _
  · exact ok
  split
  · exact ok.nibFault _ _ _ _
  split
  · exact ok.waitAt ..
  · exact (ok.modWindow ..).fold fun _ _ ok => ok.sendPlain ..

theorem State.MemOk.execRwclose (h : Hdr) (f : EF) : (execRwclose h f s).MemOk := by
  dsimp only [Machine.execRwclose]
  refine ok.nibIssue _ _ fun _ _ _ ok => ?_
  split
  · split
    · exact (ok.modWindow ..).waitAt ..
    · exact ((ok.modWindow ..).modWindow ..).nibD ..
  split
  · exact ok.waitAt ..
  · exact ok.nibD ..

theorem State.MemOk.execTview (h : Hdr) (f : EF) : (execTview h f s).MemOk := by
  dsimp only [Machine.execTview]
  refine ok.nibIssue _ _ fun _ _ _ ok => ?_
  split
  · exact ok.nibFault _ _ _ _
  split
  · exact ok.nibFault _ _ _ _
  split
  · exact ok.nibFault _ _ _ _
  split
  · exact ok.nibFault _ _ _ _
  refine ok.afterRecords _ _ fun _ ok => ok.afterWalks _ _ _ fun _ ok => ?_
  split
  · exact ok.nibFault _ _ _ _
  · exact ok
  split
  · exact ok.nibFault _ _ _ _
  split
  · exact ok.nibFault _ _ _ _
  · exact ok.released _ _ _ fun _ ok => ok.acquire ..

theorem State.MemOk.execTvclose (h : Hdr) (f : EF) : (execTvclose h f s).MemOk := by
  dsimp only [Machine.execTvclose]
  refine ok.nibIssue _ _ fun _ _ _ ok => ?_
  split
  · exact ok.nibD ..
  split
  · exact ok.nibFault _ _ _ _
  split
  · exact ok.waitAt ..
  apply State.MemOk.nibD
  exact ok

/-! ## Events of memory and translation (Machine/Translate) -/

theorem State.MemOk.execLoadDataReturn (core slot idx : Nat) : (execLoadDataReturn core slot idx s).MemOk := by
  dsimp only [Machine.execLoadDataReturn]
  apply Res.MemOk.next
  split
  · exact ok
  · exact ok.serveLoad ..

theorem State.MemOk.execStorePerform (core slot idx : Nat) : (execStorePerform core slot idx s).MemOk := by
  dsimp only [Machine.execStorePerform]
  apply Res.MemOk.next
  split
  · exact ok
  · exact (ok.performStore ..).collsGo

theorem State.MemOk.execCacheLineTimeout (unit : CacheUnit) (line : Nat) : (execCacheLineTimeout unit line s).MemOk := by
  dsimp only [Machine.execCacheLineTimeout]
  apply Res.MemOk.next
  split <;> exact ok

theorem State.MemOk.endWalk (w : Walk) : (s.endWalk w).MemOk := by
  dsimp only [State.endWalk]
  split
  · rename_i e
    exact of_snd e (ok.checkAs ..)
  rename_i e
  have ok := of_snd e (ok.checkAs ..)
  split
  · exact ok
  · exact ok.bringLine ..

theorem State.MemOk.execPageWalk (die : Nat) : (execPageWalk die s).MemOk := by
  dsimp only [Machine.execPageWalk]
  apply Res.MemOk.next
  split
  · exact ok
  split
  · exact ok
  · exact ((ok.modDie ..).endWalk ..).collsGo

theorem State.MemOk.resumeFault (ctx : Nat) (va : W64) : (s.resumeFault ctx va).MemOk := ok

theorem State.MemOk.failHead (c place ctx : Nat) (va : W64) : (s.failHead c place ctx va).MemOk := by
  dsimp only [State.failHead]
  split
  · exact ok
  split
  · split
    · exact ok
    · exact (ok.opFault ..).popHead ..
  · exact ok.fold fun _ _ ok => (ok.opFault ..).modHead ..

theorem State.MemOk.failParked (ctx : Nat) (mine : Nat → Bool) (va : W64) : (s.failParked ctx mine va).MemOk := by
  dsimp only [State.failParked]
  refine ok.fold fun _ _ ok => ?_
  refine State.MemOk.fold ?_ fun _ _ ok => ?_
  · refine State.MemOk.fold ?_ fun _ _ ok => ?_
    · refine ok.fold fun _ _ ok => ?_
      split
      · exact ok
      refine ok.fold fun _ _ ok => ?_
      split
      · exact ok.precise ..
      · exact ok
    · exact ok.endTransfer ..
  · split
    · exact ok.failHead ..
    · exact ok

theorem State.MemOk.failFault (ctx : Nat) (va : W64) : (s.failFault ctx va).MemOk := (ok.failParked ..).modContext ..

theorem State.MemOk.clearTensor (ctx n : Nat) : (s.clearTensor ctx n).MemOk := by
  dsimp only [State.clearTensor]
  split
  · exact ok
  split
  · exact ok.putBy ..
  · exact ok

theorem State.MemOk.settleBlank (ctx : Nat) : (s.settleBlank ctx).MemOk := by
  dsimp only [State.settleBlank]
  split
  · exact ok
  refine ok.fold fun _ _ ok => ?_
  split
  · exact ok
  · exact (ok.clearTensor ..).modContext ..

theorem State.MemOk.settleBlanks : s.settleBlanks.MemOk := ok.fold fun _ _ ok => ok.settleBlank ..

theorem State.MemOk.execTranslationFaultServed (ctx : Nat) (va : BitVec 64) (entries : List (Nat × BitVec 64)) (served : Bool) :
    (execTranslationFaultServed ctx va entries served s).MemOk := by
  dsimp only [Machine.execTranslationFaultServed]
  apply Res.MemOk.next
  split
  · exact ok
  split
  · exact ((ok.fold fun _ _ ok => ok.putBy ..).settleBlanks).resumeFault ..
  · exact ((ok.fold fun _ _ ok => ok.putBy ..).settleBlanks).failFault ..

theorem State.MemOk.invalidate (d : Nat) (t : InvTarget) (dies : List Nat) (reply : Option (Nat × Nat × Nat)) :
    (s.invalidate d t dies reply).MemOk :=
  ok

theorem State.MemOk.requestTo (src dst : Nat) (for_ : DlFor) (p : Pkt) (data : List (BitVec 128)) :
    ∀ t, s.requestTo src dst for_ p data = some t → t.MemOk := by
  refine of_map fun _ e => ?_
  have ok := (ok.nextRid ..).sendPacket _ _ _ _ _ e
  exact ok.modDie ..

theorem State.MemOk.invalAnswered (id d : Nat) : (s.invalAnswered id d).MemOk := ok

theorem State.MemOk.execInvalidationComplete (id : Nat) : (execInvalidationComplete id s).MemOk := by
  dsimp only [Machine.execInvalidationComplete]
  apply Res.MemOk.next
  split
  · exact ok
  split
  · exact ok
  split
  · exact ok
  · refine State.MemOk.getD ?_ (State.MemOk.sendPacket ?_ _ _ _ _) <;> exact ok

/-! ## Flits, replay and retraining (Machine/Flits) -/

theorem State.MemOk.linkEvent (t : StreamId) (cause : Nat) : (s.linkEvent t cause).MemOk := ((ok.record ..).record ..).modModule ..

theorem State.MemOk.sendNak (t : StreamId) : (s.sendNak t).MemOk := by
  dsimp only [State.sendNak]
  split <;> exact ok

theorem State.MemOk.resend (t : StreamId) (hs : List HeldFlit) : (s.resend t hs).MemOk := by
  induction hs generalizing s with
  | nil => exact ok
  | cons h hs ih => exact ih (ok.sendFlit ..)

theorem State.MemOk.replay (t : StreamId) : (s.replay t).MemOk := by
  dsimp only [State.replay]
  split
  · exact ok
  split
  · exact ok
  · exact ((ok.modStream ..).modModule ..).resend ..

theorem State.MemOk.applyFlit (t : StreamId) (f : Flit) : (s.applyFlit t f).MemOk := by
  dsimp only [State.applyFlit]
  apply State.MemOk.pump
  split
  · exact (ok.modStream ..).replay ..
  · exact ok

theorem State.MemOk.takeFlit (t : StreamId) (kind : Nat) : ∀ r, s.takeFlit t kind = some r → r.2.MemOk := by
  dsimp only [State.takeFlit]
  split
  · exact of_none
  split
  · exact of_some ok
  · exact of_none

theorem State.MemOk.execDataFlit (st : StreamId) : (execDataFlit st s).MemOk := by
  dsimp only [Machine.execDataFlit]
  apply Res.MemOk.next
  split
  · exact ok
  rename_i e
  have ok := ok.takeFlit _ _ _ e
  split
  · exact (ok.applyFlit ..).modStream ..
  split
  · exact (ok.applyFlit ..).sendFlit ..
  · exact (ok.applyFlit ..).sendNak ..

theorem State.MemOk.execIdleFlit (st : StreamId) : (execIdleFlit st s).MemOk := by
  dsimp only [Machine.execIdleFlit]
  apply Res.MemOk.next
  split
  · exact ok
  split
  · exact ok
  rename_i e
  exact ((ok.sendFlit ..).takeFlit _ _ _ e).applyFlit ..

theorem State.MemOk.execControlFlit (st : StreamId) : (execControlFlit st s).MemOk := by
  dsimp only [Machine.execControlFlit]
  apply Res.MemOk.next
  split
  · exact ok
  rename_i e
  exact (ok.takeFlit _ _ _ e).applyFlit ..

theorem State.MemOk.execBadFlit (st : StreamId) : (execBadFlit st s).MemOk := by
  dsimp only [Machine.execBadFlit]
  apply Res.MemOk.next
  split
  · exact ok
  split
  · exact ok
  · exact (ok.modStream ..).sendNak ..

theorem State.MemOk.execNakLapse (st : StreamId) : (execNakLapse st s).MemOk := by
  dsimp only [Machine.execNakLapse]
  apply Res.MemOk.next
  split
  · exact ok
  · split <;> exact ok

theorem State.MemOk.execAckTimerExpiry (st : StreamId) : (execAckTimerExpiry st s).MemOk := by
  dsimp only [Machine.execAckTimerExpiry]
  apply Res.MemOk.next
  split
  · exact ok
  · split <;> exact ok

theorem State.MemOk.execReplayTimeout (st : StreamId) : (execReplayTimeout st s).MemOk := by
  dsimp only [Machine.execReplayTimeout]
  apply Res.MemOk.next
  split
  · exact ok
  split
  · exact ok
  · exact ok.replay ..

theorem State.MemOk.execReplayLimit (st : StreamId) : (execReplayLimit st s).MemOk := by
  dsimp only [Machine.execReplayLimit]
  apply Res.MemOk.next
  split <;> exact ok

theorem State.MemOk.execLaneLockLoss (lo hi module : Nat) : (execLaneLockLoss lo hi module s).MemOk := by
  dsimp only [Machine.execLaneLockLoss]
  apply Res.MemOk.next
  split <;> exact ok

theorem State.MemOk.execRetrainCommand (lo hi module : Nat) : (execRetrainCommand lo hi module s).MemOk := by
  dsimp only [Machine.execRetrainCommand]
  apply Res.MemOk.next
  split <;> exact ok

theorem State.MemOk.renumbered (t : StreamId) : (s.renumbered t).MemOk := ok

theorem State.MemOk.restart (t : StreamId) : (s.restart t).MemOk := (ok.resend ..).pump ..

theorem State.MemOk.moveStream (t : StreamId) : (s.moveStream t).MemOk := ((ok.modStream ..).modStream ..).pump ..

theorem State.MemOk.failRequest (d : Nat) (r : DlReq) : (s.failRequest d r).MemOk := by
  dsimp only [State.failRequest]
  split
  · split
    · exact (ok.modDie ..).loadFail ..
    · exact ok
  · split
    · exact (ok.modDie ..).storeFail ..
    · exact ok
  · exact ok
  · exact ok
  · exact ((ok.modDie ..).ingressPart ..).ingressDone ..

theorem State.MemOk.linkDown (lo hi : Nat) : (s.linkDown lo hi).MemOk :=
  ((((ok.fold fun _ _ ok => ok.modStream ..).fold fun _ _ ok => ok.failRequest ..).fold fun _ _ ok => ok.failRequest ..).fold fun _ _ ok =>
    ok.fold fun _ _ ok => ok.endTransfer ..).collsGo

theorem State.MemOk.execRetrainAttemptEnd (lo hi module : Nat) (b : Bool) : (execRetrainAttemptEnd lo hi module b s).MemOk := by
  dsimp only [Machine.execRetrainAttemptEnd]
  apply Res.MemOk.next
  split
  · exact ok
  · exact ok
  split
  · split
    · exact ((((ok.modModule ..).renumbered ..).renumbered ..).restart ..).restart ..
    · exact (((((ok.modModule ..).renumbered ..).renumbered ..).restart ..).restart ..).linkEvent ..
  split
  · exact ok
  apply State.MemOk.linkEvent
  split
  · exact (ok.modModule ..).linkDown ..
  · exact ((ok.modModule ..).moveStream ..).moveStream ..

/-! ## Die-link packets (Machine/DieLink) -/

theorem State.MemOk.startHeld (t : StreamId) : (s.startHeld t).MemOk := by
  dsimp only [State.startHeld]
  refine ok.fold fun _ _ ok => ?_
  split
  · exact ok.startCopies ..
  · exact ok

theorem State.MemOk.takePkt (t : StreamId) (b : Nat → Bool) : ∀ r, s.takePkt t b = some r → r.2.2.2.MemOk := by
  dsimp only [State.takePkt]
  split
  · exact of_none
  split
  · exact of_none
  split
  · exact of_none
  split
  · exact of_some ok
  · exact of_none

theorem State.MemOk.sendBack (t : StreamId) (slots : List (BitVec 128)) : (s.sendBack t slots).MemOk := by
  dsimp only [State.sendBack]
  split
  · exact ok
  · exact (ok.modStream ..).pump ..

theorem State.MemOk.performOnce {act : State → State × List (BitVec 128)} (t : StreamId) (no : Nat) (p : Pkt)
    (actOk : ∀ u, u.MemOk → (act u).1.MemOk) : (s.performOnce t no p act).MemOk := by
  dsimp only [State.performOnce]
  split
  · exact ok.sendBack ..
  · exact ((actOk _ ok).modStream ..).sendBack ..

theorem State.MemOk.pktRefused (p : Pkt) (data : List (BitVec 128)) (code : Code) : (s.pktRefused p data code).MemOk := by
  dsimp only [State.pktRefused]
  split
  · exact ok.readArray ..
  · exact ok

theorem State.MemOk.serveRead (p : Pkt) : (s.serveRead p).1.MemOk := ok.homeLoad ..

theorem State.MemOk.execDieLinkRead (st : StreamId) : (execDieLinkRead st s).MemOk := by
  dsimp only [Machine.execDieLinkRead]
  apply Res.MemOk.next
  split
  · exact ok
  rename_i e
  have ok := ok.takePkt _ _ _ e
  split
  · exact ok.sendBack ..
  · exact (ok.serveRead ..).sendBack ..

theorem State.MemOk.execDieLinkWrite (st : StreamId) : (execDieLinkWrite st s).MemOk := by
  dsimp only [Machine.execDieLinkWrite]
  apply Res.MemOk.next
  split
  · exact ok.startHeld ..
  rename_i e
  have ok := (ok.startHeld ..).takePkt _ _ _ e
  refine ok.performOnce _ _ _ fun _ ok => ?_
  split
  · exact ok.pktRefused ..
  · exact ok.fold fun _ _ ok => ok.homeStoreIn ..

theorem State.MemOk.execDieLinkAtomic (st : StreamId) : (execDieLinkAtomic st s).MemOk := by
  dsimp only [Machine.execDieLinkAtomic]
  apply Res.MemOk.next
  split
  · exact ok.startHeld ..
  rename_i e
  have ok := (ok.startHeld ..).takePkt _ _ _ e
  refine ok.performOnce _ _ _ fun _ ok => ?_
  split
  · exact ok
  split
  · exact ok.pktRefused ..
  · exact ok.homeAtomic ..

theorem State.MemOk.execDieLinkWriteback (st : StreamId) : (execDieLinkWriteback st s).MemOk := by
  dsimp only [Machine.execDieLinkWriteback]
  apply Res.MemOk.next
  split
  · exact ok
  rename_i e
  exact (ok.takePkt _ _ _ e).performOnce _ _ _ fun _ ok => ok.homeWriteback ..

theorem State.MemOk.execDieLinkTagRead (st : StreamId) : (execDieLinkTagRead st s).MemOk := by
  dsimp only [Machine.execDieLinkTagRead]
  apply Res.MemOk.next
  split
  · exact ok
  rename_i e
  have ok := ok.takePkt _ _ _ e
  split
  · exact ok.sendBack ..
  · exact (ok.homeLoad ..).sendBack ..

theorem State.MemOk.execDieLinkTagWrite (st : StreamId) : (execDieLinkTagWrite st s).MemOk := by
  dsimp only [Machine.execDieLinkTagWrite]
  apply Res.MemOk.next
  split
  · exact ok.startHeld ..
  rename_i e
  exact ((ok.startHeld ..).takePkt _ _ _ e).performOnce _ _ _ fun _ ok => ok.homeTag ..

theorem State.MemOk.execDieLinkInvalidation (st : StreamId) : (execDieLinkInvalidation st s).MemOk := by
  dsimp only [Machine.execDieLinkInvalidation]
  apply Res.MemOk.next
  split
  · exact ok
  rename_i e
  have ok := ok.takePkt _ _ _ e
  exact ok

theorem State.MemOk.execDieLinkControl (st : StreamId) : (execDieLinkControl st s).MemOk := by
  dsimp only [Machine.execDieLinkControl]
  apply Res.MemOk.next
  split
  · exact ok
  rename_i e
  exact ok.takePkt _ _ _ e

theorem State.MemOk.execDieLinkUnknownOp (st : StreamId) : (execDieLinkUnknownOp st s).MemOk := by
  dsimp only [Machine.execDieLinkUnknownOp]
  apply Res.MemOk.next
  split
  · exact ok
  rename_i e
  exact (ok.takePkt _ _ _ e).linkEvent ..

theorem State.MemOk.takeReq (t : StreamId) (rid : Nat) : ∀ (r : DlReq × State), s.takeReq t rid = some r → r.2.MemOk := by
  dsimp only [State.takeReq]
  split
  · exact State.MemOk.of_none
  apply State.MemOk.of_some
  exact ok.modDie ..

theorem State.MemOk.loadReply (c slot : Nat) (r : LoadReq) (p : Pkt) (data : List (BitVec 128)) (stale : Bool) :
    (s.loadReply c slot r p data stale).MemOk := by
  dsimp only [State.loadReply]
  split
  · exact ok.loadFail ..
  split
  · exact ok.loadFail ..
  apply State.MemOk.loadDone
  split
  · exact ok
  · exact (ok.serveFarther ..).fillNear ..

theorem State.MemOk.ingressRead (d id off pa n : Nat) (p : Pkt) (data : List (BitVec 128)) : (s.ingressRead d id off pa n p data).MemOk :=
  ((ok.softRead ..).ingressPart ..).ingressDone ..

theorem State.MemOk.execDieLinkReadReply (st : StreamId) : (execDieLinkReadReply st s).MemOk := by
  dsimp only [Machine.execDieLinkReadReply]
  apply Res.MemOk.next
  split
  · exact ok
  rename_i e
  have ok := ok.takePkt _ _ _ e
  split
  · exact ok
  rename_i e
  have ok := ok.takeReq _ _ _ e
  split
  · split
    · exact ok.loadReply ..
    · exact ok
  · split
    · exact ok
    · exact (ok.serveFarther ..).fillNear ..
  · exact ok.ingressRead ..
  · exact ok

theorem State.MemOk.execDieLinkTagReadReply (st : StreamId) : (execDieLinkTagReadReply st s).MemOk := by
  dsimp only [Machine.execDieLinkTagReadReply]
  apply Res.MemOk.next
  split
  · exact ok
  rename_i e
  have ok := ok.takePkt _ _ _ e
  split
  · rename_i e
    have ok := ok.takeReq _ _ _ e
    split
    · split
      · split
        · exact ok.loadFail ..
        · exact ok.loadDone ..
      · exact ok
    · exact ok
  · exact ok

theorem State.MemOk.ackStore (t : StreamId) (op : Nat) : (s.ackStore t op).MemOk := by
  dsimp only [State.ackStore]
  split
  · exact ok
  rename_i e
  have ok := ok.takePkt _ _ _ e
  split
  · rename_i e
    have ok := ok.takeReq _ _ _ e
    split
    · split
      · apply State.MemOk.collsGo
        split
        · exact ok.storeFail ..
        · exact ok.storeDone ..
      · exact ok
    · exact (ok.ingressPart ..).ingressDone ..
    · exact ok
  · exact ok

theorem State.MemOk.execDieLinkWriteAck (st : StreamId) : (execDieLinkWriteAck st s).MemOk := .next (ok.ackStore ..)

theorem State.MemOk.execDieLinkAtomicReply (st : StreamId) : (execDieLinkAtomicReply st s).MemOk := .next (ok.ackStore ..)

theorem State.MemOk.execDieLinkWritebackAck (st : StreamId) : (execDieLinkWritebackAck st s).MemOk := .next (ok.ackStore ..)

theorem State.MemOk.execDieLinkTagWriteAck (st : StreamId) : (execDieLinkTagWriteAck st s).MemOk := .next (ok.ackStore ..)

theorem State.MemOk.execDieLinkInvalidationAck (st : StreamId) : (execDieLinkInvalidationAck st s).MemOk := by
  dsimp only [Machine.execDieLinkInvalidationAck]
  apply Res.MemOk.next
  split
  · exact ok
  rename_i e
  have ok := ok.takePkt _ _ _ e
  split
  · rename_i e
    have ok := ok.takeReq _ _ _ e
    split <;> exact ok
  · exact ok

/-! ## Pre-emption and restore (Machine/Preempt) -/

theorem State.MemOk.dropWatches (c ctx : Nat) : (s.dropWatches c ctx).MemOk := ok.fold fun _ _ ok => ok.fold fun _ _ ok => ok.dropWatch ..

theorem State.MemOk.fillArea (x : Context) : (s.fillArea x).MemOk := by
  dsimp only [State.fillArea]
  split
  · apply State.MemOk.writePieces
    exact ok
  · exact ok

theorem State.MemOk.saveContext (ctx : Nat) : (s.saveContext ctx).MemOk := by
  dsimp only [State.saveContext]
  apply State.MemOk.modContext
  apply State.MemOk.fillArea
  exact ok.fold fun _ _ ok => ok.dropWatches ..

theorem State.MemOk.finishPreempts (ctx : Nat) : (s.finishPreempts ctx).MemOk := ok.fold fun _ _ ok => ok.fold fun _ _ ok => ok.endPacket ..

theorem State.MemOk.execPreemption (ctx : Nat) : (execPreemption ctx s).MemOk := by
  dsimp only [Machine.execPreemption]
  apply Res.MemOk.next
  split
  · exact ok
  split
  · exact ok
  split
  · exact ok
  · exact (ok.saveContext ..).finishPreempts ..

theorem State.MemOk.execPreemptPacket (q : Nat) : (execPreemptPacket q s).MemOk := by
  dsimp only [Machine.execPreemptPacket]
  apply Res.MemOk.next
  split
  · exact ok
  split
  · exact ok
  split
  · exact ok.endPacket ..
  split
  · exact ok.endPacket ..
  split
  · exact ok.endPacket ..
  split
  · exact ok.endPacket ..
  · exact ok

theorem State.MemOk.restoreCore (ctx num : Nat) (sv : SavedCore) : ∀ (t : State), s.restoreCore ctx num sv = some t → t.MemOk := by
  dsimp only [State.restoreCore]
  split
  · exact State.MemOk.of_none
  split
  · exact State.MemOk.of_none
  apply State.MemOk.of_some
  exact (ok.setCore ..).fold fun _ _ ok => ok.armWatches ..

theorem State.MemOk.areaSpoiled (ctx : Nat) (x : Context) : (s.areaSpoiled ctx x).MemOk :=
  ((ok.modContext ..).fold fun _ _ ok => ok.fold fun _ _ ok => ok.record ..).terminateContext ..

theorem State.MemOk.restoreLaunch (ctx num : Nat) : (s.restoreLaunch ctx num).MemOk := by
  dsimp only [State.restoreLaunch]
  split
  · exact ok
  split
  · rename_i e
    exact ((State.MemOk.tryAll (fun _ _ ok => ok.restoreCore _ _ _) ok _ e).fold fun _ _ ok => ok.failParked ..).modContext ..
  · exact ok

theorem State.MemOk.restoreContext (ctx : Nat) : (s.restoreContext ctx).MemOk := by
  dsimp only [State.restoreContext]
  split
  · exact ok
  split
  · exact (ok.modContext ..).areaSpoiled ..
  · exact (ok.modContext ..).fold fun _ _ ok => ok.restoreLaunch ..

theorem State.MemOk.execRestore (ctx : Nat) : (execRestore ctx s).MemOk := by
  dsimp only [Machine.execRestore]
  apply Res.MemOk.next
  split
  · exact ok
  split
  · exact ok
  · exact ok.restoreContext ..

theorem State.MemOk.execResumePacket (q : Nat) : (execResumePacket q s).MemOk := by
  dsimp only [Machine.execResumePacket]
  apply Res.MemOk.next
  split
  · exact ok
  split
  · exact ok
  split
  · exact ok.endPacket ..
  split
  · exact ok.endPacket ..
  split
  · exact ok.endPacket ..
  split
  · exact ok.endPacket ..
  split
  · exact ok
  · exact (ok.restoreContext ..).endPacket ..

theorem State.MemOk.execQueueCreate (q desc : Nat) (words : Option (List (BitVec 32))) : (execQueueCreate q desc words s).MemOk := by
  dsimp only [Machine.execQueueCreate]
  apply Res.MemOk.next
  split
  · exact ok
  split
  · exact ok
  split
  · exact ok
  · exact ok.putBy ..

theorem State.MemOk.execContextCreate (ctx : Nat) (init : ContextInit) : (execContextCreate ctx init s).MemOk := by
  dsimp only [Machine.execContextCreate]
  apply Res.MemOk.next
  split
  · exact ok
  apply State.MemOk.settleBlank
  refine State.MemOk.fold ?_ fun _ _ ok => ?_
  · exact ok
  · exact ok

/-! ## Debug requests (Machine/Debug) -/

theorem State.MemOk.dbgDone (slot : Nat) (code : Code) : (s.dbgDone slot code).MemOk := ok.putBy ..

theorem State.MemOk.execDebugResume (slot : Nat) : (execDebugResume slot s).MemOk := by
  dsimp only [Machine.execDebugResume]
  apply Res.MemOk.next
  split
  · exact ok
  split
  · exact ok.freeCode.dbgDone ..
  split
  · exact (ok.modGroup ..).dbgDone ..
  · exact ok.freeCode.dbgDone ..

theorem State.MemOk.execDebugTerminate (slot : Nat) : (execDebugTerminate slot s).MemOk := by
  dsimp only [Machine.execDebugTerminate]
  apply Res.MemOk.next
  split
  · exact ok
  · exact (ok.freeCode.terminateContext ..).dbgDone ..

theorem State.MemOk.execDebugDump (slot : Nat) : (execDebugDump slot s).MemOk := by
  dsimp only [Machine.execDebugDump]
  apply Res.MemOk.next
  split
  · exact ok
  split
  · exact ok.dbgDone ..
  split
  · exact ok.freeCode.dbgDone ..
  split
  · exact ok
  split
  · exact ok.dbgDone ..
  · exact (ok.writePieces ..).dbgDone ..

/-! ## Packets at a gateway and the adoption of a rank table (Machine/Gateway) -/

theorem State.MemOk.staleSent (d : Nat) (x : Sent) : (s.staleSent d x).MemOk := by
  dsimp only [State.staleSent]
  split
  · exact ((ok.modDie ..).dropReq ..).failReq ..
  split
  · exact (ok.modDie ..).endStripe ..
  · exact ok

theorem State.MemOk.onRefusal (d : Nat) (p : Fesel) : (s.onRefusal d p).MemOk := by
  dsimp only [State.onRefusal]
  split
  · exact ok
  split
  · exact ok.staleSent ..
  · exact ok

theorem State.MemOk.execRefusalResend (die : Nat) (fid : BitVec 32) : (execRefusalResend die fid s).MemOk := by
  dsimp only [Machine.execRefusalResend]
  apply Res.MemOk.next
  split
  · exact ok
  split
  · exact ok
  split
  · exact ok.staleSent ..
  split
  · exact ok
  · exact ok.getD ((ok.modDie ..).putOut _ _ _)

theorem State.MemOk.actOn (d : Nat) (p : Fesel) : (s.actOn d p).MemOk := by
  dsimp only [State.actOn]
  split
  · exact ok.serve ..
  · exact ok.serve ..
  · exact ok.serve ..
  · exact ok.onReply ..
  · exact ok.onReply ..
  · exact ok.onReply ..
  · exact ok.onXrq ..
  · exact ok.onXdt ..
  · exact ok.onStripeEnd ..
  · exact ok.onStripeEnd ..
  · exact ok
  · exact ok.onCollData ..
  · exact ok.onHeartbeat ..
  · exact ok.onProbe ..
  · exact ok.onProbeReply ..
  · exact ok.onVote ..
  · exact ok.onVerdict ..
  · exact ok.onRefusal ..
  · exact ok

theorem State.MemOk.accept (d : Nat) (p : Fesel) : (s.accept d p).MemOk := by
  dsimp only [State.accept]
  split
  · exact ok.actOn ..
  split
  next e => exact State.MemOk.actOn (of_gate e (ok.admission ..)) ..
  next e => exact of_gate e (ok.admission ..)

theorem State.MemOk.packet (d : Nat) (p : Fesel) : (s.packet d p).MemOk := by
  dsimp only [State.packet]
  split
  · exact ok.wake.waitPacket ..
  split
  · exact ok.badPacket ..
  split
  · exact ok
  split
  next e => exact State.MemOk.accept (of_gate e (ok.gate ..)) ..
  next e => exact of_gate e (ok.gate ..)

theorem State.MemOk.packetEvent (d : Nat) (p : Fesel) (kinds : List (BitVec 5)) : (s.packetEvent d p kinds).MemOk := by
  dsimp only [State.packetEvent]
  apply Res.MemOk.next
  split
  · exact ok
  split
  · exact ok
  apply State.MemOk.packet
  exact ok

theorem State.MemOk.execRemoteRead (die : Nat) (p : Fesel) : (execRemoteRead die p s).MemOk := ok.packetEvent ..

theorem State.MemOk.execReadReply (die : Nat) (p : Fesel) : (execReadReply die p s).MemOk := ok.packetEvent ..

theorem State.MemOk.execRemoteWrite (die : Nat) (p : Fesel) : (execRemoteWrite die p s).MemOk := ok.packetEvent ..

theorem State.MemOk.execWriteAck (die : Nat) (p : Fesel) : (execWriteAck die p s).MemOk := ok.packetEvent ..

theorem State.MemOk.execRemoteAtomic (die : Nat) (p : Fesel) : (execRemoteAtomic die p s).MemOk := ok.packetEvent ..

theorem State.MemOk.execAtomicReply (die : Nat) (p : Fesel) : (execAtomicReply die p s).MemOk := ok.packetEvent ..

theorem State.MemOk.execXrq (die : Nat) (p : Fesel) : (execXrq die p s).MemOk := ok.packetEvent ..

theorem State.MemOk.execXdt (die : Nat) (p : Fesel) : (execXdt die p s).MemOk := ok.packetEvent ..

theorem State.MemOk.execXcn (die : Nat) (p : Fesel) : (execXcn die p s).MemOk := ok.packetEvent ..

theorem State.MemOk.execXer (die : Nat) (p : Fesel) : (execXer die p s).MemOk := ok.packetEvent ..

theorem State.MemOk.execGnt (die : Nat) (p : Fesel) : (execGnt die p s).MemOk := ok.packetEvent ..

theorem State.MemOk.execCollectiveData (die : Nat) (p : Fesel) : (execCollectiveData die p s).MemOk := ok.packetEvent ..

theorem State.MemOk.execHeartbeat (die : Nat) (p : Fesel) : (execHeartbeat die p s).MemOk := ok.packetEvent ..

theorem State.MemOk.execProbeRequest (die : Nat) (p : Fesel) : (execProbeRequest die p s).MemOk := ok.packetEvent ..

theorem State.MemOk.execProbeReply (die : Nat) (p : Fesel) : (execProbeReply die p s).MemOk := ok.packetEvent ..

theorem State.MemOk.execVerdict (die : Nat) (p : Fesel) : (execVerdict die p s).MemOk := ok.packetEvent ..

theorem State.MemOk.execRefusal (die : Nat) (p : Fesel) : (execRefusal die p s).MemOk := ok.packetEvent ..

theorem State.MemOk.execBadFeselPacket (die : Nat) : (execBadFeselPacket die s).MemOk := by
  dsimp only [Machine.execBadFeselPacket]
  apply Res.MemOk.next
  split <;> exact ok

theorem State.MemOk.execResponseTimeout (die : Nat) (fid : BitVec 32) : (execResponseTimeout die fid s).MemOk :=
  .next (((ok.timeoutReq ..).timeoutStripe ..).timeoutColls ..)

theorem State.MemOk.staleAll (ctx comm : Nat) (gen : BitVec 16) : (s.staleAll ctx comm gen).MemOk := ok.fold fun _ _ ok => ok.staleSent ..

theorem State.MemOk.releaseHeld (ctx comm : Nat) (gen : BitVec 16) : (s.releaseHeld ctx comm gen).MemOk := by
  dsimp only [State.releaseHeld]
  refine State.MemOk.fold ?_ fun _ _ ok => ?_
  · exact ok
  · split
    · exact ok.accept ..
    · split <;> exact ok

theorem State.MemOk.adopt (ctx comm : Nat) : (s.adopt ctx comm).2.MemOk := by
  dsimp only [State.adopt]
  split
  · exact ok
  have kept {u : State} (ok : u.MemOk) (gen : BitVec 16) (ks : List Coll) :
      (((ks.foldl (fun s k => s.staleColl ctx k) (u.staleAll ctx comm gen)).closeWindows ctx comm gen).releaseHeld ctx comm gen).MemOk :=
    (((ok.staleAll ..).fold fun _ _ ok => ok.staleColl ..).closeWindows ..).releaseHeld ..
  split
  · apply State.MemOk.tryVerdict
    apply kept
    exact ok
  · apply kept
    exact ok

/-! ## RDMA operations of the host (Machine/Host) -/

theorem State.MemOk.softReads (ps : List (Nat × Nat)) : (s.softReads ps).2.MemOk := by
  induction ps generalizing s with
  | nil => exact ok
  | cons p ps ih => exact ih ((ok.homeLoad ..).softRead ..)

theorem State.MemOk.hostAct (x : HostReq) : (s.hostAct x).MemOk := by
  dsimp only [State.hostAct]
  split
  · split
    · exact ok.fold fun _ _ ok => ok.readArray ..
    · exact ok
  split
  · exact ((ok.softAccesses ..).writePieces _ _ _).settleBlanks.fold fun _ _ ok => (ok.readQueue ..).wake
  · exact ok.softReads ..

theorem State.MemOk.hostStep (x : HostReq) : (s.hostStep x).MemOk := by
  dsimp only [State.hostStep]
  split
  · exact ok
  · exact ok.hostAct ..

theorem State.MemOk.hostGo : s.hostGo.MemOk := by
  dsimp only [State.hostGo]
  refine State.MemOk.fold ?_ fun _ _ ok => ?_
  · exact ok
  · exact ok.hostStep ..

theorem State.MemOk.execHostRdmaWrite (pair : QueuePair) (addr : Nat) (bytes : List Byte) :
    (execHostRdmaWrite pair addr bytes s).MemOk := by
  dsimp only [Machine.execHostRdmaWrite]
  apply Res.MemOk.next
  split
  · exact ok
  · exact ok.hostStep ..

theorem State.MemOk.execHostRdmaRead (pair : QueuePair) (addr len : Nat) : (execHostRdmaRead pair addr len s).MemOk := by
  dsimp only [Machine.execHostRdmaRead]
  apply Res.MemOk.next
  split
  · exact ok
  · exact ok.hostStep ..

theorem State.MemOk.execWridxWrite (q : Nat) (value : BitVec 32) : (execWridxWrite q value s).MemOk := by
  dsimp only [Machine.execWridxWrite]
  apply Res.MemOk.next
  split
  · exact ok
  · exact ok.hostStep ..

theorem State.MemOk.execHostUnsupportedOperation (port : Nat) : (execHostUnsupportedOperation port s).MemOk := by
  dsimp only [Machine.execHostUnsupportedOperation]
  apply Res.MemOk.next
  split <;> exact ok

/-! ## Memory stacks, ports and what Nopol root sets (Machine/Devices) -/

theorem State.MemOk.execScrub (stack granule : Nat) : (execScrub stack granule s).MemOk := by
  dsimp only [Machine.execScrub]
  apply Res.MemOk.next
  split
  · exact ok
  · exact ok.readGranules ..

theorem State.MemOk.crossing (n : Nat) (change : Bool) : (s.crossing n change).MemOk := by
  dsimp only [State.crossing]
  split
  · exact ok.deviceEvent ..
  · exact ok

theorem State.MemOk.serveViews : s.serveViews.MemOk := ok.fold fun _ _ ok => ok.serveView ..

theorem State.MemOk.goOn (x : Nat × Nat × Nat × Bool) : (s.goOn x).MemOk := by
  dsimp only [State.goOn]
  split
  · split
    · exact ok.serveLoad ..
    · exact ok
  split
  · exact ok.performStore ..
  · exact ok

theorem State.MemOk.retry : s.retry.MemOk := ((ok.recordsGo.hostGo.fold fun _ _ ok => ok.readQueue ..).serveViews).collsGo

theorem State.MemOk.recover (n : Nat) : (s.recover n).MemOk := (ok.fold fun _ _ ok => ok.goOn ..).retry

theorem State.MemOk.execThermalThresholdCrossing (stack : Nat) (temp : Int) : (execThermalThresholdCrossing stack temp s).MemOk := by
  dsimp only [Machine.execThermalThresholdCrossing]
  apply Res.MemOk.next
  split
  · exact ok
  split
  · exact ((((ok.modStack ..).crossing ..).crossing ..).crossing ..).recover ..
  · exact (((ok.modStack ..).crossing ..).crossing ..).crossing ..

theorem State.MemOk.failLoads (n c slot : Nat) : (s.failLoads n c slot).MemOk := by
  dsimp only [State.failLoads]
  refine ok.fold fun _ _ ok => ?_
  split
  · exact ok.serveLoad ..
  · exact ok

theorem State.MemOk.failStores (n c slot : Nat) : (s.failStores n c slot).MemOk := by
  dsimp only [State.failStores]
  refine ok.fold fun _ _ ok => ?_
  split
  · exact ok
  split
  · exact ok.performStore ..
  split
  · exact ok
  · exact (ok.modGroup ..).deliver ..

theorem State.MemOk.failCmds (n c : Nat) : (s.failCmds n c).MemOk := by
  dsimp only [State.failCmds]
  refine ok.fold fun _ _ ok => ?_
  split
  · exact ok
  split
  · exact ok
  · exact (ok.modCmd ..).engFault ..

theorem State.MemOk.failMsta (n c place : Nat) : (s.failMsta n c place).MemOk := by
  dsimp only [State.failMsta]
  split
  · exact ok
  split
  · exact ok
  split
  · exact ok
  · exact (ok.modHead ..).opFault ..

theorem State.MemOk.failStripes (n d : Nat) : (s.failStripes n d).MemOk := by
  dsimp only [State.failStripes]
  refine ok.fold fun _ _ ok => ?_
  split
  · exact ok
  split
  · split
    · exact ok
    · exact (ok.modDie ..).deliver ..
  split
  · exact ok
  · exact (ok.modDie ..).deliver ..

theorem State.MemOk.execTh3Timeout (stack : Nat) : (execTh3Timeout stack s).MemOk := by
  dsimp only [Machine.execTh3Timeout]
  apply Res.MemOk.next
  split
  · exact ok
  · exact (((ok.fold fun _ _ ok => ((ok.fold fun _ _ ok => (ok.failLoads ..).failStores ..).failCmds ..).fold fun _ _ ok => ok.failMsta
      ..).fold fun _ _ ok => ok.failStripes ..).serveViews).collsGo

theorem State.MemOk.masterRecord (d : Nat) (core slot : Option Nat) (rem : Bool) : (s.masterRecord d core slot rem).MemOk :=
  ok.freeCode.record ..

theorem State.MemOk.setFrozen (b : Bool) (u : EngineUnit) : (s.setFrozen b u).MemOk := by
  dsimp only [State.setFrozen]
  split
  · exact ok
  · exact ok
  · exact ok
  · exact ok
  · exact ok
  · split <;> exact ok

theorem State.MemOk.frozenRecord (u : EngineUnit) : (s.frozenRecord u).MemOk := by
  dsimp only [State.frozenRecord]
  split
  · exact ok.masterRecord ..
  · exact ok.masterRecord ..
  · exact ok.masterRecord ..
  · exact ok.masterRecord ..
  · exact ok.masterRecord ..
  split
  · exact ok.masterRecord ..
  · exact ok.fold fun _ _ ok => ok.sourceRecord ..

theorem State.MemOk.execMasterFreeze (unit : EngineUnit) (frozen : Bool) : (execMasterFreeze unit frozen s).MemOk := by
  dsimp only [Machine.execMasterFreeze]
  apply Res.MemOk.next
  split
  · exact ok
  split
  · exact (ok.setFrozen ..).frozenRecord ..
  · exact ok.setFrozen ..

theorem State.MemOk.execFeselPortDown (die port : Nat) : (execFeselPortDown die port s).MemOk := by
  dsimp only [Machine.execFeselPortDown]
  apply Res.MemOk.next
  split <;> exact ok

theorem State.MemOk.execFeselPortUp (die port : Nat) : (execFeselPortUp die port s).MemOk := by
  dsimp only [Machine.execFeselPortUp]
  apply Res.MemOk.next
  split <;> exact ok

theorem State.MemOk.execBlockListRemoval (die : Nat) (device : BitVec 20) : (execBlockListRemoval die device s).MemOk := by
  dsimp only [Machine.execBlockListRemoval]
  apply Res.MemOk.next
  split <;> exact ok

theorem State.MemOk.execRankTableStage (ctx comm : Nat) (table : RankTable) : (execRankTableStage ctx comm table s).MemOk := by
  dsimp only [Machine.execRankTableStage]
  apply Res.MemOk.next
  split <;> exact ok

theorem State.MemOk.execJoinEngineArm (die : Nat) (armed : Bool) : (execJoinEngineArm die armed s).MemOk := by
  dsimp only [Machine.execJoinEngineArm]
  apply Res.MemOk.next
  split
  · exact ok
  split
  · exact (ok.modDie ..).wake
  · exact ok

/-! ## Floating-point and packed instructions (Machine/FloatOps) -/

theorem State.MemOk.f32Op (i : Instr) (h : Hdr) (f : VF) (op : Nat → Nat → Nat → Nat) : (f32Op i h f op s).MemOk :=
  ok.issueInk _ _ fun _ _ ok => ok.writeD ..

theorem State.MemOk.transOp (i : Instr) (t : Trans) (h : Hdr) (f : VF) : (transOp i t h f s).MemOk := ok.f32Op ..

theorem State.MemOk.x2Op (i : Instr) (h : Hdr) (f : VF) (op : Fmt → Nat → Nat → Nat → Nat) : (x2Op i h f op s).MemOk :=
  ok.issueInk _ _ fun _ _ ok => ok.writeD ..

theorem State.MemOk.dotOp (i : Instr) (n : Nat) (h : Hdr) (f : VF) : (dotOp i n h f s).MemOk := ok.issueInk _ _ fun _ _ ok => ok.writeD ..

/-! ## Random numbers (Machine/Lanes) -/

theorem State.MemOk.setCounters (e : Env) (val : Nat → W32) : (s.setCounters e val).MemOk := ok

theorem State.MemOk.execRng (h : Hdr) (f : VF) : (execRng h f s).MemOk := by
  dsimp only [Machine.execRng]
  refine ok.issueInk _ _ fun _ _ ok => ?_
  split
  · exact ok.writeD ..
  · exact (ok.writeD ..).setCounters ..

theorem State.MemOk.execRngseed (h : Hdr) (f : VF) : (execRngseed h f s).MemOk := by
  dsimp only [Machine.execRngseed]
  refine ok.issueInk _ _ fun _ _ ok => ?_
  split <;> exact ok

/-! ## Power states (Machine/Power) -/

theorem State.MemOk.enterPower (p : Power) : (s.enterPower p).MemOk := by
  dsimp only [State.enterPower]
  split <;> split <;> exact ok

theorem State.MemOk.execPowerStateEntry : (execPowerStateEntry s).MemOk := by
  dsimp only [Machine.execPowerStateEntry]
  apply Res.MemOk.next
  split
  · exact ok
  · exact ok.enterPower ..

theorem State.MemOk.execPowerStateExit (cause : WakeCause) : (execPowerStateExit cause s).MemOk := by
  dsimp only [Machine.execPowerStateExit]
  apply Res.MemOk.next
  split
  · exact ok.wake
  · exact ok

theorem State.MemOk.execPowerStateExitComplete : (execPowerStateExitComplete s).MemOk := by
  dsimp only [Machine.execPowerStateExitComplete]
  apply Res.MemOk.next
  split <;> exact ok

/-! ## Periodic samples (Machine/Sample) -/

theorem State.MemOk.noteReplay (u : State) (c slot : Nat) (pc : W64) (lanes : List Nat) : (s.noteReplay u c slot pc lanes).MemOk := ok

theorem State.MemOk.noteIssue (u : State) (c slot : Nat) (p : PCSet) : (s.noteIssue u c slot p).MemOk := ok

theorem State.MemOk.sampleGroup (c slot at_ : Nat) : (s.sampleGroup c slot at_).MemOk := by
  dsimp only [State.sampleGroup]
  split
  · split
    · exact ok
    · exact ok.record ..
  · exact ok.record ..

theorem State.MemOk.sampleStroke (c e at_ : Nat) : (s.sampleStroke c e at_).MemOk := by
  dsimp only [State.sampleStroke]
  split
  · exact ok
  · exact ok.record ..

theorem State.MemOk.samplePoint (c at_ : Nat) : (s.samplePoint c at_).MemOk := by
  dsimp only [State.samplePoint]
  split
  · exact ok
  split
  · exact ((ok.modCore ..).modCore ..).sampleStroke ..
  · exact ((ok.modCore ..).modCore ..).sampleGroup ..

theorem State.MemOk.execSamplePoint (core : Nat) : (execSamplePoint core s).MemOk := by
  dsimp only [Machine.execSamplePoint]
  apply Res.MemOk.next
  split
  · exact ok
  · exact ok.fold fun _ _ ok => ok.samplePoint ..

theorem State.MemOk.memFields (m : MemIssue) : (s.memFields m).2.MemOk := ok

theorem State.MemOk.execSampleRecordDeferred (core : Nat) : (execSampleRecordDeferred core s).MemOk := by
  dsimp only [Machine.execSampleRecordDeferred]
  apply Res.MemOk.next
  split
  · exact ok
  split
  · exact ok
  · exact ((ok.memFields ..).modCore ..).record ..

/-! ## Admission of images and attestation (Machine/Trust) -/

theorem State.MemOk.rejected (die kind failed : Nat) : (s.rejected die kind failed).MemOk := ok.deviceEvent ..

theorem State.MemOk.reportRoots : s.reportRoots.MemOk := by
  dsimp only [State.reportRoots]
  split
  · exact ok
  · exact ok.fold fun _ _ ok => (ok.modDie ..).rejected ..

theorem State.MemOk.execImageAdmission (die : Nat) (img : Image) : (execImageAdmission die img s).MemOk := by
  dsimp only [Machine.execImageAdmission]
  apply Res.MemOk.next
  split
  · exact ok
  split
  · split
    · split
      · exact (ok.modDie ..).rejected ..
      · exact ok
    split
    · exact (ok.modDie ..).rejected ..
    · exact ok
  · exact (ok.modDie ..).reportRoots

theorem State.MemOk.execAttestationReport (nonce : List Byte) : (execAttestationReport nonce s).MemOk := by
  dsimp only [Machine.execAttestationReport]
  apply Res.MemOk.next
  split <;> exact ok

/-! ## Every meaning (Machine/Dispatch) -/

theorem State.MemOk.exec (i : Instr) : Res.MemOk (exec i s) := by
  cases i with dsimp only [Machine.exec]
  | iadd | isub | imul => exact ok.arithOp _ _ _ (.bin _ _) _
  | iaddc | shfl | vote | elect => exact ok.issueInk _ _ fun _ _ ok => (ok.writeD ..).writeP ..
  | imulh | idiv | irem | and | or | xor | not | brev => exact ok.wideOp _ _ _ .inks _
  | imad | imin | imax | iabs | ineg => exact ok.arithOp _ _ _ .inks _
  | lea | bfi | fscale | fclass | cvt | pack | unpack | dscl | redl | scanl | match_ => exact ok.issueInk _ _ fun _ _ ok => ok.writeD ..
  | shl => exact ok.shiftOp _ _ _ (.bin _ _) _
  | shr | sar | rotl | bfx => exact ok.shiftOp _ _ _ .inks _
  | popc | clz => exact ok.countOp ..
  | sel => exact ok.issue _ _ (.bin _ _) fun _ _ ok => ok.writeD ..
  | icmp => exact ok.execIcmp ..
  | mov => exact ok.execMov ..
  | movi => exact ok.issue _ _ (fun _ _ ok => of_map fun _ _ => ok) fun _ _ ok => ok.writeD ..
  | movs => exact ok.execMovs ..
  | fadd | fsub | fmul | ffma | fdiv | fmin | fmax | frnd => exact ok.f32Op ..
  | fcmp => exact ok.issueInk _ _ fun _ _ ok => ok.writeP ..
  | frcp | frsq | fsqrt | fexp2 | flog2 | fsin | fcos | ftanh => exact ok.transOp ..
  | xadd | xmul | xfma | xmin | xmax => exact ok.x2Op ..
  | dot4 | dot8 => exact ok.dotOp ..
  | rng => exact ok.execRng ..
  | rngseed => exact ok.execRngseed ..
  | rngskip => exact ok.issueInk _ _ fun _ _ ok => ok.setCounters ..
  | pair => exact ok.issueInk _ _ fun _ _ ok => (ok.writeD ..).writeD ..
  | bra => exact ok.execBra ..
  | brx | ret => exact ok.issueIf _ _ _ (fun _ _ ok => of_bind fun _ _ => ok.strokeGo _ _) fun _ _ ok => ok.jump ..
  | call => exact ok.issue _ _ (fun _ _ ok => of_map fun _ _ => ok) fun _ _ ok => ok.jump ..
  | callx => exact ok.execCallx ..
  | join => exact ok.execJoin ..
  | exit => exact ok.execExit ..
  | trap | bkpt => exact ok.issueInk _ _ fun _ _ ok => ok.trapWith ..
  | nop => exact ok.issue _ _ (fun _ _ ok => of_some ok) fun _ _ ok => ok
  | yield => exact ok.issue _ _ (fun _ _ ok => of_some ok) fun _ _ ok => (ok.modCore ..).fold fun _ _ ok => ok.modLane ..
  | syncg => exact ok.issueInk _ _ fun _ _ ok => ok.releasedFor _ _ _ _ fun _ ok => ok.arriveAt ..
  | synct => exact ok.issueInk _ _ fun _ _ ok => (ok.fold fun _ _ ok => ok.precise ..).releasedFor _ _ _ _ fun _ ok => ok.arriveAt ..
  | sizesel => exact ok.execSizesel ..
  | ink => exact ok.execInk ..
  | ld => exact ok.execLd ..
  | st | sttag | atom | atomc | red => exact ok.issueInk _ _ fun _ _ ok => ok.storeLanes ..
  | ldl => exact ok.issueInk _ _ fun _ _ ok => ok.localLanes _ _ _ fun _ _ _ ok => ok.arrive ..
  | stl => exact ok.issueInk _ _ fun _ _ ok => ok.localLanes _ _ _ fun _ _ _ ok => ok.lwrite ..
  | ldc => exact ok.issueIf _ _ _ (.strokeLoad _ _ _) fun _ _ ok => ok.loadLanes ..
  | lds => exact ok.issueInk _ _ fun _ _ ok => ok.loadLanes ..
  | pref => exact ok.issueInk _ _ fun _ _ ok => ok.fold fun _ _ ok => ok.prefetchLane ..
  | cctlIl1 => exact ok.issueInk _ _ fun _ _ ok => ok.lineControl _ _ fun _ _ _ _ ok => ok.modCore ..
  | cctlIrd => exact ok.issueInk _ _ fun _ _ ok => ok.lineControl _ _ fun _ _ _ _ ok => ok.modDie ..
  | cctlWb => exact ok.issueInk _ _ fun _ _ ok => ok.lineControl _ _ fun _ _ _ _ ok => ok
  | cctlIl1all => exact ok.execCctlIl1all ..
  | cctlIrdall => exact ok.execCctlIrdall ..
  | ldtag => exact ok.execLdtag ..
  | atomo => exact ok.issueInk _ _ fun _ _ ok => ok.fold fun _ _ ok => ok.orderedLane ..
  | atoml => exact ok.issueInk _ _ fun _ _ ok => ok.localLanes _ _ _ fun _ _ _ ok => (ok.lwrite ..).arrive ..
  | fence => exact ok.execFence ..
  | fenceo => exact ok.execFenceo ..
  | fencex => exact ok.execFencex ..
  | fencep => exact ok.execFencep ..
  | cbseal => exact ok.issueInk _ _ fun _ _ ok => ok.fold fun _ _ ok => ok.modLane ..
  | cbwait => exact ok.issueInk _ _ fun _ _ ok => ok.waitAt ..
  | cpyLd | cpySt | cpym | cpys | cpyg | cpyx | pft => exact ok.transfer ..
  | binit | binv => exact ok.barrierOp _ _ _ _ fun _ _ _ _ _ ok => ok.setBar ..
  | bexpect => exact ok.barrierOp _ _ _ _ fun _ _ _ _ _ ok => ok.barEvent ..
  | barrive => exact ok.barrierOp _ _ _ _ fun _ _ _ _ _ ok => ok.released _ _ _ fun _ ok => ok.barEvent ..
  | bwait => exact ok.execBwait ..
  | btest => exact ok.execBtest ..
  | barm => exact ok.execBarm ..
  | pclr => exact ok.execPclr ..
  | ptest => exact ok.execPtest ..
  | gld => exact ok.nibIssue _ _ fun _ _ _ ok => ok.load64 _ _ _ fun _ _ ok => ok.setShape ..
  | gst | tidset => exact ok.nibIssue _ _ fun _ _ _ ok => ok.nibAccess _ _ _ fun _ _ _ ok => ok.nibStore ..
  | gset => exact ok.nibIssue _ _ fun _ _ _ ok => ok.setShape ..
  | gget | genrd => exact ok.nibIssue _ _ fun _ _ _ ok => ok.nibD ..
  | tidld =>
    exact ok.nibIssue _ _ fun _ _ _ ok => ok.released _ _ _ fun _ ok => ok.check2 _ _ _ _ fun _ _ _ _ ok => ok.take64 _ _ _ _ fun _ _ ok =>
      ok.fold fun _ _ ok => ok.nibStore ..
  | thnd => exact ok.execThnd ..
  | mldw => exact ok.execMldw ..
  | mswap => exact ok.teamOp _ _ _ fun _ _ _ _ ok => ok.enqueueLeased ..
  | mma | mmat => exact ok.mmaIssue ..
  | mclr | mguide => exact ok.teamOp _ _ _ fun _ _ _ _ ok => ok.enqueue ..
  | msta => exact ok.execMsta ..
  | mldt => exact ok.execMldt ..
  | mprog | mstatArith | mstatEng => exact ok.accRead ..
  | mlease => exact ok.execMlease ..
  | mrel => exact ok.execMrel ..
  | mwait => exact ok.execMwait ..
  | rld | rst | ratom => exact ok.issueInk _ _ fun _ _ ok => ok.remoteLanes ..
  | rrd3 => exact ok.execRrd3 ..
  | rwin => exact ok.execRwin ..
  | rwclose => exact ok.execRwclose ..
  | coll => exact ok.execColl ..
  | cwait => exact ok.execCwait ..
  | ranksw => exact ok.nibIssue _ _ fun _ _ _ ok => ok.released _ _ _ fun _ ok => ((ok.adopt ..).acquire ..).nibD ..
  | tview => exact ok.execTview ..
  | tvclose => exact ok.execTvclose ..
  | gets => exact ok.privIssue _ _ _ fun _ _ ok => ok.writeD ..
  | sets => exact ok.execSets ..
  | trapret => exact ok.privIssue _ _ _ fun _ _ ok => ok.arriveAt ..
  | halt => exact ok.execHalt ..
  | watch => exact ok.execWatch ..
  | unwatch => exact ok.execUnwatch ..
  | sampleMark => exact ok.nibIssue _ _ fun _ _ _ ok => ok.sampleRecord ..
  | sampleOn | sampleOff => exact ok.nibIssue _ _ fun _ _ _ ok => ok.modGroup ..
  | logm => exact ok.issueInk _ _ fun _ _ ok => ok.fold fun _ _ ok => ok.sampleRecord ..
  | freeze => exact ok.nibIssue _ _ fun _ _ _ ok => (ok.fold fun _ _ ok => ok.modLane ..).freezeGroup ..
  | cycloRead => exact ok.issueInk _ _ fun _ _ ok => (ok.writeD ..).fold fun _ _ ok => ok.modLane ..
  | teamMaterialise => exact ok.execTeamMaterialise ..
  | wridxWrite => exact ok.execWridxWrite ..
  | noopPacket => exact ok.execNoopPacket ..
  | launchPacket => exact ok.execLaunchPacket ..
  | markerPacket => exact ok.execMarkerPacket ..
  | preemptPacket => exact ok.execPreemptPacket ..
  | resumePacket => exact ok.execResumePacket ..
  | launchStart => exact ok.execLaunchStart ..
  | chunkClaim => exact ok.execChunkClaim ..
  | bindRecordWrite => exact ok.execBindRecordWrite ..
  | groupLeavesDraining => exact ok.execGroupLeavesDraining ..
  | gridEnd => exact ok.execGridEnd ..
  | completionReport => exact ok.execCompletionReport ..
  | coalescingTimerExpiry => exact ok.execCoalescingTimerExpiry ..
  | interrupt => exact ok.execInterrupt ..
  | leaseGrant => exact ok.execLeaseGrant ..
  | leaseExpiry => exact ok.execLeaseExpiry ..
  | matrixOperationStart => exact ok.execMatrixOperationStart ..
  | matrixKStep => exact ok.execMatrixKStep ..
  | engineCommandComplete => exact ok.execEngineCommandComplete ..
  | engineCommandFault => exact ok.execEngineCommandFault ..
  | faultDelivery => exact ok.execFaultDelivery ..
  | terminate => exact ok.execTerminate ..
  | transferLanding => exact ok.execTransferLanding ..
  | barmVectoring => exact ok.execBarmVectoring ..
  | translationFaultServed => exact ok.execTranslationFaultServed ..
  | pageWalk => exact ok.execPageWalk ..
  | loadDataReturn => exact ok.execLoadDataReturn ..
  | storePerform => exact ok.execStorePerform ..
  | chunkCopyEnd => exact ok.execChunkCopyEnd ..
  | cacheLineTimeout => exact ok.execCacheLineTimeout ..
  | invalidation => exact .next ((ok.invalidate ..).fold fun _ _ ok => (ok.invalAnswered ..).getD (ok.requestTo _ _ _ _ _))
  | invalidationComplete => exact ok.execInvalidationComplete ..
  | preemption => exact ok.execPreemption ..
  | restore => exact ok.execRestore ..
  | dataFlit => exact ok.execDataFlit ..
  | idleFlit => exact ok.execIdleFlit ..
  | controlFlit => exact ok.execControlFlit ..
  | nakLapse => exact ok.execNakLapse ..
  | ackTimerExpiry => exact ok.execAckTimerExpiry ..
  | replayTimeout => exact ok.execReplayTimeout ..
  | replayLimit => exact ok.execReplayLimit ..
  | laneLockLoss => exact ok.execLaneLockLoss ..
  | retrainCommand => exact ok.execRetrainCommand ..
  | retrainAttemptEnd => exact ok.execRetrainAttemptEnd ..
  | dieLinkRead => exact ok.execDieLinkRead ..
  | dieLinkReadReply => exact ok.execDieLinkReadReply ..
  | dieLinkWrite => exact ok.execDieLinkWrite ..
  | dieLinkWriteAck => exact ok.execDieLinkWriteAck ..
  | dieLinkAtomic => exact ok.execDieLinkAtomic ..
  | dieLinkAtomicReply => exact ok.execDieLinkAtomicReply ..
  | dieLinkInvalidation => exact ok.execDieLinkInvalidation ..
  | dieLinkInvalidationAck => exact ok.execDieLinkInvalidationAck ..
  | dieLinkControl => exact ok.execDieLinkControl ..
  | dieLinkWriteback => exact ok.execDieLinkWriteback ..
  | dieLinkWritebackAck => exact ok.execDieLinkWritebackAck ..
  | dieLinkTagRead => exact ok.execDieLinkTagRead ..
  | dieLinkTagReadReply => exact ok.execDieLinkTagReadReply ..
  | dieLinkTagWrite => exact ok.execDieLinkTagWrite ..
  | dieLinkTagWriteAck => exact ok.execDieLinkTagWriteAck ..
  | dieLinkUnknownOp => exact ok.execDieLinkUnknownOp ..
  | remoteRead => exact ok.execRemoteRead ..
  | readReply => exact ok.execReadReply ..
  | remoteWrite => exact ok.execRemoteWrite ..
  | writeAck => exact ok.execWriteAck ..
  | remoteAtomic => exact ok.execRemoteAtomic ..
  | atomicReply => exact ok.execAtomicReply ..
  | responseTimeout => exact ok.execResponseTimeout ..
  | refusal => exact ok.execRefusal ..
  | refusalResend => exact ok.execRefusalResend ..
  | xrq => exact ok.execXrq ..
  | xdt => exact ok.execXdt ..
  | xcn => exact ok.execXcn ..
  | xer => exact ok.execXer ..
  | gnt => exact ok.execGnt ..
  | stripeIssue => exact ok.execStripeIssue ..
  | collectiveData => exact ok.execCollectiveData ..
  | heartbeat => exact ok.execHeartbeat ..
  | heartbeatTimer => exact ok.execHeartbeatTimer ..
  | suspicion => exact ok.execSuspicion ..
  | probeRequest => exact ok.execProbeRequest ..
  | probeReply => exact ok.execProbeReply ..
  | probeTimeout => exact ok.execProbeTimeout ..
  | verdict => exact ok.execVerdict ..
  | badFeselPacket => exact ok.execBadFeselPacket ..
  | hostRdmaWrite => exact ok.execHostRdmaWrite ..
  | hostRdmaRead => exact ok.execHostRdmaRead ..
  | hostUnsupportedOperation => exact ok.execHostUnsupportedOperation ..
  | debugDump => exact ok.execDebugDump ..
  | debugResume => exact ok.execDebugResume ..
  | debugTerminate => exact ok.execDebugTerminate ..
  | samplePoint => exact ok.execSamplePoint ..
  | sampleRecordDeferred => exact ok.execSampleRecordDeferred ..
  | scrub => exact ok.execScrub ..
  | thermalThresholdCrossing => exact ok.execThermalThresholdCrossing ..
  | th3Timeout => exact ok.execTh3Timeout ..
  | powerStateEntry => exact ok.execPowerStateEntry
  | powerStateExit => exact ok.execPowerStateExit ..
  | imageAdmission => exact ok.execImageAdmission ..
  | attestationReport => exact ok.execAttestationReport ..
  | masterFreeze => exact ok.execMasterFreeze ..
  | badFlit => exact ok.execBadFlit ..
  | feselPortDown => exact ok.execFeselPortDown ..
  | feselPortUp => exact ok.execFeselPortUp ..
  | powerRemoval => exact .next ⟨reset_memory_wf, rfl, rfl⟩
  | powerStateExitComplete => exact ok.execPowerStateExitComplete
  | rankTableStage => exact ok.execRankTableStage ..
  | joinEngineArm => exact ok.execJoinEngineArm ..
  | queueCreate => exact ok.execQueueCreate ..
  | contextCreate => exact ok.execContextCreate ..
  | blockListRemoval => exact ok.execBlockListRemoval ..
  | cpyxRequest => exact ok.execCpyxRequest ..

/-! ## One move (Machine/Run) -/

theorem State.MemOk.fetchFault (f : FaultRec) : (s.fetchFault f).MemOk := by
  dsimp only [State.fetchFault]
  refine ok.fold fun _ _ ok => ?_
  split
  · exact ok
  · exact ok.faultLane ..

theorem State.MemOk.runSet : s.runSet.MemOk := by
  dsimp only [State.runSet]
  split
  · exact .next (ok.fold fun _ _ ok => ok.modLane ..)
  split
  · rename_i e
    exact .next ((of_snd e (ok.fetch ..)).fetchFault ..)
  rename_i e
  have ok := of_snd e (ok.fetch ..)
  split
  · exact .next (ok.faultSet ..)
  · exact ok.exec ..

theorem State.MemOk.runStroke (e : Nat) : (s.runStroke e).MemOk := by
  dsimp only [State.runStroke]
  split
  · exact .next ok
  split
  · exact .next ok
  split
  · rename_i e
    exact .next (of_snd e (ok.fetch ..)).strokeInk
  rename_i e
  have ok := of_snd e (ok.fetch ..)
  split
  · exact .next ok.strokeInk
  · exact ok.exec ..

theorem State.MemOk.runIssue : s.runIssue.MemOk := by
  dsimp only [State.runIssue]
  split
  · exact ok.runStroke ..
  · exact ok.runSet

theorem State.MemOk.issueState (c slot : Nat) (p : PCSet) (q : Option PCSet) : (s.issueState c slot p q).MemOk := ok

theorem State.MemOk.runSecond (i : Issue) : (s.runSecond i).MemOk := by
  dsimp only [State.runSecond]
  have h := State.MemOk.runIssue (s := { s with iss := i, second := none }) ok
  split
  next e => exact .next ((h.of_next _ e).noteReplay ..)
  next => exact h

theorem State.MemOk.runGroup (c slot : Nat) : (s.runGroup c slot).MemOk := by
  dsimp only [State.runGroup]
  split
  · apply State.MemOk.exec
    exact ok
  split
  · apply State.MemOk.exec
    exact ok
  split
  · exact .next ok
  split
  · exact .next ok
  split
  · rename_i e
    have ok := ((ok.tick ..).issueState ..).runIssue.of_next _ e
    exact .next (ok.noteIssue ..)
  · exact ((ok.tick ..).issueState ..).runIssue

theorem State.MemOk.strokeState (c e : Nat) (st : Stroke) : (s.strokeState c e st).MemOk := ok

theorem State.MemOk.runStrokeUnit (c : Nat) : (s.runStrokeUnit c).MemOk := by
  dsimp only [State.runStrokeUnit]
  split
  · exact .next ok
  split
  · exact .next ok
  · exact ((ok.tick ..).strokeState ..).runIssue

theorem State.MemOk.idle : s.idle.MemOk := ok.fold fun _ _ ok => ok.tick ..

theorem State.MemOk.runMove (m : Move) : (s.runMove m).MemOk := by
  dsimp only [State.runMove]
  split
  · apply State.MemOk.exec
    exact ok
  · split
    · exact ok.runGroup ..
    · exact .fault
  · split
    · exact ok.runStrokeUnit ..
    · exact .fault
  split
  · exact .next ok
  · exact .fault

end

/-! ## The events that a step may choose (Machine/Choose) -/

/-- An event keeps the canonical forms. -/
def Act.MemOk (f : Act) : Prop := ∀ s : State, s.MemOk → Res.MemOk (f s)

/-- Every event of a list keeps them. -/
structure Act.AllMemOk (fs : List Act) : Prop where
  of_mem : ∀ f ∈ fs, Act.MemOk f

namespace Act.AllMemOk
variable {α : Type}

theorem nil : AllMemOk [] := ⟨fun _ h => nomatch h⟩

theorem cons {f : Act} {fs : List Act} (hf : Act.MemOk f) (h : AllMemOk fs) : AllMemOk (f :: fs) :=
  ⟨List.forall_mem_cons.2 ⟨hf, h.of_mem⟩⟩

theorem one {f : Act} (hf : Act.MemOk f) : AllMemOk [f] := cons hf nil

theorem append {fs gs : List Act} (hf : AllMemOk fs) (hg : AllMemOk gs) : AllMemOk (fs ++ gs) :=
  ⟨List.forall_mem_append.2 ⟨hf.of_mem, hg.of_mem⟩⟩

theorem ite {fs gs : List Act} {c : Prop} [Decidable c] (hf : AllMemOk fs) (hg : AllMemOk gs) : AllMemOk (if c then fs else gs) := by
  split
  · exact hf
  · exact hg

theorem map {g : α → Act} {xs : List α} (h : ∀ x, Act.MemOk (g x)) : AllMemOk (xs.map g) :=
  ⟨List.forall_mem_map.2 fun x _ => h x⟩

theorem flatMap {g : α → List Act} {xs : List α} (h : ∀ x, AllMemOk (g x)) : AllMemOk (xs.flatMap g) := by
  refine ⟨fun f hf => ?_⟩
  obtain ⟨x, _, hx⟩ := List.mem_flatMap.1 hf
  exact (h x).of_mem f hx

theorem filterMap {g : α → Option Act} {xs : List α} (h : ∀ x f, g x = some f → Act.MemOk f) : AllMemOk (xs.filterMap g) := by
  refine ⟨fun f hf => ?_⟩
  obtain ⟨x, _, hx⟩ := List.mem_filterMap.1 hf
  exact h x f hx

theorem groupEvents (c n : Nat) (g : Group) : AllMemOk (groupEvents c n g) :=
  (((map fun _ _ ok => ok.execLoadDataReturn ..).append (map fun _ _ ok => ok.execStorePerform ..)).append
    (ite nil (one fun _ ok => ok.execFaultDelivery ..))).append (ite (one fun _ ok => ok.execGroupLeavesDraining ..) nil)

theorem coreEvents (c : Nat) (k : Core) : AllMemOk (coreEvents c k) := by
  refine (((((((flatMap fun _ => groupEvents ..).append (flatMap fun _ => ?_)).append (flatMap fun _ => ite nil ?_)).append
    (ite nil (one fun _ ok => ok.execLeaseGrant ..))).append (ite (one fun _ ok => ok.execLeaseExpiry ..) nil)).append
    (ite nil (one fun _ ok => ok.execTeamMaterialise ..))).append (ite nil (one fun _ ok => ok.execSamplePoint ..))).append
    (ite nil (one fun _ ok => ok.execSampleRecordDeferred ..))
  · exact cons (fun _ ok => ok.execCpyxRequest ..) (cons (fun _ ok => ok.execTransferLanding ..)
      (cons (fun _ ok => ok.execEngineCommandFault ..) (one fun _ ok => ok.execEngineCommandComplete ..)))
  · exact cons (fun _ ok => ok.execMatrixOperationStart ..) (one fun _ ok => ok.execMatrixKStep ..)

theorem dieEvents (d : Nat) (k : Die) : AllMemOk (dieEvents d k) :=
  ((((ite nil (one fun _ ok => ok.execPageWalk ..)).append (map fun _ _ ok => ok.execResponseTimeout ..)).append
    (map fun _ _ ok => ok.execResponseTimeout ..)).append (map fun _ _ ok => ok.execRefusalResend ..)).append
    (ite nil (one fun _ ok => ok.execStripeIssue ..))

theorem streamEvents (s : State) (n : Nat) (x : Stream) : AllMemOk (s.streamEvents n x) := by
  refine (((((ite nil ?_).append (ite nil ?_)).append (ite (one fun _ ok => ok.execAckTimerExpiry ..) nil)).append
    (ite (one fun _ ok => ok.execNakLapse ..) nil)).append (ite nil (one fun _ ok => ok.execIdleFlit ..))).append (ite nil ?_)
  · exact cons (fun _ ok => ok.execDataFlit ..) (one fun _ ok => ok.execControlFlit ..)
  · exact cons (fun _ ok => ok.execReplayTimeout ..) (one fun _ ok => ok.execReplayLimit ..)
  · exact cons (fun _ ok => ok.execDieLinkRead ..) <| cons (fun _ ok => ok.execDieLinkReadReply ..) <|
      cons (fun _ ok => ok.execDieLinkWrite ..) <| cons (fun _ ok => ok.execDieLinkWriteAck ..) <|
      cons (fun _ ok => ok.execDieLinkAtomic ..) <| cons (fun _ ok => ok.execDieLinkAtomicReply ..) <|
      cons (fun _ ok => ok.execDieLinkInvalidation ..) <| cons (fun _ ok => ok.execDieLinkInvalidationAck ..) <|
      cons (fun _ ok => ok.execDieLinkControl ..) <| cons (fun _ ok => ok.execDieLinkWriteback ..) <|
      cons (fun _ ok => ok.execDieLinkWritebackAck ..) <| cons (fun _ ok => ok.execDieLinkTagRead ..) <|
      cons (fun _ ok => ok.execDieLinkTagReadReply ..) <| cons (fun _ ok => ok.execDieLinkTagWrite ..) <|
      cons (fun _ ok => ok.execDieLinkTagWriteAck ..) <| one fun _ ok => ok.execDieLinkUnknownOp ..

theorem queueEvents (n : Nat) (q : Queue) : AllMemOk (queueEvents n q) := by
  refine (ite nil ?_).append (ite nil (one fun _ ok => ok.execCompletionReport ..))
  exact cons (fun _ ok => ok.execNoopPacket ..) <| cons (fun _ ok => ok.execLaunchPacket ..) <|
    cons (fun _ ok => ok.execMarkerPacket ..) <| cons (fun _ ok => ok.execPreemptPacket ..) <|
    cons (fun _ ok => ok.execResumePacket ..) <| one fun _ ok => ok.execLaunchStart ..

theorem contextEvents (s : State) (n : Nat) (x : Context) : AllMemOk (s.contextEvents n x) :=
  (((((ite (one fun _ ok => ok.execPreemption ..) nil).append (ite (one fun _ ok => ok.execRestore ..) nil)).append
    (ite (one fun _ ok => ok.execHeartbeatTimer ..) nil)).append (map fun _ _ ok => ok.execSuspicion ..)).append
    (map fun _ _ ok => ok.execProbeTimeout ..)).append (map fun _ _ ok => ok.execResponseTimeout ..)

theorem packetOf (d : Nat) (p : Fesel) : Act.MemOk (packetOf d p) := by
  unfold Machine.packetOf
  split
  · exact fun _ ok => ok.execRemoteRead ..
  · exact fun _ ok => ok.execReadReply ..
  · exact fun _ ok => ok.execRemoteWrite ..
  · exact fun _ ok => ok.execWriteAck ..
  · exact fun _ ok => ok.execRemoteAtomic ..
  · exact fun _ ok => ok.execAtomicReply ..
  · exact fun _ ok => ok.execXrq ..
  · exact fun _ ok => ok.execXdt ..
  · exact fun _ ok => ok.execXcn ..
  · exact fun _ ok => ok.execXer ..
  · exact fun _ ok => ok.execGnt ..
  · exact fun _ ok => ok.execCollectiveData ..
  · exact fun _ ok => ok.execHeartbeat ..
  · exact fun _ ok => ok.execProbeRequest ..
  · exact fun _ ok => ok.execProbeReply ..
  · exact fun _ ok => ok.execRefusal ..
  · exact fun _ ok => ok.execVerdict ..

theorem claims (s : State) (l : Launch) : AllMemOk (s.claims l) := by
  refine filterMap fun d f e => ?_
  split at e
  · cases e
  · obtain ⟨c, _, rfl⟩ := Option.map_eq_some_iff.1 e
    exact fun _ ok => ok.execChunkClaim ..

theorem candidates (s : State) : AllMemOk s.candidates := by
  refine (((((((((((((ite (one fun _ ok => ok.execPowerStateExitComplete ..) nil).append (one fun _ ok => .next ok.retry)).append
    (flatMap fun _ => coreEvents ..)).append (flatMap fun _ => dieEvents ..)).append (flatMap fun _ => streamEvents ..)).append
    (map fun _ => packetOf _ _)).append (flatMap fun _ => filterMap fun y _ e => ?_)).append
    (map fun _ _ ok => ok.execInvalidationComplete ..)).append (filterMap fun _ _ e => ?_)).append
    (flatMap fun _ => contextEvents ..)).append
    (flatMap fun _ => (claims ..).append (one fun _ ok => ok.execGridEnd ..))).append (flatMap fun _ => queueEvents ..)).append
    (flatMap fun _ => ?_)).append (ite nil ?_)
  · obtain ⟨_, c⟩ := y
    cases c with
    | copying =>
      cases e
      exact fun _ ok => ok.execChunkCopyEnd ..
    | preserved => cases e
  · obtain ⟨_, _, rfl⟩ := Option.map_eq_some_iff.1 e
    exact fun _ ok => ok.execTh3Timeout ..
  · exact cons (fun _ ok => ok.execCoalescingTimerExpiry ..) (one fun _ ok => ok.execInterrupt ..)
  · exact cons (fun _ ok => ok.execPowerStateExit ..) <| cons (fun _ ok => ok.execPowerStateExit ..) <|
      one fun _ ok => ok.execPowerStateEntry ..

end Act.AllMemOk

section
variable {s : State} (ok : s.MemOk)
include ok

theorem State.MemOk.moved {f : Act} (fOk : Act.MemOk f) : ∀ t, s.moved f = some t → t.MemOk := by
  dsimp only [State.moved]
  split
  next e =>
    split
    · exact of_none
    · exact of_some ((fOk { s with iss := {} } ok).of_next _ e)
  next => exact of_none

theorem State.MemOk.runChosen : s.runChosen.MemOk := by
  dsimp only [State.runChosen]
  split
  next e => exact .next (of_findSome (fun f hf => ok.moved ((Act.AllMemOk.candidates s).of_mem f hf)) _ e)
  next =>
    split
    · exact ok.runMove ..
    · exact .next ok.idle

/-! ## One step (Machine/Step) -/

theorem State.MemOk.step : Res.MemOk (step s) := by
  dsimp only [Machine.step]
  split
  · exact ok.runSecond ..
  split
  · apply State.MemOk.runMove
    exact ok
  · exact ok.runChosen

end

/-- Settles O7: every move of a step, and every event it may choose, keeps the canonical forms. -/
theorem stepKeepsMemory : Obligations.StepKeepsMemory := by
  unfold Obligations.StepKeepsMemory
  exact fun _ _ ok e => (State.MemOk.step ok).of_next _ e

end Sys2Proof.Machine

/-! PROOFS of the statements of 13_flow_memory_instructions.md: TRAP and BKPT, INK, control transfer and SIZESEL (R199, R203, R208 to
R211). -/

namespace Sys2Proof.Machine

/-! ## TRAP and BKPT (R203) -/

section
variable {f : FaultRec} {l : Nat}

/-- The word tcause read back: its code (Table 17-6). -/
theorem tcauseOf_code : (tcauseOf f l).extractLsb' 0 8 = f.code := by
  apply BitVec.eq_of_toNat_eq
  have := f.code.isLt
  have := f.num.isLt
  simp only [tcauseOf, BitVec.extractLsb'_toNat, BitVec.toNat_ofNat, Nat.shiftRight_zero]
  split <;> split <;> split <;> omega

theorem tcauseOf_num : (tcauseOf f l).extractLsb' 16 16 = f.num := by
  apply BitVec.eq_of_toNat_eq
  have := f.code.isLt
  have := f.num.isLt
  simp only [tcauseOf, BitVec.extractLsb'_toNat, BitVec.toNat_ofNat, Nat.shiftRight_eq_div_pow]
  split <;> split <;> split <;> omega

end

section
variable {s : State} {c slot l : Nat} {f : FaultRec} {resume : W64}

/-- A second fault of a lane in trap mode freezes its group (R283, R287). -/
theorem State.takeFault_double (ht : ((s.group c slot).lane l).trap = true) :
    s.takeFault c slot l f resume = (s.groupRecord 0x01 c slot l f f.code).freezeGroup c slot l f cDOUBLE := if_pos ht

/-- The lane in its handler: what R283 puts into its trap registers. -/
def Lane.enterTrap (x : Lane) (handler : W64) (f : FaultRec) (l : Nat) (resume : W64) : Lane :=
  { x with
    trap := true, tpc := handler, wait := .none, parked := none,
    tcause := tcauseOf f l, taddr := f.addr, tpcr := f.pc, tseq := f.seq, tret := resume }

/-- A lane outside trap mode enters the handler of its launch. -/
theorem State.lane_takeFault (ht : ((s.group c slot).lane l).trap = false) (hs : slot ≠ 63) (ha : s.trapAddr (s.group c slot) ≠ 0)
    (hl : l < (s.group c slot).lanes.length) : ((s.takeFault c slot l f resume).group c slot).lane l =
      ((s.group c slot).lane l).enterTrap (s.trapAddr (s.group c slot)) f l resume := by
  have same := s.groupRecord_same 0x01 c slot l f f.code
  have enters : s.takeFault c slot l f resume = (s.groupRecord 0x01 c slot l f f.code).modLane c slot l fun x =>
      x.enterTrap (s.trapAddr (s.group c slot)) f l resume := by
    rw [← same.trapAddr] at ha ⊢
    refine (if_neg (Bool.eq_false_iff.1 ht)).trans (if_neg ?_)
    simpa [hs] using ha
  rw [enters, State.lane_modLane _ c slot l _ (by rw [same.group]; exact hl), same.group]

end

/-- Settles O24: the body of both instructions is `takeFault` for each participating lane. -/
theorem trapAndBreakpoint : Obligations.TrapAndBreakpoint := by
  unfold Obligations.TrapAndBreakpoint
  refine ⟨fun s h f => ⟨fun I => issueInk_next I _, fun I => issueInk_next I _, fun e he => ⟨issueInk_stroke he, issueInk_stroke he⟩⟩,
    fun s c slot l f resume => ⟨State.takeFault_double, fun ht hs ha _ hl => ?handler⟩⟩
  case handler =>
    rw [State.lane_takeFault ht hs ha hl]
    exact ⟨rfl, rfl, rfl, tcauseOf_code, tcauseOf_num, rfl⟩

/-! ## INK (R211) -/

theorem exec_ink_computes {s : State} {h : Hdr} {f : CF} (I : Issues s (.ink h f)) :
    ∃ t, exec (.ink h f) s = .next t ∧ Computes s t h [] [] := by
  refine ⟨_, ?_, computes_begin s h I.lanesIn⟩
  rw [exec_ink, execInk, I.set]
  exact congrArg _ (groupIssue_eq I _)

theorem SMap.find_erase_none {α : Type} {m : SMap α} {i j : Nat} (h : m.find i = none) : (m.erase j).find i = none := by
  by_cases e : i = j
  · rw [e, SMap.find_erase_self]
  · rw [SMap.find_erase_ne _ _ _ e, h]

theorem SMap.find_modify_none {α : Type} {m : SMap α} {i j : Nat} {f : α → α} (h : m.find i = none) : (m.modify j f).find i = none := by
  by_cases e : i = j
  · rw [e, SMap.find_modify_self, ← e, h, Option.map_none]
  · rw [SMap.find_modify_ne _ _ _ _ e, h]

/-- A merge fills no entry (R38). -/
theorem find_mergeAll_none {e tx ty : Nat} {kin : Stroke → Bool} (fuel : Nat) {m : SMap Stroke} (h : m.find e = none) :
    (mergeAll tx ty kin fuel m).find e = none := by
  induction fuel generalizing m with
  | zero => exact h
  | succ fuel ih =>
    unfold mergeAll
    split
    · exact h
    · exact ih (SMap.find_modify_none (SMap.find_erase_none h))

section
variable {s : State} {c e : Nat} {k : Stroke}

/-- What arrives at a JOIN fills no entry of the stroke table and inks nothing. -/
theorem State.joinSettle_keeps (h : (s.core c).strokes.find e = none) :
    ((s.joinSettle c k).core c).strokes.find e = none ∧ ((s.joinSettle c k).core c).inked = (s.core c).inked := by
  have merged := find_mergeAll_none (tx := s.launchWord k.ctx k.launch 4) (ty := s.launchWord k.ctx k.launch 5) (kin := sameKin k) 16 h
  unfold State.joinSettle
  rw [State.core_modCore]
  dsimp only
  split
  · split
    · exact ⟨merged, rfl⟩
    · refine ⟨?_, rfl⟩
      rw [SMap.find_map, merged, Option.map_none]
      intro x
      split <;> rfl
  · exact ⟨merged, rfl⟩

/-- The inked stroke has left its entry, and its teams wait for their groups (R40, R41). -/
theorem State.inkStroke_inks {pc : W64} {st : Stroke} (hs : s.strokeAt c e = some st) :
    ((s.inkStroke c e pc).core c).strokes.find e = none ∧
      st.ink st.box (st.tx s) (st.ty s) pc ∈ ((s.inkStroke c e pc).core c).inked := by
  rw [State.inkStroke, hs]
  dsimp only
  obtain ⟨free, inked⟩ := State.joinSettle_keeps (e := e) (k := st) (c := c)
    (s := s.modCore c fun k => { k with
      strokes := k.strokes.erase e, inked := k.inked ++ [st.ink st.box (st.tx s) (st.ty s) pc] })
    (by rw [State.core_modCore, SMap.find_erase_self])
  refine ⟨free, ?_⟩
  refine inked ▸ ?_
  rw [State.core_modCore]
  exact List.mem_append_right _ (List.mem_singleton_self _)

end

/-- Settles O20: a NOP for a group, and for a stroke what its inking leaves in the stroke table and among the inked. -/
theorem inkInstruction : Obligations.InkInstruction := by
  unfold Obligations.InkInstruction
  refine ⟨fun s h f => exec_ink_computes, fun s h f e => exec_ink_stroke, fun s c e pc st hs => ?_⟩
  obtain ⟨free, inked⟩ := State.inkStroke_inks (pc := pc) hs
  exact ⟨free, _, inked, rfl, rfl, rfl, rfl, rfl, rfl, rfl, rfl⟩

/-! ## What is written for some lanes of the set, and where they go on (R64, R70, R199) -/

section
variable {s t : State} {act : List Nat} {ds es : List (Opnd × (Nat → List W32))} {nx ny : Nat → W64}

/-- Nothing is written by going on. -/
theorem Writes.begin (s : State) (h : Hdr) (act : List Nat) (hr : LanesIn s) : Writes s (s.beginIssue h) act [] [] := by
  have C := computes_begin s h hr
  exact {
    toSetFrame := C.toSetFrame
    v := fun l hl m => by simpa using C.v l hl m
    sc := fun m => (rs_beginIssue s h m).trans (by cases act.head? <;> rfl)
    p := fun l hl k hk => by simpa using C.p l hl k hk }

theorem Writes.refl (s : State) (act : List Nat) : Writes s s act [] [] where
  toSetFrame := SetFrame.refl s
  v _ _ _ := (ite_self _).symm
  sc _ := by cases act.head? <;> rfl
  p _ _ _ _ := (ite_self _).symm

/-- A change of the written lanes that keeps their predicates, their registers coming to hold what the longer list says. -/
theorem Writes.foldLanes (W : Writes s t act ds []) (hr : LanesIn s) (sub : ∀ l ∈ act, l ∈ s.iss.lanes) (f : Nat → Lane → Lane)
    (kept : ∀ l x, LaneKept x (f l x)) (pred : ∀ l x k, (f l x).pred k = x.pred k)
    (regs : ∀ l x old m, x.rv m = ds.foldl (fun old x => vAfter old x.1 (x.2 l)) old m ∨
        x.rv m = es.foldl (fun old x => vAfter old x.1 (x.2 l)) old m →
      (f l x).rv m = es.foldl (fun old x => vAfter old x.1 (x.2 l)) old m)
    (scalars : ∀ l old m, es.foldl (fun old x => sAfter old x.1 (x.2 l)) old m = ds.foldl (fun old x => sAfter old x.1 (x.2 l)) old m) :
    Writes s (act.foldl (fun u l => u.modLane s.iss.core s.iss.slot l (f l)) t) act es [] := by
  have F := W.toSetFrame.foldLanes act sub f kept
  exact {
    toSetFrame := F
    v := fun l hl m => by
      have old := W.v l hl m
      rw [F.issLane_eq]
      refine issLane_active W.toSetFrame f act l hr hl (fun x => x.rv m = _) (fun hm x hx => ?_) (fun hm => ?_) fun hm x hx => ?_
      · rw [if_pos hm] at old ⊢
        exact regs l x _ m (.inl (hx ▸ old))
      · rw [if_neg hm] at old ⊢
        exact old
      · rw [if_pos hm] at hx ⊢
        exact regs l _ _ m (.inr hx)
    sc := fun m => by
      have old := W.sc m
      rw [State.issGroup, F.iss, rs_fold]
      rw [State.issGroup, W.toSetFrame.iss] at old
      refine old.trans ?_
      cases act.head? with
      | none => rfl
      | some l => exact (scalars l _ m).symm
    p := fun l hl k hk => by
      rw [F.issLane_eq]
      exact issLane_active W.toSetFrame f act l hr hl (fun x => x.pred k = _) (fun _ x hx => (pred l x k).trans (hx ▸ W.p l hl k hk))
        (fun _ => W.p l hl k hk) fun _ x hx => (pred l _ k).trans hx }

/-- A change of s registers only leaves every lane as it was. -/
theorem SetFrame.issLane_wss (F : SetFrame s t) (r : Nat) (xs : List W32) (l : Nat) :
    (t.modGroup s.iss.core s.iss.slot fun g => g.wss r xs).issLane l = t.issLane l := by
  rw [State.issLane, State.issLane, State.issGroup, State.issGroup, State.modGroup_iss, F.iss, State.group_modGroup]
  unfold State.group
  cases (t.core s.iss.core).groups.find s.iss.slot with
  | none => rfl
  | some g =>
    simp only [Option.map_some, Option.getD_some]
    rw [wss_lanes]
    rfl

/-- The s registers after a write to them, where the group has a lane. -/
theorem SetFrame.rs_wss (F : SetFrame s t) (hr : LanesIn s) {a : Nat} (ha : a ∈ s.iss.lanes) (r : Nat) (xs : List W32) (m : Nat) :
    (t.modGroup s.iss.core s.iss.slot fun g => g.wss r xs).issGroup.rs m = (t.issGroup.wss r xs).rs m := by
  have there := hr a ha
  rw [← F.count, State.issGroup, F.iss] at there
  rw [State.issGroup, State.issGroup, State.modGroup_iss, F.iss, State.group_modGroup]
  cases hg : (t.core s.iss.core).groups.find s.iss.slot with
  | none => simp [State.group, hg] at there
  | some g => simp [State.group, hg]

theorem Writes.wss (W : Writes s t act ds []) (hr : LanesIn s) (sub : ∀ l ∈ act, l ∈ s.iss.lanes) (r : Fin 64) (val : Nat → List W32)
    {a : Nat} (ha : act.head? = some a) :
    Writes s (t.modGroup s.iss.core s.iss.slot fun g => g.wss r.val (val a)) act (ds ++ [(.s r, val)]) [] where
  toSetFrame := W.toSetFrame.modGroup (fun g => g.wss r.val (val a)) (fun g => by rw [wss_lanes]) (fun g => by rw [wss_lanes])
    (fun g l _ => by rw [wss_lanes]; rfl) fun g l => by rw [wss_lanes]; exact LaneKept.refl _
  v l hl m := by
    rw [W.toSetFrame.issLane_wss, W.v l hl m, List.foldl_append]
    rfl
  sc m := by
    have old := W.sc m
    rw [ha] at old ⊢
    rw [W.toSetFrame.rs_wss hr (sub a (List.mem_of_head? ha)), wss_append, old]
    simp only [List.foldl_append]
    rfl
  p l hl k hk := by rw [W.toSetFrame.issLane_wss, W.p l hl k hk]

/-- A destination written for the lanes of a list. -/
theorem Writes.writeD (W : Writes s t act ds []) (hr : LanesIn s) (sub : ∀ l ∈ act, l ∈ s.iss.lanes) {e : Env} (hc : e.core = s.iss.core)
    (hs : e.slot = s.iss.slot) (ha : e.active = act) (d : Opnd) (val : Nat → List W32) :
    Writes s (t.writeD e d val) act (ds ++ [(d, val)]) [] := by
  have same (hd : ∀ r, d ≠ .s r) (l : Nat) (old : Nat → W32) (m : Nat) :
      (ds ++ [(d, val)]).foldl (fun old x => sAfter old x.1 (x.2 l)) old m = ds.foldl (fun old x => sAfter old x.1 (x.2 l)) old m := by
    rw [List.foldl_append]
    cases d with
    | s r => exact absurd rfl (hd r)
    | v r => rfl
    | k r => rfl
  unfold State.writeD
  rw [hc, hs, ha]
  cases d with
  | k r =>
    refine { toSetFrame := W.toSetFrame, v := fun l hl m => ?_, sc := fun m => ?_, p := W.p }
    · rw [W.v l hl m, List.foldl_append]
      rfl
    · rw [W.sc m]
      simp only [List.foldl_append]
      rfl
  | v r =>
    refine W.foldLanes hr sub (fun l x => x.wvs r.val (val l)) (fun l x => LaneKept.wvs x _ _) (fun l x => (cur_wvs _ _ _).2.2)
      (fun l x old m hx => ?_) (same fun _ => by simp)
    simp only [List.foldl_append, List.foldl_cons, List.foldl_nil, vAfter, Lane.wvs_append] at hx ⊢
    split
    · rfl
    · next out => rwa [if_neg out, or_self] at hx
  | s r =>
    cases act with
    | nil =>
      refine { toSetFrame := W.toSetFrame, v := fun l hl m => ?_, sc := W.sc, p := W.p }
      rw [W.v l hl m]
      rfl
    | cons a as => exact W.wss hr sub r val rfl

theorem Continues.foldLanes (F : SetFrame s t) (C : Continues s t act nx) (hr : LanesIn s) (sub : ∀ l ∈ act, l ∈ s.iss.lanes)
    (f : Nat → Lane → Lane) (kept : ∀ l x, LaneKept x (f l x)) (wait : ∀ l x, (f l x).wait = x.wait)
    (cur : ∀ l x, x.cur = nx l ∨ x.cur = ny l → (f l x).cur = ny l) :
    Continues s (act.foldl (fun u l => u.modLane s.iss.core s.iss.slot l (f l)) t) act ny := by
  intro l hl
  have old := C l hl
  rw [(F.foldLanes act sub f kept).issLane_eq]
  refine issLane_active F f act l hr hl (fun x => x.cur = _ ∧ x.wait = .none) (fun hm x hx => ?_) (fun hm => ?_) fun hm x hx => ?_
  · rw [if_pos hm] at old ⊢
    exact ⟨cur l x (.inl (hx ▸ old.1)), (wait l x).trans (hx ▸ old.2)⟩
  · rw [if_neg hm] at old ⊢
    exact old
  · rw [if_pos hm] at hx ⊢
    exact ⟨cur l _ (.inr hx.1), (wait l _).trans hx.2⟩

/-- Writing a destination moves no lane. -/
theorem Continues.writeD (F : SetFrame s t) (C : Continues s t act nx) (hr : LanesIn s) (sub : ∀ l ∈ act, l ∈ s.iss.lanes) {e : Env}
    (hc : e.core = s.iss.core) (hs : e.slot = s.iss.slot) (ha : e.active = act) (d : Opnd) (val : Nat → List W32) :
    Continues s (t.writeD e d val) act nx := by
  unfold State.writeD
  rw [hc, hs, ha]
  cases d with
  | k r => exact C
  | v r =>
    exact C.foldLanes F hr sub (fun l x => x.wvs r.val (val l)) (fun l x => LaneKept.wvs x _ _) (fun l x => (cur_wvs _ _ _).2.1)
      fun l x hx => (cur_wvs _ _ _).1.trans (hx.elim id id)
  | s r =>
    cases act with
    | nil => exact C
    | cons a as => exact fun l hl => (F.issLane_wss r.val (val a) l).symm ▸ C l hl

/-- The lanes of a list go on at their targets. -/
theorem Writes.goes (W : Writes s t act ds []) (C : Continues s t act nx) (hr : LanesIn s) (sub : ∀ l ∈ act, l ∈ s.iss.lanes)
    (next : Nat → W64) :
    let u := act.foldl (fun u l => u.modLane s.iss.core s.iss.slot l fun x => x.setCur (next l)) t
    Writes s u act ds [] ∧ Continues s u act next :=
  ⟨W.foldLanes hr sub (fun l x => x.setCur (next l)) (fun l x => LaneKept.setCur x _) (fun l x k => Lane.pred_setCur ..)
      (fun l x old m hx => (Lane.rv_setCur ..).trans (hx.elim id id)) fun _ _ _ => rfl,
    C.foldLanes W.toSetFrame hr sub (fun l x => x.setCur (next l)) (fun l x => LaneKept.setCur x _)
      (fun l x => by unfold Lane.setCur; split <;> rfl) fun l x _ => Lane.cur_setCur ..⟩

end

/-! ## Control transfer (R199) -/

section
variable {s t b : State} {h : Hdr} {ds : List (Opnd × (Nat → List W32))} {next : Nat → W64}

/-- The lanes whose target is a multiple of 4. -/
def State.aligned (s : State) (h : Hdr) (next : Nat → W64) : List Nat := (s.active h).filter fun l => (next l).toNat % 4 == 0

theorem State.aligned_sub (s : State) (h : Hdr) (next : Nat → W64) : ∀ l ∈ s.aligned h next, l ∈ s.iss.lanes :=
  fun l hl => active_sub s h l (List.mem_filter.1 hl).1

/-- The faults of a jump: ALIGN for each lane whose target is no multiple of 4, with the target as its address (log 40). -/
def State.misaligned (s : State) (h : Hdr) (next : Nat → W64) (u : State) : State :=
  ((s.active h).filter fun l => (next l).toNat % 4 != 0).foldl
    (fun t l => t.precise s.iss.core s.iss.slot l s.iss.pc { code := cALIGN, addr := next l }) u

/-- What a jump does, from a state that the issue has brought about: it writes the link, the lanes at aligned targets go on there, and the
others fault. -/
theorem jump_writes (W : Writes b t (s.aligned h next) ds []) (C : Continues b t (s.aligned h next) fun _ => b.iss.pc + 12)
    (hi : b.iss = s.iss) (hr : LanesIn b) (link : Option Opnd) :
    ∃ u, Writes b u (s.aligned h next) (ds ++ link.toList.map fun d => (d, fun _ => valRegs true (s.iss.pc + 12))) [] ∧
      Continues b u (s.aligned h next) next ∧ t.jump (s.env h) next link = s.misaligned h next u := by
  have sub : ∀ l ∈ s.aligned h next, l ∈ b.iss.lanes := hi ▸ s.aligned_sub h next
  cases link with
  | none =>
    obtain ⟨W', C'⟩ := W.goes C hr sub next
    rw [hi] at W' C'
    exact ⟨_, (List.append_nil ds).symm ▸ W', C', rfl⟩
  | some d =>
    have hc : s.iss.core = b.iss.core := by rw [hi]
    have hs : s.iss.slot = b.iss.slot := by rw [hi]
    obtain ⟨W', C'⟩ := (W.writeD hr sub (e := { s.env h with active := s.aligned h next }) hc hs rfl d fun _ =>
      valRegs true (s.iss.pc + 12)).goes (C.writeD W.toSetFrame hr sub hc hs rfl d _) hr sub next
    rw [hi] at W' C'
    exact ⟨_, W', C', rfl⟩

/-- A jump straight after the advance. -/
theorem jump_issues {i : Instr} (I : Issues s i) (link : Option Opnd) :
    ∃ u, Writes s u (s.aligned h next) (link.toList.map fun d => (d, fun _ => valRegs true (s.iss.pc + 12))) [] ∧
      Continues s u (s.aligned h next) next ∧ (s.beginIssue h).jump (s.env h) next link = s.misaligned h next u :=
  jump_writes (Writes.begin s h _ I.lanesIn) (fun l hl => by simpa using (computes_begin s h I.lanesIn).advances l hl) rfl I.lanesIn link

end

/-- The same for an instruction that may fault in a stroke. -/
theorem issueIf_next {s : State} {i : Instr} {h : Hdr} {cond : State → Stroke → Bool} {closed : Closed} (I : Issues s i)
    (body : Env → State → State) : s.issueIf i h cond closed body = .next (body (s.env h) (s.beginIssue h)) := by
  rw [State.issueIf, I.set]
  exact congrArg _ (groupIssue_eq I body)

theorem exec_bra_jumps {s : State} {h : Hdr} {f : CF} (I : Issues s (.bra h f)) :
    exec (.bra h f) s = .next ((s.beginIssue h).jump (s.env h) (fun _ => branchTo s.iss.pc f) none) := by
  rw [exec_bra, execBra, I.set]
  exact congrArg _ (groupIssue_eq I _)

/-- Settles O18: each instruction is a jump on the state in which its set has advanced, with its own targets and link. -/
theorem branches : Obligations.Branches := by
  unfold Obligations.Branches
  intro s h f e direct pair link jumps
  have by_ {i : Instr} {next : Nat → W64} (d : Option Opnd) (x : Issues s i → exec i s = .next ((s.beginIssue h).jump (s.env h) next d)) :
      jumps i next (d.toList.map fun d => (d, fun _ => valRegs true (s.iss.pc + 12))) := by
    intro I
    obtain ⟨u, W, C, j⟩ := jump_issues (h := h) (next := next) I d
    exact ⟨u, W, C, (x I).trans (congrArg _ j)⟩
  exact ⟨by_ none exec_bra_jumps, by_ (some f.d) fun I => issue_next I _ _, by_ none fun I => issueIf_next I _,
    by_ (some f.d) fun I => issueIf_next I _, by_ none fun I => issueIf_next I _⟩


/-! ## What reading a record leaves of the groups (R163, R172) -/

/-- Every group stands as it did. -/
def SameGroups (s t : State) : Prop := ∀ c n, t.group c n = s.group c n

theorem SameGroups.refl (s : State) : SameGroups s s := fun _ _ => rfl

theorem SameGroups.trans {s t u : State} (a : SameGroups s t) (b : SameGroups t u) : SameGroups s u :=
  fun c n => (b c n).trans (a c n)

theorem SameBut.groups {s t : State} (a : SameBut s t) : SameGroups s t := fun c n => a.group c n

theorem SameGroups.fold {α : Type} {f : State → α → State} (hf : ∀ s x, SameGroups s (f s x)) (xs : List α) (s : State) :
    SameGroups s (xs.foldl f s) := by
  induction xs generalizing s with
  | nil => exact .refl s
  | cons x xs ih => exact (hf s x).trans (ih _)

section
variable (s : State)

theorem State.modCore_groups (c : Nat) (f : Core → Core) (hf : ∀ k, (f k).groups = k.groups) : SameGroups s (s.modCore c f) := by
  intro c' n
  by_cases e : c' = c
  · rw [e, State.group, State.core_modCore, hf]
    rfl
  · rw [State.group, State.core_modCore_ne _ _ _ _ e]
    rfl

theorem State.readAtHome_groups (c d line : Nat) : SameGroups s (s.readAtHome c d line) :=
  s.modCore_groups c (fun k => { k with l1 := dropLine k.l1 line }) fun _ => rfl

theorem State.postEvents_groups (ev : List DevEvent) : SameGroups s (s.postEvents ev) := (State.postEventsN_same _ s ev).groups

theorem State.readArray_groups (pa n : Nat) : SameGroups s (s.readArray pa n) :=
  (State.correctAll_same _ s).groups.trans (State.postEvents_groups _ _)

theorem State.homeLoadIn_groups (pa n : Nat) (b : Nat × Nat) (po : Policy) : SameGroups s (s.homeLoadIn pa n b po) :=
  (State.fetchIn_same s pa n b po).groups.trans (State.postEvents_groups _ _)

theorem State.softAccess_groups (pa n : Nat) : SameGroups s (s.softAccess pa n) := by
  unfold State.softAccess
  split <;> exact .refl s

theorem State.walked_groups (c ctx : Nat) (va : W64) : SameGroups s (s.walked c ctx va) :=
  ((State.walkReading_same _ _ s).groups.trans (.fold (fun s _ => s.readAtHome_groups _ _ _) _ _)).trans (State.postEvents_groups _ _)

theorem State.coreXlate_groups (c ctx : Nat) (va : W64) : SameGroups s (s.coreXlate c ctx va).2 := by
  unfold State.coreXlate
  split
  · exact .refl s
  · split
    · exact .refl s
    · split
      · exact s.walked_groups c ctx va
      · exact (s.walked_groups c ctx va).trans (State.modCore_groups _ _ _ fun _ => rfl)

theorem State.recordRead_groups (c slot ctx : Nat) (va : W64) (n : Nat) : SameGroups s (s.recordRead c slot ctx va n) := by
  have pages : SameGroups s ((pageStarts (n / 65536 + 2) va n).foldl (fun s a => (s.coreXlate c ctx a).2) s) :=
    .fold (fun s a => s.coreXlate_groups c ctx a) _ s
  unfold State.recordRead
  dsimp only
  split
  · exact pages
  · refine pages.trans (.fold (fun u p => ?_) _ _)
    split
    · split
      · exact State.readArray_groups _ _ _
      · exact .refl u
    · exact ((State.homeLoadIn_groups u _ _ _ _).trans (State.softAccess_groups _ _ _)).trans (.fold (fun s _ => s.readAtHome_groups _ _ _) _ _)

end

/-! ## SIZESEL (R208 to R210) -/

section
variable {rec : List Byte} {x next : W64}

/-- Entry j of a schedule record (Table 13-2). -/
def schedEntry (rec : List Byte) (j : Nat) : Nat := ofBytes ((rec.drop (16 * j)).take 16)

/-- An entry is valid, and its bound is below the operand: the next is looked at (R209). -/
def schedPasses (rec : List Byte) (x : W64) (j : Nat) : Prop :=
  natBits (schedEntry rec j) 32 32 ≠ 0 ∧ ¬x.toNat ≤ natBits (schedEntry rec j) 31 0

theorem sizeFit_passes {i fuel : Nat} (h : schedPasses rec x i) : sizeFit rec x next i (fuel + 1) = sizeFit rec x next (i + 1) fuel :=
  (if_neg h.1).trans (if_neg h.2)

/-- The entries that do not fit are passed over, one after another. -/
theorem sizeFit_skips {i fuel : Nat} (k : Nat) (h : ∀ j, i ≤ j → j < i + k → schedPasses rec x j) :
    sizeFit rec x next i (fuel + k) = sizeFit rec x next (i + k) fuel := by
  induction k generalizing i with
  | zero => rfl
  | succ k ih =>
    have rest := ih (i := i + 1) fun j hj hk => h j (by omega) (by omega)
    rw [← Nat.add_assoc, sizeFit_passes (h i (Nat.le_refl i) (by omega)), rest, Nat.add_right_comm, Nat.add_assoc]

/-- The first entry that is not passed over decides. -/
theorem sizeFit_at {i : Nat} (hi : i < 8) (h : ∀ j, j < i → schedPasses rec x j) :
    sizeFit rec x next 0 8 = sizeFit rec x next i (7 - i + 1) := by
  have skips := sizeFit_skips (next := next) (i := 0) (fuel := 7 - i + 1) i fun j _ hj => h j (by omega)
  rwa [Nat.zero_add, show 7 - i + 1 + i = 8 by omega] at skips

theorem sizeFit_fits {i : Nat} (hi : i < 8) (h : ∀ j, j < i → schedPasses rec x j) (hv : natBits (schedEntry rec i) 32 32 ≠ 0)
    (hf : x.toNat ≤ natBits (schedEntry rec i) 31 0) :
    sizeFit rec x next 0 8 = (BitVec.ofNat 32 i, BitVec.ofNat 64 (schedEntry rec i / 2 ^ 64)) :=
  (sizeFit_at hi h).trans ((if_neg hv).trans (if_pos hf))

theorem sizeFit_ends {i : Nat} (hi : i < 8) (h : ∀ j, j < i → schedPasses rec x j) (hv : natBits (schedEntry rec i) 32 32 = 0) :
    sizeFit rec x next 0 8 = (0xFFFFFFFF, next) := (sizeFit_at hi h).trans (if_pos hv)

theorem sizeFit_none (h : ∀ j, j < 8 → schedPasses rec x j) : sizeFit rec x next 0 8 = (0xFFFFFFFF, next) :=
  sizeFit_skips (i := 0) (fuel := 0) 8 fun j _ hj => h j (by omega)

end

section
variable {s : State} {h : Hdr} {f : CF}

/-- The entries that a SIZESEL of the issuing set reads. -/
def State.sizeselParts (s : State) (h : Hdr) (f : CF) : List (W64 × Nat) :=
  (s.beginIssue h).schedParts s.iss.core s.iss.slot (s.env h).g.ctx (schedAddr (s.env h).words f) 0 8

/-- The state in which they have been read. -/
def State.sizeselRead (s : State) (h : Hdr) (f : CF) : State :=
  (s.sizeselParts h f).foldl (fun t x => t.recordRead s.iss.core s.iss.slot (s.env h).g.ctx x.1 x.2) (s.beginIssue h)

theorem State.sizeselRead_iss (s : State) (h : Hdr) (f : CF) : (s.sizeselRead h f).iss = s.iss :=
  (foldl_iss (fun t _ => t.recordRead_iss _ _ _ _ _) _ _).trans (SetFrame.beginIssue s h).iss

/-- The lanes of the set stand as the advance left them. -/
theorem State.sizeselRead_issGroup (s : State) (h : Hdr) (f : CF) : (s.sizeselRead h f).issGroup = (s.beginIssue h).issGroup := by
  rw [State.issGroup, State.issGroup, State.sizeselRead_iss, (SetFrame.beginIssue s h).iss]
  exact SameGroups.fold (fun t _ => t.recordRead_groups _ _ _ _ _) _ _ _ _

/-- What the participating lanes do with the record: its fault is theirs, or each takes its own fit. -/
def State.sizeselGo (s : State) (h : Hdr) (f : CF) (u : State) : Except Code (List Byte) → State
  | .error c => (s.active h).foldl (fun t l => t.raise (s.env h) l { code := c, addr := schedAddr (s.env h).words f }) u
  | .ok rec =>
    let r := fun l => sizeFit rec (((s.env h).src32 l f.a).zeroExtend 64) (s.iss.pc + 12) 0 8
    (u.writeD { s.env h with active := s.aligned h fun l => (r l).2 } f.d fun l => [(r l).1]).jump (s.env h) (fun l => (r l).2) none

section
variable (I : Issues s (.sizesel h f)) (ha : s.active h ≠ [])
include I ha

theorem exec_sizesel_reads :
    exec (.sizesel h f) s = .next ((s.beginIssue h).afterRecords (s.env h) (s.sizeselParts h f) fun u =>
      s.sizeselGo h f u (u.schedEntries s.iss.core s.iss.slot (s.env h).g.ctx (schedAddr (s.env h).words f) 0 8)) := by
  refine (issueIf_next I _).trans (congrArg _ ((if_neg (by simpa [State.active] using ha)).trans
    (congrArg (State.afterRecords _ _ _) (funext fun u => ?_))))
  dsimp only
  split <;> next hr => exact (congrArg (s.sizeselGo h f u) hr).symm

/-- The first entry that cannot be read yet holds the whole set (R163, R325). -/
theorem exec_sizesel_waits {x : W64 × Nat} (hx : (s.sizeselParts h f).find? (fun x =>
      (s.beginIssue h).reachWaits s.iss.core s.iss.slot (s.env h).g.ctx x.1 x.2) = some x) :
    exec (.sizesel h f) s = .next ((s.beginIssue h).waitAt (s.env h) s.iss.lanes (.reach x.1 x.2)) := by
  refine (exec_sizesel_reads I ha).trans (congrArg _ ?_)
  rw [State.afterRecords]
  split
  · next hy => cases hx.symm.trans hy; rfl
  · next hy => cases hx.symm.trans hy

theorem exec_sizesel_goes (hx : (s.sizeselParts h f).find? (fun x =>
      (s.beginIssue h).reachWaits s.iss.core s.iss.slot (s.env h).g.ctx x.1 x.2) = none) :
    exec (.sizesel h f) s = .next (s.sizeselGo h f (s.sizeselRead h f)
      ((s.sizeselRead h f).schedEntries s.iss.core s.iss.slot (s.env h).g.ctx (schedAddr (s.env h).words f) 0 8)) := by
  refine (exec_sizesel_reads I ha).trans (congrArg _ ?_)
  rw [State.afterRecords]
  split
  · next hy => cases hx.symm.trans hy
  · rfl

end

/-- What the fits of the lanes do once the record is read. -/
theorem sizesel_jumps (I : Issues s (.sizesel h f)) (r : Nat → W32 × W64) :
    ∃ t, Writes (s.sizeselRead h f) t (s.aligned h fun l => (r l).2) [(f.d, fun l => [(r l).1])] [] ∧
      Continues s t (s.aligned h fun l => (r l).2) (fun l => (r l).2) ∧
      ((s.sizeselRead h f).writeD { s.env h with active := s.aligned h fun l => (r l).2 } f.d fun l => [(r l).1]).jump (s.env h)
        (fun l => (r l).2) none = s.misaligned h (fun l => (r l).2) t := by
  have hi := s.sizeselRead_iss h f
  have hg := s.sizeselRead_issGroup h f
  have hr : LanesIn (s.sizeselRead h f) := by
    intro l hl
    rw [hg, (SetFrame.beginIssue s h).count]
    exact I.lanesIn l (hi ▸ hl)
  have sub : ∀ l ∈ s.aligned h fun l => (r l).2, l ∈ (s.sizeselRead h f).iss.lanes := hi ▸ s.aligned_sub h _
  have C : Continues (s.sizeselRead h f) (s.sizeselRead h f) (s.aligned h fun l => (r l).2) fun _ => (s.sizeselRead h f).iss.pc + 12 := by
    intro l hl
    rw [State.issLane, hg, hi, ite_self]
    exact (computes_begin s h I.lanesIn).advances l (hi ▸ hl)
  have W := Writes.refl (s.sizeselRead h f) (s.aligned h fun l => (r l).2)
  obtain ⟨t, W', C', j⟩ := jump_writes (next := fun l => (r l).2) (W.writeD hr sub
    (e := { s.env h with active := s.aligned h fun l => (r l).2 }) (by rw [hi]; rfl) (by rw [hi]; rfl) rfl f.d fun l => [(r l).1])
    (C.writeD W.toSetFrame hr sub (by rw [hi]; rfl) (by rw [hi]; rfl) rfl f.d _) hi hr none
  refine ⟨t, W', ?_, j⟩
  unfold Continues at C' ⊢
  rwa [hi] at C'

end

/-- Settles O43: SIZESEL waits, fails or jumps by what its record gives, and its fit is the first entry that is not passed over. -/
theorem sizeSelection : Obligations.SizeSelection := by
  unfold Obligations.SizeSelection
  refine ⟨fun s h f I => ⟨fun ha => ?none, fun ha x hx => ?waits, fun ha hx c hc => ?fails, fun ha hx rec hrec => ?fits⟩,
    fun rec x next i hi => ⟨fun hv hf hj => sizeFit_fits hi hj hv hf, fun hv hj => sizeFit_ends hi hj (not_not.1 hv), sizeFit_none⟩⟩
  case none =>
    exact ⟨_, (issueIf_next I _).trans (congrArg _ (if_pos (by simpa [State.active] using ha))), computes_begin s h I.lanesIn⟩
  case waits => exact exec_sizesel_waits I ha hx
  case fails => exact (exec_sizesel_goes I ha hx).trans (congrArg (fun r => Host.Outcome.next (s.sizeselGo h f _ r)) hc)
  case fits =>
    obtain ⟨t, W, C, j⟩ := sizesel_jumps I fun l => sizeFit rec (((s.env h).src32 l f.a).zeroExtend 64) (s.iss.pc + 12) 0 8
    exact ⟨t, W, C, (exec_sizesel_goes I ha hx).trans
      ((congrArg (fun r => Host.Outcome.next (s.sizeselGo h f _ r)) hrec).trans (congrArg _ j))⟩

end Sys2Proof.Machine

/-! PROOFS of the statements of 13_flow_memory_instructions.md: loads (R172, R178, R180, R217, R219, R220, R223, R224). -/

namespace Sys2Proof.Machine

/-! ## Accesses put into a group's queues (R163, R174, R176) -/

theorem mapFrom_add {α β : Type} (f : Nat → α → β) (i j : Nat) (xs : List α) :
    mapFrom (fun k => f (i + k)) j xs = mapFrom f (i + j) xs := by
  induction xs generalizing j with
  | nil => rfl
  | cons x xs ih => simp only [mapFrom, ih, Nat.add_assoc]

def Group.addLoads (rs : List LoadReq) (g : Group) : Group := { g with loads := g.loads ++ rs }

def Group.addStores (qs : List StoreReq) (g : Group) : Group := { g with sq := g.sq ++ qs }

/-- An entry for each lane put into the issuing group's queues under identifiers rising from n, those to one line merged. -/
def State.queued {α : Type} (u : State) (e : Env) (n : Nat) (put : List α → Group → Group) (mk : Nat → Nat → α) (ls : List Nat) : State :=
  { (u.modGroup e.core e.slot fun g => (put (mapFrom (fun k => mk (n + k)) 0 ls) g).merge n) with nextId := n + ls.length }

section
variable {u : State} {e : Env} {ask : Nat → Ask} {pa : Nat → Nat × W64} {ls : List Nat} {go : Nat → Nat → W64 → State → State}

/-- The lanes' loads, where all checks pass. -/
theorem eachLane_loads (hp : ∀ l ∈ ls, Passes u e l (ask l) (pa l)) (mk : Nat → Nat → LoadReq)
    (hgo : ∀ l ∈ ls, ∀ s, go l (pa l).1 (pa l).2 s =
      { (s.modGroup e.core e.slot (Group.addLoads [mk s.nextId l])) with nextId := s.nextId + 1 }) :
    u.eachLane e ls ask go = (u.queued e u.nextId Group.addLoads mk ls, ls) := by
  rw [eachLane_puts Group.addLoads (fun _ => []) mk (fun g => by simp [Group.addLoads]) (fun xs ys g => by simp [Group.addLoads])
    (fun _ _ => rfl) (fun xs g => by simp [Group.addLoads]) u e ask pa ls hp (.inr (by simp)) go hgo]
  refine Prod.ext ?_ rfl
  rw [State.queued, mapFrom_add, Nat.add_zero]
  exact congrArg (fun t : State => { t with nextId := u.nextId + ls.length }) (State.modGroup_modGroup u e.core e.slot _ _)

/-- The lanes' entries of the store queue. -/
theorem eachLane_stores (hp : ∀ l ∈ ls, Passes u e l (ask l) (pa l)) (mk : Nat → Nat → StoreReq)
    (tags : (∀ l ∈ ls, (ask l).tagck = false) ∨ ∀ i l, ∀ x y, (mk i l).kind ≠ .tag x y)
    (hgo : ∀ l ∈ ls, ∀ s, go l (pa l).1 (pa l).2 s =
      { (s.modGroup e.core e.slot (Group.addStores [mk s.nextId l])) with nextId := s.nextId + 1 }) :
    u.eachLane e ls ask go = (u.queued e u.nextId Group.addStores mk ls, ls) := by
  rw [eachLane_puts Group.addStores (fun q => [q]) mk (fun g => by simp [Group.addStores]) (fun xs ys g => by simp [Group.addStores])
    (fun _ _ => rfl) (fun xs g => by simp [Group.addStores]) u e ask pa ls hp
    (tags.imp_right fun h i l _ r hr => by rw [List.mem_singleton.1 hr]; exact h i l) go hgo]
  refine Prod.ext ?_ rfl
  rw [State.queued, mapFrom_add, Nat.add_zero]
  exact congrArg (fun t : State => { t with nextId := u.nextId + ls.length }) (State.modGroup_modGroup u e.core e.slot _ _)

end

theorem beginIssue_nextId (s : State) (h : Hdr) : (s.beginIssue h).nextId = s.nextId :=
  (congrArg State.nextId (SetFrame.beginIssue s h).rest :)

/-! ## Loads issue (R217, R219, R220, R223) -/

section
variable {s : State} {h : Hdr} {f : MF} {pa : Nat → Nat} {pte : Nat → W64}

/-- The access that a lane of the issue makes, under an identifier. -/
def State.laneAccess (s : State) (h : Hdr) (f : MF) (pa : Nat → Nat) (pte : Nat → W64) (id l : Nat) : Access where
  id := id
  lane := l
  ctx := (s.env h).g.ctx
  va := (s.env h).va l f
  pa := pa l
  pc := s.iss.pc
  scope := f.scope
  order := f.order
  policy := f.policy
  tagck := (pte l).getLsbD 50
  rdc := (pte l).getLsbD 51

/-- The load of a lane, at a scope and with an order. -/
def State.laneLoad (s : State) (h : Hdr) (f : MF) (pa : Nat → Nat) (pte : Nat → W64) (sc : Scope) (o : Order) (id l : Nat) : LoadReq where
  acc := { s.laneAccess h f pa pte id l with scope := sc, order := o }
  bytes := f.size.bytes
  dst := (s.env h).dest l f.d f.size.regs f.size.bytes f.sext

def State.laneTagLoad (s : State) (h : Hdr) (f : MF) (pa : Nat → Nat) (pte : Nat → W64) (id l : Nat) : LoadReq where
  acc := s.laneAccess h f pa pte id l
  bytes := 1
  dst := (s.env h).dest l f.d 1 4 false
  tag := true

/-- The listed lanes' translations are held, and their checks pass (log 10). -/
def State.Passing (s : State) (h : Hdr) (pa : Nat → Nat) (pte : Nat → W64) (q : Nat → Ask) (ls : List Nat) : Prop :=
  ∀ l ∈ ls, (((s.beginIssue h).core s.iss.core).leaf (s.env h).g.ctx (q l).va).isSome = true ∧
    ((s.beginIssue h).check (s.env h) l { q l with later := true }).1 = .ok (pa l, pte l)

theorem State.Passing.passes {q : Nat → Ask} {ls : List Nat} (hp : s.Passing h pa pte q ls) (old : ∀ l, (q l).old = []) :
    ∀ l ∈ ls, Passes (s.beginIssue h) (s.env h) l (q l) (pa l, pte l) := fun l hl => ⟨(hp l hl).1, old l, (hp l hl).2⟩

theorem loadLanes_queues {sc : Scope} {o : Order} {ls : List Nat}
    (hp : s.Passing h pa pte (fun l => loadAsk ((s.env h).va l f) f.size.bytes sc) ls) :
    (s.beginIssue h).loadLanes (s.env h) ls f sc o = ((s.beginIssue h).queued (s.env h) s.nextId Group.addLoads
      (s.laneLoad h f pa pte sc o) ls).acquired (s.env h) o ls := by
  refine (congrArg (fun p : State × List Nat => p.1.acquired (s.env h) o p.2)
    (eachLane_loads (hp.passes fun _ => rfl) (s.laneLoad h f pa pte sc o) ?_)).trans (by rw [beginIssue_nextId])
  exact fun _ _ _ => rfl

theorem exec_ld_queues (I : Issues s (.ld h f))
    (hp : s.Passing h pa pte (fun l => loadAsk ((s.env h).va l f) f.size.bytes f.scope) (s.active h)) :
    exec (.ld h f) s = .next (((s.beginIssue h).queued (s.env h) s.nextId Group.addLoads
      (s.laneLoad h f pa pte f.scope f.order) (s.active h)).acquired (s.env h) f.order (s.active h)) :=
  (issueIf_next I _).trans (congrArg _ (loadLanes_queues hp))

theorem exec_ldc_queues (I : Issues s (.ldc h f))
    (hp : s.Passing h pa pte (fun l => loadAsk ((s.env h).va l f) f.size.bytes .c) (s.active h)) :
    exec (.ldc h f) s = .next ((s.beginIssue h).queued (s.env h) s.nextId Group.addLoads
      (s.laneLoad h f pa pte .c .relaxed) (s.active h)) :=
  (issueIf_next I _).trans (congrArg _ (loadLanes_queues hp))

theorem exec_lds_queues (I : Issues s (.lds h f))
    (hp : s.Passing h pa pte (fun l => loadAsk ((s.env h).va l f) f.size.bytes f.scope) ((s.active h).take 1)) :
    exec (.lds h f) s = .next (((s.beginIssue h).queued (s.env h) s.nextId Group.addLoads
      (s.laneLoad h f pa pte f.scope f.order) ((s.active h).take 1)).acquired (s.env h) f.order
        ((s.active h).take 1)) := (issueInk_next I _).trans (congrArg _ (loadLanes_queues hp))

theorem exec_ldtag_queues (I : Issues s (.ldtag h f))
    (hp : s.Passing h pa pte (fun l => { va := (s.env h).va l f, bytes := 1, need := { r := true } }) (s.active h)) :
    exec (.ldtag h f) s = .next (((s.beginIssue h).queued (s.env h) s.nextId Group.addLoads
      (s.laneTagLoad h f pa pte) (s.active h)).acquired (s.env h) f.order (s.active h)) := by
  refine (issueInk_next I _).trans (congrArg _ ((congrArg (fun p : State × List Nat => p.1.acquired (s.env h) f.order p.2)
    (eachLane_loads (hp.passes fun _ => rfl) (s.laneTagLoad h f pa pte) ?_)).trans (by rw [beginIssue_nextId])))
  exact fun _ _ _ => rfl

end

/-! ## Where the bytes of a load come from (R180, R194) -/

theorem valueOf_values (bs : List Byte) : valueOf (bs.map Fwd.value) (List.replicate bs.length 0) = ofBytes bs := by
  unfold valueOf
  congr 1
  induction bs with
  | nil => rfl
  | cons b bs ih => exact congrArg (b :: ·) ih

theorem valueOf_memory {n : Nat} {bs : List Byte} (h : bs.length ≤ n) : valueOf (List.replicate n .memory) bs = ofBytes bs := by
  unfold valueOf
  congr 1
  induction bs generalizing n with
  | nil => simp
  | cons b bs ih =>
    cases n with
    | zero => simp at h
    | succ n => exact congrArg (b :: ·) (ih (Nat.le_of_succ_le_succ h))

@[simp] theorem bytes_length (s : State) (pa n : Nat) : (s.bytes pa n).length = n := by simp [State.bytes]

section
variable {s : State} {c n : Nat} {r : LoadReq}

/-- The group's own stores give every byte. -/
theorem State.fwds_values {sq : List StoreReq} {id pa k : Nat} {line : Bool} {bs : List Byte}
    (hs : ∀ p ∈ rangeFrom pa k, s.inSlot p = false) (h : (rangeFrom pa k).map (fun p => fwdByte sq id p line) = bs.map Fwd.value) :
    s.fwds sq id pa k line = bs.map Fwd.value := by
  rw [← h]
  exact List.map_congr_left fun p hp => if_neg (Bool.eq_false_iff.1 (hs p hp))

/-- No store of the group that acts on them overlaps the bytes. -/
theorem State.fwds_memory {sq : List StoreReq} {id pa k : Nat} {line : Bool}
    (h : ∀ p ∈ rangeFrom pa k, fwdByte sq id p line = .memory ∨ s.inSlot p = true) :
    s.fwds sq id pa k line = List.replicate k .memory := by
  refine List.eq_replicate_iff.2 ⟨by simp [State.fwds], fun b hb => ?_⟩
  obtain ⟨p, hp, rfl⟩ := List.mem_map.1 hb
  rcases h p hp with h | h
  · rw [h, ite_self]
  · rw [if_pos h]

/-- The load's turn has come: it is queued, and the earlier loads and atomics with a result of its group are performed (R180). -/
def State.LoadTurn (s : State) (c n : Nat) (r : LoadReq) : Prop := (s.group c n).loadTurn r.acc.id = true ∧ r.acc.stage = .queued

/-- The load has bytes, and its group's stores give none of them. -/
def State.LoadClear (s : State) (c n : Nat) (r : LoadReq) : Prop :=
  0 < r.bytes ∧ ∀ p ∈ rangeFrom r.acc.pa r.bytes, fwdByte (s.group c n).sq r.acc.id p r.tag = .memory ∨ s.inSlot p = true

/-- The bit of its page's entry that a load carries to the caches. -/
def Access.pte (a : Access) : W64 := if a.rdc then 0x0008_0000_0000_0000 else 0

/-- The nearer cache that serves the load: none serves LDTAG (R223). -/
def State.loadLine (s : State) (c : Nat) (r : LoadReq) : Option CLine :=
  if r.tag then none else s.nearLine c r.acc.scope r.acc.pa r.bytes r.acc.pte

/-- The load may fill the L1. -/
def State.loadFills (s : State) (c : Nat) (r : LoadReq) : Bool := (s.fills c r.acc.scope r.acc.policy r.acc.pa r.acc.pte).1

theorem State.serveLoad_waits (ht : ¬s.LoadTurn c n r) : s.serveLoad c n r = s := by
  refine if_pos ?_
  simp only [State.LoadTurn, not_and_or, Bool.not_eq_true] at ht
  rcases ht with ht | ht
  · simp [ht]
  · simp [ht]

theorem State.serveLoad_own (ht : s.LoadTurn c n r) (hl : r.tag = false) {bs : List Byte}
    (hs : ∀ p ∈ rangeFrom r.acc.pa r.bytes, s.inSlot p = false)
    (h : (rangeFrom r.acc.pa r.bytes).map (fun p => fwdByte (s.group c n).sq r.acc.id p false) = bs.map Fwd.value) :
    s.serveLoad c n r = s.loadDone c n r (ofBytes bs) := by
  have len : r.bytes = bs.length := by simpa using congrArg List.length h
  have own := State.fwds_values hs (hl ▸ h)
  unfold State.serveLoad
  simp only [own]
  rw [if_neg (by simp [ht.1, ht.2, Fwd.waits]), if_pos (by simp [hl]), len, valueOf_values]

/-- The packet that asks another die for a load (Table 19-4). -/
def LoadReq.packet (r : LoadReq) : Pkt where
  op := if r.tag then 0x0C else 0x01
  src := 0
  dst := 0
  scope := r.acc.scope
  order := r.acc.order
  tag := ptrTag r.acc.va
  policy := r.acc.policy
  ctx := r.acc.ctx
  aop := if r.tag then 0 else readSectors (r.acc.block r.bytes)
  addr := if r.tag then r.acc.pa / 64 * 64 else r.acc.pa / 128 * 128

/-- The load waits for the reply to its packet, with the identifier at which it was asked for. -/
def State.loadSent (u : State) (c n : Nat) (r : LoadReq) (rid : Nat) : State :=
  ({ u with nextId := u.nextId + 1 } : State).modGroup c n fun k => { k with loads := k.loads.map fun q =>
    if q.acc.id = r.acc.id then { q with acc := { q.acc with stage := .sent rid u.nextId } } else q }

/-- A load homed on another die (R178). -/
def State.askLoad (s : State) (c n : Nat) (r : LoadReq) : State :=
  match s.request (dieOf c) (.load c n r.acc.id) r.packet [] with
  | none => s.loadFail c n r cREMOTE
  | some (rid, u) => u.loadSent c n r rid

/-- What serves a load whose bytes its group's stores do not give: a nearer cache that holds its line, or its home. -/
def State.serveBeyond (s : State) (c n : Nat) (r : LoadReq) : Option CLine → State
  | some x =>
    match s.loadFault r (x.metaAt r.acc.pa) (poisonOf (x.metaAt r.acc.pa)) with
    | some code => s.loadFail c n r code
    | none => (s.servedNear c r.acc.scope r.acc.policy x (s.loadFills c r)).loadDone c n r
        (ofBytes ((x.data.drop (r.acc.pa % 128)).take r.bytes))
  | none => if homeDie r.acc.pa = dieOf c then s.serveHome c n r (List.replicate r.bytes .memory) (s.loadFills c r) else s.askLoad c n r

theorem State.serveBeyond_near {x : CLine} (hf : s.loadFault r (x.metaAt r.acc.pa) (poisonOf (x.metaAt r.acc.pa)) = none) :
    s.serveBeyond c n r (some x) = (s.servedNear c r.acc.scope r.acc.policy x (s.loadFills c r)).loadDone c n r
      (ofBytes ((x.data.drop (r.acc.pa % 128)).take r.bytes)) := by simp only [State.serveBeyond, hf]

theorem State.serveBeyond_nearFails {x : CLine} {code : Code}
    (hf : s.loadFault r (x.metaAt r.acc.pa) (poisonOf (x.metaAt r.acc.pa)) = some code) :
    s.serveBeyond c n r (some x) = s.loadFail c n r code := by simp only [State.serveBeyond, hf]

theorem State.serveLoad_beyond (ht : s.LoadTurn c n r) (hc : s.LoadClear c n r) :
    s.serveLoad c n r = s.serveBeyond c n r (s.loadLine c r) := by
  unfold State.serveLoad
  simp only [State.fwds_memory hc.2]
  rw [if_neg (by simp [ht.1, ht.2, Fwd.waits]), if_neg (by simp [hc.1.ne'])]
  unfold State.serveBeyond State.loadLine
  split
  · simp only [Access.pte, *]
    rw [valueOf_memory (by simp)]
    rfl
  · simp only [Access.pte, *]
    refine if_congr Iff.rfl rfl ?_
    unfold State.askLoad State.loadSent
    simp only [beq_iff_eq]
    rfl

/-! ## A load at its home on the core's own die (R172, R175, R325, R326) -/

section
variable {fw : List Fwd} {l1 : Bool}

theorem State.serveHome_held (hh : s.held r.acc.pa = true) (hm : s.homeHit r.acc.pa (if r.tag then 1 else r.bytes) = false) :
    s.serveHome c n r fw l1 = if s.overdue (stackOf r.acc.pa) then s.loadFail c n r cTHERM else s := if_pos (by simp [hh, hm])

section
variable (hh : s.held r.acc.pa = true → s.homeHit r.acc.pa (if r.tag then 1 else r.bytes) = true)
include hh

theorem State.serveHome_reached : ¬(s.held r.acc.pa && !s.homeHit r.acc.pa (if r.tag then 1 else r.bytes)) = true := by
  simpa using hh

theorem State.serveHome_tag (hl : r.tag = true) : s.serveHome c n r fw l1 =
    (s.homeLoad r.acc.pa 1 r.acc.policy).loadDone c n r ((s.homeLoad r.acc.pa 1 r.acc.policy).metaAt r.acc.pa).toNat :=
  (if_neg (State.serveHome_reached hh)).trans (if_pos hl)

theorem State.serveHome_fails (hl : r.tag = false) {code : Code}
    (hf : s.loadFault r (s.metaAt r.acc.pa) (s.bad r.acc.pa r.bytes) = some code) :
    s.serveHome c n r fw l1 = (if code = cECC then s.readArray r.acc.pa r.bytes else s).loadFail c n r code := by
  refine (if_neg (State.serveHome_reached hh)).trans ((if_neg (Bool.eq_false_iff.1 hl)).trans ?_)
  rw [hf]

theorem State.serveHome_tagFails (hl : r.tag = false) (hf : s.loadFault r (s.metaAt r.acc.pa) (s.bad r.acc.pa r.bytes) = some cTAG) :
    s.serveHome c n r fw l1 = s.loadFail c n r cTAG :=
  (State.serveHome_fails hh hl hf).trans (congrArg (fun t : State => t.loadFail c n r cTAG) (if_neg (by decide)))

theorem State.serveHome_eccFails (hl : r.tag = false) (hf : s.loadFault r (s.metaAt r.acc.pa) (s.bad r.acc.pa r.bytes) = some cECC) :
    s.serveHome c n r fw l1 = (s.readArray r.acc.pa r.bytes).loadFail c n r cECC :=
  (State.serveHome_fails hh hl hf).trans (congrArg (fun t : State => t.loadFail c n r cECC) (if_pos rfl))

theorem State.serveHome_loads (hl : r.tag = false) (hf : s.loadFault r (s.metaAt r.acc.pa) (s.bad r.acc.pa r.bytes) = none) :
    let u := (s.homeLoadIn r.acc.pa r.bytes (r.acc.block r.bytes) r.acc.policy).serveFarther c (r.acc.pa / 128)
    s.serveHome c n r fw l1 = (u.fillNear c (u.lineOf (dieOf c) (r.acc.pa / 128) (r.acc.block r.bytes)) l1 false r.acc.policy
      u.nextId).loadDone c n r (valueOf fw (u.bytes r.acc.pa r.bytes)) := by
  refine (if_neg (State.serveHome_reached hh)).trans ((if_neg (Bool.eq_false_iff.1 hl)).trans ?_)
  rw [hf]

end
end
end

/-! ## A load is complete (R178, R202, R273) -/

theorem ofBytes_bytesOf (n x : Nat) : ofBytes (bytesOf n x) = x % 2 ^ (8 * n) := by
  induction n generalizing x with
  | zero => simp [bytesOf, ofBytes, Nat.mod_one]
  | succ n ih =>
    rw [bytesOf, ofBytes, ih, BitVec.toNat_ofNat, Nat.shiftRight_eq_div_pow, show 8 * (n + 1) = 8 + 8 * n by omega, Nat.pow_add,
      Nat.mod_mul]

/-- What the arrival of a value does to the group (R202). -/
def Group.arrive (g : Group) (lane : Nat) (d : Dest) (x : Nat) (ok : Bool) : Group :=
  if (g.lane lane).exited then g
  else
    let g := if d.scalar then g.wss d.reg (d.regs x)
      else { g with lanes := listModify g.lanes lane fun l => l.wvs d.reg (d.regs x) }
    match d.pred with
    | some p => { g with lanes := listModify g.lanes lane fun l => l.setPred p ok }
    | none => g

theorem State.arrive_eq (s : State) (c n lane : Nat) (d : Dest) (x : Nat) (ok : Bool) :
    s.arrive c n lane d x ok = s.modGroup c n fun g => g.arrive lane d x ok := rfl

theorem wss_queues (g : Group) (m : Nat) (ws : List W32) : (g.wss m ws).loads = g.loads ∧ (g.wss m ws).sq = g.sq := by
  rw [wss_lanes]
  exact ⟨rfl, rfl⟩

/-- An arrival leaves the queues alone. -/
theorem Group.arrive_queues (g : Group) (lane : Nat) (d : Dest) (x : Nat) (ok : Bool) :
    (g.arrive lane d x ok).loads = g.loads ∧ (g.arrive lane d x ok).sq = g.sq := by
  unfold Group.arrive
  split
  · exact ⟨rfl, rfl⟩
  · cases d.scalar with
    | true => cases d.pred <;> exact wss_queues g _ _
    | false => cases d.pred <;> exact ⟨rfl, rfl⟩

theorem Group.lane_arrive {g : Group} {lane : Nat} {d : Dest} (hl : lane < g.lanes.length) (he : (g.lane lane).exited = false)
    (hs : d.scalar = false) (hp : d.pred = none) (x : Nat) (ok : Bool) :
    (g.arrive lane d x ok).lane lane = (g.lane lane).wvs d.reg (d.regs x) := by
  unfold Group.arrive
  rw [if_neg (by simp [he]), hs, hp]
  simp only [Bool.false_eq_true, if_false, Group.lane, listModify_get, if_true, List.getElem?_eq_getElem hl, Option.map_some,
    Option.getD_some]

section
variable (s : State)

theorem State.accessEnded_groups (c slot id lane : Nat) (pc : W64) (data : Bool) : SameGroups s (s.accessEnded c slot id lane pc data) :=
  s.modCore_groups c _ fun _ => rfl

theorem State.emptyL1_groups (c : Nat) : SameGroups s (s.emptyL1 c) := s.modCore_groups c _ fun _ => rfl

theorem State.acquire_groups (c : Nat) (sc : Scope) : SameGroups s (s.acquire c sc) := by
  have l1 : SameGroups s (if 3 ≤ Scope.rank sc then s.emptyL1 c else s) := by
    split
    · exact s.emptyL1_groups c
    · exact .refl s
  unfold State.acquire
  dsimp only
  split
  · exact l1
  · exact l1

@[simp] theorem State.acquire_mem (c : Nat) (sc : Scope) : (s.acquire c sc).mem = s.mem := by
  unfold State.acquire
  dsimp only
  split <;> split <;> rfl

@[simp] theorem State.softAccess_mem (pa n : Nat) : (s.softAccess pa n).mem = s.mem := by
  unfold State.softAccess
  split <;> rfl

theorem State.softAccess_cores (pa n : Nat) : (s.softAccess pa n).cores = s.cores := by
  unfold State.softAccess
  split <;> rfl

theorem State.softRead_cores (pa : Nat) (bs : List Byte) : (s.softRead pa bs).2.cores = s.cores := by
  unfold State.softRead
  dsimp only
  split <;> exact s.softAccess_cores _ _

theorem State.softRead_mem (pa : Nat) (bs : List Byte) : (s.softRead pa bs).2.mem = s.mem := by
  unfold State.softRead
  dsimp only
  split <;> exact s.softAccess_mem _ _

/-- The value of a load's bytes as software reads them. -/
theorem State.softRead_value (pa n x : Nat) : ofBytes (s.softRead pa (bytesOf n x)).1 =
    if ∃ k ∈ s.launches, s.osumMeets k pa n = true then ofBytes ((upto n).map fun i => Config.freeByte (s.free + i))
    else x % 2 ^ (8 * n) := by
  unfold State.softRead
  simp only [bytesOf_length, State.inOsum, List.any_eq_true]
  split
  · rfl
  · exact ofBytes_bytesOf n x

end

section
variable (s : State) (c n : Nat) (r : LoadReq) (x : Nat)

/-- The value that a completed load gives its lane. -/
def State.loadedValue : Nat := ofBytes (s.softRead r.acc.pa (bytesOf r.bytes x)).1

/-- What a completed load does to its group: it leaves the list, and its value arrives. -/
def State.loadedGroup (g : Group) : Group :=
  ({ g with loads := g.loads.filter fun q => q.acc.id != r.acc.id } : Group).arrive r.acc.lane r.dst (s.loadedValue r x) true

theorem State.loadDone_mem : (s.loadDone c n r x).mem = s.mem := by
  unfold State.loadDone
  dsimp only
  split
  · exact (State.acquire_mem ..).trans (s.softRead_mem _ _)
  · exact s.softRead_mem _ _

theorem State.group_loadDone : (s.loadDone c n r x).group c n = (((s.core c).groups.find n).map (s.loadedGroup r x)).getD {} := by
  have done : SameGroups (((s.softRead r.acc.pa (bytesOf r.bytes x)).2.accessEnded c n r.acc.id r.acc.lane r.acc.pc true).modGroup c n
      (s.loadedGroup r x)) (s.loadDone c n r x) := by
    unfold State.loadDone
    dsimp only
    rw [State.arrive_eq, State.modGroup_modGroup]
    split
    · exact State.acquire_groups _ _ _
    · exact .refl _
  have core : (((s.softRead r.acc.pa (bytesOf r.bytes x)).2.accessEnded c n r.acc.id r.acc.lane r.acc.pc true).core c).groups =
      (s.core c).groups := by
    rw [State.accessEnded, State.core_modCore, State.core, s.softRead_cores]
    rfl
  rw [done, State.group_modGroup, core]

/-- The loads that remain are those under other identifiers. -/
theorem State.mem_loads_loadDone (q : LoadReq) :
    q ∈ ((s.loadDone c n r x).group c n).loads ↔ q ∈ (s.group c n).loads ∧ q.acc.id ≠ r.acc.id := by
  rw [State.group_loadDone, State.group]
  cases (s.core c).groups.find n with
  | none => exact ⟨fun h => (List.not_mem_nil h).elim, fun h => (List.not_mem_nil h.1).elim⟩
  | some g =>
    rw [Option.map_some, Option.getD_some, Option.getD_some, State.loadedGroup, (Group.arrive_queues _ _ _ _ _).1, List.mem_filter,
      bne_iff_ne]

theorem State.lane_loadDone (hg : ((s.core c).groups.find n).isSome = true) (hl : r.acc.lane < (s.group c n).lanes.length)
    (he : ((s.group c n).lane r.acc.lane).exited = false) (hs : r.dst.scalar = false) (hp : r.dst.pred = none) :
    ((s.loadDone c n r x).group c n).lane r.acc.lane =
      ((s.group c n).lane r.acc.lane).wvs r.dst.reg (r.dst.regs (s.loadedValue r x)) := by
  obtain ⟨g, hg⟩ := Option.isSome_iff_exists.1 hg
  have eg : s.group c n = g := by rw [State.group, hg, Option.getD_some]
  rw [eg] at hl he ⊢
  rw [State.group_loadDone, hg, Option.map_some, Option.getD_some]
  exact Group.lane_arrive (g := { g with loads := g.loads.filter fun q => q.acc.id != r.acc.id }) hl he hs hp _ _

end

section
variable {s : State} {c n i : Nat} {r : LoadReq}

theorem exec_loadDataReturn_none (hr : (s.group c n).loads[i]? = none) : exec (.loadDataReturn c n i) s = .next s := by
  rw [exec_loadDataReturn, execLoadDataReturn, hr]

theorem exec_loadDataReturn_serves (hr : (s.group c n).loads[i]? = some r) :
    exec (.loadDataReturn c n i) s = .next (s.serveLoad c n r) := by
  rw [exec_loadDataReturn, execLoadDataReturn, hr]

theorem State.askLoad_fails (h : s.request (dieOf c) (.load c n r.acc.id) r.packet [] = none) :
    s.askLoad c n r = s.loadFail c n r cREMOTE := by rw [State.askLoad, h]

theorem State.askLoad_sends {rid : Nat} {u : State} (h : s.request (dieOf c) (.load c n r.acc.id) r.packet [] = some (rid, u)) :
    s.askLoad c n r = u.loadSent c n r rid := by rw [State.askLoad, h]

end

/-- Settles O30: the issue puts the lanes' loads into the group's list, and each way to serve a load is a branch of `serveLoad`. -/
theorem loads : Obligations.Loads := by
  unfold Obligations.Loads
  refine ⟨fun s h f pa pte => ⟨exec_ld_queues, exec_ldc_queues, exec_lds_queues, exec_ldtag_queues⟩,
    fun s c n i => exec_loadDataReturn_none, fun s c n i r hr => ?served, fun s c n x r => ?done⟩
  case served =>
    intro g a pte fill line size turn clear ends gives home ask
    have serve {t : State} (h : s.serveLoad c n r = t) : ends t := (exec_loadDataReturn_serves hr).trans (congrArg _ h)
    have beyond {t : State} {near : Option CLine} (ht : turn) (hc : clear) (hn : s.loadLine c r = near)
        (h : s.serveBeyond c n r near = t) : ends t := serve ((State.serveLoad_beyond ht hc).trans (hn ▸ h))
    have own (hl : r.tag = false) : s.loadLine c r = line := if_neg (by simp [hl])
    have away (hl : r.tag = true ∨ line = none) : s.loadLine c r = none := by
      cases hr : r.tag with
      | true => exact if_pos hr
      | false => exact (own hr).trans (hl.resolve_left (by simp [hr]))
    have atHome {t : State} (ht : turn) (hc : clear) (hl : r.tag = true ∨ line = none) (hd : homeDie a.pa = dieOf c)
        (h : s.serveHome c n r (List.replicate r.bytes .memory) (s.loadFills c r) = t) : ends t :=
      beyond ht hc (away hl) ((if_pos hd).trans h)
    refine ⟨fun h => serve (State.serveLoad_waits h), fun ht hl hs bs h => serve (State.serveLoad_own ht hl hs h),
      fun ht hc hl x hx => ⟨fun hf => beyond ht hc ((own hl).trans hx) (State.serveBeyond_near hf),
        fun code hf => beyond ht hc ((own hl).trans hx) (State.serveBeyond_nearFails hf)⟩,
      fun ht hc hl hn hh hf => atHome ht hc (.inr hn) hh.1 ?_,
      fun ht hc hl hn hh hf => atHome ht hc (.inr hn) hh.1 (State.serveHome_tagFails hh.2 hl hf),
      fun ht hc hl hn hh hf => atHome ht hc (.inr hn) hh.1 (State.serveHome_eccFails hh.2 hl hf),
      fun ht hc hl hd hh hm => atHome ht hc hl hd (State.serveHome_held hh hm),
      fun ht hc hl hh => atHome ht hc (.inl hl) hh.1 (State.serveHome_tag hh.2 hl),
      fun ht hc hl hd => ⟨fun hq => beyond ht hc (away hl) ((if_neg hd).trans (State.askLoad_fails hq)),
        fun rid u hq => beyond ht hc (away hl) ((if_neg hd).trans (State.askLoad_sends hq))⟩⟩
    refine (State.serveHome_loads hh.2 hl hf).trans ?_
    rw [valueOf_memory (by simp)]
    rfl
  case done =>
    refine ⟨fun q hq => ((s.mem_loads_loadDone c n r x q).1 hq).2, fun a => ?_,
      fun q hq hi => (s.mem_loads_loadDone c n r x q).2 ⟨hq, hi⟩, fun hg hl he hs hp => ?_⟩
    · rw [State.byte, s.loadDone_mem]
      rfl
    · rw [s.lane_loadDone c n r x hg hl he hs hp, State.loadedValue, s.softRead_value]

end Sys2Proof.Machine

/-! PROOFS of the statements of 13_flow_memory_instructions.md: cache instructions, fences and copy batches (R185, R186, R221, R222, R229
to R231). -/

namespace Sys2Proof.Machine

/-! ## What follows the lanes' loads, or a release (R182, R185, R222) -/

section
variable {s : State} {e : Env} {ls : List Nat} {sc : Scope} {k : State → State}

theorem State.afterLoads_goes (h : ls.all (fun l => (s.group e.core e.slot).loadsDone l) = true) : s.afterLoads e ls k = k s := if_pos h

theorem State.afterLoads_waits (h : ¬ls.all (fun l => (s.group e.core e.slot).loadsDone l) = true) :
    s.afterLoads e ls k = s.waitAt e ls .loads := if_neg h

/-- The mark up to which the lanes' release waits: the one at which they wait already, else the present. -/
def State.releaseMark (s : State) (e : Env) (sc : Scope) (ls : List Nat) : Nat := (drainMark e sc ls).getD s.nextId

theorem State.released_goes (h : ls = [] ∨ s.drained e.core e.slot sc (s.releaseMark e sc ls) = true) : s.released e sc ls k = k s :=
  if_pos (by simpa [State.releaseMark] using h)

theorem State.released_waits (hl : ls ≠ []) (h : ¬s.drained e.core e.slot sc (s.releaseMark e sc ls) = true) :
    s.released e sc ls k = s.waitAt e ls (.drain sc (s.releaseMark e sc ls)) :=
  if_neg (by simpa [State.releaseMark, hl] using h)

end

section
variable {s : State} {h : Hdr} {f : MF} {i : Instr} {k : State → State}

/-- An instruction that a set without a participating lane passes over. -/
theorem issueInk_some (I : Issues s i) (ha : s.active h ≠ []) (body : Env → State → State) :
    s.issueInk i h (fun e s => if e.active.isEmpty then s else body e s) = .next (body (s.env h) (s.beginIssue h)) :=
  (issueInk_next I _).trans (congrArg _ (if_neg (by simpa [State.active] using ha)))

/-- What waits for the loads of the participating lanes. -/
theorem loads_first (hx : exec i s = .next ((s.beginIssue h).afterLoads (s.env h) (s.active h) k)) :
    ((s.active h).all (fun l => ((s.beginIssue h).group s.iss.core s.iss.slot).loadsDone l) = true → exec i s = .next (k (s.beginIssue h))) ∧
    (¬(s.active h).all (fun l => ((s.beginIssue h).group s.iss.core s.iss.slot).loadsDone l) = true →
      exec i s = .next ((s.beginIssue h).waitAt (s.env h) (s.active h) .loads)) :=
  ⟨fun hl => hx.trans (congrArg _ (State.afterLoads_goes hl)), fun hl => hx.trans (congrArg _ (State.afterLoads_waits hl))⟩

/-- What waits for the group's earlier accesses. -/
theorem release_first {sc : Scope} (ha : s.active h ≠ []) (hx : exec i s = .next ((s.beginIssue h).released (s.env h) sc (s.active h) k)) :
    let drained := (s.beginIssue h).drained s.iss.core s.iss.slot sc ((drainMark (s.env h) sc (s.active h)).getD (s.beginIssue h).nextId) = true
    (drained → exec i s = .next (k (s.beginIssue h))) ∧
    (¬drained → exec i s = .next ((s.beginIssue h).waitAt (s.env h) (s.active h)
      (.drain sc ((drainMark (s.env h) sc (s.active h)).getD (s.beginIssue h).nextId)))) :=
  ⟨fun hd => hx.trans (congrArg _ (State.released_goes (.inr hd))), fun hd => hx.trans (congrArg _ (State.released_waits ha hd))⟩

end

/-! ## FENCEX and FENCEP (R186, R229, R230) -/

/-- A FENCEX starts: the caches within its scope are emptied, and it waits for the stores marked within it, if there are any (log 70). -/
def State.startFencex (u : State) (e : Env) (f : MF) : State :=
  if (u.fenceoMarks e.core f.scope).isEmpty then (u.emptyWithin e.core f.scope).acquire e.core f.scope
  else (u.emptyWithin e.core f.scope).waitAt e e.active (.cores (u.fenceoMarks e.core f.scope))

/-- The sticky bits that a FENCEP reads for a lane (R230). -/
def State.stickyOf (s : State) (e : Env) (f : MF) (l : Nat) : W32 :=
  ((s.context e.g.ctx).getD {}).stickyWord ((e.src32 l f.b).toNat / 32 * 32)

/-- A FENCEP that reads its bits, once it has acquired. -/
def State.readSticky (s : State) (e : Env) (f : MF) : State := (s.acquire e.core .s).writeD e f.d fun l => [s.stickyOf e f l]

/-- The sticky bits that a FENCEP clears: those that it has read (R230). -/
def State.clearSticky (s : State) (e : Env) (f : MF) (t : State) : State :=
  t.modContext e.g.ctx fun x => { x with sticky := x.sticky.filter fun r => !(e.active.any fun l =>
    let base := (e.src32 l f.b).toNat / 32 * 32
    base ≤ r && r < base + 32 && (s.stickyOf e f l).getLsbD (r - base)) }

theorem SMap.modify_congr {α : Type} {m : SMap α} {i : Nat} {f g : α → α} (h : ∀ x, m.find i = some x → f x = g x) :
    m.modify i f = m.modify i g := by
  unfold SMap.modify
  split
  · next x hx => rw [h x hx]
  · rfl

theorem State.acquire_contexts (s : State) (c : Nat) (sc : Scope) : (s.acquire c sc).contexts = s.contexts := by
  unfold State.acquire
  dsimp only
  split <;> split <;> rfl

theorem State.writeD_contexts (s : State) (e : Env) (d : Opnd) (val : Nat → List W32) : (s.writeD e d val).contexts = s.contexts := by
  unfold State.writeD
  cases d with
  | k r => rfl
  | s r => cases e.active <;> rfl
  | v r =>
    dsimp only
    generalize e.active = ls
    induction ls generalizing s with
    | nil => rfl
    | cons l ls ih => exact ih _

section
variable {s : State} {h : Hdr} {f : MF}

theorem exec_fencex_eq (I : Issues s (.fencex h f)) (ha : s.active h ≠ []) : exec (.fencex h f) s = .next
    (if (s.env h).begun then (s.beginIssue h).acquire s.iss.core f.scope
     else (s.beginIssue h).released (s.env h) f.scope (s.active h) fun u => u.startFencex (s.env h) f) :=
  issueInk_some I ha _

/-- What FENCEP does once its release is done. -/
def State.fencepGo (u : State) (e : Env) (f : MF) : State :=
  if f.mod.getLsbD 0 then u.clearSticky e f (u.readSticky e f) else u.readSticky e f

/-- The bits that FENCEP clears are those that it has read: an acquire and a write of registers leave the context alone. -/
theorem State.fencepGo_eq (u : State) (e : Env) (f : MF) : u.fencepGo e f =
    let s := u.acquire e.core .s
    let x := (s.context e.g.ctx).getD {}
    let base := fun l => (e.src32 l f.b).toNat / 32 * 32
    let s := s.writeD e f.d fun l => [x.stickyWord (base l)]
    if f.mod.getLsbD 0 then
      s.modContext e.g.ctx fun x => { x with sticky := x.sticky.filter fun r => !(e.active.any fun l =>
        base l ≤ r && r < base l + 32 && (x.stickyWord (base l)).getLsbD (r - base l)) }
    else s := by
  have kept : (u.acquire e.core .s).context e.g.ctx = u.context e.g.ctx := by rw [State.context, State.acquire_contexts]; rfl
  unfold State.fencepGo
  dsimp only
  rw [kept]
  refine if_congr Iff.rfl ?_ rfl
  refine congrArg (fun m => ({ u.readSticky e f with contexts := m } : State)) (SMap.modify_congr fun x hx => ?_)
  rw [State.readSticky, State.writeD_contexts, State.acquire_contexts] at hx
  have now : ∀ l, u.stickyOf e f l = x.stickyWord ((e.src32 l f.b).toNat / 32 * 32) := fun l => by
    rw [State.stickyOf, State.context, hx, Option.getD_some]
  simp only [now]

theorem exec_fencep_eq (I : Issues s (.fencep h f)) (ha : s.active h ≠ []) : exec (.fencep h f) s = .next
    (if (s.active h).all fun l => (s.beginIssue h).remoteDone s.iss.core s.iss.slot l (s.beginIssue h).nextId then
       (s.beginIssue h).released (s.env h) .s (s.active h) fun u => u.fencepGo (s.env h) f
     else (s.beginIssue h).waitAt (s.env h) (s.active h) (.remote (s.beginIssue h).nextId)) := by
  refine (issueInk_some I ha _).trans (congrArg _ ?_)
  simp only [Bool.not_eq_true', ← Bool.not_eq_true, ite_not, State.fencepGo_eq]
  rfl

end

/-- Settles O33: each instruction is its body, once what it waits for is there. -/
theorem cacheAndFences : Obligations.CacheAndFences := by
  unfold Obligations.CacheAndFences
  intro s h f e u act c n loaded readable lined all drained drains marks empty remote sticky
  refine ⟨fun I => issueInk_next I _, fun I => loads_first (i := .cctlIl1 h f) (issueInk_next I _),
    fun I => loads_first (i := .cctlIrd h f) (issueInk_next I _), fun I => loads_first (i := .cctlWb h f) (issueInk_next I _),
    fun I ha => loads_first (i := .cctlIl1all h f) (issueInk_some I ha _), fun I ha => loads_first (i := .cctlIrdall h f) (issueInk_some I ha _),
    fun hr I ha => ?fence, fun hr I ha => ?release, fun I ha => issueInk_some I ha _, fun I ha => ?fencex, fun I ha => ?fencep,
    fun I => issueInk_next I _, fun I => issueInk_next I _⟩
  case fence => exact loads_first (i := .fence h f) ((issueInk_some I ha _).trans (congrArg _ (if_neg (Bool.eq_false_iff.1 hr))))
  case release => exact release_first (i := .fence h f) ha ((issueInk_some I ha _).trans (congrArg _ (if_pos hr)))
  case fencex =>
    have begins (hb : e.begun = false) := release_first ha ((exec_fencex_eq I ha).trans (congrArg _ (if_neg (Bool.eq_false_iff.1 hb))))
    refine ⟨fun hb => (exec_fencex_eq I ha).trans (congrArg _ (if_pos hb)), fun hb => (begins hb).2,
      fun hb hd hm => ((begins hb).1 hd).trans (congrArg _ (if_pos (List.isEmpty_iff.2 hm))),
      fun hb hd hm => ((begins hb).1 hd).trans (congrArg _ (if_neg (mt List.isEmpty_iff.1 hm)))⟩
  case fencep =>
    have reads (hr : remote) := release_first ha ((exec_fencep_eq I ha).trans (congrArg _ (if_pos hr)))
    refine ⟨fun hr => (exec_fencep_eq I ha).trans (congrArg _ (if_neg hr)), fun hr => (reads hr).2,
      fun hr hd hm => ((reads hr).1 hd).trans (congrArg _ (if_neg (Bool.eq_false_iff.1 hm))),
      fun hr hd hm => ((reads hr).1 hd).trans (congrArg _ (if_pos hm))⟩

end Sys2Proof.Machine

/-! PROOFS of the statements of 13_flow_memory_instructions.md: ordered sums (R194, R228). -/

namespace Sys2Proof.Machine

/-! ## An ATOMO of a set without lanes -/

/-- A header without a guard. -/
def plainHdr : Hdr := { gneg := false, gpred := 7, pace := 0, cede := false, latchA := false, latchB := false }

/-- The fields of an ATOMO that names no register. -/
def zeroAtomo : MF :=
  { d := .k .zero, a := .k .zero, b := .k .zero, off := 0, size := .b4, scope := .p, policy := .normal, order := .relaxed, sext := false,
    sub := 0, pred := 0, mod := 0x15 }

theorem issues_zeroAtomo : Issues State.reset (.atomo plainHdr zeroAtomo) := ⟨rfl, nofun, by decide⟩

/-- It contributes nothing: the package stays without an entry for the core. -/
theorem exec_zeroAtomo : exec (.atomo plainHdr zeroAtomo) State.reset = .next (State.reset.beginIssue plainHdr) := rfl

theorem beginIssue_reset_cores : (State.reset.beginIssue plainHdr).cores = [] := by decide

/-- Refutes O32: where the package keeps no entry yet for the core of the issue, which a PC set without lanes then may name, ATOMO
changes nothing, while to put its entries (none) into the group's queue, as the statement has it, writes the entry of the core. Its other
clauses are not touched by this, nor is an issue of a set with lanes, whose core has its entry. -/
theorem not_localAndOrdered : ¬Obligations.LocalAndOrdered := by
  unfold Obligations.LocalAndOrdered
  intro ⟨_, atomo, _⟩
  have queues := (atomo State.reset plainHdr zeroAtomo (fun _ => 0) (fun _ => 0) issues_zeroAtomo nofun).1 (by decide)
  rw [exec_zeroAtomo] at queues
  have cores := congrArg State.cores (Host.Outcome.next.inj queues)
  rw [beginIssue_reset_cores] at cores
  exact absurd cores (by decide)

end Sys2Proof.Machine

/-! PROOFS of the statements of 13_flow_memory_instructions.md: stores, atomics and tag writes (R174, R178, R180, R193, R194, R217, R222
to R227). -/

namespace Sys2Proof.Machine

/-! ## Stores issue (R182, R217, R223, R225 to R227) -/

section
variable {s : State} {h : Hdr} {f : MF} {pa : Nat → Nat} {pte : Nat → W64} {q : Nat → Ask} {kind : Nat → StoreKind} {i : Instr}

/-- The store-queue entry of a lane. -/
def State.laneStore (s : State) (h : Hdr) (f : MF) (pa : Nat → Nat) (pte : Nat → W64) (kind : Nat → StoreKind) (id l : Nat) : StoreReq where
  acc := s.laneAccess h f pa pte id l
  kind := kind l

/-- The instruction's release, if it is one, waits for nothing (R182). -/
def State.Released (s : State) (h : Hdr) (o : Order) (sc : Scope) : Prop :=
  isRel o = false ∨ s.active h = [] ∨
    (s.beginIssue h).drained s.iss.core s.iss.slot sc ((drainMark (s.env h) sc (s.active h)).getD s.nextId) = true

theorem State.releaseMark_begin (sc : Scope) :
    (s.beginIssue h).releaseMark (s.env h) sc (s.active h) = (drainMark (s.env h) sc (s.active h)).getD s.nextId := by
  rw [State.releaseMark, beginIssue_nextId]

theorem State.ordered_goes {o : Order} {sc : Scope} {k : State → State} (hr : s.Released h o sc) :
    (s.beginIssue h).ordered (s.env h) o sc (s.active h) k = k (s.beginIssue h) := by
  cases ho : isRel o with
  | false => exact if_neg (Bool.eq_false_iff.1 ho)
  | true =>
    refine (if_pos ho).trans (State.released_goes ?_)
    rw [State.releaseMark_begin]
    exact hr.resolve_left (by simp [ho])

theorem State.ordered_waits {o : Order} {sc : Scope} {k : State → State} (hr : ¬s.Released h o sc) :
    (s.beginIssue h).ordered (s.env h) o sc (s.active h) k =
      (s.beginIssue h).waitAt (s.env h) (s.active h) (.drain sc ((drainMark (s.env h) sc (s.active h)).getD s.nextId)) := by
  simp only [State.Released, not_or] at hr
  obtain ⟨rel, act, late⟩ := hr
  rw [← State.releaseMark_begin] at late ⊢
  exact (if_pos (Bool.not_eq_false _ ▸ rel)).trans (State.released_waits act late)

/-- What a store of the lanes does: it waits as a release, or its entries go to the end of the store queue. -/
theorem storeLanes_issues (hx : exec i s = .next ((s.beginIssue h).storeLanes (s.env h) f q kind))
    (va : ∀ l, (q l).va = (s.env h).va l f) (old : ∀ l, (q l).old = [])
    (tags : (∀ l ∈ s.active h, (q l).tagck = false) ∨ ∀ l, ∀ x y, kind l ≠ .tag x y) :
    (s.Released h f.order f.scope → s.Passing h pa pte q (s.active h) → exec i s =
      .next (((s.beginIssue h).queued (s.env h) s.nextId Group.addStores (s.laneStore h f pa pte kind) (s.active h)).acquired
        (s.env h) f.order (s.active h))) ∧
    (¬s.Released h f.order f.scope → exec i s = .next ((s.beginIssue h).waitAt (s.env h) (s.active h)
      (.drain f.scope ((drainMark (s.env h) f.scope (s.active h)).getD s.nextId)))) := by
  refine ⟨fun hr hp => hx.trans (congrArg _ ((State.ordered_goes hr).trans ?_)),
    fun hr => hx.trans (congrArg _ (State.ordered_waits hr))⟩
  refine (congrArg (fun p : State × List Nat => p.1.acquired (s.env h) f.order p.2)
    (eachLane_stores (hp.passes old) (s.laneStore h f pa pte kind) (tags.imp_right fun t _ l => t l) ?_)).trans
      (by rw [beginIssue_nextId])
  intro l _ t
  rw [va]
  rfl

end

/-! ## The oldest entry of a store queue is performed (R178, R180) -/

section
variable {s : State} {c n : Nat} {q : StoreReq}

/-- The entry's turn has come: nothing of its group is ahead of it, and it is queued. -/
def State.StoreTurn (s : State) (c n : Nat) (q : StoreReq) : Prop :=
  (∀ r ∈ (s.group c n).sq, q.acc.id ≤ r.acc.id ∨ (r.acc.stage ≠ .queued ∧ (q.packet ≠ none ∨ r.acc.pa / 128 ≠ q.acc.pa / 128))) ∧
    (∀ r ∈ (s.group c n).loads, q.acc.id ≤ r.acc.id) ∧ q.acc.stage = .queued

/-- The entry acts at its home at once: it lies on the core's die, or no packet carries the entry, over a link that is up. -/
def State.StoreHere (s : State) (c : Nat) (q : StoreReq) : Prop :=
  (homeDie q.acc.pa = dieOf c ∨ q.packet = none) ∧ s.linked (dieOf c) (homeDie q.acc.pa) = true

/-- The line leaves the nearer caches, but for CCTL.WB. -/
def State.nearless (s : State) (c : Nat) (q : StoreReq) : State := if q.kind = .writeback then s else s.dropNear c (q.acc.pa / 128)

/-- The entry waits for the acknowledgement of its packet. -/
def State.storeSent (u : State) (c n : Nat) (q : StoreReq) (rid : Nat) : State :=
  ({ u with nextId := u.nextId + 1 } : State).modGroup c n fun k => { k with sq := k.sq.map fun r =>
    if r.acc.id = q.acc.id then { r with acc := { r.acc with stage := .sent rid u.nextId } } else r }

/-- The packet of an entry whose home lies on another die. -/
def StoreReq.farPacket (q : StoreReq) (c : Nat) : Option (Pkt × List (BitVec 128)) :=
  if homeDie q.acc.pa = dieOf c then none else q.packet

/-- An entry that acts at its home once nothing holds it back. -/
def State.storeGo (s : State) (c n : Nat) (q : StoreReq) : State :=
  if !s.linked (dieOf c) (homeDie q.acc.pa) then s.storeFail c n q cREMOTE
  else if s.held q.acc.pa && s.needsStack q then
    if q.kind.isAtom && s.overdue (stackOf q.acc.pa) then s.storeFail c n q cTHERM else s
  else if (s.storeFault q).isSome then
    (if s.storeFault q = some cECC then s.readArray q.acc.pa q.length else s).storeFail c n q ((s.storeFault q).getD 0)
  else if q.kind != .writeback && s.viewWaits q.acc.pa then s
  else if q.kind != .writeback && s.viewFirst q.acc.pa && (s.startCopies q.acc.pa).viewWaits q.acc.pa then s.startCopies q.acc.pa
  else
    let u := ((if q.kind = .writeback then s else s.startCopies q.acc.pa).nearless c q).performHome c n q
    u.1.storeDone c n q u.2

/-- The model's own test of the turn. -/
theorem State.storeTurn_iff : (!((s.group c n).sq.all (fun r => q.acc.id ≤ r.acc.id ||
      (r.acc.stage != .queued && (q.packet.isSome || r.acc.pa / 128 != q.acc.pa / 128))) &&
    (s.group c n).loads.all fun r => q.acc.id ≤ r.acc.id) || q.acc.stage != .queued) = true ↔ ¬s.StoreTurn c n q := by
  refine not_iff_not.1 ?_
  simp [State.StoreTurn, Option.isSome_iff_ne_none, or_iff_not_imp_left]

theorem State.performStore_waits (ht : ¬s.StoreTurn c n q) : s.performStore c n q = s := if_pos (State.storeTurn_iff.2 ht)

theorem State.performStore_here (ht : s.StoreTurn c n q) (hp : q.farPacket c = none) : s.performStore c n q = s.storeGo c n q := by
  refine (if_neg (not_not.2 ht ∘ State.storeTurn_iff.1)).trans ?_
  dsimp only
  rw [show (if homeDie q.acc.pa = dieOf c then none else q.packet) = none from hp]
  rfl

/-- A home on another die is sent the packet. -/
theorem State.performStore_far (ht : s.StoreTurn c n q) {p : Pkt} {data : List (BitVec 128)} (hp : q.farPacket c = some (p, data)) :
    ((s.nearless c q).request (dieOf c) (.store c n q.acc.id) p data = none → s.performStore c n q = s.storeFail c n q cREMOTE) ∧
    ∀ rid u, (s.nearless c q).request (dieOf c) (.store c n q.acc.id) p data = some (rid, u) →
      s.performStore c n q = u.storeSent c n q rid := by
  have asks : s.performStore c n q = _ := if_neg (not_not.2 ht ∘ State.storeTurn_iff.1)
  dsimp only at asks
  rw [show (if homeDie q.acc.pa = dieOf c then none else q.packet) = some (p, data) from hp] at asks
  dsimp only at asks
  refine ⟨fun hq => ?_, fun rid u hq => ?_⟩
  · rw [State.nearless] at hq
    rw [asks, hq]
  · rw [State.nearless] at hq
    rw [asks, hq, State.storeSent]
    simp only [beq_iff_eq]
    rfl

theorem State.storeGo_down (hl : s.linked (dieOf c) (homeDie q.acc.pa) = false) : s.storeGo c n q = s.storeFail c n q cREMOTE :=
  if_pos (by simp [hl])

theorem State.storeGo_held (hl : s.linked (dieOf c) (homeDie q.acc.pa) = true) (hh : s.held q.acc.pa = true)
    (hn : s.needsStack q = true) : s.storeGo c n q =
      if q.kind.isAtom = true ∧ s.overdue (stackOf q.acc.pa) = true then s.storeFail c n q cTHERM else s := by
  simp [State.storeGo, hl, hh, hn]

section
variable (hl : s.linked (dieOf c) (homeDie q.acc.pa) = true) (hh : s.held q.acc.pa = true → s.needsStack q = false)
include hl hh

theorem State.storeGo_fails {code : Code} (hf : s.storeFault q = some code) : s.storeGo c n q =
    (if some code = some cECC then s.readArray q.acc.pa q.length else s).storeFail c n q code := by
  unfold State.storeGo
  rw [if_neg (by simp [hl]), if_neg (by simpa using hh), hf]
  rfl

theorem State.storeGo_tagFails (hf : s.storeFault q = some cTAG) : s.storeGo c n q = s.storeFail c n q cTAG :=
  (State.storeGo_fails hl hh hf).trans (congrArg (fun t : State => t.storeFail c n q cTAG) (if_neg (by decide)))

theorem State.storeGo_eccFails (hf : s.storeFault q = some cECC) :
    s.storeGo c n q = (s.readArray q.acc.pa q.length).storeFail c n q cECC :=
  (State.storeGo_fails hl hh hf).trans (congrArg (fun t : State => t.storeFail c n q cECC) (if_pos rfl))

/-- Where no view is open, an entry without a fault acts at its home. -/
theorem State.storeGo_performs (hf : s.storeFault q = none) (hv : s.views = []) :
    s.storeGo c n q = (((s.nearless c q).performHome c n q).1).storeDone c n q ((s.nearless c q).performHome c n q).2 := by
  have noView (pa : Nat) : s.viewsAt pa = [] := by rw [State.viewsAt, hv]; rfl
  have copies : s.startCopies q.acc.pa = s := by rw [State.startCopies, noView]; rfl
  unfold State.storeGo
  rw [if_neg (by simp [hl]), if_neg (by simpa using hh), hf, if_neg (by simp), if_neg (by simp [State.viewWaits, noView]),
    if_neg (by simp [State.viewFirst, noView]), copies, ite_self]

end

end

/-! ## Bytes and granules at their home (R165, R167, R174, R194, R223) -/

/-- A state that differs from another in its dies alone. -/
def DiesOnly (s t : State) : Prop := { t with dies := s.dies } = s

theorem DiesOnly.refl (s : State) : DiesOnly s s := rfl

theorem DiesOnly.trans {s t u : State} (a : DiesOnly s t) (b : DiesOnly t u) : DiesOnly s u := by
  unfold DiesOnly at *
  rw [← b] at a
  exact a

theorem DiesOnly.fold {α : Type} {f : State → α → State} (h : ∀ s x, DiesOnly s (f s x)) (xs : List α) (s : State) :
    DiesOnly s (xs.foldl f s) := by
  induction xs generalizing s with
  | nil => exact .refl s
  | cons x xs ih => exact (h s x).trans (ih _)

theorem DiesOnly.byte {s t : State} (h : DiesOnly s t) (a : Nat) : t.byte a = s.byte a :=
  (congrArg (fun u : State => u.byte a) (show _ = s from h) :)

theorem DiesOnly.metaAt {s t : State} (h : DiesOnly s t) (a : Nat) : t.metaAt a = s.metaAt a :=
  (congrArg (fun u : State => u.metaAt a) (show _ = s from h) :)

section
variable (s : State)

theorem State.homeTouch_diesOnly (line : Nat) (sec : BitVec 4) (w : Bool) (po : Policy) : DiesOnly s (s.homeTouch line sec w po) := by
  unfold State.homeTouch
  dsimp only
  split <;> rfl

/-- Without a symbol error nothing is corrected (R321). -/
theorem State.correctAll_clean {gs : List Nat} (he : s.gerr = []) : State.correctAll gs s = (s, []) := by
  have clean (g : Nat) : s.correct g = (s, false) := if_pos (by rw [he]; rfl)
  unfold State.correctAll
  induction gs with
  | nil => rfl
  | cons g gs ih =>
    rw [List.foldl_cons]
    dsimp only
    rw [clean]
    exact ih

theorem State.postEvents_nil : s.postEvents [] = s := by
  unfold State.postEvents
  generalize ([] : List DevEvent).length + s.views.length + s.gerr.length = fuel
  cases fuel <;> rfl

theorem State.readArray_clean (pa n : Nat) (he : s.gerr = []) : s.readArray pa n = s := by
  rw [State.readArray, State.readGranules, s.correctAll_clean he]
  exact s.postEvents_nil

theorem State.fillStore_clean (pa n : Nat) (full : BitVec 4) (he : s.gerr = []) : s.fillStore pa n full = s := by
  unfold State.fillStore
  induction blocks 32 pa n with
  | nil => rfl
  | cons k ks ih => rw [List.foldl_cons, s.readArray_clean _ _ he, ite_self, ih]

theorem State.preserve_none (pa : Nat) (hv : s.views = []) : s.preserve pa = (s, []) := by
  rw [State.preserve, State.viewsAt, hv]
  rfl

theorem State.putMem_noView (pa : Nat) (bs : List Byte) (hv : s.views = []) : s.putMem pa bs = s.putRaw pa bs := by
  rw [State.putMem, s.preserve_none pa hv]
  exact State.postEvents_nil _

/-- A load at its home brings its sectors into the home cache, and changes no byte. -/
theorem State.homeLoadIn_diesOnly (pa n : Nat) (b : Nat × Nat) (po : Policy) (he : s.gerr = []) :
    DiesOnly s (s.homeLoadIn pa n b po) := by
  unfold State.homeLoadIn State.fetchIn
  dsimp only
  split
  · rw [State.postEvents_nil]
    exact DiesOnly.fold (fun s _ => s.homeTouch_diesOnly _ _ _ _) _ s
  · rw [s.correctAll_clean he, State.postEvents_nil]
    exact DiesOnly.fold (fun s _ => s.homeTouch_diesOnly _ _ _ _) _ s

/-- With no view open and no codeword in error, a store at its home puts its bytes. -/
theorem State.homeStoreIn_clean (pa : Nat) (bs : List Byte) (po : Policy) (full : BitVec 4) (hv : s.views = []) (he : s.gerr = []) :
    DiesOnly (s.putRaw pa bs) (s.homeStoreIn pa bs po full) := by
  unfold State.homeStoreIn
  dsimp only
  rw [s.fillStore_clean _ _ _ he, s.putMem_noView pa bs hv]
  exact DiesOnly.fold (fun s _ => s.homeTouch_diesOnly _ _ _ _) _ _

/-- Bytes put at their home, but into ordered slots (R194). -/
theorem State.byte_putRaw (pa : Nat) (bs : List Byte) (a : Nat) : (s.putRaw pa bs).byte a =
    if pa ≤ a ∧ a < pa + bs.length ∧ s.inSlot a = false then (bs[a - pa]?).getD 0 else s.byte a := by
  unfold State.putRaw State.byte
  dsimp only
  generalize s.mem = m
  induction bs generalizing pa m with
  | nil => exact (if_neg (by rw [List.length_nil]; omega)).symm
  | cons b bs ih =>
    rw [List.length_cons, rangeFrom, List.zip_cons_cons, List.foldl_cons, ih]
    by_cases h : a = pa
    · subst h
      cases s.inSlot a <;> simp
    · have skip : SMap.get 0 (if s.inSlot pa = true then m else SMap.set 0 m pa b) a = SMap.get 0 m a := by
        split
        · rfl
        · exact SMap.get_set_ne _ _ _ _ _ h
      rw [skip]
      by_cases h1 : pa + 1 ≤ a
      · rw [show a - pa = a - (pa + 1) + 1 by omega, List.getElem?_cons_succ]
        refine if_congr ?_ rfl rfl
        simp only [h1, Nat.le_of_succ_le h1, true_and, Nat.add_assoc, Nat.add_comm 1]
      · rw [if_neg (by omega), if_neg (by omega)]

end

/-! ## Tag writes (R167, R223) -/

theorem blocks_granule (g : Nat) : blocks 64 (64 * g) 64 = [g] := by
  unfold blocks
  rw [if_neg (by decide), show 64 * g / 64 = g by omega, show (64 * g + 64 - 1) / 64 - g + 1 = 1 by omega]
  rfl

/-- The symbol that a tag write leaves: its tag, with the poison that stood there. -/
def tagged (m : BitVec 5) (t : BitVec 4) : BitVec 5 := (m &&& 0x10) ||| t.zeroExtend 5

theorem tagOf_tagged (m : BitVec 5) (t : BitVec 4) : tagOf (tagged m t) = t := by revert m t; decide

theorem poisonOf_tagged (m : BitVec 5) (t : BitVec 4) : poisonOf (tagged m t) = poisonOf m := by revert m t; decide

theorem poisonOf_and_tag (m : BitVec 5) : poisonOf (m &&& 0xF) = false := by revert m; decide

section
variable (s : State)

/-- A granule wholly overwritten loses its poison. -/
theorem State.metaAt_putRaw_granule (g : Nat) {bs : List Byte} (hb : bs.length = 64) (a : Nat) :
    (s.putRaw (64 * g) bs).metaAt a = if a / 64 = g then s.metaAt a &&& 0xF else s.metaAt a := by
  have symbol : (s.putRaw (64 * g) bs).gmeta = SMap.set 0 s.gmeta g (SMap.get 0 s.gmeta g &&& 0xF) := by
    unfold State.putRaw
    dsimp only
    rw [hb, blocks_granule]
    simp
  rw [State.metaAt, symbol, SMap.get_set]
  split
  · next h => rw [← h, State.metaAt]
  · rfl

/-- The state in which a tag write finds its granule: with .ZERO its data are written with zeros first. -/
def State.tagFinds (pa : Nat) (z : Bool) : State :=
  if z then s.homeStore (64 * (pa / 64)) (List.replicate 64 0) .normal else (s.preserve pa).1.postEvents (s.preserve pa).2

theorem State.homeTag_metaAt (pa : Nat) (t : BitVec 4) (z : Bool) (a : Nat) : (s.homeTag pa t z).metaAt a =
    if a / 64 = pa / 64 then tagged ((s.tagFinds pa z).metaAt pa) t else (s.tagFinds pa z).metaAt a :=
  SMap.get_set _ _ _ _ _

theorem State.homeTag_byte (pa : Nat) (t : BitVec 4) (z : Bool) (a : Nat) : (s.homeTag pa t z).byte a = (s.tagFinds pa z).byte a := rfl

theorem State.tagFinds_keep (hv : s.views = []) (pa : Nat) : s.tagFinds pa false = s := by
  refine (if_neg (by decide)).trans ?_
  rw [s.preserve_none pa hv]
  exact s.postEvents_nil

section
variable (hv : s.views = []) (he : s.gerr = [])
include hv he

theorem State.tagFinds_zero (pa : Nat) : DiesOnly (s.putRaw (64 * (pa / 64)) (List.replicate 64 0)) (s.tagFinds pa true) :=
  s.homeStoreIn_clean _ _ _ _ hv he

theorem State.tagFinds_metaAt (pa : Nat) (z : Bool) (a : Nat) :
    (s.tagFinds pa z).metaAt a = if z = true ∧ a / 64 = pa / 64 then s.metaAt a &&& 0xF else s.metaAt a := by
  cases z with
  | false => rw [s.tagFinds_keep hv, if_neg (by simp)]
  | true =>
    rw [(s.tagFinds_zero hv he pa).metaAt, s.metaAt_putRaw_granule _ List.length_replicate]
    simp only [true_and]

theorem State.tagFinds_byte (pa : Nat) (z : Bool) (a : Nat) :
    (s.tagFinds pa z).byte a = if z = true ∧ a / 64 = pa / 64 ∧ s.inSlot a = false then 0 else s.byte a := by
  cases z with
  | false => rw [s.tagFinds_keep hv, if_neg (by simp)]
  | true =>
    rw [(s.tagFinds_zero hv he pa).byte, s.byte_putRaw, List.length_replicate]
    have granule : (64 * (pa / 64) ≤ a ∧ a < 64 * (pa / 64) + 64 ∧ s.inSlot a = false) ↔ a / 64 = pa / 64 ∧ s.inSlot a = false := by
      rw [← and_assoc]
      exact and_congr_left fun _ => by omega
    simp only [granule, true_and]
    refine if_ctx_congr Iff.rfl (fun h => ?_) fun _ => rfl
    rw [List.getElem?_replicate, if_pos (by omega), Option.getD_some]

end

/-! ## Atomics (R176, R193) -/

/-- An atomic takes the old value of memory, and stores what its operation makes of it. -/
theorem State.homeAtomic_eq (pa : Nat) (o : AtomOp) (b : Nat × Nat) (po : Policy) (he : s.gerr = []) :
    let old := BitVec.ofNat 64 (ofBytes (s.bytes pa o.bytes))
    s.homeAtomic pa o b po = (old, (s.homeLoadIn pa o.bytes b po).homeStoreIn pa (bytesOf o.bytes (o.apply old).toNat) po 0) := by
  have same : (s.homeLoadIn pa o.bytes b po).bytes pa o.bytes = s.bytes pa o.bytes :=
    List.map_congr_left fun a _ => (s.homeLoadIn_diesOnly pa o.bytes b po he).byte a
  dsimp only
  rw [← same]
  rfl

end

/-! ## An entry has been performed (R178, R182) -/

section
variable (s : State) (c n : Nat) (q : StoreReq)

theorem State.dropStore_mem (id : Nat) : (s.dropStore c n id).mem = s.mem := by
  unfold State.dropStore
  dsimp only
  split <;> rfl

/-- An entry leaves its queue. -/
theorem State.mem_sq_dropStore (id : Nat) (r : StoreReq) (h : r ∈ ((s.dropStore c n id).group c n).sq) : r.acc.id ≠ id := by
  unfold State.dropStore at h
  dsimp only at h
  rw [State.group_modGroup] at h
  revert h
  cases SMap.find _ n with
  | none => exact fun h => (List.not_mem_nil h).elim
  | some g => exact fun h => by simpa using (List.mem_filter.1 h).2

theorem State.storeDone_mem (m : W64) : (s.storeDone c n q m).mem = s.mem := by
  have dropped : ((s.softAccess q.acc.pa q.length).dropStore c n q.acc.id).mem = s.mem :=
    (State.dropStore_mem ..).trans (s.softAccess_mem _ _)
  unfold State.storeDone
  split
  · dsimp only
    split
    · exact (State.acquire_mem ..).trans dropped
    · exact dropped
  · exact dropped

theorem State.sq_arrive (lane : Nat) (d : Dest) (x : Nat) (ok : Bool) : ((s.arrive c n lane d x ok).group c n).sq = (s.group c n).sq := by
  rw [State.arrive_eq, State.group_modGroup, State.group]
  cases SMap.find (s.core c).groups n with
  | none => rfl
  | some g => exact (g.arrive_queues lane d x ok).2

theorem State.mem_sq_storeDone (m : W64) (r : StoreReq) (h : r ∈ ((s.storeDone c n q m).group c n).sq) : r.acc.id ≠ q.acc.id := by
  refine (s.softAccess q.acc.pa q.length).mem_sq_dropStore c n q.acc.id r ?_
  unfold State.storeDone at h
  split at h
  · dsimp only at h
    split at h
    · rwa [State.acquire_groups, State.sq_arrive] at h
    · rwa [State.sq_arrive] at h
  · exact h

end

theorem exec_storePerform_none {s : State} {c n i : Nat} (hq : (s.group c n).sq[i]? = none) : exec (.storePerform c n i) s = .next s := by
  rw [exec_storePerform, execStorePerform, hq]

theorem exec_storePerform_performs {s : State} {c n i : Nat} {q : StoreReq} (hq : (s.group c n).sq[i]? = some q) :
    exec (.storePerform c n i) s = .next (s.performStore c n q).collsGo := by
  rw [exec_storePerform, execStorePerform, hq]

/-- Settles O31: the issue puts the lanes' entries into the store queue, each way to perform one is a branch of `performStore`, and what
it does at its home is read off the operation there. -/
theorem stores : Obligations.Stores := by
  unfold Obligations.Stores
  refine ⟨fun s h f pa pte => ?issue, fun s c n i => exec_storePerform_none, fun s c n i q hq => ?perform, fun s c n q => ?home,
    fun s pa bs po full hv he a => ?bytes, fun s pa t z hv he => ?tag, fun s pa o b po he => ?atomic, fun s c n q m => ?done⟩
  case issue =>
    intro e u act mark ready entry issues dst whole granule
    exact ⟨fun I => storeLanes_issues (issueInk_next I _) (fun _ => rfl) (fun _ => rfl) (.inr nofun),
      fun I => storeLanes_issues (issueInk_next I _) (fun _ => rfl) (fun _ => rfl) (.inl fun _ _ => rfl),
      fun I => storeLanes_issues (issueInk_next I _) (fun _ => rfl) (fun _ => rfl) (.inr nofun),
      fun I => storeLanes_issues (issueInk_next I _) (fun _ => rfl) (fun _ => rfl) (.inr nofun),
      fun I => storeLanes_issues (issueInk_next I _) (fun _ => rfl) (fun _ => rfl) (.inr nofun)⟩
  case perform =>
    intro g a first after ready near ends away here
    have performs {t : State} (h : s.performStore c n q = t) : ends t :=
      (exec_storePerform_performs hq).trans (congrArg (fun t : State => Host.Outcome.next t.collsGo) h)
    have goes {t : State} (hr : ready) (hp : q.farPacket c = none) (h : s.storeGo c n q = t) : ends t :=
      performs ((State.performStore_here hr hp).trans h)
    have packetless (hh : here) : q.farPacket c = none := hh.1.elim (fun h => if_pos h) fun h => by rw [StoreReq.farPacket, h, ite_self]
    refine ⟨fun hr => performs (State.performStore_waits hr), fun hr ha p data hp => ?far,
      fun hr ha hp hl => goes hr ((if_neg ha).trans hp) (State.storeGo_down hl),
      fun hr hh hs hn => goes hr (packetless hh) (State.storeGo_held hh.2 hs hn),
      fun hr hh hs => ⟨fun hf => goes hr (packetless hh) (State.storeGo_tagFails hh.2 hs hf),
        fun hf => goes hr (packetless hh) (State.storeGo_eccFails hh.2 hs hf),
        fun hf hv => goes hr (packetless hh) (State.storeGo_performs hh.2 hs hf hv)⟩⟩
    obtain ⟨fails, sends⟩ := State.performStore_far hr (q := q) ((if_neg ha).trans hp)
    exact ⟨fun h => performs (fails h), fun rid v h => performs (sends rid v h)⟩
  case home =>
    have kinds {k : StoreKind} {x : State × W64} (hk : q.kind = k) (h : State.performHome s c n { q with kind := k } = x) :
        s.performHome c n q = x := by
      subst hk
      exact h
    exact ⟨fun bs hk => kinds hk rfl, fun t z hk => kinds hk rfl, fun o d hk => kinds hk rfl, fun x hk => kinds hk rfl,
      fun hk => kinds hk rfl, fun lo len x hk => kinds hk rfl⟩
  case bytes => exact ((s.homeStoreIn_clean pa bs po full hv he).byte a).trans (s.byte_putRaw pa bs a)
  case tag =>
    have here : (s.homeTag pa t z).metaAt pa = tagged ((s.tagFinds pa z).metaAt pa) t := (s.homeTag_metaAt pa t z pa).trans (if_pos rfl)
    refine ⟨?_, fun hz => ?_, fun hz => ?_, fun a ha => ?_, fun a => ?_⟩
    · rw [here, tagOf_tagged]
    · rw [here, poisonOf_tagged, s.tagFinds_metaAt hv he, if_pos ⟨hz, rfl⟩, poisonOf_and_tag]
    · rw [here, poisonOf_tagged, hz, s.tagFinds_keep hv]
    · rw [s.homeTag_metaAt, if_neg ha, s.tagFinds_metaAt hv he, if_neg fun h => ha h.2]
    · rw [s.homeTag_byte, s.tagFinds_byte hv he]
  case atomic => exact ⟨fun a => (s.homeLoadIn_diesOnly pa o.bytes b po he).byte a, s.homeAtomic_eq pa o b po he⟩
  case done =>
    refine ⟨fun r => s.mem_sq_storeDone c n q m r, fun a => ?_⟩
    rw [State.byte, s.storeDone_mem]
    rfl

end Sys2Proof.Machine

/-! PROOFS of the statements of 15_engine_instructions.md: barriers (R236, R250 to R253). -/

namespace Sys2Proof.Machine

/-! ## The teams of a core while its groups change -/

/-- The teams of every core are kept. -/
def SameTeams (s t : State) : Prop := ∀ c, (t.core c).teams = (s.core c).teams

theorem SameTeams.refl (s : State) : SameTeams s s := fun _ => rfl

theorem SameTeams.trans {s t u : State} (a : SameTeams s t) (b : SameTeams t u) : SameTeams s u := fun c => (b c).trans (a c)

theorem SameTeams.fold {α : Type} {f : State → α → State} (hf : ∀ s x, SameTeams s (f s x)) (xs : List α) (s : State) :
    SameTeams s (xs.foldl f s) := by
  induction xs generalizing s with
  | nil => exact .refl s
  | cons x xs ih => exact (hf s x).trans (ih _)

theorem SameTeams.team {s t : State} (a : SameTeams s t) (c p : Nat) : t.team c p = s.team c p :=
  congrArg (fun m : SMap Team => (m.find p).getD {}) (a c)

theorem SameBut.teams {s t : State} (a : SameBut s t) : SameTeams s t := fun c => by rw [a.core]

section
variable (s : State) (c n l : Nat)

theorem State.modCore_teams (f : Core → Core) (hf : ∀ k, (f k).teams = k.teams) : SameTeams s (s.modCore c f) := by
  intro c'
  by_cases e : c' = c
  · rw [e, State.core_modCore, hf]
  · rw [State.core_modCore_ne s c c' f e]

theorem State.modGroup_teams (f : Group → Group) : SameTeams s (s.modGroup c n f) := s.modCore_teams c _ fun _ => rfl

theorem State.modLane_teams (f : Lane → Lane) : SameTeams s (s.modLane c n l f) := s.modGroup_teams c n _

theorem State.stopAgent_teams (f : FaultRec) (code : Code) : SameTeams s (s.stopAgent c l f code) := by
  unfold State.stopAgent
  dsimp only
  split
  · exact .refl s
  · refine SameTeams.trans ?_ (SameBut.teams (State.record_same _ _ _ _ _ _ _))
    exact s.modCore_teams c _ fun _ => rfl

theorem State.freezeGroup_teams (f : FaultRec) (code : Code) : SameTeams s (s.freezeGroup c n l f code) := by
  unfold State.freezeGroup
  split
  · exact s.stopAgent_teams c l f code
  · split
    · exact .refl s
    · exact (s.modGroup_teams c n _).trans (SameBut.teams (State.groupRecord_same _ _ _ _ _ _ _))

theorem State.takeFault_teams (f : FaultRec) (resume : W64) : SameTeams s (s.takeFault c n l f resume) := by
  refine (SameBut.teams (s.groupRecord_same 0x01 c n l f f.code)).trans ?_
  unfold State.takeFault
  dsimp only
  split
  · exact State.freezeGroup_teams _ c n l f _
  · split
    · exact State.freezeGroup_teams _ c n l f _
    · exact State.modLane_teams _ c n l _

theorem State.wakeGroup_teams (b : Nat) (poison : Bool) : SameTeams s (s.wakeGroup c n b poison) :=
  .fold (fun u l => by
    dsimp only
    split
    · exact (u.modLane_teams c n l _).trans (State.takeFault_teams _ c n l _ _)
    · exact u.modLane_teams c n l _) _ s

end

/-! ## The lanes of a group, one after the other -/

theorem placesFrom_pairwise {α : Type} (p : α → Bool) (xs : List α) (i : Nat) : (placesFrom p i xs).Pairwise (· < ·) := by
  induction xs generalizing i with
  | nil => exact .nil
  | cons x xs ih =>
    simp only [placesFrom]
    split
    · refine .cons (fun j hj => ?_) (ih _)
      obtain ⟨k, -, rfl, -⟩ := mem_placesFrom.1 hj
      omega
    · exact ih _

theorem places_nodup {α : Type} (p : α → Bool) (xs : List α) : (places p xs).Nodup :=
  (placesFrom_pairwise p xs 0).imp Nat.ne_of_lt

/-- A lane's change reads only the lane. -/
theorem State.modLane_congr (s : State) (c n l : Nat) {f g : Lane → Lane} (h : f ((s.group c n).lane l) = g ((s.group c n).lane l)) :
    s.modLane c n l f = s.modLane c n l g := by
  have modify : (s.core c).groups.modify n (fun g => { g with lanes := listModify g.lanes l f }) =
      (s.core c).groups.modify n fun x => { x with lanes := listModify x.lanes l g } := by
    refine SMap.modify_congr fun x hx => ?_
    have hg : s.group c n = x := by rw [State.group, hx, Option.getD_some]
    rw [hg, Group.lane] at h
    unfold listModify
    cases hl : x.lanes[l]? with
    | none => rfl
    | some y =>
      rw [hl, Option.getD_some] at h
      simp only [h]
  exact congrArg (fun m => s.setCore c { s.core c with groups := m }) modify

section
variable {c n : Nat} {step : State → Nat → State} {F : Nat → Lane → Lane} {Keeps : State → Prop} {Q : Lane → Prop}

/-- Steps that each change the lane that they are given, one after the other. -/
theorem group_foldl_steps (hstep : ∀ u l, Keeps u → Q ((u.group c n).lane l) → Keeps (step u l) ∧
      (step u l).group c n = { u.group c n with lanes := listModify (u.group c n).lanes l (F l) })
    (ls : List Nat) (hd : ls.Nodup) (s : State) (hk : Keeps s) (hq : ∀ l ∈ ls, Q ((s.group c n).lane l)) :
    (ls.foldl step s).group c n =
      { s.group c n with lanes := ls.foldl (fun xs l => listModify xs l (F l)) (s.group c n).lanes } := by
  induction ls generalizing s with
  | nil => rfl
  | cons m ls ih =>
    obtain ⟨fresh, hd⟩ := List.nodup_cons.1 hd
    obtain ⟨kept, changed⟩ := hstep s m hk (hq m (by simp))
    have later : ∀ l ∈ ls, Q (((step s m).group c n).lane l) := fun l hl => by
      have other : l ≠ m := fun e => fresh (e ▸ hl)
      rw [changed, Group.lane, listModify_get, if_neg other]
      exact hq l (by simp [hl])
    rw [List.foldl_cons, ih hd _ kept later, changed]
    rfl

end

section
variable {α : Type}

theorem get_foldl_listModify (f : Nat → α → α) (ls : List Nat) (hd : ls.Nodup) (xs : List α) (j : Nat) :
    (ls.foldl (fun xs l => listModify xs l (f l)) xs)[j]? = if j ∈ ls then xs[j]?.map (f j) else xs[j]? := by
  induction ls generalizing xs with
  | nil => rfl
  | cons l ls ih =>
    obtain ⟨fresh, hd⟩ := List.nodup_cons.1 hd
    rw [List.foldl_cons, ih hd, listModify_get]
    by_cases e : j = l
    · subst e
      simp [fresh]
    · simp [e]

/-- Every element that passes a test is changed where its places are changed in turn. -/
theorem foldl_listModify_places (f : α → α) (p : α → Bool) (xs : List α) :
    (places p xs).foldl (fun xs l => listModify xs l f) xs = xs.map fun x => if p x then f x else x := by
  refine List.ext_getElem? fun j => ?_
  rw [get_foldl_listModify (fun _ => f) _ (places_nodup p xs), List.getElem?_map]
  cases hx : xs[j]? with
  | none => simp
  | some x =>
    have listed : j ∈ places p xs ↔ p x = true := by simp [mem_places, hx]
    simp only [listed, Option.map_some]
    split <;> rfl

end

/-! ## The barrier unit (R250) -/

section
variable (x : Barrier)

theorem Barrier.arr_arrive (k : Nat) : (x.arrive k).arr.toNat = Nat.min (x.arr.toNat + k) 63 := by
  have : Nat.min (x.arr.toNat + k) 63 < 2 ^ 6 := Nat.lt_of_le_of_lt (Nat.min_le_right _ 63) (by decide)
  exact Nat.mod_eq_of_lt this

variable {x} {n : Nat} {ep : BitVec 16}

theorem Barrier.land_stale (h : ep ≠ x.epoch) : x.land n ep = x := if_pos (by simpa using h)

theorem Barrier.land_current (h : ep = x.epoch) : x.land n ep =
    let got := x.got + BitVec.ofNat 32 n
    { x with
      got := got
      tuarr := x.tuarr || (x.tu && got == x.xbytes)
      poison := x.poison || (x.tu && x.xbytes.toNat < got.toNat) } := if_neg (by simp [h])

theorem Barrier.complete_iff : x.complete = true ↔
    x.poison = true ∨ (x.members.toNat ≤ x.arr.toNat ∧ (x.tu = false ∨ x.tuarr = true)) := by
  simp [Barrier.complete]

end

section
variable (s : State) (c p b : Nat) (f : Barrier → Barrier)

/-- What a completed phase does for a group of the core (R252, R253). -/
def State.phaseEnds (y : Barrier) (u : State) (x : Nat × Group) : State :=
  if x.2.place = some p then
    let v := if maskBit y.armed x.2.grp then
      u.modGroup c x.1 fun g => { g with vector := g.vector ++ [{ handler := y.handler, link := y.link, poison := y.poison }] } else u
    if maskBit y.waiters x.2.grp then v.wakeGroup c x.1 b y.poison else v
  else u

theorem State.phaseEnds_teams (y : Barrier) (x : Nat × Group) : SameTeams s (s.phaseEnds c p b y x) := by
  unfold State.phaseEnds
  split
  · have armed : SameTeams s (if maskBit y.armed x.2.grp then s.modGroup c x.1 fun g => { g with
        vector := g.vector ++ [{ handler := y.handler, link := y.link, poison := y.poison }] } else s) := by
      split
      · exact s.modGroup_teams c x.1 _
      · exact .refl s
    dsimp only
    split
    · exact armed.trans (State.wakeGroup_teams _ c x.1 b y.poison)
    · exact armed
  · exact .refl s

variable {s c p b f}

theorem State.barEvent_discarded (h : ((s.team c p).bar b).members = 0) : s.barEvent c p b f = s := if_pos h

theorem State.barEvent_counts (h : ((s.team c p).bar b).members ≠ 0) (hc : (f ((s.team c p).bar b)).complete = false) :
    s.barEvent c p b f = s.setBar c p b (f ((s.team c p).bar b)) := (if_neg h).trans (if_pos (by simp [hc]))

theorem State.barEvent_completes (h : ((s.team c p).bar b).members ≠ 0) (hc : (f ((s.team c p).bar b)).complete = true) :
    s.barEvent c p b f = (s.core c).groups.foldl (State.phaseEnds c p b (f ((s.team c p).bar b)))
      (s.setBar c p b (f ((s.team c p).bar b)).next) := by
  have groups : ((s.setBar c p b (f ((s.team c p).bar b)).next).core c).groups = (s.core c).groups := by
    rw [State.setBar, State.modTeam, State.core_modCore]
  refine (if_neg h).trans ((if_neg (by simp [hc])).trans ?_)
  dsimp only
  rw [groups]
  congr 1
  funext u x
  unfold State.phaseEnds
  by_cases e : x.2.place = some p
  · simp only [e, bne_self_eq_false, Bool.false_eq_true, if_false, if_true]
  · simp only [bne_iff_ne, ne_eq, e, not_false_eq_true, if_true, if_false]

/-- A barrier of a team that the core has reads as set. -/
theorem State.bar_setBar (x : Barrier) (h : ((s.core c).teams.find p).isSome = true) : ((s.setBar c p b x).team c p).bar b = x := by
  obtain ⟨t, ht⟩ := Option.isSome_iff_exists.1 h
  rw [State.setBar, State.team_modTeam, ht]
  exact SMap.get_set_self ..

/-- A place whose barrier has members holds a team. -/
theorem State.find_of_members (h : ((s.team c p).bar b).members ≠ 0) : ((s.core c).teams.find p).isSome = true := by
  cases ht : (s.core c).teams.find p with
  | some t => rfl
  | none => exact absurd (by rw [State.team, ht]; rfl) h

theorem State.bar_barEvent (h : ((s.team c p).bar b).members ≠ 0) (hc : (f ((s.team c p).bar b)).complete = true) :
    ((s.barEvent c p b f).team c p).bar b = (f ((s.team c p).bar b)).next := by
  rw [State.barEvent_completes h hc, (SameTeams.fold (fun u x => u.phaseEnds_teams c p b _ x) _ _).team,
    State.bar_setBar _ (State.find_of_members h)]

end

/-! ## The lanes that wait on a barrier (R252) -/

theorem State.wakeGroup_eq (s : State) (c n b : Nat) : s.wakeGroup c n b false =
    (places (fun (l : Lane) => l.wait == .bwait b) (s.group c n).lanes).foldl (fun u l => u.modLane c n l Lane.goesOn) s := by
  unfold State.wakeGroup
  congr 1
  funext u l
  exact u.modLane_congr c n l rfl

theorem State.group_wakeGroup (s : State) (c n b : Nat) : (s.wakeGroup c n b false).group c n = { s.group c n with
    lanes := (s.group c n).lanes.map fun l => if l.wait = .bwait b then l.goesOn else l } := by
  have steps := group_foldl_steps (c := c) (n := n) (F := fun _ => Lane.goesOn) (Keeps := fun _ => True) (Q := fun _ => True)
    (fun u l _ _ => ⟨trivial, u.group_modLane c n l Lane.goesOn⟩) _ (places_nodup (fun l => l.wait == .bwait b) (s.group c n).lanes) s
    trivial fun _ _ => trivial
  rw [State.wakeGroup_eq, steps, foldl_listModify_places]
  simp only [beq_iff_eq]

/-! ## The instructions (R236, R251 to R253) -/

section
variable {s : State} {h : Hdr} {f : EF} {n p : Nat} {i : Instr} {bad : State → Env → Nat → Barrier → Bool}
  {go : Env → Nat → Nat → Barrier → State → State}

/-- An instruction on a barrier of the group's team: BARRIER where it may not use it, else its effect. -/
theorem barrierOp_does (I : NibIssues s i h n) (hp : (s.env h).g.place = some p) {B : Prop} {t : State}
    (hx : exec i s = s.barrierOp i h f bad go)
    (hb : bad (s.beginIssue h) (s.env h) p ((s.env h).team.bar f.bar.val) = true ↔ B)
    (hg : go (s.env h) n p ((s.env h).team.bar f.bar.val) (s.beginIssue h) = t) :
    (B → exec i s = .next ((s.beginIssue h).raise (s.env h) n { code := cBARRIER })) ∧ (¬B → exec i s = .next t) := by
  have run : exec i s = .next (if bad (s.beginIssue h) (s.env h) p ((s.env h).team.bar f.bar.val) = true
      then (s.beginIssue h).raise (s.env h) n { code := cBARRIER } else t) := by
    rw [hx, State.barrierOp, nibIssue_next I, hp, ← hg]
    rfl
  exact ⟨fun hB => run.trans (congrArg _ (if_pos (hb.2 hB))), fun hB => run.trans (congrArg _ (if_neg fun h => hB (hb.1 h)))⟩

theorem inUse_iff (u : State) (e : Env) (x : Barrier) : inUse f u e p x = true ↔
    x.waiters ≠ 0 ∨ x.armed ≠ 0 ∨ u.barBusy e.core p f.bar.val = true := by
  simp [inUse, or_assoc]

theorem noMembers_iff (u : State) (e : Env) (x : Barrier) : noMembers u e p x = true ↔ x.members = 0 := beq_iff_eq

theorem Barrier.passed_iff (x : Barrier) (ph : Bool) : x.passed ph = true ↔ x.epoch.getLsbD 0 ≠ ph := bne_iff_ne

/-- The states that a BARM leaves where the barrier has members and its phase has not passed. -/
theorem exec_barm_next (I : NibIssues s (.barm h f) h n) (hp : (s.env h).g.place = some p) : exec (.barm h f) s =
    let e := s.env h
    let u := s.beginIssue h
    let x := e.team.bar f.bar.val
    .next (if x.members = 0 then u.raise e n { code := cBARRIER }
      else if x.epoch.getLsbD 0 ≠ f.mod.getLsbD 0 then u.phasePassed e x
      else if x.armed ≠ 0 ∧ (x.handler ≠ e.src64 n false f.a ∨ x.link ≠ f.d.field) then u.raise e n { code := cBARRIER }
      else u.setBar e.core p f.bar.val { x with
        handler := e.src64 n false f.a, link := f.d.field, armed := x.armed ||| BitVec.ofNat 16 (2 ^ e.g.grp) }) := by
  rw [exec_barm, execBarm, nibIssue_next I, hp]
  simp only [beq_iff_eq, Barrier.passed_iff, Bool.and_eq_true, Bool.or_eq_true, bne_iff_ne]
  rfl

/-- The nib lane is one of the set. -/
theorem NibIssues.lanes_ne_nil (I : NibIssues s i h n) : s.iss.lanes ≠ [] := fun e => by simpa [e] using I.nib

/-- A release does what follows it where the group's earlier accesses are performed at the scope, and else makes the lanes wait. -/
theorem State.released_eq {u : State} {e : Env} {sc : Scope} {ls : List Nat} {k : State → State} (hl : ls ≠ []) : u.released e sc ls k =
    if u.drained e.core e.slot sc (u.releaseMark e sc ls) = true then k u else u.waitAt e ls (.drain sc (u.releaseMark e sc ls)) := by
  by_cases hd : u.drained e.core e.slot sc (u.releaseMark e sc ls) = true
  · rw [if_pos hd, State.released_goes (.inr hd)]
  · rw [if_neg hd, State.released_waits hl hd]

end

/-- Settles O34: the unit by its equations, a completed phase by the groups of the core in turn, and each instruction by the test that it
makes of its barrier and its effect. -/
theorem barriers : Obligations.Barriers := by
  unfold Obligations.Barriers
  refine ⟨⟨fun x k => ⟨x.arr_arrive k, rfl⟩, fun x n => rfl, fun x n ep => ⟨Barrier.land_stale, fun h => ?lands⟩,
    fun x => Barrier.complete_iff, fun x => rfl, fun s c p b f => State.barEvent_discarded, fun s c p b f => State.barEvent_counts,
    fun s c p b f hm => fun hc => ⟨State.bar_barEvent hm hc, State.barEvent_completes hm hc⟩,
    fun s c n b => ⟨s.group_wakeGroup c n b, rfl⟩⟩, fun s h f n p hp => ?instructions⟩
  case lands =>
    rw [Barrier.land_current h]
    exact ⟨rfl, rfl, by simp, by simp⟩
  case instructions =>
    intro e u c x member bars held traps passed mark does
    have memberless : noMembers u e p x = true ↔ x.members = 0 := noMembers_iff u e x
    have barred : (x.members == 0 || e.active.any fun l => (e.g.lane l).trap) = true ↔ x.members = 0 ∨ traps := by
      rw [Bool.or_eq_true, beq_iff_eq]
      rfl
    have tested (hq : passed) : x.passed (f.mod.getLsbD 0) = true := (x.passed_iff _).2 hq
    have untested (hq : ¬passed) : ¬x.passed (f.mod.getLsbD 0) = true := fun h => hq ((x.passed_iff _).1 h)
    refine ⟨fun I => barrierOp_does I hp (exec_binit s h f) (inUse_iff u e x) rfl,
      fun I => barrierOp_does I hp (exec_binv s h f) (inUse_iff u e x) rfl,
      fun I => barrierOp_does I hp (exec_bexpect s h f) memberless rfl,
      fun I => barrierOp_does I hp (exec_barrive s h f) memberless (State.released_eq I.lanes_ne_nil),
      fun hq I => barrierOp_does I hp (exec_bwait s h f) barred (if_pos (tested hq)),
      fun hq I => barrierOp_does I hp (exec_bwait s h f) barred (if_neg (untested hq)),
      fun hq I => barrierOp_does I hp (exec_btest s h f) memberless (if_pos (tested hq)),
      fun hq I => barrierOp_does I hp (exec_btest s h f) memberless (if_neg (untested hq)), fun hq I => ?armPassed, fun hq I => ?arm⟩
    case armPassed =>
      rw [exec_barm_next I hp]
      exact ⟨fun hb => congrArg _ (if_pos hb), fun hb => congrArg _ ((if_neg hb).trans (if_pos hq))⟩
    case arm =>
      rw [exec_barm_next I hp]
      refine ⟨fun hb => ?_, fun hb => ?_⟩
      · by_cases hm : x.members = 0
        · exact congrArg _ (if_pos hm)
        · exact congrArg _ ((if_neg hm).trans ((if_neg hq).trans (if_pos (hb.resolve_left hm))))
      · obtain ⟨hm, hs⟩ := not_or.1 hb
        exact congrArg _ ((if_neg hm).trans ((if_neg hq).trans (if_neg hs)))

end Sys2Proof.Machine

/-! PROOFS of the statements of 15_engine_instructions.md: vectored wakes and presence (R169, R252 to R254). -/

namespace Sys2Proof.Machine

/-! ## A vectored wake (R253) -/

/-- The lane at the wake's handler, with the PC that it leaves in the link pair. -/
def Lane.vectorTo (w : Wake) (x : Lane) : Lane :=
  { (x.wvs (w.link.toNat % 512) (valRegs true x.pc)) with pc := w.handler, wait := .none }

/-- The fault that a lane takes at the handler after a poisoned phase. -/
def Wake.fault (w : Wake) : FaultRec := { code := cBARRIER, pc := w.handler }

/-- What a vectored wake does to one lane that it takes. -/
def State.vectorLane (c n : Nat) (w : Wake) (u : State) (l : Nat) : State :=
  let v := u.modLane c n l (Lane.vectorTo w)
  if w.poison then v.takeFault c n l w.fault w.handler else v

/-- A lane outside trap mode whose launch has a handler takes a fault there. -/
theorem State.takeFault_handled {s : State} {c n l : Nat} {f : FaultRec} {resume : W64} (ht : ((s.group c n).lane l).trap = false)
    (hs : n ≠ 63) (ha : s.trapAddr (s.group c n) ≠ 0) : s.takeFault c n l f resume =
      (s.groupRecord 0x01 c n l f f.code).modLane c n l fun x => x.enterTrap (s.trapAddr (s.group c n)) f l resume := by
  have same := s.groupRecord_same 0x01 c n l f f.code
  rw [← same.trapAddr] at ha ⊢
  exact (if_neg (Bool.eq_false_iff.1 ht)).trans (if_neg (by simpa [hs] using ha))

theorem LaneKept.vectorTo_trap (w : Wake) (x : Lane) : (x.vectorTo w).trap = x.trap := (LaneKept.wvs x _ _).trap

section
variable {s : State} {c n l : Nat} {w : Wake} {rest : List Wake}

theorem exec_barmVectoring_wakes (hv : (s.group c n).vector = w :: rest) : exec (.barmVectoring c n) s =
    .next ((places Lane.vectored (s.group c n).lanes).foldl (State.vectorLane c n w)
      (s.modGroup c n fun g => { g with vector := rest })) := by
  rw [exec_barmVectoring, execBarmVectoring]
  dsimp only
  rw [hv]
  rfl

theorem State.vectorLane_clean (hp : w.poison = false) (u : State) (l : Nat) :
    u.vectorLane c n w l = u.modLane c n l (Lane.vectorTo w) := if_neg (by simp [hp])

theorem State.trapAddr_modLane (u : State) (f : Lane → Lane) :
    (u.modLane c n l f).trapAddr ((u.modLane c n l f).group c n) = u.trapAddr (u.group c n) := by
  rw [State.group_modLane]
  rfl

/-- After a poisoned phase the lane is taken to the wake's handler and from there to the handler for faults. -/
theorem State.vectorLane_poisoned (hp : w.poison = true) (hs : n ≠ 63) {a : W64} (ha : a ≠ 0) {u : State}
    (hk : u.trapAddr (u.group c n) = a) (ht : ((u.group c n).lane l).trap = false) :
    (u.vectorLane c n w l).trapAddr ((u.vectorLane c n w l).group c n) = a ∧ (u.vectorLane c n w l).group c n = { u.group c n with
      lanes := listModify (u.group c n).lanes l fun x => (x.vectorTo w).enterTrap a w.fault l w.handler } := by
  have outside : (((u.modLane c n l (Lane.vectorTo w)).group c n).lane l).trap = false := by
    rw [State.group_modLane]
    simp only [Group.lane, listModify_get, if_true] at ht ⊢
    cases hx : (u.group c n).lanes[l]? with
    | none => rfl
    | some x =>
      rw [hx] at ht
      exact (LaneKept.vectorTo_trap w x).trans ht
  have handler : (u.modLane c n l (Lane.vectorTo w)).trapAddr ((u.modLane c n l (Lane.vectorTo w)).group c n) = a :=
    (u.trapAddr_modLane _).trans hk
  have same := (u.modLane c n l (Lane.vectorTo w)).groupRecord_same 0x01 c n l w.fault cBARRIER
  have taken : u.vectorLane c n w l = ((u.modLane c n l (Lane.vectorTo w)).groupRecord 0x01 c n l w.fault cBARRIER).modLane c n l
      fun x => x.enterTrap a w.fault l w.handler := by
    rw [State.vectorLane, if_pos hp, State.takeFault_handled outside hs (handler ▸ ha), handler]
    rfl
  rw [taken]
  constructor
  · rw [State.trapAddr_modLane, same.group, same.trapAddr, handler]
  · rw [State.group_modLane, same.group, State.group_modLane]
    dsimp only
    rw [listModify_listModify]
    rfl

/-- The group of the wake, once it has left the list. -/
theorem State.group_unlisted (h : ((s.core c).groups.find n).isSome = true) :
    (s.modGroup c n fun g => { g with vector := rest }).group c n = { s.group c n with vector := rest } := by
  obtain ⟨g, hg⟩ := Option.isSome_iff_exists.1 h
  rw [State.group_modGroup, State.group, hg]
  rfl

/-- The group after its lanes that a wake takes have gone where `F` says. -/
theorem vectored_lanes {t : State} {F : Nat → Lane → Lane} (ht : t.group c n = { s.group c n with
      vector := rest
      lanes := (places Lane.vectored (s.group c n).lanes).foldl (fun xs l => listModify xs l (F l)) (s.group c n).lanes })
    (hl : l < (s.group c n).lanes.length) : (t.group c n).vector = rest ∧ (t.group c n).lane l =
      if ((s.group c n).lane l).vectored = true then F l ((s.group c n).lane l) else (s.group c n).lane l := by
  refine ⟨by rw [ht], ?_⟩
  rw [ht, Group.lane, get_foldl_listModify F _ (places_nodup _ _), Group.get_of_lt hl]
  simp only [Group.mem_places, hl, true_and, Option.map_some]
  split <;> rfl

end

theorem Lane.vectored_iff (l : Lane) : l.vectored = true ↔ l.exited = false ∧ l.parked = none ∧ l.late = none ∧ l.trap = false ∧
    (l.wait = .none ∨ l.wait = .join ∨ l.wait = .syncg ∨ l.wait = .synct ∨ l.wait = .synctRole ∨
      ∃ sc m, l.wait = .cond (.drain sc m true)) := by
  simp only [Lane.vectored, Bool.and_eq_true, Bool.or_eq_true, Bool.not_eq_true', Option.isNone_iff_eq_none, List.contains_iff_mem,
    List.mem_cons, List.not_mem_nil, or_false, or_assoc, and_assoc]
  refine and_congr_right fun _ => and_congr_right fun _ => and_congr_right fun _ => and_congr_right fun _ =>
    or_congr_right (or_congr_right (or_congr_right (or_congr_right (or_congr_right ?_))))
  split
  · next sc m hw => simp [hw]
  · next hw =>
    simp only [Bool.false_eq_true, false_iff, not_exists]
    exact fun sc m e => hw sc m e

/-! ## Presence (R169, R254) -/

theorem rangeOk_eq_false (t : Team) (a k : Nat) : rangeOk t a k = false ↔ k ≠ 0 ∧ 128 * t.lines < a + k := by
  simp [rangeOk, inRegion]

section
variable {s : State} {h : Hdr} {f : EF} {n : Nat}

/-- The range that PCLR and PTEST name: its offset and its length. -/
def Env.rangeAt (e : Env) (f : EF) (n : Nat) : Nat := (e.src32 n f.a).toNat
@[inherit_doc Env.rangeAt] def Env.rangeLen (e : Env) (f : EF) (n : Nat) : Nat := (e.src32 n f.b).toNat

/-- The watch that a PCLR meets: none for an empty range or at an instruction that a handler steps over (R348, R351). -/
def State.pclrHit (s : State) (h : Hdr) (f : EF) (n : Nat) : Option (Nat × Nat) :=
  let e := s.env h
  if (e.g.lane n).wskip = some s.iss.pc || e.rangeLen f n = 0 then none
  else lowestHit ((s.beginIssue h).watchGroup e.core e.slot e.g.watch n .write false true (e.rangeAt f n) (e.rangeLen f n))

theorem pclrHit_eq (hw : (((s.env h).g.lane n).wskip ≠ some s.iss.pc ∧ (s.env h).rangeLen f n ≠ 0)) : s.pclrHit h f n =
    lowestHit ((s.beginIssue h).watchGroup s.iss.core s.iss.slot (s.env h).g.watch n .write false true ((s.env h).rangeAt f n)
      ((s.env h).rangeLen f n)) := if_neg (by simpa using hw)

theorem pclrHit_none (hw : ¬(((s.env h).g.lane n).wskip ≠ some s.iss.pc ∧ (s.env h).rangeLen f n ≠ 0)) : s.pclrHit h f n = none :=
  if_pos (by simpa [or_iff_not_imp_left] using hw)

/-- PCLR by its checks in turn. -/
theorem exec_pclr_next (I : NibIssues s (.pclr h f) h n) : exec (.pclr h f) s =
    let e := s.env h
    let u := s.beginIssue h
    .next (if rangeOk e.team (e.rangeAt f n) (e.rangeLen f n) = false then
        u.raise e n { code := cPERM, addr := BitVec.ofNat 64 (e.rangeAt f n) }
      else (s.pclrHit h f n).elim (u.modCore s.iss.core fun x => x.clearPresence (teamLines e.team (e.rangeAt f n) (e.rangeLen f n)))
        fun x => u.raise e n { code := cWATCH, addr := BitVec.ofNat 64 (e.rangeAt f n + x.2), num := BitVec.ofNat 16 x.1 }) := by
  rw [exec_pclr, execPclr, nibIssue_next I]
  refine congrArg _ (if_congr (Bool.not_eq_true' _).to_iff rfl ?_)
  split
  · next found =>
    rw [show s.pclrHit h f n = _ from found]
    rfl
  · next missed =>
    rw [show s.pclrHit h f n = _ from missed]
    rfl

theorem exec_ptest_next (I : NibIssues s (.ptest h f) h n) : exec (.ptest h f) s =
    let e := s.env h
    let u := s.beginIssue h
    .next (if rangeOk e.team (e.rangeAt f n) (e.rangeLen f n) = false then
        u.raise e n { code := cPERM, addr := BitVec.ofNat 64 (e.rangeAt f n) }
      else u.nibD e f.d [if (u.core s.iss.core).present (teamLines e.team (e.rangeAt f n) (e.rangeLen f n)) then 1 else 0]) := by
  rw [exec_ptest, execPtest, nibIssue_next I]
  exact congrArg _ (if_congr (Bool.not_eq_true' _).to_iff rfl rfl)

end

theorem State.mem_absent_linesPresent (s : State) (c : Nat) (lines : List Nat) (l : Nat) :
    l ∈ ((s.linesPresent c lines).core c).absent ↔ l ∈ (s.core c).absent ∧ (l ∉ lines ∨ s.lineTargeted c l = true) := by
  rw [State.linesPresent, State.core_modCore, List.mem_filter]
  simp

/-- Settles O35: a vectored wake by what it does to one lane, which the others do not feel, presence by the lines that are filtered, and
PCLR and PTEST by their checks in turn. -/
theorem wakesAndPresence : Obligations.WakesAndPresence := by
  unfold Obligations.WakesAndPresence
  refine ⟨fun s e x => ⟨fun h => if_neg (by simp [h]), fun h => if_pos h⟩, fun s c n w rest l hg hv hp hl => ?clean,
    fun s c n w rest l => ?poisoned, Lane.vectored_iff, fun s c lines => ⟨s.mem_absent_linesPresent c lines,
      fun j hj => State.core_modCore_ne s c j _ hj, fun a => rfl⟩, fun s h f n => ⟨?pclr, ?ptest⟩⟩
  case clean =>
    refine ⟨_, exec_barmVectoring_wakes hv, vectored_lanes (F := fun _ => Lane.vectorTo w) ?_ hl⟩
    have steps := group_foldl_steps (c := c) (n := n) (step := State.vectorLane c n w) (F := fun _ => Lane.vectorTo w)
      (Keeps := fun _ => True) (Q := fun _ => True)
      (fun u l _ _ => ⟨trivial, by rw [State.vectorLane_clean hp, State.group_modLane]⟩) _
      (places_nodup Lane.vectored (s.group c n).lanes) (s.modGroup c n fun g => { g with vector := rest }) trivial fun _ _ => trivial
    rw [steps, State.group_unlisted hg]
  case poisoned =>
    intro x f hg hs ha hv hp hl
    refine ⟨_, exec_barmVectoring_wakes hv, vectored_lanes
      (F := fun l x => (x.vectorTo w).enterTrap (s.trapAddr (s.group c n)) w.fault l w.handler) ?_ hl⟩
    have steps := group_foldl_steps (c := c) (n := n) (step := State.vectorLane c n w)
      (F := fun l x => (x.vectorTo w).enterTrap (s.trapAddr (s.group c n)) w.fault l w.handler)
      (Keeps := fun u => u.trapAddr (u.group c n) = s.trapAddr (s.group c n)) (Q := fun x => x.trap = false)
      (fun u l hk ht => State.vectorLane_poisoned hp hs ha hk ht) _
      (places_nodup Lane.vectored (s.group c n).lanes) (s.modGroup c n fun g => { g with vector := rest })
      (by rw [State.group_unlisted hg]; rfl) fun l hl => by
        rw [State.group_unlisted hg]
        exact ((Lane.vectored_iff _).1 (Group.mem_places.1 hl).2).2.2.2.1
    rw [steps, State.group_unlisted hg]
  case pclr =>
    intro I
    have test := rangeOk_eq_false (s.env h).team ((s.env h).rangeAt f n) ((s.env h).rangeLen f n)
    rw [exec_pclr_next I]
    refine ⟨fun ho => congrArg _ (if_pos (test.2 ho)), fun ho i off hw hh => congrArg _ ((if_neg fun h => ho (test.1 h)).trans ?_),
      fun ho hh => congrArg _ ((if_neg fun h => ho (test.1 h)).trans ?_)⟩
    · rw [(pclrHit_eq hw).trans hh]
      rfl
    · have missed : s.pclrHit h f n = none := by
        by_cases hw : ((s.env h).g.lane n).wskip ≠ some s.iss.pc ∧ (s.env h).rangeLen f n ≠ 0
        · exact (pclrHit_eq hw).trans (hh hw)
        · exact pclrHit_none hw
      rw [missed]
      rfl
  case ptest =>
    intro I
    have test := rangeOk_eq_false (s.env h).team ((s.env h).rangeAt f n) ((s.env h).rangeLen f n)
    rw [exec_ptest_next I]
    exact ⟨fun ho => congrArg _ (if_pos (test.2 ho)), fun ho => congrArg _ (if_neg fun h => ho (test.1 h))⟩

end Sys2Proof.Machine

/-! PROOFS of the statements of 15_engine_instructions.md: the issue of transfers (R190, R235, R236, R242, R248). -/

namespace Sys2Proof.Machine

/-! ## Presence cleared in several cores (R169) -/

theorem mem_insertNat {l n : Nat} {xs : List Nat} : l ∈ insertNat n xs ↔ l = n ∨ l ∈ xs := by
  induction xs with
  | nil => simp [insertNat]
  | cons x xs ih =>
    simp only [insertNat]
    split
    · next e => simp [e]
    · split
      · simp
      · simp only [List.mem_cons, ih, or_left_comm]

theorem mem_absent_clearPresence (k : Core) (lines : List Nat) (l : Nat) :
    l ∈ (k.clearPresence lines).absent ↔ l ∈ k.absent ∨ l ∈ lines := by
  change l ∈ lines.foldr insertNat k.absent ↔ _
  induction lines with
  | nil => simp
  | cons x xs ih => simp only [List.foldr_cons, mem_insertNat, ih, List.mem_cons, or_left_comm]

/-- Lines become absent in each of several cores. -/
def State.clearIn (s : State) (lines : List Nat) (js : List Nat) : State :=
  js.foldl (fun s j => s.modCore j fun x => x.clearPresence lines) s

section
variable (s : State) (lines js : List Nat)

theorem State.clearIn_mem : (s.clearIn lines js).mem = s.mem := by
  unfold State.clearIn
  induction js generalizing s with
  | nil => rfl
  | cons j js ih => exact ih _

/-- Nothing of a core but its absent lines changes. -/
theorem State.core_clearIn (c : Nat) :
    (s.clearIn lines js).core c = { s.core c with absent := ((s.clearIn lines js).core c).absent } := by
  unfold State.clearIn
  induction js generalizing s with
  | nil => rfl
  | cons j js ih =>
    rw [List.foldl_cons, ih]
    by_cases e : c = j
    · rw [e, State.core_modCore]
      rfl
    · rw [State.core_modCore_ne s j c _ e]

theorem State.mem_absent_clearIn (c l : Nat) :
    l ∈ ((s.clearIn lines js).core c).absent ↔ l ∈ (s.core c).absent ∨ (c ∈ js ∧ l ∈ lines) := by
  unfold State.clearIn
  induction js generalizing s with
  | nil => simp
  | cons j js ih =>
    rw [List.foldl_cons, ih]
    by_cases e : c = j
    · subst e
      rw [State.core_modCore, mem_absent_clearPresence]
      simp only [List.mem_cons, true_or, true_and, or_assoc]
      exact or_congr_right (or_iff_left_of_imp And.right)
    · rw [State.core_modCore_ne s j c _ e]
      simp [e]

end

/-- A lane's change keeps all of every core but its groups. -/
theorem State.core_modLane (s : State) (c n l : Nat) (f : Lane → Lane) (j : Nat) :
    (s.modLane c n l f).core j = { s.core j with groups := ((s.modLane c n l f).core j).groups } := by
  by_cases e : j = c
  · subst e
    rw [State.modLane, State.core_modGroup]
  · rw [State.modLane, State.core_modGroup_ne s c j n _ e]

/-! ## The command that an instruction makes (R235, R248) -/

section
variable {s : State} {h : Hdr} {f : EF} {n : Nat}

/-- The command of the nib lane before its operands are read. -/
def Env.baseCmd (e : Env) (f : EF) (n : Nat) : Cmd := {
  kind := .cpyLd
  seq := 0
  slot := e.slot
  place := e.g.place.getD 0
  lane := n
  ctx := e.g.ctx
  launch := e.g.launch
  pc := e.pc
  bar := f.bar.val
  shape := e.team.shapes.get 0 f.shp.val }

/-- A transfer takes the fault of its first check that fails, and else starts. -/
theorem transfer_does {i : Instr} (I : NibIssues s i h n) {make : Env → Nat → Cmd → Cmd} (hx : exec i s = s.transfer i h f make) {k : Cmd}
    (hk : make (s.env h) n ((s.env h).baseCmd f n) = k) :
    (∀ c a, k.issueFault (s.env h).team = some (c, a) →
      exec i s = .next ((s.beginIssue h).raise (s.env h) n { code := c, addr := a })) ∧
    (k.issueFault (s.env h).team = none → exec i s = .next ((s.beginIssue h).startTransfer (s.env h) n k)) := by
  have run : exec i s = .next (((make (s.env h) n ((s.env h).baseCmd f n)).issueFault (s.env h).team).elim
      ((s.beginIssue h).startTransfer (s.env h) n (make (s.env h) n ((s.env h).baseCmd f n)))
      fun x => (s.beginIssue h).raise (s.env h) n { code := x.1, addr := x.2 }) := by
    rw [hx, State.transfer, nibIssue_next I]
    unfold Env.baseCmd
    dsimp only
    split <;> simp only [*] <;> rfl
  rw [hk] at run
  constructor
  · intro c a hf
    rw [run, hf]
    rfl
  · intro hf
    rw [run, hf]
    rfl

end

/-! ## The start of a transfer (R169, R190, R235, R242) -/

section
variable (s : State) (e : Env) (n : Nat) (k : Cmd)

/-- The transfer moves nothing (R242, log 72). -/
def Cmd.empty : Prop := shapeEmpty k.shape = true ∨ (k.kind = .cpyx ∧ shapeEmpty k.shape2 = true)

theorem Cmd.empty_iff : (shapeEmpty k.shape || (k.kind == .cpyx && shapeEmpty k.shape2)) = true ↔ k.empty := by
  rw [Bool.or_eq_true, Bool.and_eq_true, beq_iff_eq]
  rfl

/-- The next name of a command of the core. -/
def State.seqOf (c : Nat) : W32 := (s.core c).cmdCtr + 1

/-- The command as it joins its core's. -/
def State.named : Cmd := { k with
  seq := s.seqOf e.core
  lines := if k.kind = .cpySt ∨ k.kind = .cpys ∨ k.kind = .cpyx then [] else teamLines e.team k.tb k.size
  recv := if k.kind = .cpym then s.receivers e.core k.ctx (s.absLocal e.core k.place k.tb) k.size k.mask else 0
  bytes := k.size
  after := s.nextId
  epoch := (e.team.bar k.bar).epoch }

/-- The core has given the next name. -/
def State.counted (c : Nat) : State := s.modCore c fun x => { x with cmdCtr := s.seqOf c }

/-- The command stands among its core's, its destination lines are absent where it is received, and but for a prefetch it counts as a
copy of its lane. -/
def State.joins (q : Cmd) : State :=
  let t := ((s.counted e.core).modCore e.core fun x => { x with cmds := x.cmds ++ [q] }).clearIn q.lines (q.targets e.core)
  if q.kind = .pft then t else t.modLane e.core e.slot n fun l => { l with unsealed := l.unsealed ++ [(s.seqOf e.core).toNat] }

theorem State.counted_teams (c : Nat) : SameTeams s (s.counted c) := s.modCore_teams c _ fun _ => rfl

variable {s e n k}

theorem State.startTransfer_empty (h : k.empty) : s.startTransfer e n k =
    (s.counted e.core).barEvent e.core k.place k.bar fun x => x.land 0 x.epoch := if_pos (k.empty_iff.2 h)

theorem State.startTransfer_joins (h : ¬k.empty) : s.startTransfer e n k = s.joins e n (s.named e k) := by
  have lineless : (k.fromLocal || k.kind == .cpyx) = true ↔ k.kind = .cpySt ∨ k.kind = .cpys ∨ k.kind = .cpyx := by
    simp [Cmd.fromLocal, or_assoc]
  have receivers (a : Nat) : (s.counted e.core).receivers e.core k.ctx a k.size k.mask =
      s.receivers e.core k.ctx a k.size k.mask := by
    simp only [State.receivers, s.counted_teams e.core _]
  have offset : (s.counted e.core).absLocal e.core k.place k.tb = s.absLocal e.core k.place k.tb := by
    rw [State.absLocal, (s.counted_teams e.core).team]
    rfl
  have command : ({ k with
      seq := s.seqOf e.core
      lines := if (k.fromLocal || k.kind == .cpyx) = true then [] else teamLines e.team k.tb k.size
      recv := if (k.kind == .cpym) = true then
        (s.counted e.core).receivers e.core k.ctx ((s.counted e.core).absLocal e.core k.place k.tb) k.size k.mask else 0
      bytes := k.size
      after := s.nextId
      epoch := (e.team.bar k.bar).epoch } : Cmd) = s.named e k := by
    simp only [State.named, lineless, offset, receivers, beq_iff_eq]
  rw [← command]
  exact (if_neg fun he => h (k.empty_iff.1 he)).trans (if_congr beq_iff_eq rfl rfl)

/-- The core of a transfer that has joined its core's commands, but for its groups and absent lines. -/
theorem State.core_joins (q : Cmd) : (s.joins e n q).core e.core = { s.core e.core with
    cmdCtr := s.seqOf e.core
    cmds := (s.core e.core).cmds ++ [q]
    groups := ((s.joins e n q).core e.core).groups
    absent := ((s.joins e n q).core e.core).absent } := by
  unfold State.joins
  dsimp only
  split
  · rw [State.core_clearIn, State.core_modCore, State.counted, State.core_modCore]
  · rw [State.core_modLane, State.core_clearIn, State.core_modCore, State.counted, State.core_modCore]

theorem State.joins_byte (q : Cmd) (a : Nat) : (s.joins e n q).byte a = s.byte a := by
  have mem : (s.joins e n q).mem = s.mem := by
    unfold State.joins
    dsimp only
    split <;> exact State.clearIn_mem _ _ _
  rw [State.byte, mem]
  rfl

theorem State.mem_absent_joins (q : Cmd) (j l : Nat) :
    l ∈ ((s.joins e n q).core j).absent ↔ l ∈ (s.core j).absent ∨ (j ∈ q.targets e.core ∧ l ∈ q.lines) := by
  have before : (((s.counted e.core).modCore e.core fun x => { x with cmds := x.cmds ++ [q] }).core j).absent = (s.core j).absent := by
    by_cases e' : j = e.core
    · rw [e', State.core_modCore, State.counted, State.core_modCore]
    · rw [State.core_modCore_ne _ _ _ _ e', State.counted, State.core_modCore_ne _ _ _ _ e']
  unfold State.joins
  dsimp only
  split
  · rw [State.mem_absent_clearIn, before]
  · rw [State.core_modLane, State.mem_absent_clearIn, before]

theorem State.unsealed_joins (q : Cmd) (hl : n < (s.group e.core e.slot).lanes.length) :
    ((s.joins e n q).group e.core e.slot |>.lane n).unsealed = ((s.group e.core e.slot).lane n).unsealed ++
      if q.kind = .pft then [] else [(s.seqOf e.core).toNat] := by
  have group : ((((s.counted e.core).modCore e.core fun x => { x with cmds := x.cmds ++ [q] }).clearIn q.lines
      (q.targets e.core)).group e.core e.slot) = s.group e.core e.slot := by
    rw [State.group, State.core_clearIn, State.core_modCore, State.counted, State.core_modCore]
    rfl
  unfold State.joins
  dsimp only
  split
  · rw [group, List.append_nil]
  · rw [State.lane_modLane _ _ _ _ _ (by rw [group]; exact hl), group]

end

/-- A core receives a CPYM that names it where the destination lies in one team of the context there. -/
theorem State.receivers_iff (s : State) (c ctx a m : Nat) {i : Nat} (mask : BitVec 16) (hi : i < 16) :
    (s.receivers c ctx a m mask).getLsbD i = true ↔ mask.getLsbD i = true ∧ i < Config.coresPerCluster ∧
      ∃ x ∈ (s.core (clusterOf c * Config.coresPerCluster + i)).teams,
        x.2.ctx = ctx ∧ 128 * x.2.lbase ≤ a ∧ a + m ≤ 128 * (x.2.lbase + x.2.lines) := by
  rw [State.receivers, maskOf_bit hi, List.mem_filter, mem_upto, Bool.and_eq_true, List.any_eq_true, and_left_comm]
  simp only [maskBit, Bool.and_eq_true, beq_iff_eq, decide_eq_true_eq, and_assoc]

/-- Settles O36: each instruction by the command that it makes, the start of a transfer by what joining its core's commands changes. -/
theorem transfersIssue : Obligations.TransfersIssue := by
  unfold Obligations.TransfersIssue
  refine ⟨fun s h f n => ?instructions, fun s e n k => ?starts, fun s c ctx a m i mask hi => s.receivers_iff c ctx a m mask hi⟩
  case instructions =>
    intro e u base scope ldst org tile rows does
    exact ⟨fun I => transfer_does I (exec_cpyLd s h f) rfl, fun I => transfer_does I (exec_cpySt s h f) rfl,
      fun I => transfer_does I (exec_cpym s h f) rfl, fun I => transfer_does I (exec_pft s h f) rfl,
      fun I => transfer_does I (exec_cpyx s h f) rfl, fun I => transfer_does I (exec_cpyg s h f) rfl,
      fun I => transfer_does I (exec_cpys s h f) rfl⟩
  case starts =>
    intro seq empty t q
    refine ⟨State.startTransfer_empty, fun he => ?_⟩
    have start : t = s.joins e n q := State.startTransfer_joins he
    rw [start]
    exact ⟨congrArg Core.cmdCtr (State.core_joins q), State.joins_byte q, congrArg Core.cmds (State.core_joins q),
      State.mem_absent_joins q, fun _ hl => State.unsealed_joins q hl⟩

end Sys2Proof.Machine

/-! PROOFS of the statements of 15_engine_instructions.md: the run and the end of transfers (R22, R231, R237, R241, R247, R248). -/

namespace Sys2Proof.Machine

/-! ## The events of a command -/

section
variable {s : State} {c n : Nat}

theorem exec_transfer_unknown (h : s.cmd c n = none) : exec (.transferLanding c n) s = .next s ∧
    exec (.engineCommandFault c n) s = .next s ∧ exec (.engineCommandComplete c n) s = .next s ∧ exec (.cpyxRequest c n) s = .next s := by
  rw [exec_transferLanding, execTransferLanding, exec_engineCommandFault, execEngineCommandFault, exec_engineCommandComplete,
    execEngineCommandComplete, exec_cpyxRequest, execCpyxRequest, h]
  exact ⟨rfl, rfl, rfl, rfl⟩

/-- A command may run: it is ready, and no demand copy goes before it (R247, R248). -/
def State.CmdRuns (s : State) (c : Nat) (k : Cmd) : Prop := s.cmdReady c k = true ∧ s.prefetchTurn c k = true

theorem State.cmdRuns_iff {k : Cmd} : ¬(!s.cmdReady c k || !s.prefetchTurn c k) = true ↔ s.CmdRuns c k := by
  simp [State.CmdRuns]

variable {k : Cmd} (hk : s.cmd c n = some k)
include hk

theorem exec_transferLanding_waits (hr : ¬s.CmdRuns c k) : exec (.transferLanding c n) s = .next s := by
  rw [exec_transferLanding, execTransferLanding, hk]
  exact congrArg _ (if_pos (not_not.1 fun h => hr (State.cmdRuns_iff.1 h)))

theorem exec_transferLanding_lands (hr : s.CmdRuns c k) {t : State} (ht : s.runTransfer c k = (t, none)) :
    exec (.transferLanding c n) s = .next (t.endTransfer c k none) := by
  rw [exec_transferLanding, execTransferLanding, hk]
  refine congrArg _ ((if_neg (State.cmdRuns_iff.2 hr)).trans ?_)
  rw [ht]

theorem exec_transferLanding_stops (hr : s.CmdRuns c k) {t : State} {x : Nat × Stop} (ht : s.runTransfer c k = (t, some x)) :
    exec (.transferLanding c n) s = .next s := by
  rw [exec_transferLanding, execTransferLanding, hk]
  refine congrArg _ ((if_neg (State.cmdRuns_iff.2 hr)).trans ?_)
  rw [ht]

theorem exec_engineCommandFault_waits (hr : ¬s.CmdRuns c k) : exec (.engineCommandFault c n) s = .next s := by
  rw [exec_engineCommandFault, execEngineCommandFault, hk]
  exact congrArg _ (if_pos (not_not.1 fun h => hr (State.cmdRuns_iff.1 h)))

theorem exec_engineCommandFault_faults (hr : s.CmdRuns c k) {t : State} {i : Nat} {f : FaultRec}
    (ht : s.runTransfer c k = (t, some (i, .fault f))) :
    exec (.engineCommandFault c n) s = .next (if f.code = cXLATE ∧ s.served k.ctx f.addr = true then
        t.modCmd c k.seq fun q => { q with start := i, susp := some f.addr, old := [] }
      else t.endTransfer c k (some f)) := by
  rw [exec_engineCommandFault, execEngineCommandFault, hk]
  refine congrArg _ ((if_neg (State.cmdRuns_iff.2 hr)).trans ?_)
  rw [ht]
  exact if_congr (by simp) rfl rfl

theorem exec_engineCommandComplete_runs (hd : k.done = false) : exec (.engineCommandComplete c n) s = .next s := by
  rw [exec_engineCommandComplete, execEngineCommandComplete, hk]
  exact congrArg _ (if_pos (by simp [hd]))

/-- A command that has ended leaves its core's, memory as it is. -/
theorem exec_engineCommandComplete_leaves (hd : k.done = true) : ∃ t, exec (.engineCommandComplete c n) s = .next t ∧
    (∀ a, t.byte a = s.byte a) ∧ (t.core c).cmds = (s.core c).cmds.filter (fun q => q.seq != k.seq) := by
  rw [exec_engineCommandComplete, execEngineCommandComplete, hk]
  refine ⟨_, congrArg _ (if_neg (by simp [hd])), fun a => rfl, ?_⟩
  rw [State.core_modLane, State.core_modCore]

theorem exec_cpyxRequest_passes (hx : k.kind = .cpyx) (hd : k.done = false) (hp : k.passed = none) (hf : s.cpyxDie c k ≠ dieOf c) :
    exec (.cpyxRequest c n) s = .next (if s.linked (dieOf c) (s.cpyxDie c k) = false then
        s.endTransfer c k (some { code := cREMOTE, addr := k.firstDst.getD 0 })
      else s.modCmd c k.seq fun q => { q with passed := some (s.cpyxDie c k) }) := by
  rw [exec_cpyxRequest, execCpyxRequest, hk]
  exact congrArg _ ((if_neg (by simp [hx, hd, hp, hf])).trans (if_congr (Bool.not_eq_true' _).to_iff rfl rfl))

end

/-! ## The elements that a command moves -/

section
variable {s t : State} {m : Master} {c : Nat} {k : Cmd} {row index i n : Nat}

theorem State.runTransfer_unreceived (hm : k.kind = .cpym) (hr : k.recv = 0) : s.runTransfer c k =
    (s, some (0, .fault { code := cPERM, addr := BitVec.ofNat 64 k.tb, num := k.mask })) := if_pos (by simp [hm, hr])

/-- A command that is no gather and no scatter moves its tile as one row. -/
theorem State.runTransfer_tile (hs : k.start < k.rowLen) (hg : k.kind ≠ .cpyg) (hc : k.kind ≠ .cpys)
    (hm : ¬(k.kind = .cpym ∧ k.recv = 0)) :
    s.runTransfer c k = State.moveRow (k.master c) k 0 0 (k.rowLen - k.start) k.start s := by
  have rows : k.rows = 1 := if_neg (by simp [hg, hc])
  have full : k.rowLen ≠ 0 := by omega
  have run : s.runTransfer c k = State.moveRows (k.master c) k 1 0 k.start s := by
    refine (if_neg (by simpa using hm)).trans ?_
    rw [if_neg full, if_neg full, rows, Nat.div_eq_of_lt hs, Nat.mod_eq_of_lt hs]
  have unindexed : s.rowIndex (k.master c) k 0 = (.ok 0, s) := if_neg (by simp [hg, hc])
  rw [run, State.moveRows, unindexed]
  dsimp only
  split
  · next x h => exact h.symm
  · next h => exact h.symm

/-- A row of a gather or scatter moves under the index that its list gives. -/
theorem State.moveRows_indexed (hk : k.kind = .cpyg ∨ k.kind = .cpys) {bs : List Byte}
    (hr : s.engRead m (k.list + BitVec.ofNat 64 (4 * row)) 4 = (.ok bs, t)) :
    State.moveRows m k (n + 1) row i s = match State.moveRow m k row (ofBytes bs) (k.rowLen - i) i t with
      | (u, some x) => (u, some x)
      | (u, none) => State.moveRows m k n (row + 1) 0 u := by
  have indexed : s.rowIndex m k row = (.ok (ofBytes bs), t) := by
    refine (if_pos (by simpa using hk)).trans ?_
    rw [hr]
  rw [State.moveRows, indexed] <;> rfl

theorem State.moveRow_goes (h : s.moveElem m k row index i = (.ok (), t)) :
    State.moveRow m k row index (n + 1) i s = State.moveRow m k row index n (i + 1) t := by
  rw [State.moveRow, h]

theorem State.moveRow_stops {x : Stop} (h : s.moveElem m k row index i = (.error x, t)) :
    State.moveRow m k row index (n + 1) i s = (t, some (row * k.rowLen + i, x)) := by
  rw [State.moveRow, h]

theorem State.moveElem_ignored (h : k.spots row index i = none) : s.moveElem m k row index i = (.ok (), s) := by
  rw [State.moveElem, h]

variable {src : Option Spot} {dst : Spot} (hs : k.spots row index i = some (src, dst))
include hs

theorem State.moveElem_unread {x : Stop} (h : s.readSpot m k.place (shapeWidth k.shape) src = (.error x, t)) :
    s.moveElem m k row index i = (.error x, t) := by
  rw [State.moveElem, hs]
  dsimp only
  rw [h]

/-- The element that a write puts has lost its poison where its command rewrites the whole granule (R167). -/
def State.renews (u : State) (m : Master) (k : Cmd) (row index : Nat) (dst : Spot) : Bool :=
  match dst with
  | .glob va _ => (match u.mapped m.core m.ctx va with
    | .ok (pa, _) => u.bad pa 1 && k.coversGranule row index va
    | .error _ => false)
  | .loc _ _ => false

/-- The width of an element at its destination. -/
def Cmd.dstWidth (k : Cmd) : Nat := if k.kind = .cpyx then shapeWidth k.shape2 else shapeWidth k.shape

theorem State.moveElem_writes {v : Nat} (h : s.readSpot m k.place (shapeWidth k.shape) src = (.ok v, t))
    (hw : k.kind ≠ .cpyx ∨ shapeWidth k.shape2 = shapeWidth k.shape ∨ src = none) :
    s.moveElem m k row index i = t.writeSpot m k k.dstWidth (t.renews m k row index dst) v dst := by
  have width : (if (k.kind == .cpyx) = true then shapeWidth k.shape2 else shapeWidth k.shape) = k.dstWidth := if_congr beq_iff_eq rfl rfl
  have valued : (decide (shapeWidth k.shape = k.dstWidth) || src.isNone) = true := by
    rw [Bool.or_eq_true, decide_eq_true_eq, Option.isNone_iff_eq_none]
    rcases hw with hw | hw | hw
    · exact .inl (if_neg hw).symm
    · refine .inl (Eq.symm ?_)
      rw [Cmd.dstWidth, hw, ite_self]
    · exact .inr hw
  rw [State.moveElem, hs]
  dsimp only
  rw [h]
  dsimp only
  rw [width, if_pos valued]
  rfl

theorem State.moveElem_free {v : Nat} (h : s.readSpot m k.place (shapeWidth k.shape) src = (.ok v, t)) (hx : k.kind = .cpyx)
    (hw : shapeWidth k.shape2 ≠ shapeWidth k.shape) (hn : src ≠ none) :
    let a := t.freeWord
    let b := a.2.freeWord
    s.moveElem m k row index i =
      b.2.writeSpot m k (shapeWidth k.shape2) (b.2.renews m k row index dst) (pairVal a.1 b.1).toNat dst := by
  have width : (if (k.kind == .cpyx) = true then shapeWidth k.shape2 else shapeWidth k.shape) = shapeWidth k.shape2 := if_pos (by simp [hx])
  have unvalued : ¬(decide (shapeWidth k.shape = shapeWidth k.shape2) || src.isNone) = true := by
    simpa [hn] using hw.symm
  rw [State.moveElem, hs]
  dsimp only
  rw [h]
  dsimp only
  rw [width, if_neg unvalued]
  rfl

end

/-! ## Where an element is read and written (R241, R248) -/

section
variable {s t : State} {m : Master} {k : Cmd} {p e x off : Nat} {w hi : Bool} {va : W64} {bs : List Byte}

theorem State.readSpot_glob (h : s.engRead m va (elemBytes e) = (.ok bs, t)) :
    s.readSpot m p e (some (.glob va hi)) = (.ok (elemOf e hi bs), t) := by
  rw [State.readSpot, h]

theorem State.readSpot_loc (h : s.engLocal m off (elemBytes e) .read = none) : s.readSpot m p e (some (.loc off hi)) =
    (.ok (elemOf e hi ((s.core m.core).lbytes (s.absLocal m.core p off) (elemBytes e))), s) := by
  rw [State.readSpot, h]

theorem State.writeSpot_loc (h : s.engLocal m off (elemBytes e) .write = none) : s.writeSpot m k e w x (.loc off hi) =
    (.ok (), (k.targets m.core).foldl (fun t c => t.lwrite c (s.absLocal m.core k.place off)
      (elemPut e hi x ((t.core c).lbytes (s.absLocal m.core k.place off) (elemBytes e)))) s) := by
  rw [State.writeSpot, h]

variable {row index i : Nat}

theorem Cmd.spots_in (h : k.kind = .cpyLd ∨ k.kind = .cpym ∨ k.kind = .pft) : k.spots row index i =
    some (globSpot (shapeLayout k.shape) k.org (boxCoords (shapeBox k.shape) i), k.localSpot i) := by
  rcases h with h | h | h <;> rw [Cmd.spots, h]

end

/-- Settles O37: each event by the test under which a command runs, the elements of a command by the recursions over rows and elements,
and the spots of an element by the command's kind. -/
theorem transfersRun : Obligations.TransfersRun := by
  unfold Obligations.TransfersRun
  refine ⟨fun s c n => ⟨exec_transfer_unknown, fun k hk => ?events⟩, fun s c k hs => ⟨State.runTransfer_unreceived,
      State.runTransfer_tile hs⟩, fun s m k row i n => ⟨fun hk bs t => State.moveRows_indexed hk, fun index => ⟨rfl,
        fun t => State.moveRow_goes, fun t x => State.moveRow_stops, State.moveElem_ignored, fun src dst hs => ?element⟩⟩,
    fun s m p e => ⟨rfl, fun va hi bs t => State.readSpot_glob, fun off hi => State.readSpot_loc⟩,
    fun s m k e x w => ⟨fun va hi => rfl, fun off hi => State.writeSpot_loc⟩, fun k row index i => ?spots⟩
  case events =>
    intro runs ended landed
    refine ⟨fun hr => ⟨exec_transferLanding_waits hk hr, exec_engineCommandFault_waits hk hr⟩,
      fun hr t ht => exec_transferLanding_lands hk hr ht,
      fun hr t i f ht => ⟨exec_transferLanding_stops hk hr ht, exec_engineCommandFault_faults hk hr ht⟩, ?_, fun f => rfl,
      exec_engineCommandComplete_runs hk, exec_engineCommandComplete_leaves hk, exec_cpyxRequest_passes hk⟩
    exact if_congr (by simp) rfl rfl
  case element =>
    intro e
    refine ⟨fun x t => State.moveElem_unread hs, ?_⟩
    intro renews v t h
    exact ⟨State.moveElem_writes hs h, State.moveElem_free hs h⟩
  case spots =>
    intro src xs
    refine ⟨Cmd.spots_in, fun h => ?_, fun h => ?_, fun h => ?_, fun h => ?_⟩ <;> rw [Cmd.spots, h]

end Sys2Proof.Machine

/-! PROOFS of the statements of 15_engine_instructions.md: shape registers, tensor identifiers and tile handles (R239, R243, R246). -/

namespace Sys2Proof.Machine

/-! ## Accesses of the nib lane that the instruction waits for (R163, R172, R243, R325, R326) -/

section
variable {u v w : State} {e : Env} {n pa pb : Nat} {pte pte' : W64} {q r : Ask}

section
variable {k : Nat → W64 → State → State}

theorem State.nibAccess_waits (h : u.checkWaits e q = true) : u.nibAccess e n q k = u.waitAt e e.lanes (.reach q.va 0) := if_pos h

theorem State.nibAccess_goes (h : u.checkWaits e q = false) (hc : u.check e n q = (.ok (pa, pte), v)) :
    u.nibAccess e n q k = k pa pte v := by
  refine (if_neg (by simp [h])).trans ?_
  rw [hc]

end

section
variable {k : Nat → Nat → W64 → State → State}

theorem State.check2_waits_first (h : u.checkWaits e q = true) : u.check2 e n q r k = u.waitAt e e.lanes (.reach q.va 0) := by
  refine (if_pos (by simp [h])).trans ?_
  rw [if_pos h]

theorem State.check2_waits_second (h : u.checkWaits e q = false) (hr : u.checkWaits e r = true) :
    u.check2 e n q r k = u.waitAt e e.lanes (.reach r.va 0) := by
  refine (if_pos (by simp [hr])).trans ?_
  rw [if_neg (by simp [h])]

theorem State.check2_goes (h : u.checkWaits e q = false) (hr : u.checkWaits e r = false) (hq : u.check e n q = (.ok (pa, pte), v))
    (hp : v.check e n r = (.ok (pb, pte'), w)) : u.check2 e n q r k = k pa pb pte' w := by
  refine (if_neg (by simp [h, hr])).trans ?_
  rw [hq]
  dsimp only
  rw [hp]

end

variable {va : W64} {k : List Byte → State → State}

theorem State.take64_down (hl : v.linked (dieOf e.core) (homeDie pa) = false) :
    v.take64 e n va pa k = v.raise e n { code := cREMOTE, addr := va } := if_pos (by simp [hl])

theorem State.take64_waits (hl : v.linked (dieOf e.core) (homeDie pa) = true) (hw : v.stackWaits pa 64 = true) :
    v.take64 e n va pa k = v.waitAt e e.lanes (.reach va 64) := (if_neg (by simp [hl])).trans (if_pos hw)

theorem State.take64_overdue (hl : v.linked (dieOf e.core) (homeDie pa) = true) (hw : v.stackWaits pa 64 = false)
    (hh : v.held pa = true) (hm : v.homeHit pa 64 = false) : v.take64 e n va pa k = v.raise e n { code := cTHERM, addr := va } :=
  (if_neg (by simp [hl])).trans ((if_neg (by simp [hw])).trans (if_pos (by simp [hh, hm])))

/-- The 64 bytes of a place as they are read at their home, with the state after. -/
def State.taken64 (v : State) (c pa : Nat) : List Byte × State :=
  let w := (v.homeLoad pa 64 .normal).readAtHome c (dieOf c) (pa / 128)
  w.softRead pa (w.bytes pa 64)

theorem State.take64_reads (hl : v.linked (dieOf e.core) (homeDie pa) = true) (hw : v.stackWaits pa 64 = false)
    (hh : v.held pa = true → v.homeHit pa 64 = true) : v.take64 e n va pa k = k (v.taken64 e.core pa).1 (v.taken64 e.core pa).2 := by
  have reached : ¬(v.held pa && !v.homeHit pa 64) = true := by simpa using hh
  exact (if_neg (by simp [hl])).trans ((if_neg (by simp [hw])).trans (if_neg reached))

/-- An instruction that ends with the 64 bytes of a place: what each way to meet its home makes of it. -/
theorem exec_take64 {s : State} {i : Instr} (hx : exec i s = .next (v.take64 e n va pa k)) :
    ((v.linked (dieOf e.core) (homeDie pa) = false → exec i s = .next (v.raise e n { code := cREMOTE, addr := va })) ∧
      (v.linked (dieOf e.core) (homeDie pa) = true → v.stackWaits pa 64 = true →
        exec i s = .next (v.waitAt e e.lanes (.reach va 64))) ∧
      (v.linked (dieOf e.core) (homeDie pa) = true → v.stackWaits pa 64 = false → v.held pa = true → v.homeHit pa 64 = false →
        exec i s = .next (v.raise e n { code := cTHERM, addr := va }))) ∧
    (v.linked (dieOf e.core) (homeDie pa) = true ∧ v.stackWaits pa 64 = false ∧ (v.held pa = true → v.homeHit pa 64 = true) →
      exec i s = .next (k (v.taken64 e.core pa).1 (v.taken64 e.core pa).2)) :=
  ⟨⟨fun hl => hx.trans (congrArg _ (State.take64_down hl)), fun hl hw => hx.trans (congrArg _ (State.take64_waits hl hw)),
    fun hl hw hh hm => hx.trans (congrArg _ (State.take64_overdue hl hw hh hm))⟩,
    fun ⟨hl, hw, hh⟩ => hx.trans (congrArg _ (State.take64_reads hl hw hh))⟩

end

/-! ## The instructions -/

section
variable {s : State} {h : Hdr} {f : EF} {n pa : Nat} {pte : W64} {v : State}

theorem exec_thnd_shape (I : NibIssues s (.thnd h f) h n)
    (hb : 2 ^ 28 ≤ ((s.env h).src32 n f.a).toNat ∨ 2 ^ 28 ≤ ((s.env h).src32 n f.b).toNat) :
    exec (.thnd h f) s = .next ((s.beginIssue h).raise (s.env h) n { code := cSHAPE }) := by
  rw [exec_thnd, execThnd, nibIssue_next I]
  exact congrArg _ (if_pos (by simpa using hb))

theorem exec_thnd_packs (I : NibIssues s (.thnd h f) h n)
    (ha : ((s.env h).src32 n f.a).toNat < 2 ^ 28) (hb : ((s.env h).src32 n f.b).toNat < 2 ^ 28) :
    exec (.thnd h f) s = .next ((s.beginIssue h).nibD (s.env h) f.d
      (wordsOf 2 (f.tid.toNat * 2 ^ 56 + ((s.env h).src32 n f.b).toNat * 2 ^ 28 + ((s.env h).src32 n f.a).toNat))) := by
  rw [exec_thnd, execThnd, nibIssue_next I]
  exact congrArg _ (if_neg (by simpa using ⟨ha, hb⟩))

end

/-- Settles O38: each instruction by what it waits for in turn, then its accesses. -/
theorem shapesAndTensors : Obligations.ShapesAndTensors := by
  unfold Obligations.ShapesAndTensors
  intro s h f n e u c va shape mark drained read rmw dst put waits reads after stops
  refine ⟨fun I => nibIssue_next I _, fun I => ⟨_, nibIssue_next I _, computes_one I.toIssues f.d _⟩, fun I => ?gld, fun I => ?gst,
    fun I => ?tidld, fun I => ?tidset, fun I => ?thnd⟩
  case gld =>
    have issue : exec (.gld h f) s = .next (u.released e .p e.lanes fun v => v.nibAccess e n read fun pa _ v => v.take64 e n va pa
        fun bs v => v.setShape e f.shp.val (recOf bs)) := nibIssue_next I _
    refine ⟨fun hd => issue.trans (congrArg _ (State.released_waits I.lanes_ne_nil hd)), fun hd hw => ?_, fun hd hw pa pte v hc => ?_⟩
    all_goals have go := issue.trans (congrArg _ (State.released_goes (.inr hd)))
    · exact go.trans (congrArg _ (State.nibAccess_waits hw))
    · exact exec_take64 (go.trans (congrArg _ (State.nibAccess_goes hw hc)))
  case gst =>
    have issue : exec (.gst h f) s = .next (u.nibAccess e n (ask64 va) fun pa pte v =>
        v.nibStore e n va pa pte (.store (recBytes shape))) := nibIssue_next I _
    exact ⟨fun hw => issue.trans (congrArg _ (State.nibAccess_waits hw)),
      fun hw pa pte v hc => issue.trans (congrArg _ (State.nibAccess_goes hw hc))⟩
  case tidld =>
    have issue : exec (.tidld h f) s = .next (u.released e .p e.lanes fun v =>
        let dst := v.tidAddr e.g.ctx f.tid.toNat
        v.check2 e n read { ask64 dst with ecc := true } fun pa pd te v => v.take64 e n va pa fun bs v => (upto 4).foldl (fun t i =>
          t.nibStore e n (dst + BitVec.ofNat 64 (16 * i)) (pd + 16 * i) te (.store ((bs.drop (16 * i)).take 16))) v) :=
      nibIssue_next I _
    refine ⟨fun hd => issue.trans (congrArg _ (State.released_waits I.lanes_ne_nil hd)), fun hd hr => ?_, fun hd hr hp => ?_,
      fun hd hr hp pa pte v pd te w hq hc => ?_⟩
    all_goals have go := issue.trans (congrArg _ (State.released_goes (.inr hd)))
    · exact go.trans (congrArg _ (State.check2_waits_first hr))
    · exact go.trans (congrArg _ (State.check2_waits_second hr hp))
    · exact exec_take64 (go.trans (congrArg _ (State.check2_goes hr hp hq hc)))
  case tidset =>
    have issue : exec (.tidset h f) s = .next (u.nibAccess e n rmw fun pa pte v =>
        v.nibStore e n dst pa pte (.setBits (tensorField (f.mod.toNat % 32)).1 (tensorField (f.mod.toNat % 32)).2
          (BitVec.ofNat 64 (e.fieldVal n f (tensorField (f.mod.toNat % 32)).2)))) := nibIssue_next I _
    exact ⟨fun hw => issue.trans (congrArg _ (State.nibAccess_waits hw)),
      fun hw pa pte v hc => issue.trans (congrArg _ (State.nibAccess_goes hw hc))⟩
  case thnd =>
    intro x y
    exact ⟨exec_thnd_shape I, fun hx hy => ⟨_, exec_thnd_packs I hx hy, computes_one I.toIssues f.d _⟩⟩

end Sys2Proof.Machine

/-! PROOFS of the statements of 15_engine_instructions.md: the issue of matrix instructions (R255 to R258, R260 to R264, R266). -/

namespace Sys2Proof.Machine

/-! ## What a record read at issue leaves of leases and names -/

/-- The next identifier of an access, and every core's lease: its holder and the requests for it. -/
def State.leases (s : State) : Nat × (Nat → Option Nat × List Nat) := (s.nextId, fun c => ((s.core c).holder, (s.core c).fifo))

theorem SameBut.leases {s t : State} (a : SameBut s t) : t.leases = s.leases := by
  have ids : t.nextId = s.nextId := (congrArg State.nextId (show _ = s from a) :)
  simp only [State.leases, ids, a.core]

theorem foldl_leases {α : Type} {f : State → α → State} (hf : ∀ s x, (f s x).leases = s.leases) (xs : List α) (s : State) :
    (xs.foldl f s).leases = s.leases := by
  induction xs generalizing s with
  | nil => rfl
  | cons x xs ih => exact (ih _).trans (hf s x)

section
variable (s : State)

theorem State.modCore_leases (c : Nat) (f : Core → Core) (hf : ∀ k, (f k).holder = k.holder ∧ (f k).fifo = k.fifo) :
    (s.modCore c f).leases = s.leases := by
  refine Prod.ext rfl (funext fun c' => ?_)
  by_cases e : c' = c
  · simp only [State.leases, e, State.core_modCore, hf]
  · simp only [State.leases, State.core_modCore_ne s c c' f e]

theorem State.readAtHome_leases (c d line : Nat) : (s.readAtHome c d line).leases = s.leases :=
  s.modCore_leases c (fun k => { k with l1 := dropLine k.l1 line }) fun _ => ⟨rfl, rfl⟩

theorem State.postEvents_leases (ev : List DevEvent) : (s.postEvents ev).leases = s.leases := (State.postEventsN_same _ s ev).leases

theorem State.softAccess_leases (pa n : Nat) : (s.softAccess pa n).leases = s.leases := by
  unfold State.softAccess
  split <;> rfl

theorem State.walked_leases (c ctx : Nat) (va : W64) : (s.walked c ctx va).leases = s.leases :=
  (State.postEvents_leases _ _).trans ((foldl_leases (fun s _ => s.readAtHome_leases _ _ _) _ _).trans
    (State.walkReading_same _ _ s).leases)

theorem State.coreXlate_leases (c ctx : Nat) (va : W64) : (s.coreXlate c ctx va).2.leases = s.leases := by
  unfold State.coreXlate
  split
  · rfl
  · split
    · rfl
    · split
      · exact s.walked_leases c ctx va
      · exact (State.modCore_leases _ c (fun k => k.holdLeaf _) fun _ => ⟨rfl, rfl⟩).trans (s.walked_leases c ctx va)

theorem State.recordRead_leases (c slot ctx : Nat) (va : W64) (n : Nat) : (s.recordRead c slot ctx va n).leases = s.leases := by
  have pages : ((pageStarts (n / 65536 + 2) va n).foldl (fun s a => (s.coreXlate c ctx a).2) s).leases = s.leases :=
    foldl_leases (fun s a => s.coreXlate_leases c ctx a) _ s
  unfold State.recordRead
  dsimp only
  split
  · exact pages
  · refine (foldl_leases (fun u p => ?_) _ _).trans pages
    split
    · split
      · exact (State.postEvents_leases _ _).trans (State.correctAll_same _ u).leases
      · rfl
    · exact (foldl_leases (fun s _ => s.readAtHome_leases _ _ _) _ _).trans ((State.softAccess_leases _ _ _).trans
        ((State.postEvents_leases _ _).trans (State.fetchIn_same u _ _ _ _).leases))

end

/-! ## Records read at issue, and the entries of tile handles (R245, R257, R258) -/

section
variable {u : State} {e : Env} {n : Nat} {k : State → State}

theorem State.afterRecords_waits {pre post : List (W64 × Nat)} {r : W64 × Nat}
    (hp : ∀ x ∈ pre, ¬u.reachWaits e.core e.slot e.g.ctx x.1 x.2 = true) (hr : u.reachWaits e.core e.slot e.g.ctx r.1 r.2 = true) :
    u.afterRecords e (pre ++ r :: post) k = u.waitAt e e.lanes (.reach r.1 r.2) := by
  have first : (pre ++ r :: post).find? (fun r => u.reachWaits e.core e.slot e.g.ctx r.1 r.2) = some r := by
    rw [List.find?_append, List.find?_eq_none.2 hp, List.find?_cons, hr]
    rfl
  rw [State.afterRecords, first]

theorem State.afterRecords_goes {rs : List (W64 × Nat)} (h : ∀ x ∈ rs, ¬u.reachWaits e.core e.slot e.g.ctx x.1 x.2 = true) :
    u.afterRecords e rs k = k (rs.foldl (fun s r => s.recordRead e.core e.slot e.g.ctx r.1 r.2) u) := by
  rw [State.afterRecords, List.find?_eq_none.2 h]

/-- The entry of a tile handle cannot be read yet. -/
def State.EntryLate (u : State) (e : Env) (hd : W64) : Prop :=
  u.reachWaits e.core e.slot e.g.ctx (u.tidRange e.g.ctx hd).1 64 = true

/-- What the read of a tile handle's entry leaves, in an issue whose state is `u` before its reads. -/
def State.entryRead (u : State) (e : Env) (t : State) (hd : W64) : State :=
  t.recordRead e.core e.slot e.g.ctx (u.tidRange e.g.ctx hd).1 64

theorem State.entryRead_leases (t : State) (hd : W64) : (u.entryRead e t hd).leases = t.leases := State.recordRead_leases ..

variable {hd : W64} {fmt : Ty}

theorem State.withEntry_waits {g : BitVec 512 → State → State} (h : u.EntryLate e hd) :
    u.withEntry e n hd g = u.waitAt e e.lanes (.reach (u.tidRange e.g.ctx hd).1 64) :=
  State.afterRecords_waits (pre := []) (post := []) nofun h

theorem State.withEntry_goes {g : BitVec 512 → State → State} (h : ¬u.EntryLate e hd) : u.withEntry e n hd g =
    match (u.entryRead e u hd).entryOf e.core e.slot e.g.ctx hd with
    | .error x => (u.entryRead e u hd).raise e n x
    | .ok r => g r (u.entryRead e u hd) :=
  State.afterRecords_goes fun x hx => by
    rw [List.mem_singleton.1 hx]
    exact h

theorem Env.mop_congr {t : State} (h : t.leases = u.leases) (acc : Nat) (kind : MKind) : e.mop t n acc kind = e.mop u n acc kind := by
  have ids : t.nextId = u.nextId := congrArg Prod.fst h
  rw [Env.mop, ids, Env.mop]

/-- An instruction that takes a tile by handle: it waits for the entry, takes its fault, or SHAPE for one of another format (R257,
R264). -/
theorem exec_withEntry {s : State} {i : Instr} (enter : State → MOp → State) (acc : Nat) (kind : BitVec 512 → MKind)
    (hx : exec i s = .next (u.withEntry e n hd fun rec v =>
      if recFormat rec != some fmt then v.nibFault e n cSHAPE else enter v (e.mop v n acc (kind rec)))) :
    let v := u.entryRead e u hd
    (u.EntryLate e hd → exec i s = .next (u.waitAt e e.lanes (.reach (u.tidRange e.g.ctx hd).1 64))) ∧
    (¬u.EntryLate e hd → (∀ x, v.entryOf e.core e.slot e.g.ctx hd = .error x → exec i s = .next (v.raise e n x)) ∧
      ∀ r, v.entryOf e.core e.slot e.g.ctx hd = .ok r → exec i s =
        .next (if recFormat r = some fmt then enter v (e.mop u n acc (kind r)) else v.raise e n { code := cSHAPE })) := by
  refine ⟨fun h => hx.trans (congrArg _ (State.withEntry_waits h)), fun h => ?_⟩
  have read := hx.trans (congrArg _ (State.withEntry_goes h))
  refine ⟨fun x hr => ?_, fun r hr => ?_⟩ <;> rw [hr] at read
  · exact read
  · refine read.trans (congrArg _ ?_)
    rw [← Env.mop_congr (u.entryRead_leases u hd)]
    by_cases hf : recFormat r = some fmt
    · rw [if_pos hf]
      exact if_neg (by simp [hf])
    · rw [if_neg hf]
      exact if_pos (by simp [hf])

end

/-! ## The team's queue and the lease (R235, R255, R256) -/

section
variable {s : State} {e : Env} {n p : Nat} {o : MOp}

theorem State.enqueue_full (h : 8 ≤ e.team.queue.length) : s.enqueue e p o = s.waitAt e e.lanes .engineRoom := if_pos h

theorem State.enqueue_unnamed (h : e.team.queue.length < 8) (hn : o.kind.named = false) : s.enqueue e p o =
    s.modTeam e.core p fun x => { x with queue := x.queue ++ [{ o with seq := 0 }] } := by
  refine (if_neg (by omega)).trans ?_
  rw [if_neg (by simp [hn])]

theorem State.enqueue_named (h : e.team.queue.length < 8) (hn : o.kind.named = true) : s.enqueue e p o =
    (s.counted e.core).modTeam e.core p fun x => { x with queue := x.queue ++ [{ o with seq := s.seqOf e.core }] } := by
  refine (if_neg (by omega)).trans ?_
  rw [if_pos hn]
  rfl

/-- The team has the lease or has asked for it. -/
def State.Leased (s : State) (e : Env) (p : Nat) : Prop :=
  ((s.core e.core).holder = some p ∧ e.team.releasing = false) ∨ p ∈ (s.core e.core).fifo

theorem State.leased_iff (s : State) (e : Env) (p : Nat) :
    (!((s.core e.core).holder == some p && !e.team.releasing) && !(s.core e.core).fifo.contains p) = true ↔ ¬s.Leased e p := by
  simp [State.Leased, imp_iff_not_or]

theorem State.leased_congr {t : State} (h : t.leases = s.leases) (e : Env) (p : Nat) : t.Leased e p ↔ s.Leased e p := by
  have lease := congrFun (congrArg Prod.snd h) e.core
  have holder : (t.core e.core).holder = (s.core e.core).holder := congrArg Prod.fst lease
  have fifo : (t.core e.core).fifo = (s.core e.core).fifo := congrArg Prod.snd lease
  rw [State.Leased, holder, fifo, State.Leased]

theorem State.enqueueLeased_unleased (h : ¬s.Leased e p) : s.enqueueLeased e n p o = s.raise e n { code := cLEASE } :=
  if_pos ((s.leased_iff e p).2 h)

theorem State.enqueueLeased_waits (h : s.Leased e p) (hq : s.mayQueue e.core (some p) = false) :
    s.enqueueLeased e n p o = s.waitAt e e.lanes .lease :=
  (if_neg fun hn => (s.leased_iff e p).1 hn h).trans (if_pos (by simp [hq]))

theorem State.enqueueLeased_enters (h : s.Leased e p) (hq : s.mayQueue e.core (some p) = true) (hl : e.team.queue.length < 8) :
    s.enqueueLeased e n p o = if o.kind.named then (s.enqueue e p o).modTeam e.core p fun x => { x with leaseCount := x.leaseCount - 1 }
      else s.enqueue e p o :=
  (if_neg fun hn => (s.leased_iff e p).1 hn h).trans ((if_neg (by simp [hq])).trans (if_neg (by omega)))

end

end Sys2Proof.Machine

/-! PROOFS of the statements of 15_engine_instructions.md: the operands and the lease of matrix instructions (R255 to R266). -/

namespace Sys2Proof.Machine

/-! ## Instructions on a team's engine (R255) -/

section
variable {s : State} {h : Hdr} {f : EF} {n p : Nat} {i : Instr} (I : NibIssues s i h n) (hp : (s.env h).g.place = some p)
include I hp

theorem teamOp_next {body : Env → Nat → Nat → State → State} (hx : exec i s = s.teamOp i h none body) :
    exec i s = .next (body (s.env h) n p (s.beginIssue h)) := by
  rw [hx, State.teamOp, nibIssue_next I, hp]

variable {a : Nat} {body : Env → Nat → Nat → State → State} (hx : exec i s = s.teamOp i h (some a) body)
include hx

theorem teamOp_given (ha : a < (s.env h).team.nacc) : exec i s = .next (body (s.env h) n p (s.beginIssue h)) := by
  rw [hx, State.teamOp, nibIssue_next I, hp]
  exact congrArg _ (if_neg (by omega))

theorem teamOp_notGiven (ha : ¬a < (s.env h).team.nacc) : exec i s = .next ((s.beginIssue h).raise (s.env h) n { code := cSHAPE }) := by
  rw [hx, State.teamOp, nibIssue_next I, hp]
  exact congrArg _ (if_pos (by omega))

end

section
variable {s : State} {h : Hdr} {f : EF} {n p : Nat} {i : Instr} (I : NibIssues s i h n) (hp : (s.env h).g.place = some p)
include I hp

/-- An instruction that reads an accumulator's state does so once the operations on it are done (R266). -/
theorem accRead_does {val : State → Env → Nat → W32} (hx : exec i s = s.accRead i h f val) {x : W32}
    (hv : val (s.beginIssue h) (s.env h) p = x) (ha : f.acc.val < (s.env h).team.nacc) :
    ((s.env h).team.accDone f.acc.val false true = true → ∃ t, exec i s = .next t ∧ Computes s t h [(f.d, fun _ => [x])] []) ∧
    (¬(s.env h).team.accDone f.acc.val false true = true →
      exec i s = .next ((s.beginIssue h).waitAt (s.env h) s.iss.lanes (.acc f.acc.val false true))) := by
  have run := teamOp_given I hp hx ha
  constructor
  · intro hd
    refine ⟨_, run.trans (congrArg _ (if_pos hd)), ?_⟩
    rw [hv]
    exact computes_one I.toIssues f.d _
  · exact fun hd => run.trans (congrArg _ (if_neg hd))

end

theorem MOp.suspended_iff (o : MOp) (t : Team) (mine : Nat → Bool) : o.suspended t mine = true ↔ o.parked ≠ [] ∧
    ∀ b k a0 a1 w, o.kind = .mma b k a0 a1 w → ∀ x ∈ o.live t (blkSteps k), ¬mine x = true := by
  rw [MOp.suspended, Bool.and_eq_true, Bool.not_eq_true', List.isEmpty_eq_false_iff]
  refine and_congr_right fun _ => ?_
  split
  · next b k a0 a1 w hk =>
    simp only [List.all_eq_true, Bool.not_eq_true', Bool.not_eq_true]
    refine ⟨fun h b' k' a0' a1' w' he => ?_, fun h => h b k a0 a1 w hk⟩
    cases hk.symm.trans he
    exact h
  · next hk =>
    simp only [true_iff]
    exact fun b k a0 a1 w he => absurd he (hk b k a0 a1 w)

/-- The operations on an accumulator, or all, are done: each is suspended, as far as the accumulator goes, where that counts. -/
theorem Team.accDone_iff (t : Team) (acc : Nat) (all susp : Bool) : t.accDone acc all susp = true ↔
    ∀ o ∈ t.queue, all = true ∨ o.uses acc = true → susp = true ∧ o.parked ≠ [] ∧
      ∀ b k a0 a1 w, o.kind = .mma b k a0 a1 w → ∀ x ∈ o.live t (blkSteps k), ¬(all = true ∨ o.acc + x = acc) := by
  rw [Team.accDone, List.all_eq_true]
  refine forall₂_congr fun o _ => ?_
  rw [Bool.or_eq_true, Bool.and_eq_true, MOp.suspended_iff, Bool.not_eq_true', Bool.or_eq_false_iff]
  simp only [Bool.or_eq_true, beq_iff_eq]
  rw [or_iff_not_imp_left, not_and_or, Bool.not_eq_false, Bool.not_eq_false]

/-! ## The operands of MMA and MMAT (R258, R259) -/

/-- The record that a descriptor's handle names, of those read. -/
def recordAt (rs : List (Nat × BitVec 512)) (d : Nat) : BitVec 512 :=
  match rs.find? fun x => x.1 == d with
  | some x => x.2
  | none => 0

theorem recordAt_eq (rs : List (Nat × BitVec 512)) (d : Nat) :
    recordAt rs d = ((rs.find? fun x => x.1 == d).map Prod.snd).getD 0 := by
  rw [recordAt]
  split <;> simp only [*] <;> rfl

/-- The operation of MMA and MMAT. -/
def mmaKind (k : BitVec 512) (tandem : Bool) (rs : List (Nat × BitVec 512)) : MKind :=
  let at_ := fun d => blkOperand k d (((rs.find? fun x => x.1 == d).map Prod.snd).getD 0)
  .mma tandem k (at_ 0) (if tandem then at_ 1 else .absent) (if blkBit k 22 then at_ 2 else .absent)

/-- The contents of the block and of its entries are well-formed. -/
def Shaped (k : BitVec 512) (tandem : Bool) (rs : List (Nat × BitVec 512)) : Prop :=
  blkBad k tandem = false ∧ ∀ x ∈ rs, recFormat x.2 = some (if x.1 = 2 then blkWfmt k else blkAfmt k)

theorem shaped_iff {k : BitVec 512} {tandem : Bool} {rs : List (Nat × BitVec 512)} :
    (blkBad k tandem || rs.any fun (d, r) => recFormat r != some (if d = 2 then blkWfmt k else blkAfmt k)) = true ↔ ¬Shaped k tandem rs := by
  rw [← not_iff_not, not_not]
  simp [Shaped]

/-- The accumulator is of the group's pair, and the pair one of the team. -/
def Env.OwnPair (e : Env) (acc : Nat) : Prop := e.g.grp = acc ∧ maskBit e.team.tmask (acc / 2) = true ∧ acc + 1 < e.team.nacc

theorem ownPair_iff {e : Env} {acc : Nat} :
    (e.g.grp != acc || !maskBit e.team.tmask (acc / 2) || e.team.nacc ≤ acc + 1) = true ↔ ¬e.OwnPair acc := by
  rw [← not_iff_not, not_not]
  simp [Env.OwnPair, and_assoc]

/-- What MMA and MMAT do with a block whose entries have been read. -/
def State.mmaGo (e : Env) (n p acc : Nat) (k : BitVec 512) (tandem : Bool) (w : State) : State :=
  match w.blkRecords e k tandem with
  | .error x => w.raise e n x
  | .ok rs =>
    let fmts := rs.any fun (d, r) => recFormat r != some (if d = 2 then blkWfmt k else blkAfmt k)
    if blkBad k tandem || fmts then w.nibFault e n cSHAPE
    else
      let op := fun d => blkOperand k d (recordAt rs d)
      let o := e.mop w n acc (.mma tandem k (op 0) (if tandem then op 1 else .absent) (if blkBit k 22 then op 2 else .absent))
      let noLease := !((w.core e.core).holder == some p && !e.team.releasing) && !(w.core e.core).fifo.contains p
      let wrongPair := tandem && (e.g.grp != acc || !maskBit e.team.tmask (acc / 2) || e.team.nacc ≤ acc + 1)
      if wrongPair && !noLease then w.nibFault e n cTANDEM else w.enqueueLeased e n p o

section
variable {e : Env} {n p acc : Nat} {k : BitVec 512} {tandem : Bool} {w : State}

theorem State.mmaGo_error {x : FaultRec} (h : w.blkRecords e k tandem = .error x) : State.mmaGo e n p acc k tandem w = w.raise e n x := by
  rw [State.mmaGo, h]

variable {rs : List (Nat × BitVec 512)} (h : w.blkRecords e k tandem = .ok rs)
include h

theorem State.mmaGo_misshaped (hs : ¬Shaped k tandem rs) : State.mmaGo e n p acc k tandem w = w.raise e n { code := cSHAPE } := by
  rw [State.mmaGo, h]
  exact if_pos (shaped_iff.2 hs)

theorem State.mmaGo_tandem (hs : Shaped k tandem rs) (ht : tandem = true) (hp : ¬e.OwnPair acc) (hl : w.Leased e p) :
    State.mmaGo e n p acc k tandem w = w.raise e n { code := cTANDEM } := by
  have leased := mt (w.leased_iff e p).1 (not_not.2 hl)
  rw [State.mmaGo, h]
  refine (if_neg fun hn => shaped_iff.1 hn hs).trans (if_pos ?_)
  rw [Bool.and_eq_true, Bool.not_eq_true', ← Bool.not_eq_true, Bool.and_eq_true]
  exact ⟨⟨ht, ownPair_iff.2 hp⟩, leased⟩

theorem State.mmaGo_enters (hs : Shaped k tandem rs) (hp : tandem = false ∨ e.OwnPair acc ∨ ¬w.Leased e p) :
    State.mmaGo e n p acc k tandem w = w.enqueueLeased e n p (e.mop w n acc (mmaKind k tandem rs)) := by
  rw [State.mmaGo, h]
  refine (if_neg fun hn => shaped_iff.1 hn hs).trans ?_
  simp only [recordAt_eq]
  refine if_neg ?_
  rw [Bool.and_eq_true, Bool.not_eq_true', ← Bool.not_eq_true, Bool.and_eq_true, ownPair_iff, w.leased_iff]
  rintro ⟨⟨ht, hn⟩, hl⟩
  rcases hp with hp | hp | hp
  · simp [hp] at ht
  · exact hn hp
  · exact hl hp

end

/-- MMA and MMAT by the checks of the block's place, in their order (R258). -/
theorem mmaIssue_next {s : State} {h : Hdr} {f : EF} {n p : Nat} {i : Instr} (I : NibIssues s i h n) (hp : (s.env h).g.place = some p)
    (tandem : Bool) : s.mmaIssue i h f tandem =
    let e := s.env h
    let u := s.beginIssue h
    let a := (e.src32 n f.a).toNat
    let k := recOf ((u.core e.core).lbytes (u.absLocal e.core p a) 64)
    .next (if a % 64 ≠ 0 then u.raise e n { code := cALIGN, addr := BitVec.ofNat 64 a }
      else if ¬f.acc.val < e.team.nacc then u.raise e n { code := cSHAPE }
      else if inRegion e.team a 64 = false then u.raise e n { code := cPERM, addr := BitVec.ofNat 64 a }
      else if (u.core e.core).present (teamLines e.team a 64) = false then u.waitAt e e.lanes (.lines (teamLines e.team a 64))
      else u.afterRecords e ((blkHandles k tandem).map fun d => u.tidRange e.g.ctx (descHandle k d))
        (State.mmaGo e n p f.acc.val k tandem)) := by
  rw [State.mmaIssue, nibIssue_next I, hp]
  exact congrArg _ (if_congr bne_iff_ne rfl (if_congr Nat.not_lt.symm rfl
    (if_congr (Bool.not_eq_true' _).to_iff rfl (if_congr (Bool.not_eq_true' _).to_iff rfl rfl))))

section
variable {u : State} {e : Env} {k : BitVec 512} {tandem : Bool} {g : State → State}

/-- The entries of a block's handles have been read, in their order. -/
def State.entriesRead (u : State) (e : Env) (k : BitVec 512) (tandem : Bool) : State :=
  (blkHandles k tandem).foldl (fun t d => u.entryRead e t (descHandle k d)) u

theorem State.entriesRead_leases (u : State) (e : Env) (k : BitVec 512) (tandem : Bool) : (u.entriesRead e k tandem).leases = u.leases :=
  foldl_leases (fun _ _ => State.entryRead_leases _ _) _ _

theorem State.afterEntries_waits {d : Nat} {pre post : List Nat} (hd : blkHandles k tandem = pre ++ d :: post)
    (hp : ∀ x ∈ pre, ¬u.EntryLate e (descHandle k x)) (hr : u.EntryLate e (descHandle k d)) :
    u.afterRecords e ((blkHandles k tandem).map fun d => u.tidRange e.g.ctx (descHandle k d)) g =
      u.waitAt e e.lanes (.reach (u.tidRange e.g.ctx (descHandle k d)).1 64) := by
  rw [hd, List.map_append, List.map_cons]
  refine State.afterRecords_waits (fun x hx => ?_) hr
  obtain ⟨d, hd, rfl⟩ := List.mem_map.1 hx
  exact hp d hd

theorem State.afterEntries_goes (h : ∀ d ∈ blkHandles k tandem, ¬u.EntryLate e (descHandle k d)) :
    u.afterRecords e ((blkHandles k tandem).map fun d => u.tidRange e.g.ctx (descHandle k d)) g = g (u.entriesRead e k tandem) := by
  rw [State.afterRecords_goes fun x hx => ?_, List.foldl_map]
  · rfl
  · obtain ⟨d, hd, rfl⟩ := List.mem_map.1 hx
    exact h d hd

end

/-! ## The faults of a block's entries (R12, R245) -/

theorem firstFault_of_mem {α : Type} {code : α → Code} {xs : List α} {x : α} (h : x ∈ xs) :
    ∃ y, firstFault code xs = some y ∧ checkStep (code y) ≤ checkStep (code x) := by
  unfold firstFault
  split
  · next m hm =>
    obtain ⟨hmem, hle⟩ := minOf_eq_some hm
    obtain ⟨y, hy, hyc⟩ := List.mem_map.1 hmem
    cases hf : xs.find? fun z => checkStep (code z) == m with
    | none => exact absurd (List.find?_eq_none.1 hf y hy) (by simp [hyc])
    | some z =>
      have hz := List.find?_some hf
      exact ⟨z, rfl, (beq_iff_eq.1 hz).trans_le (hle _ (List.mem_map_of_mem h))⟩
  · next hm =>
    have empty := List.map_eq_nil_iff.1 (minOf_eq_none.1 hm)
    simp [empty] at h

section
variable {v : State} {e : Env} {b : BitVec 512} {tandem : Bool}

/-- The faults of a block's entries, in the order of its descriptors. -/
def State.entryFaults (v : State) (e : Env) (b : BitVec 512) (tandem : Bool) : List FaultRec :=
  (blkHandles b tandem).filterMap fun d => faultOf (v.entryOf e.core e.slot e.g.ctx (descHandle b d))

/-- The fault of a local range of the block that lies beyond the region. -/
def blockRangeFault (e : Env) (b : BitVec 512) (tandem : Bool) : List FaultRec :=
  if blkFormed b && !blkLocalOk e.team b tandem then [{ code := cPERM }] else []

theorem State.filterMap_blkEntries {g : Nat × Except FaultRec (BitVec 512) → Option FaultRec} (hg : ∀ d r, g (d, r) = faultOf r) :
    (v.blkEntries e b tandem).filterMap g = v.entryFaults e b tandem := by
  rw [State.blkEntries, List.filterMap_map]
  exact List.filterMap_congr fun d _ => hg d _

theorem State.blkRecords_error {y : FaultRec}
    (h : firstFault FaultRec.code (v.entryFaults e b tandem ++ blockRangeFault e b tandem) = some y) :
    v.blkRecords e b tandem = .error y := by
  rw [blockRangeFault] at h
  rw [State.blkRecords, State.filterMap_blkEntries]
  · dsimp only
    rw [h]
  · exact fun _ r => by cases r <;> rfl

theorem State.blkRecords_ok {r : Nat → BitVec 512}
    (hr : ∀ d ∈ blkHandles b tandem, v.entryOf e.core e.slot e.g.ctx (descHandle b d) = .ok (r d))
    (hp : ¬(blkFormed b = true ∧ blkLocalOk e.team b tandem = false)) :
    v.blkRecords e b tandem = .ok ((blkHandles b tandem).map fun d => (d, r d)) := by
  have entries : v.entryFaults e b tandem = [] := List.filterMap_eq_nil_iff.2 fun d hd => by
    rw [hr d hd]
    rfl
  have range : (if blkFormed b && !blkLocalOk e.team b tandem then [{ code := cPERM }] else []) = ([] : List FaultRec) :=
    if_neg (by simpa using hp)
  rw [State.blkRecords, State.filterMap_blkEntries, entries, range]
  · refine congrArg Except.ok ?_
    rw [State.blkEntries, List.filterMap_map, ← List.filterMap_eq_map]
    refine List.filterMap_congr fun d hd => ?_
    simp only [Function.comp, hr d hd]
  · exact fun _ r => by cases r <;> rfl

end

/-! ## The lease instructions and MSTAT.ENG (R256, R266) -/

section
variable {s : State} {h : Hdr} {f : EF} {n p : Nat}

theorem exec_mlease_next (I : NibIssues s (.mlease h f) h n) (hp : (s.env h).g.place = some p) : exec (.mlease h f) s =
    let e := s.env h
    let u := s.beginIssue h
    .next (if u.mayQueue e.core (some p) = true then u
      else (if p ∈ (u.core e.core).fifo ∨ ((u.core e.core).holder = some p ∧ e.team.releasing = false) then u
        else u.modCore e.core fun k => { k with fifo := k.fifo ++ [p] }).waitAt e e.lanes .lease) := by
  rw [exec_mlease, execMlease, nibIssue_next I, hp]
  refine congrArg _ (if_congr Iff.rfl rfl ?_)
  dsimp only
  congr 1
  exact if_congr (by simp) rfl rfl

theorem exec_mrel_next (I : NibIssues s (.mrel h f) h n) (hp : (s.env h).g.place = some p) : exec (.mrel h f) s =
    let e := s.env h
    let v := (s.beginIssue h).modCore e.core fun k => { k with fifo := k.fifo.filter (· != p) }
    .next (if (v.core e.core).holder ≠ some p then v
      else if e.team.queue = [] then
        (v.modTeam e.core p fun t => { t with leaseCount := 0, releasing := false }).modCore e.core fun k => { k with holder := none }
      else v.modTeam e.core p fun t => { t with releasing := true }) := by
  rw [exec_mrel, execMrel, nibIssue_next I, hp]
  exact congrArg _ (if_congr bne_iff_ne rfl (if_congr List.isEmpty_iff rfl rfl))

end

/-! ## MSTA and MLDW (R257, R264) -/

section
variable {s : State} {h : Hdr} {f : EF} {n p : Nat}

/-- The format of an MSTA: one of those that it accepts. -/
def mstaFormat (code : Nat) : Option Ty := (Ty.ofCode code).bind fun t => if mstaTypes.contains t then some t else none

theorem mstaFormat_some {code : Nat} {t : Ty} (ht : Ty.ofCode code = some t) (hm : t ∈ mstaTypes) : mstaFormat code = some t := by
  rw [mstaFormat, ht]
  exact if_pos (List.contains_iff_mem.2 hm)

theorem mstaFormat_none {code : Nat} (h : ∀ t ∈ mstaTypes, Ty.ofCode code ≠ some t) : mstaFormat code = none := by
  rw [mstaFormat]
  cases ht : Ty.ofCode code with
  | none => rfl
  | some t => exact if_neg fun hm => h t (List.contains_iff_mem.1 hm) ht

theorem exec_msta_shape (I : NibIssues s (.msta h f) h n) (hp : (s.env h).g.place = some p) (ha : f.acc.val < (s.env h).team.nacc)
    (hf : mstaFormat (f.mod.toNat % 32) = none) :
    exec (.msta h f) s = .next ((s.beginIssue h).raise (s.env h) n { code := cSHAPE }) := by
  refine (teamOp_given I hp (exec_msta s h f) ha).trans (congrArg _ ?_)
  dsimp only
  split
  · rfl
  · next t ht => cases Eq.trans (show some t = mstaFormat _ from ht.symm) hf

theorem exec_msta_next (I : NibIssues s (.msta h f) h n) (hp : (s.env h).g.place = some p) (ha : f.acc.val < (s.env h).team.nacc) {t : Ty}
    (hf : mstaFormat (f.mod.toNat % 32) = some t) : exec (.msta h f) s =
    let e := s.env h
    let u := s.beginIssue h
    let off := (e.src32 n f.a).toNat
    let pitch := (e.src32 n f.b).toNat
    let hd := e.src64 n false f.a
    .next (if f.sub = 0 then
        (if localOk e.team off pitch 0 t.width (upto 32) 32 = false then u.raise e n { code := cPERM, addr := BitVec.ofNat 64 off }
        else u.enqueue e p (e.mop u n f.acc.val (.msta (.lmem off pitch 0 0) f.mod)))
      else u.withEntry e n hd fun rec v => if recFormat rec != some t then v.nibFault e n cSHAPE
        else v.enqueue e p (e.mop v n f.acc.val (.msta (.handle hd rec) f.mod))) := by
  refine (teamOp_given I hp (exec_msta s h f) ha).trans (congrArg _ ?_)
  dsimp only
  split
  · next hn => cases Eq.trans (show none = mstaFormat _ from hn.symm) hf
  · next t' ht =>
    cases Eq.trans (show some t' = mstaFormat _ from ht.symm) hf
    exact if_congr beq_iff_eq (if_congr (Bool.not_eq_true' _).to_iff rfl rfl) rfl

theorem exec_mldw_next (I : NibIssues s (.mldw h f) h n) (hp : (s.env h).g.place = some p) : exec (.mldw h f) s =
    let e := s.env h
    let u := s.beginIssue h
    let fmt := (Ty.ofCode f.mod.toNat).getD .f4
    let off := (e.src32 n f.a).toNat
    let pitch := (e.src32 n f.b).toNat
    let hd := e.src64 n false f.a
    .next (if f.sub = 0 then
        (if localOk e.team off pitch 0 fmt.width (upto (ksOf fmt fmt)) 32 = false then
          u.raise e n { code := cPERM, addr := BitVec.ofNat 64 off }
        else u.enqueueLeased e n p (e.mop u n 16 (.mldw (.lmem off pitch 0 0) fmt)))
      else u.withEntry e n hd fun rec v => if recFormat rec != some fmt then v.nibFault e n cSHAPE
        else v.enqueueLeased e n p (e.mop v n 16 (.mldw (.handle hd rec) fmt))) :=
  (teamOp_next I hp (exec_mldw s h f)).trans
    (congrArg _ (if_congr beq_iff_eq (if_congr (Bool.not_eq_true' _).to_iff rfl rfl) rfl))

end

/-- A range that lies inside: the two ways round of its test. -/
theorem ite_not_local {b : Bool} {x y : State} : (if b = false then x else y) = if b = true then y else x := by
  cases b <;> rfl

/-- Settles O40: each instruction's issue by the checks of its place, its operands and its lease in their order, the entries read at
issue leaving the lease and the names as they were. -/
theorem matrixIssue : Obligations.MatrixIssue := by
  unfold Obligations.MatrixIssue
  refine ⟨fun s e p o => ⟨State.enqueue_full, State.enqueue_unnamed, State.enqueue_named⟩, fun s e n p o =>
    ⟨fun hl hf => State.enqueueLeased_unleased (not_or.2 ⟨hl, hf⟩), State.enqueueLeased_waits, State.enqueueLeased_enters⟩,
    fun s h f n p hp => ?instructions⟩
  case instructions =>
    intro e u c acc given op got a b hd wf late byHandle leased lines k block done reads
    have blocks : ∀ i tandem, exec i s = s.mmaIssue i h f tandem → block i tandem := by
      intro i tandem hx I
      have run := hx.trans (mmaIssue_next I hp tandem)
      have aligned : a % 64 = 0 → ¬a % 64 ≠ 0 := not_not.2
      refine ⟨fun ha => run.trans (congrArg _ (if_pos ha)), fun ha hg => run.trans (congrArg _ ((if_neg (aligned ha)).trans (if_pos hg))),
        fun ha hg hr => run.trans (congrArg _ ((if_neg (aligned ha)).trans ((if_neg (not_not.2 hg)).trans (if_pos hr)))),
        fun ha hg hr hl => run.trans (congrArg _ ((if_neg (aligned ha)).trans ((if_neg (not_not.2 hg)).trans
          ((if_neg (by rw [Bool.not_eq_false]; exact hr)).trans (if_pos hl))))), fun ha hg hr hl => ?_⟩
      have placed := run.trans (congrArg _ ((if_neg (aligned ha)).trans ((if_neg (not_not.2 hg)).trans
        ((if_neg (by rw [Bool.not_eq_false]; exact hr)).trans (if_neg (by rw [Bool.not_eq_false]; exact hl))))))
      refine ⟨fun d pre post hd hpre hlate => placed.trans (congrArg _ (State.afterEntries_waits hd hpre hlate)), fun hlate => ?_⟩
      have read := placed.trans (congrArg _ (State.afterEntries_goes hlate))
      have same := u.entriesRead_leases e k tandem
      have lease : ∀ p, (u.entriesRead e k tandem).Leased e p ↔ u.Leased e p := State.leased_congr same e
      intro w
      refine ⟨fun x hr => read.trans (congrArg _ (State.mmaGo_error hr)), fun rs hr => ?_⟩
      intro shaped pair at_
      refine ⟨fun hs => read.trans (congrArg _ (State.mmaGo_misshaped hr hs)),
        fun hs ht hn hl => read.trans (congrArg _ (State.mmaGo_tandem hr hs ht hn ((lease p).2 hl))), fun hs ho => ?_⟩
      have enters := State.mmaGo_enters (n := n) hr hs (ho.imp id (Or.imp id (mt (lease p).1)))
      exact read.trans (congrArg _ (enters.trans (congrArg (w.enqueueLeased e n p) (Env.mop_congr same ..))))
    refine ⟨fun I ha => teamOp_given I hp (exec_mclr s h f) ha, fun I ha => teamOp_given I hp (exec_mguide s h f) ha,
      fun I ha => teamOp_notGiven I hp (exec_mclr s h f) ha, fun I ha => ?msta, fun I => ?mldw,
      fun I => teamOp_next I hp (exec_mswap s h f), blocks _ _ rfl, blocks _ _ rfl, fun v b tandem => ?records,
      fun I ha => accRead_does I hp (exec_mprog s h f) rfl ha, fun I ha => accRead_does I hp (exec_mstatArith s h f) rfl ha,
      fun all susp => e.team.accDone_iff acc all susp, ?mstatEng, fun I ha => ?mwait, fun I => ?mlease, fun I => ?mrel⟩
    case msta =>
      refine ⟨fun t ht hm => ?_, fun hn => exec_msta_shape I hp ha (mstaFormat_none hn)⟩
      have run := exec_msta_next I hp ha (mstaFormat_some ht hm)
      refine ⟨fun hs => run.trans (congrArg _ ((if_pos hs).trans ite_not_local)), fun hs => ?_⟩
      exact exec_withEntry (fun v o => v.enqueue e p o) acc (fun r => .msta (.handle hd r) f.mod) (run.trans (congrArg _ (if_neg hs)))
    case mldw =>
      have run := exec_mldw_next I hp
      refine ⟨fun hs => run.trans (congrArg _ ((if_pos hs).trans ite_not_local)), fun hs => ?_⟩
      exact exec_withEntry (fun v o => v.enqueueLeased e n p o) 16 (fun r => .mldw (.handle hd r) wf) (run.trans (congrArg _ (if_neg hs)))
    case records =>
      intro entry perm
      refine ⟨fun r hr hn => State.blkRecords_ok hr hn, fun x hx => ?_⟩
      have listed : x ∈ v.entryFaults e b tandem ++ blockRangeFault e b tandem := by
        rw [List.mem_append]
        refine hx.imp (fun ⟨d, hd, he⟩ => List.mem_filterMap.2 ⟨d, hd, ?_⟩) fun ⟨hl, he⟩ => ?_
        · rw [show v.entryOf e.core e.slot e.g.ctx (descHandle b d) = .error x from he]
          rfl
        · rw [blockRangeFault, if_pos (by simpa using hl), he]
          exact List.mem_singleton.2 rfl
      obtain ⟨y, hy, hle⟩ := firstFault_of_mem (code := FaultRec.code) listed
      exact ⟨y, State.blkRecords_error hy, hle⟩
    case mstatEng =>
      intro held x parked I ha
      refine accRead_does I hp (exec_mstatEng s h f) ?_ ha
      refine congrArg (BitVec.ofNat 32) ?_
      simp only [beq_iff_eq, List.contains_iff_mem, ite_add_ite, Nat.add_zero]
      rfl
    case mwait =>
      have run : exec (.mwait h f) s = .next (if e.team.accDone acc (f.mod.getLsbD 0) false then u
          else u.waitAt e e.lanes (.acc acc (f.mod.getLsbD 0) false)) := by
        by_cases hall : f.mod.getLsbD 0 = true
        · exact teamOp_next I hp ((exec_mwait s h f).trans (by rw [execMwait, if_pos hall]))
        · exact teamOp_given I hp ((exec_mwait s h f).trans (by rw [execMwait, if_neg hall])) (ha.resolve_left hall)
      exact ⟨fun hd => run.trans (congrArg _ (if_pos hd)), fun hd => run.trans (congrArg _ (if_neg hd))⟩
    case mlease =>
      have run := exec_mlease_next I hp
      refine ⟨fun hq => run.trans (congrArg _ (if_pos hq)), fun hq hh hf => ?_, fun hq hf => ?_⟩
      all_goals refine run.trans (congrArg _ ((if_neg (by rw [Bool.not_eq_true]; exact hq)).trans ?_))
      · exact congrArg (State.waitAt · e e.lanes .lease) (if_neg fun h => h.elim hf fun h => hh h.1)
      · exact congrArg (State.waitAt · e e.lanes .lease) (if_pos (.inl hf))
    case mrel =>
      intro v
      have run := exec_mrel_next I hp
      exact ⟨fun hh => run.trans (congrArg _ (if_pos hh)), fun hh hq => run.trans (congrArg _ ((if_neg (not_not.2 hh)).trans (if_pos hq))),
        fun hh hq => run.trans (congrArg _ ((if_neg (not_not.2 hh)).trans (if_neg hq)))⟩

end Sys2Proof.Machine

/-! PROOFS of the statements of 15_engine_instructions.md: the matrix engine runs its queues (R255 to R257, R260 to R264, R280, R290). -/

namespace Sys2Proof.Machine

/-! ## Accumulators and counters of a team -/

section
variable (t : Team) (i j : Nat)

theorem Team.acc_setAcc (a : Acc) : (t.setAcc i a).acc j = if j = i then a else t.acc j := SMap.get_set ..

theorem Team.progress_modProg (f : Prog → Prog) :
    (t.modProg i f).progress j = if j = i then f (t.progress i) else t.progress j := SMap.get_set ..

@[simp] theorem Team.acc_modProg (f : Prog → Prog) : (t.modProg i f).acc j = t.acc j := rfl

end

section
variable {s : State} {c p : Nat}

/-- A place with an operation queued holds a team. -/
theorem State.find_of_queue {o : MOp} {rest : List MOp} (h : (s.team c p).queue = o :: rest) : ((s.core c).teams.find p).isSome = true := by
  cases ht : (s.core c).teams.find p with
  | some t => rfl
  | none =>
    rw [State.team, ht] at h
    cases h

theorem State.team_modTeam_of (h : ((s.core c).teams.find p).isSome = true) (f : Team → Team) :
    (s.modTeam c p f).team c p = f (s.team c p) := by
  obtain ⟨t, ht⟩ := Option.isSome_iff_exists.1 h
  rw [State.team_modTeam, State.team, ht]
  rfl

theorem State.find_modTeam_of (h : ((s.core c).teams.find p).isSome = true) (f : Team → Team) :
    (((s.modTeam c p f).core c).teams.find p).isSome = true := by
  simpa [State.modTeam] using h

/-- A change of a team that leaves some part of every team leaves that part of this one. -/
theorem State.part_modTeam {α : Type} (part : Team → α) {f : Team → Team} (hf : ∀ t, part (f t) = part t) :
    part ((s.modTeam c p f).team c p) = part (s.team c p) := by
  rw [State.team_modTeam, State.team]
  cases (s.core c).teams.find p with
  | none => rfl
  | some t => exact hf t

theorem State.progress_popHead (n : Nat) : ((s.popHead c p).team c p).progress n = (s.team c p).progress n := by
  have left := s.part_modTeam (c := c) (p := p) (·.progress n) (f := fun t => { t with queue := t.queue.drop 1 }) fun _ => rfl
  unfold State.popHead
  dsimp only
  split
  · rw [State.team, State.core_modCore]
    exact (State.part_modTeam (·.progress n) (f := fun t => { t with releasing := false, leaseCount := 0 }) fun _ => rfl).trans left
  · exact left

end

/-! ## Cells and progress written one after the other -/

/-- A cell of an accumulator written, with the status bits that this sets. -/
def Acc.putCell (a : Acc) (i : Nat) (x : Cell × W32) : Acc := { cells := SMap.set {} a.cells i x.1, status := a.status ||| x.2 }

theorem Acc.putCells (f : Nat → Cell × W32) (is : List Nat) (a : Acc) :
    let b := is.foldl (fun a i => a.putCell i (f i)) a
    (∀ i, b.cell i = if i ∈ is then (f i).1 else a.cell i) ∧
      ∀ n, b.status.getLsbD n = true ↔ a.status.getLsbD n = true ∨ ∃ i ∈ is, (f i).2.getLsbD n = true := by
  induction is generalizing a with
  | nil => simp
  | cons j js ih =>
    obtain ⟨cells, status⟩ := ih (a.putCell j (f j))
    have put : ∀ i, (a.putCell j (f j)).cell i = if i = j then (f j).1 else a.cell i := fun i => SMap.get_set ..
    refine ⟨fun i => ?_, fun n => ?_⟩
    · rw [List.foldl_cons, cells, put]
      by_cases hj : i = j
      · simp [hj]
      · simp [hj]
    · rw [List.foldl_cons, status]
      simp [Acc.putCell, or_assoc]

/-- An accumulator opened by an operation: cleared where it clears, its flags down. -/
def Team.openAcc (clear : Bool) (a : Acc) (t : Team) (n : Nat) : Team :=
  (if clear then t.setAcc n a else t).modProg n fun p => { p with complete := false, fault := 0 }

section
variable (clear : Bool) (a : Acc) (t : Team) (m n : Nat)

theorem Team.queue_openAcc : (t.openAcc clear a m).queue = t.queue := by cases clear <;> rfl

theorem Team.acc_openAcc : (t.openAcc clear a m).acc n = if n = m ∧ clear = true then a else t.acc n := by
  cases clear with
  | false => simp [Team.openAcc]
  | true => simp [Team.openAcc, Team.acc_setAcc]

theorem Team.progress_openAcc :
    (t.openAcc clear a m).progress n = if n = m then { t.progress n with complete := false, fault := 0 } else t.progress n := by
  rw [Team.openAcc, Team.progress_modProg]
  refine if_ctx_congr Iff.rfl (fun h => ?_) fun _ => ?_
  · subst h
    cases clear <;> rfl
  · cases clear <;> rfl

theorem Team.openAccs (ns : List Nat) :
    let u := ns.foldl (Team.openAcc clear a) t
    u.queue = t.queue ∧ (∀ n, u.acc n = if n ∈ ns ∧ clear = true then a else t.acc n) ∧
      ∀ n, u.progress n = if n ∈ ns then { t.progress n with complete := false, fault := 0 } else t.progress n := by
  induction ns generalizing t with
  | nil => simp
  | cons m ms ih =>
    obtain ⟨queue, accs, prog⟩ := ih (t.openAcc clear a m)
    refine ⟨queue.trans (t.queue_openAcc clear a m), fun n => ?_, fun n => ?_⟩
    · rw [List.foldl_cons, accs, Team.acc_openAcc]
      by_cases hn : n = m
      · cases clear <;> simp [hn]
      · simp [hn]
    · rw [List.foldl_cons, prog, Team.progress_openAcc]
      by_cases hn : n = m
      · simp [hn]
      · simp [hn]

end

/-- Those of a team's accumulators that a test passes become complete, and no other thing of their progress changes. -/
theorem Team.complete_fold (test : Nat → Bool) (a : Nat) (is : List Nat) (t : Team) (n : Nat) :
    ((is.foldl (fun u n => if test n then u.modProg (a + n) fun p => { p with complete := true } else u) t).progress (a + n)).complete =
      ((decide (n ∈ is) && test n) || (t.progress (a + n)).complete) := by
  induction is generalizing t with
  | nil => simp
  | cons i is ih =>
    rw [List.foldl_cons, ih]
    by_cases hn : n = i
    · subst hn
      cases test n <;> simp [Team.progress_modProg]
    · have other : ((if test i = true then t.modProg (a + i) fun p => { p with complete := true } else t).progress (a + n)).complete =
          (t.progress (a + n)).complete := by
        split
        · rw [Team.progress_modProg, if_neg (by omega)]
        · rfl
      simp [other, hn]

/-! ## Operations without k-steps (R257, R262 to R264) -/

/-- The head operation begins: it has not, and it is ready. -/
theorem begins {o : MOp} {b : Bool} (h : o.started = false ∧ b = true) : ¬(o.started || !b) = true := by
  simp [h.1, h.2]

/-- The format of an MSTA at the head. -/
def mstaTy (mod : BitVec 20) : Ty := (Ty.ofCode (mod.toNat % 32)).getD .f32

/-- The exponent offset of an MSTA: its tensor's, or its own. -/
def mstaExp (dst : Operand) (mod : BitVec 20) : Int :=
  match dst with
  | .handle _ r => recSigned r 80 6
  | _ => (field mod 8 6).toInt

/-- What an MSTA at the head writes: its cells from the first not yet written. -/
def State.mstaWrites (s : State) (c p : Nat) (o : MOp) (dst : Operand) (mod : BitVec 20) : State × Option (Nat × Stop) :=
  State.mstaCells (o.master c p) p ((s.team c p).acc o.acc) dst (mstaTy mod) (Rnd.ofCode (field mod 5 3)) (mod.getLsbD 17)
    (mod.getLsbD 18) (mstaExp dst mod) (1024 - o.step) o.step s

theorem mstaGoes {int float : Bool} (h : int = true ∨ float = true) : ¬(!int && !float) = true := by
  rcases h with h | h <;> simp [h]

/-- The accumulators of an MGUIDE are a tandem pair of its group, complete, in wide mode and at one anchor. -/
def Team.PairReady (t : Team) (o : MOp) (grp : Nat) : Prop :=
  grp = o.acc ∧ maskBit t.tmask (o.acc / 2) = true ∧ o.acc + 1 < t.nacc ∧ (t.progress o.acc).complete = true ∧
    (t.progress (o.acc + 1)).complete = true ∧ (t.acc o.acc).intMode = false ∧ (t.acc (o.acc + 1)).intMode = false ∧
    (t.acc o.acc).anchor = (t.acc (o.acc + 1)).anchor

theorem Team.pairReady_iff {t : Team} {o : MOp} {grp : Nat} :
    (grp != o.acc || !maskBit t.tmask (o.acc / 2) || t.nacc ≤ o.acc + 1 || !(t.progress o.acc).complete
      || !(t.progress (o.acc + 1)).complete || (t.acc o.acc).intMode || (t.acc (o.acc + 1)).intMode
      || (t.acc o.acc).anchor != (t.acc (o.acc + 1)).anchor) = true ↔ ¬t.PairReady o grp := by
  rw [← not_iff_not, not_not]
  simp [Team.PairReady, and_assoc]

section
variable {s : State} {c p : Nat} {o : MOp} {rest : List MOp} (hq : (s.team c p).queue = o :: rest)
include hq

theorem exec_start_idle (h : ¬(o.started = false ∧ s.headReady c p o = true)) : exec (.matrixOperationStart c p) s = .next s := by
  have idle : (o.started || !s.headReady c p o) = true := by
    rw [Bool.or_eq_true, Bool.not_eq_true', or_iff_not_imp_left, ← Bool.not_eq_true]
    exact fun hs hr => h ⟨eq_false_of_ne_true hs, hr⟩
  rw [exec_matrixOperationStart, execMatrixOperationStart, hq]
  exact congrArg _ (if_pos idle)

variable (ready : o.started = false ∧ s.headReady c p o = true)
include ready

theorem exec_start_mswap (hk : o.kind = .mswap) : exec (.matrixOperationStart c p) s =
    .next ((s.modTeam c p fun x => { x with active := x.shadow, shadow := x.active }).popHead c p) := by
  rw [exec_matrixOperationStart, execMatrixOperationStart, hq]
  refine congrArg _ ((if_neg (begins ready)).trans ?_)
  rw [hk]

theorem exec_start_mma {b k a0 a1 w} (hk : o.kind = .mma b k a0 a1 w) :
    exec (.matrixOperationStart c p) s = .next (s.mmaStart c p o k a0) := by
  rw [exec_matrixOperationStart, execMatrixOperationStart, hq]
  refine congrArg _ ((if_neg (begins ready)).trans ?_)
  rw [hk]

theorem exec_start_mclr {m} (hk : o.kind = .mclr m) : exec (.matrixOperationStart c p) s =
    .next ((s.modTeam c p fun x => (x.setAcc o.acc (clearAcc (field m 0 7) (m.getLsbD 7))).modProg o.acc fun q =>
      { q with complete := true, fault := 0 }).popHead c p) := by
  rw [exec_matrixOperationStart, execMatrixOperationStart, hq]
  refine congrArg _ ((if_neg (begins ready)).trans ?_)
  rw [hk]

section
variable {src : Operand} {fmt : Ty} {u : State} (hk : o.kind = .mldw src fmt)
include hk

theorem exec_start_mldw_ok {w : Plane} (hr : s.readPlane (o.master c p) p src fmt (ksOf fmt fmt) 0 = (.ok w, u)) :
    exec (.matrixOperationStart c p) s = .next ((u.modTeam c p fun x => { x with shadow := w }).popHead c p) := by
  rw [exec_matrixOperationStart, execMatrixOperationStart, hq]
  refine congrArg _ ((if_neg (begins ready)).trans ?_)
  rw [hk]
  dsimp only
  rw [hr]

theorem exec_start_mldw_error {x : Stop} (hr : s.readPlane (o.master c p) p src fmt (ksOf fmt fmt) 0 = (.error x, u)) :
    exec (.matrixOperationStart c p) s = .next (u.headStop s c p o [] 0 x) := by
  rw [exec_matrixOperationStart, execMatrixOperationStart, hq]
  refine congrArg _ ((if_neg (begins ready)).trans ?_)
  rw [hk]
  dsimp only
  rw [hr]

end

section
variable {dst : Operand} {mod : BitVec 20} (hk : o.kind = .msta dst mod)
include hk

theorem exec_start_msta_shape (hi : ((s.team c p).acc o.acc).intMode = false) (hf : (mstaTy mod).isFloat = false) :
    exec (.matrixOperationStart c p) s = .next ((s.opFault c p o [o.acc] { code := cSHAPE }).popHead c p) := by
  rw [exec_matrixOperationStart, execMatrixOperationStart, hq]
  refine congrArg _ ((if_neg (begins ready)).trans ?_)
  rw [hk]
  refine if_pos ?_
  rw [Bool.and_eq_true, Bool.not_eq_true', Bool.not_eq_true']
  exact ⟨hi, hf⟩

variable (hf : ((s.team c p).acc o.acc).intMode = true ∨ (mstaTy mod).isFloat = true)
include hf

variable {u : State}

theorem exec_start_msta_ends (hc : s.mstaWrites c p o dst mod = (u, none)) : exec (.matrixOperationStart c p) s =
    .next ((u.modTeam c p fun q => q.modProg o.acc fun r => { r with fault := 0 }).popHead c p) := by
  rw [exec_matrixOperationStart, execMatrixOperationStart, hq]
  refine congrArg _ ((if_neg (begins ready)).trans ?_)
  rw [hk]
  refine (if_neg (mstaGoes hf)).trans ?_
  dsimp only
  split
  · next h => cases Eq.trans (show _ = s.mstaWrites c p o dst mod from h.symm) hc
  · next h =>
    cases Eq.trans (show _ = s.mstaWrites c p o dst mod from h.symm) hc
    rfl

theorem exec_start_msta_stops {i : Nat} {x : Stop} (hc : s.mstaWrites c p o dst mod = (u, some (i, x))) :
    exec (.matrixOperationStart c p) s = .next (u.headStop s c p o [o.acc] i x) := by
  rw [exec_matrixOperationStart, execMatrixOperationStart, hq]
  refine congrArg _ ((if_neg (begins ready)).trans ?_)
  rw [hk]
  refine (if_neg (mstaGoes hf)).trans ?_
  dsimp only
  split
  · next h =>
    cases Eq.trans (show _ = s.mstaWrites c p o dst mod from h.symm) hc
    rfl
  · next h => cases Eq.trans (show _ = s.mstaWrites c p o dst mod from h.symm) hc

end

section
variable {w : W32} {grp : Nat} (hk : o.kind = .mguide w grp)
include hk

theorem exec_start_mguide_tandem (hg : ¬(s.team c p).PairReady o grp) :
    exec (.matrixOperationStart c p) s = .next ((s.opFault c p o [o.acc] { code := cTANDEM }).popHead c p) := by
  rw [exec_matrixOperationStart, execMatrixOperationStart, hq]
  refine congrArg _ ((if_neg (begins ready)).trans ?_)
  rw [hk]
  exact if_pos (Team.pairReady_iff.2 hg)

theorem exec_start_mguide (hg : (s.team c p).PairReady o grp) : exec (.matrixOperationStart c p) s =
    .next ((s.modTeam c p fun q => (q.setAcc o.acc ((upto 1024).foldl (fun a i => a.putCell i (guideCell (fF32.decode w.toNat)
      (((s.team c p).acc o.acc).cell i) (((s.team c p).acc (o.acc + 1)).cell i))) ((s.team c p).acc o.acc))).modProg o.acc fun r =>
        { r with complete := true, fault := 0 }).popHead c p) := by
  rw [exec_matrixOperationStart, execMatrixOperationStart, hq]
  refine congrArg _ ((if_neg (begins ready)).trans ?_)
  rw [hk]
  exact if_neg fun h => Team.pairReady_iff.1 h hg

end

end

/-! ## The start and the end of a matrix operation (R259 to R261) -/

/-- The plane in use is of the operation's formats, or streamed. -/
def Team.PlaneFits (t : Team) (k : BitVec 512) : Prop :=
  blkBit k 22 = true ∨ (t.active.fmt = some (blkWfmt k) ∧ t.active.ks = ksOf (blkAfmt k) (blkWfmt k))

/-- The accumulators of the operation are cleared, or in its mode. -/
def Team.ModeFits (t : Team) (o : MOp) (k : BitVec 512) : Prop :=
  (blkBit k 24 = true ∧ blkBit k 26 = false) ∨ ∀ n ∈ o.accs, (t.acc n).intMode = !(blkAfmt k).isFloat

theorem Team.misfit_iff {t : Team} {o : MOp} {k : BitVec 512} :
    ((!blkBit k 22 && (t.active.fmt != some (blkWfmt k) || t.active.ks != ksOf (blkAfmt k) (blkWfmt k)))
      || (!(blkBit k 24 && !blkBit k 26) && o.accs.any fun n => (t.acc n).intMode != !(blkAfmt k).isFloat)) = true ↔
    ¬(t.PlaneFits k ∧ t.ModeFits o k) := by
  rw [← not_iff_not, not_not, Bool.or_eq_true, not_or]
  refine and_congr ?_ ?_
  · simp [Team.PlaneFits, imp_iff_not_or]
  · rw [Team.ModeFits, Bool.and_eq_true, not_and_or, Bool.not_eq_true', Bool.not_eq_false, Bool.and_eq_true, Bool.not_eq_true',
      Bool.not_eq_true, List.any_eq_false]
    simp only [bne_iff_ne, ne_eq, not_not]

/-- The counters of an operation's steps set to zero, unless it continues. -/
def Team.restart (t : Team) (o : MOp) (continues : Bool) : Team :=
  if continues then t else t.modProg o.acc fun p => { p with k0 := 0, k1 := if o.accs.length = 2 then 0 else p.k1 }

section
variable {t : Team} {o : MOp} {continues : Bool} (n : Nat)

theorem Team.queue_restart : (t.restart o continues).queue = t.queue := by cases continues <;> rfl

theorem Team.acc_restart : (t.restart o continues).acc n = t.acc n := by cases continues <;> rfl

theorem Team.progress_restart : ((t.restart o continues).progress n).complete = (t.progress n).complete ∧
    ((t.restart o continues).progress n).fault = (t.progress n).fault := by
  cases continues with
  | true => exact ⟨rfl, rfl⟩
  | false =>
    by_cases hn : n = o.acc
    · simp [Team.restart, Team.progress_modProg, hn]
    · simp [Team.restart, Team.progress_modProg, hn]

theorem MOp.mem_accs (o : MOp) (h : n ∈ o.accs) : n = o.acc ∨ n = o.acc + 1 ∧ o.accs.length = 2 := by
  revert h
  unfold MOp.accs
  split <;> simp

theorem Team.stepsDone_restart (h : n ∈ o.accs) :
    (t.restart o continues).stepsDone o.acc (n - o.acc) = if continues then t.stepsDone o.acc (n - o.acc) else 0 := by
  cases continues with
  | true => rfl
  | false =>
    rcases o.mem_accs n h with rfl | ⟨rfl, two⟩
    · simp [Team.restart, Team.stepsDone, Team.progress_modProg]
    · simp [Team.restart, Team.stepsDone, Team.progress_modProg, two]

end

/-- A team whose accumulators an operation has opened. -/
def Team.opened (o : MOp) (k : BitVec 512) (a0 : Operand) (t : Team) : Team :=
  o.accs.foldl (Team.openAcc (blkBit k 24 && !blkBit k 26) (clearAcc (blkAnchor k a0) !(blkAfmt k).isFloat)) t

theorem Team.opened_parts (o : MOp) (k : BitVec 512) (a0 : Operand) (t : Team) :
    (t.opened o k a0).queue = t.queue ∧
    (∀ n, (t.opened o k a0).acc n = if n ∈ o.accs ∧ blkBit k 24 = true ∧ blkBit k 26 = false then
      clearAcc (blkAnchor k a0) !(blkAfmt k).isFloat else t.acc n) ∧
    ∀ n, (t.opened o k a0).progress n = if n ∈ o.accs then { t.progress n with complete := false, fault := 0 } else t.progress n := by
  obtain ⟨queue, accs, prog⟩ := Team.openAccs (blkBit k 24 && !blkBit k 26) (clearAcc (blkAnchor k a0) !(blkAfmt k).isFloat) t o.accs
  exact ⟨queue, fun n => (accs n).trans (if_congr (by simp) rfl rfl), prog⟩

theorem Team.stepsDone_opened (o : MOp) (k : BitVec 512) (a0 : Operand) (t : Team) (a n : Nat) :
    (t.opened o k a0).stepsDone a n = t.stepsDone a n := by
  obtain ⟨-, -, prog⟩ := Team.opened_parts o k a0 t
  rw [Team.stepsDone, prog]
  by_cases h : a ∈ o.accs
  · rw [if_pos h]
    rfl
  · rw [if_neg h]
    rfl

section
variable {s : State} {c p : Nat} {o : MOp} {rest : List MOp}

theorem State.mmaStart_shape {k : BitVec 512} {a0 : Operand} (h : ¬((s.team c p).PlaneFits k ∧ (s.team c p).ModeFits o k)) :
    s.mmaStart c p o k a0 = (s.opFault c p o o.accs { code := cSHAPE }).popHead c p := if_pos (Team.misfit_iff.2 h)

theorem State.team_modHead (here : ((s.core c).teams.find p).isSome = true) (hq : (s.team c p).queue = o :: rest) (f : MOp → MOp) :
    (s.modHead c p f).team c p = { s.team c p with queue := f o :: rest } := by
  rw [State.modHead, State.team_modTeam_of here]
  dsimp only
  rw [hq]

theorem State.mmaStart_goes {k : BitVec 512} {a0 : Operand} (h : (s.team c p).PlaneFits k ∧ (s.team c p).ModeFits o k)
    (hq : (s.team c p).queue = o :: rest) : (s.mmaStart c p o k a0).team c p =
    { ((s.team c p).opened o k a0).restart o (blkBit k 26) with queue := { o with started := true } :: rest } := by
  have here := State.find_of_queue hq
  have there := State.find_modTeam_of here (Team.opened o k a0)
  have opened := State.team_modTeam_of here (Team.opened o k a0)
  obtain ⟨kept, -, -⟩ := Team.opened_parts o k a0 (s.team c p)
  refine (congrArg (fun u : State => u.team c p) (if_neg fun hn => Team.misfit_iff.1 hn h)).trans ?_
  by_cases hc : blkBit k 26 = true
  · rw [Team.restart, if_pos hc, if_pos hc, ← opened]
    exact State.team_modHead there (by rw [opened, kept, hq]) _
  · have again := (State.team_modTeam_of there (Team.restart · o false)).trans ((congrArg (Team.restart · o false) opened).trans
      (congrArg (Team.restart _ o) (Bool.eq_false_of_not_eq_true hc).symm))
    rw [if_neg hc, ← again]
    exact State.team_modHead (State.find_modTeam_of there (Team.restart · o false)) (by rw [again]; exact Team.queue_restart.trans (kept.trans hq)) _

theorem State.complete_mmaEnd (hq : (s.team c p).queue = o :: rest) (steps : Nat) {n : Nat} (hn : n < o.accs.length) :
    (((s.mmaEnd c p o steps).team c p).progress (o.acc + n)).complete =
      (o.completes (s.team c p) steps n || ((s.team c p).progress (o.acc + n)).complete) := by
  rw [State.mmaEnd, State.progress_popHead, State.team_modTeam_of (State.find_of_queue hq), Team.complete_fold,
    decide_eq_true (mem_upto.2 hn), Bool.true_and]

end

/-! ## K-steps (R260, R261) -/

theorem MOp.unparked {o : MOp} (h : o.parked = []) : ({ o with parked := [] } : MOp) = o := by rw [← h]

theorem resumes {o : MOp} {b : Bool} (fresh : o.started = true) (ready : b = true) : ¬(!o.started || !b) = true := by
  simp [fresh, ready]

section
variable {s : State} {c p : Nat} {o : MOp} {rest : List MOp} {b : Bool} {k : BitVec 512} {a0 a1 : Operand} {w : Operand}
  (hq : (s.team c p).queue = o :: rest) (hk : o.kind = .mma b k a0 a1 w) (fresh : o.started = true) (free : o.parked = [])
  (ready : s.headReady c p o = true)
include hq hk fresh free ready

theorem exec_kStep_ends (hl : o.live (s.team c p) (blkSteps k) = []) :
    exec (.matrixKStep c p) s = .next (s.mmaEnd c p o (blkSteps k)) := by
  rw [exec_matrixKStep, execMatrixKStep, hq]
  dsimp only
  rw [MOp.unparked free, hk]
  refine congrArg _ ((if_neg (resumes fresh ready)).trans ?_)
  rw [hl]
  exact if_pos (List.isEmpty_iff.2 free)

variable {step : Nat} (hm : minOf ((o.live (s.team c p) (blkSteps k)).map fun x => (s.team c p).stepsDone o.acc x) = some step)
include hm

theorem exec_kStep_held {v : State} (hb : blkBit k 22 = false)
    (h : State.streamsStep c p o k a0 a1 (s.team c p).active step
      ((o.live (s.team c p) (blkSteps k)).filter fun x => (s.team c p).stepsDone o.acc x == step) s = some v) :
    exec (.matrixKStep c p) s = .next v := by
  rw [exec_matrixKStep, execMatrixKStep, hq]
  dsimp only
  rw [MOp.unparked free, hk]
  refine congrArg _ ((if_neg (resumes fresh ready)).trans ?_)
  rw [hm, hb]
  exact congrArg (·.getD s) h

theorem exec_kStep_streamed {q : Plane} {u v : State} (hb : blkBit k 22 = true)
    (hr : s.readPlane (o.master c p) p w (blkWfmt k) (ksOf (blkAfmt k) (blkWfmt k)) step = (.ok q, u))
    (h : State.streamsStep c p o k a0 a1 q step
      ((o.live (s.team c p) (blkSteps k)).filter fun x => (s.team c p).stepsDone o.acc x == step)
      (u.openPlane.2.modTeam c p fun x => { x with active := q, shadow := u.openPlane.1 }) = some v) :
    exec (.matrixKStep c p) s = .next v := by
  rw [exec_matrixKStep, execMatrixKStep, hq]
  dsimp only
  rw [MOp.unparked free, hk]
  refine congrArg _ ((if_neg (resumes fresh ready)).trans ?_)
  rw [hm]
  dsimp only
  rw [if_pos hb, hr]
  exact congrArg (·.getD s) h

end

/-! ## Streams of a k-step and the cells of an MSTA (R260, R261, R264) -/

theorem State.streamsStep_cons {s : State} {c p : Nat} {o : MOp} {k : BitVec 512} {a0 a1 : Operand} {w : Plane}
    {step n : Nat} {ns : List Nat} :
    State.streamsStep c p o k a0 a1 w step (n :: ns) s =
      (s.streamStep c p o k (if n = 0 then a0 else a1) w step n).bind (State.streamsStep c p o k a0 a1 w step ns) := by
  rw [State.streamsStep]
  cases s.streamStep c p o k (if n = 0 then a0 else a1) w step n <;> rfl

theorem Team.stepsDone_setSteps (t : Team) (a n x : Nat) : ((t.modProg a fun q => q.setSteps n x).stepsDone a n) = x := by
  rw [Team.stepsDone, Team.progress_modProg, if_pos rfl, Prog.setSteps]
  split <;> rfl

theorem State.streamStep_adds {s u : State} {c p : Nat} {o : MOp} {k : BitVec 512} {src : Operand} {w : Plane} {step n : Nat}
    {xs : List (Nat × List Elem)}
    (hr : s.readRows (o.master c p) p src (blkAfmt k) (ksOf (blkAfmt k) (blkWfmt k)) step
      ((upto (Nat.min 32 (blkRows k n))).filter fun i => maskBit (blkMask k n) i) = (.ok xs, u))
    (here : ((u.core c).teams.find p).isSome = true) : ∃ v, s.streamStep c p o k src w step n = some v ∧
      (v.team c p).acc (o.acc + n) = xs.foldl (fun a x => a.addRow (src.exp + w.exp) (blkBit k 23) (blkBit k 25) x.1 x.2
        (w.rows (blkWfmt k))) ((u.team c p).acc (o.acc + n)) ∧
      (v.team c p).stepsDone o.acc n = step + 1 ∧ (∀ j, j ≠ o.acc + n → (v.team c p).acc j = (u.team c p).acc j) ∧
      ∀ a, v.byte a = u.byte a := by
  refine ⟨u.modTeam c p fun t => (t.setAcc (o.acc + n) (xs.foldl (fun a x => a.addRow (src.exp + w.exp) (blkBit k 23) (blkBit k 25) x.1 x.2
    (w.rows (blkWfmt k))) (t.acc (o.acc + n)))).modProg o.acc fun q => q.setSteps n (step + 1), ?_, ?_⟩
  · rw [State.streamStep]
    dsimp only
    rw [hr]
  · rw [State.team_modTeam_of here]
    refine ⟨?_, Team.stepsDone_setSteps .., fun j hj => ?_, fun a => rfl⟩
    · rw [Team.acc_modProg, Team.acc_setAcc, if_pos rfl]
    · rw [Team.acc_modProg, Team.acc_setAcc, if_neg hj]

section
variable {m : Master} {a : Acc} {fmt : Ty} {rnd : Rnd} {sat nof : Bool} {eo : Int} {n i : Nat} {s : State} {p : Nat}

section
variable {off pitch : Nat} {sbe : Int} {swz : Nat}

/-- The watch registers that the store of a cell to local memory meets. -/
def State.cellHits (s : State) (m : Master) (off pitch e i : Nat) : List (Nat × Nat) :=
  s.watchTeam m.core m.slot (m.place <|> (s.group m.core m.slot).place) (s.group m.core m.slot).watch m.lane .write false true
    (off + i / 32 * pitch + i % 32 * e / 8) (elemBytes e)

theorem State.mstaCells_local (h : lowestHit (s.cellHits m off pitch fmt.width i) = none) :
    State.mstaCells m p a (.lmem off pitch sbe swz) fmt rnd sat nof eo (n + 1) i s =
      let r := s.absLocal m.core p (off + i / 32 * pitch + i % 32 * fmt.width / 8)
      State.mstaCells m p a (.lmem off pitch sbe swz) fmt rnd sat nof eo n (i + 1) (s.lwrite m.core r (elemPut fmt.width
        (fmt.width == 4 && i % 2 == 1) (a.out i fmt rnd sat nof eo) ((s.core m.core).lbytes r (elemBytes fmt.width)))) := by
  rw [State.cellHits] at h
  rw [State.mstaCells]
  dsimp only
  rw [h]

theorem State.mstaCells_watched {k d : Nat} (h : lowestHit (s.cellHits m off pitch fmt.width i) = some (k, d)) :
    State.mstaCells m p a (.lmem off pitch sbe swz) fmt rnd sat nof eo (n + 1) i s = (s, some (i, .fault
      { code := cWATCH, addr := BitVec.ofNat 64 (off + i / 32 * pitch + i % 32 * fmt.width / 8 + d), num := BitVec.ofNat 16 k })) := by
  rw [State.cellHits] at h
  rw [State.mstaCells]
  dsimp only
  rw [h]

end

section
variable {hd : W64} {r : BitVec 512}

/-- Where a cell lies in a tensor. -/
def cellSpot (hd : W64) (r : BitVec 512) (i : Nat) : Option (W64 × Bool) :=
  (tensorLayout r).addr [(handleCoords hd).1 + i % 32, (handleCoords hd).2 + i / 32, 0, 0]

theorem State.mstaCells_outside (h : cellSpot hd r i = none) : State.mstaCells m p a (.handle hd r) fmt rnd sat nof eo (n + 1) i s =
    State.mstaCells m p a (.handle hd r) fmt rnd sat nof eo n (i + 1) s := by
  rw [cellSpot] at h
  rw [State.mstaCells]
  dsimp only
  rw [h]

theorem State.mstaCells_tensor {va : W64} {hi : Bool} (h : cellSpot hd r i = some (va, hi)) : ∃ whole,
    let put := s.engWrite m va (elemBytes fmt.width) whole (elemPut fmt.width hi (a.out i fmt rnd sat nof eo))
    let cells := State.mstaCells m p a (.handle hd r) fmt rnd sat nof eo
    (∀ u, put = (.ok (), u) → cells (n + 1) i s = cells n (i + 1) u) ∧ ∀ u y, put = (.error y, u) → cells (n + 1) i s = (u, some (i, y)) := by
  rw [cellSpot] at h
  apply Exists.intro
  constructor
  · intro u hu
    rw [State.mstaCells]
    dsimp only
    rw [h]
    dsimp only
    rw [hu]
  · intro u y hu
    rw [State.mstaCells]
    dsimp only
    rw [h]
    dsimp only
    rw [hu]

end

end

/-! ## The lease (R256, R280, R290) -/

section
variable {s : State} {c p : Nat}

theorem exec_leaseGrant_free {q : Nat} {rest : List Nat} (hh : (s.core c).holder = none) (hf : (s.core c).fifo = q :: rest) :
    exec (.leaseGrant c) s = .next ((s.modCore c fun k => { k with holder := some q, fifo := rest }).modTeam c q fun x =>
      { x with leaseCount := if x.leaseCount = 0 then x.leaseLen else x.leaseCount }) := by
  rw [exec_leaseGrant, execLeaseGrant]
  dsimp only
  rw [hh, hf]

theorem exec_leaseExpiry_spent (hh : (s.core c).holder = some p) (hz : (s.team c p).leaseCount = 0) (hr : (s.team c p).releasing = false) :
    exec (.leaseExpiry c) s = .next (if (s.core c).fifo = [] then s.modTeam c p fun x => { x with leaseCount := x.leaseLen }
      else if (s.team c p).atRest = false then s else s.modCore c fun k => { k with holder := none, fifo := k.fifo ++ [p] }) := by
  rw [exec_leaseExpiry, execLeaseExpiry, hh]
  refine congrArg _ ((if_neg (by simp [hz, hr])).trans ?_)
  exact if_congr List.isEmpty_iff rfl (if_congr (Bool.not_eq_true' _).to_iff rfl rfl)

end

/-- Settles O41: each kind of the operation at the head by its own run, a matrix operation by what its start, its streams and its end do to
the team. -/
theorem matrixRuns : Obligations.MatrixRuns := by
  unfold Obligations.MatrixRuns
  intro s c p t
  refine ⟨fun hq => ?idle, fun o rest hq => ?head, ?cells, fun q rest hh hf => exec_leaseGrant_free hh hf, fun hh hz hr => ?expiry⟩
  case idle =>
    constructor
    · rw [exec_matrixOperationStart, execMatrixOperationStart, show (s.team c p).queue = [] from hq]
    · rw [exec_matrixKStep, execMatrixKStep, show (s.team c p).queue = [] from hq]
  case cells =>
    intro m a dst fmt rnd sat nof eo n i e x cells
    refine ⟨?_, ?_⟩
    · rintro off pitch sbe swz rfl
      exact ⟨State.mstaCells_local, fun k d => State.mstaCells_watched⟩
    · rintro hd r rfl
      exact ⟨State.mstaCells_outside, fun va hi => State.mstaCells_tensor⟩
  case expiry =>
    have run := exec_leaseExpiry_spent hh hz hr
    exact ⟨fun he => run.trans (congrArg _ (if_pos he)), fun he hn => run.trans (congrArg _ ((if_neg he).trans (if_pos hn))),
      fun he hn => run.trans (congrArg _ ((if_neg he).trans (if_neg (by rw [Bool.not_eq_false]; exact hn))))⟩
  case head =>
    intro ready
    refine ⟨exec_start_idle hq, exec_start_mswap hq, fun h m => exec_start_mclr hq h, fun h src fmt w u hk => exec_start_mldw_ok hq h hk,
      fun h src fmt x u hk => exec_start_mldw_error hq h hk, fun u as i f => if_congr (by simp) rfl rfl, fun h w grp hk => ?guide,
      fun h dst mod hk => ?msta, fun steps n hn => State.complete_mmaEnd hq steps hn, fun k a0 => ?start,
      fun h b k a0 a1 w => exec_start_mma hq h, fun fresh free goes b k a0 a1 w hk => ?kstep,
      fun b a0 a1 w step n ns => ⟨rfl, State.streamsStep_cons⟩, fun b src w step n xs u => ?stream⟩
    case guide =>
      intro x y cell good
      obtain ⟨cells, status⟩ := Acc.putCells cell (upto 1024) x
      refine ⟨exec_start_mguide_tandem hq h hk, fun hg => ⟨_, exec_start_mguide hq h hk hg, fun i hi => ?_, fun n => ?_⟩⟩
      · exact (cells i).trans (if_pos (mem_upto.2 hi))
      · simpa only [mem_upto] using status n
    case msta =>
      intro a fmt eo cells
      exact ⟨exec_start_msta_shape hq h hk, fun hf =>
        ⟨fun u => exec_start_msta_ends hq h hk hf, fun u i x => exec_start_msta_stops hq h hk hf⟩⟩
    case start =>
      intro int clear plane mode v
      refine ⟨State.mmaStart_shape, fun hp hm => ?_⟩
      have gone := State.mmaStart_goes (a0 := a0) ⟨hp, hm⟩ hq
      obtain ⟨-, accs, prog⟩ := Team.opened_parts o k a0 t
      rw [show v.team c p = _ from gone]
      refine ⟨rfl, fun n hn => ⟨fun hc => ?_, fun hc => ?_, ?_, ?_⟩⟩
      · exact (Team.acc_restart n).trans ((accs n).trans (if_pos ⟨hn, hc⟩))
      · exact (Team.acc_restart n).trans ((accs n).trans (if_neg fun h => hc h.2))
      · obtain ⟨complete, fault⟩ := Team.progress_restart (t := t.opened o k a0) (o := o) (continues := blkBit k 26) n
        rw [prog, if_pos hn] at complete fault
        exact ⟨complete, fault⟩
      · refine (Team.stepsDone_restart n hn).trans ?_
        rw [Team.stepsDone_opened]
    case kstep =>
      intro live
      exact ⟨exec_kStep_ends hq hk fresh free goes, fun step v hm => exec_kStep_held hq hk fresh free goes hm,
        fun step q u v hm => exec_kStep_streamed hq hk fresh free goes hm⟩
    case stream =>
      intro rows hr hs
      exact State.streamStep_adds hr hs

end Sys2Proof.Machine

/-! PROOFS of the statements of 17_scheduling_faults.md: reset, the taking of a fault, freezes, HALT and the delivery of faults (R283 to
R287, R291, R349, R350). -/

namespace Sys2Proof.Machine

/-- Settles O6: every map and list of the state at reset is empty, so every unit reads as its default. -/
theorem resetState : Obligations.ResetState := by
  unfold Obligations.ResetState
  refine ⟨?_, rfl, rfl, rfl⟩
  simp [State.reset, State.group, State.core, State.die, State.stream, State.byte, SMap.get, SMap.find]

/-! ## The word tcause (Table 17-6) -/

section
variable {f : FaultRec} {l : Nat}

theorem getLsbD_ofNat_32 {x i : Nat} (hi : i < 32) : (BitVec.ofNat 32 x).getLsbD i = decide (x / 2 ^ i % 2 = 1) := by
  rw [BitVec.getLsbD_ofNat, Nat.testBit_eq_decide_div_mod_eq]
  simp [hi]

/-- The bits wsup, eng and rem. -/
theorem tcauseOf_flags : (tcauseOf f l).getLsbD 15 = decide (f.code = cWATCH) ∧ (tcauseOf f l).getLsbD 14 = f.eng ∧
    (tcauseOf f l).getLsbD 13 = f.rem := by
  have := f.code.isLt
  simp only [tcauseOf, getLsbD_ofNat_32, Nat.reduceLT]
  generalize f.code = code at *
  by_cases hw : code = cWATCH <;> cases he : f.eng <;> cases hr : f.rem <;>
    simp only [hw, if_true, if_false, Bool.false_eq_true, decide_true, decide_false, decide_eq_true_eq, decide_eq_false_iff_not] <;>
    omega

theorem tcauseOf_lane (hl : l < 32) : ((tcauseOf f l).extractLsb' 8 5).toNat = l := by
  have := f.code.isLt
  have := f.num.isLt
  simp only [tcauseOf, BitVec.extractLsb'_toNat, BitVec.toNat_ofNat, Nat.shiftRight_eq_div_pow]
  split <;> split <;> split <;> omega

end

/-! ## Taking a fault (R283, R371) -/

section
variable {s : State} {c slot l : Nat} {f : FaultRec} {resume : W64}

/-- Without a handler the group or the agent is frozen. -/
theorem State.takeFault_unhandled (ht : ((s.group c slot).lane l).trap = false) (hn : slot = 63 ∨ s.trapAddr (s.group c slot) = 0) :
    s.takeFault c slot l f resume = (s.groupRecord 0x01 c slot l f f.code).freezeGroup c slot l f f.code := by
  rw [← (s.groupRecord_same 0x01 c slot l f f.code).trapAddr] at hn
  exact (if_neg (Bool.eq_false_iff.1 ht)).trans (if_pos (by simpa using hn))

end

/-- Settles O22: the record changes no group (`State.groupRecord_same`), and the entry changes one lane. -/
theorem takingAnException : Obligations.TakingAnException := by
  unfold Obligations.TakingAnException
  refine ⟨fun s c slot l f resume => ?takes, fun f l hl => ?word⟩
  case word =>
    obtain ⟨wsup, eng, rem⟩ := tcauseOf_flags (f := f) (l := l)
    exact ⟨tcauseOf_num, wsup, eng, rem, tcauseOf_lane hl, tcauseOf_code⟩
  case takes =>
    refine ⟨State.takeFault_double, State.takeFault_unhandled, fun ht hs ha _ hl => ?_⟩
    have same := s.groupRecord_same 0x01 c slot l f f.code
    refine ⟨State.lane_takeFault ht hs ha hl, ?_⟩
    rw [State.takeFault_handled ht hs ha]
    refine ⟨fun k hk => ?_, ?_, fun d n hn => ?_, rfl, same.launches, same.contexts⟩
    · rw [State.lane_modLane_ne _ _ _ _ _ _ hk, same.group]
    · rw [State.group_modLane, same.group]
    · by_cases hd : d = c
      · subst hd
        rw [State.group_modLane_slot _ _ _ _ _ _ fun h => hn ⟨rfl, h⟩, same.group]
      · rw [State.group_modLane_core _ _ _ _ _ _ _ hd, same.group]

/-! ## Freezing (R287, R371) and what does not issue -/

section
variable {s : State} {c slot l : Nat} {f : FaultRec} {code : Code}

theorem State.vote_none (h : s.mayIssue c (s.group c slot) = false) : s.vote c slot = none := by
  have none : s.eligibleLanes c slot = [] := if_neg (by simp [State.slotMay, h])
  simp only [State.vote, none]
  rfl

theorem State.mayIssue_frozen {g : Group} (h : g.frozen.isSome = true) : s.mayIssue c g = false := by
  simp [State.mayIssue, Option.isSome_iff_ne_none.1 h]

theorem State.mayIssue_halted {g : Group} (h : g.halted = true) : s.mayIssue c g = false := by
  simp [State.mayIssue, h]

theorem State.freezeGroup_frozen (hs : slot ≠ 63) (h : (s.group c slot).frozen.isSome = true) : s.freezeGroup c slot l f code = s :=
  (if_neg hs).trans (if_pos h)

theorem State.freezeGroup_running (hs : slot ≠ 63) (h : (s.group c slot).frozen = none) : s.freezeGroup c slot l f code =
    (s.modGroup c slot fun g => { g with frozen := some code }).groupRecord 0x02 c slot l f code :=
  (if_neg hs).trans (if_neg (by simp [h]))

/-- A resident group reads as changed. -/
theorem State.group_modGroup_resident {g : Group → Group} (h : ((s.core c).groups.find slot).isSome = true) :
    (s.modGroup c slot g).group c slot = g (s.group c slot) := by
  obtain ⟨x, hx⟩ := Option.isSome_iff_exists.1 h
  rw [State.group_modGroup, State.group, hx]
  rfl

/-- The advance of the issuing set changes no context. -/
theorem State.context_beginIssue (h : Hdr) (n : Nat) : (s.beginIssue h).context n = s.context n :=
  congrArg (SMap.find · n) (congrArg State.contexts (SetFrame.beginIssue s h).rest :)

end

/-! ## HALT and FREEZE (R349, R350) -/

section
variable {s : State} {h : Hdr} {f : VF}

theorem exec_halt_goes (I : Issues s (.halt h f)) (hn : ((s.context (s.env h).g.ctx).getD {}).dbgctl = false ∨ s.active h = []) :
    exec (.halt h f) s = .next (s.beginIssue h) := by
  rw [exec_halt, execHalt, issueInk_next I]
  have active : (s.env h).active = s.active h := rfl
  rw [active]
  cases ha : s.active h with
  | nil => rfl
  | cons l ls => exact congrArg _ (if_neg (by simpa [State.context_beginIssue, ha] using hn))

theorem exec_halt_stops {l : Nat} (I : Issues s (.halt h f)) (hd : ((s.context (s.env h).g.ctx).getD {}).dbgctl = true)
    (hl : (s.active h).head? = some l) : exec (.halt h f) s =
      .next (((s.beginIssue h).modGroup s.iss.core s.iss.slot fun g => { g with halted := true }).groupRecord 0x03 s.iss.core
        s.iss.slot l { code := 0, pc := s.iss.pc } 0) := by
  rw [exec_halt, execHalt, issueInk_next I]
  have active : (s.env h).active = s.active h := rfl
  obtain ⟨ls, ha⟩ := List.head?_eq_some_iff.1 hl
  rw [active, ha]
  exact congrArg _ (if_pos (by rw [State.context_beginIssue]; exact hd))

end

/-- Settles O23: a group that may not issue has no eligible lane; a freeze is one change of the group and its record, which changes no
group. -/
theorem haltingAndFreezing : Obligations.HaltingAndFreezing := by
  unfold Obligations.HaltingAndFreezing
  refine ⟨fun s c slot l f code => ?freeze, ⟨fun s h f I => ⟨exec_halt_goes I, fun l => exec_halt_stops I⟩,
    fun s h f n I => nibIssue_next I _, fun s c slot hh => State.vote_none (State.mayIssue_halted hh)⟩⟩
  case freeze =>
    refine ⟨fun hf => State.vote_none (State.mayIssue_frozen hf), State.freezeGroup_frozen, fun hs hf hr => ?_, fun hf => if_pos hf,
      fun hf => if_neg (Bool.eq_false_iff.1 hf)⟩
    have run := State.freezeGroup_running (l := l) (f := f) (code := code) hs hf
    refine ⟨run, ?_⟩
    rw [run, (State.groupRecord_same ..).group, State.group_modGroup_resident hr]

/-! ## The return from a handler (R285) and the delivery of faults (R237, R56) -/

theorem tcause_clear_wsup (w : W32) (i : Nat) : (w &&& 0xFFFF_7FFF).getLsbD i = (w.getLsbD i && decide (i ≠ 15)) := by
  rw [BitVec.getLsbD_and]
  by_cases hi : i < 32
  · interval_cases i <;> simp
  · simp [BitVec.getLsbD_of_ge w i (by omega)]

section
variable {s : State} {c slot n : Nat} {d : Deliv}

theorem exec_faultDelivery_none (hn : (s.group c slot).nextDeliv = none) : exec (.faultDelivery c slot) s = .next s := by
  rw [exec_faultDelivery, execFaultDelivery]
  dsimp only
  rw [hn]

/-- The first fault that can be delivered leaves the list, and its lane takes it, or `State.deliver` has it. -/
theorem exec_faultDelivery_some (hn : (s.group c slot).nextDeliv = some n) (hd : (s.group c slot).deliv[n]? = some d) :
    exec (.faultDelivery c slot) s =
      .next (if (s.group c slot).draining || ((s.group c slot).lane d.lane).exited then
        (s.modGroup c slot fun g => { g with deliv := listErase g.deliv n }).deliver c slot d
      else (s.modGroup c slot fun g => { g with deliv := listErase g.deliv n }).takeFault c slot d.lane d.f
        (d.resume.getD ((s.group c slot).lane d.lane).cur)) := by
  rw [exec_faultDelivery, execFaultDelivery]
  dsimp only
  rw [hn]
  dsimp only
  rw [hd]

theorem State.deliver_draining (hg : (s.group c slot).draining = true) :
    s.deliver c slot d = s.groupRecord 0x01 c slot d.lane d.f d.f.code := if_pos hg

/-- The first lane not exited takes the place of one that has exited. -/
theorem State.deliver_exited {k : Nat} (hg : (s.group c slot).draining = false) (he : ((s.group c slot).lane d.lane).exited = true)
    (hk : k < (s.group c slot).lanes.length) (live : ((s.group c slot).lane k).exited = false)
    (first : ∀ j, j < k → ((s.group c slot).lane j).exited = true) :
    s.deliver c slot d = s.modGroup c slot fun g => { g with deliv := g.deliv ++ [{ d with lane := k }] } := by
  have read : ∀ j (hj : j < (s.group c slot).lanes.length), (s.group c slot).lane j = (s.group c slot).lanes[j] := fun j hj => by
    simp [Group.lane, hj]
  have head : (places (fun (x : Lane) => !x.exited) (s.group c slot).lanes).head? = some k := by
    have cut := places_head_append (p := fun (x : Lane) => !x.exited) (before := (s.group c slot).lanes.take k)
      (w := (s.group c slot).lanes[k]) (fun x hx => ?_) (by simp [← read k hk, live]) ((s.group c slot).lanes.drop (k + 1))
    · rwa [← List.drop_eq_getElem_cons hk, List.take_append_drop, List.length_take_of_le hk.le] at cut
    · obtain ⟨j, hj, rfl⟩ := List.getElem_of_mem hx
      rw [List.length_take] at hj
      simp [← read j (by omega), first j (by omega)]
  rw [State.deliver]
  dsimp only
  rw [if_neg (by simp [hg]), if_pos he, List.headD_eq_head?_getD, head]
  rfl

end

/-- Settles O25: the fault leaves its group's list, which keeps the group's lanes, and goes the way of `State.deliver` or of
`State.takeFault`. -/
theorem leavingAndDelivery : Obligations.LeavingAndDelivery := by
  unfold Obligations.LeavingAndDelivery
  refine ⟨fun l => ?leaves, fun s c slot => ⟨exec_faultDelivery_none, fun n d hn hd hr => ?delivers⟩⟩
  case leaves =>
    refine ⟨rfl, rfl, rfl, fun hw => if_pos hw, fun hw => if_neg (Bool.eq_false_iff.1 hw), ?_, fun i hi => ?_, rfl⟩
    · exact (tcause_clear_wsup _ _).trans (by simp)
    · exact (tcause_clear_wsup _ _).trans (by simp [hi])
  case delivers =>
    have run := exec_faultDelivery_some hn hd
    have kept : (s.modGroup c slot fun g => { g with deliv := listErase g.deliv n }).group c slot =
        { s.group c slot with deliv := listErase (s.group c slot).deliv n } := State.group_modGroup_resident hr
    refine ⟨fun hg => ?_, fun hg he => ?_, fun hg he k hk live first => ?_⟩
    · rw [run, if_pos (by simp [hg]), State.deliver_draining (by rw [kept]; exact hg)]
    · rw [run, if_neg (by simp [hg, he])]
    · rw [run, if_pos (by simp [he]), State.deliver_exited (k := k)] <;> rw [kept]
      · exact hg
      · exact he
      · exact hk
      · exact live
      · exact first

end Sys2Proof.Machine

/-! PROOFS of the statements of 17_scheduling_faults.md: power states (R291, R292, R326). -/

namespace Sys2Proof.Machine

/-! ## The state that is allowed (R292) -/

/-- A state is one of the depths that its exit latency admits, and none deeper is. -/
theorem Power.within_deepest (tol : Nat) :
    (Power.within tol).latency ≤ tol ∧ ∀ p : Power, p.latency ≤ tol → p.depth ≤ (Power.within tol).depth := by
  unfold Power.within
  split_ifs
  all_goals
    refine ⟨by simp only [Power.latency]; omega, fun p hp => ?_⟩
    cases p <;> simp only [Power.latency, Power.depth] at * <;> omega

section
variable {s : State}

/-- An armed join engine allows nothing deeper than L1. -/
theorem State.allowed_cases : s.allowed = Power.within s.tolerance ∧ (s.dies.any fun x => x.2.joinArmed) = false ∨
    s.allowed = Power.within s.tolerance ∧ (Power.within s.tolerance).depth ≤ 1 ∨
    s.allowed = .l1 ∧ 1 < (Power.within s.tolerance).depth := by
  unfold State.allowed
  dsimp only
  split
  · next h =>
    obtain ⟨-, deep⟩ := Bool.and_eq_true_iff.1 h
    exact .inr (.inr ⟨rfl, of_decide_eq_true deep⟩)
  · next h =>
    rcases Bool.and_eq_false_iff.1 (Bool.not_eq_true _ ▸ h) with unarmed | shallow
    · exact .inl ⟨rfl, unarmed⟩
    · exact .inr (.inl ⟨rfl, Nat.not_lt.1 (of_decide_eq_false shallow)⟩)

theorem Power.two_le_of_deep {tol : Nat} (h : 1 < (Power.within tol).depth) : 2 ≤ tol := by
  revert h
  unfold Power.within
  split_ifs <;> simp only [Power.depth] <;> omega

theorem State.allowed_latency : s.allowed.latency ≤ s.tolerance := by
  rcases State.allowed_cases (s := s) with ⟨h, -⟩ | ⟨h, -⟩ | ⟨h, deep⟩ <;> rw [h]
  · exact (Power.within_deepest _).1
  · exact (Power.within_deepest _).1
  · exact Power.two_le_of_deep deep

theorem State.allowed_armed {d : Nat} {x : Die} (hx : (d, x) ∈ s.dies) (ha : x.joinArmed = true) : s.allowed.depth ≤ 1 := by
  rcases State.allowed_cases (s := s) with ⟨-, none⟩ | ⟨h, shallow⟩ | ⟨h, -⟩
  · exact absurd ha (List.any_eq_false.1 none _ hx)
  · rwa [h]
  · rw [h]; rfl

/-! ## Entry (Table 17-7) -/

theorem exec_powerStateEntry_stays (h : s.waking = true ∨ s.isIdle = false ∨ s.allowed.depth ≤ s.power.depth) :
    exec .powerStateEntry s = .next s :=
  congrArg _ (if_pos (by simpa [or_assoc] using h))

theorem exec_powerStateEntry_enters (hw : s.waking = false) (hi : s.isIdle = true) (hd : s.power.depth < s.allowed.depth) :
    exec .powerStateEntry s = .next (s.enterPower s.allowed) :=
  congrArg _ (if_neg (by simpa [hw, hi] using hd))

/-- An entry changes the power state, the cores and the dies only. -/
theorem State.enterPower_same (p : Power) : { s.enterPower p with cores := s.cores, dies := s.dies } = { s with power := p } := by
  unfold State.enterPower
  dsimp only
  split <;> split <;> rfl

theorem State.enterPower_cores {p : Power} (hp : 2 ≤ p.depth) : (s.enterPower p).cores = s.cores.map fun x => (x.1, x.2.gated) := by
  unfold State.enterPower
  dsimp only
  rw [if_pos hp]
  split <;> rfl

theorem State.enterPower_dies : (s.enterPower .l4).dies = s.dies.map fun x => (x.1, { x.2 with home := [] }) := rfl

/-- What a core gated in its power holds. -/
theorem State.enterPower_core {p : Power} (hp : 2 ≤ p.depth) {c : Nat} {k : Core} (hk : (c, k) ∈ (s.enterPower p).cores) :
    k.groups = [] ∧ k.lmem = [] ∧ k.teams = [] := by
  rw [State.enterPower_cores hp] at hk
  obtain ⟨⟨n, x⟩, -, hx⟩ := List.mem_map.1 hk
  obtain ⟨-, rfl⟩ := Prod.mk.inj hx
  exact ⟨rfl, rfl, rfl⟩

theorem State.enterPower_home {d : Nat} {x : Die} (hx : (d, x) ∈ (s.enterPower .l4).dies) : x.home = [] := by
  rw [State.enterPower_dies] at hx
  obtain ⟨⟨n, y⟩, -, hy⟩ := List.mem_map.1 hx
  obtain ⟨-, rfl⟩ := Prod.mk.inj hy
  rfl

end

/-- Settles O58: an entry keeps all but the power state, the cores and the dies (`State.enterPower_same`). -/
theorem powerStates : Obligations.PowerStates := by
  unfold Obligations.PowerStates
  refine ⟨Power.within_deepest, fun s => ⟨State.allowed_latency, fun ⟨_, _, hx, ha⟩ => State.allowed_armed hx ha⟩,
    fun s hw hi hd => ?entry, fun s => exec_powerStateEntry_stays,
    fun s c => ⟨fun h => congrArg _ (if_pos h), fun h => congrArg _ (if_neg (Bool.eq_false_iff.1 h))⟩, fun s => ?wake,
    fun s => ⟨fun h => congrArg _ (if_pos h), fun h => congrArg _ (if_neg (Bool.eq_false_iff.1 h))⟩,
    fun s => ⟨_, rfl, rfl, rfl, rfl, rfl, rfl, rfl, rfl, rfl, rfl⟩⟩
  case entry =>
    have same := State.enterPower_same (s := s) s.allowed
    refine ⟨_, exec_powerStateEntry_enters hw hi hd, (congrArg State.power same :), (congrArg State.mem same :),
      (congrArg State.gmeta same :), (congrArg State.contexts same :), (congrArg State.queues same :), fun h => by rw [h]; rfl,
      fun h2 c k hk => State.enterPower_core h2 hk, fun h4 d x hx => State.enterPower_home (h4 ▸ hx)⟩
  case wake =>
    unfold State.wake
    refine ⟨?_, fun h => if_pos h, fun h => ?_⟩
    · split <;> rfl
    · rw [if_neg h]

end Sys2Proof.Machine

/-! PROOFS of the statements of 17_scheduling_faults.md: the boxes of a chunk hold each of its teams once (R32, R276). -/

namespace Sys2Proof.Machine

/-! ## Lists of numbers in rising order -/

theorem mem_sortDedup {n : Nat} {xs : List Nat} : n ∈ sortDedup xs ↔ n ∈ xs := by
  induction xs with
  | nil => rfl
  | cons x xs ih => exact mem_insertNat.trans ((or_congr_right ih).trans List.mem_cons.symm)

theorem insertNat_rising {n : Nat} {xs : List Nat} (h : xs.Pairwise (· < ·)) : (insertNat n xs).Pairwise (· < ·) := by
  induction xs with
  | nil => exact List.pairwise_singleton _ _
  | cons m ms ih =>
    obtain ⟨low, rest⟩ := List.pairwise_cons.1 h
    unfold insertNat
    split_ifs with same less
    · exact h
    · exact List.pairwise_cons.2 ⟨fun k hk => (List.mem_cons.1 hk).elim (· ▸ less) fun hk => less.trans (low k hk), h⟩
    · refine List.pairwise_cons.2 ⟨fun k hk => (mem_insertNat.1 hk).elim (fun e => ?_) (low k), ih rest⟩
      omega

theorem sortDedup_rising (xs : List Nat) : (sortDedup xs).Pairwise (· < ·) := by
  induction xs with
  | nil => exact .nil
  | cons x xs ih => exact insertNat_rising ih

/-! ## The parts of an axis: consecutive cuts -/

section
variable {ks : List Nat} {a b p : Nat}

/-- A part lies between two neighbouring cuts, so that no cut lies inside it. -/
theorem mem_consecutive (h : ks.Pairwise (· < ·)) (hp : (a, b) ∈ ks.zip (ks.drop 1)) :
    a ∈ ks ∧ b ∈ ks ∧ a < b ∧ ∀ k ∈ ks, k ≤ a ∨ b ≤ k := by
  induction ks with
  | nil => cases hp
  | cons k ks ih =>
    obtain ⟨low, rising⟩ := List.pairwise_cons.1 h
    cases ks with
    | nil => cases hp
    | cons l ls =>
      have above : ∀ m ∈ l :: ls, l ≤ m := fun m hm => (List.mem_cons.1 hm).elim (·.ge) fun hm => (List.rel_of_pairwise_cons rising hm).le
      rcases List.mem_cons.1 hp with e | hp
      · obtain ⟨rfl, rfl⟩ := Prod.mk.inj e
        refine ⟨by simp, by simp, low _ (by simp), fun m hm => ?_⟩
        exact (List.mem_cons.1 hm).imp (·.le) (above m)
      · obtain ⟨ha, hb, lt, between⟩ := ih rising hp
        refine ⟨.tail _ ha, .tail _ hb, lt, fun m hm => (List.mem_cons.1 hm).elim (fun e => .inl ?_) (between m)⟩
        exact e ▸ (low a ha).le

theorem consecutive_apart (h : ks.Pairwise (· < ·)) : (ks.zip (ks.drop 1)).Pairwise fun x y => x.2 ≤ y.1 := by
  induction ks with
  | nil => exact .nil
  | cons k ks ih =>
    obtain ⟨-, rising⟩ := List.pairwise_cons.1 h
    cases ks with
    | nil => exact .nil
    | cons l ls =>
      refine List.pairwise_cons.2 ⟨fun y hy => ?_, ih rising⟩
      obtain ⟨ha, -⟩ := mem_consecutive rising hy
      exact (List.mem_cons.1 ha).elim (·.ge) fun ha => (List.rel_of_pairwise_cons rising ha).le

theorem exists_consecutive {k : Nat} (low : k ≤ p) (high : ∃ m ∈ k :: ks, p < m) :
    ∃ x ∈ (k :: ks).zip ks, x.1 ≤ p ∧ p < x.2 := by
  induction ks generalizing k with
  | nil =>
    obtain ⟨m, hm, lt⟩ := high
    rw [List.mem_singleton.1 hm] at lt
    omega
  | cons l ls ih =>
    by_cases hl : p < l
    · exact ⟨(k, l), by simp, low, hl⟩
    · obtain ⟨m, hm, lt⟩ := high
      have hm : m ∈ l :: ls := (List.mem_cons.1 hm).resolve_left fun e => by omega
      obtain ⟨x, hx, inside⟩ := ih (Nat.not_lt.1 hl) ⟨m, hm, lt⟩
      exact ⟨x, .tail _ hx, inside⟩

end

section
variable {n a b p : Nat} {cuts : List Nat}

theorem axisParts_apart : (axisParts n cuts).Pairwise fun x y => x.2 ≤ y.1 := consecutive_apart (sortDedup_rising _)

/-- A part of an axis of n lies within it, and no cut lies inside the part. -/
theorem axisParts_uncut (h : (a, b) ∈ axisParts n cuts) : a < b ∧ b ≤ n ∧ ∀ k ∈ cuts, k ≤ a ∨ b ≤ k := by
  obtain ⟨-, hb, lt, between⟩ := mem_consecutive (sortDedup_rising _) h
  have end_ : b ≤ n := by
    rw [mem_sortDedup] at hb
    simp only [List.mem_cons, List.mem_filter, decide_eq_true_eq] at hb
    omega
  refine ⟨lt, end_, fun k hk => ?_⟩
  by_cases hn : k < n
  · exact between k (mem_sortDedup.2 (by simp [hk, hn]))
  · exact .inr (by omega)

/-- Every place of an axis lies in a part. -/
theorem axisParts_cover (h : p < n) : ∃ x ∈ axisParts n cuts, x.1 ≤ p ∧ p < x.2 := by
  unfold axisParts
  dsimp only
  have zero : 0 ∈ sortDedup (0 :: n :: cuts.filter (· < n)) := mem_sortDedup.2 (by simp)
  have top : n ∈ sortDedup (0 :: n :: cuts.filter (· < n)) := mem_sortDedup.2 (by simp)
  have rising := sortDedup_rising (0 :: n :: cuts.filter (· < n))
  cases e : sortDedup (0 :: n :: cuts.filter (· < n)) with
  | nil => rw [e] at zero; cases zero
  | cons k ks =>
    rw [e] at zero top rising
    refine exists_consecutive ?_ ⟨n, top, h⟩
    rcases List.mem_cons.1 zero with rfl | hk
    · exact Nat.zero_le _
    · exact absurd (List.rel_of_pairwise_cons rising hk) (Nat.not_lt_zero _)

end

/-! ## Cells as sets of points -/

/-- The places of the teams of a cell. -/
def GridCell.points (c : GridCell) : Finset (Nat × Nat × Nat) :=
  Finset.Ico c.1.1 c.1.2 ×ˢ Finset.Ico c.2.1.1 c.2.1.2 ×ˢ Finset.Ico c.2.2.1 c.2.2.2

/-- Cells none of which is empty and no two of which meet. -/
structure GridCell.Apart (cs : List GridCell) : Prop where
  disjoint : cs.Pairwise fun c d => Disjoint (GridCell.points c) (GridCell.points d)
  nonempty : ∀ c ∈ cs, (GridCell.points c).Nonempty

/-- How many cells hold a place. -/
def GridCell.holding (cs : List GridCell) (p : Nat × Nat × Nat) : Nat := cs.countP fun c => p ∈ GridCell.points c

section
variable {c d : GridCell} {cs : List GridCell} {p : Nat × Nat × Nat} {x y z : Nat × Nat}

theorem GridCell.mem_points : p ∈ GridCell.points c ↔ (c.1.1 ≤ p.1 ∧ p.1 < c.1.2) ∧ (c.2.1.1 ≤ p.2.1 ∧ p.2.1 < c.2.1.2) ∧
    c.2.2.1 ≤ p.2.2 ∧ p.2.2 < c.2.2.2 := by
  simp [GridCell.points, Finset.mem_product]

theorem GridCell.card_points : (GridCell.points c).card = GridCell.count c := by
  simp [GridCell.points, GridCell.count]

theorem GridCell.within_iff : GridCell.within c x y z = true ↔
    (x.1 ≤ c.1.1 ∧ c.1.2 ≤ x.2) ∧ (y.1 ≤ c.2.1.1 ∧ c.2.1.2 ≤ y.2) ∧ z.1 ≤ c.2.2.1 ∧ c.2.2.2 ≤ z.2 := by
  simp [GridCell.within, and_assoc]

theorem GridCell.points_subset (h : GridCell.within c x y z = true) : GridCell.points c ⊆ GridCell.points (x, y, z) := by
  obtain ⟨hx, hy, hz⟩ := GridCell.within_iff.1 h
  intro p hp
  obtain ⟨px, py, pz⟩ := GridCell.mem_points.1 hp
  exact GridCell.mem_points.2 ⟨⟨hx.1.trans px.1, px.2.trans_le hx.2⟩, ⟨hy.1.trans py.1, py.2.trans_le hy.2⟩, hz.1.trans pz.1,
    pz.2.trans_le hz.2⟩

theorem GridCell.disjoint_of_apart (h : c.1.2 ≤ d.1.1 ∨ c.2.1.2 ≤ d.2.1.1 ∨ c.2.2.2 ≤ d.2.2.1) :
    Disjoint (GridCell.points c) (GridCell.points d) := by
  refine Finset.disjoint_left.2 fun p hc hd => ?_
  obtain ⟨cx, cy, cz⟩ := GridCell.mem_points.1 hc
  obtain ⟨dx, dy, dz⟩ := GridCell.mem_points.1 hd
  omega

theorem GridCell.Apart.filter (h : GridCell.Apart cs) (f : GridCell → Bool) : GridCell.Apart (cs.filter f) :=
  ⟨h.disjoint.filter f, fun c hc => h.nonempty c (List.mem_of_mem_filter hc)⟩

/-- A place lies in one cell at most. -/
theorem GridCell.Apart.holding_eq (h : GridCell.Apart cs) :
    GridCell.holding cs p = if ∃ c ∈ cs, p ∈ GridCell.points c then 1 else 0 := by
  obtain ⟨disjoint, -⟩ := h
  unfold GridCell.holding
  induction cs with
  | nil => simp only [List.countP_nil, List.not_mem_nil, false_and, exists_false, if_false]
  | cons c cs ih =>
    obtain ⟨here, rest⟩ := List.pairwise_cons.1 disjoint
    have ih := ih rest
    by_cases hp : p ∈ GridCell.points c
    · have none : ¬∃ d ∈ cs, p ∈ GridCell.points d := fun ⟨d, hd, hpd⟩ => Finset.disjoint_left.1 (here d hd) hp hpd
      rw [List.countP_cons_of_pos (by simpa using hp), ih, if_neg none, if_pos ⟨c, by simp, hp⟩]
    · rw [List.countP_cons_of_neg (by simpa using hp), ih]
      refine if_congr ⟨fun ⟨d, hd, hpd⟩ => ⟨d, .tail _ hd, hpd⟩, fun ⟨d, hd, hpd⟩ => ⟨d, ?_, hpd⟩⟩ rfl rfl
      exact (List.mem_cons.1 hd).resolve_left fun e => hp (e ▸ hpd)

end

/-- Sets that do not meet, lie in a set and have as many elements as it, fill it. -/
theorem exists_mem_of_card {α : Type} [DecidableEq α] {ls : List (Finset α)} {box : Finset α} (disjoint : ls.Pairwise Disjoint)
    (inside : ∀ l ∈ ls, l ⊆ box) (card : (ls.map Finset.card).sum = box.card) {p : α} (hp : p ∈ box) : ∃ l ∈ ls, p ∈ l := by
  have union : ∀ {ls : List (Finset α)}, ls.Pairwise Disjoint → (ls.foldr (· ∪ ·) ∅).card = (ls.map Finset.card).sum ∧
      ∀ q, q ∈ ls.foldr (· ∪ ·) ∅ ↔ ∃ l ∈ ls, q ∈ l := by
    intro ls h
    induction ls with
    | nil => simp
    | cons l ls ih =>
      obtain ⟨here, rest⟩ := List.pairwise_cons.1 h
      obtain ⟨size, mem⟩ := ih rest
      have apart : Disjoint l (ls.foldr (· ∪ ·) ∅) := Finset.disjoint_left.2 fun q hq hr => by
        obtain ⟨m, hm, hqm⟩ := (mem q).1 hr
        exact Finset.disjoint_left.1 (here m hm) hq hqm
      exact ⟨by simp [Finset.card_union_of_disjoint apart, size], fun q => by simp [mem]⟩
  obtain ⟨size, mem⟩ := union disjoint
  have sub : ls.foldr (· ∪ ·) ∅ ⊆ box := fun q hq => by
    obtain ⟨l, hl, hql⟩ := (mem q).1 hq
    exact inside l hl hql
  rw [← mem, Finset.eq_of_subset_of_card_le sub (by rw [size, card])]
  exact hp

/-! ## Boxes that cells fill -/

section
variable {c : GridCell} {cs : List GridCell} {b : (Nat × Nat) × (Nat × Nat) × (Nat × Nat)} {p : Nat × Nat × Nat}

theorem mem_endsFrom {part : GridCell → Nat × Nat} {from_ e : Nat} :
    e ∈ endsFrom cs part from_ ↔ (∃ c ∈ cs, (part c).2 = e) ∧ from_ < e := by
  simp [endsFrom, mem_sortDedup]

/-- The cells of a list that lie within a box. -/
def cellsIn (b : GridCell) (cs : List GridCell) : List GridCell := cs.filter fun k => GridCell.within k b.1 b.2.1 b.2.2

theorem mem_boxesAt : b ∈ boxesAt c cs ↔ (b.1.1 = c.1.1 ∧ b.2.1.1 = c.2.1.1 ∧ b.2.2.1 = c.2.2.1) ∧
    (b.1.2 ∈ endsFrom cs (fun c => c.1) c.1.1 ∧ b.2.1.2 ∈ endsFrom cs (fun c => c.2.1) c.2.1.1 ∧
      b.2.2.2 ∈ endsFrom cs (fun c => c.2.2) c.2.2.1) ∧ ((cellsIn b cs).map GridCell.count).sum = GridCell.count b := by
  obtain ⟨⟨x0, x1⟩, ⟨y0, y1⟩, z0, z1⟩ := b
  simp only [boxesAt, List.mem_flatMap, List.mem_filterMap, Option.ite_none_right_eq_some, Option.some.injEq, Prod.mk.injEq,
    List.sum_eq_foldl, cellsIn, GridCell.count]
  constructor
  · rintro ⟨z, hz, y, hy, x, hx, hc, ⟨rfl, rfl⟩, ⟨rfl, rfl⟩, rfl, rfl⟩
    exact ⟨⟨rfl, rfl, rfl⟩, ⟨hx, hy, hz⟩, hc⟩
  · rintro ⟨⟨rfl, rfl, rfl⟩, ⟨hx, hy, hz⟩, hc⟩
    exact ⟨z1, hz, y1, hy, x1, hx, hc, ⟨rfl, rfl⟩, ⟨rfl, rfl⟩, rfl, rfl⟩

/-- The cells within a box that fill it hold each of its places once, and no other. -/
theorem holding_cellsIn (h : GridCell.Apart cs) (hc : ((cellsIn b cs).map GridCell.count).sum = GridCell.count b) :
    GridCell.holding (cellsIn b cs) p = if p ∈ GridCell.points b then 1 else 0 := by
  have inside : ∀ k ∈ cellsIn b cs, GridCell.points k ⊆ GridCell.points b := fun k hk => GridCell.points_subset (List.mem_filter.1 hk).2
  rw [cellsIn, (h.filter _).holding_eq]
  refine if_congr ⟨fun ⟨k, hk, hp⟩ => inside k hk hp, fun hp => ?_⟩ rfl rfl
  have filled := exists_mem_of_card (ls := (cellsIn b cs).map GridCell.points) (List.pairwise_map.2 (h.filter _).disjoint)
    (List.forall_mem_map.2 inside) (by simpa only [List.map_map, Function.comp_def, GridCell.card_points] using hc) hp
  exact (by simpa only [List.mem_map, exists_exists_and_eq_and] using filled : ∃ k ∈ cellsIn b cs, p ∈ GridCell.points k)

/-- A box that begins at a cell and is filled holds the cell. -/
theorem within_of_mem_boxesAt (h : GridCell.Apart (c :: cs)) (hb : b ∈ boxesAt c (c :: cs)) :
    GridCell.within c b.1 b.2.1 b.2.2 = true := by
  obtain ⟨⟨bx, bY, bz⟩, ⟨ex, ey, ez⟩, hc⟩ := mem_boxesAt.1 hb
  have corner : (c.1.1, c.2.1.1, c.2.2.1) ∈ GridCell.points c := by
    obtain ⟨q, hq⟩ := h.nonempty c (by simp)
    obtain ⟨⟨lx, rx⟩, ⟨ly, ry⟩, lz, rz⟩ := GridCell.mem_points.1 hq
    exact GridCell.mem_points.2 ⟨⟨le_rfl, lx.trans_lt rx⟩, ⟨le_rfl, ly.trans_lt ry⟩, le_rfl, lz.trans_lt rz⟩
  have inBox : (c.1.1, c.2.1.1, c.2.2.1) ∈ GridCell.points b :=
    GridCell.mem_points.2 ⟨⟨bx.le, (mem_endsFrom.1 ex).2⟩, ⟨bY.le, (mem_endsFrom.1 ey).2⟩, bz.le, (mem_endsFrom.1 ez).2⟩
  have held := holding_cellsIn h hc (p := (c.1.1, c.2.1.1, c.2.2.1))
  rw [cellsIn, (h.filter _).holding_eq, if_pos inBox] at held
  obtain ⟨k, hk, hq⟩ : ∃ k ∈ cellsIn b (c :: cs), (c.1.1, c.2.1.1, c.2.2.1) ∈ GridCell.points k := by
    by_contra none
    rw [← cellsIn, if_neg none] at held
    cases held
  obtain ⟨hk, within⟩ := List.mem_filter.1 hk
  rcases List.mem_cons.1 hk with rfl | hk
  · exact within
  · exact absurd hq (Finset.disjoint_left.1 (List.rel_of_pairwise_cons h.disjoint hk) corner)

/-- A cell by itself is such a box. -/
theorem self_mem_boxesAt (h : GridCell.Apart (c :: cs)) : c ∈ boxesAt c (c :: cs) := by
  obtain ⟨q, hq⟩ := h.nonempty c (by simp)
  have lies := GridCell.mem_points.1 hq
  have self : GridCell.within c c.1 c.2.1 c.2.2 = true := GridCell.within_iff.2 (by simp)
  have alone : cellsIn c cs = [] := List.filter_eq_nil_iff.2 fun k hk within => by
    obtain ⟨r, hr⟩ := h.nonempty k (.tail _ hk)
    exact Finset.disjoint_left.1 (List.rel_of_pairwise_cons h.disjoint hk) (GridCell.points_subset within hr) hr
  have only : cellsIn c (c :: cs) = [c] :=
    (List.filter_cons_of_pos (p := fun k => GridCell.within k c.1 c.2.1 c.2.2) self).trans (congrArg (c :: ·) alone)
  exact mem_boxesAt.2 ⟨⟨rfl, rfl, rfl⟩, ⟨mem_endsFrom.2 ⟨⟨c, by simp, rfl⟩, by omega⟩, mem_endsFrom.2 ⟨⟨c, by simp, rfl⟩, by omega⟩,
    mem_endsFrom.2 ⟨⟨c, by simp, rfl⟩, by omega⟩⟩, by simp [only]⟩

end

/-! ## Covers -/

/-- The place of a team in the grid. -/
def teamPlace (tx ty n : Nat) : Nat × Nat × Nat := (n % tx, n / tx % ty, n / (tx * ty))

/-- A box of the grid, ends included, made of one with ends excluded. -/
def boxOf (b : GridCell) : Box :=
  { x0 := b.1.1, x1 := b.1.2 - 1, y0 := b.2.1.1, y1 := b.2.1.2 - 1, z0 := b.2.2.1, z1 := b.2.2.2 - 1 }

section
variable {c : GridCell} {cs : List GridCell} {tx ty n m : Nat} {bs : List Box}

theorem boxOf_has {b : GridCell} (h : b.1.1 < b.1.2 ∧ b.2.1.1 < b.2.1.2 ∧ b.2.2.1 < b.2.2.2) :
    (boxOf b).has tx ty n = true ↔ teamPlace tx ty n ∈ GridCell.points b := by
  rw [GridCell.mem_points]
  unfold Box.has boxOf teamPlace
  dsimp only
  simp only [Bool.and_eq_true, decide_eq_true_eq]
  omega

theorem coverBy_succ : coverBy (m + 1) (c :: cs) = (boxesAt c (c :: cs)).findSome? fun b =>
    (coverBy m (cs.filter fun k => !GridCell.within k b.1 b.2.1 b.2.2)).map fun bs => boxOf b :: bs := rfl

/-- A cover has as many boxes at a team as the cells have. -/
theorem coverBy_holding (h : GridCell.Apart cs) (hb : coverBy m cs = some bs) :
    (bs.filter fun b => b.has tx ty n).length = GridCell.holding cs (teamPlace tx ty n) := by
  induction m generalizing cs bs with
  | zero =>
    cases cs with
    | nil => cases hb; rfl
    | cons c cs => cases hb
  | succ m ih =>
    cases cs with
    | nil => cases hb; rfl
    | cons c cs =>
      rw [coverBy_succ] at hb
      obtain ⟨b, mem, hb⟩ := List.exists_of_findSome?_eq_some hb
      obtain ⟨rest, cover, rfl⟩ := Option.map_eq_some_iff.1 hb
      have here := within_of_mem_boxesAt h mem
      obtain ⟨⟨bx, bY, bz⟩, ⟨ex, ey, ez⟩, hc⟩ := mem_boxesAt.1 mem
      have order : b.1.1 < b.1.2 ∧ b.2.1.1 < b.2.1.2 ∧ b.2.2.1 < b.2.2.2 :=
        ⟨bx ▸ (mem_endsFrom.1 ex).2, bY ▸ (mem_endsFrom.1 ey).2, bz ▸ (mem_endsFrom.1 ez).2⟩
      have out : (cs.filter fun k => !GridCell.within k b.1 b.2.1 b.2.2) =
          (c :: cs).filter fun k => !GridCell.within k b.1 b.2.1 b.2.2 := (List.filter_cons_of_neg (by simp [here])).symm
      rw [out] at cover
      have split : GridCell.holding (c :: cs) (teamPlace tx ty n) = GridCell.holding (cellsIn b (c :: cs)) (teamPlace tx ty n) +
          GridCell.holding ((c :: cs).filter fun k => !GridCell.within k b.1 b.2.1 b.2.2) (teamPlace tx ty n) :=
        List.countP_eq_countP_filter_add _ _ _
      rw [split, holding_cellsIn h hc, ← ih (h.filter _) cover]
      by_cases hp : teamPlace tx ty n ∈ GridCell.points b
      · rw [List.filter_cons_of_pos (p := fun b : Box => b.has tx ty n) ((boxOf_has order).2 hp), if_pos hp, List.length_cons, Nat.add_comm]
      · rw [List.filter_cons_of_neg (p := fun b : Box => b.has tx ty n) fun has => hp ((boxOf_has order).1 has), if_neg hp, Nat.zero_add]

/-- As many boxes as there are cells cover them. -/
theorem coverBy_isSome (h : GridCell.Apart cs) (hm : cs.length ≤ m) : (coverBy m cs).isSome = true := by
  induction m generalizing cs with
  | zero => rw [List.eq_nil_of_length_eq_zero (Nat.le_zero.1 hm)]; rfl
  | succ m ih =>
    cases cs with
    | nil => rfl
    | cons c cs =>
      have rest := ih (cs := cs.filter fun k => !GridCell.within k c.1 c.2.1 c.2.2)
        ((show GridCell.Apart cs from ⟨h.disjoint.of_cons, fun k hk => h.nonempty k (.tail _ hk)⟩).filter _)
        ((List.length_filter_le _ _).trans (Nat.le_of_succ_le_succ hm))
      rw [coverBy_succ, List.findSome?_isSome_iff]
      exact ⟨c, self_mem_boxesAt h, by simpa using rest⟩

end

/-! ## The cells of a range of teams -/

/-- The index of a place of the grid. -/
def placeIndex (tx ty x y z : Nat) : Nat := x + tx * (y + ty * z)

section
variable {tx ty x y z x' y' z' first last n : Nat}

theorem digit_le_iff {m a a' b b' : Nat} (ha : a < m) (ha' : a' < m) : a + m * b ≤ a' + m * b' ↔ b < b' ∨ b = b' ∧ a ≤ a' := by
  rcases Nat.lt_trichotomy b b' with lt | rfl | gt
  · have := Nat.mul_le_mul_left m lt
    rw [Nat.mul_succ] at this
    omega
  · omega
  · have := Nat.mul_le_mul_left m gt
    rw [Nat.mul_succ] at this
    omega

/-- Indices follow the order of z, then y, then x. -/
theorem placeIndex_le_iff (hx : x < tx) (hx' : x' < tx) (hy : y < ty) (hy' : y' < ty) :
    placeIndex tx ty x y z ≤ placeIndex tx ty x' y' z' ↔ z < z' ∨ z = z' ∧ (y < y' ∨ y = y' ∧ x ≤ x') := by
  unfold placeIndex
  have yz : y + ty * z = y' + ty * z' ↔ z = z' ∧ y = y' := by
    have le := digit_le_iff (b := z) (b' := z') hy hy'
    have ge := digit_le_iff (b := z') (b' := z) hy' hy
    omega
  rw [digit_le_iff hx hx', yz, Nat.lt_iff_le_and_ne, ne_eq, yz, digit_le_iff hy hy']
  omega

theorem placeIndex_teamPlace : placeIndex tx ty (n % tx) (n / tx % ty) (n / (tx * ty)) = n := by
  rw [placeIndex, ← Nat.div_div_eq_div_mul, Nat.mod_add_div, Nat.mod_add_div]

theorem le_placeIndex_iff (hx : x < tx) (hy : y < ty) : n ≤ placeIndex tx ty x y z ↔
    n / (tx * ty) < z ∨ n / (tx * ty) = z ∧ (n / tx % ty < y ∨ n / tx % ty = y ∧ n % tx ≤ x) := by
  have order := placeIndex_le_iff (z := n / (tx * ty)) (z' := z) (Nat.mod_lt n (Nat.zero_lt_of_lt hx)) hx
    (Nat.mod_lt (n / tx) (Nat.zero_lt_of_lt hy)) hy
  rwa [placeIndex_teamPlace] at order

theorem placeIndex_le_team_iff (hx : x < tx) (hy : y < ty) : placeIndex tx ty x y z ≤ n ↔
    z < n / (tx * ty) ∨ z = n / (tx * ty) ∧ (y < n / tx % ty ∨ y = n / tx % ty ∧ x ≤ n % tx) := by
  have order := placeIndex_le_iff (z := z) (z' := n / (tx * ty)) hx (Nat.mod_lt n (Nat.zero_lt_of_lt hx)) hy
    (Nat.mod_lt (n / tx) (Nat.zero_lt_of_lt hy))
  rwa [placeIndex_teamPlace] at order

theorem team_le_iff (htx : 0 < tx) (hty : 0 < ty) {m : Nat} : n ≤ m ↔ n / (tx * ty) < m / (tx * ty) ∨
    n / (tx * ty) = m / (tx * ty) ∧ (n / tx % ty < m / tx % ty ∨ n / tx % ty = m / tx % ty ∧ n % tx ≤ m % tx) := by
  have order := le_placeIndex_iff (n := n) (z := m / (tx * ty)) (Nat.mod_lt m htx) (Nat.mod_lt (m / tx) hty)
  rwa [placeIndex_teamPlace] at order

/-- A cell of the range is one of the cut grid whose first team lies in the range. -/
theorem mem_rangeCells {c : GridCell} : c ∈ rangeCells tx ty first last ↔
    c.2.2 ∈ axisParts (last / (tx * ty) + 1) [first / (tx * ty), first / (tx * ty) + 1, last / (tx * ty)] ∧
    c.2.1 ∈ axisParts ty [first / tx % ty, first / tx % ty + 1, last / tx % ty, last / tx % ty + 1] ∧
    c.1 ∈ axisParts tx [first % tx, last % tx + 1] ∧
    first ≤ placeIndex tx ty c.1.1 c.2.1.1 c.2.2.1 ∧ placeIndex tx ty c.1.1 c.2.1.1 c.2.2.1 ≤ last := by
  obtain ⟨x, y, z⟩ := c
  simp only [rangeCells, List.mem_flatMap, List.mem_filterMap, Option.ite_none_right_eq_some, Option.some.injEq, Prod.mk.injEq,
    Bool.and_eq_true, decide_eq_true_eq, placeIndex]
  constructor
  · rintro ⟨z, hz, y, hy, x, hx, hi, rfl, rfl, rfl⟩
    exact ⟨hz, hy, hx, hi⟩
  · rintro ⟨hz, hy, hx, hi⟩
    exact ⟨z, hz, y, hy, x, hx, hi, rfl, rfl, rfl⟩

/-- A cell of the cut grid lies in the range whole or not at all: its places compare with both ends as its first does. -/
theorem cell_in_range {c : GridCell}
    (hz : c.2.2 ∈ axisParts (last / (tx * ty) + 1) [first / (tx * ty), first / (tx * ty) + 1, last / (tx * ty)])
    (hy : c.2.1 ∈ axisParts ty [first / tx % ty, first / tx % ty + 1, last / tx % ty, last / tx % ty + 1])
    (hx : c.1 ∈ axisParts tx [first % tx, last % tx + 1]) (hp : teamPlace tx ty n ∈ GridCell.points c) :
    first ≤ placeIndex tx ty c.1.1 c.2.1.1 c.2.2.1 ∧ placeIndex tx ty c.1.1 c.2.1.1 c.2.2.1 ≤ last ↔ first ≤ n ∧ n ≤ last := by
  obtain ⟨⟨xa, xb⟩, ⟨ya, yb⟩, za, zb⟩ := c
  obtain ⟨px, py, pz⟩ := GridCell.mem_points.1 hp
  obtain ⟨ltx, endx, cutx⟩ := axisParts_uncut hx
  obtain ⟨lty, endy, cuty⟩ := axisParts_uncut hy
  obtain ⟨ltz, endz, cutz⟩ := axisParts_uncut hz
  simp only [List.forall_mem_cons, teamPlace] at px py pz cutx cuty cutz
  have htx : 0 < tx := by omega
  have hty : 0 < ty := by omega
  dsimp only
  rw [le_placeIndex_iff (by omega) (by omega), placeIndex_le_team_iff (by omega) (by omega), team_le_iff (n := first) (m := n) htx hty,
    team_le_iff (n := n) (m := last) htx hty]
  obtain ⟨cx0, cx1, -⟩ := cutx
  obtain ⟨cy0, cy0', cy1, cy1', -⟩ := cuty
  obtain ⟨cz0, cz0', cz1, -⟩ := cutz
  generalize n % tx = x, n / tx % ty = y, n / (tx * ty) = z at *
  generalize first % tx = x0, first / tx % ty = y0, first / (tx * ty) = z0 at *
  generalize last % tx = x1, last / tx % ty = y1, last / (tx * ty) = z1 at *
  exact and_congr (by omega) (by omega)

/-- The cells of a range hold each of its teams once, and no other. -/
theorem rangeCells_apart : GridCell.Apart (rangeCells tx ty first last) := by
  refine ⟨?_, fun c hc => ?_⟩
  · unfold rangeCells
    dsimp only
    refine List.pairwise_flatMap.2 ⟨fun z _ => List.pairwise_flatMap.2 ⟨fun y _ => ?_, ?_⟩, ?_⟩
    · refine axisParts_apart.filterMap _ fun x x' hx c hc d hd => ?_
      obtain ⟨-, ⟨⟩⟩ := Option.ite_none_right_eq_some.1 hc
      obtain ⟨-, ⟨⟩⟩ := Option.ite_none_right_eq_some.1 hd
      exact GridCell.disjoint_of_apart (.inl hx)
    · refine axisParts_apart.imp fun {y y'} hy c hc d hd => ?_
      obtain ⟨x, -, hx⟩ := List.mem_filterMap.1 hc
      obtain ⟨x', -, hx'⟩ := List.mem_filterMap.1 hd
      obtain ⟨-, ⟨⟩⟩ := Option.ite_none_right_eq_some.1 hx
      obtain ⟨-, ⟨⟩⟩ := Option.ite_none_right_eq_some.1 hx'
      exact GridCell.disjoint_of_apart (.inr (.inl hy))
    · refine axisParts_apart.imp fun {z z'} hz c hc d hd => ?_
      obtain ⟨y, -, hy⟩ := List.mem_flatMap.1 hc
      obtain ⟨y', -, hy'⟩ := List.mem_flatMap.1 hd
      obtain ⟨x, -, hx⟩ := List.mem_filterMap.1 hy
      obtain ⟨x', -, hx'⟩ := List.mem_filterMap.1 hy'
      obtain ⟨-, ⟨⟩⟩ := Option.ite_none_right_eq_some.1 hx
      obtain ⟨-, ⟨⟩⟩ := Option.ite_none_right_eq_some.1 hx'
      exact GridCell.disjoint_of_apart (.inr (.inr hz))
  · obtain ⟨hz, hy, hx, -⟩ := mem_rangeCells.1 hc
    exact ⟨(c.1.1, c.2.1.1, c.2.2.1), GridCell.mem_points.2 ⟨⟨le_rfl, (axisParts_uncut hx).1⟩, ⟨le_rfl, (axisParts_uncut hy).1⟩, le_rfl,
      (axisParts_uncut hz).1⟩⟩

theorem rangeCells_holding (htx : 0 < tx) (hty : 0 < ty) :
    GridCell.holding (rangeCells tx ty first last) (teamPlace tx ty n) = if first ≤ n ∧ n ≤ last then 1 else 0 := by
  rw [rangeCells_apart.holding_eq]
  refine if_congr ⟨fun ⟨c, hc, hp⟩ => ?_, fun hn => ?_⟩ rfl rfl
  · obtain ⟨hz, hy, hx, range⟩ := mem_rangeCells.1 hc
    exact (cell_in_range hz hy hx hp).1 range
  · obtain ⟨x, hx, px⟩ := axisParts_cover (cuts := [first % tx, last % tx + 1]) (Nat.mod_lt n htx)
    obtain ⟨y, hy, py⟩ := axisParts_cover (cuts := [first / tx % ty, first / tx % ty + 1, last / tx % ty, last / tx % ty + 1])
      (Nat.mod_lt (n / tx) hty)
    obtain ⟨z, hz, pz⟩ := axisParts_cover (cuts := [first / (tx * ty), first / (tx * ty) + 1, last / (tx * ty)])
      (Nat.lt_succ_of_le (Nat.div_le_div_right (c := tx * ty) hn.2))
    have hp : teamPlace tx ty n ∈ GridCell.points (x, y, z) := GridCell.mem_points.2 ⟨px, py, pz⟩
    exact ⟨(x, y, z), mem_rangeCells.2 ⟨hz, hy, hx, (cell_in_range hz hy hx hp).2 hn⟩, hp⟩

/-- The boxes of a range of teams hold each of them once, and no other team (R32). -/
theorem boxesOf_has (htx : 0 < tx) (hty : 0 < ty) :
    ((boxesOf tx ty first last).filter fun b => b.has tx ty n).length = if first ≤ n ∧ n ≤ last then 1 else 0 := by
  have covered : ((upto ((rangeCells tx ty first last).length + 1)).findSome? fun m =>
      coverBy m (rangeCells tx ty first last)).isSome = true :=
    List.findSome?_isSome_iff.2 ⟨_, mem_upto.2 (Nat.lt_succ_self _), coverBy_isSome rangeCells_apart le_rfl⟩
  obtain ⟨bs, hbs⟩ := Option.isSome_iff_exists.1 covered
  obtain ⟨m, -, cover⟩ := List.exists_of_findSome?_eq_some hbs
  rw [boxesOf, hbs, Option.getD_some, coverBy_holding rangeCells_apart cover, rangeCells_holding htx hty]

/-- The slabs of the dies follow one another (R276). -/
theorem slabOf_consecutive {teams n i : Nat} (hn : 0 < n) :
    (slabOf teams n 0).1 = 0 ∧ (slabOf teams n (n - 1)).2 = teams ∧ (slabOf teams n i).2 = (slabOf teams n (i + 1)).1 ∧
      (slabOf teams n i).1 ≤ (slabOf teams n i).2 := by
  refine ⟨by simp [slabOf], ?_, rfl, Nat.div_le_div_right (Nat.mul_le_mul_left _ (Nat.le_succ i))⟩
  rw [slabOf, Nat.sub_add_cancel hn, Nat.mul_div_cancel _ hn]

end

end Sys2Proof.Machine

/-! PROOFS of the statements of 17_scheduling_faults.md: queues, the order of their packets and the check of launches (R268 to R272, R289,
R290, R318). -/

namespace Sys2Proof.Machine

/-! ## A host's write of wridx (R268, R318) -/

theorem SMap.mem_of_find {α : Type} {m : SMap α} {i : Nat} {x : α} (h : m.find i = some x) : (i, x) ∈ m := by
  induction m with
  | nil => cases h
  | cons a m ih =>
    obtain ⟨k, v⟩ := a
    simp only [SMap.find] at h
    split_ifs at h with hk
    · rw [hk, Option.some.inj h]; exact .head _
    · exact .tail _ (ih h)

section
variable {s : State} {r : HostReq}

/-- No earlier request of the queue pair of a host request waits. -/
def State.pairFree (s : State) (r : HostReq) : Prop := ∀ y ∈ s.hostHeld, y.port ≠ r.port ∨ y.qp ≠ r.qp

theorem State.pairFree_iff : s.pairFree r ↔ (s.hostHeld.any fun y => y.port == r.port && y.qp == r.qp) = false := by
  simp [State.pairFree, List.any_eq_false, imp_iff_not_or]

theorem State.hostStep_held (h : ¬s.pairFree r ∨ s.hostWaits r = true) : s.hostStep r = { s with hostHeld := s.hostHeld ++ [r] } := by
  rw [State.pairFree_iff, Bool.not_eq_false] at h
  exact if_pos (by simpa using h)

theorem State.hostStep_acts (hf : s.pairFree r) (hw : s.hostWaits r = false) : s.hostStep r = s.hostAct r := by
  rw [State.pairFree_iff] at hf
  exact if_neg (by simp [hf, hw])

theorem State.hostStep_unregistered (hf : s.pairFree r) (hr : s.registered r.addr r.len = false) :
    s.hostStep r = { s with hostOut := s.hostOut ++ [.nak r.port] } := by
  have refused : s.hostRefused r = true := by simp [State.hostRefused, hr]
  rw [State.hostStep_acts hf (by simp [State.hostWaits, refused]), State.hostAct, if_pos refused]
  simp [hr]

theorem exec_wridxWrite_find {q : Nat} {x : Queue} (v : BitVec 32) (hq : s.queues.find q = some x) : exec (.wridxWrite q v) s =
    .next (s.hostStep { port := 0, qp := 0, addr := x.desc + 12, len := 4, bytes := some (bytesOf 4 v.toNat) }) := by
  rw [exec_wridxWrite, execWridxWrite, hq]

theorem State.mem_wridxIn {q : Nat} {x : Queue} (hq : s.queues.find q = some x) : q ∈ s.wridxIn (x.desc + 12) 4 :=
  List.mem_map.2 ⟨(q, x), List.mem_filter.2 ⟨SMap.mem_of_find hq, by simp⟩, rfl⟩

end

/-! ## Reading a queue (R269) -/

section
variable {s : State} {q : Nat} {x : Queue}

theorem State.readQueue_asleep (hq : s.queues.find q = some x)
    (h : x.halted = true ∨ s.descLinked 0 x = false ∨ s.stackWaits x.desc 64 = true) : s.readQueue q = s := by
  rw [State.readQueue, hq]
  exact if_pos (by simpa [or_assoc] using h)

theorem State.readQueue_awake (hq : s.queues.find q = some x)
    (h : ¬(x.halted = true ∨ s.descLinked 0 x = false ∨ s.stackWaits x.desc 64 = true)) : s.readQueue q =
      let n := (s.qword x 3 + 2 ^ 32 - s.qword x 4) % 2 ^ 32
      if s.descBad x = true ∨ 2 ^ natBits (s.qword x 2) 31 27 < n then s.haltQueue q x cILLEGAL else State.readPackets q x n s := by
  rw [State.readQueue, hq]
  exact (if_neg (by simpa [or_assoc] using h)).trans (if_congr (by simp) rfl rfl)

end

/-! ## The packet whose turn it is (R270, R274) -/

section
variable {s : State} {q : Nat} {x : Queue} {p : Packet}

/-- What the turn of a packet takes. -/
theorem State.packetTurn_some (h : s.packetTurn q = some (x, p)) : s.queues.find q = some x ∧
    (x.packets.find? fun y => !y.started) = some p ∧ s.power = .l0 ∧ s.waking = false ∧ s.runs (s.qctx x) = true ∧
    (s.pkBarrier x p = true → ∀ y ∈ x.packets, y.started = false) := by
  unfold State.packetTurn at h
  split at h
  · cases h
  · next y hq =>
    split at h
    · cases h
    · next r hp =>
      split_ifs at h with blocked
      obtain ⟨rfl, rfl⟩ := Prod.mk.inj (Option.some.inj h)
      simp only [Bool.or_eq_true, Bool.and_eq_true, not_or, not_and, bne_iff_ne, ne_eq, not_not, Bool.not_eq_true', Bool.not_eq_true,
        Bool.not_eq_false, List.any_eq_false] at blocked
      obtain ⟨⟨⟨⟨power, waking⟩, runs⟩, -⟩, barrier⟩ := blocked
      exact ⟨hq, hp, power, waking, runs, barrier⟩

theorem State.pkBarrier_bit (h : natBits (pw p.words 0) 15 15 = 1) : s.pkBarrier x p = true := by simp [State.pkBarrier, h]

theorem State.pkBarrier_phase (ht : pkType p.words = 1) (hp : s.qpriv x = false) (h : x.phase ≠ some (pkPhase p.words)) :
    s.pkBarrier x p = true := by simp [State.pkBarrier, ht, hp, h]

/-! ## What a packet does whose turn it is (R271, R289, R290) -/

section
variable (turn : s.packetTurn q = some (x, p))
include turn

theorem State.plainPacket_ends {type : Nat} (ht : pkType p.words = type) :
    s.plainPacket q type = s.endPacket q p (if plainBad p.words then cILLEGAL else 0) := by
  rw [State.plainPacket, turn]
  exact if_neg (by simp [ht])

/-- PREEMPT and RESUME packets, their words and their queue's privilege checked. -/
theorem exec_preemptPacket_turn (ht : pkType p.words = 3) : exec (.preemptPacket q) s = .next
    (if plainBad p.words then s.endPacket q p cILLEGAL
    else if !s.qpriv x then s.endPacket q p cPRIV
    else match s.context (natBits (pw p.words 2) 15 0) with
      | none => s.endPacket q p cILLEGAL
      | some k =>
        if k.out then s.endPacket q p 0
        else (s.modPacket q p.index fun p => { p with started := true }).stopContext (natBits (pw p.words 2) 15 0)) := by
  rw [exec_preemptPacket, execPreemptPacket, turn]
  exact congrArg _ (if_neg (by simp [ht]))

theorem exec_resumePacket_turn (ht : pkType p.words = 4) : exec (.resumePacket q) s = .next
    (if plainBad p.words then s.endPacket q p cILLEGAL
    else if !s.qpriv x then s.endPacket q p cPRIV
    else match s.context (natBits (pw p.words 2) 15 0) with
      | none => s.endPacket q p cILLEGAL
      | some k =>
        if !k.preempted then s.endPacket q p 0
        else if !k.out then s
        else (s.restoreContext (natBits (pw p.words 2) 15 0)).endPacket q p 0) := by
  rw [exec_resumePacket, execResumePacket, turn]
  exact congrArg _ (if_neg (by simp [ht]))

theorem exec_launchPacket_waits (hw : s.launchWaits (s.qctx x) p.words = true) : exec (.launchPacket q) s = .next s := by
  rw [exec_launchPacket, execLaunchPacket, turn]
  exact congrArg _ (if_pos (by simp [hw]))

theorem exec_launchPacket_checks (hc : p.checked = false) (ht : pkType p.words ∉ [0, 2, 3, 4])
    (hw : s.launchWaits (s.qctx x) p.words = false) : exec (.launchPacket q) s = .next
      (match s.launchCheck (s.qctx x) p.words (s.qpriv x) with
        | some c => (if [cILLEGAL, cPRIV, cALIGN].contains c then s else s.launchReading (s.qctx x) p.words).endPacket q p c
        | none => (s.launchReading (s.qctx x) p.words).modPacket q p.index fun p => { p with checked := true }) := by
  rw [exec_launchPacket, execLaunchPacket, turn]
  exact congrArg _ (if_neg (by simpa [hc, hw] using ht))

end

end

/-! ## The check of a launch (R272) -/

section
variable {s : State} {ctx : Nat} {ws : List W32} {priv : Bool}

theorem State.launchCheck_illegal (h : pkType ws ≠ 1 ∨ s.context ctx = none ∨ s.launchIllegal ws priv = true) :
    s.launchCheck ctx ws priv = some cILLEGAL := if_pos (by simpa [or_assoc] using h)

theorem State.launchCheck_legal {k : Context} (ht : pkType ws = 1) (hk : s.context ctx = some k) (hl : s.launchIllegal ws priv = false) :
    s.launchCheck ctx ws priv = if natBits (pw ws 0) 7 0 ≠ 0 ∧ priv = false then some cPRIV
      else if launchAlign ws then some cALIGN
      else match s.launchData ctx ws with
        | .error c => some c
        | .ok _ => none :=
  (if_neg (by simp [ht, hk, hl])).trans (if_congr (by simp) rfl rfl)

end

/-- Settles O53: a packet's turn is taken apart once (`State.packetTurn_some`), and the boxes are counted by the cells that they cover
(`boxesOf_has`). -/
theorem slabsAndPackets : Obligations.SlabsAndPackets := by
  unfold Obligations.SlabsAndPackets
  refine ⟨⟨fun s q x v hq => ?host, fun s q x hq => ?read, fun s q x p turn => ?order, fun s q x p turn => ?packet,
    fun s ctx ws priv => ?check⟩, fun teams n i hn _ => slabOf_consecutive hn, fun tx ty first last n htx hty _ => boxesOf_has htx hty⟩
  case host =>
    intro bs r free
    have run := exec_wridxWrite_find v hq
    refine ⟨fun hr hf => run.trans (congrArg _ (State.hostStep_unregistered (r := r) hf hr)),
      fun h => run.trans (congrArg _ (State.hostStep_held h)), fun hr hf hw => ?_⟩
    refine ⟨State.mem_wridxIn hq, run.trans (congrArg _ ((State.hostStep_acts (r := r) hf hw).trans ?_))⟩
    exact if_neg (Bool.eq_false_iff.1 hr)
  case read =>
    intro asleep n bad
    exact ⟨State.readQueue_asleep hq, fun ha hb => (State.readQueue_awake hq ha).trans (if_pos hb),
      fun ha hb => (State.readQueue_awake hq ha).trans (if_neg hb)⟩
  case order =>
    obtain ⟨hq, hp, power, waking, runs, barrier⟩ := State.packetTurn_some turn
    obtain ⟨new, old, new', split, before⟩ := List.find?_eq_some_iff_append.1 hp
    refine ⟨hq, power, waking, runs, ⟨old, new', split, by simpa using before, by simpa using new⟩,
      fun hb => barrier (State.pkBarrier_bit hb), fun ht hr hph => barrier (State.pkBarrier_phase ht hr hph)⟩
  case packet =>
    dsimp only
    refine ⟨fun ht => congrArg _ (State.plainPacket_ends turn ht), fun ht => congrArg _ (State.plainPacket_ends turn ht),
      fun ht => ?preempt, fun ht => ?resume, fun _ _ hw => exec_launchPacket_waits turn hw, fun hc ht hw => ?launch⟩
    case preempt =>
      rw [exec_preemptPacket_turn turn ht]
      exact ⟨fun hb => by simp [hb], fun hb hr => by simp [hb, hr], fun hb hr hk => by simp [hb, hr, hk],
        fun k hb hr hk => ⟨fun ho => by simp [hb, hr, hk, ho], fun ho => by simp [hb, hr, hk, ho]⟩⟩
    case resume =>
      rw [exec_resumePacket_turn turn ht]
      exact ⟨fun hb => by simp [hb], fun hb hr => by simp [hb, hr], fun hb hr hk => by simp [hb, hr, hk],
        fun k hb hr hk hp => by simp [hb, hr, hk, hp],
        fun k hb hr hk hp => ⟨fun ho => by simp [hb, hr, hk, hp, ho], fun ho => by simp [hb, hr, hk, hp, ho]⟩⟩
    case launch =>
      have run := exec_launchPacket_checks turn hc ht hw
      refine ⟨fun c h => run.trans ?_, fun h => run.trans ?_⟩ <;> rw [h]
      simp only [List.contains_iff_mem, List.mem_cons, List.not_mem_nil, or_false]
  case check =>
    refine ⟨State.launchCheck_illegal, fun k ht hk hl => ?_⟩
    rw [State.launchCheck_legal ht hk hl]
    have allowed (h : natBits (pw ws 0) 7 0 = 0 ∨ priv = true) : ¬(natBits (pw ws 0) 7 0 ≠ 0 ∧ priv = false) := by
      rintro ⟨hn, hp⟩
      exact h.elim hn (by simp [hp])
    exact ⟨fun hn hp => if_pos ⟨hn, hp⟩, fun h ha => (if_neg (allowed h)).trans (if_pos ha),
      fun h ha => (if_neg (allowed h)).trans ((if_neg (Bool.eq_false_iff.1 ha)).trans rfl)⟩

end Sys2Proof.Machine

/-! PROOFS of the statements of 17_scheduling_faults.md: launches on their way to the cores (R28, R32, R41, R273 to R279). -/

namespace Sys2Proof.Machine

/-! ## Launch start (R273) -/

section
variable {s : State} {q : Nat} {x : Queue} {p : Packet} (turn : s.packetTurn q = some (x, p)) (hc : p.checked = true)
  (hw : s.launchWaits (s.qctx x) p.words = false)
include turn hc hw

/-- The launch that a packet starts takes the last place of the list. -/
theorem exec_launchStart_starts {d : LaunchData} {k : Context} (hd : s.launchData (s.qctx x) p.words = .ok d)
    (hk : s.context (s.qctx x) = some k) : ∃ t ls, exec (.launchStart q) s = .next t ∧ t.launches = ls ++
      [{ ctx := s.qctx x, num := k.launches % 2 ^ 32, queue := q, index := p.index, words := p.words,
         params := d.params, shapes := d.shapes, buffers := d.buffers }] := by
  rw [exec_launchStart, execLaunchStart, turn]
  dsimp only
  rw [if_neg (by simp [hc, hw]), hd, hk]
  exact ⟨_, _, rfl, rfl⟩

theorem exec_launchStart_refused {c : Code} (hd : s.launchData (s.qctx x) p.words = .error c) :
    exec (.launchStart q) s = .next ((s.launchReading (s.qctx x) p.words).endPacket q p c) := by
  rw [exec_launchStart, execLaunchStart, turn]
  dsimp only
  rw [if_neg (by simp [hc, hw]), hd]

end

/-! ## Chunks (R277) and committed teams (R28, R41) -/

section
variable {s : State} {c ctx n : Nat}

theorem exec_chunkClaim_refused (h : s.agentRuns c = false) : exec (.chunkClaim c ctx n) s = .next s := by
  rw [exec_chunkClaim, execChunkClaim]
  split
  · rfl
  · exact congrArg _ (if_pos (by simp [h]))

theorem exec_chunkClaim_claims {l : Launch} (hl : s.launch ctx n = some l) (hterm : l.term = none) (hr : s.runs ctx = true)
    (ha : s.agentRuns c = true) (hp : s.power = .l0) (hd : (s.pkDies l.words).contains (dieOf c) = true)
    (hs : (s.core c).strokes.length < 16) (hc : c < s.coreCount) : exec (.chunkClaim c ctx n) s = .next
      (let ticket := l.tickets.get 0 (dieOf c)
      let first := (s.slab l (dieOf c)).1 + ticket * pkChunk l.words
      let u := s.modLaunch ctx n fun l => { l with tickets := SMap.set 0 l.tickets (dieOf c) ((ticket + 1) % 2 ^ 32) }
      if (s.slab l (dieOf c)).2 ≤ first then u
      else
        let last := Nat.min (first + pkChunk l.words) (s.slab l (dieOf c)).2 - 1
        (boxesOf (pw l.words 4) (pw l.words 5) first last).foldl
          (fun s b => (rolesOf l.words).foldl (fun s r => s.formStroke c (l.stroke first r b)) s)
          (u.modCore c fun k => { k with chunks := k.chunks ++ [(ctx, n, first, last)] })) := by
  rw [exec_chunkClaim, execChunkClaim, hl]
  dsimp only
  rw [if_neg (by simp only [hterm, hr, ha, hp, hd]; simpa using ⟨hs, hc⟩)]

theorem exec_teamMaterialise_refused (h : s.agentRuns c = false) : exec (.teamMaterialise c) s = .next s :=
  congrArg _ (if_pos (by simp [h]))

theorem exec_teamMaterialise_first {t : State} {i : Ink} {lin : Nat} {rest : List (Ink × Nat)} (ha : s.agentRuns c = true)
    (hp : s.power = .l0) (ho : ((s.core c).inkOrder.filter fun x => s.runs x.1.ctx) = (i, lin) :: rest)
    (hm : s.materialise c i lin = some t) : exec (.teamMaterialise c) s = .next t := by
  refine congrArg _ ((if_neg (by simp [ha, hp])).trans ?_)
  rw [show ((s.core c).inkOrder.filter fun (i, _) => s.runs i.ctx) = (i, lin) :: rest from ho, List.findSome?_cons]
  dsimp only
  rw [hm, Option.getD_some]

end

/-! ## Reservations (R28) -/

theorem firstFit_le {runs : List (Nat × Nat)} {limit n a : Nat} (h : firstFit runs limit n = some a) : a + n ≤ limit := by
  have fits := List.find?_some h
  simp only [Bool.and_eq_true, decide_eq_true_eq] at fits
  exact fits.1

theorem fitUnits_length {ns us : List Nat} : ∀ {runs : List (Nat × Nat)}, fitUnits runs ns = some us → us.length = ns.length := by
  induction ns generalizing us with
  | nil => exact fun h => by cases h; rfl
  | cons n ns ih =>
    intro runs h
    unfold fitUnits at h
    split at h
    · cases h
    · obtain ⟨vs, hv, rfl⟩ := Option.map_eq_some_iff.1 h
      rw [List.length_cons, ih hv, List.length_cons]

theorem mapFrom_length {α β : Type} (f : Nat → α → β) (i : Nat) (xs : List α) : (mapFrom f i xs).length = xs.length := by
  induction xs generalizing i with
  | nil => rfl
  | cons x xs ih => rw [mapFrom, List.length_cons, ih, List.length_cons]

theorem mem_mapFrom {α β : Type} {f : Nat → α → β} {i : Nat} {xs : List α} {y : β} (h : y ∈ mapFrom f i xs) :
    ∃ j x, x ∈ xs ∧ f j x = y := by
  obtain ⟨j, hj⟩ := List.mem_iff_getElem?.1 h
  rw [mapFrom_get] at hj
  obtain ⟨x, hx, rfl⟩ := Option.map_eq_some_iff.1 hj
  exact ⟨_, x, List.mem_of_getElem? hx, rfl⟩

/-- What a reservation takes is free, and it holds every group of the team. -/
theorem Core.reserve_takes {k : Core} {l : Launch} {lin p : Nat} {t : Team} (h : k.reserve l lin = some (p, t)) :
    k.teams.find p = none ∧ p < 8 ∧ (t.lin = lin ∧ t.ctx = l.ctx ∧ t.launch = l.num) ∧ t.resv.length = pkNp l.words + pkNc l.words ∧
      (∀ r ∈ t.resv, r.2.1 < 63 ∧ k.slotTaken r.2.1 = false) ∧ t.lbase + t.lines ≤ Config.localLines := by
  unfold Core.reserve at h
  dsimp only at h
  split at h
  · next place us lines hp hu hl =>
    split_ifs at h with few
    obtain ⟨rfl, rfl⟩ := Prod.mk.inj (Option.some.inj h)
    have free := List.find?_some hp
    have units := fitUnits_length hu
    simp only [groupUnits, List.length_append, List.length_replicate] at units
    refine ⟨Option.isNone_iff_eq_none.1 free, mem_upto.1 (List.mem_of_find?_eq_some hp), ⟨rfl, rfl, rfl⟩, ?_, fun r hr => ?_,
      firstFit_le hl⟩
    · have enough := Nat.le_antisymm (List.length_take_le _ _) (Nat.not_lt.1 few)
      simp only [Launch.team, mapFrom_length, List.length_zip, groupUnits, List.length_append, List.length_replicate,
        units, enough, min_self]
    · obtain ⟨j, y, hy, rfl⟩ := mem_mapFrom hr
      obtain ⟨slot, hs⟩ := List.mem_filter.1 (List.mem_of_mem_take (List.of_mem_zip hy).1)
      exact ⟨mem_upto.1 slot, by simpa using hs⟩
  · cases h

/-! ## Bind records (R278, R279) -/

/-- A core's slot table with an entry written. -/
def Core.putEntry (e : Nat) (ws : List (BitVec 32)) (k : Core) : Core :=
  { k with table := k.table.put e ((upto 8).map fun i => ws[i]?.getD 0) }

/-- A valid record of a live launch at a group's entry. -/
def State.bindGroupEntry (s : State) (c e : Nat) (ws : List (BitVec 32)) (l : Launch) : State :=
  match s.bindCheck c e (pw ws) l with
  | none => s.freezeAgent c
  | some (p, t) =>
    if l.term.isSome then s.modCore c (Core.putEntry e ws)
    else ((s.bindRelease c e (pw ws) l p t).modCore c (Core.putEntry e ws)).dropCommitted c p (natBits (pw ws 0) 29 29 == 1)

/-- The box and role of a stroke's record fit the launch, and its entry is free. -/
abbrev State.strokeFits (s : State) (c e : Nat) (ws : List (BitVec 32)) (l : Launch) : Prop :=
  (bindBox (pw ws)).x0 ≤ (bindBox (pw ws)).x1 ∧ (bindBox (pw ws)).y0 ≤ (bindBox (pw ws)).y1 ∧
    (bindBox (pw ws)).z0 ≤ (bindBox (pw ws)).z1 ∧ (bindBox (pw ws)).x1 < pw l.words 4 ∧ (bindBox (pw ws)).y1 < pw l.words 5 ∧
    (bindBox (pw ws)).z1 < pw l.words 6 ∧ natBits (pw ws 0) 28 16 = 0 ∧ (s.core c).strokes.find (e - 64) = none ∧
    (natBits (pw ws 0) 29 29 = 1 ∨ pkNp l.words ≠ 0)

/-- The chunk that a stroke's record starts a stroke of: the claimed chunk that holds its first team, or one that begins there. -/
def State.strokeChunk (s : State) (c : Nat) (ws : List (BitVec 32)) (l : Launch) : Nat :=
  let first := (bindBox (pw ws)).first (pw l.words 4) (pw l.words 5)
  match (s.core c).chunks.find? fun (x, n, lo, hi) => x == natBits (pw ws 0) 15 0 && n == l.num && lo ≤ first && first ≤ hi with
  | some (_, _, lo, _) => lo
  | none => first

/-- A valid record of a live launch at a stroke's entry. -/
def State.bindStrokeEntry (s : State) (c e : Nat) (ws : List (BitVec 32)) (l : Launch) : State :=
  if ¬s.strokeFits c e ws l then s.freezeAgent c
  else if l.term.isSome then s.modCore c (Core.putEntry e ws)
  else (s.modCore c fun k => { k with
    strokes := k.strokes.put (e - 64) (l.stroke (s.strokeChunk c ws l) (natBits (pw ws 0) 29 29 == 1) (bindBox (pw ws))) }).modCore c
    (Core.putEntry e ws)

theorem natBit_cases (x i : Nat) : natBits x i i = 0 ∨ natBits x i i = 1 := by
  rw [natBits, Nat.sub_self]
  omega

section
variable {s : State} {c e : Nat} {ws : List (BitVec 32)} {b : BindWriter}

theorem exec_bindRecordWrite_stays (h : s.bindMay c b = false) : exec (.bindRecordWrite c e ws b) s = .next s :=
  congrArg _ (if_pos (by simp [h]))

section
variable (hc : c < s.coreCount) (he : e < 80) (hm : s.bindMay c b = true)
include hc he hm

theorem exec_bindRecordWrite_other {w : Nat} (hb : b = .agent w) (hw : w ≠ c) :
    exec (.bindRecordWrite c e ws b) s = .next (s.freezeAgent w) := by
  subst hb
  refine congrArg _ ((if_neg (by simp [hm, hc, he])).trans (if_pos ?_))
  simpa using hw

theorem exec_bindRecordWrite_own63 (hb : b = .agent c) (h63 : e = 63) : exec (.bindRecordWrite c e ws b) s = .next (s.freezeAgent c) := by
  subst hb
  exact congrArg _ ((if_neg (by simp [hm, hc, he])).trans ((if_neg (by simp)).trans (if_pos (by simp [h63]))))

section
variable (hb : b = .root ∨ b = .agent c) (h63 : e ≠ 63)
include hb h63

theorem exec_bindRecordWrite_invalid (hv : natBits (pw ws 0) 31 31 ≠ 1) :
    exec (.bindRecordWrite c e ws b) s = .next (s.modCore c (Core.putEntry e ws)) := by
  rw [exec_bindRecordWrite, execBindRecordWrite]
  dsimp only
  rw [if_neg (by simp [hm, hc, he]), if_neg (by rcases hb with rfl | rfl <;> simp), if_neg (by simp [h63]),
    if_pos ((natBit_cases _ _).resolve_right hv), if_neg h63]
  rfl

theorem exec_bindRecordWrite_dead (hv : natBits (pw ws 0) 31 31 = 1) (hl : s.launch (natBits (pw ws 0) 15 0) (pw ws 7) = none) :
    exec (.bindRecordWrite c e ws b) s = .next (s.freezeAgent c) := by
  rw [exec_bindRecordWrite, execBindRecordWrite]
  dsimp only
  rw [if_neg (by simp [hm, hc, he]), if_neg (by rcases hb with rfl | rfl <;> simp), if_neg (by simp [h63]), if_neg (by simp [hv]),
    if_neg h63, hl]

section
variable (hv : natBits (pw ws 0) 31 31 = 1) {l : Launch} (hl : s.launch (natBits (pw ws 0) 15 0) (pw ws 7) = some l)
include hv hl

/-- A valid record of a live launch is for a group or for a stroke, as its entry is. -/
theorem exec_bindRecordWrite_live : exec (.bindRecordWrite c e ws b) s = .next
    (if e < 64 ↔ natBits (pw ws 0) 30 30 = 1 then s.freezeAgent c
    else if e < 64 then s.bindGroupEntry c e ws l
    else s.bindStrokeEntry c e ws l) := by
  rw [exec_bindRecordWrite, execBindRecordWrite]
  dsimp only
  rw [if_neg (by simp [hm, hc, he]), if_neg (by rcases hb with rfl | rfl <;> simp), if_neg (by simp [h63]), if_neg (by simp [hv]),
    if_neg h63, hl]
  refine congrArg _ (if_congr ?_ rfl (if_congr Iff.rfl rfl (if_congr ?_ rfl rfl)))
  · rw [beq_iff_eq, Bool.eq_iff_iff, decide_eq_true_eq, beq_iff_eq]
  · have role : (rolesOf l.words).contains (natBits (pw ws 0) 29 29 == 1) = true ↔ natBits (pw ws 0) 29 29 = 1 ∨ pkNp l.words ≠ 0 := by
      unfold rolesOf
      split <;> simp [*]
    rw [State.strokeFits, ← role, ← not_iff_not, not_not, Bool.not_eq_true]
    simp only [Bool.or_eq_false_iff, decide_eq_false_iff_not, not_lt, not_le, bne_eq_false_iff_eq, Bool.not_eq_false',
      Option.isSome_eq_false_iff, Option.isNone_iff_eq_none]
    constructor
    · rintro ⟨⟨⟨⟨⟨⟨⟨⟨free, x⟩, y⟩, z⟩, tx⟩, ty⟩, tz⟩, zero⟩, hr⟩
      exact ⟨x, y, z, tx, ty, tz, zero, free, hr⟩
    · rintro ⟨x, y, z, tx, ty, tz, zero, free, hr⟩
      exact ⟨⟨⟨⟨⟨⟨⟨⟨free, x⟩, y⟩, z⟩, tx⟩, ty⟩, tz⟩, zero⟩, hr⟩

end

end

end

/-- Lanes that are made alike. -/
theorem Group.lane_replicate {g : Group} {x : Lane} {n l : Nat} (h : g.lanes = List.replicate n x) (hl : l < n) : g.lane l = x := by
  rw [Group.lane, h, List.getElem?_replicate, if_pos hl, Option.getD_some]

/-- Nopol root's write of entry 63 ends the agent's group or starts it. -/
theorem exec_bindRecordWrite_root (hc : c < s.coreCount) (hr : s.rootRuns (dieOf c) = true) :
    exec (.bindRecordWrite c 63 ws .root) s = .next ((
      if natBits (pw ws 0) 31 31 = 0 then s.modCore c fun k => { k with groups := k.groups.erase 63 }
      else if (s.die (dieOf c)).agentRefused then s
      else s.modCore c fun k => { k with
        agentFrozen := false
        groups := k.groups.put 63 { ctx := natBits (pw ws 0) 15 0, watch := List.replicate 4 ⟨0, 0, 0, 0⟩,
                                    lanes := List.replicate 32 { pc := BitVec.ofNat 64 (pw ws 4 + 2 ^ 32 * pw ws 5) } } }).modCore c
      (Core.putEntry 63 ws)) := by
  rw [exec_bindRecordWrite, execBindRecordWrite]
  dsimp only
  rw [if_neg (by simp [State.bindMay, hr, hc]), if_neg (by simp), if_neg (by simp)]
  split
  · rfl
  · rfl

end

/-- Settles O54: each row by its run, and a reservation by what it takes (`Core.reserve_takes`). -/
theorem launchesRun : Obligations.LaunchesRun := by
  unfold Obligations.LaunchesRun
  refine ⟨fun s q x p d k turn hc hw hd hk => ?start, fun s q x p c turn hc hw hd => exec_launchStart_refused turn hc hw hd,
    fun s c ctx n l hl hterm hr ha hp hd hs hc => ?claim, fun s t c i n rest ha hp ho hm => exec_teamMaterialise_first ha hp ho hm,
    fun k l lin p t h => ?reserve, fun s c e ws b hc he hm => ?bind, fun s c e ws b => exec_bindRecordWrite_stays,
    fun s c w => ⟨Iff.rfl, ?may⟩, fun s c ha => ⟨exec_teamMaterialise_refused ha, fun ctx n => exec_chunkClaim_refused ha⟩,
    fun s c ws hc hr => ?root⟩
  case start =>
    obtain ⟨t, ls, run, last⟩ := exec_launchStart_starts turn hc hw hd hk
    exact ⟨t, _, run, by rw [last, List.getLast?_concat], rfl, rfl, rfl, rfl, rfl, rfl, rfl, rfl, rfl, rfl⟩
  case claim =>
    have run := exec_chunkClaim_claims hl hterm hr ha hp hd hs hc
    exact ⟨fun h => run.trans (congrArg _ (if_pos h)), fun h => run.trans (congrArg _ (if_neg (Nat.not_le.2 h)))⟩
  case reserve =>
    obtain ⟨free, place, ⟨lin, ctx, launch⟩, groups, slots, lines⟩ := Core.reserve_takes h
    exact ⟨free, place, lin, ctx, launch, groups, slots, lines⟩
  case may => simp [State.bindMay]
  case bind =>
    intro table put does valid ctx stroke
    refine ⟨fun w => exec_bindRecordWrite_other hc he hm, fun h63 hb => exec_bindRecordWrite_own63 hc he hm hb h63,
      fun hb h63 hv => exec_bindRecordWrite_invalid hc he hm hb h63 hv, fun hb h63 hv hl => exec_bindRecordWrite_dead hc he hm hb h63 hv hl,
      fun hb h63 hv l hl => ?_⟩
    have run := exec_bindRecordWrite_live hc he hm hb h63 hv hl
    refine ⟨fun hg hs => run.trans (congrArg _ (if_pos (iff_of_true (hg.trans (by decide)) hs))), fun hg hs => ?group, fun hg => ?stroke⟩
    case group =>
      have on : e < 64 := hg.trans (by decide)
      have run := run.trans (congrArg _ ((if_neg fun h => hs (h.1 on)).trans (if_pos on)))
      refine ⟨fun hn => run.trans ?_, fun p t hsome => ⟨fun hterm => run.trans ?_, fun hterm => run.trans ?_⟩⟩
      · rw [State.bindGroupEntry, hn]
      · rw [State.bindGroupEntry, hsome]
        exact congrArg _ (if_pos (Option.isSome_iff_ne_none.2 hterm))
      · rw [State.bindGroupEntry, hsome]
        exact congrArg _ (if_neg (by simp [hterm]))
    case stroke =>
      have off : ¬e < 64 := Nat.not_lt.2 hg
      intro box consumer fits
      by_cases hs : stroke
      · have run := run.trans (congrArg _ ((if_neg fun h => off (h.2 hs)).trans (if_neg off)))
        have fitsEntry : fits ↔ s.strokeFits c e ws l := and_iff_right hs
        rw [fitsEntry]
        exact ⟨fun hn => run.trans (congrArg _ (if_pos hn)), fun hf hterm => run.trans (congrArg _ ((if_neg (not_not.2 hf)).trans
          (if_pos (Option.isSome_iff_ne_none.2 hterm)))), fun hf hterm => ⟨_, run.trans (congrArg _ ((if_neg (not_not.2 hf)).trans
          (if_neg (by simp [hterm]))))⟩⟩
      · have frozen := run.trans (congrArg _ (if_pos (iff_of_false off hs)))
        exact ⟨fun _ => frozen, fun hf => absurd hf.1 hs, fun hf => absurd hf.1 hs⟩
  case root =>
    refine ⟨_, exec_bindRecordWrite_root hc hr, ?_, fun hv => ?_, fun hv hr => ?_, fun hv hr => ?_⟩
    · simp [Core.putEntry]
    · simp [hv, Core.putEntry]
    · simp [hv, hr, Core.putEntry]
    · rw [if_neg (by simp [hv]), if_neg (by simp [hr]), State.core_modCore, State.core_modCore]
      exact ⟨rfl, _, SMap.find_put_self .., rfl, fun l hl => by rw [Group.lane_replicate (n := 32) rfl hl]; rfl⟩

end Sys2Proof.Machine

/-! PROOFS of the statements of 17_scheduling_faults.md: contexts and queues (R57, R268, R273, R289, R290, R370). -/

namespace Sys2Proof.Machine

/-! ## What writes at a home leave unchanged -/

section
variable (s : State)

theorem State.postEvents_same (ev : List DevEvent) : SameBut s (s.postEvents ev) := State.postEventsN_same _ s ev

theorem State.readArray_same (pa n : Nat) : SameBut s (s.readArray pa n) :=
  (State.correctAll_same _ s).trans (State.postEvents_same _ _)

theorem State.putMem_same (pa : Nat) (bs : List Byte) : SameBut s (s.putMem pa bs) :=
  ((s.preserve_same pa).trans (State.putRaw_same _ pa bs)).trans (State.postEvents_same _ _)

theorem State.fillStore_same (pa n : Nat) (full : BitVec 4) : SameBut s (s.fillStore pa n full) := by
  refine SameBut.fold (fun s k => ?_) _ s
  split
  · exact .refl s
  · exact s.readArray_same _ _

theorem State.homeStore_same (pa : Nat) (bs : List Byte) (po : Policy) : SameBut s (s.homeStore pa bs po) :=
  ((s.fillStore_same pa bs.length 0).trans (State.putMem_same _ pa bs)).trans (SameBut.fold (fun s _ => s.homeTouch_same _ _ _ _) _ _)

theorem State.writePieces_same (d : Nat) (ps : List (Nat × Nat)) : ∀ (s : State) (bs : List Byte), SameBut s (s.writePieces d ps bs) := by
  induction ps with
  | nil => exact fun s _ => .refl s
  | cons p ps ih => exact fun s bs => ((s.homeStore_same _ _ _).trans (State.dropFar_same _ _ _)).trans (ih _ _)

theorem State.fillArea_same (x : Context) : SameBut s (s.fillArea x) := by
  unfold State.fillArea
  split
  next r _ =>
    have skips : SameBut s { s with free := s.free + r.len } := rfl
    exact skips.trans (State.writePieces_same _ _ _ _)
  · exact .refl s

theorem DiesOnly.mem {t : State} (h : DiesOnly s t) : t.mem = s.mem := (congrArg State.mem h :)

theorem State.dropFar_diesOnly (d : Nat) (ps : List (Nat × Nat)) : DiesOnly s (s.dropFar d ps) := by
  refine DiesOnly.fold (fun s l => ?_) _ s
  rfl

theorem State.dropWatches_same (c ctx : Nat) : SameBut s (s.dropWatches c ctx) := by
  refine SameBut.fold (fun s slot => ?_) _ s
  exact SameBut.fold (fun s n => (rfl : SameBut s (s.dropWatch c slot n))) _ s

end

/-! ## Pre-emption (R57, R289) -/

section
variable {s : State} {ctx : Nat} {x : Context}

/-- A context's stop changes the context alone. -/
theorem exec_preemption_stops (hx : s.context ctx = some x) (hp : x.preempted = false) :
    ∃ t y, exec (.preemption ctx) s = .next t ∧ t.context ctx = some y ∧ y.preempted = true ∧ y.out = x.out ∧
      t.cores = s.cores ∧ t.mem = s.mem := by
  refine ⟨s.stopContext ctx, ({ x with preempted := true }).limitColls s fun _ => true, ?_, ?_, rfl, rfl, rfl, rfl⟩
  · rw [exec_preemption, execPreemption, hx]
    exact congrArg _ (if_pos (by simp [hp]))
  · rw [State.stopContext, State.context_modContext, hx, Option.map_some]

theorem exec_preemption_stopped (hx : s.context ctx = some x) (hp : x.preempted = true) (ho : x.out = false) :
    exec (.preemption ctx) s = .next (if s.quiet ctx then (s.saveContext ctx).finishPreempts ctx else s) := by
  rw [exec_preemption, execPreemption, hx]
  refine congrArg _ ((if_neg (by simp [hp])).trans ?_)
  cases hq : s.quiet ctx
  · exact if_pos (by simp)
  · exact if_neg (by simp [ho])

/-- A saved context is out, and the cores are without what they held of it. -/
theorem State.saveContext_frees (hx : s.context ctx = some x) : (∃ y, (s.saveContext ctx).context ctx = some y ∧ y.out = true) ∧
    (s.saveContext ctx).cores = s.cores.map fun k => (k.1, k.2.withoutContext ctx) := by
  unfold State.saveContext
  extract_lets saved dropped freed filled
  have drops : SameBut s dropped := by
    refine SameBut.fold (fun s k => ?_) _ s
    exact s.dropWatches_same _ _
  have fills : SameBut freed filled := freed.fillArea_same _
  have kept : filled.context ctx = some x := by rw [State.context, fills.contexts, ← hx, State.context, ← drops.contexts]
  refine ⟨⟨_, (filled.context_modContext ctx _).trans (congrArg (Option.map _) kept), rfl⟩, ?_⟩
  rw [State.modContext_cores, fills.cores]
  exact congrArg _ drops.cores

theorem Core.withoutContext_groups {k : Core} {n : Nat} {g : Group} (h : (k.withoutContext ctx).groups.find n = some g) (hn : n ≠ 63) :
    g.ctx ≠ ctx := by
  have kept := (List.mem_filter.1 (SMap.mem_of_find h)).2
  simpa [hn] using kept

end

/-! ## The return of a context (R290) -/

section
variable {s : State} {ctx : Nat} {x : Context}

theorem exec_restore_waits (hx : s.context ctx = some x) (hp : x.preempted = true) (ho : x.out = false) :
    exec (.restore ctx) s = .next s := by
  rw [exec_restore, execRestore, hx]
  exact congrArg _ (if_pos (by simp [hp, ho]))

theorem exec_restore_returns (hx : s.context ctx = some x) (h : x.preempted = false ∨ x.out = true) :
    exec (.restore ctx) s = .next (s.restoreContext ctx) := by
  rw [exec_restore, execRestore, hx]
  exact congrArg _ (if_neg (by simpa [imp_iff_not_or] using h))

theorem State.restoreContext_spoiled (hx : s.context ctx = some x) (h : x.out = true ∨ x.saved ≠ []) (ha : s.areaBytes x ≠ x.image) :
    s.restoreContext ctx = (s.modContext ctx fun x => { x with preempted := false, out := false }).areaSpoiled ctx x := by
  rw [State.restoreContext, hx]
  exact if_pos (by simpa [ha] using h)

/-- A context of which nothing is saved runs again. -/
theorem State.restoreContext_runs (hx : s.context ctx = some x) (hs : x.saved = []) (h : x.out = false ∨ s.areaBytes x = x.image) :
    s.restoreContext ctx = s.modContext ctx fun x => { x with preempted := false, out := false } := by
  rw [State.restoreContext, hx]
  refine (if_neg (by simpa [hs, imp_iff_not_or] using h)).trans ?_
  rw [Context.savedLaunches, hs]
  rfl

end

/-! ## What Nopol root creates (R268, R370) -/

section
variable {s : State} {q a : Nat}

theorem exec_queueCreate_dead (ws : Option (List (BitVec 32))) (h : s.rootAlive = false) : exec (.queueCreate q a ws) s = .next s :=
  congrArg _ (if_pos (by simp [h]))

theorem exec_queueCreate_destroys (h : s.rootAlive = true) : exec (.queueCreate q a none) s =
    .next (({ s with queues := s.queues.erase q } : State).modDie 0 fun d => { d with held := d.held.erase q }) :=
  congrArg _ (if_neg (by simp [h]))

section
variable {ws : List (BitVec 32)} (h : s.rootAlive = true)
include h

theorem exec_queueCreate_nowhere (hn : (BitVec.ofNat 64 a).getLsbD 63 = false ∨ 65472 < a % 65536 ∨
    ∃ c, s.walkAs s.rootDie 0 (BitVec.ofNat 64 a) = .error c) : exec (.queueCreate q a (some ws)) s = .next s := by
  rw [exec_queueCreate, execQueueCreate]
  refine congrArg _ ((if_neg (by simp [h])).trans ?_)
  dsimp only
  by_cases hv : (BitVec.ofNat 64 a).getLsbD 63 = true ∧ a % 65536 ≤ 65472
  · obtain ⟨c, none⟩ := (hn.resolve_left (by rw [hv.1]; exact Bool.noConfusion)).resolve_left (Nat.not_lt.2 hv.2)
    rw [if_pos (by simp only [hv, Bool.true_and, decide_true]), none]
  · rw [if_neg (by simpa using hv)]

theorem exec_queueCreate_writes {pa lg : Nat} {e : W64} (hv : (BitVec.ofNat 64 a).getLsbD 63 = true) (hp : a % 65536 ≤ 65472)
    (hw : s.walkAs s.rootDie 0 (BitVec.ofNat 64 a) = .ok (pa, e, lg)) : ∃ t, exec (.queueCreate q a (some ws)) s = .next t ∧
      t.queues.find q = some { desc := pa } ∧ t.mem = (s.putMem pa ((upto 16).flatMap fun i => bytesOf 4 (pw ws i))).mem := by
  rw [exec_queueCreate, execQueueCreate]
  dsimp only
  rw [if_neg (by simp [h]), if_pos (by simp only [hv, hp, Bool.true_and, decide_true]), hw]
  exact ⟨_, rfl, SMap.find_put_self .., (State.dropFar_diesOnly _ _ _).mem⟩

end

end

/-! ## The creation of a context (R268, R370) -/

/-- The context that Nopol root creates from its values: counters and codes at zero, every tensor identifier still to be made invalid. -/
def createdContext (init : ContextInit) : Context := {
  root := init.root, tagEn := init.tagctl.getLsbD 0, tagAny0 := init.tagctl.getLsbD 1, tidbase := init.tidbase,
  saveArea := init.saveArea, keys := init.keys, dbgctl := init.dbgctl, timeout := init.timeout, watch := init.watch,
  eventDesc := init.eventDesc, sampleDesc := init.sampleDesc, cadence := init.cadence, admitted := init.admitted,
  pager := init.pager, comms := init.comms.foldl (fun m (n, t) => m.put n { adopted := some t }) [], blank := upto 256 }

section
variable {s : State} {ctx : Nat} {init : ContextInit}

theorem exec_contextCreate_stays (h : (∃ l ∈ s.launches, l.ctx = ctx) ∨ s.rootAlive = false) :
    exec (.contextCreate ctx init) s = .next s :=
  congrArg _ (if_pos (by simpa using h))

/-- A created context holds what Nopol root gave it and nothing else, and all of its tensor identifiers are to be made invalid. -/
theorem exec_contextCreate_creates (hl : ∀ l ∈ s.launches, l.ctx ≠ ctx) (hr : s.rootAlive = true) : ∃ t : State,
    exec (.contextCreate ctx init) s = .next (t.settleBlank ctx) ∧ t.context ctx = some (createdContext init) ∧ t.devid = init.devid := by
  rw [exec_contextCreate, execContextCreate, if_neg (by simpa [hr] using hl)]
  extract_lets _ created
  have roots : DiesOnly created (init.rootDescs.foldl (fun s (d, a) => s.modDie d fun k => { k with rootDesc := some a }) created) :=
    DiesOnly.fold (fun _ _ => by rfl) _ created
  refine ⟨_, rfl, ?_, (congrArg State.devid roots :)⟩
  exact (congrArg (State.context · ctx) roots :).trans (SMap.find_put_self ..)

end

/-! ## Tensor identifiers made invalid (Table 5-4) -/

section
variable {s : State} {ctx : Nat}

theorem State.settleBlank_folds {x : Context} (hx : s.context ctx = some x) : s.settleBlank ctx = x.blank.foldl (fun t n =>
    match t.walk ctx (t.tidAddr ctx n) with
    | .ok _ => (t.clearTensor ctx n).modContext ctx fun y => { y with blank := y.blank.filter (· ≠ n) }
    | .error _ => t) s := by
  rw [State.settleBlank, hx]
  refine List.foldl_ext _ _ _ fun t n _ => ?_
  cases t.walk ctx (t.tidAddr ctx n) with
  | error _ => rfl
  | ok _ => simp only [bne, beq_eq_decide, decide_not]

/-- The valid bit of a tensor identifier is bit 3 of its byte 9. -/
theorem State.byte_clearTensor {n pa lg : Nat} {e : W64} (hw : s.walk ctx (s.tidAddr ctx n) = .ok (pa, e, lg)) (hv : s.views = [])
    (hl : s.launches = []) (a : Nat) :
    (s.clearTensor ctx n).byte a = if a = pa + 9 ∧ (s.byte (pa + 9)).getLsbD 3 = true then s.byte (pa + 9) &&& 0xF7 else s.byte a := by
  rw [State.clearTensor, hw]
  dsimp only
  cases valid : (s.byte (pa + 9)).getLsbD 3 with
  | false => simp
  | true =>
    have free : s.inSlot a = false := by rw [State.inSlot, hl]; rfl
    rw [if_pos rfl, State.putBy, (State.dropFar_diesOnly _ _ _).byte, State.putMem_noView _ _ _ hv, State.byte_putRaw]
    by_cases at9 : a = pa + 9
    · subst at9
      simp [free]
    · rw [if_neg (by rw [List.length_singleton]; omega), if_neg (at9 ·.1)]

end

/-- Settles O56: a context stops, is saved and returns; queues and contexts are created. -/
theorem contextsAndQueues : Obligations.ContextsAndQueues := by
  refine ⟨fun s ctx x hx => ⟨exec_preemption_stops hx, fun hp ho hq => ?waits, fun hp ho hq => ?saves, exec_restore_waits hx,
      exec_restore_returns hx, State.restoreContext_spoiled hx, fun hs h => ?runs⟩, fun s ctx x hx => ?frees,
    fun s q a ws h => ⟨exec_queueCreate_nowhere h, fun hv hp pa e lg hw => exec_queueCreate_writes h hv hp hw⟩,
    fun s q a h => ⟨_, exec_queueCreate_destroys h, SMap.find_erase_self .., rfl⟩, fun s q a ws h => exec_queueCreate_dead ws h,
    fun s ctx init hl hr => ?creates, fun s ctx x hx => State.settleBlank_folds hx,
    fun s ctx n pa lg e hw hv hl => ⟨?invalid, fun _ a ne => ?others⟩, fun s ctx init h => exec_contextCreate_stays h⟩
  case waits => rw [exec_preemption_stopped hx hp ho, hq]; rfl
  case saves => rw [exec_preemption_stopped hx hp ho, hq]; rfl
  case runs =>
    rw [State.restoreContext_runs hx hs h, State.context_modContext, hx]
    exact ⟨_, rfl, rfl, rfl⟩
  case frees =>
    obtain ⟨⟨y, out, isOut⟩, cores⟩ := State.saveContext_frees hx
    refine ⟨y, out, isOut, fun c k hk n g hg hn => ?_⟩
    rw [cores, SMap.find_map s.cores (fun k => (k.1, k.2.withoutContext ctx)) fun _ => rfl] at hk
    obtain ⟨before, _, rfl⟩ := Option.map_eq_some_iff.1 hk
    exact Core.withoutContext_groups hg hn
  case creates =>
    obtain ⟨t, ran, made, dev⟩ := exec_contextCreate_creates (init := init) hl hr
    exact ⟨t, _, ran, made, rfl, rfl, rfl, rfl, rfl, rfl, rfl, rfl, rfl, dev, rfl, rfl, rfl, rfl, rfl⟩
  case invalid =>
    rw [State.byte_clearTensor hw hv hl]
    split
    · rw [BitVec.getLsbD_and]
      exact Bool.and_false _
    · next invalid => simpa using invalid
  case others => rw [State.byte_clearTensor hw hv hl, if_neg (ne ·.1)]

end Sys2Proof.Machine

/-! PROOFS of the statements of 19_fabric_memory_devices.md: little-endian bytes, and lists of equal pieces (R60). -/

namespace Sys2Proof.Machine

/-! ## Bytes of numbers -/

theorem ofBytes_bytesOf_of_lt {n x : Nat} (h : x < 2 ^ (8 * n)) : ofBytes (bytesOf n x) = x := by
  rw [ofBytes_bytesOf, Nat.mod_eq_of_lt h]

theorem ofBytes_bytesOf_toNat {n : Nat} (x : BitVec (8 * n)) : ofBytes (bytesOf n x.toNat) = x.toNat := ofBytes_bytesOf_of_lt x.isLt

theorem bytesOf_zero (n : Nat) : bytesOf n 0 = List.replicate n 0 := by
  induction n with
  | zero => rfl
  | succ n ih => rw [bytesOf, Nat.zero_shiftRight, ih, List.replicate_succ]; rfl

/-- The bits of a word's number are the number of its field. -/
theorem natBits_toNat {w : Nat} (x : BitVec w) (hi lo : Nat) : natBits x.toNat hi lo = (field x lo (hi - lo + 1)).toNat := by
  simp [natBits, field, BitVec.extractLsb'_toNat]

section
variable {n m lo len : Nat} {x : BitVec n} {y : BitVec m}

/-- A field within the low part of a word put together from two. -/
theorem field_append_low (h : lo + len ≤ m) : field (x ++ y) lo len = field y lo len := by
  refine BitVec.eq_of_getLsbD_eq fun i hi => ?_
  simp only [field, BitVec.getLsbD_extractLsb', BitVec.getLsbD_append, if_pos (show lo + i < m by omega)]

/-- A field within the high part of it. -/
theorem field_append_high (h : m ≤ lo) : field (x ++ y) lo len = field x (lo - m) len := by
  refine BitVec.eq_of_getLsbD_eq fun i hi => ?_
  simp only [field, BitVec.getLsbD_extractLsb', BitVec.getLsbD_append, if_neg (show ¬lo + i < m by omega),
    show lo + i - m = lo - m + i by omega]

@[simp] theorem field_self : field x 0 n = x := by
  refine BitVec.eq_of_getLsbD_eq fun i hi => ?_
  simp [field, hi]

theorem getLsbD_of_field {i : Nat} {b : Bool} (h : field x i 1 = BitVec.ofBool b) : x.getLsbD i = b := by
  simpa [field] using congrArg (BitVec.getLsbD · 0) h

end

theorem padTo_of_le {n : Nat} {bs : List Byte} (h : bs.length ≤ n) : padTo n bs = bs ++ List.replicate (n - bs.length) 0 := by
  rw [padTo, List.take_of_length_le]
  simp
  omega

@[simp] theorem padTo_length (n : Nat) (bs : List Byte) : (padTo n bs).length = n := by simp [padTo]; omega

/-! ## Lists of equal pieces -/

section
variable {α β : Type} {f : α → List β} {n : Nat}

theorem flatMap_length (h : ∀ x, (f x).length = n) (xs : List α) : (xs.flatMap f).length = n * xs.length := by
  induction xs with
  | nil => rfl
  | cons x xs ih => rw [List.flatMap_cons, List.length_append, h, ih, List.length_cons]; ring

theorem chunksOf_flatMap (h : ∀ x, (f x).length = n) (hn : 0 < n) (xs : List α) : chunksOf n xs.length (xs.flatMap f) = xs.map f := by
  induction xs with
  | nil => rfl
  | cons x xs ih =>
    have ne : f x ++ xs.flatMap f ≠ [] := fun e => by have := congrArg List.length e; simp [h] at this; omega
    rw [List.flatMap_cons, List.length_cons, chunksOf.eq_3 _ _ _ ne, List.take_left' (h x), List.drop_left' (h x), ih, List.map_cons]

theorem take_drop_flatMap (h : ∀ x, (f x).length = n) {xs : List α} {i : Nat} {x : α} (hx : xs[i]? = some x) (rest : List β) :
    ((xs.flatMap f ++ rest).drop (n * i)).take n = f x := by
  induction xs generalizing i with
  | nil => simp at hx
  | cons y xs ih =>
    cases i with
    | zero =>
      obtain rfl : y = x := by simpa using hx
      rw [List.flatMap_cons, List.append_assoc, Nat.mul_zero, List.drop_zero, List.take_left' (h y)]
    | succ i =>
      have step : n * (i + 1) = (f y).length + n * i := by rw [h]; ring
      rw [List.flatMap_cons, List.append_assoc, step, ← List.drop_drop, List.drop_left, ih (by simpa using hx)]

end

end Sys2Proof.Machine

/-! PROOFS of the statements of 19_fabric_memory_devices.md: flits on the die links (R295 to R297). -/

namespace Sys2Proof.Machine

/-! ## Streams and modules of a state -/

theorem StreamId.key_back_ne (t : StreamId) : StreamId.key (StreamId.back t) ≠ StreamId.key t := by
  cases h : t.fromHi <;> simp [StreamId.key, StreamId.back, h]

section
variable {s : State} (t a : StreamId) (f : Stream → Stream) (g : Module → Module)

@[simp] theorem StreamId.back_back : StreamId.back (StreamId.back t) = t := by simp [StreamId.back]

@[simp] theorem State.stream_modStream : (s.modStream t f).stream t = f (s.stream t) := by
  rw [State.stream, State.modStream, SMap.get_put_self]

variable {t a} in
theorem State.stream_modStream_ne (h : StreamId.key a ≠ StreamId.key t) : (s.modStream t f).stream a = s.stream a := by
  rw [State.stream, State.modStream, SMap.get_put_ne _ _ _ _ _ h, State.stream]

@[simp] theorem State.stream_modStream_back : (s.modStream (StreamId.back t) f).stream t = s.stream t :=
  s.stream_modStream_ne f (StreamId.key_back_ne t).symm

@[simp] theorem State.back_modStream : (s.modStream t f).stream (StreamId.back t) = s.stream (StreamId.back t) :=
  s.stream_modStream_ne f (StreamId.key_back_ne t)

@[simp] theorem State.stream_modModule : (s.modModule t g).stream a = s.stream a := rfl
@[simp] theorem State.module_modStream : (s.modStream t f).module a = s.module a := rfl
@[simp] theorem State.die_modStream (d : Nat) : (s.modStream t f).die d = s.die d := rfl

@[simp] theorem State.module_modModule : (s.modModule t g).module t = g (s.module t) := by
  rw [State.module, State.modModule, SMap.get_put_self]

theorem Module.up_iff (m : Module) : m.up = true ↔ m.retrain = none ∧ m.width ≠ .down := by
  simp [Module.up]

end

/-! ## A flit's bytes (R295, Table 19-1) -/

section
variable (f : Flit)

/-- A flit's 15 slots of payload: its own, then zeros (log 77). -/
def Flit.payload : List (BitVec 128) := f.slots ++ List.replicate (15 - f.slots.length) 0

theorem slotBytes_zeros (n : Nat) : (List.replicate n (0 : BitVec 128)).flatMap (fun x => bytesOf 16 x.toNat) = List.replicate (16 * n) 0 := by
  induction n with
  | zero => rfl
  | succ n ih =>
    rw [List.replicate_succ, List.flatMap_cons, ih, BitVec.ofNat_eq_ofNat, BitVec.toNat_ofNat, Nat.zero_mod, bytesOf_zero, List.replicate_append_replicate]
    congr 1
    ring

variable {f}

theorem Flit.padTo_slots (h : f.slots.length ≤ 15) :
    padTo 240 (f.slots.flatMap fun x => bytesOf 16 x.toNat) = f.payload.flatMap fun x => bytesOf 16 x.toNat := by
  have len : (f.slots.flatMap fun x => bytesOf 16 x.toNat).length = 16 * f.slots.length := flatMap_length (fun x => bytesOf_length ..) _
  rw [padTo_of_le (by omega), Flit.payload, List.flatMap_append, slotBytes_zeros, len, Nat.mul_sub]

theorem Flit.payload_length (h : f.slots.length ≤ 15) : f.payload.length = 15 := by
  rw [Flit.payload, List.length_append, List.length_replicate]
  omega

variable (f)

theorem Flit.body_length : f.body.length = 252 := by simp [Flit.body]

theorem Flit.wire_length : f.wire.length = 256 := by simp [Flit.wire, Flit.body_length]

theorem Flit.take_body : f.wire.take 252 = f.body := List.take_left' f.body_length

theorem Flit.drop_body : f.wire.drop 252 = bytesOf 4 (crc32c f.body).toNat := List.drop_left' f.body_length

theorem Flit.take_header : f.wire.take 8 = bytesOf 8 f.header.toNat := by
  rw [Flit.wire, Flit.body, List.append_assoc, List.append_assoc, List.take_left' (bytesOf_length ..)]

theorem Flit.drop_header : f.wire.drop 8 =
    padTo 240 (f.slots.flatMap fun x => bytesOf 16 x.toNat) ++ (bytesOf 4 0 ++ bytesOf 4 (crc32c f.body).toNat) := by
  rw [Flit.wire, Flit.body, List.append_assoc, List.append_assoc, List.drop_left' (bytesOf_length ..)]

theorem Flit.take_payload : (f.wire.drop 8).take 240 = padTo 240 (f.slots.flatMap fun x => bytesOf 16 x.toNat) := by
  rw [Flit.drop_header, List.take_left' (padTo_length ..)]

theorem Flit.take_zeros : (f.wire.drop 248).take 4 = bytesOf 4 0 := by
  rw [show (248 : Nat) = 8 + 240 from rfl, ← List.drop_drop, Flit.drop_header, List.drop_left' (padTo_length ..),
    List.take_left' (bytesOf_length ..)]

theorem Flit.ofBytes_header : ofBytes (f.wire.take 8) = f.header.toNat := by
  rw [Flit.take_header, ofBytes_bytesOf_toNat (n := 8)]

/-- The fields of a flit's header (Table 19-1). -/
theorem Flit.header_fields : field f.header 60 4 = f.kind ∧ field f.header 48 12 = BitVec.ofNat 12 f.seq ∧
    field f.header 36 12 = BitVec.ofNat 12 f.ack ∧ field f.header 35 1 = BitVec.ofBool f.nak ∧
    field f.header 27 8 = BitVec.ofNat 8 f.cred ∧ field f.header 0 27 = 0 := by
  rw [show f.header = (f.kind ++ BitVec.ofNat 12 f.seq ++ BitVec.ofNat 12 f.ack ++ BitVec.ofBool f.nak ++ BitVec.ofNat 8 f.cred ++
    (0 : BitVec 27) : BitVec (4 + 12 + 12 + 1 + 8 + 27)) from rfl]
  simp (disch := decide) only [field_append_high, field_append_low]
  exact ⟨field_self, field_self, field_self, field_self, field_self, field_self⟩

variable {f}

/-- A data flit's payload is read back slot by slot. -/
theorem Flit.chunks_payload (h : f.slots.length ≤ 15) :
    ((chunksOf 16 15 ((f.wire.drop 8).take 240)).map fun c => BitVec.ofNat 128 (ofBytes c)) = f.payload := by
  have slots := chunksOf_flatMap (f := fun x : BitVec 128 => bytesOf 16 x.toNat) (fun x => bytesOf_length ..) (by decide) f.payload
  rw [Flit.payload_length h] at slots
  rw [Flit.take_payload, Flit.padTo_slots h, slots, List.map_map]
  simp only [Function.comp_def, ofBytes_bytesOf_toNat (n := 16), BitVec.ofNat_toNat, BitVec.setWidth_eq, List.map_id']

theorem Flit.ofWire_wire (hseq : f.seq < 4096) (hack : f.ack < 4096) (hcred : f.cred < 256) (hk : f.kind = 1) (h : f.slots.length ≤ 15) :
    Flit.ofWire f.wire = some { f with slots := f.payload } := by
  obtain ⟨kind, seq, ack, nak, cred, low⟩ := f.header_fields
  have header : BitVec.ofNat 64 (ofBytes (f.wire.take 8)) = f.header := by
    rw [Flit.ofBytes_header, BitVec.ofNat_toNat, BitVec.setWidth_eq]
  rw [hk] at kind
  rw [Flit.ofWire]
  simp only [header, kind, seq, ack, cred, low, getLsbD_of_field nak, Flit.wire_length, Flit.take_body, Flit.drop_body, Flit.take_zeros,
    Flit.chunks_payload h]
  simp [Nat.mod_eq_of_lt, hseq, hack, hcred, hk]

/-- A received flit: everything that the receiver tests of its bytes. -/
theorem Flit.ofWire_tests {bs : List Byte} (h : Flit.ofWire bs = some f) :
    bs.length = 256 ∧ bs.drop 252 = bytesOf 4 (crc32c (bs.take 252)).toNat ∧
    f.kind.toNat ≤ 2 ∧ natBits (ofBytes (bs.take 8)) 26 0 = 0 ∧ (∀ x ∈ (bs.drop 248).take 4, x = 0) ∧
    (f.kind ≠ 1 → f.seq = 0 ∧ f.slots = [] ∧ ∀ x ∈ (bs.drop 8).take 240, x = 0) := by
  rw [Flit.ofWire] at h
  simp only [Option.ite_none_left_eq_some, Bool.or_eq_true, Bool.and_eq_true, bne_iff_ne, decide_eq_true_eq, not_or, not_and, not_not,
    Option.some.injEq] at h
  obtain ⟨⟨⟨⟨⟨⟨len, crc⟩, kind⟩, low⟩, zeros⟩, empty⟩, rfl⟩ := h
  have other : ∀ {k : BitVec 4}, k ≠ 1 → k.toNat ≠ 1 := fun hk e => hk (BitVec.eq_of_toNat_eq e)
  refine ⟨len, crc, Nat.not_lt.1 kind, ?_, fun x hx => ?_, fun hk => ⟨(empty (other hk)).1, if_neg (other hk), fun x hx => ?_⟩⟩
  · rw [field, BitVec.extractLsb'_toNat, BitVec.toNat_ofNat, Nat.shiftRight_zero] at low
    rw [natBits, Nat.shiftRight_zero]
    omega
  · rw [zeros, bytesOf_zero] at hx
    exact List.eq_of_mem_replicate hx
  · rw [(empty (other hk)).2, padTo_of_le (Nat.zero_le _)] at hx
    exact List.eq_of_mem_replicate hx

end

/-! ## What the wires carry (R296, R297) -/

section
variable {s : State} {t : StreamId}

theorem exec_dataFlit_takes {u : State} {f : Flit} (h : s.takeFlit t 1 = some (f, u)) : exec (.dataFlit t) s = .next
    (if f.seq = ((u.applyFlit t f).stream t).exp then
        (u.applyFlit t f).modStream t fun x => x.accept f.slots ((u.applyFlit t f).die (StreamId.dst t)).cycle
      else if (((u.applyFlit t f).stream t).exp + 4096 + 4095 - f.seq) % 4096 < 64 then (u.applyFlit t f).sendFlit (StreamId.back t) 2 0 false []
      else (u.applyFlit t f).sendNak t) := by
  rw [exec_dataFlit, execDataFlit, h]

theorem State.sendFlit_stream (kind : BitVec 4) (seq : Nat) (nak : Bool) (slots : List (BitVec 128)) :
    (s.sendFlit t kind seq nak slots).stream t = { s.stream t with wire := (s.stream t).wire ++ [{
      kind := kind, seq := seq, ack := ((s.stream (StreamId.back t)).exp + 4095) % 4096, nak := nak,
      cred := Nat.min (s.stream (StreamId.back t)).freed 255, slots := slots }] } := by
  rw [State.sendFlit, State.stream_modStream_back, State.stream_modStream]
  rfl

theorem State.sendFlit_back (kind : BitVec 4) (seq : Nat) (nak : Bool) (slots : List (BitVec 128)) :
    (s.sendFlit t kind seq nak slots).stream (StreamId.back t) = { s.stream (StreamId.back t) with
      freed := (s.stream (StreamId.back t)).freed - Nat.min (s.stream (StreamId.back t)).freed 255, ackAt := none } := by
  rw [State.sendFlit, State.stream_modStream, State.back_modStream]

/-- Slots cut into whole packets, and the rest: nothing is lost, and each packet has the slots that its header says. -/
theorem framed_slots (no fuel first : Nat) (xs : List (BitVec 128)) :
    ((framed no fuel first xs).1.flatMap fun p => p.2) ++ (framed no fuel first xs).2.2 = xs ∧
    ∀ p ∈ (framed no fuel first xs).1, ∃ h rest, p.2 = h :: rest ∧ rest.length = (Pkt.ofSlot h).len := by
  induction fuel generalizing first xs with
  | zero => exact ⟨rfl, nofun⟩
  | succ fuel ih =>
    cases xs with
    | nil => exact ⟨rfl, nofun⟩
    | cons x xs =>
      obtain ⟨whole, each⟩ := ih no (xs.drop (Pkt.ofSlot x).len)
      rw [framed]
      split
      · exact ⟨rfl, nofun⟩
      · next enough =>
        refine ⟨?_, fun p hp => ?_⟩
        · rw [List.flatMap_cons, List.append_assoc, whole, List.cons_append, List.take_append_drop]
        · obtain rfl | hp := List.mem_cons.1 hp
          · exact ⟨x, _, rfl, by rw [List.length_take]; omega⟩
          · exact each p hp

theorem exec_nakLapse_at {a : Nat} (h : (s.stream t).nakAt = some a) : exec (.nakLapse t) s = .next
    (if (s.die (StreamId.dst t)).cycle < a + 1024 then s else s.modStream t fun x => { x with nakAt := none }) := by
  rw [exec_nakLapse, execNakLapse, h]

theorem exec_ackTimerExpiry_at {a : Nat} (h : (s.stream t).ackAt = some a) : exec (.ackTimerExpiry t) s = .next
    (if (s.die (StreamId.dst t)).cycle < a + 64 || !(s.module t).up then s else s.sendFlit (StreamId.back t) 2 0 false []) := by
  rw [exec_ackTimerExpiry, execAckTimerExpiry, h]

variable {x : HeldFlit} {xs : List HeldFlit}

theorem exec_replayTimeout_at (h : (s.stream t).replay = x :: xs) : exec (.replayTimeout t) s = .next
    (if (s.die (StreamId.src t)).cycle < x.at_ + 1024 || !(s.module t).up then s else s.replay t) := by
  rw [exec_replayTimeout, execReplayTimeout, h]

/-- A replay: a held flit that has been replayed four times makes the module retrain (R298), else all are sent again. -/
theorem State.replay_held (h : (s.stream t).replay = x :: xs) : s.replay t =
    if (x :: xs).any fun y => 4 ≤ y.replays then s.startRetrain t (attempts (s.module t).width) 0
    else ((s.modStream t fun y => { y with replay := y.replay.map fun z =>
        { z with replays := z.replays + 1, at_ := (s.die (StreamId.src t)).cycle } }).modModule t
      fun m => { m with nrep := m.nrep + 1 }).resend t (x :: xs) := by
  rw [State.replay, h]
  rfl

theorem State.applyFlit_eq (f : Flit) : s.applyFlit t f =
    let u := s.modStream (StreamId.back t) fun x => { x with
      replay := x.replay.filter fun h => 64 ≤ (f.ack + 4096 - h.seq) % 4096
      credits := Nat.min Config.linkCredits (x.credits + f.cred) }
    (if f.nak then u.replay (StreamId.back t) else u).pump (StreamId.back t) := rfl

end

/-- Settles O50: the flit's bytes field by field, and each event on a wire by the branch of its definition that the flit takes. -/
theorem linkFlits : Obligations.LinkFlits := by
  refine ⟨fun s u t f h => ?data, fun f hseq hack hcred hk hs => ?bytes, fun bs f h => Flit.ofWire_tests h,
    fun s u t f h => by rw [exec_controlFlit, execControlFlit, h],
    fun s t h => ⟨by rw [exec_dataFlit, execDataFlit, h], by rw [exec_controlFlit, execControlFlit, h]⟩,
    fun s u t f hl hu hw h => ?idle, fun s t f fs hl hw => ?bad, fun s t => ?nak, fun s t kind seq nak slots => ?sends,
    fun x slots now => ?accepts, fun s t a => ?timers, fun s t x xs h => ?held, fun s t f => ?applies⟩
  case data =>
    rw [exec_dataFlit_takes h]
    exact ⟨fun e => by rw [if_pos e], fun e d => by rw [if_neg e, if_pos d], fun e d => by rw [if_neg e, if_neg (Nat.not_lt.2 d)]⟩
  case bytes =>
    obtain ⟨kind, seq, ack, nak, cred, low⟩ := f.header_fields
    have bits : ∀ hi lo, natBits (ofBytes (f.wire.take 8)) hi lo = (field f.header lo (hi - lo + 1)).toNat := fun hi lo => by
      rw [Flit.ofBytes_header, natBits_toNat]
    refine ⟨f.wire_length, Flit.ofWire_wire hseq hack hcred hk hs, ?_, ?_, ?_, ?_, ?_, ?_, by rw [Flit.drop_body, Flit.take_body],
      fun i hi => ?_⟩
    · rw [bits, kind]
    · rw [bits, seq, BitVec.toNat_ofNat, Nat.mod_eq_of_lt hseq]
    · rw [bits, ack, BitVec.toNat_ofNat, Nat.mod_eq_of_lt hack]
    · rw [bits, nak, BitVec.toNat_ofBool]
    · rw [bits, cred, BitVec.toNat_ofNat, Nat.mod_eq_of_lt hcred]
    · rw [bits, low]; rfl
    · have slot : f.payload[i]? = some f.slots[i] := by rw [Flit.payload, List.getElem?_append_left hi, List.getElem?_eq_getElem hi]
      rw [← List.drop_drop, Flit.drop_header, Flit.padTo_slots hs, take_drop_flatMap (fun _ => bytesOf_length ..) slot,
        ofBytes_bytesOf_toNat (n := 16), List.getElem?_eq_getElem hi, Option.getD_some]
  case idle => rw [exec_idleFlit, execIdleFlit, if_neg (by simp [hl, hu, hw]), h]
  case bad => rw [exec_badFlit, execBadFlit, hw, hl]; rfl
  case nak =>
    refine ⟨fun h => if_pos h, fun h => ?_⟩
    rw [State.sendNak, h]
    rfl
  case sends => exact ⟨congrArg Stream.wire (State.sendFlit_stream ..), congrArg Stream.ackAt (State.sendFlit_back ..),
    congrArg Stream.freed (State.sendFlit_back ..)⟩
  case accepts => exact ⟨rfl, rfl, fun h => by rw [Stream.accept, h]; rfl, rfl, rfl, rfl, rfl, _, rfl, framed_slots ..⟩
  case timers =>
    refine ⟨fun h early => ?_, fun h due => ?_, fun h early => ?_, fun h due up => ?_⟩
    · rw [exec_nakLapse_at h, if_pos early]
    · rw [exec_nakLapse_at h, if_neg (Nat.not_lt.2 due)]
    · rw [exec_ackTimerExpiry_at h, if_pos (by simp [early])]
    · rw [exec_ackTimerExpiry_at h, if_neg (by simp [up, due])]
  case held =>
    refine ⟨fun early => ?_, fun due up => ?_, fun ⟨y, hy, h4⟩ => ?_, fun h4 => ?_⟩
    · rw [exec_replayTimeout_at h, if_pos (by simp [early])]
    · rw [exec_replayTimeout_at h, if_neg (by simp [up, due])]
    · rw [State.replay_held h, if_pos (List.any_eq_true.2 ⟨y, hy, by simpa using h4⟩)]
    · rw [State.replay_held h, if_neg (by simpa using h4)]
  case applies => exact ⟨fun h => by rw [State.applyFlit_eq, h]; rfl, fun h => by rw [State.applyFlit_eq, h]; rfl⟩

end Sys2Proof.Machine

/-! PROOFS of the statements of 19_fabric_memory_devices.md: modules retrain, come up or go down (R298). -/

namespace Sys2Proof.Machine

section
variable {s : State} (t : StreamId)

theorem State.startRetrain_leaves (ws : List Width) (cause : Nat) : ((s.startRetrain t ws cause).module t).retrain = some (ws, cause) ∧
    ((s.startRetrain t ws cause).module t).width = (s.module t).width ∧ ((s.startRetrain t ws cause).stream t).wire = [] ∧
    ((s.startRetrain t ws cause).stream (StreamId.back t)).wire = [] := by
  have module : (s.startRetrain t ws cause).module t = { s.module t with retrain := some (ws, cause) } := State.module_modModule ..
  refine ⟨by rw [module], by rw [module], ?_, ?_⟩
  · rw [State.startRetrain, State.stream_modModule, State.stream_modStream_back, State.stream_modStream]
  · rw [State.startRetrain, State.stream_modModule, State.stream_modStream]

/-- The end of an attempt at the lanes `w`, of which the others of `ws` are left (R298). -/
theorem exec_retrainAttemptEnd_tries {lo hi m cause : Nat} {w : Width} {ws : List Width} (ok : Bool)
    (h : (s.module (lowStream lo hi m)).retrain = some (w :: ws, cause)) :
    let t := lowStream lo hi m
    let v := ((s.modModule t fun x => { x with width := w, retrain := none }).renumbered t).renumbered (StreamId.back t)
    let d := s.modModule t fun x => { x with width := .down, retrain := none }
    exec (.retrainAttemptEnd lo hi m ok) s = .next (if ok then
        if w = (s.module t).width then (v.restart t).restart (StreamId.back t)
        else ((v.restart t).restart (StreamId.back t)).linkEvent t cause
      else if !ws.isEmpty then s.modModule t fun x => { x with retrain := some (ws, cause) }
      else (if (d.module (StreamId.other t)).width = .down then d.linkDown lo hi
        else (d.moveStream t).moveStream (StreamId.back t)).linkEvent t cause) := by
  rw [exec_retrainAttemptEnd, execRetrainAttemptEnd, h]

theorem renumber_length (now i : Nat) (hs : List HeldFlit) : (renumber now i hs).length = hs.length := by
  induction hs generalizing i with
  | nil => rfl
  | cons h hs ih => rw [renumber, List.length_cons, ih, List.length_cons]

theorem renumber_slots (now i : Nat) (hs : List HeldFlit) : (renumber now i hs).map HeldFlit.slots = hs.map HeldFlit.slots := by
  induction hs generalizing i with
  | nil => rfl
  | cons h hs ih => rw [renumber, List.map_cons, ih, List.map_cons]

theorem renumber_get {now i j : Nat} {hs : List HeldFlit} {h : HeldFlit} (hj : (renumber now i hs)[j]? = some h) :
    h.seq = (i + j) % 4096 ∧ h.replays = 0 := by
  induction hs generalizing i j with
  | nil => simp [renumber] at hj
  | cons x hs ih =>
    rw [renumber] at hj
    cases j with
    | zero =>
      rw [List.getElem?_cons_zero, Option.some.injEq] at hj
      subst hj
      exact ⟨rfl, rfl⟩
    | succ j =>
      obtain ⟨seq, replays⟩ := ih (List.getElem?_cons_succ .. ▸ hj)
      exact ⟨by rw [seq]; congr 1; omega, replays⟩

/-- A direction after its numbering afresh. -/
theorem State.renumbered_stream : (s.renumbered t).stream t = { s.stream t with
    seq := (s.stream t).replay.length % 4096, exp := 0, nakAt := none, before := []
    replay := renumber (s.die (StreamId.src t)).cycle 0 (s.stream t).replay
    part := (s.stream t).rewound.2, partNo := (s.stream t).rewound.1 } := by
  rw [State.renumbered, State.stream_modStream, renumber_length]

end

/-- Settles O51: each event by the branch of its definition, and the numbers of held flits by induction over them. -/
theorem linkRetraining : Obligations.LinkRetraining := by
  refine ⟨fun s t hu ⟨x, hx, h4⟩ => ?limit, fun s t h4 => ?below, fun s lo hi m hl => ⟨fun hu => ?loss, fun hr => ?command⟩,
    fun s t ws cause => State.startRetrain_leaves t ws cause, ⟨rfl, rfl, rfl, rfl⟩, fun s lo hi m cause w ws hr => ?attempt,
    fun s t => ?renumbers, fun s t => rfl⟩
  case limit =>
    have spent : ((s.stream t).replay.any fun h => 4 ≤ h.replays) = true := List.any_eq_true.2 ⟨x, hx, by simpa using h4⟩
    rw [exec_replayLimit, execReplayLimit, if_pos (by rw [hu, spent]; rfl)]
  case below =>
    have under : ((s.stream t).replay.any fun h => 4 ≤ h.replays) = false := by simpa using h4
    rw [exec_replayLimit, execReplayLimit, if_neg (by simp [under])]
  case loss => rw [exec_laneLockLoss, execLaneLockLoss, hl, hu]; rfl
  case command => rw [exec_retrainCommand, execRetrainCommand, hl, hr]; rfl
  case attempt =>
    refine ⟨fun same => ?_, fun other => ?_, fun left => ?_, fun last up => ?_, fun last _ down => ?_⟩
    · rw [exec_retrainAttemptEnd_tries true hr, if_pos rfl, if_pos same]
    · rw [exec_retrainAttemptEnd_tries true hr, if_pos rfl, if_neg other]
    · rw [exec_retrainAttemptEnd_tries false hr, if_neg (by decide), if_pos (by simpa using left)]
    · rw [exec_retrainAttemptEnd_tries false hr, if_neg (by decide), if_neg (by simp [last]), if_neg up]
    · rw [exec_retrainAttemptEnd_tries false hr, if_neg (by decide), if_neg (by simp [last]), if_pos down]
  case renumbers =>
    rw [State.renumbered_stream]
    refine ⟨rfl, rfl, rfl, rfl, renumber_slots .., fun i h hi => ?_, rfl⟩
    rw [← Nat.zero_add i]
    exact renumber_get hi

end Sys2Proof.Machine

/-! PROOFS of the statements of 19_fabric_memory_devices.md: the host's RDMA operations and its debug requests (R318, R319, R366). -/

namespace Sys2Proof.Machine

/-! ## Pieces of a host access (R319) -/

theorem cutRange_zero (fuel a : Nat) : cutRange fuel a 0 = [] := by cases fuel <;> rfl

theorem cutRange_sum : ∀ {fuel a n : Nat}, a % 65536 + n ≤ 65536 * fuel → ((cutRange fuel a n).map Prod.snd).sum = n
  | 0, _, _, h => by rw [cutRange]; exact (Nat.le_zero.1 (Nat.le_of_add_left_le h)).symm
  | fuel + 1, a, n, h => by
    rw [cutRange]
    split
    · next none => exact none.symm
    dsimp only
    rw [List.map_cons, List.sum_cons]
    obtain last | more := Nat.le_total n (65536 - a % 65536)
    · rw [show n.min (65536 - a % 65536) = n from Nat.min_eq_left last, Nat.sub_self, cutRange_zero]
      rfl
    · rw [show n.min (65536 - a % 65536) = 65536 - a % 65536 from Nat.min_eq_right more, cutRange_sum (by omega)]
      exact Nat.add_sub_cancel' more

theorem mem_cutRange {x : Nat × Nat} : ∀ {fuel a n : Nat}, x ∈ cutRange fuel a n → 0 < x.2 ∧ x.1 / 65536 = (x.1 + x.2 - 1) / 65536
  | 0, _, _, h => absurd h List.not_mem_nil
  | fuel + 1, a, n, h => by
    rw [cutRange] at h
    split at h
    · exact absurd h List.not_mem_nil
    · next some =>
      obtain rfl | h := List.mem_cons.1 h
      · show 0 < min n (65536 - a % 65536) ∧ a / 65536 = (a + min n (65536 - a % 65536) - 1) / 65536
        omega
      · exact mem_cutRange h

/-! ## Host requests (R318, R319) -/

section
variable {s : State} {x : HostReq}

/-- What refuses a host request: it is out of what it may reach, or a piece cannot be performed. -/
theorem State.hostRefused_iff : s.hostRefused x = true ↔
    (s.registered x.addr x.len = false ∨ s.reachable x.addr x.len = false) ∨
    ∃ y ∈ hostPieces x.addr x.len, s.linked (2 * x.port) (homeDie y.1) = false ∨ (if x.bytes.isSome then s.badPart y.1 y.2
      else s.bad y.1 y.2 || (s.held y.1 && !s.homeHit y.1 y.2 && s.overdue (stackOf y.1))) = true := by
  simp only [State.hostRefused, HostReq.pieces, HostReq.die, Bool.or_eq_true, Bool.not_eq_true', List.any_eq_true]

theorem State.hostWaits_iff : s.hostWaits x = true ↔ ¬s.hostRefused x = true ∧
    ∃ y ∈ hostPieces x.addr x.len, (if x.bytes.isSome then s.writeWaits y.1 y.2 else s.stackWaits y.1 y.2) = true := by
  simp only [State.hostWaits, HostReq.pieces, Bool.and_eq_true, Bool.not_eq_true', List.any_eq_true, Bool.not_eq_true]

theorem State.hostAct_refused (h : s.hostRefused x = true) (hx : x.bytes.isSome = true ∨ s.registered x.addr x.len = false) :
    s.hostAct x = { s with hostOut := s.hostOut ++ [.nak x.port] } := by
  have unread : ¬(s.registered x.addr x.len && x.bytes.isNone) = true := by
    obtain hx | hx := hx
    · simp [← Option.not_isSome, hx]
    · simp [hx]
  rw [State.hostAct, if_pos h, if_neg unread]

theorem State.hostAct_unreadable (h : s.hostRefused x = true) (hx : x.bytes = none) (hr : s.registered x.addr x.len = true) :
    let u := (hostPieces x.addr x.len).foldl (fun (v : State) y => v.readArray y.1 y.2) s
    s.hostAct x = { u with hostOut := u.hostOut ++ [.nak x.port] } := by
  rw [State.hostAct, if_pos h, if_pos (by simp [hx, hr])]
  rfl

theorem State.hostAct_write {bs : List Byte} (h : ¬s.hostRefused x = true) (hx : x.bytes = some bs) :
    let u := ((s.softAccesses (hostPieces x.addr x.len)).writePieces (2 * x.port) (hostPieces x.addr x.len) bs).settleBlanks
    let v := (u.wridxIn x.addr x.len).foldl (fun (v : State) q => (v.readQueue q).wake) u
    s.hostAct x = { v with debugQ := v.debugQ ++ v.requestsIn x.addr x.len } := by
  rw [State.hostAct, if_neg h, hx]
  rfl

theorem State.hostAct_read (h : ¬s.hostRefused x = true) (hx : x.bytes = none) :
    let r := s.softReads (hostPieces x.addr x.len)
    s.hostAct x = { r.2 with hostOut := r.2.hostOut ++ [.rdmaData x.port r.1] } := by
  rw [State.hostAct, if_neg h, hx]
  rfl

/-- What an instruction of the host does with its request: as O59 states it. -/
theorem hostRdma_does {i : Instr} (run : exec i s = .next (if s.hostPorts ≤ x.port || queuePairs ≤ x.qp then s else s.hostStep x)) :
    let here := x.port < s.hostPorts ∧ x.qp < 1024
    let waits := (∃ y ∈ s.hostHeld, y.port = x.port ∧ y.qp = x.qp) ∨ s.hostWaits x = true
    (¬here → exec i s = .next s) ∧ (here → waits → exec i s = .next { s with hostHeld := s.hostHeld ++ [x] }) ∧
    (here → ¬waits → exec i s = .next (s.hostAct x)) := by
  have away : (s.hostPorts ≤ x.port || queuePairs ≤ x.qp) = true ↔ ¬(x.port < s.hostPorts ∧ x.qp < 1024) := by
    rw [Bool.or_eq_true, decide_eq_true_eq, decide_eq_true_eq, show queuePairs = 1024 from rfl]
    omega
  have free : s.pairFree x ↔ ¬∃ y ∈ s.hostHeld, y.port = x.port ∧ y.qp = x.qp := by
    simp only [State.pairFree, not_exists, not_and]
    exact forall₂_congr fun _ _ => imp_iff_not_or.symm
  refine ⟨fun h => ?_, fun h w => ?_, fun h w => ?_⟩
  · rw [run, if_pos (away.2 h)]
  · rw [run, if_neg (mt away.1 (not_not_intro h)), State.hostStep_held (w.imp_left fun e => mt free.1 (not_not_intro e))]
  · obtain ⟨none, goes⟩ := not_or.1 w
    rw [run, if_neg (mt away.1 (not_not_intro h)), State.hostStep_acts (free.2 none) (Bool.eq_false_iff.2 goes)]

/-! ## Debug requests (R366) -/

theorem State.freeCode_eq (s : State) : ∃ code : Code, code.toNat ≤ 20 ∧ s.freeCode = (code, s.freeCode.2) := by
  refine ⟨_, ?_, rfl⟩
  show (BitVec.ofNat 8 (_ % 21)).toNat ≤ 20
  rw [BitVec.toNat_ofNat]
  omega

variable {n : Nat}

theorem exec_debug_untaken (h : s.dbgTurn n = false) :
    exec (.debugDump n) s = .next s ∧ exec (.debugResume n) s = .next s ∧ exec (.debugTerminate n) s = .next s := by
  refine ⟨?_, ?_, ?_⟩
  · rw [exec_debugDump, execDebugDump, if_pos (by simp [h])]
  · rw [exec_debugResume, execDebugResume, if_pos (by simp [h])]
  · rw [exec_debugTerminate, execDebugTerminate, if_pos (by simp [h])]

variable (turn : s.dbgTurn n = true)
include turn

theorem exec_debugResume_halted {g : Group} (op : natBits (s.dbgWord n 0) 7 0 = 2)
    (find : (s.core (natBits (s.dbgWord n 7) 11 0)).groups.find (natBits (s.dbgWord n 7) 17 12) = some g)
    (halted : g.halted = true) (ctx : g.ctx = s.dbgCtx n) :
    exec (.debugResume n) s = .next ((s.modGroup (natBits (s.dbgWord n 7) 11 0) (natBits (s.dbgWord n 7) 17 12)
      fun g => { g with halted := false }).dbgDone n 0) := by
  rw [exec_debugResume, execDebugResume, if_neg (by simp [turn, op])]
  dsimp only
  rw [find]
  dsimp only
  rw [if_pos (by simp [halted, ctx])]

theorem exec_debugResume_none (op : natBits (s.dbgWord n 0) 7 0 = 2)
    (h : ∀ g, (s.core (natBits (s.dbgWord n 7) 11 0)).groups.find (natBits (s.dbgWord n 7) 17 12) = some g →
      g.halted = false ∨ g.ctx ≠ s.dbgCtx n) :
    ∃ code : Code, code.toNat ≤ 20 ∧ exec (.debugResume n) s = .next (s.freeCode.2.dbgDone n code) := by
  obtain ⟨code, le, free⟩ := s.freeCode_eq
  refine ⟨code, le, ?_⟩
  rw [exec_debugResume, execDebugResume, if_neg (by simp [turn, op])]
  dsimp only
  split
  · rw [free]
  · next g find =>
    have running : ¬(g.halted && g.ctx == s.dbgCtx n) = true := by
      obtain off | other := h g find
      · simp [off]
      · simp [other]
    rw [if_neg running, free]

theorem exec_debugTerminate_all (op : natBits (s.dbgWord n 0) 7 0 = 3) : ∃ code : Code, code.toNat ≤ 20 ∧
    exec (.debugTerminate n) s = .next ((s.freeCode.2.terminateContext (s.dbgCtx n) code).dbgDone n 0) := by
  obtain ⟨code, le, free⟩ := s.freeCode_eq
  refine ⟨code, le, ?_⟩
  rw [exec_debugTerminate, execDebugTerminate, if_neg (by simp [turn, op]), free]
  rfl

theorem exec_debugDump_illegal (h1 : natBits (s.dbgWord n 0) 7 0 ≠ 1) (h2 : natBits (s.dbgWord n 0) 7 0 ≠ 2)
    (h3 : natBits (s.dbgWord n 0) 7 0 ≠ 3) : exec (.debugDump n) s = .next (s.dbgDone n cILLEGAL) := by
  rw [exec_debugDump, execDebugDump]
  dsimp only
  rw [if_neg (by simp [turn, h2, h3]), if_pos (by simp [h1])]

variable (op : natBits (s.dbgWord n 0) 7 0 = 1)
include op

/-- A dump in its turn, by the context that it names. -/
theorem exec_debugDump_one : exec (.debugDump n) s = .next (match s.context (s.dbgCtx n) with
    | none => s.freeCode.2.dbgDone n s.freeCode.1
    | some x =>
      if (x.preempted && !x.out) || s.dumpHeld n (s.dbgCtx n) then s
      else match s.dumpBytes n (s.dbgCtx n) with
        | .error c => s.dbgDone n c
        | .ok (ps, bs) => (s.writePieces s.rootDie ps bs).dbgDone n 0) := by
  rw [exec_debugDump, execDebugDump]
  dsimp only
  rw [if_neg (by simp [turn, op]), if_neg (by simp [op])] <;> rfl

theorem exec_debugDump_none (h : s.context (s.dbgCtx n) = none) :
    ∃ code : Code, code.toNat ≤ 20 ∧ exec (.debugDump n) s = .next (s.freeCode.2.dbgDone n code) := by
  obtain ⟨code, le, free⟩ := s.freeCode_eq
  refine ⟨code, le, ?_⟩
  rw [exec_debugDump_one turn op, h, free]

variable {x : Context} (find : s.context (s.dbgCtx n) = some x)
include find

theorem exec_debugDump_waits (h : (x.preempted = true ∧ x.out = false) ∨ s.dumpHeld n (s.dbgCtx n) = true) :
    exec (.debugDump n) s = .next s := by
  rw [exec_debugDump_one turn op, find]
  dsimp only
  rw [if_pos (by simpa using h)]

theorem exec_debugDump_done (hx : x.preempted = false ∨ x.out = true) (hd : s.dumpHeld n (s.dbgCtx n) = false) :
    (∀ code, s.dumpBytes n (s.dbgCtx n) = .error code → exec (.debugDump n) s = .next (s.dbgDone n code)) ∧
    (∀ ps bs, s.dumpBytes n (s.dbgCtx n) = .ok (ps, bs) → exec (.debugDump n) s =
      .next ((s.writePieces s.rootDie ps bs).dbgDone n 0)) := by
  have goes : ¬((x.preempted && !x.out) || s.dumpHeld n (s.dbgCtx n)) = true := by
    obtain hx | hx := hx <;> simp [hx, hd]
  refine ⟨fun code h => ?_, fun ps bs h => ?_⟩
  all_goals
    rw [exec_debugDump_one turn op, find]
    dsimp only
    rw [if_neg goes, h]

end

/-- Settles O59: a host request by whether it is refused, waits or is performed, and a debug request by its operation and what it finds. -/
theorem hostAndDebug : Obligations.HostAndDebug := by
  refine ⟨fun s => rfl, fun s port qp addr len bs => ⟨hostRdma_does (x := ⟨port, qp, addr, bs.length, some bs⟩) rfl,
    hostRdma_does (x := ⟨port, qp, addr, len, none⟩) rfl⟩, fun s x => ?host, fun s a k ps => ⟨rfl, rfl⟩,
    fun s a bs => ⟨fun h => ?apart, fun h => ?sums⟩, fun s port => ⟨fun h => ?unsupported, fun h => ?noPort⟩,
    fun addr len => ⟨cutRange_sum ?fits, fun _ => mem_cutRange⟩, fun s n turn => ⟨fun g op => exec_debugResume_halted turn op,
      exec_debugResume_none turn, exec_debugTerminate_all turn, exec_debugDump_illegal turn, exec_debugDump_none turn,
      fun x op => exec_debugDump_waits turn op, fun x op => exec_debugDump_done turn op⟩, fun s n => exec_debug_untaken⟩
  case host =>
    refine ⟨State.hostRefused_iff, ?_, fun h => ?_, fun h => ?_, fun h bs => ?_, fun h => ?_⟩
    · rw [State.hostWaits_iff, State.hostRefused_iff]
    · exact State.hostAct_refused (State.hostRefused_iff.2 h)
    · exact State.hostAct_unreadable (State.hostRefused_iff.2 h)
    · exact State.hostAct_write (mt State.hostRefused_iff.1 h)
    · exact State.hostAct_read (mt State.hostRefused_iff.1 h)
  case apart => rw [State.softRead, if_neg (by simp [h])]
  case sums => rw [State.softRead, if_pos h]
  case unsupported => rw [exec_hostUnsupportedOperation, execHostUnsupportedOperation, if_neg (Nat.not_le.2 h)]
  case noPort => rw [exec_hostUnsupportedOperation, execHostUnsupportedOperation, if_pos h]
  case fits => omega

end Sys2Proof.Machine

/-! PROOFS of the statements of 19_fabric_memory_devices.md: die-link packets at their home and their replies (R195, R196, R299 to R302). -/

namespace Sys2Proof.Machine

section
variable {s u v : State} {t : StreamId} {no : Nat} {p : Pkt} {data : List (BitVec 128)} {q : DlReq}

/-! ## What must not be performed twice (R302) -/

theorem State.performOnce_recorded (act : State → State × List (BitVec 128)) {x : List (BitVec 128)} (h : s.recorded t p.rid = some x) :
    s.performOnce t no p act = s.sendBack t x := by rw [State.performOnce, h]

theorem State.performOnce_first (act : State → State × List (BitVec 128)) (h : s.recorded t p.rid = none) :
    s.performOnce t no p act = (((act s).1.modStream t fun y => { y with
      window := if y.flits ≤ no + 64 then y.window ++ [(no, p.rid, (act s).2)] else y.window }).sendBack t (act s).2) := by
  rw [State.performOnce, h]

/-- Two ways of performing a request that agree at the state leave the same, whether it is recorded or not. -/
theorem State.performOnce_congr {act act' : State → State × List (BitVec 128)} (h : act s = act' s) :
    s.performOnce t no p act = s.performOnce t no p act' := by rw [State.performOnce, State.performOnce, h]

/-! ## Requests at their home (R300) -/

theorem exec_dieLinkRead_served (h : s.takePkt t (· == 0x01) = some (no, p, data, u)) (hf : u.pktFails p [] = false) :
    exec (.dieLinkRead t) s = .next ((u.serveRead p).1.sendBack t (replySlots p 0x02 0 (u.serveRead p).2)) := by
  rw [exec_dieLinkRead, execDieLinkRead, h]
  dsimp only
  rw [if_neg (by simp [hf])]

theorem exec_dieLinkRead_fails (h : s.takePkt t (· == 0x01) = some (no, p, data, u)) (hf : u.pktFails p [] = true) :
    exec (.dieLinkRead t) s = .next (u.sendBack t (replySlots p 0x02 cTHERM (noSectors p))) := by
  rw [exec_dieLinkRead, execDieLinkRead, h]
  dsimp only
  rw [if_pos hf]

section
variable (h : (s.startHeld t).takePkt t (· == 0x03) = some (no, p, data, u))
include h

theorem exec_dieLinkWrite_once : exec (.dieLinkWrite t) s = .next (u.performOnce t no p fun v => match v.pktFault t p with
    | some code => (v.pktRefused p data code, replySlots p 0x04 code [])
    | none => ((runsOf (data.headD 0) 0 (slotBytes (data.drop 1))).foldl (fun v x =>
        v.homeStoreIn (p.addr + x.1) x.2 p.policy (v.fullFor t p.rid)) v, replySlots p 0x04 0 [])) := by
  rw [exec_dieLinkWrite, execDieLinkWrite, h] <;> rfl

theorem exec_dieLinkWrite_again {x : List (BitVec 128)} (hx : u.recorded t p.rid = some x) :
    exec (.dieLinkWrite t) s = .next (u.sendBack t x) := by
  rw [exec_dieLinkWrite_once h, State.performOnce_recorded _ hx]

theorem exec_dieLinkWrite_refused {c : Code} (hc : u.pktFault t p = some c) : exec (.dieLinkWrite t) s =
    .next (u.performOnce t no p fun _ => (u.pktRefused p data c, replySlots p 0x04 c [])) := by
  rw [exec_dieLinkWrite_once h]
  exact congrArg _ (State.performOnce_congr (by rw [hc]))

theorem exec_dieLinkWrite_stores (hc : u.pktFault t p = none) : exec (.dieLinkWrite t) s = .next (u.performOnce t no p fun v =>
    ((runsOf (data.headD 0) 0 (slotBytes (data.drop 1))).foldl (fun v x =>
      v.homeStoreIn (p.addr + x.1) x.2 p.policy (v.fullFor t p.rid)) v, replySlots p 0x04 0 [])) := by
  rw [exec_dieLinkWrite_once h]
  exact congrArg _ (State.performOnce_congr (by rw [hc]))

end

section
variable (h : (s.startHeld t).takePkt t (· == 0x05) = some (no, p, data, u))
include h

theorem exec_dieLinkAtomic_once : exec (.dieLinkAtomic t) s = .next (u.performOnce t no p fun v =>
    let o := p.atomOp data
    if v.pktFails p data then (v, replySlots p 0x06 cTHERM [0]) else match v.pktFault t p with
    | some code => (v.pktRefused p data code, replySlots p 0x06 code [0])
    | none =>
      let r := v.homeAtomic p.addr o (v.blockFor t p o.bytes) p.policy
      (r.2, replySlots p 0x06 0 [BitVec.ofNat 64 (if o.cas && r.1 == o.compare then 1 else 0) ++ r.1])) := by
  rw [exec_dieLinkAtomic, execDieLinkAtomic, h] <;> rfl

theorem exec_dieLinkAtomic_again {x : List (BitVec 128)} (hx : u.recorded t p.rid = some x) :
    exec (.dieLinkAtomic t) s = .next (u.sendBack t x) := by
  rw [exec_dieLinkAtomic_once h, State.performOnce_recorded _ hx]

theorem exec_dieLinkAtomic_fails (hf : u.pktFails p data = true) : exec (.dieLinkAtomic t) s =
    .next (u.performOnce t no p fun _ => (u, replySlots p 0x06 cTHERM [0])) := by
  rw [exec_dieLinkAtomic_once h]
  exact congrArg _ (State.performOnce_congr (if_pos hf))

theorem exec_dieLinkAtomic_refused (hf : u.pktFails p data = false) {c : Code} (hc : u.pktFault t p = some c) :
    exec (.dieLinkAtomic t) s = .next (u.performOnce t no p fun _ => (u.pktRefused p data c, replySlots p 0x06 c [0])) := by
  rw [exec_dieLinkAtomic_once h]
  refine congrArg _ (State.performOnce_congr ?_)
  dsimp only
  rw [if_neg (by simp [hf]), hc]

theorem exec_dieLinkAtomic_performs (hf : u.pktFails p data = false) (hc : u.pktFault t p = none) :
    let r := u.homeAtomic p.addr (p.atomOp data) (u.blockFor t p (p.atomOp data).bytes) p.policy
    exec (.dieLinkAtomic t) s = .next (u.performOnce t no p fun _ => (r.2, replySlots p 0x06 0
      [BitVec.ofNat 64 (if (p.atomOp data).cas = true ∧ r.1 = (p.atomOp data).compare then 1 else 0) ++ r.1])) := by
  intro r
  have hit : ((p.atomOp data).cas && r.1 == (p.atomOp data).compare) = true ↔
      (p.atomOp data).cas = true ∧ r.1 = (p.atomOp data).compare := by rw [Bool.and_eq_true, beq_iff_eq]
  rw [exec_dieLinkAtomic_once h]
  refine congrArg _ (State.performOnce_congr ?_)
  dsimp only
  rw [if_neg (by simp [hf]), hc, ← if_congr hit rfl rfl]

end

theorem exec_dieLinkTagRead_fails (h : s.takePkt t (· == 0x0C) = some (no, p, data, u)) (hf : u.pktFails p data = true) :
    exec (.dieLinkTagRead t) s = .next (u.sendBack t (replySlots p 0x0D cTHERM [0])) := by
  rw [exec_dieLinkTagRead, execDieLinkTagRead, h]
  dsimp only
  rw [if_pos hf]

theorem exec_dieLinkTagRead_served (h : s.takePkt t (· == 0x0C) = some (no, p, data, u)) (hf : u.pktFails p data = false) :
    let v := u.homeLoad p.addr 1 p.policy
    exec (.dieLinkTagRead t) s = .next (v.sendBack t (replySlots p 0x0D 0 [(v.metaAt p.addr).zeroExtend 128])) := by
  rw [exec_dieLinkTagRead, execDieLinkTagRead, h]
  dsimp only
  rw [if_neg (by simp [hf])]

/-! ## Replies at the requesting die (R301) -/

/-- A packet that answers no outstanding request is discarded. -/
theorem State.ackStore_unasked {op : Nat} (h : s.takePkt t (· == op) = some (no, p, data, u)) (hq : u.takeReq t p.rid = none) :
    s.ackStore t op = u := by
  rw [State.ackStore, h]
  dsimp only
  rw [hq]

theorem exec_dieLinkReply_unasked (hq : u.takeReq t p.rid = none) :
    let gone := fun (i : Instr) (op : Nat) => s.takePkt t (· == op) = some (no, p, data, u) → exec i s = .next u
    gone (.dieLinkReadReply t) 0x02 ∧ gone (.dieLinkWriteAck t) 0x04 ∧ gone (.dieLinkAtomicReply t) 0x06 ∧
    gone (.dieLinkInvalidationAck t) 0x08 ∧ gone (.dieLinkWritebackAck t) 0x0B ∧ gone (.dieLinkTagReadReply t) 0x0D ∧
    gone (.dieLinkTagWriteAck t) 0x0F := by
  refine ⟨fun h => ?_, fun h => ?_, fun h => ?_, fun h => ?_, fun h => ?_, fun h => ?_, fun h => ?_⟩
  · rw [exec_dieLinkReadReply, execDieLinkReadReply, h]
    dsimp only
    rw [hq]
  · exact congrArg _ (State.ackStore_unasked h hq)
  · exact congrArg _ (State.ackStore_unasked h hq)
  · rw [exec_dieLinkInvalidationAck, execDieLinkInvalidationAck, h]
    dsimp only
    rw [hq]
  · exact congrArg _ (State.ackStore_unasked h hq)
  · rw [exec_dieLinkTagReadReply, execDieLinkTagReadReply, h]
    dsimp only
    rw [hq]
  · exact congrArg _ (State.ackStore_unasked h hq)

variable (hq : u.takeReq t p.rid = some (q, v))
include hq

theorem State.ackStore_store {op c n id : Nat} {r : StoreReq} (h : s.takePkt t (· == op) = some (no, p, data, u))
    (hf : q.for_ = .store c n id) (hr : v.storeOf c n id = some r) : s.ackStore t op =
      (if p.code = 0 then v.storeDone c n r (field (data.headD 0) 0 64) else v.storeFail c n r p.code).collsGo := by
  rw [State.ackStore, h]
  dsimp only
  rw [hq]
  dsimp only
  rw [hf]
  dsimp only
  rw [hr]
  by_cases hc : p.code = 0 <;> simp [hc]

theorem State.ackStore_ingress {op id off pa n : Nat} (h : s.takePkt t (· == op) = some (no, p, data, u))
    (hf : q.for_ = .ingress id off pa n) : s.ackStore t op =
      (v.ingressPart (StreamId.dst t) id off p.code (bytesOf 9 (data.headD 0).toNat)).ingressDone (StreamId.dst t) id := by
  rw [State.ackStore, h]
  dsimp only
  rw [hq]
  dsimp only
  rw [hf]

theorem exec_dieLinkInvalidationAck_answers {id : Nat} (h : s.takePkt t (· == 0x08) = some (no, p, data, u)) (hf : q.for_ = .inval id) :
    exec (.dieLinkInvalidationAck t) s = .next (v.invalAnswered id (StreamId.src t)) := by
  rw [exec_dieLinkInvalidationAck, execDieLinkInvalidationAck, h]
  dsimp only
  rw [hq]
  dsimp only
  rw [hf]

theorem exec_dieLinkTagReadReply_answers {c n id : Nat} {r : LoadReq} (h : s.takePkt t (· == 0x0D) = some (no, p, data, u))
    (hf : q.for_ = .load c n id) (hr : v.loadOf c n id = some r) : exec (.dieLinkTagReadReply t) s = .next
      (if p.code = 0 then v.loadDone c n r ((data.headD 0).toNat % 256) else v.loadFail c n r p.code) := by
  rw [exec_dieLinkTagReadReply, execDieLinkTagReadReply, h]
  dsimp only
  rw [hq]
  dsimp only
  rw [hf]
  dsimp only
  rw [hr]
  by_cases hc : p.code = 0 <;> simp [hc]

variable (h : s.takePkt t (· == 0x02) = some (no, p, data, u))
include h

/-- A read reply to an outstanding request, by what the request was for. -/
theorem exec_dieLinkReadReply_asked : exec (.dieLinkReadReply t) s = .next (match q.for_ with
    | .load c slot id => match v.loadOf c slot id with
      | some r => v.loadReply c slot r p data q.stale
      | none => v
    | .fill c l1 rdc po at_ =>
      if p.code != 0 || q.stale then v
      else (v.serveFarther c (p.addr / 128)).fillNear c (replyLine p data (v.die (dieOf c)).cycle) l1 rdc po at_
    | .ingress id off pa n => v.ingressRead (StreamId.dst t) id off pa n p data
    | _ => v) := by
  rw [exec_dieLinkReadReply, execDieLinkReadReply, h]
  dsimp only
  rw [hq] <;> rfl

theorem exec_dieLinkReadReply_load {c n id : Nat} {r : LoadReq} (hf : q.for_ = .load c n id) (hr : v.loadOf c n id = some r) :
    exec (.dieLinkReadReply t) s = .next (v.loadReply c n r p data q.stale) := by
  rw [exec_dieLinkReadReply_asked hq h, hf]
  dsimp only
  rw [hr]

theorem exec_dieLinkReadReply_fill {c : Nat} {l1 rdc : Bool} {po : Policy} {b : Nat} (hf : q.for_ = .fill c l1 rdc po b) :
    (p.code ≠ 0 ∨ q.stale = true → exec (.dieLinkReadReply t) s = .next v) ∧
    (p.code = 0 → q.stale = false → exec (.dieLinkReadReply t) s = .next ((v.serveFarther c (p.addr / 128)).fillNear c
      (replyLine p data (v.die (dieOf c)).cycle) l1 rdc po b)) := by
  refine ⟨fun hc => ?_, fun hc hs => ?_⟩
  · rw [exec_dieLinkReadReply_asked hq h, hf]
    dsimp only
    rw [if_pos (by simpa using hc)]
  · rw [exec_dieLinkReadReply_asked hq h, hf]
    dsimp only
    rw [if_neg (by simp [hc, hs])]

theorem exec_dieLinkReadReply_ingress {id off pa n : Nat} (hf : q.for_ = .ingress id off pa n) :
    exec (.dieLinkReadReply t) s = .next (v.ingressRead (StreamId.dst t) id off pa n p data) := by
  rw [exec_dieLinkReadReply_asked hq h, hf]

end

/-- No packet of a kind is to be acted on: nothing happens. -/
theorem exec_dieLink_quiet (s : State) (t : StreamId) :
    let quiet := fun (i : Instr) (op : Nat → Bool) => s.takePkt t op = none → exec i s = .next s
    quiet (.dieLinkRead t) (· == 0x01) ∧ quiet (.dieLinkReadReply t) (· == 0x02) ∧ quiet (.dieLinkWriteAck t) (· == 0x04) ∧
    quiet (.dieLinkAtomicReply t) (· == 0x06) ∧ quiet (.dieLinkInvalidation t) (· == 0x07) ∧
    quiet (.dieLinkInvalidationAck t) (· == 0x08) ∧ quiet (.dieLinkControl t) (· == 0x09) ∧
    quiet (.dieLinkWriteback t) (· == 0x0A) ∧ quiet (.dieLinkWritebackAck t) (· == 0x0B) ∧
    quiet (.dieLinkTagRead t) (· == 0x0C) ∧ quiet (.dieLinkTagReadReply t) (· == 0x0D) ∧
    quiet (.dieLinkTagWriteAck t) (· == 0x0F) := by
  have ack : ∀ {op : Nat}, s.takePkt t (· == op) = none → s.ackStore t op = s := fun h => by rw [State.ackStore, h]
  refine ⟨fun h => ?_, fun h => ?_, fun h => congrArg _ (ack h), fun h => congrArg _ (ack h), fun h => ?_, fun h => ?_, fun h => ?_,
    fun h => ?_, fun h => congrArg _ (ack h), fun h => ?_, fun h => ?_, fun h => congrArg _ (ack h)⟩
  · rw [exec_dieLinkRead, execDieLinkRead, h]
  · rw [exec_dieLinkReadReply, execDieLinkReadReply, h]
  · rw [exec_dieLinkInvalidation, execDieLinkInvalidation, h]
  · rw [exec_dieLinkInvalidationAck, execDieLinkInvalidationAck, h]
  · rw [exec_dieLinkControl, execDieLinkControl, h]
  · rw [exec_dieLinkWriteback, execDieLinkWriteback, h]
  · rw [exec_dieLinkTagRead, execDieLinkTagRead, h]
  · rw [exec_dieLinkTagReadReply, execDieLinkTagReadReply, h]

/-- Settles O52: each packet by the request or reply that is taken, and what it is performed once for or answers. -/
theorem linkPackets : Obligations.LinkPackets := by
  refine ⟨fun s t no p act => ⟨fun x => State.performOnce_recorded act, State.performOnce_first act⟩, exec_dieLink_quiet,
    fun s u t no p data => ⟨exec_dieLinkRead_served, exec_dieLinkRead_fails, fun h x => exec_dieLinkWrite_again h,
      fun h _ => ⟨fun c => exec_dieLinkWrite_refused h, exec_dieLinkWrite_stores h⟩, fun h x => exec_dieLinkAtomic_again h,
      fun h _ => ⟨exec_dieLinkAtomic_fails h, fun hf c => exec_dieLinkAtomic_refused h hf, exec_dieLinkAtomic_performs h⟩,
      fun h => ?writeback, exec_dieLinkTagRead_fails, exec_dieLinkTagRead_served, fun h => ?tagWrite, fun h => ?invalidation,
      fun h => ?control, fun h => ?unknown, fun q v hq => ?asked, exec_dieLinkReply_unasked⟩⟩
  case writeback => rw [exec_dieLinkWriteback, execDieLinkWriteback, h]
  case tagWrite => rw [exec_dieLinkTagWrite, execDieLinkTagWrite, h]
  case invalidation => rw [exec_dieLinkInvalidation, execDieLinkInvalidation, h]
  case control => rw [exec_dieLinkControl, execDieLinkControl, h]
  case unknown => rw [exec_dieLinkUnknownOp, execDieLinkUnknownOp, h]
  case asked =>
    refine ⟨fun id hf h => exec_dieLinkInvalidationAck_answers hq h hf, fun c n id r hf hr =>
      ⟨fun h => exec_dieLinkReadReply_load hq h hf hr, fun h => exec_dieLinkTagReadReply_answers hq h hf hr⟩,
      fun c l1 rdc po b hf h => exec_dieLinkReadReply_fill hq h hf, fun c n id r hf hr => ?_, fun id off pa n hf => ?_⟩
    · have ends : ∀ {op : Nat}, s.takePkt t (· == op) = some (no, p, data, u) → _ := fun h => State.ackStore_store hq h hf hr
      exact ⟨fun h => congrArg _ (ends h), fun h => congrArg _ (ends h), fun h => congrArg _ (ends h), fun h => congrArg _ (ends h)⟩
    · have ends : ∀ {op : Nat}, s.takePkt t (· == op) = some (no, p, data, u) → _ := fun h => State.ackStore_ingress hq h hf
      exact ⟨fun h => exec_dieLinkReadReply_ingress hq h hf, fun h => congrArg _ (ends h), fun h => congrArg _ (ends h)⟩

end Sys2Proof.Machine

/-! PROOFS of the statements of 19_fabric_memory_devices.md: landing windows and tracing views (R315, R317, R334 to R338, R344, R345). -/

namespace Sys2Proof.Machine

section
variable {u v : State} {e : Env} {n : Nat} {f : EF} {k : State → State}

/-! ## What follows the reads of records and the walks of pages -/

theorem State.afterRecords_late {rs : List (W64 × Nat)} {x : W64 × Nat}
    (h : rs.find? (fun x => u.reachWaits e.core e.slot e.g.ctx x.1 x.2) = some x) :
    u.afterRecords e rs k = u.waitAt e e.lanes (.reach x.1 x.2) := by rw [State.afterRecords, h]

theorem State.afterRecords_read {rs : List (W64 × Nat)}
    (h : rs.find? (fun x => u.reachWaits e.core e.slot e.g.ctx x.1 x.2) = none) :
    u.afterRecords e rs k = k (rs.foldl (fun t x => t.recordRead e.core e.slot e.g.ctx x.1 x.2) u) := by rw [State.afterRecords, h]

/-- One record that cannot be reached yet is the one that the set waits for. -/
theorem State.afterRecords_single_late {a : W64} {m : Nat}
    (h : [(a, m)].find? (fun x => u.reachWaits e.core e.slot e.g.ctx x.1 x.2) ≠ none) :
    u.afterRecords e [(a, m)] k = u.waitAt e e.lanes (.reach a m) := by
  obtain ⟨x, hx⟩ := Option.ne_none_iff_exists'.1 h
  obtain rfl := List.mem_singleton.1 (List.mem_of_find?_eq_some hx)
  exact State.afterRecords_late hx

theorem State.afterWalks_slow {va a : W64} {m : Nat}
    (h : (pageStarts (m / 65536 + 2) va m).find? (fun a => u.walkWaits e.core e.g.ctx a) = some a) :
    u.afterWalks e va m k = u.waitAt e e.lanes (.reach a 0) := by rw [State.afterWalks, h]

theorem State.afterWalks_walked {va : W64} {m : Nat}
    (h : (pageStarts (m / 65536 + 2) va m).find? (fun a => u.walkWaits e.core e.g.ctx a) = none) :
    u.afterWalks e va m k = k ((pageStarts (m / 65536 + 2) va m).foldl (fun t a => (t.coreXlate e.core e.g.ctx a).2) u) := by
  rw [State.afterWalks, h]

/-! ## RRD3 (R334, R335) -/

/-- What an RRD3 does once its plan and the pages of its status bytes can be read. -/
def State.planned (e : Env) (n : Nat) (f : EF) (v : State) : State :=
  match firstOf [faultOf (v.readPlan e (e.addrA n f)),
      faultOf (v.coreRange e.core e.g.ctx { w := true } (e.slot == 63) (e.spair f) (e.src32 n f.d).toNat)], v.readPlan e (e.addrA n f) with
  | some (c, a), _ => v.nibFault e n c a
  | none, .error _ => v
  | none, .ok plan =>
    if planBad plan (e.src32 n f.b).toNat (e.src32 n f.d).toNat then v.nibFault e n cSHAPE
    else if (v.comm e.g.ctx (planComm plan)).gen != planGen plan then v.nibFault e n cGEN
    else if !v.meets e .joinRoom then v.waitAt e e.lanes .joinRoom
    else v.startRrd3 e n plan (e.src32 n f.b).toNat (e.src32 n f.d).toNat (e.spair f)

theorem exec_rrd3_aligned {s : State} {h : Hdr} (I : NibIssues s (.rrd3 h f) h n) (ha : ((s.env h).src64 n false f.a).toNat % 64 = 0) :
    exec (.rrd3 h f) s = .next ((s.beginIssue h).afterRecords (s.env h) ((s.beginIssue h).planParts (s.env h) ((s.env h).addrA n f))
      fun r => r.afterWalks (s.env h) ((s.env h).spair f) ((s.env h).src32 n f.d).toNat (State.planned (s.env h) n f)) := by
  rw [exec_rrd3, execRrd3, nibIssue_next I]
  dsimp only
  rw [if_neg (by simp [Env.addrA, ha])]
  rfl

section
variable {hd bd : List Byte} {ps : List (Nat × Nat)} (readHead : v.readRecord e.core e.slot e.g.ctx (e.addrA n f) 64 = .ok hd)
  (readBody : v.readRecord e.core e.slot e.g.ctx (e.addrA n f + 64) (32 * planRegions (wordsIn hd)) = .ok bd)
  (range : v.coreRange e.core e.g.ctx { w := true } (e.slot == 63) (e.spair f) (e.src32 n f.d).toNat = .ok ps)
include readHead readBody range

/-- A plan that is read, and status bytes that may be written. -/
theorem State.planned_read : State.planned e n f v =
    if planBad (wordsIn (hd ++ bd)) (e.src32 n f.b).toNat (e.src32 n f.d).toNat then v.nibFault e n cSHAPE
    else if (v.comm e.g.ctx (planComm (wordsIn (hd ++ bd)))).gen != planGen (wordsIn (hd ++ bd)) then v.nibFault e n cGEN
    else if !v.meets e .joinRoom then v.waitAt e e.lanes .joinRoom
    else v.startRrd3 e n (wordsIn (hd ++ bd)) (e.src32 n f.b).toNat (e.src32 n f.d).toNat (e.spair f) := by
  have plan : v.readPlan e (e.addrA n f) = .ok (wordsIn (hd ++ bd)) := by
    rw [State.readPlan, readHead]
    dsimp only
    rw [readBody]
  rw [State.planned, plan, range]
  rfl

theorem State.planned_bad (bad : planBad (wordsIn (hd ++ bd)) (e.src32 n f.b).toNat (e.src32 n f.d).toNat = true) :
    State.planned e n f v = v.raise e n { code := cSHAPE } := by
  rw [State.planned_read readHead readBody range, if_pos bad]
  rfl

variable (good : planBad (wordsIn (hd ++ bd)) (e.src32 n f.b).toNat (e.src32 n f.d).toNat = false)
include good

theorem State.planned_old (gen : (v.comm e.g.ctx (planComm (wordsIn (hd ++ bd)))).gen ≠ planGen (wordsIn (hd ++ bd))) :
    State.planned e n f v = v.raise e n { code := cGEN } := by
  rw [State.planned_read readHead readBody range, if_neg (by simp [good]), if_pos (by simp [gen])]
  rfl

variable (gen : (v.comm e.g.ctx (planComm (wordsIn (hd ++ bd)))).gen = planGen (wordsIn (hd ++ bd)))
include gen

theorem State.planned_full (full : 8 ≤ (v.die (dieOf e.core)).joinQ.length) :
    State.planned e n f v = v.waitAt e e.lanes .joinRoom := by
  rw [State.planned_read readHead readBody range, if_neg (by simp [good]), if_neg (by simp [gen]),
    if_pos (by simp [State.meets, State.condMet, full])]

theorem State.planned_starts (room : (v.die (dieOf e.core)).joinQ.length < 8) :
    State.planned e n f v = v.startRrd3 e n (wordsIn (hd ++ bd)) (e.src32 n f.b).toNat (e.src32 n f.d).toNat (e.spair f) := by
  rw [State.planned_read readHead readBody range, if_neg (by simp [good]), if_neg (by simp [gen]),
    if_neg (by simp [State.meets, State.condMet, room])]

end

section
variable (plan : List W32) (first m : Nat) (a : W64)

theorem State.startRrd3_none :
    v.startRrd3 e n plan first 0 a = v.modCore e.core fun x => { x with cmdCtr := (v.core e.core).cmdCtr + 1 } := rfl

variable {m} (some : m ≠ 0)
include some

theorem State.startRrd3_ctr : ((v.startRrd3 e n plan first m a).core e.core).cmdCtr = (v.core e.core).cmdCtr + 1 := by
  rw [State.startRrd3]
  dsimp only
  rw [if_neg some]
  simp only [State.core_modDie, State.modLane, State.modGroup, State.core_modCore, State.nextSeq]
  show ((v.modCore e.core fun k => { k with cmdCtr := (v.core e.core).cmdCtr + 1 }).core e.core).cmdCtr = _
  rw [State.core_modCore]

theorem State.startRrd3_joinQ : ((v.startRrd3 e n plan first m a).die (dieOf e.core)).joinQ = (v.die (dieOf e.core)).joinQ ++ [{
    core := e.core
    seq := (v.core e.core).cmdCtr + 1
    slot := e.slot
    lane := n
    ctx := e.g.ctx
    pc := e.pc
    plan := plan
    first := first
    count := m
    next := first
    status := a }] := by
  rw [State.startRrd3]
  dsimp only
  rw [if_neg some, State.die_modDie]
  rfl

end

/-! ## RWIN and RWCLOSE (R336, R338) -/

/-- What an RWIN does once its list of ranks can be read. -/
def State.opened (e : Env) (n : Nat) (f : EF) (r : State) : State :=
  match r.readRecord e.core e.slot e.g.ctx (e.spair f) (4 * modBits f.mod 17 14) with
  | .error (c, a) => r.nibFault e n c a
  | .ok bs =>
    if (e.team.bar f.bar.val).members == 0 then r.nibFault e n cBARRIER
    else match (if 64 ≤ r.openWindows then none
        else r.devicesOf e.g.ctx (modBits f.mod 13 8) ((e.srcAt n f.a 3).toNat :: (wordsIn bs).map BitVec.toNat)) with
      | none => r.nibFault e n cREMOTE
      | some [] => r
      | some (dev :: donors) =>
        if ((r.window e.g.ctx (modBits f.mod 7 0)).getD {}).isOpen then r.nibFault e n cPERM
        else if !r.meets e .ports then r.waitAt e e.lanes .ports
        else (distinct donors).foldl (fun t x => t.sendPlain e.g.ctx (dieOf e.core)
          { t.fesel e.g.ctx (modBits f.mod 13 8) 0x0B x with aux := BitVec.ofNat 32 (modBits f.mod 7 0 * 2 ^ 24 + dev.toNat) })
          (r.modWindow e.g.ctx (modBits f.mod 7 0) fun _ => {
            core := e.core
            launch := e.g.launch
            lin := e.team.lin
            bar := f.bar.val
            base := e.addrA n f
            len := 65536 * (e.srcAt n f.a 2).toNat
            lead := dev
            comm := modBits f.mod 13 8
            gen := (r.comm e.g.ctx (modBits f.mod 13 8)).gen
            isOpen := true })

theorem exec_rwin_aligned {s : State} {h : Hdr} (I : NibIssues s (.rwin h f) h n)
    (ha : ((s.env h).src64 n false f.a).toNat % 65536 = 0) (hp : ((s.env h).spair f).toNat % 4 = 0)
    (hu : ((s.env h).srcAt n f.a 2).toNat ≠ 0) (h0 : modBits f.mod 17 14 ≠ 0) (h8 : modBits f.mod 17 14 ≤ 8) :
    exec (.rwin h f) s = .next ((s.beginIssue h).afterRecords (s.env h) [((s.env h).spair f, 4 * modBits f.mod 17 14)]
      (State.opened (s.env h) n f)) := by
  rw [exec_rwin, execRwin, nibIssue_next I]
  dsimp only
  rw [if_neg (by simp [Env.addrA, ha]), if_neg (by simp [hp]), if_neg (by simp [hu, h0, h8])]
  rfl

section
variable {bs : List Byte} {dev : BitVec 20} {donors : List (BitVec 20)}
  (read : u.readRecord e.core e.slot e.g.ctx (e.spair f) (4 * modBits f.mod 17 14) = .ok bs)
  (members : (e.team.bar f.bar.val).members ≠ 0) (few : u.openWindows < 64)
  (devs : u.devicesOf e.g.ctx (modBits f.mod 13 8) ((e.srcAt n f.a 3).toNat :: (wordsIn bs).map BitVec.toNat) = some (dev :: donors))
include read members few devs

/-- A list of ranks that is read and names devices. -/
theorem State.opened_read : State.opened e n f u =
    if ((u.window e.g.ctx (modBits f.mod 7 0)).getD {}).isOpen then u.nibFault e n cPERM
    else if !u.meets e .ports then u.waitAt e e.lanes .ports
    else (distinct donors).foldl (fun t x => t.sendPlain e.g.ctx (dieOf e.core)
      { t.fesel e.g.ctx (modBits f.mod 13 8) 0x0B x with aux := BitVec.ofNat 32 (modBits f.mod 7 0 * 2 ^ 24 + dev.toNat) })
      (u.modWindow e.g.ctx (modBits f.mod 7 0) fun _ => {
        core := e.core
        launch := e.g.launch
        lin := e.team.lin
        bar := f.bar.val
        base := e.addrA n f
        len := 65536 * (e.srcAt n f.a 2).toNat
        lead := dev
        comm := modBits f.mod 13 8
        gen := (u.comm e.g.ctx (modBits f.mod 13 8)).gen
        isOpen := true }) := by
  rw [State.opened, read]
  dsimp only
  rw [if_neg (by simpa using members), if_neg (Nat.not_le.2 few), devs]

theorem State.opened_twice (is : ((u.window e.g.ctx (modBits f.mod 7 0)).getD {}).isOpen = true) :
    State.opened e n f u = u.raise e n { code := cPERM } := by
  rw [State.opened_read read members few devs, if_pos is]
  rfl

variable (isnt : ((u.window e.g.ctx (modBits f.mod 7 0)).getD {}).isOpen = false)
include isnt

theorem State.opened_cut (down : 8 ≤ (u.die (dieOf e.core)).portsDown.length) : State.opened e n f u = u.waitAt e e.lanes .ports := by
  rw [State.opened_read read members few devs, if_neg (Bool.eq_false_iff.1 isnt),
    if_pos (by simp [State.meets, State.condMet, down])]

theorem State.opened_grants (up : (u.die (dieOf e.core)).portsDown.length < 8) : State.opened e n f u =
    (distinct donors).foldl (fun t x => t.sendPlain e.g.ctx (dieOf e.core)
      { t.fesel e.g.ctx (modBits f.mod 13 8) 0x0B x with aux := BitVec.ofNat 32 (modBits f.mod 7 0 * 2 ^ 24 + dev.toNat) })
      (u.modWindow e.g.ctx (modBits f.mod 7 0) fun _ => {
        core := e.core
        launch := e.g.launch
        lin := e.team.lin
        bar := f.bar.val
        base := e.addrA n f
        len := 65536 * (e.srcAt n f.a 2).toNat
        lead := dev
        comm := modBits f.mod 13 8
        gen := (u.comm e.g.ctx (modBits f.mod 13 8)).gen
        isOpen := true }) := by
  rw [State.opened_read read members few devs, if_neg (Bool.eq_false_iff.1 isnt),
    if_neg (by simp [State.meets, State.condMet, up])]

end

section
variable {s : State} {h : Hdr} (I : NibIssues s (.rwclose h f) h n)
include I

theorem exec_rwclose_none (isnt : (((s.beginIssue h).window (s.env h).g.ctx (modBits f.mod 7 0)).getD {}).isOpen = false) :
    exec (.rwclose h f) s = .next ((s.beginIssue h).nibD (s.env h) f.d
      [(((s.beginIssue h).window (s.env h).g.ctx (modBits f.mod 7 0)).getD {}).discarded]) := by
  rw [exec_rwclose, execRwclose, nibIssue_next I]
  simp only [isnt, Bool.false_and, Bool.false_eq_true, if_false]

variable (is : (((s.beginIssue h).window (s.env h).g.ctx (modBits f.mod 7 0)).getD {}).isOpen = true)
include is

theorem exec_rwclose_lands :
    let v := (s.beginIssue h).modWindow (s.env h).g.ctx (modBits f.mod 7 0) fun w => { w with closing := true }
    v.meets (s.env h) (.landed (modBits f.mod 7 0)) = false →
      exec (.rwclose h f) s = .next (v.waitAt (s.env h) (s.env h).lanes (.landed (modBits f.mod 7 0))) := by
  intro v hv
  rw [exec_rwclose, execRwclose, nibIssue_next I]
  dsimp only
  rw [if_pos is, if_pos (by rw [hv, is]; rfl)]

theorem exec_rwclose_closes :
    let v := (s.beginIssue h).modWindow (s.env h).g.ctx (modBits f.mod 7 0) fun w => { w with closing := true }
    v.meets (s.env h) (.landed (modBits f.mod 7 0)) = true →
      exec (.rwclose h f) s = .next ((v.modWindow (s.env h).g.ctx (modBits f.mod 7 0) fun w =>
        { w with isOpen := false, byGen := false, closing := false }).nibD (s.env h) f.d
          [(((s.beginIssue h).window (s.env h).g.ctx (modBits f.mod 7 0)).getD {}).discarded]) := by
  intro v hv
  rw [exec_rwclose, execRwclose, nibIssue_next I]
  dsimp only
  rw [if_pos is, if_neg (by rw [hv, Bool.not_true, Bool.and_false]; exact Bool.false_ne_true), if_pos is]

end

/-! ## TVIEW and TVCLOSE (R344, R345) -/

/-- What a TVIEW does once its list of ranks and the pages of its pool can be read. -/
def State.viewed (e : Env) (n : Nat) (f : EF) (v : State) : State :=
  match firstOf [faultOf (v.coreRange e.core e.g.ctx { w := true } (e.slot == 63) (e.spair f) (65536 * (field (e.srcAt n f.a 3) 0 16).toNat)),
      faultOf (v.readRecord e.core e.slot e.g.ctx (e.src64 n false f.d) (4 * modBits f.mod 7 4))],
    v.readRecord e.core e.slot e.g.ctx (e.src64 n false f.d) (4 * modBits f.mod 7 4) with
  | some (c, a), _ => v.nibFault e n c a
  | none, .error _ => v
  | none, .ok bs => match v.devicesOf e.g.ctx (modBits f.mod 13 8) ((wordsIn bs).map BitVec.toNat) with
    | none => v.nibFault e n cREMOTE
    | some devs =>
      if (v.views.find (modBits f.mod 3 0)).isSome then v.nibFault e n cPERM
      else v.released e .p e.lanes fun t =>
        let t := t.acquire e.core .p
        { t with views := t.views.put (modBits f.mod 3 0) {
          die := dieOf e.core
          ctx := e.g.ctx
          base := e.addrA n f
          chunks := (e.srcAt n f.a 2).toNat
          pool := e.spair f
          slots := (field (e.srcAt n f.a 3) 0 16).toNat
          grants := devs
          comm := modBits f.mod 13 8
          leaves := t.viewLeaves e.g.ctx (e.addrA n f) (e.srcAt n f.a 2).toNat } }

theorem exec_tview_aligned {s : State} {h : Hdr} (I : NibIssues s (.tview h f) h n)
    (ha : ((s.env h).src64 n false f.a).toNat % 65536 = 0) (hp : ((s.env h).spair f).toNat % 65536 = 0)
    (hl : ((s.env h).src64 n false f.d).toNat % 4 = 0) (hc : ((s.env h).srcAt n f.a 2).toNat ≠ 0)
    (h0 : (field ((s.env h).srcAt n f.a 3) 0 16).toNat ≠ 0) (hz : field ((s.env h).srcAt n f.a 3) 16 16 = 0) (h8 : modBits f.mod 7 4 ≤ 8) :
    exec (.tview h f) s = .next ((s.beginIssue h).afterRecords (s.env h) [((s.env h).src64 n false f.d, 4 * modBits f.mod 7 4)]
      fun r => r.afterWalks (s.env h) ((s.env h).spair f) (65536 * (field ((s.env h).srcAt n f.a 3) 0 16).toNat)
        (State.viewed (s.env h) n f)) := by
  rw [exec_tview, execTview, nibIssue_next I]
  dsimp only
  rw [if_neg (by simp [Env.addrA, ha]), if_neg (by simp [hp]), if_neg (by simp [hl]), if_neg (by simp [hc, h0, hz, h8])]
  rfl

section
variable {ps : List (Nat × Nat)} {bs : List Byte} {devs : List (BitVec 20)}
  (range : v.coreRange e.core e.g.ctx { w := true } (e.slot == 63) (e.spair f) (65536 * (field (e.srcAt n f.a 3) 0 16).toNat) = .ok ps)
  (read : v.readRecord e.core e.slot e.g.ctx (e.src64 n false f.d) (4 * modBits f.mod 7 4) = .ok bs)
  (devices : v.devicesOf e.g.ctx (modBits f.mod 13 8) ((wordsIn bs).map BitVec.toNat) = some devs)
include range read devices

/-- A list of ranks that is read and names devices, and a pool that may be written. -/
theorem State.viewed_read : State.viewed e n f v =
    if (v.views.find (modBits f.mod 3 0)).isSome then v.nibFault e n cPERM
    else v.released e .p e.lanes fun t =>
      let t := t.acquire e.core .p
      { t with views := t.views.put (modBits f.mod 3 0) {
        die := dieOf e.core
        ctx := e.g.ctx
        base := e.addrA n f
        chunks := (e.srcAt n f.a 2).toNat
        pool := e.spair f
        slots := (field (e.srcAt n f.a 3) 0 16).toNat
        grants := devs
        comm := modBits f.mod 13 8
        leaves := t.viewLeaves e.g.ctx (e.addrA n f) (e.srcAt n f.a 2).toNat } } := by
  have sound : firstOf [faultOf (.ok ps : Except (Code × W64) (List (Nat × Nat))), faultOf (.ok bs : Except (Code × W64) (List Byte))] =
    none := rfl
  rw [State.viewed, range, read, sound]
  dsimp only
  rw [devices]

theorem State.viewed_taken (is : (v.views.find (modBits f.mod 3 0)).isSome = true) :
    State.viewed e n f v = v.raise e n { code := cPERM } := by
  rw [State.viewed_read range read devices, if_pos is]
  rfl

variable (isnt : v.views.find (modBits f.mod 3 0) = none)
include isnt

theorem State.viewed_waits (hl : e.lanes ≠ []) (hd : v.drained e.core e.slot .p (v.releaseMark e .p e.lanes) = false) :
    State.viewed e n f v = v.waitAt e e.lanes (.drain .p (v.releaseMark e .p e.lanes) false) := by
  rw [State.viewed_read range read devices, if_neg (by simp [isnt]), State.released_waits hl (by simp [hd])]

theorem State.viewed_opens (hd : v.drained e.core e.slot .p (v.releaseMark e .p e.lanes) = true) :
    let t := v.acquire e.core .p
    State.viewed e n f v = { t with views := t.views.put (modBits f.mod 3 0) {
      die := dieOf e.core
      ctx := e.g.ctx
      base := e.addrA n f
      chunks := (e.srcAt n f.a 2).toNat
      pool := e.spair f
      slots := (field (e.srcAt n f.a 3) 0 16).toNat
      grants := devs
      comm := modBits f.mod 13 8
      leaves := t.viewLeaves e.g.ctx (e.addrA n f) (e.srcAt n f.a 2).toNat } } := by
  rw [State.viewed_read range read devices, if_neg (by simp [isnt]), State.released_goes (.inr hd)]

end

section
variable {s : State} {h : Hdr} (I : NibIssues s (.tvclose h f) h n)
include I

theorem exec_tvclose_none (hv : (s.beginIssue h).views.find (modBits f.mod 3 0) = none) :
    exec (.tvclose h f) s = .next ((s.beginIssue h).nibD (s.env h) f.d [0]) := by
  rw [exec_tvclose, execTvclose, nibIssue_next I]
  dsimp only
  rw [hv]

variable {w : View} (hv : (s.beginIssue h).views.find (modBits f.mod 3 0) = some w)
include hv

theorem exec_tvclose_other (hc : w.ctx ≠ (s.env h).g.ctx) :
    exec (.tvclose h f) s = .next ((s.beginIssue h).raise (s.env h) n { code := cPERM }) := by
  rw [exec_tvclose, execTvclose, nibIssue_next I]
  dsimp only
  rw [hv]
  dsimp only
  rw [if_pos (by simpa using hc)]
  rfl

variable (hc : w.ctx = (s.env h).g.ctx)
include hc

theorem exec_tvclose_reads (hr : w.reads ≠ []) : exec (.tvclose h f) s =
    .next ((s.beginIssue h).waitAt (s.env h) (s.env h).lanes (.view (modBits f.mod 3 0))) := by
  rw [exec_tvclose, execTvclose, nibIssue_next I]
  dsimp only
  rw [hv]
  dsimp only
  rw [if_neg (by simp [hc]), if_pos (by simp [State.meets, State.condMet, hv, hr])]

theorem exec_tvclose_closes (hr : w.reads = []) : exec (.tvclose h f) s =
    .next (({ s.beginIssue h with views := (s.beginIssue h).views.erase (modBits f.mod 3 0) } : State).nibD (s.env h) f.d
      [BitVec.ofNat 32 ((if w.lost then 0x14 else 0) + Nat.min w.most (2 ^ 24 - 1) * 2 ^ 8)]) := by
  rw [exec_tvclose, execTvclose, nibIssue_next I]
  dsimp only
  rw [hv]
  dsimp only
  rw [if_neg (by simp [hc]), if_neg (by simp [State.meets, State.condMet, hv, hr])]

end

end

/-- Settles O46: each instruction by the reads that it waits for and the state that it finds. -/
theorem windowsAndViews : Obligations.WindowsAndViews := by
  intro s h f n
  refine ⟨fun I ha => ⟨fun x hx => ?planLate, fun hl a hs => ?statusLate, fun hl hs hd bd ps rh rb rg => ?planned⟩,
    fun v plan k m a => ⟨fun hm => ?empty, fun hm => ⟨State.startRrd3_ctr plan k a hm, State.startRrd3_joinQ plan k a hm⟩⟩,
    fun I ha hp hu h0 h8 => ⟨fun hl => ?ranksLate, fun hl bs dev donors read members few devs => ?opened⟩,
    fun I => ⟨exec_rwclose_none I, exec_rwclose_lands I, exec_rwclose_closes I⟩,
    fun I ha hp hl hc h0 hz h8 => ⟨fun late => ?listLate, fun late a hs => ?poolLate, fun late hs ps bs devs rg rd dv => ?viewed⟩,
    fun I => ⟨exec_tvclose_none I, fun v hv => exec_tvclose_other I hv,
      fun v hv hc => ⟨exec_tvclose_reads I hv hc, exec_tvclose_closes I hv hc⟩⟩⟩
  case planLate => exact (exec_rrd3_aligned I ha).trans (congrArg _ (State.afterRecords_late hx))
  case statusLate => exact (exec_rrd3_aligned I ha).trans (congrArg _ ((State.afterRecords_read hl).trans (State.afterWalks_slow hs)))
  case planned =>
    have run := (exec_rrd3_aligned I ha).trans (congrArg _ ((State.afterRecords_read hl).trans (State.afterWalks_walked hs)))
    exact ⟨fun bad => run.trans (congrArg _ (State.planned_bad rh rb rg bad)),
      fun good gen => run.trans (congrArg _ (State.planned_old rh rb rg good gen)),
      fun good gen => ⟨fun full => run.trans (congrArg _ (State.planned_full rh rb rg good gen full)),
        fun room => run.trans (congrArg _ (State.planned_starts rh rb rg good gen room))⟩⟩
  case empty => rw [hm, State.startRrd3_none]
  case ranksLate => exact (exec_rwin_aligned I ha hp hu h0 h8).trans (congrArg _ (State.afterRecords_single_late hl))
  case opened =>
    have run := (exec_rwin_aligned I ha hp hu h0 h8).trans (congrArg _ (State.afterRecords_read hl))
    exact ⟨fun is => run.trans (congrArg _ (State.opened_twice read members few devs is)),
      fun isnt down => run.trans (congrArg _ (State.opened_cut read members few devs isnt down)),
      fun isnt up => run.trans (congrArg _ (State.opened_grants read members few devs isnt up))⟩
  case listLate => exact (exec_tview_aligned I ha hp hl hc h0 hz h8).trans (congrArg _ (State.afterRecords_single_late late))
  case poolLate =>
    exact (exec_tview_aligned I ha hp hl hc h0 hz h8).trans (congrArg _ ((State.afterRecords_read late).trans (State.afterWalks_slow hs)))
  case viewed =>
    have run := (exec_tview_aligned I ha hp hl hc h0 hz h8).trans
      (congrArg _ ((State.afterRecords_read late).trans (State.afterWalks_walked hs)))
    have lanes : (s.env h).lanes ≠ [] := fun none => absurd I.nib (by rw [show s.iss.lanes = [] from none]; exact nofun)
    exact ⟨fun is => run.trans (congrArg _ (State.viewed_taken rg rd dv is)),
      fun isnt hd => run.trans (congrArg _ (State.viewed_waits rg rd dv isnt lanes hd)),
      fun isnt hd => run.trans (congrArg _ (State.viewed_opens rg rd dv isnt hd))⟩

end Sys2Proof.Machine

/-! PROOFS of the statements of 19_fabric_memory_devices.md: the header and bytes of Fesel packets (R303, Table 19-5). -/

namespace Sys2Proof.Machine

/-- The number of a word's bits, where its field is known. -/
theorem natBits_of_field {w hi lo len : Nat} {x : BitVec w} {y : BitVec len} (hl : hi - lo + 1 = len) (h : field x lo len = y) :
    natBits x.toNat hi lo = y.toNat := by
  subst hl
  rw [natBits_toNat, h]

theorem ofNat_ofBytes_bytesOf {n : Nat} (x : BitVec (8 * n)) : BitVec.ofNat (8 * n) (ofBytes (bytesOf n x.toNat)) = x := by
  rw [ofBytes_bytesOf_toNat, BitVec.ofNat_toNat, BitVec.setWidth_eq]

theorem pairVal_halves (v : W64) : pairVal (loHalf v) (hiHalf v) = v := by
  refine BitVec.eq_of_getLsbD_eq fun i hi => ?_
  rw [pairVal, BitVec.getLsbD_append]
  split
  · next low => simp [loHalf, low]
  · next high => simp [hiHalf, show i - 32 < 32 by omega, show 32 + (i - 32) = i by omega]

theorem halves_toNat (v : W64) : (loHalf v).toNat + 2 ^ 32 * (hiHalf v).toNat = v.toNat := by
  have high : (hiHalf v).toNat = v.toNat / 2 ^ 32 := by
    rw [hiHalf, BitVec.extractLsb'_toNat, Nat.shiftRight_eq_div_pow, Nat.mod_eq_of_lt]
    have := v.isLt
    omega
  rw [loHalf_toNat, high]
  omega

namespace Fesel

section
variable (p : Fesel)

/-- The units of 64 bytes of a packet's payload. -/
theorem body_length : ∃ k, (body p).length = 64 * k := ⟨_, by rw [body, padTo_length]⟩

/-- The first word of the header: kind, zeros and destination. -/
def word0 : BitVec (5 + 7 + 20) := p.kind ++ (0 : BitVec 7) ++ p.dst
def word1 : BitVec (12 + 20) := (0 : BitVec 12) ++ p.src
def word2 : BitVec (16 + 16) := p.comm ++ p.gen
/-- The seventh word: units of payload, code and context. -/
def word6 : BitVec (8 + 8 + 16) := BitVec.ofNat 8 ((body p).length / 64) ++ p.code ++ p.tctx

theorem header_eq : header p = [word0 p, word1 p, word2 p, p.fid, loHalf p.vaddr, hiHalf p.vaddr, word6 p, p.aux] := rfl

theorem word0_kind : field (word0 p) 27 5 = p.kind := by simp (disch := decide) only [word0, field_append_high]; exact field_self
theorem word0_zero : field (word0 p) 20 7 = 0 := by
  simp (disch := decide) only [word0, field_append_high, field_append_low]; exact field_self
theorem word0_dst : field (word0 p) 0 20 = p.dst := by simp (disch := decide) only [word0, field_append_low]; exact field_self
theorem word1_zero : field (word1 p) 20 12 = 0 := by simp (disch := decide) only [word1, field_append_high]; exact field_self
theorem word1_src : field (word1 p) 0 20 = p.src := by simp (disch := decide) only [word1, field_append_low]; exact field_self
theorem word2_comm : field (word2 p) 16 16 = p.comm := by simp (disch := decide) only [word2, field_append_high]; exact field_self
theorem word2_gen : field (word2 p) 0 16 = p.gen := by simp (disch := decide) only [word2, field_append_low]; exact field_self
theorem word6_units : field (word6 p) 24 8 = BitVec.ofNat 8 ((body p).length / 64) := by
  simp (disch := decide) only [word6, field_append_high]; exact field_self
theorem word6_code : field (word6 p) 16 8 = p.code := by
  simp (disch := decide) only [word6, field_append_high, field_append_low]; exact field_self
theorem word6_tctx : field (word6 p) 0 16 = p.tctx := by simp (disch := decide) only [word6, field_append_low]; exact field_self

/-- The bytes that the CRC covers. -/
def covered : List Byte := ((header p).flatMap fun w => bytesOf 4 w.toNat) ++ body p

theorem wire_eq : wire p = covered p ++ bytesOf 4 (crc32c (covered p)).toNat := rfl

theorem header_bytes : ((header p).flatMap fun w => bytesOf 4 w.toNat).length = 32 := by
  rw [flatMap_length (f := fun w : W32 => bytesOf 4 w.toNat) (n := 4) fun w => bytesOf_length 4 w.toNat]
  rfl

theorem covered_length : (covered p).length = 32 + (body p).length := by rw [covered, List.length_append, header_bytes]

theorem wire_length : (wire p).length = (covered p).length + 4 := by rw [wire_eq, List.length_append, bytesOf_length]

theorem wire_take : (wire p).take ((wire p).length - 4) = covered p := by
  rw [wire_length, Nat.add_sub_cancel, wire_eq, List.take_left]

theorem wire_drop : (wire p).drop ((wire p).length - 4) = bytesOf 4 (crc32c (covered p)).toNat := by
  rw [wire_length, Nat.add_sub_cancel, wire_eq, List.drop_left]

theorem covered_drop : (covered p).drop 32 = body p := List.drop_left' (header_bytes p)

variable {p}

theorem wire_word {i : Nat} {x : W32} (h : (header p)[i]? = some x) : ((wire p).drop (4 * i)).take 4 = bytesOf 4 x.toNat := by
  rw [wire_eq]
  generalize bytesOf 4 (crc32c (covered p)).toNat = tail
  rw [covered, List.append_assoc]
  exact take_drop_flatMap (f := fun w : W32 => bytesOf 4 w.toNat) (n := 4) (fun w => bytesOf_length 4 w.toNat) h _

theorem wire_word_toNat {i : Nat} {x : W32} (h : (header p)[i]? = some x) : ofBytes (((wire p).drop (4 * i)).take 4) = x.toNat := by
  rw [wire_word h]
  exact ofBytes_bytesOf_toNat (n := 4) x

/-- Word i of received bytes. -/
def wordAt (bs : List Byte) (i : Nat) : W32 := BitVec.ofNat 32 (ofBytes ((bs.drop (4 * i)).take 4))

theorem ofWire_eq (bs : List Byte) : ofWire bs =
    if bs.length < 36 || bs.drop (bs.length - 4) != bytesOf 4 (crc32c (bs.take (bs.length - 4))).toNat
      || bs.length - 4 != 32 + 64 * (field (wordAt bs 6) 24 8).toNat
      || (field (wordAt bs 0) 27 5).toNat = 0 || 0x12 < (field (wordAt bs 0) 27 5).toNat then none
    else some {
      kind := field (wordAt bs 0) 27 5
      dst := field (wordAt bs 0) 0 20
      src := field (wordAt bs 1) 0 20
      comm := field (wordAt bs 2) 16 16
      gen := field (wordAt bs 2) 0 16
      fid := wordAt bs 3
      vaddr := pairVal (wordAt bs 4) (wordAt bs 5)
      code := field (wordAt bs 6) 16 8
      tctx := field (wordAt bs 6) 0 16
      aux := wordAt bs 7
      payload := (bs.take (bs.length - 4)).drop 32 } := rfl

theorem wordAt_wire {i : Nat} {x : W32} (h : (header p)[i]? = some x) : wordAt (wire p) i = x := by
  rw [wordAt, wire_word h]
  exact ofNat_ofBytes_bytesOf (n := 4) x

theorem units_toNat (h : (body p).length < 64 * 256) : (BitVec.ofNat 8 ((body p).length / 64)).toNat = (body p).length / 64 := by
  rw [BitVec.toNat_ofNat, Nat.mod_eq_of_lt]
  omega

/-- The fields of Table 19-5, as the bytes of the wire hold them. -/
theorem wire_fields (h : (body p).length < 64 * 256) :
    let bs := wire p
    let n := bs.length - 4
    let w := fun i => ofBytes ((bs.drop (4 * i)).take 4)
    natBits (w 0) 31 27 = p.kind.toNat ∧ natBits (w 0) 26 20 = 0 ∧ natBits (w 0) 19 0 = p.dst.toNat ∧
    natBits (w 1) 31 20 = 0 ∧ natBits (w 1) 19 0 = p.src.toNat ∧ natBits (w 2) 31 16 = p.comm.toNat ∧
    natBits (w 2) 15 0 = p.gen.toNat ∧ w 3 = p.fid.toNat ∧ w 4 + 2 ^ 32 * w 5 = p.vaddr.toNat ∧
    natBits (w 6) 31 24 = (body p).length / 64 ∧ natBits (w 6) 23 16 = p.code.toNat ∧ natBits (w 6) 15 0 = p.tctx.toNat ∧
    w 7 = p.aux.toNat ∧ (bs.take n).drop 32 = body p ∧ bs.drop n = bytesOf 4 (crc32c (bs.take n)).toNat := by
  intro bs n w
  have w0 : w 0 = (word0 p).toNat := wire_word_toNat (i := 0) rfl
  have w1 : w 1 = (word1 p).toNat := wire_word_toNat (i := 1) rfl
  have w2 : w 2 = (word2 p).toNat := wire_word_toNat (i := 2) rfl
  have w4 : w 4 = (loHalf p.vaddr).toNat := wire_word_toNat (i := 4) rfl
  have w5 : w 5 = (hiHalf p.vaddr).toNat := wire_word_toNat (i := 5) rfl
  have w6 : w 6 = (word6 p).toNat := wire_word_toNat (i := 6) rfl
  have take : bs.take n = covered p := wire_take p
  rw [w0, w1, w2, w4, w5, w6, take, covered_drop]
  exact ⟨natBits_of_field rfl (word0_kind p), (natBits_of_field rfl (word0_zero p)).trans rfl, natBits_of_field rfl (word0_dst p),
    (natBits_of_field rfl (word1_zero p)).trans rfl, natBits_of_field rfl (word1_src p), natBits_of_field rfl (word2_comm p),
    natBits_of_field rfl (word2_gen p), wire_word_toNat (i := 3) rfl, halves_toNat _,
    (natBits_of_field rfl (word6_units p)).trans (units_toNat h), natBits_of_field rfl (word6_code p),
    natBits_of_field rfl (word6_tctx p), wire_word_toNat (i := 7) rfl, rfl, wire_drop p⟩

/-- A receiver reads back what the bytes of a packet say. -/
theorem ofWire_wire (hk : 0 < p.kind.toNat) (hk' : p.kind.toNat ≤ 0x12) (h : (body p).length < 64 * 256) :
    ofWire (wire p) = some { p with payload := body p, extra := [] } := by
  obtain ⟨k, hb⟩ := body_length p
  have units : (field (word6 p) 24 8).toNat = k := by
    rw [word6_units, units_toNat h, hb, Nat.mul_div_cancel_left k (by decide)]
  have long : (wire p).length = 36 + 64 * k := by
    rw [wire_length, covered_length, hb]
    omega
  have sound : ((wire p).length < 36 || (wire p).drop ((wire p).length - 4) != bytesOf 4 (crc32c ((wire p).take ((wire p).length - 4))).toNat
      || (wire p).length - 4 != 32 + 64 * (field (word6 p) 24 8).toNat
      || (field (word0 p) 27 5).toNat = 0 || 0x12 < (field (word0 p) 27 5).toNat) = false := by
    rw [wire_drop, wire_take, units, long, word0_kind]
    simp only [bne_self_eq_false, Bool.or_false, Bool.or_eq_false_iff, decide_eq_false_iff_not, bne_eq_false_iff_eq]
    omega
  rw [ofWire_eq, wordAt_wire (i := 0) (x := word0 p) rfl, wordAt_wire (i := 1) (x := word1 p) rfl,
    wordAt_wire (i := 2) (x := word2 p) rfl, wordAt_wire (i := 3) (x := p.fid) rfl, wordAt_wire (i := 4) (x := loHalf p.vaddr) rfl,
    wordAt_wire (i := 5) (x := hiHalf p.vaddr) rfl, wordAt_wire (i := 6) (x := word6 p) rfl, wordAt_wire (i := 7) (x := p.aux) rfl,
    if_neg (Bool.eq_false_iff.1 sound), wire_take, covered_drop, word0_kind, word0_dst, word1_src, word2_comm, word2_gen, word6_code,
    word6_tctx, pairVal_halves]

end

end Fesel

end Sys2Proof.Machine

/-! PROOFS of the statements of 19_fabric_memory_devices.md: how packets arrive at a gateway, and its checks (R303 to R307, R371, R374). -/

namespace Sys2Proof.Machine

/-! ## What a record leaves of the dies -/

/-- Of the dies only the caches and the numbers of events may differ. -/
def DiesBut (s t : State) : Prop :=
  ∀ d, { t.die d with rdc := (s.die d).rdc, home := (s.die d).home, evseq := (s.die d).evseq } = s.die d

theorem DiesBut.refl (s : State) : DiesBut s s := fun _ => rfl

theorem DiesBut.trans {s t u : State} (a : DiesBut s t) (b : DiesBut t u) : DiesBut s u := fun d => by
  have a := a d
  rw [← b d] at a
  exact a

theorem DiesBut.fold {α : Type} {f : State → α → State} (h : ∀ s x, DiesBut s (f s x)) (xs : List α) (s : State) :
    DiesBut s (xs.foldl f s) := by
  induction xs generalizing s with
  | nil => exact .refl s
  | cons x xs ih => exact (h s x).trans (ih _)

theorem DiesBut.of_eq {s t : State} (h : t.dies = s.dies) : DiesBut s t := fun d => by rw [State.die, State.die, h]

theorem DiesBut.frozenSrc {s t : State} (a : DiesBut s t) (d : Nat) : (t.die d).frozenSrc = (s.die d).frozenSrc :=
  (congrArg Die.frozenSrc (show _ = s.die d from a d) :)

section
variable (s : State)

theorem DiesBut.modDie (d : Nat) (f : Die → Die)
    (h : { f (s.die d) with rdc := (s.die d).rdc, home := (s.die d).home, evseq := (s.die d).evseq } = s.die d) : DiesBut s (s.modDie d f) := by
  intro k
  by_cases e : k = d
  · rw [e, State.die_modDie, h]
  · rw [State.die_modDie_ne s _ _ f e]

theorem State.event_dies (d : Nat) : DiesBut s (s.event d).2 := DiesBut.modDie s d _ rfl

theorem State.correct_dies (g : Nat) : (s.correct g).1.dies = s.dies := by
  unfold State.correct
  dsimp only
  split
  · rfl
  · split <;> rfl

/-- What the correction of a codeword leaves, that of several leaves. -/
theorem State.correctAll_keeps {α : Type} {f : State → α} (h : ∀ s g, f (State.correct s g).1 = f s) (gs : List Nat) :
    f (State.correctAll gs s).1 = f s := by
  unfold State.correctAll
  suffices ∀ x : State × List DevEvent, f x.1 = f s → f (gs.foldl (fun (x : State × List DevEvent) g =>
      ((x.1.correct g).1, if (x.1.correct g).2 then x.2 ++ [(homeDie (64 * g), 2, stackOf (64 * g))] else x.2)) x).1 = f s from
    this _ rfl
  induction gs with
  | nil => exact fun _ h => h
  | cons g gs ih => exact fun x hx => ih _ ((h x.1 g).trans hx)

theorem State.correctAll_dies (gs : List Nat) : (State.correctAll gs s).1.dies = s.dies :=
  s.correctAll_keeps State.correct_dies gs

theorem State.chunkWrite_dies (x : Nat × Nat × View) : (s.chunkWrite x).1.dies = s.dies := by
  unfold State.chunkWrite
  dsimp only
  split
  · rfl
  · split <;> rfl

theorem State.chunkCopied_dies (n k : Nat) : (s.chunkCopied n k).1.dies = s.dies := by
  unfold State.chunkCopied
  split
  · rfl
  · split
    · dsimp only
      split
      · exact State.correctAll_dies _ _
      · rfl
    · rfl

theorem State.preserve_dies (pa : Nat) : (s.preserve pa).1.dies = s.dies := by
  unfold State.preserve
  generalize s.viewsAt pa = xs
  suffices ∀ u : State × List DevEvent, u.1.dies = s.dies → (xs.foldl (fun (s, ev) x =>
      let (s, l) := s.chunkWrite x
      let (s, m) := s.chunkCopied x.1 x.2.1
      (s, ev ++ l ++ m)) u).1.dies = s.dies from this _ rfl
  induction xs with
  | nil => exact fun _ h => h
  | cons x xs ih => exact fun u h => ih _ (((State.chunkCopied_dies _ _ _).trans (State.chunkWrite_dies u.1 x)).trans h)

theorem State.dropFar_dies (d : Nat) (ps : List (Nat × Nat)) : DiesBut s (s.dropFar d ps) := by
  unfold State.dropFar
  exact DiesBut.fold (fun s _ => DiesBut.modDie s d _ rfl) _ s

theorem State.putOver_dies (d : Nat) (x : List DevEvent) (pa : Nat) (bs : List Byte) : DiesBut s (s.putOver d x pa bs).1 :=
  (DiesBut.of_eq (show ((s.preserve pa).1.putRaw pa bs).dies = s.dies from s.preserve_dies pa)).trans (State.dropFar_dies _ d _)

theorem State.homeTouch_dies (line : Nat) (sec : BitVec 4) (w : Bool) (po : Policy) : DiesBut s (s.homeTouch line sec w po) := by
  unfold State.homeTouch
  dsimp only
  split
  · exact .refl s
  · refine DiesBut.modDie s _ _ ?_
    dsimp only
    split <;> rfl

theorem State.fetchIn_dies (pa n : Nat) (b : Nat × Nat) (po : Policy) : DiesBut s (s.fetchIn pa n b po).1 := by
  unfold State.fetchIn
  dsimp only
  split
  · exact DiesBut.fold (fun s _ => s.homeTouch_dies _ _ _ _) _ s
  · exact (DiesBut.of_eq (State.correctAll_dies s _)).trans (DiesBut.fold (fun s _ => s.homeTouch_dies _ _ _ _) _ _)

theorem State.walkReading_dies (d : Nat) (as : List Nat) : ∀ s : State, DiesBut s (State.walkReading d as s).1 := by
  induction as with
  | nil => exact fun s => .refl s
  | cons a as ih =>
    intro s
    unfold State.walkReading
    split
    · split
      · exact .of_eq (State.correctAll_dies s _)
      · exact .refl s
    · exact (State.fetchIn_dies s _ _ _ _).trans (ih _)

theorem State.hostError_dies (r : Ring) (bs : List Byte) : DiesBut s (s.hostError r bs) := by
  unfold State.hostError
  split
  · exact .refl s
  · exact .of_eq rfl

theorem State.writeRecord_dies (r : Ring) (n : Nat) (type : BitVec 8) (die : Nat) (core slot : Option Nat) (body : List Byte) :
    DiesBut s (s.writeRecord r n type die core slot body).1 := by
  have walked := State.walkReading_dies die (s.walkReads r.ctx (s.ringNext r)) s
  unfold State.writeRecord
  dsimp only
  split
  · exact .refl s
  split
  · exact State.putOver_dies _ _ _ _ _
  split
  · exact walked.trans (State.putOver_dies _ _ _ _ _)
  split
  · exact walked.trans (State.putOver_dies _ _ _ _ _)
  · exact (((walked.trans (State.putOver_dies _ _ _ _ _)).trans (State.putOver_dies _ _ _ _ _)).trans (State.hostError_dies _ _ _)).trans
      (State.putOver_dies _ _ _ _ _)

theorem State.tryRecord_dies (h : HeldRec) : DiesBut s (s.tryRecord h).1 := by
  unfold State.tryRecord
  split
  · exact .of_eq rfl
  · exact State.writeRecord_dies s _ _ _ _ _ _ _

theorem State.recordOnly_dies (r : Option Ring) (type : BitVec 8) (die : Nat) (core slot : Option Nat) (body : List Byte) :
    DiesBut s (s.recordOnly r type die core slot body).1 := by
  cases r with
  | none => exact s.event_dies die
  | some r => exact (s.event_dies die).trans (State.tryRecord_dies _ _)

theorem State.postEventsN_dies (fuel : Nat) : ∀ (s : State) (xs : List DevEvent), DiesBut s (State.postEventsN fuel xs s) := by
  induction fuel with
  | zero => exact fun s _ => .refl s
  | succ n ih => exact fun s xs => match xs with
    | [] => .refl s
    | (d, _, _) :: _ => (State.recordOnly_dies s (s.rootRing d) _ d none none _).trans (ih _ _)

theorem State.sourceRecord_dies (d ctx comm : Nat) (src : BitVec 20) : DiesBut s (s.sourceRecord d ctx comm src) := by
  have put : ∀ (t : State) (r : Ring) (h : HeldRec), DiesBut t ((t.tryRecord h).1.postEvents (t.tryRecord h).2) := fun t r h =>
    (t.tryRecord_dies h).trans (State.postEventsN_dies _ _ _)
  have event : DiesBut s (s.freeCode.2.event d).2 := (DiesBut.of_eq rfl).trans (State.event_dies _ d)
  unfold State.sourceRecord
  dsimp only
  split
  · next r _ =>
    split
    · exact (event.trans (put _ r _)).trans (put _ r _)
    · exact event.trans (put _ r _)
  · split
    · next r _ => exact event.trans (put _ r _)
    · exact event

end

/-! ## Arrival (R303, R306, R311, R371, R374) -/

theorem dropPacket_of_not_mem {d : Nat} {p : Fesel} : ∀ {q : List (Nat × Fesel)}, (d, p) ∉ q → dropPacket d p q = q
  | [], _ => rfl
  | x :: xs, h => by
    obtain ⟨hx, hxs⟩ := not_or.1 (mt List.mem_cons.2 h)
    rw [dropPacket, if_neg (Ne.symm hx), dropPacket_of_not_mem hxs]

section
variable {s : State} {d : Nat} {p : Fesel} {kinds : List (BitVec 5)}

/-- No port of a gateway is up: a first choice finds none. -/
theorem State.nextPort_none (n : Nat) : s.nextPort d n = none ↔ ∀ q, q < 8 → q ∈ (s.die d).portsDown := by
  simp only [State.nextPort, List.find?_eq_none, List.mem_map, mem_upto, Bool.not_eq_true, Bool.not_eq_false', List.contains_iff_mem,
    forall_exists_index, and_imp]
  refine ⟨fun h q hq => ?_, fun h x i hi e => ?_⟩
  · refine h q ((q + 8 - n % 8) % 8) (Nat.mod_lt _ (by decide)) ?_
    omega
  · exact h x (e ▸ Nat.mod_lt _ (by decide))

theorem State.packetEvent_away (h : s.dieCount ≤ d ∨ p.kind ∉ kinds ∨ p.dst ≠ s.devid ∨
    ((d, p) ∉ s.gateQ ∧ ∀ q, q < 8 → q ∈ (s.die d).portsDown)) : s.packetEvent d p kinds = .next s := by
  rw [State.packetEvent, if_pos]
  rw [← State.nextPort_none 0] at h
  simpa [or_assoc] using h

/-- A packet of the kinds for this package is taken from those that wait, or from the fabric at a port that is up. -/
theorem State.packetEvent_takes (hd : d < s.dieCount) (hk : p.kind ∈ kinds) (hp : p.dst = s.devid)
    (h : (d, p) ∈ s.gateQ ∨ ∃ q, q < 8 ∧ q ∉ (s.die d).portsDown) :
    let t : State := { s with gateQ := dropPacket d p s.gateQ }
    s.packetEvent d p kinds = .next
      (if s.gateQ.contains (d, p) && t.packet d p == { t with gateQ := t.gateQ ++ [(d, p)] } then s else t.packet d p) := by
  have stands : ¬((d, p) ∉ s.gateQ ∧ s.nextPort d 0 = none) := by
    rintro ⟨away, none⟩
    obtain here | ⟨q, hq, up⟩ := h
    · exact away here
    · exact up ((State.nextPort_none 0).1 none q hq)
  rw [State.packetEvent, if_neg]
  simpa [Nat.not_le.2 hd, hk, hp] using stands

theorem State.packetEvent_arrives (hd : d < s.dieCount) (hk : p.kind ∈ kinds) (hp : p.dst = s.devid) (hq : (d, p) ∉ s.gateQ)
    (up : ∃ q, q < 8 ∧ q ∉ (s.die d).portsDown) : s.packetEvent d p kinds = .next (s.packet d p) := by
  rw [State.packetEvent_takes hd hk hp (.inr up), if_neg (by simp [hq]), dropPacket_of_not_mem hq]

section
variable (hd : d < s.dieCount) (hk : p.kind ∈ kinds) (hp : p.dst = s.devid) (hq : (d, p) ∈ s.gateQ)
include hd hk hp hq

theorem State.packetEvent_stays (h : ({ s with gateQ := dropPacket d p s.gateQ } : State).packet d p =
    { s with gateQ := dropPacket d p s.gateQ ++ [(d, p)] }) : s.packetEvent d p kinds = .next s := by
  rw [State.packetEvent_takes hd hk hp (.inl hq), if_pos (by simp [hq, h])]

theorem State.packetEvent_goes (h : ({ s with gateQ := dropPacket d p s.gateQ } : State).packet d p ≠
    { s with gateQ := dropPacket d p s.gateQ ++ [(d, p)] }) :
    s.packetEvent d p kinds = .next (({ s with gateQ := dropPacket d p s.gateQ } : State).packet d p) := by
  rw [State.packetEvent_takes hd hk hp (.inl hq), if_neg (by simp [h])]

end

theorem State.packet_asleep (h : s.power ≠ .l0 ∨ s.waking = true) : s.packet d p = s.wake.waitPacket d p := by
  rw [State.packet, if_pos (by simpa using h)]

theorem State.packetCtx_request (h : Fesel.isReply p = false) : s.packetCtx d p = some p.tctx.toNat := by
  rw [State.packetCtx, if_neg (by simp [h])]

section
variable (awake : s.power = .l0) (up : s.waking = false)
include awake up

theorem State.packet_bad (hk : 7 ≤ p.kind.toNat) (hc : s.context p.tctx.toNat = none) : s.packet d p = s.badPacket d := by
  rw [State.packet, if_neg (by simp [awake, up]), if_pos (by simp [hk, hc])]

theorem State.packet_unasked (hk : p.kind.toNat < 7) (hr : Fesel.isReply p = true) (hf : s.findReq d p = none) : s.packet d p = s := by
  rw [State.packet, if_neg (by simp [awake, up]), if_neg (by simp [hk]), State.packetCtx, if_pos hr, hf]
  rfl

variable {ctx : Nat} (hctx : s.packetCtx d p = some ctx) (hc : 7 ≤ p.kind.toNat → s.context p.tctx.toNat ≠ none)
include hctx hc

/-- A packet whose context exists goes through the check of R306. -/
theorem State.packet_gate : s.packet d p = match s.gate d p ctx with
    | .ok u => u.accept d p
    | .error u => u := by
  have known : ¬(7 ≤ p.kind.toNat && (s.context p.tctx.toNat).isNone) = true := by simpa using hc
  rw [State.packet, if_neg (by simp [awake, up]), if_neg known, hctx] <;> rfl

theorem State.packet_stopped {u : State} (h : s.gate d p ctx = .error u) : s.packet d p = u := by
  rw [State.packet_gate awake up hctx hc, h]

theorem State.packet_passed {u : State} (h : s.gate d p ctx = .ok u) : s.packet d p = u.accept d p := by
  rw [State.packet_gate awake up hctx hc, h]

end

theorem State.accept_answer (h : Fesel.isReply p = true ∨ p.kind = 0x12) : s.accept d p = s.actOn d p := by
  rw [State.accept, if_pos (by simpa using h)]

theorem State.accept_admission (h : Fesel.isReply p = false) (hk : p.kind ≠ 0x12) : s.accept d p = match s.admission d p with
    | .ok u => u.actOn d p
    | .error u => u := by
  rw [State.accept, if_neg (by simpa [h] using hk)] <;> rfl

/-! ## The checks of R306 and R371 -/

section
variable {ctx : Nat}

theorem State.gate_free (h : p.comm = 0xFFFF ∨ s.context ctx = none) : s.gate d p ctx = .ok s := by
  rw [State.gate]
  dsimp only
  rw [if_pos (by simpa using h)]

variable (named : ¬(p.comm = 0xFFFF ∨ s.context ctx = none))
include named

/-- A packet of a communicator is checked against its block list and the adopted generation. -/
theorem State.gate_named : s.gate d p ctx =
    let n := p.comm.toNat % 64
    let k := p.gen - (s.comm ctx n).gen
    if s.blocked d p.src then .error (s.modComm ctx n fun c => { c with blocked := satInc c.blocked })
    else if k = 0 then .ok s
    else if 32767 < k.toNat then .error (s.modComm ctx n fun c => { c with droppedOld := satInc c.droppedOld })
    else if (s.die d).hold.length < 64 then .error (s.modDie d fun g => { g with hold := g.hold ++ [(ctx, p)] })
    else
      let s := s.modComm ctx n fun c => { c with refused := satInc c.refused }
      .error (s.sendPlain ctx d { s.fesel ctx 0 0x12 p.src with comm := 0xFFFF, gen := 0, aux := p.fid }) := by
  rw [State.gate]
  dsimp only
  rw [if_neg (by simpa using named)]

theorem State.gate_blocked (h : p.src ∈ (s.die d).blockList) :
    s.gate d p ctx = .error (s.modComm ctx (p.comm.toNat % 64) fun c => { c with blocked := satInc c.blocked }) := by
  rw [State.gate_named named]
  exact if_pos (List.contains_iff_mem.2 h)

variable (open_ : p.src ∉ (s.die d).blockList)
include open_

theorem State.gate_open : s.gate d p ctx =
    let n := p.comm.toNat % 64
    let k := p.gen - (s.comm ctx n).gen
    if k = 0 then .ok s
    else if 32767 < k.toNat then .error (s.modComm ctx n fun c => { c with droppedOld := satInc c.droppedOld })
    else if (s.die d).hold.length < 64 then .error (s.modDie d fun g => { g with hold := g.hold ++ [(ctx, p)] })
    else
      let s := s.modComm ctx n fun c => { c with refused := satInc c.refused }
      .error (s.sendPlain ctx d { s.fesel ctx 0 0x12 p.src with comm := 0xFFFF, gen := 0, aux := p.fid }) := by
  rw [State.gate_named named]
  exact if_neg (mt List.contains_iff_mem.1 open_)

theorem State.gate_current (h : (p.gen - (s.comm ctx (p.comm.toNat % 64)).gen).toNat = 0) : s.gate d p ctx = .ok s := by
  rw [State.gate_open named open_]
  exact if_pos (BitVec.eq_of_toNat_eq h)

theorem State.gate_old (h : 32767 < (p.gen - (s.comm ctx (p.comm.toNat % 64)).gen).toNat) :
    s.gate d p ctx = .error (s.modComm ctx (p.comm.toNat % 64) fun c => { c with droppedOld := satInc c.droppedOld }) := by
  have other : p.gen - (s.comm ctx (p.comm.toNat % 64)).gen ≠ 0 := fun e => by simp [e] at h
  rw [State.gate_open named open_]
  dsimp only
  rw [if_neg other, if_pos h]

variable (ahead : 0 < (p.gen - (s.comm ctx (p.comm.toNat % 64)).gen).toNat)
  (near : (p.gen - (s.comm ctx (p.comm.toNat % 64)).gen).toNat ≤ 32767)
include ahead near

theorem State.gate_held (h : ¬64 ≤ (s.die d).hold.length) :
    s.gate d p ctx = .error (s.modDie d fun g => { g with hold := g.hold ++ [(ctx, p)] }) := by
  have other : p.gen - (s.comm ctx (p.comm.toNat % 64)).gen ≠ 0 := fun e => by simp [e] at ahead
  rw [State.gate_open named open_]
  dsimp only
  rw [if_neg other, if_neg (Nat.not_lt.2 near), if_pos (Nat.not_le.1 h)]

theorem State.gate_refused (h : 64 ≤ (s.die d).hold.length) :
    let u := s.modComm ctx (p.comm.toNat % 64) fun c => { c with refused := satInc c.refused }
    s.gate d p ctx = .error (u.sendPlain ctx d { u.fesel ctx 0 0x12 p.src with comm := 0xFFFF, gen := 0, aux := p.fid }) := by
  have other : p.gen - (s.comm ctx (p.comm.toNat % 64)).gen ≠ 0 := fun e => by simp [e] at ahead
  rw [State.gate_open named open_]
  dsimp only
  rw [if_neg other, if_neg (Nat.not_lt.2 near), if_neg (Nat.not_lt.2 h)]

end

theorem State.comm_modComm {ctx : Nat} {x : Context} (h : s.context ctx = some x) (n : Nat) (f : Comm → Comm) :
    (s.modComm ctx n f).comm ctx n = f (s.comm ctx n) := by
  have find : (s.modComm ctx n f).context ctx = some { x with comms := x.comms.put n (f (x.comm n)) } := by
    rw [State.modComm, State.context_modContext, h, Option.map_some]
  simp only [State.comm, find, h, Context.comm, SMap.get_put_self]

theorem upto_eq_range (n : Nat) : upto n = List.range n := by
  have from_ : ∀ n lo, rangeFrom lo n = List.range' lo n := fun n => by
    induction n with
    | zero => exact fun _ => rfl
    | succ n ih => exact fun lo => by rw [rangeFrom, ih, List.range'_succ]
  rw [upto, from_, List.range_eq_range']

theorem find?_upto_eq_some {n k : Nat} {f : Nat → Bool} (hk : k < n) (h : f k = true) (first : ∀ j, j < k → ¬f j = true) :
    (upto n).find? f = some k := by
  rw [upto_eq_range, List.find?_range_eq_some]
  exact ⟨h, List.mem_range.2 hk, fun j hj => by simp [first j hj]⟩

/-- The first die at which a source's stream is frozen counts its packets. -/
theorem State.admission_frozen {k : Nat} (hk : k < s.dieCount) (h : ∃ y ∈ (s.die k).frozenSrc, y.1 = p.src)
    (first : ∀ j, j < k → ∀ y ∈ (s.die j).frozenSrc, y.1 ≠ p.src) : s.admission d p = .error (s.modDie k fun g => { g with
      frozenSrc := g.frozenSrc.map fun x => if x.1 == p.src then (x.1, x.2 + 1) else x }) := by
  have found : (upto s.dieCount).find? (fun k => (s.die k).frozenSrc.any fun x => x.1 == p.src) = some k := by
    refine find?_upto_eq_some hk (List.any_eq_true.2 ?_) fun j hj => ?_
    · simpa only [beq_iff_eq] using h
    · simpa only [List.any_eq_true, beq_iff_eq, not_exists, not_and] using first j hj
  rw [State.admission, found]

section
variable {x : Context} (hx : s.context p.tctx.toNat = some x) (thawed : ∀ k, k < s.dieCount → ∀ y ∈ (s.die k).frozenSrc, y.1 ≠ p.src)
include hx thawed

theorem State.admission_thawed : s.admission d p = if x.admitted.contains p.src then .ok s else .error (s.freezeSource d p) := by
  have none : (upto s.dieCount).find? (fun k => (s.die k).frozenSrc.any fun x => x.1 == p.src) = none := by
    simp only [List.find?_eq_none, List.any_eq_true, beq_iff_eq, mem_upto, not_exists, not_and]
    exact thawed
  rw [State.admission, none]
  dsimp only
  rw [hx]

theorem State.admission_admits (h : p.src ∈ x.admitted) : s.admission d p = .ok s := by
  rw [State.admission_thawed hx thawed, if_pos (List.contains_iff_mem.2 h)]

theorem State.admission_freezes (h : p.src ∉ x.admitted) : ∃ u, s.admission d p = .error u ∧ ∃ y ∈ (u.die d).frozenSrc, y.1 = p.src := by
  refine ⟨s.freezeSource d p, ?_, (p.src, 0), ?_, rfl⟩
  · rw [State.admission_thawed hx thawed, if_neg (mt List.contains_iff_mem.1 h)]
  · rw [State.freezeSource, (State.sourceRecord_dies _ _ _ _ _).frozenSrc, State.die_modDie]
    exact List.mem_append_right _ (List.mem_singleton.2 rfl)

end

end

theorem satInc_next {x : W32} (h : x ≠ 0xFFFF_FFFF) : satInc x = x + 1 := if_neg h

/-- A packet of kind k is acted on as Table 19-6 has it. -/
theorem State.actOn_kind (s : State) (d : Nat) (p : Fesel) :
    (p.kind = 0x01 ∨ p.kind = 0x03 ∨ p.kind = 0x05 → s.actOn d p = s.serve d p) ∧
    (p.kind = 0x02 ∨ p.kind = 0x04 ∨ p.kind = 0x06 → s.actOn d p = s.onReply d p) ∧
    (p.kind = 0x07 → s.actOn d p = s.onXrq d p) ∧ (p.kind = 0x08 → s.actOn d p = s.onXdt d p) ∧
    (p.kind = 0x09 ∨ p.kind = 0x0A → s.actOn d p = s.onStripeEnd d p) ∧ (p.kind = 0x0B → s.actOn d p = s.onGrant d p) ∧
    (p.kind = 0x0C → s.actOn d p = s.onCollData d p) ∧ (p.kind = 0x0D → s.actOn d p = s.onHeartbeat d p) ∧
    (p.kind = 0x0E → s.actOn d p = s.onProbe d p) ∧ (p.kind = 0x0F → s.actOn d p = s.onProbeReply d p) ∧
    (p.kind = 0x10 → s.actOn d p = s.onVote d p) ∧ (p.kind = 0x11 → s.actOn d p = s.onVerdict d p) ∧
    (p.kind = 0x12 → s.actOn d p = s.onRefusal d p) := by
  refine ⟨?_, ?_, fun h => ?_, fun h => ?_, ?_, fun h => ?_, fun h => ?_, fun h => ?_, fun h => ?_, fun h => ?_, fun h => ?_, fun h => ?_,
    fun h => ?_⟩
  · rintro (h | h | h) <;> rw [State.actOn, h] <;> rfl
  · rintro (h | h | h) <;> rw [State.actOn, h] <;> rfl
  · rw [State.actOn, h] <;> rfl
  · rw [State.actOn, h] <;> rfl
  · rintro (h | h) <;> rw [State.actOn, h] <;> rfl
  all_goals rw [State.actOn, h] <;> rfl

/-- Settles O47: arrival by where the packet stands, its bytes by the header's words, and the two checks by what they find. -/
theorem gateways : Obligations.Gateways := by
  refine ⟨⟨fun s d p hd hp hq up => ?arrives, fun p => Fesel.ofWire_wire, fun p => Fesel.wire_fields,
    fun s d p kinds => State.packetEvent_away, fun s d hd => ?bad,
    fun s d p kinds hd hk hp hq => ⟨State.packetEvent_stays hd hk hp hq, State.packetEvent_goes hd hk hp hq⟩,
    fun s d p => State.packet_asleep, State.actOn_kind, fun s d p awake up => ⟨State.packet_bad awake up, State.packet_unasked awake up,
      State.packetCtx_request⟩, fun s d ctx p awake up hctx hc => ⟨fun u => State.packet_stopped awake up hctx hc, fun u hu => ?passes⟩⟩,
    fun s d ctx p => ?gate, fun x => ⟨rfl, satInc_next⟩, fun s d k p => State.admission_frozen,
    fun s d p x hx thawed => ⟨State.admission_admits hx thawed, State.admission_freezes hx thawed⟩⟩
  case arrives =>
    have acts : ∀ {kinds}, p.kind ∈ kinds → s.packetEvent d p kinds = .next (s.packet d p) := fun hk =>
      State.packetEvent_arrives hd hk hp hq up
    have one : ∀ {k : BitVec 5}, p.kind = k → s.packetEvent d p [k] = .next (s.packet d p) := fun h => acts (List.mem_singleton.2 h)
    exact ⟨one, one, one, one, one, one, one, one, one, one, one, one, one, one, one, fun h => acts (by simpa using h), one⟩
  case bad => rw [exec_badFeselPacket, execBadFeselPacket, if_neg (Nat.not_le.2 hd)]; rfl
  case passes =>
    have passed := State.packet_passed awake up hctx hc hu
    refine ⟨fun h => passed.trans (State.accept_answer h), fun hr hk => ⟨fun v hv => ?_, fun v hv => ?_⟩⟩
    · rw [passed, State.accept_admission hr hk, hv]
    · rw [passed, State.accept_admission hr hk, hv]
  case gate =>
    refine ⟨State.gate_free, State.gate_blocked, State.gate_current, State.gate_old, State.gate_held,
      fun named open_ ahead near full => ⟨?_, State.gate_refused named open_ ahead near full⟩⟩
    obtain ⟨x, hx⟩ := Option.ne_none_iff_exists'.1 (not_or.1 named).2
    rw [State.comm_modComm hx]

end Sys2Proof.Machine

/-! PROOFS of the statements of 19_fabric_memory_devices.md: requests of other packages, replies, timeouts and refusals (R304, R307,
R332, R361). -/

namespace Sys2Proof.Machine

section
variable {s w : State} {d : Nat} {p : Fesel} {ps : List (Nat × Nat)}

/-! ## A request at its target (R304, R332) -/

/-- The state in which the pieces of a request are checked for a wait: a write or atomic has started the copies of traced chunks. -/
def State.copied (w : State) (d : Nat) (p : Fesel) (ps : List (Nat × Nat)) : State :=
  if (Fesel.access p).2.1 = .read then w
  else (ps.filter fun x => homeDie x.1 == d).foldl (fun t x => if t.held x.1 then t else t.startCopies x.1) w

/-- A request as its pieces begin, with its identifier: its watch has seen it. -/
def State.begun (v : State) (d : Nat) (p : Fesel) (ps : List (Nat × Nat)) : Nat × State :=
  (match ps.find? fun (pa, n) => !(v.watchTable p.tctx.toNat (Fesel.access p).2.1 false pa n).isEmpty with
    | some (pa, n) => v.ingressWatch p (Fesel.access p).2.1 pa n
    | none => v).ingressGo d p (ptrTag p.vaddr) (Fesel.access p).2.1 (if (Fesel.access p).1 = 0 then [] else ps)
      (p.payload.take (Fesel.access p).1)

/-- What a request of which nothing stops the pieces does: it waits for the gateway's own die, or is performed. -/
def State.servePieces (w : State) (d : Nat) (p : Fesel) (ps : List (Nat × Nat)) : State :=
  if (ps.filter fun x => homeDie x.1 == d).any fun x => (w.copied d p ps).ingressWaits (Fesel.access p).2.1 x.1 x.2 then
    (w.copied d p ps).waitPacket d p
  else match ((w.copied d p ps).begun d p ps).2.ingressTake d ((w.copied d p ps).begun d p ps).1 with
    | some (x, t) => t.ingressReply d x
    | none => ((w.copied d p ps).begun d p ps).2

theorem State.serve_eq (s : State) (d : Nat) (p : Fesel) : s.serve d p =
    let m := Nat.max 1 (Fesel.access p).1
    let w := s.rangeWalked d p.tctx.toNat p.vaddr m
    if (s.context p.tctx.toNat).isNone then s.reply d p cPERM []
    else if s.rangeWaits d p.tctx.toNat p.vaddr m then s.waitPacket d p
    else match s.range d p.tctx.toNat (Fesel.access p).2.2 false p.vaddr m with
      | .error (c, _) => w.reply d p c []
      | .ok ps => match w.ingressFault d p.tctx.toNat p.vaddr (Fesel.access p).2.1 ps with
        | some c => (if c = cECC then (ps.filter fun x => homeDie x.1 == d).foldl (fun t x => t.readArray x.1 x.2) w else w).reply d p c []
        | none => w.servePieces d p ps := by
  unfold State.serve State.servePieces State.copied State.begun
  rcases Fesel.access p with ⟨n, k, need⟩
  dsimp only
  refine ite_congr rfl (fun _ => rfl) fun _ => ite_congr rfl (fun _ => rfl) fun _ => ?_
  cases s.range d p.tctx.toNat need false p.vaddr (Nat.max 1 n) with
  | error x => rfl
  | ok ps =>
    dsimp only
    cases (s.rangeWalked d p.tctx.toNat p.vaddr (Nat.max 1 n)).ingressFault d p.tctx.toNat p.vaddr k ps with
    | some c => rfl
    | none =>
      dsimp only
      refine ite_congr rfl (fun _ => rfl) fun _ => ?_
      rfl

theorem State.serve_absent (h : s.context p.tctx.toNat = none) : s.serve d p = s.reply d p cPERM [] := by
  rw [State.serve_eq]
  dsimp only
  rw [if_pos (by simp [h])]

section
variable (known : s.context p.tctx.toNat ≠ none)
include known

theorem State.serve_waits (h : s.rangeWaits d p.tctx.toNat p.vaddr (Nat.max 1 (Fesel.access p).1) = true) :
    s.serve d p = s.waitPacket d p := by
  rw [State.serve_eq]
  dsimp only
  rw [if_neg (by simpa using known), if_pos h]

variable (walks : s.rangeWaits d p.tctx.toNat p.vaddr (Nat.max 1 (Fesel.access p).1) = false)
include walks

theorem State.serve_untranslated {c : Code} {va : W64}
    (h : s.range d p.tctx.toNat (Fesel.access p).2.2 false p.vaddr (Nat.max 1 (Fesel.access p).1) = .error (c, va)) :
    s.serve d p = (s.rangeWalked d p.tctx.toNat p.vaddr (Nat.max 1 (Fesel.access p).1)).reply d p c [] := by
  rw [State.serve_eq]
  dsimp only
  rw [if_neg (by simpa using known), if_neg (Bool.eq_false_iff.1 walks), h]

variable (range : s.range d p.tctx.toNat (Fesel.access p).2.2 false p.vaddr (Nat.max 1 (Fesel.access p).1) = .ok ps)
include range

theorem State.serve_refused {c : Code} (h : (s.rangeWalked d p.tctx.toNat p.vaddr (Nat.max 1 (Fesel.access p).1)).ingressFault d
      p.tctx.toNat p.vaddr (Fesel.access p).2.1 ps = some c) :
    let w := s.rangeWalked d p.tctx.toNat p.vaddr (Nat.max 1 (Fesel.access p).1)
    s.serve d p =
      (if c = cECC then (ps.filter fun x => homeDie x.1 == d).foldl (fun t x => t.readArray x.1 x.2) w else w).reply d p c [] := by
  rw [State.serve_eq]
  dsimp only
  rw [if_neg (by simpa using known), if_neg (Bool.eq_false_iff.1 walks), range]
  dsimp only
  rw [h]

theorem State.serve_pieces (h : (s.rangeWalked d p.tctx.toNat p.vaddr (Nat.max 1 (Fesel.access p).1)).ingressFault d
      p.tctx.toNat p.vaddr (Fesel.access p).2.1 ps = none) :
    s.serve d p = (s.rangeWalked d p.tctx.toNat p.vaddr (Nat.max 1 (Fesel.access p).1)).servePieces d p ps := by
  rw [State.serve_eq]
  dsimp only
  rw [if_neg (by simpa using known), if_neg (Bool.eq_false_iff.1 walks), range]
  dsimp only
  rw [h]

end

theorem State.servePieces_waits
    (h : ∃ x ∈ ps.filter fun x => homeDie x.1 == d, (w.copied d p ps).ingressWaits (Fesel.access p).2.1 x.1 x.2 = true) :
    w.servePieces d p ps = (w.copied d p ps).waitPacket d p := by
  rw [State.servePieces]
  exact if_pos (List.any_eq_true.2 h)

section
variable (goes : ∀ x ∈ ps.filter fun x => homeDie x.1 == d, (w.copied d p ps).ingressWaits (Fesel.access p).2.1 x.1 x.2 = false)
include goes

theorem State.servePieces_goes : w.servePieces d p ps =
    match ((w.copied d p ps).begun d p ps).2.ingressTake d ((w.copied d p ps).begun d p ps).1 with
    | some (x, t) => t.ingressReply d x
    | none => ((w.copied d p ps).begun d p ps).2 := by
  have none : ¬((ps.filter fun x => homeDie x.1 == d).any fun x => (w.copied d p ps).ingressWaits (Fesel.access p).2.1 x.1 x.2) = true := by
    rw [List.any_eq_true]
    rintro ⟨x, hx, waits⟩
    exact absurd waits (by simp [goes x hx])
  rw [State.servePieces]
  exact if_neg none

theorem State.servePieces_replies {x : Ingress} {t : State}
    (h : ((w.copied d p ps).begun d p ps).2.ingressTake d ((w.copied d p ps).begun d p ps).1 = some (x, t)) :
    w.servePieces d p ps = t.ingressReply d x := by rw [State.servePieces_goes goes, h]

theorem State.servePieces_sent (h : ((w.copied d p ps).begun d p ps).2.ingressTake d ((w.copied d p ps).begun d p ps).1 = none) :
    w.servePieces d p ps = ((w.copied d p ps).begun d p ps).2 := by rw [State.servePieces_goes goes, h]

end

/-! ## What refuses a request (R12, R166, R167, R326) -/

theorem State.ingressFault_order (s : State) (d ctx : Nat) (va : W64) (k : AKind) (ps : List (Nat × Nat)) :
    let f := s.ingressFault d ctx va k ps
    let tag := s.tagsFail ctx va (ps.foldl (fun n x => n + x.2) 0) = true
    let cut := ∃ x ∈ ps, s.linked d (homeDie x.1) = false
    let bad := ∃ x ∈ ps, homeDie x.1 = d ∧ (if k = .write then s.badPart x.1 x.2 else s.bad x.1 x.2) = true
    let late := k ≠ .write ∧ ∃ x ∈ ps, homeDie x.1 = d ∧ s.held x.1 = true ∧ s.homeHit x.1 x.2 = false ∧ s.overdue (stackOf x.1) = true
    (tag → f = some cTAG) ∧ (¬tag → cut → f = some cREMOTE) ∧ (¬tag → ¬cut → bad → f = some cECC) ∧
    (¬tag → ¬cut → ¬bad → late → f = some cTHERM) ∧ (¬tag → ¬cut → ¬bad → ¬late → f = none) := by
  intro f tag cut bad late
  let near := ps.filter fun x => homeDie x.1 == d
  have cutIff : (ps.any fun x => !s.linked d (homeDie x.1)) = true ↔ cut := by simp [cut]
  have badIff : (near.any fun x => if k = .write then s.badPart x.1 x.2 else s.bad x.1 x.2) = true ↔ bad := by
    simp only [List.any_eq_true, near, List.mem_filter, beq_iff_eq, and_assoc, bad]
  have lateIff : (k != .write && near.any fun x => s.held x.1 && !s.homeHit x.1 x.2 && s.overdue (stackOf x.1)) = true ↔ late := by
    simp only [Bool.and_eq_true, bne_iff_ne, List.any_eq_true, near, List.mem_filter, beq_iff_eq, Bool.not_eq_true', and_assoc, late]
  have order : f = if s.tagsFail ctx va (ps.foldl (fun n x => n + x.2) 0) then some cTAG
      else if ps.any fun x => !s.linked d (homeDie x.1) then some cREMOTE
      else if near.any fun x => if k = .write then s.badPart x.1 x.2 else s.bad x.1 x.2 then some cECC
      else if k != .write && near.any fun x => s.held x.1 && !s.homeHit x.1 x.2 && s.overdue (stackOf x.1) then some cTHERM
      else none := rfl
  refine ⟨fun h => ?_, fun h hc => ?_, fun h hc hb => ?_, fun h hc hb hl => ?_, fun h hc hb hl => ?_⟩
  · rw [order, if_pos h]
  · rw [order, if_neg h, if_pos (cutIff.2 hc)]
  · rw [order, if_neg h, if_neg (mt cutIff.1 hc), if_pos (badIff.2 hb)]
  · rw [order, if_neg h, if_neg (mt cutIff.1 hc), if_neg (mt badIff.1 hb), if_pos (lateIff.2 hl)]
  · rw [order, if_neg h, if_neg (mt cutIff.1 hc), if_neg (mt badIff.1 hb), if_neg (mt lateIff.1 hl)]

theorem State.tagsFail_iff (s : State) (ctx n : Nat) (va : W64) : s.tagsFail ctx va n = true ↔ ∃ g ∈ blocks 64 va.toNat n, ∃ pa e lg,
    s.walk ctx (if 64 * g < va.toNat then va else BitVec.ofNat 64 (64 * g)) = .ok (pa, e, lg) ∧ s.tagOn ctx e = true ∧
      s.tagMatch ctx (ptrTag va) (tagOf (s.metaAt pa)) = false := by
  rw [State.tagsFail, List.any_eq_true]
  refine exists_congr fun g => and_congr_right fun _ => ?_
  dsimp only
  generalize s.walk ctx _ = r
  match r with
  | .error c => exact iff_of_false Bool.false_ne_true nofun
  | .ok (pa, e, lg) =>
    dsimp only
    rw [Bool.and_eq_true, Bool.not_eq_true']
    refine ⟨fun h => ⟨pa, e, lg, rfl, h⟩, ?_⟩
    rintro ⟨_, _, _, same, h⟩
    obtain ⟨rfl, rfl, rfl⟩ : _ ∧ _ ∧ _ := by simpa using same
    exact h

/-! ## The pieces of a request (R304) -/

theorem linePieces_single (off : Nat) {pa n : Nat} (h : 0 < n) (line : pa / 128 = (pa + n - 1) / 128) :
    linePieces off [(pa, n)] = [(off, pa, n)] := by
  have one : blocks 128 pa n = [pa / 128] := by
    rw [blocks, if_neg (by omega), ← line, Nat.sub_self]
    rfl
  have lo : Nat.max pa (128 * (pa / 128)) = pa := Nat.max_eq_left (by omega)
  have hi : Nat.min (pa + n) (128 * (pa / 128) + 128) = pa + n := Nat.min_eq_left (by omega)
  rw [linePieces, linePieces, one, List.map_singleton, List.append_nil]
  dsimp only
  rw [lo, hi, Nat.sub_self, Nat.add_zero, Nat.add_sub_cancel_left]

/-- What is sent over a die link for a piece, or its answer where no module is up. -/
theorem State.ingressFar_sent (v : State) (d id off pa n : Nat) (q : Pkt) (data : List (BitVec 128)) :
    match v.request d (.ingress id off pa n) q data with
    | none => (match v.request d (.ingress id off pa n) q data with
        | none => v.ingressPart d id off cREMOTE []
        | some (_, s) => s) = v.ingressPart d id off cREMOTE []
    | some x => (match v.request d (.ingress id off pa n) q data with
        | none => v.ingressPart d id off cREMOTE []
        | some (_, s) => s) = x.2 := by
  cases v.request d (.ingress id off pa n) q data with
  | none => rfl
  | some x => rfl

/-! ## The reply, and its request (R332, R333) -/

theorem State.ingressReply_fails {x : Ingress} (h : x.code ≠ 0) : s.ingressReply d x = s.reply d x.pkt x.code [] := by
  rw [State.ingressReply]
  exact if_pos (by simpa using h)

theorem State.ingressReply_done {x : Ingress} (h : x.code = 0) : s.ingressReply d x = s.reply d x.pkt 0
    (if (Fesel.access x.pkt).2.1 = .write then []
      else padTo (if (Fesel.access x.pkt).2.1 = .read then 64 * ceilDiv (Fesel.access x.pkt).1 64 else 64) (Ingress.bytes x)) := by
  rw [State.ingressReply]
  rcases Fesel.access x.pkt with ⟨n, k, need⟩
  dsimp only
  rw [if_neg (by simp [h])]
  cases k <;> rfl

section
variable {k : Nat} {r : RReq} (find : s.findReq d p = some (k, r))
include find

theorem State.onReply_fails (h : p.code ≠ 0) : s.onReply d p = (s.dropReq k r).failReq r p.code := by
  rw [State.onReply, find]
  exact if_pos (by simpa using h)

variable (h : p.code = 0)
include h

/-- The value that a reply brings arrives, an acquire makes its removals, and the lane is late no longer. -/
theorem State.onReply_arrives : s.onReply d p =
    let u := match r.kind with
      | .rld t => (s.dropReq k r).arrive r.core r.slot r.lane t (ofBytes (p.payload.take t.bytes)) true
      | .ratom t => (s.dropReq k r).arrive r.core r.slot r.lane t (ofBytes (p.payload.take t.bytes)) ((p.payload[8]?.getD 0) == 1)
      | .rst => s.dropReq k r
    (if isAcq r.order then u.acquire r.core .s else u).onTime r := by
  rw [State.onReply, find]
  exact if_neg (by simp [h])

theorem State.onReply_rst (hk : r.kind = .rst) :
    s.onReply d p = (if isAcq r.order then (s.dropReq k r).acquire r.core .s else s.dropReq k r).onTime r := by
  rw [State.onReply_arrives find h, hk]

theorem State.onReply_rld {t : Dest} (hk : r.kind = .rld t) :
    let u := (s.dropReq k r).arrive r.core r.slot r.lane t (ofBytes (p.payload.take t.bytes)) true
    s.onReply d p = (if isAcq r.order then u.acquire r.core .s else u).onTime r := by
  rw [State.onReply_arrives find h, hk]

theorem State.onReply_ratom {t : Dest} (hk : r.kind = .ratom t) :
    let u := (s.dropReq k r).arrive r.core r.slot r.lane t (ofBytes (p.payload.take t.bytes)) ((p.payload[8]?.getD 0) == 1)
    s.onReply d p = (if isAcq r.order then u.acquire r.core .s else u).onTime r := by
  rw [State.onReply_arrives find h, hk]

end

section
variable {fid : BitVec 32} {r : RReq} (find : (s.die d).reqs.find? (fun r => r.fid == fid) = some r)
include find

theorem State.timeoutReq_late (h : r.sent + s.timeout r.ctx ≤ (s.die d).cycle) : s.timeoutReq d fid = (s.dropReq d r).failReq r cREMOTE := by
  rw [State.timeoutReq, find]
  exact if_neg (Nat.not_lt.2 h)

theorem State.timeoutReq_early (h : (s.die d).cycle < r.sent + s.timeout r.ctx) : s.timeoutReq d fid = s := by
  rw [State.timeoutReq, find]
  exact if_pos h

end

/-! ## Refusals (R307) -/

theorem places_cons_head {α : Type} {f : α → Bool} {x : α} (h : f x = true) (xs : List α) : (places f (x :: xs)).headD 0 = 0 := by
  rw [places, placesFrom, if_pos h]
  rfl

theorem listModify_cons {α : Type} (x : α) (xs : List α) (f : α → α) : listModify (x :: xs) 0 f = f x :: xs := rfl

theorem State.outdated_iff {x : Sent} : s.outdated x = true ↔
    x.pkt.comm ≠ 0xFFFF ∧ x.pkt.gen ≠ (s.comm x.ctx (x.pkt.comm.toNat % 64)).gen := by
  rw [State.outdated, Bool.and_eq_true, bne_iff_ne, bne_iff_ne]

section
variable {x : Sent} {rest : List Sent} (sent : (s.die d).sent = x :: rest)
include sent

section
variable (fid : x.pkt.fid = p.aux) (dst : x.pkt.dst = p.src) (due : x.due = none ∨ x.resent = true)
include fid dst due

/-- A refusal that the oldest packet of the gateway's die can mean. -/
theorem State.onRefusal_first : s.onRefusal d p = if s.outdated x then s.staleSent d x else s.modDie d fun k => { k with
    sent := { x with refused := true, due := some (s.die d).cycle, resent := false } :: rest } := by
  have mine : (x.pkt.fid == p.aux && x.pkt.dst == p.src && (x.due.isNone || x.resent)) = true := by simpa [fid, dst] using due
  have here : (s.diesFrom d).find? (fun k => (s.die k).sent.any fun x => x.pkt.fid == p.aux && x.pkt.dst == p.src &&
      (x.due.isNone || x.resent)) = some d := by
    rw [State.diesFrom, List.find?_cons_of_pos]
    rw [sent, List.any_cons, mine, Bool.true_or]
  rw [State.onRefusal, here]
  dsimp only
  rw [sent, places_cons_head (f := fun x : Sent => x.pkt.fid == p.aux && x.pkt.dst == p.src && (x.due.isNone || x.resent)) mine,
    List.getElem?_cons_zero, Option.filter_some]
  by_cases h : s.outdated x = true
  · rw [if_pos h, if_pos h]
  · rw [if_neg h, if_neg h]
    dsimp only
    rw [State.modDie, State.modDie, sent, listModify_cons]

theorem State.onRefusal_stale (h : s.outdated x = true) : s.onRefusal d p = s.staleSent d x := by
  rw [State.onRefusal_first sent fid dst due, if_pos h]

theorem State.onRefusal_marks (h : s.outdated x = false) : s.onRefusal d p = s.modDie d fun k => { k with
    sent := { x with refused := true, due := some (s.die d).cycle, resent := false } :: rest } := by
  rw [State.onRefusal_first sent fid dst due, if_neg (Bool.eq_false_iff.1 h)]

end

variable {t : Nat} (due : x.due = some t)
include due

/-- A refused packet that stands first among those sent. -/
theorem exec_refusalResend_first : exec (.refusalResend d x.pkt.fid) s = .next
    (if (s.die d).cycle < t + 10 * Config.cyclesPerUs then s
      else if s.outdated x then s.staleSent d x
      else if x.at_ + s.timeout x.ctx ≤ (s.die d).cycle then s.modDie d fun k => { k with sent := rest }
      else ((s.modDie d fun k => { k with sent := { x with due := some (s.die d).cycle, resent := true } :: rest }).putOut d x.port
        x.pkt).getD s) := by
  have mine : (x.pkt.fid == x.pkt.fid && x.due.isSome) = true := by simp [due]
  rw [exec_refusalResend, execRefusalResend]
  dsimp only
  rw [sent, places_cons_head (f := fun y : Sent => y.pkt.fid == x.pkt.fid && y.due.isSome) mine, List.getElem?_cons_zero]
  dsimp only
  rw [due]
  simp only [bne_self_eq_false, Option.isNone_some, Bool.or_false, Bool.false_or, decide_eq_true_eq, Option.getD_some, State.modDie, sent,
    listModify_cons]
  rfl

end

theorem exec_refusalResend_none {fid : BitVec 32} (h : ∀ x ∈ (s.die d).sent, x.pkt.fid = fid → x.due = none) :
    exec (.refusalResend d fid) s = .next s := by
  have none : places (fun x : Sent => x.pkt.fid == fid && x.due.isSome) (s.die d).sent = [] := places_eq_nil fun x hx => by
    by_cases e : x.pkt.fid = fid
    · simp [h x hx e]
    · simp [e]
  rw [exec_refusalResend, execRefusalResend]
  dsimp only
  rw [none]
  refine congrArg _ ?_
  generalize first : (s.die d).sent[([] : List Nat).headD 0]? = r
  cases r with
  | none => rfl
  | some x =>
    refine if_pos ?_
    by_cases e : x.pkt.fid = fid
    · simp [h x (List.mem_of_getElem? first) e]
    · simp [e]

section
variable {x : Sent}

theorem State.staleSent_eq (x : Sent) : s.staleSent d x =
    let u := s.modDie d fun k => { k with sent := k.sent.filter (· ≠ x) }
    match (u.die d).reqs.find? fun r => r.fid == x.pkt.fid && x.pkt.kind.toNat ≤ 5 with
    | some r => (u.dropReq d r).failReq r cGEN
    | none => match (u.die d).stripes.find? fun y => y.fid == x.pkt.fid && x.pkt.kind == 0x07 with
      | some y => u.endStripe d y cGEN
      | none => u := by
  have same : (fun y : Sent => y != x) = fun y => decide (y ≠ x) := funext fun y => by
    by_cases e : y = x <;> simp [e]
  rw [State.staleSent, same] <;> rfl

theorem State.staleSent_request (hk : x.pkt.kind.toNat ≤ 5) {r : RReq} :
    let u := s.modDie d fun k => { k with sent := k.sent.filter (· ≠ x) }
    (u.die d).reqs.find? (fun r => r.fid == x.pkt.fid) = some r → s.staleSent d x = (u.dropReq d r).failReq r cGEN := by
  intro u h
  rw [State.staleSent_eq]
  simp only [hk, decide_true, Bool.and_true]
  rw [h]

theorem State.staleSent_stripe (hk : x.pkt.kind = 0x07) {y : Stripe} :
    let u := s.modDie d fun k => { k with sent := k.sent.filter (· ≠ x) }
    (u.die d).stripes.find? (fun y => y.fid == x.pkt.fid) = some y → s.staleSent d x = u.endStripe d y cGEN := by
  intro u h
  have none : (u.die d).reqs.find? (fun r => r.fid == x.pkt.fid && decide (x.pkt.kind.toNat ≤ 5)) = none := by simp [hk]
  rw [State.staleSent_eq]
  dsimp only
  rw [none]
  simp only [hk, beq_self_eq_true, Bool.and_true]
  rw [h]

end

end

/-- Settles O48: a request by the first check that stops it, its pieces by where their bytes are homed, and a refusal by the packet that it
means. -/
theorem remoteService : Obligations.RemoteService := by
  refine ⟨fun s d p => ⟨State.serve_absent, State.serve_waits, fun known walks => ⟨fun c va => State.serve_untranslated known walks,
      fun ps range => ⟨fun c => State.serve_refused known walks range, fun clear waits => ?waits, fun clear goes => ?goes⟩⟩⟩,
    State.ingressFault_order, State.tagsFail_iff, linePieces_single, fun s d p tag k ps bs => rfl,
    fun s d id off pa n p tag bs => ⟨rfl, rfl, ?swaps, State.ingressFar_sent .., State.ingressFar_sent .., State.ingressFar_sent ..⟩,
    fun s d x => ⟨State.ingressReply_fails, State.ingressReply_done⟩,
    fun s d k p r find => ⟨State.onReply_fails find, State.onReply_rst find, fun h t => State.onReply_rld find h,
      fun h t => State.onReply_ratom find h⟩,
    fun s d fid => ⟨rfl, fun r find => ⟨State.timeoutReq_late find, State.timeoutReq_early find⟩⟩,
    fun s d fid => exec_refusalResend_none, fun s x => State.outdated_iff,
    fun s d p x rest sent fid dst due => ⟨State.onRefusal_stale sent fid dst due, State.onRefusal_marks sent fid dst due⟩,
    fun s d t x rest sent due => ?resends, fun s d x => ⟨fun r hk => State.staleSent_request hk, fun hk y => State.staleSent_stripe hk⟩⟩
  case waits => exact (State.serve_pieces known walks range clear).trans (State.servePieces_waits waits)
  case goes =>
    have run := State.serve_pieces known walks range clear
    exact ⟨fun x t h => run.trans (State.servePieces_replies goes h), fun h => run.trans (State.servePieces_sent goes h)⟩
  case swaps =>
    have same : atomBytes (Fesel.atomOp p) ((s.softAccess pa n).homeAtomic pa (Fesel.atomOp p) (coverBlock pa (pa + n)) .normal).1 = _ :=
      congrArg (fun x => _ ++ bytesOf 1 x) (if_congr (by rw [Bool.and_eq_true, beq_iff_eq]) rfl rfl)
    exact congrArg (State.ingressPart _ d id off 0) same
  case resends =>
    have run := exec_refusalResend_first sent due
    refine ⟨fun h => ?_, fun h old => ?_, fun h new past => ?_, fun h new soon => ?_⟩
    · rw [run, if_pos h]
    · rw [run, if_neg (Nat.not_lt.2 h), if_pos old]
    · rw [run, if_neg (Nat.not_lt.2 h), if_neg (Bool.eq_false_iff.1 new), if_pos past]
    · rw [run, if_neg (Nat.not_lt.2 h), if_neg (Bool.eq_false_iff.1 new), if_neg (Nat.not_le.2 soon)]

end Sys2Proof.Machine

/-! PROOFS of the statements of 19_fabric_memory_devices.md: cadence, and the copies of chunks (R308 to R310, R316). -/

namespace Sys2Proof.Machine

/-! ## Entries moved within a sparse map -/

section
variable {α : Type} {d : α}

/-- The entries whose keys are unlisted read as the default. -/
theorem SMap.get_filter_key (keep : Nat → Bool) (m : SMap α) (i : Nat) :
    SMap.get d (m.filter fun x => keep x.1) i = if keep i then SMap.get d m i else d := by
  induction m with
  | nil => simp [SMap.get]
  | cons a m ih =>
    obtain ⟨k, v⟩ := a
    by_cases hk : keep k = true
    · rw [List.filter_cons_of_pos (by simpa using hk), SMap.get, SMap.get, ih]
      by_cases e : i = k
      · rw [if_pos e, if_pos e, if_pos (e ▸ hk)]
      · rw [if_neg e, if_neg e]
    · rw [List.filter_cons_of_neg (by simpa using hk), ih, SMap.get]
      by_cases e : i = k
      · rw [if_neg (e ▸ hk), if_neg (e ▸ hk)]
      · rw [if_neg e]

variable [DecidableEq α]

theorem SMap.get_below {m : SMap α} {lo i : Nat} (w : SMap.wfFrom d lo m = true) (h : i < lo) : SMap.get d m i = d := by
  induction m generalizing lo with
  | nil => rfl
  | cons a m ih =>
    obtain ⟨k, v⟩ := a
    simp only [SMap.wfFrom, Bool.and_eq_true, decide_eq_true_eq] at w
    obtain ⟨⟨hk, -⟩, wm⟩ := w
    rw [SMap.get, if_neg (by omega), ih wm (by omega)]

/-- The entries of one range put at another: there a key reads as the key that it comes from, unless that is unlisted. -/
theorem SMap.get_foldl_moved {m : SMap α} {lo : Nat} (w : SMap.wfFrom d lo m = true) (src dst n : Nat) (base : SMap α) (i : Nat) :
    SMap.get d ((m.filter fun x => decide (src ≤ x.1) && decide (x.1 < src + n)).foldl
      (fun t x => SMap.set d t (x.1 - src + dst) x.2) base) i =
    if dst ≤ i ∧ i < dst + n then (if SMap.get d m (src + (i - dst)) = d then base.get d i else SMap.get d m (src + (i - dst)))
    else base.get d i := by
  induction m generalizing lo base with
  | nil => simp [SMap.get]
  | cons a m ih =>
    obtain ⟨k, v⟩ := a
    simp only [SMap.wfFrom, Bool.and_eq_true, decide_eq_true_eq] at w
    obtain ⟨⟨-, hv⟩, wm⟩ := w
    by_cases hk : src ≤ k ∧ k < src + n
    · rw [List.filter_cons_of_pos (by simpa using hk), List.foldl_cons, ih wm, SMap.get_set, SMap.get]
      by_cases hi : dst ≤ i ∧ i < dst + n
      · rw [if_pos hi, if_pos hi]
        by_cases e : src + (i - dst) = k
        · rw [SMap.get_below wm (show src + (i - dst) < k + 1 by omega), if_pos rfl, if_pos (show i = k - src + dst by omega), if_pos e,
            if_neg hv]
        · rw [if_neg e, if_neg (show ¬i = k - src + dst by omega)]
      · rw [if_neg hi, if_neg hi, if_neg (show ¬i = k - src + dst by omega)]
    · rw [List.filter_cons_of_neg (by simpa using hk), ih wm, SMap.get]
      by_cases hi : dst ≤ i ∧ i < dst + n
      · rw [if_neg (show ¬src + (i - dst) = k by omega)]
      · rw [if_neg hi, if_neg hi]

/-- A range moved over another whose entries were unlisted first. -/
theorem SMap.get_moved {m : SMap α} (w : SMap.wf d m = true) (src dst n i : Nat) :
    SMap.get d ((m.filter fun x => decide (src ≤ x.1) && decide (x.1 < src + n)).foldl (fun t x => SMap.set d t (x.1 - src + dst) x.2)
      (m.filter fun x => !(decide (dst ≤ x.1) && decide (x.1 < dst + n)))) i =
    if dst ≤ i ∧ i < dst + n then SMap.get d m (src + (i - dst)) else SMap.get d m i := by
  have base := SMap.get_filter_key (d := d) (fun k => !(decide (dst ≤ k) && decide (k < dst + n))) m i
  rw [SMap.get_foldl_moved w]
  by_cases h : dst ≤ i ∧ i < dst + n
  · rw [if_pos h, if_pos h, base.trans (if_neg (by simpa using h))]
    split
    · next e => exact e.symm
    · rfl
  · rw [if_neg h, if_neg h, base.trans (if_pos (by simpa [imp_iff_not_or] using h))]

end

/-- A byte after a range was moved over another. -/
theorem copyRange_get {m : SMap Byte} (w : SMap.wf 0 m = true) (src dst n a : Nat) :
    (copyRange m src dst n).get 0 a = if dst ≤ a ∧ a < dst + n then m.get 0 (src + (a - dst)) else m.get 0 a :=
  SMap.get_moved w src dst n a

/-- A granule's symbol after those of 64 KiB were moved over others. -/
theorem copyGranules_get {m : SMap (BitVec 5)} (w : SMap.wf 0 m = true) (src dst g : Nat) :
    (copyGranules 0 m src dst 65536).get 0 g =
      if dst / 64 ≤ g ∧ g < dst / 64 + 1024 then m.get 0 (src / 64 + (g - dst / 64)) else m.get 0 g := by
  have units : ∀ a, (a + 65536) / 64 = a / 64 + 1024 := fun a => by omega
  rw [copyGranules, units, units]
  exact SMap.get_moved w (src / 64) (dst / 64) 1024 g

/-! ## The copy of a chunk (R316) -/

section
variable {s : State} {n k slot p q lg : Nat} {e : W64} {v : View}

theorem State.correct_views (s : State) (g : Nat) : (s.correct g).1.views = s.views := by
  unfold State.correct
  dsimp only
  split
  · rfl
  · split <;> rfl

/-- The state in which the codewords of a chunk have been read for its copy. -/
def State.chunkRead (s : State) (n k slot p : Nat) (v : View) : State :=
  (State.correctAll ((s.erring p 65536).filter fun g => !s.homeHit (64 * g) 64)
    { s with views := s.views.put n { v with state := v.state.put k (.preserved slot) } }).1

theorem State.chunkCopied_copies (hv : s.views.find n = some v) (hk : v.state.find k = some (.copying slot))
    (walk : s.walk v.ctx (v.base + BitVec.ofNat 64 (65536 * k)) = .ok (p, e, lg)) (pool : s.poolAddr v slot = some q) :
    let t := s.chunkRead n k slot p v
    (s.chunkCopied n k).1 = { t with
      mem := copyRange t.mem p q 65536
      gmeta := copyGranules 0 t.gmeta p q 65536
      gerr := t.gerr.filter fun x => !(q / 64 ≤ x.1 && x.1 < (q + 65536) / 64) } := by
  rw [State.chunkCopied, hv]
  dsimp only
  rw [hk]
  dsimp only
  rw [walk, pool]
  rfl

theorem State.chunkRead_views : (s.chunkRead n k slot p v).views.find n = some { v with state := v.state.put k (.preserved slot) } := by
  rw [State.chunkRead, State.correctAll_keeps _ State.correct_views]
  exact SMap.find_put_self ..

theorem State.MemOk.chunkRead (ok : s.MemOk) : (s.chunkRead n k slot p v).MemOk :=
  State.MemOk.correctAll (s := { s with views := s.views.put n { v with state := v.state.put k (.preserved slot) } }) ok _

end

/-! ## The ring (R309) -/

/-- Where every element has an image, the images stand in the elements' places. -/
theorem filterMap_of_isSome {α β : Type} {f : α → Option β} {xs : List α} (h : ∀ x ∈ xs, (f x).isSome = true) :
    (xs.filterMap f).length = xs.length ∧ ∀ i : Nat, (xs.filterMap f)[i]? = xs[i]?.bind f := by
  induction xs with
  | nil => exact ⟨rfl, fun _ => rfl⟩
  | cons x xs ih =>
    obtain ⟨hx, hxs⟩ := List.forall_mem_cons.1 h
    obtain ⟨y, hy⟩ := Option.isSome_iff_exists.1 hx
    obtain ⟨len, at_⟩ := ih hxs
    rw [List.filterMap_cons_some hy]
    refine ⟨congrArg Nat.succ len, fun i => ?_⟩
    cases i with
    | zero => exact hy.symm
    | succ i => exact at_ i

theorem places_of_nodup {ring : List Nat} {i r : Nat} (nd : ring.Nodup) (h : ring[i]? = some r) :
    (places (· == r) ring).head? = some i := by
  obtain ⟨hi, hr⟩ := List.getElem?_eq_some_iff.1 h
  have split : ring = ring.take i ++ r :: ring.drop (i + 1) := by
    rw [← hr, ← List.drop_eq_getElem_cons, List.take_append_drop]
  have before : ∀ x ∈ ring.take i, (x == r) = false := fun x hx => by
    rw [split] at nd
    exact beq_eq_false_iff_ne.2 ((List.nodup_append.1 nd).2.2 x hx r List.mem_cons_self)
  rw [split, places_head_append before (beq_self_eq_true r), List.length_take_of_le hi.le]

theorem monitorsOf_ring {ring : List Nat} {i r : Nat} (hi : i < ring.length) (nd : ring.Nodup) (h : ring[i]? = some r) :
    (monitorsOf ring r).length = Nat.min 5 (ring.length - 1) ∧
    ∀ j, j < Nat.min 5 (ring.length - 1) → (monitorsOf ring r)[j]? = ring[(i + j + 1) % ring.length]? := by
  obtain ⟨len, at_⟩ := filterMap_of_isSome (f := fun j => ring[(i + j + 1) % ring.length]?) (xs := upto (monitorCount ring)) fun j _ => by
    rw [List.getElem?_eq_getElem (Nat.mod_lt _ (Nat.zero_lt_of_lt hi))]
    rfl
  rw [monitorsOf, places_of_nodup nd h]
  dsimp only
  refine ⟨len.trans (by rw [upto_eq_range, List.length_range]; rfl), fun j hj => (at_ j).trans ?_⟩
  rw [upto_eq_range, List.getElem?_range (show j < monitorCount ring from hj)]
  rfl

/-! ## Heartbeats, suspicion and probes (R309) -/

section
variable {s : State} {ctx me rank : Nat} {x : Context} (cad : s.cadence ctx = some x)
include cad

theorem exec_heartbeatTimer_early (self : s.selfRank ctx = some me) (h : s.cadenceNow < x.lastBeat + 20 * Config.cyclesPerUs) :
    exec (.heartbeatTimer ctx) s = .next s := by
  rw [exec_heartbeatTimer, execHeartbeatTimer, cad, self]
  exact congrArg _ (if_pos (by simp [h]))

theorem exec_heartbeatTimer_beats (self : s.selfRank ctx = some me) (h : ¬s.cadenceNow < x.lastBeat + 20 * Config.cyclesPerUs)
    (member : me ∈ s.ring ctx) : exec (.heartbeatTimer ctx) s = .next
      (((monitorsOf (s.ring ctx) me).foldl (fun t r => match t.deviceOf ctx 0 r with
        | some dev => t.cadenceSend ctx 0x0D dev (BitVec.ofNat 32 x.beats)
        | none => t) s).modContext ctx fun y => { y with beats := y.beats + 1, lastBeat := s.cadenceNow }) := by
  rw [exec_heartbeatTimer, execHeartbeatTimer, cad, self]
  exact congrArg _ (if_neg (by simpa [h] using member))

variable {dev : BitVec 20} {w : Watched} (device : s.deviceOf ctx 0 rank = some dev) (find : x.watched.find dev.toNat = some w)
include device find

section
variable (self : s.selfRank ctx = some me)
include self

theorem exec_suspicion_early (h : s.cadenceNow < w.last + 100 * Config.cyclesPerUs) : exec (.suspicion ctx rank) s = .next s := by
  rw [exec_suspicion, execSuspicion, cad, self, device]
  dsimp only
  rw [find]
  exact congrArg _ (if_pos (by simp [h]))

theorem exec_suspicion_probes (mine : me ∈ monitorsOf (s.ring ctx) rank) (new : w.suspected = none)
    (late : w.last + 100 * Config.cyclesPerUs ≤ s.cadenceNow) (open_ : s.blocked s.cadenceDie dev = false) :
    let next := (((monitorsOf (s.ring ctx) rank).dropWhile (· != me)).drop 1).take 3
    let devs := next.filterMap (s.deviceOf ctx 0)
    let u := devs.foldl (fun t y => t.cadenceSend ctx 0x0E y (dev.zeroExtend 32))
      (s.modWatched ctx dev fun w => { w with suspected := some s.cadenceNow, probes := devs, alive := false })
    exec (.suspicion ctx rank) s = .next (if devs = [] then u.castVote ctx dev else u) := by
  intro next devs u
  have none : devs.isEmpty = true ↔ devs = [] := List.isEmpty_iff
  rw [exec_suspicion, execSuspicion, cad, self, device]
  dsimp only
  rw [find]
  dsimp only
  rw [if_neg (by simp [mine, new, Nat.not_lt.2 late, open_]), ← if_congr none rfl rfl]

end

variable {t : Nat} (sus : w.suspected = some t)
include sus

theorem exec_probeTimeout_early (h : s.cadenceNow < t + 40 * Config.cyclesPerUs) : exec (.probeTimeout ctx rank) s = .next s := by
  rw [exec_probeTimeout, execProbeTimeout, cad, device]
  dsimp only
  rw [find]
  dsimp only
  rw [sus]
  exact congrArg _ (if_pos (by simp [h]))

theorem exec_probeTimeout_ends (asked : w.probes ≠ []) (h : t + 40 * Config.cyclesPerUs ≤ s.cadenceNow) : exec (.probeTimeout ctx rank) s = .next
    (if w.alive then s.modWatched ctx dev fun w => { w with probes := [] } else s.castVote ctx dev) := by
  rw [exec_probeTimeout, execProbeTimeout, cad, device]
  dsimp only
  rw [find]
  dsimp only
  rw [sus]
  exact congrArg _ (if_neg (by simp [asked, Nat.not_lt.2 h]))

end

/-! ## Packets, votes and verdicts (R308 to R310) -/

/-- The low 20 bits of a word. -/
theorem field_low (a : W32) : field a 0 20 = a.setWidth 20 := by
  refine BitVec.eq_of_getLsbD_eq fun i hi => ?_
  simp [field, hi]

theorem State.cadenceDie_first {s : State} {d : Nat} (hd : d < s.dieCount) (up : ∃ q, q < 8 ∧ q ∉ (s.die d).portsDown)
    (down : ∀ k, k < d → ∀ q, q < 8 → q ∈ (s.die k).portsDown) : s.cadenceDie = d := by
  obtain ⟨q, hq, h⟩ := up
  have found : (upto s.dieCount).find? (fun k => (s.nextPort k 0).isSome) = some d := by
    refine find?_upto_eq_some hd ?_ fun k hk => ?_
    · exact Option.isSome_iff_ne_none.2 fun none => h ((State.nextPort_none 0).1 none q hq)
    · rw [(State.nextPort_none 0).2 (down k hk)]
      exact Bool.false_ne_true
  rw [State.cadenceDie, found]
  rfl

theorem State.ring_pairwise (s : State) (ctx : Nat) : (s.ring ctx).Pairwise (· < ·) := by
  rw [State.ring]
  split
  · exact placesFrom_pairwise ..
  · exact .nil

theorem State.leadFor_lowest {s : State} {ctx : Nat} {dev x : BitVec 20} (h : s.leadFor ctx dev = some x) :
    ∃ r ∈ s.ring ctx, s.deviceOf ctx 0 r = some x ∧ x ≠ dev ∧ s.blocked s.cadenceDie x = false ∧
      ∀ q ∈ s.ring ctx, q < r → ∀ y, s.deviceOf ctx 0 q = some y → y = dev ∨ s.blocked s.cadenceDie y = true := by
  rw [State.leadFor, List.find?_filterMap, Option.bind_eq_some_iff] at h
  obtain ⟨r, hr, hx⟩ := h
  obtain ⟨live, before, after, ring, dead⟩ := List.find?_eq_some_iff_append.1 hr
  rw [hx] at live
  obtain ⟨other, unblocked⟩ : x ≠ dev ∧ s.blocked s.cadenceDie x = false := by simpa using live
  refine ⟨r, List.mem_of_find?_eq_some hr, hx, other, unblocked, fun q hq lower y hy => ?_⟩
  have sorted := s.ring_pairwise ctx
  rw [ring] at hq sorted
  obtain hq | hq := List.mem_append.1 hq
  · have := dead q hq
    rw [hy] at this
    by_contra both
    obtain ⟨ne, un⟩ := not_or.1 both
    simp [ne, un] at this
  · have after_ := (List.pairwise_cons.1 (List.pairwise_append.1 sorted).2.1).1
    obtain rfl | hq := List.mem_cons.1 hq
    · exact absurd lower (Nat.lt_irrefl q)
    · exact absurd (after_ q hq) (Nat.not_lt.2 lower.le)

section
variable {s : State} {ctx : Nat} {dev : BitVec 20} {w : Bool}

theorem State.sendVote_none (h : s.leadFor ctx dev = none) : s.sendVote ctx dev w = s := by rw [State.sendVote, h]

theorem State.sendVote_lead {x : BitVec 20} (h : s.leadFor ctx dev = some x) :
    s.sendVote ctx dev w = s.cadenceSend ctx 0x10 x (BitVec.ofNat 32 ((if w then 2 ^ 31 else 0) + dev.toNat)) := by
  rw [State.sendVote, h]

end

section
variable {s : State} {p : Fesel}

/-- Where cadence does not run, its packets do nothing. -/
theorem State.cadence_off (d : Nat) (h : s.cadence p.tctx.toNat = none) :
    s.onHeartbeat d p = s ∧ s.onProbe d p = s ∧ s.onProbeReply d p = s ∧ s.onVote d p = s := by
  refine ⟨?_, ?_, ?_, ?_⟩
  · rw [State.onHeartbeat, h]
  · rw [State.onProbe]
    exact if_pos (by simp [h])
  · rw [State.onProbeReply, h]
  · rw [State.onVote, h]

variable {x : Context} (cad : s.cadence p.tctx.toNat = some x) (d : Nat)
include cad

theorem State.onHeartbeat_hears :
    let heard := s.modWatched p.tctx.toNat p.src fun _ => { last := s.cadenceNow }
    s.onHeartbeat d p = (if (x.watched.get {} p.src.toNat).voted then heard.sendVote p.tctx.toNat p.src true else heard) := by
  rw [State.onHeartbeat, cad]

theorem State.onProbe_answers (h : p.aux.setWidth 20 = s.devid) :
    s.onProbe d p = s.cadenceSend p.tctx.toNat 0x0F p.src ((p.aux.setWidth 20 : BitVec 20).zeroExtend 32) := by
  rw [State.onProbe, cad, field_low]
  exact if_pos h

theorem State.onProbe_asks (h : p.aux.setWidth 20 ≠ s.devid) : s.onProbe d p =
    (s.modContext p.tctx.toNat fun y => { y with relays := y.relays ++ [(p.aux.setWidth 20, p.src)] }).cadenceSend p.tctx.toNat 0x0E
      (p.aux.setWidth 20) ((p.aux.setWidth 20 : BitVec 20).zeroExtend 32) := by
  rw [State.onProbe, cad, field_low]
  exact if_neg h

/-- A probe reply passed on to those who asked for it. -/
def State.passedOn (s : State) (p : Fesel) (x : Context) : State :=
  let dev : BitVec 20 := p.aux.setWidth 20
  (x.relays.filter fun z => z.1 == dev && p.src == dev).foldl (fun t z => t.cadenceSend p.tctx.toNat 0x0F z.2 (dev.zeroExtend 32))
    (s.modContext p.tctx.toNat fun y => { y with relays := y.relays.filter fun z => !(z.1 == dev && p.src == dev) })

theorem State.onProbeReply_eq : s.onProbeReply d p = match x.watched.find (p.aux.setWidth 20 : BitVec 20).toNat with
    | some w => if w.probes.contains p.src then (s.passedOn p x).modWatched p.tctx.toNat (p.aux.setWidth 20) fun w => { w with alive := true }
      else s.passedOn p x
    | none => s.passedOn p x := by
  rw [State.onProbeReply, cad, field_low] <;> rfl

theorem State.onProbeReply_alive {w : Watched} (find : x.watched.find (p.aux.setWidth 20 : BitVec 20).toNat = some w) (h : p.src ∈ w.probes) :
    s.onProbeReply d p = (s.passedOn p x).modWatched p.tctx.toNat (p.aux.setWidth 20) fun w => { w with alive := true } := by
  rw [State.onProbeReply_eq cad, find]
  exact if_pos (List.contains_iff_mem.2 h)

theorem State.onProbeReply_passes (h : ∀ w, x.watched.find (p.aux.setWidth 20 : BitVec 20).toNat = some w → p.src ∉ w.probes) :
    s.onProbeReply d p = s.passedOn p x := by
  rw [State.onProbeReply_eq cad]
  split
  · next w find => exact if_neg (mt List.contains_iff_mem.1 (h w find))
  · rfl

theorem State.onVote_withdraws (h : p.aux.getLsbD 31 = true) : s.onVote d p = s.modContext p.tctx.toNat fun y => { y with
    votes := SMap.set [] y.votes (p.aux.setWidth 20 : BitVec 20).toNat
      ((x.votes.get [] (p.aux.setWidth 20 : BitVec 20).toNat).filter (· ≠ s.rankOf p.tctx.toNat 0 p.src)) } := by
  have same : (fun r : Nat => r != s.rankOf p.tctx.toNat 0 p.src) = fun r => decide (r ≠ s.rankOf p.tctx.toNat 0 p.src) :=
    funext fun r => by by_cases e : r = s.rankOf p.tctx.toNat 0 p.src <;> simp [e]
  rw [State.onVote, cad, field_low]
  dsimp only
  rw [if_pos h, same]

variable (h : p.aux.getLsbD 31 = false)
include h

/-- A vote, by whether its sender is a monitor of the subject under the rank that it has. -/
theorem State.onVote_eq : s.onVote d p =
    let ctx := p.tctx.toNat
    let dev : BitVec 20 := p.aux.setWidth 20
    let voter := s.rankOf ctx 0 p.src
    if voter ∈ monitorsOf (s.ring ctx) (s.rankOf ctx 0 dev) ∧ s.deviceOf ctx 0 voter = some p.src then
      (s.modContext ctx fun y => { y with votes := y.votes.put dev.toNat (insertNat voter (x.votes.get [] dev.toNat)) }).tryVerdict ctx
    else s := by
  rw [State.onVote, cad, field_low]
  dsimp only
  rw [if_neg (Bool.eq_false_iff.1 h)]
  by_cases m : s.rankOf p.tctx.toNat 0 p.src ∈ monitorsOf (s.ring p.tctx.toNat) (s.rankOf p.tctx.toNat 0 (p.aux.setWidth 20)) ∧
      s.deviceOf p.tctx.toNat 0 (s.rankOf p.tctx.toNat 0 p.src) = some p.src
  · rw [if_pos m, if_neg (by simp [m.1, m.2])]
  · rw [if_neg m, if_pos (by simpa [imp_iff_not_or] using m)]

end

section
variable {s : State} {f : Context → Context} (h : ∀ x, (f x).comms = x.comms) (ctx : Nat)
include h

theorem State.comm_modContext (n m : Nat) : (s.modContext n f).comm ctx m = s.comm ctx m := by
  by_cases e : ctx = n
  · rw [e, State.comm, State.comm, State.context_modContext]
    cases s.context n with
    | none => rfl
    | some x => exact congrArg (SMap.get {} · m) (h x)
  · rw [State.comm, State.comm, State.context_modContext_ne _ _ _ _ e]

theorem State.ring_modContext (n : Nat) : (s.modContext n f).ring ctx = s.ring ctx := by
  rw [State.ring, State.ring, State.comm_modContext h]

theorem State.deviceOf_modContext (n m : Nat) : (s.modContext n f).deviceOf ctx m = s.deviceOf ctx m := by
  funext r
  rw [State.deviceOf, State.deviceOf, State.comm_modContext h]

end

section
variable {s : State} {ctx : Nat} {x : Context} (cad : s.cadence ctx = some x)
include cad

/-- The votes against a subject suffice, and this package is the lead. -/
def State.Ripe (s : State) (ctx : Nat) (y : Nat × List Nat) : Prop :=
  Nat.min 5 ((s.ring ctx).length - 1) / 2 + 1 ≤ y.2.length ∧ s.leadFor ctx (BitVec.ofNat 20 y.1) = some s.devid

/-- The test by which the lead finds such a subject. -/
def State.ripe (s : State) (ctx : Nat) (y : Nat × List Nat) : Bool :=
  monitorCount (s.ring ctx) / 2 + 1 ≤ y.2.length && s.leadFor ctx (BitVec.ofNat 20 y.1) == some s.devid

omit cad in
theorem State.ripe_iff {y : Nat × List Nat} : s.ripe ctx y = true ↔ s.Ripe ctx y := by
  rw [State.ripe, Bool.and_eq_true, decide_eq_true_eq, beq_iff_eq]
  exact Iff.rfl

theorem State.tryVerdict_eq : s.tryVerdict ctx = match x.votes.find? (s.ripe ctx) with
    | none => s
    | some y => if x.verdict = some (s.comm ctx 0).gen then s
      else ((s.ring ctx).filterMap (s.deviceOf ctx 0)).foldl (fun t dev =>
          t.cadenceSend ctx 0x11 dev (BitVec.ofNat 32 y.1) [((s.comm ctx 0).gen + 1).zeroExtend 64])
        (s.modContext ctx fun z => { z with verdict := some (s.comm ctx 0).gen, votes := z.votes.erase y.1 }) := by
  have same : s.ripe ctx = fun y => decide (monitorCount (s.ring ctx) / 2 + 1 ≤ y.2.length) &&
    s.leadFor ctx (BitVec.ofNat 20 y.1) == some s.devid := rfl
  rw [State.tryVerdict, cad, same]
  dsimp only
  cases x.votes.find? fun y => decide (monitorCount (s.ring ctx) / 2 + 1 ≤ y.2.length) &&
      s.leadFor ctx (BitVec.ofNat 20 y.1) == some s.devid with
  | none => rfl
  | some y =>
    dsimp only
    rw [State.ring_modContext, State.deviceOf_modContext]
    · exact fun _ => rfl
    · exact fun _ => rfl

theorem State.tryVerdict_unripe (h : ∀ y ∈ x.votes, ¬s.Ripe ctx y) : s.tryVerdict ctx = s := by
  rw [State.tryVerdict_eq cad, List.find?_eq_none.2 fun y hy => mt State.ripe_iff.1 (h y hy)]

theorem State.tryVerdict_given (h : x.verdict = some (s.comm ctx 0).gen) : s.tryVerdict ctx = s := by
  rw [State.tryVerdict_eq cad]
  split
  · rfl
  · exact if_pos h

theorem State.tryVerdict_sends (h : x.verdict ≠ some (s.comm ctx 0).gen) {y : Nat × List Nat} {rest before : List (Nat × List Nat)}
    (votes : x.votes = before ++ y :: rest) (hy : s.Ripe ctx y) (first : ∀ z ∈ before, ¬s.Ripe ctx z) :
    s.tryVerdict ctx = ((s.ring ctx).filterMap (s.deviceOf ctx 0)).foldl (fun t dev =>
        t.cadenceSend ctx 0x11 dev (BitVec.ofNat 32 y.1) [((s.comm ctx 0).gen + 1).zeroExtend 64])
      (s.modContext ctx fun z => { z with verdict := some (s.comm ctx 0).gen, votes := z.votes.erase y.1 }) := by
  rw [State.tryVerdict_eq cad, votes, List.find?_append, List.find?_eq_none.2 fun z hz => mt State.ripe_iff.1 (first z hz),
    List.find?_cons_of_pos (State.ripe_iff.2 hy)]
  exact if_neg h

end

/-- Distinct dies changed one after the other. -/
theorem State.die_foldl_modDie (f : Die → Die) {ds : List Nat} (nd : ds.Nodup) (s : State) (k : Nat) :
    (ds.foldl (fun s d => s.modDie d f) s).die k = if k ∈ ds then f (s.die k) else s.die k := by
  induction ds generalizing s with
  | nil => simp
  | cons d ds ih =>
    obtain ⟨hd, nd⟩ := List.nodup_cons.1 nd
    rw [List.foldl_cons, ih nd]
    by_cases e : k = d
    · rw [e, if_neg hd, if_pos List.mem_cons_self, State.die_modDie]
    · rw [State.die_modDie_ne _ _ _ _ e]
      simp [e]

theorem State.die_block {s : State} {k : Nat} (hk : k < s.dieCount) (dev : BitVec 20) : (s.block dev).die k =
    { s.die k with blockList := if (s.die k).blockList.contains dev then (s.die k).blockList else (s.die k).blockList ++ [dev] } := by
  rw [State.block, State.die_foldl_modDie _ (by rw [upto_eq_range]; exact List.nodup_range), if_pos (mem_upto.2 hk)]

theorem State.mem_block {s : State} {k : Nat} (hk : k < s.dieCount) (dev y : BitVec 20) :
    y ∈ ((s.block dev).die k).blockList ↔ y = dev ∨ y ∈ (s.die k).blockList := by
  rw [State.die_block hk]
  dsimp only
  split
  · next listed =>
    have listed := List.contains_iff_mem.1 listed
    exact ⟨.inr, fun h => h.elim (fun e => e ▸ listed) id⟩
  · rw [List.mem_append, List.mem_singleton, or_comm]

theorem State.block_diesOnly (s : State) (dev : BitVec 20) : DiesOnly s (s.block dev) := by
  unfold State.block
  exact DiesOnly.fold (fun _ _ => by rfl) _ s

theorem State.onVerdict_blocks {s : State} {p : Fesel} (d : Nat) {k : Nat} (hk : k < s.dieCount) (y : BitVec 20) :
    y ∈ ((s.onVerdict d p).die k).blockList ↔ y = p.aux.setWidth 20 ∨ y ∈ (s.die k).blockList := by
  rw [State.onVerdict, field_low]
  exact State.mem_block (s := s.modContext _ _) hk _ y

theorem State.onVerdict_context {s : State} {p : Fesel} (d : Nat) {x : Context} (hx : s.context p.tctx.toNat = some x) :
    (s.onVerdict d p).context p.tctx.toNat = some { x with
      watched := x.watched.erase (p.aux.setWidth 20 : BitVec 20).toNat
      votes := x.votes.erase (p.aux.setWidth 20 : BitVec 20).toNat } := by
  rw [State.onVerdict, field_low, State.context, (congrArg State.contexts (State.block_diesOnly _ _) :)]
  exact (State.context_modContext _ _ _).trans (by rw [hx]; rfl)

end Sys2Proof.Machine

/-! PROOFS of the statements of 19_fabric_memory_devices.md: third-party reads at their lead, donor and spare (R312 to R317, R335). -/

namespace Sys2Proof.Machine

/-! ## Stripes at the lead (R312 to R314) -/

/-- The first place at which an element has an image, and the image. -/
theorem findSome?_first {α β : Type} {f : α → Option β} {x : α} {y : β} (h : f x = some y) (xs : List α) :
    (x :: xs).findSome? f = some y := by rw [List.findSome?_cons, h]

theorem find?_first {α : Type} {f : α → Bool} {before : List α} (hb : ∀ y ∈ before, f y = false) {x : α} (h : f x = true) (rest : List α) :
    (before ++ x :: rest).find? f = some x := by
  rw [List.find?_append, List.find?_eq_none.2 fun y hy => by simp [hb y hy], List.find?_cons_of_pos h]
  rfl

section
variable {s : State} {d : Nat}

section
variable (written : ∀ x ∈ (s.die d).stripes, x.result = none)
include written

/-- With no status byte that waits, the join engine comes to its next stripe. -/
theorem exec_stripeIssue_next : exec (.stripeIssue d) s = .next
    (if (s.die d).joinFrozen || 16 ≤ (s.die d).stripes.length || s.power != .l0 then s
      else match (s.die d).joinQ.find? fun j => j.next < j.first + j.count with
        | some j => s.issueStripe d j
        | none => s) := by
  have none : ∀ f : Stripe → Bool, (s.die d).stripes.find? (fun x => x.result.isSome && f x) = none := fun f =>
    List.find?_eq_none.2 fun x hx => by simp [written x hx]
  rw [exec_stripeIssue, execStripeIssue]
  dsimp only
  rw [none] <;> rfl

theorem exec_stripeIssue_stops (h : (s.die d).joinFrozen = true ∨ 16 ≤ (s.die d).stripes.length ∨ s.power ≠ .l0) :
    exec (.stripeIssue d) s = .next s := by
  rw [exec_stripeIssue_next written, if_pos (by simpa [or_assoc] using h)]

theorem exec_stripeIssue_issues (h : ¬((s.die d).joinFrozen = true ∨ 16 ≤ (s.die d).stripes.length ∨ s.power ≠ .l0)) {j : JCmd}
    (find : (s.die d).joinQ.find? (fun j => decide (j.next < j.first + j.count)) = some j) :
    exec (.stripeIssue d) s = .next (s.issueStripe d j) := by
  rw [exec_stripeIssue_next written, if_neg (by simpa [or_assoc] using h), find]

end

section
variable (j : JCmd)

/-- A command whose next stripe has left. -/
def State.stripeLeft (s : State) (d : Nat) (j : JCmd) : State := s.modDie d fun k => { k with joinQ := k.joinQ.map fun q =>
  if q.core == j.core && q.seq == j.seq then { q with next := q.next + 1 } else q }

/-- The stripe that a command issues next. -/
def State.nextStripe (s : State) (d : Nat) (j : JCmd) : Stripe := {
  fid := (s.die d).fid
  core := j.core
  seq := j.seq
  stripe := j.next
  donor := BitVec.ofNat 20 (pw j.plan (4 + j.next % planDonors j.plan))
  sent := (s.die d).cycle }

/-- The XRQ of that stripe. -/
def State.xrq (s : State) (j : JCmd) : Fesel :=
  let w := pw j.plan (4 + j.next % planDonors j.plan)
  let at_ := stripeFrom j.plan (planRegions j.plan) 0 j.next
  { s.fesel j.ctx (planComm j.plan) 0x07 (BitVec.ofNat 20 w) with
    vaddr := BitVec.ofNat 64 at_.1
    aux := BitVec.ofNat 32 j.next
    extra := [natBits w 31 24, at_.2.1, natBits (pw j.plan 1) 19 0, at_.2.2.1, at_.2.2.2].map (BitVec.ofNat 64) }

theorem State.issueStripe_eq : s.issueStripe d j =
    let x := s.nextStripe d j
    let u := s.stripeLeft d j
    let failed := u.modDie d fun k => { k with fid := k.fid + 1, stripes := k.stripes ++ [x] }
    if (s.comm j.ctx (planComm j.plan)).gen != planGen j.plan then failed.endStripe d x cGEN
    else match u.sendNew j.ctx d (s.xrq j) with
      | some (_, t) => t.modDie d fun k => { k with stripes := k.stripes ++ [x] }
      | none => failed.endStripe d x cREMOTE := by
  unfold State.issueStripe State.nextStripe State.stripeLeft State.xrq
  rcases stripeFrom j.plan (planRegions j.plan) 0 j.next with ⟨voff, len, win, woff⟩
  rfl

variable {j}

theorem State.issueStripe_old (h : (s.comm j.ctx (planComm j.plan)).gen ≠ planGen j.plan) : s.issueStripe d j =
    ((s.stripeLeft d j).modDie d fun k => { k with fid := k.fid + 1, stripes := k.stripes ++ [s.nextStripe d j] }).endStripe d
      (s.nextStripe d j) cGEN := by
  rw [State.issueStripe_eq]
  exact if_pos (by simpa using h)

variable (h : (s.comm j.ctx (planComm j.plan)).gen = planGen j.plan)
include h

theorem State.issueStripe_cut (none : (s.stripeLeft d j).sendNew j.ctx d (s.xrq j) = none) : s.issueStripe d j =
    ((s.stripeLeft d j).modDie d fun k => { k with fid := k.fid + 1, stripes := k.stripes ++ [s.nextStripe d j] }).endStripe d
      (s.nextStripe d j) cREMOTE := by
  rw [State.issueStripe_eq]
  dsimp only
  rw [if_neg (by simp [h]), none]

theorem State.issueStripe_sent {fid : BitVec 32} {t : State} (sent : (s.stripeLeft d j).sendNew j.ctx d (s.xrq j) = some (fid, t)) :
    s.issueStripe d j = t.modDie d fun k => { k with stripes := k.stripes ++ [s.nextStripe d j] } := by
  rw [State.issueStripe_eq]
  dsimp only
  rw [if_neg (by simp [h]), sent]

end

section
variable {p : Fesel}

theorem State.onStripeEnd_none (h : ∀ k ∈ s.diesFrom d, ∀ x ∈ (s.die k).stripes, s.answersStripe k p x = false) : s.onStripeEnd d p = s := by
  have none : (s.diesFrom d).findSome? (fun k => ((s.die k).stripes.find? (s.answersStripe k p)).map fun x => (k, x)) = none :=
    List.findSome?_eq_none_iff.2 fun k hk => by
      rw [List.find?_eq_none.2 fun x hx => by simp [h k hk x hx], Option.map_none]
  rw [State.onStripeEnd, none]

theorem State.onStripeEnd_first {x : Stripe} {rest before : List Stripe} (h : (s.die d).stripes = before ++ x :: rest)
    (hx : s.answersStripe d p x = true) (hb : ∀ y ∈ before, s.answersStripe d p y = false) :
    s.onStripeEnd d p = s.endStripe d x (if p.kind = 0x09 then 0 else if p.code = 0 then cREMOTE else p.code) := by
  have found : (s.diesFrom d).findSome? (fun k => ((s.die k).stripes.find? (s.answersStripe k p)).map fun x => (k, x)) = some (d, x) := by
    rw [State.diesFrom]
    refine findSome?_first ?_ _
    rw [h, find?_first hb hx, Option.map_some]
  rw [State.onStripeEnd, found]

end

/-- The master that writes the status bytes of a command. -/
def State.statusMaster (s : State) (d : Nat) (j : JCmd) : Master := {
  core := j.core
  slot := j.slot
  lane := j.lane
  ctx := j.ctx
  die := some d
  old := ((s.cmd j.core j.seq.toNat).map Cmd.old).getD [] }

/-- A stripe whose status byte is written is over. -/
theorem State.endStripe_written {x : Stripe} {code : Code} {j : JCmd} (hj : s.joinCmd d x = some j) {t : State} {u : Unit}
    (h : s.engWrite (s.statusMaster d j) (j.status + BitVec.ofNat 64 (x.stripe - j.first)) 1 false (fun _ => [code]) = (.ok u, t)) :
    s.endStripe d x code = t.stripeOver d x j code (j.status + BitVec.ofNat 64 (x.stripe - j.first)) := by
  rw [State.statusMaster] at h
  rw [State.endStripe, hj]
  dsimp only
  rw [h]

/-! ## Donors (R313, R315, R344) -/

theorem SMap.get_map {α : Type} (d : α) (f : Nat → α → α) (hf : ∀ n, f n d = d) (m : SMap α) (i : Nat) :
    SMap.get d (m.map fun x => (x.1, f x.1 x.2)) i = f i (m.get d i) := by
  induction m with
  | nil => exact (hf i).symm
  | cons a m ih =>
    obtain ⟨k, v⟩ := a
    rw [List.map_cons, SMap.get, SMap.get]
    by_cases e : i = k
    · rw [if_pos e, if_pos e, e]
    · rw [if_neg e, if_neg e, ih]

/-- A die without an earlier grant of the window that a grant is for. -/
def Die.withoutGrant (k : Die) (p : Fesel) : Die := { k with
  grants := k.grants.filter fun g => !(g.ctx == p.tctx.toNat && g.spare == p.src && g.window == natBits p.aux.toNat 31 24) }

theorem State.onGrant_grants (p : Fesel) : ((s.onGrant d p).die d).grants =
    ((s.die d).grants.filter fun g => !(g.ctx == p.tctx.toNat && g.spare == p.src && g.window == natBits p.aux.toNat 31 24)) ++
    [{ ctx := p.tctx.toNat, spare := p.src, window := natBits p.aux.toNat 31 24, lead := p.aux.setWidth 20, gen := p.gen,
       comm := p.comm.toNat }] := by
  rw [State.onGrant, field_low]
  dsimp only
  rw [State.die_modDie]
  have kept : SMap.get {} (s.dies.map fun x => (x.1, x.2.withoutGrant p)) d = (s.die d).withoutGrant p :=
    SMap.get_map {} (fun _ k => Die.withoutGrant k p) (fun _ => rfl) s.dies d
  exact congrArg (· ++ _) (congrArg Die.grants kept)

section
variable {p : Fesel}

theorem State.onXrq_none (h : s.views.find (xpart p 0) = none) : s.onXrq d p = s.failXrq d p.tctx.toNat p cVIEWLOST := by
  rw [State.onXrq, h]

variable {v : View} (hv : s.views.find (xpart p 0) = some v)
include hv

theorem State.onXrq_unadmitted (h : v.ctx ≠ p.tctx.toNat ∨ p.src ∉ v.grants ∨ 65536 * v.chunks < p.vaddr.toNat + xpart p 1) :
    s.onXrq d p = s.failXrq d p.tctx.toNat p cPERM := by
  rw [State.onXrq, hv]
  exact if_pos (by simpa [or_assoc] using h)

variable (hc : v.ctx = p.tctx.toNat) (hs : p.src ∈ v.grants) (hr : p.vaddr.toNat + xpart p 1 ≤ 65536 * v.chunks)
include hc hs hr

/-- A stripe that its view admits is checked against the spare's grant. -/
theorem State.onXrq_admitted : s.onXrq d p = match s.grantOf p.tctx.toNat (BitVec.ofNat 20 (xpart p 2)) (xpart p 3) with
    | none => s.failXrq d p.tctx.toNat p cPERM
    | some g =>
      if g.lead != p.src then s.failXrq d p.tctx.toNat p cPERM
      else if g.gen != p.gen || g.gen != (s.comm p.tctx.toNat (p.comm.toNat % 64)).gen then s.failXrq d p.tctx.toNat p cGEN
      else State.serveView { s with views := s.views.put (xpart p 0) { v with reads := v.reads ++ [{ die := d, pkt := p }] } } (xpart p 0) := by
  rw [State.onXrq, hv]
  dsimp only
  rw [if_neg (by simp [hc, hs, Nat.not_lt.2 hr]), hc] <;> rfl

theorem State.onXrq_ungranted (h : s.grantOf p.tctx.toNat (BitVec.ofNat 20 (xpart p 2)) (xpart p 3) = none) :
    s.onXrq d p = s.failXrq d p.tctx.toNat p cPERM := by
  rw [State.onXrq_admitted hv hc hs hr, h]

variable {g : Grant} (hg : s.grantOf p.tctx.toNat (BitVec.ofNat 20 (xpart p 2)) (xpart p 3) = some g)
include hg

theorem State.onXrq_otherLead (h : g.lead ≠ p.src) : s.onXrq d p = s.failXrq d p.tctx.toNat p cPERM := by
  rw [State.onXrq_admitted hv hc hs hr, hg]
  exact if_pos (by simpa using h)

theorem State.onXrq_old (hl : g.lead = p.src) (h : g.gen ≠ p.gen ∨ g.gen ≠ (s.comm p.tctx.toNat (p.comm.toNat % 64)).gen) :
    s.onXrq d p = s.failXrq d p.tctx.toNat p cGEN := by
  rw [State.onXrq_admitted hv hc hs hr, hg]
  dsimp only
  rw [if_neg (by simp [hl]), if_pos (by simpa using h)]

theorem State.onXrq_reads (hl : g.lead = p.src) (hp : g.gen = p.gen) (ha : g.gen = (s.comm p.tctx.toNat (p.comm.toNat % 64)).gen) :
    s.onXrq d p = State.serveView { s with
      views := s.views.put (xpart p 0) { v with reads := v.reads ++ [{ die := d, pkt := p }] } } (xpart p 0) := by
  rw [State.onXrq_admitted hv hc hs hr, hg]
  dsimp only
  rw [if_neg (by simp [hl]), if_neg (by simp [← hp, ← ha])]

end

end

end Sys2Proof.Machine

/-! PROOFS of the statements of 19_fabric_memory_devices.md: what a donor sends, and where it lands (R313 to R316, R336 to R338, R344). -/

namespace Sys2Proof.Machine

/-! ## The XDTs of a stripe (R313, R315, R344) -/

section
variable {s : State} {n m : Nat} {r : ViewRead} {v : View} (find : s.views.find n = some v)
include find

/-- A step of the sending of a stripe's XDTs, where the view stands. -/
theorem State.sendXdts_eq : State.sendXdts n (m + 1) s r =
    let p := r.pkt
    let o := 4096 * r.next
    if xpart p 1 ≤ o then (s, none)
    else
      let k := Nat.min 4096 (xpart p 1 - o)
      let off := p.vaddr.toNat + o
      if (s.viewRemapped v || v.spoiled) && !v.lost then
        let bs := (upto k).map fun i => Config.freeByte (s.free + i)
        let t : State := { s with free := s.free + k }
        State.sendXdts n m ((t.send v.ctx (t.viewHome v off) (r.next % 8) (t.xdt v.ctx p (xpart p 4 + o) 0 bs)).getD t)
          { r with next := r.next + 1 }
      else match s.viewAddr v off k with
        | .error none => (s, some r)
        | .error (some c) =>
          ((if c = cECC then (s.viewWalked v off).readView v off k else s.viewWalked v off).failXrq r.die v.ctx p c, none)
        | .ok pa =>
          let t := (s.viewWalked v off).homeLoad pa k .normal
          let got := if View.live v off then t.softRead pa (t.bytes pa k) else (t.bytes pa k, t)
          State.sendXdts n m ((got.2.send v.ctx (homeDie pa) (r.next % 8) (got.2.xdt v.ctx p (xpart p 4 + o) 0 got.1)).getD got.2)
            { r with next := r.next + 1 } := by
  rw [State.sendXdts, find] <;> rfl

theorem State.sendXdts_done (h : xpart r.pkt 1 ≤ 4096 * r.next) : State.sendXdts n (m + 1) s r = (s, none) := by
  rw [State.sendXdts_eq find]
  exact if_pos h

variable (more : 4096 * r.next < xpart r.pkt 1)
include more

theorem State.sendXdts_free (open_ : v.lost = false) (h : s.viewRemapped v = true ∨ v.spoiled = true) :
    let o := 4096 * r.next
    let k := Nat.min 4096 (xpart r.pkt 1 - o)
    let off := r.pkt.vaddr.toNat + o
    let t : State := { s with free := s.free + k }
    State.sendXdts n (m + 1) s r = State.sendXdts n m ((t.send v.ctx (s.viewHome v off) (r.next % 8)
      (t.xdt v.ctx r.pkt (xpart r.pkt 4 + o) 0 ((List.range k).map fun i => Config.freeByte (s.free + i)))).getD t)
        { r with next := r.next + 1 } := by
  rw [State.sendXdts_eq find]
  dsimp only
  rw [if_neg (Nat.not_le.2 more), if_pos (by simpa [open_] using h), upto_eq_range]
  rfl

variable (sound : v.lost = true ∨ (s.viewRemapped v = false ∧ v.spoiled = false))
include sound

theorem State.sendXdts_reads : State.sendXdts n (m + 1) s r =
    let p := r.pkt
    let o := 4096 * r.next
    let k := Nat.min 4096 (xpart p 1 - o)
    let off := p.vaddr.toNat + o
    match s.viewAddr v off k with
    | .error none => (s, some r)
    | .error (some c) =>
      ((if c = cECC then (s.viewWalked v off).readView v off k else s.viewWalked v off).failXrq r.die v.ctx p c, none)
    | .ok pa =>
      let t := (s.viewWalked v off).homeLoad pa k .normal
      let got := if View.live v off then t.softRead pa (t.bytes pa k) else (t.bytes pa k, t)
      State.sendXdts n m ((got.2.send v.ctx (homeDie pa) (r.next % 8) (got.2.xdt v.ctx p (xpart p 4 + o) 0 got.1)).getD got.2)
        { r with next := r.next + 1 } := by
  have kept : ¬((s.viewRemapped v || v.spoiled) && !v.lost) = true := by
    obtain h | ⟨h, h'⟩ := sound <;> simp [*]
  rw [State.sendXdts_eq find]
  dsimp only
  rw [if_neg (Nat.not_le.2 more), if_neg kept]

theorem State.sendXdts_waits (h : s.viewAddr v (r.pkt.vaddr.toNat + 4096 * r.next) (Nat.min 4096 (xpart r.pkt 1 - 4096 * r.next)) = .error none) :
    State.sendXdts n (m + 1) s r = (s, some r) := by
  rw [State.sendXdts_reads find more sound]
  dsimp only
  rw [h]

theorem State.sendXdts_fails {c : Code} :
    let k := Nat.min 4096 (xpart r.pkt 1 - 4096 * r.next)
    let off := r.pkt.vaddr.toNat + 4096 * r.next
    s.viewAddr v off k = .error (some c) → State.sendXdts n (m + 1) s r =
      ((if c = cECC then (s.viewWalked v off).readView v off k else s.viewWalked v off).failXrq r.die v.ctx r.pkt c, none) := by
  intro k off h
  rw [State.sendXdts_reads find more sound]
  dsimp only
  rw [h]

theorem State.sendXdts_sends {pa : Nat} :
    let o := 4096 * r.next
    let k := Nat.min 4096 (xpart r.pkt 1 - o)
    let off := r.pkt.vaddr.toNat + o
    s.viewAddr v off k = .ok pa →
      let t := (s.viewWalked v off).homeLoad pa k .normal
      let got := if v.state.find (off / 65536) = none then t.softRead pa (t.bytes pa k) else (t.bytes pa k, t)
      State.sendXdts n (m + 1) s r = State.sendXdts n m ((got.2.send v.ctx (homeDie pa) (r.next % 8)
        (got.2.xdt v.ctx r.pkt (xpart r.pkt 4 + o) 0 got.1)).getD got.2) { r with next := r.next + 1 } := by
  intro o k off h t got
  have live : (if View.live v off then t.softRead pa (t.bytes pa k) else (t.bytes pa k, t)) = got :=
    if_congr (by rw [View.live, Option.isNone_iff_eq_none]) rfl rfl
  rw [State.sendXdts_reads find more sound]
  dsimp only
  rw [h]
  dsimp only
  rw [live]

end

/-! ## Where a view's bytes stand (Table 19-11) -/

section
variable {s : State} {v : View} {off n : Nat}

theorem State.viewAddr_lost (h : v.lost = true) : s.viewAddr v off n = .error (some cVIEWLOST) := by
  rw [State.viewAddr]
  exact if_pos h

section
variable (open_ : v.lost = false)
include open_

theorem State.viewAddr_copying {slot : Nat} (h : v.state.find (off / 65536) = some (.copying slot)) : s.viewAddr v off n = .error none := by
  have source : View.source v off = none := by rw [View.source, h]
  rw [State.viewAddr, source]
  exact if_neg (Bool.eq_false_iff.1 open_)

variable {va : W64} (source : View.source v off = some va)
include source

theorem State.viewAddr_open : s.viewAddr v off n =
    if s.walkerWaits v.die v.ctx va then .error none
    else match s.walkAs v.die v.ctx va with
      | .error c => .error (some c)
      | .ok (pa, e, _) =>
        if View.live v off && !rightsOk va e { r := true } false then .error (some cPERM)
        else if s.viewTag v.ctx (v.base + BitVec.ofNat 64 off) pa n then .error (some cTAG)
        else if !s.linked v.die (homeDie pa) then .error (some cREMOTE)
        else if s.bad pa n then .error (some cECC)
        else if s.held pa && !s.homeHit pa n then .error (if s.overdue (stackOf pa) then some cTHERM else none)
        else .ok pa := by
  rw [State.viewAddr, source, if_neg (Bool.eq_false_iff.1 open_)] <;> rfl

theorem State.viewAddr_walks (h : s.walkerWaits v.die v.ctx va = true) : s.viewAddr v off n = .error none := by
  rw [State.viewAddr_open open_ source, if_pos h]

variable (walks : s.walkerWaits v.die v.ctx va = false)
include walks

theorem State.viewAddr_unmapped {c : Code} (h : s.walkAs v.die v.ctx va = .error c) : s.viewAddr v off n = .error (some c) := by
  rw [State.viewAddr_open open_ source, if_neg (Bool.eq_false_iff.1 walks), h]

variable {pa lg : Nat} {e : W64} (mapped : s.walkAs v.die v.ctx va = .ok (pa, e, lg))
include mapped

/-- Bytes that are mapped, by what stops a read of them: rights, tag, link, poison, and their stack. -/
theorem State.viewAddr_mapped :
    let answers := fun (x : Except (Option Code) Nat) => s.viewAddr v off n = x
    let right := v.state.find (off / 65536) = none → rightsOk va e { r := true } false = true
    let tag := s.viewTag v.ctx (v.base + BitVec.ofNat 64 off) pa n
    let far := s.linked v.die (homeDie pa) = false
    let late := s.held pa = true ∧ s.homeHit pa n = false
    (¬right → answers (.error (some cPERM))) ∧ (right → tag = true → answers (.error (some cTAG))) ∧
    (right → tag = false → far → answers (.error (some cREMOTE))) ∧
    (right → tag = false → ¬far → s.bad pa n = true → answers (.error (some cECC))) ∧
    (right → tag = false → ¬far → s.bad pa n = false → late →
      answers (.error (if s.overdue (stackOf pa) then some cTHERM else none))) ∧
    (right → tag = false → ¬far → s.bad pa n = false → ¬late → answers (.ok pa)) := by
  intro answers right tag far late
  have rightIff : (View.live v off && !rightsOk va e { r := true } false) = true ↔ ¬right := by
    simp [View.live, Option.isNone_iff_eq_none, right]
  have farIff : (!s.linked v.die (homeDie pa)) = true ↔ far := by rw [Bool.not_eq_true']
  have lateIff : (s.held pa && !s.homeHit pa n) = true ↔ late := by rw [Bool.and_eq_true, Bool.not_eq_true']
  have order : s.viewAddr v off n =
      if View.live v off && !rightsOk va e { r := true } false then .error (some cPERM)
      else if tag then .error (some cTAG)
      else if !s.linked v.die (homeDie pa) then .error (some cREMOTE)
      else if s.bad pa n then .error (some cECC)
      else if s.held pa && !s.homeHit pa n then .error (if s.overdue (stackOf pa) then some cTHERM else none)
      else .ok pa := by
    rw [State.viewAddr_open open_ source, if_neg (Bool.eq_false_iff.1 walks), mapped]
  refine ⟨fun hr => order.trans ?_, fun hr ht => order.trans ?_, fun hr ht hf => order.trans ?_, fun hr ht hf hb => order.trans ?_,
    fun hr ht hf hb hl => order.trans ?_, fun hr ht hf hb hl => order.trans ?_⟩
  · rw [if_pos (rightIff.2 hr)]
  · rw [if_neg (mt rightIff.1 (not_not_intro hr)), if_pos ht]
  · rw [if_neg (mt rightIff.1 (not_not_intro hr)), if_neg (Bool.eq_false_iff.1 ht), if_pos (farIff.2 hf)]
  · rw [if_neg (mt rightIff.1 (not_not_intro hr)), if_neg (Bool.eq_false_iff.1 ht), if_neg (mt farIff.1 hf), if_pos hb]
  · rw [if_neg (mt rightIff.1 (not_not_intro hr)), if_neg (Bool.eq_false_iff.1 ht), if_neg (mt farIff.1 hf),
      if_neg (Bool.eq_false_iff.1 hb), if_pos (lateIff.2 hl)]
  · rw [if_neg (mt rightIff.1 (not_not_intro hr)), if_neg (Bool.eq_false_iff.1 ht), if_neg (mt farIff.1 hf),
      if_neg (Bool.eq_false_iff.1 hb), if_neg (mt lateIff.1 hl)]

end

/-- Bytes of a chunk that is not being copied are read in the pool, or where they stood. -/
theorem View.source_of_not_copying (h : ∀ slot, v.state.find (off / 65536) ≠ some (.copying slot)) : View.source v off =
    some (match v.state.find (off / 65536) with
      | some (.preserved slot) => v.pool + BitVec.ofNat 64 (65536 * slot + off % 65536)
      | _ => v.base + BitVec.ofNat 64 off) := by
  rw [View.source]
  generalize v.state.find (off / 65536) = r at h
  match r with
  | none => rfl
  | some (.preserved slot) => rfl
  | some (.copying slot) => exact absurd rfl (h slot)

end

/-! ## Landing (Table 19-10a) -/

section
variable {s : State} {d : Nat} {p : Fesel}

theorem State.landingCheck_none (h : s.window p.tctx.toNat (natBits p.aux.toNat 31 24) = none) : s.landingCheck d p = .error cREMOTE := by
  rw [State.landingCheck, h]

section
variable {w : Window} (hw : s.window p.tctx.toNat (natBits p.aux.toNat 31 24) = some w)
include hw

theorem State.landingCheck_closed (h : ¬(w.isOpen = true ∧ w.closing = false)) :
    s.landingCheck d p = .error (if w.byGen then cGEN else cREMOTE) := by
  rw [State.landingCheck, hw]
  exact if_pos (by simpa [imp_iff_not_or] using h)

variable (opens : w.isOpen = true ∧ w.closing = false)
include opens

theorem State.landingCheck_open : s.landingCheck d p =
    if p.gen != w.gen then .error cGEN
    else if p.aux.setWidth 20 != w.lead then .error cPERM
    else if w.len < p.vaddr.toNat + p.payload.length then .error cPERM
    else match s.range d p.tctx.toNat { w := true } false (w.base + p.vaddr) p.payload.length with
      | .error (c, _) => .error c
      | .ok ps =>
        if !s.runs p.tctx.toNat then .error cREMOTE
        else match s.landingFault d p.tctx.toNat w (w.base + p.vaddr) ps with
          | some c => .error c
          | none => .ok ps := by
  rw [State.landingCheck, hw, field_low]
  dsimp only
  rw [if_neg (by simp [opens.1, opens.2])] <;> rfl

theorem State.landingCheck_old (h : p.gen ≠ w.gen) : s.landingCheck d p = .error cGEN := by
  rw [State.landingCheck_open hw opens, if_pos (by simpa using h)]

variable (gen : p.gen = w.gen)
include gen

theorem State.landingCheck_otherLead (h : p.aux.setWidth 20 ≠ w.lead) : s.landingCheck d p = .error cPERM := by
  rw [State.landingCheck_open hw opens, if_neg (by simp [gen]), if_pos (by simpa using h)]

variable (lead : p.aux.setWidth 20 = w.lead)
include lead

theorem State.landingCheck_outside (h : w.len < p.vaddr.toNat + p.payload.length) : s.landingCheck d p = .error cPERM := by
  rw [State.landingCheck_open hw opens, if_neg (by simp [gen]), if_neg (by simp [lead]), if_pos h]

variable (inside : p.vaddr.toNat + p.payload.length ≤ w.len)
include inside

theorem State.landingCheck_inside : s.landingCheck d p =
    match s.range d p.tctx.toNat { w := true } false (w.base + p.vaddr) p.payload.length with
      | .error (c, _) => .error c
      | .ok ps =>
        if !s.runs p.tctx.toNat then .error cREMOTE
        else match s.landingFault d p.tctx.toNat w (w.base + p.vaddr) ps with
          | some c => .error c
          | none => .ok ps := by
  rw [State.landingCheck_open hw opens, if_neg (by simp [gen]), if_neg (by simp [lead]), if_neg (Nat.not_lt.2 inside)]

theorem State.landingCheck_unmapped {c : Code} {a : W64}
    (h : s.range d p.tctx.toNat { w := true } false (w.base + p.vaddr) p.payload.length = .error (c, a)) :
    s.landingCheck d p = .error c := by
  rw [State.landingCheck_inside hw opens gen lead inside, h]

variable {ps : List (Nat × Nat)} (range : s.range d p.tctx.toNat { w := true } false (w.base + p.vaddr) p.payload.length = .ok ps)
include range

theorem State.landingCheck_stopped (h : s.runs p.tctx.toNat = false) : s.landingCheck d p = .error cREMOTE := by
  rw [State.landingCheck_inside hw opens gen lead inside, range]
  exact if_pos (by simp [h])

variable (runs : s.runs p.tctx.toNat = true)
include runs

theorem State.landingCheck_faults {c : Code} (h : s.landingFault d p.tctx.toNat w (w.base + p.vaddr) ps = some c) :
    s.landingCheck d p = .error c := by
  rw [State.landingCheck_inside hw opens gen lead inside, range]
  dsimp only
  rw [if_neg (by simp [runs]), h]

theorem State.landingCheck_lands (h : s.landingFault d p.tctx.toNat w (w.base + p.vaddr) ps = none) : s.landingCheck d p = .ok ps := by
  rw [State.landingCheck_inside hw opens gen lead inside, range]
  dsimp only
  rw [if_neg (by simp [runs]), h]

end

/-- A landing that is discarded is counted, and its stripe's first gives an XER. -/
theorem State.discardXdt_counts (code : Code) :
    let ctx := p.tctx.toNat
    let n := natBits p.aux.toNat 31 24
    let w := (s.window ctx n).getD {}
    let x := s.landing ctx w p
    let t := s.modWindow ctx n fun w => ({ w with discarded := if w.isOpen then satInc w.discarded else w.discarded }).put
      { x with xer := true }
    (x.xer = true → s.discardXdt d p code = t) ∧
    (x.xer = false → s.discardXdt d p code = t.answer ctx d
      { t.fesel ctx (p.comm.toNat % 64) 0x0A x.lead with fid := x.fid, aux := BitVec.ofNat 32 x.stripe, code := code }) :=
  ⟨fun h => if_pos h, fun h => if_neg (Bool.eq_false_iff.1 h)⟩

section
variable {w : Window} (hw : (s.window p.tctx.toNat (natBits p.aux.toNat 31 24)).getD {} = w)
include hw

theorem State.onXdt_waits (h : w.isOpen = true ∧ s.rangeWaits d p.tctx.toNat (w.base + p.vaddr) p.payload.length = true) :
    s.onXdt d p = s.waitPacket d p := by
  subst hw
  rw [State.onXdt]
  exact if_pos (by rw [Bool.and_eq_true]; exact h)

variable (goes : ¬(w.isOpen = true ∧ s.rangeWaits d p.tctx.toNat (w.base + p.vaddr) p.payload.length = true))
include goes

theorem State.onXdt_goes : s.onXdt d p =
    let u := s.rangeWalked d p.tctx.toNat (w.base + p.vaddr) p.payload.length
    match s.landingCheck d p with
    | .error c => u.discardXdt d p c
    | .ok ps =>
      let v := u.modWindow p.tctx.toNat (natBits p.aux.toNat 31 24) fun y => y.put (u.landing p.tctx.toNat w p)
      if p.code != 0 && p.payload.isEmpty then v.windowBar p.tctx.toNat w Barrier.poisoned else v.landXdt d p w ps := by
  subst hw
  rw [State.onXdt]
  dsimp only
  rw [if_neg (by rw [Bool.and_eq_true]; exact goes)] <;> rfl

theorem State.onXdt_discards {c : Code} (h : s.landingCheck d p = .error c) :
    s.onXdt d p = (s.rangeWalked d p.tctx.toNat (w.base + p.vaddr) p.payload.length).discardXdt d p c := by
  rw [State.onXdt_goes hw goes, h]

variable {ps : List (Nat × Nat)} (lands : s.landingCheck d p = .ok ps)
include lands

theorem State.onXdt_poisons (hc : p.code ≠ 0) (hp : p.payload = []) :
    let u := s.rangeWalked d p.tctx.toNat (w.base + p.vaddr) p.payload.length
    s.onXdt d p = (u.modWindow p.tctx.toNat (natBits p.aux.toNat 31 24) fun y => y.put (u.landing p.tctx.toNat w p)).windowBar
      p.tctx.toNat w Barrier.poisoned := by
  rw [State.onXdt_goes hw goes, lands]
  exact if_pos (by simpa [hp] using hc)

theorem State.onXdt_lands (h : p.code = 0 ∨ p.payload ≠ []) :
    let u := s.rangeWalked d p.tctx.toNat (w.base + p.vaddr) p.payload.length
    s.onXdt d p = (u.modWindow p.tctx.toNat (natBits p.aux.toNat 31 24) fun y => y.put (u.landing p.tctx.toNat w p)).landXdt d p w ps := by
  rw [State.onXdt_goes hw goes, lands]
  refine if_neg ?_
  obtain h | h := h <;> simp [h]

end

theorem State.xdtLanded_fails {y : Ingress} (h : y.code ≠ 0) : s.xdtLanded d y = s.discardXdt d y.pkt y.code := by
  rw [State.xdtLanded]
  exact if_pos (by simpa using h)

theorem State.xdtLanded_counts {y : Ingress} (h : y.code = 0) :
    let p := y.pkt
    let ctx := p.tctx.toNat
    let n := natBits p.aux.toNat 31 24
    let w := (s.window ctx n).getD {}
    let x := { s.landing ctx w p with got := (s.landing ctx w p).got + p.payload.length }
    w.isOpen = true → w.gen = p.gen → s.xdtLanded d y =
      ((s.modWindow ctx n fun w => w.put x).windowBar ctx w fun b => b.land p.payload.length x.epoch).stripeLanded ctx n x := by
  intro p ctx n w x hw hg
  rw [State.xdtLanded]
  dsimp only
  rw [if_neg (by simp [h])]
  refine if_neg ?_
  rw [Bool.or_eq_true, Bool.not_eq_true', bne_iff_ne]
  rintro (off | other)
  · exact absurd hw (Bool.eq_false_iff.1 off)
  · exact other hg

section
variable {ctx n : Nat} {x : Landing}

theorem State.stripeLanded_waits (h : x.got < x.len ∨ x.xcn = true) : s.stripeLanded ctx n x = s := by
  rw [State.stripeLanded]
  exact if_pos (by simpa using h)

theorem State.stripeLanded_ends (h : x.len ≤ x.got) (hx : x.xcn = false) {w : Window} (hw : s.window ctx n = some w) :
    let t := s.modWindow ctx n fun w => w.put { x with xcn := true }
    s.stripeLanded ctx n x = t.answer ctx (dieOf w.core)
      { t.fesel ctx w.comm 0x09 x.lead with fid := x.fid, aux := BitVec.ofNat 32 x.stripe } := by
  rw [State.stripeLanded, if_neg (by simp [Nat.not_lt.2 h, hx]), hw]

end

end

/-- Settles O49: each timer by the counter of die 0, and each packet by the first check that it meets. -/
theorem cadenceAndStripes : Obligations.CadenceAndStripes := by
  refine ⟨⟨fun s ctx me x cad self => ⟨exec_heartbeatTimer_early cad self, exec_heartbeatTimer_beats cad self⟩,
      fun ring i hi nd r => monitorsOf_ring hi nd,
      fun s ctx rank me x dev w cad self device find => ⟨exec_suspicion_early cad device find self,
        exec_suspicion_probes cad device find self, fun t sus asked => ⟨exec_probeTimeout_early cad device find sus,
          exec_probeTimeout_ends cad device find sus asked⟩⟩,
      fun s d written => ⟨exec_stripeIssue_stops written, fun h j => exec_stripeIssue_issues written h⟩, fun s => rfl,
      fun s n k => rfl, fun s n k slot p q lg e v ok hv hk walk pool => ?copied⟩,
    ⟨fun s ctx kind dst aux xs => rfl, fun s d => State.cadenceDie_first, fun s ctx dev x => State.leadFor_lowest,
      fun s ctx dev w => ⟨State.sendVote_none, fun x => State.sendVote_lead, rfl⟩, fun s d p => State.cadence_off d,
      fun s d p x cad => ⟨State.onHeartbeat_hears cad d, State.onProbe_answers cad d, State.onProbe_asks cad d,
        fun w => State.onProbeReply_alive cad d, State.onProbeReply_passes cad d, State.onVote_withdraws cad d,
        fun h m => (State.onVote_eq cad d h).trans (if_neg m), fun h m => (State.onVote_eq cad d h).trans (if_pos m)⟩,
      fun s ctx x cad => ⟨State.tryVerdict_unripe cad, State.tryVerdict_given cad, fun h y rest before => State.tryVerdict_sends cad h⟩,
      fun s d p => ⟨fun k hk => ⟨(State.onVerdict_blocks d hk _).2 (.inl rfl), fun y hy => (State.onVerdict_blocks d hk y).trans (or_iff_right hy)⟩,
        fun x => State.onVerdict_context d⟩⟩,
    fun s d j => ⟨State.issueStripe_old, State.issueStripe_cut, fun h fid t => State.issueStripe_sent h⟩,
    fun s d p => State.onGrant_grants p, fun s d ctx p code => rfl,
    fun s d p => ⟨State.onXrq_none, fun v hv => ⟨State.onXrq_unadmitted hv, fun hc hs hr => ⟨State.onXrq_ungranted hv hc hs hr,
      fun g => State.onXrq_otherLead hv hc hs hr, fun g => State.onXrq_old hv hc hs hr, fun g => State.onXrq_reads hv hc hs hr⟩⟩⟩,
    fun s n m r v find => ⟨State.sendXdts_done find, State.sendXdts_free find, fun more sound => ⟨State.sendXdts_waits find more sound,
      fun c => State.sendXdts_fails find more sound, fun pa => State.sendXdts_sends find more sound⟩⟩,
    fun s v off n => ⟨State.viewAddr_lost, fun open_ slot => State.viewAddr_copying open_, fun open_ h => ?stands⟩,
    fun s d p => ⟨State.landingCheck_none, fun w hw => ⟨State.landingCheck_closed hw, State.landingCheck_old hw,
      State.landingCheck_otherLead hw, fun opens gen lead => ⟨State.landingCheck_outside hw opens gen lead,
        fun inside => ⟨fun c a => State.landingCheck_unmapped hw opens gen lead inside,
          fun ps range => ⟨State.landingCheck_stopped hw opens gen lead inside range,
            fun runs => ⟨fun c => State.landingCheck_faults hw opens gen lead inside range runs,
              State.landingCheck_lands hw opens gen lead inside range runs⟩⟩⟩⟩⟩⟩,
    fun s d p code => State.discardXdt_counts code,
    fun s d p => ⟨State.onXdt_waits rfl, fun goes => ⟨fun c => State.onXdt_discards rfl goes,
      fun ps lands => ⟨State.onXdt_poisons rfl goes lands, State.onXdt_lands rfl goes lands⟩⟩⟩,
    fun s d y => ⟨State.xdtLanded_fails, State.xdtLanded_counts⟩,
    fun s ctx n x => ⟨State.stripeLanded_waits, fun h hx w => State.stripeLanded_ends h hx⟩,
    fun s d p => ⟨State.onStripeEnd_none, fun x rest before => State.onStripeEnd_first⟩,
    fun s d x code j hj t u => State.endStripe_written hj⟩
  case copied =>
    have okRead : (s.chunkRead n k slot p v).MemOk := State.MemOk.chunkRead ok
    obtain ⟨memOk, symbolsOk, -⟩ := okRead
    rw [State.chunkCopied_copies hv hk walk pool]
    exact ⟨State.chunkRead_views, fun _ a => copyRange_get memOk p q 65536 a, fun _ _ g => copyGranules_get symbolsOk p q g⟩
  case stands =>
    have source := View.source_of_not_copying h
    exact ⟨State.viewAddr_walks open_ source, fun walks c => State.viewAddr_unmapped open_ source walks,
      fun walks pa e lg => State.viewAddr_mapped open_ source walks⟩

end Sys2Proof.Machine

/-! PROOFS of the statements of 19_fabric_memory_devices.md: what fails the accesses that wait for a stack keeps the package's form. -/
namespace Sys2Proof.Machine

section
variable {s t : State} (c slot : Nat)

theorem SameBut.form (h : SameBut s t) : t.form = s.form := (congrArg State.form (show _ = s from h) :)

/-- A fold of operations that keep the form keeps it. -/
theorem form_foldl {α : Type} {f : State → α → State} (kept : ∀ s x, (f s x).form = s.form) (xs : List α) (s : State) :
    (xs.foldl f s).form = s.form := by
  induction xs generalizing s with
  | nil => rfl
  | cons x xs ih => exact (ih _).trans (kept s x)

@[simp] theorem State.postEvents_form (ev : List DevEvent) : (s.postEvents ev).form = s.form := (s.postEvents_same ev).form

@[simp] theorem State.readArray_form (pa n : Nat) : (s.readArray pa n).form = s.form := (s.readArray_same pa n).form

@[simp] theorem State.homeStore_form (pa : Nat) (bs : List Byte) (po : Policy) : (s.homeStore pa bs po).form = s.form :=
  (s.homeStore_same pa bs po).form

@[simp] theorem State.accessEnded_form (id lane : Nat) (pc : W64) (data : Bool) :
    (s.accessEnded c slot id lane pc data).form = s.form := rfl

@[simp] theorem State.arrive_form (lane : Nat) (d : Dest) (x : Nat) (ok : Bool) : (s.arrive c slot lane d x ok).form = s.form := rfl

@[simp] theorem State.acquire_form (sc : Scope) : (s.acquire c sc).form = s.form := by
  unfold State.acquire
  split <;> split <;> rfl

@[simp] theorem State.softAccess_form (pa n : Nat) : (s.softAccess pa n).form = s.form := by
  unfold State.softAccess
  split <;> rfl

@[simp] theorem State.softRead_form (pa : Nat) (bs : List Byte) : (s.softRead pa bs).2.form = s.form := by
  unfold State.softRead
  split <;> exact State.softAccess_form ..

@[simp] theorem State.deliver_form (d : Deliv) : (s.deliver c slot d).form = s.form := by
  unfold State.deliver
  dsimp only
  split
  · exact (State.groupRecord_same ..).form
  · rfl

/-! ## The link -/

@[simp] theorem State.pumpN_form (x : StreamId) (fuel : Nat) : (State.pumpN x fuel s).form = s.form := by
  induction fuel generalizing s with
  | zero => rfl
  | succ fuel ih =>
    unfold State.pumpN
    dsimp only
    split
    · rfl
    · exact ih

theorem State.sendPacket_form {sender m : Nat} {p : Pkt} {data : List (BitVec 128)} (h : s.sendPacket sender m p data = some t) :
    t.form = s.form := by
  obtain ⟨x, -, rfl⟩ := Option.map_eq_some_iff.1 h
  exact State.pumpN_form x 64

theorem State.request_form {src : Nat} {w : DlFor} {p : Pkt} {data : List (BitVec 128)} {rid : Nat}
    (h : s.request src w p data = some (rid, t)) : t.form = s.form := by
  unfold State.request at h
  dsimp only at h
  split at h
  · cases h
  next sent =>
    cases h
    have kept := State.sendPacket_form sent
    rw [State.modDie_form, kept]
    rfl

/-! ## Loads -/

@[simp] theorem State.fillNear_form (x : CLine) (l1 rdc : Bool) (po : Policy) (n : Nat) : (s.fillNear c x l1 rdc po n).form = s.form := by
  unfold State.fillNear
  dsimp only
  split
  · rfl
  · split <;> split <;> rfl

@[simp] theorem State.servedNear_form (sc : Scope) (po : Policy) (x : CLine) (l1 : Bool) : (s.servedNear c sc po x l1).form = s.form := by
  unfold State.servedNear
  split
  · rfl
  · exact State.fillNear_form ..

@[simp] theorem State.loadDone_form (r : LoadReq) (x : Nat) : (s.loadDone c slot r x).form = s.form := by
  unfold State.loadDone
  dsimp only
  split
  · rw [State.acquire_form]; exact State.softRead_form ..
  · exact State.softRead_form ..

@[simp] theorem State.loadFail_form (r : LoadReq) (code : Code) : (s.loadFail c slot r code).form = s.form :=
  State.deliver_form ..

@[simp] theorem State.homeLoadIn_form (pa n : Nat) (b : Nat × Nat) (po : Policy) : (s.homeLoadIn pa n b po).form = s.form :=
  (State.postEvents_form _).trans (State.fetchIn_same ..).form

@[simp] theorem State.homeLoad_form (pa n : Nat) (po : Policy) : (s.homeLoad pa n po).form = s.form := State.homeLoadIn_form ..

@[simp] theorem State.serveFarther_form (line : Nat) : (s.serveFarther c line).form = s.form := rfl

@[simp] theorem State.serveHome_form (r : LoadReq) (fw : List Fwd) (l1 : Bool) : (s.serveHome c slot r fw l1).form = s.form := by
  unfold State.serveHome
  dsimp only
  repeat' split
  all_goals simp

@[simp] theorem State.serveLoad_form (r : LoadReq) : (s.serveLoad c slot r).form = s.form := by
  unfold State.serveLoad
  dsimp only
  split
  · rfl
  split
  · exact State.loadDone_form ..
  split
  · split
    · exact State.loadFail_form ..
    · rw [State.loadDone_form, State.servedNear_form]
  split
  · exact State.serveHome_form ..
  split
  · exact State.loadFail_form ..
  next sent =>
    have kept := State.request_form sent
    exact kept

/-! ## Stores -/

@[simp] theorem State.dropStore_form (id : Nat) : (s.dropStore c slot id).form = s.form := by
  unfold State.dropStore
  split <;> rfl

@[simp] theorem State.storeFail_form (q : StoreReq) (code : Code) : (s.storeFail c slot q code).form = s.form :=
  (State.deliver_form ..).trans (State.dropStore_form ..)

@[simp] theorem State.storeDone_form (q : StoreReq) (m : W64) : (s.storeDone c slot q m).form = s.form := by
  unfold State.storeDone
  dsimp only
  split
  · split <;> simp
  · simp

@[simp] theorem State.startCopies_form (pa : Nat) : (s.startCopies pa).form = s.form :=
  form_foldl (fun s x => (State.postEvents_form _).trans (s.chunkWrite_same x).form) _ s

@[simp] theorem State.dropNear_form (line : Nat) : (s.dropNear c line).form = s.form := by
  unfold State.dropNear
  dsimp only
  split <;> rfl

@[simp] theorem State.homeStoreIn_form (pa : Nat) (bs : List Byte) (po : Policy) (full : BitVec 4) :
    (s.homeStoreIn pa bs po full).form = s.form :=
  (form_foldl (fun s _ => (s.homeTouch_same _ _ _ _).form) _ _).trans
    ((State.putMem_same _ pa bs).form.trans (s.fillStore_same pa bs.length full).form)

@[simp] theorem State.homeTag_form (pa : Nat) (g : BitVec 4) (zero : Bool) : (s.homeTag pa g zero).form = s.form := by
  unfold State.homeTag
  dsimp only
  split
  · exact State.homeStore_form ..
  · exact (State.postEvents_form _).trans (s.preserve_same pa).form

@[simp] theorem State.homeAtomic_form (pa : Nat) (o : AtomOp) (b : Nat × Nat) (po : Policy) :
    (s.homeAtomic pa o b po).2.form = s.form := (State.homeStore_form ..).trans (State.homeLoadIn_form ..)

@[simp] theorem State.performHome_form (q : StoreReq) : (s.performHome c slot q).1.form = s.form := by
  unfold State.performHome
  dsimp only
  split
  · exact State.homeStoreIn_form ..
  · exact State.homeTag_form ..
  · exact State.homeAtomic_form ..
  · rfl
  · rfl
  · exact State.homeStore_form ..

@[simp] theorem State.performStore_form (q : StoreReq) : (s.performStore c slot q).form = s.form := by
  unfold State.performStore
  dsimp only
  have near : (if q.kind = .writeback then s else s.dropNear c (q.acc.pa / 128)).form = s.form := by
    split
    · rfl
    · exact State.dropNear_form ..
  split
  · rfl
  split
  · split
    · exact State.storeFail_form ..
    next sent =>
      have kept := State.request_form sent
      exact kept.trans near
  split
  · exact State.storeFail_form ..
  split
  · split
    · exact State.storeFail_form ..
    · rfl
  split
  · rw [State.storeFail_form]
    split
    · exact State.readArray_form ..
    · rfl
  split
  · rfl
  split
  · exact State.startCopies_form ..
  · rw [State.storeDone_form, State.performHome_form]
    split
    · rfl
    · rw [State.dropNear_form, State.startCopies_form]

/-! ## Engines -/

@[simp] theorem State.engFault_form (k : Cmd) (f : FaultRec) : (s.engFault c k f).form = s.form := State.deliver_form ..

@[simp] theorem State.opFault_form (place : Nat) (o : MOp) (accs : List Nat) (f : FaultRec) :
    (s.opFault c place o accs f).form = s.form := by
  unfold State.opFault
  dsimp only
  split
  · exact (State.record_same ..).form
  · exact State.deliver_form ..

/-! ## The accesses that wait for a stack -/

theorem State.failLoads_form (n : Nat) : (s.failLoads n c slot).form = s.form := by
  refine form_foldl (fun s r => ?_) _ s
  split
  · exact State.serveLoad_form ..
  · rfl

theorem State.failStores_form (n : Nat) : (s.failStores n c slot).form = s.form := by
  refine form_foldl (fun s q => ?_) _ s
  split
  · rfl
  split
  · exact State.performStore_form ..
  split
  · rfl
  · exact State.deliver_form ..

theorem State.failCmds_form (n : Nat) : (s.failCmds n c).form = s.form := by
  refine form_foldl (fun s k => ?_) _ s
  split
  · rfl
  split
  · rfl
  · exact State.engFault_form ..

theorem State.failMsta_form (n place : Nat) : (s.failMsta n c place).form = s.form := by
  unfold State.failMsta
  split
  · rfl
  split
  · rfl
  split
  · rfl
  · exact State.opFault_form ..

/-- What a core holds that waits for a stack fails (R326). -/
def State.failCore (n : Nat) (s : State) (x : Nat × Core) : State :=
  x.2.teams.keys.foldl (fun s p => s.failMsta n x.1 p)
    ((x.2.groups.keys.foldl (fun s slot => (s.failLoads n x.1 slot).failStores n x.1 slot) s).failCmds n x.1)

theorem State.failCore_form (n : Nat) (x : Nat × Core) : (s.failCore n x).form = s.form := by
  rw [State.failCore, form_foldl fun s p => s.failMsta_form x.1 n p, State.failCmds_form, form_foldl]
  exact fun s slot => (State.failStores_form ..).trans (State.failLoads_form ..)

theorem State.failCores_dieCount (n : Nat) : (s.cores.foldl (State.failCore n) s).dieCount = s.dieCount := by
  rw [State.dieCount, form_foldl fun s x => s.failCore_form n x, State.dieCount]

theorem exec_th3Timeout_fails {n : Nat} (h : s.overdue n = true) :
    exec (.th3Timeout n) s =
      .next (((upto s.dieCount).foldl (fun t d => t.failStripes n d) (s.cores.foldl (State.failCore n) s)).serveViews.collsGo) := by
  rw [exec_th3Timeout, execTh3Timeout, if_neg (by simp [h]), ← State.failCores_dieCount n]
  rfl

end

end Sys2Proof.Machine

/-! PROOFS of the statements of 19_fabric_memory_devices.md: codewords, scrubs and temperatures of the stacks, and what Nopol root sets in
the devices (R292, R303, R305, R308, R311, R320 to R326, R371). -/

namespace Sys2Proof.Machine

/-! ## Codewords (R320) -/

theorem rsStep_length {r : List Byte} (h : r.length = 14) (x : Byte) : (rsStep r x).length = 14 := by
  have gen : (rsGen.drop 1).length = 14 := by decide
  rw [rsStep, List.length_zipWith, gen, List.length_append, List.length_drop, h]
  rfl

theorem rsCheck_length (msg : List Byte) : (rsCheck msg).length = 14 := by
  have fold : ∀ {r : List Byte}, r.length = 14 → (msg.foldl rsStep r).length = 14 := by
    induction msg with
    | nil => exact id
    | cons x msg ih => exact fun h => ih (rsStep_length h x)
  exact fold (List.length_replicate ..)

theorem rsCheck_append (msg : List Byte) (x : Byte) : rsCheck (msg ++ [x]) = rsStep (rsCheck msg) x := by
  rw [rsCheck, List.foldl_append, List.foldl_cons, List.foldl_nil, rsCheck]

theorem rsEncode_of_length {bs : List Byte} (h : bs.length = 64) (m : BitVec 5) :
    rsEncode bs m = bs ++ [m.zeroExtend 8, 0] ++ rsCheck (bs ++ [m.zeroExtend 8, 0]) := by
  rw [rsEncode, padTo_of_le h.le, h, Nat.sub_self, List.replicate_zero, List.append_nil]

/-! ## Temperatures (R324 to R326) -/

/-- A stack at a temperature: the actions of Table 19-13 that start, go on or end there. -/
def Stack.warmed (k : Stack) (now : Nat) (temp : Int) : Stack :=
  { k with
    temp := temp
    th1 := decide (85 ≤ temp) || (k.th1 && decide (82 < temp))
    th2 := decide (95 ≤ temp) || (k.th2 && decide (92 < temp))
    th3 := if decide (105 ≤ temp) || (k.th3.isSome && decide (95 ≤ temp)) then some (k.th3.getD now) else none }

section
variable (k : Stack) (now : Nat) (temp : Int)

theorem Stack.warmed_th1 : (k.warmed now temp).th1 = true ↔ 85 ≤ temp ∨ k.th1 = true ∧ 82 < temp := by simp [Stack.warmed]

theorem Stack.warmed_th2 : (k.warmed now temp).th2 = true ↔ 95 ≤ temp ∨ k.th2 = true ∧ 92 < temp := by simp [Stack.warmed]

theorem Stack.warmed_th3_isSome : (k.warmed now temp).th3.isSome = (decide (105 ≤ temp) || (k.th3.isSome && decide (95 ≤ temp))) := by
  rw [Stack.warmed]
  split
  · next hot => exact hot.symm
  · next cool => exact (Bool.eq_false_of_not_eq_true cool).symm

variable {k now temp}

theorem Stack.warmed_reaches (h : k.th3 = none) (ht : 105 ≤ temp) : (k.warmed now temp).th3 = some now := by simp [Stack.warmed, h, ht]

theorem Stack.warmed_keeps {a : Nat} (h : k.th3 = some a) (ht : 95 ≤ temp) : (k.warmed now temp).th3 = some a := by
  simp [Stack.warmed, h, ht]

end

theorem State.stack_modStack_ne {s : State} {n m : Nat} (f : Stack → Stack) (h : m ≠ n) : (s.modStack n f).stack m = s.stack m :=
  SMap.get_set_ne _ _ _ _ _ h

section
variable {s : State} {n : Nat} {temp : Int}

theorem exec_thermalThresholdCrossing_next (h : n < 2 * s.dieCount) :
    let k := s.stack n
    let u := s.modStack n fun k => k.warmed (s.die (n / 2)).cycle temp
    let v := ((u.crossing n (k.th1 != (u.stack n).th1)).crossing n (k.th2 != (u.stack n).th2)).crossing n
      (k.th3.isSome != (u.stack n).th3.isSome)
    exec (.thermalThresholdCrossing n temp) s = .next (if k.th3.isSome = true ∧ (u.stack n).th3 = none then v.recover n else v) := by
  dsimp only
  have left : ((s.stack n).th3.isSome = true ∧ ((s.stack n).warmed (s.die (n / 2)).cycle temp).th3 = none) ↔
      ((s.stack n).th3.isSome && !(decide (105 ≤ temp) || ((s.stack n).th3.isSome && decide (95 ≤ temp)))) = true := by
    rw [← Stack.warmed_th3_isSome _ (s.die (n / 2)).cycle, Bool.and_eq_true, Bool.not_eq_true', Option.isSome_eq_false_iff,
      Option.isNone_iff_eq_none]
  rw [exec_thermalThresholdCrossing, execThermalThresholdCrossing, if_neg (Nat.not_le.2 h), State.stack_modStack, Stack.warmed_th3_isSome,
    if_congr left rfl rfl]
  rfl

/-! ## Scrubs (R321, R322) -/

theorem exec_scrub_reads {g : Nat} (hn : stackOf (64 * g) = n) (hb : s.backed (64 * g) = true) (hh : s.held (64 * g) = false)
    (hu : s.uncorrectable g = false ∨ (s.homeHit (64 * g) 32 = false ∧ s.homeHit (64 * g + 32) 32 = false)) :
    exec (.scrub n g) s = .next (s.readGranules [g]) := by
  have readable : (s.uncorrectable g && (s.homeHit (64 * g) 32 || s.homeHit (64 * g + 32) 32)) = false := by
    obtain h | ⟨h, h'⟩ := hu
    · rw [h, Bool.false_and]
    · rw [h, h', Bool.or_self, Bool.and_false]
  rw [exec_scrub, execScrub, if_neg (by simp [hn, hb, hh, readable])]

theorem exec_scrub_passes {g : Nat} (h : stackOf (64 * g) ≠ n ∨ s.backed (64 * g) = false ∨ s.held (64 * g) = true ∨
    (s.uncorrectable g = true ∧ (s.homeHit (64 * g) 32 = true ∨ s.homeHit (64 * g + 32) 32 = true))) :
    exec (.scrub n g) s = .next s := by
  rw [exec_scrub, execScrub, if_pos]
  simpa only [Bool.or_eq_true, bne_iff_ne, Bool.not_eq_true', Bool.and_eq_true, or_assoc] using h

end

/-! ## Masters (R371) -/

theorem mem_setIn_true {n m : Nat} {xs : List Nat} : m ∈ setIn true n xs ↔ m = n ∨ m ∈ xs := mem_insertNat

theorem mem_setIn_false {n m : Nat} {xs : List Nat} : m ∈ setIn false n xs ↔ m ∈ xs ∧ m ≠ n := by simp [setIn]

theorem SMap.mem_put_self {α : Type} (m : SMap α) (i : Nat) (x : α) : (i, x) ∈ m.put i x := by
  induction m with
  | nil => exact List.mem_singleton.2 rfl
  | cons a m ih =>
    rw [SMap.put]
    split
    · exact List.mem_cons_self
    · split
      · exact List.mem_cons_self
      · exact List.mem_cons_of_mem _ ih

theorem State.isFrozen_setFrozen (s : State) (b : Bool) (u : EngineUnit) : (s.setFrozen b u).isFrozen u = b := by
  have set : ∀ n xs, (setIn b n xs).contains n = b := fun n xs => by
    cases b
    · exact Bool.eq_false_iff.2 fun h => (mem_setIn_false.1 (List.contains_iff_mem.1 h)).2 rfl
    · exact List.contains_iff_mem.2 (mem_setIn_true.2 (.inl rfl))
  cases u with
  | copy d n => rw [State.setFrozen, State.isFrozen, State.die_modDie, set]
  | gather k => rw [State.setFrozen, State.isFrozen, State.die_modDie, set]
  | join d => rw [State.setFrozen, State.isFrozen, State.die_modDie]
  | agent c => rw [State.setFrozen, State.isFrozen, State.core_modCore]
  | matrix c => rw [State.setFrozen, State.isFrozen, State.core_modCore]
  | ingress x =>
    rw [State.setFrozen]
    cases b with
    | true =>
      refine List.any_eq_true.2 ⟨_, SMap.mem_put_self .., List.any_eq_true.2 ⟨(x, 0), ?_, beq_self_eq_true x⟩⟩
      exact List.mem_append_right _ (List.mem_singleton.2 rfl)
    | false =>
      refine Bool.eq_false_iff.2 fun h => ?_
      obtain ⟨_, hd, hf⟩ := List.any_eq_true.1 h
      obtain ⟨_, _, rfl⟩ := List.mem_map.1 hd
      obtain ⟨y, hy, is⟩ := List.any_eq_true.1 hf
      exact absurd is (by simpa using (List.mem_filter.1 hy).2)

section
variable {s : State}

theorem State.die_wake (d : Nat) : s.wake.die d = s.die d := by rw [State.wake]; split <;> rfl

theorem State.wake_power : s.wake.power = s.power := by rw [State.wake]; split <;> rfl

/-- An armed join engine calls the package out of a state deeper than L1. -/
theorem joinArm_wakes (b : Bool) : (if b && s.power != .l0 && s.power != .l1 then s.wake else s).waking = true ↔
    s.waking = true ∨ b = true ∧ s.power ≠ .l0 ∧ s.power ≠ .l1 := by
  split
  · next deep =>
    simp only [Bool.and_eq_true, bne_iff_ne, and_assoc] at deep
    rw [State.wake, if_neg deep.2.1]
    exact iff_of_true rfl (.inr deep)
  · next stays =>
    simp only [Bool.and_eq_true, bne_iff_ne, and_assoc] at stays
    exact (or_iff_left stays).symm

end

section
variable {s : State} {u : EngineUnit} {b : Bool}

theorem exec_masterFreeze_same (h : s.isFrozen u = b) : exec (.masterFreeze u b) s = .next s := by
  rw [exec_masterFreeze, execMasterFreeze, if_pos (by simp [h])]

theorem exec_masterFreeze_sets (hu : s.hasUnit u = true) (hr : s.rootAlive = true) (h : s.isFrozen u ≠ b) :
    exec (.masterFreeze u b) s = .next (if b then (s.setFrozen true u).frozenRecord u else s.setFrozen false u) := by
  rw [exec_masterFreeze, execMasterFreeze, if_neg (by simp [hu, hr, h])]

end

/-- Settles O57: the code by the length and recursion of its division, the temperatures by the stack that they leave, and each setting of
Nopol root by what it writes. -/
theorem stacksAndDevices : Obligations.StacksAndDevices := by
  refine ⟨⟨fun bs m h => ?codeword, ⟨by decide, by decide, ?roots⟩, ?products, rsCheck_append, fun s g h => ?stored,
    fun s n g => exec_scrub_reads, fun s n g => exec_scrub_passes, fun s n temp h => ?thermal, fun s n temp h => ?absent,
    fun s n h => ?early, fun s n h => ?fails⟩, fun s u hu hr => ⟨fun h => ?freezes, fun h => ?unfreezes, fun b => exec_masterFreeze_same,
      State.isFrozen_setFrozen .., State.isFrozen_setFrozen ..⟩, fun s d port hd hp => ?ports, fun s d x hd hr => ?unblocks,
    fun s ctx n r x hn hr hx => ?stages, fun s d b hd hr => ?arms, fun s d ctx n u x r b => ⟨fun h => ?noRoot, fun h => ?noRootThere⟩⟩
  case codeword =>
    rw [rsEncode_of_length h]
    refine ⟨rfl, ?_⟩
    rw [List.length_append, rsCheck_length, List.length_append, h]
    rfl
  case roots => decide +kernel
  case products => decide +kernel
  case stored => rw [State.codeword, h, List.foldl_nil]
  case thermal =>
    refine ⟨s.modStack n fun k => k.warmed (s.die (n / 2)).cycle temp, exec_thermalThresholdCrossing_next h, rfl,
      fun m hm => State.stack_modStack_ne _ hm, ?_⟩
    rw [State.stack_modStack]
    exact ⟨rfl, Stack.warmed_th1 .., Stack.warmed_th2 .., by simp [Stack.warmed_th3_isSome], Stack.warmed_reaches,
      fun a => Stack.warmed_keeps⟩
  case absent => rw [exec_thermalThresholdCrossing, execThermalThresholdCrossing, if_pos h]
  case early => rw [exec_th3Timeout, execTh3Timeout, h]; rfl
  case fails => exact exec_th3Timeout_fails h
  case freezes => rw [exec_masterFreeze_sets hu hr (by simp [h]), if_pos rfl]
  case unfreezes => rw [exec_masterFreeze_sets hu hr (by simp [h])]; rfl
  case ports =>
    have here : ¬((decide (s.dieCount ≤ d) || decide (8 ≤ port)) = true) := by simp [hd, hp]
    refine ⟨⟨_, by rw [exec_feselPortDown, execFeselPortDown, if_neg here], ?_⟩, ⟨_, by rw [exec_feselPortUp, execFeselPortUp, if_neg here], ?_⟩⟩
    · rw [State.die_modDie]
      exact ⟨mem_setIn_true.2 (.inl rfl), fun p hp => mem_setIn_true.trans (or_iff_right hp)⟩
    · rw [State.die_modDie]
      exact ⟨fun h => (mem_setIn_false.1 h).2 rfl, fun p hp => mem_setIn_false.trans (and_iff_left hp)⟩
  case unblocks =>
    refine ⟨_, by rw [exec_blockListRemoval, execBlockListRemoval, if_neg (by simp [hd, hr])], fun y => ?_⟩
    rw [State.die_modDie, List.mem_filter, bne_iff_ne]
  case stages =>
    refine ⟨_, { x with comms := x.comms.put n { x.comm n with staged := some r } },
      by rw [exec_rankTableStage, execRankTableStage, if_neg (by simp [hn, hr])], ?_, ?_, ?_⟩
    · rw [State.modComm, State.context_modContext, hx, Option.map_some]
    · rw [SMap.get_put_self]
    · rw [SMap.get_put_self, Context.comm]
  case arms =>
    let t := s.modDie d fun k => { k with joinArmed := b }
    have armed : (t.die d).joinArmed = b := by rw [State.die_modDie]
    have ran : exec (.joinEngineArm d b) s = .next (if b && t.power != .l0 && t.power != .l1 then t.wake else t) := by
      rw [exec_joinEngineArm, execJoinEngineArm, if_neg (by simp [hd, hr])]
    refine ⟨_, ran, ?_, ?_, ?_⟩
    · split
      · rw [State.die_wake, armed]
      · exact armed
    · split
      · rw [State.wake_power]; rfl
      · rfl
    · exact joinArm_wakes (s := t) b
  case noRoot => exact ⟨by rw [exec_masterFreeze, execMasterFreeze, if_pos (by simp [h])], by rw [exec_rankTableStage, execRankTableStage, if_pos (by simp [h])]⟩
  case noRootThere => exact ⟨by rw [exec_blockListRemoval, execBlockListRemoval, if_pos (by simp [h])],
    by rw [exec_joinEngineArm, execJoinEngineArm, if_pos (by simp [h])]⟩

end Sys2Proof.Machine
